-- ==== Sys2Proof/Word.lean ====
section
/-! DEFINITION. The word types of the Ronvar 4400 and their plainest arithmetic (spec/01 R11, R25; spec/02 R30). -/

namespace Sys2Proof

/-- A 64-bit scalar register, address or control register (R11). -/
abbrev Word := BitVec 64

/-- A byte of memory (R25). -/
abbrev Byte := BitVec 8

/-- 64 bytes: a memory block, a vector register (R11), a message or a tensor descriptor (R271). -/
abbrev Block := BitVec 512

/-- The number of a register of the scalar or the vector file (R11, R30). -/
abbrev Reg := Fin 32

end Sys2Proof
end

