-- ==== Sys2Proof/Syntax.lean ====
section
/-! DEFINITION. The syntax: operand types, and Instr with one constructor for each row of spec/opcode_table.json,
instructions (rows with a mnemonic of the spec) and steps of the part (the other rows, spec/95) alike. -/

namespace Sys2Proof

/-- Scalar floating-point type, FN[1:0] of R86. -/
inductive FpType | f32 | f16 | bf16 | t8
deriving DecidableEq, Repr

/-- Codes of FCVT, R89. -/
inductive CvtCode | f32 | f16 | bf16 | t8 | e4 | e5 | i32 | n32 | i64 | n64
deriving DecidableEq, Repr

/-- Vector element type, R32. -/
inductive ElType | i32 | i16 | i8 | i64 | f32 | f16 | bf16 | t8
deriving DecidableEq, Repr

/-- Access size, SZ.size of R31. -/
inductive Size | b | h | w | d
deriving DecidableEq, Repr

/-- Ordering of an access, ORD of R31. -/
inductive MemOrd | rlx | acq | rel | sc
deriving DecidableEq, Repr

/-- Scope, SCP of R31. -/
inductive Scope | core | clu | die | pkg | job | sys
deriving DecidableEq, Repr

/-- Ordering of FENCE, FN[1:0] of R205. -/
inductive FenceOrd | acq | rel | sc
deriving DecidableEq, Repr

/-- Atomic operations, SZ.var of R174. -/
inductive AtomOp | swap | add | and | or | xor | min | max | fadd
deriving DecidableEq, Repr

/-- The space named by SZ.size of SPACE.CAST, R174. -/
inductive SpaceSel | glb | prv | spd | clu
deriving DecidableEq, Repr

/-- The qualifiers of a memory access of format M: ordering, scope, eviction priority (R31). -/
structure MemQual where
  ord : MemOrd
  scope : Scope
  ev : Fin 8
deriving DecidableEq, Repr

/-- The extension word of a memory major (R33): index register, shift and signed displacement. -/
structure MemExt where
  xshift : Fin 8
  xindex : Reg
  disp : BitVec 32
deriving DecidableEq, Repr

/-- The extension word of a vector memory major (R125), but for the index shift. -/
structure VMemExt where
  sx : Reg
  ev : Fin 8
  scope : Scope
  ord : MemOrd
  base : Reg
  disp : BitVec 32
deriving DecidableEq, Repr

/-- A fabric packet: the header fields of R370 and its payload in 64-byte flits (the last one padded with zero).
`words` holds what a packet's kind needs besides the header and the spec gives no bit layout: address, operands, kind of
failure, back-off (R374 to R393; the layout is the model's, the log says so), and `poison` the flits that hold poisoned blocks (R434). -/
structure Packet where
  kind : Nat
  src : Nat
  dst : Nat
  part : Nat
  hop : Nat
  drop : Bool
  reply : Bool
  own : Nat
  seq : Nat
  off : Nat
  tot : Nat
  words : List Word
  flits : List Block
  poison : List Nat := []
deriving DecidableEq, Repr

/-- What a Matins command entry says in word 0 (R412): the function it came from (`none`: the physical function), its tag,
the target partition and the chain bit. -/
structure Cmd where
  fn : Option (Fin 16)
  tag : BitVec 16
  part : Fin 16
  chain : Bool
deriving DecidableEq, Repr

/-- The operands of MBX.ASSIGN (R409). -/
structure MbxAssign where
  owner : Fin 16
  ring : Nat
  k : Nat
  wakeCore : Nat
  irqSlot : Option (Fin 16)
  wakeRec : Nat
deriving DecidableEq, Repr

/-- The registers a host write reaches through BAR0 and BAR2 (R408, R429, R432, R437). -/
inductive BarReg
  | ring (m : Nat) | rsz (m : Nat) | prod (m : Nat) | cons (m : Nat)
  | bootStatus | recoveryImage
  | nonce (w : Fin 4) | reportAddr | reportGo
  | telemetry | ulog | ports
deriving DecidableEq, Repr

/-- What a start finds (R428 to R431): the bytes of the Matins patch image and of the Essiosh Gargiber image, whether each training step
succeeds, and the ports that fail theirs. -/
structure BootImage where
  image : List Byte
  garg : List Byte
  hbmOk : Bool
  ddrOk : Bool
  failedPorts : BitVec 24
deriving DecidableEq, Repr

/-- What a scrub read meets at a word (R434). -/
inductive EccError | clean | corrected | uncorrectable | control
deriving DecidableEq, Repr

/-- One telemetry sample (R437). -/
structure Telemetry where
  pwr : BitVec 12
  hot : BitVec 2
  tmax : BitVec 8
  tavg : BitVec 8
deriving DecidableEq, Repr

/-- The rows of spec/opcode_table.json, in its order. -/
inductive Instr
  /-- R74: Adds two registers modulo 2^64. -/
  | add (d a b : Reg)
  /-- R74: Adds a register and a 64-bit literal. -/
  | addLit (d a : Reg) (x : Word)
  /-- R74: Subtracts two registers. -/
  | sub (d a b : Reg)
  /-- R74: Subtracts a 64-bit literal from a register. -/
  | subLit (d a : Reg) (x : Word)
  /-- R74: Bitwise and of two registers. -/
  | and (d a b : Reg)
  /-- R74: Bitwise and with a literal. -/
  | andLit (d a : Reg) (x : Word)
  /-- R74: Bitwise or of two registers. -/
  | or (d a b : Reg)
  /-- R74: Bitwise or with a literal. -/
  | orLit (d a : Reg) (x : Word)
  /-- R74: Bitwise xor of two registers. -/
  | xor (d a b : Reg)
  /-- R74: Bitwise xor with a literal. -/
  | xorLit (d a : Reg) (x : Word)
  /-- R74: a and not b. -/
  | andn (d a b : Reg)
  /-- R74: a and not literal. -/
  | andnLit (d a : Reg) (x : Word)
  /-- R74: Logical left shift by b[5:0]. -/
  | sll (d a b : Reg)
  /-- R74: Left shift by a literal amount. -/
  | sllLit (d a : Reg) (x : Word)
  /-- R74: Logical right shift by b[5:0]. -/
  | srl (d a b : Reg)
  /-- R74: Logical right shift by a literal. -/
  | srlLit (d a : Reg) (x : Word)
  /-- R74: Arithmetic right shift by b[5:0]. -/
  | sra (d a b : Reg)
  /-- R74: Arithmetic right shift by a literal. -/
  | sraLit (d a : Reg) (x : Word)
  /-- R74: Rotate right by b[5:0]. -/
  | ror (d a b : Reg)
  /-- R74: Rotate right by a literal. -/
  | rorLit (d a : Reg) (x : Word)
  /-- R74: Signed less-than test. -/
  | slt (d a b : Reg)
  /-- R74: Signed less-than against a literal. -/
  | sltLit (d a : Reg) (x : Word)
  /-- R74: Unsigned less-than test. -/
  | sltu (d a b : Reg)
  /-- R74: Unsigned less-than against a literal. -/
  | sltuLit (d a : Reg) (x : Word)
  /-- R74: Equality test. -/
  | seq (d a b : Reg)
  /-- R74: Equality test against a literal. -/
  | seqLit (d a : Reg) (x : Word)
  /-- R74: Signed minimum. -/
  | min (d a b : Reg)
  /-- R74: Signed minimum with a literal. -/
  | minLit (d a : Reg) (x : Word)
  /-- R74: Signed maximum. -/
  | max (d a b : Reg)
  /-- R74: Signed maximum with a literal. -/
  | maxLit (d a : Reg) (x : Word)
  /-- R74: Unsigned minimum. -/
  | minu (d a b : Reg)
  /-- R74: Unsigned minimum with a literal. -/
  | minuLit (d a : Reg) (x : Word)
  /-- R74: Unsigned maximum. -/
  | maxu (d a b : Reg)
  /-- R74: Unsigned maximum with a literal. -/
  | maxuLit (d a : Reg) (x : Word)
  /-- R75: Low 64 bits of a product. -/
  | mul (d a b : Reg)
  /-- R75: Multiply by a literal. -/
  | mulLit (d a : Reg) (x : Word)
  /-- R75: High 64 bits of a signed product. -/
  | mulh (d a b : Reg)
  /-- R75: Signed high product with a literal. -/
  | mulhLit (d a : Reg) (x : Word)
  /-- R75: High 64 bits of an unsigned product. -/
  | mulhu (d a b : Reg)
  /-- R75: Unsigned high product with a literal. -/
  | mulhuLit (d a : Reg) (x : Word)
  /-- R75: Signed quotient; never traps. -/
  | div (d a b : Reg)
  /-- R75: Signed quotient by a literal. -/
  | divLit (d a : Reg) (x : Word)
  /-- R75: Unsigned quotient. -/
  | divu (d a b : Reg)
  /-- R75: Unsigned quotient by a literal. -/
  | divuLit (d a : Reg) (x : Word)
  /-- R75: Signed remainder. -/
  | rem (d a b : Reg)
  /-- R75: Signed remainder by a literal. -/
  | remLit (d a : Reg) (x : Word)
  /-- R75: Unsigned remainder. -/
  | remu (d a b : Reg)
  /-- R75: Unsigned remainder by a literal. -/
  | remuLit (d a : Reg) (x : Word)
  /-- R76: Adds a sign-extended 13-bit immediate. -/
  | addi (d a : Reg) (imm : BitVec 13)
  /-- R76: Ands with a sign-extended 13-bit immediate. -/
  | andi (d a : Reg) (imm : BitVec 13)
  /-- R77: Left shift by a constant. -/
  | slli (d a : Reg) (n : Fin 64)
  /-- R77: Logical right shift by a constant. -/
  | srli (d a : Reg) (n : Fin 64)
  /-- R77: Arithmetic right shift by a constant. -/
  | srai (d a : Reg) (n : Fin 64)
  /-- R77: Rotate right by a constant. -/
  | rori (d a : Reg) (n : Fin 64)
  /-- R78: Counts leading zero bits. -/
  | clz (d a : Reg)
  /-- R78: Counts trailing zero bits. -/
  | ctz (d a : Reg)
  /-- R78: Counts one bits. -/
  | popc (d a : Reg)
  /-- R78: Reverses bit order. -/
  | brev (d a : Reg)
  /-- R78: Reverses byte order. -/
  | bswap (d a : Reg)
  /-- R78: Sets bit b[5:0]. -/
  | bset (d a b : Reg)
  /-- R78: Sets the bit named by a literal. -/
  | bsetLit (d a : Reg) (x : Word)
  /-- R78: Clears bit b[5:0]. -/
  | bclr (d a b : Reg)
  /-- R78: Clears the bit named by a literal. -/
  | bclrLit (d a : Reg) (x : Word)
  /-- R78: Inverts bit b[5:0]. -/
  | binv (d a b : Reg)
  /-- R78: Inverts the bit named by a literal. -/
  | binvLit (d a : Reg) (x : Word)
  /-- R78: Extracts bit b[5:0]. -/
  | bext (d a b : Reg)
  /-- R78: Extracts the bit named by a literal. -/
  | bextLit (d a : Reg) (x : Word)
  /-- R78: Isolates the lowest one bit. -/
  | lowb (d a : Reg)
  /-- R78: Clears the lowest one bit. -/
  | clrlow (d a : Reg)
  /-- R78: Builds a mask of the low a bits. -/
  | maskn (d a : Reg)
  /-- R79: Zero-extending bit-field extract. -/
  | extu (d a : Reg) (pos len1 : Fin 64)
  /-- R79: Sign-extending bit-field extract. -/
  | exts (d a : Reg) (pos len1 : Fin 64)
  /-- R79: Inserts a bit field into d. -/
  | fins (d a : Reg) (pos len1 : Fin 64)
  /-- R81: Reads a zero-extended message header field. -/
  | hdrGet (d a : Reg) (pos : Fin 512) (len1 : Fin 64)
  /-- R81: Reads a sign-extended message header field. -/
  | hdrGets (d a : Reg) (pos : Fin 512) (len1 : Fin 64)
  /-- R81: Writes a message header field. -/
  | hdrSet (a b : Reg) (pos : Fin 512) (len1 : Fin 64)
  /-- R81: Compares a message header field with b. -/
  | hdrMatch (d a b : Reg) (pos : Fin 512) (len1 : Fin 64)
  /-- R81: Zeroes a group of eight registers. -/
  | hdrClr (a : Reg)
  /-- R82: Loads an 18-bit zero-extended immediate. -/
  | li (d : Reg) (imm : BitVec 18)
  /-- R82: Loads a 64-bit literal. -/
  | liLit (d : Reg) (x : Word)
  /-- R83: Forms a pc-relative address in 4-byte units. -/
  | la (d : Reg) (imm : BitVec 18)
  /-- R83: Forms pc plus a signed byte literal. -/
  | laLit (d : Reg) (x : Word)
  /-- R84: Selects a if c is non-zero, else b. -/
  | selnz (d a b c : Reg)
  /-- R84: Selects a if c is zero, else b. -/
  | selz (d a b c : Reg)
  /-- R84: Integer multiply-add. -/
  | madd (d a b c : Reg)
  /-- R84: Integer multiply-subtract. -/
  | msub (d a b c : Reg)
  /-- R86: Floating-point add rounded once. -/
  | fadd (t : FpType) (d a b : Reg)
  /-- R86: Floating-point add with a literal operand. -/
  | faddLit (t : FpType) (d a : Reg) (x : Word)
  /-- R86: Floating-point subtract. -/
  | fsub (t : FpType) (d a b : Reg)
  /-- R86: Floating-point subtract of a literal. -/
  | fsubLit (t : FpType) (d a : Reg) (x : Word)
  /-- R86: Floating-point multiply. -/
  | fmul (t : FpType) (d a b : Reg)
  /-- R86: Floating-point multiply by a literal. -/
  | fmulLit (t : FpType) (d a : Reg) (x : Word)
  /-- R86: Floating-point divide. -/
  | fdiv (t : FpType) (d a b : Reg)
  /-- R86: Floating-point divide by a literal. -/
  | fdivLit (t : FpType) (d a : Reg) (x : Word)
  /-- R71: IEEE minimumNumber. -/
  | fmin (t : FpType) (d a b : Reg)
  /-- R71: minimumNumber with a literal. -/
  | fminLit (t : FpType) (d a : Reg) (x : Word)
  /-- R71: IEEE maximumNumber. -/
  | fmax (t : FpType) (d a b : Reg)
  /-- R71: maximumNumber with a literal. -/
  | fmaxLit (t : FpType) (d a : Reg) (x : Word)
  /-- R86: Correctly rounded square root. -/
  | fsqrt (t : FpType) (d a : Reg)
  /-- R86: Inverts the sign bit. -/
  | fneg (t : FpType) (d a : Reg)
  /-- R86: Clears the sign bit. -/
  | fabs (t : FpType) (d a : Reg)
  /-- R87: Fused multiply-add, one rounding. -/
  | fma (t : FpType) (d a b c : Reg)
  /-- R87: Negated fused multiply-add. -/
  | fnma (t : FpType) (d a b c : Reg)
  /-- R88: Floating-point equality compare. -/
  | feq (t : FpType) (d a b : Reg)
  /-- R88: Floating-point less-than compare. -/
  | flt (t : FpType) (d a b : Reg)
  /-- R88: Floating-point less-or-equal compare. -/
  | fle (t : FpType) (d a b : Reg)
  /-- R88: Classifies a floating-point value. -/
  | fclass (t : FpType) (d a : Reg)
  /-- R89: Converts between scalar formats. -/
  | fcvt (tgt src : CvtCode) (d a : Reg)
  /-- R90: Branches if a register is zero. -/
  | bz (a : Reg) (off : BitVec 18)
  /-- R90: Branch-if-zero with a literal offset. -/
  | bzLit (a : Reg) (x : Word)
  /-- R90: Branches if a register is non-zero. -/
  | bnz (a : Reg) (off : BitVec 18)
  /-- R90: Branch-if-non-zero with a literal offset. -/
  | bnzLit (a : Reg) (x : Word)
  /-- R90: Jumps and links. -/
  | jal (a : Reg) (off : BitVec 18)
  /-- R90: Jump and link with a literal offset. -/
  | jalLit (a : Reg) (x : Word)
  /-- R91: Branches if equal. -/
  | beq (a b : Reg) (off : BitVec 32)
  /-- R91: Branches if not equal. -/
  | bne (a b : Reg) (off : BitVec 32)
  /-- R91: Branches if signed less. -/
  | blt (a b : Reg) (off : BitVec 32)
  /-- R91: Branches if signed greater or equal. -/
  | bge (a b : Reg) (off : BitVec 32)
  /-- R91: Branches if unsigned less. -/
  | bltu (a b : Reg) (off : BitVec 32)
  /-- R91: Branches if unsigned greater or equal. -/
  | bgeu (a b : Reg) (off : BitVec 32)
  /-- R91: Indirect jump and link without displacement. -/
  | jalr (d a : Reg)
  /-- R91: Indirect jump and link with a displacement. -/
  | jalrDisp (d a : Reg) (disp : BitVec 32)
  /-- R92: Branches if any masked bit is set. -/
  | bany (a b : Reg) (off : BitVec 32)
  /-- R92: Branches if no masked bit is set. -/
  | bnone (a b : Reg) (off : BitVec 32)
  /-- R92: Branches if all masked bits are set. -/
  | ball (a b : Reg) (off : BitVec 32)
  /-- R92: Branches if not all masked bits are set. -/
  | bnall (a b : Reg) (off : BitVec 32)
  /-- R95: Reads and writes a control register. -/
  | crrw (d a : Reg) (cr : BitVec 12)
  /-- R95: Reads and sets bits of a control register. -/
  | crrs (d a : Reg) (cr : BitVec 12)
  /-- R95: Reads and clears bits of a control register. -/
  | crrc (d a : Reg) (cr : BitVec 12)
  /-- R95: Reads and writes a control register from an immediate. -/
  | crrwi (d : Reg) (imm : Fin 32) (cr : BitVec 12)
  /-- R95: Reads and sets control-register bits from an immediate. -/
  | crrsi (d : Reg) (imm : Fin 32) (cr : BitVec 12)
  /-- R95: Reads and clears control-register bits from an immediate. -/
  | crrci (d : Reg) (imm : Fin 32) (cr : BitVec 12)
  /-- R18: Writes back stash, discards mappings, zeroes changed units and sets the split. -/
  | lsSplitWrite (t : Nat)
  /-- R97: Traps SYSCALL with a 15-bit code. -/
  | syscall (code : BitVec 15)
  /-- R97: Traps BREAK with a 15-bit code. -/
  | break (code : BitVec 15)
  /-- R23: Returns from a trap. -/
  | tret
  /-- R98: Puts the slot in HALTED state. -/
  | halt
  /-- R99: Waits until an interrupt is pending. -/
  | iwait
  /-- R341: Removes TLB entries for one page in a context. -/
  | tlbiVa (a b : Reg)
  /-- R341: Removes non-global entries of a context. -/
  | tlbiCtx (b : Reg)
  /-- R341: Removes every TLB entry of the cluster. -/
  | tlbiAll
  /-- R100: Waits for earlier TLBIs and their users to finish. -/
  | tlbsync
  /-- R343: Walks both translation stages without filling a TLB. -/
  | ptProbe (d a : Reg)
  /-- R349: Reads a word of the engine-fault descriptor. -/
  | faultRd (d a : Reg)
  /-- R101: Waits for remote stores then posts the partition completion to Matins. -/
  | partDone (a : Reg)
  /-- R175: Zero-extending load, base register only. -/
  | ld (sz : Size) (d base : Reg) (q : MemQual)
  /-- R175: Zero-extending load with index and displacement. -/
  | ldExt (sz : Size) (d base : Reg) (q : MemQual) (x : MemExt)
  /-- R175: Sign-extending load, base register only. -/
  | lds (sz : Size) (d base : Reg) (q : MemQual)
  /-- R175: Sign-extending load with extension word. -/
  | ldsExt (sz : Size) (d base : Reg) (q : MemQual) (x : MemExt)
  /-- R175: Store, base register only. -/
  | st (sz : Size) (a base : Reg) (q : MemQual)
  /-- R175: Store with extension word. -/
  | stExt (sz : Size) (a base : Reg) (q : MemQual) (x : MemExt)
  /-- R176: Atomic swap at the owning point. -/
  | atomSwap (sz : Size) (d base : Reg) (q : MemQual)
  /-- R176: Atomic swap with extension word. -/
  | atomSwapExt (sz : Size) (d base : Reg) (q : MemQual) (x : MemExt)
  /-- R176: Atomic add. -/
  | atomAdd (sz : Size) (d base : Reg) (q : MemQual)
  /-- R176: Atomic add with extension word. -/
  | atomAddExt (sz : Size) (d base : Reg) (q : MemQual) (x : MemExt)
  /-- R176: Atomic and. -/
  | atomAnd (sz : Size) (d base : Reg) (q : MemQual)
  /-- R176: Atomic and with extension word. -/
  | atomAndExt (sz : Size) (d base : Reg) (q : MemQual) (x : MemExt)
  /-- R176: Atomic or. -/
  | atomOr (sz : Size) (d base : Reg) (q : MemQual)
  /-- R176: Atomic or with extension word. -/
  | atomOrExt (sz : Size) (d base : Reg) (q : MemQual) (x : MemExt)
  /-- R176: Atomic xor. -/
  | atomXor (sz : Size) (d base : Reg) (q : MemQual)
  /-- R176: Atomic xor with extension word. -/
  | atomXorExt (sz : Size) (d base : Reg) (q : MemQual) (x : MemExt)
  /-- R176: Atomic signed minimum. -/
  | atomMin (sz : Size) (d base : Reg) (q : MemQual)
  /-- R176: Atomic signed minimum with extension word. -/
  | atomMinExt (sz : Size) (d base : Reg) (q : MemQual) (x : MemExt)
  /-- R176: Atomic signed maximum. -/
  | atomMax (sz : Size) (d base : Reg) (q : MemQual)
  /-- R176: Atomic signed maximum with extension word. -/
  | atomMaxExt (sz : Size) (d base : Reg) (q : MemQual) (x : MemExt)
  /-- R176: Atomic f32 add, nearest even, no flags. -/
  | atomFadd (d base : Reg) (q : MemQual)
  /-- R176: Atomic f32 add with extension word. -/
  | atomFaddExt (d base : Reg) (q : MemQual) (x : MemExt)
  /-- R177: Compare-and-swap with a register pair. -/
  | cas (sz : Size) (d base : Reg) (q : MemQual)
  /-- R177: Compare-and-swap with extension word. -/
  | casExt (sz : Size) (d base : Reg) (q : MemQual) (x : MemExt)
  /-- R179: Atomically writes the low nibble of a byte. -/
  | stnibLo (a base : Reg) (q : MemQual)
  /-- R179: Low-nibble store with extension word. -/
  | stnibLoExt (a base : Reg) (q : MemQual) (x : MemExt)
  /-- R179: Atomically writes the high nibble of a byte. -/
  | stnibHi (a base : Reg) (q : MemQual)
  /-- R179: High-nibble store with extension word. -/
  | stnibHiExt (a base : Reg) (q : MemQual) (x : MemExt)
  /-- R180: Prefetches up to 4 KiB; never traps. -/
  | pref (n base : Reg) (ev : Fin 8)
  /-- R180: Prefetch with extension word. -/
  | prefExt (n base : Reg) (ev : Fin 8) (x : MemExt)
  /-- R181: Writes back dirty blocks, keeping them read-only. -/
  | cclean (n base : Reg) (sc : Scope)
  /-- R181: Cache clean with extension word. -/
  | ccleanExt (n base : Reg) (sc : Scope) (x : MemExt)
  /-- R181: Writes back and invalidates blocks. -/
  | cflush (n base : Reg) (sc : Scope)
  /-- R181: Cache flush with extension word. -/
  | cflushExt (n base : Reg) (sc : Scope) (x : MemExt)
  /-- R182: Makes written code visible to instruction fetch within a scope. -/
  | codeflush (n base : Reg) (sc : Scope)
  /-- R182: Code flush with extension word. -/
  | codeflushExt (n base : Reg) (sc : Scope) (x : MemExt)
  /-- R182: Discards fetched, unissued instructions of the slot. -/
  | ifence
  /-- R183: Creates a stash mapping. -/
  | stashMap (c base : Reg)
  /-- R183: Stash map with extension word. -/
  | stashMapExt (c base : Reg) (x : MemExt)
  /-- R183: Writes back and removes a stash mapping. -/
  | stashUnmap (base : Reg)
  /-- R183: Stash unmap with extension word. -/
  | stashUnmapExt (base : Reg) (x : MemExt)
  /-- R184: Classifies a generic pointer. -/
  | spaceTest (d a : Reg)
  /-- R185: Builds a generic pointer from an offset. -/
  | spaceCastGen (sp : SpaceSel) (d a : Reg)
  /-- R185: Extracts the offset of a generic pointer. -/
  | spaceCastOff (sp : SpaceSel) (d a : Reg)
  /-- R206: Orders the slot's accesses at a scope. -/
  | fence (o : FenceOrd) (sc : Scope)
  /-- R260: Appends scalar bytes at the page's reserve pointer. -/
  | append (sz : Size) (d base : Reg) (rel : Bool) (sc : Scope)
  /-- R260: Scalar append with extension word. -/
  | appendExt (sz : Size) (d base : Reg) (rel : Bool) (sc : Scope) (x : MemExt)
  /-- R260: Appends up to 64 bytes of a vector register. -/
  | appendV (d base : Reg) (rel : Bool) (sc : Scope)
  /-- R260: Vector append with extension word. -/
  | appendVExt (d base : Reg) (rel : Bool) (sc : Scope) (x : MemExt)
  /-- R261: Reads the published tail and sealed flag. -/
  | tailrd (d base : Reg) (sc : Scope)
  /-- R261: Tail read with extension word. -/
  | tailrdExt (d base : Reg) (sc : Scope) (x : MemExt)
  /-- R261: Seals an append page and returns its length. -/
  | seal (d base : Reg) (sc : Scope)
  /-- R261: Seal with extension word. -/
  | sealExt (d base : Reg) (sc : Scope) (x : MemExt)
  /-- R262: Returns a sealed page to use. -/
  | freeSeal (base : Reg)
  /-- R262: Free seal with extension word. -/
  | freeSealExt (base : Reg) (x : MemExt)
  /-- R143: Pushes a record built from registers. -/
  | fork (d a b c : Reg)
  /-- R143: Increments the join count and pushes a record. -/
  | forkInc (d a b c : Reg)
  /-- R143: Pushes a record read from memory. -/
  | forkm (a : Reg)
  /-- R143: Increments the join count and pushes a record from memory. -/
  | forkmInc (a : Reg)
  /-- R145: Splits and deals a range record. -/
  | rfork (a : Reg)
  /-- R146: Ends the running record. -/
  | done
  /-- R147: Decrements a join cell and may start its continuation. -/
  | join (sc : Scope) (a : Reg)
  /-- R144: Queues a record as the oldest entry and ends the record. -/
  | yield (a : Reg)
  /-- R148: Leaves the rotation for a number of cycles. -/
  | pause (a : Reg)
  /-- R149: Configures a barrier register. -/
  | barSet (n : Fin 8) (a : Reg)
  /-- R151: Arrives at a barrier. -/
  | barArrive (n : Fin 8)
  /-- R151: Waits for a barrier phase. -/
  | barWait (n : Fin 8)
  /-- R151: Arrives and waits at a barrier. -/
  | barSync (n : Fin 8)
  /-- R149: Reads a barrier register. -/
  | barGet (d : Reg) (n : Fin 8)
  /-- R152: Waits for and takes a mailbox notify value. -/
  | mbxWait (d a : Reg)
  /-- R152: Takes a mailbox notify value if present. -/
  | mbxPoll (d a : Reg)
  /-- R153: Returns th.id. -/
  | selfId (d : Reg)
  /-- R153: Returns the core's mesh position. -/
  | selfXy (d : Reg)
  /-- R153: Returns the running record's domain bits. -/
  | selfDom (d : Reg)
  /-- R153: Returns the idle count of a domain. -/
  | selfIdle (d a : Reg)
  /-- R111: Lane-wise add, 32-bit form. -/
  | vadd (ty : ElType) (m d a b : Reg)
  /-- R111: Lane-wise add with scalar, unsigned or saturating options. -/
  | vaddX (ty : ElType) (m d a b : Reg) (bs un sat : Bool)
  /-- R111: Lane-wise subtract, 32-bit form. -/
  | vsub (ty : ElType) (m d a b : Reg)
  /-- R111: Lane-wise subtract with extension options. -/
  | vsubX (ty : ElType) (m d a b : Reg) (bs un sat : Bool)
  /-- R111: Lane-wise multiply, 32-bit form. -/
  | vmul (ty : ElType) (m d a b : Reg)
  /-- R111: Lane-wise multiply with a scalar operand. -/
  | vmulX (ty : ElType) (m d a b : Reg) (bs : Bool)
  /-- R111: Lane-wise high product, 32-bit form. -/
  | vmulh (ty : ElType) (m d a b : Reg)
  /-- R111: Lane-wise high product with extension options. -/
  | vmulhX (ty : ElType) (m d a b : Reg) (bs un : Bool)
  /-- R111: Lane-wise minimum, 32-bit form. -/
  | vmin (ty : ElType) (m d a b : Reg)
  /-- R111: Lane-wise minimum with extension options. -/
  | vminX (ty : ElType) (m d a b : Reg) (bs un : Bool)
  /-- R111: Lane-wise maximum, 32-bit form. -/
  | vmax (ty : ElType) (m d a b : Reg)
  /-- R111: Lane-wise maximum with extension options. -/
  | vmaxX (ty : ElType) (m d a b : Reg) (bs un : Bool)
  /-- R112: Lane-wise and, 32-bit form. -/
  | vand (ty : ElType) (m d a b : Reg)
  /-- R112: Lane-wise and with a scalar operand. -/
  | vandX (ty : ElType) (m d a b : Reg) (bs : Bool)
  /-- R112: Lane-wise or. -/
  | vor (ty : ElType) (m d a b : Reg) (bs : Bool)
  /-- R112: Lane-wise xor. -/
  | vxor (ty : ElType) (m d a b : Reg) (bs : Bool)
  /-- R112: Lane-wise and-not. -/
  | vandn (ty : ElType) (m d a b : Reg) (bs : Bool)
  /-- R113: Lane-wise left shift, 32-bit form. -/
  | vsll (ty : ElType) (m d a b : Reg)
  /-- R113: Lane-wise left shift by a scalar. -/
  | vsllX (ty : ElType) (m d a b : Reg) (bs : Bool)
  /-- R113: Lane-wise logical right shift. -/
  | vsrl (ty : ElType) (m d a b : Reg) (bs : Bool)
  /-- R113: Lane-wise arithmetic right shift. -/
  | vsra (ty : ElType) (m d a b : Reg) (bs : Bool)
  /-- R113: Lane-wise left shift by imm8. -/
  | vslli (ty : ElType) (m d a : Reg) (n : BitVec 8)
  /-- R113: Lane-wise logical right shift by imm8. -/
  | vsrli (ty : ElType) (m d a : Reg) (n : BitVec 8)
  /-- R113: Lane-wise arithmetic right shift by imm8. -/
  | vsrai (ty : ElType) (m d a : Reg) (n : BitVec 8)
  /-- R114: Lane-wise fused multiply-add with vc = v0. -/
  | vfma (ty : ElType) (m d a b : Reg)
  /-- R114: Lane-wise fused multiply-add with a named vc. -/
  | vfmaX (ty : ElType) (m d a b : Reg) (bs : Bool) (vc : Reg)
  /-- R114: Lane-wise negated fused multiply-add. -/
  | vfnma (ty : ElType) (m d a b : Reg) (bs : Bool) (vc : Reg)
  /-- R115: Lane-wise negate, 32-bit form. -/
  | vneg (ty : ElType) (m d a : Reg)
  /-- R115: Lane-wise saturating negate. -/
  | vnegX (ty : ElType) (m d a : Reg) (sat : Bool)
  /-- R115: Lane-wise absolute value. -/
  | vabs (ty : ElType) (m d a : Reg) (sat : Bool)
  /-- R116: Lane conversion from i32, part 0. -/
  | vcvt (ty : ElType) (m d a : Reg)
  /-- R116: Lane conversion with source type and part. -/
  | vcvtX (ty : ElType) (m d a : Reg) (un sat : Bool) (src : ElType) (srcUn : Bool) (p : Fin 8)
  /-- R117: Lane equality compare to a mask, 32-bit form. -/
  | vceq (ty : ElType) (m a b : Reg)
  /-- R117: Lane equality compare into register sx. -/
  | vceqX (ty : ElType) (m a b : Reg) (bs un : Bool) (sx : Reg)
  /-- R117: Lane not-equal compare. -/
  | vcne (ty : ElType) (m a b : Reg) (bs un : Bool) (sx : Reg)
  /-- R117: Lane less-than compare. -/
  | vclt (ty : ElType) (m a b : Reg) (bs un : Bool) (sx : Reg)
  /-- R117: Lane less-or-equal compare. -/
  | vcle (ty : ElType) (m a b : Reg) (bs un : Bool) (sx : Reg)
  /-- R117: Lane greater-than compare. -/
  | vcgt (ty : ElType) (m a b : Reg) (bs un : Bool) (sx : Reg)
  /-- R117: Lane greater-or-equal compare. -/
  | vcge (ty : ElType) (m a b : Reg) (bs un : Bool) (sx : Reg)
  /-- R118: Selects lanes of two vectors by mask. -/
  | vsel (ty : ElType) (m d a b : Reg)
  /-- R118: Selects between lanes and a scalar. -/
  | vselX (ty : ElType) (m d a b : Reg) (bs : Bool)
  /-- R119: Reduction sum, 32-bit form. -/
  | vredsum (ty : ElType) (m a : Reg)
  /-- R119: Reduction sum into register sx. -/
  | vredsumX (ty : ElType) (m a : Reg) (un : Bool) (sx : Reg)
  /-- R119: Reduction minimum. -/
  | vredmin (ty : ElType) (m a : Reg) (un : Bool) (sx : Reg)
  /-- R119: Reduction maximum. -/
  | vredmax (ty : ElType) (m a : Reg) (un : Bool) (sx : Reg)
  /-- R119: Reduction and. -/
  | vredand (ty : ElType) (m a : Reg) (un : Bool) (sx : Reg)
  /-- R119: Reduction or. -/
  | vredor (ty : ElType) (m a : Reg) (un : Bool) (sx : Reg)
  /-- R119: Reduction xor. -/
  | vredxor (ty : ElType) (m a : Reg) (un : Bool) (sx : Reg)
  /-- R120: Four-way dot product into 16 lanes. -/
  | vdot (ty : ElType) (m d a b : Reg)
  /-- R120: Unsigned or saturating i8 dot product. -/
  | vdotX (ty : ElType) (m d a b : Reg) (un sat : Bool)
  /-- R121: Permutes lanes by a vector index. -/
  | vperm (ty : ElType) (m d a b : Reg)
  /-- R121: Permutes lanes by a scalar index. -/
  | vpermX (ty : ElType) (m d a b : Reg) (bs : Bool)
  /-- R121: Slides lanes toward higher indices. -/
  | vslideh (ty : ElType) (m d a : Reg) (n : BitVec 8)
  /-- R121: Slides lanes toward lower indices. -/
  | vslidel (ty : ElType) (m d a : Reg) (n : BitVec 8)
  /-- R121: Reverses lane order. -/
  | vrev (ty : ElType) (m d a : Reg)
  /-- R122: Broadcasts s0 to lanes, 32-bit form. -/
  | vbcast (ty : ElType) (m d : Reg)
  /-- R122: Broadcasts scalar sx to lanes. -/
  | vbcastX (ty : ElType) (m d sx : Reg)
  /-- R122: Broadcasts one lane. -/
  | vbcastl (ty : ElType) (m d a : Reg) (k : BitVec 8)
  /-- R122: Writes lane numbers. -/
  | vindex (ty : ElType) (m d : Reg)
  /-- R122: Extracts lane 0 to s0, 32-bit form. -/
  | vext (ty : ElType) (a : Reg)
  /-- R122: Extracts lane k to scalar sx. -/
  | vextX (ty : ElType) (a : Reg) (un : Bool) (sx : Reg) (k : BitVec 8)
  /-- R122: Inserts a scalar into lane k. -/
  | vins (ty : ElType) (d sx : Reg) (k : BitVec 8)
  /-- R123: Compresses active lanes, 32-bit form. -/
  | vcprs (ty : ElType) (m d a : Reg)
  /-- R123: Compresses lanes and writes the count to sx. -/
  | vcprsX (ty : ElType) (m d a sx : Reg)
  /-- R123: Expands lanes by mask. -/
  | vexpd (ty : ElType) (m d a sx : Reg)
  /-- R126: Unit-stride vector load. -/
  | vld (ty : ElType) (m d : Reg) (x : VMemExt)
  /-- R126: Unit-stride vector store. -/
  | vst (ty : ElType) (m d : Reg) (x : VMemExt)
  /-- R126: Strided vector load. -/
  | vlds (ty : ElType) (m d b : Reg) (x : VMemExt)
  /-- R126: Strided vector store. -/
  | vsts (ty : ElType) (m d b : Reg) (x : VMemExt)
  /-- R127: Vector gather with progress register. -/
  | vgath (ty : ElType) (m d b : Reg) (shift : Fin 8) (x : VMemExt)
  /-- R127: Vector scatter with progress register. -/
  | vscat (ty : ElType) (m d b : Reg) (shift : Fin 8) (x : VMemExt)
  /-- R279: Loads a tensor descriptor from memory. -/
  | tdLd (a : Reg) (ta : Fin 64)
  /-- R279: Stores a tensor descriptor to memory. -/
  | tdSt (a : Reg) (ta : Fin 64)
  /-- R279: Reads a word of a descriptor. -/
  | tdRdw (d : Reg) (ta : Fin 64) (w : Fin 8)
  /-- R279: Writes a word of a descriptor. -/
  | tdWrw (b : Reg) (ta : Fin 64) (w : Fin 8)
  /-- R281: Matrix product into an accumulator tile. -/
  | mm (ta tb : Fin 64) (tile : Fin 2)
  /-- R287: Exact four-bit counting product with drains. -/
  | mc (ta tb : Fin 64) (tile : Fin 2)
  /-- R288: Counts into bank A without draining. -/
  | mcNdA (ta tb : Fin 64) (tile : Fin 2)
  /-- R288: Counts into bank B without draining. -/
  | mcNdB (ta tb : Fin 64) (tile : Fin 2)
  /-- R289: Drains bank A into its recorded tile. -/
  | drainA
  /-- R289: Drains bank B into its recorded tile. -/
  | drainB
  /-- R289: Adds bank A into bank B. -/
  | bankMergeAb
  /-- R289: Adds bank B into bank A. -/
  | bankMergeBa
  /-- R290: Adds an exact tile image to a tile. -/
  | accMerge (a : Reg) (tile : Fin 2)
  /-- R292: Clears a tile to FP mode. -/
  | accClrF (tile : Fin 2)
  /-- R292: Clears a tile to exact mode with its exponent. -/
  | accClrX (ta tb : Fin 64) (tile : Fin 2)
  /-- R293: Converts a tile into a destination tensor. -/
  | accCvt (ta : Fin 64) (tile : Fin 2)
  /-- R294: Stores a tile image. -/
  | accSt (a : Reg) (tile : Fin 2)
  /-- R294: Loads a tile image. -/
  | accLd (a : Reg) (tile : Fin 2)
  /-- R295: Copies a tensor into the weight buffer. -/
  | wbLd (ta tb : Fin 64)
  /-- R296: Writes the 2-of-4 compressed form of a tensor. -/
  | compress (ta tb : Fin 64)
  /-- R297: Saves selected engine state. -/
  | msave (a : Reg) (mask : BitVec 5)
  /-- R297: Restores selected engine state. -/
  | mrestore (a : Reg) (mask : BitVec 5)
  /-- R276: The queue starts the next operation and runs its state-dependent checks. -/
  | tensorOpStart (c : Nat)
  /-- R275: A tensor operation completes and its slot is re-admitted. -/
  | tensorOpComplete (c : Nat) (wb : Bool)
  /-- R307: Starts a copy channel transfer. -/
  | cpStart (n : Fin 4) (d a b : Reg)
  /-- R310: Waits until a channel's write pointer reaches a bound. -/
  | cpWaitge (n : Fin 4) (d a : Reg)
  /-- R306: Reads a channel's write pointer. -/
  | cpWp (n : Fin 4) (d : Reg)
  /-- R305: Reads a channel's status word. -/
  | cpStat (n : Fin 4) (d : Reg)
  /-- R312: Stops a channel at the next 256-byte boundary. -/
  | cpStop (n : Fin 4)
  /-- R313: Continues a FAULTED channel. -/
  | cpResume (n : Fin 4)
  /-- R309: A channel performs destination bytes in order and advances wp. -/
  | channelDelivery (c : Nat) (n : Fin 4)
  /-- R312: A stopping channel reaches its stop point and re-admits the stopper. -/
  | channelStopped (c : Nat) (n : Fin 4)
  /-- R313: A channel access faults; channel FAULTED and ENGINE_FAULT raised. -/
  | channelFault (c : Nat) (n : Fin 4)
  /-- R316: Writes the distributor pattern register. -/
  | distSet (a : Reg)
  /-- R318: Starts a distributor burst. -/
  | distGo (d a b : Reg)
  /-- R318: Reads the burst status. -/
  | distStat (d : Reg)
  /-- R318: Continues a FAULTED burst. -/
  | distResume
  /-- R317: The distributor deals one block to a scratchpad. -/
  | distBlock (c : Nat)
  /-- R319: The last block is performed; release and join-cell decrement. -/
  | distBurstComplete (c : Nat)
  /-- R321: Vector 2^a. -/
  | sfuExp2 (ty : ElType) (m d a : Reg)
  /-- R321: Vector log2. -/
  | sfuLog2 (ty : ElType) (m d a : Reg)
  /-- R321: Vector reciprocal. -/
  | sfuRcp (ty : ElType) (m d a : Reg)
  /-- R321: Vector reciprocal square root. -/
  | sfuRsqrt (ty : ElType) (m d a : Reg)
  /-- R321: Vector square root, correctly rounded. -/
  | sfuSqrt (ty : ElType) (m d a : Reg)
  /-- R321: Vector sine. -/
  | sfuSin (ty : ElType) (m d a : Reg)
  /-- R321: Vector cosine. -/
  | sfuCos (ty : ElType) (m d a : Reg)
  /-- R321: Vector tanh. -/
  | sfuTanh (ty : ElType) (m d a : Reg)
  /-- R321: Vector sigmoid. -/
  | sfuSigm (ty : ElType) (m d a : Reg)
  /-- R321: Vector erf. -/
  | sfuErf (ty : ElType) (m d a : Reg)
  /-- R322: An SFU queue entry completes and writes or parks its result. -/
  | sfuEntryComplete (c : Nat)
  /-- R378: Injects a message toward a rank's core. -/
  | qinj (a b : Reg)
  /-- R378: Injects a message as a release at .JOB. -/
  | qinjRel (a b : Reg)
  /-- R379: Takes a received message, waiting. -/
  | qrcv (a : Reg)
  /-- R379: Takes a received message if present. -/
  | qpoll (d a : Reg)
  /-- R377: Counts takeable received messages. -/
  | qcnt (d : Reg)
  /-- R382: Sends a remote load with a reply tag. -/
  | rld (tag : Fin 8) (sz : Size) (acq : Bool) (a b : Reg)
  /-- R382: Sends a fire-and-forget remote store. -/
  | rst (sz : Size) (rel : Bool) (d a b : Reg)
  /-- R382: Sends a remote atomic with a reply tag. -/
  | ratom (op : AtomOp) (tag : Fin 8) (sz : Size) (o : MemOrd) (d a b : Reg)
  /-- R382: Sends a remote compare-and-swap. -/
  | ratomCas (tag : Fin 8) (sz : Size) (o : MemOrd) (d a b : Reg)
  /-- R383: Waits for and collects a remote reply tag. -/
  | rwait (d : Reg) (n : Fin 8)
  /-- R387: Starts a bulk write to a rank. -/
  | bulkWr (tag : Option (Fin 8)) (d a b c : Reg)
  /-- R387: Starts a tagged bulk read from a rank. -/
  | bulkRd (tag : Fin 8) (d a b c : Reg)
  /-- R394: Returns this device, partition and rank. -/
  | rankMe (d : Reg)
  /-- R394: Reads a rank-table entry. -/
  | rankRd (d a : Reg)
  /-- R394: Binds or unbinds a protocol-8 frame. -/
  | rbind (d a b : Reg)
  /-- R236: Sends an ACK granting a tag. -/
  | tagGnt (a b : Reg)
  /-- R236: Sends DATA_S or DATA_X with the block buffer. -/
  | tagGntd (a b : Reg)
  /-- R237: Sends RECALL to a holder. -/
  | tagRcl (a b : Reg)
  /-- R238: Writes s12 and s13 to the directory entry. -/
  | dirWr
  /-- R238: Adds a sharer in s12, s13. -/
  | dirShadd (a : Reg)
  /-- R238: Removes a sharer pointer. -/
  | dirShdel (a : Reg)
  /-- R239: Sends a message from a register group. -/
  | msgSend (a b : Reg)
  /-- R239: Multicasts to the entry's holders. -/
  | msgMcast (d a b : Reg)
  /-- R240: Reads a block into data memory. -/
  | btRd (a b : Reg)
  /-- R240: Writes a block from data memory. -/
  | btWr (a b : Reg)
  /-- R240: Merges masked elements into memory. -/
  | btMrg (a b : Reg)
  /-- R241: Ends a handler invocation. -/
  | hend
  /-- R241: Sends FAIL with a cause. -/
  | hfail (a b : Reg)
  /-- R242: Reads a page's bias bit. -/
  | biasRd (d a : Reg)
  /-- R242: Writes a page's bias bit. -/
  | biasWr (a b : Reg)
  /-- R407: Sends BISnpInv for lines of a page. -/
  | biSnp (b : Reg)
  /-- R22: A slot takes a pending interrupt between instructions. -/
  | interruptTake (t : Nat)
  /-- R383: A failed fire-and-forget operation is delivered as REMOTE_ERROR. -/
  | remoteErrorTake (t : Nat)
  /-- R136: An idle slot pops a deque entry. -/
  | recordPop (c : Nat)
  /-- R134: The deque moves oldest entries to its backing area. -/
  | dequeSpill (c : Nat)
  /-- R134: Backing entries move back to the hardware part. -/
  | dequeRefill (c : Nat)
  /-- R137: Steal logic searches victims for an entry. -/
  | stealSearch (c : Nat)
  /-- R135: A stolen record arrives and starts or is queued. -/
  | stealArrival (k : Nat)
  /-- R139: A die root deals a waiting share when a core becomes idle. -/
  | undealtShareDeal (die : Nat)
  /-- R139: A dry die takes half of another root's undealt range. -/
  | rangeTransfer (die : Nat)
  /-- R150: A barrier arrival message reaches a neighbour core. -/
  | barrierArrival (k : Nat)
  /-- R150: A barrier release inverts the phase and re-admits waiters. -/
  | barrierRelease (k : Nat)
  /-- R148: A pause's cycle count runs out. -/
  | pauseExpiry (t : Nat)
  /-- R221: A read request arrives at a home and is dispatched or queued. -/
  | gets (k : Nat)
  /-- R221: An exclusive request arrives at a home. -/
  | getx (k : Nat)
  /-- R221: An upgrade request arrives at a home. -/
  | upg (k : Nat)
  /-- R232: A writable line's put arrives at a home. -/
  | putx (k : Nat)
  /-- R232: A read-only line's put arrives at a home. -/
  | puts (k : Nat)
  /-- R234: Partial written bytes arrive at a home for merge. -/
  | putp (k : Nat)
  /-- R176: An atomic request arrives at a home. -/
  | atom (k : Nat)
  /-- R250: An append arrives at an append page's home. -/
  | apnd (k : Nat)
  /-- R251: A copy-channel fill arrives for a reservation. -/
  | apndFill (k : Nat)
  /-- R251: A reservation request arrives at an append page's home. -/
  | arsv (k : Nat)
  /-- R261: A tail query arrives at a home or replica agent. -/
  | tailq (k : Nat)
  /-- R255: A seal request arrives at a home. -/
  | sealqSeal (k : Nat)
  /-- R257: A free request arrives at a home. -/
  | sealqFree (k : Nat)
  /-- R256: A replica agent is told to copy a sealed page. -/
  | replicateNotice (k : Nat)
  /-- R256: A replica copy completes and waiting reads are served. -/
  | replicaCopyComplete (p page : Nat)
  /-- R257: A replica agent drops its replica. -/
  | replicaInvalidate (k : Nat)
  /-- R215: A type 25-31 message arrives for a loadable protocol. -/
  | customMessage (k : Nat)
  /-- R210: A forwarded recall arrives at a holder core. -/
  | recall (k : Nat)
  /-- R210: A forwarded invalidate arrives at a holder core. -/
  | inv (k : Nat)
  /-- R210: Pushed bytes arrive at a sharer core. -/
  | push (k : Nat)
  /-- R210: A held or deferred forwarded request is applied. -/
  | deferredRequestApply (c k : Nat)
  /-- R209: A read-only grant with data arrives at a core. -/
  | dataS (k : Nat)
  /-- R209: A writable grant with data arrives at a core. -/
  | dataX (k : Nat)
  /-- R209: An acknowledgement or tag grant arrives at a core. -/
  | ack (k : Nat)
  /-- R209: A BUSY reply arrives at a core. -/
  | busy (k : Nat)
  /-- R209: A RETRY reply arrives at a core. -/
  | retry (k : Nat)
  /-- R209: A retry back-off ends and the request is reposted or becomes direct. -/
  | retryBackoffExpiry (c blk : Nat)
  /-- R209: A FAIL reply arrives; suspended slots trap. -/
  | fail (k : Nat)
  /-- R233: Written-back data arrives at a home. -/
  | wbData (k : Nat)
  /-- R233: An invalidate acknowledgement arrives at a home. -/
  | invAck (k : Nat)
  /-- R215: An atomic or append result arrives at the requester. -/
  | result (k : Nat)
  /-- R224: A handler reaches its step limit and is aborted. -/
  | handlerWatchdog (t : Nat)
  /-- R230: An entry stays transient with waiters for 2^24 cycles; region fails. -/
  | transientWatchdog (p blk : Nat)
  /-- R378: A queue message reaches its target core's receive queue. -/
  | queueMessage (p : Packet)
  /-- R382: A remote load packet is performed at the target. -/
  | remoteLoad (p : Packet)
  /-- R382: A remote store packet is performed at the target. -/
  | remoteStore (p : Packet)
  /-- R382: A remote atomic packet is performed at its home. -/
  | remoteAtomic (p : Packet)
  /-- R382: A value reply makes a reply tag ready. -/
  | valueReply (p : Packet)
  /-- R375: A fabric acknowledgement completes an operation at the source. -/
  | acknowledgement (p : Packet)
  /-- R376: A bulk data packet is reassembled at the target. -/
  | bulkWriteData (p : Packet)
  /-- R388: A bulk read request starts data return. -/
  | bulkReadRequest (p : Packet)
  /-- R389: Bulk read data is written to the local range. -/
  | bulkReadData (p : Packet)
  /-- R388: A drop notice reaches the sender of a dropped packet. -/
  | dropNotice (p : Packet)
  /-- R388: A reservation request arrives at a reassembly processor. -/
  | reservationRequest (p : Packet)
  /-- R388: A reservation grant reaches the sender. -/
  | reservationGrant (p : Packet)
  /-- R388: The sender resends a dropped packet at its reserved time. -/
  | reservedResend (k : Nat)
  /-- R380: A refusal with back-off reaches the source. -/
  | refusal (p : Packet)
  /-- R386: A failure report reaches the source. -/
  | failureReport (p : Packet)
  /-- R391: A protocol-8 page read request arrives. -/
  | pageReadRequest (p : Packet)
  /-- R391: A protocol-8 exclusive page request arrives. -/
  | pageExclusiveRequest (p : Packet)
  /-- R391: A whole page arrives at a proxy. -/
  | pageData (p : Packet)
  /-- R392: A page recall arrives at a proxy or home. -/
  | pageRecall (p : Packet)
  /-- R392: A recalled page's data arrives at its home. -/
  | pageWriteBack (p : Packet)
  /-- R392: A page acknowledgement completes a page transfer. -/
  | pageAcknowledgement (p : Packet)
  /-- R368: A device forwards a packet for another device. -/
  | packetForward (p : Packet) (room : List Nat)
  /-- R375: No acknowledgement after 100 µs; the operation is resent. -/
  | fabricResendTimeout (k : Nat)
  /-- R365: A flit failing its CRC is resent in order. -/
  | linkFlitResend (link : Nat)
  /-- R371: A failed link retrains, discarding packets in flight. -/
  | linkRetrain (port : Nat)
  /-- R399: Host data and GO arrive at processor 72. -/
  | hostGoResponse (pa : Nat) (data : Block) (excl : Bool)
  /-- R400: Host invalidating snoop. -/
  | snpinv (pa : Nat)
  /-- R400: Host data snoop. -/
  | snpdata (pa : Nat)
  /-- R400: Host current-value snoop. -/
  | snpcur (pa : Nat)
  /-- R404: Host read of the HDM-DB window. -/
  | hostMemrd (pa : Nat)
  /-- R403: Host write to the HDM-DB window. -/
  | hostMemwr (pa : Nat) (mask : Word) (data : Block)
  /-- R409: A host write to mb.notify is latched and acted on. -/
  | notifyWrite (fn m : Nat) (v : Word)
  /-- R9: Write to a register without its own behaviour. -/
  | registerWrite (fn : Nat) (r : BarReg) (v : Word)
  /-- R416: Loads a partition configuration. -/
  | partCfg (c : Cmd) (pa : Nat)
  /-- R419: Starts or restarts a partition. -/
  | partStart (c : Cmd)
  /-- R419: Stops a partition and ends its launches. -/
  | partStop (c : Cmd)
  /-- R214: Binds a region after zeroing its directory. -/
  | regionBind (c : Cmd) (idx : Nat) (e : BitVec 256)
  /-- R214: Unbinds a region in four steps. -/
  | regionUnbind (c : Cmd) (idx : Nat)
  /-- R246: Loads a Gargiber image into protocol processors. -/
  | imageLoad (c : Cmd) (addr len : Nat) (mask : BitVec 128)
  /-- R368: Loads the device number and route table. -/
  | routeLoad (c : Cmd) (dev : Nat) (es : List (Nat × BitVec 32))
  /-- R372: Writes rank-table entries. -/
  | rankWrite (c : Cmd) (es : List (Nat × BitVec 32))
  /-- R360: Installs or removes a real-time contract. -/
  | contract (c : Cmd) (e : BitVec 256)
  /-- R417: Seeded launch with residency and leases. -/
  | launch (c : Cmd) (recs : List (Word × Bool)) (ranges : List (Word × Word)) (quota : Nat)
  /-- R417: Matins pushes the next launch record when a core falls below quota. -/
  | launchSeed (part : Nat)
  /-- R418: Delivers a message to a mailbox ring. -/
  | deliver (c : Cmd) (m : Nat) (v : Word) (msg : BitVec 448)
  /-- R350: Directs PREEMPT with reason 0 at one slot. -/
  | preemptCmd (c : Cmd) (core slot : Nat)
  /-- R420: Partition-wide IFENCE. -/
  | ifenceCmd (c : Cmd)
  /-- R346: Answers a page request. -/
  | pageReply (c : Cmd) (w : Word)
  /-- R363: Sets record, replay or off mode. -/
  | record (c : Cmd) (mode : Nat) (trace mbox : Nat)
  /-- R412: Flips a range of window pages. -/
  | biasSet (c : Cmd) (page count : Nat) (host : Bool)
  /-- R420: Removes stage-2 translations. -/
  | s2Inv (c : Cmd) (page : Word)
  /-- R409: Assigns a mailbox to a partition. -/
  | mbxAssign (c : Cmd) (m : Nat) (e : MbxAssign)
  /-- R402: Names the HDM-DB window and bias table. -/
  | hdmCfg (c : Cmd) (base size table : Nat)
  /-- R421: Writes a partition image and releases its cores. -/
  | partExport (c : Cmd) (area size : Nat)
  /-- R421: Resumes a partition from an image. -/
  | partImport (c : Cmd) (area : Nat)
  /-- R413: Names the physical function's event ring. -/
  | eventCfg (c : Cmd) (ring : Word)
  /-- R354: A swap command halts the outgoing partition on a cluster. -/
  | partitionSwap (out : Nat) (inc : Nat) (reason : Nat)
  /-- R354: The outgoing partition's lines are put back. -/
  | swapFlush (cl : Nat)
  /-- R356: Register state is exchanged with the shadow store. -/
  | swapExchange (cl : Nat)
  /-- R361: A contract period begins and its budget renews. -/
  | periodStart (part : Nat)
  /-- R361: A contract budget runs out. -/
  | budgetExhausted (part : Nat)
  /-- R361: A time slice ends between uncontracted partners. -/
  | timeSliceExpiry (part : Nat)
  /-- R361: A contract partition runs out of work and yields. -/
  | partitionNoWork (part : Nat)
  /-- R201: Matins copies trace-ring entries to the log. -/
  | traceRingCopy (port : Nat)
  /-- R363: A held replay event waits too long; partition halted. -/
  | replayDivergence (part port : Nat)
  /-- R410: A cluster idle for 4,000 cycles is clock-gated. -/
  | clusterClockGate (cl : Nat)
  /-- R410: A host command power-gates an idle cluster. -/
  | clusterPowerGate (cl : Nat)
  /-- R410: Vesper wakes a gated cluster. -/
  | clusterWake (cl : Nat)
  /-- R428: Power-up begins a cold start. -/
  | powerOn (img : BootImage)
  /-- R428: A fundamental reset begins a cold start. -/
  | fundamentalReset (img : BootImage)
  /-- R428: A CXL hot reset begins a warm start. -/
  | hotReset (img : BootImage)
  /-- R429: Writing bs.rst begins a cold start. -/
  | bootReset (img : BootImage)
  /-- R435: PCIe power management puts the device in D3hot. -/
  | d3hotEntry
  /-- R435: Power removal enters D3cold. -/
  | powerOff
  /-- R432: Matins writes a signed attestation report. -/
  | attestRequest
  /-- R433: Memory refresh blocks a controller. -/
  | refresh (ctl : Nat)
  /-- R433: A recalibration slice runs. -/
  | recalibration (ctl : Nat)
  /-- R434: Scrubbing reads and corrects memory words. -/
  | scrub (pa : Nat) (err : EccError)
  /-- R436: A hot sensor for 1 ms raises the throttle level. -/
  | throttleRaise
  /-- R436: Cool sensors for 10 ms lower the throttle level. -/
  | throttleLower
  /-- R436: 95 °C at level 3 stops the device. -/
  | thermalShutdown
  /-- R437: Telemetry is sampled every 1 ms. -/
  | telemetrySample (t : Telemetry)
  /-- R36: A slot issues a bit pattern that is no instruction and traps precisely with ILLEGAL_OP. -/
  | illegalOpEncoding (w : BitVec 32)
  /-- R104: The reply or acceptance of an access that uses no coherence message reaches its slot or engine, which is then re-admitted. -/
  | memoryAccessReply (t : Nat)
  /-- R129: The last block of a vector access touching more than two blocks is delivered and the slot is re-admitted. -/
  | vectorBlockDelivery (t : Nat)
  /-- R100: A TLBI that runs on after issue finishes removing its entries, which can release a waiting TLBSYNC. -/
  | tlbiCompletion (cl : Nat)
  /-- R182: Every core within the scope has acknowledged the instruction-cache invalidation and CODEFLUSH completes. -/
  | codeflushAcknowledgement (t : Nat)
  /-- R401: A PCIe completion for a device-issued CXL.io read, zero-length read or AtomicOp arrives from the host. -/
  | cxlIoCompletion (t : Nat)
  /-- R380: The back-off of a fabric refusal runs out and the source resends under the same sequence number. -/
  | refusalBackoffResend (k : Nat)
deriving DecidableEq, Repr

end Sys2Proof
end

