-- ==== Sys2Proof/WellFormed.lean ====
section
/-! DEFINITION. Which operands an instruction may name: the patterns that are no instruction because of an operand's value
(spec/02 R36 and the owning chapters). A step of the part is always well formed. -/

namespace Sys2Proof

/-- The types I of R110. -/
def ElType.isInt : ElType → Bool
  | .i32 | .i16 | .i8 | .i64 => true
  | .f32 | .f16 | .bf16 | .t8 => false

/-- Lane width in bits (R32). -/
def ElType.width : ElType → Nat
  | .i8 | .t8 => 8
  | .i16 | .f16 | .bf16 => 16
  | .i32 | .f32 => 32
  | .i64 => 64

/-- Lanes of a vector register (R32). -/
def ElType.lanes : ElType → Nat
  | .i8 | .t8 => 64
  | .i16 | .f16 | .bf16 => 32
  | .i32 | .f32 => 16
  | .i64 => 8

/-- Integer conversion codes (R89). -/
def CvtCode.isInt : CvtCode → Bool
  | .i32 | .n32 | .i64 | .n64 => true
  | .f32 | .f16 | .bf16 | .t8 | .e4 | .e5 => false

/-- Sizes of an atomic: 4 or 8 bytes (R176, R177). -/
def Size.atomic : Size → Bool
  | .w | .d => true
  | .b | .h => false

/-- A non-zero xshift with xindex 0 is no instruction (R33). -/
def MemExt.ok (x : MemExt) : Bool := x.xindex.val != 0 || x.xshift.val == 0

/-- A register group A to A+7 of a message must lie in s1 to s31 (R81, R239, R378). -/
def groupOk (a : Reg) : Bool := 1 ≤ a.val && a.val ≤ 24

/-- A bit field must end by bit 63 (R79). -/
def fieldOk (pos len1 : Fin 64) : Bool := pos.val + len1.val + 1 ≤ 64

/-- A header field must stay inside one register of the group (R81). -/
def hdrOk (a : Reg) (pos : Fin 512) (len1 : Fin 64) : Bool := groupOk a && pos.val % 64 + len1.val + 1 ≤ 64

/-- A register pair d, d+1 must not use s0 nor pass s31 (R177). -/
def pairOk (d : Reg) : Bool := d.val != 0 && d.val != 31

/-- un and sat need an integer type (R109). -/
def intOnly (ty : ElType) (opt : Bool) : Bool := ty.isInt || !opt

/-- The progress register differs from the mask, the base and a stride register (R125). -/
def vmemOk (m : Reg) (stride : Option Reg) (x : VMemExt) : Bool :=
  x.sx.val == 0 || (x.sx != m && x.sx != x.base && stride != some x.sx)

/-- VCVT (R116): options, part number, and not the same type and signedness. -/
def vcvtOk (ty : ElType) (un sat : Bool) (src : ElType) (srcUn : Bool) (p : Nat) : Bool :=
  intOnly ty un && intOnly src srcUn && (!sat || (ty.isInt && src.isInt)) && !(ty == src && un == srcUn) &&
    p < Nat.max ty.lanes src.lanes / Nat.min ty.lanes src.lanes

/-- VDOT takes t8 or i8, and un and sat with i8 only (R120). -/
def vdotOk (ty : ElType) (un sat : Bool) : Bool := ty == .i8 || (ty == .t8 && !un && !sat)

/-- Whether an instruction's operands are ones the spec allows (R36). -/
def Instr.wf (i : Instr) : Bool :=
  match i with
  | .extu _ _ pos len1 | .exts _ _ pos len1 | .fins _ _ pos len1 => fieldOk pos len1
  | .hdrGet _ a pos len1 | .hdrGets _ a pos len1 | .hdrSet a _ pos len1 | .hdrMatch _ a _ pos len1 => hdrOk a pos len1
  | .hdrClr a => groupOk a
  | .fcvt tgt src _ _ => tgt != src && !(tgt.isInt && src.isInt)
  | .ld _ _ _ q => q.ord != .rel
  | .ldExt _ _ _ q x => q.ord != .rel && x.ok
  | .lds sz _ _ q => sz != .d && q.ord != .rel
  | .ldsExt sz _ _ q x => sz != .d && q.ord != .rel && x.ok
  | .st _ _ _ q => q.ord != .acq
  | .stExt _ _ _ q x => q.ord != .acq && x.ok
  | .atomSwap sz _ _ _ | .atomAdd sz _ _ _ | .atomAnd sz _ _ _ | .atomOr sz _ _ _ | .atomXor sz _ _ _
  | .atomMin sz _ _ _ | .atomMax sz _ _ _ => sz.atomic
  | .atomSwapExt sz _ _ _ x | .atomAddExt sz _ _ _ x | .atomAndExt sz _ _ _ x | .atomOrExt sz _ _ _ x
  | .atomXorExt sz _ _ _ x | .atomMinExt sz _ _ _ x | .atomMaxExt sz _ _ _ x => sz.atomic && x.ok
  | .atomFaddExt _ _ _ x | .stnibLoExt _ _ _ x | .stnibHiExt _ _ _ x | .prefExt _ _ _ x | .ccleanExt _ _ _ x
  | .cflushExt _ _ _ x | .codeflushExt _ _ _ x | .stashMapExt _ _ x | .stashUnmapExt _ x | .appendExt _ _ _ _ _ x
  | .appendVExt _ _ _ _ x | .tailrdExt _ _ _ x | .sealExt _ _ _ x | .freeSealExt _ x => x.ok
  | .cas sz d _ _ => sz.atomic && pairOk d
  | .casExt sz d _ _ x => sz.atomic && pairOk d && x.ok
  | .vaddX ty _ _ _ _ _ un sat | .vsubX ty _ _ _ _ _ un sat => intOnly ty (un || sat)
  | .vmulh ty _ _ _ _ | .vmulhX ty _ _ _ _ _ _ | .vand ty _ _ _ _ | .vandX ty _ _ _ _ _ | .vor ty _ _ _ _ _
  | .vxor ty _ _ _ _ _ | .vandn ty _ _ _ _ _ | .vsll ty _ _ _ _ | .vsllX ty _ _ _ _ _ | .vsrl ty _ _ _ _ _
  | .vsra ty _ _ _ _ _ | .vindex ty _ _ | .vredand ty _ _ _ _ | .vredor ty _ _ _ _ | .vredxor ty _ _ _ _ => ty.isInt
  | .vminX ty _ _ _ _ _ un | .vmaxX ty _ _ _ _ _ un | .vredsumX ty _ _ un _ | .vredmin ty _ _ un _
  | .vredmax ty _ _ un _ => intOnly ty un
  | .vslli ty _ _ _ n | .vsrli ty _ _ _ n | .vsrai ty _ _ _ n => ty.isInt && n.toNat < ty.width
  | .vfma ty _ _ _ _ | .vfmaX ty _ _ _ _ _ _ | .vfnma ty _ _ _ _ _ _ | .sfuExp2 ty _ _ _ | .sfuLog2 ty _ _ _
  | .sfuRcp ty _ _ _ | .sfuRsqrt ty _ _ _ | .sfuSqrt ty _ _ _ | .sfuSin ty _ _ _ | .sfuCos ty _ _ _
  | .sfuTanh ty _ _ _ | .sfuSigm ty _ _ _ | .sfuErf ty _ _ _ => !ty.isInt
  | .vnegX ty _ _ _ sat | .vabs ty _ _ _ sat => intOnly ty sat
  | .vcvt ty _ _ _ => vcvtOk ty false false .i32 false 0
  | .vcvtX ty _ _ _ un sat src srcUn p => vcvtOk ty un sat src srcUn p.val
  | .vceqX ty _ _ _ _ un _ | .vcne ty _ _ _ _ un _ | .vclt ty _ _ _ _ un _ | .vcle ty _ _ _ _ un _
  | .vcgt ty _ _ _ _ un _ | .vcge ty _ _ _ _ un _ => intOnly ty un
  | .vdot ty _ _ _ _ => vdotOk ty false false
  | .vdotX ty _ _ _ _ un sat => vdotOk ty un sat
  | .vbcastl ty _ _ _ k | .vins ty _ _ k => k.toNat < ty.lanes
  | .vextX ty _ un _ k => intOnly ty un && k.toNat < ty.lanes
  | .vld _ m _ x | .vst _ m _ x | .vgath _ m _ _ _ x | .vscat _ m _ _ _ x => vmemOk m none x
  | .vlds _ m _ b x | .vsts _ m _ b x => vmemOk m (some b) x
  | .qinj a _ | .qinjRel a _ | .qrcv a | .msgSend a _ | .msgMcast _ a _ => groupOk a
  | .qpoll d a => groupOk a && !(a.val ≤ d.val && d.val ≤ a.val + 7)
  | .ratom op _ sz _ _ _ _ => sz.atomic && (op != .fadd || sz == .w)
  | .ratomCas _ sz _ d _ _ => sz.atomic && pairOk d
  | _ => true

end Sys2Proof
end

