-- ==== Sys2Proof/Decode.lean ====
section
/-! DEFINITION. Decoding and encoding (spec/02 R28 to R37, and the encoding tables of every owning chapter). -/

namespace Sys2Proof

/-- `w` bits of `n` from bit `lo` upward. -/
def fld (n lo w : Nat) : Nat := n / 2 ^ lo % 2 ^ w

/-- A Bool as a bit. -/
def bit (b : Bool) : Nat := if b then 1 else 0

/-- The fields of the base word in their format-A places (R30), with the extension and the literal word (R33, R34), each
zero when the length names none. -/
structure Raw where
  len : Fin 4 := 0
  major : Fin 128 := 0
  d : Fin 32 := 0
  a : Fin 32 := 0
  b : Fin 32 := 0
  fn : Fin 256 := 0
  ext : Word := 0
  lit : Word := 0
deriving DecidableEq, Repr

/-- Whether the length names an extension word (R28). -/
def Raw.hasExt (len : Fin 4) : Bool := 2 ≤ len.val

/-- Whether the length names a literal word (R28). -/
def Raw.hasLit (len : Fin 4) : Bool := len.val % 2 = 1

/-- Length of an instruction in bytes (R28). -/
def lenBytes (len : Fin 4) : Nat := if len.val = 0 then 4 else if len.val = 3 then 20 else 12

/-- The fields of a base word (R30). -/
def Raw.ofBase (w : Nat) : Raw :=
  { len := Fin.ofNat 4 w, major := Fin.ofNat 128 (w / 2 ^ 2), d := Fin.ofNat 32 (w / 2 ^ 9), a := Fin.ofNat 32 (w / 2 ^ 14),
    b := Fin.ofNat 32 (w / 2 ^ 19), fn := Fin.ofNat 256 (w / 2 ^ 24) }

/-- The base word of the fields (R30). -/
def Raw.base (r : Raw) : Nat :=
  r.len.val + r.major.val * 2 ^ 2 + r.d.val * 2 ^ 9 + r.a.val * 2 ^ 14 + r.b.val * 2 ^ 19 + r.fn.val * 2 ^ 24

def FpType.code : FpType → Nat | .f32 => 0 | .f16 => 1 | .bf16 => 2 | .t8 => 3
def FpType.ofCode (n : Nat) : FpType := match n % 4 with | 0 => .f32 | 1 => .f16 | 2 => .bf16 | _ => .t8

def CvtCode.code : CvtCode → Nat
  | .f32 => 0 | .f16 => 1 | .bf16 => 2 | .t8 => 3 | .e4 => 4 | .e5 => 5 | .i32 => 8 | .n32 => 9 | .i64 => 10 | .n64 => 11
def CvtCode.ofCode? (n : Nat) : Option CvtCode :=
  match n with
  | 0 => some .f32 | 1 => some .f16 | 2 => some .bf16 | 3 => some .t8 | 4 => some .e4 | 5 => some .e5
  | 8 => some .i32 | 9 => some .n32 | 10 => some .i64 | 11 => some .n64 | _ => none

def ElType.code : ElType → Nat
  | .i32 => 0 | .i16 => 1 | .i8 => 2 | .i64 => 3 | .f32 => 4 | .f16 => 5 | .bf16 => 6 | .t8 => 7
def ElType.ofCode (n : Nat) : ElType :=
  match n % 8 with | 0 => .i32 | 1 => .i16 | 2 => .i8 | 3 => .i64 | 4 => .f32 | 5 => .f16 | 6 => .bf16 | _ => .t8

def Size.code : Size → Nat | .b => 0 | .h => 1 | .w => 2 | .d => 3
def Size.ofCode (n : Nat) : Size := match n % 4 with | 0 => .b | 1 => .h | 2 => .w | _ => .d

def MemOrd.code : MemOrd → Nat | .rlx => 0 | .acq => 1 | .rel => 2 | .sc => 3
def MemOrd.ofCode (n : Nat) : MemOrd := match n % 4 with | 0 => .rlx | 1 => .acq | 2 => .rel | _ => .sc

def Scope.code : Scope → Nat | .core => 0 | .clu => 1 | .die => 2 | .pkg => 3 | .job => 4 | .sys => 5
def Scope.ofCode? (n : Nat) : Option Scope :=
  match n with
  | 0 => some .core | 1 => some .clu | 2 => some .die | 3 => some .pkg | 4 => some .job | 5 => some .sys | _ => none

def FenceOrd.code : FenceOrd → Nat | .acq => 1 | .rel => 2 | .sc => 3
def FenceOrd.ofCode? (n : Nat) : Option FenceOrd :=
  match n with | 1 => some .acq | 2 => some .rel | 3 => some .sc | _ => none

def AtomOp.code : AtomOp → Nat
  | .swap => 0 | .add => 1 | .and => 2 | .or => 3 | .xor => 4 | .min => 5 | .max => 6 | .fadd => 7
def AtomOp.ofCode (n : Nat) : AtomOp :=
  match n % 8 with
  | 0 => .swap | 1 => .add | 2 => .and | 3 => .or | 4 => .xor | 5 => .min | 6 => .max | _ => .fadd

def SpaceSel.code : SpaceSel → Nat | .glb => 0 | .prv => 1 | .spd => 2 | .clu => 3
def SpaceSel.ofCode (n : Nat) : SpaceSel := match n % 4 with | 0 => .glb | 1 => .prv | 2 => .spd | _ => .clu

/-- Ordering, scope and eviction of a format-M base word (R31); scopes 6 and 7 are no instruction. -/
def Raw.memQual? (r : Raw) : Option MemQual :=
  (Scope.ofCode? (r.b.val / 4)).bind fun sc => some ⟨MemOrd.ofCode r.b.val, sc, Fin.ofNat 8 r.fn.val⟩

/-- The memory extension word (R33). -/
def MemExt.ofExt (x : Word) : MemExt :=
  ⟨Fin.ofNat 8 (fld x.toNat 37 3), Fin.ofNat 32 (fld x.toNat 32 5), BitVec.ofNat 32 x.toNat⟩
def MemExt.toExt (x : MemExt) : Nat := x.disp.toNat + x.xindex.val * 2 ^ 32 + x.xshift.val * 2 ^ 37

/-- The vector memory extension word (R125), but for xshift. -/
def VMemExt.ofExt? (x : Word) : Option VMemExt :=
  (Scope.ofCode? (fld x.toNat 42 3)).bind fun sc =>
    some ⟨Fin.ofNat 32 (fld x.toNat 51 5), Fin.ofNat 8 (fld x.toNat 45 3), sc, MemOrd.ofCode (fld x.toNat 40 2),
      Fin.ofNat 32 (fld x.toNat 32 5), BitVec.ofNat 32 x.toNat⟩
def VMemExt.toExt (x : VMemExt) : Nat :=
  x.disp.toNat + x.base.val * 2 ^ 32 + x.ord.code * 2 ^ 40 + x.scope.code * 2 ^ 42 + x.ev.val * 2 ^ 45 + x.sx.val * 2 ^ 51

/-- The tag bits of a bulk transfer's extension word (R387). -/
def bulkTag (t : Option (Fin 8)) : Nat := match t with | none => 0 | some n => n.val + 2 ^ 7

/-- Major 0x01: ADD to MAXU_LIT. -/
noncomputable def decode01 (r : Raw) : Option Instr :=
  if r.len.val = 0 then
    match r.fn.val with
    | 0 => some (.add r.d r.a r.b)
    | 1 => some (.sub r.d r.a r.b)
    | 2 => some (.and r.d r.a r.b)
    | 3 => some (.or r.d r.a r.b)
    | 4 => some (.xor r.d r.a r.b)
    | 5 => some (.andn r.d r.a r.b)
    | 8 => some (.sll r.d r.a r.b)
    | 9 => some (.srl r.d r.a r.b)
    | 10 => some (.sra r.d r.a r.b)
    | 11 => some (.ror r.d r.a r.b)
    | 16 => some (.slt r.d r.a r.b)
    | 17 => some (.sltu r.d r.a r.b)
    | 18 => some (.seq r.d r.a r.b)
    | 20 => some (.min r.d r.a r.b)
    | 21 => some (.max r.d r.a r.b)
    | 22 => some (.minu r.d r.a r.b)
    | 23 => some (.maxu r.d r.a r.b)
    | _ => none
  else if r.len.val = 1 then
    match r.fn.val with
    | 0 => if r.b.val = 0 then some (.addLit r.d r.a r.lit) else none
    | 1 => if r.b.val = 0 then some (.subLit r.d r.a r.lit) else none
    | 2 => if r.b.val = 0 then some (.andLit r.d r.a r.lit) else none
    | 3 => if r.b.val = 0 then some (.orLit r.d r.a r.lit) else none
    | 4 => if r.b.val = 0 then some (.xorLit r.d r.a r.lit) else none
    | 5 => if r.b.val = 0 then some (.andnLit r.d r.a r.lit) else none
    | 8 => if r.b.val = 0 then some (.sllLit r.d r.a r.lit) else none
    | 9 => if r.b.val = 0 then some (.srlLit r.d r.a r.lit) else none
    | 10 => if r.b.val = 0 then some (.sraLit r.d r.a r.lit) else none
    | 11 => if r.b.val = 0 then some (.rorLit r.d r.a r.lit) else none
    | 16 => if r.b.val = 0 then some (.sltLit r.d r.a r.lit) else none
    | 17 => if r.b.val = 0 then some (.sltuLit r.d r.a r.lit) else none
    | 18 => if r.b.val = 0 then some (.seqLit r.d r.a r.lit) else none
    | 20 => if r.b.val = 0 then some (.minLit r.d r.a r.lit) else none
    | 21 => if r.b.val = 0 then some (.maxLit r.d r.a r.lit) else none
    | 22 => if r.b.val = 0 then some (.minuLit r.d r.a r.lit) else none
    | 23 => if r.b.val = 0 then some (.maxuLit r.d r.a r.lit) else none
    | _ => none
  else none

/-- Major 0x02: MUL to REMU_LIT. -/
noncomputable def decode02 (r : Raw) : Option Instr :=
  if r.len.val = 0 then
    match r.fn.val with
    | 0 => some (.mul r.d r.a r.b)
    | 1 => some (.mulh r.d r.a r.b)
    | 2 => some (.mulhu r.d r.a r.b)
    | 4 => some (.div r.d r.a r.b)
    | 5 => some (.divu r.d r.a r.b)
    | 6 => some (.rem r.d r.a r.b)
    | 7 => some (.remu r.d r.a r.b)
    | _ => none
  else if r.len.val = 1 then
    match r.fn.val with
    | 0 => if r.b.val = 0 then some (.mulLit r.d r.a r.lit) else none
    | 1 => if r.b.val = 0 then some (.mulhLit r.d r.a r.lit) else none
    | 2 => if r.b.val = 0 then some (.mulhuLit r.d r.a r.lit) else none
    | 4 => if r.b.val = 0 then some (.divLit r.d r.a r.lit) else none
    | 5 => if r.b.val = 0 then some (.divuLit r.d r.a r.lit) else none
    | 6 => if r.b.val = 0 then some (.remLit r.d r.a r.lit) else none
    | 7 => if r.b.val = 0 then some (.remuLit r.d r.a r.lit) else none
    | _ => none
  else none

/-- Major 0x03: ADDI. -/
noncomputable def decode03 (r : Raw) : Option Instr :=
  if r.len.val = 0 then
    some (.addi r.d r.a (BitVec.ofNat 13 (r.fn.val * 32 + r.b.val)))
  else none

/-- Major 0x04: ANDI. -/
noncomputable def decode04 (r : Raw) : Option Instr :=
  if r.len.val = 0 then
    some (.andi r.d r.a (BitVec.ofNat 13 (r.fn.val * 32 + r.b.val)))
  else none

/-- Major 0x05: SLLI to RORI. -/
noncomputable def decode05 (r : Raw) : Option Instr :=
  if r.len.val = 0 then
    match r.fn.val / 64 with
    | 0 => if r.b.val = 0 then some (.slli r.d r.a (Fin.ofNat 64 r.fn.val)) else none
    | 1 => if r.b.val = 0 then some (.srli r.d r.a (Fin.ofNat 64 r.fn.val)) else none
    | 2 => if r.b.val = 0 then some (.srai r.d r.a (Fin.ofNat 64 r.fn.val)) else none
    | 3 => if r.b.val = 0 then some (.rori r.d r.a (Fin.ofNat 64 r.fn.val)) else none
    | _ => none
  else none

/-- Major 0x06: CLZ to BEXT_LIT. -/
noncomputable def decode06 (r : Raw) : Option Instr :=
  if r.len.val = 0 then
    match r.fn.val with
    | 0 => if r.b.val = 0 then some (.clz r.d r.a) else none
    | 1 => if r.b.val = 0 then some (.ctz r.d r.a) else none
    | 2 => if r.b.val = 0 then some (.popc r.d r.a) else none
    | 3 => if r.b.val = 0 then some (.brev r.d r.a) else none
    | 4 => if r.b.val = 0 then some (.bswap r.d r.a) else none
    | 12 => if r.b.val = 0 then some (.lowb r.d r.a) else none
    | 13 => if r.b.val = 0 then some (.clrlow r.d r.a) else none
    | 14 => if r.b.val = 0 then some (.maskn r.d r.a) else none
    | 8 => some (.bset r.d r.a r.b)
    | 9 => some (.bclr r.d r.a r.b)
    | 10 => some (.binv r.d r.a r.b)
    | 11 => some (.bext r.d r.a r.b)
    | _ => none
  else if r.len.val = 1 then
    match r.fn.val with
    | 8 => if r.b.val = 0 then some (.bsetLit r.d r.a r.lit) else none
    | 9 => if r.b.val = 0 then some (.bclrLit r.d r.a r.lit) else none
    | 10 => if r.b.val = 0 then some (.binvLit r.d r.a r.lit) else none
    | 11 => if r.b.val = 0 then some (.bextLit r.d r.a r.lit) else none
    | _ => none
  else none

/-- Major 0x07: EXTU to EXTS. -/
noncomputable def decode07 (r : Raw) : Option Instr :=
  if r.len.val = 0 then
    match r.fn.val / 128 with
    | 0 => some (.extu r.d r.a (Fin.ofNat 64 (r.fn.val % 2 * 32 + r.b.val)) (Fin.ofNat 64 (r.fn.val / 2)))
    | 1 => some (.exts r.d r.a (Fin.ofNat 64 (r.fn.val % 2 * 32 + r.b.val)) (Fin.ofNat 64 (r.fn.val / 2)))
    | _ => none
  else none

/-- Major 0x08: FINS. -/
noncomputable def decode08 (r : Raw) : Option Instr :=
  if r.len.val = 0 then
    match r.fn.val / 128 with
    | 0 => some (.fins r.d r.a (Fin.ofNat 64 (r.fn.val % 2 * 32 + r.b.val)) (Fin.ofNat 64 (r.fn.val / 2)))
    | _ => none
  else none

/-- Major 0x09: HDR_GET to HDR_CLR. -/
noncomputable def decode09 (r : Raw) : Option Instr :=
  if r.len.val = 0 then
    match r.fn.val with
    | 4 => if r.d.val = 0 ∧ r.b.val = 0 then some (.hdrClr r.a) else none
    | _ => none
  else if r.len.val = 2 then
    match r.fn.val with
    | 0 => if r.b.val = 0 ∧ fld r.ext.toNat 15 49 = 0 then some (.hdrGet r.d r.a (Fin.ofNat 512 r.ext.toNat) (Fin.ofNat 64 (r.ext.toNat / 2 ^ 9))) else none
    | 1 => if r.b.val = 0 ∧ fld r.ext.toNat 15 49 = 0 then some (.hdrGets r.d r.a (Fin.ofNat 512 r.ext.toNat) (Fin.ofNat 64 (r.ext.toNat / 2 ^ 9))) else none
    | 2 => if r.d.val = 0 ∧ fld r.ext.toNat 15 49 = 0 then some (.hdrSet r.a r.b (Fin.ofNat 512 r.ext.toNat) (Fin.ofNat 64 (r.ext.toNat / 2 ^ 9))) else none
    | 3 => if fld r.ext.toNat 15 49 = 0 then some (.hdrMatch r.d r.a r.b (Fin.ofNat 512 r.ext.toNat) (Fin.ofNat 64 (r.ext.toNat / 2 ^ 9))) else none
    | _ => none
  else none

/-- Major 0x0A: LI to LI_LIT. -/
noncomputable def decode0A (r : Raw) : Option Instr :=
  if r.len.val = 0 then
    some (.li r.d (BitVec.ofNat 18 (r.fn.val * 1024 + r.b.val * 32 + r.a.val)))
  else if r.len.val = 1 then
    if r.a.val = 0 ∧ r.b.val = 0 ∧ r.fn.val = 0 then some (.liLit r.d r.lit) else none
  else none

/-- Major 0x0B: LA to LA_LIT. -/
noncomputable def decode0B (r : Raw) : Option Instr :=
  if r.len.val = 0 then
    some (.la r.d (BitVec.ofNat 18 (r.fn.val * 1024 + r.b.val * 32 + r.a.val)))
  else if r.len.val = 1 then
    if r.a.val = 0 ∧ r.b.val = 0 ∧ r.fn.val = 0 then some (.laLit r.d r.lit) else none
  else none

/-- Major 0x0C: SELNZ to MSUB. -/
noncomputable def decode0C (r : Raw) : Option Instr :=
  if r.len.val = 0 then
    match r.fn.val / 32 with
    | 0 => some (.selnz r.d r.a r.b (Fin.ofNat 32 r.fn.val))
    | 1 => some (.selz r.d r.a r.b (Fin.ofNat 32 r.fn.val))
    | 2 => some (.madd r.d r.a r.b (Fin.ofNat 32 r.fn.val))
    | 3 => some (.msub r.d r.a r.b (Fin.ofNat 32 r.fn.val))
    | _ => none
  else none

/-- Major 0x10: FADD to FABS. -/
noncomputable def decode10 (r : Raw) : Option Instr :=
  if r.len.val = 0 then
    match r.fn.val / 4 with
    | 0 => some (.fadd (FpType.ofCode r.fn.val) r.d r.a r.b)
    | 1 => some (.fsub (FpType.ofCode r.fn.val) r.d r.a r.b)
    | 2 => some (.fmul (FpType.ofCode r.fn.val) r.d r.a r.b)
    | 3 => some (.fdiv (FpType.ofCode r.fn.val) r.d r.a r.b)
    | 4 => some (.fmin (FpType.ofCode r.fn.val) r.d r.a r.b)
    | 5 => some (.fmax (FpType.ofCode r.fn.val) r.d r.a r.b)
    | 6 => if r.b.val = 0 then some (.fsqrt (FpType.ofCode r.fn.val) r.d r.a) else none
    | 7 => if r.b.val = 0 then some (.fneg (FpType.ofCode r.fn.val) r.d r.a) else none
    | 8 => if r.b.val = 0 then some (.fabs (FpType.ofCode r.fn.val) r.d r.a) else none
    | _ => none
  else if r.len.val = 1 then
    match r.fn.val / 4 with
    | 0 => if r.b.val = 0 then some (.faddLit (FpType.ofCode r.fn.val) r.d r.a r.lit) else none
    | 1 => if r.b.val = 0 then some (.fsubLit (FpType.ofCode r.fn.val) r.d r.a r.lit) else none
    | 2 => if r.b.val = 0 then some (.fmulLit (FpType.ofCode r.fn.val) r.d r.a r.lit) else none
    | 3 => if r.b.val = 0 then some (.fdivLit (FpType.ofCode r.fn.val) r.d r.a r.lit) else none
    | 4 => if r.b.val = 0 then some (.fminLit (FpType.ofCode r.fn.val) r.d r.a r.lit) else none
    | 5 => if r.b.val = 0 then some (.fmaxLit (FpType.ofCode r.fn.val) r.d r.a r.lit) else none
    | _ => none
  else none

/-- Major 0x11: FMA to FNMA. -/
noncomputable def decode11 (r : Raw) : Option Instr :=
  if r.len.val = 0 then
    match r.fn.val / 128 with
    | 0 => some (.fma (FpType.ofCode (r.fn.val / 32)) r.d r.a r.b (Fin.ofNat 32 r.fn.val))
    | 1 => some (.fnma (FpType.ofCode (r.fn.val / 32)) r.d r.a r.b (Fin.ofNat 32 r.fn.val))
    | _ => none
  else none

/-- Major 0x12: FEQ to FCLASS. -/
noncomputable def decode12 (r : Raw) : Option Instr :=
  if r.len.val = 0 then
    match r.fn.val / 4 with
    | 0 => some (.feq (FpType.ofCode r.fn.val) r.d r.a r.b)
    | 1 => some (.flt (FpType.ofCode r.fn.val) r.d r.a r.b)
    | 2 => some (.fle (FpType.ofCode r.fn.val) r.d r.a r.b)
    | 3 => if r.b.val = 0 then some (.fclass (FpType.ofCode r.fn.val) r.d r.a) else none
    | _ => none
  else none

/-- Major 0x13: FCVT. -/
noncomputable def decode13 (r : Raw) : Option Instr :=
  if r.len.val = 0 then
    if r.b.val = 0 then
      match CvtCode.ofCode? (r.fn.val / 16), CvtCode.ofCode? (r.fn.val % 16) with
      | some t, some s => some (.fcvt t s r.d r.a)
      | _, _ => none
    else none
  else none

/-- Major 0x18: BZ to BZ_LIT. -/
noncomputable def decode18 (r : Raw) : Option Instr :=
  if r.len.val = 0 then
    some (.bz r.d (BitVec.ofNat 18 (r.fn.val * 1024 + r.b.val * 32 + r.a.val)))
  else if r.len.val = 1 then
    if r.a.val = 0 ∧ r.b.val = 0 ∧ r.fn.val = 0 then some (.bzLit r.d r.lit) else none
  else none

/-- Major 0x19: BNZ to BNZ_LIT. -/
noncomputable def decode19 (r : Raw) : Option Instr :=
  if r.len.val = 0 then
    some (.bnz r.d (BitVec.ofNat 18 (r.fn.val * 1024 + r.b.val * 32 + r.a.val)))
  else if r.len.val = 1 then
    if r.a.val = 0 ∧ r.b.val = 0 ∧ r.fn.val = 0 then some (.bnzLit r.d r.lit) else none
  else none

/-- Major 0x1A: JAL to JAL_LIT. -/
noncomputable def decode1A (r : Raw) : Option Instr :=
  if r.len.val = 0 then
    some (.jal r.d (BitVec.ofNat 18 (r.fn.val * 1024 + r.b.val * 32 + r.a.val)))
  else if r.len.val = 1 then
    if r.a.val = 0 ∧ r.b.val = 0 ∧ r.fn.val = 0 then some (.jalLit r.d r.lit) else none
  else none

/-- Major 0x1B: BEQ to JALR_DISP. -/
noncomputable def decode1B (r : Raw) : Option Instr :=
  if r.len.val = 0 then
    match r.fn.val with
    | 8 => if r.b.val = 0 then some (.jalr r.d r.a) else none
    | _ => none
  else if r.len.val = 2 then
    match r.fn.val with
    | 0 => if r.d.val = 0 ∧ fld r.ext.toNat 32 32 = 0 then some (.beq r.a r.b (BitVec.ofNat 32 r.ext.toNat)) else none
    | 1 => if r.d.val = 0 ∧ fld r.ext.toNat 32 32 = 0 then some (.bne r.a r.b (BitVec.ofNat 32 r.ext.toNat)) else none
    | 2 => if r.d.val = 0 ∧ fld r.ext.toNat 32 32 = 0 then some (.blt r.a r.b (BitVec.ofNat 32 r.ext.toNat)) else none
    | 3 => if r.d.val = 0 ∧ fld r.ext.toNat 32 32 = 0 then some (.bge r.a r.b (BitVec.ofNat 32 r.ext.toNat)) else none
    | 4 => if r.d.val = 0 ∧ fld r.ext.toNat 32 32 = 0 then some (.bltu r.a r.b (BitVec.ofNat 32 r.ext.toNat)) else none
    | 5 => if r.d.val = 0 ∧ fld r.ext.toNat 32 32 = 0 then some (.bgeu r.a r.b (BitVec.ofNat 32 r.ext.toNat)) else none
    | 8 => if r.b.val = 0 ∧ fld r.ext.toNat 32 32 = 0 then some (.jalrDisp r.d r.a (BitVec.ofNat 32 r.ext.toNat)) else none
    | _ => none
  else none

/-- Major 0x1C: BANY to BNALL. -/
noncomputable def decode1C (r : Raw) : Option Instr :=
  if r.len.val = 2 then
    match r.fn.val with
    | 0 => if r.d.val = 0 ∧ fld r.ext.toNat 32 32 = 0 then some (.bany r.a r.b (BitVec.ofNat 32 r.ext.toNat)) else none
    | 1 => if r.d.val = 0 ∧ fld r.ext.toNat 32 32 = 0 then some (.bnone r.a r.b (BitVec.ofNat 32 r.ext.toNat)) else none
    | 2 => if r.d.val = 0 ∧ fld r.ext.toNat 32 32 = 0 then some (.ball r.a r.b (BitVec.ofNat 32 r.ext.toNat)) else none
    | 3 => if r.d.val = 0 ∧ fld r.ext.toNat 32 32 = 0 then some (.bnall r.a r.b (BitVec.ofNat 32 r.ext.toNat)) else none
    | _ => none
  else none

/-- Major 0x20: LD to LDS_EXT. -/
noncomputable def decode20 (r : Raw) : Option Instr :=
  if r.len.val = 0 then
    match r.fn.val / 32 with
    | 0 => r.memQual?.bind fun q => some (.ld (Size.ofCode (r.fn.val / 8)) r.d r.a q)
    | 1 => r.memQual?.bind fun q => some (.lds (Size.ofCode (r.fn.val / 8)) r.d r.a q)
    | _ => none
  else if r.len.val = 2 then
    match r.fn.val / 32 with
    | 0 => if fld r.ext.toNat 40 24 = 0 then r.memQual?.bind fun q => some (.ldExt (Size.ofCode (r.fn.val / 8)) r.d r.a q (MemExt.ofExt r.ext)) else none
    | 1 => if fld r.ext.toNat 40 24 = 0 then r.memQual?.bind fun q => some (.ldsExt (Size.ofCode (r.fn.val / 8)) r.d r.a q (MemExt.ofExt r.ext)) else none
    | _ => none
  else none

/-- Major 0x21: ST to ST_EXT. -/
noncomputable def decode21 (r : Raw) : Option Instr :=
  if r.len.val = 0 then
    match r.fn.val / 32 with
    | 0 => r.memQual?.bind fun q => some (.st (Size.ofCode (r.fn.val / 8)) r.d r.a q)
    | _ => none
  else if r.len.val = 2 then
    match r.fn.val / 32 with
    | 0 => if fld r.ext.toNat 40 24 = 0 then r.memQual?.bind fun q => some (.stExt (Size.ofCode (r.fn.val / 8)) r.d r.a q (MemExt.ofExt r.ext)) else none
    | _ => none
  else none

/-- Major 0x22: ATOM_SWAP to ATOM_FADD_EXT. -/
noncomputable def decode22 (r : Raw) : Option Instr :=
  if r.len.val = 0 then
    if r.fn.val / 32 = 0 then r.memQual?.bind fun q => some (.atomSwap (Size.ofCode (r.fn.val / 8)) r.d r.a q)
    else if r.fn.val / 32 = 1 then r.memQual?.bind fun q => some (.atomAdd (Size.ofCode (r.fn.val / 8)) r.d r.a q)
    else if r.fn.val / 32 = 2 then r.memQual?.bind fun q => some (.atomAnd (Size.ofCode (r.fn.val / 8)) r.d r.a q)
    else if r.fn.val / 32 = 3 then r.memQual?.bind fun q => some (.atomOr (Size.ofCode (r.fn.val / 8)) r.d r.a q)
    else if r.fn.val / 32 = 4 then r.memQual?.bind fun q => some (.atomXor (Size.ofCode (r.fn.val / 8)) r.d r.a q)
    else if r.fn.val / 32 = 5 then r.memQual?.bind fun q => some (.atomMin (Size.ofCode (r.fn.val / 8)) r.d r.a q)
    else if r.fn.val / 32 = 6 then r.memQual?.bind fun q => some (.atomMax (Size.ofCode (r.fn.val / 8)) r.d r.a q)
    else if r.fn.val / 8 = 30 then r.memQual?.bind fun q => some (.atomFadd r.d r.a q)
    else none
  else if r.len.val = 2 then
    if r.fn.val / 32 = 0 ∧ fld r.ext.toNat 40 24 = 0 then r.memQual?.bind fun q => some (.atomSwapExt (Size.ofCode (r.fn.val / 8)) r.d r.a q (MemExt.ofExt r.ext))
    else if r.fn.val / 32 = 1 ∧ fld r.ext.toNat 40 24 = 0 then r.memQual?.bind fun q => some (.atomAddExt (Size.ofCode (r.fn.val / 8)) r.d r.a q (MemExt.ofExt r.ext))
    else if r.fn.val / 32 = 2 ∧ fld r.ext.toNat 40 24 = 0 then r.memQual?.bind fun q => some (.atomAndExt (Size.ofCode (r.fn.val / 8)) r.d r.a q (MemExt.ofExt r.ext))
    else if r.fn.val / 32 = 3 ∧ fld r.ext.toNat 40 24 = 0 then r.memQual?.bind fun q => some (.atomOrExt (Size.ofCode (r.fn.val / 8)) r.d r.a q (MemExt.ofExt r.ext))
    else if r.fn.val / 32 = 4 ∧ fld r.ext.toNat 40 24 = 0 then r.memQual?.bind fun q => some (.atomXorExt (Size.ofCode (r.fn.val / 8)) r.d r.a q (MemExt.ofExt r.ext))
    else if r.fn.val / 32 = 5 ∧ fld r.ext.toNat 40 24 = 0 then r.memQual?.bind fun q => some (.atomMinExt (Size.ofCode (r.fn.val / 8)) r.d r.a q (MemExt.ofExt r.ext))
    else if r.fn.val / 32 = 6 ∧ fld r.ext.toNat 40 24 = 0 then r.memQual?.bind fun q => some (.atomMaxExt (Size.ofCode (r.fn.val / 8)) r.d r.a q (MemExt.ofExt r.ext))
    else if r.fn.val / 8 = 30 ∧ fld r.ext.toNat 40 24 = 0 then r.memQual?.bind fun q => some (.atomFaddExt r.d r.a q (MemExt.ofExt r.ext))
    else none
  else none

/-- Major 0x23: CAS to CAS_EXT. -/
noncomputable def decode23 (r : Raw) : Option Instr :=
  if r.len.val = 0 then
    match r.fn.val / 32 with
    | 0 => r.memQual?.bind fun q => some (.cas (Size.ofCode (r.fn.val / 8)) r.d r.a q)
    | _ => none
  else if r.len.val = 2 then
    match r.fn.val / 32 with
    | 0 => if fld r.ext.toNat 40 24 = 0 then r.memQual?.bind fun q => some (.casExt (Size.ofCode (r.fn.val / 8)) r.d r.a q (MemExt.ofExt r.ext)) else none
    | _ => none
  else none

/-- Major 0x24: FENCE. -/
noncomputable def decode24 (r : Raw) : Option Instr :=
  if r.len.val = 0 then
    match r.fn.val / 32 with
    | 0 => if r.d.val = 0 ∧ r.a.val = 0 ∧ r.b.val = 0 then
      match FenceOrd.ofCode? (r.fn.val % 4), Scope.ofCode? (r.fn.val / 4) with
      | some o, some sc => some (.fence o sc)
      | _, _ => none
    else none
    | _ => none
  else none

/-- Major 0x25: PREF to STASH_UNMAP_EXT. -/
noncomputable def decode25 (r : Raw) : Option Instr :=
  if r.len.val = 0 then
    match r.fn.val / 8 with
    | 0 => if r.b.val = 0 then some (.pref r.d r.a (Fin.ofNat 8 r.fn.val)) else none
    | 4 => if r.b.val % 4 = 0 ∧ r.fn.val % 8 = 0 then (Scope.ofCode? (r.b.val / 4)).bind fun sc => some (.cclean r.d r.a sc) else none
    | 8 => if r.b.val % 4 = 0 ∧ r.fn.val % 8 = 0 then (Scope.ofCode? (r.b.val / 4)).bind fun sc => some (.cflush r.d r.a sc) else none
    | 12 => if r.b.val % 4 = 0 ∧ r.fn.val % 8 = 0 then (Scope.ofCode? (r.b.val / 4)).bind fun sc => some (.codeflush r.d r.a sc) else none
    | 16 => if r.d.val = 0 ∧ r.a.val = 0 ∧ r.b.val = 0 ∧ r.fn.val % 8 = 0 then some (.ifence) else none
    | 20 => if r.b.val = 0 ∧ r.fn.val % 8 = 0 then some (.stashMap r.d r.a) else none
    | 24 => if r.d.val = 0 ∧ r.b.val = 0 ∧ r.fn.val % 8 = 0 then some (.stashUnmap r.a) else none
    | _ => none
  else if r.len.val = 2 then
    match r.fn.val / 8 with
    | 0 => if r.b.val = 0 ∧ fld r.ext.toNat 40 24 = 0 then some (.prefExt r.d r.a (Fin.ofNat 8 r.fn.val) (MemExt.ofExt r.ext)) else none
    | 4 => if r.b.val % 4 = 0 ∧ r.fn.val % 8 = 0 ∧ fld r.ext.toNat 40 24 = 0 then (Scope.ofCode? (r.b.val / 4)).bind fun sc => some (.ccleanExt r.d r.a sc (MemExt.ofExt r.ext)) else none
    | 8 => if r.b.val % 4 = 0 ∧ r.fn.val % 8 = 0 ∧ fld r.ext.toNat 40 24 = 0 then (Scope.ofCode? (r.b.val / 4)).bind fun sc => some (.cflushExt r.d r.a sc (MemExt.ofExt r.ext)) else none
    | 12 => if r.b.val % 4 = 0 ∧ r.fn.val % 8 = 0 ∧ fld r.ext.toNat 40 24 = 0 then (Scope.ofCode? (r.b.val / 4)).bind fun sc => some (.codeflushExt r.d r.a sc (MemExt.ofExt r.ext)) else none
    | 20 => if r.b.val = 0 ∧ r.fn.val % 8 = 0 ∧ fld r.ext.toNat 40 24 = 0 then some (.stashMapExt r.d r.a (MemExt.ofExt r.ext)) else none
    | 24 => if r.d.val = 0 ∧ r.b.val = 0 ∧ r.fn.val % 8 = 0 ∧ fld r.ext.toNat 40 24 = 0 then some (.stashUnmapExt r.a (MemExt.ofExt r.ext)) else none
    | _ => none
  else none

/-- Major 0x26: SPACE_TEST to SPACE_CAST_OFF. -/
noncomputable def decode26 (r : Raw) : Option Instr :=
  if r.len.val = 0 then
    if r.fn.val / 8 = 0 ∧ r.b.val = 0 ∧ r.fn.val % 8 = 0 then some (.spaceTest r.d r.a)
    else if r.fn.val / 32 = 1 ∧ r.b.val = 0 ∧ r.fn.val % 8 = 0 then some (.spaceCastGen (SpaceSel.ofCode (r.fn.val / 8)) r.d r.a)
    else if r.fn.val / 32 = 2 ∧ r.b.val = 0 ∧ r.fn.val % 8 = 0 then some (.spaceCastOff (SpaceSel.ofCode (r.fn.val / 8)) r.d r.a)
    else none
  else none

/-- Major 0x27: APPEND to APPEND_V_EXT. -/
noncomputable def decode27 (r : Raw) : Option Instr :=
  if r.len.val = 0 then
    if r.fn.val / 32 = 0 ∧ r.b.val % 2 = 0 ∧ r.fn.val % 8 = 0 then (Scope.ofCode? (r.b.val / 4)).bind fun sc => some (.append (Size.ofCode (r.fn.val / 8)) r.d r.a (decide (r.b.val % 4 = 2)) sc)
    else if r.fn.val / 8 = 4 ∧ r.b.val % 2 = 0 ∧ r.fn.val % 8 = 0 then (Scope.ofCode? (r.b.val / 4)).bind fun sc => some (.appendV r.d r.a (decide (r.b.val % 4 = 2)) sc)
    else none
  else if r.len.val = 2 then
    if r.fn.val / 32 = 0 ∧ r.b.val % 2 = 0 ∧ r.fn.val % 8 = 0 ∧ fld r.ext.toNat 40 24 = 0 then (Scope.ofCode? (r.b.val / 4)).bind fun sc => some (.appendExt (Size.ofCode (r.fn.val / 8)) r.d r.a (decide (r.b.val % 4 = 2)) sc (MemExt.ofExt r.ext))
    else if r.fn.val / 8 = 4 ∧ r.b.val % 2 = 0 ∧ r.fn.val % 8 = 0 ∧ fld r.ext.toNat 40 24 = 0 then (Scope.ofCode? (r.b.val / 4)).bind fun sc => some (.appendVExt r.d r.a (decide (r.b.val % 4 = 2)) sc (MemExt.ofExt r.ext))
    else none
  else none

/-- Major 0x28: TAILRD to FREE_SEAL_EXT. -/
noncomputable def decode28 (r : Raw) : Option Instr :=
  if r.len.val = 0 then
    match r.fn.val / 8 with
    | 0 => if r.b.val % 4 = 0 ∧ r.fn.val % 8 = 0 then (Scope.ofCode? (r.b.val / 4)).bind fun sc => some (.tailrd r.d r.a sc) else none
    | 4 => if r.b.val % 4 = 0 ∧ r.fn.val % 8 = 0 then (Scope.ofCode? (r.b.val / 4)).bind fun sc => some (.seal r.d r.a sc) else none
    | 8 => if r.d.val = 0 ∧ r.b.val = 0 ∧ r.fn.val % 8 = 0 then some (.freeSeal r.a) else none
    | _ => none
  else if r.len.val = 2 then
    match r.fn.val / 8 with
    | 0 => if r.b.val % 4 = 0 ∧ r.fn.val % 8 = 0 ∧ fld r.ext.toNat 40 24 = 0 then (Scope.ofCode? (r.b.val / 4)).bind fun sc => some (.tailrdExt r.d r.a sc (MemExt.ofExt r.ext)) else none
    | 4 => if r.b.val % 4 = 0 ∧ r.fn.val % 8 = 0 ∧ fld r.ext.toNat 40 24 = 0 then (Scope.ofCode? (r.b.val / 4)).bind fun sc => some (.sealExt r.d r.a sc (MemExt.ofExt r.ext)) else none
    | 8 => if r.d.val = 0 ∧ r.b.val = 0 ∧ r.fn.val % 8 = 0 ∧ fld r.ext.toNat 40 24 = 0 then some (.freeSealExt r.a (MemExt.ofExt r.ext)) else none
    | _ => none
  else none

/-- Major 0x29: STNIB_LO to STNIB_HI_EXT. -/
noncomputable def decode29 (r : Raw) : Option Instr :=
  if r.len.val = 0 then
    match r.fn.val / 8 with
    | 0 => r.memQual?.bind fun q => some (.stnibLo r.d r.a q)
    | 4 => r.memQual?.bind fun q => some (.stnibHi r.d r.a q)
    | _ => none
  else if r.len.val = 2 then
    match r.fn.val / 8 with
    | 0 => if fld r.ext.toNat 40 24 = 0 then r.memQual?.bind fun q => some (.stnibLoExt r.d r.a q (MemExt.ofExt r.ext)) else none
    | 4 => if fld r.ext.toNat 40 24 = 0 then r.memQual?.bind fun q => some (.stnibHiExt r.d r.a q (MemExt.ofExt r.ext)) else none
    | _ => none
  else none

/-- Major 0x30: FORK to FORKM_INC. -/
noncomputable def decode30 (r : Raw) : Option Instr :=
  if r.len.val = 0 then
    match r.fn.val / 32 with
    | 0 => some (.fork r.d r.a r.b (Fin.ofNat 32 r.fn.val))
    | 1 => some (.forkInc r.d r.a r.b (Fin.ofNat 32 r.fn.val))
    | 2 => if r.d.val = 0 ∧ r.b.val = 0 ∧ r.fn.val % 32 = 0 then some (.forkm r.a) else none
    | 3 => if r.d.val = 0 ∧ r.b.val = 0 ∧ r.fn.val % 32 = 0 then some (.forkmInc r.a) else none
    | _ => none
  else none

/-- Major 0x31: RFORK. -/
noncomputable def decode31 (r : Raw) : Option Instr :=
  if r.len.val = 0 then
    match r.fn.val with
    | 0 => if r.d.val = 0 ∧ r.b.val = 0 then some (.rfork r.a) else none
    | _ => none
  else none

/-- Major 0x32: DONE to JOIN. -/
noncomputable def decode32 (r : Raw) : Option Instr :=
  if r.len.val = 0 then
    if r.fn.val = 0 ∧ r.d.val = 0 ∧ r.a.val = 0 ∧ r.b.val = 0 then some (.done)
    else if r.fn.val / 8 = 1 ∧ r.d.val = 0 ∧ r.b.val = 0 then (Scope.ofCode? (r.fn.val % 8)).bind fun sc => some (.join sc r.a)
    else none
  else none

/-- Major 0x33: YIELD to PAUSE. -/
noncomputable def decode33 (r : Raw) : Option Instr :=
  if r.len.val = 0 then
    match r.fn.val with
    | 0 => if r.d.val = 0 ∧ r.b.val = 0 then some (.yield r.a) else none
    | 1 => if r.d.val = 0 ∧ r.b.val = 0 then some (.pause r.a) else none
    | _ => none
  else none

/-- Major 0x34: BAR_SET to BAR_GET. -/
noncomputable def decode34 (r : Raw) : Option Instr :=
  if r.len.val = 0 then
    match r.fn.val / 8 with
    | 0 => if r.d.val = 0 ∧ r.b.val = 0 then some (.barSet (Fin.ofNat 8 r.fn.val) r.a) else none
    | 1 => if r.d.val = 0 ∧ r.a.val = 0 ∧ r.b.val = 0 then some (.barArrive (Fin.ofNat 8 r.fn.val)) else none
    | 2 => if r.d.val = 0 ∧ r.a.val = 0 ∧ r.b.val = 0 then some (.barWait (Fin.ofNat 8 r.fn.val)) else none
    | 3 => if r.d.val = 0 ∧ r.a.val = 0 ∧ r.b.val = 0 then some (.barSync (Fin.ofNat 8 r.fn.val)) else none
    | 4 => if r.a.val = 0 ∧ r.b.val = 0 then some (.barGet r.d (Fin.ofNat 8 r.fn.val)) else none
    | _ => none
  else none

/-- Major 0x35: MBX_WAIT to MBX_POLL. -/
noncomputable def decode35 (r : Raw) : Option Instr :=
  if r.len.val = 0 then
    match r.fn.val with
    | 0 => if r.b.val = 0 then some (.mbxWait r.d r.a) else none
    | 1 => if r.b.val = 0 then some (.mbxPoll r.d r.a) else none
    | _ => none
  else none

/-- Major 0x36: SELF_ID to SELF_IDLE. -/
noncomputable def decode36 (r : Raw) : Option Instr :=
  if r.len.val = 0 then
    match r.fn.val with
    | 0 => if r.a.val = 0 ∧ r.b.val = 0 then some (.selfId r.d) else none
    | 1 => if r.a.val = 0 ∧ r.b.val = 0 then some (.selfXy r.d) else none
    | 2 => if r.a.val = 0 ∧ r.b.val = 0 then some (.selfDom r.d) else none
    | 3 => if r.b.val = 0 then some (.selfIdle r.d r.a) else none
    | _ => none
  else none

/-- Major 0x38: QINJ to QCNT. -/
noncomputable def decode38 (r : Raw) : Option Instr :=
  if r.len.val = 0 then
    match r.fn.val with
    | 0 => if r.d.val = 0 then some (.qinj r.a r.b) else none
    | 4 => if r.d.val = 0 then some (.qinjRel r.a r.b) else none
    | 1 => if r.d.val = 0 ∧ r.b.val = 0 then some (.qrcv r.a) else none
    | 2 => if r.b.val = 0 then some (.qpoll r.d r.a) else none
    | 3 => if r.a.val = 0 ∧ r.b.val = 0 then some (.qcnt r.d) else none
    | _ => none
  else none

/-- Major 0x39: RLD to RWAIT. -/
noncomputable def decode39 (r : Raw) : Option Instr :=
  if r.len.val = 0 then
    match r.fn.val with
    | 4 => if r.b.val = 0 ∧ r.a.val < 8 then some (.rwait r.d (Fin.ofNat 8 r.a.val)) else none
    | _ => none
  else if r.len.val = 2 then
    if r.fn.val = 0 ∧ r.d.val = 0 ∧ fld r.ext.toNat 0 8 = 0 ∧ fld r.ext.toNat 11 5 = 0 ∧ fld r.ext.toNat 19 45 = 0 then some (.rld (Fin.ofNat 8 (fld r.ext.toNat 8 3)) (Size.ofCode (fld r.ext.toNat 16 2)) (fld r.ext.toNat 18 1 == 1) r.a r.b)
    else if r.fn.val = 2 ∧ fld r.ext.toNat 0 16 = 0 ∧ fld r.ext.toNat 18 1 = 0 ∧ fld r.ext.toNat 20 44 = 0 then some (.rst (Size.ofCode (fld r.ext.toNat 16 2)) (fld r.ext.toNat 19 1 == 1) r.d r.a r.b)
    else if r.fn.val = 3 ∧ fld r.ext.toNat 0 8 = 0 ∧ fld r.ext.toNat 11 5 = 0 ∧ fld r.ext.toNat 24 40 = 0 ∧ fld r.ext.toNat 20 1 = 0 then some (.ratom (AtomOp.ofCode (fld r.ext.toNat 21 3)) (Fin.ofNat 8 (fld r.ext.toNat 8 3)) (Size.ofCode (fld r.ext.toNat 16 2)) (MemOrd.ofCode (fld r.ext.toNat 18 2)) r.d r.a r.b)
    else if r.fn.val = 3 ∧ fld r.ext.toNat 0 8 = 0 ∧ fld r.ext.toNat 11 5 = 0 ∧ fld r.ext.toNat 21 43 = 0 then some (.ratomCas (Fin.ofNat 8 (fld r.ext.toNat 8 3)) (Size.ofCode (fld r.ext.toNat 16 2)) (MemOrd.ofCode (fld r.ext.toNat 18 2)) r.d r.a r.b)
    else none
  else none

/-- Major 0x3A: BULK_WR to BULK_RD. -/
noncomputable def decode3A (r : Raw) : Option Instr :=
  if r.len.val = 2 then
    match r.fn.val / 32 with
    | 0 => if fld r.ext.toNat 3 4 = 0 ∧ fld r.ext.toNat 8 56 = 0 then some (.bulkWr (if fld r.ext.toNat 7 1 = 1 then some (Fin.ofNat 8 r.ext.toNat) else none) r.d r.a r.b (Fin.ofNat 32 r.fn.val)) else none
    | 1 => if fld r.ext.toNat 3 4 = 0 ∧ fld r.ext.toNat 8 56 = 0 ∧ fld r.ext.toNat 7 1 = 1 then some (.bulkRd (Fin.ofNat 8 r.ext.toNat) r.d r.a r.b (Fin.ofNat 32 r.fn.val)) else none
    | _ => none
  else none

/-- Major 0x3B: RANK_ME to RBIND. -/
noncomputable def decode3B (r : Raw) : Option Instr :=
  if r.len.val = 0 then
    match r.fn.val with
    | 0 => if r.a.val = 0 ∧ r.b.val = 0 then some (.rankMe r.d) else none
    | 1 => if r.b.val = 0 then some (.rankRd r.d r.a) else none
    | 8 => some (.rbind r.d r.a r.b)
    | _ => none
  else none

/-- Major 0x3C: CRRW to CRRCI. -/
noncomputable def decode3C (r : Raw) : Option Instr :=
  if r.len.val = 2 then
    match r.fn.val with
    | 0 => if r.b.val = 0 ∧ fld r.ext.toNat 12 52 = 0 then some (.crrw r.d r.a (BitVec.ofNat 12 r.ext.toNat)) else none
    | 1 => if r.b.val = 0 ∧ fld r.ext.toNat 12 52 = 0 then some (.crrs r.d r.a (BitVec.ofNat 12 r.ext.toNat)) else none
    | 2 => if r.b.val = 0 ∧ fld r.ext.toNat 12 52 = 0 then some (.crrc r.d r.a (BitVec.ofNat 12 r.ext.toNat)) else none
    | 4 => if r.b.val = 0 ∧ fld r.ext.toNat 12 52 = 0 then some (.crrwi r.d r.a (BitVec.ofNat 12 r.ext.toNat)) else none
    | 5 => if r.b.val = 0 ∧ fld r.ext.toNat 12 52 = 0 then some (.crrsi r.d r.a (BitVec.ofNat 12 r.ext.toNat)) else none
    | 6 => if r.b.val = 0 ∧ fld r.ext.toNat 12 52 = 0 then some (.crrci r.d r.a (BitVec.ofNat 12 r.ext.toNat)) else none
    | _ => none
  else none

/-- Major 0x3D: SYSCALL to IWAIT. -/
noncomputable def decode3D (r : Raw) : Option Instr :=
  if r.len.val = 0 then
    match r.fn.val with
    | 0 => some (.syscall (BitVec.ofNat 15 (r.b.val * 1024 + r.a.val * 32 + r.d.val)))
    | 1 => some (.break (BitVec.ofNat 15 (r.b.val * 1024 + r.a.val * 32 + r.d.val)))
    | 2 => if r.d.val = 0 ∧ r.a.val = 0 ∧ r.b.val = 0 then some (.tret) else none
    | 3 => if r.d.val = 0 ∧ r.a.val = 0 ∧ r.b.val = 0 then some (.halt) else none
    | 4 => if r.d.val = 0 ∧ r.a.val = 0 ∧ r.b.val = 0 then some (.iwait) else none
    | _ => none
  else none

/-- Major 0x3E: TLBI_VA to PART_DONE. -/
noncomputable def decode3E (r : Raw) : Option Instr :=
  if r.len.val = 0 then
    match r.fn.val with
    | 0 => if r.d.val = 0 then some (.tlbiVa r.a r.b) else none
    | 1 => if r.d.val = 0 ∧ r.a.val = 0 then some (.tlbiCtx r.b) else none
    | 2 => if r.d.val = 0 ∧ r.a.val = 0 ∧ r.b.val = 0 then some (.tlbiAll) else none
    | 3 => if r.d.val = 0 ∧ r.a.val = 0 ∧ r.b.val = 0 then some (.tlbsync) else none
    | 4 => if r.b.val = 0 then some (.ptProbe r.d r.a) else none
    | 5 => if r.b.val = 0 then some (.faultRd r.d r.a) else none
    | 8 => if r.d.val = 0 ∧ r.b.val = 0 then some (.partDone r.a) else none
    | _ => none
  else none

/-- Major 0x40: VADD to VADD_X. -/
noncomputable def decode40 (r : Raw) : Option Instr :=
  if r.len.val = 0 then
    some (.vadd (ElType.ofCode (r.fn.val / 32)) (Fin.ofNat 32 r.fn.val) r.d r.a r.b)
  else if r.len.val = 2 then
    match fld r.ext.toNat 0 8 with
    | 0 => if fld r.ext.toNat 11 5 = 0 ∧ fld r.ext.toNat 16 8 = 0 ∧ fld r.ext.toNat 24 5 = 0 ∧ fld r.ext.toNat 29 35 = 0 then some (.vaddX (ElType.ofCode (r.fn.val / 32)) (Fin.ofNat 32 r.fn.val) r.d r.a r.b (fld r.ext.toNat 8 1 == 1) (fld r.ext.toNat 9 1 == 1) (fld r.ext.toNat 10 1 == 1)) else none
    | _ => none
  else none

/-- Major 0x41: VSUB to VSUB_X. -/
noncomputable def decode41 (r : Raw) : Option Instr :=
  if r.len.val = 0 then
    some (.vsub (ElType.ofCode (r.fn.val / 32)) (Fin.ofNat 32 r.fn.val) r.d r.a r.b)
  else if r.len.val = 2 then
    match fld r.ext.toNat 0 8 with
    | 0 => if fld r.ext.toNat 11 5 = 0 ∧ fld r.ext.toNat 16 8 = 0 ∧ fld r.ext.toNat 24 5 = 0 ∧ fld r.ext.toNat 29 35 = 0 then some (.vsubX (ElType.ofCode (r.fn.val / 32)) (Fin.ofNat 32 r.fn.val) r.d r.a r.b (fld r.ext.toNat 8 1 == 1) (fld r.ext.toNat 9 1 == 1) (fld r.ext.toNat 10 1 == 1)) else none
    | _ => none
  else none

/-- Major 0x42: VMUL to VMUL_X. -/
noncomputable def decode42 (r : Raw) : Option Instr :=
  if r.len.val = 0 then
    some (.vmul (ElType.ofCode (r.fn.val / 32)) (Fin.ofNat 32 r.fn.val) r.d r.a r.b)
  else if r.len.val = 2 then
    match fld r.ext.toNat 0 8 with
    | 0 => if fld r.ext.toNat 9 1 = 0 ∧ fld r.ext.toNat 10 1 = 0 ∧ fld r.ext.toNat 11 5 = 0 ∧ fld r.ext.toNat 16 8 = 0 ∧ fld r.ext.toNat 24 5 = 0 ∧ fld r.ext.toNat 29 35 = 0 then some (.vmulX (ElType.ofCode (r.fn.val / 32)) (Fin.ofNat 32 r.fn.val) r.d r.a r.b (fld r.ext.toNat 8 1 == 1)) else none
    | _ => none
  else none

/-- Major 0x43: VMULH to VMULH_X. -/
noncomputable def decode43 (r : Raw) : Option Instr :=
  if r.len.val = 0 then
    some (.vmulh (ElType.ofCode (r.fn.val / 32)) (Fin.ofNat 32 r.fn.val) r.d r.a r.b)
  else if r.len.val = 2 then
    match fld r.ext.toNat 0 8 with
    | 0 => if fld r.ext.toNat 10 1 = 0 ∧ fld r.ext.toNat 11 5 = 0 ∧ fld r.ext.toNat 16 8 = 0 ∧ fld r.ext.toNat 24 5 = 0 ∧ fld r.ext.toNat 29 35 = 0 then some (.vmulhX (ElType.ofCode (r.fn.val / 32)) (Fin.ofNat 32 r.fn.val) r.d r.a r.b (fld r.ext.toNat 8 1 == 1) (fld r.ext.toNat 9 1 == 1)) else none
    | _ => none
  else none

/-- Major 0x44: VMIN to VMIN_X. -/
noncomputable def decode44 (r : Raw) : Option Instr :=
  if r.len.val = 0 then
    some (.vmin (ElType.ofCode (r.fn.val / 32)) (Fin.ofNat 32 r.fn.val) r.d r.a r.b)
  else if r.len.val = 2 then
    match fld r.ext.toNat 0 8 with
    | 0 => if fld r.ext.toNat 10 1 = 0 ∧ fld r.ext.toNat 11 5 = 0 ∧ fld r.ext.toNat 16 8 = 0 ∧ fld r.ext.toNat 24 5 = 0 ∧ fld r.ext.toNat 29 35 = 0 then some (.vminX (ElType.ofCode (r.fn.val / 32)) (Fin.ofNat 32 r.fn.val) r.d r.a r.b (fld r.ext.toNat 8 1 == 1) (fld r.ext.toNat 9 1 == 1)) else none
    | _ => none
  else none

/-- Major 0x45: VMAX to VMAX_X. -/
noncomputable def decode45 (r : Raw) : Option Instr :=
  if r.len.val = 0 then
    some (.vmax (ElType.ofCode (r.fn.val / 32)) (Fin.ofNat 32 r.fn.val) r.d r.a r.b)
  else if r.len.val = 2 then
    match fld r.ext.toNat 0 8 with
    | 0 => if fld r.ext.toNat 10 1 = 0 ∧ fld r.ext.toNat 11 5 = 0 ∧ fld r.ext.toNat 16 8 = 0 ∧ fld r.ext.toNat 24 5 = 0 ∧ fld r.ext.toNat 29 35 = 0 then some (.vmaxX (ElType.ofCode (r.fn.val / 32)) (Fin.ofNat 32 r.fn.val) r.d r.a r.b (fld r.ext.toNat 8 1 == 1) (fld r.ext.toNat 9 1 == 1)) else none
    | _ => none
  else none

/-- Major 0x46: VAND to VANDN. -/
noncomputable def decode46 (r : Raw) : Option Instr :=
  if r.len.val = 0 then
    some (.vand (ElType.ofCode (r.fn.val / 32)) (Fin.ofNat 32 r.fn.val) r.d r.a r.b)
  else if r.len.val = 2 then
    match fld r.ext.toNat 0 8 with
    | 0 => if fld r.ext.toNat 9 1 = 0 ∧ fld r.ext.toNat 10 1 = 0 ∧ fld r.ext.toNat 11 5 = 0 ∧ fld r.ext.toNat 16 8 = 0 ∧ fld r.ext.toNat 24 5 = 0 ∧ fld r.ext.toNat 29 35 = 0 then some (.vandX (ElType.ofCode (r.fn.val / 32)) (Fin.ofNat 32 r.fn.val) r.d r.a r.b (fld r.ext.toNat 8 1 == 1)) else none
    | 1 => if fld r.ext.toNat 9 1 = 0 ∧ fld r.ext.toNat 10 1 = 0 ∧ fld r.ext.toNat 11 5 = 0 ∧ fld r.ext.toNat 16 8 = 0 ∧ fld r.ext.toNat 24 5 = 0 ∧ fld r.ext.toNat 29 35 = 0 then some (.vor (ElType.ofCode (r.fn.val / 32)) (Fin.ofNat 32 r.fn.val) r.d r.a r.b (fld r.ext.toNat 8 1 == 1)) else none
    | 2 => if fld r.ext.toNat 9 1 = 0 ∧ fld r.ext.toNat 10 1 = 0 ∧ fld r.ext.toNat 11 5 = 0 ∧ fld r.ext.toNat 16 8 = 0 ∧ fld r.ext.toNat 24 5 = 0 ∧ fld r.ext.toNat 29 35 = 0 then some (.vxor (ElType.ofCode (r.fn.val / 32)) (Fin.ofNat 32 r.fn.val) r.d r.a r.b (fld r.ext.toNat 8 1 == 1)) else none
    | 3 => if fld r.ext.toNat 9 1 = 0 ∧ fld r.ext.toNat 10 1 = 0 ∧ fld r.ext.toNat 11 5 = 0 ∧ fld r.ext.toNat 16 8 = 0 ∧ fld r.ext.toNat 24 5 = 0 ∧ fld r.ext.toNat 29 35 = 0 then some (.vandn (ElType.ofCode (r.fn.val / 32)) (Fin.ofNat 32 r.fn.val) r.d r.a r.b (fld r.ext.toNat 8 1 == 1)) else none
    | _ => none
  else none

/-- Major 0x47: VSLL to VSRAI. A non-zero imm8 with fn 0x00 to 0x02, which R113 does not speak of, is no instruction: the model's choice
(log 16). -/
noncomputable def decode47 (r : Raw) : Option Instr :=
  if r.len.val = 0 then
    some (.vsll (ElType.ofCode (r.fn.val / 32)) (Fin.ofNat 32 r.fn.val) r.d r.a r.b)
  else if r.len.val = 2 then
    match fld r.ext.toNat 0 8 with
    | 0 => if fld r.ext.toNat 9 1 = 0 ∧ fld r.ext.toNat 10 1 = 0 ∧ fld r.ext.toNat 11 5 = 0 ∧ fld r.ext.toNat 16 8 = 0 ∧ fld r.ext.toNat 24 5 = 0 ∧ fld r.ext.toNat 29 35 = 0 then some (.vsllX (ElType.ofCode (r.fn.val / 32)) (Fin.ofNat 32 r.fn.val) r.d r.a r.b (fld r.ext.toNat 8 1 == 1)) else none
    | 1 => if fld r.ext.toNat 9 1 = 0 ∧ fld r.ext.toNat 10 1 = 0 ∧ fld r.ext.toNat 11 5 = 0 ∧ fld r.ext.toNat 16 8 = 0 ∧ fld r.ext.toNat 24 5 = 0 ∧ fld r.ext.toNat 29 35 = 0 then some (.vsrl (ElType.ofCode (r.fn.val / 32)) (Fin.ofNat 32 r.fn.val) r.d r.a r.b (fld r.ext.toNat 8 1 == 1)) else none
    | 2 => if fld r.ext.toNat 9 1 = 0 ∧ fld r.ext.toNat 10 1 = 0 ∧ fld r.ext.toNat 11 5 = 0 ∧ fld r.ext.toNat 16 8 = 0 ∧ fld r.ext.toNat 24 5 = 0 ∧ fld r.ext.toNat 29 35 = 0 then some (.vsra (ElType.ofCode (r.fn.val / 32)) (Fin.ofNat 32 r.fn.val) r.d r.a r.b (fld r.ext.toNat 8 1 == 1)) else none
    | 4 => if r.b.val = 0 ∧ fld r.ext.toNat 8 1 = 0 ∧ fld r.ext.toNat 9 1 = 0 ∧ fld r.ext.toNat 10 1 = 0 ∧ fld r.ext.toNat 11 5 = 0 ∧ fld r.ext.toNat 24 5 = 0 ∧ fld r.ext.toNat 29 35 = 0 then some (.vslli (ElType.ofCode (r.fn.val / 32)) (Fin.ofNat 32 r.fn.val) r.d r.a (BitVec.ofNat 8 (fld r.ext.toNat 16 8))) else none
    | 5 => if r.b.val = 0 ∧ fld r.ext.toNat 8 1 = 0 ∧ fld r.ext.toNat 9 1 = 0 ∧ fld r.ext.toNat 10 1 = 0 ∧ fld r.ext.toNat 11 5 = 0 ∧ fld r.ext.toNat 24 5 = 0 ∧ fld r.ext.toNat 29 35 = 0 then some (.vsrli (ElType.ofCode (r.fn.val / 32)) (Fin.ofNat 32 r.fn.val) r.d r.a (BitVec.ofNat 8 (fld r.ext.toNat 16 8))) else none
    | 6 => if r.b.val = 0 ∧ fld r.ext.toNat 8 1 = 0 ∧ fld r.ext.toNat 9 1 = 0 ∧ fld r.ext.toNat 10 1 = 0 ∧ fld r.ext.toNat 11 5 = 0 ∧ fld r.ext.toNat 24 5 = 0 ∧ fld r.ext.toNat 29 35 = 0 then some (.vsrai (ElType.ofCode (r.fn.val / 32)) (Fin.ofNat 32 r.fn.val) r.d r.a (BitVec.ofNat 8 (fld r.ext.toNat 16 8))) else none
    | _ => none
  else none

/-- Major 0x48: VFMA to VFNMA. -/
noncomputable def decode48 (r : Raw) : Option Instr :=
  if r.len.val = 0 then
    some (.vfma (ElType.ofCode (r.fn.val / 32)) (Fin.ofNat 32 r.fn.val) r.d r.a r.b)
  else if r.len.val = 2 then
    match fld r.ext.toNat 0 8 with
    | 0 => if fld r.ext.toNat 9 1 = 0 ∧ fld r.ext.toNat 10 1 = 0 ∧ fld r.ext.toNat 16 8 = 0 ∧ fld r.ext.toNat 24 5 = 0 ∧ fld r.ext.toNat 29 35 = 0 then some (.vfmaX (ElType.ofCode (r.fn.val / 32)) (Fin.ofNat 32 r.fn.val) r.d r.a r.b (fld r.ext.toNat 8 1 == 1) (Fin.ofNat 32 (fld r.ext.toNat 11 5))) else none
    | 1 => if fld r.ext.toNat 9 1 = 0 ∧ fld r.ext.toNat 10 1 = 0 ∧ fld r.ext.toNat 16 8 = 0 ∧ fld r.ext.toNat 24 5 = 0 ∧ fld r.ext.toNat 29 35 = 0 then some (.vfnma (ElType.ofCode (r.fn.val / 32)) (Fin.ofNat 32 r.fn.val) r.d r.a r.b (fld r.ext.toNat 8 1 == 1) (Fin.ofNat 32 (fld r.ext.toNat 11 5))) else none
    | _ => none
  else none

/-- Major 0x49: VNEG to VABS. -/
noncomputable def decode49 (r : Raw) : Option Instr :=
  if r.len.val = 0 then
    if r.b.val = 0 then some (.vneg (ElType.ofCode (r.fn.val / 32)) (Fin.ofNat 32 r.fn.val) r.d r.a) else none
  else if r.len.val = 2 then
    match fld r.ext.toNat 0 8 with
    | 0 => if r.b.val = 0 ∧ fld r.ext.toNat 8 1 = 0 ∧ fld r.ext.toNat 9 1 = 0 ∧ fld r.ext.toNat 11 5 = 0 ∧ fld r.ext.toNat 16 8 = 0 ∧ fld r.ext.toNat 24 5 = 0 ∧ fld r.ext.toNat 29 35 = 0 then some (.vnegX (ElType.ofCode (r.fn.val / 32)) (Fin.ofNat 32 r.fn.val) r.d r.a (fld r.ext.toNat 10 1 == 1)) else none
    | 1 => if r.b.val = 0 ∧ fld r.ext.toNat 8 1 = 0 ∧ fld r.ext.toNat 9 1 = 0 ∧ fld r.ext.toNat 11 5 = 0 ∧ fld r.ext.toNat 16 8 = 0 ∧ fld r.ext.toNat 24 5 = 0 ∧ fld r.ext.toNat 29 35 = 0 then some (.vabs (ElType.ofCode (r.fn.val / 32)) (Fin.ofNat 32 r.fn.val) r.d r.a (fld r.ext.toNat 10 1 == 1)) else none
    | _ => none
  else none

/-- Major 0x4A: VCVT to VCVT_X. -/
noncomputable def decode4A (r : Raw) : Option Instr :=
  if r.len.val = 0 then
    if r.b.val = 0 then some (.vcvt (ElType.ofCode (r.fn.val / 32)) (Fin.ofNat 32 r.fn.val) r.d r.a) else none
  else if r.len.val = 2 then
    match fld r.ext.toNat 0 8 with
    | 0 => if r.b.val = 0 ∧ fld r.ext.toNat 8 1 = 0 ∧ fld r.ext.toNat 11 5 = 0 ∧ fld r.ext.toNat 19 1 = 0 ∧ fld r.ext.toNat 24 5 = 0 ∧ fld r.ext.toNat 29 35 = 0 then some (.vcvtX (ElType.ofCode (r.fn.val / 32)) (Fin.ofNat 32 r.fn.val) r.d r.a (fld r.ext.toNat 9 1 == 1) (fld r.ext.toNat 10 1 == 1) (ElType.ofCode (fld r.ext.toNat 20 3)) (fld r.ext.toNat 23 1 == 1) (Fin.ofNat 8 (fld r.ext.toNat 16 3))) else none
    | _ => none
  else none

/-- Major 0x4B: VCEQ to VCGE. -/
noncomputable def decode4B (r : Raw) : Option Instr :=
  if r.len.val = 0 then
    if r.d.val = 0 then some (.vceq (ElType.ofCode (r.fn.val / 32)) (Fin.ofNat 32 r.fn.val) r.a r.b) else none
  else if r.len.val = 2 then
    match fld r.ext.toNat 0 8 with
    | 0 => if r.d.val = 0 ∧ fld r.ext.toNat 10 1 = 0 ∧ fld r.ext.toNat 11 5 = 0 ∧ fld r.ext.toNat 16 8 = 0 ∧ fld r.ext.toNat 29 35 = 0 then some (.vceqX (ElType.ofCode (r.fn.val / 32)) (Fin.ofNat 32 r.fn.val) r.a r.b (fld r.ext.toNat 8 1 == 1) (fld r.ext.toNat 9 1 == 1) (Fin.ofNat 32 (fld r.ext.toNat 24 5))) else none
    | 1 => if r.d.val = 0 ∧ fld r.ext.toNat 10 1 = 0 ∧ fld r.ext.toNat 11 5 = 0 ∧ fld r.ext.toNat 16 8 = 0 ∧ fld r.ext.toNat 29 35 = 0 then some (.vcne (ElType.ofCode (r.fn.val / 32)) (Fin.ofNat 32 r.fn.val) r.a r.b (fld r.ext.toNat 8 1 == 1) (fld r.ext.toNat 9 1 == 1) (Fin.ofNat 32 (fld r.ext.toNat 24 5))) else none
    | 2 => if r.d.val = 0 ∧ fld r.ext.toNat 10 1 = 0 ∧ fld r.ext.toNat 11 5 = 0 ∧ fld r.ext.toNat 16 8 = 0 ∧ fld r.ext.toNat 29 35 = 0 then some (.vclt (ElType.ofCode (r.fn.val / 32)) (Fin.ofNat 32 r.fn.val) r.a r.b (fld r.ext.toNat 8 1 == 1) (fld r.ext.toNat 9 1 == 1) (Fin.ofNat 32 (fld r.ext.toNat 24 5))) else none
    | 3 => if r.d.val = 0 ∧ fld r.ext.toNat 10 1 = 0 ∧ fld r.ext.toNat 11 5 = 0 ∧ fld r.ext.toNat 16 8 = 0 ∧ fld r.ext.toNat 29 35 = 0 then some (.vcle (ElType.ofCode (r.fn.val / 32)) (Fin.ofNat 32 r.fn.val) r.a r.b (fld r.ext.toNat 8 1 == 1) (fld r.ext.toNat 9 1 == 1) (Fin.ofNat 32 (fld r.ext.toNat 24 5))) else none
    | 4 => if r.d.val = 0 ∧ fld r.ext.toNat 10 1 = 0 ∧ fld r.ext.toNat 11 5 = 0 ∧ fld r.ext.toNat 16 8 = 0 ∧ fld r.ext.toNat 29 35 = 0 then some (.vcgt (ElType.ofCode (r.fn.val / 32)) (Fin.ofNat 32 r.fn.val) r.a r.b (fld r.ext.toNat 8 1 == 1) (fld r.ext.toNat 9 1 == 1) (Fin.ofNat 32 (fld r.ext.toNat 24 5))) else none
    | 5 => if r.d.val = 0 ∧ fld r.ext.toNat 10 1 = 0 ∧ fld r.ext.toNat 11 5 = 0 ∧ fld r.ext.toNat 16 8 = 0 ∧ fld r.ext.toNat 29 35 = 0 then some (.vcge (ElType.ofCode (r.fn.val / 32)) (Fin.ofNat 32 r.fn.val) r.a r.b (fld r.ext.toNat 8 1 == 1) (fld r.ext.toNat 9 1 == 1) (Fin.ofNat 32 (fld r.ext.toNat 24 5))) else none
    | _ => none
  else none

/-- Major 0x4C: VSEL to VSEL_X. -/
noncomputable def decode4C (r : Raw) : Option Instr :=
  if r.len.val = 0 then
    some (.vsel (ElType.ofCode (r.fn.val / 32)) (Fin.ofNat 32 r.fn.val) r.d r.a r.b)
  else if r.len.val = 2 then
    match fld r.ext.toNat 0 8 with
    | 0 => if fld r.ext.toNat 9 1 = 0 ∧ fld r.ext.toNat 10 1 = 0 ∧ fld r.ext.toNat 11 5 = 0 ∧ fld r.ext.toNat 16 8 = 0 ∧ fld r.ext.toNat 24 5 = 0 ∧ fld r.ext.toNat 29 35 = 0 then some (.vselX (ElType.ofCode (r.fn.val / 32)) (Fin.ofNat 32 r.fn.val) r.d r.a r.b (fld r.ext.toNat 8 1 == 1)) else none
    | _ => none
  else none

/-- Major 0x4D: VREDSUM to VREDXOR. -/
noncomputable def decode4D (r : Raw) : Option Instr :=
  if r.len.val = 0 then
    if r.d.val = 0 ∧ r.b.val = 0 then some (.vredsum (ElType.ofCode (r.fn.val / 32)) (Fin.ofNat 32 r.fn.val) r.a) else none
  else if r.len.val = 2 then
    match fld r.ext.toNat 0 8 with
    | 0 => if r.d.val = 0 ∧ r.b.val = 0 ∧ fld r.ext.toNat 8 1 = 0 ∧ fld r.ext.toNat 10 1 = 0 ∧ fld r.ext.toNat 11 5 = 0 ∧ fld r.ext.toNat 16 8 = 0 ∧ fld r.ext.toNat 29 35 = 0 then some (.vredsumX (ElType.ofCode (r.fn.val / 32)) (Fin.ofNat 32 r.fn.val) r.a (fld r.ext.toNat 9 1 == 1) (Fin.ofNat 32 (fld r.ext.toNat 24 5))) else none
    | 1 => if r.d.val = 0 ∧ r.b.val = 0 ∧ fld r.ext.toNat 8 1 = 0 ∧ fld r.ext.toNat 10 1 = 0 ∧ fld r.ext.toNat 11 5 = 0 ∧ fld r.ext.toNat 16 8 = 0 ∧ fld r.ext.toNat 29 35 = 0 then some (.vredmin (ElType.ofCode (r.fn.val / 32)) (Fin.ofNat 32 r.fn.val) r.a (fld r.ext.toNat 9 1 == 1) (Fin.ofNat 32 (fld r.ext.toNat 24 5))) else none
    | 2 => if r.d.val = 0 ∧ r.b.val = 0 ∧ fld r.ext.toNat 8 1 = 0 ∧ fld r.ext.toNat 10 1 = 0 ∧ fld r.ext.toNat 11 5 = 0 ∧ fld r.ext.toNat 16 8 = 0 ∧ fld r.ext.toNat 29 35 = 0 then some (.vredmax (ElType.ofCode (r.fn.val / 32)) (Fin.ofNat 32 r.fn.val) r.a (fld r.ext.toNat 9 1 == 1) (Fin.ofNat 32 (fld r.ext.toNat 24 5))) else none
    | 3 => if r.d.val = 0 ∧ r.b.val = 0 ∧ fld r.ext.toNat 8 1 = 0 ∧ fld r.ext.toNat 10 1 = 0 ∧ fld r.ext.toNat 11 5 = 0 ∧ fld r.ext.toNat 16 8 = 0 ∧ fld r.ext.toNat 29 35 = 0 then some (.vredand (ElType.ofCode (r.fn.val / 32)) (Fin.ofNat 32 r.fn.val) r.a (fld r.ext.toNat 9 1 == 1) (Fin.ofNat 32 (fld r.ext.toNat 24 5))) else none
    | 4 => if r.d.val = 0 ∧ r.b.val = 0 ∧ fld r.ext.toNat 8 1 = 0 ∧ fld r.ext.toNat 10 1 = 0 ∧ fld r.ext.toNat 11 5 = 0 ∧ fld r.ext.toNat 16 8 = 0 ∧ fld r.ext.toNat 29 35 = 0 then some (.vredor (ElType.ofCode (r.fn.val / 32)) (Fin.ofNat 32 r.fn.val) r.a (fld r.ext.toNat 9 1 == 1) (Fin.ofNat 32 (fld r.ext.toNat 24 5))) else none
    | 5 => if r.d.val = 0 ∧ r.b.val = 0 ∧ fld r.ext.toNat 8 1 = 0 ∧ fld r.ext.toNat 10 1 = 0 ∧ fld r.ext.toNat 11 5 = 0 ∧ fld r.ext.toNat 16 8 = 0 ∧ fld r.ext.toNat 29 35 = 0 then some (.vredxor (ElType.ofCode (r.fn.val / 32)) (Fin.ofNat 32 r.fn.val) r.a (fld r.ext.toNat 9 1 == 1) (Fin.ofNat 32 (fld r.ext.toNat 24 5))) else none
    | _ => none
  else none

/-- Major 0x4E: VDOT to VDOT_X. -/
noncomputable def decode4E (r : Raw) : Option Instr :=
  if r.len.val = 0 then
    some (.vdot (ElType.ofCode (r.fn.val / 32)) (Fin.ofNat 32 r.fn.val) r.d r.a r.b)
  else if r.len.val = 2 then
    match fld r.ext.toNat 0 8 with
    | 0 => if fld r.ext.toNat 8 1 = 0 ∧ fld r.ext.toNat 11 5 = 0 ∧ fld r.ext.toNat 16 8 = 0 ∧ fld r.ext.toNat 24 5 = 0 ∧ fld r.ext.toNat 29 35 = 0 then some (.vdotX (ElType.ofCode (r.fn.val / 32)) (Fin.ofNat 32 r.fn.val) r.d r.a r.b (fld r.ext.toNat 9 1 == 1) (fld r.ext.toNat 10 1 == 1)) else none
    | _ => none
  else none

/-- Major 0x4F: VPERM to VREV. A non-zero imm8 with fn 0x00 or 0x03, which R121 does not speak of, is no instruction: the model's choice
(log 16). -/
noncomputable def decode4F (r : Raw) : Option Instr :=
  if r.len.val = 0 then
    some (.vperm (ElType.ofCode (r.fn.val / 32)) (Fin.ofNat 32 r.fn.val) r.d r.a r.b)
  else if r.len.val = 2 then
    match fld r.ext.toNat 0 8 with
    | 0 => if fld r.ext.toNat 9 1 = 0 ∧ fld r.ext.toNat 10 1 = 0 ∧ fld r.ext.toNat 11 5 = 0 ∧ fld r.ext.toNat 16 8 = 0 ∧ fld r.ext.toNat 24 5 = 0 ∧ fld r.ext.toNat 29 35 = 0 then some (.vpermX (ElType.ofCode (r.fn.val / 32)) (Fin.ofNat 32 r.fn.val) r.d r.a r.b (fld r.ext.toNat 8 1 == 1)) else none
    | 1 => if r.b.val = 0 ∧ fld r.ext.toNat 8 1 = 0 ∧ fld r.ext.toNat 9 1 = 0 ∧ fld r.ext.toNat 10 1 = 0 ∧ fld r.ext.toNat 11 5 = 0 ∧ fld r.ext.toNat 24 5 = 0 ∧ fld r.ext.toNat 29 35 = 0 then some (.vslideh (ElType.ofCode (r.fn.val / 32)) (Fin.ofNat 32 r.fn.val) r.d r.a (BitVec.ofNat 8 (fld r.ext.toNat 16 8))) else none
    | 2 => if r.b.val = 0 ∧ fld r.ext.toNat 8 1 = 0 ∧ fld r.ext.toNat 9 1 = 0 ∧ fld r.ext.toNat 10 1 = 0 ∧ fld r.ext.toNat 11 5 = 0 ∧ fld r.ext.toNat 24 5 = 0 ∧ fld r.ext.toNat 29 35 = 0 then some (.vslidel (ElType.ofCode (r.fn.val / 32)) (Fin.ofNat 32 r.fn.val) r.d r.a (BitVec.ofNat 8 (fld r.ext.toNat 16 8))) else none
    | 3 => if r.b.val = 0 ∧ fld r.ext.toNat 8 1 = 0 ∧ fld r.ext.toNat 9 1 = 0 ∧ fld r.ext.toNat 10 1 = 0 ∧ fld r.ext.toNat 11 5 = 0 ∧ fld r.ext.toNat 16 8 = 0 ∧ fld r.ext.toNat 24 5 = 0 ∧ fld r.ext.toNat 29 35 = 0 then some (.vrev (ElType.ofCode (r.fn.val / 32)) (Fin.ofNat 32 r.fn.val) r.d r.a) else none
    | _ => none
  else none

/-- Major 0x50: VBCAST to VINDEX. -/
noncomputable def decode50 (r : Raw) : Option Instr :=
  if r.len.val = 0 then
    if r.a.val = 0 ∧ r.b.val = 0 then some (.vbcast (ElType.ofCode (r.fn.val / 32)) (Fin.ofNat 32 r.fn.val) r.d) else none
  else if r.len.val = 2 then
    match fld r.ext.toNat 0 8 with
    | 0 => if r.a.val = 0 ∧ r.b.val = 0 ∧ fld r.ext.toNat 8 1 = 0 ∧ fld r.ext.toNat 9 1 = 0 ∧ fld r.ext.toNat 10 1 = 0 ∧ fld r.ext.toNat 11 5 = 0 ∧ fld r.ext.toNat 16 8 = 0 ∧ fld r.ext.toNat 29 35 = 0 then some (.vbcastX (ElType.ofCode (r.fn.val / 32)) (Fin.ofNat 32 r.fn.val) r.d (Fin.ofNat 32 (fld r.ext.toNat 24 5))) else none
    | 1 => if r.b.val = 0 ∧ fld r.ext.toNat 8 1 = 0 ∧ fld r.ext.toNat 9 1 = 0 ∧ fld r.ext.toNat 10 1 = 0 ∧ fld r.ext.toNat 11 5 = 0 ∧ fld r.ext.toNat 24 5 = 0 ∧ fld r.ext.toNat 29 35 = 0 then some (.vbcastl (ElType.ofCode (r.fn.val / 32)) (Fin.ofNat 32 r.fn.val) r.d r.a (BitVec.ofNat 8 (fld r.ext.toNat 16 8))) else none
    | 2 => if r.a.val = 0 ∧ r.b.val = 0 ∧ fld r.ext.toNat 8 1 = 0 ∧ fld r.ext.toNat 9 1 = 0 ∧ fld r.ext.toNat 10 1 = 0 ∧ fld r.ext.toNat 11 5 = 0 ∧ fld r.ext.toNat 16 8 = 0 ∧ fld r.ext.toNat 24 5 = 0 ∧ fld r.ext.toNat 29 35 = 0 then some (.vindex (ElType.ofCode (r.fn.val / 32)) (Fin.ofNat 32 r.fn.val) r.d) else none
    | _ => none
  else none

/-- Major 0x51: VEXT to VINS. -/
noncomputable def decode51 (r : Raw) : Option Instr :=
  if r.len.val = 0 then
    if r.d.val = 0 ∧ r.b.val = 0 ∧ r.fn.val % 32 = 0 then some (.vext (ElType.ofCode (r.fn.val / 32)) r.a) else none
  else if r.len.val = 2 then
    match fld r.ext.toNat 0 8 with
    | 0 => if r.d.val = 0 ∧ r.b.val = 0 ∧ r.fn.val % 32 = 0 ∧ fld r.ext.toNat 8 1 = 0 ∧ fld r.ext.toNat 10 1 = 0 ∧ fld r.ext.toNat 11 5 = 0 ∧ fld r.ext.toNat 29 35 = 0 then some (.vextX (ElType.ofCode (r.fn.val / 32)) r.a (fld r.ext.toNat 9 1 == 1) (Fin.ofNat 32 (fld r.ext.toNat 24 5)) (BitVec.ofNat 8 (fld r.ext.toNat 16 8))) else none
    | 1 => if r.a.val = 0 ∧ r.b.val = 0 ∧ r.fn.val % 32 = 0 ∧ fld r.ext.toNat 8 1 = 0 ∧ fld r.ext.toNat 9 1 = 0 ∧ fld r.ext.toNat 10 1 = 0 ∧ fld r.ext.toNat 11 5 = 0 ∧ fld r.ext.toNat 29 35 = 0 then some (.vins (ElType.ofCode (r.fn.val / 32)) r.d (Fin.ofNat 32 (fld r.ext.toNat 24 5)) (BitVec.ofNat 8 (fld r.ext.toNat 16 8))) else none
    | _ => none
  else none

/-- Major 0x52: VCPRS to VEXPD. -/
noncomputable def decode52 (r : Raw) : Option Instr :=
  if r.len.val = 0 then
    if r.b.val = 0 then some (.vcprs (ElType.ofCode (r.fn.val / 32)) (Fin.ofNat 32 r.fn.val) r.d r.a) else none
  else if r.len.val = 2 then
    match fld r.ext.toNat 0 8 with
    | 0 => if r.b.val = 0 ∧ fld r.ext.toNat 8 1 = 0 ∧ fld r.ext.toNat 9 1 = 0 ∧ fld r.ext.toNat 10 1 = 0 ∧ fld r.ext.toNat 11 5 = 0 ∧ fld r.ext.toNat 16 8 = 0 ∧ fld r.ext.toNat 29 35 = 0 then some (.vcprsX (ElType.ofCode (r.fn.val / 32)) (Fin.ofNat 32 r.fn.val) r.d r.a (Fin.ofNat 32 (fld r.ext.toNat 24 5))) else none
    | 1 => if r.b.val = 0 ∧ fld r.ext.toNat 8 1 = 0 ∧ fld r.ext.toNat 9 1 = 0 ∧ fld r.ext.toNat 10 1 = 0 ∧ fld r.ext.toNat 11 5 = 0 ∧ fld r.ext.toNat 16 8 = 0 ∧ fld r.ext.toNat 29 35 = 0 then some (.vexpd (ElType.ofCode (r.fn.val / 32)) (Fin.ofNat 32 r.fn.val) r.d r.a (Fin.ofNat 32 (fld r.ext.toNat 24 5))) else none
    | _ => none
  else none

/-- Major 0x58: VLD. -/
noncomputable def decode58 (r : Raw) : Option Instr :=
  if r.len.val = 2 then
    if r.a.val = 0 ∧ fld r.ext.toNat 56 8 = 0 ∧ fld r.ext.toNat 37 3 = 0 ∧ r.b.val = 0 ∧ fld r.ext.toNat 48 3 = 0 then (VMemExt.ofExt? r.ext).bind fun x => some (.vld (ElType.ofCode (r.fn.val / 32)) (Fin.ofNat 32 r.fn.val) r.d x) else none
  else none

/-- Major 0x59: VST. -/
noncomputable def decode59 (r : Raw) : Option Instr :=
  if r.len.val = 2 then
    if r.a.val = 0 ∧ fld r.ext.toNat 56 8 = 0 ∧ fld r.ext.toNat 37 3 = 0 ∧ r.b.val = 0 ∧ fld r.ext.toNat 48 3 = 0 then (VMemExt.ofExt? r.ext).bind fun x => some (.vst (ElType.ofCode (r.fn.val / 32)) (Fin.ofNat 32 r.fn.val) r.d x) else none
  else none

/-- Major 0x5A: VLDS. -/
noncomputable def decode5A (r : Raw) : Option Instr :=
  if r.len.val = 2 then
    if r.a.val = 0 ∧ fld r.ext.toNat 56 8 = 0 ∧ fld r.ext.toNat 37 3 = 0 ∧ fld r.ext.toNat 48 3 = 0 then (VMemExt.ofExt? r.ext).bind fun x => some (.vlds (ElType.ofCode (r.fn.val / 32)) (Fin.ofNat 32 r.fn.val) r.d r.b x) else none
  else none

/-- Major 0x5B: VSTS. -/
noncomputable def decode5B (r : Raw) : Option Instr :=
  if r.len.val = 2 then
    if r.a.val = 0 ∧ fld r.ext.toNat 56 8 = 0 ∧ fld r.ext.toNat 37 3 = 0 ∧ fld r.ext.toNat 48 3 = 0 then (VMemExt.ofExt? r.ext).bind fun x => some (.vsts (ElType.ofCode (r.fn.val / 32)) (Fin.ofNat 32 r.fn.val) r.d r.b x) else none
  else none

/-- Major 0x5C: VGATH. -/
noncomputable def decode5C (r : Raw) : Option Instr :=
  if r.len.val = 2 then
    if r.a.val = 0 ∧ fld r.ext.toNat 56 8 = 0 ∧ fld r.ext.toNat 37 3 = 0 then (VMemExt.ofExt? r.ext).bind fun x => some (.vgath (ElType.ofCode (r.fn.val / 32)) (Fin.ofNat 32 r.fn.val) r.d r.b (Fin.ofNat 8 (fld r.ext.toNat 48 3)) x) else none
  else none

/-- Major 0x5D: VSCAT. -/
noncomputable def decode5D (r : Raw) : Option Instr :=
  if r.len.val = 2 then
    if r.a.val = 0 ∧ fld r.ext.toNat 56 8 = 0 ∧ fld r.ext.toNat 37 3 = 0 then (VMemExt.ofExt? r.ext).bind fun x => some (.vscat (ElType.ofCode (r.fn.val / 32)) (Fin.ofNat 32 r.fn.val) r.d r.b (Fin.ofNat 8 (fld r.ext.toNat 48 3)) x) else none
  else none

/-- Major 0x60: TD_LD to TD_WRW. -/
noncomputable def decode60 (r : Raw) : Option Instr :=
  if r.len.val = 2 then
    match r.fn.val with
    | 0 => if r.d.val = 0 ∧ r.b.val = 0 ∧ fld r.ext.toNat 6 2 = 0 ∧ fld r.ext.toNat 14 2 = 0 ∧ fld r.ext.toNat 17 7 = 0 ∧ fld r.ext.toNat 29 35 = 0 ∧ fld r.ext.toNat 8 6 = 0 ∧ fld r.ext.toNat 16 1 = 0 ∧ fld r.ext.toNat 24 5 = 0 then some (.tdLd r.a (Fin.ofNat 64 (fld r.ext.toNat 0 6))) else none
    | 1 => if r.d.val = 0 ∧ r.b.val = 0 ∧ fld r.ext.toNat 6 2 = 0 ∧ fld r.ext.toNat 14 2 = 0 ∧ fld r.ext.toNat 17 7 = 0 ∧ fld r.ext.toNat 29 35 = 0 ∧ fld r.ext.toNat 8 6 = 0 ∧ fld r.ext.toNat 16 1 = 0 ∧ fld r.ext.toNat 24 5 = 0 then some (.tdSt r.a (Fin.ofNat 64 (fld r.ext.toNat 0 6))) else none
    | 2 => if r.a.val = 0 ∧ r.b.val = 0 ∧ fld r.ext.toNat 6 2 = 0 ∧ fld r.ext.toNat 14 2 = 0 ∧ fld r.ext.toNat 17 7 = 0 ∧ fld r.ext.toNat 29 35 = 0 ∧ fld r.ext.toNat 8 6 = 0 ∧ fld r.ext.toNat 16 1 = 0 ∧ fld r.ext.toNat 27 2 = 0 then some (.tdRdw r.d (Fin.ofNat 64 (fld r.ext.toNat 0 6)) (Fin.ofNat 8 (fld r.ext.toNat 24 3))) else none
    | 3 => if r.d.val = 0 ∧ r.a.val = 0 ∧ fld r.ext.toNat 6 2 = 0 ∧ fld r.ext.toNat 14 2 = 0 ∧ fld r.ext.toNat 17 7 = 0 ∧ fld r.ext.toNat 29 35 = 0 ∧ fld r.ext.toNat 8 6 = 0 ∧ fld r.ext.toNat 16 1 = 0 ∧ fld r.ext.toNat 27 2 = 0 then some (.tdWrw r.b (Fin.ofNat 64 (fld r.ext.toNat 0 6)) (Fin.ofNat 8 (fld r.ext.toNat 24 3))) else none
    | _ => none
  else none

/-- Major 0x61: MM. -/
noncomputable def decode61 (r : Raw) : Option Instr :=
  if r.len.val = 2 then
    match r.fn.val with
    | 0 => if r.d.val = 0 ∧ r.a.val = 0 ∧ r.b.val = 0 ∧ fld r.ext.toNat 6 2 = 0 ∧ fld r.ext.toNat 14 2 = 0 ∧ fld r.ext.toNat 17 7 = 0 ∧ fld r.ext.toNat 29 35 = 0 ∧ fld r.ext.toNat 24 5 = 0 then some (.mm (Fin.ofNat 64 (fld r.ext.toNat 0 6)) (Fin.ofNat 64 (fld r.ext.toNat 8 6)) (Fin.ofNat 2 (fld r.ext.toNat 16 1))) else none
    | _ => none
  else none

/-- Major 0x62: MC to MC_ND_B. -/
noncomputable def decode62 (r : Raw) : Option Instr :=
  if r.len.val = 2 then
    match r.fn.val with
    | 0 => if r.d.val = 0 ∧ r.a.val = 0 ∧ r.b.val = 0 ∧ fld r.ext.toNat 6 2 = 0 ∧ fld r.ext.toNat 14 2 = 0 ∧ fld r.ext.toNat 17 7 = 0 ∧ fld r.ext.toNat 29 35 = 0 ∧ fld r.ext.toNat 24 5 = 0 then some (.mc (Fin.ofNat 64 (fld r.ext.toNat 0 6)) (Fin.ofNat 64 (fld r.ext.toNat 8 6)) (Fin.ofNat 2 (fld r.ext.toNat 16 1))) else none
    | 1 => if r.d.val = 0 ∧ r.a.val = 0 ∧ r.b.val = 0 ∧ fld r.ext.toNat 6 2 = 0 ∧ fld r.ext.toNat 14 2 = 0 ∧ fld r.ext.toNat 17 7 = 0 ∧ fld r.ext.toNat 29 35 = 0 ∧ fld r.ext.toNat 24 5 = 0 then some (.mcNdA (Fin.ofNat 64 (fld r.ext.toNat 0 6)) (Fin.ofNat 64 (fld r.ext.toNat 8 6)) (Fin.ofNat 2 (fld r.ext.toNat 16 1))) else none
    | 2 => if r.d.val = 0 ∧ r.a.val = 0 ∧ r.b.val = 0 ∧ fld r.ext.toNat 6 2 = 0 ∧ fld r.ext.toNat 14 2 = 0 ∧ fld r.ext.toNat 17 7 = 0 ∧ fld r.ext.toNat 29 35 = 0 ∧ fld r.ext.toNat 24 5 = 0 then some (.mcNdB (Fin.ofNat 64 (fld r.ext.toNat 0 6)) (Fin.ofNat 64 (fld r.ext.toNat 8 6)) (Fin.ofNat 2 (fld r.ext.toNat 16 1))) else none
    | _ => none
  else none

/-- Major 0x63: DRAIN_A to ACC_MERGE. -/
noncomputable def decode63 (r : Raw) : Option Instr :=
  if r.len.val = 0 then
    match r.fn.val with
    | 0 => if r.d.val = 0 ∧ r.a.val = 0 ∧ r.b.val = 0 then some (.drainA) else none
    | 1 => if r.d.val = 0 ∧ r.a.val = 0 ∧ r.b.val = 0 then some (.drainB) else none
    | 2 => if r.d.val = 0 ∧ r.a.val = 0 ∧ r.b.val = 0 then some (.bankMergeAb) else none
    | 3 => if r.d.val = 0 ∧ r.a.val = 0 ∧ r.b.val = 0 then some (.bankMergeBa) else none
    | _ => none
  else if r.len.val = 2 then
    match r.fn.val with
    | 4 => if r.d.val = 0 ∧ r.b.val = 0 ∧ fld r.ext.toNat 6 2 = 0 ∧ fld r.ext.toNat 14 2 = 0 ∧ fld r.ext.toNat 17 7 = 0 ∧ fld r.ext.toNat 29 35 = 0 ∧ fld r.ext.toNat 0 6 = 0 ∧ fld r.ext.toNat 8 6 = 0 ∧ fld r.ext.toNat 24 5 = 0 then some (.accMerge r.a (Fin.ofNat 2 (fld r.ext.toNat 16 1))) else none
    | _ => none
  else none

/-- Major 0x64: ACC_CLR_F to ACC_LD. -/
noncomputable def decode64 (r : Raw) : Option Instr :=
  if r.len.val = 2 then
    match r.fn.val with
    | 0 => if r.d.val = 0 ∧ r.a.val = 0 ∧ r.b.val = 0 ∧ fld r.ext.toNat 6 2 = 0 ∧ fld r.ext.toNat 14 2 = 0 ∧ fld r.ext.toNat 17 7 = 0 ∧ fld r.ext.toNat 29 35 = 0 ∧ fld r.ext.toNat 0 6 = 0 ∧ fld r.ext.toNat 8 6 = 0 ∧ fld r.ext.toNat 24 5 = 0 then some (.accClrF (Fin.ofNat 2 (fld r.ext.toNat 16 1))) else none
    | 1 => if r.d.val = 0 ∧ r.a.val = 0 ∧ r.b.val = 0 ∧ fld r.ext.toNat 6 2 = 0 ∧ fld r.ext.toNat 14 2 = 0 ∧ fld r.ext.toNat 17 7 = 0 ∧ fld r.ext.toNat 29 35 = 0 ∧ fld r.ext.toNat 24 5 = 0 then some (.accClrX (Fin.ofNat 64 (fld r.ext.toNat 0 6)) (Fin.ofNat 64 (fld r.ext.toNat 8 6)) (Fin.ofNat 2 (fld r.ext.toNat 16 1))) else none
    | 2 => if r.d.val = 0 ∧ r.a.val = 0 ∧ r.b.val = 0 ∧ fld r.ext.toNat 6 2 = 0 ∧ fld r.ext.toNat 14 2 = 0 ∧ fld r.ext.toNat 17 7 = 0 ∧ fld r.ext.toNat 29 35 = 0 ∧ fld r.ext.toNat 8 6 = 0 ∧ fld r.ext.toNat 24 5 = 0 then some (.accCvt (Fin.ofNat 64 (fld r.ext.toNat 0 6)) (Fin.ofNat 2 (fld r.ext.toNat 16 1))) else none
    | 3 => if r.d.val = 0 ∧ r.b.val = 0 ∧ fld r.ext.toNat 6 2 = 0 ∧ fld r.ext.toNat 14 2 = 0 ∧ fld r.ext.toNat 17 7 = 0 ∧ fld r.ext.toNat 29 35 = 0 ∧ fld r.ext.toNat 0 6 = 0 ∧ fld r.ext.toNat 8 6 = 0 ∧ fld r.ext.toNat 24 5 = 0 then some (.accSt r.a (Fin.ofNat 2 (fld r.ext.toNat 16 1))) else none
    | 4 => if r.d.val = 0 ∧ r.b.val = 0 ∧ fld r.ext.toNat 6 2 = 0 ∧ fld r.ext.toNat 14 2 = 0 ∧ fld r.ext.toNat 17 7 = 0 ∧ fld r.ext.toNat 29 35 = 0 ∧ fld r.ext.toNat 0 6 = 0 ∧ fld r.ext.toNat 8 6 = 0 ∧ fld r.ext.toNat 24 5 = 0 then some (.accLd r.a (Fin.ofNat 2 (fld r.ext.toNat 16 1))) else none
    | _ => none
  else none

/-- Major 0x65: WB_LD. -/
noncomputable def decode65 (r : Raw) : Option Instr :=
  if r.len.val = 2 then
    match r.fn.val with
    | 0 => if r.d.val = 0 ∧ r.a.val = 0 ∧ r.b.val = 0 ∧ fld r.ext.toNat 6 2 = 0 ∧ fld r.ext.toNat 14 2 = 0 ∧ fld r.ext.toNat 17 7 = 0 ∧ fld r.ext.toNat 29 35 = 0 ∧ fld r.ext.toNat 16 1 = 0 ∧ fld r.ext.toNat 24 5 = 0 then some (.wbLd (Fin.ofNat 64 (fld r.ext.toNat 0 6)) (Fin.ofNat 64 (fld r.ext.toNat 8 6))) else none
    | _ => none
  else none

/-- Major 0x66: COMPRESS. -/
noncomputable def decode66 (r : Raw) : Option Instr :=
  if r.len.val = 2 then
    match r.fn.val with
    | 0 => if r.d.val = 0 ∧ r.a.val = 0 ∧ r.b.val = 0 ∧ fld r.ext.toNat 6 2 = 0 ∧ fld r.ext.toNat 14 2 = 0 ∧ fld r.ext.toNat 17 7 = 0 ∧ fld r.ext.toNat 29 35 = 0 ∧ fld r.ext.toNat 16 1 = 0 ∧ fld r.ext.toNat 24 5 = 0 then some (.compress (Fin.ofNat 64 (fld r.ext.toNat 0 6)) (Fin.ofNat 64 (fld r.ext.toNat 8 6))) else none
    | _ => none
  else none

/-- Major 0x67: MSAVE to MRESTORE. -/
noncomputable def decode67 (r : Raw) : Option Instr :=
  if r.len.val = 2 then
    match r.fn.val with
    | 0 => if r.d.val = 0 ∧ r.b.val = 0 ∧ fld r.ext.toNat 6 2 = 0 ∧ fld r.ext.toNat 14 2 = 0 ∧ fld r.ext.toNat 17 7 = 0 ∧ fld r.ext.toNat 29 35 = 0 ∧ fld r.ext.toNat 0 6 = 0 ∧ fld r.ext.toNat 8 6 = 0 ∧ fld r.ext.toNat 16 1 = 0 then some (.msave r.a (BitVec.ofNat 5 (fld r.ext.toNat 24 5))) else none
    | 1 => if r.d.val = 0 ∧ r.b.val = 0 ∧ fld r.ext.toNat 6 2 = 0 ∧ fld r.ext.toNat 14 2 = 0 ∧ fld r.ext.toNat 17 7 = 0 ∧ fld r.ext.toNat 29 35 = 0 ∧ fld r.ext.toNat 0 6 = 0 ∧ fld r.ext.toNat 8 6 = 0 ∧ fld r.ext.toNat 16 1 = 0 then some (.mrestore r.a (BitVec.ofNat 5 (fld r.ext.toNat 24 5))) else none
    | _ => none
  else none

/-- Major 0x70: CP_START to CP_RESUME. -/
noncomputable def decode70 (r : Raw) : Option Instr :=
  if r.len.val = 0 then
    match r.fn.val / 4 with
    | 0 => some (.cpStart (Fin.ofNat 4 r.fn.val) r.d r.a r.b)
    | 1 => if r.b.val = 0 then some (.cpWaitge (Fin.ofNat 4 r.fn.val) r.d r.a) else none
    | 2 => if r.a.val = 0 ∧ r.b.val = 0 then some (.cpWp (Fin.ofNat 4 r.fn.val) r.d) else none
    | 3 => if r.a.val = 0 ∧ r.b.val = 0 then some (.cpStat (Fin.ofNat 4 r.fn.val) r.d) else none
    | 4 => if r.d.val = 0 ∧ r.a.val = 0 ∧ r.b.val = 0 then some (.cpStop (Fin.ofNat 4 r.fn.val)) else none
    | 5 => if r.d.val = 0 ∧ r.a.val = 0 ∧ r.b.val = 0 then some (.cpResume (Fin.ofNat 4 r.fn.val)) else none
    | _ => none
  else none

/-- Major 0x71: DIST_SET to DIST_RESUME. -/
noncomputable def decode71 (r : Raw) : Option Instr :=
  if r.len.val = 0 then
    match r.fn.val with
    | 0 => if r.d.val = 0 ∧ r.b.val = 0 then some (.distSet r.a) else none
    | 1 => some (.distGo r.d r.a r.b)
    | 2 => if r.a.val = 0 ∧ r.b.val = 0 then some (.distStat r.d) else none
    | 3 => if r.d.val = 0 ∧ r.a.val = 0 ∧ r.b.val = 0 then some (.distResume) else none
    | _ => none
  else none

/-- Major 0x72: SFU_EXP2 to SFU_ERF. -/
noncomputable def decode72 (r : Raw) : Option Instr :=
  if r.len.val = 2 then
    match fld r.ext.toNat 0 8 with
    | 0 => if r.b.val = 0 ∧ fld r.ext.toNat 8 1 = 0 ∧ fld r.ext.toNat 9 1 = 0 ∧ fld r.ext.toNat 10 1 = 0 ∧ fld r.ext.toNat 11 5 = 0 ∧ fld r.ext.toNat 16 8 = 0 ∧ fld r.ext.toNat 24 5 = 0 ∧ fld r.ext.toNat 29 35 = 0 then some (.sfuExp2 (ElType.ofCode (r.fn.val / 32)) (Fin.ofNat 32 r.fn.val) r.d r.a) else none
    | 1 => if r.b.val = 0 ∧ fld r.ext.toNat 8 1 = 0 ∧ fld r.ext.toNat 9 1 = 0 ∧ fld r.ext.toNat 10 1 = 0 ∧ fld r.ext.toNat 11 5 = 0 ∧ fld r.ext.toNat 16 8 = 0 ∧ fld r.ext.toNat 24 5 = 0 ∧ fld r.ext.toNat 29 35 = 0 then some (.sfuLog2 (ElType.ofCode (r.fn.val / 32)) (Fin.ofNat 32 r.fn.val) r.d r.a) else none
    | 2 => if r.b.val = 0 ∧ fld r.ext.toNat 8 1 = 0 ∧ fld r.ext.toNat 9 1 = 0 ∧ fld r.ext.toNat 10 1 = 0 ∧ fld r.ext.toNat 11 5 = 0 ∧ fld r.ext.toNat 16 8 = 0 ∧ fld r.ext.toNat 24 5 = 0 ∧ fld r.ext.toNat 29 35 = 0 then some (.sfuRcp (ElType.ofCode (r.fn.val / 32)) (Fin.ofNat 32 r.fn.val) r.d r.a) else none
    | 3 => if r.b.val = 0 ∧ fld r.ext.toNat 8 1 = 0 ∧ fld r.ext.toNat 9 1 = 0 ∧ fld r.ext.toNat 10 1 = 0 ∧ fld r.ext.toNat 11 5 = 0 ∧ fld r.ext.toNat 16 8 = 0 ∧ fld r.ext.toNat 24 5 = 0 ∧ fld r.ext.toNat 29 35 = 0 then some (.sfuRsqrt (ElType.ofCode (r.fn.val / 32)) (Fin.ofNat 32 r.fn.val) r.d r.a) else none
    | 4 => if r.b.val = 0 ∧ fld r.ext.toNat 8 1 = 0 ∧ fld r.ext.toNat 9 1 = 0 ∧ fld r.ext.toNat 10 1 = 0 ∧ fld r.ext.toNat 11 5 = 0 ∧ fld r.ext.toNat 16 8 = 0 ∧ fld r.ext.toNat 24 5 = 0 ∧ fld r.ext.toNat 29 35 = 0 then some (.sfuSqrt (ElType.ofCode (r.fn.val / 32)) (Fin.ofNat 32 r.fn.val) r.d r.a) else none
    | 5 => if r.b.val = 0 ∧ fld r.ext.toNat 8 1 = 0 ∧ fld r.ext.toNat 9 1 = 0 ∧ fld r.ext.toNat 10 1 = 0 ∧ fld r.ext.toNat 11 5 = 0 ∧ fld r.ext.toNat 16 8 = 0 ∧ fld r.ext.toNat 24 5 = 0 ∧ fld r.ext.toNat 29 35 = 0 then some (.sfuSin (ElType.ofCode (r.fn.val / 32)) (Fin.ofNat 32 r.fn.val) r.d r.a) else none
    | 6 => if r.b.val = 0 ∧ fld r.ext.toNat 8 1 = 0 ∧ fld r.ext.toNat 9 1 = 0 ∧ fld r.ext.toNat 10 1 = 0 ∧ fld r.ext.toNat 11 5 = 0 ∧ fld r.ext.toNat 16 8 = 0 ∧ fld r.ext.toNat 24 5 = 0 ∧ fld r.ext.toNat 29 35 = 0 then some (.sfuCos (ElType.ofCode (r.fn.val / 32)) (Fin.ofNat 32 r.fn.val) r.d r.a) else none
    | 7 => if r.b.val = 0 ∧ fld r.ext.toNat 8 1 = 0 ∧ fld r.ext.toNat 9 1 = 0 ∧ fld r.ext.toNat 10 1 = 0 ∧ fld r.ext.toNat 11 5 = 0 ∧ fld r.ext.toNat 16 8 = 0 ∧ fld r.ext.toNat 24 5 = 0 ∧ fld r.ext.toNat 29 35 = 0 then some (.sfuTanh (ElType.ofCode (r.fn.val / 32)) (Fin.ofNat 32 r.fn.val) r.d r.a) else none
    | 8 => if r.b.val = 0 ∧ fld r.ext.toNat 8 1 = 0 ∧ fld r.ext.toNat 9 1 = 0 ∧ fld r.ext.toNat 10 1 = 0 ∧ fld r.ext.toNat 11 5 = 0 ∧ fld r.ext.toNat 16 8 = 0 ∧ fld r.ext.toNat 24 5 = 0 ∧ fld r.ext.toNat 29 35 = 0 then some (.sfuSigm (ElType.ofCode (r.fn.val / 32)) (Fin.ofNat 32 r.fn.val) r.d r.a) else none
    | 9 => if r.b.val = 0 ∧ fld r.ext.toNat 8 1 = 0 ∧ fld r.ext.toNat 9 1 = 0 ∧ fld r.ext.toNat 10 1 = 0 ∧ fld r.ext.toNat 11 5 = 0 ∧ fld r.ext.toNat 16 8 = 0 ∧ fld r.ext.toNat 24 5 = 0 ∧ fld r.ext.toNat 29 35 = 0 then some (.sfuErf (ElType.ofCode (r.fn.val / 32)) (Fin.ofNat 32 r.fn.val) r.d r.a) else none
    | _ => none
  else none

/-- Major 0x78: TAG_GNT to TAG_RCL. -/
noncomputable def decode78 (r : Raw) : Option Instr :=
  if r.len.val = 0 then
    match r.fn.val with
    | 0 => if r.d.val = 0 then some (.tagGnt r.a r.b) else none
    | 1 => if r.d.val = 0 then some (.tagGntd r.a r.b) else none
    | 2 => if r.d.val = 0 then some (.tagRcl r.a r.b) else none
    | _ => none
  else none

/-- Major 0x79: DIR_WR to DIR_SHDEL. -/
noncomputable def decode79 (r : Raw) : Option Instr :=
  if r.len.val = 0 then
    match r.fn.val with
    | 0 => if r.d.val = 0 ∧ r.a.val = 0 ∧ r.b.val = 0 then some (.dirWr) else none
    | 1 => if r.d.val = 0 ∧ r.b.val = 0 then some (.dirShadd r.a) else none
    | 2 => if r.d.val = 0 ∧ r.b.val = 0 then some (.dirShdel r.a) else none
    | _ => none
  else none

/-- Major 0x7A: MSG_SEND to BT_MRG. -/
noncomputable def decode7A (r : Raw) : Option Instr :=
  if r.len.val = 0 then
    match r.fn.val with
    | 0 => if r.d.val = 0 then some (.msgSend r.a r.b) else none
    | 1 => some (.msgMcast r.d r.a r.b)
    | 4 => if r.d.val = 0 then some (.btRd r.a r.b) else none
    | 5 => if r.d.val = 0 then some (.btWr r.a r.b) else none
    | 6 => if r.d.val = 0 then some (.btMrg r.a r.b) else none
    | _ => none
  else none

/-- Major 0x7B: HEND to BI_SNP. -/
noncomputable def decode7B (r : Raw) : Option Instr :=
  if r.len.val = 0 then
    match r.fn.val with
    | 0 => if r.d.val = 0 ∧ r.a.val = 0 ∧ r.b.val = 0 then some (.hend) else none
    | 1 => if r.d.val = 0 then some (.hfail r.a r.b) else none
    | 8 => if r.b.val = 0 then some (.biasRd r.d r.a) else none
    | 9 => if r.d.val = 0 then some (.biasWr r.a r.b) else none
    | 10 => if r.d.val = 0 ∧ r.a.val = 0 then some (.biSnp r.b) else none
    | _ => none
  else none

/-- The instruction a base word and its extension and literal words hold, its operands not yet checked (R35, R36). -/
noncomputable def decodeFields (r : Raw) : Option Instr :=
  match r.major.val with
  | 0x01 => decode01 r
  | 0x02 => decode02 r
  | 0x03 => decode03 r
  | 0x04 => decode04 r
  | 0x05 => decode05 r
  | 0x06 => decode06 r
  | 0x07 => decode07 r
  | 0x08 => decode08 r
  | 0x09 => decode09 r
  | 0x0A => decode0A r
  | 0x0B => decode0B r
  | 0x0C => decode0C r
  | 0x10 => decode10 r
  | 0x11 => decode11 r
  | 0x12 => decode12 r
  | 0x13 => decode13 r
  | 0x18 => decode18 r
  | 0x19 => decode19 r
  | 0x1A => decode1A r
  | 0x1B => decode1B r
  | 0x1C => decode1C r
  | 0x20 => decode20 r
  | 0x21 => decode21 r
  | 0x22 => decode22 r
  | 0x23 => decode23 r
  | 0x24 => decode24 r
  | 0x25 => decode25 r
  | 0x26 => decode26 r
  | 0x27 => decode27 r
  | 0x28 => decode28 r
  | 0x29 => decode29 r
  | 0x30 => decode30 r
  | 0x31 => decode31 r
  | 0x32 => decode32 r
  | 0x33 => decode33 r
  | 0x34 => decode34 r
  | 0x35 => decode35 r
  | 0x36 => decode36 r
  | 0x38 => decode38 r
  | 0x39 => decode39 r
  | 0x3A => decode3A r
  | 0x3B => decode3B r
  | 0x3C => decode3C r
  | 0x3D => decode3D r
  | 0x3E => decode3E r
  | 0x40 => decode40 r
  | 0x41 => decode41 r
  | 0x42 => decode42 r
  | 0x43 => decode43 r
  | 0x44 => decode44 r
  | 0x45 => decode45 r
  | 0x46 => decode46 r
  | 0x47 => decode47 r
  | 0x48 => decode48 r
  | 0x49 => decode49 r
  | 0x4A => decode4A r
  | 0x4B => decode4B r
  | 0x4C => decode4C r
  | 0x4D => decode4D r
  | 0x4E => decode4E r
  | 0x4F => decode4F r
  | 0x50 => decode50 r
  | 0x51 => decode51 r
  | 0x52 => decode52 r
  | 0x58 => decode58 r
  | 0x59 => decode59 r
  | 0x5A => decode5A r
  | 0x5B => decode5B r
  | 0x5C => decode5C r
  | 0x5D => decode5D r
  | 0x60 => decode60 r
  | 0x61 => decode61 r
  | 0x62 => decode62 r
  | 0x63 => decode63 r
  | 0x64 => decode64 r
  | 0x65 => decode65 r
  | 0x66 => decode66 r
  | 0x67 => decode67 r
  | 0x70 => decode70 r
  | 0x71 => decode71 r
  | 0x72 => decode72 r
  | 0x78 => decode78 r
  | 0x79 => decode79 r
  | 0x7A => decode7A r
  | 0x7B => decode7B r
  | _ => none

/-- The instruction of a group of fields; the operands an instruction may not name are refused here (R36). -/
noncomputable def decodeRaw (r : Raw) : Option Instr := (decodeFields r).filter Instr.wf

/-- Why bytes are no instruction. -/
inductive DecodeError
  /-- fewer bytes than the length names (R29) -/
  | short
  /-- a bit pattern that is no instruction (R36), with its base word -/
  | illegal (base : BitVec 32)
deriving DecidableEq, Repr

/-- A little-endian number (R25). -/
def leNat : List Byte → Nat
  | [] => 0
  | b :: t => b.toNat + 256 * leNat t

/-- `n` little-endian bytes of a number (R25). -/
def leBytes : Nat → Nat → List Byte
  | 0, _ => []
  | n + 1, x => BitVec.ofNat 8 x :: leBytes n (x / 256)

/-- The fields of an instruction's bytes, and its length (R28). -/
def parseRaw (bs : List Byte) : Except DecodeError (Raw × Nat) :=
  if bs.length < 4 then .error .short else
  let r := Raw.ofBase (leNat (bs.take 4))
  let n := lenBytes r.len
  if bs.length < n then .error .short else
  let rest := bs.drop 4
  let r1 := if Raw.hasExt r.len then { r with ext := BitVec.ofNat 64 (leNat (rest.take 8)) } else r
  let rest1 := if Raw.hasExt r.len then rest.drop 8 else rest
  let r2 := if Raw.hasLit r.len then { r1 with lit := BitVec.ofNat 64 (leNat (rest1.take 8)) } else r1
  .ok (r2, n)

/-- Decode the bytes at an instruction's address: the instruction and its length in bytes, or why there is none. -/
noncomputable def decode (bs : List Byte) : Except DecodeError (Instr × Nat) :=
  match parseRaw bs with
  | .error e => .error e
  | .ok (r, n) =>
    match decodeRaw r with
    | some i => .ok (i, n)
    | none => .error (.illegal (BitVec.ofNat 32 r.base))

/-- The words of an instruction, field by field, from the encoding tables of the spec; a step of the part has no words
and gives the all-zero word, which is no instruction (R36). -/
def encodeRaw (i : Instr) : Raw :=
  match i with
  | .add d a b => { len := 0, major := 1, d := d, a := a, b := b }
  | .addLit d a x => { len := 1, major := 1, d := d, a := a, lit := x }
  | .sub d a b => { len := 0, major := 1, d := d, a := a, b := b, fn := 1 }
  | .subLit d a x => { len := 1, major := 1, d := d, a := a, fn := 1, lit := x }
  | .and d a b => { len := 0, major := 1, d := d, a := a, b := b, fn := 2 }
  | .andLit d a x => { len := 1, major := 1, d := d, a := a, fn := 2, lit := x }
  | .or d a b => { len := 0, major := 1, d := d, a := a, b := b, fn := 3 }
  | .orLit d a x => { len := 1, major := 1, d := d, a := a, fn := 3, lit := x }
  | .xor d a b => { len := 0, major := 1, d := d, a := a, b := b, fn := 4 }
  | .xorLit d a x => { len := 1, major := 1, d := d, a := a, fn := 4, lit := x }
  | .andn d a b => { len := 0, major := 1, d := d, a := a, b := b, fn := 5 }
  | .andnLit d a x => { len := 1, major := 1, d := d, a := a, fn := 5, lit := x }
  | .sll d a b => { len := 0, major := 1, d := d, a := a, b := b, fn := 8 }
  | .sllLit d a x => { len := 1, major := 1, d := d, a := a, fn := 8, lit := x }
  | .srl d a b => { len := 0, major := 1, d := d, a := a, b := b, fn := 9 }
  | .srlLit d a x => { len := 1, major := 1, d := d, a := a, fn := 9, lit := x }
  | .sra d a b => { len := 0, major := 1, d := d, a := a, b := b, fn := 10 }
  | .sraLit d a x => { len := 1, major := 1, d := d, a := a, fn := 10, lit := x }
  | .ror d a b => { len := 0, major := 1, d := d, a := a, b := b, fn := 11 }
  | .rorLit d a x => { len := 1, major := 1, d := d, a := a, fn := 11, lit := x }
  | .slt d a b => { len := 0, major := 1, d := d, a := a, b := b, fn := 16 }
  | .sltLit d a x => { len := 1, major := 1, d := d, a := a, fn := 16, lit := x }
  | .sltu d a b => { len := 0, major := 1, d := d, a := a, b := b, fn := 17 }
  | .sltuLit d a x => { len := 1, major := 1, d := d, a := a, fn := 17, lit := x }
  | .seq d a b => { len := 0, major := 1, d := d, a := a, b := b, fn := 18 }
  | .seqLit d a x => { len := 1, major := 1, d := d, a := a, fn := 18, lit := x }
  | .min d a b => { len := 0, major := 1, d := d, a := a, b := b, fn := 20 }
  | .minLit d a x => { len := 1, major := 1, d := d, a := a, fn := 20, lit := x }
  | .max d a b => { len := 0, major := 1, d := d, a := a, b := b, fn := 21 }
  | .maxLit d a x => { len := 1, major := 1, d := d, a := a, fn := 21, lit := x }
  | .minu d a b => { len := 0, major := 1, d := d, a := a, b := b, fn := 22 }
  | .minuLit d a x => { len := 1, major := 1, d := d, a := a, fn := 22, lit := x }
  | .maxu d a b => { len := 0, major := 1, d := d, a := a, b := b, fn := 23 }
  | .maxuLit d a x => { len := 1, major := 1, d := d, a := a, fn := 23, lit := x }
  | .mul d a b => { len := 0, major := 2, d := d, a := a, b := b }
  | .mulLit d a x => { len := 1, major := 2, d := d, a := a, lit := x }
  | .mulh d a b => { len := 0, major := 2, d := d, a := a, b := b, fn := 1 }
  | .mulhLit d a x => { len := 1, major := 2, d := d, a := a, fn := 1, lit := x }
  | .mulhu d a b => { len := 0, major := 2, d := d, a := a, b := b, fn := 2 }
  | .mulhuLit d a x => { len := 1, major := 2, d := d, a := a, fn := 2, lit := x }
  | .div d a b => { len := 0, major := 2, d := d, a := a, b := b, fn := 4 }
  | .divLit d a x => { len := 1, major := 2, d := d, a := a, fn := 4, lit := x }
  | .divu d a b => { len := 0, major := 2, d := d, a := a, b := b, fn := 5 }
  | .divuLit d a x => { len := 1, major := 2, d := d, a := a, fn := 5, lit := x }
  | .rem d a b => { len := 0, major := 2, d := d, a := a, b := b, fn := 6 }
  | .remLit d a x => { len := 1, major := 2, d := d, a := a, fn := 6, lit := x }
  | .remu d a b => { len := 0, major := 2, d := d, a := a, b := b, fn := 7 }
  | .remuLit d a x => { len := 1, major := 2, d := d, a := a, fn := 7, lit := x }
  | .addi d a imm => { len := 0, major := 3, d := d, a := a, b := Fin.ofNat 32 (imm.toNat % 32), fn := Fin.ofNat 256 (imm.toNat / 32) }
  | .andi d a imm => { len := 0, major := 4, d := d, a := a, b := Fin.ofNat 32 (imm.toNat % 32), fn := Fin.ofNat 256 (imm.toNat / 32) }
  | .slli d a n => { len := 0, major := 5, d := d, a := a, fn := Fin.ofNat 256 (0 * 64 + n.val) }
  | .srli d a n => { len := 0, major := 5, d := d, a := a, fn := Fin.ofNat 256 (1 * 64 + n.val) }
  | .srai d a n => { len := 0, major := 5, d := d, a := a, fn := Fin.ofNat 256 (2 * 64 + n.val) }
  | .rori d a n => { len := 0, major := 5, d := d, a := a, fn := Fin.ofNat 256 (3 * 64 + n.val) }
  | .clz d a => { len := 0, major := 6, d := d, a := a }
  | .ctz d a => { len := 0, major := 6, d := d, a := a, fn := 1 }
  | .popc d a => { len := 0, major := 6, d := d, a := a, fn := 2 }
  | .brev d a => { len := 0, major := 6, d := d, a := a, fn := 3 }
  | .bswap d a => { len := 0, major := 6, d := d, a := a, fn := 4 }
  | .bset d a b => { len := 0, major := 6, d := d, a := a, b := b, fn := 8 }
  | .bsetLit d a x => { len := 1, major := 6, d := d, a := a, fn := 8, lit := x }
  | .bclr d a b => { len := 0, major := 6, d := d, a := a, b := b, fn := 9 }
  | .bclrLit d a x => { len := 1, major := 6, d := d, a := a, fn := 9, lit := x }
  | .binv d a b => { len := 0, major := 6, d := d, a := a, b := b, fn := 10 }
  | .binvLit d a x => { len := 1, major := 6, d := d, a := a, fn := 10, lit := x }
  | .bext d a b => { len := 0, major := 6, d := d, a := a, b := b, fn := 11 }
  | .bextLit d a x => { len := 1, major := 6, d := d, a := a, fn := 11, lit := x }
  | .lowb d a => { len := 0, major := 6, d := d, a := a, fn := 12 }
  | .clrlow d a => { len := 0, major := 6, d := d, a := a, fn := 13 }
  | .maskn d a => { len := 0, major := 6, d := d, a := a, fn := 14 }
  | .extu d a pos len1 => { len := 0, major := 7, d := d, a := a, b := Fin.ofNat 32 (pos.val % 32), fn := Fin.ofNat 256 (0 * 128 + len1.val * 2 + pos.val / 32) }
  | .exts d a pos len1 => { len := 0, major := 7, d := d, a := a, b := Fin.ofNat 32 (pos.val % 32), fn := Fin.ofNat 256 (1 * 128 + len1.val * 2 + pos.val / 32) }
  | .fins d a pos len1 => { len := 0, major := 8, d := d, a := a, b := Fin.ofNat 32 (pos.val % 32), fn := Fin.ofNat 256 (0 * 128 + len1.val * 2 + pos.val / 32) }
  | .hdrGet d a pos len1 => { len := 2, major := 9, d := d, a := a, ext := BitVec.ofNat 64 (pos.val + len1.val * 2 ^ 9) }
  | .hdrGets d a pos len1 => { len := 2, major := 9, d := d, a := a, fn := 1, ext := BitVec.ofNat 64 (pos.val + len1.val * 2 ^ 9) }
  | .hdrSet a b pos len1 => { len := 2, major := 9, a := a, b := b, fn := 2, ext := BitVec.ofNat 64 (pos.val + len1.val * 2 ^ 9) }
  | .hdrMatch d a b pos len1 => { len := 2, major := 9, d := d, a := a, b := b, fn := 3, ext := BitVec.ofNat 64 (pos.val + len1.val * 2 ^ 9) }
  | .hdrClr a => { len := 0, major := 9, a := a, fn := 4 }
  | .li d imm => { len := 0, major := 10, d := d, a := Fin.ofNat 32 (imm.toNat % 32), b := Fin.ofNat 32 (imm.toNat / 32 % 32), fn := Fin.ofNat 256 (imm.toNat / 1024) }
  | .liLit d x => { len := 1, major := 10, d := d, lit := x }
  | .la d imm => { len := 0, major := 11, d := d, a := Fin.ofNat 32 (imm.toNat % 32), b := Fin.ofNat 32 (imm.toNat / 32 % 32), fn := Fin.ofNat 256 (imm.toNat / 1024) }
  | .laLit d x => { len := 1, major := 11, d := d, lit := x }
  | .selnz d a b c => { len := 0, major := 12, d := d, a := a, b := b, fn := Fin.ofNat 256 (0 * 32 + c.val) }
  | .selz d a b c => { len := 0, major := 12, d := d, a := a, b := b, fn := Fin.ofNat 256 (1 * 32 + c.val) }
  | .madd d a b c => { len := 0, major := 12, d := d, a := a, b := b, fn := Fin.ofNat 256 (2 * 32 + c.val) }
  | .msub d a b c => { len := 0, major := 12, d := d, a := a, b := b, fn := Fin.ofNat 256 (3 * 32 + c.val) }
  | .fadd t d a b => { len := 0, major := 16, d := d, a := a, b := b, fn := Fin.ofNat 256 (0 * 4 + t.code) }
  | .faddLit t d a x => { len := 1, major := 16, d := d, a := a, fn := Fin.ofNat 256 (0 * 4 + t.code), lit := x }
  | .fsub t d a b => { len := 0, major := 16, d := d, a := a, b := b, fn := Fin.ofNat 256 (1 * 4 + t.code) }
  | .fsubLit t d a x => { len := 1, major := 16, d := d, a := a, fn := Fin.ofNat 256 (1 * 4 + t.code), lit := x }
  | .fmul t d a b => { len := 0, major := 16, d := d, a := a, b := b, fn := Fin.ofNat 256 (2 * 4 + t.code) }
  | .fmulLit t d a x => { len := 1, major := 16, d := d, a := a, fn := Fin.ofNat 256 (2 * 4 + t.code), lit := x }
  | .fdiv t d a b => { len := 0, major := 16, d := d, a := a, b := b, fn := Fin.ofNat 256 (3 * 4 + t.code) }
  | .fdivLit t d a x => { len := 1, major := 16, d := d, a := a, fn := Fin.ofNat 256 (3 * 4 + t.code), lit := x }
  | .fmin t d a b => { len := 0, major := 16, d := d, a := a, b := b, fn := Fin.ofNat 256 (4 * 4 + t.code) }
  | .fminLit t d a x => { len := 1, major := 16, d := d, a := a, fn := Fin.ofNat 256 (4 * 4 + t.code), lit := x }
  | .fmax t d a b => { len := 0, major := 16, d := d, a := a, b := b, fn := Fin.ofNat 256 (5 * 4 + t.code) }
  | .fmaxLit t d a x => { len := 1, major := 16, d := d, a := a, fn := Fin.ofNat 256 (5 * 4 + t.code), lit := x }
  | .fsqrt t d a => { len := 0, major := 16, d := d, a := a, fn := Fin.ofNat 256 (6 * 4 + t.code) }
  | .fneg t d a => { len := 0, major := 16, d := d, a := a, fn := Fin.ofNat 256 (7 * 4 + t.code) }
  | .fabs t d a => { len := 0, major := 16, d := d, a := a, fn := Fin.ofNat 256 (8 * 4 + t.code) }
  | .fma t d a b c => { len := 0, major := 17, d := d, a := a, b := b, fn := Fin.ofNat 256 (0 * 128 + t.code * 32 + c.val) }
  | .fnma t d a b c => { len := 0, major := 17, d := d, a := a, b := b, fn := Fin.ofNat 256 (1 * 128 + t.code * 32 + c.val) }
  | .feq t d a b => { len := 0, major := 18, d := d, a := a, b := b, fn := Fin.ofNat 256 (0 * 4 + t.code) }
  | .flt t d a b => { len := 0, major := 18, d := d, a := a, b := b, fn := Fin.ofNat 256 (1 * 4 + t.code) }
  | .fle t d a b => { len := 0, major := 18, d := d, a := a, b := b, fn := Fin.ofNat 256 (2 * 4 + t.code) }
  | .fclass t d a => { len := 0, major := 18, d := d, a := a, fn := Fin.ofNat 256 (3 * 4 + t.code) }
  | .fcvt tgt src d a => { len := 0, major := 19, d := d, a := a, fn := Fin.ofNat 256 (tgt.code * 16 + src.code) }
  | .bz a off => { len := 0, major := 24, d := a, a := Fin.ofNat 32 (off.toNat % 32), b := Fin.ofNat 32 (off.toNat / 32 % 32), fn := Fin.ofNat 256 (off.toNat / 1024) }
  | .bzLit a x => { len := 1, major := 24, d := a, lit := x }
  | .bnz a off => { len := 0, major := 25, d := a, a := Fin.ofNat 32 (off.toNat % 32), b := Fin.ofNat 32 (off.toNat / 32 % 32), fn := Fin.ofNat 256 (off.toNat / 1024) }
  | .bnzLit a x => { len := 1, major := 25, d := a, lit := x }
  | .jal a off => { len := 0, major := 26, d := a, a := Fin.ofNat 32 (off.toNat % 32), b := Fin.ofNat 32 (off.toNat / 32 % 32), fn := Fin.ofNat 256 (off.toNat / 1024) }
  | .jalLit a x => { len := 1, major := 26, d := a, lit := x }
  | .beq a b off => { len := 2, major := 27, a := a, b := b, ext := BitVec.ofNat 64 (off.toNat) }
  | .bne a b off => { len := 2, major := 27, a := a, b := b, fn := 1, ext := BitVec.ofNat 64 (off.toNat) }
  | .blt a b off => { len := 2, major := 27, a := a, b := b, fn := 2, ext := BitVec.ofNat 64 (off.toNat) }
  | .bge a b off => { len := 2, major := 27, a := a, b := b, fn := 3, ext := BitVec.ofNat 64 (off.toNat) }
  | .bltu a b off => { len := 2, major := 27, a := a, b := b, fn := 4, ext := BitVec.ofNat 64 (off.toNat) }
  | .bgeu a b off => { len := 2, major := 27, a := a, b := b, fn := 5, ext := BitVec.ofNat 64 (off.toNat) }
  | .jalr d a => { len := 0, major := 27, d := d, a := a, fn := 8 }
  | .jalrDisp d a disp => { len := 2, major := 27, d := d, a := a, fn := 8, ext := BitVec.ofNat 64 (disp.toNat) }
  | .bany a b off => { len := 2, major := 28, a := a, b := b, ext := BitVec.ofNat 64 (off.toNat) }
  | .bnone a b off => { len := 2, major := 28, a := a, b := b, fn := 1, ext := BitVec.ofNat 64 (off.toNat) }
  | .ball a b off => { len := 2, major := 28, a := a, b := b, fn := 2, ext := BitVec.ofNat 64 (off.toNat) }
  | .bnall a b off => { len := 2, major := 28, a := a, b := b, fn := 3, ext := BitVec.ofNat 64 (off.toNat) }
  | .crrw d a cr => { len := 2, major := 60, d := d, a := a, ext := BitVec.ofNat 64 (cr.toNat) }
  | .crrs d a cr => { len := 2, major := 60, d := d, a := a, fn := 1, ext := BitVec.ofNat 64 (cr.toNat) }
  | .crrc d a cr => { len := 2, major := 60, d := d, a := a, fn := 2, ext := BitVec.ofNat 64 (cr.toNat) }
  | .crrwi d imm cr => { len := 2, major := 60, d := d, a := imm, fn := 4, ext := BitVec.ofNat 64 (cr.toNat) }
  | .crrsi d imm cr => { len := 2, major := 60, d := d, a := imm, fn := 5, ext := BitVec.ofNat 64 (cr.toNat) }
  | .crrci d imm cr => { len := 2, major := 60, d := d, a := imm, fn := 6, ext := BitVec.ofNat 64 (cr.toNat) }
  | .syscall code => { len := 0, major := 61, d := Fin.ofNat 32 (code.toNat % 32), a := Fin.ofNat 32 (code.toNat / 32 % 32), b := Fin.ofNat 32 (code.toNat / 1024) }
  | .break code => { len := 0, major := 61, d := Fin.ofNat 32 (code.toNat % 32), a := Fin.ofNat 32 (code.toNat / 32 % 32), b := Fin.ofNat 32 (code.toNat / 1024), fn := 1 }
  | .tret => { len := 0, major := 61, fn := 2 }
  | .halt => { len := 0, major := 61, fn := 3 }
  | .iwait => { len := 0, major := 61, fn := 4 }
  | .tlbiVa a b => { len := 0, major := 62, a := a, b := b }
  | .tlbiCtx b => { len := 0, major := 62, b := b, fn := 1 }
  | .tlbiAll => { len := 0, major := 62, fn := 2 }
  | .tlbsync => { len := 0, major := 62, fn := 3 }
  | .ptProbe d a => { len := 0, major := 62, d := d, a := a, fn := 4 }
  | .faultRd d a => { len := 0, major := 62, d := d, a := a, fn := 5 }
  | .partDone a => { len := 0, major := 62, a := a, fn := 8 }
  | .ld sz d base q => { len := 0, major := 32, d := d, a := base, b := Fin.ofNat 32 (q.ord.code + q.scope.code * 4), fn := Fin.ofNat 256 (0 * 32 + sz.code * 8 + q.ev.val) }
  | .ldExt sz d base q x => { len := 2, major := 32, d := d, a := base, b := Fin.ofNat 32 (q.ord.code + q.scope.code * 4), fn := Fin.ofNat 256 (0 * 32 + sz.code * 8 + q.ev.val), ext := BitVec.ofNat 64 (x.toExt) }
  | .lds sz d base q => { len := 0, major := 32, d := d, a := base, b := Fin.ofNat 32 (q.ord.code + q.scope.code * 4), fn := Fin.ofNat 256 (1 * 32 + sz.code * 8 + q.ev.val) }
  | .ldsExt sz d base q x => { len := 2, major := 32, d := d, a := base, b := Fin.ofNat 32 (q.ord.code + q.scope.code * 4), fn := Fin.ofNat 256 (1 * 32 + sz.code * 8 + q.ev.val), ext := BitVec.ofNat 64 (x.toExt) }
  | .st sz a base q => { len := 0, major := 33, d := a, a := base, b := Fin.ofNat 32 (q.ord.code + q.scope.code * 4), fn := Fin.ofNat 256 (0 * 32 + sz.code * 8 + q.ev.val) }
  | .stExt sz a base q x => { len := 2, major := 33, d := a, a := base, b := Fin.ofNat 32 (q.ord.code + q.scope.code * 4), fn := Fin.ofNat 256 (0 * 32 + sz.code * 8 + q.ev.val), ext := BitVec.ofNat 64 (x.toExt) }
  | .atomSwap sz d base q => { len := 0, major := 34, d := d, a := base, b := Fin.ofNat 32 (q.ord.code + q.scope.code * 4), fn := Fin.ofNat 256 (0 * 32 + sz.code * 8 + q.ev.val) }
  | .atomSwapExt sz d base q x => { len := 2, major := 34, d := d, a := base, b := Fin.ofNat 32 (q.ord.code + q.scope.code * 4), fn := Fin.ofNat 256 (0 * 32 + sz.code * 8 + q.ev.val), ext := BitVec.ofNat 64 (x.toExt) }
  | .atomAdd sz d base q => { len := 0, major := 34, d := d, a := base, b := Fin.ofNat 32 (q.ord.code + q.scope.code * 4), fn := Fin.ofNat 256 (1 * 32 + sz.code * 8 + q.ev.val) }
  | .atomAddExt sz d base q x => { len := 2, major := 34, d := d, a := base, b := Fin.ofNat 32 (q.ord.code + q.scope.code * 4), fn := Fin.ofNat 256 (1 * 32 + sz.code * 8 + q.ev.val), ext := BitVec.ofNat 64 (x.toExt) }
  | .atomAnd sz d base q => { len := 0, major := 34, d := d, a := base, b := Fin.ofNat 32 (q.ord.code + q.scope.code * 4), fn := Fin.ofNat 256 (2 * 32 + sz.code * 8 + q.ev.val) }
  | .atomAndExt sz d base q x => { len := 2, major := 34, d := d, a := base, b := Fin.ofNat 32 (q.ord.code + q.scope.code * 4), fn := Fin.ofNat 256 (2 * 32 + sz.code * 8 + q.ev.val), ext := BitVec.ofNat 64 (x.toExt) }
  | .atomOr sz d base q => { len := 0, major := 34, d := d, a := base, b := Fin.ofNat 32 (q.ord.code + q.scope.code * 4), fn := Fin.ofNat 256 (3 * 32 + sz.code * 8 + q.ev.val) }
  | .atomOrExt sz d base q x => { len := 2, major := 34, d := d, a := base, b := Fin.ofNat 32 (q.ord.code + q.scope.code * 4), fn := Fin.ofNat 256 (3 * 32 + sz.code * 8 + q.ev.val), ext := BitVec.ofNat 64 (x.toExt) }
  | .atomXor sz d base q => { len := 0, major := 34, d := d, a := base, b := Fin.ofNat 32 (q.ord.code + q.scope.code * 4), fn := Fin.ofNat 256 (4 * 32 + sz.code * 8 + q.ev.val) }
  | .atomXorExt sz d base q x => { len := 2, major := 34, d := d, a := base, b := Fin.ofNat 32 (q.ord.code + q.scope.code * 4), fn := Fin.ofNat 256 (4 * 32 + sz.code * 8 + q.ev.val), ext := BitVec.ofNat 64 (x.toExt) }
  | .atomMin sz d base q => { len := 0, major := 34, d := d, a := base, b := Fin.ofNat 32 (q.ord.code + q.scope.code * 4), fn := Fin.ofNat 256 (5 * 32 + sz.code * 8 + q.ev.val) }
  | .atomMinExt sz d base q x => { len := 2, major := 34, d := d, a := base, b := Fin.ofNat 32 (q.ord.code + q.scope.code * 4), fn := Fin.ofNat 256 (5 * 32 + sz.code * 8 + q.ev.val), ext := BitVec.ofNat 64 (x.toExt) }
  | .atomMax sz d base q => { len := 0, major := 34, d := d, a := base, b := Fin.ofNat 32 (q.ord.code + q.scope.code * 4), fn := Fin.ofNat 256 (6 * 32 + sz.code * 8 + q.ev.val) }
  | .atomMaxExt sz d base q x => { len := 2, major := 34, d := d, a := base, b := Fin.ofNat 32 (q.ord.code + q.scope.code * 4), fn := Fin.ofNat 256 (6 * 32 + sz.code * 8 + q.ev.val), ext := BitVec.ofNat 64 (x.toExt) }
  | .atomFadd d base q => { len := 0, major := 34, d := d, a := base, b := Fin.ofNat 32 (q.ord.code + q.scope.code * 4), fn := Fin.ofNat 256 (7 * 32 + 2 * 8 + q.ev.val) }
  | .atomFaddExt d base q x => { len := 2, major := 34, d := d, a := base, b := Fin.ofNat 32 (q.ord.code + q.scope.code * 4), fn := Fin.ofNat 256 (7 * 32 + 2 * 8 + q.ev.val), ext := BitVec.ofNat 64 (x.toExt) }
  | .cas sz d base q => { len := 0, major := 35, d := d, a := base, b := Fin.ofNat 32 (q.ord.code + q.scope.code * 4), fn := Fin.ofNat 256 (0 * 32 + sz.code * 8 + q.ev.val) }
  | .casExt sz d base q x => { len := 2, major := 35, d := d, a := base, b := Fin.ofNat 32 (q.ord.code + q.scope.code * 4), fn := Fin.ofNat 256 (0 * 32 + sz.code * 8 + q.ev.val), ext := BitVec.ofNat 64 (x.toExt) }
  | .stnibLo a base q => { len := 0, major := 41, d := a, a := base, b := Fin.ofNat 32 (q.ord.code + q.scope.code * 4), fn := Fin.ofNat 256 (0 * 32 + q.ev.val) }
  | .stnibLoExt a base q x => { len := 2, major := 41, d := a, a := base, b := Fin.ofNat 32 (q.ord.code + q.scope.code * 4), fn := Fin.ofNat 256 (0 * 32 + q.ev.val), ext := BitVec.ofNat 64 (x.toExt) }
  | .stnibHi a base q => { len := 0, major := 41, d := a, a := base, b := Fin.ofNat 32 (q.ord.code + q.scope.code * 4), fn := Fin.ofNat 256 (1 * 32 + q.ev.val) }
  | .stnibHiExt a base q x => { len := 2, major := 41, d := a, a := base, b := Fin.ofNat 32 (q.ord.code + q.scope.code * 4), fn := Fin.ofNat 256 (1 * 32 + q.ev.val), ext := BitVec.ofNat 64 (x.toExt) }
  | .pref n base ev => { len := 0, major := 37, d := n, a := base, b := Fin.ofNat 32 (0), fn := Fin.ofNat 256 (ev.val) }
  | .prefExt n base ev x => { len := 2, major := 37, d := n, a := base, b := Fin.ofNat 32 (0), fn := Fin.ofNat 256 (ev.val), ext := BitVec.ofNat 64 (x.toExt) }
  | .cclean n base sc => { len := 0, major := 37, d := n, a := base, b := Fin.ofNat 32 (sc.code * 4), fn := Fin.ofNat 256 (1 * 32) }
  | .ccleanExt n base sc x => { len := 2, major := 37, d := n, a := base, b := Fin.ofNat 32 (sc.code * 4), fn := Fin.ofNat 256 (1 * 32), ext := BitVec.ofNat 64 (x.toExt) }
  | .cflush n base sc => { len := 0, major := 37, d := n, a := base, b := Fin.ofNat 32 (sc.code * 4), fn := Fin.ofNat 256 (2 * 32) }
  | .cflushExt n base sc x => { len := 2, major := 37, d := n, a := base, b := Fin.ofNat 32 (sc.code * 4), fn := Fin.ofNat 256 (2 * 32), ext := BitVec.ofNat 64 (x.toExt) }
  | .codeflush n base sc => { len := 0, major := 37, d := n, a := base, b := Fin.ofNat 32 (sc.code * 4), fn := Fin.ofNat 256 (3 * 32) }
  | .codeflushExt n base sc x => { len := 2, major := 37, d := n, a := base, b := Fin.ofNat 32 (sc.code * 4), fn := Fin.ofNat 256 (3 * 32), ext := BitVec.ofNat 64 (x.toExt) }
  | .ifence => { len := 0, major := 37, fn := Fin.ofNat 256 (4 * 32) }
  | .stashMap c base => { len := 0, major := 37, d := c, a := base, b := Fin.ofNat 32 (0), fn := Fin.ofNat 256 (5 * 32) }
  | .stashMapExt c base x => { len := 2, major := 37, d := c, a := base, b := Fin.ofNat 32 (0), fn := Fin.ofNat 256 (5 * 32), ext := BitVec.ofNat 64 (x.toExt) }
  | .stashUnmap base => { len := 0, major := 37, a := base, b := Fin.ofNat 32 (0), fn := Fin.ofNat 256 (6 * 32) }
  | .stashUnmapExt base x => { len := 2, major := 37, a := base, b := Fin.ofNat 32 (0), fn := Fin.ofNat 256 (6 * 32), ext := BitVec.ofNat 64 (x.toExt) }
  | .spaceTest d a => { len := 0, major := 38, d := d, a := a }
  | .spaceCastGen sp d a => { len := 0, major := 38, d := d, a := a, fn := Fin.ofNat 256 (1 * 32 + sp.code * 8) }
  | .spaceCastOff sp d a => { len := 0, major := 38, d := d, a := a, fn := Fin.ofNat 256 (2 * 32 + sp.code * 8) }
  | .fence o sc => { len := 0, major := 36, fn := Fin.ofNat 256 (sc.code * 4 + o.code) }
  | .append sz d base rel sc => { len := 0, major := 39, d := d, a := base, b := Fin.ofNat 32 ((if rel then 2 else 0) + sc.code * 4), fn := Fin.ofNat 256 (sz.code * 8) }
  | .appendExt sz d base rel sc x => { len := 2, major := 39, d := d, a := base, b := Fin.ofNat 32 ((if rel then 2 else 0) + sc.code * 4), fn := Fin.ofNat 256 (sz.code * 8), ext := BitVec.ofNat 64 (x.toExt) }
  | .appendV d base rel sc => { len := 0, major := 39, d := d, a := base, b := Fin.ofNat 32 ((if rel then 2 else 0) + sc.code * 4), fn := 32 }
  | .appendVExt d base rel sc x => { len := 2, major := 39, d := d, a := base, b := Fin.ofNat 32 ((if rel then 2 else 0) + sc.code * 4), fn := 32, ext := BitVec.ofNat 64 (x.toExt) }
  | .tailrd d base sc => { len := 0, major := 40, d := d, a := base, b := Fin.ofNat 32 (sc.code * 4), fn := Fin.ofNat 256 (0 * 32) }
  | .tailrdExt d base sc x => { len := 2, major := 40, d := d, a := base, b := Fin.ofNat 32 (sc.code * 4), fn := Fin.ofNat 256 (0 * 32), ext := BitVec.ofNat 64 (x.toExt) }
  | .seal d base sc => { len := 0, major := 40, d := d, a := base, b := Fin.ofNat 32 (sc.code * 4), fn := Fin.ofNat 256 (1 * 32) }
  | .sealExt d base sc x => { len := 2, major := 40, d := d, a := base, b := Fin.ofNat 32 (sc.code * 4), fn := Fin.ofNat 256 (1 * 32), ext := BitVec.ofNat 64 (x.toExt) }
  | .freeSeal base => { len := 0, major := 40, a := base, b := Fin.ofNat 32 (0), fn := Fin.ofNat 256 (2 * 32) }
  | .freeSealExt base x => { len := 2, major := 40, a := base, b := Fin.ofNat 32 (0), fn := Fin.ofNat 256 (2 * 32), ext := BitVec.ofNat 64 (x.toExt) }
  | .fork d a b c => { len := 0, major := 48, d := d, a := a, b := b, fn := Fin.ofNat 256 (0 * 32 + c.val) }
  | .forkInc d a b c => { len := 0, major := 48, d := d, a := a, b := b, fn := Fin.ofNat 256 (1 * 32 + c.val) }
  | .forkm a => { len := 0, major := 48, a := a, fn := Fin.ofNat 256 (2 * 32) }
  | .forkmInc a => { len := 0, major := 48, a := a, fn := Fin.ofNat 256 (3 * 32) }
  | .rfork a => { len := 0, major := 49, a := a }
  | .done => { len := 0, major := 50 }
  | .join sc a => { len := 0, major := 50, a := a, fn := Fin.ofNat 256 (8 + sc.code) }
  | .yield a => { len := 0, major := 51, a := a }
  | .pause a => { len := 0, major := 51, a := a, fn := 1 }
  | .barSet n a => { len := 0, major := 52, a := a, fn := Fin.ofNat 256 (n.val) }
  | .barArrive n => { len := 0, major := 52, fn := Fin.ofNat 256 (1 * 8 + n.val) }
  | .barWait n => { len := 0, major := 52, fn := Fin.ofNat 256 (2 * 8 + n.val) }
  | .barSync n => { len := 0, major := 52, fn := Fin.ofNat 256 (3 * 8 + n.val) }
  | .barGet d n => { len := 0, major := 52, d := d, fn := Fin.ofNat 256 (4 * 8 + n.val) }
  | .mbxWait d a => { len := 0, major := 53, d := d, a := a }
  | .mbxPoll d a => { len := 0, major := 53, d := d, a := a, fn := 1 }
  | .selfId d => { len := 0, major := 54, d := d }
  | .selfXy d => { len := 0, major := 54, d := d, fn := 1 }
  | .selfDom d => { len := 0, major := 54, d := d, fn := 2 }
  | .selfIdle d a => { len := 0, major := 54, d := d, a := a, fn := 3 }
  | .vadd ty m d a b => { len := 0, major := 64, d := d, a := a, b := b, fn := Fin.ofNat 256 (ty.code * 32 + m.val) }
  | .vaddX ty m d a b bs un sat => { len := 2, major := 64, d := d, a := a, b := b, fn := Fin.ofNat 256 (ty.code * 32 + m.val), ext := BitVec.ofNat 64 (bit bs * 2 ^ 8 + bit un * 2 ^ 9 + bit sat * 2 ^ 10) }
  | .vsub ty m d a b => { len := 0, major := 65, d := d, a := a, b := b, fn := Fin.ofNat 256 (ty.code * 32 + m.val) }
  | .vsubX ty m d a b bs un sat => { len := 2, major := 65, d := d, a := a, b := b, fn := Fin.ofNat 256 (ty.code * 32 + m.val), ext := BitVec.ofNat 64 (bit bs * 2 ^ 8 + bit un * 2 ^ 9 + bit sat * 2 ^ 10) }
  | .vmul ty m d a b => { len := 0, major := 66, d := d, a := a, b := b, fn := Fin.ofNat 256 (ty.code * 32 + m.val) }
  | .vmulX ty m d a b bs => { len := 2, major := 66, d := d, a := a, b := b, fn := Fin.ofNat 256 (ty.code * 32 + m.val), ext := BitVec.ofNat 64 (bit bs * 2 ^ 8) }
  | .vmulh ty m d a b => { len := 0, major := 67, d := d, a := a, b := b, fn := Fin.ofNat 256 (ty.code * 32 + m.val) }
  | .vmulhX ty m d a b bs un => { len := 2, major := 67, d := d, a := a, b := b, fn := Fin.ofNat 256 (ty.code * 32 + m.val), ext := BitVec.ofNat 64 (bit bs * 2 ^ 8 + bit un * 2 ^ 9) }
  | .vmin ty m d a b => { len := 0, major := 68, d := d, a := a, b := b, fn := Fin.ofNat 256 (ty.code * 32 + m.val) }
  | .vminX ty m d a b bs un => { len := 2, major := 68, d := d, a := a, b := b, fn := Fin.ofNat 256 (ty.code * 32 + m.val), ext := BitVec.ofNat 64 (bit bs * 2 ^ 8 + bit un * 2 ^ 9) }
  | .vmax ty m d a b => { len := 0, major := 69, d := d, a := a, b := b, fn := Fin.ofNat 256 (ty.code * 32 + m.val) }
  | .vmaxX ty m d a b bs un => { len := 2, major := 69, d := d, a := a, b := b, fn := Fin.ofNat 256 (ty.code * 32 + m.val), ext := BitVec.ofNat 64 (bit bs * 2 ^ 8 + bit un * 2 ^ 9) }
  | .vand ty m d a b => { len := 0, major := 70, d := d, a := a, b := b, fn := Fin.ofNat 256 (ty.code * 32 + m.val) }
  | .vandX ty m d a b bs => { len := 2, major := 70, d := d, a := a, b := b, fn := Fin.ofNat 256 (ty.code * 32 + m.val), ext := BitVec.ofNat 64 (bit bs * 2 ^ 8) }
  | .vor ty m d a b bs => { len := 2, major := 70, d := d, a := a, b := b, fn := Fin.ofNat 256 (ty.code * 32 + m.val), ext := BitVec.ofNat 64 (1 + bit bs * 2 ^ 8) }
  | .vxor ty m d a b bs => { len := 2, major := 70, d := d, a := a, b := b, fn := Fin.ofNat 256 (ty.code * 32 + m.val), ext := BitVec.ofNat 64 (2 + bit bs * 2 ^ 8) }
  | .vandn ty m d a b bs => { len := 2, major := 70, d := d, a := a, b := b, fn := Fin.ofNat 256 (ty.code * 32 + m.val), ext := BitVec.ofNat 64 (3 + bit bs * 2 ^ 8) }
  | .vsll ty m d a b => { len := 0, major := 71, d := d, a := a, b := b, fn := Fin.ofNat 256 (ty.code * 32 + m.val) }
  | .vsllX ty m d a b bs => { len := 2, major := 71, d := d, a := a, b := b, fn := Fin.ofNat 256 (ty.code * 32 + m.val), ext := BitVec.ofNat 64 (bit bs * 2 ^ 8) }
  | .vsrl ty m d a b bs => { len := 2, major := 71, d := d, a := a, b := b, fn := Fin.ofNat 256 (ty.code * 32 + m.val), ext := BitVec.ofNat 64 (1 + bit bs * 2 ^ 8) }
  | .vsra ty m d a b bs => { len := 2, major := 71, d := d, a := a, b := b, fn := Fin.ofNat 256 (ty.code * 32 + m.val), ext := BitVec.ofNat 64 (2 + bit bs * 2 ^ 8) }
  | .vslli ty m d a n => { len := 2, major := 71, d := d, a := a, fn := Fin.ofNat 256 (ty.code * 32 + m.val), ext := BitVec.ofNat 64 (4 + n.toNat * 2 ^ 16) }
  | .vsrli ty m d a n => { len := 2, major := 71, d := d, a := a, fn := Fin.ofNat 256 (ty.code * 32 + m.val), ext := BitVec.ofNat 64 (5 + n.toNat * 2 ^ 16) }
  | .vsrai ty m d a n => { len := 2, major := 71, d := d, a := a, fn := Fin.ofNat 256 (ty.code * 32 + m.val), ext := BitVec.ofNat 64 (6 + n.toNat * 2 ^ 16) }
  | .vfma ty m d a b => { len := 0, major := 72, d := d, a := a, b := b, fn := Fin.ofNat 256 (ty.code * 32 + m.val) }
  | .vfmaX ty m d a b bs vc => { len := 2, major := 72, d := d, a := a, b := b, fn := Fin.ofNat 256 (ty.code * 32 + m.val), ext := BitVec.ofNat 64 (bit bs * 2 ^ 8 + vc.val * 2 ^ 11) }
  | .vfnma ty m d a b bs vc => { len := 2, major := 72, d := d, a := a, b := b, fn := Fin.ofNat 256 (ty.code * 32 + m.val), ext := BitVec.ofNat 64 (1 + bit bs * 2 ^ 8 + vc.val * 2 ^ 11) }
  | .vneg ty m d a => { len := 0, major := 73, d := d, a := a, fn := Fin.ofNat 256 (ty.code * 32 + m.val) }
  | .vnegX ty m d a sat => { len := 2, major := 73, d := d, a := a, fn := Fin.ofNat 256 (ty.code * 32 + m.val), ext := BitVec.ofNat 64 (bit sat * 2 ^ 10) }
  | .vabs ty m d a sat => { len := 2, major := 73, d := d, a := a, fn := Fin.ofNat 256 (ty.code * 32 + m.val), ext := BitVec.ofNat 64 (1 + bit sat * 2 ^ 10) }
  | .vcvt ty m d a => { len := 0, major := 74, d := d, a := a, fn := Fin.ofNat 256 (ty.code * 32 + m.val) }
  | .vcvtX ty m d a un sat src srcUn p => { len := 2, major := 74, d := d, a := a, fn := Fin.ofNat 256 (ty.code * 32 + m.val), ext := BitVec.ofNat 64 (bit un * 2 ^ 9 + bit sat * 2 ^ 10 + p.val * 2 ^ 16 + src.code * 2 ^ 20 + bit srcUn * 2 ^ 23) }
  | .vceq ty m a b => { len := 0, major := 75, a := a, b := b, fn := Fin.ofNat 256 (ty.code * 32 + m.val) }
  | .vceqX ty m a b bs un sx => { len := 2, major := 75, a := a, b := b, fn := Fin.ofNat 256 (ty.code * 32 + m.val), ext := BitVec.ofNat 64 (bit bs * 2 ^ 8 + bit un * 2 ^ 9 + sx.val * 2 ^ 24) }
  | .vcne ty m a b bs un sx => { len := 2, major := 75, a := a, b := b, fn := Fin.ofNat 256 (ty.code * 32 + m.val), ext := BitVec.ofNat 64 (1 + bit bs * 2 ^ 8 + bit un * 2 ^ 9 + sx.val * 2 ^ 24) }
  | .vclt ty m a b bs un sx => { len := 2, major := 75, a := a, b := b, fn := Fin.ofNat 256 (ty.code * 32 + m.val), ext := BitVec.ofNat 64 (2 + bit bs * 2 ^ 8 + bit un * 2 ^ 9 + sx.val * 2 ^ 24) }
  | .vcle ty m a b bs un sx => { len := 2, major := 75, a := a, b := b, fn := Fin.ofNat 256 (ty.code * 32 + m.val), ext := BitVec.ofNat 64 (3 + bit bs * 2 ^ 8 + bit un * 2 ^ 9 + sx.val * 2 ^ 24) }
  | .vcgt ty m a b bs un sx => { len := 2, major := 75, a := a, b := b, fn := Fin.ofNat 256 (ty.code * 32 + m.val), ext := BitVec.ofNat 64 (4 + bit bs * 2 ^ 8 + bit un * 2 ^ 9 + sx.val * 2 ^ 24) }
  | .vcge ty m a b bs un sx => { len := 2, major := 75, a := a, b := b, fn := Fin.ofNat 256 (ty.code * 32 + m.val), ext := BitVec.ofNat 64 (5 + bit bs * 2 ^ 8 + bit un * 2 ^ 9 + sx.val * 2 ^ 24) }
  | .vsel ty m d a b => { len := 0, major := 76, d := d, a := a, b := b, fn := Fin.ofNat 256 (ty.code * 32 + m.val) }
  | .vselX ty m d a b bs => { len := 2, major := 76, d := d, a := a, b := b, fn := Fin.ofNat 256 (ty.code * 32 + m.val), ext := BitVec.ofNat 64 (bit bs * 2 ^ 8) }
  | .vredsum ty m a => { len := 0, major := 77, a := a, fn := Fin.ofNat 256 (ty.code * 32 + m.val) }
  | .vredsumX ty m a un sx => { len := 2, major := 77, a := a, fn := Fin.ofNat 256 (ty.code * 32 + m.val), ext := BitVec.ofNat 64 (bit un * 2 ^ 9 + sx.val * 2 ^ 24) }
  | .vredmin ty m a un sx => { len := 2, major := 77, a := a, fn := Fin.ofNat 256 (ty.code * 32 + m.val), ext := BitVec.ofNat 64 (1 + bit un * 2 ^ 9 + sx.val * 2 ^ 24) }
  | .vredmax ty m a un sx => { len := 2, major := 77, a := a, fn := Fin.ofNat 256 (ty.code * 32 + m.val), ext := BitVec.ofNat 64 (2 + bit un * 2 ^ 9 + sx.val * 2 ^ 24) }
  | .vredand ty m a un sx => { len := 2, major := 77, a := a, fn := Fin.ofNat 256 (ty.code * 32 + m.val), ext := BitVec.ofNat 64 (3 + bit un * 2 ^ 9 + sx.val * 2 ^ 24) }
  | .vredor ty m a un sx => { len := 2, major := 77, a := a, fn := Fin.ofNat 256 (ty.code * 32 + m.val), ext := BitVec.ofNat 64 (4 + bit un * 2 ^ 9 + sx.val * 2 ^ 24) }
  | .vredxor ty m a un sx => { len := 2, major := 77, a := a, fn := Fin.ofNat 256 (ty.code * 32 + m.val), ext := BitVec.ofNat 64 (5 + bit un * 2 ^ 9 + sx.val * 2 ^ 24) }
  | .vdot ty m d a b => { len := 0, major := 78, d := d, a := a, b := b, fn := Fin.ofNat 256 (ty.code * 32 + m.val) }
  | .vdotX ty m d a b un sat => { len := 2, major := 78, d := d, a := a, b := b, fn := Fin.ofNat 256 (ty.code * 32 + m.val), ext := BitVec.ofNat 64 (bit un * 2 ^ 9 + bit sat * 2 ^ 10) }
  | .vperm ty m d a b => { len := 0, major := 79, d := d, a := a, b := b, fn := Fin.ofNat 256 (ty.code * 32 + m.val) }
  | .vpermX ty m d a b bs => { len := 2, major := 79, d := d, a := a, b := b, fn := Fin.ofNat 256 (ty.code * 32 + m.val), ext := BitVec.ofNat 64 (bit bs * 2 ^ 8) }
  | .vslideh ty m d a n => { len := 2, major := 79, d := d, a := a, fn := Fin.ofNat 256 (ty.code * 32 + m.val), ext := BitVec.ofNat 64 (1 + n.toNat * 2 ^ 16) }
  | .vslidel ty m d a n => { len := 2, major := 79, d := d, a := a, fn := Fin.ofNat 256 (ty.code * 32 + m.val), ext := BitVec.ofNat 64 (2 + n.toNat * 2 ^ 16) }
  | .vrev ty m d a => { len := 2, major := 79, d := d, a := a, fn := Fin.ofNat 256 (ty.code * 32 + m.val), ext := 3 }
  | .vbcast ty m d => { len := 0, major := 80, d := d, fn := Fin.ofNat 256 (ty.code * 32 + m.val) }
  | .vbcastX ty m d sx => { len := 2, major := 80, d := d, fn := Fin.ofNat 256 (ty.code * 32 + m.val), ext := BitVec.ofNat 64 (sx.val * 2 ^ 24) }
  | .vbcastl ty m d a k => { len := 2, major := 80, d := d, a := a, fn := Fin.ofNat 256 (ty.code * 32 + m.val), ext := BitVec.ofNat 64 (1 + k.toNat * 2 ^ 16) }
  | .vindex ty m d => { len := 2, major := 80, d := d, fn := Fin.ofNat 256 (ty.code * 32 + m.val), ext := 2 }
  | .vext ty a => { len := 0, major := 81, a := a, fn := Fin.ofNat 256 (ty.code * 32) }
  | .vextX ty a un sx k => { len := 2, major := 81, a := a, fn := Fin.ofNat 256 (ty.code * 32), ext := BitVec.ofNat 64 (bit un * 2 ^ 9 + sx.val * 2 ^ 24 + k.toNat * 2 ^ 16) }
  | .vins ty d sx k => { len := 2, major := 81, d := d, fn := Fin.ofNat 256 (ty.code * 32), ext := BitVec.ofNat 64 (1 + sx.val * 2 ^ 24 + k.toNat * 2 ^ 16) }
  | .vcprs ty m d a => { len := 0, major := 82, d := d, a := a, fn := Fin.ofNat 256 (ty.code * 32 + m.val) }
  | .vcprsX ty m d a sx => { len := 2, major := 82, d := d, a := a, fn := Fin.ofNat 256 (ty.code * 32 + m.val), ext := BitVec.ofNat 64 (sx.val * 2 ^ 24) }
  | .vexpd ty m d a sx => { len := 2, major := 82, d := d, a := a, fn := Fin.ofNat 256 (ty.code * 32 + m.val), ext := BitVec.ofNat 64 (1 + sx.val * 2 ^ 24) }
  | .vld ty m d x => { len := 2, major := 88, d := d, fn := Fin.ofNat 256 (ty.code * 32 + m.val), ext := BitVec.ofNat 64 (x.toExt) }
  | .vst ty m d x => { len := 2, major := 89, d := d, fn := Fin.ofNat 256 (ty.code * 32 + m.val), ext := BitVec.ofNat 64 (x.toExt) }
  | .vlds ty m d b x => { len := 2, major := 90, d := d, b := b, fn := Fin.ofNat 256 (ty.code * 32 + m.val), ext := BitVec.ofNat 64 (x.toExt) }
  | .vsts ty m d b x => { len := 2, major := 91, d := d, b := b, fn := Fin.ofNat 256 (ty.code * 32 + m.val), ext := BitVec.ofNat 64 (x.toExt) }
  | .vgath ty m d b shift x => { len := 2, major := 92, d := d, b := b, fn := Fin.ofNat 256 (ty.code * 32 + m.val), ext := BitVec.ofNat 64 (x.toExt + shift.val * 2 ^ 48) }
  | .vscat ty m d b shift x => { len := 2, major := 93, d := d, b := b, fn := Fin.ofNat 256 (ty.code * 32 + m.val), ext := BitVec.ofNat 64 (x.toExt + shift.val * 2 ^ 48) }
  | .tdLd a ta => { len := 2, major := 96, a := a, ext := BitVec.ofNat 64 (ta.val) }
  | .tdSt a ta => { len := 2, major := 96, a := a, fn := 1, ext := BitVec.ofNat 64 (ta.val) }
  | .tdRdw d ta w => { len := 2, major := 96, d := d, fn := 2, ext := BitVec.ofNat 64 (ta.val + w.val * 2 ^ 24) }
  | .tdWrw b ta w => { len := 2, major := 96, b := b, fn := 3, ext := BitVec.ofNat 64 (ta.val + w.val * 2 ^ 24) }
  | .mm ta tb tile => { len := 2, major := 97, ext := BitVec.ofNat 64 (ta.val + tb.val * 2 ^ 8 + tile.val * 2 ^ 16) }
  | .mc ta tb tile => { len := 2, major := 98, ext := BitVec.ofNat 64 (ta.val + tb.val * 2 ^ 8 + tile.val * 2 ^ 16) }
  | .mcNdA ta tb tile => { len := 2, major := 98, fn := 1, ext := BitVec.ofNat 64 (ta.val + tb.val * 2 ^ 8 + tile.val * 2 ^ 16) }
  | .mcNdB ta tb tile => { len := 2, major := 98, fn := 2, ext := BitVec.ofNat 64 (ta.val + tb.val * 2 ^ 8 + tile.val * 2 ^ 16) }
  | .drainA => { len := 0, major := 99 }
  | .drainB => { len := 0, major := 99, fn := 1 }
  | .bankMergeAb => { len := 0, major := 99, fn := 2 }
  | .bankMergeBa => { len := 0, major := 99, fn := 3 }
  | .accMerge a tile => { len := 2, major := 99, a := a, fn := 4, ext := BitVec.ofNat 64 (tile.val * 2 ^ 16) }
  | .accClrF tile => { len := 2, major := 100, ext := BitVec.ofNat 64 (tile.val * 2 ^ 16) }
  | .accClrX ta tb tile => { len := 2, major := 100, fn := 1, ext := BitVec.ofNat 64 (ta.val + tb.val * 2 ^ 8 + tile.val * 2 ^ 16) }
  | .accCvt ta tile => { len := 2, major := 100, fn := 2, ext := BitVec.ofNat 64 (ta.val + tile.val * 2 ^ 16) }
  | .accSt a tile => { len := 2, major := 100, a := a, fn := 3, ext := BitVec.ofNat 64 (tile.val * 2 ^ 16) }
  | .accLd a tile => { len := 2, major := 100, a := a, fn := 4, ext := BitVec.ofNat 64 (tile.val * 2 ^ 16) }
  | .wbLd ta tb => { len := 2, major := 101, ext := BitVec.ofNat 64 (ta.val + tb.val * 2 ^ 8) }
  | .compress ta tb => { len := 2, major := 102, ext := BitVec.ofNat 64 (ta.val + tb.val * 2 ^ 8) }
  | .msave a mask => { len := 2, major := 103, a := a, ext := BitVec.ofNat 64 (mask.toNat * 2 ^ 24) }
  | .mrestore a mask => { len := 2, major := 103, a := a, fn := 1, ext := BitVec.ofNat 64 (mask.toNat * 2 ^ 24) }
  | .cpStart n d a b => { len := 0, major := 112, d := d, a := a, b := b, fn := Fin.ofNat 256 (0 * 4 + n.val) }
  | .cpWaitge n d a => { len := 0, major := 112, d := d, a := a, fn := Fin.ofNat 256 (1 * 4 + n.val) }
  | .cpWp n d => { len := 0, major := 112, d := d, fn := Fin.ofNat 256 (2 * 4 + n.val) }
  | .cpStat n d => { len := 0, major := 112, d := d, fn := Fin.ofNat 256 (3 * 4 + n.val) }
  | .cpStop n => { len := 0, major := 112, fn := Fin.ofNat 256 (4 * 4 + n.val) }
  | .cpResume n => { len := 0, major := 112, fn := Fin.ofNat 256 (5 * 4 + n.val) }
  | .distSet a => { len := 0, major := 113, a := a }
  | .distGo d a b => { len := 0, major := 113, d := d, a := a, b := b, fn := 1 }
  | .distStat d => { len := 0, major := 113, d := d, fn := 2 }
  | .distResume => { len := 0, major := 113, fn := 3 }
  | .sfuExp2 ty m d a => { len := 2, major := 114, d := d, a := a, fn := Fin.ofNat 256 (ty.code * 32 + m.val) }
  | .sfuLog2 ty m d a => { len := 2, major := 114, d := d, a := a, fn := Fin.ofNat 256 (ty.code * 32 + m.val), ext := 1 }
  | .sfuRcp ty m d a => { len := 2, major := 114, d := d, a := a, fn := Fin.ofNat 256 (ty.code * 32 + m.val), ext := 2 }
  | .sfuRsqrt ty m d a => { len := 2, major := 114, d := d, a := a, fn := Fin.ofNat 256 (ty.code * 32 + m.val), ext := 3 }
  | .sfuSqrt ty m d a => { len := 2, major := 114, d := d, a := a, fn := Fin.ofNat 256 (ty.code * 32 + m.val), ext := 4 }
  | .sfuSin ty m d a => { len := 2, major := 114, d := d, a := a, fn := Fin.ofNat 256 (ty.code * 32 + m.val), ext := 5 }
  | .sfuCos ty m d a => { len := 2, major := 114, d := d, a := a, fn := Fin.ofNat 256 (ty.code * 32 + m.val), ext := 6 }
  | .sfuTanh ty m d a => { len := 2, major := 114, d := d, a := a, fn := Fin.ofNat 256 (ty.code * 32 + m.val), ext := 7 }
  | .sfuSigm ty m d a => { len := 2, major := 114, d := d, a := a, fn := Fin.ofNat 256 (ty.code * 32 + m.val), ext := 8 }
  | .sfuErf ty m d a => { len := 2, major := 114, d := d, a := a, fn := Fin.ofNat 256 (ty.code * 32 + m.val), ext := 9 }
  | .qinj a b => { len := 0, major := 56, a := a, b := b }
  | .qinjRel a b => { len := 0, major := 56, a := a, b := b, fn := 4 }
  | .qrcv a => { len := 0, major := 56, a := a, fn := 1 }
  | .qpoll d a => { len := 0, major := 56, d := d, a := a, fn := 2 }
  | .qcnt d => { len := 0, major := 56, d := d, fn := 3 }
  | .rld tag sz acq a b => { len := 2, major := 57, a := a, b := b, ext := BitVec.ofNat 64 (tag.val * 2 ^ 8 + sz.code * 2 ^ 16 + bit acq * 2 ^ 18) }
  | .rst sz rel d a b => { len := 2, major := 57, d := d, a := a, b := b, fn := 2, ext := BitVec.ofNat 64 (sz.code * 2 ^ 16 + bit rel * 2 ^ 19) }
  | .ratom op tag sz o d a b => { len := 2, major := 57, d := d, a := a, b := b, fn := 3, ext := BitVec.ofNat 64 (tag.val * 2 ^ 8 + sz.code * 2 ^ 16 + o.code * 2 ^ 18 + op.code * 2 ^ 21) }
  | .ratomCas tag sz o d a b => { len := 2, major := 57, d := d, a := a, b := b, fn := 3, ext := BitVec.ofNat 64 (tag.val * 2 ^ 8 + sz.code * 2 ^ 16 + o.code * 2 ^ 18 + 2 ^ 20) }
  | .rwait d n => { len := 0, major := 57, d := d, a := Fin.ofNat 32 (n.val), fn := 4 }
  | .bulkWr tag d a b c => { len := 2, major := 58, d := d, a := a, b := b, fn := Fin.ofNat 256 (c.val), ext := BitVec.ofNat 64 (bulkTag tag) }
  | .bulkRd tag d a b c => { len := 2, major := 58, d := d, a := a, b := b, fn := Fin.ofNat 256 (32 + c.val), ext := BitVec.ofNat 64 (tag.val + 2 ^ 7) }
  | .rankMe d => { len := 0, major := 59, d := d }
  | .rankRd d a => { len := 0, major := 59, d := d, a := a, fn := 1 }
  | .rbind d a b => { len := 0, major := 59, d := d, a := a, b := b, fn := 8 }
  | .tagGnt a b => { len := 0, major := 120, a := a, b := b }
  | .tagGntd a b => { len := 0, major := 120, a := a, b := b, fn := 1 }
  | .tagRcl a b => { len := 0, major := 120, a := a, b := b, fn := 2 }
  | .dirWr => { len := 0, major := 121 }
  | .dirShadd a => { len := 0, major := 121, a := a, fn := 1 }
  | .dirShdel a => { len := 0, major := 121, a := a, fn := 2 }
  | .msgSend a b => { len := 0, major := 122, a := a, b := b }
  | .msgMcast d a b => { len := 0, major := 122, d := d, a := a, b := b, fn := 1 }
  | .btRd a b => { len := 0, major := 122, a := a, b := b, fn := 4 }
  | .btWr a b => { len := 0, major := 122, a := a, b := b, fn := 5 }
  | .btMrg a b => { len := 0, major := 122, a := a, b := b, fn := 6 }
  | .hend => { len := 0, major := 123 }
  | .hfail a b => { len := 0, major := 123, a := a, b := b, fn := 1 }
  | .biasRd d a => { len := 0, major := 123, d := d, a := a, fn := 8 }
  | .biasWr a b => { len := 0, major := 123, a := a, b := b, fn := 9 }
  | .biSnp b => { len := 0, major := 123, b := b, fn := 10 }
  | .lsSplitWrite _ => {}
  | .tensorOpStart _ => {}
  | .tensorOpComplete _ _ => {}
  | .channelDelivery _ _ => {}
  | .channelStopped _ _ => {}
  | .channelFault _ _ => {}
  | .distBlock _ => {}
  | .distBurstComplete _ => {}
  | .sfuEntryComplete _ => {}
  | .interruptTake _ => {}
  | .remoteErrorTake _ => {}
  | .recordPop _ => {}
  | .dequeSpill _ => {}
  | .dequeRefill _ => {}
  | .stealSearch _ => {}
  | .stealArrival _ => {}
  | .undealtShareDeal _ => {}
  | .rangeTransfer _ => {}
  | .barrierArrival _ => {}
  | .barrierRelease _ => {}
  | .pauseExpiry _ => {}
  | .gets _ => {}
  | .getx _ => {}
  | .upg _ => {}
  | .putx _ => {}
  | .puts _ => {}
  | .putp _ => {}
  | .atom _ => {}
  | .apnd _ => {}
  | .apndFill _ => {}
  | .arsv _ => {}
  | .tailq _ => {}
  | .sealqSeal _ => {}
  | .sealqFree _ => {}
  | .replicateNotice _ => {}
  | .replicaCopyComplete _ _ => {}
  | .replicaInvalidate _ => {}
  | .customMessage _ => {}
  | .recall _ => {}
  | .inv _ => {}
  | .push _ => {}
  | .deferredRequestApply _ _ => {}
  | .dataS _ => {}
  | .dataX _ => {}
  | .ack _ => {}
  | .busy _ => {}
  | .retry _ => {}
  | .retryBackoffExpiry _ _ => {}
  | .fail _ => {}
  | .wbData _ => {}
  | .invAck _ => {}
  | .result _ => {}
  | .handlerWatchdog _ => {}
  | .transientWatchdog _ _ => {}
  | .queueMessage _ => {}
  | .remoteLoad _ => {}
  | .remoteStore _ => {}
  | .remoteAtomic _ => {}
  | .valueReply _ => {}
  | .acknowledgement _ => {}
  | .bulkWriteData _ => {}
  | .bulkReadRequest _ => {}
  | .bulkReadData _ => {}
  | .dropNotice _ => {}
  | .reservationRequest _ => {}
  | .reservationGrant _ => {}
  | .reservedResend _ => {}
  | .refusal _ => {}
  | .failureReport _ => {}
  | .pageReadRequest _ => {}
  | .pageExclusiveRequest _ => {}
  | .pageData _ => {}
  | .pageRecall _ => {}
  | .pageWriteBack _ => {}
  | .pageAcknowledgement _ => {}
  | .packetForward _ _ => {}
  | .fabricResendTimeout _ => {}
  | .linkFlitResend _ => {}
  | .linkRetrain _ => {}
  | .hostGoResponse _ _ _ => {}
  | .snpinv _ => {}
  | .snpdata _ => {}
  | .snpcur _ => {}
  | .hostMemrd _ => {}
  | .hostMemwr _ _ _ => {}
  | .notifyWrite _ _ _ => {}
  | .registerWrite _ _ _ => {}
  | .partCfg _ _ => {}
  | .partStart _ => {}
  | .partStop _ => {}
  | .regionBind _ _ _ => {}
  | .regionUnbind _ _ => {}
  | .imageLoad _ _ _ _ => {}
  | .routeLoad _ _ _ => {}
  | .rankWrite _ _ => {}
  | .contract _ _ => {}
  | .launch _ _ _ _ => {}
  | .launchSeed _ => {}
  | .deliver _ _ _ _ => {}
  | .preemptCmd _ _ _ => {}
  | .ifenceCmd _ => {}
  | .pageReply _ _ => {}
  | .record _ _ _ _ => {}
  | .biasSet _ _ _ _ => {}
  | .s2Inv _ _ => {}
  | .mbxAssign _ _ _ => {}
  | .hdmCfg _ _ _ _ => {}
  | .partExport _ _ _ => {}
  | .partImport _ _ => {}
  | .eventCfg _ _ => {}
  | .partitionSwap _ _ _ => {}
  | .swapFlush _ => {}
  | .swapExchange _ => {}
  | .periodStart _ => {}
  | .budgetExhausted _ => {}
  | .timeSliceExpiry _ => {}
  | .partitionNoWork _ => {}
  | .traceRingCopy _ => {}
  | .replayDivergence _ _ => {}
  | .clusterClockGate _ => {}
  | .clusterPowerGate _ => {}
  | .clusterWake _ => {}
  | .powerOn _ => {}
  | .fundamentalReset _ => {}
  | .hotReset _ => {}
  | .bootReset _ => {}
  | .d3hotEntry => {}
  | .powerOff => {}
  | .attestRequest => {}
  | .refresh _ => {}
  | .recalibration _ => {}
  | .scrub _ _ => {}
  | .throttleRaise => {}
  | .throttleLower => {}
  | .thermalShutdown => {}
  | .telemetrySample _ => {}
  | .illegalOpEncoding _ => {}
  | .memoryAccessReply _ => {}
  | .vectorBlockDelivery _ => {}
  | .tlbiCompletion _ => {}
  | .codeflushAcknowledgement _ => {}
  | .cxlIoCompletion _ => {}
  | .refusalBackoffResend _ => {}

/-- The bytes of a group of fields in address order: base, extension, literal (R28). -/
def Raw.bytes (r : Raw) : List Byte :=
  leBytes 4 r.base ++ (if Raw.hasExt r.len then leBytes 8 r.ext.toNat else []) ++
    (if Raw.hasLit r.len then leBytes 8 r.lit.toNat else [])

/-- The bytes of an instruction (R28). -/
def encode (i : Instr) : List Byte := (encodeRaw i).bytes

/-- Whether a constructor is an instruction with words, and not a step of the part. -/
def Instr.hasWords (i : Instr) : Bool := (encodeRaw i).major.val != 0

/-- The length in bytes of an instruction (R28). -/
def Instr.len (i : Instr) : Nat := lenBytes (encodeRaw i).len

/-- The bytes of an instruction given as the opcode table numbers its bits: bit 0 is the least significant bit of the base
word, later words count on from it, and words the table gives no bits are zero; 20 bytes, the longest instruction. -/
def tableBytes (nbits w : Nat) : List Byte := leBytes 20 (w % 2 ^ nbits)

/-- The decoder on an instruction numbered as the opcode table numbers it. -/
noncomputable def decodeTableWord (nbits w : Nat) : Option Instr :=
  match decode (tableBytes nbits w) with
  | .ok (i, _) => some i
  | .error _ => none

end Sys2Proof
end

