-- ==== Sys2Proof/Config.lean ====
section
/-! DEFINITION. Facts of the build that the spec leaves to the implementation, and the free values: constants with no body, so
that nothing can be proved of their values. A free value is applied to State.free, a plain counter that each use advances. -/

namespace Sys2Proof.Config

/-- A free choice (which of two outcomes the spec allows). -/
opaque freeBool : Nat → Bool

/-- A free word (a value the spec leaves undefined). -/
opaque freeWord : Nat → Word

/-- A free number (a choice among several). -/
opaque freeNat : Nat → Nat

/-- Core cycles that pass in one step of the model (R102 to R106 give bounds only). -/
opaque elapsed : Nat → Nat

/-- A special-function result the spec bounds but does not state, a fixed function of function number, lane type and operand
(R320, R321). -/
opaque sfu : Nat → ElType → Word → Word

/-- The job of a partition, by its number and the time at which it is configured: the hypervisor decides it, and no command of the
spec tells the device (R7, R372). -/
opaque job : Nat → Nat → Nat

/-- Capacity of a DIMM of the DDR-5 tier in GiB less 1: a fact of the build that the spec leaves open but for a bound. -/
opaque dimm : Nat

/-- Installed capacity C of the DDR-5 tier in bytes: eight equal DIMMs, at most 2 TiB together (R166). -/
def ddrCap : Nat := 8 * ((dimm % 256 + 1) * 2 ^ 30)

/-- The device's serial number (R432): a fact of the build. -/
opaque serial : Word

/-- Whether a signature of a hash holds under the Essiosh public key in ROM, whose value is a fact of the build (R431). -/
opaque verify : BitVec 256 → BitVec 3072 → Bool

/-- The signature under the device's identity key, held in fuses, over the first 128 bytes of a report (R432). -/
opaque sign : BitVec 1024 → BitVec 3072

end Sys2Proof.Config
end

