-- ==== Sys2Proof/Machine/State.lean ====
section
/-! DEFINITION. The state of the machine, as plain data: every piece of state the spec gives the part, the reasons a step may
stop, and the state after reset. INVENTORY.md lists each field with the rule that names it. -/

namespace Sys2Proof.Machine

/-- A table from numbers to values: an association list with rising keys; a key not listed has the default its reader names. -/
abbrev Tab (α : Type) := List (Nat × α)

/-- Memory: bytes by address, strictly rising, none of them zero; an unlisted byte reads as zero (log 5). -/
abbrev Memory := List Host.Cell

/-- A trap cause code (R332). -/
abbrev Cause := BitVec 8

/-- Modes (R19); H exists only on protocol processors. -/
inductive Mode | u | s | h
deriving DecidableEq, Repr

/-- What a slot out of the rotation waits for. -/
inductive Wait
  /-- an access suspended on a busy block (R209), with the access address: the instruction re-executes when a reply arrives -/
  | line (blk : Nat) (va : Word)
  /-- a home's RESULT for the request of this block (R176, R260, R261): the reply goes to register d and completes the
  instruction of n bytes; the access address serves a FAIL -/
  | result (blk : Nat) (d : Reg) (n : Nat) (va : Word)
  /-- the reply or acceptance of an access that uses no coherence message (R104) -/
  | access
  /-- the last block of a vector access (R129) -/
  | vector
  /-- an answer from the host over CXL.io (R401) -/
  | host
  /-- a page request's reply (R346), with its tag, and the first byte of the access in the page -/
  | page (tag : Nat) (va : Word) (cause : Cause)
  /-- a free page-request entry (R346) -/
  | pageFull
  /-- the ls.split write (R18), with the value to set -/
  | lsSplit (v : Fin 16)
  /-- a local-store access while another slot's ls.split write is in progress (R96) -/
  | lsBusy
  /-- TLBSYNC (R100) -/
  | tlbsync
  /-- PART.DONE's remote stores (R101) -/
  | partDone
  /-- CODEFLUSH's acknowledgements (R182): virtual block range, scope and length of the instruction -/
  | codeflush (first last : Nat) (sc : Scope) (n : Nat)
  /-- write-backs of the core (R181, R183) -/
  | puts
  /-- the release set (R197, R206) -/
  | release
  /-- the release set and every write that the core has seen, performed everywhere: FENCE.SC and .SC accesses (R194, R206) -/
  | order
  /-- fire-and-forget operations of the slot, for a FENCE or a JOIN (R206, R383) -/
  | remotes
  /-- fire-and-forget operations of the slot, for the release of a remote operation (R382) -/
  | acks
  /-- a spill in progress (R134) -/
  | spill
  /-- dealt pieces to be queued (R145) -/
  | deal
  /-- a transient or busy home for an atomic at a home (R147) -/
  | home (blk : Nat)
  /-- PAUSE until the cycle count (R148) -/
  | pause (till : Nat)
  /-- a barrier phase (R151) -/
  | barrier (n : Fin 8) (phase : Bool)
  /-- a mailbox (R152), with the register its value goes to -/
  | mailbox (m : Nat) (d : Reg)
  /-- an interrupt (R99) -/
  | irq
  /-- the tensor engine (R275), the weight-buffer load path -/
  | tensor | wbLoad
  /-- a copy channel's write pointer (R310) -/
  | channel (n : Fin 4) (bound : Word)
  /-- a copy channel's stop (R312) -/
  | chanStop (n : Fin 4)
  /-- a free entry of the special-function queue (R322) -/
  | sfuFull
  /-- a special-function result (R322) -/
  | sfu
  /-- the parked result of an earlier special-function instruction (R323) -/
  | sfuParked
  /-- a migrating rank (R372) -/
  | rank (r : Nat)
  /-- room in the injection queue or in the fire-and-forget count (R378, R382, R387) -/
  | inject
  /-- a message, with the first of the eight registers it goes to (R379) -/
  | receive (a : Reg)
  /-- a reply tag (R383) -/
  | tag (n : Fin 8)
  /-- an unbind's recall (R394) -/
  | rbind (page : Nat)
deriving DecidableEq, Repr

/-- Run state of a slot (R98, R104, R136, R24). -/
inductive Run | idle | active | waiting (w : Wait) | halted | dead
deriving DecidableEq, Repr

/-- A pending interrupt (R22, R332). -/
inductive Intr
  | preempt (reason : BitVec 8)
  | engine (w0 w1 w2 w3 : Word)
  | mailbox (m : BitVec 8)
deriving DecidableEq, Repr

/-- A record (R130): continuation fields, the range of a range record, the core whose deque first held it (R153), the tag of the
launch that seeded it (R417), and the tag of the launch that it or the record it came from was seeded by (R344). -/
structure Rec where
  code : Word
  frame : Word
  arg : Word
  join : Word
  range : Option (Word × Word × Word) := none
  first : Nat := 0
  seed : Option (BitVec 16) := none
  launch : Option (BitVec 16) := none
deriving DecidableEq, Repr

/-- A reply tag (R382): free, pending with the length it returns when it is a bulk transfer, ready. -/
inductive RTag
  | free
  | pending (len : Option Word) (acq : Bool)
  | ready (v : Word) (acq : Bool)
  | failed (v : Word)
deriving DecidableEq, Repr

/-- A message between agents of the device (R80, R215): the eight words, the data flit, the agents it goes between, the combined
acknowledgement it is part of (R239), the replica agent that forwarded it (R256), and its place among the messages that have reached
their protocol processor and wait in its input queues, 0 for one still in the network (R222). -/
structure Msg where
  src : Nat
  dst : Nat
  w : Vector Word 8
  flit : Option Block := none
  mc : Option Nat := none
  via : Option Nat := none
  arrived : Nat := 0
deriving DecidableEq, Repr

/-- What a handler invocation was dispatched with and has used (R221, R244), besides the slot's registers. -/
structure HCtx where
  msg : Msg
  region : Nat
  proto : Nat
  entryAddr : Nat
  steps : Nat := 0
  forwards : Nat := 0
deriving DecidableEq, Repr

/-- A translation: the physical address of the byte asked for, the page's size code and the leaf's attributes (R337). -/
structure Xlat where
  pa : Nat
  size : Nat
  ok : Nat
  nr : Bool
  g : Bool
  u : Bool
  x : Bool
  w : Bool
  r : Bool
deriving DecidableEq, Repr

/-- One part of an access within a 64-byte block (R172). -/
structure Part1 where
  va : Word
  pa : Nat
  len : Nat
  x : Xlat
deriving DecidableEq, Repr

/-- Where the bytes of an access lie once it has been checked: local store, cluster memory, or its translated parts (R159, R172). -/
inductive Dest
  | ls (off : Nat)
  | cm (off : Nat)
  | glb (ps : List Part1)
deriving DecidableEq, Repr

/-- What a vector access has done before it was suspended (R347): the next lane, the data register with the lanes so far, its
lanes still to do when it began, its registers, whether it stores, the width of a lane, and where its lanes lie (R127, R209). -/
structure VProg where
  lane : Nat
  data : Block
  mask : Word
  d : Reg
  sx : Reg
  store : Bool
  w : Nat := 32
  plan : List (Nat × Dest) := []
deriving DecidableEq, Repr

/-- What an access that waits for its reply restores when its slot abandons it (R128, R186): the instruction's pc, the scalar register
it loaded, the vector register it loaded with its progress, the trap state it found (R335), and the descriptor it loaded, before and after
(R301). -/
structure Redo where
  pc : Word
  reg : Option (Reg × Word) := none
  vec : Option (Block × VProg) := none
  sx : Word := 0
  fresh : Option Cause := none
  td : Option (Fin 64 × Block × Block) := none
deriving DecidableEq, Repr

/-- A TLB invalidation that has been issued and runs on (R100, R341). -/
inductive Tlbi | va (a p : Nat) | ctx (p : Nat) | all
deriving DecidableEq, Repr

/-- A thread slot (R11, R14, R15). Beside its registers: the TLBIs it has issued and the requests that used an entry one of them
removed, by core, tag and block (R100); a vector access under way, and what an abandoned access restores (R128, R186); the tag, length
and register of an atomic whose reply is parked (R186); the STASH.UNMAPs in progress, by pc and range (R183); whether the next instruction forms a
bundle with the last (R38); whether an interrupt that ended IWAIT comes before the next instruction (R99); and the bytes that a record
read has brought to the instruction at a pc, which has still to act on them (R155). -/
structure Slot where
  s : Vector Word 32 := Vector.replicate 32 0
  v : Vector Block 32 := Vector.replicate 32 0
  pc : Word := 0
  mode : Mode := .u
  run : Run := .idle
  fpMode : BitVec 4 := 0
  fpFlags : BitVec 5 := 0
  srState : BitVec 32 := 1
  cntOvf : Bool := false
  trCause : BitVec 9 := 0
  trPc : Word := 0
  trVal : Word := 0
  trStatus : BitVec 3 := 0
  trScratch : Word := 0
  fresh : Option Cause := none
  arrived : Vector (Option Bool) 8 := Vector.replicate 8 none
  efd : Vector Word 4 := Vector.replicate 4 0
  pend : List Intr := []
  remErr : List Word := []
  ff : Nat := 0
  tags : Vector RTag 8 := Vector.replicate 8 .free
  record : Option Rec := none
  stolen : Bool := false
  lv : Option (Word × Word) := none
  relFence : Option Scope := none
  acqFence : Option Scope := none
  tlbis : List Tlbi := []
  tsync : List (Nat × Nat × Nat) := []
  vprog : Option VProg := none
  redo : Option Redo := none
  parked : Option (Nat × Nat × Reg) := none
  unmaps : List (Word × Nat × Nat) := []
  paired : Bool := false
  due : Bool := false
  got : Option (Word × List Byte) := none
  ibuf : Tab Block := []
  handler : Option HCtx := none
deriving DecidableEq, Repr

/-- Access tags (R208). -/
inductive Tag | invalid | readOnly | writable | busy
deriving DecidableEq, Repr

/-- A line of a core (R163, R164, R208): its tag (`none` when the block lies in a direct region), its bytes, the bytes written
and not yet sent (R234) or not yet written back (R164), where it is held, its priority and last use (R170), its release set
(R197), the thread that may read it once, with the first and last byte it may read (R253), whether a busy line keeps the bytes of the read-only line it was (R210), the
global address of a stash line (R163), and the slot in whose stream buffer it stands (R170). -/
structure Line where
  tag : Option Tag
  data : Block := 0
  written : BitVec 64 := 0
  stash : Bool := false
  l2 : Bool := false
  prio : Fin 8 := 4
  used : Nat := 0
  rel : List Nat := []
  single : Option (Nat × Nat × Nat) := none
  kept : Bool := false
  va : Nat := 0
  stream : Option Nat := none
deriving DecidableEq, Repr

/-- Bytes of a direct block written in a cluster's L2 and not yet at the home (R164), with the cores that wrote or read them
there (R169), and the block's priority and last use there (R170). -/
structure L2Line where
  data : Block := 0
  written : BitVec 64 := 0
  seen : List Nat := []
  prio : Fin 8 := 4
  used : Nat := 0
deriving DecidableEq, Repr

/-- A request of the core that its home has not answered (R209); one whose slot has abandoned it waits for a reply that no instruction
takes (R215, R263), and one of a PREF that no slot waits for (R180). -/
structure Req where
  msg : Msg
  busy : Bool := false
  retry : Option Nat := none
  dead : Bool := false
  pref : Bool := false
deriving DecidableEq, Repr

/-- A stash mapping (R162). -/
structure Stash where
  g : Nat
  n : Nat
  k : Nat
deriving DecidableEq, Repr

/-- A barrier register with the sweep of its current phase (R149, R150). -/
structure Barrier where
  reg : Word := 0
  fromEast : Bool := false
  fromBelow : Bool := false
  sent : Bool := false
deriving DecidableEq, Repr

/-- An accumulator tile (R270, R273): exact mode with its exponent, or FP mode; entries not listed are zero. -/
structure Tile where
  exact : Bool := false
  e : Int := 0
  cells : Tab Word := []
deriving DecidableEq, Repr

/-- A counter bank (R270, R286): counters by cell * 32 + counter, those not listed zero. -/
structure Bank where
  fill : Nat := 0
  family : Nat := 0
  tile : Fin 2 := 0
  slot : Nat := 0
  counters : Tab Int := []
deriving DecidableEq, Repr

/-- The operations of the tensor engine (R277); a Bool is a bank (true: B), and for a merge the destination. -/
inductive TFn
  | mm | mc | mcNd (b : Bool) | drain (b : Bool) | bankMerge (b : Bool) | accMerge | clrF | clrX | cvt | accSt | accLd | wbLd
  | compress | msave | mrestore
deriving DecidableEq, Repr

/-- A tensor operation as issued (R275, R276): its function, slot, the instruction's address and words, the descriptors it
copied, its address operand, the index it resumes at, what it has read of memory, the pieces read and written so far, what an
access of it waits for, and the size of the weight buffer that its partition sees (R353). -/
structure TOp where
  fn : TFn
  slot : Nat
  pc : Word
  word : BitVec 32
  ext : Word
  da : Block := 0
  db : Block := 0
  addr : Word := 0
  next : Nat := 0
  started : Bool := false
  img : Memory := []
  got : Nat := 0
  done : Nat := 0
  wait : Option Wait := none
  wbSize : Nat := 65536
deriving DecidableEq, Repr

/-- The resume record of the tensor engine (R298, R299). -/
structure Resume where
  slot : Nat
  next : Nat
  word : BitVec 32
  ext : Word
  addr : Word
  da : Block
  db : Block
deriving DecidableEq, Repr

/-- States of a copy channel (R305); stopping is RUNNING with a CP.STOP that waits (R312). -/
inductive ChanState | idle | running | done | stopping | stopped | faulted | refused
deriving DecidableEq, Repr

/-- A copy channel (R304, R305): the registers, the stopping point of a CP.STOP, the mode of the slot that started it, whether
a message to an append page's home is on its way, what its access waits for, the bytes read and not yet delivered (R309), and
whether the access that waits is one of its destination (R348). -/
structure Chan where
  src : Word := 0
  dst : Word := 0
  len : Word := 0
  wp : Word := 0
  rsv : Option Word := none
  st : ChanState := .idle
  ap : Bool := false
  slot : Nat := 0
  cause : Cause := 0
  stopAt : Word := 0
  mode : Mode := .u
  reqOut : Bool := false
  wait : Option Wait := none
  buf : List Byte := []
  atDst : Bool := false
deriving DecidableEq, Repr

/-- The burst of a distributor (R316, R318): the blocks delivered, the 64-byte pieces of the next one, what its access waits for, the
launch of the record that started it (R344), and the bytes of a source block that two dealt blocks share, read once (R203). -/
structure Burst where
  st : ChanState := .idle
  src : Word := 0
  len : Word := 0
  join : Word := 0
  pat : Word := 0
  slot : Nat := 0
  cause : Cause := 0
  addr : Word := 0
  blocks : Nat := 0
  part : Nat := 0
  mode : Mode := .u
  wait : Option Wait := none
  launch : Option (BitVec 16) := none
  buf : List Byte := []
deriving DecidableEq, Repr

/-- An entry of the special-function queue (R322): the operands are read at issue; a parked one was left behind by an interrupt
(R323), and a lost one belongs to a record that has ended since (R27). -/
structure SfuOp where
  fn : Nat
  ty : ElType
  slot : Nat
  d : Reg
  mask : Word
  a : Block
  rm : BitVec 3
  parked : Bool := false
  lost : Bool := false
deriving DecidableEq, Repr

/-- An entry of the injection queue (R378): the message, its destination word, the issuing slot, whether it is a release, where
its rank resolves to, and whether it has met a "moved" answer (R373). -/
structure InjEntry where
  slot : Nat
  dest : Word
  w : Vector Word 8
  rel : Bool
  dev : Nat := 0
  part : Nat := 0
  moved : Bool := false
deriving DecidableEq, Repr

/-- An entry of the receive queue (R379): the slot it is marked for, or any. -/
structure RcvEntry where
  slot : Option Nat
  w : Vector Word 8
  rel : Bool := false
deriving DecidableEq, Repr

/-- What a context buffer's entry holds (R351). -/
inductive SpillItem | inj (e : InjEntry) | rcv (e : RcvEntry)
deriving DecidableEq, Repr

/-- An entry of a core's context buffer (R351): its place there, its spill order modulo 256, what it holds, and whether it arrived while
the partition was swapped out (R355). -/
structure Spill where
  idx : Nat
  order : Nat
  item : SpillItem
  away : Bool := false
deriving DecidableEq, Repr

/-- An entry of a trace ring (R201), with the partition it belongs to (R362). -/
structure TraceEntry where
  addr : Nat
  seq : Nat
  len : Nat
  slot : Nat
  core : Nat
  dev : Nat
  gnt : Bool
  part : Option Nat := none
deriving DecidableEq, Repr

/-- A trace ring (R201). -/
structure Trace where
  on : Bool := false
  seq : Nat := 0
  entries : List TraceEntry := []
deriving DecidableEq, Repr

/-- A TLB entry (R340): one combined translation. -/
structure TlbEntry where
  part : Nat
  va : Nat
  size : Nat
  pa : Nat
  ok : Nat
  nr : Bool
  g : Bool
  u : Bool
  x : Bool
  w : Bool
  r : Bool
deriving DecidableEq, Repr

/-- A table entry cached by a cluster's walkers (R340): the partition, the stage, the address translated and the level, and the entry's
own physical address and value. -/
structure WalkEntry where
  part : Nat
  stage2 : Bool
  va : Nat
  lvl : Nat
  pa : Nat
  word : Word
deriving DecidableEq, Repr

/-- A compute core (R3, R5, R14). -/
structure Core where
  ls : Memory := []
  trVector : BitVec 62 := 0
  lsSplit : Fin 16 := 8
  coreFatal : BitVec 21 := 0
  leaseBase : Vector Word 8 := Vector.replicate 8 0
  leaseLim : Vector Word 8 := Vector.replicate 8 0
  bars : Vector Barrier 8 := Vector.replicate 8 {}
  deque : List Rec := []
  backing : List Rec := []
  spillPath : List (Nat × Rec) := []
  lastSteal : Option Nat := none
  searching : Bool := true
  stash : List Stash := []
  lines : Tab Line := []
  reqs : Tab Req := []
  puts : List Nat := []
  awaits : Tab (List Nat) := []
  held : List Msg := []
  icache : Tab Block := []
  itlb : List TlbEntry := []
  dtlb : List TlbEntry := []
  td : Vector Block 64 := Vector.replicate 64 0
  acc : Vector Tile 2 := Vector.replicate 2 {}
  banks : Vector Bank 2 := Vector.replicate 2 {}
  wb : Memory := []
  resume : Option Resume := none
  tqueue : List TOp := []
  wbld : Option TOp := none
  cp : Vector Chan 4 := Vector.replicate 4 {}
  distPat : Word := 0
  burst : Burst := {}
  sfuq : List SfuOp := []
  injq : List InjEntry := []
  rcvq : List RcvEntry := []
  rwaiters : List Nat := []
  spills : List Spill := []
  stamp : Nat := 0
  trace : Trace := {}
deriving DecidableEq, Repr

/-- Clock state of a cluster (R410, R435). -/
inductive Clock | running | clockGated | powerGated
deriving DecidableEq, Repr

/-- The engine and register state of a core that a partition swap exchanges (R356), with its sixteen slots. -/
structure CoreCtx where
  slots : List Slot
  core : Core
deriving DecidableEq, Repr

/-- Stage of a partition swap on a cluster (R354), or of a halt that PART.STOP or PART.EXPORT asks for, which brings no partition in
(R419, R421). -/
inductive SwapStage
  | none
  | halted (out : Nat) (inc : Option Nat) (reason : Nat)
  | flushed (out : Nat) (inc : Option Nat) (reason : Nat)
deriving DecidableEq, Repr

/-- A cluster (R3, R5). `stamp` counts the uses of its L2 (R170). -/
structure Cluster where
  cmem : Memory := []
  l2dirty : Tab L2Line := []
  tlb : List TlbEntry := []
  wcache : List WalkEntry := []
  clock : Clock := .running
  held : Nat := 0
  since : Nat := 0
  part : Option Nat := none
  shadow : Option (Nat × List CoreCtx) := none
  swap : SwapStage := .none
  stamp : Nat := 0
deriving DecidableEq, Repr

/-- A reservation of an append page (R249). -/
structure Rsv where
  page : Nat
  start : Nat
  fill : Nat
  stop : Nat
deriving DecidableEq, Repr

/-- A reassembly entry of a port processor (R376): target partition, source device, lane, number, pk.tot, the count of the bytes received
and one bit for each 64-byte flit. -/
structure Reasm where
  part : Nat := 0
  dev : Nat
  lane : Bool
  seq : Nat
  tot : Nat
  count : Nat := 0
  flits : Nat := 0
deriving DecidableEq, Repr

/-- A protocol processor (R216 to R218, R231, R249). Its reservation table is `rsvs`, beside its data memory: R249 has it in data memory and
gives no place or layout, so no byte of `dmem` shows it (log 91). -/
structure Proc where
  hstore : Memory := []
  dmem : Memory := []
  dtab : Tab (BitVec 32) := []
  hdAbort : Word := 0
  waiters : List Msg := []
  since : Tab Nat := []
  pend : Tab Msg := []
  pushes : Tab (Option Msg) := []
  frees : Tab Nat := []
  copies : List (Nat × Nat × Word) := []
  rsvs : List Rsv := []
  sealers : List Msg := []
  replicas : Tab Nat := []
  freeing : List (Nat × Nat × Word) := []
  copying : List Nat := []
  readers : List Msg := []
  reasm : List Reasm := []
  trace : Trace := {}
deriving DecidableEq, Repr

/-- A combined acknowledgement being collected (R239). For one that carries the news of a merge: the core whose write it is, and the
cores that have seen that write (R194, R234). -/
structure Mcast where
  home : Nat
  addr : Nat
  left : List Nat
  held : Bool := false
  copies : Nat := 0
  writer : Option Nat := none
  seen : List Nat := []
deriving DecidableEq, Repr

/-- Why the home takes a line from its holders: a host snoop (R400), a page that flips to host bias (R404), or a page asked for by
another device, shared or exclusive (R392). -/
inductive TakeWhy | snpInv | snpData | snpCur | flip | share | give
deriving DecidableEq, Repr

/-- A line being taken from its holders: the multicast that collects the answers once they are asked, whether all have answered,
whether a copy was held, and the writable holder whose data is still due. -/
structure Take where
  pa : Nat
  why : TakeWhy
  mc : Option Nat := none
  answered : Bool := false
  held : Bool := false
  owner : Option Nat := none
  data : Option Block := none
deriving DecidableEq, Repr

/-- What the host link does for a line or a page (R399 to R405). -/
inductive HostOp
  /-- RdShared or RdOwn sent for a line; the requester's message, if any, waits for data and GO -/
  | rd (pa : Nat) (excl : Bool) (msg : Option Msg)
  /-- RdShared or RdOwn sent for a line by its home, for an access of another device or of a bulk transfer (R384, R389) -/
  | own (pa : Nat) (excl : Bool)
  /-- the line is here for such an access: shared, or exclusive -/
  | mine (pa : Nat) (excl : Bool)
  /-- a BISnpInv: its multicast number, the lines that the host has not answered for yet, and how many of the others it held (R405, R407) -/
  | birsp (mc pa : Nat) (left : List Nat) (held : Nat)
  /-- a host access held while its page flips to host bias: a read, or a write under a mask -/
  | access (pa : Nat) (wr : Option (Word × Block))
  /-- a page flipping to host bias -/
  | toHost (page : Nat)
  /-- a page flipping to device bias; the multicast number of its BISnp once that is sent -/
  | toDevice (page : Nat) (mc : Option Nat)
  /-- BIAS.SET (R412): the pages that have not yet come to the bias it asks for -/
  | biasSet (c : Cmd) (pages : List Nat) (host : Bool)
deriving DecidableEq, Repr

/-- What the host receives from the device: answers, writes and messages of the link (R399 to R404, R413, R414). A block that is not there
is poisoned (R402, R434), but for curData, where it says that the device had no newer data (R400). -/
inductive HostOut
  | rdShared (pa : Nat) | rdOwn (pa : Nat)
  | dirtyEvict (pa : Nat) (b : Option Block) | cleanEvict (pa : Nat)
  | rspIFwdM (pa : Nat) (b : Option Block) | rspIHitSE (pa : Nat) | rspIHitI (pa : Nat)
  | rspSFwdM (pa : Nat) (b : Option Block) | rspSHitSE (pa : Nat)
  | curData (pa : Nat) (b : Option Block)
  | biSnpInv (pa : Nat)
  | data (pa : Nat) (b : Option Block) | wrAck (pa : Nat)
  | msix (fn : Nat) (vec : Nat)
  | fatal (core : Nat) (v : Word)
  | internalError
deriving DecidableEq, Repr

/-- An entry of a packet of several entries (R415): DELIVER or PAGE.REPLY, or one of these with a reserved bit set (R412). -/
inductive PacketEntry
  | malformed (c : Cmd)
  | deliver (c : Cmd) (m : Nat) (v : Word) (msg : BitVec 448)
  | reply (c : Cmd) (w : Word)
deriving DecidableEq, Repr

/-- A mailbox (R408, R409): `due` says that the notify register became non-zero and the action for that has still to be taken;
`packet` holds the chained entries of a packet that has not been read to its end, and `bad` says how many entries may still follow
of a packet that is rejected (R415). -/
structure Mailbox where
  notify : Word := 0
  ring : Word := 0
  rsz : Nat := 4
  prod : BitVec 32 := 0
  cons : BitVec 32 := 0
  assign : Option MbxAssign := none
  waiters : List Nat := []
  due : Bool := false
  packet : List PacketEntry := []
  bad : Nat := 0
deriving DecidableEq, Repr

/-- A partition's configuration (R416). -/
structure PartCfg where
  leased : Bool := false
  notify : Bool := false
  slice : Nat := 0
  cores : BitVec 128 := 0
  root1 : Nat := 0
  root2 : Nat := 0
  stage2 : Bool := false
  privBase : Word := 0
  logS : Nat := 12
  ws : Nat := 0
  backing : Nat := 0
  ctxBase : Nat := 0
  vector : Word := 0
  pools : List (Nat × Nat) := []
  events : Word := 0
  pageReqs : Word := 0
deriving DecidableEq, Repr

/-- Where a launch stands (R417): its ranges are being made resident, it waits for lease numbers, or its records are seeded. -/
inductive LaunchStage | residency | leases | seeding
deriving DecidableEq, Repr

/-- An unfinished launch (R417): its tag, the addresses of its records, those read and not yet seeded, its quota, its lease numbers
and its ranges, and how many of its records have been seeded. -/
structure Launch where
  tag : BitVec 16
  addrs : List (Word × Bool)
  recs : List Rec := []
  quota : Nat
  ranges : List (Word × Word)
  leases : List Nat := []
  stage : LaunchStage := .residency
  dealt : Nat := 0
deriving DecidableEq, Repr

/-- An outstanding page request (R346). -/
structure PageReq where
  tag : Nat
  page : Nat
  stage2 : Bool
  acc : Nat
  core : Nat
  slot : Nat
deriving DecidableEq, Repr

/-- A contract (R359, R361), in cycles of the anchor cluster: the budget left in the period, the start of the period, and since when
the budget is being charged. -/
structure Contract where
  period : Nat
  budget : Nat
  notify : Bool
  left : Nat
  start : Nat
  since : Option Nat := none
deriving DecidableEq, Repr

/-- Record mode of a partition (R362, R363). -/
inductive RecMode | off | record | replay
deriving DecidableEq, Repr

/-- A PART.STOP or PART.EXPORT in progress (R419, R421), with the image area of an export. -/
structure Ending where
  cmd : Cmd
  area : Option (Nat × Nat)
deriving DecidableEq, Repr

/-- A partition (R7): its configuration; whether it runs; its launches, page requests and contract; whether it is halted in place by
its budget (R361) or by a replay that diverged (R363); record and replay (R362, R363); notify writes held in replay; whether it has
been exported (R421); the swap that Matins has commanded (R361), the reason that last took its cores away (R357) and when it came to
hold them; a stop or an export in progress; the tags and lease numbers of completed launches whose records have not all ended (R344);
and the port at which an event matched no remaining entry of its log (R363); its job (R7, log 74); and the physical addresses of the 4 KiB
pages of its context buffers, two for each core, which stay as PART.CFG found them (R351). -/
structure Part where
  cfg : Option PartCfg := none
  running : Bool := false
  launches : List Launch := []
  pageReqs : List PageReq := []
  contract : Option Contract := none
  inPlace : Bool := false
  diverged : Bool := false
  mode : RecMode := .off
  traceLog : Nat := 0
  mbxLog : Nat := 0
  logged : Tab Nat := []
  heldSince : Tab Nat := []
  mbxSeq : Nat := 0
  heldNotify : List (Nat × Word) := []
  exported : Bool := false
  swapTo : Option (Nat × Nat) := none
  away : Nat := 0
  since : Nat := 0
  ending : Option Ending := none
  closing : List (BitVec 16 × List Nat) := []
  stray : Option Nat := none
  job : Nat := 0
  ctxPages : List Nat := []
deriving DecidableEq, Repr

/-- An operation of this device that its target has not acknowledged (R374, R375): where it goes, its number, its packets, the
slot it serves with that slot's partition, its reply tag or its place in the fire-and-forget count, the rank, its job and the blocks it
names (R372, R382), whether it has been sent and when, its resends, refusals and reservations (R388), the local bytes of a bulk read with
those received, and whether a "moved" answer waits for its rank to be resolved again (R373). -/
structure RemOp where
  dst : Nat
  reply : Bool := false
  seq : Nat := 0
  part : Nat
  packets : List Packet
  thread : Option Nat := none
  mine : Option Nat := none
  tag : Option (Fin 8) := none
  counted : Bool := false
  len : Option Word := none
  rank : Nat := 0
  job : Nat := 0
  blks : List Nat := []
  sent : Bool := false
  sentAt : Nat := 0
  resends : Nat := 0
  moved : Bool := false
  refusals : Tab Nat := []
  backoff : Option Nat := none
  granted : Tab Nat := []
  pieces : List (Nat × Nat) := []
  parked : Bool := false
deriving DecidableEq, Repr

/-- The numbers a target has seen from one device on one lane, and how it answered the completed ones (R374). -/
structure Window where
  dev : Nat
  lane : Bool
  high : Nat
  done : List (Nat × Packet)
deriving DecidableEq, Repr

/-- States of a proxy page (R391). -/
inductive PageState | pi | ps | px | pw
deriving DecidableEq, Repr

/-- A frame bound by RBIND (R390, R391, R394). -/
structure Frame where
  home : Bool
  rank : Nat
  job : Nat := 0
  remote : Word
  st : PageState := .pi
  sharers : List Nat := []
  all : Bool := false
  owner : Option Nat := none
  asked : Bool := false
  excl : Bool := false
  phase : Nat := 0
  got : List (Nat × Nat) := []
  left : List Nat := []
  requests : List Packet := []
  recalls : List Packet := []
  fresh : Bool := false
  append : Bool := false
  tail : Nat := 0
  failed : Bool := false
  va : Word := 0
  unbind : Bool := false
deriving DecidableEq, Repr

/-- bs.state (R429). -/
inductive BootState | starting | ready | recovery | d3hot | off
deriving DecidableEq, Repr

/-- Boot status, Vesper and start-up (R428 to R431). -/
structure Boot where
  st : BootState := .starting
  fail : Nat := 0
  warm : Bool := false
  fc : Nat := 0
  recovery : Word := 0
  vesper : Bool := false
  matinsHash : BitVec 256 := 0
  gargHash : BitVec 256 := 0
  sv : Nat := 0
  patches : List (Nat × BitVec 32) := []
  failedPorts : BitVec 24 := 0
deriving DecidableEq, Repr

/-- The attestation page (R432). -/
structure Attest where
  nonce : Vector Word 4 := Vector.replicate 4 0
  report : Word := 0
  request : Bool := false
  done : Bool := false
deriving DecidableEq, Repr

/-- Telemetry (R437): the last sample, the address of the last uncorrectable error, the disabled ports, the throttle level now
(R436) and as last sampled, and the error counts. -/
structure Tele where
  sample : Option Telemetry := none
  ulog : Nat := 0
  ports : Word := 0
  level : Fin 4 := 0
  thr : Fin 4 := 0
  uerr : Nat := 0
  cerr : Nat := 0
deriving DecidableEq, Repr

/-- A barrier message on the mesh (R150): target core, barrier number, rectangle, and what it is. -/
inductive BarKind | arrivalEast | arrivalBelow | release
deriving DecidableEq, Repr

/-- A barrier message (R150), with the partition whose cores it goes between. -/
structure BarMsg where
  part : Option Nat
  dst : Nat
  n : Fin 8
  rect : BitVec 22
  kind : BarKind
deriving DecidableEq, Repr

/-- A stolen record in transit (R135). -/
structure Transit where
  thief : Nat
  victim : Nat
  rcd : Rec
deriving DecidableEq, Repr

/-- A share that waits at a die's root (R139): the partition, the issuing core, the range, and the physical address of its join cell. -/
structure Share where
  part : Nat
  die : Nat
  core : Nat
  rcd : Rec
  cell : Option Nat := none
deriving DecidableEq, Repr

/-- What stands beside the bytes of a partition image (R421, R356): the contexts of its cores, of which the bytes hold what R356 names, by the
image's address (log 53). -/
structure Image where
  area : Nat
  ctxs : List CoreCtx
deriving DecidableEq, Repr

/-- What happens next (log 3): a slot issues, an event of the opcode table occurs, the host answers a BISnpInv for a line with BIRspI,
which says whether it held the line (R405), or Matins reads an entry of a mailbox that is no command (R412). -/
inductive Input | issue (t : Nat) | event (i : Instr) | biRspI (pa : Nat) (held : Bool) | badEntry (m : Nat)
deriving DecidableEq, Repr

/-- The machine. `served` is the mailbox that Matins served last; it starts so that mailbox 0 is the first (R411, log 1). -/
structure State where
  slots : Tab Slot := []
  cores : Tab Core := []
  clusters : Tab Cluster := []
  procs : Tab Proc := []
  mem : Memory := []
  poisoned : List Nat := []
  regions : Tab (BitVec 256) := []
  net : List Msg := []
  qmsgs : List (Nat × Packet) := []
  mcasts : Tab Mcast := []
  hdmBase : Nat := 0
  hdmSize : Nat := 0
  biasTab : Nat := 0
  hostOps : List HostOp := []
  takes : List Take := []
  hostOut : List HostOut := []
  posted : Nat := 0
  mailboxes : Tab Mailbox := []
  served : Nat := 255
  pfRing : Word := 0
  ringPos : Tab Nat := []
  parts : Tab Part := []
  devNum : Nat := 0
  routes : Tab (BitVec 32) := []
  ranks : Tab (BitVec 32) := []
  nextSeq : Tab Nat := []
  remOps : List RemOp := []
  windows : List Window := []
  packets : List Packet := []
  atTarget : List Packet := []
  sent : List (Nat × Packet) := []
  reserved : List (Packet × Nat) := []
  frames : Tab Frame := []
  boot : Boot := {}
  attest : Attest := {}
  tele : Tele := {}
  halted : Bool := false
  shares : List Share := []
  transit : List Transit := []
  barMsgs : List BarMsg := []
  images : List Image := []
  deferred : Bool := false
  heldAt : Option (Nat × Nat × Bool) := none
  cur : Nat := 0
  inputs : List Input := []
  free : Nat := 0
  time : Nat := 0
deriving DecidableEq, Repr

/-- Why the machine stops with a fault. -/
inductive Fault
  /-- a device that an uncorrectable error or its temperature has stopped, or that power has left (R434, R436, R435), takes no
  further step until it is started again; raised by step only; safe -/
  | deviceStopped
deriving DecidableEq, Repr

/-- Why an instruction has no meaning. -/
inductive Refusal
  /-- not modelled yet; raised by exec's arms only; safe -/
  | notModelled (mnemonic : String)
deriving DecidableEq, Repr

/-- What a meaning answers. -/
abbrev Out := Host.Outcome State Fault Refusal

/-- The machine right after reset (R15, R428): every register at its reset value (log 1), memory with nothing listed (log 5),
and the boot status at starting, so that the first step is the boot ROM's (R428, log 4). -/
def State.reset : State := {}

end Sys2Proof.Machine
end

