-- ==== Sys2Proof/Machine/Operands.lean ====
section
/-! DEFINITION. Tables, memory bytes, blocks, bit fields and operand forms: the pure helpers every meaning is written over. -/

namespace Sys2Proof.Machine

/-! ## Tables -/

/-- The value of a key, if listed. -/
def look {α : Type} (k : Nat) : Tab α → Option α
  | [] => none
  | (k', v) :: t => if k = k' then some v else look k t

/-- The table with the key removed. -/
def drop {α : Type} (k : Nat) : Tab α → Tab α
  | [] => []
  | (k', v) :: t => if k = k' then t else (k', v) :: drop k t

/-- The table with the key at the value, keys rising. -/
def put {α : Type} (k : Nat) (v : α) : Tab α → Tab α
  | [] => [(k, v)]
  | (k', v') :: t => if k < k' then (k, v) :: (k', v') :: t else if k = k' then (k, v) :: t else (k', v') :: put k v t

/-! ## Memory -/

/-- Whether keys rise strictly from a bound and no byte is zero. -/
def Memory.wfFrom : Nat → Memory → Bool
  | _, [] => true
  | lo, (a, b) :: t => lo ≤ a && b != 0 && Memory.wfFrom (a + 1) t

/-- The canonical form of a memory: addresses strictly rising, no zero byte listed. -/
def Memory.wf (m : Memory) : Bool := Memory.wfFrom 0 m

/-- The byte at an address; zero where nothing is listed (log 5). -/
def Memory.rd (m : Memory) (a : Nat) : Byte := (look a m).getD 0

/-- The memory with a byte written, in canonical form. -/
def Memory.wr (m : Memory) (a : Nat) (b : Byte) : Memory := if b = 0 then m.filter (fun x => x.1 != a) else put a b m

/-- `n` bytes from an address upward. -/
def Memory.bytes (m : Memory) (a : Nat) : Nat → List Byte
  | 0 => []
  | n + 1 => m.rd a :: Memory.bytes m (a + 1) n

/-- The memory with bytes written from an address upward. -/
def Memory.wrBytes (m : Memory) (a : Nat) : List Byte → Memory
  | [] => m
  | b :: t => Memory.wrBytes (m.wr a b) (a + 1) t

/-- A little-endian value of `n` bytes (R25). -/
def Memory.le (m : Memory) (a n : Nat) : Nat := leNat (m.bytes a n)

/-- A 64-bit word (R25). -/
def Memory.word (m : Memory) (a : Nat) : Word := BitVec.ofNat 64 (m.le a 8)

/-- A 64-bit word written (R25). -/
def Memory.wrWord (m : Memory) (a : Nat) (x : Word) : Memory := m.wrBytes a (leBytes 8 x.toNat)

/-- A 64-byte block (R25). -/
def Memory.block (m : Memory) (a : Nat) : Block := BitVec.ofNat 512 (m.le a 64)

/-- A 64-byte block written (R25). -/
def Memory.wrBlock (m : Memory) (a : Nat) (b : Block) : Memory := m.wrBytes a (leBytes 64 b.toNat)

/-- `n` zero bytes from an address upward. -/
def Memory.clear (m : Memory) (a n : Nat) : Memory := m.filter fun c => !(a ≤ c.1 && c.1 < a + n)

/-! ## Blocks -/

/-- Bytes of a mask between two offsets. -/
def maskRange (lo n : Nat) : BitVec 64 := BitVec.ofNat 64 ((2 ^ n - 1) * 2 ^ lo)

/-- Byte i of a block. -/
def blkByte (b : Block) (i : Nat) : Byte := b.extractLsb' (8 * i) 8

/-- Bytes of a block from an offset. -/
def blkBytes (b : Block) (i : Nat) : Nat → List Byte
  | 0 => []
  | n + 1 => blkByte b i :: blkBytes b (i + 1) n

/-- The block whose bytes are those of a list, zero beyond it. -/
def blkOf (l : List Byte) : Block := BitVec.ofNat 512 (leNat l)

/-- Bytes of `new` where the mask is set, of `old` elsewhere. -/
def blkMerge (old new : Block) (mask : BitVec 64) : Block :=
  blkOf ((List.range 64).map fun i => if mask.getLsbD i then blkByte new i else blkByte old i)

/-- The block with `n` bytes from offset `lo` replaced. -/
def blkPut (b : Block) (lo : Nat) (l : List Byte) : Block :=
  blkMerge b (blkOf (List.replicate lo 0 ++ l)) (maskRange lo l.length)

/-- Bytes of a block written to memory under a mask. -/
def Memory.wrMask (m : Memory) (a : Nat) (b : Block) (mask : BitVec 64) : Memory :=
  (List.range 64).foldl (fun m i => if mask.getLsbD i then m.wr (a + i) (blkByte b i) else m) m

/-! ## Bit fields -/

/-- Bits [hi:lo] of a word as a number. -/
def bits (x : Word) (hi lo : Nat) : Nat := fld x.toNat lo (hi + 1 - lo)

/-- A single bit. -/
def bitOf (x : Word) (i : Nat) : Bool := x.getLsbD i

/-- The word with bits [hi:lo] replaced. -/
def setBits (x : Word) (hi lo v : Nat) : Word :=
  let w := hi + 1 - lo
  BitVec.ofNat 64 (x.toNat - fld x.toNat lo w * 2 ^ lo + v % 2 ^ w * 2 ^ lo)

/-- A number as a signed value of `w` bits. -/
def toSigned (w x : Nat) : Int := if x % 2 ^ w < 2 ^ (w - 1) then (x % 2 ^ w : Int) else (x % 2 ^ w : Int) - (2 ^ w : Int)

/-- A value of `w` bits sign-extended to 64 bits. -/
def sext (w x : Nat) : Word := BitVec.ofInt 64 (toSigned w x)

/-- A Bool as a word. -/
def boolWord (b : Bool) : Word := if b then 1 else 0

/-- Size in bytes (R31). -/
def bytesOf : Size → Nat
  | .b => 1 | .h => 2 | .w => 4 | .d => 8

/-- Replace a bound's default in an option list. -/
def setAt {α : Type} (l : List α) (i : Nat) (x : α) : List α := l.set i x

/-- A number kept inside a table of registers. -/
def reg (n : Nat) : Reg := Fin.ofNat 32 n

/-! ## Places (R6) -/

/-- Mesh column of a logical core. -/
def meshX (c : Nat) : Nat := c % 32
/-- Mesh row of a logical core. -/
def meshY (c : Nat) : Nat := c / 32
/-- Cluster number of a logical core. -/
def clusterOf (c : Nat) : Nat := meshY c / 4 * 8 + meshX c / 4
/-- Die number of a logical core. -/
def dieOf (c : Nat) : Nat := (if 16 ≤ meshX c then 1 else 0) + (if 32 ≤ meshY c then 2 else 0)
/-- Die number of a cluster. -/
def dieOfCluster (k : Nat) : Nat := (if 4 ≤ k % 8 then 1 else 0) + (if 64 ≤ k then 2 else 0)
/-- The sixteen cores of a cluster, in ascending order. -/
def coresOf (k : Nat) : List Nat :=
  (List.range 16).map fun i => (k / 8 * 4 + i / 4) * 32 + k % 8 * 4 + i % 4
/-- Insert a number into an ascending list. -/
def insertAsc (n : Nat) : List Nat → List Nat
  | [] => [n]
  | x :: l => if n ≤ x then n :: x :: l else x :: insertAsc n l
/-- A list of numbers in ascending order. -/
def ascending (l : List Nat) : List Nat := l.foldr insertAsc []
/-- Number of a protocol processor's agent. -/
def procAgent (p : Nat) : Nat := 0x800 + p
/-- The thread of a slot. -/
def threadOf (agent slot : Nat) : Nat := agent * 16 + slot

/-! ## Header fields (R80) -/

/-- A message's header word (R80). -/
def header (type : Nat) (lane : Bool) (slot core dev tag len user : Nat) : Word :=
  BitVec.ofNat 64 (type % 32 + bit lane * 2 ^ 5 + slot % 16 * 2 ^ 6 + core % 2 ^ 11 * 2 ^ 10 + dev % 2 ^ 10 * 2 ^ 21 +
    tag % 2 ^ 8 * 2 ^ 31 + len % 2 ^ 6 * 2 ^ 39 + user % 2 ^ 19 * 2 ^ 45)

/-- type of R80 -/
def Msg.type (m : Msg) : Nat := bits m.w[0] 4 0
/-- lane of R80: true for the reply lane -/
def Msg.lane (m : Msg) : Bool := bitOf m.w[0] 5
/-- slot of R80 -/
def Msg.slot (m : Msg) : Nat := bits m.w[0] 9 6
/-- core of R80 -/
def Msg.core (m : Msg) : Nat := bits m.w[0] 20 10
/-- dev of R80 -/
def Msg.dev (m : Msg) : Nat := bits m.w[0] 30 21
/-- tag of R80 -/
def Msg.tag (m : Msg) : Nat := bits m.w[0] 38 31
/-- addr of R80 -/
def Msg.addr (m : Msg) : Nat := (m.w[1]).toNat
/-- 64-byte block of addr -/
def Msg.blk (m : Msg) : Nat := m.addr / 64

/-- The requester word of a message's sender (R220). -/
def Msg.requester (m : Msg) : Nat := m.src % 2 ^ 12 + m.slot * 2 ^ 12 + m.tag * 2 ^ 16 + m.dev * 2 ^ 24

/-- Scopes from narrow to wide (R188). -/
def scopeRank : Scope → Nat
  | .core => 0 | .clu => 1 | .die => 2 | .pkg => 3 | .job => 4 | .sys => 5

/-- The scope of a record's domain (R141). -/
def domainScope (d : Nat) : Scope :=
  match d with | 0 => .core | 1 => .clu | 2 => .die | _ => .pkg

/-- Domain bits of a record (R130). -/
def Rec.domain (r : Rec) : Nat := bits r.join 1 0
/-- Urgent bit of a record (R130). -/
def Rec.urgent (r : Rec) : Bool := bitOf r.join 2
/-- Join-cell address of a record (R130). -/
def Rec.cell (r : Rec) : Word := r.join &&& ~~~(63 : Word)

/-- The 64 bytes of a deque entry, as 8 words (R130). -/
def Rec.words (r : Rec) : List Word :=
  match r.range with
  | none => [r.code, r.frame, r.arg, r.join, 0, 0, 0, 0]
  | some (lo, hi, g) => [r.code, r.frame, r.arg, r.join, lo, hi, g, 0]

end Sys2Proof.Machine
end

