-- ==== Sys2Proof/Machine/Base.lean ====
section
/-! DEFINITION. Accessors of the state: slots, cores, clusters, processors, partitions, registers, messages sent, free values,
and the event rings of the host. -/

namespace Sys2Proof.Machine

/-! ## Parts of the machine -/

/-- A thread slot; one never touched is at reset. -/
def State.slot (s : State) (t : Nat) : Slot := (look t s.slots).getD {}
/-- Set a thread slot. -/
def State.setSlot (s : State) (t : Nat) (x : Slot) : State := { s with slots := put t x s.slots }
/-- Change a thread slot. -/
def State.updSlot (s : State) (t : Nat) (f : Slot → Slot) : State := s.setSlot t (f (s.slot t))
/-- A core. -/
def State.core (s : State) (c : Nat) : Core := (look c s.cores).getD {}
/-- Set a core. -/
def State.setCore (s : State) (c : Nat) (x : Core) : State := { s with cores := put c x s.cores }
/-- Change a core. -/
def State.updCore (s : State) (c : Nat) (f : Core → Core) : State := s.setCore c (f (s.core c))
/-- A cluster. -/
def State.cluster (s : State) (k : Nat) : Cluster := (look k s.clusters).getD {}
/-- Change a cluster. -/
def State.updCluster (s : State) (k : Nat) (f : Cluster → Cluster) : State :=
  { s with clusters := put k (f (s.cluster k)) s.clusters }
/-- A protocol processor. -/
def State.proc (s : State) (p : Nat) : Proc := (look p s.procs).getD {}
/-- Change a protocol processor. -/
def State.updProc (s : State) (p : Nat) (f : Proc → Proc) : State := { s with procs := put p (f (s.proc p)) s.procs }
/-- A partition. -/
def State.part (s : State) (p : Nat) : Part := (look p s.parts).getD {}
/-- Change a partition. -/
def State.updPart (s : State) (p : Nat) (f : Part → Part) : State := { s with parts := put p (f (s.part p)) s.parts }
/-- A mailbox. -/
def State.mailbox (s : State) (m : Nat) : Mailbox := (look m s.mailboxes).getD {}
/-- Change a mailbox. -/
def State.updMailbox (s : State) (m : Nat) (f : Mailbox → Mailbox) : State :=
  { s with mailboxes := put m (f (s.mailbox m)) s.mailboxes }

/-- Change a frame. -/
def updFrame (s : State) (page : Nat) (f : Frame → Frame) : State :=
  match look page s.frames with
  | some x => { s with frames := put page (f x) s.frames }
  | none => s

/-! ## The current thread -/

/-- Agent number of a thread: the logical core, or 0x800 plus the protocol processor. -/
def agentOf (t : Nat) : Nat := t / 16
/-- Slot number of a thread. -/
def slotOf (t : Nat) : Nat := t % 16
/-- Whether a thread is a slot of a compute core. -/
def onCore (t : Nat) : Bool := agentOf t < 0x800
/-- The current slot. -/
def State.me (s : State) : Slot := s.slot s.cur
/-- Change the current slot. -/
def State.updMe (s : State) (f : Slot → Slot) : State := s.updSlot s.cur f
/-- The current core's number (or the current processor's agent number). -/
def State.myCore (s : State) : Nat := agentOf s.cur
/-- The current cluster. -/
def State.myCluster (s : State) : Nat := clusterOf s.myCore

/-- A scalar register of a slot; s0 reads as zero (R11). -/
def Slot.rs (x : Slot) (r : Reg) : Word := if r = 0 then 0 else x.s[r]
/-- Write a scalar register; a write to s0 is discarded (R11). -/
def Slot.ws (x : Slot) (r : Reg) (v : Word) : Slot := if r = 0 then x else { x with s := x.s.set r v }
/-- A vector register (R11). -/
def Slot.rv (x : Slot) (r : Reg) : Block := x.v[r]
/-- Write a vector register (R11). -/
def Slot.wv (x : Slot) (r : Reg) (v : Block) : Slot := { x with v := x.v.set r v }

/-- A scalar register of the current slot. -/
def State.rd (s : State) (r : Reg) : Word := s.me.rs r
/-- Write a scalar register of the current slot. -/
def State.wr (s : State) (r : Reg) (v : Word) : State := s.updMe (·.ws r v)
/-- A vector register of the current slot. -/
def State.rdv (s : State) (r : Reg) : Block := s.me.rv r
/-- Write a vector register of the current slot. -/
def State.wrv (s : State) (r : Reg) (v : Block) : State := s.updMe (·.wv r v)

/-- Move a slot past an instruction of n bytes: it has completed, so nothing of it stays pending (R335, R347). -/
def Slot.past (x : Slot) (n : Nat) : Slot := { x with pc := x.pc + BitVec.ofNat 64 n, fresh := none, vprog := none, got := none }
/-- Move the current slot past an instruction of n bytes. -/
def State.past (s : State) (n : Nat) : State := s.updMe (·.past n)
/-- An instruction of n bytes completes. -/
def done (n : Nat) (s : State) : Out := .next (s.past n)
/-- An instruction of n bytes completes with a scalar result. -/
def result (n : Nat) (d : Reg) (v : Word) (s : State) : Out := .next ((s.wr d v).past n)
/-- An instruction of n bytes completes with a vector result. -/
def resultV (n : Nat) (d : Reg) (v : Block) (s : State) : Out := .next ((s.wrv d v).past n)
/-- The current slot leaves the rotation; its instruction re-executes when it is re-admitted (R104). -/
def wait (w : Wait) (s : State) : Out := .next (s.updMe fun x => { x with run := .waiting w })
/-- Re-admit a slot that waits (R104). -/
def State.wake (s : State) (t : Nat) : State :=
  s.updSlot t fun x => match x.run with | .waiting _ => { x with run := .active, redo := none } | _ => x
/-- The slots of an agent that satisfy a condition. -/
def State.slotsWhere (s : State) (agent : Nat) (f : Slot → Bool) : List Nat :=
  ((List.range 16).map (threadOf agent)).filter fun t => f (s.slot t)
/-- Re-admit the slots of an agent whose wait satisfies a condition. -/
def State.wakeWhere (s : State) (agent : Nat) (f : Wait → Bool) : State :=
  (s.slotsWhere agent fun x => match x.run with | .waiting w => f w | _ => false).foldl State.wake s

/-! ## Free values -/

/-- A free choice. -/
def State.freeBool (s : State) : Bool × State := (Config.freeBool s.free, { s with free := s.free + 1 })
/-- A free word. -/
def State.freeWord (s : State) : Word × State := (Config.freeWord s.free, { s with free := s.free + 1 })
/-- A free number below a bound. -/
def State.freeBelow (s : State) (n : Nat) : Nat × State := (Config.freeNat s.free % n, { s with free := s.free + 1 })

/-! ## Time -/

/-- A cluster's clu.cycle (R17): it counts while the cluster's clock runs. -/
def State.cluCycle (s : State) (k : Nat) : Word :=
  let c := s.cluster k
  BitVec.ofNat 64 (match c.clock with | .running => c.held + (s.time - c.since) | .clockGated | .powerGated => c.held)

/-! ## Physical memory (R166) -/

/-- What a physical address names (R166). -/
inductive Place | hbm (die : Nat) | ddr | host | unbacked
deriving DecidableEq, Repr

/-- The place of a physical address (R166). -/
def place (pa : Nat) : Place :=
  if pa < 0x010000000000 then
    if pa % 0x004000000000 < 0x002CB4178000 then .hbm (pa / 0x004000000000) else .unbacked
  else if 0x8000000000000 ≤ pa then if pa < 0x10000000000000 then .host else .unbacked
  else if pa < 0x010000000000 + Config.ddrCap then .ddr
  else .unbacked

/-- Whether every byte of a range lies in backed memory of this device. -/
def backed (pa n : Nat) : Bool :=
  match place pa, place (pa + n - 1) with
  | .hbm a, .hbm b => a = b
  | .ddr, .ddr => true
  | _, _ => false

/-- Memory of this device or of the host (R240). -/
def backedOrHost (pa n : Nat) : Bool :=
  backed pa n || (match place pa, place (pa + n - 1) with | .host, .host => true | _, _ => false)

/-- Change memory. -/
def State.updMem (s : State) (f : Memory → Memory) : State := { s with mem := f s.mem }

/-! ## Regions (R212) -/

/-- Bits [hi:lo] of a region entry. -/
def rgBits (e : BitVec 256) (hi lo : Nat) : Nat := fld e.toNat lo (hi + 1 - lo)

/-- rg.proto -/
def rgProto (e : BitVec 256) : Nat := rgBits e 151 146
/-- rg.base as an address -/
def rgBase (e : BitVec 256) : Nat := rgBits e 51 12 * 4096
/-- size in bytes -/
def rgSize (e : BitVec 256) : Nat := 2 ^ rgBits e 141 136
/-- rg.hi -/
def rgHi (e : BitVec 256) : Nat := rgBits e 135 134
/-- rg.grain -/
def rgGrain (e : BitVec 256) : Nat := rgBits e 145 142
/-- rg.dir as an address -/
def rgDir (e : BitVec 256) : Nat := rgBits e 115 68 * 16
/-- rg.v -/
def rgValid (e : BitVec 256) : Bool := rgBits e 128 128 = 1
/-- rg.fail -/
def rgFail (e : BitVec 256) : Bool := rgBits e 129 129 = 1
/-- rg.op -/
def rgOp (e : BitVec 256) : Nat := rgBits e 159 152
/-- rg.parm -/
def rgParm (e : BitVec 256) : Word := BitVec.ofNat 64 (rgBits e 255 192)

/-- A region entry by its index. -/
def State.region (s : State) (i : Nat) : BitVec 256 := (look i s.regions).getD 0

/-- The valid region that holds a physical address, with its index (R212). -/
def State.regionOf (s : State) (pa : Nat) : Option (Nat × BitVec 256) :=
  s.regions.find? fun r => rgValid r.2 && rgBase r.2 ≤ pa && pa < rgBase r.2 + rgSize r.2

/-- The protocol of a physical address; direct, 0, where no valid entry covers it (R212). -/
def State.protoOf (s : State) (pa : Nat) : Nat := match s.regionOf pa with | some (_, e) => rgProto e | none => 0

/-- The home of a block of a valid region (R213, R390). -/
def homeIn (e : BitVec 256) (pa : Nat) : Nat :=
  let n := pa / 4096
  if rgProto e = 8 then 48 + n % 24 else
  match rgHi e with
  | 0 => (match place pa with | .hbm d => 12 * d + n % 12 | _ => n % 12)
  | 1 => n % 48
  | 2 => 73 + n % 4
  | _ => 72

/-- The protocol processor that serves a physical address: its home in a region, and where no region covers it the processor of
the memory controller that holds it, or the host processor (R166, R213). -/
def State.homeOf (s : State) (pa : Nat) : Nat :=
  match s.regionOf pa with
  | some (_, e) => homeIn e pa
  | none =>
    let n := pa / 4096
    match place pa with
    | .hbm d => 12 * d + n % 12
    | .ddr => 73 + n % 4
    | .host => 72
    | .unbacked => n % 48

/-! ## Pages of the HDM window (R402, R403) -/

/-- Whether an address lies in the HDM-DB window (R402). -/
def inWindow (s : State) (pa : Nat) : Bool := s.hdmSize != 0 && s.hdmBase ≤ pa && pa < s.hdmBase + s.hdmSize

/-- The byte and the bit of a page in the bias table (R402). -/
def biasPlace (s : State) (pa : Nat) : Nat × Nat := let i := (pa - s.hdmBase) / 4096; (s.biasTab + i / 8, i % 8)

/-- A page of the window is in host bias (R403). -/
def hostBias (s : State) (pa : Nat) : Bool := let (a, b) := biasPlace s pa; (s.mem.rd a).getLsbD b

/-- Whether the device answers the host's and the fabric's accesses: in recovery only configuration space and BAR2 do (R429, R435). -/
def linkUp (s : State) : Bool := s.boot.st == .ready

/-- Whether a block is a line of host memory, whose home follows the host's directory too (R399). -/
def hostLine (pa : Nat) : Bool := place pa = .host

/-- Set a page's bias bit (R242). -/
def setBias (s : State) (pa : Nat) (host : Bool) : State :=
  let (a, b) := biasPlace s pa
  let x := s.mem.rd a
  s.updMem fun m => m.wr a (if host then x ||| ((1 : Byte) <<< b) else x &&& ~~~((1 : Byte) <<< b))

/-- A page of the window is in flight between the two (R403). -/
def pageInFlight (s : State) (pa : Nat) : Bool :=
  let page := pa / 4096 * 4096
  s.hostOps.any fun o => match o with | .toHost g => g = page | .toDevice g _ => g = page | _ => false

/-- A request of the device starts a flip to device bias (R405). -/
def askDevice (s : State) (pa : Nat) : State :=
  if !hostBias s pa || pageInFlight s pa then s else { s with hostOps := s.hostOps ++ [.toDevice (pa / 4096 * 4096) none] }

/-- Whether a direct access meets a window page that is the host's (R403). -/
def biasAway (s : State) (pa : Nat) : Bool := inWindow s pa && (hostBias s pa || pageInFlight s pa)

/-! ## Messages -/

/-- Post a message (R209, R211). -/
def State.post (s : State) (m : Msg) : State := { s with net := s.net ++ [m] }

/-- Whether two messages concern one directory entry (R219, R222). -/
def State.sameEntry (s : State) (a b : Msg) : Bool :=
  a.blk = b.blk || (match s.regionOf a.addr, s.regionOf b.addr with
    | some (i, e), some (j, _) => i = j && (a.addr - rgBase e) / 2 ^ (6 + rgGrain e) = (b.addr - rgBase e) / 2 ^ (6 + rgGrain e)
    | _, _ => false)

/-- Message k, when it may be delivered now: no earlier one of its pair of agents and lane is still in the network (R211), and none that
waits in the input queues of its processor for the same entry has reached it before (R222). -/
def State.deliverable (s : State) (k : Nat) : Option Msg :=
  match s.net[k]? with
  | none => none
  | some m =>
    if m.arrived = 0 && (s.net.take k).any (fun x => x.src = m.src && x.dst = m.dst && x.lane = m.lane && x.arrived = 0) then none
    else if s.net.any fun x => x.arrived != 0 && x.dst = m.dst && x.lane = m.lane && (m.arrived = 0 || x.arrived < m.arrived) && s.sameEntry x m
    then none else some m

/-- Message k has reached its processor and waits in its lane's input queue (R222). -/
def State.queued (s : State) (k : Nat) : State :=
  match s.net[k]? with
  | none => s
  | some m => if m.arrived != 0 then s else
    { s with net := s.net.set k { m with arrived := 1 + s.net.foldl (fun n x => Nat.max n x.arrived) 0 } }

/-- Remove message k. -/
def State.unpost (s : State) (k : Nat) : State := { s with net := s.net.eraseIdx k }

/-! ## Event rings of the host (R413, R414) -/

/-- Append an entry to a host ring (bits [51:6] base, bits [3:0] log2 entries) at its position, and signal MSI-X; an address of 0 names no
ring. -/
def State.ringWrite (s : State) (ring : Word) (key fn vec size : Nat) (ws : List Word) : State :=
  if bits ring 51 6 = 0 then s else
  let pos := (look key s.ringPos).getD 0
  let base := 2 ^ 51 + bits ring 51 6 * 64
  let a := base + pos % 2 ^ bits ring 3 0 * size
  let m := (List.range (size / 8)).foldl (fun m i => m.wrWord (a + 8 * i) (ws.getD i 0)) s.mem
  { s with mem := m, ringPos := put key (pos + 1) s.ringPos, hostOut := s.hostOut ++ [.msix fn vec], posted := s.posted + 1 }

/-- An event entry for a function: `none` is the physical function (R413). -/
def State.hostEvent (s : State) (fn : Option Nat) (type status tag : Nat) (ws : List Word) : State :=
  let w0 := BitVec.ofNat 64 (type + status * 2 ^ 8 + tag % 2 ^ 16 * 2 ^ 32)
  match fn with
  | none => s.ringWrite s.pfRing 1000 16 0 64 (w0 :: ws)
  | some p =>
    match (s.part p).cfg with
    | none => s
    | some c => s.ringWrite c.events p p 0 64 (w0 :: ws)

/-- The partition that runs on a core (R7). -/
def State.partOf (s : State) (c : Nat) : Option Nat := (s.cluster (clusterOf c)).part

/-- The configuration of the partition that runs on a core. -/
def State.cfgOf (s : State) (c : Nat) : Option PartCfg := (s.partOf c).bind fun p => (s.part p).cfg

/-- Whether two configured partitions share a core set: the partner of a pair (R353). -/
def State.partner (s : State) (p : Nat) : Option Nat :=
  (s.part p).cfg.bind fun c =>
    (List.range 16).find? fun q => q != p && (match (s.part q).cfg with | some d => d.cores == c.cores | none => false)

/-- The cores of a partition, in ascending order. -/
def coreSet (c : PartCfg) : List Nat :=
  ascending (((List.range 128).filter fun k => c.cores.getLsbD k).flatMap coresOf)

/-- The clusters of a partition, in ascending order. -/
def clusterSet (c : PartCfg) : List Nat := (List.range 128).filter fun k => c.cores.getLsbD k

/-- The base in the local store, in 16 KiB units, of the half a core's partition sees, and the units of that half: the whole
store when its partition has no partner (R353). -/
def State.half (s : State) (c : Nat) : Nat × Nat :=
  match s.partOf c with
  | none => (0, 12)
  | some p => match s.partner p with
    | none => (0, 12)
    | some q => if p < q then (0, 6) else (6, 6)

/-- Size in bytes of a core's scratchpad (R18, R158, R353): the highest unit of the store loses 2 KiB to the queues. -/
def State.spSize (s : State) (c : Nat) : Nat :=
  let (b, u) := s.half c
  let sp := Nat.min (s.core c).lsSplit.val u
  if b + sp = 12 then sp * 0x4000 - 0x800 else sp * 0x4000

/-- Size in bytes of a core's stash (R18, R161). -/
def State.stashSize (s : State) (c : Nat) : Nat :=
  let (b, u) := s.half c
  let n := (u - Nat.min (s.core c).lsSplit.val u) * 0x4000
  if b + u = 12 && n != 0 then n - 0x800 else n

/-- Size in bytes of the weight buffer that a core's partition sees: half of it when the partition has a partner (R353). Each
partition's bytes are kept from offset 0. -/
def State.wbSize (s : State) (c : Nat) : Nat := if (s.half c).2 = 6 then 0x8000 else 0x10000

/-- Physical local-store offset of a scratchpad offset (R353). -/
def State.spOffset (s : State) (c o : Nat) : Nat := (s.half c).1 * 0x4000 + o

/-- Physical offset in cluster memory of a window offset (R353). -/
def State.winOffset (s : State) (c o : Nat) : Nat :=
  match s.partOf c with
  | none => o
  | some p => match s.partner p with
    | none => o
    | some q => if p < q then o else o + 4 * 0x40000

/-! ## Where a partition's contexts stand (R355, R356) -/

/-- Whether a partition has its context in a cluster's cores. -/
def inPlaceAt (s : State) (p k : Nat) : Bool := (s.cluster k).part == some p

/-- The contexts of a partition that stand in a cluster's shadow store; those never written are initial ones (R356). -/
def shadowCtxs (s : State) (p k : Nat) : List CoreCtx :=
  match (s.cluster k).shadow with
  | some (q, l) => if q = p then l else List.replicate 16 { slots := List.replicate 16 {}, core := {} }
  | none => List.replicate 16 { slots := List.replicate 16 {}, core := {} }

/-- A core of a partition, where its context stands. -/
def coreOfPart (s : State) (p c : Nat) : Core :=
  if inPlaceAt s p (clusterOf c) then s.core c
  else match (shadowCtxs s p (clusterOf c))[(coresOf (clusterOf c)).idxOf c]? with
    | some x => x.core
    | none => {}

/-- Change a core of a partition, where its context stands. -/
def updCoreOf (s : State) (p c : Nat) (f : Core → Core) : State :=
  let k := clusterOf c
  if inPlaceAt s p k then s.updCore c f
  else s.updCluster k fun x => { x with
    shadow := some (p, (shadowCtxs s p k).modify ((coresOf k).idxOf c) fun y => { y with core := f y.core }) }

/-- The slots of a core of a partition, where their contexts stand. -/
def slotsOfPart (s : State) (p c : Nat) : List Slot :=
  if inPlaceAt s p (clusterOf c) then (List.range 16).map fun i => s.slot (threadOf c i)
  else match (shadowCtxs s p (clusterOf c))[(coresOf (clusterOf c)).idxOf c]? with
    | some x => x.slots
    | none => []

/-- Change every slot of a partition, where its context stands. -/
def updSlotsOf (s : State) (p c : Nat) (f : Slot → Slot) : State :=
  let k := clusterOf c
  if inPlaceAt s p k then (List.range 16).foldl (fun s i => s.updSlot (threadOf c i) f) s
  else s.updCluster k fun x => { x with
    shadow := some (p, (shadowCtxs s p k).modify ((coresOf k).idxOf c) fun y => { y with slots := y.slots.map f }) }

/-- Append an entry to a trace ring that is on (R201). -/
def Trace.add (r : Trace) (addr len slot core dev : Nat) (gnt : Bool) (part : Option Nat) : Trace :=
  if r.on then { r with seq := r.seq + 1, entries := r.entries ++ [⟨addr, r.seq % 2 ^ 32, len, slot, core, dev, gnt, part⟩] } else r

end Sys2Proof.Machine
end

