-- ==== Sys2Proof/Machine/Translate.lean ====
section
/-! DEFINITION. Generic pointers and the checks of an address (spec/07 R156 to R160), translation in two stages, TLBs, leases and
page requests (spec/15 R336 to R347). -/

namespace Sys2Proof.Machine

/-- Trap causes (R332). -/
def Cause.illegalOp : Cause := 0x01
def Cause.priv : Cause := 0x02
def Cause.misalign : Cause := 0x03
def Cause.fetchFault : Cause := 0x04
def Cause.loadFault : Cause := 0x05
def Cause.storeFault : Cause := 0x06
def Cause.spaceForeign : Cause := 0x07
def Cause.clusterForeign : Cause := 0x08
def Cause.writeAfterSeal : Cause := 0x09
def Cause.tailRead : Cause := 0x0A
def Cause.leaseViolation : Cause := 0x0C
def Cause.atomicUnsupported : Cause := 0x0D
def Cause.protocolFail : Cause := 0x0E
def Cause.engineFault : Cause := 0x0F
def Cause.illegalOperand : Cause := 0x10
def Cause.illegalFormat : Cause := 0x11
def Cause.syscall : Cause := 0x12
def Cause.break : Cause := 0x13
def Cause.preempt : Cause := 0x14
def Cause.mailbox : Cause := 0x15
def Cause.rankFault : Cause := 0x16
def Cause.remoteError : Cause := 0x17
def Cause.watchdog : Cause := 0x18
def Cause.doubleFault : Cause := 0x1A

/-- Kinds of access (R25, R332). -/
inductive Kind | fetch | load | store
deriving DecidableEq, Repr

/-- The fault of an access's kind (R159, R338). -/
def Kind.cause : Kind → Cause
  | .fetch => .fetchFault
  | .load => .loadFault
  | .store => .storeFault

/-! ## Generic pointers -/

/-- Canonical: bits [63:57] all equal bit 56 (R25). -/
def canonical (a : Word) : Bool := fld a.toNat 56 8 = 0 || fld a.toNat 56 8 = 255

/-- The space a generic pointer names; `none` when it is invalid (R156). -/
def spaceOf (a : Word) : Option SpaceSel :=
  let n := a.toNat
  match fld n 56 8 with
  | 0xFC => some .prv
  | 0xFD => if fld n 55 1 = 0 ∧ fld n 21 27 = 0 then some .clu else none
  | 0xFE => if fld n 18 27 = 0 then some .spd else none
  | _ => if canonical a then some .glb else none

/-- The offset a pointer holds within its space (R156, R185). -/
def offsetOf (a : Word) : Nat :=
  match spaceOf a with
  | some .prv => fld a.toNat 0 56
  | some .clu => fld a.toNat 0 21
  | some .spd => fld a.toNat 0 18
  | _ => a.toNat

/-- SPACE.TEST (R184) by a core. -/
def spaceTest (core : Nat) (a : Word) : Word :=
  match spaceOf a with
  | some .glb => 0
  | some .prv => 1
  | some .spd => if fld a.toNat 45 11 = core then 2 else 2 + 256
  | some .clu => if fld a.toNat 48 7 = clusterOf core then 3 else 3 + 256
  | none => 4

/-- Where an access goes after the address steps: local store, cluster memory or a global virtual address (R159, R161). -/
inductive Target
  | ls (off : Nat)
  | cm (off : Nat)
  | glb (va : Word)
deriving DecidableEq, Repr

/-- A trap to be taken: cause and tr.val. -/
abbrev Trap := Cause × Word

/-- The address steps 1 to 4 of R159 for an access of n bytes by a slot of a core; `align` is the alignment the instruction
requires. The private space's va follows R157. -/
def checkAddr (s : State) (t : Nat) (k : Kind) (a : Word) (n align : Nat) : Except Trap Target :=
  let c := agentOf t
  match spaceOf a with
  | none => .error (k.cause, a)
  | some sp =>
    if a.toNat % align != 0 then .error (.misalign, a) else
    match sp with
    | .glb => .ok (.glb a)
    | .spd =>
      let o := offsetOf a
      if fld a.toNat 45 11 != c then .error (.spaceForeign, a)
      else if n != 0 && s.spSize c < o + n then .error (k.cause, a + BitVec.ofNat 64 (s.spSize c - o))
      else .ok (.ls (s.spOffset c o))
    | .clu =>
      let o := offsetOf a
      let size := match s.cfgOf c with | some g => g.ws * 0x40000 | none => 0
      if fld a.toNat 48 7 != clusterOf c then .error (.clusterForeign, a)
      else if n != 0 && size < o + n then .error (k.cause, a + BitVec.ofNat 64 (size - o))
      else .ok (.cm (s.winOffset c o))
    | .prv =>
      let o := offsetOf a
      match s.cfgOf c with
      | none => .error (k.cause, a)
      | some g =>
        if n != 0 && 2 ^ g.logS < o + n then .error (k.cause, a + BitVec.ofNat 64 (2 ^ g.logS - o))
        else .ok (.glb (g.privBase + BitVec.ofNat 64 (t * 2 ^ g.logS + o)))

/-! ## Walks -/

/-- Why a walk failed (R343): the stage, the level, pte.dm of the failing entry, not valid or malformed, and the address being
translated at that stage. -/
structure WalkFail where
  stage2 : Bool
  lvl : Nat
  dm : Bool
  malformed : Bool
  addr : Nat
deriving DecidableEq, Repr

/-- Bytes of a page by its size code (R336). -/
def pageBytes (sz : Nat) : Nat := if sz = 15 then 2 ^ 30 else 4096 * 2 ^ sz

/-- The leaf level of a size code (R336). -/
def leafLevel (sz : Nat) : Nat := if sz = 15 then 2 else if 9 ≤ sz then 1 else 0

/-- A walk of one stage, level by level (R336 to R338). `table` turns a table's address into a physical one (the stage-2 walk for
a stage-1 table); `leafPhys` says that the leaf yields a physical address, so that its page must be backed; the level is one less
than the argument. -/
def walkStage (m : Memory) (stage2 leafPhys : Bool) (table : Nat → Except WalkFail Nat) (a : Nat) :
    Nat → Nat → Except WalkFail Xlat
  | 0, _ => .error ⟨stage2, 0, false, true, a⟩
  | l + 1, tbl =>
    match table tbl with
    | .error e => .error e
    | .ok tpa =>
      if !backed tpa 4096 then .error ⟨stage2, Nat.min 4 (l + 1), false, true, a⟩ else
      let e := (m.word (tpa + 8 * fld a (12 + 9 * l) 9)).toNat
      let bad : Except WalkFail Xlat := .error ⟨stage2, l, fld e 53 1 = 1, true, a⟩
      let pa := fld e 12 40 * 4096
      if fld e 0 1 = 0 then .error ⟨stage2, l, fld e 53 1 = 1, false, a⟩
      else if fld e 1 1 = 0 then
        if fld e 2 6 != 0 || fld e 52 12 != 0 || l = 0 then bad
        else walkStage m stage2 leafPhys table a l pa
      else
        let sz := fld e 56 4
        if fld e 60 4 != 0 || fld e 6 1 != 0 || (fld e 3 1 = 1 && fld e 2 1 = 0) || leafLevel sz != l ||
            pa % pageBytes sz != 0 || (stage2 && (fld e 54 2 != 0 || fld e 52 1 != 0 || fld e 7 1 != 0 || fld e 5 1 != 0)) ||
            (leafPhys && !backedOrHost pa (pageBytes sz)) then bad
        else .ok { pa := pa + a % pageBytes sz, size := sz, ok := fld e 54 2, nr := fld e 52 1 = 1, g := fld e 7 1 = 1,
                   u := fld e 5 1 = 1, x := fld e 4 1 = 1, w := fld e 3 1 = 1, r := fld e 2 1 = 1 }

/-- The smaller of two page-size codes (R339). -/
def minSize (a b : Nat) : Nat := if pageBytes a ≤ pageBytes b then a else b

/-- A walk of both stages of a partition's context (R339). -/
def walk (m : Memory) (g : PartCfg) (va : Word) : Except WalkFail Xlat :=
  let a := fld va.toNat 0 57
  if g.stage2 then
    let s2 := fun ipa => walkStage m true true (fun t => .ok t) ipa 5 g.root2
    match walkStage m false false (fun t => (s2 t).map (·.pa)) a 5 g.root1 with
    | .error e => .error e
    | .ok x =>
      match s2 x.pa with
      | .error e => .error e
      | .ok y => .ok { x with pa := y.pa, size := minSize x.size y.size, x := x.x && y.x, w := x.w && y.w, r := x.r && y.r }
  else walkStage m false true (fun t => .ok t) a 5 g.root1

/-- Whether a leaf grants an access (R338): a store needs pte.w, or only pte.r on an append page. -/
def grants (x : Xlat) (k : Kind) (user append : Bool) : Bool :=
  (!user || x.u) &&
    match k with
    | .fetch => x.x && x.ok != 3
    | .load => x.r
    | .store => if append then x.r else x.w

/-- Whether an address lies in a valid lease of a core (R345). -/
def leased (c : Core) (va : Word) : Bool :=
  (List.range 8).any fun i =>
    let b := c.leaseBase.toList.getD i 0
    let l := c.leaseLim.toList.getD i 0
    bitOf b 0 && bits b 56 12 ≤ bits va 56 12 && bits va 56 12 < bits l 56 12

/-- What a translation of one address gives. -/
inductive Xres
  | ok (x : Xlat)
  | trap (c : Cause)
  | miss (f : WalkFail)
deriving DecidableEq, Repr

/-! ## TLBs and walker caches (R340) -/

/-- The entry of a TLB for an address of a partition (R340). -/
def tlbFind (l : List TlbEntry) (p : Nat) (va : Nat) : Option TlbEntry :=
  l.find? fun e => e.part = p && e.va ≤ va && va < e.va + pageBytes e.size

/-- What a TLB entry says of an address in its page. -/
def TlbEntry.xlat (e : TlbEntry) (a : Nat) : Xlat :=
  { pa := e.pa + (a - e.va), size := e.size, ok := e.ok, nr := e.nr, g := e.g, u := e.u, x := e.x, w := e.w, r := e.r }

/-- The TLB entry of a translation. -/
def tlbEntry (p a : Nat) (x : Xlat) : TlbEntry :=
  let sz := pageBytes x.size
  { part := p, va := a / sz * sz, size := x.size, pa := x.pa / sz * sz, ok := x.ok, nr := x.nr, g := x.g, u := x.u, x := x.x,
    w := x.w, r := x.r }

/-- A list of at most n entries after another is put in front: any of the others makes room (log 10). -/
def capped {α : Type} (n : Nat) (e : α) (l : List α) (s : State) : List α × State :=
  if l.length < n then (e :: l, s) else
  let (i, s1) := s.freeBelow l.length
  (e :: l.eraseIdx i, s1)

/-- A TLB of n entries with an entry installed. -/
def tlbPut (n : Nat) (e : TlbEntry) (l : List TlbEntry) (s : State) : List TlbEntry × State :=
  capped n e (l.filter fun f => !(f.part = e.part && f.va = e.va && f.size = e.size)) s

/-- The instruction or the data TLB of a core (R340). -/
def coreTlb (q : Core) (fetch : Bool) : List TlbEntry := if fetch then q.itlb else q.dtlb

/-- Set the instruction or the data TLB of a core. -/
def setCoreTlb (s : State) (c : Nat) (fetch : Bool) (l : List TlbEntry) : State :=
  s.updCore c fun q => if fetch then { q with itlb := l } else { q with dtlb := l }

/-- An entry enters a core's TLB: 64 entries for instructions, 128 for data (R340). -/
def fillCoreTlb (s : State) (c : Nat) (fetch : Bool) (e : TlbEntry) : State :=
  let (l, s1) := tlbPut (if fetch then 64 else 128) e (coreTlb (s.core c) fetch) s
  setCoreTlb s1 c fetch l

/-- An entry enters a cluster's second-level TLB of 4,096 entries (R340). -/
def fillTlb (s : State) (k : Nat) (e : TlbEntry) : State :=
  let (l, s1) := tlbPut 4096 e (s.cluster k).tlb s
  s1.updCluster k fun q => { q with tlb := l }

/-- The table entries above the leaf that a walk of one stage reads, with the addresses of the tables it reads them in (R337, R340). -/
def trailStage (m : Memory) (p : Nat) (stage2 : Bool) (table : Nat → Option Nat) (a : Nat) : Nat → Nat → List (Nat × Option WalkEntry)
  | 0, _ => []
  | l + 1, tbl =>
    match table tbl with
    | none => []
    | some tpa =>
      let ea := tpa + 8 * fld a (12 + 9 * l) 9
      let w := m.word ea
      if bitOf w 0 && !bitOf w 1 && l != 0 then
        (tbl, some ⟨p, stage2, a, l, ea, w⟩) :: trailStage m p stage2 table a l (fld w.toNat 12 40 * 4096)
      else [(tbl, none)]

/-- The table entries above the leaf that a walk of both stages reads (R339, R340). -/
def walkTrail (m : Memory) (p : Nat) (g : PartCfg) (va : Word) : List WalkEntry :=
  let a := fld va.toNat 0 57
  if g.stage2 then
    let s2 := fun ipa => walkStage m true true (fun t => .ok t) ipa 5 g.root2
    let t2 := fun ipa => trailStage m p true some ipa 5 g.root2
    let l := trailStage m p false (fun t => match s2 t with | .ok x => some x.pa | .error _ => none) a 5 g.root1
    let last := match walkStage m false false (fun t => (s2 t).map (·.pa)) a 5 g.root1 with | .ok x => [x.pa] | .error _ => []
    l.filterMap (·.2) ++ ((l.map (·.1)) ++ last).flatMap fun ipa => (t2 ipa).filterMap (·.2)
  else (trailStage m p false some a 5 g.root1).filterMap (·.2)

/-- Memory as a walker of a cluster may see it for a partition: a table entry that it has cached may stand for the one in memory; which
ones still do is a free choice (R340, log 10). -/
def walkView (s : State) (k p : Nat) : Memory × State :=
  ((s.cluster k).wcache.filter fun e => e.part = p && s.mem.word e.pa != e.word).foldl (fun (x : Memory × State) e =>
    let (b, s1) := x.2.freeBool
    (if b then x.1.wrWord e.pa e.word else x.1, s1)) (s.mem, s)

/-- A walker caches the table entries it has read (R340). -/
def cacheTrail (s : State) (k : Nat) (l : List WalkEntry) : State :=
  s.updCluster k fun q => { q with wcache := l ++ q.wcache.filter fun e => !(l.any fun x => x.part = e.part && x.pa = e.pa) }

/-- Steps 4 and 5 of R334 for one address: lease and translation. The core's TLB is asked, then the cluster's, then a walk is
made. A TLB may still hold an older translation than the walk finds, and a walker older table entries; whether they do is a free
choice (log 10). -/
def locate (s : State) (c : Nat) (k : Kind) (va : Word) : Xres × State :=
  match s.partOf c with
  | none => (.trap k.cause, s)
  | some p =>
  match (s.part p).cfg with
  | none => (.trap k.cause, s)
  | some g =>
    if !canonical va then (.trap k.cause, s)
    else if g.leased && !leased (s.core c) va then (.trap .leaseViolation, s)
    else
      let a := fld va.toNat 0 57
      let cl := clusterOf c
      let fetch := k = .fetch
      let now := match walk s.mem g va with | .ok x => some x | .error _ => none
      let keep (e : TlbEntry) (s : State) : Bool × State := if now = some (e.xlat a) then (true, s) else s.freeBool
      let fresh (s : State) : Xres × State :=
        let (m, s) := walkView s cl p
        match walk m g va with
        | .ok x =>
          let e := tlbEntry p a x
          (.ok x, cacheTrail (fillTlb (fillCoreTlb s c fetch e) cl e) cl (walkTrail m p g va))
        | .error f =>
          if f.dm && !f.malformed && !g.leased && g.pageReqs != 0 then (.miss f, s) else (.trap k.cause, s)
      let second (s : State) : Xres × State :=
        match tlbFind (s.cluster cl).tlb p a with
        | none => fresh s
        | some e =>
          let (b, s) := keep e s
          if b then (.ok (e.xlat a), fillCoreTlb s c fetch e)
          else fresh (s.updCluster cl fun q => { q with tlb := q.tlb.erase e })
      match tlbFind (coreTlb (s.core c) fetch) p a with
      | none => second s
      | some e =>
        let (b, s) := keep e s
        if b then (.ok (e.xlat a), s)
        else second (setCoreTlb s c fetch ((coreTlb (s.core c) fetch).erase e))

/-- Steps 4 to 6 of R334 for one address: lease, translation, permission. -/
def translate (s : State) (c : Nat) (user : Bool) (k : Kind) (append : Bool) (va : Word) : Xres × State :=
  match locate s c k va with
  | (.ok x, s) => (if grants x k user append then .ok x else .trap k.cause, s)
  | r => r

/-- PT.PROBE's result (R343), over the memory that its walk sees. -/
def ptProbe (s : State) (m : Memory) (c : Nat) (va : Word) : Word :=
  if !canonical va then BitVec.ofNat 64 (2 ^ 63 + 2 * 2 ^ 56) else
  match s.cfgOf c with
  | none => BitVec.ofNat 64 (2 ^ 63 + 4 * 2 ^ 59)
  | some g =>
    match walk m g va with
    | .ok x =>
      BitVec.ofNat 64 (x.size / 4 * 2 ^ 56 + x.ok * 2 ^ 54 + x.size / 2 % 2 * 2 ^ 53 + bit x.nr * 2 ^ 52 +
        x.pa / 4096 * 2 ^ 12 + bit x.g * 2 ^ 7 + x.size % 2 * 2 ^ 6 + bit x.u * 2 ^ 5 + bit x.x * 2 ^ 4 + bit x.w * 2 ^ 3 +
        bit x.r * 2 ^ 2)
    | .error f =>
      BitVec.ofNat 64 (2 ^ 63 + bit f.stage2 * 2 ^ 62 + f.lvl * 2 ^ 59 + bit f.dm * 2 ^ 58 + bit f.malformed * 2 ^ 56)

/-! ## Page requests (R346) -/

/-- The smallest tag no outstanding request uses. -/
def freshTag (l : List PageReq) : Nat := ((List.range 65).find? fun i => !(l.any fun r => r.tag = i)).getD 64

/-- pq.acc of R346. -/
def Kind.pq : Kind → Nat
  | .load => 1 | .store => 2 | .fetch => 4

/-- Post or join the page request of a failed walk, for a thread of a partition; `none` when all 64 entries are in use. The tag
and the state are answered (R346). Matins' own requests name core 0x7FF (R417). -/
def pageRequest (s : State) (p : Nat) (f : WalkFail) (k : Kind) (core slot : Nat) : Option Nat × State :=
  let q := s.part p
  let page := f.addr / 4096 * 4096
  match q.pageReqs.find? fun r => r.page = page && r.stage2 = f.stage2 with
  | some r => (some r.tag, s)
  | none =>
    if 64 ≤ q.pageReqs.length then (none, s) else
    let tag := freshTag q.pageReqs
    let va := if f.stage2 || page < 2 ^ 56 then page else page + (2 ^ 64 - 2 ^ 57)
    let s1 := s.updPart p fun q => { q with pageReqs := q.pageReqs ++ [⟨tag, page, f.stage2, k.pq, core, slot⟩] }
    let ring := match q.cfg with | some g => g.pageReqs | none => 0
    (some tag, s1.ringWrite ring (100 + p) p 1 32
      [BitVec.ofNat 64 (va + bit f.stage2 * 8 + k.pq), BitVec.ofNat 64 (tag + p * 2 ^ 16),
       BitVec.ofNat 64 (core + slot * 2 ^ 11), 0])

end Sys2Proof.Machine
end

