-- ==== Sys2Proof/Machine/Coherence.lean ====
section
/-! DEFINITION. The core's side of coherence (spec/09 R208 to R210, spec/08 R197): lines, requests, puts, release sets, and the
answers to forwarded requests; and writes performed at a port (spec/08 R200, R201). -/

namespace Sys2Proof.Machine

/-- Message types (R215). -/
def Ty.gets : Nat := 0
def Ty.getx : Nat := 1
def Ty.upg : Nat := 2
def Ty.putx : Nat := 3
def Ty.puts : Nat := 4
def Ty.putp : Nat := 5
def Ty.atom : Nat := 6
def Ty.apnd : Nat := 7
def Ty.arsv : Nat := 8
def Ty.tailq : Nat := 9
def Ty.sealq : Nat := 10
def Ty.recall : Nat := 11
def Ty.inv : Nat := 12
def Ty.push : Nat := 13
def Ty.dataS : Nat := 16
def Ty.dataX : Nat := 17
def Ty.ack : Nat := 18
def Ty.busy : Nat := 19
def Ty.retry : Nat := 20
def Ty.fail : Nat := 21
def Ty.wbData : Nat := 22
def Ty.invAck : Nat := 23
def Ty.result : Nat := 24

/-- Whether a message of the type travels on the reply lane (R215). -/
def replyLane (type : Nat) : Bool := 16 ≤ type && type ≤ 24

/-- The agent number of a protocol processor in the header's core field: the field has eleven bits (R80, R216). -/
def mkMsg (s : State) (src slot dst type tag addr : Nat) (w2 w3 w4 : Word) (flit : Option Block) (mc : Option Nat) : Msg :=
  { src := src, dst := dst, flit := flit, mc := mc,
    w := #v[header type (replyLane type) slot src s.devNum tag 0 0, BitVec.ofNat 64 addr, w2, w3, w4, 0, 0, 0] }

/-! ## Ports (R200, R201) -/

/-- A trace-log entry as one number (R201). -/
def traceCode (addr seq len slot core dev : Nat) (gnt : Bool) : Nat :=
  bit gnt + dev % 2 ^ 10 * 2 ^ 1 + core % 2 ^ 11 * 2 ^ 11 + slot % 2 ^ 4 * 2 ^ 22 + len % 2 ^ 6 * 2 ^ 26 + seq % 2 ^ 32 * 2 ^ 32 +
    addr % 2 ^ 64 * 2 ^ 64

/-- Ports with a trace ring: the protocol processors, by number, then the cores' memory ports (R201). -/
def corePort (c : Nat) : Nat := 77 + c

/-- The trace ring of a port (R201). -/
def ringOf (s : State) (p : Nat) : Trace := if p < 77 then (s.proc p).trace else (s.core (p - 77)).trace

/-- Change the trace ring of a port. -/
def updRing (s : State) (p : Nat) (f : Trace → Trace) : State :=
  if p < 77 then s.updProc p fun q => { q with trace := f q.trace } else s.updCore (p - 77) fun q => { q with trace := f q.trace }

/-- Where entry i of a port stands in a partition's trace log (R362, log 30). -/
def traceSlot (log port i : Nat) : Nat := log + port * 2 ^ 36 + 16 * (i % 2 ^ 32)

/-- Entry i of a port in a partition's trace log (R362). -/
def logEntry (m : Memory) (log port i : Nat) : Nat := m.le (traceSlot log port i) 16

/-- Whether an entry of a log is a given event, whatever its number (R363). -/
def sameEvent (e code : Nat) : Bool := e / 2 ^ 64 = code / 2 ^ 64 && e % 2 ^ 32 = code % 2 ^ 32

/-- Whether an entry of a port's log from i on is a given event; an entry of zeros after the first ends the log (R363, log 30). -/
def logHas (m : Memory) (log port code : Nat) : Nat → Nat → Bool
  | 0, _ => false
  | fuel + 1, i =>
    let e := logEntry m log port i
    if e = 0 && i != 0 then false else sameEvent e code || logHas m log port code fuel (i + 1)

/-- Whether a port's ring is on: a core's port has one for as long as some partition is in record mode (R201, R362). -/
def ringOn (s : State) (p : Nat) : Bool := (ringOf s p).on || (77 ≤ p && s.parts.any fun x => x.2.mode == .record)

/-- A write, an atomic or a grant that a port performs for another agent: a slot of a core of a device, for a partition. In record
mode the port's ring takes it; in replay mode it must be the next of the port's log. An event that must wait for either, or that matches
no entry still to come, marks the state, and the step does not take place (R201, R363). -/
def tracePortBy (s : State) (p pa len core slot dev : Nat) (part : Option Nat) (gnt : Bool) : State :=
  let q := ringOf s p
  let s1 := if ringOn s p then
      (if 1024 ≤ q.entries.length then { s with deferred := true, heldAt := none }
       else updRing s p fun x => { x with on := true }.add pa (len - 1) slot core dev gnt part)
    else s
  match part with
  | none => s1
  | some k =>
    let x := s.part k
    if x.mode != .replay then s1 else
    let i := (look p x.logged).getD 0
    let code := traceCode pa 0 (len - 1) slot core dev gnt
    if sameEvent (logEntry s.mem x.traceLog p i) code then
      s1.updPart k fun y => { y with logged := put p (i + 1) y.logged, heldSince := drop p y.heldSince }
    else { s1 with deferred := true, heldAt := some (k, p, !logHas s.mem x.traceLog p code (s.mem.length + 1) i) }

/-- A write, an atomic or a grant that a port performs for a slot of a core of this device (R201). -/
def tracePort (s : State) (p pa len core slot : Nat) (gnt : Bool) : State :=
  tracePortBy s p pa len core slot s.devNum (s.partOf core) gnt

/-- Who a port performs a write for: a slot of a core of a device, for a partition of this device (R201). -/
structure Writer where
  core : Nat
  slot : Nat
  dev : Nat
  part : Option Nat

/-- A slot of a core of this device. -/
def writerOf (s : State) (core slot : Nat) : Writer := ⟨core, slot, s.devNum, s.partOf core⟩

/-- Bytes performed at memory by the port of the block's home (R200). -/
def portWriteBy (s : State) (pa : Nat) (l : List Byte) (w : Writer) : State :=
  tracePortBy (s.updMem fun m => m.wrBytes pa l) (s.homeOf pa) pa l.length w.core w.slot w.dev w.part false

/-- Bytes performed at memory by the port of the block's home on behalf of a core's slot (R200). -/
def portWrite (s : State) (pa : Nat) (l : List Byte) (core slot : Nat) : State :=
  portWriteBy s pa l (writerOf s core slot)

/-- Bytes of a block under a mask performed at memory by the port of its home (R200). -/
def portMask (s : State) (c slot blk : Nat) (b : Block) (mask : BitVec 64) : State :=
  match (List.range 64).filter fun i => mask.getLsbD i with
  | [] => s
  | i :: l => tracePort (s.updMem fun m => m.wrMask (blk * 64) b mask) (s.homeOf (blk * 64)) (blk * 64 + i) (l.length + 1) c slot false

/-! ## Lines -/

/-- The line of a block at a core; an absent one is invalid. -/
def lineOf (s : State) (c blk : Nat) : Option Line := look blk (s.core c).lines

/-- Set or drop a core's line. -/
def setLine (s : State) (c blk : Nat) (l : Option Line) : State :=
  s.updCore c fun q => { q with lines := match l with | some x => put blk x q.lines | none => drop blk q.lines }

/-- The tag of a block at a core; a block that is absent counts as invalid (R208). -/
def tagOf (s : State) (c blk : Nat) : Tag :=
  match lineOf s c blk with
  | some l => l.tag.getD .invalid
  | none => .invalid

/-- The stash mapping of a core that covers a global address (R162). -/
def stashOf (q : Core) (va : Nat) : Option Stash := q.stash.find? fun m => m.g ≤ va && va < m.g + m.n

/-- What a replacement choice looks at: a name, a priority and a last use (R170). -/
abbrev Use (α : Type) := α × Nat × Nat

/-- The one to be replaced: of lowest priority, and among equals the least recently used (R170). -/
def leastUsed {α : Type} (l : List (Use α)) : Option α :=
  (l.foldl (fun (best : Option (Use α)) x =>
    match best with
    | none => some x
    | some b => if x.2.1 < b.2.1 || (x.2.1 = b.2.1 && x.2.2 < b.2.2) then some x else best) none).map (·.1)

/-- The lines that occupy ways of an L1 set. A busy line that keeps no bytes has no way yet: it takes one when its block arrives (R170,
log 9). -/
def l1Set (q : Core) (set : Nat) : List (Nat × Line) :=
  q.lines.filter fun l => l.1 % 64 = set && !l.2.stash && !l.2.l2 && l.2.stream.isNone && l.2.single.isNone && (l.2.tag != some .busy || l.2.kept)

/-- The victim of an L1 set that is full: lowest priority, then least recently used (R170); busy lines stay. -/
def l1Victim (q : Core) (set : Nat) : Option Nat :=
  leastUsed (((l1Set q set).filter fun l => l.2.tag != some .busy).map fun l => (l.1, l.2.prio.val, l.2.used))

/-! ## Cluster L2 of direct blocks (R164, R169) -/

/-- Set or drop what a cluster's L2 holds written of a direct block. -/
def setL2 (s : State) (k blk : Nat) (l : L2Line) : State :=
  s.updCluster k fun q => { q with l2dirty := if l.written = 0 then drop blk q.l2dirty else put blk l q.l2dirty }

/-- Bytes that a core's newer write covers leave the cluster L2: the newer write goes home in their place (R169). -/
def coverL2 (s : State) (k blk : Nat) (mask : BitVec 64) : State :=
  match look blk (s.cluster k).l2dirty with
  | some l => setL2 s k blk { l with written := l.written &&& ~~~mask }
  | none => s

/-- A use of a cluster's L2: its number (R170). -/
def useL2 (s : State) (k : Nat) : Nat × State := ((s.cluster k).stamp, s.updCluster k fun q => { q with stamp := q.stamp + 1 })

/-- Bytes written by a core enter the cluster L2 with a priority (R164, R170). -/
def mergeL2 (s : State) (c blk : Nat) (prio : Fin 8) (b : Block) (mask : BitVec 64) : State :=
  let l := (look blk (s.cluster (clusterOf c)).l2dirty).getD {}
  let (u, s1) := useL2 s (clusterOf c)
  setL2 s1 (clusterOf c) blk
    { data := blkMerge l.data b mask, written := l.written ||| mask, seen := if l.seen.contains c then l.seen else l.seen ++ [c], prio := prio, used := u }

/-- A core has read bytes of the cluster L2 with a priority, which an access at .E0 leaves as it is (R169, R170). -/
def seeL2 (s : State) (c blk : Nat) (ev : Fin 8) : State :=
  match look blk (s.cluster (clusterOf c)).l2dirty with
  | some l =>
    let (u, s1) := useL2 s (clusterOf c)
    setL2 s1 (clusterOf c) blk { l with seen := if l.seen.contains c then l.seen else l.seen ++ [c], prio := if ev = 0 then l.prio else ev, used := u }
  | none => s

/-- Bytes of a direct block that a cluster's L2 holds written go home (R164, R181). -/
def flushL2 (s : State) (k blk : Nat) : State :=
  match look blk (s.cluster k).l2dirty with
  | none => s
  | some l => (portMask s (l.seen.headD (16 * k)) 0 blk l.data l.written).updCluster k fun q => { q with l2dirty := drop blk q.l2dirty }

/-! ## Puts (R208, R209, R234) -/

/-- Post a put; the core waits for its acknowledgement when it must (R181). -/
def postPut (s : State) (c slot blk type : Nat) (w2 : Word) (flit : Option Block) : State :=
  (s.updCore c fun q => { q with puts := q.puts ++ [blk] }).post
    (mkMsg s c slot (procAgent (s.homeOf (blk * 64))) type 0xFF (blk * 64) w2 0 0 flit none)

/-- Give up a line as an eviction or CFLUSH does: the put of its region's protocol, then invalid (R208, R209, R234). A line of a
direct region writes its written bytes back, and no older bytes of the cluster L2 may follow them (R163, R169, R181). -/
def giveUp (s : State) (c slot blk : Nat) : State :=
  match lineOf s c blk with
  | none => s
  | some l =>
    match l.tag with
    | none => setLine (portMask (coverL2 s (clusterOf c) blk l.written) c slot blk l.data l.written) c blk none
    | some .writable =>
      let s1 := setLine s c blk none
      match s.protoOf (blk * 64) with
      | 2 =>
        let s2 := if l.written = 0 then s1 else postPut s1 c slot blk Ty.putp l.written (some l.data)
        postPut s2 c slot blk Ty.puts 0 none
      | 4 =>
        let s2 := if l.written = 0 then s1 else postPut s1 c slot blk Ty.putp l.written (some l.data)
        postPut s2 c slot blk Ty.putx 0 (some l.data)
      | 6 => if l.written = 0 then s1 else postPut s1 c slot blk Ty.putp l.written (some l.data)
      | _ => postPut s1 c slot blk Ty.putx 0 (some l.data)
    | some .readOnly => postPut (setLine s c blk none) c slot blk Ty.puts 0 none
    | some .invalid => setLine s c blk none
    | some .busy => s

/-- CCLEAN of a line: written back, and kept read-only (R181, R209, R234). A reduction line with written bytes goes home in a PUTP and is
dropped, as R234 says of its releases and flushes; one with none is kept read-only after PUTX with keep 1: the model's choice, since R181 and
R234 differ there (log 82). -/
def cleanLine (s : State) (c slot blk : Nat) : State :=
  match lineOf s c blk with
  | none => s
  | some l =>
    match l.tag with
    | none =>
      setLine (portMask (coverL2 s (clusterOf c) blk l.written) c slot blk l.data l.written) c blk
        (some { l with written := 0 })
    | some .writable =>
      match s.protoOf (blk * 64) with
      | 2 =>
        let s1 := setLine s c blk (some { l with tag := some .readOnly, written := 0, rel := [] })
        if l.written = 0 then s1 else postPut s1 c slot blk Ty.putp l.written (some l.data)
      | _ =>
        if s.protoOf (blk * 64) = 6 && l.written != 0 then postPut (setLine s c blk none) c slot blk Ty.putp l.written (some l.data) else
        postPut (setLine s c blk (some { l with tag := some .readOnly, written := 0, rel := [] })) c slot blk Ty.putx 1 (some l.data)
    | _ => s

/-! ## Release sets (R197) -/

/-- The blocks of a core whose writes are not performed elsewhere yet: written bytes under update, producer-push and reduction
(R197). -/
def unsent (s : State) (c : Nat) : List Nat :=
  ((s.core c).lines.filter fun l => l.2.tag = some .writable && l.2.written != 0 &&
    (let p := s.protoOf (l.1 * 64); p = 2 || p = 4 || p = 6)).map (·.1)

/-- The blocks whose merged news of a core's write has not reached every holder: pushes, and invalidations of a reduction's readers
(R197, R234). -/
def telling (s : State) (c : Nat) : List Nat := (s.mcasts.filter fun x => x.2.writer.map agentOf = some c).map fun x => x.2.addr / 64

/-- What stands for the posted writes to the host in a release set (R197, R401). -/
def postedMark : Nat := 2 ^ 60

/-- The release set of a core now (R197): its unsent writes, its puts on their way, and its merges that are still being told; at .SYS
the posted writes to the host. -/
def releaseSet (s : State) (c : Nat) (sys : Bool) : List Nat :=
  unsent s c ++ (s.core c).puts ++ telling s c ++ if sys && s.posted != 0 then [postedMark] else []

/-- Whether a core has nothing of a release set left to perform (R197, R206). -/
def released (s : State) (c : Nat) : Bool := (unsent s c).isEmpty && (s.core c).puts.isEmpty && (telling s c).isEmpty

/-- Whether every write that a core has seen has reached every holder (R194, R206). -/
def seenSettled (s : State) (c : Nat) : Bool := !s.mcasts.any fun x => x.2.writer.isSome && x.2.seen.contains c

/-- Whether a FENCE.SC or an .SC access of a core may go on: its own writes and those it has seen are performed everywhere (R194,
R206). -/
def ordered (s : State) (c : Nat) : Bool := released s c && seenSettled s c

/-- Whether the release set of a block still has to be performed before it is yielded (R197, R210). -/
def relPending (s : State) (c blk : Nat) : Bool :=
  match lineOf s c blk with
  | some l => l.tag = some .writable && !l.rel.isEmpty && (let now := releaseSet s c true; l.rel.any fun b => b != blk && now.contains b)
  | none => false

/-- Whether a line of a core has posted writes to the host in its release set, or a channel of it waits for them: the host protocol processor
is asked for the zero-length read that drains them (R197, R254, R401). -/
def drainsHost (s : State) (c : Nat) : Bool :=
  s.posted != 0 && ((s.core c).lines.any (fun l => l.2.rel.contains postedMark) || (s.core c).cp.toList.any fun x => x.wait == some .host)

/-- Perform a release set: PUTP for each block of it (R197, R234). -/
def flushUnsent (s : State) (c slot : Nat) (blks : List Nat) : State :=
  blks.foldl (fun s blk =>
    match lineOf s c blk with
    | none => s
    | some l =>
      if l.written = 0 then s else
      let keep := if s.protoOf (blk * 64) = 6 then none else some { l with written := 0 }
      postPut (setLine s c blk keep) c slot blk Ty.putp l.written (some l.data)) s

/-- The part of a block's release set that still has to be sent is sent (R197). -/
def flushRel (s : State) (c slot blk : Nat) : State :=
  match lineOf s c blk with
  | some l => flushUnsent s c slot ((unsent s c).filter fun b => b != blk && l.rel.contains b)
  | none => s

/-! ## L1, the stream buffers and the cluster L2 (R164, R170) -/

/-- Lines that a cluster's L2 holds: the cluster memory but for the windows (R3, R158). -/
def l2Lines (s : State) (k : Nat) : Nat :=
  let ws (p : Option Nat) : Nat := match p.bind fun p => (s.part p).cfg with | some g => g.ws | none => 0
  let p := (s.cluster k).part
  (2 ^ 21 - (ws p + ws (p.bind s.partner)) * 0x40000) / 64

/-- The tagged lines in a cluster's L2, with the cores they belong to (R208). -/
def l2Tagged (s : State) (k : Nat) : List (Nat × Nat) :=
  (coresOf k).flatMap fun c => ((s.core c).lines.filter fun l => l.2.l2).map fun l => (c, l.1)

/-- Sets of a cluster's L2: the spec gives none, and the model takes 2,048, in which each 256 KiB of cluster memory is two ways
(log 9). -/
def l2Sets : Nat := 2048

/-- The lines of an L2 set that may leave it, a tagged one with the core it belongs to; one that is busy, or whose release set has still to
be performed, stays (R170, log 9). -/
def l2Leaving (s : State) (k set : Nat) : List (Use (Option Nat × Nat)) :=
  ((l2Tagged s k).filter fun x => x.2 % l2Sets = set && tagOf s x.1 x.2 != .busy && !relPending s x.1 x.2).filterMap (fun x =>
    (lineOf s x.1 x.2).map fun l => ((some x.1, x.2), l.prio.val, l.used)) ++
  ((s.cluster k).l2dirty.filter fun x => x.1 % l2Sets = set).map fun x => ((none, x.1), x.2.prio.val, x.2.used)

/-- The line of lowest priority, and among equals the least recently used, leaves an L2 set as an eviction does (R170). -/
def evictL2 (s : State) (k set : Nat) : State :=
  match leastUsed (l2Leaving s k set) with
  | none => s
  | some (some c, blk) => giveUp s c 0 blk
  | some (none, blk) => flushL2 s k blk

/-- After a block has entered a cluster's L2, another of its set leaves it: always when the set holds more than it has ways, and by a free
choice otherwise, since clean copies that the model does not hold take ways too (R3, R170, log 9). -/
def settleL2 (s : State) (k blk : Nat) : State :=
  let set := blk % l2Sets
  let n := ((l2Tagged s k).filter fun x => x.2 % l2Sets = set).length + ((s.cluster k).l2dirty.filter fun x => x.1 % l2Sets = set).length
  if l2Lines s k < n * l2Sets then evictL2 s k set else
  let (b, s1) := s.freeBool
  if b then evictL2 s1 k set else s1

/-- A line leaves L1 for the cluster L2: a tagged one with its tag, a direct one by its written bytes (R164, R170, R208). -/
def moveToL2 (s : State) (c v : Nat) : State :=
  match lineOf s c v with
  | none => s
  | some x =>
    match x.tag with
    | some _ =>
      let (u, s1) := useL2 s (clusterOf c)
      settleL2 (setLine s1 c v (some { x with l2 := true, used := u })) (clusterOf c) v
    | none =>
      let s1 := setLine s c v none
      if x.written = 0 then s1 else settleL2 (mergeL2 s1 c v x.prio x.data x.written) (clusterOf c) v

/-- Room in an L1 set: lines leave it for as long as it holds eight, in at most n moves, and whether it then has a free way (R170). -/
def makeRoom (s : State) (c set : Nat) : Nat → Bool × State
  | 0 => ((l1Set (s.core c) set).length < 8, s)
  | n + 1 =>
    if (l1Set (s.core c) set).length < 8 then (true, s) else
    match l1Victim (s.core c) set with
    | none => (false, s)
    | some v => makeRoom (moveToL2 s c v) c set n

/-- A line leaves the stream buffer of a slot when another block takes it; a busy line, or one whose release set has still to be
performed, leaves it later (R170, log 10). -/
def freeStream (s : State) (c slot blk : Nat) : State :=
  ((s.core c).lines.filter fun l => l.2.stream = some slot && l.1 != blk && l.2.tag != some .busy && !relPending s c l.1).foldl
    (fun s l => giveUp s c slot l.1) s

/-- Whether a line occupies a way of L1. -/
def Line.inL1 (l : Line) : Bool := !l.l2 && !l.stash && l.stream.isNone && l.single.isNone && (l.tag != some .busy || l.kept)

/-- A line that takes a place in L1, a stream buffer or the stash with the last use of its core. In L1 the set's victims make room; where
every way is busy the line stands in the stream buffer of the slot (R164, R170, log 9). -/
def fillLine (s : State) (c slot blk : Nat) (l : Line) : State :=
  let q := s.core c
  let l1 := { l with used := q.stamp, l2 := false }
  let s1 := s.setCore c { q with stamp := q.stamp + 1 }
  if l.stash || (l1.inL1 && (look blk q.lines).any Line.inL1) then setLine s1 c blk (some l1) else
  match l.stream with
  | some i => setLine (freeStream s1 c i blk) c blk (some l1)
  | none =>
    let s2 := setLine s1 c blk none
    if !l1.inL1 then setLine s2 c blk (some l1) else
    match makeRoom s2 c (blk % 64) 16 with
    | (true, s3) => setLine s3 c blk (some l1)
    | (false, s3) => setLine (freeStream s3 c slot blk) c blk (some { l1 with stream := some slot })

/-- A hit: the line takes the access's priority and its place in L1; an access at .E0 leaves it as it is, and the stash ignores the
priority (R170). -/
def touch (s : State) (c slot blk : Nat) (ev : Fin 8) : State :=
  match lineOf s c blk with
  | none => s
  | some l => if l.stash then s else if ev = 0 then s else fillLine s c slot blk { l with prio := ev, stream := none }

/-- Where a new line of an access stands: in L1, or for an access at .E0 in the slot's stream buffer (R170). -/
def streamOf (slot : Nat) (ev : Fin 8) : Option Nat := if ev = 0 then some slot else none

/-- Where a line stands that an access has to ask for: in the stash when a mapping covers its virtual block va, whatever the priority; else
where it stood in L1 or a stream buffer; and a block of the cluster L2, or none, is moved or brought to the access's place (R162, R163, R170). -/
def Line.placed (l : Line) (slot va : Nat) (stash : Bool) (ev : Fin 8) : Line :=
  if stash then { l with stash := true, l2 := false, stream := none, va := if l.stash then l.va else va / 64 * 64 }
  else if l.stash then l
  else if ev = 0 then (if l.l2 then { l with l2 := false, stream := some slot } else l)
  else { l with prio := ev, l2 := false, stream := none }

/-! ## Requests (R209) -/

/-- A reply tag no request of the core uses; a core has at most 128 requests for lines outstanding (R215). -/
def freshReq (q : Core) : Option Nat := (List.range 128).find? fun i => (look i q.reqs).isNone

/-- The agent a read of a block is sent to: for an append page homed on another die, the replica agent of the core's own die
(R256). -/
def readAgent (s : State) (c pa : Nat) : Nat :=
  let h := s.homeOf pa
  if s.protoOf pa = 7 && h < 48 && h / 12 != dieOf c then procAgent (12 * dieOf c + pa / 4096 % 12) else procAgent h

/-- Post a request for a block: the tag becomes busy (R209). `w2` carries the first and last byte for an append page
(R253); `nr` sends a read to the home and not to a replica agent (R256, R337); `va` is the access's address, by which a stash line is known
(R163). With no tag free nothing is posted yet. -/
def request (s : State) (c slot blk type : Nat) (w2 : Word) (nr stash : Bool) (ev : Fin 8) (va : Word) : State :=
  match freshReq (s.core c) with
  | none => s
  | some tag =>
    let dst := if type = Ty.gets && !nr then readAgent s c (blk * 64) else procAgent (s.homeOf (blk * 64))
    let m := mkMsg s c slot dst type tag (blk * 64) w2 0 0 none none
    let old := ((lineOf s c blk).getD { tag := some .invalid, prio := ev, stream := streamOf slot ev }).placed slot va.toNat stash ev
    let s1 := fillLine s c slot blk { old with tag := some .busy, kept := old.tag = some .readOnly && old.single.isNone, single := none }
    (s1.updCore c fun q => { q with reqs := put tag { msg := m } q.reqs }).post m

/-- The request of a core for a block's line, with its tag (R209). -/
def reqFor (q : Core) (blk : Nat) : Option (Nat × Req) := q.reqs.find? fun r => r.1 < 128 && r.2.msg.blk = blk

/-! ## Answers to forwarded requests (R210) -/

/-- An answer of a core to its home; a combined one goes into its multicast (R239). -/
def answer (s : State) (c : Nat) (m : Msg) (data : Option Block) (held : Bool) : State :=
  let s1 := match data with
    | some b => s.post (mkMsg s c 0 m.src Ty.wbData 0 m.addr 0 0 0 (some b) m.mc)
    | none => s
  match m.mc with
  | none => if data.isSome then s1 else s1.post (mkMsg s c 0 m.src Ty.invAck 0 m.addr (boolWord held) 0 0 none none)
  | some k =>
    match look k s1.mcasts with
    | none => s1
    | some x =>
      let h := held || data.isSome
      let x1 := { x with left := x.left.erase c, held := x.held || h, copies := x.copies + bit h,
                         seen := if x.writer.isSome && h then x.seen ++ [c] else x.seen }
      if x1.left.isEmpty then
        { s1 with mcasts := drop k s1.mcasts }.post
          (mkMsg s1 c 0 x.home Ty.invAck 0 x.addr (BitVec.ofNat 64 (bit x1.held + x1.copies * 2 ^ 16)) 0 0 none (some k))
      else { s1 with mcasts := put k x1 s1.mcasts }

/-- Bytes of a block that a core has written and that no PUSH may replace: those not yet sent, and those of a PUTP that its home has not
merged (R189, R210, log 33). -/
def ownBytes (s : State) (c blk : Nat) (written : BitVec 64) : BitVec 64 :=
  s.net.foldl (fun m x => if x.src = c && x.type = Ty.putp && x.blk = blk then m ||| x.w[2] else m) written

/-- The thread whose write a PUSH carries (R234). -/
def pushWriter (s : State) (m : Msg) : Option Nat := (m.mc.bind fun k => look k s.mcasts).bind (·.writer)

/-- The write that a PUSH makes at a core's memory port is recorded for its writer: the thread whose merge it tells of, or for a PUSH of a
loaded handler the agent its header names (R201). -/
def tracePush (s : State) (c : Nat) (m : Msg) (mask : BitVec 64) : State :=
  match (List.range 64).filter (fun i => mask.getLsbD i) with
  | [] => s
  | i :: r =>
    match pushWriter s m with
    | some w => tracePort s (corePort c) (m.blk * 64 + i) (r.length + 1) (agentOf w) (slotOf w) false
    | none => tracePortBy s (corePort c) (m.blk * 64 + i) (r.length + 1) m.core m.slot m.dev (s.partOf c) false

/-- A PUSH merges its bytes into a line: a write that the core's memory port performs for another agent (R201, R210). -/
def mergePush (s : State) (c : Nat) (m : Msg) (l : Line) : State :=
  let take := m.w[2] &&& ~~~ownBytes s c m.blk l.written
  tracePush (setLine s c m.blk (some { l with data := blkMerge l.data (m.flit.getD l.data) take })) c m take

/-- Apply a forwarded request to the tag the block holds (R210). A busy line that has received BUSY answers as the read-only line
it was and stays busy. Under producer-push a PUSH fills an invalid stash line (R234). -/
def applyForward (s : State) (c : Nat) (m : Msg) : State :=
  let blk := m.blk
  let keep := if m.type = Ty.recall then bits m.w[2] 1 0 else 0
  match lineOf s c blk with
  | none => answer s c m none false
  | some l =>
    if m.type = Ty.push then
      match l.tag with
      | some .busy => if l.kept then answer (mergePush s c m l) c m none true else answer s c m none false
      | some .invalid =>
        if l.stash && s.protoOf (blk * 64) = 4 then
          answer (tracePush (setLine s c blk (some { l with tag := some .readOnly, data := m.flit.getD l.data })) c m (BitVec.allOnes 64)) c m none true
        else answer s c m none false
      | none => answer s c m none false
      | some _ => answer (mergePush s c m l) c m none true
    else
      match l.tag with
      | some .writable =>
        let l1 : Option Line := match keep with
          | 0 => if l.stash then some { l with tag := some .invalid, written := 0, rel := [] } else none
          | 1 => some { l with tag := some .readOnly, written := 0, rel := [] }
          | _ => some { l with rel := [] }
        answer (setLine s c blk l1) c m (some l.data) true
      | some .readOnly =>
        answer (setLine s c blk (if keep = 0 then (if l.stash then some { l with tag := some .invalid } else none) else some l)) c m none true
      | some .busy => answer (setLine s c blk (some { l with kept := l.kept && keep != 0 })) c m none l.kept
      | _ => answer s c m none false

/-- Whether a core issues instructions: its partition runs and is not halted in place, it is not being swapped, and its clock runs (R136,
R354, R361, R410). -/
def works (s : State) (c : Nat) : Bool :=
  let k := s.cluster (clusterOf c)
  k.swap == .none && k.clock == .running && (match k.part with | some p => (s.part p).running && !(s.part p).inPlace && !(s.part p).diverged | none => false)

/-- Whether a slot that a reply re-admitted can still re-execute its access: it is ready, and its core is not halted (R210). -/
def mayReexecute (s : State) (t : Nat) : Bool := (s.slot t).run == .active && works s (agentOf t)

/-- Whether a slot re-executes its access to a block after the reply it was suspended for: it does so from the tag check, and asks for no
ordering again (R209, R268). -/
def retrying (s : State) (t blk : Nat) : Bool :=
  match look blk (s.core (agentOf t)).awaits with | some l => l.contains t | none => false

/-- Whether a grant of a block is on its way to a core (R268). -/
def granting (s : State) (c blk : Nat) : Bool :=
  s.net.any fun m => m.dst = c && m.blk = blk && m.tag < 128 && (m.type = Ty.dataS || m.type = Ty.dataX || (m.type = Ty.ack && bits m.w[2] 1 0 != 0))

/-- Whether a core must hold a forwarded request: its block's request has had no reply, or its grant is on its way, or slots re-admitted
by a reply have not re-executed their access (R210, R268). -/
def mustHold (s : State) (c : Nat) (blk : Nat) : Bool :=
  (match look blk (s.core c).awaits with | some l => l.any (mayReexecute s) | none => false) ||
    (tagOf s c blk = .busy && (match reqFor (s.core c) blk with | some (_, r) => !r.busy || granting s c blk | none => false))

/-- Whether a core holds a forwarded request now: behind another of its block, for a reply, or for the release set of a line that it must
yield (R197, R210). -/
def holds (s : State) (c : Nat) (l : List Msg) (m : Msg) : Bool :=
  mustHold s c m.blk || (l.any fun x => x.blk = m.blk) || (m.type != Ty.push && relPending s c m.blk)

/-- A forwarded request arrives at a core: applied, or held with its release set under way (R210, R197). -/
def forward (s : State) (c : Nat) (m : Msg) : State :=
  if holds s c (s.core c).held m then
    (if mustHold s c m.blk || m.type = Ty.push then s else flushRel s c 0 m.blk).updCore c fun q => { q with held := q.held ++ [m] }
  else applyForward s c m

/-! ## Slots re-admitted by a reply -/

/-- The slots of a core suspended on a block (R209). -/
def suspended (s : State) (c blk : Nat) : List Nat :=
  s.slotsWhere c fun x => match x.run with | .waiting (.line b _) => b = blk | _ => false

/-- Every slot suspended on a block re-executes its access; forwarded requests for the block wait for that (R209, R210). -/
def readmit (s : State) (c blk : Nat) : State :=
  let l := suspended s c blk
  let s1 := l.foldl State.wake s
  s1.updCore c fun q => { q with awaits := if l.isEmpty then q.awaits else put blk l q.awaits }

/-- A slot has re-executed: no block waits for it any more, and a line it might read once is gone (R210, R253). -/
def reexecuted (s : State) (t : Nat) : State :=
  if !onCore t then s else
  let c := agentOf t
  let q := s.core c
  if q.awaits.isEmpty then s else
  let mine := (q.awaits.filter fun a => a.2.contains t).map (·.1)
  if mine.isEmpty then s else
  s.setCore c { q with
    awaits := (q.awaits.map fun a => (a.1, a.2.erase t)).filter fun a => !a.2.isEmpty,
    lines := q.lines.filter fun l => !(mine.contains l.1 && l.2.single.map (·.1) = some t) }

end Sys2Proof.Machine
end

