-- ==== Sys2Proof/Machine/Access.lean ====
section
/-! DEFINITION. Data accesses (spec/07 R159 to R173, spec/08 R195 to R197): the parts of an access, where each is served, loads
and stores of bytes, for slots and for engines. -/

namespace Sys2Proof.Machine

/-- What a step of an instruction gives: a value, a trap, or a wait out of the rotation. -/
inductive Res (α : Type)
  | ok (a : α) (s : State)
  | trap (c : Cause) (v : Word) (s : State)
  | wait (w : Wait) (s : State)

/-- Go on after a step that succeeded. -/
def Res.andThen {α β : Type} (r : Res α) (f : α → State → Res β) : Res β :=
  match r with
  | .ok a s => f a s
  | .trap c v s => .trap c v s
  | .wait w s => .wait w s

/-- A check that gives a trap or a value. -/
def Res.ofExcept {α : Type} (e : Except Trap α) (s : State) : Res α :=
  match e with
  | .ok a => .ok a s
  | .error (c, v) => .trap c v s

/-- Who makes an access: thread, mode, the fields of the instruction (R31), and whether an engine makes it for the slot: its
accesses are relaxed and post no page request (R203, R347). -/
structure By where
  t : Nat
  user : Bool
  q : MemQual
  engine : Bool
deriving DecidableEq, Repr

/-- The current slot's access with the qualifiers of its instruction. -/
def State.by (s : State) (q : MemQual) : By := ⟨s.cur, s.me.mode = .u, q, false⟩

/-- The parts of an access: one for each 64-byte block, ascending (R172). -/
def splitParts (va : Word) (n : Nat) : List (Word × Nat) :=
  let k := Nat.min n (64 - va.toNat % 64)
  if n ≤ k then [(va, n)] else [(va, k), (va + BitVec.ofNat 64 k, n - k)]

/-- Steps 4 to 7 of R334 for one part: lease, translation, permission, page kind against region (R248), a store's page of append class
among them (R175, R176). A demand miss waits for a page request (R346). -/
def translatePart (s : State) (b : By) (k : Kind) (append : Bool) (va : Word) (len : Nat) : Res Part1 :=
  let c := agentOf b.t
  match translate s c b.user k append va with
  | (.trap cause, s) => .trap cause va s
  | (.miss f, s) =>
    if b.engine then .trap k.cause va s else
    match pageRequest s ((s.partOf c).getD 0) f k c (slotOf b.t) with
    | (some tag, s) => .wait (.page tag va k.cause) s
    | (none, s) => .wait .pageFull s
  | (.ok x, s) =>
    if x.ok = 3 && s.protoOf x.pa != 7 then .trap k.cause va s
    else if x.ok = 3 && k = .store && !append then .trap .storeFault va s
    else .ok ⟨va, x.pa, len, x⟩ s

/-- Every part of an access translated and checked before any is performed (R172). -/
def translateParts (s : State) (b : By) (k : Kind) (append : Bool) : List (Word × Nat) → Res (List Part1)
  | [] => .ok [] s
  | (va, n) :: t =>
    (translatePart s b k append va n).andThen fun p s =>
      (translateParts s b k append t).andThen fun ps s => .ok (p :: ps) s

/-- Host memory reached uncached through CXL.io: no region, or a protocol-0 region (R398). -/
def uncachedHost (s : State) (pa : Nat) : Bool := place pa = .host && s.protoOf pa = 0

/-- Whether a block is poisoned (R434). -/
def poisonedBlk (s : State) (blk : Nat) : Bool := s.poisoned.contains blk

/-- The number by which a 64-byte block of a core's local store is known among the poisoned: beyond every physical block (R434, log 85). -/
def lsBlk (c o : Nat) : Nat := 2 ^ 50 + c * 2 ^ 12 + o / 64
/-- The number of a block of a cluster's memory (R434, log 85). -/
def cmBlk (k o : Nat) : Nat := 2 ^ 51 + k * 2 ^ 15 + o / 64
/-- The number of a block of a core's weight buffer (R434, log 85). -/
def wbBlk (c o : Nat) : Nat := 2 ^ 52 + c * 2 ^ 10 + o / 64

/-- The lowest byte of n from an address that lies in a poisoned block of a store whose blocks `f` numbers: its distance from the first
(R434). -/
def poisonAt (s : State) (f : Nat → Nat) (o n : Nat) : Option Nat :=
  if s.poisoned.isEmpty then none else (List.range n).find? fun i => poisonedBlk s (f (o + i))

/-- The ordering of an access under its page's kind (R171, R195). -/
def pageOrd (x : Xlat) (o : MemOrd) : MemOrd :=
  match x.ok with
  | 1 => .sc
  | 2 => .rlx
  | _ => o

/-- Whether a store is a release: its ordering under its page, or a fence before it (R192, R206). -/
def isRelease (s : State) (t : Nat) (x : Xlat) (o : MemOrd) : Bool :=
  let p := pageOrd x o
  p = .rel || p = .sc || (s.slot t).relFence.isSome

/-- The scope of a release: the access's own, or that of a fence before it where it is wider (R206). -/
def relScope (s : State) (t : Nat) (sc : Scope) : Scope :=
  match (s.slot t).relFence with
  | some f => if scopeRank sc < scopeRank f then f else sc
  | none => sc

/-- A release that the core cannot hold lazily: its release set first, and at .SYS the posted writes to the host
(R197, R401). -/
def releaseFirst (s : State) (t : Nat) (sc : Scope) : Res Unit :=
  let c := agentOf t
  if !released s c then .wait .release (flushUnsent s c (slotOf t) (unsent s c))
  else if sc = .sys && s.posted != 0 then .wait .host s
  else .ok () s

/-- What an access of a slot must wait for under its ordering (R126, R192, R194): as .SC, everything of the core and everything it has
seen performed everywhere; as a release, its release set. -/
def orderFirst (s : State) (t : Nat) (o : MemOrd) : Res Unit :=
  let c := agentOf t
  let sent (s : State) : State := flushUnsent s c (slotOf t) (unsent s c)
  match o with
  | .sc => if ordered s c then .ok () s else .wait .order (sent s)
  | .rel => if released s c then .ok () s else .wait .release (sent s)
  | _ => .ok () s

/-- The tag a block needs is there, or the core posts its request and the access waits (R208, R209). `lo` and `n` are the bytes
the access touches within the block (R253); to a page of another device the request names them too, with pte.nr (R393, log 34). -/
def obtain (s : State) (c slot blk : Nat) (store : Bool) (lo n : Nat) (nr stash : Bool) (ev : Fin 8) (va : Word) : Res Unit :=
  let w2 : Word := match s.protoOf (blk * 64) with
    | 7 => BitVec.ofNat 64 (lo + (lo + n - 1) * 2 ^ 6)
    | 8 => BitVec.ofNat 64 (lo + (lo + n - 1) * 2 ^ 6 + bit nr * 2 ^ 12)
    | _ => 0
  let post (type : Nat) : Res Unit := .wait (.line blk va) (request s c slot blk type w2 nr stash ev va)
  match lineOf s c blk with
  | none => post (if store then Ty.getx else Ty.gets)
  | some l =>
    match l.tag with
    | some .writable => .ok () s
    | some .readOnly =>
      if store then post Ty.upg
      else match l.single with
        | none => .ok () s
        | some (t, f, e) => if t = threadOf c slot && f ≤ lo && lo + n ≤ e + 1 then .ok () s else post Ty.gets
    | some .busy => .wait (.line blk va) s
    | _ => post (if store then Ty.getx else Ty.gets)

/-- A direct block with a core's own written bytes over it (R164, R169). -/
def ownDirect (s : State) (c blk : Nat) (m : Block) : Block :=
  match lineOf s c blk with
  | some l => if l.stash then l.data else blkMerge m l.data l.written
  | none => m

/-- The bytes of a direct block that its cluster's L2 or memory holds. -/
def l2Block (s : State) (c blk : Nat) : Block :=
  let m := s.mem.block (blk * 64)
  match look blk (s.cluster (clusterOf c)).l2dirty with | some l => blkMerge m l.data l.written | none => m

/-- The bytes of a direct block as a core sees them through its caches: its own written bytes, then those of its cluster's L2, then
memory (R164, R169). -/
def directBlock (s : State) (c blk : Nat) : Block := ownDirect s c blk (l2Block s c blk)

/-- A direct block as a load of a scope finds it (R164, R169). At .DIE or wider it comes from the home, past the cluster L2: a core that
has written or read what the L2 holds sees it still, and for another a free choice says whether the L2 has sent it home first (log 55). -/
def directLoad (s : State) (c blk : Nat) (sc : Scope) (ev : Fin 8) : Block × State :=
  match look blk (s.cluster (clusterOf c)).l2dirty with
  | none => (directBlock s c blk, s)
  | some l =>
    if scopeRank sc < 2 || l.seen.contains c then (directBlock s c blk, seeL2 s c blk ev) else
    let (b, s1) := s.freeBool
    if b then (directBlock s1 c blk, seeL2 s1 c blk ev) else (ownDirect s1 c blk (s1.mem.block (blk * 64)), s1)

/-- A stash line over a direct region is filled on its first touch (R163). -/
def fillDirectStash (s : State) (c blk : Nat) (va : Word) : State :=
  let v := va.toNat / 64 * 64
  match lineOf s c blk with
  | some l =>
    if l.stash then s
    else setLine s c blk (some { l with stash := true, stream := none, va := v, data := directBlock s c blk, written := l.written })
  | none => setLine s c blk (some { tag := none, data := directBlock s c blk, stash := true, va := v })

/-- A line reached through a stash mapping is a stash line (R162). One that L1 held when the mapping was made moves into the stash as it
is (log 56). -/
def markStash (s : State) (c blk : Nat) (st : Bool) (va : Word) : State :=
  if !st then s else
  match lineOf s c blk with
  | some l => if l.stash then s else setLine s c blk (some { l with stash := true, l2 := false, stream := none, va := va.toNat / 64 * 64 })
  | none => s

/-- Whether the block of an access is a stash line already: its first touch is served by its home (R163). -/
def inStash (s : State) (c blk : Nat) : Bool := match lineOf s c blk with | some l => l.stash | none => false

/-- Whether a direct load is served beyond the core: by a cluster, a home or the host (R104, R164). -/
def farLoad (s : State) (c blk lo n : Nat) (sc : Scope) : Bool :=
  match lineOf s c blk with
  | some l => !(l.stash || (scopeRank sc < 2 && (List.range n).all fun i => l.written.getLsbD (lo + i)))
  | none => true

/-- The core whose deque backing area n bytes from an address touch, in the partition of a core (R133, R416). -/
def backingOf (s : State) (c : Nat) (va : Word) (n : Nat) : Option Nat :=
  match s.cfgOf c with
  | none => none
  | some k =>
    if k.backing = 0 || va.toNat + n ≤ k.backing then none
    else (coreSet k)[(va.toNat - k.backing) / 0x40000]?

/-- One part of a load: its bytes, and how the access leaves the rotation when it is served beyond the core (R164, R208). A mapping over
uncached host memory holds its lines as one over a direct region does (R162, log 79). -/
def loadPartMem (s : State) (b : By) (p : Part1) : Res (List Byte × Option Wait) :=
  let c := agentOf b.t
  let blk := p.pa / 64
  let lo := p.pa % 64
  let st := (stashOf (s.core c) p.va.toNat).isSome
  if poisonedBlk s blk then .trap .loadFault p.va s
  else if uncachedHost s p.pa && !st then .ok (s.mem.bytes p.pa p.len, some .host) s
  else
    if s.protoOf p.pa = 0 && biasAway s p.pa then .wait (.home blk) (askDevice s p.pa)
    else if s.protoOf p.pa = 0 then
      let far := if st then !inStash s c blk else farLoad s c blk lo p.len b.q.scope
      let s1 := if st then fillDirectStash s c blk p.va else s
      let (m, s2) := directLoad s1 c blk (if st then .core else b.q.scope) b.q.ev
      .ok (blkBytes m lo p.len, if far then some .access else none) (if st then s2 else touch s2 c (slotOf b.t) blk b.q.ev)
    else
      (obtain s c (slotOf b.t) blk false lo p.len p.x.nr st b.q.ev p.va).andThen fun _ s =>
        let s1 := markStash (touch s c (slotOf b.t) blk b.q.ev) c blk st p.va
        match lineOf s1 c blk with
        | some l => .ok (blkBytes l.data lo p.len, none) s1
        | none => .ok (List.replicate p.len 0, none) s1

/-- One part of a load; a deque's backing area reads as undefined bytes (R133, log 11). -/
def loadPart (s : State) (b : By) (p : Part1) : Res (List Byte × Option Wait) :=
  (loadPartMem s b p).andThen fun r s =>
    if (backingOf s (agentOf b.t) p.va p.len).isNone then .ok r s else
    let (v, s1) := s.freeBelow (2 ^ (8 * p.len))
    .ok (leBytes p.len v, r.2) s1

/-- The parts of a load in ascending order (R172). -/
def loadParts (s : State) (b : By) : List Part1 → Res (List Byte × Option Wait)
  | [] => .ok ([], none) s
  | p :: t =>
    (loadPart s b p).andThen fun (l, w) s =>
      (loadParts s b t).andThen fun (l', w') s => .ok (l ++ l', match w with | some x => some x | none => w') s

/-- A part is ready to be stored to: the tag permits it, and a release that must come first has been made (R172, R197, R208). -/
def storeReady (s : State) (b : By) (p : Part1) : Res Unit :=
  let c := agentOf b.t
  let blk := p.pa / 64
  let proto := s.protoOf p.pa
  let rel := !b.engine && isRelease s b.t p.x b.q.ord
  let lazy := proto = 1 || proto = 3 || proto = 5 || proto = 8
  let first : Res Unit :=
    if b.engine || retrying s b.t blk then .ok () s
    else if pageOrd p.x b.q.ord = .sc && !seenSettled s c then .wait .order s
    else if rel && !lazy then releaseFirst s b.t (relScope s b.t b.q.scope)
    else .ok () s
  first.andThen fun _ s =>
    if proto = 0 then (if biasAway s p.pa then .wait (.home blk) (askDevice s p.pa) else .ok () s)
    else obtain s c (slotOf b.t) blk true (p.pa % 64) p.len p.x.nr (stashOf (s.core c) p.va.toNat).isSome b.q.ev p.va

/-- A store to a deque's backing area leaves an undefined record in some entry of it, if it is used (R133, log 11): a range record or
another, with undefined fields. -/
def spoilBacking (s : State) (c : Nat) : State :=
  let (i, s1) := s.freeBelow 4096
  let (code, s2) := s1.freeWord
  let (frame, s3) := s2.freeWord
  let (arg, s4) := s3.freeWord
  let (join, s5) := s4.freeWord
  let (ranged, s6) := s5.freeBool
  let (lo, s7) := s6.freeWord
  let (hi, s8) := s7.freeWord
  let (grain, s9) := s8.freeWord
  s9.updCore c fun q => { q with backing := q.backing.set i ({
      code := code, frame := frame, arg := arg, join := join, range := if ranged then some (lo, hi, grain) else none, first := c } : Rec) }

/-- A direct store in the core's L1 (R164, R170). -/
def storeDirectL1 (s : State) (c slot blk : Nat) (ev : Fin 8) (b : Block) (mask : BitVec 64) : State :=
  let s1 := match lineOf s c blk with
    | some _ => touch s c slot blk ev
    | none => fillLine s c slot blk { tag := none, prio := ev, stream := streamOf slot ev }
  match lineOf s1 c blk with
  | some x => setLine s1 c blk (some { x with data := blkMerge x.data b mask, written := x.written ||| mask })
  | none => s1

/-- Bytes of a direct block that a wider store covers leave the core's L1 (R169). -/
def coverL1 (s : State) (c blk : Nat) (mask : BitVec 64) : State :=
  match lineOf s c blk with
  | some x => setLine s c blk (some { x with written := x.written &&& ~~~mask })
  | none => s

/-- One part of a store, performed (R164, R175, R196). A store at .CLU and .E0 of a block that the cluster L2 does not hold allocates nothing
there and goes on to the home (R170). -/
def storePartMem (s : State) (b : By) (p : Part1) (l : List Byte) : State × Option Wait :=
  let c := agentOf b.t
  let blk := p.pa / 64
  let lo := p.pa % 64
  let mask := maskRange lo l.length
  let st := (stashOf (s.core c) p.va.toNat).isSome
  if uncachedHost s p.pa && !st then ({ s with mem := s.mem.wrBytes p.pa l, posted := s.posted + 1 }, some .access)
  else if s.protoOf p.pa = 0 then
    if st then
      let s1 := fillDirectStash s c blk p.va
      match lineOf s1 c blk with
      | some x => (setLine s1 c blk (some { x with data := blkPut x.data lo l, written := x.written ||| mask }), if inStash s c blk then none else some .access)
      | none => (s1, none)
    else match b.q.scope with
    | .core => (storeDirectL1 s c (slotOf b.t) blk b.q.ev (blkPut 0 lo l) mask, none)
    | .clu =>
      match look blk (s.cluster (clusterOf c)).l2dirty with
      | some x => (mergeL2 (coverL1 s c blk mask) c blk (if b.q.ev = 0 then x.prio else b.q.ev) (blkPut 0 lo l) mask, some .access)
      | none =>
        if b.q.ev = 0 then (portWrite (coverL1 s c blk mask) p.pa l c (slotOf b.t), some .access)
        else (settleL2 (mergeL2 (coverL1 s c blk mask) c blk b.q.ev (blkPut 0 lo l) mask) (clusterOf c) blk, some .access)
    | _ => (portWrite (coverL2 (coverL1 s c blk mask) (clusterOf c) blk mask) p.pa l c (slotOf b.t), some .access)
  else
    let s1 := markStash (touch s c (slotOf b.t) blk b.q.ev) c blk st p.va
    match lineOf s1 c blk with
    | none => (s1, none)
    | some x =>
      let rel := if !b.engine && isRelease s1 b.t p.x b.q.ord then
          x.rel ++ (releaseSet s1 c (relScope s1 b.t b.q.scope = .sys)).filter fun i => i != blk && !x.rel.contains i
        else x.rel
      (setLine s1 c blk (some { x with data := blkPut x.data lo l, written := x.written ||| mask, rel := rel }), none)

/-- A block written whole is poisoned no more (R434). -/
def unpoison (s : State) (blk : Nat) : State := if poisonedBlk s blk then { s with poisoned := s.poisoned.erase blk } else s

/-- Blocks that a store of n bytes from an offset of a store covers whole are poisoned no more (R434). -/
def unpoisonIn (s : State) (f : Nat → Nat) (o n : Nat) : State :=
  if s.poisoned.isEmpty then s else
  { s with poisoned := s.poisoned.filter fun b => !((List.range (n / 64)).any fun i => (o + 63) / 64 * 64 + 64 * (i + 1) ≤ o + n && b = f ((o + 63) / 64 * 64 + 64 * i)) }

/-- One part of a store, performed, with what it does to a deque's backing area (R133) and to a poisoned block (R434). -/
def storePart (s : State) (b : By) (p : Part1) (l : List Byte) : State × Option Wait :=
  let (s0, w) := storePartMem s b p l
  let s1 := if p.len = 64 then unpoison s0 (p.pa / 64) else s0
  match backingOf s1 (agentOf b.t) p.va p.len with
  | some c => (spoilBacking s1 c, w)
  | none => (s1, w)

/-- Whether every part of a store is ready, in ascending order. -/
def storesReady (s : State) (b : By) : List Part1 → Res Unit
  | [] => .ok () s
  | p :: t => (storeReady s b p).andThen fun _ s => storesReady s b t

/-- The parts of a store in ascending order (R172). -/
def storeParts (s : State) (b : By) : List Part1 → List Byte → State × Option Wait
  | [], _ => (s, none)
  | p :: t, l =>
    let (s1, w) := storePart s b p (l.take p.len)
    let (s2, w') := storeParts s1 b t (l.drop p.len)
    (s2, match w with | some x => some x | none => w')

/-- Whether a write of ls.split is in progress on a core: its local-store accesses wait (R96). -/
def lsBusy (s : State) (c : Nat) : Bool :=
  !(s.slotsWhere c fun x => match x.run with | .waiting (.lsSplit _) => true | _ => false).isEmpty

/-- A local-store access waits for a write of ls.split in progress (R96). -/
def lsFree (s : State) (c : Nat) : Res Unit := if lsBusy s c then .wait .lsBusy s else .ok () s

/-- An access whose parts lie in the stash is a local-store access (R96, R161). -/
def stashFree (s : State) (c : Nat) (ps : List Part1) : Res Unit :=
  if ps.any fun p => (stashOf (s.core c) p.va.toNat).isSome then lsFree s c else .ok () s

/-- An access to the core's own scratchpad is checked under the split that a write of ls.split in progress leaves: it waits for that first
(R96). -/
def lsFirst (s : State) (t : Nat) (ea : Word) : Res Unit :=
  if spaceOf ea = some .spd && fld ea.toNat 45 11 = agentOf t then lsFree s (agentOf t) else .ok () s

/-- The checks of an access of n bytes at a generic pointer: where its bytes lie (R159, R172, R334). -/
def accessDest (s : State) (b : By) (k : Kind) (ea : Word) (n align : Nat) : Res Dest :=
  (lsFirst s b.t ea).andThen fun _ s => (Res.ofExcept (checkAddr s b.t k ea n align) s).andThen fun tg s =>
    match tg with
    | .ls o => .ok (.ls o) s
    | .cm o => .ok (.cm o) s
    | .glb va => (translateParts s b k false (splitParts va n)).andThen fun ps s => .ok (.glb ps) s

/-- The pointer of a byte of the core's scratchpad, from its offset in the local store (R156, R353). -/
def spPointer (s : State) (c o : Nat) : Word := BitVec.ofNat 64 (0xFE * 2 ^ 56 + c * 2 ^ 45 + (o - (s.half c).1 * 0x4000))
/-- The pointer of a byte of a cluster's window, from its offset in cluster memory (R156, R353). -/
def winPointer (s : State) (c o : Nat) : Word :=
  BitVec.ofNat 64 (0xFD * 2 ^ 56 + clusterOf c * 2 ^ 48 + (o - s.winOffset c 0))

/-- The ordering that a load's parts ask for together: each part has its own page's (R171, R172, R195); an engine's accesses are relaxed
(R203). -/
def loadOrd (b : By) (ps : List Part1) : MemOrd :=
  let l := ps.map fun p => pageOrd p.x b.q.ord
  if b.engine then .rlx else if l.contains .sc then .sc else if l.contains .rel then .rel else .rlx

/-- A load whose address has been checked: its bytes (R175). The scratchpad is private to the core and asks for no ordering beyond it
(R169). -/
def loadDest (s : State) (b : By) (d : Dest) (n : Nat) : Res (List Byte × Option Wait) :=
  let c := agentOf b.t
  match d with
  | .ls o => (lsFree s c).andThen fun _ s =>
      match poisonAt s (lsBlk c) o n with
      | some i => .trap .loadFault (spPointer s c (o + i)) s
      | none => .ok ((s.core c).ls.bytes o n, none) s
  | .cm o => (orderFirst s b.t (if b.engine then .rlx else b.q.ord)).andThen fun _ s =>
      match poisonAt s (cmBlk (clusterOf c)) o n with
      | some i => .trap .loadFault (winPointer s c (o + i)) s
      | none => .ok ((s.cluster (clusterOf c)).cmem.bytes o n, some .access) s
  | .glb ps =>
    (if ps.any fun p => retrying s b.t (p.pa / 64) then .ok () s else orderFirst s b.t (loadOrd b ps)).andThen fun _ s => (stashFree s c ps).andThen fun _ s => loadParts s b ps

/-- A load of n bytes at a generic pointer (R175). -/
def loadBytes (s : State) (b : By) (ea : Word) (n align : Nat) : Res (List Byte × Option Wait) :=
  (accessDest s b .load ea n align).andThen fun d s => loadDest s b d n

/-- A store whose address has been checked (R175). -/
def storeDest (s : State) (b : By) (d : Dest) (l : List Byte) : Res (Option Wait) :=
  let c := agentOf b.t
  let rel := !b.engine && (b.q.ord = .rel || b.q.ord = .sc || (s.slot b.t).relFence.isSome)
  match d with
  | .ls o =>
    (if rel then releaseFirst s b.t .core else .ok () s).andThen fun _ s => (lsFree s c).andThen fun _ s =>
      .ok none (unpoisonIn (s.updCore c fun q => { q with ls := q.ls.wrBytes o l }) (lsBlk c) o l.length)
  | .cm o =>
    (if rel then releaseFirst s b.t .clu else .ok () s).andThen fun _ s =>
      .ok (some .access) (unpoisonIn (s.updCluster (clusterOf c) fun k => { k with cmem := k.cmem.wrBytes o l }) (cmBlk (clusterOf c)) o l.length)
  | .glb ps =>
    (stashFree s c ps).andThen fun _ s => (storesReady s b ps).andThen fun _ s =>
      let (s1, w) := storeParts s b ps l
      .ok w s1

/-- A store of bytes at a generic pointer (R175). -/
def storeBytes (s : State) (b : By) (ea : Word) (l : List Byte) (align : Nat) : Res (Option Wait) :=
  (accessDest s b .store ea l.length align).andThen fun d s => storeDest s b d l

end Sys2Proof.Machine
end

