-- ==== Sys2Proof/Machine/Flags.lean ====
section
/-! DEFINITION. Number formats, rounding and the floating-point flags (spec/03 R50 to R71). A finite value is a sign, a natural
mantissa and a power of two, so every result is computed exactly and rounded once. -/

namespace Sys2Proof.Machine

/-- Sticky flags of fp.flags: nv 0, dz 1, of 2, uf 3, nx 4 (R15). -/
abbrev FFlags := BitVec 5
def Fl.nv : FFlags := 1
def Fl.dz : FFlags := 2
def Fl.of : FFlags := 4
def Fl.uf : FFlags := 8
def Fl.nx : FFlags := 16

/-- Floating-point formats (R50, R52, R55). -/
inductive Fmt | f32 | f16 | bf16 | e5 | e4 | t8 | f6a | f6b | f4
deriving DecidableEq, Repr

/-- Width in bits of a format (R50). -/
def Fmt.width : Fmt → Nat
  | .f32 => 32 | .f16 => 16 | .bf16 => 16 | .e5 => 8 | .e4 => 8 | .t8 => 8 | .f6a => 6 | .f6b => 6 | .f4 => 4
/-- Fraction bits (R52). -/
def Fmt.frac : Fmt → Nat
  | .f32 => 23 | .f16 => 10 | .bf16 => 7 | .e5 => 2 | .e4 => 3 | .t8 => 4 | .f6a => 2 | .f6b => 3 | .f4 => 1
/-- Exponent bias (R52). -/
def Fmt.bias : Fmt → Nat
  | .f32 => 127 | .f16 => 15 | .bf16 => 127 | .e5 => 15 | .e4 => 7 | .t8 => 0 | .f6a => 3 | .f6b => 1 | .f4 => 1
/-- Formats with infinities and NaNs of IEEE 754 (R52). -/
def Fmt.ieee : Fmt → Bool
  | .f32 | .f16 | .bf16 | .e5 => true
  | .e4 | .t8 | .f6a | .f6b | .f4 => false
/-- Magnitude code of the largest finite value (R52, R56). -/
def Fmt.maxCode : Fmt → Nat
  | .f32 => 0x7F7FFFFF | .f16 => 0x7BFF | .bf16 => 0x7F7F | .e5 => 0x7B | .e4 => 0x7E | .t8 => 0x7F | .f6a => 0x1F | .f6b => 0x1F
  | .f4 => 0x7
/-- Magnitude code of infinity (R52). -/
def Fmt.infCode : Fmt → Nat
  | .f32 => 0x7F800000 | .f16 => 0x7C00 | .bf16 => 0x7F80 | .e5 => 0x7C | f => f.maxCode
/-- Canonical NaN, or NaR (R53); a format without NaN has +0 there (R69). -/
def Fmt.nan : Fmt → Nat
  | .f32 => 0x7FC00000 | .f16 => 0x7E00 | .bf16 => 0x7FC0 | .e5 => 0x7E | .e4 => 0x7F | .t8 => 0x80 | _ => 0
/-- The sign bit's place. -/
def Fmt.signBit (f : Fmt) : Nat := 2 ^ (f.width - 1)
/-- Exponent of the smallest subnormal (R52). -/
def Fmt.qmin (f : Fmt) : Int := 1 - (f.bias : Int) - (f.frac : Int)

/-- A decoded value. -/
inductive FVal
  | fin (neg : Bool) (m : Nat) (e : Int)
  | inf (neg : Bool)
  | nan (signalling : Bool)
  | nar
deriving DecidableEq, Repr

/-- Number of bits of a natural number. -/
def bitLen (n : Nat) : Nat := if n = 0 then 0 else Nat.log2 n + 1

/-- Bits of a T8 body equal to q from bit i downward (R55). -/
def t8Run (body : Nat) (q : Bool) : Nat → Nat
  | 0 => 0
  | i + 1 => if Nat.testBit body i = q then t8Run body q i + 1 else 0

/-- Decode a T8 magnitude 1 to 127 (R55): mantissa and exponent. -/
def t8Mag (body : Nat) : Nat × Int :=
  let q := Nat.testBit body 6
  let l := t8Run body q 7
  let k : Int := if q then (l : Int) - 1 else -(l : Int)
  let rest := 6 - l
  let e := if 1 ≤ rest then fld body (rest - 1) 1 else 0
  let w := rest - 1
  let f := fld body 0 w
  (2 ^ w + f, 2 * k + (e : Int) - (w : Int))

/-- The value of a code (R52, R53, R55). -/
def unpack (f : Fmt) (c0 : Nat) : FVal :=
  let c := c0 % 2 ^ f.width
  let neg := f.signBit ≤ c
  let a := c % f.signBit
  match f with
  | .t8 => if a = 0 then (if neg then .nar else .fin false 0 0) else let (m, e) := t8Mag a; .fin neg m e
  | _ =>
    if f.ieee && f.infCode ≤ a then
      if a = f.infCode then .inf neg else .nan (!Nat.testBit a (f.frac - 1))
    else if f = .e4 && a = 0x7F then .nan false
    else
      let ex := a / 2 ^ f.frac
      let fr := a % 2 ^ f.frac
      if ex = 0 then .fin neg fr f.qmin else .fin neg (fr + 2 ^ f.frac) (f.qmin + ((ex : Int) - 1))

/-- An exact non-zero magnitude m * 2^e, or a value strictly between m * 2^e and (m + 1) * 2^e when sticky, with its sign. -/
structure Ex where
  neg : Bool
  m : Nat
  e : Int
  sticky : Bool := false
deriving DecidableEq, Repr

/-- Rounding modes by fp.mode.rm: 0 nearest even, 1 toward zero, 2 down, 3 up, 4 nearest away (R15). -/
abbrev Rm := BitVec 3

/-- Whether the magnitude rounds up, from the comparison of the discarded part with one half (`none`: nothing discarded, else
the ordering against half) and the parity of the lower neighbour (R64). -/
def roundUp (rm : Rm) (neg odd : Bool) (part : Option Ordering) : Bool :=
  match part with
  | none => false
  | some o =>
    match rm.toNat with
    | 0 => o = .gt || (o = .eq && odd)
    | 1 => false
    | 2 => neg
    | 3 => !neg
    | _ => o != .lt

/-- The discarded part of a magnitude below quantum 2^sh, against half of the quantum. -/
def discarded (m sh : Nat) (sticky : Bool) : Option Ordering :=
  let r := m % 2 ^ sh
  if r = 0 && !sticky then none
  else if sh = 0 then some .lt
  else
    let h := 2 ^ (sh - 1)
    some (if r < h then .lt else if r = h && !sticky then .eq else .gt)

/-- A magnitude rounded to quantum 2^q: the multiple of the quantum, and whether it is inexact. -/
def quantise (rm : Rm) (x : Ex) (q : Int) : Nat × Bool :=
  if q ≤ x.e then
    let n := x.m * 2 ^ (x.e - q).toNat
    if x.sticky then (if roundUp rm x.neg (n % 2 = 1) (some .lt) then n + 1 else n, true) else (n, false)
  else
    let sh := (q - x.e).toNat
    let n := x.m / 2 ^ sh
    let d := discarded x.m sh x.sticky
    (if roundUp rm x.neg (n % 2 = 1) d then n + 1 else n, d.isSome)

/-- A rounded result: its code and the flags it calls for (R66). -/
structure Rnd where
  code : Nat
  flags : FFlags := 0
deriving DecidableEq, Repr

/-- A code with a sign. -/
def Fmt.signed (f : Fmt) (neg : Bool) (a : Nat) : Nat := if neg then a + f.signBit else a

/-- A zero of a format; T8 has one zero (R64). -/
def Fmt.zero (f : Fmt) (neg : Bool) : Nat := if f = .t8 then 0 else f.signed neg 0

/-- Compare m1 * 2^e1 (with a sticky excess) to m2 * 2^e2. -/
def cmpMag (x : Ex) (m2 : Nat) (e2 : Int) : Ordering :=
  let lo := if x.e ≤ e2 then x.e else e2
  let a := x.m * 2 ^ (x.e - lo).toNat
  let b := m2 * 2 ^ (e2 - lo).toNat
  if a < b then .lt else if b < a then .gt else if x.sticky then .gt else .eq

/-- The greatest T8 magnitude code from 1 to 127 whose value does not exceed x; 0 when there is none. Codes rise with values
(R56); the argument counts down from 127. -/
def t8Floor (x : Ex) : Nat → Nat
  | 0 => 0
  | n + 1 => let (m, e) := t8Mag (n + 1); if cmpMag x m e = .lt then t8Floor x n else n + 1

/-- The midpoint of two T8 magnitudes, as mantissa and exponent. -/
def t8Mid (a b : Nat) : Nat × Int :=
  let (ma, ea) := t8Mag a
  let (mb, eb) := t8Mag b
  let lo := if ea ≤ eb then ea else eb
  (ma * 2 ^ (ea - lo).toNat + mb * 2 ^ (eb - lo).toNat, lo - 1)

/-- Round to T8 (R64, R65): magnitudes beyond the ends are forced to them. -/
def roundT8 (rm : Rm) (x : Ex) : Rnd :=
  let f : Fmt := .t8
  let b := t8Floor x 127
  if b = 0 then ⟨f.signed x.neg 1, Fl.uf ||| Fl.nx⟩
  else
    let (m, e) := t8Mag b
    if cmpMag x m e = .eq then ⟨f.signed x.neg b, 0⟩
    else if b = 127 then ⟨f.signed x.neg 127, Fl.of ||| Fl.nx⟩
    else
      let (hm, he) := t8Mid b (b + 1)
      let up := roundUp rm x.neg (b % 2 = 1) (some (cmpMag x hm he))
      ⟨f.signed x.neg (if up then b + 1 else b), Fl.nx⟩

/-- Round to a binary format (R64 to R66). -/
def roundBin (f : Fmt) (rm : Rm) (x : Ex) : Rnd :=
  let p := f.frac + 1
  let q0 : Int := x.e + (bitLen x.m : Int) - (p : Int)
  let q := if q0 < f.qmin then f.qmin else q0
  let (n, inexact) := quantise rm x q
  let (n0, _) := quantise rm x q0
  let tiny := cmpMag ⟨x.neg, n0, q0, false⟩ (2 ^ f.frac) f.qmin = .lt
  let code := (q - f.qmin).toNat * 2 ^ f.frac + n
  let crosses : Bool :=
    if f = .f6a || f = .f6b || f = .f4 then
      (match unpack f f.maxCode with | .fin _ m e => cmpMag x m e = .gt | _ => false)
    else decide (f.maxCode < code)
  if crosses then
    let toInf := f.ieee && (rm.toNat = 0 || 4 ≤ rm.toNat || (rm.toNat = 2 && x.neg) || (rm.toNat = 3 && !x.neg))
    ⟨f.signed x.neg (if toInf then f.infCode else f.maxCode), Fl.of ||| Fl.nx⟩
  else ⟨f.signed x.neg code, (if inexact then Fl.nx else 0) ||| (if tiny && inexact then Fl.uf else 0)⟩

/-- Round an exact non-zero value to a format (R64 to R66). -/
def roundTo (f : Fmt) (rm : Rm) (x : Ex) : Rnd := if f = .t8 then roundT8 rm x else roundBin f rm x

/-- One draw of the xorshift32 generator (R67). -/
def xorshift (x0 : BitVec 32) : BitVec 32 :=
  let x1 := x0 ^^^ (x0 <<< 13)
  let x2 := x1 ^^^ (x1 >>> 17)
  x2 ^^^ (x2 <<< 5)

/-- A stochastic conversion of an exact value with draw q (R68). A value beyond the largest finite one, and a T8 value below the
smallest, is delivered as nearest even gives it. -/
def roundSr (f : Fmt) (q : BitVec 32) (x : Ex) : Rnd :=
  let near := roundTo f 0 x
  let u := q.toNat / 2 ^ 8
  if near.flags &&& Fl.nx = 0 then near
  else if f = .t8 then
    let b := t8Floor x 127
    if b = 0 || b = 127 then near else
    let (ma, ea) := t8Mag b
    let (mb, eb) := t8Mag (b + 1)
    let lo := if x.e ≤ ea then x.e else ea
    let sc (m : Nat) (e : Int) : Nat := m * 2 ^ (e - lo).toNat
    let t := 2 ^ 24 * (sc x.m x.e - sc ma ea) / (sc mb eb - sc ma ea)
    ⟨f.signed x.neg (if u < t then b + 1 else b), near.flags⟩
  else
    match unpack f f.maxCode with
    | .fin _ mm me =>
      if cmpMag x mm me = .gt then near else
      let q0 : Int := x.e + (bitLen x.m : Int) - ((f.frac + 1 : Nat) : Int)
      let qq := if q0 < f.qmin then f.qmin else q0
      let sh := (qq - x.e).toNat
      let n := x.m / 2 ^ sh
      let t := 2 ^ 24 * (x.m % 2 ^ sh) / 2 ^ sh
      let code := (qq - f.qmin).toNat * 2 ^ f.frac + n
      ⟨f.signed x.neg (if u < t then code + 1 else code), near.flags⟩
    | _ => near

/-! ## Exact sums and products -/

/-- A signed dyadic number m * 2^e. -/
structure Dy where
  m : Int
  e : Int
deriving DecidableEq, Repr

/-- Exact sum. -/
def Dy.add (a b : Dy) : Dy :=
  let lo := if a.e ≤ b.e then a.e else b.e
  ⟨a.m * 2 ^ (a.e - lo).toNat + b.m * 2 ^ (b.e - lo).toNat, lo⟩

/-- Exact product. -/
def Dy.mul (a b : Dy) : Dy := ⟨a.m * b.m, a.e + b.e⟩

/-- The dyadic number of a finite value. -/
def dyOf (neg : Bool) (m : Nat) (e : Int) : Dy := ⟨if neg then -(m : Int) else m, e⟩

/-- A dyadic number rounded; a zero takes the given sign (R64). -/
def roundDy (f : Fmt) (rm : Rm) (negZero : Bool) (x : Dy) : Rnd :=
  if x.m = 0 then ⟨f.zero negZero, 0⟩ else roundTo f rm ⟨x.m < 0, x.m.natAbs, x.e, false⟩

/-- The sign of an exact zero sum (R64): negative when every term is a negative zero, and otherwise in mode down. -/
def zeroSign (rm : Rm) (allNegZero : Bool) : Bool := allNegZero || rm.toNat = 2

/-- Whether a value is a NaN or NaR. -/
def FVal.isNan : FVal → Bool
  | .nan _ | .nar => true
  | _ => false
/-- Whether a value is a signalling NaN. -/
def FVal.isSnan : FVal → Bool
  | .nan b => b
  | _ => false
/-- Negate a value. -/
def FVal.neg : FVal → FVal
  | .fin n m e => .fin (!n) m e
  | .inf n => .inf !n
  | x => x
/-- Whether a value is a zero of negative sign. -/
def FVal.isNegZero : FVal → Bool
  | .fin true 0 _ => true
  | _ => false

/-- The NaN result of an operation, with nv when an operand signals. -/
def nanResult (f : Fmt) (signals : Bool) : Rnd := ⟨f.nan, if signals then Fl.nv else 0⟩

/-- An exact sum of values rounded once (R64, R87, R119): NaN and NaR first, then infinities. A quiet NaN lane of VREDSUM beside infinities
of both signs gives no nv: of the two bullets of R119 that meet there the first alone is taken (log 81). -/
def sumRound (f : Fmt) (rm : Rm) (negZero : Bool) (l : List FVal) : Rnd :=
  if l.any FVal.isNan then nanResult f (l.any FVal.isSnan)
  else
    let pos := l.any fun x => x = .inf false
    let neg := l.any fun x => x = .inf true
    if pos && neg then ⟨f.nan, Fl.nv⟩
    else if pos then ⟨f.infCode, 0⟩
    else if neg then ⟨f.signed true f.infCode, 0⟩
    else roundDy f rm negZero (l.foldl (fun s x => match x with | .fin n m e => s.add (dyOf n m e) | _ => s) ⟨0, 0⟩)

/-- a + b (R86). -/
def fAdd (f : Fmt) (rm : Rm) (a b : Nat) : Rnd :=
  let x := unpack f a
  let y := unpack f b
  sumRound f rm (zeroSign rm (x.isNegZero && y.isNegZero)) [x, y]

/-- a - b (R86). -/
def fSub (f : Fmt) (rm : Rm) (a b : Nat) : Rnd :=
  let x := unpack f a
  let y := (unpack f b).neg
  sumRound f rm (zeroSign rm (x.isNegZero && y.isNegZero)) [x, y]

/-- The exact product of two values; `none` when it is zero times infinity. -/
def prod (x y : FVal) : Option FVal :=
  match x, y with
  | .fin a m e, .fin b n g => some (.fin (a != b) (m * n) (e + g))
  | .fin a m _, .inf b => if m = 0 then none else some (.inf (a != b))
  | .inf a, .fin b n _ => if n = 0 then none else some (.inf (a != b))
  | .inf a, .inf b => some (.inf (a != b))
  | _, _ => some (.nan false)

/-- a * b (R86). -/
def fMul (f : Fmt) (rm : Rm) (a b : Nat) : Rnd :=
  let x := unpack f a
  let y := unpack f b
  if x.isNan || y.isNan then nanResult f (x.isSnan || y.isSnan)
  else match prod x y with
    | none => ⟨f.nan, Fl.nv⟩
    | some (.inf n) => ⟨f.signed n f.infCode, 0⟩
    | some (.fin n m e) => if m = 0 then ⟨f.zero n, 0⟩ else roundTo f rm ⟨n, m, e, false⟩
    | some _ => ⟨f.nan, 0⟩

/-- A quotient of positive magnitudes to 96 bits and a sticky rest. -/
def divEx (neg : Bool) (m : Nat) (e : Int) (n : Nat) (g : Int) : Ex :=
  let sh := 96 + bitLen n
  let a := m * 2 ^ sh
  ⟨neg, a / n, e - g - (sh : Int), a % n != 0⟩

/-- a / b (R86, R57). -/
def fDiv (f : Fmt) (rm : Rm) (a b : Nat) : Rnd :=
  let x := unpack f a
  let y := unpack f b
  if x.isNan || y.isNan then nanResult f (x.isSnan || y.isSnan)
  else match x, y with
    | .inf _, .inf _ => ⟨f.nan, Fl.nv⟩
    | .inf n, .fin k _ _ => ⟨f.signed (n != k) f.infCode, 0⟩
    | .fin n _ _, .inf k => ⟨f.zero (n != k), 0⟩
    | .fin n m e, .fin k d g =>
      if d = 0 then
        if m = 0 then ⟨f.nan, Fl.nv⟩
        else if f = .t8 then ⟨f.nan, Fl.dz⟩
        else ⟨f.signed (n != k) f.infCode, Fl.dz⟩
      else if m = 0 then ⟨f.zero (n != k), 0⟩
      else roundTo f rm (divEx (n != k) m e d g)
    | _, _ => ⟨f.nan, 0⟩

/-- Integer square root by bits from the top: `b` counts the bits left. -/
def isqrt (n : Nat) : Nat → Nat → Nat
  | 0, r => r
  | b + 1, r => let t := r + 2 ^ b; isqrt n b (if t * t ≤ n then t else r)

/-- A square root of a positive magnitude to more than 96 bits and a sticky rest. -/
def sqrtEx (m : Nat) (e : Int) : Ex :=
  let k : Nat := if (e - 200) % 2 = 0 then 200 else 201
  let n := m * 2 ^ k
  let r := isqrt n (bitLen n / 2 + 1) 0
  ⟨false, r, (e - (k : Int)) / 2, r * r != n⟩

/-- Square root (R86, R57). -/
def fSqrt (f : Fmt) (rm : Rm) (a : Nat) : Rnd :=
  match unpack f a with
  | .nan s => nanResult f s
  | .nar => ⟨f.nan, 0⟩
  | .inf n => if n then ⟨f.nan, Fl.nv⟩ else ⟨f.infCode, 0⟩
  | .fin n m e => if m = 0 then ⟨f.zero n, 0⟩ else if n then ⟨f.nan, Fl.nv⟩ else roundTo f rm (sqrtEx m e)

/-- a * b + c, or -(a * b) + c, rounded once (R87). -/
def fFma (f : Fmt) (rm : Rm) (negate : Bool) (a b c : Nat) : Rnd :=
  let x := unpack f a
  let y := unpack f b
  let z := unpack f c
  match prod x y with
  | none => ⟨f.nan, Fl.nv⟩
  | some p0 =>
    if x.isNan || y.isNan || z.isNan then nanResult f (x.isSnan || y.isSnan || z.isSnan)
    else
      let p := if negate then p0.neg else p0
      match p, z with
      | .fin n 0 _, .fin k 0 _ => ⟨f.zero (if n = k then n else rm.toNat = 2), 0⟩
      | _, _ => sumRound f rm (zeroSign rm false) [p, z]

/-- Whether a magnitude ordering of two values holds: -1 less, 0 equal, 1 greater; infinities included. -/
def cmpVal (x y : FVal) : Ordering :=
  let key (v : FVal) : Int × Dy := match v with
    | .inf n => (if n then -1 else 1, ⟨0, 0⟩)
    | .fin n m e => (0, dyOf n m e)
    | _ => (0, ⟨0, 0⟩)
  let (i, a) := key x
  let (j, b) := key y
  if i < j then .lt else if j < i then .gt
  else
    let d := a.add ⟨-b.m, b.e⟩
    if d.m < 0 then .lt else if d.m = 0 then .eq else .gt

/-- Floating-point comparisons (R88, R117): the ordering, `none` when unordered, and the flags of a quiet and of an ordered
comparison. -/
def fCmp (f : Fmt) (ordered : Bool) (a b : Nat) : Option Ordering × FFlags :=
  let x := unpack f a
  let y := unpack f b
  if x.isNan || y.isNan then (none, if ordered || x.isSnan || y.isSnan then Fl.nv else 0)
  else (some (cmpVal x y), 0)

/-- FMIN and FMAX (R71): -0 lies below +0. -/
def fMinMax (f : Fmt) (max : Bool) (a b : Nat) : Rnd :=
  let x := unpack f a
  let y := unpack f b
  let fl : FFlags := if x.isSnan || y.isSnan then Fl.nv else 0
  let am := a % 2 ^ f.width
  let bm := b % 2 ^ f.width
  if x.isNan && y.isNan then ⟨f.nan, fl⟩
  else if x.isNan then ⟨bm, fl⟩
  else if y.isNan then ⟨am, fl⟩
  else
    let less := match cmpVal x y with
      | .lt => true
      | .gt => false
      | .eq => f.signBit ≤ am && f != .t8
    ⟨if less != max then am else bm, fl⟩

/-- FNEG and FABS (R86). -/
def fSign (f : Fmt) (abs : Bool) (a : Nat) : Nat :=
  let c := a % 2 ^ f.width
  match unpack f c with
  | .nan _ | .nar => f.nan
  | .fin _ 0 _ => if f = .t8 then 0 else if abs then c % f.signBit else (if f.signBit ≤ c then c - f.signBit else c + f.signBit)
  | _ => if abs then c % f.signBit else if f.signBit ≤ c then c - f.signBit else c + f.signBit

/-- FCLASS (R88). -/
def fClass (f : Fmt) (a : Nat) : Word :=
  match unpack f a with
  | .nar => 2 ^ 10
  | .nan s => if s then 2 ^ 8 else 2 ^ 9
  | .inf n => if n then 1 else 2 ^ 7
  | .fin n m e =>
    if m = 0 then (if n then 2 ^ 3 else 2 ^ 4)
    else
      let sub := f != .t8 && e = f.qmin && m < 2 ^ f.frac
      if sub then (if n then 2 ^ 2 else 2 ^ 5) else if n then 2 else 2 ^ 6

/-! ## Conversions (R69, R70) -/

/-- A conversion to a floating-point format; `draw` is the draw of a stochastic one (R67 to R69). -/
def convert (f : Fmt) (rm : Rm) (draw : Option (BitVec 32)) (v : FVal) : Rnd :=
  let noNan := f = .f6a || f = .f6b || f = .f4
  match v with
  | .nar => ⟨f.nan, if noNan then Fl.nv else 0⟩
  | .nan s => ⟨f.nan, if s || noNan then Fl.nv else 0⟩
  | .inf n => if f.ieee then ⟨f.signed n f.infCode, 0⟩ else ⟨f.signed n f.maxCode, Fl.nv⟩
  | .fin n 0 _ => ⟨f.zero n, 0⟩
  | .fin n m e =>
    match draw with
    | some q => roundSr f q ⟨n, m, e, false⟩
    | none => roundTo f rm ⟨n, m, e, false⟩

/-- A conversion to an integer between bounds (R65, R70). -/
def convertInt (rm : Rm) (lo hi : Int) (v : FVal) : Int × FFlags :=
  match v with
  | .nar | .nan _ => (0, Fl.nv)
  | .inf n => (if n then lo else hi, Fl.nv)
  | .fin n m e =>
    if m = 0 then (0, 0) else
    let (q, inexact) := quantise rm ⟨n, m, e, false⟩ 0
    let x : Int := if n then -(q : Int) else q
    if x < lo then (lo, Fl.nv) else if hi < x then (hi, Fl.nv) else (x, if inexact then Fl.nx else 0)

/-- An integer as a value. -/
def intVal (x : Int) : FVal := .fin (x < 0) x.natAbs 0

/-- The format of a scalar type (R86). -/
def FpType.fmt : FpType → Fmt
  | .f32 => .f32 | .f16 => .f16 | .bf16 => .bf16 | .t8 => .t8

/-- The format of a floating-point element type (R32). -/
def elFmt : ElType → Fmt
  | .f16 => .f16 | .bf16 => .bf16 | .t8 => .t8 | _ => .f32

/-- Whether a conversion's target draws when fp.mode.sr is 1: a floating-point format of 16 bits or fewer (R67). -/
def Fmt.stochastic (f : Fmt) : Bool := f != .f32

end Sys2Proof.Machine
end

