-- ==== Sys2Proof/Machine/Ops.lean ====
section
/-! DEFINITION. Instruction fetch (spec/02 R28, R29; spec/07 R160), taking a trap and returning from one (spec/01 R19 to R24;
spec/15 R332 to R335), the abort of a handler (spec/09 R227 to R229), and how an instruction ends. -/

namespace Sys2Proof.Machine

/-! ## Fetch -/

/-- The copies of a block that cores hold: of a direct block what the core's own caches hold, of a tagged one every line whose tag
permits a load (R182, R204). -/
def heldCopies (s : State) (c blk : Nat) : List Block :=
  if s.protoOf (blk * 64) = 0 then [directBlock s c blk]
  else s.cores.filterMap fun q => (look blk q.2.lines).bind fun l =>
    if l.tag = some .writable || l.tag = some .readOnly then some l.data else none

/-- The values a fetch of a block by a slot may see: the bytes the slot fetched before, a copy another fetch left in the instruction
cache, memory, and copies that cores hold and have not written back (R182, R204). -/
def fetchCopies (s : State) (t blk : Nat) : List Block :=
  (look blk (s.slot t).ibuf).toList ++ (look blk (s.core (agentOf t)).icache).toList ++ [s.mem.block (blk * 64)] ++
    heldCopies s (agentOf t) blk

/-- A block that a fetch has brought in stands in the core's 16 KiB instruction cache, of 256 blocks, and in the slot (R3, R182). -/
def keepFetched (s : State) (t blk : Nat) (b : Block) (cached : Bool) : State :=
  let c := agentOf t
  let s1 := if !cached || look blk (s.core c).icache = some b then s else
    let old := drop blk (s.core c).icache
    let (l, s1) := if old.length < 256 then (old, s) else
      let (i, s1) := s.freeBelow old.length
      (old.eraseIdx i, s1)
    s1.updCore c fun q => { q with icache := put blk b l }
  if look blk (s1.slot t).ibuf = some b then s1 else s1.updSlot t fun x => { x with ibuf := put blk b x.ibuf }

/-- A block as a fetch sees it: any of its copies, where they differ (R204, log 10). What the slot had fetched before does not come back
into the instruction cache. -/
def fetchBlock (s : State) (t blk : Nat) : Block × State :=
  let l := fetchCopies s t blk
  let m := s.mem.block (blk * 64)
  if l.all (· == m) then (m, keepFetched s t blk m true) else
  let (i, s1) := s.freeBelow l.length
  let own := if (look blk (s.slot t).ibuf).isSome then 1 else 0
  let b := l.getD i m
  (b, keepFetched s1 t blk b (own ≤ i))

/-- The block of global memory at an address as a fetch sees it, old or new as a whole (R29, R204). -/
def codeBlock (s : State) (t : Nat) (va : Word) (n : Nat) : Res Block :=
  (translatePart s ⟨t, (s.slot t).mode = .u, ⟨.rlx, .core, 0⟩, false⟩ .fetch false va n).andThen fun p s =>
    if poisonedBlk s (p.pa / 64) then .trap .fetchFault va s
    else if uncachedHost s p.pa then .ok (s.mem.block (p.pa / 64 * 64)) s
    else
      let (k, s) := fetchBlock s t (p.pa / 64)
      .ok k s

/-- Bytes of an instruction by its base word's length field (R28). -/
def wordBytes (w : List Byte) : Nat := lenBytes (Fin.ofNat 4 (leNat w % 4))

/-- The bytes of the instruction at an address of global memory: each of the blocks that it touches is read once (R29). -/
def fetchGlobal (s : State) (t : Nat) (a : Word) : Res (List Byte) :=
  let o := a.toNat % 64
  (codeBlock s t a 4).andThen fun k s =>
    let n := wordBytes (blkBytes k o 4)
    if o + n ≤ 64 then .ok (blkBytes k o n) s
    else (codeBlock s t (a + BitVec.ofNat 64 (64 - o)) (o + n - 64)).andThen fun r s =>
      .ok (blkBytes k o (64 - o) ++ blkBytes r 0 (o + n - 64)) s

/-- `n` code bytes at an address that is not global: the core's own scratchpad (R160), and on a protocol processor the handler
store (R217). -/
def fetchAt (s : State) (t : Nat) (a : Word) (n : Nat) : Res (List Byte) :=
  if !onCore t then
    if a.toNat + n ≤ 0x10000 then .ok ((s.proc (agentOf t - 0x800)).hstore.bytes a.toNat n) s
    else .trap .fetchFault (if 0x10000 ≤ a.toNat then a else 0x10000) s
  else
    let c := agentOf t
    match spaceOf a with
    | some .spd =>
      let o := offsetOf a
      if fld a.toNat 45 11 != c then .trap .fetchFault a s
      else if s.spSize c < o + n then .trap .fetchFault (a + BitVec.ofNat 64 (s.spSize c - o)) s
      else match poisonAt s (lsBlk c) (s.spOffset c o) n with
        | some i => .trap .fetchFault (a + BitVec.ofNat 64 i) s
        | none => .ok ((s.core c).ls.bytes (s.spOffset c o) n) s
    | _ => .trap .fetchFault a s

/-- The bytes of the instruction at a slot's pc: the base word, then every word its length field names (R28, R29). -/
def fetch (s : State) (t : Nat) : Res (List Byte) :=
  let a := (s.slot t).pc
  if a.toNat % 4 != 0 then .trap .misalign a s
  else if onCore t && spaceOf a = some .glb then fetchGlobal s t a
  else (fetchAt s t a 4).andThen fun w s =>
    let more := wordBytes w - 4
    if more = 0 then .ok w s
    else (fetchAt s t (a + 4) more).andThen fun r s => .ok (w ++ r) s

/-! ## Taking a trap on a compute core -/

/-- A slot dies: core.fatal keeps the first event, and the host is told (R24). -/
def die (s : State) (t : Nat) (first : Cause) : State :=
  let c := agentOf t
  let v : BitVec 21 := BitVec.ofNat 21 (2 ^ 20 + slotOf t * 2 ^ 16 + first.toNat * 2 ^ 8 + 0x1A)
  let s1 := s.updSlot t fun x => { x with run := .dead, vprog := none }
  let s2 := s1.updCore c fun q => { q with coreFatal := if q.coreFatal.getLsbD 20 then q.coreFatal else v }
  let s3 := s2.hostEvent (s2.partOf c) 0x83 0 0 [BitVec.ofNat 64 v.toNat, BitVec.ofNat 64 c]
  { s3 with hostOut := s3.hostOut ++ [.fatal c (BitVec.ofNat 64 v.toNat)] }

/-- The slot's state after the steps of R20. -/
def Slot.trapped (x : Slot) (vector : Word) (cause : Cause) (imp : Bool) (val resume : Word) : Slot :=
  { x with
    trCause := BitVec.ofNat 9 (cause.toNat + bit imp * 2 ^ 8), trVal := val, trPc := resume,
    trStatus := BitVec.ofNat 3 (bit (x.mode = .s) + bit (x.trStatus.getLsbD 2) * 2),
    mode := .s, pc := vector, run := .active, fresh := some cause, vprog := none, redo := none, paired := false, due := false, got := none,
    lv := if cause = .leaseViolation then some (resume, val) else x.lv }

/-- A trap is taken by slot t of a core (R20); when the handler's first instruction cannot be fetched, the slot dies (R24). -/
def enterTrap (s : State) (t : Nat) (cause : Cause) (imp : Bool) (val resume : Word) : State :=
  let s1 := s.updSlot t (·.trapped (BitVec.ofNat 64 ((s.core (agentOf t)).trVector.toNat * 4)) cause imp val resume)
  match fetch s1 t with
  | .trap _ _ _ => die s1 t cause
  | _ => s1

/-! ## Aborts on a protocol processor -/

/-- Post a FAIL to the sender of a message (R215, R228). -/
def failReply (s : State) (p : Nat) (m : Msg) (cause : Cause) : State :=
  s.post (mkMsg s (procAgent p) 0 m.src Ty.fail m.tag m.addr (BitVec.ofNat 64 cause.toNat) 0 0 none none)

/-- Answer every waiter of a region with FAIL, at every processor (R228). -/
def failWaiters (s : State) (idx : Nat) : State :=
  s.procs.foldl (fun s q =>
    let mine := q.2.waiters.filter fun m => (s.regionOf m.addr).map (·.1) = some idx
    mine.foldl (fun s m => failReply s q.1 m .protocolFail)
      (s.updProc q.1 fun x => { x with waiters := x.waiters.filter fun m => !(mine.contains m) })) s

/-- hd.abort after an abort (R244). -/
def abortWord (old : Word) (cause idx pcWord : Nat) : Word :=
  BitVec.ofNat 64 (Nat.min (old.toNat % 2 ^ 32 + 1) (2 ^ 32 - 1) + pcWord % 2 ^ 16 * 2 ^ 32 + idx % 2 ^ 8 * 2 ^ 48 +
    cause % 2 ^ 8 * 2 ^ 56)

/-- A region fails (R228 step 4, R413). -/
def failRegion (s : State) (p idx : Nat) (cause : Cause) (pcWord : Nat) : State :=
  let s1 := { s with regions := put idx (s.region idx ||| 1 <<< 129) s.regions }
  let s2 := s1.updProc p fun q => { q with hdAbort := abortWord q.hdAbort cause.toNat idx pcWord }
  (failWaiters s2 idx).hostEvent none 0x85 0 0 [(s2.proc p).hdAbort]

/-- A handler invocation is aborted (R227, R228): what it has done stands, its slot stops, and its region fails. -/
def abortHandler (s : State) (t : Nat) (cause : Cause) : State :=
  let p := agentOf t - 0x800
  let x := s.slot t
  let s1 := s.setSlot t { x with run := .idle, handler := none }
  match x.handler with
  | none => s1
  | some h =>
    let s2 := if h.msg.lane then s1 else failReply s1 p h.msg .protocolFail
    failRegion s2 p h.region cause (x.pc.toNat / 4)

/-! ## Synchronous traps -/

/-- A synchronous trap of slot t, to resume at an address: the first instruction of a trap handler may not trap (R335), and a
handler of a protocol processor is aborted (R227). -/
def takeSyncAt (s : State) (t : Nat) (cause : Cause) (val resume : Word) : State :=
  if !onCore t then abortHandler s t cause
  else match (s.slot t).fresh with
    | some f => die s t f
    | none => enterTrap s t cause false val resume

/-- A precise fault of slot t: the instruction is re-executed on return (R21). -/
def takeSync (s : State) (t : Nat) (cause : Cause) (val : Word) : State := takeSyncAt s t cause val (s.slot t).pc

/-- The current slot's instruction traps. -/
def trap (cause : Cause) (val : Word) (s : State) : Out := .next (takeSync s s.cur cause val)

/-- A bit pattern that is no instruction (R36). -/
def illegalOp (base : Nat) (s : State) : Out := trap .illegalOp (BitVec.ofNat 64 base) s

/-- A privileged instruction traps in U mode (R19, R37). -/
def privileged (base : Nat) (s : State) (k : Out) : Out :=
  if s.me.mode = .u then trap .priv (BitVec.ofNat 64 base) s else k

/-- Move a slot to another pc: an instruction that transfers control has completed (R335). -/
def Slot.jump (x : Slot) (a : Word) : Slot := { x with pc := a, fresh := none, vprog := none }

/-- Return from a trap (R23): mode, interrupt enable and pc from the saved registers; nothing else changes. -/
def Slot.trapReturn (x : Slot) : Slot :=
  { (x.jump x.trPc) with
    mode := if x.trStatus.getLsbD 0 then .s else .u,
    trStatus := BitVec.ofNat 3 (x.trStatus.toNat % 4 + bit (x.trStatus.getLsbD 1) * 4) }

/-! ## How an instruction ends -/

/-- An instruction that ends as its access did. -/
def Res.finish {α : Type} (r : Res α) (k : α → State → Out) : Out :=
  match r with
  | .ok a s => k a s
  | .trap c v s => Sys2Proof.Machine.trap c v s
  | .wait w s => Sys2Proof.Machine.wait w s

/-- An instruction of n bytes completes; when it was served beyond the core, its slot leaves the rotation until the reply
(R104). -/
def doneFar (n : Nat) (w : Option Wait) (s : State) : Out :=
  match w with
  | none => done n s
  | some w => .next ((s.past n).updMe fun x => { x with run := .waiting w })

/-- An access of n instruction bytes completes; when it was served beyond the core, its slot leaves the rotation until the reply, and
`r` says what the slot restores when it abandons the access before (R104, R128, R186). -/
def doneAway (n : Nat) (w : Option Wait) (r : Redo) (s : State) : Out :=
  match w with
  | none => done n s
  | some w => .next ((s.past n).updMe fun x => { x with run := .waiting w, redo := some r })

/-- What a slot restores of a scalar access that it abandons (R186). -/
def State.redoing (s : State) (reg : Option Reg) : Redo := { pc := s.me.pc, reg := reg.map fun d => (d, s.rd d), fresh := s.me.fresh }

/-! ## Atomic operations -/

/-- The value an atomic operation of R174 stores, for a cell of `w` bits (R176): FADD is an f32 sum to nearest even that sets no
flag. -/
def atomValue (op : AtomOp) (w old x : Nat) : Nat :=
  match op with
  | .swap => x % 2 ^ w
  | .add => (old + x) % 2 ^ w
  | .and => old &&& (x % 2 ^ w)
  | .or => old ||| (x % 2 ^ w)
  | .xor => old ^^^ (x % 2 ^ w)
  | .min => if toSigned w x < toSigned w old then x % 2 ^ w else old
  | .max => if toSigned w old < toSigned w x then x % 2 ^ w else old
  | .fadd => (fAdd .f32 0 old x).code

/-- Operation codes of an ATOM message (R215). -/
def atomCode : AtomOp → Nat
  | .swap => 0 | .add => 1 | .and => 2 | .or => 3 | .xor => 4 | .min => 5 | .max => 6 | .fadd => 7
/-- The operation of a code. -/
def atomOf (n : Nat) : AtomOp :=
  match n with
  | 0 => .swap | 1 => .add | 2 => .and | 3 => .or | 4 => .xor | 5 => .min | 6 => .max | _ => .fadd

/-- What an ATOM message's code word says (R215): [2:0] operation, [3] CAS, [4] STNIB, [5] high nibble, [6] eight bytes. -/
def atomWidth (code : Nat) : Nat := if Nat.testBit code 4 then 1 else if Nat.testBit code 6 then 8 else 4

/-- The value an atomic step leaves in a cell (R176, R177, R179). -/
def atomStep (code old x v : Nat) : Nat :=
  let w := 8 * atomWidth code
  if Nat.testBit code 4 then (if Nat.testBit code 5 then old % 16 + x % 16 * 16 else old / 16 * 16 + x % 16)
  else if Nat.testBit code 3 then (if old = x % 2 ^ w then v % 2 ^ w else old)
  else atomValue (atomOf (code % 8)) w old x

/-- OR flags into fp.flags of the current slot (R66). -/
def State.flag (s : State) (f : FFlags) : State := s.updMe fun x => { x with fpFlags := x.fpFlags ||| f }

/-- The rounding mode of the current slot (R15). -/
def State.rm (s : State) : Rm := s.me.fpMode.extractLsb' 0 3

end Sys2Proof.Machine
end

