-- ==== Sys2Proof/Machine/MemOps.lean ====
section
/-! DEFINITION. Scalar memory instructions (spec/07): loads and stores (R175), atomics and compare-and-swap (R176 to R178), nibble
stores (R179), cache and stash control (R180 to R183), generic pointers (R184, R185), and the accesses of handlers (spec/09
R217). -/

namespace Sys2Proof.Machine

/-- The effective address of a memory operand with an extension word (R33). -/
def State.ea (s : State) (base : Reg) (x : MemExt) : Word := s.rd base + (s.rd x.xindex <<< x.xshift.val) + x.disp.signExtend 64

/-! ## Data memory of a protocol processor (R217) -/

/-- Whether an access of a handler lies in data memory; else the lowest faulting byte (R217). -/
def hmemCheck (k : Kind) (ea : Word) (n align : Nat) : Except Trap Nat :=
  if ea.toNat % align != 0 then .error (.misalign, ea)
  else if ea.toNat + n ≤ 0x8000 then .ok ea.toNat
  else .error (k.cause, if 0x8000 ≤ ea.toNat then ea else 0x8000)

/-- The current protocol processor. -/
def State.myProc (s : State) : Nat := agentOf s.cur - 0x800

/-! ## Loads and stores (R175) -/

/-- Bytes read by the current slot, by a core or by a handler. -/
def loadAny (s : State) (q : MemQual) (ea : Word) (n : Nat) : Res (List Byte × Option Wait) :=
  if onCore s.cur then loadBytes s (s.by q) ea n 1
  else (Res.ofExcept (hmemCheck .load ea n 1) s).andThen fun a s => .ok ((s.proc s.myProc).dmem.bytes a n, none) s

/-- Bytes written by the current slot, by a core or by a handler. -/
def storeAny (s : State) (q : MemQual) (ea : Word) (l : List Byte) : Res (Option Wait) :=
  if onCore s.cur then storeBytes s (s.by q) ea l 1
  else (Res.ofExcept (hmemCheck .store ea l.length 1) s).andThen fun a s =>
    .ok none (s.updProc s.myProc fun p => { p with dmem := p.dmem.wrBytes a l })

/-- A load of n instruction bytes: the value zero- or sign-extended (R175). -/
def loadInstr (n : Nat) (signed : Bool) (sz : Size) (d : Reg) (ea : Word) (q : MemQual) (s : State) : Out :=
  let redo := s.redoing (some d)
  (loadAny s q ea (bytesOf sz)).finish fun r s =>
    let v := leNat r.1
    doneAway n r.2 redo (s.wr d (if signed then sext (8 * bytesOf sz) v else BitVec.ofNat 64 v))

/-- A store of n instruction bytes (R175). -/
def storeInstr (n : Nat) (sz : Size) (a : Reg) (ea : Word) (q : MemQual) (s : State) : Out :=
  (storeAny s q ea (leBytes (bytesOf sz) (s.rd a).toNat)).finish fun w s => doneAway n w (s.redoing none) s

/-- LD (R175). -/
def execLd (sz : Size) (d base : Reg) (q : MemQual) (s : State) : Out := loadInstr 4 false sz d (s.rd base) q s
/-- LD with an extension word (R175). -/
def execLdExt (sz : Size) (d base : Reg) (q : MemQual) (x : MemExt) (s : State) : Out := loadInstr 12 false sz d (s.ea base x) q s
/-- LDS (R175). -/
def execLds (sz : Size) (d base : Reg) (q : MemQual) (s : State) : Out := loadInstr 4 true sz d (s.rd base) q s
/-- LDS with an extension word (R175). -/
def execLdsExt (sz : Size) (d base : Reg) (q : MemQual) (x : MemExt) (s : State) : Out := loadInstr 12 true sz d (s.ea base x) q s
/-- ST (R175). -/
def execSt (sz : Size) (a base : Reg) (q : MemQual) (s : State) : Out := storeInstr 4 sz a (s.rd base) q s
/-- ST with an extension word (R175). -/
def execStExt (sz : Size) (a base : Reg) (q : MemQual) (x : MemExt) (s : State) : Out := storeInstr 12 sz a (s.ea base x) q s

/-! ## Atomics (R176 to R179) -/

/-- Before an operation at a home the core gives up its copy of the block, as CFLUSH does (R208), its release set first (R197); a busy
line makes the operation wait. -/
def yieldBlock (s : State) (c slot blk : Nat) (va : Word) : Res Unit :=
  if tagOf s c blk = .busy then .wait (.line blk va) s
  else if relPending s c blk then .wait .release (flushRel s c slot blk)
  else .ok () (flushL2 (giveUp s c slot blk) (clusterOf c) blk)

/-- Whether a reply tag belongs to a slot's operation at a home: 128 plus the slot, or one that takes its place while a reply to a request
that the slot has abandoned may still come (R215, R263). -/
def slotTag (tag : Nat) : Bool := 128 ≤ tag && tag < 255 && !(144 ≤ tag && tag < 148)

/-- A reply tag for an operation of a slot at a home (R215). -/
def freshSlotTag (q : Core) (slot : Nat) : Option Nat :=
  ((128 + slot) :: (List.range 107).map (148 + ·)).find? fun i => (look i q.reqs).isNone

/-- The operation at a home that a slot waits for. -/
def slotReq (q : Core) (slot : Nat) : Option (Nat × Req) := q.reqs.find? fun r => slotTag r.1 && r.2.msg.slot = slot && !r.2.dead

/-- Post a slot's request for an operation at a home, under a reply tag of its own (R208, R215). -/
def slotRequest (s : State) (tag c slot type dst pa : Nat) (w2 w3 w4 : Word) (flit : Option Block) : State :=
  let m := mkMsg s c slot dst type tag pa w2 w3 w4 flit none
  (s.updCore c fun q => { q with reqs := put tag { msg := m } q.reqs }).post m

/-- The current slot posts a request for an operation at a home and waits for its result, which goes to register d and completes the
instruction of n bytes; `va` is its access address (R176, R260, R261). -/
def askHome (n : Nat) (d : Reg) (va : Word) (type dst pa : Nat) (w2 w3 w4 : Word) (flit : Option Block) (s : State) : Out :=
  match freshSlotTag (s.core s.myCore) (slotOf s.cur) with
  | none => wait (.line (pa / 64) va) s
  | some tag => wait (.result (pa / 64) d n va) (slotRequest s tag s.myCore (slotOf s.cur) type dst pa w2 w3 w4 flit)

/-- Whether a PCIe AtomicOp carries an atomic code: FetchAdd, Swap or CAS of 4 or 8 bytes (R178). -/
def pcieAtomic (code : Nat) : Bool := !Nat.testBit code 4 && (Nat.testBit code 3 || code % 8 = 0 || code % 8 = 1)

/-- An atomic step on bytes of a memory: the old value and the memory after it. -/
def atomMem (m : Memory) (a code : Nat) (x v : Word) : Nat × Memory :=
  let old := m.le a (atomWidth code)
  (old, m.wrBytes a (leBytes (atomWidth code) (atomStep code old x.toNat v.toNat)))

/-- An atomic operation of n instruction bytes (R176 to R179): the old value goes to register d when the step has been performed
at the point that owns the location. `code` is as in an ATOM message (R215). -/
def atomInstr (n code : Nat) (x v : Word) (d : Reg) (ea : Word) (q : MemQual) (s : State) : Out :=
  let k := atomWidth code
  let out (w : Option Wait) (old : Nat) (s : State) : Out := doneFar n w (s.wr d (BitVec.ofNat 64 old))
  if !onCore s.cur then
    (Res.ofExcept (hmemCheck .store ea k k) s).finish fun a s =>
      let (old, m) := atomMem (s.proc s.myProc).dmem a code x v
      out none old (s.updProc s.myProc fun p => { p with dmem := m })
  else
    let c := s.myCore
    let b := s.by q
    let rel := q.ord = .rel || q.ord = .sc || s.me.relFence.isSome
    let seen (o : MemOrd) (s : State) : Res Unit := if o = .sc && !seenSettled s c then .wait .order s else .ok () s
    ((lsFirst s s.cur ea).andThen fun _ s => Res.ofExcept (checkAddr s s.cur .store ea k k) s).finish fun tg s =>
      match tg with
      | .ls o =>
        ((if rel then releaseFirst s s.cur .core else .ok () s).andThen fun _ s => lsFree s c).finish fun _ s =>
          if (poisonAt s (lsBlk c) o k).isSome then trap .storeFault ea s else
          let (old, m) := atomMem (s.core c).ls o code x v
          out (some .access) old (s.updCore c fun p => { p with ls := m })
      | .cm o =>
        ((seen q.ord s).andThen fun _ s => if rel then releaseFirst s s.cur .clu else .ok () s).finish fun _ s =>
          if (poisonAt s (cmBlk (clusterOf c)) o k).isSome then trap .storeFault ea s else
          let (old, m) := atomMem (s.cluster (clusterOf c)).cmem o code x v
          out (some .access) old (s.updCluster (clusterOf c) fun p => { p with cmem := m })
      | .glb va =>
        (translatePart s b .store false va k).finish fun p s =>
          if uncachedHost s p.pa then
            if !pcieAtomic code then trap .atomicUnsupported ea s
            else ((seen (pageOrd p.x q.ord) s).andThen fun _ s => if isRelease s s.cur p.x q.ord then releaseFirst s s.cur .sys else .ok () s).finish fun _ s =>
              let (old, m) := atomMem s.mem p.pa code x v
              out (some .host) old { s with mem := m }
          else if s.protoOf p.pa = 0 && biasAway s p.pa then wait (.home (p.pa / 64)) (askDevice s p.pa)
          else
            (((seen (pageOrd p.x q.ord) s).andThen fun _ s =>
              if isRelease s s.cur p.x q.ord then releaseFirst s s.cur (relScope s s.cur q.scope) else .ok () s).andThen fun _ s =>
              yieldBlock s c (slotOf s.cur) (p.pa / 64) va).finish fun _ s =>
              askHome n d va Ty.atom (procAgent (s.homeOf p.pa)) p.pa (BitVec.ofNat 64 code) x v none s

/-- The code of an ATOM message for an operation and a size (R215). -/
def atomCodeOf (op : AtomOp) (sz : Size) : Nat := atomCode op + (if sz = .d then 2 ^ 6 else 0)
/-- The code of an ATOM message for a CAS (R215). -/
def casCodeOf (sz : Size) : Nat := 2 ^ 3 + (if sz = .d then 2 ^ 6 else 0)

/-- ATOM.SWAP (R176). -/
def execAtomSwap (sz : Size) (d base : Reg) (q : MemQual) (s : State) : Out :=
  atomInstr 4 (atomCodeOf .swap sz) (s.rd d) 0 d (s.rd base) q s
/-- ATOM.SWAP with an extension word (R176). -/
def execAtomSwapExt (sz : Size) (d base : Reg) (q : MemQual) (x : MemExt) (s : State) : Out :=
  atomInstr 12 (atomCodeOf .swap sz) (s.rd d) 0 d (s.ea base x) q s
/-- ATOM.ADD (R176). -/
def execAtomAdd (sz : Size) (d base : Reg) (q : MemQual) (s : State) : Out :=
  atomInstr 4 (atomCodeOf .add sz) (s.rd d) 0 d (s.rd base) q s
/-- ATOM.ADD with an extension word (R176). -/
def execAtomAddExt (sz : Size) (d base : Reg) (q : MemQual) (x : MemExt) (s : State) : Out :=
  atomInstr 12 (atomCodeOf .add sz) (s.rd d) 0 d (s.ea base x) q s
/-- ATOM.AND (R176). -/
def execAtomAnd (sz : Size) (d base : Reg) (q : MemQual) (s : State) : Out :=
  atomInstr 4 (atomCodeOf .and sz) (s.rd d) 0 d (s.rd base) q s
/-- ATOM.AND with an extension word (R176). -/
def execAtomAndExt (sz : Size) (d base : Reg) (q : MemQual) (x : MemExt) (s : State) : Out :=
  atomInstr 12 (atomCodeOf .and sz) (s.rd d) 0 d (s.ea base x) q s
/-- ATOM.OR (R176). -/
def execAtomOr (sz : Size) (d base : Reg) (q : MemQual) (s : State) : Out :=
  atomInstr 4 (atomCodeOf .or sz) (s.rd d) 0 d (s.rd base) q s
/-- ATOM.OR with an extension word (R176). -/
def execAtomOrExt (sz : Size) (d base : Reg) (q : MemQual) (x : MemExt) (s : State) : Out :=
  atomInstr 12 (atomCodeOf .or sz) (s.rd d) 0 d (s.ea base x) q s
/-- ATOM.XOR (R176). -/
def execAtomXor (sz : Size) (d base : Reg) (q : MemQual) (s : State) : Out :=
  atomInstr 4 (atomCodeOf .xor sz) (s.rd d) 0 d (s.rd base) q s
/-- ATOM.XOR with an extension word (R176). -/
def execAtomXorExt (sz : Size) (d base : Reg) (q : MemQual) (x : MemExt) (s : State) : Out :=
  atomInstr 12 (atomCodeOf .xor sz) (s.rd d) 0 d (s.ea base x) q s
/-- ATOM.MIN (R176). -/
def execAtomMin (sz : Size) (d base : Reg) (q : MemQual) (s : State) : Out :=
  atomInstr 4 (atomCodeOf .min sz) (s.rd d) 0 d (s.rd base) q s
/-- ATOM.MIN with an extension word (R176). -/
def execAtomMinExt (sz : Size) (d base : Reg) (q : MemQual) (x : MemExt) (s : State) : Out :=
  atomInstr 12 (atomCodeOf .min sz) (s.rd d) 0 d (s.ea base x) q s
/-- ATOM.MAX (R176). -/
def execAtomMax (sz : Size) (d base : Reg) (q : MemQual) (s : State) : Out :=
  atomInstr 4 (atomCodeOf .max sz) (s.rd d) 0 d (s.rd base) q s
/-- ATOM.MAX with an extension word (R176). -/
def execAtomMaxExt (sz : Size) (d base : Reg) (q : MemQual) (x : MemExt) (s : State) : Out :=
  atomInstr 12 (atomCodeOf .max sz) (s.rd d) 0 d (s.ea base x) q s
/-- ATOM.FADD.W (R176). -/
def execAtomFadd (d base : Reg) (q : MemQual) (s : State) : Out := atomInstr 4 (atomCodeOf .fadd .w) (s.rd d) 0 d (s.rd base) q s
/-- ATOM.FADD.W with an extension word (R176). -/
def execAtomFaddExt (d base : Reg) (q : MemQual) (x : MemExt) (s : State) : Out :=
  atomInstr 12 (atomCodeOf .fadd .w) (s.rd d) 0 d (s.ea base x) q s
/-- CAS (R177): s(D) holds the compared value, s(D + 1) the new one. -/
def execCas (sz : Size) (d base : Reg) (q : MemQual) (s : State) : Out :=
  atomInstr 4 (casCodeOf sz) (s.rd d) (s.rd (reg (d.val + 1))) d (s.rd base) q s
/-- CAS with an extension word (R177). -/
def execCasExt (sz : Size) (d base : Reg) (q : MemQual) (x : MemExt) (s : State) : Out :=
  atomInstr 12 (casCodeOf sz) (s.rd d) (s.rd (reg (d.val + 1))) d (s.ea base x) q s
/-- STNIB.LO (R179): it returns no value. -/
def execStnibLo (a base : Reg) (q : MemQual) (s : State) : Out := atomInstr 4 16 (s.rd a) 0 0 (s.rd base) q s
/-- STNIB.LO with an extension word (R179). -/
def execStnibLoExt (a base : Reg) (q : MemQual) (x : MemExt) (s : State) : Out := atomInstr 12 16 (s.rd a) 0 0 (s.ea base x) q s
/-- STNIB.HI (R179): it returns no value. -/
def execStnibHi (a base : Reg) (q : MemQual) (s : State) : Out := atomInstr 4 48 (s.rd a) 0 0 (s.rd base) q s
/-- STNIB.HI with an extension word (R179). -/
def execStnibHiExt (a base : Reg) (q : MemQual) (x : MemExt) (s : State) : Out := atomInstr 12 48 (s.rd a) 0 0 (s.ea base x) q s

/-! ## Cache control (R180 to R182) -/

/-- The virtual blocks that overlap n bytes from an address: their addresses. -/
def blocksOf (ea : Word) (n : Nat) : List Word :=
  if n = 0 then [] else
  let o := ea.toNat % 64
  (List.range ((o + n + 63) / 64)).map fun i => ea - BitVec.ofNat 64 o + BitVec.ofNat 64 (64 * i)

/-- The physical address of a virtual one, for an operation that skips what is not mapped, whatever the page permits (R181, log 57). -/
def physOf (s : State) (t : Nat) (va : Word) : Option Nat × State :=
  match locate s (agentOf t) .load va with
  | (.ok x, s) => (some x.pa, s)
  | (_, s) => (none, s)

/-- Ask for a block read-only, where its tag does not permit a load (R180). Of an append block the request names the block's first byte,
which is refused only where every byte of the block would be (R253, log 58). -/
def prefetchBlock (s : State) (t : Nat) (ev : Fin 8) (va : Word) : State :=
  match translate s (agentOf t) ((s.slot t).mode = .u) .load false va with
  | (.ok x, s) =>
    let c := agentOf t
    let blk := x.pa / 64
    if s.protoOf x.pa = 0 || tagOf s c blk != .invalid then s else
    match freshReq (s.core c) with
    | none => s
    | some tag =>
      (request s c (slotOf t) blk Ty.gets 0 x.nr (stashOf (s.core c) va.toNat).isSome ev va).updCore c fun q =>
        { q with reqs := match look tag q.reqs with | some r => put tag { r with pref := true } q.reqs | none => q.reqs }
  | (_, s) => s

/-- PREF of n instruction bytes (R180): it never traps. Each block is checked by itself; a private pointer names global memory, and the
other spaces have no cache. -/
def prefInstr (n : Nat) (len ea : Word) (ev : Fin 8) (s : State) : Out :=
  done n ((blocksOf ea (Nat.min (Nat.max len.toNat 1) 4096)).foldl (fun s a =>
    match checkAddr s s.cur .load a 1 1 with
    | .ok (.glb va) => prefetchBlock s s.cur ev va
    | _ => s) s)

/-- PREF (R180). -/
def execPref (n base : Reg) (ev : Fin 8) (s : State) : Out := prefInstr 4 (s.rd n) (s.rd base) ev s
/-- PREF with an extension word (R180). -/
def execPrefExt (n base : Reg) (ev : Fin 8) (x : MemExt) (s : State) : Out := prefInstr 12 (s.rd n) (s.ea base x) ev s

/-- The written bytes of a direct block of a core's L1 go to the cluster L2 (R181). -/
def toL2 (s : State) (c blk : Nat) (keep : Bool) : State :=
  match lineOf s c blk with
  | none => s
  | some l =>
    let s1 := setLine s c blk (if keep then some { l with written := 0 } else none)
    if l.written = 0 then s1 else settleL2 (mergeL2 s1 c blk l.prio l.data l.written) (clusterOf c) blk

/-- The other cores of a cluster that own a tagged line of a block in its L2 (R181, R208). -/
def l2Owners (s : State) (c blk : Nat) : List Nat :=
  (coresOf (clusterOf c)).filter fun o => o != c && (match lineOf s o blk with | some l => l.l2 && l.tag.isSome | none => false)

/-- The lines of a block that CCLEAN or CFLUSH acts on: the core's own, and at .CLU or wider those of its cluster's L2 (R181). -/
def cleanCores (s : State) (c blk : Nat) (sc : Scope) : List Nat :=
  (match lineOf s c blk with | some l => if l.l2 && sc = .core then [] else [c] | none => []) ++
    (if sc = .core then [] else l2Owners s c blk)

/-- CCLEAN or CFLUSH of one block (R181). -/
def cleanBlock (s : State) (t : Nat) (flush : Bool) (sc : Scope) (va : Word) : State :=
  let (p, s) := physOf s t va
  match p with
  | none => s
  | some pa =>
    let c := agentOf t
    let blk := pa / 64
    let s1 := (cleanCores s c blk sc).foldl (fun s o =>
      if sc = .clu && (match lineOf s o blk with | some l => l.tag.isNone | none => false) then toL2 s o blk (!flush)
      else if flush then giveUp s o (slotOf t) blk else cleanLine s o (slotOf t) blk) s
    if 2 ≤ scopeRank sc then flushL2 s1 (clusterOf c) blk else s1

/-- The release sets of the lines that CCLEAN or CFLUSH is to write back go first (R197): whether one has still to be performed. -/
def cleanFirst (s : State) (t : Nat) (sc : Scope) : List Word → Bool × State
  | [] => (false, s)
  | va :: l =>
    let (p, s) := physOf s t va
    let blk := (p.getD 0) / 64
    let mine := if p.isNone then [] else (cleanCores s (agentOf t) blk sc).filter fun o => relPending s o blk
    let (b, s) := cleanFirst (mine.foldl (fun s o => flushRel s o (slotOf t) blk) s) t sc l
    (!mine.isEmpty || b, s)

/-- Whether the write-backs of blocks have been accepted: the core's own, and those of lines it has taken from its cluster's L2 (R181). -/
def cleanOver (s : State) (c : Nat) (sc : Scope) (blks : List Nat) : Bool :=
  (s.core c).puts.isEmpty && (sc = .core || (coresOf (clusterOf c)).all fun o => o = c || (s.core o).puts.all fun b => !blks.contains b)

/-- The physical blocks of virtual blocks, those that translate. -/
def physBlocks (s : State) (t : Nat) : List Word → List Nat × State
  | [] => ([], s)
  | va :: l =>
    let (p, s) := physOf s t va
    let (r, s) := physBlocks s t l
    (match p with | some pa => pa / 64 :: r | none => r, s)

/-- Operand checks of CCLEAN, CFLUSH and CODEFLUSH, then the blocks, their release sets first, then the acceptance of the write-backs
(R181, R182, R197). -/
def cacheInstr (flush : Bool) (sc : Scope) (len ea : Word) (k : State → Out) (s : State) : Out :=
  if spaceOf ea != some .glb then trap .illegalOperand ea s
  else if 65536 < len.toNat then trap .illegalOperand len s
  else
    let l := blocksOf ea len.toNat
    let (b, s1) := cleanFirst s s.cur sc l
    if b then wait .release s1 else
    let s2 := l.foldl (fun s a => cleanBlock s s.cur flush sc a) s1
    let (blks, s3) := physBlocks s2 s2.cur l
    if cleanOver s3 s3.myCore sc blks then k s3 else wait .puts s3

/-- CCLEAN (R181). -/
def execCclean (n base : Reg) (sc : Scope) (s : State) : Out :=
  cacheInstr false sc (s.rd n) (s.rd base) (done 4) s
/-- CCLEAN with an extension word (R181). -/
def execCcleanExt (n base : Reg) (sc : Scope) (x : MemExt) (s : State) : Out :=
  cacheInstr false sc (s.rd n) (s.ea base x) (done 12) s
/-- CFLUSH (R181). -/
def execCflush (n base : Reg) (sc : Scope) (s : State) : Out :=
  cacheInstr true sc (s.rd n) (s.rd base) (done 4) s
/-- CFLUSH with an extension word (R181). -/
def execCflushExt (n base : Reg) (sc : Scope) (x : MemExt) (s : State) : Out :=
  cacheInstr true sc (s.rd n) (s.ea base x) (done 12) s

/-- CODEFLUSH of n instruction bytes (R182): written back first; then the instruction caches of the scope are told. -/
def codeflushInstr (n : Nat) (len ea : Word) (sc : Scope) (s : State) : Out :=
  cacheInstr false .pkg len ea
    (fun s => if len = 0 then done n s else wait (.codeflush (ea.toNat / 64) ((ea.toNat + len.toNat - 1) / 64) sc n) s) s

/-- CODEFLUSH (R182). -/
def execCodeflush (n base : Reg) (sc : Scope) (s : State) : Out := codeflushInstr 4 (s.rd n) (s.rd base) sc s
/-- CODEFLUSH with an extension word (R182). -/
def execCodeflushExt (n base : Reg) (sc : Scope) (x : MemExt) (s : State) : Out := codeflushInstr 12 (s.rd n) (s.ea base x) sc s

/-- Whether a core lies in a scope of another (R188). -/
def inScope (sc : Scope) (a b : Nat) : Bool :=
  match sc with
  | .core => a = b
  | .clu => clusterOf a = clusterOf b
  | .die => dieOf a = dieOf b
  | _ => true

/-- CODEFLUSH_ACKNOWLEDGEMENT (R182): every core of the scope has dropped the blocks from its instruction cache, and the
CODEFLUSH completes. It does so only when the news of what it wrote back has reached every holder of a block (R204, R234). -/
def execCodeflushAcknowledgement (t : Nat) (s : State) : Out :=
  match (s.slot t).run with
  | .waiting (.codeflush first last sc n) =>
    let vas := (List.range (last + 1 - first)).map fun i => BitVec.ofNat 64 ((first + i) * 64)
    let (blks, s1) := physBlocks s t vas
    if s1.mcasts.any fun x => x.2.writer.isSome && blks.contains (x.2.addr / 64) then .next s else
    let clean (c : Nat) (q : Core) : Core :=
      if inScope sc (agentOf t) c then { q with icache := q.icache.filter fun e => !blks.contains e.1 } else q
    let s2 := { s1 with cores := s1.cores.map fun (q : Nat × Core) => (q.1, clean q.1 q.2) }
    .next (s2.updSlot t fun x => { x.past n with run := .active })
  | _ => .next s

/-- IFENCE (R182). -/
def execIfence (s : State) : Out := done 4 (s.updMe fun x => { x with ibuf := [] })

/-! ## Stash mappings (R183) -/

/-- STASH.MAP of n instruction bytes (R183). It waits for a write of ls.split in progress, which sets the stash's size and discards every
mapping (R18, R96). -/
def stashMapInstr (n : Nat) (c g : Word) (s : State) : Out :=
  let q := s.core s.myCore
  let len := bits c 17 0
  let k := bits c 49 32
  if lsBusy s s.myCore then wait .lsBusy s
  else if spaceOf g != some .glb || g.toNat % 64 != 0 then trap .illegalOperand g s
  else if bits c 31 18 != 0 || bits c 63 50 != 0 || len = 0 || len % 64 != 0 || k % 64 != 0 || s.stashSize s.myCore < k + len then
    trap .illegalOperand c s
  else if 8 ≤ q.stash.length ||
      q.stash.any (fun m => (g.toNat < m.g + m.n && m.g < g.toNat + len) || (k < m.k + m.n && m.k < k + len)) then
    trap .illegalOperand c s
  else done n (s.updCore s.myCore fun q => { q with stash := q.stash ++ [⟨g.toNat, len, k⟩] })

/-- STASH.MAP (R183). -/
def execStashMap (c base : Reg) (s : State) : Out := stashMapInstr 4 (s.rd c) (s.rd base) s
/-- STASH.MAP with an extension word (R183). -/
def execStashMapExt (c base : Reg) (x : MemExt) (s : State) : Out := stashMapInstr 12 (s.rd c) (s.ea base x) s

/-- The stash lines of a mapping that is gone go home: whether any has still to wait, and for what (R183, R197). -/
def unmapLines (s : State) (c slot g n : Nat) : Option Wait × State :=
  let mine := ((s.core c).lines.filter fun l => l.2.stash && g ≤ l.2.va && l.2.va < g + n).map (·.1)
  let s1 := mine.foldl (fun s blk => if relPending s c blk then flushRel s c slot blk else giveUp s c slot blk) s
  let left := mine.filter fun blk => (match lineOf s1 c blk with | some l => l.stash | none => false)
  (match left.find? fun blk => tagOf s1 c blk = .busy with
    | some blk => some (.line blk (BitVec.ofNat 64 ((lineOf s1 c blk).elim 0 Line.va)))
    | none => if !left.isEmpty then some .release else if (s1.core c).puts.isEmpty then none else some .puts, s1)

/-- STASH.UNMAP of n instruction bytes (R183): the mapping acts no more from its issue on (R162); its lines go home, and the instruction
completes when the homes have accepted them. One that re-executes, and finds no mapping that starts at its address, goes on with the range
it has unmapped. -/
def stashUnmapInstr (n : Nat) (ea : Word) (s : State) : Out :=
  let c := s.myCore
  let pc := s.me.pc
  let go (g len : Nat) (s : State) : Out :=
    match unmapLines s c (slotOf s.cur) g len with
    | (none, s) => done n (s.updMe fun x => { x with unmaps := x.unmaps.filter fun u => u.1 != pc })
    | (some w, s) => wait w s
  match (s.core c).stash.find? fun m => m.g = ea.toNat, s.me.unmaps.find? fun u => u.1 = pc && u.2.1 = ea.toNat with
  | some m, _ =>
    go m.g m.n ((s.updCore c fun q => { q with stash := q.stash.filter fun x => !(x.g = ea.toNat) }).updMe fun x =>
      { x with unmaps := (x.unmaps.filter fun u => u.1 != pc) ++ [(pc, m.g, m.n)] })
  | none, some u => go u.2.1 u.2.2 s
  | none, none => trap .illegalOperand ea s

/-- STASH.UNMAP (R183). -/
def execStashUnmap (base : Reg) (s : State) : Out := stashUnmapInstr 4 (s.rd base) s
/-- STASH.UNMAP with an extension word (R183). -/
def execStashUnmapExt (base : Reg) (x : MemExt) (s : State) : Out := stashUnmapInstr 12 (s.ea base x) s

/-! ## Generic pointers (R184, R185) -/

/-- SPACE.TEST (R184). -/
def execSpaceTest (d a : Reg) (s : State) : Out := result 4 d (spaceTest s.myCore (s.rd a)) s

/-- SPACE.CAST.GEN (R185). -/
def execSpaceCastGen (sp : SpaceSel) (d a : Reg) (s : State) : Out :=
  let x := s.rd a
  let c := s.myCore
  match sp with
  | .glb => if canonical x then result 4 d x s else trap .illegalOperand x s
  | .prv => if x.toNat < 2 ^ 56 then result 4 d (x ||| 0xFC00000000000000) s else trap .illegalOperand x s
  | .spd => if x.toNat < 2 ^ 18 then result 4 d (x ||| BitVec.ofNat 64 (0xFE * 2 ^ 56 + c * 2 ^ 45)) s else trap .illegalOperand x s
  | .clu =>
    if x.toNat < 2 ^ 21 then result 4 d (x ||| BitVec.ofNat 64 (0xFD * 2 ^ 56 + clusterOf c * 2 ^ 48)) s
    else trap .illegalOperand x s

/-- SPACE.CAST.OFF (R185). -/
def execSpaceCastOff (sp : SpaceSel) (d a : Reg) (s : State) : Out :=
  let x := s.rd a
  if spaceOf x = some sp then result 4 d (BitVec.ofNat 64 (offsetOf x)) s else trap .illegalOperand x s

end Sys2Proof.Machine
end

