-- ==== Sys2Proof/Machine/Append.lean ====
section
/-! DEFINITION. The instructions of append-then-seal memory (spec/10 R259 to R262) and FENCE (spec/08 R205, R206). -/

namespace Sys2Proof.Machine

/-! ## FENCE (R206) -/

/-- The wider of two fences (R206). -/
def widerFence (a : Option Scope) (b : Scope) : Scope :=
  match a with
  | some x => if scopeRank b < scopeRank x then x else b
  | none => b

/-- Mark the slot's later stores and earlier loads; a fence of a wider scope stays (R206). -/
def fenceMarks (s : State) (acq rel : Bool) (sc : Scope) : State :=
  let pending := !released s s.myCore || s.posted != 0
  s.updMe fun x => { x with
    acqFence := if acq then some (widerFence x.acqFence sc) else x.acqFence,
    relFence := if rel && pending then some (widerFence x.relFence sc) else x.relFence }

/-- FENCE (R206). On a protocol processor it orders nothing (R217). A FENCE.SC leaves no earlier release to perform, but for the posted writes
to the host that a fence at .SYS has marked, when its own scope is narrower (R401). -/
def execFence (o : FenceOrd) (sc : Scope) (s : State) : Out :=
  if !onCore s.cur || sc = .core then done 4 s
  else match o with
    | .acq => done 4 (fenceMarks s true false sc)
    | .rel => done 4 (fenceMarks s false true sc)
    | .sc =>
      let c := s.myCore
      if !ordered s c then wait .order (flushUnsent s c (slotOf s.cur) (unsent s c))
      else if 4 ≤ scopeRank sc && s.me.ff != 0 then wait .remotes s
      else if sc = .sys && s.posted != 0 then wait .host s
      else done 4 (s.updMe fun x => { x with
        acqFence := some (widerFence x.acqFence sc), relFence := if s.posted != 0 && x.relFence = some .sys then x.relFence else none })

/-! ## Append pages -/

/-- The address checks of an append-class instruction: its page must be an append page (R248, R260, R261). -/
def appendPage (s : State) (k : Kind) (ea : Word) : Res Part1 :=
  (Res.ofExcept (checkAddr s s.cur k ea 1 1) s).andThen fun tg s =>
    match tg with
    | .glb va =>
      (translatePart s (s.by ⟨.rlx, .pkg, 4⟩) k true va 1).andThen fun p s =>
        if p.x.ok = 3 then .ok p s else .trap k.cause ea s
    | _ => .trap k.cause ea s

/-- APPEND of n instruction bytes (R260): the bytes go to the home in one message, and the slot waits for the offset. -/
def appendInstr (n : Nat) (d : Reg) (ea : Word) (src : List Byte) (rel : Bool) (sc : Scope) (s : State) : Out :=
  ((appendPage s .store ea).andThen fun p s =>
    (if rel || s.me.relFence.isSome then releaseFirst s s.cur (relScope s s.cur sc) else .ok () s).andThen fun _ s => .ok p s).finish fun p s =>
    askHome n d ea Ty.apnd (procAgent (s.homeOf p.pa)) (p.pa / 64 * 64) (BitVec.ofNat 64 src.length) 0 0 (some (blkOf src)) s

/-- APPEND.size: the low bytes of the register (R260). -/
def appendScalar (n : Nat) (sz : Size) (d : Reg) (ea : Word) (rel : Bool) (sc : Scope) (s : State) : Out :=
  appendInstr n d ea (leBytes (bytesOf sz) (s.rd d).toNat) rel sc s

/-- APPEND.V: s(D) bytes of v(D) (R260). -/
def appendVec (n : Nat) (d : Reg) (ea : Word) (rel : Bool) (sc : Scope) (s : State) : Out :=
  let k := s.rd d
  if k = 0 || 64 < k.toNat then trap .illegalOperand k s
  else appendInstr n d ea (blkBytes (s.rdv d) 0 k.toNat) rel sc s

/-- APPEND (R260). -/
def execAppend (sz : Size) (d base : Reg) (rel : Bool) (sc : Scope) (s : State) : Out := appendScalar 4 sz d (s.rd base) rel sc s
/-- APPEND with an extension word (R260). -/
def execAppendExt (sz : Size) (d base : Reg) (rel : Bool) (sc : Scope) (x : MemExt) (s : State) : Out :=
  appendScalar 12 sz d (s.ea base x) rel sc s
/-- APPEND.V (R260). -/
def execAppendV (d base : Reg) (rel : Bool) (sc : Scope) (s : State) : Out := appendVec 4 d (s.rd base) rel sc s
/-- APPEND.V with an extension word (R260). -/
def execAppendVExt (d base : Reg) (rel : Bool) (sc : Scope) (x : MemExt) (s : State) : Out := appendVec 12 d (s.ea base x) rel sc s

/-- TAILRD of n instruction bytes (R261): asked of the home, or of the replica agent of the core's die (R256). -/
def tailInstr (n : Nat) (d : Reg) (ea : Word) (s : State) : Out :=
  (appendPage s .load ea).finish fun p s =>
    let dst := if p.x.nr then procAgent (s.homeOf p.pa) else readAgent s s.myCore p.pa
    askHome n d ea Ty.tailq dst (p.pa / 64 * 64) 0 0 0 none s

/-- TAILRD (R261): its scope orders only what later accesses may see. -/
def execTailrd (d base : Reg) (_sc : Scope) (s : State) : Out := tailInstr 4 d (s.rd base) s
/-- TAILRD with an extension word (R261). -/
def execTailrdExt (d base : Reg) (_sc : Scope) (x : MemExt) (s : State) : Out := tailInstr 12 d (s.ea base x) s

/-- SEAL of n instruction bytes (R261). -/
def sealInstr (n : Nat) (d : Reg) (ea : Word) (sc : Scope) (s : State) : Out :=
  ((appendPage s .store ea).andThen fun p s =>
    (releaseFirst s s.cur (relScope s s.cur sc)).andThen fun _ s => .ok p s).finish fun p s =>
    askHome n d ea Ty.sealq (procAgent (s.homeOf p.pa)) (p.pa / 64 * 64) 0 0 0 none s

/-- SEAL (R261). -/
def execSeal (d base : Reg) (sc : Scope) (s : State) : Out := sealInstr 4 d (s.rd base) sc s
/-- SEAL with an extension word (R261). -/
def execSealExt (d base : Reg) (sc : Scope) (x : MemExt) (s : State) : Out := sealInstr 12 d (s.ea base x) sc s

/-- FREE.SEAL of n instruction bytes (R262): a physical address; the home refuses a page it may not free. -/
def freeSealInstr (base n : Nat) (ea : Word) (s : State) : Out :=
  privileged base s
    (if 2 ^ 52 ≤ ea.toNat || s.protoOf ea.toNat != 7 then trap .illegalOperand ea s
     else askHome n 0 ea Ty.sealq (procAgent (s.homeOf ea.toNat)) (ea.toNat / 64 * 64) 1 0 0 none s)

/-- The base word of FREE.SEAL (R259). -/
def freeSealBase (len base : Nat) : Nat := ({ len := Fin.ofNat 4 len, major := 0x28, d := 0, a := Fin.ofNat 32 base, b := 0, fn := 0x40, ext := 0, lit := 0 } : Raw).base

/-- FREE.SEAL (R262). -/
def execFreeSeal (base : Reg) (s : State) : Out := freeSealInstr (freeSealBase 0 base) 4 (s.rd base) s
/-- FREE.SEAL with an extension word (R262). -/
def execFreeSealExt (base : Reg) (x : MemExt) (s : State) : Out := freeSealInstr (freeSealBase 2 base) 12 (s.ea base x) s

end Sys2Proof.Machine
end

