-- ==== Sys2Proof/Machine/HomeOps.lean ====
section
/-! DEFINITION. Directory entries (spec/09 R219, R238), and accesses performed at the home of a block (spec/06 R132; spec/18 R411): the
current value of a block wherever its newest copy is, and a write that every copy sees (log 14). -/

namespace Sys2Proof.Machine

/-! ## Directory entries (R219, R238) -/

/-- A directory entry: bits [63:0] and bits [127:64]. -/
abbrev De := Word × Word

/-- de.tr -/
def deTr (e : De) : Bool := bitOf e.2 63
/-- de.st -/
def deSt (e : De) : Nat := bits e.2 62 56
/-- de.cv -/
def deCv (e : De) : Bool := bitOf e.2 55
/-- de.np -/
def deNp (e : De) : Nat := bits e.2 54 52
/-- de.xp -/
def deXp (e : De) : Bool := bitOf e.2 49
/-- de.ov -/
def deOv (e : De) : Bool := bitOf e.2 48
/-- de.own -/
def deOwn (e : De) : Nat := bits e.2 47 36
/-- Pending kind of a standard protocol, de.aux [99:98]: read 0, write 1, atomic 2 (R219, R233). -/
def deKind (e : De) : Nat := bits e.2 35 34

/-- The entry with its state and de.tr set. -/
def deState (e : De) (st : Nat) (tr : Bool) : De := (e.1, setBits (setBits e.2 62 56 st) 63 63 (bit tr))
/-- The entry with its pending kind and requester word set. -/
def dePending (e : De) (kind req : Nat) : De := (e.1, setBits e.2 35 0 (kind * 2 ^ 34 + req % 2 ^ 34))
/-- The entry with its owner set or cleared. -/
def deSetOwn (e : De) (o : Option Nat) : De :=
  match o with
  | some a => (e.1, setBits e.2 48 36 (2 ^ 12 + a % 2 ^ 12))
  | none => (e.1, setBits e.2 48 36 0)

/-- The sharer pointers in use. -/
def dePointers (e : De) : List Nat := (List.range (deNp e)).map fun i => fld e.1.toNat (12 * i) 12

/-- Pointer i set; the rest of the word stays (R238). -/
def deSetPointer (w : Word) (i a : Nat) : Word := setBits w (12 * i + 11) (12 * i) (a % 2 ^ 12)

/-- The pointers from i on moved down by one: n of them (R238). -/
def deShift (w : Word) (i n : Nat) : Word := (List.range n).foldl (fun v k => deSetPointer v (i + k) (fld w.toNat (12 * (i + k + 1)) 12)) w

/-- A coarse entry that also stands for an agent. -/
def deMark (e : De) (a : Nat) : De :=
  if a < 0x800 then (e.1 ||| (1 <<< (clusterOf a / 2)), e.2) else (e.1, setBits e.2 49 49 1)

/-- DIR.SHADD: an agent is added to the sharers; the fifth makes the entry coarse (R238). -/
def deAdd (e : De) (a : Nat) : De :=
  if deCv e then deMark e a else
  let l := dePointers e
  if l.contains a then e
  else if l.length < 4 then (deSetPointer e.1 l.length a, setBits e.2 54 52 (l.length + 1))
  else (l ++ [a]).foldl deMark (0, setBits (setBits e.2 55 55 1) 54 52 0)

/-- DIR.SHDEL: an agent is removed from the pointers; a coarse entry stays as it is (R238). -/
def deDel (e : De) (a : Nat) : De :=
  let l := dePointers e
  if deCv e || !l.contains a then e else (deShift e.1 (l.idxOf a) (l.length - 1 - l.idxOf a), setBits e.2 54 52 (l.length - 1))

/-- Whether an entry lists an agent among its sharers. -/
def deListed (e : De) (a : Nat) : Bool :=
  if deCv e then (if a < 0x800 then e.1.getLsbD (clusterOf a / 2) else deXp e) else (dePointers e).contains a

/-- The entry with no sharers. -/
def deClear (e : De) : De := (0, setBits (setBits e.2 55 52 0) 49 49 0)

/-- Whether an entry has a sharer. -/
def deShared (e : De) : Bool := deCv e || deNp e != 0

/-- The holders an entry names, but for one agent (R239). -/
def deHolders (e : De) (skip : Nat) : List Nat :=
  let l := if deCv e then
      ((List.range 64).filter fun j => e.1.getLsbD j).flatMap (fun j => coresOf (2 * j) ++ coresOf (2 * j + 1)) ++
        (if deXp e then (List.range 25).map fun i => procAgent (48 + i) else [])
    else dePointers e
  l.filter (· != skip)

/-- Where a block's directory entry lies (R219). -/
def entryAddr (e : BitVec 256) (pa : Nat) : Nat := rgDir e + (pa - rgBase e) / 2 ^ (6 + rgGrain e) * 16

/-- A directory entry in its backing. -/
def State.entry (s : State) (a : Nat) : De := (s.mem.word a, s.mem.word (a + 8))
/-- Write a directory entry. -/
def State.setEntry (s : State) (a : Nat) (e : De) : State := s.updMem fun m => (m.wrWord a e.1).wrWord (a + 8) e.2

/-- Whether a handler of a loadable protocol runs for an entry (R222). -/
def handling (s : State) (p ea : Nat) : Bool :=
  !(s.slotsWhere (procAgent p) fun x => match x.handler with | some h => h.entryAddr = ea | none => false).isEmpty

/-! ## Lines of host memory that their home has taken (R384, R389, R399) -/

/-- A block as the host receives it: one that is poisoned has no data (R434). -/
def hostCopy (s : State) (pa : Nat) : Option Block := if poisonedBlk s (pa / 64) then none else some (s.mem.block (pa / 64 * 64))

/-- The block leaves the device's exclusive state at the host: with its data when a put, a write-back or an access at the home brought newer
ones (R399). -/
def evictHost (s : State) (pa : Nat) (dirty : Bool) : State :=
  if hostLine pa then { s with hostOut := s.hostOut ++ [if dirty then .dirtyEvict pa (hostCopy s pa) else .cleanEvict pa] } else s

/-- Whether the home of a line has it for an access that needs it shared, or exclusive: from the host for such an access, or because cores
of the device hold it so (R399). -/
def hostHeld (s : State) (e : BitVec 256) (pa : Nat) (excl : Bool) : Bool :=
  let d := s.entry (entryAddr e pa)
  s.hostOps.any (fun o => match o with | .mine a x => a = pa / 64 * 64 && (x || !excl) | _ => false) ||
    (!deTr d && (deOv d || (!excl && deShared d)))

/-- A home starts to take a line from the host for an access of another device or of a bulk transfer: from the cores that hold it first, then
with RdShared or RdOwn, the entry transient until the access has been made (R384, R389, R399). -/
def takeHost (s : State) (pa : Nat) (excl : Bool) : State :=
  let a := pa / 64 * 64
  match s.regionOf a with
  | none => s
  | some (_, e) =>
    let ea := entryAddr e a
    let d := s.entry ea
    let ask (s : State) : State :=
      { s with hostOps := s.hostOps ++ [.own a excl], hostOut := s.hostOut ++ [if excl then .rdOwn a else .rdShared a] }
    if s.hostOps.contains (.mine a false) then (if excl then ask { s with hostOps := s.hostOps.erase (.mine a false) } else s)
    else if deTr d || handling s (homeIn e a) ea || s.takes.any (·.pa = a) then s
    else if deOv d || deShared d then { s with takes := s.takes ++ [{ pa := a, why := .give }] }
    else ask (s.setEntry ea (deState d 0 true))

/-- A line that its home took for an access goes back to the host once the access is made or no longer waited for (R399). -/
def releaseHost (s : State) (wrote : Bool) (pa : Nat) : State :=
  let a := pa / 64 * 64
  match s.hostOps.find? fun o => match o with | .mine b _ => b = a | _ => false, s.regionOf a with
  | some (.mine b x), some (_, e) =>
    let s1 := { s with hostOps := s.hostOps.erase (.mine b x) }
    let s2 := s1.setEntry (entryAddr e a) (deState (s1.entry (entryAddr e a)) 0 false)
    if x then evictHost s2 a wrote else s2
  | some (.mine b x), none => { s with hostOps := s.hostOps.erase (.mine b x) }
  | _, _ => s

/-! ## Blocks at their homes -/

/-- Whether a protocol keeps one writable copy, whose bytes are the block's (R196). -/
def singleOwner (proto : Nat) : Bool := proto != 2 && proto != 4 && proto != 6 && proto != 7

/-- The data of a block that some core holds writable, or that a put or a write-back carries to the home (R208, R210). -/
def ownerData (s : State) (blk : Nat) : Option Block :=
  let held := s.cores.findSome? fun q => match look blk q.2.lines with
    | some l => if l.tag = some .writable then some l.data else none
    | none => none
  match held with
  | some b => some b
  | none => (s.net.find? fun m => m.blk = blk && (m.type = Ty.putx || m.type = Ty.wbData || m.type = Ty.dataX)).bind (·.flit)

/-- A byte at its home: in memory, or in the line or the message of the only one who may have written its block since (R411). -/
def homeByte (s : State) (a : Nat) : Byte :=
  let p := s.protoOf (a / 64 * 64)
  match if p != 0 && singleOwner p then ownerData s (a / 64) else none with
  | some b => blkByte b (a % 64)
  | none => s.mem.rd a

/-- Bytes at their home. -/
def homeBytes (s : State) (pa n : Nat) : List Byte := (List.range n).map fun i => homeByte s (pa + i)

/-- A word at its home. -/
def homeWord (s : State) (pa : Nat) : Word := BitVec.ofNat 64 (leNat (homeBytes s pa 8))

/-- Replace bytes of a block in every copy of it that is not memory: lines and data on its way. -/
def patchCopies (s : State) (blk lo : Nat) (l : List Byte) : State :=
  { s with
    cores := s.cores.map fun (q : Nat × Core) => (q.1, { q.2 with lines := q.2.lines.map fun (x : Nat × Line) =>
      if x.1 = blk && x.2.tag.isSome then (x.1, { x.2 with data := blkPut x.2.data lo l }) else x }),
    net := s.net.map fun m => if m.blk = blk then { m with flit := m.flit.map fun f => blkPut f lo l } else m }

/-- Mark the frame of a protocol-8 page as written (R392). -/
def dirtyFrame (s : State) (pa : Nat) : State :=
  let page := pa / 4096 * 4096
  match look page s.frames with
  | some f => { s with frames := put page { f with fresh := true } s.frames }
  | none => s

/-- Bytes of one block written at its home (R200, R411). -/
def homeStore (s : State) (pa : Nat) (l : List Byte) (w : Writer) : State :=
  let p := s.protoOf pa
  let s1 := dirtyFrame (portWriteBy s pa l w) pa
  if p != 0 && p != 6 && p != 7 then patchCopies s1 (pa / 64) (pa % 64) l else s1

/-- Bytes written at their homes, over as many blocks as they touch. -/
def homeStoreAll (s : State) (pa : Nat) (w : Writer) (l : List Byte) : State :=
  (List.range ((pa % 64 + l.length + 63) / 64)).foldl (fun s i =>
    let lo := if i = 0 then 0 else i * 64 - pa % 64
    let hi := (i + 1) * 64 - pa % 64
    homeStore s (pa + lo) ((l.take hi).drop lo) w) s

/-! ## Merging (R234, R240) -/

/-- Elements of a reduction under its operator (R212, R240): FP32 add rounds to nearest even, honours subnormals and sets no
flag. -/
def redOp (op w a b : Nat) : Nat :=
  match op with
  | 0 => (a + b) % 2 ^ w
  | 1 => (fAdd .f32 0 a b).code
  | 2 => if toSigned w b < toSigned w a then b else a
  | 3 => if toSigned w a < toSigned w b then b else a
  | 4 => a &&& b
  | 5 => a ||| b
  | _ => a ^^^ b

/-- The identity of a reduction operator (R234). -/
def redId (op w : Nat) : Nat :=
  match op with
  | 1 => 0x80000000
  | 2 => 2 ^ (w - 1) - 1
  | 3 => 2 ^ (w - 1)
  | 4 => 2 ^ w - 1
  | _ => 0

/-- Bytes of an element of a region (R212). -/
def elemBytes (op : Nat) : Nat := if Nat.testBit op 3 then 8 else 4

/-- A block filled with an operator's identity; `op` is rg.op (R212, R234). -/
def identityBlock (op : Nat) : Block :=
  let n := elemBytes op
  blkOf ((List.range (64 / n)).flatMap fun _ => leBytes n (redId (op % 8) (8 * n)))

/-- A block merged element by element: those whose mask bytes are all set (R240). -/
def elemMerge (n : Nat) (f : Nat → Nat → Nat) (old new : Block) (mask : BitVec 64) : Block :=
  blkOf ((List.range (64 / n)).flatMap fun i =>
    let a := blkBytes old (n * i) n
    if (List.range n).all fun j => mask.getLsbD (n * i + j) then leBytes n (f (leNat a) (leNat (blkBytes new (n * i) n))) else a)

/-- A block merged under rg.op (R240). -/
def redMerge (op : Nat) (old new : Block) (mask : BitVec 64) : Block :=
  elemMerge (elemBytes op) (redOp (op % 8) (8 * elemBytes op)) old new mask

/-- The read-only copies of a block take its merged value. -/
def patchReaders (s : State) (blk : Nat) (b : Block) : State :=
  let f (x : Nat × Line) : Nat × Line := if x.1 = blk && x.2.tag = some .readOnly then (x.1, { x.2 with data := b }) else x
  let g (q : Nat × Core) : Nat × Core := (q.1, { q.2 with lines := q.2.lines.map f })
  { s with cores := s.cores.map g }

/-- Bytes of a store that another device or a bulk transfer makes, under the region's protocol: merged in a reduction region,
replaced elsewhere (R234, R384). -/
def homeWrite (s : State) (pa : Nat) (l : List Byte) (w : Writer) : State :=
  match s.regionOf pa with
  | some (_, e) =>
    if rgProto e != 6 then homeStoreAll s pa w l else
    let blk := pa / 64
    let b := redMerge (rgOp e) (s.mem.block (blk * 64)) (blkPut 0 (pa % 64) l) (maskRange (pa % 64) l.length)
    let s1 := tracePortBy (s.updMem fun m => m.wrBlock (blk * 64) b) (s.homeOf pa) pa l.length w.core w.slot w.dev w.part false
    patchReaders s1 blk b
  | none => homeStoreAll s pa w l

/-- Whether a home refuses an access: its region has failed, or it reads a poisoned block, as a load and an atomic do and a store does not
(R229, R434). -/
def homeRefuses (s : State) (pa : Nat) (reads : Option Cause) : Option Cause :=
  if (match s.regionOf pa with | some (_, e) => rgFail e | none => false) then some .protocolFail
  else if poisonedBlk s (pa / 64) then reads
  else none

/-- Whether a home holds a block only once it has asked for it: a line of host memory, or a page of another device (R399, R391). -/
def homeAsks (s : State) (pa : Nat) : Bool := s.protoOf pa = 8 || (place pa = .host && s.protoOf pa != 0)

/-- A home may count a cell of a core now (R132): it holds the line or the page exclusive, which it comes to by way of a writable copy of the
core; the page is not the host's; and the core's own bytes of a direct block are at the home (R391, R399, R405, log 59). -/
def cellHeld (s : State) (c slot pa : Nat) (nr : Bool) (a : Word) : Res Unit :=
  let blk := pa / 64
  if homeAsks s pa then obtain s c slot blk true (pa % 64) 64 nr false 4 a
  else if biasAway s pa then .wait (.home blk) (askDevice s pa)
  else if tagOf s c blk = .busy then .wait (.line blk a) s
  else .ok () (if s.protoOf pa = 0 then flushL2 (giveUp s c slot blk) (clusterOf c) blk else s)

/-- A join cell's physical address (R132): its page must translate for a store, and a home of this device must be able to count
it. `val` is the tr.val of a cell that is homed on another device. A home that must first hold the line or the page exclusive does so
for a writable copy of the executing core, which waits for it as for a store (R391, R399, log 59). -/
def cellAddrBy (s : State) (t : Nat) (engine : Bool) (a val : Word) : Res Nat :=
  (Res.ofExcept (checkAddr s t .store a 64 1) s).andThen fun tg s =>
    match tg with
    | .glb va =>
      match translatePart s ⟨t, (s.slot t).mode = .u, ⟨.rlx, .pkg, 4⟩, engine⟩ .store false va 64 with
      | .ok p s =>
        if uncachedHost s p.pa then .trap .illegalOperand val s
        else if s.protoOf p.pa = 7 then .trap .storeFault a s
        else match homeRefuses s p.pa (some .storeFault) with
          | some c => .trap c a s
          | none =>
            (cellHeld s (agentOf t) (slotOf t) p.pa p.x.nr a).andThen fun _ s => .ok p.pa s
      | .trap c _ s => .trap c a s
      | .wait w s => .wait w s
    | _ => .trap .storeFault a s

/-- A join cell's address for an instruction of a slot. -/
def cellAddr (s : State) (t : Nat) (a val : Word) : Res Nat := cellAddrBy s t false a val

/-- The count of a join cell changed at its home (R132). -/
def cellCount (s : State) (t pa : Nat) (f : Word → Word) : State :=
  homeStore s pa (leBytes 8 (f (homeWord s pa)).toNat) (writerOf s (agentOf t) (slotOf t))

end Sys2Proof.Machine
end

