-- ==== Sys2Proof/Machine/Spill.lean ====
section
/-! DEFINITION. The context buffer of a core (spec/16 R351, R355): queue entries of a slot in S mode, and messages for a core whose
partition is swapped out. -/

namespace Sys2Proof.Machine

/-- The message of an entry. -/
def SpillItem.words : SpillItem → Vector Word 8
  | .inj e => e.w
  | .rcv e => e.w

/-- An entry with another message. -/
def SpillItem.withWords (i : SpillItem) (w : Vector Word 8) : SpillItem :=
  match i with
  | .inj e => .inj { e with w := w }
  | .rcv e => .rcv { e with w := w }

/-- The slot of an entry; a message for any slot has none. -/
def SpillItem.slot : SpillItem → Option Nat
  | .inj e => some e.slot
  | .rcv e => e.slot

/-- An entry of the injection queue, if it is one. -/
def SpillItem.injEntry : SpillItem → Option InjEntry
  | .inj e => some e
  | .rcv _ => none

/-- An entry of the receive queue, if it is one. -/
def SpillItem.rcvEntry : SpillItem → Option RcvEntry
  | .inj _ => none
  | .rcv e => some e

/-- The tag word of an entry (R351); a message for any slot shows slot 0 (log 62). -/
def Spill.tag (e : Spill) (valid : Bool) : Nat :=
  bit valid + bit e.item.rcvEntry.isSome * 2 + (e.item.slot.getD 0) % 16 * 4 + e.order % 256 * 2 ^ 8

/-- The physical address of an offset of a core's context buffer: 8 KiB for each core of the set, under the translations that PART.CFG locked
(R351, R416). -/
def ctxAddr (s : State) (p c off : Nat) : Option Nat :=
  (s.part p).cfg.bind fun g => ((s.part p).ctxPages[2 * (coreSet g).idxOf c + off / 4096]?).map (· + off % 4096)

/-- Bytes written to a core's context buffer. -/
def ctxWrite (s : State) (p c off : Nat) (l : List Byte) : State :=
  match ctxAddr s p c off with
  | some pa => homeStoreAll s pa (writerOf s c 0) l
  | none => s

/-- An entry is appended to a core's context buffer, at the lowest free place (log 62); `none` when its 112 places are taken (R351). -/
def spillItem (s : State) (p c : Nat) (it : SpillItem) (away : Bool) : Option State :=
  let l := (coreOfPart s p c).spills
  ((List.range 112).find? fun i => !l.any fun e => e.idx = i).map fun i =>
    let e : Spill := { idx := i, order := (match l.getLast? with | some x => (x.order + 1) % 256 | none => 0), item := it, away := away }
    let s1 := ctxWrite s p c (8 * i) (leBytes 8 (e.tag true))
    let s2 := ctxWrite s1 p c (0x400 + 64 * i) (it.words.toList.flatMap fun x => leBytes 8 x.toNat)
    updCoreOf s2 p c fun q => { q with spills := q.spills ++ [e] }

/-- Entries that satisfy a condition go back to the queues, in spill order and ahead of newer ones, with the messages as they stand in
the buffer (R351, R355). What came while the partition was away goes behind the messages that its queues held (`after`). -/
def returnSpills (s : State) (p c : Nat) (f : Spill → Bool) (after : Bool) : State :=
  let l := (coreOfPart s p c).spills.filter f
  if l.isEmpty then s else
  let back := l.map fun e => match ctxAddr s p c (0x400 + 64 * e.idx) with
    | some pa => e.item.withWords (let b := homeBytes s pa 64; Vector.ofFn fun i => BitVec.ofNat 64 (leNat ((b.drop (8 * i.val)).take 8)))
    | none => e.item
  let s1 := l.foldl (fun s e => ctxWrite s p c (8 * e.idx) (leBytes 8 (e.tag false))) s
  updCoreOf s1 p c fun q => { q with
    injq := back.filterMap SpillItem.injEntry ++ q.injq,
    rcvq := if after then q.rcvq ++ back.filterMap SpillItem.rcvEntry else back.filterMap SpillItem.rcvEntry ++ q.rcvq,
    spills := q.spills.filter fun e => !f e }

/-- Whether a slot of a core has entries in the context buffer (R351). -/
def hasSpills (q : Core) (slot : Nat) : Bool := q.spills.any fun e => e.item.slot = some slot

end Sys2Proof.Machine
end

