-- ==== Sys2Proof/Machine/System.lean ====
section
/-! DEFINITION. Control registers (spec/01 R13 to R18; spec/04 R95, R96; spec/09 R244), system and trap instructions
(spec/04 R97 to R99) and TLB operations (spec/04 R100; spec/15 R341 to R349). -/

namespace Sys2Proof.Machine

/-! ## Control registers -/

/-- Whether a control-register number is assigned (R14, R244). -/
def crAssigned (core : Bool) (cr : Nat) : Bool :=
  if core then cr ≤ 3 || cr = 0x400 || cr = 0x401 || (0x800 ≤ cr && cr ≤ 0x805) || cr = 0x808 || (0xC00 ≤ cr && cr ≤ 0xC10)
  else cr ≤ 3 || cr = 0xE00 || cr = 0xE01 || cr = 0xE02 || cr = 0xE08

/-- Whether a number may be written by its class (R13); no register of H mode may be (R244). -/
def crWritable (cr : Nat) : Bool := cr < 0x400 || (0x800 ≤ cr && cr < 0xC00)

/-- th.id (R15). -/
def thId (s : State) (t : Nat) : Word :=
  let c := agentOf t
  BitVec.ofNat 64 (slotOf t + c * 2 ^ 4 + clusterOf c * 2 ^ 15 + dieOf c * 2 ^ 22 + (s.partOf c).getD 0 * 2 ^ 24)

/-- The value of an assigned control register (R14, R15, R244). -/
def crRead (s : State) (t : Nat) (cr : Nat) : Word :=
  let x := s.slot t
  let q := s.core (agentOf t)
  match cr with
  | 0x000 => x.fpMode.setWidth 64
  | 0x001 => x.fpFlags.setWidth 64
  | 0x002 => x.srState.setWidth 64
  | 0x003 => boolWord x.cntOvf
  | 0x400 => thId s t
  | 0x401 => s.cluCycle (clusterOf (agentOf t))
  | 0x800 => x.trCause.setWidth 64
  | 0x801 => x.trPc
  | 0x802 => x.trVal
  | 0x803 => x.trStatus.setWidth 64
  | 0x804 => BitVec.ofNat 64 (q.trVector.toNat * 4)
  | 0x805 => x.trScratch
  | 0x808 => BitVec.ofNat 64 q.lsSplit.val
  | 0xC10 => q.coreFatal.setWidth 64
  | 0xE00 => BitVec.ofNat 64 (agentOf t)
  | 0xE01 => match x.handler with | some h => BitVec.ofNat 64 h.steps | none => 0
  | 0xE02 => match x.handler with | some h => BitVec.ofNat 64 h.forwards | none => 0
  | 0xE08 => (s.proc (agentOf t - 0x800)).hdAbort
  | _ =>
    if 0xC00 ≤ cr && cr < 0xC08 then q.leaseBase.toList.getD (cr - 0xC00) 0
    else if 0xC08 ≤ cr && cr < 0xC10 then q.leaseLim.toList.getD (cr - 0xC08) 0
    else 0

/-- fp.mode after a write: an rm of 5 to 7 leaves that field unchanged (R15). -/
def fpModeWrite (old : BitVec 4) (v : Word) : BitVec 4 :=
  if 5 ≤ v.toNat % 8 then BitVec.ofNat 4 (v.toNat / 8 % 2 * 8 + old.toNat % 8) else v.setWidth 4

/-- Write a control register other than ls.split; `clear` is the source's bit of a W1C field, false where the form leaves such a
field (R15, R95). -/
def crWrite (s : State) (t : Nat) (cr : Nat) (v : Word) (clear : Bool) : State :=
  match cr with
  | 0x000 => s.updSlot t fun x => { x with fpMode := fpModeWrite x.fpMode v }
  | 0x001 => s.updSlot t fun x => { x with fpFlags := v.setWidth 5 }
  | 0x002 => s.updSlot t fun x => { x with srState := if v.setWidth 32 = (0 : BitVec 32) then 1 else v.setWidth 32 }
  | 0x003 => s.updSlot t fun x => { x with cntOvf := x.cntOvf && !clear }
  | 0x800 => s.updSlot t fun x => { x with trCause := v.setWidth 9 }
  | 0x801 => s.updSlot t fun x => { x with trPc := v }
  | 0x802 => s.updSlot t fun x => { x with trVal := v }
  | 0x803 => s.updSlot t fun x => { x with trStatus := v.setWidth 3 }
  | 0x804 => s.updCore (agentOf t) fun q => { q with trVector := BitVec.ofNat 62 (v.toNat / 4) }
  | 0x805 => s.updSlot t fun x => { x with trScratch := v }
  | _ => s

/-- Forms of a control-register access (R95). -/
inductive CrOp | rw | rs | rc
deriving DecidableEq, Repr

/-- The new value of a control register (R95). -/
def CrOp.value (o : CrOp) (old v : Word) : Word :=
  match o with
  | .rw => v
  | .rs => old ||| v
  | .rc => old &&& ~~~v

/-- A control-register access (R13, R95, R96): the checks, d := old, and the write. A write of ls.split removes every stash mapping at its
issue and leaves the rotation until LS_SPLIT_WRITE completes it (R18, R162); a read waits for a write in progress. `writes` says whether the form writes. -/
def crAccess (base : Nat) (o : CrOp) (writes : Bool) (d : Reg) (v : Word) (cr : BitVec 12) (s : State) : Out :=
  let n := cr.toNat
  if !crAssigned (onCore s.cur) n then illegalOp base s
  else if 0x800 ≤ n && s.me.mode = .u then trap .priv (BitVec.ofNat 64 base) s
  else if writes && !crWritable n then illegalOp base s
  else
    let old := crRead s s.cur n
    if n = 0x808 && onCore s.cur && lsBusy s s.myCore then wait .lsBusy s
    else if !writes then result 12 d old s
    else if n = 0x808 then
      .next (((s.wr d old).updCore s.myCore fun q => { q with stash := [] }).updMe fun x =>
        { x with run := .waiting (.lsSplit (Fin.ofNat 16 (o.value old v).toNat)) })
    else result 12 d old (crWrite s s.cur n (o.value old v) (bitOf v 0 && o != .rc))

/-- The base word of a control-register instruction (R95). -/
def crBase (d a fn : Nat) : Nat := ({ len := 2, major := 0x3C, d := Fin.ofNat 32 d, a := Fin.ofNat 32 a, b := 0, fn := Fin.ofNat 256 fn, ext := 0, lit := 0 } : Raw).base

/-- CRRW (R95). -/
def execCrrw (d a : Reg) (cr : BitVec 12) (s : State) : Out := crAccess (crBase d a 0) .rw true d (s.rd a) cr s
/-- CRRS (R95): it writes when field A is not 0. -/
def execCrrs (d a : Reg) (cr : BitVec 12) (s : State) : Out := crAccess (crBase d a 1) .rs (a != 0) d (s.rd a) cr s
/-- CRRC (R95): it writes when field A is not 0. -/
def execCrrc (d a : Reg) (cr : BitVec 12) (s : State) : Out := crAccess (crBase d a 2) .rc (a != 0) d (s.rd a) cr s
/-- CRRWI (R95). -/
def execCrrwi (d : Reg) (imm : Fin 32) (cr : BitVec 12) (s : State) : Out :=
  crAccess (crBase d imm 4) .rw true d (BitVec.ofNat 64 imm) cr s
/-- CRRSI (R95): it writes when imm is not 0. -/
def execCrrsi (d : Reg) (imm : Fin 32) (cr : BitVec 12) (s : State) : Out :=
  crAccess (crBase d imm 5) .rs (imm != 0) d (BitVec.ofNat 64 imm) cr s
/-- CRRCI (R95): it writes when imm is not 0. -/
def execCrrci (d : Reg) (imm : Fin 32) (cr : BitVec 12) (s : State) : Out :=
  crAccess (crBase d imm 6) .rc (imm != 0) d (BitVec.ofNat 64 imm) cr s

/-! ## The write of ls.split (R18) -/

/-- The stash lines of a core. -/
def stashLines (q : Core) : List Nat := (q.lines.filter fun l => l.2.stash).map (·.1)

/-- Steps 1 and 2 of R18: dirty stash lines are written back, those with a release set after it (R197), and every mapping is discarded. A
busy line goes on as a line of L1. -/
def dropStash (s : State) (c : Nat) : State :=
  let s1 := (stashLines (s.core c)).foldl (fun s blk => if relPending s c blk then flushRel s c 0 blk else giveUp s c 0 blk) s
  s1.updCore c fun q => { q with
    stash := [], lines := q.lines.map fun l => (l.1, if l.2.tag = some .busy then { l.2 with stash := false } else l.2) }

/-- Steps 3 and 4 of R18: the units that change are zeroed, and the split is set. -/
def setSplit (s : State) (c : Nat) (v : Fin 16) : State :=
  let (b, u) := s.half c
  if u < v.val then s else
  let old := Nat.min (s.core c).lsSplit.val u
  let lo := Nat.min old v.val
  let hi := Nat.max old v.val
  s.updCore c fun q => { q with ls := q.ls.clear ((b + lo) * 0x4000) ((hi - lo) * 0x4000), lsSplit := v }

/-- LS_SPLIT_WRITE (R18, R96): the write of a waiting slot goes on; it completes when the write-backs have been accepted. -/
def execLsSplitWrite (t : Nat) (s : State) : Out :=
  match (s.slot t).run with
  | .waiting (.lsSplit v) =>
    let c := agentOf t
    let s1 := dropStash s c
    if !(s1.core c).puts.isEmpty || !(stashLines (s1.core c)).isEmpty then .next s1 else
    let s2 := setSplit s1 c v
    .next ((s2.updSlot t fun x => { x.past 12 with run := .active }).wakeWhere c (· == .lsBusy))
  | _ => .next s

/-! ## System and trap instructions (R97 to R99) -/

/-- SYSCALL (R97). -/
def execSyscall (code : BitVec 15) (s : State) : Out := .next (takeSyncAt s s.cur .syscall (code.setWidth 64) (s.me.pc + 4))
/-- BREAK (R97). -/
def execBreak (code : BitVec 15) (s : State) : Out := .next (takeSyncAt s s.cur .break (code.setWidth 64) (s.me.pc + 4))

/-- The base word of a system instruction (R97). -/
def sysBase (fn : Nat) : Nat := fn * 2 ^ 24 + 0x3D * 4

/-- TRET, HALT and IWAIT: privileged, and no instruction in H mode (R97, R227). -/
def systemOnly (fn : Nat) (s : State) (k : Out) : Out :=
  if s.me.mode = .h then illegalOp (sysBase fn) s else privileged (sysBase fn) s k

/-- The entries a slot spilled to its core's context buffer go back to the queues (R351). -/
def unspill (s : State) (t : Nat) : State :=
  match s.partOf (agentOf t) with
  | some p => returnSpills s p (agentOf t) (fun e => e.item.slot = some (slotOf t)) false
  | none => s

/-- TRET (R23, R351). -/
def execTret (s : State) : Out :=
  systemOnly 2 s
    (if s.me.trPc.toNat % 4 != 0 then trap .misalign s.me.trPc s
     else
      let s1 := s.updMe Slot.trapReturn
      .next (if s1.me.mode = .u then unspill s1 s1.cur else s1))

/-- Whether a checked access lies in a block. -/
def Dest.inBlk (d : Dest) (blk : Nat) : Bool := match d with | .glb ps => ps.any fun p => p.pa / 64 = blk | _ => false

/-- The blocks that a checked access lies in. -/
def Dest.blks (d : Dest) : List Nat := match d with | .glb ps => ps.map (·.pa / 64) | _ => []

/-- Whether a bulk read still has bytes to write to a block (R389). -/
def RemOp.writes (o : RemOp) (blk : Nat) : Bool := o.pieces.any fun x => blk * 64 < x.1 + x.2 && x.1 < blk * 64 + 64

/-- Whether an access that used a removed TLB entry is still under way: the home has not answered its request, or a slot that it suspended
has not re-executed its access; a suspended vector store has still to perform lanes in the block, or a bulk read to write it (R100, R342).
The second number says which: a reply tag, 256 plus a slot, or 512 plus a slot. -/
def stillUsing (s : State) (u : Nat × Nat × Nat) : Bool :=
  let q := s.core u.1
  if u.2.1 < 256 then
    (match look u.2.1 q.reqs with | some r => r.msg.blk = u.2.2 && !r.dead | none => false) ||
      (match look u.2.2 q.awaits with | some l => l.any (mayReexecute s) | none => false)
  else if u.2.1 < 512 then (s.slot (threadOf u.1 (u.2.1 - 256))).vprog.any fun p => p.plan.any fun x => x.2.inBlk u.2.2
  else s.remOps.any fun o => o.thread = some (threadOf u.1 (u.2.1 - 512)) && o.writes u.2.2

/-- Whether a slot's TLBIs have removed their entries and every access that used one has completed (R100, R342). -/
def tlbisOver (s : State) (t : Nat) : Bool := (s.slot t).tlbis.isEmpty && !(s.slot t).tsync.any (stillUsing s)

/-- HALT (R98): the slot's earlier instructions complete first, its TLBIs among them. -/
def execHalt (s : State) : Out :=
  systemOnly 3 s (if !tlbisOver s s.cur then wait .tlbsync s else .next ((s.past 4).updMe fun x => { x with run := .halted }))

/-- IWAIT (R99): it completes when an interrupt is pending, which is taken before the next instruction where tr.status.sie is 1. -/
def execIwait (s : State) : Out :=
  systemOnly 4 s (if s.me.pend.isEmpty then wait .irq s else done 4 (s.updMe fun x => { x with due := x.trStatus.getLsbD 2 }))

/-! ## TLBs (R100, R341 to R343, R349) -/

/-- The base word of a privileged translation instruction (R100, R349). -/
def tlbBase (fn d a b : Nat) : Nat := ({ len := 0, major := 0x3E, d := Fin.ofNat 32 d, a := Fin.ofNat 32 a, b := Fin.ofNat 32 b, fn := Fin.ofNat 256 fn, ext := 0, lit := 0 } : Raw).base

/-- A TLBI is issued and runs on (R100). -/
def issueTlbi (o : Option Tlbi) (s : State) : Out :=
  done 4 (match o with | some x => s.updMe fun q => { q with tlbis := q.tlbis ++ [x] } | none => s)

/-- Whether a context selector names a context (R341). -/
def ctxOf (b : Word) : Option Nat := if b.toNat < 16 then some b.toNat else none

/-- TLBI.VA (R341). -/
def execTlbiVa (a b : Reg) (s : State) : Out :=
  privileged (tlbBase 0 0 a b) s (issueTlbi ((ctxOf (s.rd b)).map fun p => .va (fld (s.rd a).toNat 0 57) p) s)
/-- TLBI.CTX (R341). -/
def execTlbiCtx (b : Reg) (s : State) : Out :=
  privileged (tlbBase 1 0 0 b) s (issueTlbi ((ctxOf (s.rd b)).map .ctx) s)
/-- TLBI.ALL (R341). -/
def execTlbiAll (s : State) : Out := privileged (tlbBase 2 0 0 0) s (issueTlbi (some .all) s)
/-- TLBSYNC (R100). -/
def execTlbsync (s : State) : Out := privileged (tlbBase 3 0 0 0) s (if tlbisOver s s.cur then done 4 s else wait .tlbsync s)

/-- Whether a TLBI removes an entry (R341). -/
def Tlbi.removes (o : Tlbi) (e : TlbEntry) : Bool :=
  match o with
  | .va a p => e.part = p && e.va ≤ a && a < e.va + pageBytes e.size
  | .ctx p => e.part = p && !e.g
  | .all => true

/-- Whether a TLBI removes a cached table entry (R341). Of the second stage's entries TLBI.VA removes all of its partition: they are more
than those on the path, which a walker may drop at any time (log 10). -/
def Tlbi.removesWalk (o : Tlbi) (e : WalkEntry) : Bool :=
  match o with
  | .va a p => e.part = p && (e.stage2 || a / 2 ^ (12 + 9 * e.lvl) = e.va / 2 ^ (12 + 9 * e.lvl))
  | .ctx p => e.part = p
  | .all => true

/-- Whether a block lies in the page that a TLB entry names. -/
def TlbEntry.names (e : TlbEntry) (blk : Nat) : Bool := e.pa ≤ blk * 64 && blk * 64 < e.pa + pageBytes e.size

/-- The blocks that a core's suspended vector stores and bulk reads have still to write, as users of entries (R100, R127, R389). -/
def laterUsers (s : State) (c : Nat) : List (Nat × Nat × Nat) :=
  (List.range 16).flatMap fun i =>
    let t := threadOf c i
    (match (s.slot t).vprog with | some p => p.plan.flatMap fun x => x.2.blks.map fun b => (c, 256 + i, b) | none => []) ++
      (s.remOps.filter fun o => o.thread = some t).flatMap fun o => o.pieces.flatMap fun x =>
        (List.range ((x.1 % 64 + x.2 + 63) / 64)).map fun j => (c, 512 + i, x.1 / 64 + j)

/-- The accesses of a cluster's cores that used one of the entries removed: requests, by core, tag and block, and what vector stores and bulk
reads have still to write (R100, R342). -/
def usersOf (s : State) (cl : Nat) (removes : TlbEntry → Bool) : List (Nat × Nat × Nat) :=
  let gone := ((s.cluster cl).tlb ++ (coresOf cl).flatMap fun c => (s.core c).itlb ++ (s.core c).dtlb).filter removes
  (coresOf cl).flatMap fun c =>
    (((s.core c).reqs.filter fun r => !r.2.dead).map (fun r => (c, r.1, r.2.msg.blk)) ++ laterUsers s c).filter fun u => gone.any fun e => e.names u.2.2

/-- Entries leave a cluster's TLBs and walker caches (R341). -/
def removeEntries (s : State) (cl : Nat) (removes : TlbEntry → Bool) (removesWalk : WalkEntry → Bool) : State :=
  let s1 := s.updCluster cl fun k => { k with tlb := k.tlb.filter fun e => !removes e, wcache := k.wcache.filter fun e => !removesWalk e }
  (coresOf cl).foldl (fun s c =>
    let q := s.core c
    if q.itlb.any removes || q.dtlb.any removes then
      s.setCore c { q with itlb := q.itlb.filter fun e => !removes e, dtlb := q.dtlb.filter fun e => !removes e }
    else s) s1

/-- The entries that a TLBI removes (R341). -/
def applyTlbi (s : State) (cl : Nat) (o : Tlbi) : State := removeEntries s cl o.removes o.removesWalk

/-- TLBI_COMPLETION (R100): the oldest TLBI of a slot of the cluster finishes removing its entries; the accesses that used one of them are
remembered for its TLBSYNC. -/
def execTlbiCompletion (cl : Nat) (s : State) : Out :=
  let ts := (coresOf cl).flatMap fun c => s.slotsWhere c fun x => !x.tlbis.isEmpty
  match ts with
  | [] => .next s
  | t :: _ =>
    match (s.slot t).tlbis with
    | [] => .next s
    | o :: l =>
      let users := usersOf s cl o.removes
      let s1 := (applyTlbi s cl o).updSlot t fun x => { x with tlbis := l, tsync := x.tsync.filter (stillUsing s) ++ users }
      .next (if tlbisOver s1 t && (s1.slot t).run == .waiting .tlbsync then s1.wake t else s1)

/-- PT.PROBE (R343): it fills no TLB. Its walk begins and ends in one step; the slot then leaves the rotation until the walk's reply, and
an interrupt before that abandons it (R72, R104). -/
def execPtProbe (d a : Reg) (s : State) : Out :=
  let redo := s.redoing (some d)
  privileged (tlbBase 4 d a 0) s
    (match s.partOf s.myCore with
     | none => doneAway 4 (some .access) redo (s.wr d (ptProbe s s.mem s.myCore (s.rd a)))
     | some p =>
       let (m, s1) := walkView s s.myCluster p
       doneAway 4 (some .access) redo (s1.wr d (ptProbe s1 m s1.myCore (s1.rd a))))

/-- FAULT.RD (R349). -/
def execFaultRd (d a : Reg) (s : State) : Out :=
  privileged (tlbBase 5 d a 0) s
    (if 4 ≤ (s.rd a).toNat then trap .illegalOperand (s.rd a) s
     else result 4 d (s.me.efd.toList.getD (s.rd a).toNat 0) s)

/-- ILLEGAL_OP_ENCODING (R36): the current slot issues a bit pattern that is no instruction. -/
def execIllegalOpEncoding (w : BitVec 32) (s : State) : Out := illegalOp w.toNat s

end Sys2Proof.Machine
end

