-- ==== Sys2Proof/Machine/Work.lean ====
section
/-! DEFINITION. Parallel work (spec/06): records and the deque, forks, joins, range recruitment, stealing, barriers, mailbox waits
and self identification. -/

namespace Sys2Proof.Machine

/-! ## Starting and ending a record (R27, R136, R146) -/

/-- The scalar registers at record start (R27). -/
def startRegs (r : Rec) : Vector Word 32 :=
  let (lo, hi) := match r.range with | some (lo, hi, _) => (lo, hi) | none => (0, 0)
  (((((Vector.replicate 32 (0 : Word)).set 3 r.frame).set 4 r.arg).set 5 r.cell).set 6 lo).set 7 hi

/-- sr.state at record start (R27). -/
def startState (r : Rec) : BitVec 32 :=
  let x : BitVec 32 := (r.frame ^^^ r.arg).setWidth 32
  if x = 0 then 1 else x

/-- A slot that starts a record (R27); what R27 does not name keeps its value. -/
def Slot.start (x : Slot) (r : Rec) (stolen : Bool) : Slot :=
  { x with
    s := startRegs r, v := Vector.replicate 32 0, pc := r.code, mode := .u, run := .active, fpMode := 0, fpFlags := 0,
    srState := startState r, cntOvf := false, fresh := none, record := some r, stolen := stolen, lv := none,
    relFence := none, acqFence := none, vprog := none, handler := none, got := none, unmaps := [],
    efd := x.efd.set 0 (x.efd[0] &&& 0x7FFFFFFFFFFFFFFF) }

/-- A slot starts a record; the engine-fault descriptor and a resume record that names the slot are gone, and a parked result of the
record before completes for no register (R27, R299, R323, R348). A misaligned code pointer traps at once (R12, R130). -/
def startRec (s : State) (t : Nat) (r : Rec) : State :=
  let s0 := s.updCore (agentOf t) fun q => { q with
    resume := if (q.resume.map (·.slot)) == some (slotOf t) then none else q.resume,
    sfuq := q.sfuq.map fun e => if e.slot = slotOf t then { e with lost := true } else e }
  let s1 := s0.updSlot t fun x => x.start r (r.first != agentOf t)
  if r.code.toNat % 4 != 0 then takeSyncAt s1 t .misalign r.code (r.code &&& ~~~(3 : Word)) else s1

/-- The running record of a slot ends: the slot is idle, and the host hears of a LEASE_VIOLATION the record met (R146, R345,
R413). -/
def endRecord (s : State) (t : Nat) : State :=
  let x := s.slot t
  let s1 := s.setSlot t { x with run := .idle, record := none, mode := .u, fresh := none, vprog := none, lv := none, got := none, unmaps := [] }
  match x.lv with
  | some (pc, v) => if x.record.isSome then s1.hostEvent (s1.partOf (agentOf t)) 0x84 0 0 [pc, v] else s1
  | none => s1

/-- Whether a core's idle slots count as idle: its partition runs on it, and new work wakes its cluster if its clock is gated (R136, R138,
R410, R435). -/
def mayWork (s : State) (c : Nat) : Bool :=
  let k := s.cluster (clusterOf c)
  k.swap == .none && k.clock != .powerGated && (match k.part with | some p => (s.part p).running && !(s.part p).inPlace && !(s.part p).diverged | none => false)

/-- The idle slots of a core, in ascending order (R136). -/
def idleSlots (s : State) (c : Nat) : List Nat := if mayWork s c then s.slotsWhere c fun x => x.run == .idle else []

/-- The idle slots that may take a record now: the core's clock runs, and one with a pending interrupt takes that first (R313, R350). -/
def freeSlots (s : State) (c : Nat) : List Nat := if works s c then (idleSlots s c).filter fun t => (s.slot t).pend.isEmpty else []

/-- The launch that the record of a thread belongs to (R344). -/
def launchOf (s : State) (t : Nat) : Option (BitVec 16) := (s.slot t).record.bind (·.launch)

/-! ## The deque (R133 to R135) -/

/-- Whether a core has a backing area (R133). -/
def hasBacking (s : State) (c : Nat) : Bool := match s.cfgOf c with | some k => k.backing != 0 | none => false

/-- The value of a push that finds no room (R134). -/
def noRoom : Word := BitVec.allOnes 64

/-- Room for a push (R134): it waits for a spill in progress, and traps when the deque is full. -/
def pushRoom (s : State) (c : Nat) : Res Unit :=
  let q := s.core c
  if q.deque.length < 64 then .ok () s
  else if hasBacking s c && q.backing.length < 4096 then .wait .spill s
  else .trap .illegalOperand noRoom s

/-- Whether a core lies in the steal domain of another: the same core, cluster, die or package (R131). -/
def inDomain (d a b : Nat) : Bool :=
  match d with
  | 0 => a = b
  | 1 => clusterOf a = clusterOf b
  | 2 => dieOf a = dieOf b
  | _ => true

/-- A new stealable entry is reported to the steal logic of the cores that may take it (R137). -/
def report (s : State) (c : Nat) (r : Rec) : State :=
  if r.domain = 0 then s else
  { s with cores := s.cores.map fun (q : Nat × Core) => if inDomain r.domain c q.1 then (q.1, { q.2 with searching := true }) else q }

/-- A record becomes the newest entry of a core's deque (R133). -/
def pushBottom (s : State) (c : Nat) (r : Rec) : State :=
  report (s.updCore c fun q => { q with deque := q.deque ++ [r] }) c r

/-- A thread number that no slot has: the issuer of an entry no slot waits for. -/
def noThread : Nat := 2 ^ 20

/-- Entries held in a core's spill path enter the hardware part as it has room; slots that waited for that go on (R134,
R145). -/
def settle (s : State) (c : Nat) : State :=
  let q := s.core c
  let n := 64 - q.deque.length
  let now := q.spillPath.take n
  let s1 := now.foldl (fun s e => pushBottom s c e.2) (s.updCore c fun q => { q with spillPath := q.spillPath.drop n })
  let s2 := now.foldl (fun s e =>
    if s.cores.any fun x => x.2.spillPath.any fun y => y.1 = e.1 then s
    else if (s.slot e.1).run == .waiting .deal then s.wake e.1 else s) s1
  if (s2.core c).deque.length < 64 then s2.wakeWhere c (· == .spill) else s2

/-- A piece goes to the bottom of a deque, or into its spill path when the hardware part is full (R145). -/
def dealTo (s : State) (c issuer : Nat) (r : Rec) : State :=
  let r1 := { r with first := c }
  if (s.core c).deque.length < 64 && (s.core c).spillPath.isEmpty then pushBottom s c r1
  else s.updCore c fun q => { q with spillPath := q.spillPath ++ [(issuer, r1)] }

/-- DEQUE_SPILL (R134): the oldest hardware entries move to the backing area, which keeps them oldest first. -/
def execDequeSpill (c : Nat) (s : State) : Out :=
  let q := s.core c
  let k := Nat.min 32 (4096 - q.backing.length)
  if 48 ≤ q.deque.length && hasBacking s c && k != 0 then
    .next (settle (s.updCore c fun q => { q with deque := q.deque.drop k, backing := q.backing ++ q.deque.take k }) c)
  else .next s

/-- DEQUE_REFILL (R134): a pop found the hardware part empty; the newest backing entries move back. R134 also says that the hardware part
holds at least 16 entries while the backing area is non-empty, which no row of its table brings about; the table is followed (log 63). -/
def execDequeRefill (c : Nat) (s : State) : Out :=
  let q := s.core c
  let n := q.backing.length - 32
  if q.deque.isEmpty && !q.backing.isEmpty && !(freeSlots s c).isEmpty then
    let s1 := s.updCore c fun q => { q with deque := q.backing.drop n, backing := q.backing.take n }
    .next ((q.backing.drop n).foldl (fun s r => report s c r) s1)
  else .next s

/-- The place of the last entry of a list that satisfies a condition. -/
def lastWhere (f : Rec → Bool) (l : List Rec) : Option Nat := ((List.range l.length).filter fun i => (l[i]?).any f).getLast?

/-- RECORD_POP (R136): the core's lowest idle slot takes the newest urgent entry of the hardware part, or the newest. -/
def execRecordPop (c : Nat) (s : State) : Out :=
  let q := s.core c
  match (freeSlots s c).head?, q.deque.length with
  | some t, n + 1 =>
    let i := (lastWhere Rec.urgent q.deque).getD n
    match q.deque[i]? with
    | some r => .next (startRec (settle (s.updCore c fun q => { q with deque := q.deque.eraseIdx i }) c) t r)
    | none => .next s
  | _, _ => .next s

/-! ## Stealing (R135 to R137) -/

/-- Where a thief of a step takes from a victim's hardware part: the oldest urgent entry that the domain allows, or the oldest
(R137). -/
def victimEntry (s : State) (p d v : Nat) : Option Nat :=
  let l := (s.core v).deque
  if s.partOf v != some p then none else
  match l.findIdx? fun r => d ≤ r.domain && r.urgent with
  | some i => some i
  | none => l.findIdx? fun r => d ≤ r.domain

/-- A list turned so that it begins after a number. -/
def after (n : Nat) (l : List Nat) : List Nat := (l.filter fun i => n < i) ++ l.filter fun i => i ≤ n

/-- The clusters of a die, in ascending order. -/
def clustersOf (die : Nat) : List Nat := (List.range 128).filter fun k => dieOfCluster k = die

/-- The cluster at the same place of another die (R137). -/
def samePlace (k die : Nat) : Nat := (die / 2 * 8 + k / 8 % 8) * 8 + die % 2 * 4 + k % 4

/-- The victim and the entry that a search of a thief finds (R137). -/
def findVictim (s : State) (c : Nat) : Option (Nat × Nat) :=
  match s.partOf c with
  | none => none
  | some p =>
    let k := clusterOf c
    let die := dieOf c
    let step1 := (after ((s.core c).lastSteal.getD c) (coresOf k)).filter (· != c)
    let named (d k : Nat) : Option (Nat × Nat) := (coresOf k).findSome? fun v => (victimEntry s p d v).map fun i => (v, i)
    match step1.findSome? fun v => (victimEntry s p 1 v).map fun i => (v, i) with
    | some r => some r
    | none =>
      match ((after k (clustersOf die)).filter (· != k)).findSome? (named 2) with
      | some r => some r
      | none => [1, 2, 3].findSome? fun i =>
        let d := (die + i) % 4
        let k1 := samePlace k d
        ([k1] ++ (after k1 (clustersOf d)).filter (· != k1)).findSome? (named 3)

/-- Whether a core's steal logic searches (R136, R137). -/
def maySteal (s : State) (c : Nat) : Bool :=
  (s.core c).searching && (s.core c).deque.isEmpty && (s.core c).backing.isEmpty && !(freeSlots s c).isEmpty &&
    !(s.transit.any fun x => x.thief = c)

/-- STEAL_SEARCH (R137): an entry goes in transit, or the steal logic waits for a report. -/
def execStealSearch (c : Nat) (s : State) : Out :=
  if !maySteal s c then .next s else
  match findVictim s c with
  | none => .next (s.updCore c fun q => { q with searching := false })
  | some (v, i) =>
    match (s.core v).deque[i]? with
    | none => .next s
    | some r =>
      let s1 := settle (s.updCore v fun q => { q with deque := q.deque.eraseIdx i }) v
      .next { (s1.updCore c fun q => { q with lastSteal := some v }) with transit := s1.transit ++ [⟨c, v, r⟩] }

/-- STEAL_ARRIVAL (R135): the record starts in the thief's lowest idle slot, or is queued as its newest entry, never refused. -/
def execStealArrival (k : Nat) (s : State) : Out :=
  match s.transit[k]? with
  | none => .next s
  | some x =>
    let s1 := { s with transit := s.transit.eraseIdx k }
    match (freeSlots s1 x.thief).head? with
    | some t => .next (startRec s1 t x.rcd)
    | none =>
      let q := s1.core x.thief
      if q.deque.length < 64 && q.spillPath.isEmpty then .next (pushBottom s1 x.thief x.rcd)
      else .next (s1.updCore x.thief fun q => { q with spillPath := q.spillPath ++ [(noThread, x.rcd)] })

/-! ## Reading records -/

/-- A continuation record from its 32 bytes (R130). -/
def recOf (l : List Byte) (first : Nat) : Rec :=
  { code := BitVec.ofNat 64 (leNat (l.take 8)), frame := BitVec.ofNat 64 (leNat ((l.drop 8).take 8)),
    arg := BitVec.ofNat 64 (leNat ((l.drop 16).take 8)), join := BitVec.ofNat 64 (leNat ((l.drop 24).take 8)), first := first }

/-- A record read from memory by the current slot (R143, R145): `n` bytes at an address aligned to them. -/
def readRec (s : State) (a : Word) (n : Nat) : Res (List Byte × Option Wait) :=
  if a.toNat % n != 0 then .trap .misalign a s else loadBytes s (s.by ⟨.rlx, .pkg, 4⟩) a n 1

/-- A record read for an instruction that acts on it only when its bytes have come: one that is served beyond the core takes the slot out of
the rotation, and an interrupt meanwhile abandons it with nothing done (R104, R155). -/
def awaitRec (s : State) (a : Word) (n : Nat) : Res (List Byte) :=
  match s.me.got.filter fun g => g.1 = s.me.pc with
  | some g => .ok g.2 s
  | none => (readRec s a n).andThen fun r s =>
      match r.2 with
      | none => .ok r.1 s
      | some w => .wait w (s.updMe fun x => { x with got := some (x.pc, r.1) })

/-- A join word whose reserved bits are set is rejected (R130, R143). -/
def checkJoin (r : Rec) (v : Word) (s : State) : Res Unit :=
  if bits r.join 5 3 != 0 then .trap .illegalOperand v s else .ok () s

/-- The release an offer of a record performs, at the scope of its domain (R141). A record of domain 0 stays on its core. -/
def releaseOffer (s : State) (r : Rec) : Res Unit :=
  if r.domain = 0 then .ok () s else releaseFirst s s.cur (domainScope r.domain)

/-! ## Fork and yield (R143, R144) -/

/-- A continuation record is offered at the bottom of the core's deque (R143): with .INC its cell is counted in the same step, so
that a trap or a wait leaves the count unchanged. -/
def offer (inc : Bool) (r0 : Rec) (w : Option Wait) (s : State) : Out :=
  let r := { r0 with launch := launchOf s s.cur }
  ((checkJoin r r.join s).andThen fun _ s =>
    (if inc then
      (if r.cell = 0 then Res.trap .illegalOperand r.join s
       else (cellAddr s s.cur r.cell r.join).andThen fun pa s => .ok (some pa) s)
     else Res.ok none s).andThen fun cell s =>
      (pushRoom s s.myCore).andThen fun _ s => (releaseOffer s r).andThen fun _ s => .ok cell s).finish fun cell s =>
    let s1 := match cell with | some pa => cellCount s s.cur pa (· + 1) | none => s
    doneFar 4 w (pushBottom s1 s.myCore r)

/-- FORK (R143). -/
def execFork (d a b c : Reg) (s : State) : Out :=
  offer false { code := s.rd d, frame := s.rd a, arg := s.rd b, join := s.rd c, first := s.myCore } none s
/-- FORK.INC (R143). -/
def execForkInc (d a b c : Reg) (s : State) : Out :=
  offer true { code := s.rd d, frame := s.rd a, arg := s.rd b, join := s.rd c, first := s.myCore } none s
/-- FORKM (R143, R155). -/
def execForkm (a : Reg) (s : State) : Out :=
  (awaitRec s (s.rd a) 32).finish fun l s => offer false (recOf l s.myCore) none s
/-- FORKM.INC (R143). -/
def execForkmInc (a : Reg) (s : State) : Out :=
  (readRec s (s.rd a) 32).finish fun r s => offer true (recOf r.1 s.myCore) r.2 s

/-- Where a yielded record goes (R144). -/
def yieldPlace (s : State) (c : Nat) (r : Rec) : Option State :=
  let q := s.core c
  if q.backing.isEmpty then
    if q.deque.length < 64 then some (report (s.updCore c fun q => { q with deque := r :: q.deque }) c r)
    else if hasBacking s c then some (s.updCore c fun q => { q with backing := [r] })
    else none
  else if q.backing.length < 4096 then some (s.updCore c fun q => { q with backing := r :: q.backing })
  else none

/-- YIELD (R144, R155): the record read is queued as the oldest entry, and the running record ends. -/
def execYield (a : Reg) (s : State) : Out :=
  ((awaitRec s (s.rd a) 32).andThen fun l s =>
    let r := { recOf l s.myCore with launch := launchOf s s.cur }
    (checkJoin r r.join s).andThen fun _ s =>
      if (yieldPlace s s.myCore r).isNone then Res.trap .illegalOperand noRoom s
      else (releaseOffer s r).andThen fun _ s => .ok r s).finish fun r s =>
    match yieldPlace s s.myCore r with
    | some s1 => .next (endRecord s1 s1.cur)
    | none => trap .illegalOperand noRoom s

/-! ## Range fork (R138 to R140, R145) -/

/-- Units of a range: exact ceiling of its length over its grain (R138). -/
def units (lo hi g : Nat) : Nat := (hi - lo + g - 1) / g

/-- Piece p of n of a range (R138). -/
def piece (lo hi g n p : Nat) : Nat × Nat :=
  let u := units lo hi g
  let q := u / n
  let r := u % n
  let sp := p * q + Nat.min p r
  let up := q + bit (p < r)
  (lo + sp * g, Nat.min hi (lo + (sp + up) * g))

/-- A range record over a piece. -/
def Rec.piece (r : Rec) (x : Nat × Nat) : Rec :=
  match r.range with
  | some (_, _, g) => { r with range := some (BitVec.ofNat 64 x.1, BitVec.ofNat 64 x.2, g), seed := none }
  | none => r

/-- The bounds and grain of a range record. -/
def Rec.bounds (r : Rec) : Nat × Nat × Nat :=
  match r.range with
  | some (lo, hi, g) => (lo.toNat, hi.toNat, g.toNat)
  | none => (0, 0, 1)

/-- The pieces of a range record split in n, in order (R138). -/
def Rec.pieces (r : Rec) (n : Nat) : List Rec :=
  let (lo, hi, g) := r.bounds
  (List.range n).map fun p => r.piece (Machine.piece lo hi g n p)

/-- The units of a range record. -/
def Rec.units (r : Rec) : Nat := let (lo, hi, g) := r.bounds; Machine.units lo hi g

/-- The idle cores of a domain in a partition, other than a core, in ascending number from the core after it, wrapping
(R138). -/
def idleCores (s : State) (p d c : Nat) : List Nat :=
  let all := match d with
    | 0 => []
    | 1 => coresOf (clusterOf c)
    | 2 => (clustersOf (dieOf c)).flatMap coresOf
    | _ => (List.range 128).flatMap coresOf
  ((after c (ascending all)).filter fun i => i != c && s.partOf i == some p && !(idleSlots s i).isEmpty)

/-- The idle cores of another die, in ascending number from the core after the issuing core, wrapping within the die
(R138, R139). -/
def idleInDie (s : State) (p die c : Nat) : List Nat :=
  (after c (ascending ((clustersOf die).flatMap coresOf))).filter fun i => s.partOf i == some p && !(idleSlots s i).isEmpty

/-- The count I of a domain (R138, R153). -/
def idleCount (s : State) (c d : Nat) : Nat :=
  if d = 0 then (idleSlots s c).length
  else match s.partOf c with | some p => (idleCores s p d c).length | none => 0

/-- Where the pieces of one share go (R138, R139): the cores and the pieces in order. -/
def dealPlan (r : Rec) (cores : List Nat) : List (Nat × Rec) :=
  let n := Nat.min cores.length r.units
  cores.zip (r.pieces n)

/-- The pieces of an offer, with the cores they go to, and the shares that wait undealt (R138, R139). A share of another die is dealt at
once in as many pieces as that die has idle cores, since no core of it but a recruited one takes a piece (log 64). -/
def offerPlan (s : State) (c : Nat) (r : Rec) (cell : Option Nat) : List (Nat × Rec) × List Share :=
  let p := (s.partOf c).getD 16
  match r.domain with
  | 0 =>
    let l := r.pieces (Nat.min ((idleSlots s c).length + 1) r.units)
    (((l.drop 1).reverse ++ l.take 1).map fun x => (c, x), [])
  | 3 =>
    let shares := r.pieces (Nat.min 4 r.units)
    let idx := (List.range shares.length).zip shares
    let plans := idx.map fun (x : Nat × Rec) =>
      if x.1 = dieOf c then (dealPlan x.2 (c :: idleCores s p 2 c), [])
      else
        let l := idleInDie s p x.1 c
        if l.isEmpty then ([], [({ part := p, die := x.1, core := c, rcd := x.2, cell := cell } : Share)]) else (dealPlan x.2 l, [])
    (plans.flatMap (·.1), plans.flatMap (·.2))
  | d => (dealPlan r (c :: idleCores s p d c), [])

/-- RFORK (R145). -/
def execRfork (a : Reg) (s : State) : Out :=
  let adr := s.rd a
  ((readRec s adr 64).andThen fun l s =>
    let w (i : Nat) : Word := BitVec.ofNat 64 (leNat ((l.1.drop i).take 8))
    let r := { recOf l.1 s.myCore with range := some (w 32, w 40, w 48), launch := launchOf s s.cur }
    (checkJoin r adr s).andThen fun _ s =>
      if w 56 != 0 || w 48 = 0 then Res.trap .illegalOperand adr s
      else
        (if r.cell = 0 then Res.ok none s else (cellAddr s s.cur r.cell adr).andThen fun pa s => .ok (some pa) s).andThen fun cell s =>
          (releaseOffer s r).andThen fun _ s => .ok (r, cell, l.2) s).finish fun x s =>
    let (r, cell, far) := x
    let c := s.myCore
    let (lo, hi, _) := r.bounds
    let set (n : Nat) (s : State) : State := match cell with | some pa => cellCount s s.cur pa fun _ => BitVec.ofNat 64 n | none => s
    let s1 :=
      if hi ≤ lo then
        let s1 := set 0 s
        match cell with
        | none => s1
        | some pa =>
          let k := { recOf (homeBytes s1 (pa + 32) 32) c with launch := r.launch }
          if k.code = 0 then s1 else dealTo s1 c s.cur k
      else
        let (l, sh) := offerPlan s c r cell
        let s1 := l.foldl (fun s e => dealTo s e.1 s.cur e.2) (set (l.length + sh.length) s)
        { s1 with shares := s1.shares ++ sh }
    if s1.cores.any fun q => q.2.spillPath.any fun e => e.1 = s.cur then doneFar 4 (some .deal) s1 else doneFar 4 far s1

/-- A waiting range is dealt in a die: the count grows before the pieces are delivered (R139, R140). The home must hold the cell first: until
then `held`, what its asking leaves of the state before, stands, and nothing is dealt (R132). -/
def dealShare (held s : State) (p die c : Nat) (r : Rec) (cell : Option Nat) (extra : Nat) : State :=
  let l := dealPlan r (idleInDie s p die c)
  let deal (s : State) : State := l.foldl (fun s e => dealTo s e.1 noThread e.2) s
  match cell with
  | none => deal s
  | some pa =>
    match cellHeld held c 0 pa false 0 with
    | .ok _ h => deal (cellCount { h with shares := s.shares } (threadOf c 0) pa (· + BitVec.ofNat 64 (l.length - 1 + extra)))
    | .wait _ h | .trap _ _ h => h

/-- UNDEALT_SHARE_DEAL (R139): a die's root deals its share when a core of the die is idle. -/
def execUndealtShareDeal (die : Nat) (s : State) : Out :=
  match s.shares.findIdx? fun x => x.die = die && !(idleInDie s x.part die x.core).isEmpty with
  | none => .next s
  | some i =>
    match s.shares[i]? with
    | none => .next s
    | some x => .next (dealShare s { s with shares := s.shares.eraseIdx i } x.part die x.core x.rcd x.cell 0)

/-- Whether a die is dry for a partition (R139): no range waits at its root and no deque of it holds an entry of domain die or
package. -/
def dryDie (s : State) (p die : Nat) : Bool :=
  !(s.shares.any fun x => x.die = die && x.part = p) &&
    !(s.cores.any fun q => dieOf q.1 = die && s.partOf q.1 == some p && (q.2.deque ++ q.2.backing).any fun r => 2 ≤ r.domain)

/-- The share a dry die takes from: the largest, ties to the lowest die (R139). -/
def largestShare (s : State) (die : Nat) : Option (Nat × Share) :=
  let l := ((List.range s.shares.length).zip s.shares).filter fun (x : Nat × Share) =>
    let p := x.2.part
    x.2.die != die && dryDie s p die && !(idleInDie s p die x.2.core).isEmpty
  l.foldl (fun (best : Option (Nat × Share)) x =>
    match best with
    | none => some x
    | some b => if b.2.rcd.units < x.2.rcd.units || (b.2.rcd.units = x.2.rcd.units && x.2.die < b.2.die) then some x else best) none

/-- RANGE_TRANSFER (R139): a dry die takes the upper half of the units of the largest range that waits at another root. -/
def execRangeTransfer (die : Nat) (s : State) : Out :=
  match largestShare s die with
  | none => .next s
  | some (i, x) =>
    let p := x.part
    let u := x.rcd.units
    let (lo, hi, g) := x.rcd.bounds
    if u ≤ 1 then .next (dealShare s { s with shares := s.shares.eraseIdx i } p die x.core x.rcd x.cell 0)
    else
      let mid := lo + (u - u / 2) * g
      let s1 := { s with shares := s.shares.set i { x with rcd := x.rcd.piece (lo, mid) } }
      .next (dealShare s s1 p die x.core (x.rcd.piece (mid, hi)) x.cell 1)

/-! ## Ending a record (R146, R147) -/

/-- DONE (R146). -/
def execDone (s : State) : Out := .next (endRecord s s.cur)

/-- JOIN (R147). -/
def execJoin (sc : Scope) (a : Reg) (s : State) : Out :=
  let adr := s.rd a
  if adr = 0 then .next (endRecord s s.cur)
  else if adr.toNat % 64 != 0 then trap .misalign adr s
  else
    ((cellAddr s s.cur adr adr).andThen fun pa s =>
      if 4 ≤ scopeRank sc && s.me.ff != 0 then Res.wait .remotes s
      else (releaseFirst s s.cur (relScope s s.cur sc)).andThen fun _ s => .ok pa s).finish fun pa s =>
      let c := homeWord s pa
      let k := { recOf (homeBytes s (pa + 32) 32) s.myCore with launch := launchOf s s.cur }
      if c = 0 then trap .illegalOperand adr s
      else
        let s1 := cellCount s s.cur pa (· - 1)
        if c = 1 && k.code != 0 then .next (startRec (endRecord s1 s1.cur) s1.cur k)
        else .next (endRecord s1 s1.cur)

/-! ## Pause (R148) -/

/-- PAUSE (R148): the instruction has completed when an interrupt ends the pause. -/
def execPause (a : Reg) (s : State) : Out :=
  let n := Nat.min (s.rd a).toNat 1048575
  if n = 0 then done 4 s else doneFar 4 (some (.pause (s.time + n))) s

/-- PAUSE_EXPIRY (R148). -/
def execPauseExpiry (t : Nat) (s : State) : Out :=
  match (s.slot t).run with
  | .waiting (.pause till) => .next ({ s with time := Nat.max s.time till }.wake t)
  | _ => .next s

/-! ## Barriers (R149 to R151) -/

/-- A barrier register of a core. -/
def State.bar (s : State) (c : Nat) (n : Fin 8) : Barrier := (s.core c).bars[n]
/-- Change a barrier register. -/
def State.updBar (s : State) (c : Nat) (n : Fin 8) (f : Barrier → Barrier) : State :=
  s.updCore c fun q => { q with bars := q.bars.set n (f q.bars[n]) }

/-- bar.ph (R149) -/
def Barrier.ph (b : Barrier) : Bool := bitOf b.reg 63
/-- bar.v (R149) -/
def Barrier.v (b : Barrier) : Bool := bitOf b.reg 62
/-- The rectangle's fields (R149). -/
def Barrier.rect (b : Barrier) : BitVec 22 := b.reg.setWidth 22
/-- x0 of a rectangle (R149) -/
def rectX0 (r : BitVec 22) : Nat := fld r.toNat 0 5
/-- x1 of a rectangle (R149) -/
def rectX1 (r : BitVec 22) : Nat := fld r.toNat 5 5
/-- y0 of a rectangle (R149) -/
def rectY0 (r : BitVec 22) : Nat := fld r.toNat 10 6
/-- y1 of a rectangle (R149) -/
def rectY1 (r : BitVec 22) : Nat := fld r.toNat 16 6

/-- The cores of a rectangle. -/
def rectCores (r : BitVec 22) : List Nat :=
  (List.range (rectY1 r + 1 - rectY0 r)).flatMap fun y => (List.range (rectX1 r + 1 - rectX0 r)).map fun x =>
    (rectY0 r + y) * 32 + rectX0 r + x

/-- The scope of a barrier (R150). -/
def rectScope (r : BitVec 22) : Scope :=
  let a := rectY0 r * 32 + rectX0 r
  let b := rectY1 r * 32 + rectX1 r
  if clusterOf a = clusterOf b then .clu else if dieOf a = dieOf b then .die else .pkg

/-- Whether every participating slot of a core has arrived in the current phase (R150). -/
def locallyComplete (s : State) (c : Nat) (n : Fin 8) : Bool :=
  let b := s.bar c n
  (List.range 16).all fun i => !(bitOf b.reg (32 + i)) || (s.slot (threadOf c i)).arrived[n] == some b.ph

/-- A core inverts its phase, re-admits its waiting slots and passes the release on: down column x0, and east (R150). -/
def barRelease (s : State) (c : Nat) (n : Fin 8) : State :=
  let r := (s.bar c n).rect
  let s1 := s.updBar c n fun b => { b with reg := b.reg ^^^ (1 <<< 63), fromEast := false, fromBelow := false, sent := false }
  let s2 := s1.wakeWhere c fun w => match w with | .barrier m _ => m = n | _ => false
  let east := if meshX c < rectX1 r then [({ part := s.partOf c, dst := c + 1, n := n, rect := r, kind := .release } : BarMsg)] else []
  let down := if meshX c = rectX0 r && meshY c < rectY1 r then [({ part := s.partOf c, dst := c + 32, n := n, rect := r, kind := .release } : BarMsg)] else []
  { s2 with barMsgs := s2.barMsgs ++ down ++ east }

/-- The arrival sweep goes on at a core whose conditions hold (R150). -/
def barAdvance (s : State) (c : Nat) (n : Fin 8) : State :=
  let b := s.bar c n
  let r := b.rect
  let x := meshX c
  let y := meshY c
  if !b.v || b.sent || !locallyComplete s c n then s
  else if x != rectX1 r && !b.fromEast then s
  else if x != rectX0 r then
    { s.updBar c n fun b => { b with sent := true } with barMsgs := s.barMsgs ++ [⟨s.partOf c, c - 1, n, r, .arrivalEast⟩] }
  else if y != rectY1 r && !b.fromBelow then s
  else if y != rectY0 r then
    { s.updBar c n fun b => { b with sent := true } with barMsgs := s.barMsgs ++ [⟨s.partOf c, c - 32, n, r, .arrivalBelow⟩] }
  else barRelease s c n

/-- Whether a core's register matches a barrier message (R150). -/
def barMatches (s : State) (m : BarMsg) : Bool := s.partOf m.dst == m.part && (s.bar m.dst m.n).v && (s.bar m.dst m.n).rect = m.rect

/-- BARRIER_ARRIVAL (R150): the arrival of a neighbour; a core whose register does not match holds it. -/
def execBarrierArrival (k : Nat) (s : State) : Out :=
  match s.barMsgs[k]? with
  | none => .next s
  | some m =>
    if m.kind == .release || !barMatches s m then .next s else
    let s1 := { s with barMsgs := s.barMsgs.eraseIdx k }
    let s2 := s1.updBar m.dst m.n fun b => if m.kind == .arrivalEast then { b with fromEast := true } else { b with fromBelow := true }
    .next (barAdvance s2 m.dst m.n)

/-- BARRIER_RELEASE (R150). -/
def execBarrierRelease (k : Nat) (s : State) : Out :=
  match s.barMsgs[k]? with
  | none => .next s
  | some m =>
    if m.kind != .release || !barMatches s m then .next s else
    .next (barAdvance (barRelease { s with barMsgs := s.barMsgs.eraseIdx k } m.dst m.n) m.dst m.n)

/-- Bits of a barrier register that BAR.SET writes (R149). -/
def barMask : Word := 0x4000FFFF003FFFFF

/-- BAR.SET (R149). The sweep of the phase begins anew: what neighbours have sent and the core has passed on is forgotten (log 65). -/
def execBarSet (n : Fin 8) (a : Reg) (s : State) : Out :=
  let v := s.rd a
  let c := s.myCore
  let r : BitVec 22 := v.setWidth 22
  let mine := match s.cfgOf c with | some k => coreSet k | none => []
  let busy := !(s.slotsWhere c fun x => x.arrived[n].isSome).isEmpty
  if busy || (bitOf v 62 && (rectX1 r < rectX0 r || rectY1 r < rectY0 r || !(rectCores r).contains c ||
      (rectCores r).any fun i => !mine.contains i)) then trap .illegalOperand v s
  else
    done 4 (barAdvance (s.updBar c n fun b =>
      { reg := (b.reg &&& (1 <<< 63)) ||| (v &&& barMask), fromEast := false, fromBelow := false, sent := false }) c n)

/-- BAR.GET (R149). The phase of a barrier of one core with no slots inverts all the time (R150), so a read finds either. -/
def execBarGet (d : Reg) (n : Fin 8) (s : State) : Out :=
  let b := s.bar s.myCore n
  if b.v && bits b.reg 47 32 = 0 && rectX0 b.rect = rectX1 b.rect && rectY0 b.rect = rectY1 b.rect then
    let (f, s1) := s.freeBool
    result 4 d (if f then b.reg ^^^ (1 <<< 63) else b.reg) s1
  else result 4 d b.reg s

/-- The check of BAR.ARRIVE, BAR.WAIT and BAR.SYNC (R151). -/
def barCheck (n : Fin 8) (s : State) (k : Barrier → Out) : Out :=
  let b := s.bar s.myCore n
  if !b.v || !(bitOf b.reg (32 + slotOf s.cur)) then trap .illegalOperand (BitVec.ofNat 64 n) s else k b

/-- Set the arrived state of the current slot (R151). -/
def State.setArrived (s : State) (n : Fin 8) (o : Option Bool) : State :=
  s.updMe fun x => { x with arrived := x.arrived.set n o }

/-- The current slot arrives: a release at the barrier's scope, then the sweep (R150, R151). -/
def arrive (n : Fin 8) (b : Barrier) (s : State) (k : State → Out) : Out :=
  (releaseFirst s s.cur (rectScope b.rect)).finish fun _ s =>
    k (barAdvance (s.setArrived n (some b.ph)) s.myCore n)

/-- BAR.ARRIVE (R151). -/
def execBarArrive (n : Fin 8) (s : State) : Out :=
  barCheck n s fun b =>
    if s.me.arrived[n] == some b.ph then wait (.barrier n b.ph) s
    else arrive n b s (done 4)

/-- A slot that waits for the phase in which it arrived to end (R151). -/
def barAwait (n : Fin 8) (p : Bool) (s : State) : Out :=
  if (s.bar s.myCore n).ph = p then wait (.barrier n p) s else done 4 (s.setArrived n none)

/-- BAR.WAIT (R151). -/
def execBarWait (n : Fin 8) (s : State) : Out :=
  barCheck n s fun _ =>
    match s.me.arrived[n] with
    | none => done 4 s
    | some p => barAwait n p s

/-- BAR.SYNC (R151). -/
def execBarSync (n : Fin 8) (s : State) : Out :=
  barCheck n s fun b =>
    match s.me.arrived[n] with
    | none => arrive n b s (barAwait n b.ph)
    | some p => barAwait n p s

/-! ## Mailbox waits (R152) -/

/-- The mailbox an operand names, when the core's partition owns it (R152). -/
def ownMailbox (s : State) (a : Word) : Option Nat :=
  if a.toNat < 256 then
    match (s.mailbox a.toNat).assign, s.partOf s.myCore with
    | some x, some p => if x.owner.val = p then some a.toNat else none
    | _, _ => none
  else none

/-- MBX.WAIT (R152): a non-zero value goes to the slot that began to wait first. -/
def execMbxWait (d a : Reg) (s : State) : Out :=
  match ownMailbox s (s.rd a) with
  | none => trap .illegalOperand (s.rd a) s
  | some m =>
    let x := s.mailbox m
    if x.notify != 0 && (x.waiters.head?.getD s.cur) = s.cur then
      result 4 d x.notify (s.updMailbox m fun x => { x with notify := 0, due := false, waiters := x.waiters.erase s.cur })
    else wait (.mailbox m d) (s.updMailbox m fun x =>
      { x with waiters := if x.waiters.contains s.cur then x.waiters else x.waiters ++ [s.cur] })

/-- MBX.POLL (R152). -/
def execMbxPoll (d a : Reg) (s : State) : Out :=
  match ownMailbox s (s.rd a) with
  | none => trap .illegalOperand (s.rd a) s
  | some m => result 4 d (s.mailbox m).notify (s.updMailbox m fun x => { x with notify := 0 })

/-! ## Self identification (R153) -/

/-- SELF.ID (R153). -/
def execSelfId (d : Reg) (s : State) : Out := result 4 d (thId s s.cur) s
/-- SELF.XY (R153). -/
def execSelfXy (d : Reg) (s : State) : Out := result 4 d (BitVec.ofNat 64 (meshY s.myCore * 256 + meshX s.myCore)) s
/-- SELF.DOM (R153). A slot that holds no record, as one that took its interrupt while idle (R313), reads 0: the rule gives the running
record's bits and no value there (log 83). -/
def execSelfDom (d : Reg) (s : State) : Out :=
  let v := match s.me.record with
    | some r => r.domain + bit r.urgent * 4 + bit r.range.isSome * 8 + bit s.me.stolen * 16
    | none => 0
  result 4 d (BitVec.ofNat 64 v) s
/-- SELF.IDLE (R153). -/
def execSelfIdle (d a : Reg) (s : State) : Out :=
  if 4 ≤ (s.rd a).toNat then trap .illegalOperand (s.rd a) s
  else result 4 d (BitVec.ofNat 64 (idleCount s s.myCore (s.rd a).toNat)) s

end Sys2Proof.Machine
end

