-- ==== Sys2Proof/Machine/Engine.lean ====
section
/-! DEFINITION. What the engines of a core share (spec/08 R202, R203; spec/15 R347, R348): accesses made for the core, and the
interrupt an engine raises in a slot. -/

namespace Sys2Proof.Machine

/-- Raise an interrupt in a slot (R22, R332); a slot that waits for one goes on past its IWAIT (R99). -/
def raise (s : State) (t : Nat) (i : Intr) : State :=
  s.updSlot t fun x =>
    let x1 := { x with pend := x.pend ++ [i] }
    if x.run == .waiting .irq then { x1.past 4 with run := .active, due := x.trStatus.getLsbD 2 } else x1

/-- The pieces of n bytes from an address, one for each 64-byte block, ascending. -/
def pieces (va : Word) (n : Nat) : List (Word × Nat) :=
  let o := va.toNat % 64
  (List.range ((o + n + 63) / 64)).map fun i =>
    let lo := i * 64 - o
    (va + BitVec.ofNat 64 lo, Nat.min n ((i + 1) * 64 - o) - lo)

/-- An engine's access for a slot of the core: relaxed, at .PKG (R203, R308). -/
def engBy (t : Nat) (m : Mode) (ev : Fin 8) : By := ⟨t, m = .u, ⟨.rlx, .pkg, ev⟩, true⟩

/-- A line a grant lets this thread read once is gone when an engine has read it (R253). -/
def dropSingle (s : State) (t : Nat) : State :=
  let mine (l : Nat × Line) : Bool := l.2.single.map (·.1) == some t
  if (s.core (agentOf t)).lines.any mine then s.updCore (agentOf t) fun q => { q with lines := q.lines.filter fun l => !mine l }
  else s

/-- Bytes an engine reads for a slot. -/
def engLoad (s : State) (t : Nat) (m : Mode) (ev : Fin 8) (va : Word) (n : Nat) : Res (List Byte) :=
  (loadBytes s (engBy t m ev) va n 1).andThen fun r s => .ok r.1 (dropSingle s t)

/-- Bytes an engine writes for a slot. -/
def engStore (s : State) (t : Nat) (m : Mode) (va : Word) (l : List Byte) : Res Unit :=
  (storeBytes s (engBy t m 4) va l 1).andThen fun _ s => .ok () s

/-- Whether an engine whose access waits may try it again. -/
def waitOver (s : State) (c : Nat) (w : Option Wait) : Bool :=
  match w with
  | some (.line blk _) => tagOf s c blk != .busy
  | some (.home blk) => !biasAway s (blk * 64)
  | some .lsBusy => !lsBusy s c
  | some .release => released s c
  | some .order => ordered s c
  | _ => true

/-- How a run of an engine's accesses ends: all of it done, an access that waits, or one that faults; with how many pieces were
done. -/
inductive EngEnd (α : Type)
  | all (a : α) (s : State)
  | waits (a : α) (k : Nat) (w : Wait) (s : State)
  | faults (a : α) (k : Nat) (cause : Cause) (va : Word) (s : State)

/-- Read pieces in order into an image keyed by address. -/
def engReads (s : State) (t : Nat) (m : Mode) (ev : Fin 8) (img : Memory) (k : Nat) : List (Word × Nat) → EngEnd Memory
  | [] => .all img s
  | (va, n) :: l =>
    match engLoad s t m ev va n with
    | .ok b s => engReads s t m ev (img.wrBytes va.toNat b) (k + 1) l
    | .wait w s => .waits img k w s
    | .trap c v s => .faults img k c v s

/-- Write pieces in order. -/
def engWrites (s : State) (t : Nat) (m : Mode) (k : Nat) : List (Word × List Byte) → EngEnd Unit
  | [] => .all () s
  | (va, b) :: l =>
    match engStore s t m va b with
    | .ok _ s => engWrites s t m (k + 1) l
    | .wait w s => .waits () k w s
    | .trap c v s => .faults () k c v s

/-- Word 0 of an engine-fault descriptor (R348). -/
def efWord (write : Bool) (cause : Cause) (unit kind : Nat) : Word :=
  BitVec.ofNat 64 (2 ^ 63 + bit write * 2 ^ 16 + cause.toNat * 2 ^ 8 + unit * 2 ^ 4 + kind)

end Sys2Proof.Machine
end

