-- ==== Sys2Proof/Machine/Tensor.lean ====
section
/-! DEFINITION. The arithmetic of the tensor engine (spec/12; spec/03 R50 to R63): descriptors, operand formats, tiles and their
images, matrix products, counting and compression, as functions of bytes. -/

namespace Sys2Proof.Machine

/-! ## Descriptors (R271, R272) -/

/-- Word i of a descriptor (R279). -/
def tdWord (x : Block) (i : Nat) : Word := x.extractLsb' (64 * i) 64
/-- A descriptor with word i replaced. -/
def tdSet (x : Block) (i : Nat) (w : Word) : Block := blkPut x (8 * i) (leBytes 8 w.toNat)
/-- td.base -/
def tdBase (x : Block) : Word := tdWord x 0
/-- td.sbase -/
def tdSbase (x : Block) : Word := tdWord x 1
/-- td.e0 to td.e3 -/
def tdE (x : Block) (i : Nat) : Nat := fld x.toNat (128 + 32 * i) 32
/-- td.st0 to td.st2 -/
def tdSt (x : Block) (i : Nat) : Nat := (tdWord x (4 + i)).toNat
/-- td.fmt -/
def tdFmt (x : Block) : Nat := fld x.toNat 448 8
/-- td.scale -/
def tdScale (x : Block) : Int := toSigned 8 (fld x.toNat 456 8)
/-- td.wb -/
def tdWb (x : Block) : Bool := fld x.toNat 464 1 = 1
/-- Whether a reserved bit is set (code 1 of R276). -/
def tdReserved (x : Block) : Bool := fld x.toNat 465 47 != 0
/-- Whether a format byte names no format (R271). -/
def fmtBad (b : Nat) : Bool := (0x0D ≤ b && b ≤ 0x0F) || 0x1F ≤ b

/-- An operand format (R50): element width, the floating-point format or none for integers, block scaling, compression. -/
structure TF where
  w : Nat
  fmt : Option Fmt
  signed : Bool := true
  scaled : Bool := false
  comp : Bool := false
deriving DecidableEq, Repr

/-- The format of a code (R50). -/
def tfOf (code : Nat) : Option TF :=
  match code with
  | 0x00 => some { w := 32, fmt := some .f32 }
  | 0x01 => some { w := 16, fmt := some .f16 }
  | 0x02 => some { w := 16, fmt := some .bf16 }
  | 0x03 => some { w := 8, fmt := some .e4 }
  | 0x04 => some { w := 8, fmt := some .e5 }
  | 0x05 => some { w := 8, fmt := some .t8 }
  | 0x06 => some { w := 6, fmt := some .f6a }
  | 0x07 => some { w := 6, fmt := some .f6b }
  | 0x08 => some { w := 4, fmt := some .f4 }
  | 0x09 => some { w := 8, fmt := none }
  | 0x0A => some { w := 8, fmt := none, signed := false }
  | 0x0B => some { w := 4, fmt := none }
  | 0x0C => some { w := 16, fmt := none }
  | 0x10 => some { w := 8, fmt := some .e4, scaled := true }
  | 0x11 => some { w := 8, fmt := some .e5, scaled := true }
  | 0x12 => some { w := 8, fmt := some .t8, scaled := true }
  | 0x13 => some { w := 6, fmt := some .f6a, scaled := true }
  | 0x14 => some { w := 6, fmt := some .f6b, scaled := true }
  | 0x15 => some { w := 4, fmt := some .f4, scaled := true }
  | 0x16 => some { w := 8, fmt := none, scaled := true }
  | 0x17 => some { w := 4, fmt := none, scaled := true }
  | 0x18 => some { w := 8, fmt := some .e4, comp := true }
  | 0x19 => some { w := 8, fmt := some .t8, comp := true }
  | 0x1A => some { w := 8, fmt := none, comp := true }
  | 0x1B => some { w := 4, fmt := some .f4, comp := true }
  | 0x1C => some { w := 4, fmt := some .f4, scaled := true, comp := true }
  | 0x1D => some { w := 4, fmt := none, comp := true }
  | 0x1E => some { w := 4, fmt := none, scaled := true, comp := true }
  | _ => none

/-- The format of a descriptor; one that holds no format's code never stands in the table (R271). -/
def tdTf (x : Block) : TF := (tfOf (tdFmt x)).getD { w := 32, fmt := some .f32 }

/-- Bytes of a row (R272). -/
def rowBytes (f : TF) (e0 : Nat) : Nat :=
  if f.comp then e0 / 64 * (if f.w = 4 then 24 else 40)
  else if f.w = 6 then 3 * ((e0 + 3) / 4)
  else (e0 * f.w + 7) / 8

/-- The first byte of a row (R272). -/
def rowStart (x : Block) (i1 i2 i3 : Nat) : Word :=
  tdBase x + BitVec.ofNat 64 (i1 * tdSt x 0 + i2 * tdSt x 1 + i3 * tdSt x 2)

/-- The first n rows of index i1. -/
def rowsTo (x : Block) (n : Nat) : List Word := (List.range n).map fun i => rowStart x i 0 0

/-- All rows, i1 innermost. -/
def rowsAll (x : Block) : List Word :=
  (List.range (tdE x 3)).flatMap fun i3 => (List.range (tdE x 2)).flatMap fun i2 => (List.range (tdE x 1)).map fun i1 =>
    rowStart x i1 i2 i3

/-- Blocks of a row (R60). -/
def blocksPerRow (e0 : Nat) : Nat := (e0 + 127) / 128

/-- Bytes of the scale plane of a number of rows (R60, R295); none for an unscaled format. -/
def planeBytes (x : Block) (rows : Nat) : Nat := if (tdTf x).scaled then (blocksPerRow (tdE x 0) * rows + 1) / 2 else 0

/-- Where bytes of an operand are: a function from addresses. -/
abbrev Bytes := Word → Byte

/-- Bytes that an engine has read, by address. -/
def imgBytes (img : Memory) : Bytes := fun a => img.rd a.toNat

/-- Bytes of the weight buffer, by offset (R295). -/
def wbBytes (wb : Memory) : Bytes := fun a => if a.toNat < 65536 then wb.rd a.toNat else 0

/-- n bytes from an address. -/
def Bytes.list (g : Bytes) (a : Word) (n : Nat) : List Byte := (List.range n).map fun i => g (a + BitVec.ofNat 64 i)

/-- A little-endian value of n bytes. -/
def Bytes.le (g : Bytes) (a : Word) (n : Nat) : Nat := leNat (g.list a n)

/-- Nibble i from an address (R59). -/
def Bytes.nib (g : Bytes) (a : Word) (i : Nat) : Nat := fld (g (a + BitVec.ofNat 64 (i / 2))).toNat (4 * (i % 2)) 4

/-- Element i of an uncompressed row (R59, R272). -/
def Bytes.elem (g : Bytes) (w : Nat) (r : Word) (i : Nat) : Nat :=
  if w = 4 then g.nib r i
  else if w = 6 then fld (g.le (r + BitVec.ofNat 64 (3 * (i / 4))) 3) (6 * (i % 4)) 6
  else g.le (r + BitVec.ofNat 64 (i * w / 8)) (w / 8)

/-- The chunk of a compressed row that holds a logical element, and its group in the chunk (R62). -/
def chunkOf (w : Nat) (r : Word) (i : Nat) : Word × Nat :=
  (r + BitVec.ofNat 64 (i / 64 * (if w = 4 then 24 else 40)), i % 64 / 4)

/-- The metadata nibble of a group (R62). -/
def Bytes.meta (g : Bytes) (w : Nat) (c : Word × Nat) : Nat := g.nib (c.1 + BitVec.ofNat 64 (if w = 4 then 16 else 32)) c.2

/-- Element i of a compressed row: its code, or none where the group does not keep it or is malformed (R63). -/
def Bytes.kept (g : Bytes) (w : Nat) (r : Word) (i : Nat) : Option Nat :=
  let c := chunkOf w r i
  let x := g.meta w c
  let lo := x % 4
  let hi := x / 4
  if hi ≤ lo then none
  else if i % 4 = lo then some (g.elem w c.1 (2 * c.2))
  else if i % 4 = hi then some (g.elem w c.1 (2 * c.2 + 1))
  else none

/-- Element i of a row in its format (R62, R63, R272). -/
def Bytes.code (g : Bytes) (f : TF) (r : Word) (i : Nat) : Option Nat := if f.comp then g.kept f.w r i else some (g.elem f.w r i)

/-- The block offset of a row and an element, rows counted from 0; 0 for an unscaled format (R60). -/
def Bytes.offset (g : Bytes) (x : Block) (row i : Nat) : Nat :=
  if (tdTf x).scaled then g.nib (tdSbase x) (row * blocksPerRow (tdE x 0) + i / 128) else 0

/-- The value of an element before block scale (R58, R63). -/
def TF.value (f : TF) (c : Option Nat) : FVal :=
  match c, f.fmt with
  | none, _ => .fin false 0 0
  | some c, some k => unpack k c
  | some c, none => intVal (if f.signed then toSigned f.w c else (c % 2 ^ f.w : Nat))

/-! ## Tiles (R273, R274) -/

/-- An entry of a tile. -/
def Tile.at (t : Tile) (i : Nat) : Word := (look i t.cells).getD 0

/-- A tile with its 1,024 entries given. -/
def Tile.fill (t : Tile) (l : List Word) : Tile :=
  { t with cells := ((List.range 1024).zip l).filter fun (x : Nat × Word) => x.2 != 0 }

/-- The family term f of the exponent (R273), by bank family: 1 FP4, 2 INT4. -/
def familyF (n : Nat) : Int := if n = 1 then -2 else 0

/-- The bytes of a tile image (R274). -/
def Tile.image (t : Tile) : List Byte :=
  leBytes 2 0xAC17 ++ leBytes 2 (bit t.exact) ++ leBytes 2 (if t.exact then (t.e % 65536).toNat else 0) ++ leBytes 58 0 ++
    (List.range 1024).flatMap fun i => leBytes 8 (t.at i).toNat

/-- The tile of an image, when it is valid (R274). -/
def tileOf (l : List Byte) : Option Tile :=
  let exact := leNat ((l.drop 2).take 2) = 1
  let es := (List.range 1024).map fun i => BitVec.ofNat 64 (leNat ((l.drop (64 + 8 * i)).take 8))
  if leNat (l.take 2) = 0xAC17 && leNat ((l.drop 2).take 2) ≤ 1 && (l.drop 6).take 58 == leBytes 58 0 &&
      (exact || (leNat ((l.drop 4).take 2) = 0 && es.all fun x => x.toNat < 2 ^ 32)) then
    some ({ exact := exact, e := if exact then toSigned 16 (leNat ((l.drop 4).take 2)) else 0 : Tile }.fill es)
  else none

/-- A sum held between the bounds of an exact entry, and whether it was clamped (R282, R285). -/
def clamp64 (x : Int) : Int × Bool :=
  if x < -(2 ^ 63) then (-(2 ^ 63), true) else if 2 ^ 63 ≤ x then (2 ^ 63 - 1, true) else (x, false)

/-- Add to entries of an exact tile; the Bool says whether an entry was clamped. -/
def Tile.addAll (t : Tile) (f : Nat → Int) : Tile × Bool :=
  let l := (List.range 1024).map fun i => clamp64 ((t.at i).toInt + f i)
  (t.fill (l.map fun x => BitVec.ofInt 64 x.1), l.any (·.2))

/-! ## Matrix products (R280 to R282) -/

/-- Group size of a pair of formats that MM accepts (R280), and whether the class is an integer class. -/
def mmClass (a b : Nat) : Option (Nat × Bool) :=
  let f8 := [3, 4, 5, 6, 7, 0x10, 0x11, 0x12, 0x13, 0x14]
  if a = 0 && b = 0 then some (1, false)
  else if (a = 1 || a = 2) && (b = 1 || b = 2) then some (4, false)
  else if a = 0xC && b = 0xC then some (4, true)
  else if f8.contains a && (f8 ++ [0x18, 0x19]).contains b then some (8, false)
  else if [9, 0xA, 0x16].contains a && [9, 0xA, 0x16, 0x1A].contains b then some (8, true)
  else none

/-- The scale exponent a floating-point product takes from an operand: its base and its block's offset (R61). -/
def scaleOf (g : Bytes) (x : Block) (row i : Nat) : Int := if (tdTf x).scaled then tdScale x + (g.offset x row i : Int) else 0

/-- One product: NaN and signalling operands, invalid products; an integer product has no negative zero (R281). -/
def product (int : Bool) (a b : FVal) : FVal × FFlags :=
  if a.isNan || b.isNan then (.nan false, if a.isSnan || b.isSnan then Fl.nv else 0)
  else match prod a b with
    | none => (.nan false, Fl.nv)
    | some (.fin n m e) => (if int && m = 0 then .fin false 0 0 else .fin n m e, 0)
    | some v => (v, 0)

/-- Round to the internal format: 40 bits of significand, exponents from -510 to 511, gradual underflow, nearest even (R281). An exact
zero has the sign that R64 gives it. -/
def roundInternal (negZero : Bool) (x : Dy) : FVal × FFlags :=
  if x.m = 0 then (.fin negZero 0 0, 0) else
  let ex : Ex := ⟨x.m < 0, x.m.natAbs, x.e, false⟩
  let q0 : Int := x.e + (bitLen ex.m : Int) - 40
  let q : Int := if q0 < -549 then -549 else q0
  let (n, inexact) := quantise 0 ex q
  if cmpMag ⟨false, n, q, false⟩ 1 512 != .lt then (.inf ex.neg, Fl.of ||| Fl.nx)
  else (.fin ex.neg n q, if inexact then Fl.nx else 0)

/-- acc + s * 2^scale for one group of products (R281). The internal rounding is to nearest even whatever fp.mode.rm says; an exact zero
sum follows R64, whose modes are those of fp.mode.rm: it is -0 when every term is a negative zero and in mode down, else +0. That the
sum takes R64's mode from fp.mode.rm and not from its internal rounding is a reading (log 17). -/
def groupAdd (rm : Rm) (acc : FVal) (scale : Int) (l : List FVal) : FVal × FFlags :=
  let l1 := l.map fun x => match x with | .fin n m e => .fin n m (e + scale) | v => v
  let all := acc :: l1
  let pos := all.any fun x => x = .inf false
  let neg := all.any fun x => x = .inf true
  if all.any FVal.isNan then (.nan false, 0)
  else if pos && neg then (.nan false, Fl.nv)
  else if pos then (.inf false, 0)
  else if neg then (.inf true, 0)
  else roundInternal (zeroSign rm (all.all FVal.isNegZero)) (all.foldl (fun s x => match x with | .fin n m e => s.add (dyOf n m e) | _ => s) ⟨0, 0⟩)

/-- The operands of a product: descriptors and where their bytes are. -/
structure Operands where
  da : Block
  db : Block
  ga : Bytes
  gb : Bytes

/-- The values of row m of A and row n of B at k. -/
def Operands.pair (o : Operands) (m n k : Nat) : FVal × FVal :=
  ((tdTf o.da).value (o.ga.code (tdTf o.da) (rowStart o.da m 0 0) k), (tdTf o.db).value (o.gb.code (tdTf o.db) (rowStart o.db n 0 0) k))

/-- The product at index j of a cell. A position of B that is not kept contributes +0 to a finite sum (R281). -/
def Operands.term (o : Operands) (int : Bool) (m n j : Nat) : FVal × FFlags :=
  let (a, b) := o.pair m n j
  match o.gb.code (tdTf o.db) (rowStart o.db n 0 0) j, product int a b with
  | none, (.fin _ 0 _, f) => (.fin false 0 0, f)
  | _, p => p

/-- The indices of group i (R281). -/
def groupOf (g k i : Nat) : List Nat := (List.range (Nat.min k (i * g + g) - i * g)).map (· + i * g)

/-- One entry of an FP-mode tile after groups g0 to g1 (R281): its bits and the flags. `rm` rounds it into the tile, and `rz` is the mode that
an exact zero sum takes its sign of. -/
def Operands.mmEntry (o : Operands) (int : Bool) (g g0 g1 : Nat) (rm rz : Rm) (m n : Nat) (old : Word) : Word × FFlags :=
  if g1 ≤ g0 then (old, 0) else
  let k := tdE o.da 0
  let start := unpack .f32 (old.toNat % 2 ^ 32)
  let (acc, fl) := (List.range (g1 - g0)).foldl (fun (x : FVal × FFlags) i =>
    let i := i + g0
    let ps := (groupOf g k i).map (o.term int m n)
    let sc := scaleOf o.ga o.da m (i * g) + scaleOf o.gb o.db n (i * g)
    let (v, f) := groupAdd rz x.1 sc (ps.map (·.1))
    (v, x.2 ||| f ||| ps.foldl (fun f p => f ||| p.2) 0)) (start, if start.isSnan then Fl.nv else 0)
  let r := convert .f32 rm none (if acc.isNan then .nan false else acc)
  (BitVec.ofNat 64 r.code, fl ||| r.flags)

/-- MM on an FP-mode tile (R281). -/
def Operands.mmFp (o : Operands) (int : Bool) (g g0 g1 : Nat) (rm rz : Rm) (t : Tile) : Tile × FFlags :=
  let l := (List.range 1024).map fun i => o.mmEntry int g g0 g1 rm rz (i / 32) (i % 32) (t.at i)
  (t.fill (l.map (·.1)), l.foldl (fun f x => f ||| x.2) 0)

/-- The integer of a value. -/
def FVal.int : FVal → Int
  | .fin n m e => let x : Int := m * 2 ^ e.toNat; if n then -x else x
  | _ => 0

/-- MM of an integer class on an exact tile, group by group (R282). -/
def Operands.mmExact (o : Operands) (g g0 g1 : Nat) (t : Tile) : Tile × Bool :=
  (List.range (g1 - g0)).foldl (fun (x : Tile × Bool) i =>
    let i := i + g0
    let (t1, c) := x.1.addAll fun j =>
      let s := (groupOf g (tdE o.da 0) i).foldl (fun (s : Int) k => let (a, b) := o.pair (j / 32) (j % 32) k; s + a.int * b.int) 0
      s * 2 ^ (o.ga.offset o.da (j / 32) (i * g) + o.gb.offset o.db (j % 32) (i * g))
    (t1, x.2 || c)) (t, false)

/-! ## The counting array (R284 to R289) -/

/-- The family of a pair of formats that MC accepts (R284): 1 FP4, 2 INT4. -/
def mcFamily (a b : Nat) : Option Nat :=
  if [8, 0x15].contains a && [8, 0x15, 0x1B, 0x1C].contains b then some 1
  else if [0xB, 0x17].contains a && [0xB, 0x17, 0x1D, 0x1E].contains b then some 2
  else none

/-- The family of a pair of formats that MC.ND accepts (R288). -/
def ndFamily (a b : Nat) : Option Nat :=
  if a = 8 && (b = 8 || b = 0x1B) then some 1 else if a = 0xB && (b = 0xB || b = 0x1D) then some 2 else none

/-- The magnitudes of the counters of a family (R284). -/
def magnitudes (family : Nat) : List Nat :=
  if family = 1 then [1, 2, 3, 4, 6, 8, 9, 12, 16, 18, 24, 32, 36, 48, 64, 72, 96, 144]
  else [1, 2, 3, 4, 5, 6, 7, 8, 9, 10, 12, 14, 15, 16, 18, 20, 21, 24, 25, 28, 30, 32, 35, 36, 40, 42, 48, 49, 56, 64]

/-- A 4-bit element in units of its family: halves for FP4, ones for INT4. -/
def unitsOf (family : Nat) (c : Option Nat) : Int :=
  match c with
  | none => 0
  | some c =>
    if family = 1 then
      let m : Int := ([0, 1, 2, 3, 4, 6, 8, 12] : List Nat).getD (c % 8) 0
      if 8 ≤ c % 16 then -m else m
    else toSigned 4 c

/-- Presented pairs per cell (R284). -/
def Operands.presented (o : Operands) : Nat := if (tdTf o.db).comp then tdE o.da 0 / 2 else tdE o.da 0

/-- The logical index of a presented pair of a column, and the code B presents there; none in a malformed group (R63, R284). -/
def Operands.present (o : Operands) (n p : Nat) : Nat × Option Nat :=
  let f := tdTf o.db
  let r := rowStart o.db n 0 0
  if f.comp then
    let c := chunkOf f.w r (p / 2 * 4)
    let x := o.gb.meta f.w c
    if x / 4 ≤ x % 4 then (p / 2 * 4, none)
    else (p / 2 * 4 + (if p % 2 = 0 then x % 4 else x / 4), some (o.gb.elem f.w c.1 (2 * c.2 + p % 2)))
  else (p, some (o.gb.elem f.w r p))

/-- A presented product of a cell in units of the family (R284). -/
def Operands.unit (o : Operands) (family m n p : Nat) : Int :=
  let (k, b) := o.present n p
  unitsOf family (o.ga.code (tdTf o.da) (rowStart o.da m 0 0) k) * unitsOf family b

/-- The drain points of MC after pair p0 up to p1: the ends of the stretches that are counted together (R287). -/
def Operands.stretches (o : Operands) (p0 p1 : Nat) : List (Nat × Nat) :=
  let scaled := (tdTf o.da).scaled || (tdTf o.db).scaled
  let len := if (tdTf o.db).comp then 64 else 128
  if p1 ≤ p0 then []
  else if scaled then
    (List.range (p1 / len + 1)).filterMap fun b =>
      let lo := Nat.max p0 (b * len)
      let hi := Nat.min p1 (b * len + len)
      if lo < hi then some (lo, hi) else none
  else
    (List.range ((p1 - p0 + 2045) / 2046)).map fun b => (p0 + b * 2046, Nat.min p1 (p0 + b * 2046 + 2046))

/-- Count and drain a stretch of presented pairs into a tile (R285, R287). -/
def Operands.countInto (o : Operands) (family : Nat) (t : Tile) (x : Nat × Nat) : Tile × Bool :=
  let len := if (tdTf o.db).comp then 64 else 128
  t.addAll fun j =>
    let s := (List.range (x.2 - x.1)).foldl (fun (s : Int) p => s + o.unit family (j / 32) (j % 32) (p + x.1)) 0
    s * 2 ^ (o.ga.offset o.da (j / 32) (x.1 / len * 128) + o.gb.offset o.db (j % 32) (x.1 / len * 128))

/-- MC over presented pairs p0 to p1 (R287). -/
def Operands.mc (o : Operands) (family p0 p1 : Nat) (t : Tile) : Tile × Bool :=
  (o.stretches p0 p1).foldl (fun (x : Tile × Bool) r =>
    let (t1, c) := o.countInto family x.1 r
    (t1, x.2 || c)) (t, false)

/-- The counters of a bank after presented pairs p0 to p1 (R284, R288). -/
def Operands.count (o : Operands) (family p0 p1 : Nat) (cs : Tab Int) : Tab Int :=
  (List.range 1024).foldl (fun cs i =>
    (List.range (p1 - p0)).foldl (fun cs p =>
      let u := o.unit family (i / 32) (i % 32) (p + p0)
      match (magnitudes family).findIdx? fun m => m = u.natAbs with
      | none => cs
      | some c =>
        let k := i * 32 + c
        put k ((look k cs).getD 0 + (if u < 0 then -1 else 1)) cs) cs) cs

/-- Drain the counters of a bank into a tile (R285). -/
def Bank.drain (b : Bank) (t : Tile) : Tile × Bool :=
  t.addAll fun j =>
    ((List.range 32).zip (magnitudes b.family)).foldl (fun (s : Int) (x : Nat × Nat) => s + (look (j * 32 + x.1) b.counters).getD 0 * x.2) 0

/-- The source bank's counters added into the destination's, clamped (R289); the Bool says whether one was clamped. -/
def Bank.merge (src dst : Bank) : Bank × Bool :=
  if src.fill = 0 then (dst, false) else
  let sums := src.counters.map fun (x : Nat × Int) => (x.1, x.2 + (look x.1 dst.counters).getD 0)
  let held (x : Int) : Int := if 2047 < x then 2047 else if x < -2047 then -2047 else x
  let cs := sums.foldl (fun cs (x : Nat × Int) => put x.1 (held x.2) cs) dst.counters
  let d := if dst.fill = 0 then { dst with family := src.family, tile := src.tile, slot := src.slot } else dst
  ({ d with fill := Nat.min (src.fill + dst.fill) 2047, counters := cs }, sums.any fun x => held x.2 != x.2)

/-! ## Compression (R296) -/

/-- The compressed format of a format (R296). -/
def compressedOf (code : Nat) : Option Nat :=
  match code with
  | 3 => some 0x18 | 5 => some 0x19 | 9 => some 0x1A | 8 => some 0x1B | 0x15 => some 0x1C | 0xB => some 0x1D | 0x17 => some 0x1E
  | _ => none

/-- The key that ranks an element's code (R296): in each of these formats the magnitude codes rise with the magnitudes, and the
E4M3 NaN is the greatest. -/
def TF.key (f : TF) (c : Nat) : Nat :=
  match f.fmt with
  | some .t8 => if c = 0x80 then 0x80 else c % 0x80
  | some _ => c % 2 ^ (f.w - 1)
  | none => (toSigned f.w c).natAbs

/-- The index of the greatest key among a group's indices, the lowest on a tie. -/
def greatest (key : Nat → Nat) (l : List Nat) : Nat := l.foldl (fun b i => if key b < key i then i else b) (l.headD 0)

/-- The two kept indices of a group, the lower first (R296). -/
def keptPair (key : Nat → Nat) : Nat × Nat :=
  let a := greatest key [0, 1, 2, 3]
  let b := greatest key ([0, 1, 2, 3].filter (· != a))
  (Nat.min a b, Nat.max a b)

/-- Nibbles packed two to a byte (R59). -/
def packNibbles (l : List Nat) : List Byte :=
  (List.range ((l.length + 1) / 2)).map fun i => BitVec.ofNat 8 (l.getD (2 * i) 0 + 16 * l.getD (2 * i + 1) 0)

/-- The chunk of 64 elements of a row from element i, compressed (R62, R296). -/
def compressChunk (g : Bytes) (f : TF) (r : Word) (i : Nat) : List Byte :=
  let gs := (List.range 16).map fun k =>
    let code := fun j => g.elem f.w r (i + 4 * k + j)
    let (lo, hi) := keptPair fun j => f.key (code j)
    (code lo, code hi, hi * 4 + lo)
  let vals := gs.flatMap fun (x : Nat × Nat × Nat) => [x.1, x.2.1]
  (if f.w = 4 then packNibbles vals else vals.map (BitVec.ofNat 8)) ++ packNibbles (gs.map fun (x : Nat × Nat × Nat) => x.2.2)

/-- A row compressed. -/
def compressRow (g : Bytes) (f : TF) (r : Word) (e0 : Nat) : List Byte :=
  (List.range (e0 / 64)).flatMap fun c => compressChunk g f r (c * 64)

end Sys2Proof.Machine
end

