-- ==== Sys2Proof/Machine/Matrix.lean ====
section
/-! DEFINITION. The tensor engine (spec/12): descriptor instructions, the tensor queue with its two phases of checks, the weight
buffer, what an interrupt or a fault does to an operation, and the events that start and complete one. -/

namespace Sys2Proof.Machine

/-! ## Descriptor instructions (R271, R279) -/

/-- Relaxed accesses at .PKG with priority 4 (R279). -/
def plainQual : MemQual := ⟨.rlx, .pkg, 4⟩

/-- TD.LD (R279): a load, which an interrupt abandons as one (R186). -/
def execTdLd (a : Reg) (td : Fin 64) (s : State) : Out :=
  let x := s.rd a
  if x.toNat % 64 != 0 then trap .misalign x s else
  (loadBytes s (s.by plainQual) x 64 1).finish fun r s =>
    let f := (r.1.getD 56 0).toNat
    if fmtBad f then trap .illegalFormat (BitVec.ofNat 64 f) s
    else doneAway 12 r.2 { s.redoing none with td := some (td, (s.core s.myCore).td[td], blkOf r.1) }
      (s.updCore s.myCore fun q => { q with td := q.td.set td (blkOf r.1) })

/-- TD.ST (R279): a store, which an interrupt abandons as one (R186). -/
def execTdSt (a : Reg) (td : Fin 64) (s : State) : Out :=
  let x := s.rd a
  if x.toNat % 64 != 0 then trap .misalign x s else
  (storeBytes s (s.by plainQual) x (leBytes 64 (s.core s.myCore).td[td].toNat) 1).finish fun w s => doneAway 12 w (s.redoing none) s

/-- TD.RDW (R279). -/
def execTdRdw (d : Reg) (td : Fin 64) (w : Fin 8) (s : State) : Out := result 12 d (tdWord (s.core s.myCore).td[td] w) s

/-- TD.WRW (R279). -/
def execTdWrw (b : Reg) (td : Fin 64) (w : Fin 8) (s : State) : Out :=
  let x := s.rd b
  if w = 7 && fmtBad (x.toNat % 256) then trap .illegalFormat (BitVec.ofNat 64 (x.toNat % 256)) s
  else done 12 (s.updCore s.myCore fun q => { q with td := q.td.set td (tdSet q.td[td] w x) })

/-! ## Checks at issue (R276) -/

/-- tr.val of a failed condition (R276). -/
def failVal (code ta tb : Nat) (tile : Fin 2) : Word := BitVec.ofNat 64 (code + ta * 2 ^ 8 + tb * 2 ^ 16 + tile.val * 2 ^ 24)

/-- The first failure among conditions in code order. -/
def firstCode (l : List (Nat × Bool)) (ta tb : Nat) (tile : Fin 2) : Option Trap :=
  (l.find? (·.2)).map fun x => (.illegalOperand, failVal x.1 ta tb tile)

/-- A pointer operand under R159, steps 1 to 4. -/
def ptrFails (s : State) (k : Kind) (a : Word) (n align : Nat) : Option Trap :=
  match checkAddr s s.cur k a n align with | .error e => some e | .ok _ => none

/-- Whether bytes lie inside the executing core's scratchpad. -/
def inScratch (s : State) (c : Nat) (x : Word × Nat) : Bool :=
  spaceOf x.1 == some .spd && fld x.1.toNat 45 11 = c && offsetOf x.1 + x.2 ≤ s.spSize c

/-- Whether bytes lie inside a stash mapping (R162). -/
def inMapping (s : State) (t : Nat) (m : Stash) (x : Word × Nat) : Bool :=
  match checkAddr s t .load x.1 1 1 with
  | .ok (.glb va) => m.g ≤ va.toNat && va.toNat + x.2 ≤ m.g + m.n
  | _ => false

/-- Whether ranges lie wholly in the scratchpad or wholly in one stash mapping (code 4 of R276). -/
def placed (s : State) (t : Nat) (l : List (Word × Nat)) : Bool :=
  l.all (inScratch s (agentOf t)) || (s.core (agentOf t)).stash.any fun m => l.all (inMapping s t m)

/-- The scale plane of an operand as a range, if it has one. -/
def planeOf (x : Block) (rows : Nat) : List (Word × Nat) :=
  if (tdTf x).scaled then [(tdSbase x, planeBytes x rows)] else []

/-- Rows of an operand as ranges. -/
def rangesOf (x : Block) (rows : List Word) : List (Word × Nat) := rows.map fun r => (r, rowBytes (tdTf x) (tdE x 0))

/-- Whether an operand and its scale plane have local-store placement (code 4). -/
def local4 (s : State) (t : Nat) (x : Block) (rows : List Word) (n : Nat) : Bool :=
  !tdWb x && placed s t (rangesOf x rows) && placed s t (planeOf x n)

/-- Whether an operand of the weight buffer reaches beyond the part of it that the partition sees (code 8, R353). -/
def beyondWb (size : Nat) (x : Block) (rows : List Word) (n : Nat) : Bool :=
  (rangesOf x rows ++ planeOf x n).any fun r => size < r.1.toNat + r.2

/-- Whether the e0 of A and B differ, or that of a compressed operand is not a multiple of 64 (code 3 of R276). -/
def depthsDiffer (da db : Block) : Bool :=
  tdE da 0 != tdE db 0 || ((tdTf da).comp && tdE da 0 % 64 != 0) || ((tdTf db).comp && tdE db 0 % 64 != 0)

/-- The checks at issue of MM, MC and MC.ND, given whether the pair of formats is accepted (R276, R280, R284, R288). Codes 4 and 8 look
at the 32 rows, and their scale nibbles, that the operation uses of an operand; whether rows beyond them count, R276 does not say
(log 73). Step 1 looks at the first byte of the operand in the local store, at td.base; whether it takes in the operand's other rows and
its scale plane, R276 does not say either (log 73). -/
def productFails (s : State) (ok : Bool) (da db : Block) (ta tb : Nat) (tile : Fin 2) : Option Trap :=
  (if tdWb da then none else ptrFails s .load (tdBase da) 1 1).orElse fun _ =>
    firstCode [(1, tdReserved da || tdReserved db), (2, !ok),
      (3, tdE da 0 = 0 || tdE da 1 = 0 || tdE db 0 = 0 || tdE db 1 = 0 || tdE da 1 < 32 || tdE db 1 < 32 || depthsDiffer da db),
      (4, !tdWb db || !local4 s s.cur da (rowsTo da 32) 32),
      (8, beyondWb (s.wbSize s.myCore) db (rowsTo db 32) 32)] ta tb tile

/-! ## Issue (R275, R299) -/

/-- Bytes of a tensor instruction. -/
def TFn.bytes : TFn → Nat
  | .drain _ | .bankMerge _ => 4
  | _ => 12

/-- The operation of the current slot. -/
def State.tensorOp (s : State) (fn : TFn) (word : Nat) (ext : Nat) (da db : Block) (addr : Word) : TOp :=
  { fn := fn, slot := slotOf s.cur, pc := s.me.pc, word := BitVec.ofNat 32 word, ext := BitVec.ofNat 64 ext, da := da, db := db, addr := addr,
    wbSize := s.wbSize s.myCore }

/-- The operation enters the queue, and its slot leaves the rotation (R275). -/
def enqueue (op : TOp) (s : State) : Out := wait .tensor (s.updCore s.myCore fun q => { q with tqueue := q.tqueue ++ [op] })

/-- An operation that passes its checks at issue enters the queue; one that fails traps. -/
def issueChecked (op : TOp) (fails : Option Trap) (s : State) : Out :=
  match fails with
  | some (c, v) => trap c v s
  | none => enqueue op s

/-- Issue of an instruction of majors 0x61 to 0x63: it continues from the slot's resume record when its words equal the
record's, and otherwise the record becomes invalid and it runs afresh (R299). -/
def issueResumable (op : TOp) (fails : State → Option Trap) (s : State) : Out :=
  match (s.core s.myCore).resume with
  | some r =>
    if r.slot = slotOf s.cur then
      let s1 := s.updCore s.myCore fun q => { q with resume := none }
      if r.word = op.word && r.ext = op.ext then enqueue { op with da := r.da, db := r.db, addr := r.addr, next := r.next } s1
      else issueChecked op (fails s1) s1
    else issueChecked op (fails s) s
  | none => issueChecked op (fails s) s

/-- The base word of a tensor instruction (R277). -/
def tBase (len : Nat) (major fn a : Nat) : Nat :=
  ({ len := Fin.ofNat 4 len, major := Fin.ofNat 128 major, d := 0, a := Fin.ofNat 32 a, b := 0, fn := Fin.ofNat 256 fn, ext := 0, lit := 0 } : Raw).base
/-- The extension word of a tensor instruction (R278). -/
def tExt (ta tb : Nat) (tile : Fin 2) (aux : Nat) : Nat := ta + tb * 2 ^ 8 + tile.val * 2 ^ 16 + aux * 2 ^ 24

/-- MM, MC and MC.ND. -/
def issueProduct (fn : TFn) (major f : Nat) (ok : Nat → Nat → Bool) (ta tb : Fin 64) (tile : Fin 2) (s : State) : Out :=
  let q := s.core s.myCore
  let da := q.td[ta]
  let db := q.td[tb]
  issueResumable (s.tensorOp fn (tBase 2 major f 0) (tExt ta tb tile 0) da db 0)
    (fun s => productFails s (ok (tdFmt da) (tdFmt db)) da db ta tb tile) s

/-- MM (R280). -/
def execMm (ta tb : Fin 64) (tile : Fin 2) (s : State) : Out :=
  issueProduct .mm 0x61 0 (fun a b => (mmClass a b).isSome) ta tb tile s
/-- MC (R284, R287). -/
def execMc (ta tb : Fin 64) (tile : Fin 2) (s : State) : Out :=
  issueProduct .mc 0x62 0 (fun a b => (mcFamily a b).isSome) ta tb tile s
/-- MC.ND.A (R288). -/
def execMcNdA (ta tb : Fin 64) (tile : Fin 2) (s : State) : Out :=
  issueProduct (.mcNd false) 0x62 1 (fun a b => (ndFamily a b).isSome) ta tb tile s
/-- MC.ND.B (R288). -/
def execMcNdB (ta tb : Fin 64) (tile : Fin 2) (s : State) : Out :=
  issueProduct (.mcNd true) 0x62 2 (fun a b => (ndFamily a b).isSome) ta tb tile s
/-- DRAIN.A (R289). -/
def execDrainA (s : State) : Out := issueResumable (s.tensorOp (.drain false) (tBase 0 0x63 0 0) 0 0 0 0) (fun _ => none) s
/-- DRAIN.B (R289). -/
def execDrainB (s : State) : Out := issueResumable (s.tensorOp (.drain true) (tBase 0 0x63 1 0) 0 0 0 0) (fun _ => none) s
/-- BANK.MERGE.AB (R289). -/
def execBankMergeAb (s : State) : Out := issueResumable (s.tensorOp (.bankMerge true) (tBase 0 0x63 2 0) 0 0 0 0) (fun _ => none) s
/-- BANK.MERGE.BA (R289). -/
def execBankMergeBa (s : State) : Out := issueResumable (s.tensorOp (.bankMerge false) (tBase 0 0x63 3 0) 0 0 0 0) (fun _ => none) s

/-- Bytes of a tile image (R274). -/
def imageSize : Nat := 8256

/-- ACC.MERGE (R290). -/
def execAccMerge (a : Reg) (tile : Fin 2) (s : State) : Out :=
  issueResumable (s.tensorOp .accMerge (tBase 2 0x63 4 a) (tExt 0 0 tile 0) 0 0 (s.rd a)) (fun s => ptrFails s .load (s.rd a) imageSize 64) s

/-- ACC.CLR.F (R292). -/
def execAccClrF (tile : Fin 2) (s : State) : Out := enqueue (s.tensorOp .clrF (tBase 2 0x64 0 0) (tExt 0 0 tile 0) 0 0 0) s

/-- ACC.CLR.X (R292). -/
def execAccClrX (ta tb : Fin 64) (tile : Fin 2) (s : State) : Out :=
  let q := s.core s.myCore
  let da := q.td[ta]
  let db := q.td[tb]
  let ok := (mcFamily (tdFmt da) (tdFmt db)).isSome || (mmClass (tdFmt da) (tdFmt db)).any (·.2)
  issueChecked (s.tensorOp .clrX (tBase 2 0x64 1 0) (tExt ta tb tile 0) da db 0)
    (firstCode [(1, tdReserved da || tdReserved db), (2, !ok),
      (3, ([da, db].any fun x => (List.range 4).any fun i => tdE x i = 0) || depthsDiffer da db)] ta tb tile) s

/-- ACC.CVT (R293). -/
def execAccCvt (ta : Fin 64) (tile : Fin 2) (s : State) : Out :=
  let da := (s.core s.myCore).td[ta]
  let rb := 32 * (tdTf da).w / 8
  issueChecked (s.tensorOp .cvt (tBase 2 0x64 2 0) (tExt ta 0 tile 0) da 0 0)
    ((if tdWb da then none else ptrFails s .store (tdBase da) 1 1).orElse fun _ =>
      firstCode [(1, tdReserved da), (2, !(tdFmt da ≤ 5)), (3, tdE da 0 < 32 || tdE da 1 < 32),
        (4, tdWb da || !placed s s.cur ((rowsTo da 32).map fun r => (r, rb)))] ta 0 tile) s

/-- ACC.ST (R294). -/
def execAccSt (a : Reg) (tile : Fin 2) (s : State) : Out :=
  issueChecked (s.tensorOp .accSt (tBase 2 0x64 3 a) (tExt 0 0 tile 0) 0 0 (s.rd a)) (ptrFails s .store (s.rd a) imageSize 64) s
/-- ACC.LD (R294). -/
def execAccLd (a : Reg) (tile : Fin 2) (s : State) : Out :=
  issueChecked (s.tensorOp .accLd (tBase 2 0x64 4 a) (tExt 0 0 tile 0) 0 0 (s.rd a)) (ptrFails s .load (s.rd a) imageSize 64) s

/-- Whether the extents of two descriptors fit a copy (code 3 of R276, R295, R296). -/
def extentsFit (da db : Block) : Bool :=
  ((List.range 4).all fun i => tdE da i = tdE db i && tdE da i != 0) && (!(tdTf da).comp || tdE da 0 % 64 = 0)

/-- WB.LD (R295): it runs beside the queue, one at a time. A second one waits for the load path and is then executed again: it uses the
descriptors as they are at that time, where R275 does not say whether it copies them when it is first issued (log 87). -/
def execWbLd (ta tb : Fin 64) (s : State) : Out :=
  let q := s.core s.myCore
  let dd := q.td[ta]
  let ds := q.td[tb]
  let rows := tdE dd 1 * tdE dd 2 * tdE dd 3
  let fails := (if tdWb ds then none else ptrFails s .load (tdBase ds) 1 1).orElse fun _ =>
    firstCode [(1, tdReserved dd || tdReserved ds), (2, tdFmt dd != tdFmt ds), (3, !extentsFit dd ds),
      (4, !tdWb dd || tdWb ds), (8, beyondWb (s.wbSize s.myCore) dd (rowsAll dd) rows)] ta tb 0
  match fails with
  | some (c, v) => trap c v s
  | none =>
    if q.wbld.isSome then wait .wbLoad s
    else wait .tensor (s.updCore s.myCore fun q =>
      { q with wbld := some (s.tensorOp .wbLd (tBase 2 0x65 0 0) (tExt ta tb 0 0) dd ds 0) })

/-- A range by the address that its pointer resolves to: global, or in the scratchpad (R159). -/
def resolvedRange (s : State) (t : Nat) (x : Word × Nat) : Bool × Nat × Nat :=
  match checkAddr s t .load x.1 1 1 with
  | .ok (.glb va) => (true, va.toNat, x.2)
  | _ => (false, x.1.toNat, x.2)

/-- Whether two lists of byte ranges of a slot overlap, by the addresses that they resolve to (code 11). -/
def overlap (s : State) (t : Nat) (a b : List (Word × Nat)) : Bool :=
  let la := a.map (resolvedRange s t)
  let lb := b.map (resolvedRange s t)
  la.any fun x => lb.any fun y => x.1 == y.1 && x.2.1 < y.2.1 + y.2.2 && y.2.1 < x.2.1 + x.2.2

/-- COMPRESS (R296). -/
def execCompress (ta tb : Fin 64) (s : State) : Out :=
  let q := s.core s.myCore
  let dd := q.td[ta]
  let ds := q.td[tb]
  let rows := tdE dd 1 * tdE dd 2 * tdE dd 3
  let all (x : Block) := rangesOf x (rowsAll x) ++ planeOf x rows
  issueChecked (s.tensorOp .compress (tBase 2 0x66 0 0) (tExt ta tb 0 0) dd ds 0)
    (((if tdWb dd then none else ptrFails s .store (tdBase dd) 1 1).orElse fun _ =>
      if tdWb ds then none else ptrFails s .load (tdBase ds) 1 1).orElse fun _ =>
      firstCode [(1, tdReserved dd || tdReserved ds), (2, compressedOf (tdFmt ds) != some (tdFmt dd)), (3, !extentsFit dd ds),
        (4, !local4 s s.cur dd (rowsAll dd) rows || !local4 s s.cur ds (rowsAll ds) rows), (11, overlap s s.cur (all dd) (all ds))] ta tb 0) s

/-- The parts of a save area that a mask selects: offset and bytes (R297). -/
def saveParts (mask : Nat) : List (Nat × Nat) :=
  ([(0, 0, 256), (1, 0x100, imageSize), (2, 0x2140, imageSize), (3, 0x4180, 4096), (4, 0x5180, 65536)].filter
    fun (x : Nat × Nat × Nat) => mask.testBit x.1).map fun (x : Nat × Nat × Nat) => x.2

/-- Bytes from the area's start to the end of the last selected part, the gaps between parts among them: what step 1 checks of MSAVE and
MRESTORE, where R276 and R297 do not say whether a part that the mask leaves out counts (log 88). -/
def saveSpan (mask : Nat) : Nat := (saveParts mask).foldl (fun n x => Nat.max n (x.1 + x.2)) 0

/-- MSAVE (R297). -/
def execMsave (a : Reg) (mask : BitVec 5) (s : State) : Out :=
  issueChecked (s.tensorOp .msave (tBase 2 0x67 0 a) (tExt 0 0 0 mask.toNat) 0 0 (s.rd a))
    (ptrFails s .store (s.rd a) (saveSpan mask.toNat) 64) s
/-- MRESTORE (R297). -/
def execMrestore (a : Reg) (mask : BitVec 5) (s : State) : Out :=
  issueChecked (s.tensorOp .mrestore (tBase 2 0x67 1 a) (tExt 0 0 0 mask.toNat) 0 0 (s.rd a))
    (ptrFails s .load (s.rd a) (saveSpan mask.toNat) 64) s

/-! ## Operations -/

/-- The first descriptor number of an operation. -/
def TOp.ta (o : TOp) : Nat := bits o.ext 5 0
/-- The second descriptor number of an operation. -/
def TOp.tb (o : TOp) : Nat := bits o.ext 13 8
/-- The tile of an operation. -/
def TOp.tile (o : TOp) : Fin 2 := Fin.ofNat 2 (bits o.ext 16 16)
/-- The part mask of an operation. -/
def TOp.mask (o : TOp) : Nat := bits o.ext 28 24

/-- The byte ranges an operation reads of memory, in order. -/
def TOp.reads (o : TOp) : List (Word × Nat) :=
  match o.fn with
  | .mm | .mc | .mcNd _ => rangesOf o.da (rowsTo o.da 32) ++ planeOf o.da 32
  | .accMerge | .accLd => [(o.addr, imageSize)]
  | .mrestore => (saveParts o.mask).map fun x => (o.addr + BitVec.ofNat 64 x.1, x.2)
  | .wbLd | .compress => rangesOf o.db (rowsAll o.db) ++ planeOf o.db (tdE o.db 1 * tdE o.db 2 * tdE o.db 3)
  | .drain _ | .bankMerge _ | .clrF | .clrX | .cvt | .accSt | .msave => []

/-- The operands of a product operation. -/
def TOp.operands (o : TOp) (q : Core) : Operands := ⟨o.da, o.db, imgBytes o.img, wbBytes q.wb⟩

/-- A tile of a core. -/
def Core.tileAt (q : Core) (i : Fin 2) : Tile := q.acc[i]
/-- A bank of a core: true is B. -/
def Core.bank (q : Core) (b : Bool) : Bank := q.banks[(if b then 1 else 0 : Fin 2)]
/-- Set a tile. -/
def Core.setTile (q : Core) (i : Fin 2) (t : Tile) : Core := { q with acc := q.acc.set i t }
/-- Set a bank. -/
def Core.setBank (q : Core) (b : Bool) (x : Bank) : Core := { q with banks := q.banks.set (if b then 1 else 0 : Fin 2) x }

/-- E of the descriptors of an operation (R273). -/
def TOp.expo (o : TOp) (f : Int) : Int :=
  f + (if (tdTf o.da).scaled then tdScale o.da else 0) + (if (tdTf o.db).scaled then tdScale o.db else 0)

/-- Whether a bank may be drained into the tile it records (R289). -/
def Core.drainable (q : Core) (x : Bank) : Bool := (q.tileAt x.tile).exact && (q.tileAt x.tile).e = familyF x.family

/-- The tile of the first non-empty bank that conflicts, if any (code 9). -/
def Core.conflict (q : Core) (f : Bank → Bool) : Option (Fin 2) :=
  (([q.bank false, q.bank true].filter fun x => x.fill != 0).find? f).map (·.tile)

/-- The image of a saved bank (R298). -/
def Bank.word (b : Bank) : Word :=
  if b.fill = 0 then 0 else BitVec.ofNat 64 (b.fill + b.family * 2 ^ 11 + b.tile.val * 2 ^ 13 + b.slot * 2 ^ 14)

/-- A bank's state from its word, its counters zero (R297, R298). -/
def bankOf (w : Word) : Option Bank :=
  if bits w 63 18 != 0 || bits w 12 11 = 3 || (bits w 10 0 != 0 && bits w 12 11 = 0) then none
  else if bits w 10 0 = 0 then some {}
  else some { fill := bits w 10 0, family := bits w 12 11, tile := Fin.ofNat 2 (bits w 13 13), slot := bits w 17 14 }

/-- The status block (R298). -/
def Core.statusBlock (q : Core) : List Byte :=
  let w (x : Word) := leBytes 8 x.toNat
  w (q.bank false).word ++ w (q.bank true).word ++
    match q.resume with
    | none => leBytes 240 0
    | some r =>
      leBytes 8 (1 + r.slot * 2 + r.next * 2 ^ 32) ++ leBytes 4 r.word.toNat ++ leBytes 4 0 ++ w r.ext ++ w r.addr ++ leBytes 16 0 ++
        leBytes 64 r.da.toNat ++ leBytes 64 r.db.toNat ++ leBytes 64 0

/-- The banks and the resume record of a status block, when it is valid (R297, R298). -/
def statusOf (l : List Byte) : Option (Bank × Bank × Option Resume) :=
  let n (i k : Nat) : Nat := leNat ((l.drop i).take k)
  match bankOf (BitVec.ofNat 64 (n 0 8)), bankOf (BitVec.ofNat 64 (n 8 8)) with
  | some a, some b =>
    if n 16 4 % 2 = 0 then (if n 16 240 = 0 then some (a, b, none) else none)
    else if n 16 4 / 32 != 0 || n 28 4 != 0 || n 48 16 != 0 || n 192 64 != 0 then none
    else some (a, b, some { slot := n 16 4 / 2 % 16, next := n 20 4, word := BitVec.ofNat 32 (n 24 4), ext := BitVec.ofNat 64 (n 32 8),
                            addr := BitVec.ofNat 64 (n 40 8), da := BitVec.ofNat 512 (n 64 64), db := BitVec.ofNat 512 (n 128 64) })
  | _, _ => none

/-- The bytes of part of the memory image an operation has read. -/
def TOp.bytesAt (o : TOp) (off n : Nat) : List Byte := (imgBytes o.img).list (o.addr + BitVec.ofNat 64 off) n

/-- The core after MRESTORE, when everything it reads is valid (R297). -/
def TOp.restored (o : TOp) (q : Core) : Option Core :=
  let on (i : Nat) := o.mask.testBit i
  let q0 : Option Core := if on 0 then (statusOf (o.bytesAt 0 256)).map fun x =>
      { (q.setBank false x.1).setBank true x.2.1 with resume := x.2.2 } else some q
  q0.bind fun q => (if on 1 then (tileOf (o.bytesAt 0x100 imageSize)).map (q.setTile 0) else some q).bind fun q =>
    (if on 2 then (tileOf (o.bytesAt 0x2140 imageSize)).map (q.setTile 1) else some q).bind fun q =>
    (if on 3 then
      let l := (List.range 64).map fun i => blkOf (o.bytesAt (0x4180 + 64 * i) 64)
      if l.any fun x => fmtBad (tdFmt x) then none
      else some { q with td := Vector.ofFn fun i => l.getD i.val 0 }
     else some q).map fun q =>
      if on 4 then { q with wb := q.wb.wrBytes 0 (o.bytesAt 0x5180 o.wbSize) } else q

/-- The checks of the second phase, against the state that the operations ahead have left (R276): code and tile. -/
def TOp.fails (o : TOp) (q : Core) : Option (Nat × Fin 2) :=
  let t := q.tileAt o.tile
  let named := fun (l : List (Nat × Bool)) => (l.find? (·.2)).map fun x => (x.1, o.tile)
  let nine := fun (f : Bank → Bool) => (q.conflict f).map fun i => (9, i)
  match o.fn with
  | .mm =>
    let int := (mmClass (tdFmt o.da) (tdFmt o.db)).any (·.2)
    named [(5, !int && t.exact), (6, int && t.exact && t.e != o.expo 0)]
  | .mc =>
    let f := familyF ((mcFamily (tdFmt o.da) (tdFmt o.db)).getD 2)
    (named [(5, !t.exact), (6, t.e != o.expo f)]).orElse fun _ => nine fun x => !q.drainable x
  | .mcNd b =>
    let fam := (ndFamily (tdFmt o.da) (tdFmt o.db)).getD 2
    let x := q.bank b
    (named [(5, !t.exact), (6, t.e != o.expo (familyF fam)), (7, 2047 < x.fill + ((o.operands q).presented - o.next))]).orElse fun _ =>
      if x.fill != 0 && (x.family != fam || x.tile != o.tile) then some (9, x.tile) else none
  | .drain b => if (q.bank b).fill != 0 && !q.drainable (q.bank b) then some (9, (q.bank b).tile) else none
  | .bankMerge b =>
    let src := q.bank (!b)
    let dst := q.bank b
    if src.fill != 0 && dst.fill != 0 && (src.family != dst.family || src.tile != dst.tile) then some (9, src.tile) else none
  | .accMerge =>
    let l := o.bytesAt 0 imageSize
    let e := toSigned 16 (leNat ((l.drop 4).take 2))
    named [(5, !t.exact), (6, e != t.e), (10, match tileOf l with | some x => !x.exact | none => true)]
  | .clrF | .clrX => nine fun x => x.tile = o.tile
  | .accLd => (nine fun x => x.tile = o.tile).orElse fun _ => named [(10, (tileOf (o.bytesAt 0 imageSize)).isNone)]
  | .msave => if o.mask = 0 then none else nine fun x => !q.drainable x
  | .mrestore =>
    match o.restored q with
    | none => some (10, o.tile)
    | some q1 => if o.mask = 0 then none else (q1.conflict fun x => !q1.drainable x).map fun i => (9, i)
  | .cvt | .accSt | .wbLd | .compress => none

/-- The checks of the second phase that look at nothing in memory; they come before the operation reads its operands (R276). -/
def TOp.early (o : TOp) (q : Core) : Option (Nat × Fin 2) :=
  match o.fn with
  | .accMerge => if (q.tileAt o.tile).exact then none else some (5, o.tile)
  | .accLd => (q.conflict fun x => x.tile = o.tile).map fun i => (9, i)
  | .mrestore => none
  | _ => o.fails q

/-- A bank drained into its tile; `keep` leaves its fill, family, tile and slot (R285, R297). The list names the slots whose
cnt.ovf.f is set. -/
def Core.drained (q : Core) (b keep : Bool) : Core × List Nat :=
  let x := q.bank b
  if x.fill = 0 then (q, []) else
  let (t, o) := x.drain (q.tileAt x.tile)
  ((q.setTile x.tile t).setBank b (if keep then { x with counters := [] } else {}), if o then [x.slot] else [])

/-- What an operation that runs to an index does to the core (R281 to R294): the core, the flags of its slot, and the slots whose
cnt.ovf.f is set. For a stop at an interrupt the accumulators are rounded to nearest even, `rm`, while a zero sum keeps the sign that fp.mode.rm, `rz`, gives it (R299, log 17). -/
def TOp.run (o : TOp) (q : Core) (rm : Rm) (till : Nat) (rz : Rm := rm) : Core × FFlags × List Nat :=
  let t := q.tileAt o.tile
  let mine := fun (x : Bool) => if x then [o.slot] else []
  let p := o.operands q
  match o.fn with
  | .mm =>
    match mmClass (tdFmt o.da) (tdFmt o.db) with
    | none => (q, 0, [])
    | some (g, int) =>
      if t.exact then
        let (t1, c) := p.mmExact g (o.next / g) ((till + g - 1) / g) t
        (q.setTile o.tile t1, 0, mine c)
      else
        let (t1, f) := p.mmFp int g (o.next / g) ((till + g - 1) / g) rm rz t
        (q.setTile o.tile t1, f, [])
  | .mc =>
    let (q1, l1) := q.drained false false
    let (q2, l2) := q1.drained true false
    let (t1, c) := p.mc ((mcFamily (tdFmt o.da) (tdFmt o.db)).getD 2) o.next till (q2.tileAt o.tile)
    (q2.setTile o.tile t1, 0, l1 ++ l2 ++ mine c)
  | .mcNd b =>
    let fam := (ndFamily (tdFmt o.da) (tdFmt o.db)).getD 2
    let x := q.bank b
    (q.setBank b { x with fill := x.fill + (till - o.next), family := fam, tile := o.tile, slot := o.slot,
                          counters := p.count fam o.next till x.counters }, 0, [])
  | .drain b => let (q1, l) := q.drained b false; (q1, 0, l)
  | .bankMerge b =>
    let src := q.bank (!b)
    let (d, c) := src.merge (q.bank b)
    if src.fill = 0 then (q, 0, []) else ((q.setBank b d).setBank (!b) {}, 0, if c then [src.slot] else [])
  | .accMerge =>
    match tileOf (o.bytesAt 0 imageSize) with
    | none => (q, 0, [])
    | some x =>
      let (t1, c) := t.addAll fun i => if o.next ≤ i && i < till then (x.at i).toInt else 0
      (q.setTile o.tile t1, 0, mine c)
  | .clrF => (q.setTile o.tile {}, 0, [])
  | .clrX =>
    let f := match mcFamily (tdFmt o.da) (tdFmt o.db) with | some n => familyF n | none => 0
    (q.setTile o.tile { exact := true, e := o.expo f }, 0, [])
  | .accLd => (match tileOf (o.bytesAt 0 imageSize) with | some x => q.setTile o.tile x | none => q, 0, [])
  | .msave =>
    if o.mask = 0 then (q, 0, []) else
    let (q1, l1) := q.drained false true
    let (q2, l2) := q1.drained true true
    (q2, 0, l1 ++ l2)
  | .mrestore => ((o.restored q).getD q, 0, [])
  | .wbLd =>
    let g := imgBytes o.img
    let rows := (rowsAll o.da).zip (rowsAll o.db)
    let wb1 := rows.foldl (fun (m : Memory) (x : Word × Word) => m.wrBytes x.1.toNat (g.list x.2 (rowBytes (tdTf o.da) (tdE o.da 0)))) q.wb
    let wb2 := (planeOf o.da (tdE o.da 1 * tdE o.da 2 * tdE o.da 3)).foldl
      (fun (m : Memory) (x : Word × Nat) => m.wrBytes x.1.toNat (g.list (tdSbase o.db) x.2)) wb1
    ({ q with wb := wb2 }, 0, [])
  | .cvt | .accSt | .compress => (q, 0, [])

/-- The index at which an operation is complete. -/
def TOp.last (o : TOp) (q : Core) : Nat :=
  match o.fn with
  | .mm => tdE o.da 0
  | .mc | .mcNd _ => (o.operands q).presented
  | .accMerge => 1024
  | _ => 0

/-- ACC.CVT's codes in entry order, with the flags and sr.state after its draws (R67, R293). -/
def cvtCodes (f : Fmt) (rm : Rm) (sr : Bool) (t : Tile) (st : BitVec 32) : List Nat × FFlags × BitVec 32 :=
  (List.range 1024).foldl (fun (x : List Nat × FFlags × BitVec 32) i =>
    let v : FVal := if t.exact then
        (let e := (t.at i).toInt; .fin (e < 0) e.natAbs t.e)
      else unpack .f32 ((t.at i).toNat % 2 ^ 32)
    let draws := sr && f.stochastic
    let st1 := if draws then xorshift x.2.2 else x.2.2
    let r := convert f rm (if draws then some st1 else none) v
    (x.1 ++ [r.code], x.2.1 ||| r.flags, st1)) ([], 0, st)

/-- The codes, flags and sr.state of an ACC.CVT of a slot. -/
def TOp.cvt (o : TOp) (q : Core) (x : Slot) : List Nat × FFlags × BitVec 32 :=
  cvtCodes ((tdTf o.da).fmt.getD .f32) (x.fpMode.extractLsb' 0 3) (x.fpMode.getLsbD 3) (q.tileAt o.tile) x.srState

/-- Bytes cut into the pieces of an address. -/
def cut (a : Word) (l : List Byte) : List (Word × List Byte) :=
  (pieces a l.length).map fun p => (p.1, (l.drop (p.1 - a).toNat).take p.2)

/-- The bytes an operation writes to memory, piece by piece in order. -/
def TOp.writes (o : TOp) (q : Core) (x : Slot) : List (Word × List Byte) :=
  match o.fn with
  | .cvt =>
    let (codes, _, _) := o.cvt q x
    let k := (tdTf o.da).w / 8
    (List.range 32).flatMap fun m =>
      cut (rowStart o.da m 0 0) (((codes.drop (32 * m)).take 32).flatMap fun c => leBytes k c)
  | .accSt => cut o.addr (q.tileAt o.tile).image
  | .compress =>
    let g := imgBytes o.img
    ((rowsAll o.da).zip (rowsAll o.db)).flatMap (fun (r : Word × Word) => cut r.1 (compressRow g (tdTf o.db) r.2 (tdE o.db 0))) ++
      (planeOf o.da (tdE o.da 1 * tdE o.da 2 * tdE o.da 3)).flatMap fun (p : Word × Nat) => cut p.1 (g.list (tdSbase o.db) p.2)
  | .msave =>
    let (q1, _, _) := o.run q 0 0
    (saveParts o.mask).flatMap fun p =>
      cut (o.addr + BitVec.ofNat 64 p.1)
        (match p.1 with
         | 0 => q1.statusBlock
         | 0x100 => (q1.tileAt 0).image
         | 0x2140 => (q1.tileAt 1).image
         | 0x4180 => q1.td.toList.flatMap fun x => leBytes 64 x.toNat
         | _ => q1.wb.bytes 0 65536)
  | .mm | .mc | .mcNd _ | .drain _ | .bankMerge _ | .accMerge | .clrF | .clrX | .accLd | .wbLd | .mrestore => []

/-! ## The queue at work -/

/-- Set cnt.ovf.f of slots of a core. -/
def setOverflow (s : State) (c : Nat) (l : List Nat) : State :=
  l.foldl (fun s i => s.updSlot (threadOf c i) fun x => { x with cntOvf := true }) s

/-- What an operation has done to the core and to its slot when it has run to an index. -/
def applyOp (s : State) (c : Nat) (o : TOp) (rm : Rm) (till : Nat) (rz : Rm := rm) : State :=
  let (q, f, l) := o.run (s.core c) rm till rz
  let s1 := setOverflow (s.setCore c q) c l
  s1.updSlot (threadOf c o.slot) fun x => { x with fpFlags := x.fpFlags ||| f }

/-- An operation leaves the queue, or the weight-buffer load path; a slot that waits for that path tries again. -/
def dropOp (s : State) (c : Nat) (wb : Bool) : State :=
  if wb then (s.updCore c fun q => { q with wbld := none }).wakeWhere c (· == .wbLoad)
  else s.updCore c fun q => { q with tqueue := q.tqueue.drop 1 }

/-- The record from which an operation resumes (R298, R299). -/
def TOp.record (o : TOp) (next : Nat) : Resume :=
  { slot := o.slot, next := next, word := o.word, ext := o.ext, addr := o.addr, da := o.da, db := o.db }

/-- A record an operation took up is still to be continued when the operation is abandoned before it starts (R299). -/
def keepRecord (s : State) (c : Nat) (o : TOp) : State :=
  if o.next = 0 then s else s.updCore c fun q => { q with resume := some (o.record o.next) }

/-- An engine access of an operation faults: the operation stops, and ENGINE_FAULT is raised in its slot, which re-executes the
instruction (R300, R348). -/
def tensorFault (s : State) (c : Nat) (wb : Bool) (o : TOp) (write : Bool) (cause : Cause) (va : Word) : State :=
  let s1 := keepRecord (dropOp s c wb) c o
  raise (s1.wake (threadOf c o.slot)) (threadOf c o.slot)
    (.engine (efWord write cause 0 1) va (BitVec.ofNat 64 o.next) (BitVec.allOnes 64))

/-- Change the operation at the head of the queue, or on the load path. -/
def updOp (s : State) (c : Nat) (wb : Bool) (f : TOp → TOp) : State :=
  s.updCore c fun q =>
    if wb then { q with wbld := q.wbld.map f }
    else { q with tqueue := match q.tqueue with | o :: l => f o :: l | [] => [] }

/-- Read the first n of the 64-byte pieces an operation reads, but for those it has read; go on when they are read. -/
def readSome (s : State) (c : Nat) (wb : Bool) (o : TOp) (n : Nat) (k : TOp → State → Out) : Out :=
  let t := threadOf c o.slot
  let l := (o.reads.flatMap fun r => pieces r.1 r.2).take n
  match engReads s t (s.slot t).mode 4 o.img o.got (l.drop o.got) with
  | .all img s =>
    let o1 := { o with img := img, got := Nat.max o.got l.length, wait := none }
    k o1 (updOp s c wb fun _ => o1)
  | .waits img n w s => .next (updOp s c wb fun _ => { o with img := img, got := n, wait := some w })
  | .faults _ _ cause va s => .next (tensorFault s c wb o false cause va)

/-- Read what an operation still has to read; go on when all is read. -/
def readOp (s : State) (c : Nat) (wb : Bool) (o : TOp) (k : TOp → State → Out) : Out :=
  readSome s c wb o (o.reads.flatMap fun r => pieces r.1 r.2).length k

/-- Pieces that an operation reads before its checks: the header of ACC.MERGE's image, which decides codes 6 and 10 (R290). -/
def TOp.heads (o : TOp) : Nat := if o.fn = .accMerge then 1 else 0

/-- The ranges of the weight buffer that an operation reads, or writes whole. -/
def TOp.wbRanges (o : TOp) (writes : Bool) : List (Word × Nat) :=
  match o.fn with
  | .mm | .mc | .mcNd _ => if tdWb o.db && !writes then rangesOf o.db (rowsTo o.db 32) ++ planeOf o.db 32 else []
  | .msave => if o.mask.testBit 4 && !writes then [(0, o.wbSize)] else []
  | .mrestore => if o.mask.testBit 4 && writes then [(0, o.wbSize)] else []
  | .wbLd => if writes then rangesOf o.da (rowsAll o.da) ++ planeOf o.da (tdE o.da 1 * tdE o.da 2 * tdE o.da 3) else []
  | _ => []

/-- A poisoned byte of the weight buffer that an operation reads (R434, log 85). -/
def wbPoisoned (s : State) (c : Nat) (o : TOp) : Option Word :=
  if s.poisoned.isEmpty then none else
  (o.wbRanges false).findSome? fun r => (poisonAt s (wbBlk c) r.1.toNat r.2).map fun i => r.1 + BitVec.ofNat 64 i

/-- The blocks of the weight buffer that an operation has written whole are poisoned no more (R434). -/
def unpoisonWb (s : State) (c : Nat) (o : TOp) : State := (o.wbRanges true).foldl (fun s r => unpoisonIn s (wbBlk c) r.1.toNat r.2) s

/-- TENSOR_OP_START (R276): the queue starts its next operation and runs the checks of the second phase; a failure is precise, and a poisoned
byte of the weight buffer that it reads is an ENGINE_FAULT (R434, log 85). -/
def execTensorOpStart (c : Nat) (s : State) : Out :=
  match (s.core c).tqueue with
  | [] => .next s
  | o :: _ =>
    if o.started || !waitOver s c o.wait then .next s else
    let fail := fun (s : State) (code : Nat) (tile : Fin 2) =>
      let t := threadOf c o.slot
      takeSyncAt ((dropOp s c false).wake t) t .illegalOperand (failVal code o.ta o.tb tile) o.pc
    match o.early (s.core c) with
    | some (code, tile) => .next (fail s code tile)
    | none =>
      readSome s c false o o.heads fun o s =>
        match if o.heads = 0 then none else o.fails (s.core c) with
        | some (code, tile) => .next (fail s code tile)
        | none =>
          readOp s c false o fun o s =>
            match o.fails (s.core c) with
            | none => (match wbPoisoned s c o with
              | some a => .next (tensorFault s c false o false .loadFault a)
              | none => .next (updOp s c false fun o => { o with started := true }))
            | some (code, tile) => .next (fail s code tile)

/-- An operation has ended: its slot is re-admitted past the instruction (R275). -/
def endOp (s : State) (c : Nat) (wb : Bool) (o : TOp) : State :=
  (dropOp s c wb).updSlot (threadOf c o.slot) fun x => { x.past o.fn.bytes with run := .active }

/-- TENSOR_OP_COMPLETE (R275): the operation at the head of the queue, or the WB.LD beside it, writes what it writes and has its
effect; its slot is re-admitted. All blocks that a WB.LD loads become new here together, where R302 lets a queued operation that runs beside
it see each of them old or new (log 87). -/
def execTensorOpComplete (c : Nat) (wb : Bool) (s : State) : Out :=
  if wb then
    match (s.core c).wbld with
    | none => .next s
    | some o =>
      if !waitOver s c o.wait then .next s else
      readOp s c true o fun o s => .next (endOp (unpoisonWb (applyOp s c o 0 0) c o) c true o)
  else
    match (s.core c).tqueue with
    | [] => .next s
    | o :: _ =>
      if !o.started || !waitOver s c o.wait then .next s else
      let t := threadOf c o.slot
      let x := s.slot t
      match engWrites s t x.mode o.done ((o.writes (s.core c) x).drop o.done) with
      | .waits _ n w s => .next (updOp s c false fun o => { o with done := n, wait := some w })
      | .faults _ _ cause va s => .next (tensorFault s c false o true cause va)
      | .all _ s =>
        let s1 := applyOp s c o (x.fpMode.extractLsb' 0 3) (o.last (s.core c))
        let s2 := if o.fn = .cvt then
            (let r := o.cvt (s.core c) x
             s1.updSlot t fun x => { x with fpFlags := x.fpFlags ||| r.2.1, srState := r.2.2 })
          else s1
        .next (endOp (unpoisonWb s2 c o) c false o)

/-! ## Interrupts (R299) -/

/-- Where an interrupt stops a running operation that can be continued: a group boundary of MM, an even number of pairs, a whole
entry; any the engine has reached (R299). -/
def stopPoint (s : State) (q : Core) (o : TOp) : Nat × State :=
  let unit := match o.fn with
    | .mm => ((mmClass (tdFmt o.da) (tdFmt o.db)).getD (1, false)).1
    | .mc | .mcNd _ => 2
    | _ => 1
  let n := (o.last q - o.next + unit - 1) / unit
  let (i, s1) := s.freeBelow n
  (o.next + unit * i, s1)

/-- What an interrupt of a slot does to its operation in the tensor queue or on the load path (R299): the slot's instruction is
re-executed, but for one that completes. -/
def stopTensor (s : State) (t : Nat) : State :=
  let c := agentOf t
  let q := s.core c
  let mine := fun (o : TOp) => o.slot = slotOf t
  if q.wbld.any mine then (dropOp s c true).wake t else
  match q.tqueue.find? mine with
  | none => s
  | some o =>
    let gone := fun (s : State) => (s.updCore c fun q => { q with tqueue := q.tqueue.filter fun o => !mine o }).wake t
    if !o.started then keepRecord (gone s) c o else
    match o.fn with
    | .drain _ | .bankMerge _ => endOp (applyOp s c o 0 0) c false o
    | .mm | .mc | .mcNd _ | .accMerge =>
      let (n, s1) := stopPoint s q o
      let s2 := applyOp s1 c o 0 n ((s.slot t).fpMode.extractLsb' 0 3)
      let s3 := match o.fn with
        | .mcNd b => let (q1, l) := (s2.core c).drained b true; setOverflow (s2.setCore c q1) c l
        | _ => s2
      (gone s3).updCore c fun q => { q with resume := some (o.record n) }
    | .clrF | .clrX | .cvt | .accSt | .accLd | .wbLd | .compress | .msave | .mrestore => gone s

/-- The home's FAIL reaches the tensor operations that wait for a block (R209, R300). -/
def failTensor (s : State) (c blk : Nat) (cause : Cause) : State :=
  let waits : TOp → Bool := fun o => match o.wait with | some (.line b _) => b = blk | _ => false
  let va := fun (o : TOp) => match o.wait with | some (.line _ a) => a | _ => 0
  let s1 := match (s.core c).tqueue with
    | o :: _ => if waits o then tensorFault s c false o o.started cause (va o) else s
    | [] => s
  match (s1.core c).wbld with
  | some o => if waits o then tensorFault s1 c true o false cause (va o) else s1
  | none => s1

end Sys2Proof.Machine
end

