-- ==== Sys2Proof/Machine/Channels.lean ====
section
/-! DEFINITION. Copy channels and the distributor (spec/13 R304 to R319). -/

namespace Sys2Proof.Machine

/-! ## Channels (R304, R305) -/

/-- A channel of a core. -/
def State.chan (s : State) (c : Nat) (n : Fin 4) : Chan := (s.core c).cp[n]
/-- Change a channel. -/
def State.updChan (s : State) (c : Nat) (n : Fin 4) (f : Chan → Chan) : State :=
  s.updCore c fun q => { q with cp := q.cp.set n (f q.cp[n]) }

/-- Whether the partition of a core is halted or being halted (R354, R361, R363). -/
def halting (s : State) (c : Nat) : Bool :=
  let k := s.cluster (clusterOf c)
  k.swap != .none || (match k.part with | some p => (s.part p).inPlace || (s.part p).diverged | none => false)

/-- Whether a channel is RUNNING. -/
def Chan.running (x : Chan) : Bool := x.st == .running || x.st == .stopping

/-- cp.st (R305) -/
def ChanState.code : ChanState → Nat
  | .idle => 0 | .running | .stopping => 1 | .done => 2 | .stopped => 3 | .faulted => 4 | .refused => 5

/-- cp.aux (R305). While a reservation has been asked for and not answered, the spec gives the field no value. -/
def chanAux (x : Chan) (s : State) : Nat × State :=
  if !x.ap then ((x.len - x.wp).toNat % 2 ^ 48, s)
  else match x.rsv with
    | some r => (r.toNat % 2 ^ 48, s)
    | none => if x.st == .refused then (2 ^ 48 - 1, s) else s.freeBelow (2 ^ 48)

/-- Slots that wait on a channel go on when what they wait for holds (R310, R312). -/
def wakeChan (s : State) (c : Nat) (n : Fin 4) : State :=
  let x := s.chan c n
  s.wakeWhere c fun w => match w with
    | .channel m bound => m = n && (!x.running || bound ≤ x.wp)
    | .chanStop m => m = n && x.st != .stopping
    | _ => false

/-- CP.START (R307). -/
def execCpStart (n : Fin 4) (d a b : Reg) (s : State) : Out :=
  let c := s.myCore
  let x := s.chan c n
  let (dst, src, len) := (s.rd d, s.rd a, s.rd b)
  if x.running || x.st == .faulted then trap .illegalOperand (BitVec.ofNat 64 n) s
  else if 2 ^ 40 < len.toNat then trap .illegalOperand len s
  else match (ptrFails s .load src len.toNat 1).orElse fun _ => ptrFails s .store dst len.toNat 1 with
    | some (cause, v) => trap cause v s
    | none =>
      if spaceOf src == spaceOf dst && src.toNat < dst.toNat + len.toNat && dst.toNat < src.toNat + len.toNat then
        trap .illegalOperand dst s
      else done 4 (s.updChan c n fun _ =>
        { src := src, dst := dst, len := len, st := if len = 0 then .done else .running, slot := slotOf s.cur, mode := s.me.mode })

/-- CP.WAITGE (R310). -/
def execCpWaitge (n : Fin 4) (d a : Reg) (s : State) : Out :=
  let x := s.chan s.myCore n
  if x.running && x.wp < s.rd a then wait (.channel n (s.rd a)) s else result 4 d x.wp s

/-- CP.WP (R306). -/
def execCpWp (n : Fin 4) (d : Reg) (s : State) : Out := result 4 d (s.chan s.myCore n).wp s

/-- CP.STAT (R305). -/
def execCpStat (n : Fin 4) (d : Reg) (s : State) : Out :=
  let x := s.chan s.myCore n
  let (aux, s1) := chanAux x s
  result 4 d (BitVec.ofNat 64 (x.st.code * 2 ^ 61 + bit x.ap * 2 ^ 60 + x.slot * 2 ^ 56 + x.cause.toNat * 2 ^ 48 + aux)) s1

/-- Whether a message is the request of a channel. -/
def Msg.ofChan (m : Msg) (c : Nat) (n : Fin 4) (type : Nat) : Bool := m.src = c && m.tag = 144 + n.val && m.type = type

/-- A channel that stops gives up its request: a fill that has not reached the home is not performed, and an answer that still comes
says nothing to it (R312, log 69). -/
def dropChanReq (s : State) (c : Nat) (n : Fin 4) : State :=
  let s1 := s.updCore c fun q => { q with reqs := match look (144 + n.val) q.reqs with
    | some r => put (144 + n.val) { r with dead := true } q.reqs
    | none => q.reqs }
  if s1.net.any fun m => Msg.ofChan m c n Ty.apnd then
    { s1 with net := s1.net.filter fun m => !Msg.ofChan m c n Ty.apnd }.updCore c fun q => { q with reqs := q.reqs.filter fun r => r.1 != 144 + n.val }
  else s1

/-- The end of a channel that stops where it stands (R312). -/
def stopChan (s : State) (c : Nat) (n : Fin 4) : State :=
  let s1 := if (s.chan c n).reqOut then dropChanReq s c n else s
  wakeChan (s1.updChan c n fun x =>
    { x with st := if x.wp = x.len then .done else .stopped, reqOut := false, wait := none, buf := [] }) c n

/-- The smallest multiple of 256 that is not below a number, or the length if that comes first (R312). -/
def stopAt256 (wp len : Nat) : Nat := Nat.min len ((wp + 255) / 256 * 256)

/-- CP.STOP (R312). -/
def execCpStop (n : Fin 4) (s : State) : Out :=
  let c := s.myCore
  let x := s.chan c n
  if x.running then
    let till := stopAt256 x.wp.toNat x.len.toNat
    if x.wp.toNat = till then done 4 (stopChan s c n)
    else doneFar 4 (some (.chanStop n)) (s.updChan c n fun x => { x with st := .stopping, stopAt := BitVec.ofNat 64 till })
  else if x.st == .faulted then done 4 (s.updChan c n fun x => { x with st := .stopped, cause := 0, buf := [] })
  else done 4 s

/-- CP.RESUME (R313). -/
def execCpResume (n : Fin 4) (s : State) : Out :=
  let x := s.chan s.myCore n
  if x.st != .faulted || x.cause = .leaseViolation then trap .illegalOperand (BitVec.ofNat 64 n) s
  else done 4 (s.updChan s.myCore n fun x => { x with st := .running, cause := 0, wait := none })

/-! ## Deliveries (R308, R309, R311) -/

/-- Bytes of a channel are performed (R309). -/
def Chan.performed (x : Chan) (k : Nat) : Chan :=
  let wp := x.wp + BitVec.ofNat 64 k
  { x with wp := wp, buf := x.buf.drop k, st := if wp = x.len then .done else x.st }

/-- What the next access of a channel does. -/
inductive ChanRes
  | moved (s : State)
  | waits (write : Bool) (w : Wait) (s : State)
  | faults (write : Bool) (cause : Cause) (va : Word) (s : State)

/-- Where a running channel delivers up to. -/
def Chan.limit (x : Chan) : Nat := if x.st == .stopping then x.stopAt.toNat else x.len.toNat

/-- How far a channel has read its source. -/
def Chan.readTo (x : Chan) : Nat := x.wp.toNat + x.buf.length

/-- The length of the next read: what the transfer still has of one aligned block of the source (R203, R309). -/
def Chan.piece (x : Chan) : Nat := Nat.min (x.len.toNat - x.readTo) (64 - (x.src.toNat + x.readTo) % 64)

/-- The length of the next delivery of bytes read: within a block of the destination and up to where the channel stops. -/
def Chan.chunk (x : Chan) : Nat :=
  let wp := x.wp.toNat
  Nat.min (Nat.min x.buf.length (x.limit - wp)) (Nat.min (256 - wp % 256) (if x.ap then 64 else 64 - (x.dst.toNat + wp) % 64))

/-- Whether a channel reads on before it delivers: it reads its source in whole pieces of 256 bytes, and may begin the next piece
ahead of its deliveries (R309); how far ahead, the spec does not state (log 70). -/
def Chan.readsOn (x : Chan) (s : State) : Bool × State :=
  if x.limit ≤ x.readTo then (false, s)
  else if x.buf.isEmpty || (x.src.toNat + x.readTo) % 256 != 0 then (true, s)
  else s.freeBool

/-- A channel's message to the home of its append page (R258). -/
def chanRequest (s : State) (c : Nat) (n : Fin 4) (type pa : Nat) (w2 w3 : Word) (flit : Option Block) : State :=
  let x := s.chan c n
  let m := mkMsg s c x.slot (procAgent (s.homeOf pa)) type (144 + n.val) (pa / 64 * 64) w2 w3 0 flit none
  ((s.updCore c fun q => { q with reqs := put (144 + n.val) { msg := m } q.reqs }).updChan c n fun x => { x with reqOut := true }).post m

/-- The destination's translation: an append page makes the transfer an append (R248, R311). The destination address names the page, so
every fill asks with it, and a fault of a fill names it (log 71). A destination of any other kind meets its faults where the channel
stores. -/
def chanDest (s : State) (c : Nat) (n : Fin 4) : Res (Option Part1) :=
  let x := s.chan c n
  let b := engBy (threadOf c x.slot) x.mode 4
  match checkAddr s b.t .store x.dst 1 1 with
  | .ok (.glb va) =>
    match translatePart s b .store true va 1 with
    | .ok p s => if p.x.ok = 3 then .ok (some p) s else .ok none s
    | .trap cause va s => if x.ap then .trap cause va s else .ok none s
    | .wait w s => .wait w s
  | .error (cause, v) => if x.ap then .trap cause v s else .ok none s
  | .ok _ => .ok none s

/-- A channel reads the next piece of a block of its source. A fault of a read ahead is met when the bytes before it have been
delivered (R309, R314). -/
def chanRead (s : State) (c : Nat) (n : Fin 4) : ChanRes :=
  let x := s.chan c n
  match engLoad s (threadOf c x.slot) x.mode 0 (x.src + BitVec.ofNat 64 x.readTo) x.piece with
  | .wait w s => .waits false w s
  | .trap cause va s => .faults false cause va s
  | .ok l s => .moved (s.updChan c n fun x => { x with buf := x.buf ++ l })

/-- A channel delivers the next bytes it has read: a fill sent to the home of its append page, or a store. Its bytes are then performed for
every slot of its core, where the table of R207 would let another slot read the old ones until CP.WAITGE (log 7). -/
def chanWrite (s : State) (c : Nat) (n : Fin 4) (dest : Option Part1) : ChanRes :=
  let x := s.chan c n
  let k := x.chunk
  let l := x.buf.take k
  match dest, x.rsv with
  | some p, some r =>
    let pa := p.pa / 4096 * 4096 + r.toNat + x.wp.toNat
    .moved (chanRequest s c n Ty.apnd pa (BitVec.ofNat 64 (k + 2 ^ 7)) r (some (blkOf l)))
  | _, _ =>
    match engStore s (threadOf c x.slot) x.mode (x.dst + x.wp) l with
    | .wait w s => .waits true w s
    | .trap cause va s => .faults true cause va s
    | .ok _ s => .moved (s.updChan c n (·.performed k))

/-- The next access of a channel: a reservation asked for, a piece of the source read, or bytes delivered. What the slot released before the
start of an append is performed before its reservation, so that a TAILRD past the fills sees it (R254); and a store that had to wait, or
that faulted, comes again before any read (R313). -/
def chanStep (s : State) (c : Nat) (n : Fin 4) : ChanRes :=
  let x := s.chan c n
  match (if x.ap || x.wp = 0 then chanDest s c n else .ok none s) with
  | .wait w s => .waits true w s
  | .trap cause va s => .faults true cause va s
  | .ok dest s =>
    match dest, x.ap, x.rsv with
    | some p, false, _ =>
      match releaseFirst s (threadOf c x.slot) (relScope s (threadOf c x.slot) .pkg) with
      | .wait w s => .waits true w s
      | .trap cause va s => .faults true cause va s
      | .ok _ s => .moved (chanRequest (s.updChan c n fun x => { x with ap := true }) c n Ty.arsv (p.pa / 4096 * 4096) x.len 0 none)
    | some p, true, none => .moved (chanRequest s c n Ty.arsv (p.pa / 4096 * 4096) x.len 0 none)
    | none, true, _ => .faults true .storeFault x.dst s
    | _, _, _ =>
      let (more, s) := if x.atDst && !x.buf.isEmpty then (false, s) else x.readsOn s
      if more then
        match chanRead s c n with
        | .moved s => .moved s
        | r => if x.buf.isEmpty then r else chanWrite s c n dest
      else chanWrite s c n dest

/-- Whether a channel has a delivery to make now; a halt stops it at its next 256-byte boundary (R314). -/
def chanReady (s : State) (c : Nat) (n : Fin 4) : Bool :=
  let x := s.chan c n
  (!halting s c || x.wp.toNat % 256 != 0) && x.running && !x.reqOut && x.wp.toNat < x.limit && waitOver s c x.wait &&
    (look (144 + n.val) (s.core c).reqs).isNone

/-- CHANNEL_DELIVERY (R309): the channel's next access, when it does not fault. -/
def execChannelDelivery (c : Nat) (n : Fin 4) (s : State) : Out :=
  if !chanReady s c n then .next s else
  match chanStep s c n with
  | .moved s => .next (wakeChan (s.updChan c n fun x => { x with wait := none, atDst := false }) c n)
  | .waits write w s => .next (s.updChan c n fun x => { x with wait := some w, atDst := write })
  | .faults _ _ _ _ => .next s

/-- A fault of a channel's access: FAULTED with ENGINE_FAULT in its slot, or the end of a CP.STOP that waits (R312, R313, R348). -/
def chanFault (s : State) (c : Nat) (n : Fin 4) (write : Bool) (cause : Cause) (va : Word) : State :=
  let x := s.chan c n
  let stopping := x.st == .stopping
  let s1 := s.updChan c n fun x => { x with st := if stopping then .stopped else .faulted, cause := cause, wait := none, reqOut := false, atDst := write, buf := if stopping then [] else x.buf }
  let s2 := if stopping then s1 else
    raise s1 (threadOf c x.slot) (.engine (efWord write cause n 2) va x.wp (x.rsv.getD (BitVec.allOnes 64)))
  wakeChan s2 c n

/-- CHANNEL_FAULT (R313). -/
def execChannelFault (c : Nat) (n : Fin 4) (s : State) : Out :=
  if !chanReady s c n then .next s else
  match chanStep s c n with
  | .faults write cause va s => .next (chanFault s c n write cause va)
  | _ => .next s

/-- CHANNEL_STOPPED (R312): the stopping point is reached, and the CP.STOP completes. -/
def execChannelStopped (c : Nat) (n : Fin 4) (s : State) : Out :=
  let x := s.chan c n
  if x.st == .stopping && !x.reqOut && x.stopAt ≤ x.wp then .next (stopChan s c n)
  else if x.st == .done then .next (wakeChan s c n)
  else .next s

/-- The answer of an append page's home to a channel (R251, R258, R311). -/
def chanAnswer (s : State) (c : Nat) (n : Fin 4) (req : Msg) (v : Word) : State :=
  let s1 := s.updChan c n fun x => { x with reqOut := false }
  let s2 :=
    if req.type = Ty.arsv then
      s1.updChan c n fun x => if v = BitVec.allOnes 64 then { x with st := .refused, cause := 0 } else { x with rsv := some v }
    else s1.updChan c n (·.performed (bits req.w[2] 6 0))
  wakeChan s2 c n

/-- FAIL from an append page's home reaches a channel: a reservation of a page that is not OPEN is refused, anything else is a
fault (R252, R258, R305). -/
def chanFailed (s : State) (c : Nat) (n : Fin 4) (req : Msg) (cause : Cause) : State :=
  let x := s.chan c n
  if req.type = Ty.arsv && cause = .writeAfterSeal then
    wakeChan (s.updChan c n fun x => { x with reqOut := false, st := .refused, cause := cause }) c n
  else chanFault s c n true cause x.dst

/-- The home's FAIL reaches the channels that wait for a block (R209, R313). -/
def failChannels (s : State) (c blk : Nat) (cause : Cause) : State :=
  ([0, 1, 2, 3] : List (Fin 4)).foldl (fun s n =>
    match (s.chan c n).wait with
    | some (.line b va) => if b = blk && (s.chan c n).running then chanFault s c n (s.chan c n).atDst cause va else s
    | _ => s) s

/-! ## The distributor (R316 to R319) -/

/-- dp.mask (R316) -/
def dpMask (p : Word) : Nat := bits p 63 48
/-- dp.cyc (R316) -/
def dpCyc (p : Word) : Nat := bits p 47 40
/-- Block size in bytes (R316) -/
def dpBs (p : Word) : Nat := 64 * 2 ^ bits p 34 32
/-- dp.off (R316) -/
def dpOff (p : Word) : Nat := bits p 17 0

/-- The receiving cores of a pattern in a cluster, in order of their local indices (R316, R317). -/
def dpCores (p : Word) (c : Nat) : List Nat :=
  ((List.range 16).filter fun i => (dpMask p).testBit i).map fun i => (coresOf (clusterOf c)).getD i c

/-- DIST.SET (R316). -/
def execDistSet (a : Reg) (s : State) : Out :=
  let v := s.rd a
  let p := (dpCores v s.myCore).length
  if dpMask v = 0 || dpCyc v = 0 || dpCyc v % p != 0 || 6 < bits v 34 32 || dpOff v % 64 != 0 || bits v 39 35 != 0 || bits v 31 18 != 0 then
    trap .illegalOperand v s
  else done 4 (s.updCore s.myCore fun q => { q with distPat := v })

/-- Where block b of a burst goes: the receiving core and the offset in its scratchpad (R317). -/
def dealBlock (p : Word) (c b : Nat) : Nat × Nat :=
  let cores := dpCores p c
  let r := dpCyc p / cores.length
  let q := b % dpCyc p
  (cores.getD (q / r) c, dpOff p + (b / dpCyc p * r + q % r) * dpBs p)

/-- Blocks of a burst (R317). -/
def burstBlocks (len bs : Nat) : Nat := (len + bs - 1) / bs

/-- Bytes from dp.off that the j-th receiving core is dealt (R317). -/
def dealtBytes (p : Word) (c len j : Nat) : Nat :=
  let n := burstBlocks len (dpBs p)
  let r := dpCyc p / (dpCores p c).length
  let k := n / dpCyc p * r + Nat.min r (n % dpCyc p - j * r)
  if (n - 1) % dpCyc p / r = j then k * dpBs p - (n * dpBs p - len) else k * dpBs p

/-- Whether some receiving core lies outside the partition or is dealt blocks beyond its scratchpad (R318). A pattern that was
never set names no receiving core (log 40). -/
def cannotDeal (s : State) (c len : Nat) (p : Word) : Bool :=
  let cores := dpCores p c
  cores.isEmpty || ((List.range cores.length).zip cores).any fun (x : Nat × Nat) =>
    s.partOf x.2 != s.partOf c || (0 < dealtBytes p c len x.1 && s.spSize x.2 < dpOff p + dealtBytes p c len x.1)

/-- Whether a pointer names a cell in host memory that no home of the device can count (R132). -/
def homedElsewhere (s : State) (t : Nat) (a : Word) : Bool × State :=
  match checkAddr s t .store a 64 1 with
  | .ok (.glb va) =>
    match translate s (agentOf t) ((s.slot t).mode = .u) .store false va with
    | (.ok x, s) => (uncachedHost s x.pa, s)
    | (_, s) => (false, s)
  | _ => (false, s)

/-- DIST.GO (R318). -/
def execDistGo (d a b : Reg) (s : State) : Out :=
  let c := s.myCore
  let q := s.core c
  let (join, src, len) := (s.rd d, s.rd a, s.rd b)
  if q.burst.st == .running || q.burst.st == .faulted then trap .illegalOperand 0 s
  else if spaceOf src != some .glb then trap .illegalOperand src s
  else if len = 0 || 2 ^ 32 < len.toNat || cannotDeal s c len.toNat q.distPat then trap .illegalOperand len s
  else
    let (far, s1) := if join = 0 then (false, s) else homedElsewhere s s.cur join
    if join != 0 && (join.toNat % 64 != 0 || far) then trap .illegalOperand join s1
    else done 4 (s1.updCore c fun q => { q with
      burst := { st := .running, src := src, len := len, join := join, pat := q.distPat, slot := slotOf s1.cur, mode := s1.me.mode, launch := launchOf s1 s1.cur } })

/-- DIST.STAT (R318). -/
def execDistStat (d : Reg) (s : State) : Out :=
  let x := (s.core s.myCore).burst
  let st := match x.st with | .running => 1 | .done => 2 | .faulted => 3 | _ => 0
  result 4 d (BitVec.ofNat 64 (st * 2 ^ 61 + (if x.st == .faulted then x.cause.toNat else 0) * 2 ^ 48 + x.blocks % 2 ^ 32)) s

/-- DIST.RESUME (R318, R348). -/
def execDistResume (s : State) : Out :=
  let x := (s.core s.myCore).burst
  if x.st != .faulted || x.cause = .leaseViolation then trap .illegalOperand 0 s
  else done 4 (s.updCore s.myCore fun q => { q with burst := { q.burst with st := .running, cause := 0, wait := none } })

/-- A fault of a burst's access: it reads its source, and its last one writes the join cell (R318, R319, R348). -/
def burstFault (s : State) (c : Nat) (write : Bool) (cause : Cause) (va : Word) : State :=
  let x := (s.core c).burst
  raise (s.updCore c fun q => { q with burst := { q.burst with st := .faulted, cause := cause, addr := va, part := 0, wait := none } })
    (threadOf c x.slot) (.engine (efWord write cause 0 3) va (BitVec.ofNat 64 x.blocks) (BitVec.allOnes 64))

/-- Deal the pieces of a block in order into a scratchpad. The last one reads all that the burst has of its aligned source block, and what it
leaves over is the first piece of the next dealt block: `buf` when that piece begins this one (R203). -/
def dealPieces (s : State) (c t : Nat) (x : Burst) (core off : Nat) (start : Word) (k : Nat) (buf : List Byte) :
    List (Word × Nat) → EngEnd (List Byte)
  | [] => .all buf s
  | (va, n) :: l =>
    let more := if l.isEmpty then Nat.min (64 - va.toNat % 64) (x.len.toNat - (va - x.src).toNat) else n
    match (if k = 0 && !buf.isEmpty then .ok buf s else engLoad s t x.mode 4 va more) with
    | .ok b s =>
      let o := s.spOffset core (off + (va - start).toNat)
      let s1 := s.updCore core fun q => { q with ls := q.ls.wrBytes o (b.take n) }
      dealPieces (if core = c then s1 else tracePort s1 (corePort core) o n c (slotOf t) false) c t x core off start (k + 1) (b.drop n) l
    | .wait w s => .waits buf k w s
    | .trap cause va s => .faults buf k cause va s

/-- Whether a burst's next step may be taken; a halt stops it at its next block boundary (R319). -/
def burstReady (s : State) (c : Nat) : Bool := (!halting s c || (s.core c).burst.part != 0) && (s.core c).burst.st == .running && waitOver s c (s.core c).burst.wait

/-- DIST_BLOCK (R317): the next block of a burst is dealt to a scratchpad; a block for another core is a write that the memory port of
that core performs (R201, log 30). A whole block of a local store is poisoned no more (R434). -/
def execDistBlock (c : Nat) (s : State) : Out :=
  let x := (s.core c).burst
  let bs := dpBs x.pat
  let (core, off) := dealBlock x.pat c x.blocks
  if !burstReady s c || burstBlocks x.len.toNat bs ≤ x.blocks || lsBusy s core then .next s else
  let start := x.src + BitVec.ofNat 64 (x.blocks * bs)
  let n := Nat.min bs (x.len.toNat - x.blocks * bs)
  let ps := (pieces start n).drop x.part
  let upd (s : State) (f : Burst → Burst) : State := s.updCore c fun q => { q with burst := f q.burst }
  match dealPieces s c (threadOf c x.slot) x core off start x.part x.buf ps with
  | .all l s => .next (upd (unpoisonIn s (lsBlk core) (s.spOffset core off) n) fun x => { x with blocks := x.blocks + 1, part := 0, wait := none, buf := l })
  | .waits _ k w s => .next (upd s fun x => { x with part := k, wait := some w })
  | .faults _ _ cause va s => .next (burstFault s c false cause va)

/-- DIST_BURST_COMPLETE (R319): the count of the join cell is decremented; at zero its continuation is pushed. -/
def execDistBurstComplete (c : Nat) (s : State) : Out :=
  let x := (s.core c).burst
  if !burstReady s c || x.blocks < burstBlocks x.len.toNat (dpBs x.pat) then .next s else
  let fin (s : State) : State := s.updCore c fun q => { q with burst := { q.burst with st := .done, wait := none } }
  if x.join = 0 then .next (fin s) else
  let t := threadOf c x.slot
  match cellAddrBy s t true x.join x.join with
  | .wait w s => .next (s.updCore c fun q => { q with burst := { q.burst with wait := some w } })
  | .trap cause va s => .next (burstFault s c true cause va)
  | .ok pa s =>
    let n := homeWord s pa
    let k := { recOf (homeBytes s (pa + 32) 32) c with launch := x.launch }
    let s1 := if n = 0 then s else cellCount s t pa (· - 1)
    .next (fin (if n = 1 && k.code != 0 then dealTo s1 c noThread k else s1))

/-- The home's FAIL reaches a burst that waits for a block (R209, R318). -/
def failBurst (s : State) (c blk : Nat) (cause : Cause) : State :=
  match (s.core c).burst.wait with
  | some (.line b va) => if b = blk && (s.core c).burst.st == .running then
      burstFault s c (decide (burstBlocks (s.core c).burst.len.toNat (dpBs (s.core c).burst.pat) ≤ (s.core c).burst.blocks)) cause va
    else s
  | _ => s

/-- A restored context reads the sources of its RUNNING channels again from their wp (R314); a FAULTED one keeps what it had read, since its
next access is the one that faulted (R313). -/
def rereadChans (s : State) (c : Nat) : State :=
  s.updCore c fun q => { q with cp := q.cp.map fun (x : Chan) => if x.st == .faulted then x else { x with buf := [], atDst := false } }

end Sys2Proof.Machine
end

