-- ==== Sys2Proof/Machine/Fabric.lean ====
section
/-! DEFINITION. The Jarrid fabric (spec/17): ranks, packets, sequence numbers, message queues (R377 to R380), remote loads, stores
and atomics (R381 to R386), and bulk transfers (R387 to R389). -/

namespace Sys2Proof.Machine

/-! ## Routes and packets (R367 to R371) -/

/-- The ports of a valid route-table entry: its alternatives 0 to rt.n (R368). -/
def routePorts (e : BitVec 32) : List Nat :=
  if e.getLsbD 31 then (List.range (fld e.toNat 29 2 + 1)).map fun i => fld e.toNat (5 * i + 5) 5 else []

/-- The ports that lead to a device, but for those whose training failed: they are disabled (R368, R428). -/
def portsTo (s : State) (dst : Nat) : List Nat := (routePorts ((look dst s.routes).getD 0)).filter fun p => !s.boot.failedPorts.getLsbD p

/-- Whether a device can be reached; the device itself always can (R368, R372). -/
def reachable (s : State) (dst : Nat) : Bool := dst = s.devNum || !(portsTo s dst).isEmpty

/-- Whether a packet carries data blocks: bulk data, page data and a page's write-back. Its words are no part of its payload: they stand
beside the header in its first flit (R370, log 31). -/
def carriesData (kind : Nat) : Bool := kind = 6 || kind = 8 || kind = 18 || kind = 20

/-- A packet of this device. Its message is its words and its flits, and pk.tot is their length (log 31); packets of bulk data have the
length of the whole message. -/
def packet (s : State) (kind dst part : Nat) (reply : Bool) (words : List Word) (flits : List Block) : Packet :=
  { kind := kind, src := s.devNum, dst := dst, part := part, hop := 0, drop := false, reply := reply, own := 0, seq := 0, off := 0,
    tot := (if carriesData kind then 0 else 8 * words.length) + 64 * flits.length, words := words, flits := flits }

/-- pk.flits: the payload in whole flits (R370). -/
def packetFlits (p : Packet) : Nat :=
  p.flits.length + (if carriesData p.kind then 0 else (8 * p.words.length + 63) / 64)

/-- The header of a packet (R370). -/
def packetHeader (p : Packet) : BitVec 128 :=
  BitVec.ofNat 128 (p.off * 2 ^ 104 + p.tot * 2 ^ 80 + p.seq * 2 ^ 48 + p.src * 2 ^ 38 + p.dst * 2 ^ 28 + p.part * 2 ^ 24 + p.hop * 2 ^ 21 +
    bit p.drop * 2 ^ 20 + bit p.reply * 2 ^ 19 + packetFlits p * 2 ^ 12 + p.own * 2 ^ 6 + p.kind)

/-- An answer to a packet: on the reply lane, under its number. Word 0 of an acknowledgement and word 2 of a failure name the lane
of the operation (log 31). -/
def answerTo (s : State) (p : Packet) (kind : Nat) (words : List Word) : Packet :=
  { packet s kind p.src p.part true words [] with seq := p.seq, own := p.own }

/-- Free bytes of the channel buffer of a port's output. The spec gives the buffers no size and says nothing of how fast they empty, so
this is a free value; `room`, where it is known, lists the ports with 8 KiB free (R368, R371, log 38). -/
def portSpace (s : State) (room : Option (List Nat)) (port : Nat) : Nat × State :=
  let (n, s1) := s.freeBelow 8192
  match room with
  | some l => (n + bit (l.contains port) * 8192, s1)
  | none => let (b, s2) := s1.freeBool; (n + bit b * 8192, s2)

/-- The alternative with the most free space, ties going to the lower one, and its free bytes (R368). -/
def mostFree (s : State) (room : Option (List Nat)) : List Nat → Option (Nat × Nat) × State
  | [] => (none, s)
  | port :: l =>
    let (n, s1) := portSpace s room port
    match mostFree s1 room l with
    | (some (q, m), s2) => (some (if n < m then (q, m) else (port, n)), s2)
    | (none, s2) => (some (port, n), s2)

/-- A lossless packet leaves the device, through one of its ports or to the device itself (R368, R371, R372). -/
def emitLossless (s : State) (room : Option (List Nat)) (p : Packet) : State :=
  if p.dst = s.devNum then { s with packets := s.packets ++ [p] } else
  match mostFree s room (portsTo s p.dst) with
  | (some (port, _), s1) => { s1 with sent := s1.sent ++ [(port, p)] }
  | (none, s1) => s1

/-- A message to a packet's sender from a device that discards it: word 3 names the packet's target (log 31). -/
def notice (s : State) (p : Packet) (kind : Nat) (words : List Word) : State :=
  emitLossless s none { answerTo s p kind words with off := p.off }

/-- The drop notice of a packet: its lane, its flits and its target (R371, log 31). -/
def dropped (s : State) (p : Packet) : State :=
  notice s p 9 [boolWord p.reply, BitVec.ofNat 64 p.flits.length, 0, BitVec.ofNat 64 p.dst]

/-- A packet is put to an output; a droppable one is discarded where the channel buffer has less than 8 KiB free (R371). -/
def putOut (s : State) (room : Option (List Nat)) (p : Packet) : State :=
  match mostFree s room (portsTo s p.dst) with
  | (some (port, n), s1) => if p.drop && n < 8192 then dropped s1 p else { s1 with sent := s1.sent ++ [(port, p)] }
  | (none, s1) => s1

/-- A packet leaves the device (R368, R371, R372). -/
def emit (s : State) (p : Packet) : State :=
  if p.dst = s.devNum then { s with packets := s.packets ++ [p] } else putOut s none p

/-! ## Numbers at the target (R374) -/

/-- What a packet's number says. -/
inductive Seen
  | old | again (ack : Packet) | inWindow | fresh
deriving DecidableEq, Repr

/-- Judge a packet's number against its pair's window (R374). -/
def seen (s : State) (p : Packet) : Seen :=
  match s.windows.find? fun w => w.dev = p.src && w.lane = p.reply with
  | none => .fresh
  | some w =>
    let d := (p.seq + 2 ^ 32 - w.high) % 2 ^ 32
    if d = 0 || 2 ^ 31 ≤ d then
      if 2 ^ 16 ≤ (2 ^ 32 - d) % 2 ^ 32 then .old
      else match w.done.find? fun x => x.1 = p.seq with
        | some x => .again x.2
        | none => .inWindow
    else .fresh

/-- The window moves to a number above the highest seen (R374). -/
def moveWindow (s : State) (p : Packet) : State :=
  let keep := fun (w : Window) => w.done.filter fun x => (p.seq + 2 ^ 32 - x.1) % 2 ^ 32 < 2 ^ 16
  { s with windows :=
      if s.windows.any fun w => w.dev = p.src && w.lane = p.reply then
        s.windows.map fun w => if w.dev = p.src && w.lane = p.reply then { w with high := p.seq, done := keep w } else w
      else s.windows ++ [{ dev := p.src, lane := p.reply, high := p.seq, done := [] }] }

/-- An operation is complete: its number is marked, and its answer is sent (R374, R375). -/
def answerOp (s : State) (p ack : Packet) : State :=
  let s1 := { s with windows := s.windows.map fun w => if w.dev = p.src && w.lane = p.reply then { w with done := w.done ++ [(p.seq, ack)] } else w }
  emit s1 ack

/-- An acknowledgement, kind 5. -/
def ackOf (s : State) (p : Packet) : Packet := answerTo s p 5 [boolWord p.reply]
/-- A failure report, kind 13; a partition that has moved is marked, and word 3 names the packet's target (R373, R386, log 31). -/
def failOf (s : State) (p : Packet) (kind : Nat) (moved : Bool) : Packet :=
  answerTo s p 13 [BitVec.ofNat 64 kind, boolWord moved, boolWord p.reply, BitVec.ofNat 64 p.dst]

/-- Whether packets belong to one operation (R374). -/
def sameOp (p q : Packet) : Bool := p.src = q.src && p.reply = q.reply && p.seq = q.seq

/-- Nothing of an operation waits at the target any more. -/
def leaveTarget (s : State) (p : Packet) : State := { s with atTarget := s.atTarget.filter fun q => !sameOp p q }

/-! ## The slot an operation serves -/

/-- Change a slot of a partition where its context stands: in the core, or in the shadow store while the partition is swapped out
(R355). -/
def updThread (s : State) (p : Option Nat) (t : Nat) (f : Slot → Slot) : State :=
  let c := agentOf t
  let k := clusterOf c
  if s.partOf c = p then s.updSlot t f else
  match (s.cluster k).shadow, p with
  | some (q, l), some p =>
    if q != p then s else
    let i := (coresOf k).idxOf c
    s.updCluster k fun x => { x with shadow := some (q, l.modify i fun y => { y with slots := y.slots.modify (slotOf t) f }) }
  | _, _ => s

/-- The slot of a partition where its context stands. -/
def threadOfPart (s : State) (p : Option Nat) (t : Nat) : Option Slot :=
  let c := agentOf t
  let k := clusterOf c
  if s.partOf c = p then some (s.slot t) else
  match (s.cluster k).shadow, p with
  | some (q, l), some p => if q != p then none else (l[(coresOf k).idxOf c]?).bind fun y => y.slots[slotOf t]?
  | _, _ => none

/-! ## Operations of this device (R374, R375) -/

/-- Key of a pair of devices and a lane. -/
def pairKey (dst : Nat) (reply : Bool) : Nat := dst * 2 + bit reply

/-- Operations of a pair that have been sent. -/
def outstanding (s : State) (dst : Nat) (reply : Bool) : Nat := (s.remOps.filter fun o => o.sent && o.dst = dst && o.reply = reply).length

/-- The request that an operation of bulk read data answers (R388). -/
def RemOp.request (o : RemOp) (s : State) : Option Packet :=
  match o.packets.head? with
  | some q => if o.reply && q.kind = 8 then some { q with src := o.dst, dst := s.devNum, reply := false, seq := o.seq } else none
  | none => none

/-- An operation's failure reaches its slot: a tag becomes ready with it, a counted one is a REMOTE_ERROR to come (R333, R383). That of
bulk read data is reported to the device that asked for them (R386, R388). -/
def opFailed (s : State) (o : RemOp) (kind : Nat) : State :=
  let w := BitVec.ofNat 64 (kind * 2 ^ 32 + bit o.reply * 2 ^ 26 + o.dst % 2 ^ 10 * 2 ^ 16 + o.seq % 2 ^ 16)
  match o.thread with
  | none =>
    match o.request s with
    | some q => answerOp s q (failOf s q kind false)
    | none =>
    let hit (f : Frame) : Bool :=
      f.asked && f.rank = o.rank && f.job = o.job && o.packets.any fun p => (p.kind = 16 || p.kind = 17) && p.words.getD 0 0 = f.remote
    { s with frames := s.frames.map fun x => if hit x.2 then (x.1, { x.2 with asked := false, st := .pi, failed := true }) else x }
  | some t => updThread s o.mine t fun x =>
    match o.tag with
    | some n => { x with tags := x.tags.set n (.failed w) }
    | none => if o.counted then { x with ff := x.ff - 1, remErr := x.remErr ++ [w] } else x

/-- An operation's answer reaches its slot: a value for a tag, or one less in the count (R382, R389). -/
def opDone (s : State) (o : RemOp) (v : Word) : State :=
  match o.thread with
  | none => s
  | some t => updThread s o.mine t fun x =>
    match o.tag with
    | some n =>
      let acq := match x.tags[n] with | .pending _ a => a | _ => false
      { x with tags := x.tags.set n (.ready (o.len.getD v) acq) }
    | none => if o.counted then { x with ff := x.ff - 1 } else x

/-- Send an operation: it takes the next number of its pair; an unreachable destination fails it with kind 5 (R368, R374). -/
def sendOp (s : State) (o : RemOp) : State :=
  if 2 ^ 15 ≤ outstanding s o.dst o.reply then { s with remOps := s.remOps ++ [o] }
  else
    let k := pairKey o.dst o.reply
    let n := (look k s.nextSeq).getD 0
    let o1 := { o with seq := n, sent := true, sentAt := s.time,
                       packets := o.packets.map fun p => { p with seq := n, src := s.devNum, dst := o.dst, part := o.part, reply := o.reply } }
    let s1 := { s with nextSeq := put k ((n + 1) % 2 ^ 32) s.nextSeq }
    if !reachable s o.dst then opFailed s1 o1 5
    else o1.packets.foldl emit { s1 with remOps := s.remOps ++ [o1] }

/-- Send operations that waited for the limit of their pair (R374). -/
def sendHeld (s : State) : State :=
  match s.remOps.find? fun o => !o.sent && outstanding s o.dst o.reply < 2 ^ 15 with
  | none => s
  | some o => sendOp { s with remOps := s.remOps.erase o } o

/-- The operation of this device that an answer of another device names. -/
def opOf (s : State) (dev : Nat) (reply : Bool) (seq : Nat) : Option RemOp :=
  s.remOps.find? fun o => o.sent && o.dst = dev && o.reply = reply && o.seq = seq

/-- An operation is over. -/
def finishOp (s : State) (o : RemOp) : State := sendHeld { s with remOps := s.remOps.erase o }

/-- Change an operation. -/
def updRemOp (s : State) (o : RemOp) (f : RemOp → RemOp) : State := { s with remOps := s.remOps.map fun x => if x = o then f x else x }

/-- Send every packet of an operation again, at the lossless class, under its number (R375, R380). -/
def resendOp (s : State) (o : RemOp) : State := o.packets.foldl (fun s p => emit s { p with drop := false }) s

/-! ## Ranks (R372) -/

/-- The job of the partition that runs on a core (R7). -/
def jobOn (s : State) (c : Nat) : Nat := match s.partOf c with | some p => (s.part p).job | none => 0

/-- The entry of a rank in a job's table (R372). -/
def rankEntry (s : State) (job r : Nat) : BitVec 32 := (look (job * 4096 + r) s.ranks).getD 0
/-- rk.st -/
def rankSt (e : BitVec 32) : Nat := fld e.toNat 30 2
/-- rk.part -/
def rankPart (e : BitVec 32) : Nat := fld e.toNat 10 4
/-- rk.dev -/
def rankDev (e : BitVec 32) : Nat := fld e.toNat 0 10

/-! ## Pages of protocol 8 at their homes (R390 to R393) -/

/-- Whether a request may be dispatched now, must wait for its page, or is refused. -/
inductive Gate | pass | hold | fail (c : Cause)
deriving DecidableEq, Repr

/-- The frame of a protocol-8 page. -/
def frameOf (s : State) (pa : Nat) : Option Frame := look (pa / 4096 * 4096) s.frames

/-- The gate of a line request to a protocol-8 page (R391, R393): a proxy needs PS or PX, a home no remote copy in the way. -/
def frameGate (s : State) (pa : Nat) (read : Bool) : Gate :=
  match frameOf s pa with
  | none => .fail (if read then .loadFault else .storeFault)
  | some f =>
    if f.append && !read then .fail .storeFault
    else if f.asked || f.unbind || !f.requests.isEmpty || !f.left.isEmpty || !f.recalls.isEmpty then .hold
    else if f.home then (if f.owner.isSome || (!read && (f.all || !f.sharers.isEmpty)) then .hold else .pass)
    else match f.st with
      | .px => .pass
      | .ps => if read then .pass else .hold
      | _ => .hold

/-- Ask the home device of a proxy's page for it (R391): kind 16 for a read, 17 for a write. Words: the page's address there, and for
an append page the block and the bytes of the read (log 34). -/
def askPage (s : State) (page : Nat) (f : Frame) (excl : Bool) (what : Nat) : State :=
  let e := rankEntry s f.job f.rank
  sendOp { s with frames := put page { f with st := .pw, asked := true, excl := excl } s.frames }
    { dst := rankDev e, part := rankPart e, rank := f.rank, job := f.job,
      packets := [packet s (if excl then 17 else 16) (rankDev e) (rankPart e) false [f.remote, BitVec.ofNat 64 what] []] }

/-- The devices of a job: those its rank table names, a migrating rank's among them (R391). -/
def jobDevices (s : State) (job : Nat) : List Nat :=
  (s.ranks.filterMap fun x => if x.1 / 4096 = job && rankSt x.2 != 0 && rankDev x.2 != s.devNum then some (rankDev x.2) else none).eraseDups

/-- The devices that hold a copy of a home page. -/
def pageCopies (s : State) (f : Frame) : List Nat := f.owner.toList ++ (if f.all then jobDevices s f.job else f.sharers)

/-- A home page is recalled from the devices that hold it (R392): kind 19, with whether the copy must go. -/
def recallPage (s : State) (page : Nat) (f : Frame) (devs : List Nat) (excl : Bool) : State :=
  devs.foldl (fun s d => sendOp s { dst := d, part := 0, packets := [packet s 19 d 0 false [f.va, boolWord excl] []] })
    { s with frames := put page { f with left := devs, excl := excl } s.frames }

/-- Start what a held access to a protocol-8 page waits for (R391). -/
def openFrame (s : State) (page : Nat) (read : Bool) (what : Nat) : State :=
  match look page s.frames with
  | none => s
  | some f =>
    if f.asked || f.unbind || !f.requests.isEmpty || !f.left.isEmpty || !f.recalls.isEmpty then s
    else if f.home then recallPage s page f (pageCopies s f) (!read)
    else askPage s page f (!read) what

/-- Whether a home lets an access of another device, or of a bulk transfer, take place: a failed region, a poisoned block that it reads, a
sealed or open append page and a final block refuse as they refuse a core's request; a protocol-8 page must first be here in the state that
the access needs, a window page in device bias, and a line of host memory taken from the host (R229, R234, R248, R384, R389, R391, R399,
R405, R434). -/
def homeAdmits (s : State) (pa : Nat) (store : Bool) : Gate :=
  match homeRefuses s pa (if store then none else some .loadFault) with
  | some c => .fail c
  | none =>
    if biasAway s pa then .hold else
    match s.regionOf pa with
    | none => .pass
    | some (_, e) =>
      if store && (rgProto e = 7 || (rgProto e = 5 && deSt (s.entry (entryAddr e pa)) = 7)) then .fail .storeFault
      else if rgProto e = 8 then frameGate s pa (!store)
      else if hostLine pa && rgProto e != 0 then (if hostHeld s e pa store then .pass else .hold)
      else .pass

/-- What an access that its home holds waits for is started. -/
def openHome (s : State) (pa : Nat) (store : Bool) (n : Nat) : State :=
  if biasAway s pa then askDevice s pa
  else if hostLine pa then takeHost s pa store
  else openFrame s (pa / 4096 * 4096) (!store) (pa / 64 % 64 * 2 ^ 13 + (pa % 64 + n - 1) % 64 * 2 ^ 6 + pa % 64)

/-! ## Accesses at the target (R382) -/

/-- What an access at the target gives: done, a wait for a page, or a failure of R386. -/
inductive AtTarget (α : Type)
  | ok (a : α) (s : State)
  | waits (s : State)
  | fails (kind : Nat) (moved : Bool) (s : State)

/-- Translate the blocks of an access in a target partition's context, as U-mode accesses (R382). -/
def targetPieces (s : State) (part : Nat) (k : Kind) : List (Word × Nat) → AtTarget (List (Nat × Nat))
  | [] => .ok [] s
  | (va, n) :: l =>
    match (s.part part).cfg with
    | none => .fails 2 true s
    | some g =>
      if (s.part part).exported then .fails 2 true s
      else if !canonical va then .fails 1 false s
      else if g.leased && !((coreSet g).any fun c => leased (coreOfPart s part c) va) then .fails 9 false s
      else match walk s.mem g va with
        | .ok x =>
          if !grants x k true false || x.ok = 3 && (k == .store || s.protoOf x.pa != 7) then .fails 1 false s
          else match homeAdmits s x.pa (k == .store) with
            | .fail c => .fails (if c = .protocolFail then 6 else 1) false s
            | .hold => .waits (openHome s x.pa (k == .store) n)
            | .pass => match targetPieces s part k l with
              | .ok r s => .ok ((x.pa, n) :: r) s
              | o => o
        | .error f =>
          if f.dm && !f.malformed && !g.leased && g.pageReqs != 0 then .waits (pageRequest s part f k 0x7FF 0).2
          else .fails 1 false s

/-- The published tail of an append page bounds what a remote read may see (R253). -/
def belowTail (s : State) (x : Nat × Nat) : Bool :=
  match s.regionOf x.1 with
  | some (_, e) =>
    if rgProto e != 7 then true else
    x.1 % 4096 + x.2 ≤ fld (s.mem.word (rgDir e + (x.1 - rgBase e) / 4096 * 16 + 8)).toNat 13 13
  | none => true

/-- Bytes of pieces at their homes. -/
def readPieces (s : State) (l : List (Nat × Nat)) : List Byte := l.flatMap fun x => homeBytes s x.1 x.2

/-- Write bytes to pieces at their homes; a block written whole is poisoned no more (R434). -/
def writePieces (s : State) (w : Writer) : List (Nat × Nat) → List Byte → State
  | [], _ => s
  | (pa, n) :: l, b =>
    let s1 := homeWrite s pa (b.take n) w
    writePieces (if n = 64 then unpoison s1 (pa / 64) else s1) w l (b.drop n)

/-- The lines that homes took from the host for an access go back (R399). -/
def releaseLines (s : State) (l : List (Nat × Nat)) (wrote : Bool) : State := l.foldl (fun s x => releaseHost s wrote x.1) s

/-- The slot of another device that a packet's access is made for, from the thread number among the packet's words (R201, log 31). -/
def packetWriter (p : Packet) (i : Nat) : Writer :=
  let t := (p.words.getD i 0).toNat
  ⟨agentOf t, slotOf t, p.src, some p.part⟩

/-- A remote access performed at the target: a load, store or atomic of its packet (R382); the answer's kind and words. -/
def performRemote (s : State) (p : Packet) : AtTarget (Nat × List Word) :=
  let a := p.words.getD 0 0
  let w (i : Nat) : Word := p.words.getD i 0
  match p.kind with
  | 1 =>
    match targetPieces s p.part .load (pieces a (w 1).toNat) with
    | .ok l s => if l.all (belowTail s) then .ok (4, [BitVec.ofNat 64 (leNat (readPieces s l))]) (releaseLines s l false) else .fails 1 false s
    | .waits s => .waits s
    | .fails k m s => .fails k m s
  | 2 =>
    match targetPieces s p.part .store (pieces a (w 1).toNat) with
    | .ok l s => .ok (5, [boolWord p.reply]) (releaseLines (writePieces s (packetWriter p 4) l (leBytes (w 1).toNat (w 2).toNat)) l true)
    | .waits s => .waits s
    | .fails k m s => .fails k m s
  | _ =>
    let n := atomWidth (w 1).toNat
    match targetPieces s p.part .store (pieces a n) with
    | .ok l s =>
      match l with
      | (pa, _) :: _ =>
        if uncachedHost s pa && !pcieAtomic (w 1).toNat then .fails 7 false s
        else if poisonedBlk s (pa / 64) then .fails 1 false s else
        let old := leNat (homeBytes s pa n)
        .ok (4, [BitVec.ofNat 64 old])
          (releaseLines (homeStoreAll s pa (packetWriter p 5) (leBytes n (atomStep (w 1).toNat old (w 2).toNat (w 3).toNat))) l true)
      | [] => .fails 1 false s
    | .waits s => .waits s
    | .fails k m s => .fails k m s

/-- A packet waits at the target. -/
def waitAtTarget (s : State) (p : Packet) : State := if s.atTarget.contains p then s else { s with atTarget := s.atTarget ++ [p] }

/-- An operation whose packet has been accepted is performed, or waits at the target (R382). -/
def tryAtTarget (s : State) (p : Packet) (f : State → Packet → AtTarget (Nat × List Word)) : State :=
  match f s p with
  | .ok (k, ws) s1 => answerOp (leaveTarget s1 p) p (answerTo s1 p k ws)
  | .waits s1 => waitAtTarget s1 p
  | .fails k m s1 => answerOp (leaveTarget s1 p) p (failOf s1 p k m)

/-- A packet that arrives at this device: from this device, or over a link, whose ports answer while the device runs (R372, R429). -/
def arrived (s : State) (p : Packet) (kind : Nat) : Option State :=
  if p.kind != kind || p.dst != s.devNum then none
  else if p.src = s.devNum then (if s.packets.contains p then some { s with packets := s.packets.erase p } else none)
  else if linkUp s then some s
  else none

/-- A packet of an operation of one packet: discarded when its number is old or in progress, answered again when completed, and
performed otherwise; one that waits at the target is tried again (R374). -/
def targetEvent (s : State) (p : Packet) (kind : Nat) (f : State → Packet → AtTarget (Nat × List Word)) : Out :=
  if p.kind = kind && s.atTarget.contains p then .next (tryAtTarget s p f) else
  match arrived s p kind with
  | none => .next s
  | some s1 =>
    match seen s1 p with
    | .old => .next s1
    | .again a => .next (emit s1 a)
    | .inWindow => .next (if s1.atTarget.any (sameOp p) then s1 else tryAtTarget s1 p f)
    | .fresh => .next (tryAtTarget (moveWindow s1 p) p f)

/-- REMOTE_LOAD (R382). -/
def execRemoteLoad (p : Packet) (s : State) : Out := targetEvent s p 1 performRemote
/-- REMOTE_STORE (R382). -/
def execRemoteStore (p : Packet) (s : State) : Out := targetEvent s p 2 performRemote
/-- REMOTE_ATOMIC (R382). -/
def execRemoteAtomic (p : Packet) (s : State) : Out := targetEvent s p 3 performRemote

/-! ## Answers at the source (R375, R382, R386) -/

/-- VALUE_REPLY (R382). -/
def execValueReply (p : Packet) (s : State) : Out :=
  match arrived s p 4 with
  | none => .next s
  | some s1 =>
    match opOf s1 p.src false p.seq with
    | some o => .next (finishOp (opDone s1 o (p.words.getD 0 0)) o)
    | none => .next s1

/-- ACKNOWLEDGEMENT (R375): the operation is complete; a bulk read's request stands until its data has come (R389), and when its data
have been acknowledged the request is complete too. -/
def execAcknowledgement (p : Packet) (s : State) : Out :=
  match arrived s p 5 with
  | none => .next s
  | some s1 =>
    match opOf s1 p.src (bitOf (p.words.getD 0 0) 0) p.seq with
    | some o =>
      if o.pieces.isEmpty then
        let s2 := finishOp (opDone s1 o (o.len.getD 0)) o
        .next (match o.request s2 with
          | some q => answerOp s2 q (ackOf s2 q)
          | none => s2)
      else .next s1
    | none => .next s1

/-- The rank of an operation that met a partition which has moved is resolved again, and the operation is sent under a new number; of a rank
that still migrates the port processor waits, with the operation, and one that has become invalid fails it (R373). -/
def resolveMoved (s : State) (o : RemOp) : State :=
  let e := rankEntry s o.job o.rank
  match rankSt e with
  | 0 => finishOp (opFailed s o 2) o
  | 2 => updRemOp s o fun x => { x with parked := true }
  | _ => sendOp (finishOp s o) { o with parked := false, moved := true, dst := rankDev e, part := rankPart e, resends := 0, refusals := [], backoff := none }

/-- The operations that wait for a rank go on when its entry has been written (R373). -/
def resolveParked (s : State) : State := (s.remOps.filter (·.parked)).foldl resolveMoved s

/-- FAILURE_REPORT (R369, R373, R386), from the target or from a device on the way: a first "moved" answer resolves the rank again. -/
def execFailureReport (p : Packet) (s : State) : Out :=
  match arrived s p 13 with
  | none => .next s
  | some s1 =>
    let kind := (p.words.getD 0 0).toNat
    match opOf s1 (p.words.getD 3 0).toNat (bitOf (p.words.getD 2 0) 0) p.seq with
    | none => .next s1
    | some o =>
      if o.parked then .next s1
      else if kind = 2 && p.words.getD 1 0 != 0 && !o.moved then .next (resolveMoved s1 o)
      else .next (finishOp (opFailed s1 o kind) o)

/-- REFUSAL (R380, R388): the source resends under the same number after the back-off. -/
def execRefusal (p : Packet) (s : State) : Out :=
  match arrived s p 12 with
  | none => .next s
  | some s1 =>
    match opOf s1 p.src (bitOf (p.words.getD 1 0) 0) p.seq with
    | none => .next s1
    | some o =>
      match o.packets.find? fun q => (q.kind = 6 || q.kind = 8) && q.off = p.off with
      | none => .next (updRemOp s1 o fun x => { x with backoff := some (s1.time + (p.words.getD 0 0).toNat) })
      | some q =>
        let n := (look q.off o.refusals).getD 0 + 1
        if 8 ≤ n then .next (finishOp (opFailed s1 o 8) o)
        else
          let s2 := updRemOp s1 o fun x => { x with refusals := put q.off n x.refusals }
          .next (emit s2 { packet s2 10 o.dst o.part o.reply [BitVec.ofNat 64 (64 * q.flits.length)] [] with seq := o.seq, off := q.off, tot := q.tot, own := q.own })

/-- REFUSAL_BACKOFF_RESEND (R380). -/
def execRefusalBackoffResend (k : Nat) (s : State) : Out :=
  match s.remOps[k]? with
  | some o =>
    match o.backoff with
    | some till =>
      let s1 := { s with time := Nat.max s.time till }
      .next (resendOp (updRemOp s1 o fun x => { x with backoff := none, sentAt := s1.time }) o)
    | none => .next s
  | none => .next s

/-- FABRIC_RESEND_TIMEOUT (R375): four resends, then failure kind 5. -/
def execFabricResendTimeout (k : Nat) (s : State) : Out :=
  match s.remOps[k]? with
  | some o =>
    if !o.sent || o.parked then .next s else
    let s1 := { s with time := Nat.max s.time (o.sentAt + 400000) }
    if o.resends < 4 then .next (resendOp (updRemOp s1 o fun x => { x with resends := x.resends + 1, sentAt := s1.time }) o)
    else .next (finishOp (opFailed s1 o 5) o)
  | none => .next s

/-! ## Forwarding and links (R365, R368, R369, R371) -/

/-- The report of a device that cannot forward a packet, to the packet's source (R368, R369, R386). -/
def forwardFailed (s : State) (p : Packet) (kind : Nat) : State :=
  notice s p 13 [BitVec.ofNat 64 kind, 0, boolWord p.reply, BitVec.ofNat 64 p.dst]

/-- PACKET_FORWARD (R368, R369, R371): `room` lists the ports whose channel buffer has 8 KiB free. -/
def execPacketForward (p : Packet) (room : List Nat) (s : State) : Out :=
  if p.dst = s.devNum || !linkUp s then .next s
  else if 5 ≤ p.hop then .next (forwardFailed s p 4)
  else if (portsTo s p.dst).isEmpty then .next (forwardFailed s p 5)
  else .next (putOut s (some room) { p with hop := p.hop + 1 })

/-- LINK_FLIT_RESEND (R365): it changes timing only. -/
def execLinkFlitResend (_link : Nat) (s : State) : Out := .next s

/-- LINK_RETRAIN (R371): the packets in flight on the link are discarded. -/
def execLinkRetrain (port : Nat) (s : State) : Out := .next { s with sent := s.sent.filter fun x => x.1 != port }

/-! ## Resolving a rank (R372) -/

/-- A rank operand of the running slot: its device and partition in the table of the slot's job. `v` is the value a RANK_FAULT
records. -/
def resolveRank (s : State) (r : Word) (v : Word) : Res (Nat × Nat) :=
  if 4096 ≤ r.toNat then .trap .rankFault v s else
  let e := rankEntry s (jobOn s s.myCore) r.toNat
  match rankSt e with
  | 0 => .trap .rankFault v s
  | 2 => .wait (.rank r.toNat) s
  | _ => .ok (rankDev e, rankPart e) s

/-- The waits of .REL and .SC (R382): earlier accesses performed, and the slot's fire-and-forget operations acknowledged. -/
def remoteRelease (s : State) (t : Nat) : Res Unit :=
  let c := agentOf t
  if !released s c then .wait .release (flushUnsent s c (slotOf t) (unsent s c))
  else if (s.slot t).ff != 0 || s.remOps.any fun o => o.thread = some t && o.mine = s.partOf c && o.tag.isSome && o.len.isNone then .wait .acks s
  else .ok () s

/-! ## Message queues (R377 to R380) -/

/-- Word 0 of a queue message with the sender fields the hardware writes (R80, R378). -/
def sender (s : State) (t : Nat) (w : Word) : Word :=
  setBits (setBits (setBits w 9 6 (slotOf t)) 20 10 (agentOf t)) 30 21 s.devNum

/-- The eight words from a register upward. -/
def regGroup (x : Slot) (a : Reg) : Vector Word 8 := Vector.ofFn fun i => x.rs (reg (a.val + i.val))

/-- The slot that a destination word names, if not any (R377). -/
def destSlot (b : Word) : Option Nat := if bitOf b 27 then none else some (bits b 26 23)
/-- q.core (R377) -/
def destCore (b : Word) : Nat := bits b 22 12

/-- QINJ (R378): the message takes an injection entry, whatever device it goes to. -/
def injectInstr (rel : Bool) (a b : Reg) (s : State) : Out :=
  let d := s.rd b
  let w := regGroup s.me a
  if 2 ^ 28 ≤ d.toNat then trap .illegalOperand d s else
  ((resolveRank s (BitVec.ofNat 64 (d.toNat % 4096)) d).andThen fun whom s =>
    if bitOf w[0] 5 || 48 < bits w[0] 44 39 then Res.trap .illegalOperand w[0] s
    else (if rel then remoteRelease s s.cur else .ok () s).andThen fun _ s =>
      if 64 ≤ s.me.ff || 16 ≤ (s.core s.myCore).injq.length then .wait .inject s else .ok whom s).finish fun whom s =>
    let w1 := w.set 0 (sender s s.cur w[0])
    let s1 := s.updMe fun x => { x with ff := x.ff + 1 }
    done 4 (s1.updCore s.myCore fun q => { q with injq := q.injq ++ [{ slot := slotOf s.cur, dest := d, w := w1, rel := rel, dev := whom.1, part := whom.2 }] })

/-- QINJ (R378). -/
def execQinj (a b : Reg) (s : State) : Out := injectInstr false a b s
/-- QINJ.REL (R378). -/
def execQinjRel (a b : Reg) (s : State) : Out := injectInstr true a b s

/-- The place of the oldest entry a slot may take (R379). -/
def takeable (q : Core) (slot : Nat) : Option Nat := q.rcvq.findIdx? fun e => e.slot = none || e.slot = some slot

/-- The registers of a slot after it takes a message. -/
def Slot.takeMsg (x : Slot) (a : Reg) (e : RcvEntry) : Slot :=
  (List.finRange 8).foldl (fun x i => x.ws (reg (a.val + i.val)) e.w[i]) x

/-- QRCV (R379). -/
def execQrcv (a : Reg) (s : State) : Out :=
  let q := s.core s.myCore
  match takeable q (slotOf s.cur) with
  | some i =>
    match q.rcvq[i]? with
    | some e => done 4 ((s.updCore s.myCore fun q => { q with rcvq := q.rcvq.eraseIdx i }).updMe fun x => x.takeMsg a e)
    | none => .next s
  | none =>
    wait (.receive a) (s.updCore s.myCore fun q =>
      { q with rwaiters := if q.rwaiters.contains (slotOf s.cur) then q.rwaiters else q.rwaiters ++ [slotOf s.cur] })

/-- QPOLL (R379). -/
def execQpoll (d a : Reg) (s : State) : Out :=
  let q := s.core s.myCore
  match (takeable q (slotOf s.cur)).bind fun i => (q.rcvq[i]?).map fun e => (i, e) with
  | some (i, e) => result 4 d 1 ((s.updCore s.myCore fun q => { q with rcvq := q.rcvq.eraseIdx i }).updMe fun x => x.takeMsg a e)
  | none => result 4 d 0 s

/-- QCNT (R377). -/
def execQcnt (d : Reg) (s : State) : Out :=
  result 4 d (BitVec.ofNat 64 ((s.core s.myCore).rcvq.filter fun e => e.slot = none || e.slot = some (slotOf s.cur)).length) s

/-- How a message meets its core (R378, R351, R355): delivered, refused for want of room, or no core of the partition. -/
inductive Delivery | ok (s : State) | full | noCore

/-- A message goes to a core's context buffer, when it has room (R351, R355). -/
def bufferMsg (s : State) (part c : Nat) (e : RcvEntry) (away : Bool) : Delivery :=
  match spillItem s part c (.rcv e) away with
  | some s1 => .ok s1
  | none => .full

/-- Whether a partition has left this device for another (R373, R421). -/
def partMoved (s : State) (p : Nat) : Bool := (s.part p).cfg.isNone || (s.part p).exported

/-- Deliver a message to a core of a partition (R378, R379): to the first slot that waits for it, else to the receive queue; behind
entries its slot has spilled, and while the partition is swapped out, it goes to the context buffer; what came while it was swapped out
returns with the partition, unless it stands behind entries that return at the slot's TRET (R351, R355). -/
def deliverMsg (s : State) (part c : Nat) (e : RcvEntry) : Delivery :=
  let mine := match (s.part part).cfg with | some g => (coreSet g).contains c | none => false
  if !mine || partMoved s part then .noCore
  else if s.partOf c = some part then
    let q := s.core c
    if e.slot.any (hasSpills q) then bufferMsg s part c e false else
    match q.rwaiters.find? fun t => e.slot = none || e.slot = some t with
    | some t =>
      match (s.slot (threadOf c t)).run with
      | .waiting (.receive a) =>
        .ok ((s.updSlot (threadOf c t) fun x => { (x.takeMsg a e).past 4 with run := .active }).updCore c fun q => { q with rwaiters := q.rwaiters.erase t })
      | _ => .full
    | none => if q.rcvq.length < 16 then .ok (s.updCore c fun q => { q with rcvq := q.rcvq ++ [e] }) else .full
  else
    match (s.cluster (clusterOf c)).shadow with
    | some (p, _) => if p != part then .full else bufferMsg s part c e (!((coreOfPart s part c).spills.any fun x => e.slot.isSome && x.item.slot = e.slot && !x.away))
    | none => .full

/-- The words of a queue message's packet. -/
def msgWords (p : Packet) : Vector Word 8 :=
  let b := p.flits.getD 0 0
  Vector.ofFn fun i => b.extractLsb' (64 * i.val) 64

/-- The packet of an injection entry of a core (R378). -/
def InjEntry.packet (e : InjEntry) (s : State) : Packet :=
  Machine.packet s 0 e.dev e.part false [e.dest, boolWord e.rel] [blkOf (e.w.toList.flatMap fun x => leBytes 8 x.toNat)]

/-- The first entry of a core's injection queue that satisfies a condition and may go: entries of one slot for one core go in order
(R211, R378). -/
def injFirst (q : Core) (f : InjEntry → Bool) : Option Nat :=
  (List.range q.injq.length).find? fun i =>
    match q.injq[i]? with
    | some e => f e && !((q.injq.take i).any fun f => f.slot = e.slot && destCore f.dest = destCore e.dest)
    | none => false

/-- The first entry of a core's injection queue that forms a packet for this device. -/
def injFor (s : State) (p : Packet) (q : Core) : Option Nat := injFirst q fun e => e.dev = s.devNum && e.packet s == p

/-- An injection entry for another device goes to the fabric as a lossless packet, when its pair has room (R374, R378). -/
def sendInjected (s : State) (c : Nat) : State :=
  let q := s.core c
  match (injFirst q fun e => e.dev != s.devNum && outstanding s e.dev false < 2 ^ 15).bind fun i => (q.injq[i]?).map fun e => (i, e) with
  | none => s
  | some (i, e) =>
    sendOp (s.updCore c fun x => { x with injq := x.injq.eraseIdx i })
      { dst := e.dev, part := e.part, thread := some (threadOf c e.slot), mine := s.partOf c, counted := true, rank := e.dest.toNat % 4096,
        job := jobOn s c, moved := e.moved, packets := [e.packet s] }

/-- A failed delivery within the device reaches the sender (R378, R383, R386). -/
def injFailed (s : State) (c slot kind : Nat) : State :=
  s.updSlot (threadOf c slot) fun x => { x with ff := x.ff - 1, remErr := x.remErr ++ [BitVec.ofNat 64 (kind * 2 ^ 32 + s.devNum % 2 ^ 10 * 2 ^ 16)] }

/-- A message of this device meets a core outside the core set of its partition, or a partition that has moved: at a first move the rank
is resolved again, once it no longer migrates (R373, R378). -/
def injRefused (s : State) (c i : Nat) (e : InjEntry) : State :=
  let gone (s : State) := s.updCore c fun x => { x with injq := x.injq.eraseIdx i }
  let r := rankEntry s (jobOn s c) (e.dest.toNat % 4096)
  if !partMoved s e.part then injFailed (gone s) c e.slot 3
  else if e.moved || rankSt r = 0 then injFailed (gone s) c e.slot 2
  else if rankSt r = 2 then s
  else s.updCore c fun x => { x with injq := x.injq.set i { e with moved := true, dev := rankDev r, part := rankPart r } }

/-- The entry a queue message leaves in a receive queue. -/
def rcvOf (p : Packet) : RcvEntry := { slot := destSlot (p.words.getD 0 0), w := msgWords p, rel := bitOf (p.words.getD 1 0) 0 }

/-- A message of another device at its port processor: delivered, buffered while its core has no room, or refused when 256 are
buffered (R380). -/
def fabricMessage (s : State) (p : Packet) (isNew : Bool) : State :=
  let c := destCore (p.words.getD 0 0)
  let port := 48 + c % 24
  match deliverMsg s p.part c (rcvOf p) with
  | .ok s1 => answerOp { s1 with qmsgs := s1.qmsgs.erase (port, p) } p (ackOf s1 p)
  | .noCore =>
    let moved := partMoved s p.part
    answerOp { s with qmsgs := s.qmsgs.erase (port, p) } p (failOf s p (if moved then 2 else 3) moved)
  | .full =>
    if s.qmsgs.contains (port, p) then s
    else if 256 ≤ (s.qmsgs.filter fun x => x.1 = port).length then (if isNew then emit s (answerTo s p 12 [512, 0]) else s)
    else { s with qmsgs := s.qmsgs ++ [(port, p)] }

/-- QUEUE_MESSAGE (R378, R380). -/
def execQueueMessage (p : Packet) (s : State) : Out :=
  if p.kind != 0 || p.dst != s.devNum then .next s
  else if p.src = s.devNum then
    match s.cores.find? fun q => (injFor s p q.2).isSome with
    | none => .next s
    | some q =>
      match (injFor s p q.2).bind fun i => (q.2.injq[i]?).map fun e => (i, e) with
      | none => .next s
      | some (i, e) =>
        let gone (s : State) := s.updCore q.1 fun x => { x with injq := x.injq.eraseIdx i }
        match deliverMsg (gone s) p.part (destCore e.dest) (rcvOf p) with
        | .ok s1 => .next (s1.updSlot (threadOf q.1 e.slot) fun x => { x with ff := x.ff - 1 })
        | .noCore => .next (injRefused s q.1 i e)
        | .full => .next s
  else if s.qmsgs.any fun x => x.2 = p then .next (fabricMessage s p false)
  else
    match seen s p with
    | .old => .next s
    | .again a => .next (emit s a)
    | .inWindow => .next (if s.qmsgs.any fun x => sameOp p x.2 then s else fabricMessage s p true)
    | .fresh => .next (fabricMessage (moveWindow s p) p true)

/-! ## Remote loads, stores and atomics (R381 to R383) -/

/-- Whether a reply tag of the current slot is not free. -/
def tagTaken (s : State) (tag : Option (Fin 8)) : Bool :=
  match tag with
  | some n => s.me.tags[n] != RTag.free
  | none => false

/-- The 64-byte blocks that an access touches. -/
def remoteBlocks (a : Word) (n : Nat) : List Nat := (pieces a n).map fun x => x.1.toNat / 64

/-- What RLD, RST and RATOM of n bytes check and wait for before they send (R382); the operation is addressed to the answer. -/
def remoteIssue (s : State) (rank addr : Word) (n align : Nat) (tag : Option (Fin 8)) (rel : Bool) : Res (Nat × Nat) :=
  (resolveRank s rank rank).andThen fun whom s =>
    if spaceOf addr != some .glb then .trap .illegalOperand addr s
    else if addr.toNat % align != 0 then .trap .misalign addr s
    else if tagTaken s tag then
      .trap .illegalOperand (match tag with | some n => BitVec.ofNat 64 n | none => 0) s
    else (if rel then remoteRelease s s.cur else .ok () s).andThen fun _ s =>
      if s.remOps.any fun o => o.thread = some s.cur && o.mine = s.partOf s.myCore && o.rank = rank.toNat && o.blks.any (remoteBlocks addr n).contains then
        .wait .inject s
      else if tag.isNone && 64 ≤ s.me.ff then .wait .inject s
      else .ok whom s

/-- Send a remote access of the current slot to n bytes (R382); the last word of its packet names the slot (log 31). -/
def remoteSend (n : Nat) (kind : Nat) (whom : Nat × Nat) (rank addr : Word) (tag : Option (Fin 8)) (acq : Bool) (words : List Word) (s : State) : Out :=
  let s1 := s.updMe fun x => match tag with
    | some k => { x with tags := x.tags.set k (.pending none acq) }
    | none => { x with ff := x.ff + 1 }
  done 12 (sendOp s1 { dst := whom.1, part := whom.2, thread := some s.cur, mine := s.partOf s.myCore, tag := tag, counted := tag.isNone,
                       rank := rank.toNat, job := jobOn s s.myCore, blks := remoteBlocks addr n,
                       packets := [packet s kind whom.1 whom.2 false (addr :: words ++ [BitVec.ofNat 64 s.cur]) []] })

/-- RLD (R382). -/
def execRld (tag : Fin 8) (sz : Size) (acq : Bool) (a b : Reg) (s : State) : Out :=
  (remoteIssue s (s.rd a) (s.rd b) (bytesOf sz) 1 (some tag) false).finish fun whom s =>
    remoteSend (bytesOf sz) 1 whom (s.rd a) (s.rd b) (some tag) acq [BitVec.ofNat 64 (bytesOf sz)] s

/-- RST (R382). -/
def execRst (sz : Size) (rel : Bool) (d a b : Reg) (s : State) : Out :=
  (remoteIssue s (s.rd a) (s.rd b) (bytesOf sz) 1 none rel).finish fun whom s =>
    remoteSend (bytesOf sz) 2 whom (s.rd a) (s.rd b) none false [BitVec.ofNat 64 (bytesOf sz), s.rd d, boolWord rel] s

/-- A remote atomic (R382). -/
def remoteAtom (tag : Fin 8) (code : Nat) (o : MemOrd) (x v : Word) (a b : Reg) (s : State) : Out :=
  let rel := o = .rel || o = .sc
  (remoteIssue s (s.rd a) (s.rd b) (atomWidth code) (atomWidth code) (some tag) rel).finish fun whom s =>
    remoteSend (atomWidth code) 3 whom (s.rd a) (s.rd b) (some tag) (o = .acq || o = .sc) [BitVec.ofNat 64 code, x, v, boolWord rel] s

/-- RATOM (R382). -/
def execRatom (op : AtomOp) (tag : Fin 8) (sz : Size) (o : MemOrd) (d a b : Reg) (s : State) : Out :=
  remoteAtom tag (atomCodeOf op sz) o (s.rd d) 0 a b s
/-- RATOM with x.cas (R382). -/
def execRatomCas (tag : Fin 8) (sz : Size) (o : MemOrd) (d a b : Reg) (s : State) : Out :=
  remoteAtom tag (casCodeOf sz) o (s.rd d) (s.rd (reg (d.val + 1))) a b s

/-- A REMOTE_ERROR is taken by a slot (R20, R21, R383): the one cause whose tr.cause.imp is 1. -/
def takeRemoteError (s : State) (t : Nat) (v : Word) : State :=
  match (s.slot t).fresh with
  | some f => die s t f
  | none => enterTrap s t .remoteError true v (s.slot t).pc

/-- RWAIT (R383). -/
def execRwait (d : Reg) (n : Fin 8) (s : State) : Out :=
  let free (s : State) : State := s.updMe fun x => { x with tags := x.tags.set n .free }
  match s.me.tags[n] with
  | .free => trap .illegalOperand (BitVec.ofNat 64 n) s
  | .pending _ _ => wait (.tag n) s
  | .ready v acq =>
    let s1 := free s
    result 4 d v (if acq then s1.updMe fun x => { x with acqFence := some .job } else s1)
  | .failed v => .next (takeRemoteError (free s) s.cur v)

/-! ## Bulk transfers (R387 to R389) -/

/-- A page's access for a bulk transfer at the home (R248, R253, R334 step 9): a read may not pass an append page's tail, whose first byte
not published is the faulting one; a protocol-8 page must be here, and of host memory the line of a read: that of a write is taken when its
bytes come (R389). -/
def bulkPart (s : State) (k : Kind) (p : Part1) : Res Part1 :=
  let later := k == .store && hostLine p.pa && !biasAway s p.pa
  if p.x.ok = 3 && k == .store then .trap .storeFault p.va s
  else match homeAdmits s p.pa (k == .store) with
    | .fail c => .trap (if c = .protocolFail then c else k.cause) p.va s
    | .hold => if later then .ok p s else .wait (.home (p.pa / 64)) (openHome s p.pa (k == .store) p.len)
    | .pass =>
      match (List.range p.len).find? fun i => k == .load && !belowTail s (p.pa + i, 1) with
      | some i => .trap .tailRead (p.va + BitVec.ofNat 64 i) s
      | none => .ok p s

/-- Bytes of a local store or of cluster memory that a transfer reads may not be poisoned (R434). -/
def poisonFree (s : State) (k : Kind) (va : Word) (bad : Option Nat) (tg : Target) : Res Target :=
  match bad with
  | some i => if k == .load then .trap .loadFault (va + BitVec.ofNat 64 i) s else .ok tg s
  | none => .ok tg s

/-- The local range of a bulk transfer, checked block by block in ascending order: where its bytes lie (R387 step 5). -/
def bulkPieces (s : State) (b : By) (k : Kind) : List (Word × Nat) → Res (List Target)
  | [] => .ok [] s
  | (va, n) :: l =>
    (Res.ofExcept (checkAddr s b.t k va n 1) s).andThen fun tg s =>
      (match tg with
        | .glb g => (translatePart s b k false g n).andThen fun p s => (bulkPart s k p).andThen fun p s => Res.ok (Target.glb (BitVec.ofNat 64 p.pa)) s
        | .ls o => poisonFree s k va (poisonAt s (lsBlk (agentOf b.t)) o n) tg
        | .cm o => poisonFree s k va (poisonAt s (cmBlk (clusterOf (agentOf b.t))) o n) tg).andThen fun x s => (bulkPieces s b k l).andThen fun r s => .ok (x :: r) s

/-- A block's bytes as a core sees them without asking for it: its own copy, else the home's (R389). -/
def coreBytes (s : State) (c pa n : Nat) : List Byte :=
  let blk := pa / 64
  if s.protoOf pa = 0 then blkBytes (directBlock s c blk) (pa % 64) n else
  match lineOf s c blk with
  | some l => if l.tag = some .readOnly || l.tag = some .writable then blkBytes l.data (pa % 64) n else homeBytes s pa n
  | none => homeBytes s pa n

/-- Bytes of a checked range, read for a core. -/
def bulkRead (s : State) (c : Nat) (x : Target × Nat) : List Byte :=
  match x.1 with
  | .ls o => (s.core c).ls.bytes o x.2
  | .cm o => (s.cluster (clusterOf c)).cmem.bytes o x.2
  | .glb p => coreBytes s c p.toNat x.2

/-- Key of a local store's byte, or of cluster memory's, among the pieces of a bulk read: above every physical address. -/
def localKey (x : Target) : Nat :=
  match x with
  | .ls o => 2 ^ 53 + o
  | .cm o => 2 ^ 54 + o
  | .glb p => p.toNat

/-- Bytes of a bulk read written to the local range, through its tags and protocols (R389); a line that its home took from the host for them
goes back (R399), and a block written whole is poisoned no more (R434). -/
def bulkWrite (s : State) (c slot key : Nat) (l : List Byte) : State :=
  if 2 ^ 54 ≤ key then
    unpoisonIn (s.updCluster (clusterOf c) fun k => { k with cmem := k.cmem.wrBytes (key - 2 ^ 54) l }) (cmBlk (clusterOf c)) (key - 2 ^ 54) l.length
  else if 2 ^ 53 ≤ key then
    unpoisonIn (s.updCore c fun q => { q with ls := q.ls.wrBytes (key - 2 ^ 53) l }) (lsBlk c) (key - 2 ^ 53) l.length
  else
    let blk := key / 64
    let mask := ~~~(maskRange (key % 64) l.length)
    let s1 := if s.protoOf key != 0 then s else
      match lineOf s c blk with
      | some x => setLine s c blk (some { x with data := blkPut x.data (key % 64) l, written := x.written &&& mask })
      | none => s
    let s2 := releaseHost (homeWrite s1 key l (writerOf s c slot)) true key
    if l.length = 64 then unpoison s2 blk else s2

/-- The packets of a message of kind 6 or 8: 4 KiB each, and a last one of the remainder (R388). -/
def bulkPackets (s : State) (kind dst part own : Nat) (reply : Bool) (words : List Word) (b : List Byte) : List Packet :=
  (List.range ((b.length + 4095) / 4096)).map fun i =>
    let l := (b.drop (4096 * i)).take 4096
    { packet s kind dst part reply words ((List.range ((l.length + 63) / 64)).map fun j => blkOf ((l.drop (64 * j)).take 64)) with
      drop := true, own := own, off := 4096 * i, tot := b.length }

/-- The checks of a bulk transfer's issue, in order (R387). -/
def bulkIssue (s : State) (k : Kind) (d a b c : Reg) (tag : Option (Fin 8)) : Res ((Nat × Nat) × List (Target × Nat)) :=
  let len := s.rd c
  (resolveRank s (s.rd a) (s.rd a)).andThen fun whom s =>
    if len = 0 || 2 ^ 20 < len.toNat then .trap .illegalOperand len s
    else if spaceOf (s.rd b) != some .glb then .trap .illegalOperand (s.rd b) s
    else if tagTaken s tag then
      .trap .illegalOperand (match tag with | some n => BitVec.ofNat 64 n | none => 0) s
    else
      let l := pieces (s.rd d) len.toNat
      (lsFirst s s.cur (s.rd d)).andThen fun _ s => (bulkPieces s (s.by ⟨.rlx, .pkg, 4⟩) k l).andThen fun x s =>
        if tag.isNone && 64 ≤ s.me.ff then .wait .inject s else .ok (whom, x.zip (l.map fun (y : Word × Nat) => y.2)) s

/-- The owning port processor's number among the ports (R388). -/
def ownPort (c : Nat) : Nat := c % 24

/-- BULK.WR (R387, R388). -/
def execBulkWr (tag : Option (Fin 8)) (d a b c : Reg) (s : State) : Out :=
  (bulkIssue s .load d a b c tag).finish fun x s =>
    let (whom, l) := x
    let bytes := l.flatMap (bulkRead s s.myCore)
    let back := l.filterMap fun (x : Target × Nat) => match x.1 with | .glb p => some (p.toNat, x.2) | _ => none
    let s1 := (releaseLines s back false).updMe fun x => match tag with
      | some k => { x with tags := x.tags.set k (.pending (some (s.rd c)) false) }
      | none => { x with ff := x.ff + 1 }
    done 12 (sendOp s1 { dst := whom.1, part := whom.2, thread := some s.cur, mine := s.partOf s.myCore, tag := tag, counted := tag.isNone,
                         len := some (s.rd c), rank := (s.rd a).toNat, job := jobOn s s.myCore,
                         packets := bulkPackets s 6 whom.1 whom.2 (ownPort s.myCore) false [s.rd b, BitVec.ofNat 64 s.cur] bytes })

/-- BULK.RD (R387, R388). -/
def execBulkRd (tag : Fin 8) (d a b c : Reg) (s : State) : Out :=
  (bulkIssue s .store d a b c (some tag)).finish fun x s =>
    let (whom, l) := x
    let s1 := s.updMe fun x => { x with tags := x.tags.set tag (.pending (some (s.rd c)) false) }
    done 12 (sendOp s1 { dst := whom.1, part := whom.2, thread := some s.cur, mine := s.partOf s.myCore, tag := some tag, len := some (s.rd c),
                         rank := (s.rd a).toNat, job := jobOn s s.myCore, pieces := l.map fun y => (localKey y.1, y.2),
                         packets := [{ packet s 7 whom.1 whom.2 false [s.rd b, s.rd c] [] with own := ownPort s.myCore }] })

/-- The bytes of a data packet: whole flits, cut at the message's end (R370, R388). -/
def packetBytes (p : Packet) : List Byte := (p.flits.flatMap fun f => blkBytes f 0 64).take (p.tot - p.off)

/-- The reassembly entry of an operation at its processor 48 + (number mod 24) (R376). -/
def reasmOf (s : State) (p : Packet) : Option Reasm := (s.proc (48 + p.seq % 24)).reasm.find? fun r => r.dev = p.src && r.lane = p.reply && r.seq = p.seq

/-- Put a reassembly entry in place of the one of its operation, or drop it. -/
def setReasm (s : State) (p : Packet) (r : Option Reasm) : State :=
  s.updProc (48 + p.seq % 24) fun q => { q with reasm := (q.reasm.filter fun x => !(x.dev = p.src && x.lane = p.reply && x.seq = p.seq)) ++ r.toList }

/-- The reservations whose window is open (R388). -/
def openGrants (s : State) : List (Packet × Nat) := s.reserved.filter fun x => s.time ≤ x.2

/-- Whether a packet's operation has a reservation whose window is open: it holds an entry for the operation (R376, R388). -/
def hasGrant (s : State) (p : Packet) : Bool := (openGrants s).any fun x => sameOp p x.1

/-- The reassembly entries in use at the processor of a packet: those of operations that have begun, and those that reservations hold
for operations that have not (R376). -/
def entriesUsed (s : State) (p : Packet) : Nat :=
  (s.proc (48 + p.seq % 24)).reasm.length +
    (((openGrants s).filter fun x => x.1.seq % 24 = p.seq % 24 && (reasmOf s x.1).isNone).map fun x => (x.1.src, x.1.reply, x.1.seq)).eraseDups.length

/-- Room for a packet in the reassembly entries of its processor (R376): an entry of its operation's own, held or reserved, or a free
one; a message of one packet needs none. -/
def reasmRoom (s : State) (p : Packet) : Bool :=
  p.tot ≤ 4096 || (reasmOf s p).isSome || hasGrant s p || entriesUsed s p < 256

/-- A packet that finds no room: a droppable one is dropped with a notice, a resend is refused (R376, R388). -/
def noReasm (s : State) (p : Packet) : State :=
  if p.drop then dropped s p else notice s p 12 [0, boolWord p.reply]

/-- The bits of the flits that a packet's bytes fill (R376). -/
def flitBits (p : Packet) : Nat := (2 ^ p.flits.length - 1) * 2 ^ (p.off / 64)

/-- A packet no longer waits at the target. -/
def arrivedAt (s : State) (p : Packet) : State := { s with atTarget := s.atTarget.filter fun q => !(sameOp p q && p.off = q.off) }

/-- A data packet whose number may be applied: its bytes go to their place and its entry counts them (R376). `write` performs them;
`finish` completes the operation. A packet whose bytes are held, or wait to be performed, is discarded (R374); one that waits has its
operation's entry. -/
def reassemble (s : State) (p : Packet) (write : State → List Byte → AtTarget Unit) (finish : State → State) : State :=
  if !reasmRoom s p then noReasm s p else
  let b := packetBytes p
  let r := (reasmOf s p).getD { part := p.part, dev := p.src, lane := p.reply, seq := p.seq, tot := p.tot }
  if r.flits &&& flitBits p != 0 then arrivedAt s p else
  match write s b with
  | .waits s1 => waitAtTarget (if p.tot ≤ 4096 then s1 else setReasm s1 p (some r)) p
  | .fails k m s1 => answerOp (setReasm (leaveTarget s1 p) p none) p (failOf s1 p k m)
  | .ok _ s1 =>
    let r1 := { r with count := r.count + b.length, flits := r.flits ||| flitBits p }
    if r1.tot ≤ r1.count then finish (setReasm (leaveTarget s1 p) p none) else setReasm (arrivedAt s1 p) p (some r1)

/-- A data packet arrives (R374, R376). -/
def dataEvent (s : State) (p : Packet) (kind : Nat) (apply : State → State) : Out :=
  if p.kind = kind && s.atTarget.contains p then .next (apply s) else
  match arrived s p kind with
  | none => .next s
  | some s1 =>
    match seen s1 p with
    | .old => .next s1
    | .again a => .next (emit s1 a)
    | .inWindow => .next (if s1.atTarget.any fun q => sameOp p q && p.off = q.off then s1 else apply s1)
    | .fresh => .next (apply (moveWindow s1 p))

/-- BULK_WRITE_DATA (R376, R388): performed at its destination in the target partition. -/
def execBulkWriteData (p : Packet) (s : State) : Out :=
  dataEvent s p 6 fun s =>
    reassemble s p
      (fun s b => match targetPieces s p.part .store (pieces (p.words.getD 0 0 + BitVec.ofNat 64 p.off) b.length) with
        | .ok l s => .ok () (releaseLines (writePieces s (packetWriter p 1) l b) l true)
        | .waits s => .waits s
        | .fails k m s => .fails k m s)
      fun s => answerOp s p (ackOf s p)

/-- BULK_READ_REQUEST (R388): the data goes back as bulk read data, under the request's number on the reply lane. -/
def execBulkReadRequest (p : Packet) (s : State) : Out :=
  let go (s : State) : State :=
    if s.remOps.any fun o => o.reply && o.dst = p.src && o.seq = p.seq && o.sent then s else
    match targetPieces s p.part .load (pieces (p.words.getD 0 0) (p.words.getD 1 0).toNat) with
    | .waits s1 => waitAtTarget s1 p
    | .fails k m s1 => answerOp (leaveTarget s1 p) p (failOf s1 p k m)
    | .ok l s1 =>
      if !l.all (belowTail s1) then answerOp (leaveTarget s1 p) p (failOf s1 p 1 false) else
      let ps := (bulkPackets s1 8 p.src p.part p.own true [p.words.getD 0 0] (readPieces s1 l)).map fun q => { q with seq := p.seq }
      let s1 := releaseLines s1 l false
      let o : RemOp := { dst := p.src, reply := true, seq := p.seq, part := p.part, packets := ps, sent := true, sentAt := s1.time }
      ps.foldl emit (leaveTarget { s1 with remOps := s1.remOps ++ [o] } p)
  if p.kind = 7 && s.atTarget.contains p then .next (go s) else
  match arrived s p 7 with
  | none => .next s
  | some s1 =>
    match seen s1 p with
    | .old => .next s1
    | .again a => .next (emit s1 a)
    | .inWindow => .next (if s1.atTarget.any (sameOp p) then s1 else go s1)
    | .fresh => .next (go (moveWindow s1 p))

/-- Bytes of a message written to pieces of the local range from an offset. -/
def writeLocal (s : State) (c slot : Nat) (off : Nat) (b : List Byte) : List (Nat × Nat) → Nat → State
  | [], _ => s
  | (key, n) :: l, at' =>
    let lo := Nat.max off at'
    let hi := Nat.min (off + b.length) (at' + n)
    let s1 := if hi ≤ lo then s else bulkWrite s c slot (key + (lo - at')) ((b.drop (lo - off)).take (hi - lo))
    writeLocal s1 c slot off b l (at' + n)

/-- Whether the local range of a bulk read of a core takes bytes now: its blocks' homes admit them, or a page or a line must first come, or
one refuses; a scratchpad whose split is being written is waited for (R96, R389). -/
def localAdmits (s : State) (c off n : Nat) : List (Nat × Nat) → Nat → AtTarget Unit
  | [], _ => .ok () s
  | (key, k) :: l, at' =>
    if at' + k ≤ off || off + n ≤ at' then localAdmits s c off n l (at' + k)
    else if 2 ^ 53 ≤ key then (if key < 2 ^ 54 && lsBusy s c then .waits s else localAdmits s c off n l (at' + k)) else
    match homeAdmits s key true with
    | .fail c => .fails (if c = .protocolFail then 6 else 1) false s
    | .hold => .waits (openHome s key true k)
    | .pass => localAdmits s c off n l (at' + k)

/-- BULK_READ_DATA (R389): the bytes go to the local range; when all have, the tag is ready and the sender hears of it. -/
def execBulkReadData (p : Packet) (s : State) : Out :=
  match s.remOps.find? fun o => o.sent && !o.reply && o.dst = p.src && o.seq = p.seq && !o.pieces.isEmpty with
  | none => dataEvent s p 8 id
  | some o =>
    let t := o.thread.getD 0
    dataEvent s p 8 fun s =>
      reassemble s p (fun s b => match localAdmits s (agentOf t) p.off b.length o.pieces 0 with
          | .ok _ s => .ok () (writeLocal s (agentOf t) (slotOf t) p.off b o.pieces 0)
          | r => r)
        fun s => answerOp (finishOp (opDone s o 0) o) p (ackOf s p)

/-- The operation of this device whose packet a notice or a grant names: the lane is word 0 (log 31). -/
def noticedOp (s : State) (p : Packet) : Option (RemOp × Packet) :=
  (opOf s p.src (bitOf (p.words.getD 0 0) 0) p.seq).bind fun o => (o.packets.find? fun q => q.off = p.off).map fun q => (o, q)

/-- DROP_NOTICE (R371, R388): the sender asks the receiver for a reservation. A notice may come from any device on the way. -/
def execDropNotice (p : Packet) (s : State) : Out :=
  match arrived s p 9 with
  | none => .next s
  | some s1 =>
    match (opOf s1 (p.words.getD 3 0).toNat (bitOf (p.words.getD 0 0) 0) p.seq).filter fun o => o.packets.any fun q => q.off = p.off && q.own = p.own && q.drop with
    | none => .next s1
    | some o =>
      match o.packets.find? fun q => q.off = p.off with
      | none => .next s1
      | some q =>
        .next (emit s1 { packet s1 10 o.dst o.part o.reply [BitVec.ofNat 64 (64 * q.flits.length)] [] with seq := o.seq, off := q.off, tot := q.tot, own := q.own })

/-- A reservation is granted (R388). -/
def grantReservation (s : State) (p : Packet) : State :=
  let g := { answerTo s p 11 [boolWord p.reply, p.words.getD 0 0, 0, 20000] with off := p.off }
  emit { leaveTarget s p with reserved := openGrants s ++ [(p, s.time + 20000)] } g

/-- RESERVATION_REQUEST (R376, R388): the reassembly processor reserves an entry, for 20,000 cycles from the start, which is the grant's issue
(log 90); a request that finds none free waits for one (log 75). -/
def execReservationRequest (p : Packet) (s : State) : Out :=
  let go (s : State) : State :=
    if (reasmOf s p).isSome || hasGrant s p || entriesUsed s p < 256 then grantReservation s p else waitAtTarget s p
  if p.kind = 10 && s.atTarget.contains p then .next (go s) else
  match arrived s p 10 with
  | none => .next s
  | some s1 => .next (go s1)

/-- RESERVATION_GRANT (R388): the packet is resent at its start. -/
def execReservationGrant (p : Packet) (s : State) : Out :=
  match arrived s p 11 with
  | none => .next s
  | some s1 =>
    match noticedOp s1 p with
    | none => .next s1
    | some (o, q) => .next (updRemOp s1 o fun x => { x with granted := put q.off (s1.time + (p.words.getD 2 0).toNat) x.granted })

/-- RESERVED_RESEND (R388). -/
def execReservedResend (k : Nat) (s : State) : Out :=
  match s.remOps[k]? with
  | none => .next s
  | some o =>
    match o.granted with
    | [] => .next s
    | (off, at') :: _ =>
      let s1 := { s with time := Nat.max s.time at' }
      let s2 := updRemOp s1 o fun x => { x with granted := drop off x.granted }
      match o.packets.find? fun q => q.off = off with
      | none => .next s2
      | some q => .next (emit s2 { q with drop := false })

/-! ## Ranks (R394) -/

/-- RANK.ME (R394). -/
def execRankMe (d : Reg) (s : State) : Out :=
  let p := (s.partOf s.myCore).getD 0
  let r := s.ranks.find? fun x => x.1 / 4096 = jobOn s s.myCore && rankSt x.2 = 1 && rankDev x.2 = s.devNum && rankPart x.2 = p
  result 4 d (BitVec.ofNat 64 (s.devNum + p * 2 ^ 10 + (match r with | some x => x.1 % 4096 * 2 ^ 16 + 2 ^ 28 | none => 0))) s

/-- RANK.RD (R394). -/
def execRankRd (d a : Reg) (s : State) : Out :=
  if 4096 ≤ (s.rd a).toNat then trap .illegalOperand (s.rd a) s
  else result 4 d ((rankEntry s (jobOn s s.myCore) (s.rd a).toNat).setWidth 64) s

/-! ## REMOTE_ERROR (R383) -/

/-- REMOTE_ERROR_TAKE (R383): at the next instruction boundary in U mode, or at a wait for remote operations. -/
def execRemoteErrorTake (t : Nat) (s : State) : Out :=
  let x := s.slot t
  match x.remErr with
  | [] => .next s
  | v :: l =>
    let at' := x.run == .waiting .remotes || x.run == .waiting .partDone
    if onCore t && (at' || (x.run == .active && x.mode = .u)) then
      .next (enterTrap (s.setSlot t { x with remErr := l }) t .remoteError true v x.pc)
    else .next s

end Sys2Proof.Machine
end

