-- ==== Sys2Proof/Machine/Home.lean ====
section
/-! DEFINITION. The home's side of coherence (spec/09): multicasts, the standard protocols (R233, R234), append
pages (spec/10 R248 to R258), page gates of the host link and the fabric (spec/18 R403 to R406, spec/17 R390, R391), dispatch
(R221, R222, R231, R232, R439) and the events of messages that reach a home. -/

namespace Sys2Proof.Machine

/-! ## Sending from a home -/

/-- Whether an agent number names a core or a protocol processor (R216). -/
def isAgent (a : Nat) : Bool := a < 0x84D

/-- Send a message to an agent of this device; one that names no agent, or another device, meets no receiver (R215, log 32). -/
def sendTo (s : State) (m : Msg) (dev : Nat) : State := if isAgent m.dst && dev = s.devNum then s.post m else s

/-- A reply to a requester word, with the header the hardware builds (R220, R236). -/
def replyReq (s : State) (p req addr type : Nat) (w2 : Word) (flit : Option Block) : State :=
  let a := req % 2 ^ 12
  sendTo s { src := procAgent p, dst := a, flit := flit,
             w := #v[header type true (req / 2 ^ 12) a (req / 2 ^ 24) (req / 2 ^ 16) 0 0, BitVec.ofNat 64 (addr / 64 * 64), w2, 0, 0, 0, 0, 0] }
    (req / 2 ^ 24 % 2 ^ 10)

/-- A reply to the sender of a message. -/
def replyTo (s : State) (p : Nat) (m : Msg) (type : Nat) (w2 : Word) (flit : Option Block) : State :=
  replyReq s p m.requester m.addr type w2 flit

/-- A number no multicast of the machine uses, nor a BISnpInv that the host has to answer. -/
def freshMcast (s : State) : Nat :=
  let snp := s.hostOps.foldl (fun n o => match o with | .birsp k _ _ _ => Nat.max n k | _ => n) 0
  1 + Nat.max snp (s.net.foldl (fun n m => Nat.max n (m.mc.getD 0)) (s.mcasts.foldl (fun n x => Nat.max n x.1) 0))

/-- Multicast a message to holders; their answers combine into one INV_ACK to the sender (R239). A protocol processor holds no line
and answers held = 0 at once (log 32). `writer` is the thread whose merged write the message tells of (R234). -/
def multicast (s : State) (p : Nat) (w : Vector Word 8) (flit : Option Block) (targets : List Nat) (writer : Option Nat := none) : Nat × State :=
  let k := freshMcast s
  let cores := targets.filter (· < 0x800)
  let s1 := cores.foldl (fun s t => s.post { src := procAgent p, dst := t, w := w, flit := flit, mc := some k }) s
  let addr := (w[1]).toNat
  if targets.isEmpty then (k, s)
  else if cores.isEmpty then (k, s1.post (mkMsg s1 (procAgent p) 0 (procAgent p) Ty.invAck 0 addr 0 0 0 none (some k)))
  else (k, { s1 with mcasts := put k { home := procAgent p, addr := addr, left := cores, writer := writer } s1.mcasts })

/-- The words of a forwarded request of the home. -/
def forwardWords (s : State) (p type addr : Nat) (w2 : Word) : Vector Word 8 := (mkMsg s (procAgent p) 0 0 type 0 (addr / 64 * 64) w2 0 0 none none).w

/-- Send RECALL to a holder (R237). -/
def recallTo (s : State) (p o addr keep : Nat) : State :=
  if o < 0x800 then s.post { src := procAgent p, dst := o, w := forwardWords s p Ty.recall addr (BitVec.ofNat 64 keep) } else s

/-! ## One message at a home -/

/-- What a standard handler works on: the processor, the region with its index, the message and the entry's address. -/
structure Job where
  p : Nat
  idx : Nat
  rg : BitVec 256
  m : Msg
  ea : Nat

/-- How a standard handler ends: with the entry it writes, or in an abort (R228). -/
inductive HEnd
  | ok (e : De) (s : State)
  | abort (cause : Cause) (s : State)

/-- The block of a job. -/
def Job.pa (j : Job) : Nat := j.m.blk * 64
/-- The sender of a job's message. -/
def Job.who (j : Job) : Nat := j.m.src % 2 ^ 12

/-- Change the pending request of an entry (R219, log 12). -/
def setPend (s : State) (j : Job) (m : Option Msg) : State :=
  s.updProc j.p fun q => { q with pend := match m with | some x => put j.ea x q.pend | none => drop j.ea q.pend }

/-- The pending request of an entry. -/
def pendOf (s : State) (j : Job) : Option Msg := look j.ea (s.proc j.p).pend

/-- A whole block written at its home, as a put or a write-back brings it (R233). -/
def putBlock (s : State) (j : Job) : State :=
  dirtyFrame (s.updMem fun m => m.wrBlock j.pa (j.m.flit.getD 0)) j.pa

/-- The bytes under a mask of every PUSH of a block that a core has still to take are not taken: what the core has or is about to get is
newer (R189, log 33). -/
def maskPushes (s : State) (c blk : Nat) (mask : BitVec 64) : State :=
  let f (m : Msg) : Msg := if m.dst = c && m.type = Ty.push && m.blk = blk then { m with w := m.w.set 2 (m.w[2] &&& ~~~mask) } else m
  let s1 := { s with net := s.net.map f }
  if (s1.core c).held.isEmpty then s1 else s1.updCore c fun q => { q with held := q.held.map f }

/-- The bytes of every PUTP of a block that is still on its way from a core are not merged: the home has newer bytes of the core (R189,
log 33). -/
def maskPuts (s : State) (c blk : Nat) : State :=
  { s with net := s.net.map fun m => if m.src = c && m.type = Ty.putp && m.blk = blk then { m with w := m.w.set 2 0 } else m }

/-- A core is given a block as its home has it: no older PUSH may reach it, and it has seen the writes that are still being told to other
holders (R189, R194). -/
def givenBlock (s : State) (c blk : Nat) : State :=
  let s1 := maskPushes s c blk (BitVec.allOnes 64)
  { s1 with mcasts := s1.mcasts.map fun x => if x.2.writer.isSome && x.2.addr / 64 = blk then (x.1, { x.2 with seen := x.2.seen ++ [c] }) else x }

/-- Grant a block read-only with its data. -/
def grantS (s : State) (j : Job) (m : Msg) : State :=
  replyTo (givenBlock s (m.src % 2 ^ 12) m.blk) j.p m Ty.dataS 0 (some (s.mem.block (m.blk * 64)))

/-- A writable grant, recorded at the port (R201): with data, or of a tag alone. -/
def grantX (s : State) (j : Job) (m : Msg) (data : Bool) : State :=
  let s1 := tracePort s j.p (m.blk * 64) 1 m.src m.slot true
  if data then replyTo (givenBlock s1 (m.src % 2 ^ 12) m.blk) j.p m Ty.dataX 0 (some (s1.mem.block (m.blk * 64))) else replyTo s1 j.p m Ty.ack 2 none

/-- An atomic applied at its home, with its RESULT (R176, R233); of a poisoned block it fails (R434). -/
def applyAtom (s : State) (p : Nat) (m : Msg) : State :=
  if poisonedBlk s m.blk then failReply s p m .storeFault else
  let code := (m.w[2]).toNat
  let (old, mem) := atomMem s.mem m.addr code m.w[3] m.w[4]
  let s1 := dirtyFrame (tracePort { s with mem := mem } p m.addr (atomWidth code) m.src m.slot false) m.addr
  replyTo s1 p m Ty.result (BitVec.ofNat 64 old) none

/-! ## Invalidate, migratory and write-once (R233, R234) -/

/-- Ask the host for a line (R399); the entry stays transient until its data and GO. -/
def askHost (s : State) (pa : Nat) (excl : Bool) (m : Option Msg) : State :=
  { s with hostOps := s.hostOps ++ [.rd pa excl m], hostOut := s.hostOut ++ [if excl then .rdOwn pa else .rdShared pa] }

/-- Grant what a request asks for when no other copy stands in its way: the entry after it (R233). `read` says that it is a plain
read, as GETS is but under migratory. -/
def grantFree (s : State) (j : Job) (e : De) (m : Msg) (read : Bool) (listed : Bool) : De × State :=
  if m.type = Ty.atom then (deState e (if deShared e then 1 else 0) false, evictHost (applyAtom s j.p m) j.pa true)
  else if read then (deState (deAdd e (m.src % 2 ^ 12)) 1 false, grantS s j m)
  else (deState (deSetOwn (deClear e) (some (m.src % 2 ^ 12))) 2 false, grantX s j m (!(listed && m.type = Ty.upg)))

/-- A snoop that waits for a transient step of its line to end (R400). -/
def waitingSnoop (s : State) (pa : Nat) : Option Take :=
  s.takes.find? fun t => t.pa = pa && t.mc.isNone && !t.answered && (t.why == .snpInv || t.why == .snpData || t.why == .snpCur)

/-- The step has taken a line's copies back: a snoop that waits is answered from the state before it, in which a writable copy made the block
the device's (R400). -/
def tellSnoop (s : State) (pa : Nat) (wasExc : Bool) : State :=
  match waitingSnoop s pa with
  | none => s
  | some t => { s with takes := s.takes.map fun x => if x = t then { t with data := if wasExc then some (s.mem.block pa) else none, held := true } else x }

/-- Finish the pending request of an entry whose copies have been taken back (R233). `kept` is an old owner that keeps a read-only
copy; `wasExc` says that the block was held writable; under write-once the block is then final (R234). Of a line that a waiting snoop takes
from the device, no eviction follows, and the request asks the host again for what the snoop does not leave (R399, R400). -/
def finishPending (s : State) (j : Job) (e : De) (kept : Option Nat) (wasExc once : Bool) : De × State :=
  let e1 := deSetOwn (deClear e) none
  match pendOf s j with
  | none => (deState e1 0 false, s)
  | some m =>
    let snoop := if hostLine j.pa then (waitingSnoop s j.pa).map (·.why) else none
    let s1 := tellSnoop (setPend s j none) j.pa wasExc
    let e2 := dePending e1 0 0
    if once && wasExc then
      (deState e2 7 false, if m.type = Ty.gets then grantS s1 j m else failReply s1 j.p m .storeFault)
    else
      let read := deKind e = 0
      let keep (e : De) : De := match kept with | some o => deAdd e o | none => e
      let gone := snoop = some .snpInv || (!read && snoop = some .snpData)
      if hostLine j.pa && ((read && snoop != some .snpData) || !wasExc || gone) then
        let e3 := keep e2
        (deState e3 (if deShared e3 then 1 else 0) true, askHost (if wasExc && !gone then evictHost s1 j.pa true else s1) j.pa (!read) (some m))
      else
        let (e3, s2) := grantFree s1 j e2 m read false
        (keep e3, s2)

/-- Invalidate (R233), migratory (`mig`) and write-once (`once`) (R234). -/
def stdHandler (mig once : Bool) (s : State) (j : Job) : HEnd :=
  let e := s.entry j.ea
  let a := j.who
  let t := j.m.type
  let st := deSt e
  let owner := deOv e && deOwn e = a
  let read := t = Ty.gets && !mig
  let kind := if read then 0 else if t = Ty.atom then 2 else 1
  let pending (e : De) : De := dePending e kind j.m.requester
  if t = Ty.putx && owner && (st = 2 || st = 4 || st = 6) then
    let s1 := putBlock s j
    if st = 4 then .ok (deState e 5 true) s1
    else if st = 6 then
      let kept := match pendOf s j with | some m => if (m.w[7] != 0) && deKind e = 0 then some a else none | none => none
      let (e1, s2) := finishPending s1 j e kept true once
      .ok e1 s2
    else
      let e1 := deSetOwn e none
      let keep := bitOf j.m.w[2] 0
      if once then .ok (deState e1 7 false) s1
      else if keep then
        (if hostLine j.pa then .ok (deState (deAdd e1 a) 1 true) (askHost (evictHost s1 j.pa true) j.pa false none)
         else .ok (deState (deAdd e1 a) 1 false) s1)
      else .ok (deState e1 0 false) (evictHost s1 j.pa true)
  else if t = Ty.puts && (st = 1 || st = 3) then
    let e1 := deDel e a
    .ok (if st = 1 && !deShared e1 then deState e1 0 (deTr e) else e1) s
  else if t = Ty.putx || t = Ty.puts then .ok e s
  else if t = Ty.gets || t = Ty.getx || t = Ty.upg || t = Ty.atom then
    if st = 7 then .ok e (if t = Ty.gets then grantS s j j.m else failReply s j.p j.m .storeFault)
    else if st = 2 then
      (if owner then .abort .illegalOperand s
       else .ok (deState (pending e) 4 true) (recallTo (setPend s j (some j.m)) j.p (deOwn e) j.pa (bit read)))
    else
      let targets := if st = 1 && !read then deHolders e a else []
      if !targets.isEmpty then
        .ok (deState (pending e) 3 true)
          (multicast (setPend s j (some j.m)) j.p (forwardWords s j.p Ty.inv j.pa 0) none targets).2
      else if hostLine j.pa && !(read && st = 1) then
        .ok (deState (pending e) st true) (askHost s j.pa (!read) (some j.m))
      else
        let (e1, s1) := grantFree s j (if read then e else deClear e) j.m read (st = 1 && deListed e a)
        .ok e1 s1
  else if t = Ty.wbData then
    if st = 4 then
      let (e1, s1) := finishPending (putBlock s j) j e (if deKind e = 0 then some (deOwn e) else none) true once
      .ok e1 s1
    else .ok e s
  else if t = Ty.invAck then
    let held := bitOf j.m.w[2] 0
    if st = 3 then
      let (e1, s1) := finishPending s j (deClear e) none false once
      .ok e1 s1
    else if st = 4 then
      .ok (deState e 6 true) (match pendOf s j with | some m => setPend s j (some { m with w := m.w.set 7 (boolWord held) }) | none => s)
    else if st = 5 then
      let (e1, s1) := finishPending s j e (if held && deKind e = 0 then some (deOwn e) else none) true once
      .ok e1 s1
    else .ok e s
  else .abort .illegalOp s

/-! ## Update, producer-push and reduction (R234) -/

/-- A merge's news goes to other holders, with the thread whose write it tells of; an acknowledgement that waits for their answers is kept
(R234, log 33). -/
def tellHolders (s : State) (j : Job) (type : Nat) (w2 : Word) (targets : List Nat) (writer : Nat) (due : Option Msg) : State :=
  if targets.isEmpty then s else
  let (k, s1) := multicast s j.p (forwardWords s j.p type j.pa w2) (if type = Ty.push then some (s.mem.block j.pa) else none) targets (some writer)
  s1.updProc j.p fun q => { q with pushes := put k due q.pushes }

/-- The thread that sent a job's message. -/
def Job.thread (j : Job) : Nat := threadOf j.m.src j.m.slot

/-- Whether a multicast's answer is one that a merge waits for; the writer it then acknowledges. -/
def pushedBy (s : State) (j : Job) : Option (Option Msg) := j.m.mc.bind fun k => look k (s.proc j.p).pushes

/-- The combined answer to a merge arrives (R234). -/
def pushAnswered (s : State) (j : Job) : State :=
  match pushedBy s j, j.m.mc with
  | some w, some k =>
    let s1 := s.updProc j.p fun q => { q with pushes := drop k q.pushes }
    match w with
    | some m => replyTo s1 j.p m Ty.ack 0 none
    | none => s1
  | _, _ => s

/-- A PUTP merged at memory: under rg.op in a reduction region, replacement elsewhere; recorded at the port (R234, R240, R201). -/
def mergePut (s : State) (j : Job) (reduce : Bool) : State :=
  let mask : BitVec 64 := j.m.w[2]
  let b := j.m.flit.getD 0
  let old := s.mem.block j.pa
  let on := (List.range 64).filter fun i => mask.getLsbD i
  let s1 := s.updMem fun m => m.wrBlock j.pa (if reduce then redMerge (rgOp j.rg) old b mask else blkMerge old b mask)
  let s2 := maskPushes s1 j.m.src j.m.blk mask
  match on with
  | [] => s2
  | i :: _ => tracePort s2 j.p (j.pa + i) on.length j.m.src j.m.slot false

/-- Whether some merge of an entry still waits for its answers. -/
def pushing (s : State) (j : Job) : Bool :=
  (s.proc j.p).pushes.any fun x => match x.2 with | some m => m.blk = j.m.blk | none => false

/-- Update, protocol 2 (R234). -/
def updateHandler (s : State) (j : Job) : HEnd :=
  let e := s.entry j.ea
  let a := j.who
  let t := j.m.type
  if t = Ty.gets || t = Ty.getx || t = Ty.upg then .ok (deState (deAdd e a) 1 false) (grantX s j j.m true)
  else if t = Ty.putp then
    let s1 := mergePut s j false
    let targets := deHolders e a
    .ok (if targets.isEmpty then e else deState e (deSt e) true) (tellHolders s1 j Ty.push j.m.w[2] targets j.thread (some j.m))
  else if t = Ty.atom then
    let s1 := applyAtom s j.p j.m
    .ok e (tellHolders s1 j Ty.push (maskRange (j.m.addr % 64) (atomWidth (j.m.w[2]).toNat)) (deHolders e a) j.thread none)
  else if t = Ty.puts then
    let e1 := deDel e a
    .ok (if deShared e1 then e1 else deState e1 0 (deTr e1)) s
  else if t = Ty.putx then .ok e s
  else if t = Ty.invAck then
    let s1 := pushAnswered s j
    .ok (deState e (deSt e) (pushing s1 j)) s1
  else if t = Ty.wbData then .ok e s
  else .abort .illegalOp s

/-- The sharers of a producer-push block hear of bytes that a write-back, a put or an atomic of a thread brought (R234, log 33). -/
def pushAll (s : State) (j : Job) (e : De) (skip writer : Nat) : State :=
  tellHolders s j Ty.push (BitVec.allOnes 64) (deHolders e skip) writer none

/-- Finish a producer-push request whose owner has yielded the block: registered sharers stay (R234). -/
def finishPush (s : State) (j : Job) (e : De) (kept : Option Nat) : De × State :=
  let e1 := dePending (deSetOwn e none) 0 0
  let e2 := match kept with | some o => deAdd e1 o | none => e1
  match pendOf s j with
  | none => (deState e2 (if deShared e2 then 1 else 0) false, s)
  | some m =>
    let s1 := setPend (pushAll s j e (m.src % 2 ^ 12) (threadOf (deOwn e) 0)) j none
    if deKind e = 0 then (deState (deAdd e2 (m.src % 2 ^ 12)) 1 false, grantS s1 j m)
    else if m.type = Ty.atom then
      let s2 := applyAtom s1 j.p m
      (deState e2 (if deShared e2 then 1 else 0) false, pushAll s2 j e2 (m.src % 2 ^ 12) (threadOf m.src m.slot))
    else (deState (deSetOwn (deDel e2 (m.src % 2 ^ 12)) (some (m.src % 2 ^ 12))) 2 false, grantX s1 j m true)

/-- Whether a PUSH of a block is on its way to a core, or held there. -/
def pushOnWay (s : State) (c blk : Nat) : Bool :=
  let f (m : Msg) : Bool := m.dst = c && m.type = Ty.push && m.blk = blk
  s.net.any f || (s.core c).held.any f

/-- Producer-push, protocol 4 (R234). A listed sharer that is still to take a PUSH has not the block's bytes, so its upgrade gets them with
the tag (R189, R200, log 33). -/
def pushHandler (s : State) (j : Job) : HEnd :=
  let e := s.entry j.ea
  let a := j.who
  let t := j.m.type
  let st := deSt e
  let owner := deOv e && deOwn e = a
  if t = Ty.putp then .ok e (tellHolders (mergePut s j false) j Ty.push j.m.w[2] (deHolders e a) j.thread none)
  else if t = Ty.putx && owner then
    let s1 := putBlock s j
    if st = 4 then .ok (deState e 5 true) s1
    else if st = 6 then
      let kept := match pendOf s j with | some m => if (m.w[7] != 0) && deKind e = 0 then some a else none | none => none
      let (e1, s2) := finishPush s1 j e kept
      .ok e1 s2
    else
      let e1 := deSetOwn (if bitOf j.m.w[2] 0 then deAdd e a else e) none
      .ok (deState e1 (if deShared e1 then 1 else 0) false) (pushAll s1 j e a j.thread)
  else if t = Ty.puts then
    let e1 := deDel e a
    .ok (if st = 1 && !deShared e1 then deState e1 0 false else e1) s
  else if t = Ty.putx then .ok e s
  else if t = Ty.gets || t = Ty.getx || t = Ty.upg || t = Ty.atom then
    if deOv e then
      (if owner then .abort .illegalOperand s
       else .ok (deState (dePending e (if t = Ty.gets then 0 else if t = Ty.atom then 2 else 1) j.m.requester) 4 true)
         (recallTo (setPend s j (some j.m)) j.p (deOwn e) j.pa (bit (t = Ty.gets))))
    else if t = Ty.gets then .ok (deState (deAdd e a) 1 false) (grantS s j j.m)
    else if t = Ty.atom then .ok e (pushAll (applyAtom s j.p j.m) j e a j.thread)
    else .ok (deState (deSetOwn (deDel e a) (some a)) 2 false) (grantX s j j.m (!(t = Ty.upg && deListed e a) || pushOnWay s a j.m.blk))
  else if t = Ty.wbData then
    if st = 4 then
      let (e1, s1) := finishPush (maskPuts (putBlock s j) a j.m.blk) j e (if deKind e = 0 then some (deOwn e) else none)
      .ok e1 s1
    else .ok e s
  else if t = Ty.invAck then
    let held := bitOf j.m.w[2] 0
    if (pushedBy s j).isSome then .ok e (pushAnswered s j)
    else if st = 4 then
      .ok (deState e 6 true) (match pendOf s j with | some m => setPend s j (some { m with w := m.w.set 7 (boolWord held) }) | none => s)
    else if st = 5 then
      let (e1, s1) := finishPush s j e (if held && deKind e = 0 then some (deOwn e) else none)
      .ok e1 s1
    else .ok e s
  else .abort .illegalOp s

/-- Reduction, protocol 6 (R234). A PUTX that keeps the line leaves its sender a reader, whom the next merge invalidates (log 82). -/
def reduceHandler (s : State) (j : Job) : HEnd :=
  let e := s.entry j.ea
  let a := j.who
  let t := j.m.type
  if t = Ty.gets then .ok (deState (deAdd e a) 1 false) (grantS s j j.m)
  else if t = Ty.getx || t = Ty.upg then
    let e1 := deDel e a
    let s1 := tracePort s j.p j.pa 1 j.m.src j.m.slot true
    .ok (if deShared e1 then e1 else deState e1 0 false) (replyTo s1 j.p j.m Ty.dataX 0 (some (identityBlock (rgOp j.rg))))
  else if t = Ty.putp then
    .ok (deState (deClear e) 0 false) (tellHolders (mergePut s j true) j Ty.inv 0 (deHolders e a) j.thread none)
  else if t = Ty.atom then
    .ok (deState (deClear e) 0 false) (tellHolders (applyAtom s j.p j.m) j Ty.inv 0 (deHolders e a) j.thread none)
  else if t = Ty.puts then
    let e1 := deDel e a
    .ok (if deShared e1 then e1 else deState e1 0 false) s
  else if t = Ty.putx then .ok (if bitOf j.m.w[2] 0 then deState (deAdd e a) 1 false else e) s
  else if t = Ty.wbData then .ok e (mergePut s { j with m := { j.m with w := j.m.w.set 2 (BitVec.allOnes 64) } } true)
  else if t = Ty.invAck then .ok e (pushAnswered s j)
  else .abort .illegalOp s

/-! ## Append pages (R248 to R258) -/

/-- ap.nres -/
def apNres (e : De) : Nat := bits e.2 35 33
/-- ap.nseal -/
def apNseal (e : De) : Nat := bits e.2 32 29
/-- ap.pub -/
def apPub (e : De) : Nat := bits e.2 25 13
/-- ap.rsv -/
def apRsv (e : De) : Nat := bits e.2 12 0

/-- The published tail recomputed (R249). -/
def publish (s : State) (p page : Nat) (e : De) : De :=
  let l := ((s.proc p).rsvs.filter fun r => r.page = page).map (·.fill)
  (e.1, setBits e.2 25 13 (if apNres e = 0 then apRsv e else l.foldl Nat.min (apRsv e)))

/-- A read of an append page under a tail (R253): `sealed` pages and replicas serve it alike. -/
def serveRead (s : State) (p : Nat) (m : Msg) (tail : Nat) : State :=
  let o := m.blk * 64 % 4096
  if o + 64 ≤ tail then replyTo s p m Ty.dataS 0 (some (s.mem.block (m.blk * 64)))
  else if o + bits m.w[2] 11 6 < tail then replyTo s p m Ty.dataS 1 (some (s.mem.block (m.blk * 64)))
  else failReply s p m .tailRead

/-- The sealers of a page get its length; those queued are named by their requests (R255). -/
def sealPage (s : State) (p page : Nat) (e : De) : De × State :=
  let l := (s.proc p).sealers.filter fun m => m.addr / 4096 * 4096 = page
  let s1 := l.foldl (fun s m => replyTo s p m Ty.result (BitVec.ofNat 64 (apRsv e)) none)
    (s.updProc p fun q => { q with sealers := q.sealers.filter fun m => !(m.addr / 4096 * 4096 = page) })
  (deState (e.1, setBits e.2 32 29 0) 2 false, s1)

/-- Pages of a die's replica pool, over the configured partitions (R256, R416). -/
def poolPages (s : State) (die : Nat) : Nat :=
  s.parts.foldl (fun n x => match x.2.cfg with | some g => n + ((g.pools[die]?).map (·.2)).getD 0 | none => n) 0

/-- The replica agent of a die for a page (R256). -/
def replicaAgent (die pa : Nat) : Nat := 12 * die + pa / 4096 % 12

/-- The replica agents of a page, of every die but for its home (R256, R257). -/
def replicaAgents (page home : Nat) : List Nat := ((List.range 4).map fun d => replicaAgent d page).filter (· != home)

/-- The replicas of a die's pool, with the agents that keep them and when each was used last (R256). -/
def dieReplicas (s : State) (die : Nat) : List (Nat × Nat × Nat) :=
  (List.range 12).flatMap fun i => (s.proc (12 * die + i)).replicas.map fun r => (12 * die + i, r.1, r.2)

/-- A replica is used: no other of its die's pool has been used later (R256). -/
def useReplica (s : State) (p page : Nat) : State :=
  let n := (dieReplicas s (p / 12)).foldl (fun n r => Nat.max n (r.2.2 + 1)) 0
  s.updProc p fun q => { q with replicas := put page n q.replicas }

/-- The least recently used replica of a die's pool is dropped (R256). -/
def dropOldest (s : State) (die : Nat) : State :=
  match (dieReplicas s die).foldl (fun (b : Option (Nat × Nat × Nat)) r =>
      match b with | some x => if r.2.2 < x.2.2 then some r else b | none => some r) none with
  | some r => s.updProc r.1 fun q => { q with replicas := drop r.2.1 q.replicas }
  | none => s

/-- The blocks of a page with the cores that hold or have asked for them (R257). -/
def pageHolders (s : State) (page : Nat) : List (Nat × List Nat) :=
  (List.range 64).filterMap fun i =>
    let blk := page / 64 + i
    let l := (s.cores.filter fun q => (look blk q.2.lines).isSome || (reqFor q.2 blk).isSome).map (·.1)
    if l.isEmpty then none else some (blk, l)

/-- The blocks of a page with the cores that have a line of it, or one on its way: those that a replica served after the home's INV had
passed (R257, log 12). -/
def pageServed (s : State) (page : Nat) : List (Nat × List Nat) :=
  (List.range 64).filterMap fun i =>
    let blk := page / 64 + i
    let l := (s.cores.filter fun q => tagOf s q.1 blk = .readOnly || s.net.any fun m => m.dst = q.1 && m.blk = blk && m.type = Ty.dataS).map (·.1)
    if l.isEmpty then none else some (blk, l)

/-- INV for blocks of a page at the cores that hold them. -/
def invLines (s : State) (p : Nat) (l : List (Nat × List Nat)) : State :=
  l.foldl (fun s x => (multicast s p (forwardWords s p Ty.inv (x.1 * 64) 0) none x.2).2) s

/-- The page is free again: empty and open (R257 step 4). -/
def freed (s : State) (j : Job) (e : De) : De × State :=
  let s1 := match pendOf s j with | some m => replyTo (setPend s j none) j.p m Ty.result 0 none | none => s
  (deState (e.1, setBits e.2 35 0 0) 0 false, s1.updProc j.p fun q => { q with frees := drop j.ea q.frees })

/-- FREE.SEAL of a sealed page: every line and every replica of it is recalled; the acknowledgements of every die's agent and of the devices
that hold the page are awaited (R257). -/
def startFree (s : State) (j : Job) (e : De) : De × State :=
  let page := j.m.addr / 4096 * 4096
  let lines := pageHolders s page
  let agents := replicaAgents page j.p
  let remote := (s.proc j.p).copies.filter fun x => x.1 = page
  let s1 := invLines s j.p lines
  let s2 := agents.foldl (fun s a => s.post (mkMsg s (procAgent j.p) 0 (procAgent a) Ty.sealq 0 page 3 0 0 none none)) s1
  let s3 := remote.foldl (fun s x => sendOp s { dst := x.2.1, part := 0, packets := [packet s 19 x.2.1 0 false [x.2.2, 1] []] }) s2
  let s4 := s3.updProc j.p fun q => { q with copies := q.copies.filter (fun x => x.1 != page), freeing := q.freeing ++ remote }
  let n := lines.length + agents.length + remote.length
  let e1 := deState e 3 true
  let s5 := setPend s4 j (some j.m)
  if n = 0 then freed s5 j e1 else (e1, s5.updProc j.p fun q => { q with frees := put j.ea n q.frees })

/-- The last acknowledgement of a FREE.SEAL has come: a line that a replica agent served before its own invalidate is recalled too, so that
no copy outlasts it (R257, R331). -/
def endFree (s : State) (j : Job) (e : De) : De × State :=
  match pageServed s (j.m.addr / 4096 * 4096) with
  | [] => freed s j e
  | l => (e, (invLines s j.p l).updProc j.p fun q => { q with frees := put j.ea l.length q.frees })

/-- A replicate notice follows a read that an agent forwarded, once the page is sealed (R256). -/
def noticeAgent (s : State) (j : Job) (e : De) : State :=
  match j.m.via with
  | some a => if deSt e = 2 && poolPages s (a / 12) != 0 then
      s.post (mkMsg s (procAgent j.p) 0 (procAgent a) Ty.sealq 0 j.pa 2 0 0 none none)
    else s
  | none => s

/-- Append, protocol 7: at the page's home (R250 to R258, R440). -/
def appendHandler (s : State) (j : Job) : HEnd :=
  let e := s.entry j.ea
  let t := j.m.type
  let page := j.m.addr / 4096 * 4096
  let none1 : Word := BitVec.allOnes 64
  let answer (v : Word) (s : State) : State := replyTo s j.p j.m Ty.result v none
  let setRsv (e : De) (n : Nat) : De := (e.1, setBits e.2 12 0 n)
  let setNres (e : De) (n : Nat) : De := (e.1, setBits e.2 35 33 n)
  if t = Ty.gets then .ok e (noticeAgent (serveRead s j.p j.m (apPub e)) j e)
  else if t = Ty.getx || t = Ty.upg || t = Ty.atom then .ok e (failReply s j.p j.m .storeFault)
  else if t = Ty.apnd && !(bitOf j.m.w[2] 7) then
    let n := bits j.m.w[2] 6 0
    let off := apRsv e
    if deSt e != 0 then .ok e (failReply s j.p j.m .writeAfterSeal)
    else if 4096 < off + n then .ok e (answer none1 s)
    else
      let s1 := tracePort (s.updMem fun m => m.wrBytes (page + off) (blkBytes (j.m.flit.getD 0) 0 n)) j.p (page + off) n j.m.src j.m.slot false
      .ok (publish s1 j.p page (setRsv e (off + n))) (answer (BitVec.ofNat 64 off) s1)
  else if t = Ty.apnd then
    let n := bits j.m.w[2] 6 0
    match (s.proc j.p).rsvs.find? fun r => r.page = page && r.start = (j.m.w[3]).toNat with
    | none => .abort .illegalOperand s
    | some r =>
      if (page + r.fill) / 64 != j.m.blk || r.stop < r.fill + n then .abort .illegalOperand s else
      let s1 := tracePort (s.updMem fun m => m.wrBytes (page + r.fill) (blkBytes (j.m.flit.getD 0) 0 n)) j.p (page + r.fill) n j.m.src j.m.slot false
      let full := r.stop = r.fill + n
      let s2 := s1.updProc j.p fun q => { q with rsvs := if full then q.rsvs.erase r else q.rsvs.map fun x => if x = r then { x with fill := x.fill + n } else x }
      let e1 := publish s2 j.p page (if full then setNres e (apNres e - 1) else e)
      let s3 := replyTo s2 j.p j.m Ty.ack 0 none
      if deSt e1 = 1 && apPub e1 = apRsv e1 then (let (e2, s4) := sealPage s3 j.p page e1; .ok e2 s4) else .ok e1 s3
  else if t = Ty.arsv then
    let n := (j.m.w[2]).toNat
    if deSt e != 0 then .ok e (failReply s j.p j.m .writeAfterSeal)
    else if n = 0 || 4096 < apRsv e + n || 4 ≤ apNres e then .ok e (answer none1 s)
    else if 256 ≤ (s.proc j.p).rsvs.length then .ok e (replyTo s j.p j.m Ty.retry 512 none)
    else
      let off := apRsv e
      let s1 := s.updProc j.p fun q => { q with rsvs := q.rsvs ++ [⟨page, off, off, off + n⟩] }
      .ok (publish s1 j.p page (setNres (setRsv e (off + n)) (apNres e + 1))) (answer (BitVec.ofNat 64 off) s1)
  else if t = Ty.tailq then .ok e (answer (BitVec.ofNat 64 (apPub e + bit (deSt e = 2) * 2 ^ 63)) s)
  else if t = Ty.sealq && bits j.m.w[2] 1 0 = 0 then
    if deSt e = 2 then .ok e (answer (BitVec.ofNat 64 (apRsv e)) s)
    else if deSt e = 0 && apPub e = apRsv e then .ok (deState e 2 false) (answer (BitVec.ofNat 64 (apRsv e)) s)
    else if deSt e = 1 && 8 ≤ apNseal e then .ok e (replyTo s j.p j.m Ty.retry 512 none)
    else
      let n := if deSt e = 0 then 1 else apNseal e + 1
      .ok (deState (e.1, setBits e.2 32 29 n) 1 false) (s.updProc j.p fun q => { q with sealers := q.sealers ++ [j.m] })
  else if t = Ty.sealq && bits j.m.w[2] 1 0 = 1 then
    if deSt e = 2 then (let (e1, s1) := startFree s j e; .ok e1 s1)
    else if deSt e = 0 && apRsv e = 0 then .ok e (answer 0 s)
    else .ok e (failReply s j.p j.m .illegalOperand)
  else if t = Ty.sealq then .ok e s
  else if t = Ty.puts || t = Ty.putx || t = Ty.putp || t = Ty.wbData then .ok e s
  else if t = Ty.invAck then
    match look j.ea (s.proc j.p).frees with
    | none => .ok e s
    | some n =>
      if n ≤ 1 then (let (e1, s1) := endFree s j e; .ok e1 s1)
      else .ok e (s.updProc j.p fun q => { q with frees := put j.ea (n - 1) q.frees })
  else .abort .illegalOp s

/-- A read at the proxy of an append page that has been fetched whole, sealed: served under its length, as at its home (R253, R393). -/
def proxyRead (s : State) (j : Job) (tail : Nat) : HEnd :=
  let whole := j.pa % 4096 + 64 ≤ tail
  .ok (if whole then deState (deAdd (s.entry j.ea) j.who) 1 false else s.entry j.ea) (serveRead s j.p j.m tail)

/-! ## Gates of pages (R391, R403 to R405) -/

/-- The gate of a request to a page of the HDM window (R403, R405). -/
def biasGate (s : State) (pa : Nat) : Gate :=
  if inWindow s pa && (hostBias s pa || pageInFlight s pa) then .hold else .pass

/-- The gate of a request-lane message of types 0 to 2 and 6 (R391, R403). -/
def gate (s : State) (rg : BitVec 256) (p : Nat) (m : Msg) : Gate :=
  if !(m.type = Ty.gets || m.type = Ty.getx || m.type = Ty.upg || m.type = Ty.atom) then .pass
  else if s.takes.any fun t => t.pa / 64 = m.blk && t.mc.isSome then .hold
  else if rgProto rg = 8 then frameGate s m.addr (m.type = Ty.gets)
  else if p = 72 then biasGate s m.addr
  else .pass

/-- Start what a held request waits for (R391, R405). -/
def openGate (s : State) (rg : BitVec 256) (m : Msg) : State :=
  let page := m.addr / 4096 * 4096
  if rgProto rg = 8 then openFrame s page (m.type = Ty.gets) (m.blk % 64 * 2 ^ 13 + (m.w[2]).toNat % 2 ^ 13)
  else if inWindow s m.addr then askDevice s m.addr else s

/-! ## Dispatch (R221, R222, R231, R232, R439) -/

/-- Message types that wait while the entry is transient (R231). -/
def queues (m : Msg) : Bool := !m.lane && (m.type ≤ 2 || (6 ≤ m.type && m.type ≤ 10) || 25 ≤ m.type)

/-- An invocation is aborted (R228). -/
def abortJob (s : State) (j : Job) (cause : Cause) (pcWord : Nat) : State :=
  failRegion (if j.m.lane then s else failReply s j.p j.m .protocolFail) j.p j.idx cause pcWord

/-- Clear the entry's watchdog, or let it run: it counts while the entry is transient with waiters (R230). -/
def watch (s : State) (p ea : Nat) (rg : BitVec 256) : State :=
  let w := (s.proc p).waiters.any fun m => entryAddr rg m.addr = ea && (s.regionOf m.addr).map (·.2) = some rg
  s.updProc p fun q => { q with
    since := if w && deTr (s.entry ea) then (if (look ea q.since).isSome then q.since else put ea s.time q.since) else drop ea q.since }

/-- The acknowledgement at HEND of a put that is not left to a merge's answers (R232, R234). -/
def hendAck (s : State) (j : Job) : State :=
  let t := j.m.type
  if t = Ty.putx || t = Ty.puts || (t = Ty.putp && !((s.proc j.p).pushes.any fun x => x.2 = some j.m)) then
    replyTo s j.p j.m Ty.ack 0 none
  else s

/-- A standard protocol's handler runs as one step (log 12). -/
def runStandard (s : State) (j : Job) : State :=
  let proto := rgProto j.rg
  let r := match proto with
    | 1 => stdHandler false false s j
    | 2 => updateHandler s j
    | 3 => stdHandler true false s j
    | 4 => pushHandler s j
    | 5 => stdHandler false true s j
    | 6 => reduceHandler s j
    | 7 => appendHandler s j
    | 8 => (match (frameOf s j.pa).filter fun (f : Frame) => f.append && j.m.type = Ty.gets with
      | some f => proxyRead s j f.tail
      | none => stdHandler false false s j)
    | _ => .abort .illegalOp s
  match r with
  | .ok e s1 => hendAck (s1.setEntry j.ea e) j
  | .abort c s1 =>
    let (n, s2) := s1.freeBelow (2 ^ 16)
    abortJob s2 j c n

/-- The slot that takes a message: the lowest idle one its lane may use (R221, R223). -/
def handlerSlot (s : State) (p : Nat) (lane : Bool) : Option Nat :=
  (s.slotsWhere (procAgent p) fun x => x.run == .idle).find? fun t => lane || 4 ≤ slotOf t

/-- A handler of a loadable protocol starts in a slot (R221). -/
def startHandler (s : State) (j : Job) (t : Nat) (entry : Nat) : State :=
  let e := s.entry j.ea
  let buf := 0x7C00 + 64 * slotOf t
  let regs := (List.finRange 8).foldl (fun (v : Vector Word 32) i => v.set (4 + i.val) j.m.w[i] (by omega)) (Vector.replicate 32 (0 : Word))
  let regs := ((((((regs.set 3 (BitVec.ofNat 64 j.idx)).set 12 e.1).set 13 e.2).set 14 (rgParm j.rg)).set 15 (BitVec.ofNat 64 j.pa)).set 16
    (BitVec.ofNat 64 buf)).set 17 (BitVec.ofNat 64 j.m.requester)
  let s1 := s.setSlot t { s := regs, pc := BitVec.ofNat 64 (entry * 4), mode := .h, run := .active,
                          handler := some { msg := j.m, region := j.idx, proto := rgProto j.rg, entryAddr := j.ea } }
  match j.m.flit with
  | some b => s1.updProc j.p fun q => { q with dmem := q.dmem.wrBlock buf b }
  | none => s1

/-- Dispatch a message of a valid region that has not failed; `none` while no slot may take it (R221). -/
def dispatch (s : State) (j : Job) : Option State :=
  if rgProto j.rg < 16 then some (runStandard s j) else
  let d := (look (32 * rgProto j.rg + j.m.type) (s.proc j.p).dtab).getD 0
  if !d.getLsbD 0 then
    let (n, s1) := s.freeBelow (2 ^ 16)
    some (abortJob s1 j .illegalOp n)
  else (handlerSlot s j.p j.m.lane).map fun t => startHandler s j t (fld d.toNat 2 14)

/-- Dispatch the waiters of an entry, oldest first, for as long as it is not transient (R232). -/
def wakeWaiters : Nat → State → Nat → Nat → State
  | 0, s, _, _ => s
  | n + 1, s, p, ea =>
    if deTr (s.entry ea) || handling s p ea then s else
    match (s.proc p).waiters.find? fun m => match s.regionOf m.addr with | some (_, rg) => entryAddr rg m.addr = ea && homeIn rg m.addr = p | none => false with
    | none => s
    | some m =>
      match s.regionOf m.addr with
      | none => s
      | some (idx, rg) =>
        let s1 := s.updProc p fun q => { q with waiters := q.waiters.erase m }
        match gate s rg p m with
        | .hold => openGate s rg m
        | .fail c => wakeWaiters n (failReply s1 p m c) p ea
        | .pass =>
          match dispatch s1 ⟨p, idx, rg, m, ea⟩ with
          | some s2 => wakeWaiters n s2 p ea
          | none => s

/-- Whether an entry has waiters. -/
def hasWaiters (s : State) (p ea : Nat) : Bool :=
  (s.proc p).waiters.any fun m => match s.regionOf m.addr with | some (_, rg) => entryAddr rg m.addr = ea | none => false

/-- Waiters of an entry. -/
def waitersOf (s : State) (p ea : Nat) : Nat :=
  ((s.proc p).waiters.filter fun m => match s.regionOf m.addr with | some (_, rg) => entryAddr rg m.addr = ea | none => false).length

/-- Waiters of a processor that may be dispatched: those of entries with no handler and no transient step (R232). -/
def wakeProc (s : State) (p : Nat) : State :=
  ((s.proc p).waiters.filterMap fun m => (s.regionOf m.addr).map fun r => entryAddr r.2 m.addr).eraseDups.foldl
    (fun s ea => wakeWaiters 9 s p ea) s

/-- Whether an entry's oldest waiter could be dispatched and only waits for a slot: it goes before every message in the input queues
(R232). -/
def waiterReady (s : State) (p ea : Nat) : Bool :=
  !deTr (s.entry ea) && !handling s p ea &&
    (match (s.proc p).waiters.find? fun m => match s.regionOf m.addr with | some (_, rg) => entryAddr rg m.addr = ea && homeIn rg m.addr = p | none => false with
    | some m => (match s.regionOf m.addr with | some (_, rg) => gate s rg p m == .pass | none => false)
    | none => false)

/-- A put that a direct block's processor performs is recorded for its sender (R201). -/
def tracePutAt (s : State) (p : Nat) (m : Msg) (mask : BitVec 64) : State :=
  match (List.range 64).filter fun i => mask.getLsbD i with
  | [] => s
  | i :: l => tracePort s p (m.blk * 64 + i) (l.length + 1) m.src m.slot false

/-- A message of a direct block (R439, R218). -/
def directMessage (s : State) (p : Nat) (m : Msg) : State :=
  let t := m.type
  let pa := m.blk * 64
  let ack (s : State) : State := replyTo s p m Ty.ack 0 none
  if t = Ty.atom then applyAtom s p m
  else if t = Ty.putx then ack (tracePutAt (s.updMem fun x => x.wrBlock pa (m.flit.getD 0)) p m (BitVec.allOnes 64))
  else if t = Ty.putp then ack (tracePutAt (s.updMem fun x => x.wrMask pa (m.flit.getD 0) m.w[2]) p m m.w[2])
  else if t = Ty.puts then ack s
  else if t = Ty.wbData then tracePutAt (s.updMem fun x => x.wrBlock pa (m.flit.getD 0)) p m (BitVec.allOnes 64)
  else if queues m then replyTo s p m Ty.retry 0 none
  else s

/-! ### Replica agents (R256, R257) -/

/-- The sealed length a replica agent serves reads under. -/
def sealedLength (s : State) (rg : BitVec 256) (m : Msg) : Nat := apRsv (s.entry (entryAddr rg m.addr))

/-- A message at the replica agent of a die, for a page homed elsewhere: reads and replica messages (R256, R257); a request that only the
home can serve goes on to it, and a type without a dispatch entry fails the region (R440, log 61). -/
def agentMessage (s : State) (p idx : Nat) (rg : BitVec 256) (m : Msg) : State :=
  let page := m.addr / 4096 * 4096
  let q := s.proc p
  let home := procAgent (homeIn rg m.addr)
  if m.type = Ty.gets || m.type = Ty.tailq then
    if (look page q.replicas).isSome then
      let s1 := useReplica s p page
      if m.type = Ty.gets then serveRead s1 p m (sealedLength s rg m)
      else replyTo s1 p m Ty.result (BitVec.ofNat 64 (sealedLength s rg m + 2 ^ 63)) none
    else if q.copying.contains page then s.updProc p fun q => { q with readers := q.readers ++ [m] }
    else s.post { m with dst := home, via := some p }
  else if m.type = Ty.sealq && bits m.w[2] 1 0 = 2 then
    if (look page q.replicas).isSome || q.copying.contains page || poolPages s (p / 12) = 0 then s
    else s.updProc p fun q => { q with copying := q.copying ++ [page] }
  else if m.type = Ty.sealq && bits m.w[2] 1 0 = 3 then
    let l := q.readers.filter fun x => x.addr / 4096 * 4096 = page
    let s1 := l.foldl (fun s x => if x.type = Ty.gets then serveRead s p x (sealedLength s rg x)
        else replyTo s p x Ty.result (BitVec.ofNat 64 (sealedLength s rg x + 2 ^ 63)) none) s
    let s2 := s1.updProc p fun q => { q with
      replicas := drop page q.replicas, copying := q.copying.erase page, readers := q.readers.filter fun x => !(x.addr / 4096 * 4096 = page) }
    s2.post (mkMsg s2 (procAgent p) 0 m.src Ty.invAck 0 page 0 0 0 none none)
  else if m.type = Ty.apnd || m.type = Ty.arsv || m.type = Ty.sealq then s.post { m with dst := home, via := none }
  else if m.type = Ty.getx || m.type = Ty.upg || m.type = Ty.atom then failReply s p m .storeFault
  else if m.type = Ty.puts || m.type = Ty.putx || m.type = Ty.putp then replyTo s p m Ty.ack 0 none
  else if m.type = Ty.wbData || m.type = Ty.invAck then s
  else
    let (n, s1) := s.freeBelow (2 ^ 16)
    abortJob s1 ⟨p, idx, rg, m, entryAddr rg m.addr⟩ .illegalOp n

/-- REPLICA_COPY_COMPLETE (R256): the replica stands, the least recently used one making room, and waiting reads are served. -/
def execReplicaCopyComplete (p page : Nat) (s : State) : Out :=
  let q := s.proc p
  if !q.copying.contains page then .next s else
  match s.regionOf page with
  | none => .next (s.updProc p fun q => { q with copying := q.copying.erase page })
  | some (_, rg) =>
    let full := poolPages s (p / 12) ≤ (dieReplicas s (p / 12)).length
    let l := q.readers.filter fun x => x.addr / 4096 * 4096 = page
    let s0 := (if full then dropOldest s (p / 12) else s).updProc p fun q => { q with
      copying := q.copying.erase page, readers := q.readers.filter fun x => !(x.addr / 4096 * 4096 = page) }
    let s1 := useReplica s0 p page
    .next (l.foldl (fun s x => if x.type = Ty.gets then serveRead s p x (sealedLength s rg x)
        else replyTo s p x Ty.result (BitVec.ofNat 64 (sealedLength s rg x + 2 ^ 63)) none) s1)

/-! ### Lines taken from their holders (R392, R400, R404) -/

/-- The take that a multicast's answers belong to. -/
def takeOf (s : State) (m : Msg) : Option Take := m.mc.bind fun k => s.takes.find? fun t => t.mc = some k

/-- An answer of a holder to a take: its data is written, and the combined answer closes the collecting (R239, R400, R404). -/
def takeAnswer (s : State) (t : Take) (m : Msg) : State :=
  let upd (f : Take → Take) : List Take := s.takes.map fun x => if x = t then f x else x
  if m.type = Ty.wbData then
    let s1 := dirtyFrame (s.updMem fun x => x.wrBlock (m.blk * 64) (m.flit.getD 0)) m.addr
    { s1 with takes := upd fun x => { x with data := m.flit, held := true } }
  else { s with takes := upd fun x => { x with answered := true, held := x.held || bitOf m.w[2] 0 } }

/-- The page whose back-invalidation a combined answer completes (R405). -/
def snoopedPage (s : State) (m : Msg) : Option Nat :=
  s.hostOps.findSome? fun o => match o with
    | .toDevice g (some k) => if m.mc = some k then some g else none
    | _ => none

/-- The waiters of every line of a page are dispatched (R232, R404, R405). -/
def wakePage (s : State) (p page : Nat) : State :=
  match s.regionOf page with
  | none => s
  | some (_, rg) => (List.range 64).foldl (fun s i => wakeWaiters 9 s p (entryAddr rg (page + 64 * i))) s

/-- A page is in device bias again: the waiting requests are dispatched (R405). -/
def pageToDevice (s : State) (page : Nat) : State :=
  let s1 := setBias { s with hostOps := s.hostOps.filter fun o => match o with | .toDevice g _ => g != page | _ => true } page false
  wakePage s1 72 page

/-! ### Arrival -/

/-- Whether a reply-lane message waits at a processor for a handler's slot: it goes before any request (R223). -/
def repliesFirst (s : State) (p : Nat) : Bool :=
  s.net.any fun m => m.dst = procAgent p && m.arrived != 0 && m.lane &&
    (match s.regionOf m.addr with | some (_, rg) => 16 ≤ rgProto rg && !handling s p (entryAddr rg m.addr) | none => false)

/-- A message reaches its processor (R221); `none` while it must wait in the processor's input queue (R222). An APPEND or a reservation
that reaches a page in FREEING waits with BUSY, as R257 says of every request, and succeeds on the fresh page; R252 would have it
refused (log 68). -/
def homeMessage (s : State) (p : Nat) (m : Msg) : Option State :=
  match takeOf s m with
  | some t => some (takeAnswer s t m)
  | none =>
  match snoopedPage s m with
  | some g => some (pageToDevice s g)
  | none =>
  match s.regionOf m.addr with
  | none => if queues m && biasAway s m.addr then none else some (directMessage s p m)
  | some (idx, rg) =>
    if rgProto rg = 0 then (if queues m && biasAway s m.addr then none else some (directMessage s p m))
    else if rgFail rg then some (if m.lane then s else failReply s p m .protocolFail)
    else if rgProto rg = 7 && p != homeIn rg m.addr && p < 48 then some (agentMessage s p idx rg m)
    else
      let ea := entryAddr rg m.addr
      let g := gate s rg p m
      match g with
      | .fail c => some (failReply s p m c)
      | _ =>
      if handling s p ea then none
      else if queues m && (deTr (s.entry ea) || g == .hold) then
        let s1 := if g == .hold then openGate s rg m else s
        if 8 ≤ waitersOf s p ea || 256 ≤ (s.proc p).waiters.length then some (replyTo s1 p m Ty.retry 512 none)
        else
          let s2 := s1.updProc p fun q => { q with waiters := q.waiters ++ [m] }
          some (watch (replyTo s2 p m Ty.busy 0 none) p ea rg)
      else
        let s0 := if hasWaiters s p ea then wakeWaiters 9 s p ea else s
        if queues m && (hasWaiters s0 p ea || handling s0 p ea || deTr (s0.entry ea)) then none
        else if handling s0 p ea || waiterReady s0 p ea then none
        else if !m.lane && 16 ≤ rgProto rg && repliesFirst s0 p then none
        else
          (dispatch s0 ⟨p, idx, rg, m, ea⟩).map fun s1 =>
            if rgProto rg < 16 then watch (wakeWaiters 9 s1 p ea) p ea rg else s1

end Sys2Proof.Machine
end

