-- ==== Sys2Proof/Machine/Link.lean ====
section
/-! DEFINITION. The host link (spec/18 R396 to R407): lines of host memory that the host protocol processor holds for the device,
host snoops, and pages of the HDM-DB window that flip between device and host bias. -/

namespace Sys2Proof.Machine

/-! ## Lines taken from their holders (R392, R400, R404) -/

/-- The keep of the RECALL that a take sends (R392, R400, R404). -/
def TakeWhy.keep : TakeWhy → Nat
  | .snpInv => 0 | .flip => 0 | .give => 0 | .snpData => 1 | .share => 1 | .snpCur => 2

/-- Whether a line's request to the host is outstanding (R399). -/
def askedHost (s : State) (pa : Nat) : Bool := s.hostOps.any fun o => match o with | .rd a _ _ | .own a _ => a = pa | _ => false

/-- Whether a home may take a line: no handler runs for it and no step of it is open, but for a request the host has not answered, whose
line is as it was before (R400, R404). A snoop that meets a step which takes the line's copies back is answered with what that brings
(`tellSnoop`, log 35). -/
def lineStable (s : State) (p ea pa : Nat) : Bool := !handling s p ea && (!deTr (s.entry ea) || askedHost s pa)

/-- Change a take. -/
def updTake (s : State) (t : Take) (f : Take → Take) : State := { s with takes := s.takes.map fun x => if x = t then f x else x }

/-- What the host hears of a snooped line (R400). -/
def snoopAnswer (s : State) (t : Take) : List HostOut :=
  let b := if poisonedBlk s (t.pa / 64) then none else some (t.data.getD (s.mem.block t.pa))
  let dirty := t.data.isSome || t.owner.isSome
  match t.why with
  | .snpInv => [if dirty then .rspIFwdM t.pa b else if t.held then .rspIHitSE t.pa else .rspIHitI t.pa]
  | .snpData => [if dirty then .rspSFwdM t.pa b else .rspSHitSE t.pa]
  | .snpCur => [.curData t.pa (if dirty then b else none)]
  | _ => []

/-- The entry of a line after a take: nobody holds it, or the old owner keeps a read-only copy, or nothing changes. -/
def takenEntry (t : Take) (e : De) : De :=
  match t.why.keep with
  | 0 => deState (deSetOwn (deClear e) none) 0 (deTr e)
  | 1 => match t.owner with
    | some o => if deOv e && deOwn e = o then deState (deAdd (deSetOwn e none) o) 1 (deTr e) else e
    | none => e
  | _ => e

/-- What the holders of a line hear of a take: RECALL, and INV when a page leaves for another device for good (R392, R400, R404). -/
def TakeWhy.word (w : TakeWhy) : Nat := if w == .give then Ty.inv else Ty.recall

/-- What the host hears when a line is taken from the device's cores for the home's own sake: an exclusive one is evicted (R399). -/
def takeEvicts (s : State) (t : Take) : State := if t.why == .give && t.owner.isSome then evictHost s t.pa t.data.isSome else s

/-- A take goes on: its holders are asked, or it ends when their answers, and a put on its way, have come (R400, R404). -/
def stepTake (s : State) (t : Take) : State :=
  match s.regionOf t.pa with
  | none => { s with takes := s.takes.erase t, hostOut := s.hostOut ++ snoopAnswer s t }
  | some (_, rg) =>
    let p := homeIn rg t.pa
    let ea := entryAddr rg t.pa
    let e := s.entry ea
    if t.mc.isNone && !t.answered then
      if rgProto rg = 0 || rgFail rg then updTake s t fun x => { x with answered := true }
      else if !lineStable s p ea t.pa || s.takes.any fun x => x.pa = t.pa && x.mc.isSome then s
      else if deOv e then
        let (k, s1) := multicast s p (forwardWords s p t.why.word t.pa (BitVec.ofNat 64 t.why.keep)) none [deOwn e]
        updTake s1 t fun x => { x with mc := some k, owner := some (deOwn e) }
      else
        let l := if t.why.keep = 0 || t.why == .share then deHolders e 0xFFF else []
        if l.isEmpty then updTake s t fun x => { x with answered := true, held := x.held || deShared e }
        else
          let (k, s1) := multicast s p (forwardWords s p (if t.why == .share then Ty.recall else Ty.inv) t.pa (BitVec.ofNat 64 t.why.keep)) none l
          updTake s1 t fun x => { x with mc := some k }
    else if t.answered then
      if t.owner.isSome && t.data.isNone && deOv e && some (deOwn e) = t.owner && !deTr e then s
      else
        let s1 := takeEvicts { s with takes := s.takes.erase t, hostOut := s.hostOut ++ snoopAnswer s t } t
        let s2 := if rgProto rg = 0 || rgFail rg then s1 else s1.setEntry ea (takenEntry t e)
        watch (wakeWaiters 9 s2 p ea) p ea rg
    else s

/-- Every take goes on as far as it can. -/
def stepTakes (s : State) : State :=
  let s1 := s.takes.foldl stepTake s
  s1.takes.foldl (fun s t => if t.answered then stepTake s t else s) s1

/-- The lines of a page that somebody holds or whose entry is transient. -/
def heldLines (s : State) (page : Nat) : List Nat :=
  match s.regionOf page with
  | none => []
  | some (_, rg) =>
    if rgProto rg = 0 then [] else
    ((List.range 64).map fun i => page + 64 * i).filter fun pa =>
      let e := s.entry (entryAddr rg pa)
      deOv e || deShared e || deTr e

/-- Whether every line of a page is quiet: no handler, no open step, no take. -/
def pageQuiet (s : State) (page : Nat) : Bool :=
  !(s.takes.any fun t => t.pa / 4096 * 4096 = page) &&
    match s.regionOf page with
    | none => true
    | some (_, rg) => rgProto rg = 0 || (List.range 64).all fun i =>
        let ea := entryAddr rg (page + 64 * i)
        !deTr (s.entry ea) && !handling s (homeIn rg page) ea

/-- Take every line of a page from its holders. -/
def takePage (s : State) (page : Nat) (why : TakeWhy) : State :=
  stepTakes { s with takes := s.takes ++ (heldLines s page).map fun pa => { pa := pa, why := why } }

/-! ## Flips (R403 to R406) -/

/-- The host as the one a port performs a write for: it is no core of the device (R201, log 84). -/
def hostWriter (s : State) : Writer := ⟨0x7FF, 0, s.devNum, none⟩

/-- A host access served from memory (R403, R404): a write is one that the port of the block's home performs for another (R201). A poisoned
block is read as poisoned data, and a write of all of it clears the poison (R434). -/
def serveHost (s : State) (pa : Nat) (wr : Option (Word × Block)) : State :=
  let a := pa / 64 * 64
  match wr with
  | none => { s with hostOut := s.hostOut ++ [.data pa (hostCopy s a)] }
  | some (mask, b) =>
    let s1 := match (List.range 64).filter fun i => mask.getLsbD i with
      | [] => s
      | i :: l =>
        let w := hostWriter s
        tracePortBy (s.updMem fun m => m.wrMask a b mask) (s.homeOf a) (a + i) (l.length + 1) w.core w.slot w.dev w.part false
    { (if mask = BitVec.allOnes 64 then unpoison s1 (a / 64) else s1) with hostOut := s1.hostOut ++ [.wrAck pa] }

/-- A page flips to host bias once its lines are taken: the held accesses are served, then waiting requests find the page the host's
(R404, R406). -/
def pageToHost (s : State) (page : Nat) : State :=
  let mine := fun (o : HostOp) => match o with | .access pa _ => pa / 4096 * 4096 = page | _ => false
  let held := s.hostOps.filter mine
  let s1 := setBias { s with hostOps := s.hostOps.filter fun o => !mine o && o != .toHost page } page true
  let s2 := held.foldl (fun s o => match o with | .access pa wr => serveHost s pa wr | _ => s) s1
  wakePage s2 72 page

/-- Whether a slot waits for direct access to a page of the window: it has its access before the page flips again (R406). -/
def directWaiter (s : State) (page : Nat) : Bool :=
  s.slots.any fun x => match x.2.run with | .waiting (.home blk) => blk * 64 / 4096 * 4096 = page | _ => false

/-- BIAS.SET goes on (R412): pages that are neither of the bias it asks for nor in flight start to flip; when none is left, the
command completes. -/
def stepBiasSet (s : State) (c : Cmd) (pages : List Nat) (host : Bool) : State :=
  let left := pages.filter fun g => hostBias s g != host || pageInFlight s g
  let rest := { s with hostOps := s.hostOps.erase (.biasSet c pages host) }
  if left.isEmpty then rest.hostEvent (c.fn.map (·.val)) 0x81 0 c.tag.toNat [] else
  left.foldl (fun s g =>
    if pageInFlight s g then s
    else if host then takePage { s with hostOps := s.hostOps ++ [.toHost g] } g .flip
    else askDevice s g) { rest with hostOps := rest.hostOps ++ [.biasSet c left host] }

/-- BISnpInv for n lines from an address: the host answers each of them with BIRspI, and one combined INV_ACK follows when it has answered
all (R405, R407). -/
def backInvalidate (s : State) (pa n : Nat) : Nat × State :=
  let k := freshMcast s
  let l := (List.range n).map fun i => pa + 64 * i
  (k, { s with hostOps := s.hostOps ++ [.birsp k pa l 0], hostOut := s.hostOut ++ l.map fun a => HostOut.biSnpInv a })

/-- The host's BIRspI for a line, which says whether it held it: with the last one the link delivers the INV_ACK, whose s6[31:16] counts the
lines held (R405). -/
def hostAnswered (s : State) (pa : Nat) (held : Bool) : State :=
  match s.hostOps.find? fun o => match o with | .birsp _ _ l _ => l.contains (pa / 64 * 64) | _ => false with
  | some (.birsp k a l n) =>
    let l1 := l.erase (pa / 64 * 64)
    let n1 := n + bit held
    if l1.isEmpty then
      { s with hostOps := s.hostOps.erase (.birsp k a l n) }.post
        (mkMsg s 0xFFF 0 (procAgent 72) Ty.invAck 0 a (BitVec.ofNat 64 (bit (n1 != 0) + n1 * 2 ^ 16)) 0 0 none (some k))
    else { s with hostOps := s.hostOps.map fun o => if o = .birsp k a l n then .birsp k a l1 n1 else o }
  | _ => s

/-- Whether the host still owes its answer for a line: a MemWr of it is the write-back that goes before the answer (R405). -/
def snooped (s : State) (pa : Nat) : Bool := s.hostOps.any fun o => match o with | .birsp _ _ l _ => l.contains (pa / 64 * 64) | _ => false

/-- One operation of the link goes on. -/
def stepHostOp (s : State) (o : HostOp) : State :=
  match o with
  | .rd _ _ _ | .own _ _ | .mine _ _ | .birsp _ _ _ _ => s
  | .biasSet c pages host => stepBiasSet s c pages host
  | .access pa wr =>
    let page := pa / 4096 * 4096
    if pageInFlight s page then s
    else if hostBias s page then serveHost { s with hostOps := s.hostOps.erase o } pa wr
    else if directWaiter s page then s
    else takePage { s with hostOps := s.hostOps ++ [.toHost page] } page .flip
  | .toHost page => if pageQuiet s page then pageToHost s page else s
  | .toDevice page none =>
    if pageQuiet s page then
      let (k, s1) := backInvalidate s page 64
      { s1 with hostOps := s1.hostOps.map fun x => if x = o then .toDevice page (some k) else x }
    else s
  | .toDevice _ (some _) => s

/-- Every operation of the link goes on once. -/
def linkPass (s : State) : State := s.hostOps.foldl (fun s o => if s.hostOps.contains o then stepHostOp s o else s) s

/-- The link goes on as far as it can: a command to flip a page starts the flip, the flip ends, the command hears of it, and a request
that met the flip asks for the page again. -/
def stepLink (s : State) : State := linkPass (linkPass (linkPass (linkPass (stepTakes s))))

/-- HOST_MEMRD (R402 to R404): outside the window it completes with poisoned data. -/
def execHostMemrd (pa : Nat) (s : State) : Out :=
  if !linkUp s then .next s
  else if !inWindow s pa then .next { s with hostOut := s.hostOut ++ [.data pa none] }
  else .next (stepLink { s with hostOps := s.hostOps ++ [.access pa none] })

/-- HOST_MEMWR (R402 to R404): outside the window it completes, and nothing is written. The write-back of a line that a BISnpInv names is
taken at once (R405). -/
def execHostMemwr (pa : Nat) (mask : Word) (data : Block) (s : State) : Out :=
  if !linkUp s then .next s
  else if !inWindow s pa then .next { s with hostOut := s.hostOut ++ [.wrAck pa] }
  else if snooped s pa then
    .next (serveHost s pa (some (mask, data)))
  else .next (stepLink { s with hostOps := s.hostOps ++ [.access pa (some (mask, data))] })

/-! ## Snoops and answers of the host (R399, R400) -/

/-- A host snoop of a line of host memory. -/
def snoopEvent (s : State) (pa : Nat) (why : TakeWhy) : Out :=
  let a := pa / 64 * 64
  if !linkUp s || !hostLine a then .next s else .next (stepLink { s with takes := s.takes ++ [{ pa := a, why := why }] })

/-- SNPINV (R400). -/
def execSnpinv (pa : Nat) (s : State) : Out := snoopEvent s pa .snpInv
/-- SNPDATA (R400). -/
def execSnpdata (pa : Nat) (s : State) : Out := snoopEvent s pa .snpData
/-- SNPCUR (R400). -/
def execSnpcur (pa : Nat) (s : State) : Out := snoopEvent s pa .snpCur

/-- HOST_GO_RESPONSE (R399): the host's data and GO for a line; the waiting grant leaves and de.tr is cleared. A line that its home asked for
itself stays with it until the access it was asked for (R384, R389). -/
def execHostGoResponse (pa : Nat) (data : Block) (excl : Bool) (s : State) : Out :=
  let a := pa / 64 * 64
  match s.hostOps.find? fun o => match o with | .rd b x _ | .own b x => b = a && x == excl | _ => false with
  | some (.own b x) =>
    .next (unpoison { s with hostOps := s.hostOps.map fun o => if o = .own b x then .mine b x else o, mem := s.mem.wrBlock a data } (a / 64))
  | some (.rd b x m) =>
    let s1 := unpoison { s with hostOps := s.hostOps.erase (.rd b x m), mem := s.mem.wrBlock a data } (a / 64)
    match s1.regionOf a with
    | none => .next s1
    | some (idx, rg) =>
      let p := homeIn rg a
      let ea := entryAddr rg a
      let e := dePending (if excl then deClear (s1.entry ea) else s1.entry ea) 0 0
      let (e1, s2) := match m with
        | none => (deState e (if deShared e then 1 else 0) false, s1)
        | some m => grantFree (setPend s1 ⟨p, idx, rg, m, ea⟩ none) ⟨p, idx, rg, m, ea⟩ e m (!excl) false
      .next (stepLink (watch (wakeWaiters 9 (s2.setEntry ea e1) p ea) p ea rg))
  | _ => .next s

end Sys2Proof.Machine
end

