-- ==== Sys2Proof/Machine/Pages.lean ====
section
/-! DEFINITION. Pages shared between devices (spec/17 R390 to R394): frames of protocol-8 regions as homes and proxies, the page
messages, and RBIND. -/

namespace Sys2Proof.Machine

/-- The home processor of a page's region. -/
def pageProc (s : State) (page : Nat) : Nat := match s.regionOf page with | some (_, rg) => homeIn rg page | none => 48

/-- The poisoned ones among n blocks from an address (R434). -/
def poisonFrom (s : State) (pa n : Nat) : List Nat := if s.poisoned.isEmpty then [] else (List.range n).filter fun i => poisonedBlk s (pa / 64 + i)

/-- The blocks of a packet written from an address, with their poison (R391, R434). -/
def putPage (s : State) (pa : Nat) (p : Packet) : State :=
  let s1 := s.updMem fun m => ((List.range p.flits.length).zip p.flits).foldl (fun m x => m.wrBlock (pa + 64 * x.1) x.2) m
  let own (b : Nat) : Bool := pa / 64 ≤ b && b < pa / 64 + p.flits.length
  if s.poisoned.isEmpty && p.poison.isEmpty then s1 else { s1 with poisoned := (s.poisoned.filter (!own ·)) ++ p.poison.map (pa / 64 + ·) }

/-- A page message of this device, without data (R391). -/
def pageMessage (s : State) (kind dev part : Nat) (words : List Word) : State :=
  sendOp s { dst := dev, part := part, packets := [packet s kind dev part false words []] }

/-- A page message with n blocks of memory from an address, and their poison (R391, R434). -/
def pageData (s : State) (kind dev part : Nat) (words : List Word) (pa n : Nat) : State :=
  let p := { packet s kind dev part false words ((List.range n).map fun i => s.mem.block (pa + 64 * i)) with poison := poisonFrom s pa n }
  sendOp s { dst := dev, part := part, packets := [p] }

/-- Whether the lines of a page have been taken for another device: for its exclusive use nobody here holds one, for a shared one every holder
has been asked and none is writable (R392). -/
def linesTaken (s : State) (page : Nat) (f : Frame) (excl : Bool) : Bool :=
  if excl then (heldLines s page).isEmpty
  else (heldLines s page).isEmpty || f.phase = 4 && (heldLines s page).all fun pa =>
    match s.regionOf pa with | some (_, rg) => !deOv (s.entry (entryAddr rg pa)) && !deTr (s.entry (entryAddr rg pa)) | none => true

/-- Every holder of every line of a page hears that it goes to another device: INV for an exclusive request, RECALL with keep 1 for a shared
one (R392). -/
def takeLines (s : State) (page : Nat) (excl : Bool) : State :=
  if s.takes.any fun t => t.pa / 4096 * 4096 = page then s else
  stepTakes { (updFrame s page fun f => { f with phase := 4 }) with
    takes := s.takes ++ (heldLines s page).map fun pa => { pa := pa, why := if excl then .give else .share } }

/-- A home frame serves the oldest request of another device (R391): copies in the way are recalled, the device's own lines are
taken, and the page leaves whole; the next request waits for its acknowledgement. -/
def stepHome (s : State) (page : Nat) (f : Frame) : State :=
  if !f.left.isEmpty then s else
  match f.requests with
  | [] =>
    if !f.unbind then (if f.phase = 1 || f.phase = 4 then wakePage (updFrame s page fun f => { f with phase := 0 }) (pageProc s page) page else s)
    else if !(pageCopies s f).isEmpty then recallPage s page f (pageCopies s f) true
    else if !(heldLines s page).isEmpty then (if s.takes.any fun t => t.pa / 4096 * 4096 = page then s else takePage s page .give)
    else if pageQuiet s page then { s with frames := drop page s.frames } else s
  | r :: _ =>
    let excl := r.kind = 17
    let way := (if excl then pageCopies s f else f.owner.toList).filter (· != r.src)
    if f.phase = 3 then s
    else if !way.isEmpty then recallPage s page f way excl
    else if !linesTaken s page f excl then takeLines s page excl
    else if !pageQuiet s page then s
    else
      let share (f : Frame) : Frame := if f.sharers.contains r.src || f.all then f
        else if f.sharers.length < 4 then { f with sharers := f.sharers ++ [r.src] } else { f with all := true }
      let s1 := updFrame s page fun f => if excl then { f with phase := 3, owner := some r.src, sharers := [], all := false } else { share f with phase := 3 }
      pageData s1 18 r.src r.part [f.va, boolWord excl] page 64

/-- A proxy answers the oldest recall of its page, or its own unbinding: its lines are taken, the page goes back whole when a line of
it was written, and an acknowledgement follows (R392, R394). Word 1 of the acknowledgement says that a write-back went, word 2 that
nobody asked for it (log 34). -/
def stepProxy (s : State) (page : Nat) (f : Frame) : State :=
  match f.recalls with
  | r :: _ =>
    let excl := bitOf (r.words.getD 1 0) 0
    if !linesTaken s page f excl then takeLines s page excl
    else if !pageQuiet s page then s
    else
      let s1 := if f.fresh then pageData s 20 r.src r.part [f.remote] page 64 else s
      let s2 := pageMessage s1 21 r.src r.part [f.remote, boolWord f.fresh, 0]
      let st : PageState := if f.st == .pw then .pw else if excl || f.st == .pi then .pi else .ps
      wakePage (updFrame s2 page fun f => { f with recalls := f.recalls.drop 1, fresh := false, st := st, phase := 0 }) (pageProc s page) page
  | [] =>
    if !f.unbind || f.asked then s
    else if !(heldLines s page).isEmpty then (if s.takes.any fun t => t.pa / 4096 * 4096 = page then s else takePage s page .give)
    else if !pageQuiet s page then s
    else
      let e := rankEntry s f.job f.rank
      let s1 := if f.fresh then pageData s 20 (rankDev e) (rankPart e) [f.remote] page 64 else s
      let s2 := if f.st == .pi then s1 else pageMessage s1 21 (rankDev e) (rankPart e) [f.remote, boolWord f.fresh, 1]
      { s2 with frames := drop page s2.frames }

/-- Requests that wait for a page the home device could not give fail (R386, log 34). -/
def failPage (s : State) (page : Nat) : State :=
  let p := pageProc s page
  let l := (s.proc p).waiters.filter fun m => m.addr / 4096 * 4096 = page
  let s1 := s.updProc p fun q => { q with waiters := q.waiters.filter fun m => !(m.addr / 4096 * 4096 = page) }
  l.foldl (fun s m => failReply s p m (if m.type = Ty.gets then .loadFault else .storeFault)) (updFrame s1 page fun f => { f with failed := false })

/-- A frame goes on. -/
def stepFrame (s : State) (page : Nat) : State :=
  match look page s.frames with
  | none => s
  | some f => if f.failed then failPage s page else if f.home then stepHome s page f else stepProxy s page f

/-- A home keeps a line of host memory that it took only while an access of another device or of a bulk transfer waits (R399). -/
def releaseStale (s : State) : State :=
  let waits := !s.atTarget.isEmpty || s.slots.any fun x => match x.2.run with | .waiting (.home blk) => hostLine (blk * 64) | _ => false
  if waits then s else s.hostOps.foldl (fun s o => match o with | .mine a _ => releaseHost s false a | _ => s) s

/-- What the homes of a device do by themselves goes on as far as it can: takes, flips and pages. -/
def settleHome (s : State) : State :=
  let s1 := if s.takes.isEmpty && s.hostOps.isEmpty then s else stepLink s
  s1.frames.foldl (fun s x => stepFrame s x.1) s1

/-! ## Page messages (R391 to R393) -/

/-- The frame of a proxy that a home device's message names: by the page's address there. -/
def proxyFor (s : State) (p : Packet) : Option (Nat × Frame) :=
  s.frames.find? fun x => !x.2.home && x.2.remote = p.words.getD 0 0 && rankDev (rankEntry s x.2.job x.2.rank) = p.src

/-- The home frame that a message of another device names. -/
def homeFor (s : State) (p : Packet) : Option (Nat × Frame) :=
  s.frames.find? fun x => x.2.home && x.2.va = p.words.getD 0 0 && (x.2.left.contains p.src || (pageCopies s x.2).contains p.src || x.2.requests.any fun r => r.src = p.src)

/-- A read of an append page for a proxy (R393): whole once sealed, with its length, unless pte.nr of the read forbids it; else one block
under the tail. Word 1 of the answer: 2 the whole page, 3 one block; then the length, or the block's place and how it is served: 0 whole
block, 1 single use, 2 TAIL_READ (log 34). -/
def appendForProxy (s : State) (r : Packet) (pa : Nat) (rg : BitVec 256) : State :=
  let page := pa / 4096 * 4096
  let e := s.entry (entryAddr rg page)
  let w := (r.words.getD 1 0).toNat
  let blk := w / 2 ^ 13 % 64
  if deSt e = 2 && !w.testBit 12 then
    let h := homeIn rg page
    let s1 := s.updProc h fun q => { q with copies := q.copies ++ [(page, r.src, r.words.getD 0 0)] }
    pageData s1 18 r.src r.part [r.words.getD 0 0, 2, BitVec.ofNat 64 (apRsv e)] page 64
  else
    let how := if 64 * blk + 64 ≤ apPub e then 0 else if 64 * blk + w / 2 ^ 6 % 2 ^ 6 < apPub e then 1 else 2
    pageData s 18 r.src r.part [r.words.getD 0 0, 3, BitVec.ofNat 64 blk, BitVec.ofNat 64 how] (page + 64 * blk) 1

/-- A page request of another device is taken up at its home (R391). -/
def pageAsked (s : State) (r : Packet) : AtTarget (Nat × List Word) :=
  match targetPieces s r.part (if r.kind = 17 then .store else .load) [(r.words.getD 0 0, 1)] with
  | .waits s => .waits s
  | .fails k m s => .fails k m s
  | .ok l s =>
    match l with
    | [] => .fails 1 false s
    | (pa, _) :: _ =>
      match s.regionOf pa with
      | none => .fails 1 false s
      | some (_, rg) =>
        if rgProto rg = 7 then .ok (5, [boolWord r.reply]) (appendForProxy s r pa rg)
        else match look (pa / 4096 * 4096) s.frames with
          | some f =>
            if rgProto rg = 8 && f.home && !f.unbind then
              .ok (5, [boolWord r.reply]) (updFrame s (pa / 4096 * 4096) fun f => { f with requests := f.requests ++ [r], va := r.words.getD 0 0 })
            else .fails 1 false s
          | none => .fails 1 false s

/-- A page message's event: taken up, and the homes go on. -/
def pageEvent (s : State) (p : Packet) (kind : Nat) (f : State → Packet → AtTarget (Nat × List Word)) : Out :=
  match targetEvent s p kind f with
  | .next s1 => .next (settleHome s1)
  | o => o

/-- A page message that is always taken up. -/
def pageTaken (g : State → Packet → State) (s : State) (p : Packet) : AtTarget (Nat × List Word) := .ok (5, [boolWord p.reply]) (g s p)

/-- PAGE_READ_REQUEST (R391). -/
def execPageReadRequest (p : Packet) (s : State) : Out := pageEvent s p 16 pageAsked
/-- PAGE_EXCLUSIVE_REQUEST (R391). -/
def execPageExclusiveRequest (p : Packet) (s : State) : Out := pageEvent s p 17 pageAsked

/-- A page, or one block of an open append page, reaches its proxy (R391, R393). -/
def pageArrives (s : State) (p : Packet) : State :=
  match proxyFor s p with
  | none => s
  | some (page, f) =>
    if !f.asked then s else
    let proc := pageProc s page
    match (p.words.getD 1 0).toNat with
    | 3 =>
      let blk := page / 64 + (p.words.getD 2 0).toNat
      let s1 := updFrame s page fun f => { f with asked := false, st := .pi, append := true }
      let l := (s1.proc proc).waiters.filter fun m => m.blk = blk && m.type = Ty.gets
      let s2 := s1.updProc proc fun q => { q with waiters := q.waiters.filter fun m => !(l.contains m) }
      let s3 := l.foldl (fun s m => match if p.poison.isEmpty then (p.words.getD 3 0).toNat else 3 with
        | 2 => failReply s proc m .tailRead
        | 3 => failReply s proc m .loadFault
        | n => replyTo s proc m Ty.dataS (BitVec.ofNat 64 n) (p.flits[0]?)) s2
      wakePage s3 proc page
    | n =>
      let s1 := updFrame (putPage s page p) page fun f =>
        { f with asked := false, fresh := false, append := n = 2, tail := (p.words.getD 2 0).toNat, st := if n = 1 then .px else .ps }
      let s2 := if n = 2 then s1 else pageMessage s1 21 p.src p.part [f.remote, 0, 0]
      wakePage s2 proc page

/-- PAGE_DATA (R391). -/
def execPageData (p : Packet) (s : State) : Out := pageEvent s p 18 (pageTaken pageArrives)

/-- PAGE_RECALL (R392): a device without a copy acknowledges at once. -/
def execPageRecall (p : Packet) (s : State) : Out :=
  pageEvent s p 19 (pageTaken fun s p =>
    match proxyFor s p with
    | some (page, _) => updFrame s page fun f => { f with recalls := f.recalls ++ [p] }
    | none => pageMessage s 21 p.src p.part [p.words.getD 0 0, 0, 0])

/-- A device's part of a recall is over (R392). -/
def recallOver (s : State) (page dev : Nat) : State :=
  updFrame s page fun f =>
    let wasOwner := f.owner = some dev
    { f with
      left := f.left.erase dev, got := f.got.filter (·.1 != dev), phase := if (f.left.erase dev).isEmpty then 1 else f.phase,
      owner := if wasOwner then none else f.owner,
      sharers := if f.excl then f.sharers.erase dev else if wasOwner then f.sharers ++ [dev] else f.sharers,
      all := f.all && !(f.excl && (f.left.erase dev).isEmpty) }

/-- PAGE_WRITE_BACK (R392). -/
def execPageWriteBack (p : Packet) (s : State) : Out :=
  pageEvent s p 20 (pageTaken fun s p =>
    match homeFor s p with
    | none => s
    | some (page, f) =>
      let s1 := putPage s page p
      if f.got.contains (p.src, 21) then recallOver s1 page p.src
      else updFrame s1 page fun f => { f with got := f.got ++ [(p.src, 20)] })

/-- The home processor, with the page, that awaits a device's answer to the recall of a freed append page (R257). -/
def freeingFor (s : State) (p : Packet) : Option (Nat × Nat × Nat × Word) :=
  s.procs.findSome? fun q => (q.2.freeing.find? fun x => x.2 = (p.src, p.words.getD 0 0)).map fun x => (q.1, x)

/-- A device that held a freed append page has dropped it: the last acknowledgement frees the page (R257). -/
def freeAnswered (s : State) (h page : Nat) (x : Nat × Nat × Word) : State :=
  let s1 := s.updProc h fun q => { q with freeing := q.freeing.erase x }
  match s1.regionOf page with
  | none => s1
  | some (idx, rg) =>
    let j : Job := { p := h, idx := idx, rg := rg, m := mkMsg s1 (procAgent h) 0 (procAgent h) Ty.invAck 0 page 0 0 0 none none, ea := entryAddr rg page }
    match look j.ea (s1.proc h).frees with
    | none => s1
    | some n =>
      if n ≤ 1 then
        let (e, s2) := endFree s1 j (s1.entry j.ea)
        wakePage (s2.setEntry j.ea e) h page
      else s1.updProc h fun q => { q with frees := put j.ea (n - 1) q.frees }

/-- PAGE_ACKNOWLEDGEMENT (R257, R391, R392): a recall is answered once its write-back, if one went, has come; a page's arrival lets its
home serve the next request. -/
def execPageAcknowledgement (p : Packet) (s : State) : Out :=
  pageEvent s p 21 (pageTaken fun s p =>
    match homeFor s p with
    | none => (match freeingFor s p with | some (h, x) => freeAnswered s h x.1 x | none => s)
    | some (page, f) =>
      let dirty := bitOf (p.words.getD 1 0) 0
      if f.left.contains p.src || bitOf (p.words.getD 2 0) 0 then
        (if dirty && !f.got.contains (p.src, 20) then updFrame s page fun f => { f with got := f.got ++ [(p.src, 21)] }
         else if f.left.contains p.src then recallOver s page p.src
         else updFrame s page fun f => { f with sharers := f.sharers.erase p.src, owner := if f.owner = some p.src then none else f.owner, got := f.got.filter (·.1 != p.src) })
      else if f.phase = 3 then
        wakePage (updFrame s page fun f => { f with phase := 0, requests := f.requests.drop 1 }) (pageProc s page) page
      else s)

/-! ## RBIND (R394) -/

/-- The base word of RBIND (R394). -/
def rbindBase (d a b : Nat) : Nat :=
  ({ len := 0, major := 0x3B, d := Fin.ofNat 32 d, a := Fin.ofNat 32 a, b := Fin.ofNat 32 b, fn := 8, ext := 0, lit := 0 } : Raw).base

/-- RBIND (R394): the frame at a physical address is bound as a home or a proxy, or unbound once its page has been recalled. -/
def execRbind (d a b : Reg) (s : State) : Out :=
  privileged (rbindBase d a b) s
    (let pa := s.rd a
     let w := s.rd b
     let v := s.rd d
     let kind := bits w 13 12
     let bound := look pa.toNat s.frames
     if pa.toNat % 4096 != 0 || s.protoOf pa.toNat != 8 then trap .illegalOperand pa s
     else if bits w 63 14 != 0 || kind = 3 || (kind != 1 && v != 0) || (kind = 1 && (spaceOf v != some .glb || v.toNat % 4096 != 0)) then
       trap .illegalOperand w s
     else match kind, bound with
       | 0, none => trap .illegalOperand pa s
       | 0, some _ => wait (.rbind pa.toNat) (settleHome (updFrame (s.past 4) pa.toNat fun f => { f with unbind := true }))
       | _, some _ => trap .illegalOperand w s
       | 1, none =>
         (resolveRank s (BitVec.ofNat 64 (bits w 11 0)) w).finish fun _ s =>
           done 4 { s with frames := put pa.toNat { home := false, rank := bits w 11 0, job := jobOn s s.myCore, remote := v } s.frames }
       | _, none => done 4 { s with frames := put pa.toNat { home := true, rank := bits w 11 0, job := jobOn s s.myCore, remote := 0 } s.frames })

end Sys2Proof.Machine
end

