-- ==== Sys2Proof/Machine/Arrival.lean ====
section
/-! DEFINITION. The events of messages that reach a protocol processor (spec/09 R215, R221, R239), and the watchdogs of handlers and
of transient entries (R224, R230). -/

namespace Sys2Proof.Machine

/-- Whether a combined acknowledgement must wait for a write-back of the same multicast (R239). -/
def behindData (s : State) (m : Msg) : Bool :=
  m.type = Ty.invAck && m.mc.isSome && s.net.any fun x => x.type = Ty.wbData && x.mc = m.mc

/-- The event of message k reaching a protocol processor, when it is of the kind asked for; one that cannot be taken yet waits in the
processor's input queue (R222). -/
def homeEvent (s : State) (k : Nat) (f : Msg → Bool) : Out :=
  match s.deliverable k with
  | none => .next s
  | some m =>
    if m.dst < 0x800 || !f m || behindData s m then .next s else
    match homeMessage (s.unpost k) (m.dst - 0x800) { m with arrived := 0 } with
    | some s1 => .next (settleHome s1)
    | none =>
      let s1 := s.queued k
      .next (if inWindow s1 m.addr && hostBias s1 m.addr then askDevice s1 m.addr else s1)

/-- GETS (R221). -/
def execGets (k : Nat) (s : State) : Out := homeEvent s k fun m => m.type = Ty.gets
/-- GETX (R221). -/
def execGetx (k : Nat) (s : State) : Out := homeEvent s k fun m => m.type = Ty.getx
/-- UPG (R221). -/
def execUpg (k : Nat) (s : State) : Out := homeEvent s k fun m => m.type = Ty.upg
/-- PUTX (R232). -/
def execPutx (k : Nat) (s : State) : Out := homeEvent s k fun m => m.type = Ty.putx
/-- PUTS (R232). -/
def execPuts (k : Nat) (s : State) : Out := homeEvent s k fun m => m.type = Ty.puts
/-- PUTP (R234). -/
def execPutp (k : Nat) (s : State) : Out := homeEvent s k fun m => m.type = Ty.putp
/-- ATOM (R176). -/
def execAtom (k : Nat) (s : State) : Out := homeEvent s k fun m => m.type = Ty.atom
/-- APND (R250). -/
def execApnd (k : Nat) (s : State) : Out := homeEvent s k fun m => m.type = Ty.apnd && !(bitOf m.w[2] 7)
/-- APND_FILL (R251). -/
def execApndFill (k : Nat) (s : State) : Out := homeEvent s k fun m => m.type = Ty.apnd && bitOf m.w[2] 7
/-- ARSV (R251). -/
def execArsv (k : Nat) (s : State) : Out := homeEvent s k fun m => m.type = Ty.arsv
/-- TAILQ (R261). -/
def execTailq (k : Nat) (s : State) : Out := homeEvent s k fun m => m.type = Ty.tailq
/-- SEALQ of a seal (R255). -/
def execSealqSeal (k : Nat) (s : State) : Out := homeEvent s k fun m => m.type = Ty.sealq && bits m.w[2] 1 0 = 0
/-- SEALQ of a free (R257). -/
def execSealqFree (k : Nat) (s : State) : Out := homeEvent s k fun m => m.type = Ty.sealq && bits m.w[2] 1 0 = 1
/-- REPLICATE_NOTICE (R256). -/
def execReplicateNotice (k : Nat) (s : State) : Out := homeEvent s k fun m => m.type = Ty.sealq && bits m.w[2] 1 0 = 2
/-- REPLICA_INVALIDATE (R257). -/
def execReplicaInvalidate (k : Nat) (s : State) : Out := homeEvent s k fun m => m.type = Ty.sealq && bits m.w[2] 1 0 = 3
/-- WB_DATA (R233). -/
def execWbData (k : Nat) (s : State) : Out := homeEvent s k fun m => m.type = Ty.wbData
/-- INV_ACK (R233). -/
def execInvAck (k : Nat) (s : State) : Out := homeEvent s k fun m => m.type = Ty.invAck

/-- CUSTOM_MESSAGE (R215): a message of types 25 to 31, and any other message that its receiver takes in no other event: one a core
or a processor has no use for is discarded (R215, R221). -/
def execCustomMessage (k : Nat) (s : State) : Out :=
  match s.deliverable k with
  | none => .next s
  | some m =>
    if m.dst < 0x800 then
      .next (if 25 ≤ m.type || !(m.type = Ty.recall || m.type = Ty.inv || m.type = Ty.push || (16 ≤ m.type && m.type ≤ 21) || m.type = Ty.result)
        then s.unpost k else s)
    else if 25 ≤ m.type then homeEvent s k fun _ => true
    else if m.type = Ty.recall || m.type = Ty.inv || m.type = Ty.push || (16 ≤ m.type && m.type ≤ 21) || m.type = Ty.result then .next (s.unpost k)
    else if m.type = 14 || m.type = 15 then homeEvent s k fun _ => true
    else .next s

/-! ## Watchdogs (R224, R230) -/

/-- The step limit of a handler (R218). -/
def stepLimit (s : State) (p : Nat) (h : HCtx) : Nat := 256 * (fld ((look (32 * h.proto + h.msg.type) (s.proc p).dtab).getD 0).toNat 28 4 + 1)

/-- Whether a slot's handler has used its steps (R224). -/
def outOfSteps (s : State) (t : Nat) : Bool :=
  match (s.slot t).handler with
  | some h => stepLimit s (agentOf t - 0x800) h ≤ h.steps
  | none => false

/-- HANDLER_WATCHDOG (R224). -/
def execHandlerWatchdog (t : Nat) (s : State) : Out :=
  if !onCore t && outOfSteps s t then .next (settleHome (wakeProc (abortHandler s t .watchdog) (agentOf t - 0x800))) else .next s

/-- TRANSIENT_WATCHDOG (R230): 2^24 cycles pass with the entry of a block transient and waited for. -/
def execTransientWatchdog (p blk : Nat) (s : State) : Out :=
  match s.regionOf (blk * 64) with
  | none => .next s
  | some (idx, rg) =>
    let ea := entryAddr rg (blk * 64)
    match look ea (s.proc p).since with
    | none => .next s
    | some t0 =>
      if deTr (s.entry ea) && hasWaiters s p ea then
        let s1 := { s with time := Nat.max s.time (t0 + 2 ^ 24 + 1) }
        .next (failRegion (s1.updProc p fun q => { q with since := drop ea q.since }) p idx .watchdog 0)
      else .next s

end Sys2Proof.Machine
end

