-- ==== Sys2Proof/Machine/Branch.lean ====
section
/-! DEFINITION. Branches, calls and mask branches (spec/04 R90 to R93). -/

namespace Sys2Proof.Machine

/-- A branch of n bytes: to pc + 4 * off when taken, else on (R90, R91). -/
def branch (n : Nat) (taken : Bool) (off : Word) (s : State) : Out :=
  if taken then .next (s.updMe fun x => x.jump (x.pc + off * 4)) else done n s

/-- JAL of n bytes: the link, then the jump (R90). -/
def jumpLink (n : Nat) (a : Reg) (off : Word) (s : State) : Out :=
  .next ((s.wr a (s.me.pc + BitVec.ofNat 64 n)).updMe fun x => x.jump (s.me.pc + off * 4))

/-- JALR of n bytes: a misaligned target traps and writes no link (R91, R93). -/
def jumpReg (n : Nat) (d a : Reg) (disp : Word) (s : State) : Out :=
  let t := s.rd a + disp
  if t.toNat % 4 != 0 then trap .misalign t s
  else .next ((s.wr d (s.me.pc + BitVec.ofNat 64 n)).updMe (·.jump t))

/-- The mask operand of a mask branch: s0 means all lanes (R92). -/
def State.mask (s : State) (b : Reg) : Word := if b = 0 then BitVec.allOnes 64 else s.rd b

/-- BZ (R90). -/
def execBz (a : Reg) (off : BitVec 18) (s : State) : Out := branch 4 (s.rd a == 0) (off.signExtend 64) s
/-- BZ with a literal offset (R90). -/
def execBzLit (a : Reg) (x : Word) (s : State) : Out := branch 12 (s.rd a == 0) x s
/-- BNZ (R90). -/
def execBnz (a : Reg) (off : BitVec 18) (s : State) : Out := branch 4 (s.rd a != 0) (off.signExtend 64) s
/-- BNZ with a literal offset (R90). -/
def execBnzLit (a : Reg) (x : Word) (s : State) : Out := branch 12 (s.rd a != 0) x s
/-- JAL (R90). -/
def execJal (a : Reg) (off : BitVec 18) (s : State) : Out := jumpLink 4 a (off.signExtend 64) s
/-- JAL with a literal offset (R90). -/
def execJalLit (a : Reg) (x : Word) (s : State) : Out := jumpLink 12 a x s
/-- BEQ (R91). -/
def execBeq (a b : Reg) (off : BitVec 32) (s : State) : Out :=
  branch 12 ((s.rd a) == (s.rd b)) (off.signExtend 64) s
/-- BNE (R91). -/
def execBne (a b : Reg) (off : BitVec 32) (s : State) : Out :=
  branch 12 ((s.rd a) != (s.rd b)) (off.signExtend 64) s
/-- BLT (R91). -/
def execBlt (a b : Reg) (off : BitVec 32) (s : State) : Out :=
  branch 12 ((s.rd a).slt (s.rd b)) (off.signExtend 64) s
/-- BGE (R91). -/
def execBge (a b : Reg) (off : BitVec 32) (s : State) : Out :=
  branch 12 (!(s.rd a).slt (s.rd b)) (off.signExtend 64) s
/-- BLTU (R91). -/
def execBltu (a b : Reg) (off : BitVec 32) (s : State) : Out :=
  branch 12 ((s.rd a).ult (s.rd b)) (off.signExtend 64) s
/-- BGEU (R91). -/
def execBgeu (a b : Reg) (off : BitVec 32) (s : State) : Out :=
  branch 12 (!(s.rd a).ult (s.rd b)) (off.signExtend 64) s
/-- JALR (R91). -/
def execJalr (d a : Reg) (s : State) : Out := jumpReg 4 d a 0 s
/-- JALR with a displacement (R91). -/
def execJalrDisp (d a : Reg) (disp : BitVec 32) (s : State) : Out := jumpReg 12 d a (disp.signExtend 64) s
/-- BANY (R92). -/
def execBany (a b : Reg) (off : BitVec 32) (s : State) : Out :=
  branch 12 ((s.rd a &&& s.mask b) != 0) (off.signExtend 64) s
/-- BNONE (R92). -/
def execBnone (a b : Reg) (off : BitVec 32) (s : State) : Out :=
  branch 12 ((s.rd a &&& s.mask b) == 0) (off.signExtend 64) s
/-- BALL (R92). -/
def execBall (a b : Reg) (off : BitVec 32) (s : State) : Out :=
  branch 12 ((s.rd a &&& s.mask b) == s.mask b) (off.signExtend 64) s
/-- BNALL (R92). -/
def execBnall (a b : Reg) (off : BitVec 32) (s : State) : Out :=
  branch 12 ((s.rd a &&& s.mask b) != s.mask b) (off.signExtend 64) s

end Sys2Proof.Machine
end

