-- ==== Sys2Proof/Machine/FloatOps.lean ====
section
/-! DEFINITION. Scalar floating point: arithmetic, fused multiply-add, comparison, classes and conversions (spec/04 R85 to R89). -/

namespace Sys2Proof.Machine

/-- A floating-point result and its flags (R85). -/
def fpResult (n : Nat) (d : Reg) (r : Rnd) (s : State) : Out := result n d (BitVec.ofNat 64 r.code) (s.flag r.flags)

/-- A two-operand operation over the patterns of a and b (R85, R86). -/
def fpTwo (n : Nat) (f : Fmt → Rm → Nat → Nat → Rnd) (t : FpType) (d : Reg) (a b : Word) (s : State) : Out :=
  fpResult n d (f (FpType.fmt t) s.rm a.toNat b.toNat) s

/-- A comparison's result: 1 when the ordering is one of those given; flags as fCmp gives them (R88). -/
def fpCompare (ordered : Bool) (ok : Ordering → Bool) (t : FpType) (d a b : Reg) (s : State) : Out :=
  let (o, f) := fCmp (FpType.fmt t) ordered (s.rd a).toNat (s.rd b).toNat
  result 4 d (boolWord (match o with | some x => ok x | none => false)) (s.flag f)

/-- FADD (R86). -/
def execFadd (t : FpType) (d a b : Reg) (s : State) : Out := fpTwo 4 fAdd t d (s.rd a) (s.rd b) s
/-- FADD with a literal (R86). -/
def execFaddLit (t : FpType) (d a : Reg) (x : Word) (s : State) : Out := fpTwo 12 fAdd t d (s.rd a) x s
/-- FSUB (R86). -/
def execFsub (t : FpType) (d a b : Reg) (s : State) : Out := fpTwo 4 fSub t d (s.rd a) (s.rd b) s
/-- FSUB with a literal (R86). -/
def execFsubLit (t : FpType) (d a : Reg) (x : Word) (s : State) : Out := fpTwo 12 fSub t d (s.rd a) x s
/-- FMUL (R86). -/
def execFmul (t : FpType) (d a b : Reg) (s : State) : Out := fpTwo 4 fMul t d (s.rd a) (s.rd b) s
/-- FMUL with a literal (R86). -/
def execFmulLit (t : FpType) (d a : Reg) (x : Word) (s : State) : Out := fpTwo 12 fMul t d (s.rd a) x s
/-- FDIV (R86). -/
def execFdiv (t : FpType) (d a b : Reg) (s : State) : Out := fpTwo 4 fDiv t d (s.rd a) (s.rd b) s
/-- FDIV with a literal (R86). -/
def execFdivLit (t : FpType) (d a : Reg) (x : Word) (s : State) : Out := fpTwo 12 fDiv t d (s.rd a) x s
/-- FMIN (R71). -/
def execFmin (t : FpType) (d a b : Reg) (s : State) : Out := fpTwo 4 (fun f _ => fMinMax f false) t d (s.rd a) (s.rd b) s
/-- FMIN with a literal (R71). -/
def execFminLit (t : FpType) (d a : Reg) (x : Word) (s : State) : Out := fpTwo 12 (fun f _ => fMinMax f false) t d (s.rd a) x s
/-- FMAX (R71). -/
def execFmax (t : FpType) (d a b : Reg) (s : State) : Out := fpTwo 4 (fun f _ => fMinMax f true) t d (s.rd a) (s.rd b) s
/-- FMAX with a literal (R71). -/
def execFmaxLit (t : FpType) (d a : Reg) (x : Word) (s : State) : Out := fpTwo 12 (fun f _ => fMinMax f true) t d (s.rd a) x s
/-- FSQRT (R86). -/
def execFsqrt (t : FpType) (d a : Reg) (s : State) : Out := fpResult 4 d (fSqrt (FpType.fmt t) s.rm (s.rd a).toNat) s
/-- FNEG (R86): no rounding and no flag. -/
def execFneg (t : FpType) (d a : Reg) (s : State) : Out :=
  result 4 d (BitVec.ofNat 64 (fSign (FpType.fmt t) false (s.rd a).toNat)) s
/-- FABS (R86): no rounding and no flag. -/
def execFabs (t : FpType) (d a : Reg) (s : State) : Out :=
  result 4 d (BitVec.ofNat 64 (fSign (FpType.fmt t) true (s.rd a).toNat)) s
/-- FMA (R87). -/
def execFma (t : FpType) (d a b c : Reg) (s : State) : Out :=
  fpResult 4 d (fFma (FpType.fmt t) s.rm false (s.rd a).toNat (s.rd b).toNat (s.rd c).toNat) s
/-- FNMA (R87). -/
def execFnma (t : FpType) (d a b c : Reg) (s : State) : Out :=
  fpResult 4 d (fFma (FpType.fmt t) s.rm true (s.rd a).toNat (s.rd b).toNat (s.rd c).toNat) s
/-- FEQ (R88). -/
def execFeq (t : FpType) (d a b : Reg) (s : State) : Out := fpCompare false (· == .eq) t d a b s
/-- FLT (R88). -/
def execFlt (t : FpType) (d a b : Reg) (s : State) : Out := fpCompare true (· == .lt) t d a b s
/-- FLE (R88). -/
def execFle (t : FpType) (d a b : Reg) (s : State) : Out := fpCompare true (· != .gt) t d a b s
/-- FCLASS (R88). -/
def execFclass (t : FpType) (d a : Reg) (s : State) : Out := result 4 d (fClass (FpType.fmt t) (s.rd a).toNat) s

/-! ## Conversions (R89) -/

/-- The format of a conversion code; integer codes have none (R89). -/
def CvtCode.fmt? : CvtCode → Option Fmt
  | .f32 => some .f32 | .f16 => some .f16 | .bf16 => some .bf16 | .t8 => some .t8 | .e4 => some .e4 | .e5 => some .e5
  | .i32 | .n32 | .i64 | .n64 => none

/-- The value of a conversion's source (R89). -/
def cvtSource (c : CvtCode) (a : Word) : FVal :=
  match c with
  | .f32 => unpack .f32 a.toNat | .f16 => unpack .f16 a.toNat | .bf16 => unpack .bf16 a.toNat
  | .t8 => unpack .t8 a.toNat | .e4 => unpack .e4 a.toNat | .e5 => unpack .e5 a.toNat
  | .i32 => intVal (toSigned 32 a.toNat)
  | .n32 => intVal (a.toNat % 2 ^ 32 : Nat)
  | .i64 => intVal a.toInt
  | .n64 => intVal (a.toNat : Nat)

/-- The range of an integer conversion code (R70). -/
def cvtRange : CvtCode → Int × Int
  | .i32 => (-(2 ^ 31), 2 ^ 31 - 1) | .n32 => (0, 2 ^ 32 - 1) | .n64 => (0, 2 ^ 64 - 1)
  | _ => (-(2 ^ 63), 2 ^ 63 - 1)

/-- Whether a conversion to a format draws in a slot (R67). -/
def Slot.draws (x : Slot) (f : Fmt) : Bool := x.fpMode.getLsbD 3 && f.stochastic

/-- FCVT (R89): a stochastic conversion draws exactly once. -/
def execFcvt (tgt src : CvtCode) (d a : Reg) (s : State) : Out :=
  let v := cvtSource src (s.rd a)
  match CvtCode.fmt? tgt with
  | some f =>
    if s.me.draws f then
      let q := xorshift s.me.srState
      fpResult 4 d (convert f s.rm (some q) v) (s.updMe fun x => { x with srState := q })
    else fpResult 4 d (convert f s.rm none v) s
  | none =>
    let (lo, hi) := cvtRange tgt
    let (x, fl) := convertInt s.rm lo hi v
    result 4 d (BitVec.ofInt 64 x) (s.flag fl)

end Sys2Proof.Machine
end

