-- ==== Sys2Proof/Machine/Integer.lean ====
section
/-! DEFINITION. Scalar integer instructions: arithmetic and logic, multiplication and division, bit fields and mask bits, message
headers, literal moves, addresses and selection (spec/04 R72 to R84). -/

namespace Sys2Proof.Machine

/-! ## The operations -/

/-- Signed quotient, truncating (R75). -/
def divS (a b : Word) : Word := if b = 0 then BitVec.allOnes 64 else BitVec.sdiv a b
/-- Unsigned quotient (R75). -/
def divU (a b : Word) : Word := if b = 0 then BitVec.allOnes 64 else a / b
/-- Signed remainder, with the sign of the dividend (R75). -/
def remS (a b : Word) : Word := if b = 0 then a else BitVec.srem a b
/-- Unsigned remainder (R75). -/
def remU (a b : Word) : Word := if b = 0 then a else a % b
/-- Bits [127:64] of a signed product (R75). -/
def mulHigh (a b : Word) : Word := BitVec.ofInt 64 (a.toInt * b.toInt / 2 ^ 64)
/-- Bits [127:64] of an unsigned product (R75). -/
def mulHighU (a b : Word) : Word := BitVec.ofNat 64 (a.toNat * b.toNat / 2 ^ 64)
/-- A shift amount, b[5:0] (R74). -/
def amt (b : Word) : Nat := b.toNat % 64
/-- Zero bits below the lowest one, among `n` bits. -/
def trailing (a : Nat) : Nat → Nat
  | 0 => 0
  | n + 1 => if a % 2 = 1 then 0 else trailing (a / 2) n + 1
/-- One bits among the low `n` bits. -/
def ones (a : Nat) : Nat → Nat
  | 0 => 0
  | n + 1 => a % 2 + ones (a / 2) n
/-- The low `n` bits in reverse order. -/
def revBits (a : Nat) : Nat → Nat
  | 0 => 0
  | n + 1 => a % 2 * 2 ^ n + revBits (a / 2) n
/-- A mask of the low a bits (R78). -/
def maskLow (a : Word) : Word := if 64 ≤ a.toNat then BitVec.allOnes 64 else BitVec.ofNat 64 (2 ^ a.toNat - 1)
/-- A bit field of a word, zero-extended (R79). -/
def fieldU (a : Word) (pos len1 : Nat) : Word := BitVec.ofNat 64 (fld a.toNat pos (len1 + 1))
/-- A bit field of a word, sign-extended (R79). -/
def fieldS (a : Word) (pos len1 : Nat) : Word := sext (len1 + 1) (fld a.toNat pos (len1 + 1))
/-- A word with a bit field inserted (R79). -/
def fieldPut (d a : Word) (pos len1 : Nat) : Word := setBits d (pos + len1) pos a.toNat
/-- The register of a header group that holds a bit position (R81). -/
def hdrReg (a : Reg) (pos : Fin 512) : Reg := reg (a.val + pos.val / 64)

/-! ## Majors 0x01 and 0x02 (R74, R75) -/

/-- ADD (R74). -/
def execAdd (d a b : Reg) (s : State) : Out := result 4 d ((s.rd a) + (s.rd b)) s
/-- ADD with a literal (R74). -/
def execAddLit (d a : Reg) (x : Word) (s : State) : Out := result 12 d ((s.rd a) + x) s
/-- SUB (R74). -/
def execSub (d a b : Reg) (s : State) : Out := result 4 d ((s.rd a) - (s.rd b)) s
/-- SUB with a literal (R74). -/
def execSubLit (d a : Reg) (x : Word) (s : State) : Out := result 12 d ((s.rd a) - x) s
/-- AND (R74). -/
def execAnd (d a b : Reg) (s : State) : Out := result 4 d ((s.rd a) &&& (s.rd b)) s
/-- AND with a literal (R74). -/
def execAndLit (d a : Reg) (x : Word) (s : State) : Out := result 12 d ((s.rd a) &&& x) s
/-- OR (R74). -/
def execOr (d a b : Reg) (s : State) : Out := result 4 d ((s.rd a) ||| (s.rd b)) s
/-- OR with a literal (R74). -/
def execOrLit (d a : Reg) (x : Word) (s : State) : Out := result 12 d ((s.rd a) ||| x) s
/-- XOR (R74). -/
def execXor (d a b : Reg) (s : State) : Out := result 4 d ((s.rd a) ^^^ (s.rd b)) s
/-- XOR with a literal (R74). -/
def execXorLit (d a : Reg) (x : Word) (s : State) : Out := result 12 d ((s.rd a) ^^^ x) s
/-- ANDN (R74). -/
def execAndn (d a b : Reg) (s : State) : Out := result 4 d ((s.rd a) &&& ~~~(s.rd b)) s
/-- ANDN with a literal (R74). -/
def execAndnLit (d a : Reg) (x : Word) (s : State) : Out := result 12 d ((s.rd a) &&& ~~~x) s
/-- SLL (R74). -/
def execSll (d a b : Reg) (s : State) : Out := result 4 d ((s.rd a) <<< amt (s.rd b)) s
/-- SLL with a literal (R74). -/
def execSllLit (d a : Reg) (x : Word) (s : State) : Out := result 12 d ((s.rd a) <<< amt x) s
/-- SRL (R74). -/
def execSrl (d a b : Reg) (s : State) : Out := result 4 d ((s.rd a) >>> amt (s.rd b)) s
/-- SRL with a literal (R74). -/
def execSrlLit (d a : Reg) (x : Word) (s : State) : Out := result 12 d ((s.rd a) >>> amt x) s
/-- SRA (R74). -/
def execSra (d a b : Reg) (s : State) : Out := result 4 d ((s.rd a).sshiftRight (amt (s.rd b))) s
/-- SRA with a literal (R74). -/
def execSraLit (d a : Reg) (x : Word) (s : State) : Out := result 12 d ((s.rd a).sshiftRight (amt x)) s
/-- ROR (R74). -/
def execRor (d a b : Reg) (s : State) : Out := result 4 d ((s.rd a).rotateRight (amt (s.rd b))) s
/-- ROR with a literal (R74). -/
def execRorLit (d a : Reg) (x : Word) (s : State) : Out := result 12 d ((s.rd a).rotateRight (amt x)) s
/-- SLT (R74). -/
def execSlt (d a b : Reg) (s : State) : Out := result 4 d (boolWord ((s.rd a).slt (s.rd b))) s
/-- SLT with a literal (R74). -/
def execSltLit (d a : Reg) (x : Word) (s : State) : Out := result 12 d (boolWord ((s.rd a).slt x)) s
/-- SLTU (R74). -/
def execSltu (d a b : Reg) (s : State) : Out := result 4 d (boolWord ((s.rd a).ult (s.rd b))) s
/-- SLTU with a literal (R74). -/
def execSltuLit (d a : Reg) (x : Word) (s : State) : Out := result 12 d (boolWord ((s.rd a).ult x)) s
/-- SEQ (R74). -/
def execSeq (d a b : Reg) (s : State) : Out := result 4 d (boolWord ((s.rd a) == (s.rd b))) s
/-- SEQ with a literal (R74). -/
def execSeqLit (d a : Reg) (x : Word) (s : State) : Out := result 12 d (boolWord ((s.rd a) == x)) s
/-- MIN (R74). -/
def execMin (d a b : Reg) (s : State) : Out := result 4 d (if (s.rd a).slt (s.rd b) then (s.rd a) else (s.rd b)) s
/-- MIN with a literal (R74). -/
def execMinLit (d a : Reg) (x : Word) (s : State) : Out := result 12 d (if (s.rd a).slt x then (s.rd a) else x) s
/-- MAX (R74). -/
def execMax (d a b : Reg) (s : State) : Out := result 4 d (if (s.rd a).slt (s.rd b) then (s.rd b) else (s.rd a)) s
/-- MAX with a literal (R74). -/
def execMaxLit (d a : Reg) (x : Word) (s : State) : Out := result 12 d (if (s.rd a).slt x then x else (s.rd a)) s
/-- MINU (R74). -/
def execMinu (d a b : Reg) (s : State) : Out := result 4 d (if (s.rd a).ult (s.rd b) then (s.rd a) else (s.rd b)) s
/-- MINU with a literal (R74). -/
def execMinuLit (d a : Reg) (x : Word) (s : State) : Out := result 12 d (if (s.rd a).ult x then (s.rd a) else x) s
/-- MAXU (R74). -/
def execMaxu (d a b : Reg) (s : State) : Out := result 4 d (if (s.rd a).ult (s.rd b) then (s.rd b) else (s.rd a)) s
/-- MAXU with a literal (R74). -/
def execMaxuLit (d a : Reg) (x : Word) (s : State) : Out := result 12 d (if (s.rd a).ult x then x else (s.rd a)) s
/-- MUL (R75). -/
def execMul (d a b : Reg) (s : State) : Out := result 4 d ((s.rd a) * (s.rd b)) s
/-- MUL with a literal (R75). -/
def execMulLit (d a : Reg) (x : Word) (s : State) : Out := result 12 d ((s.rd a) * x) s
/-- MULH (R75). -/
def execMulh (d a b : Reg) (s : State) : Out := result 4 d (mulHigh (s.rd a) (s.rd b)) s
/-- MULH with a literal (R75). -/
def execMulhLit (d a : Reg) (x : Word) (s : State) : Out := result 12 d (mulHigh (s.rd a) x) s
/-- MULHU (R75). -/
def execMulhu (d a b : Reg) (s : State) : Out := result 4 d (mulHighU (s.rd a) (s.rd b)) s
/-- MULHU with a literal (R75). -/
def execMulhuLit (d a : Reg) (x : Word) (s : State) : Out := result 12 d (mulHighU (s.rd a) x) s
/-- DIV (R75). -/
def execDiv (d a b : Reg) (s : State) : Out := result 4 d (divS (s.rd a) (s.rd b)) s
/-- DIV with a literal (R75). -/
def execDivLit (d a : Reg) (x : Word) (s : State) : Out := result 12 d (divS (s.rd a) x) s
/-- DIVU (R75). -/
def execDivu (d a b : Reg) (s : State) : Out := result 4 d (divU (s.rd a) (s.rd b)) s
/-- DIVU with a literal (R75). -/
def execDivuLit (d a : Reg) (x : Word) (s : State) : Out := result 12 d (divU (s.rd a) x) s
/-- REM (R75). -/
def execRem (d a b : Reg) (s : State) : Out := result 4 d (remS (s.rd a) (s.rd b)) s
/-- REM with a literal (R75). -/
def execRemLit (d a : Reg) (x : Word) (s : State) : Out := result 12 d (remS (s.rd a) x) s
/-- REMU (R75). -/
def execRemu (d a b : Reg) (s : State) : Out := result 4 d (remU (s.rd a) (s.rd b)) s
/-- REMU with a literal (R75). -/
def execRemuLit (d a : Reg) (x : Word) (s : State) : Out := result 12 d (remU (s.rd a) x) s

/-! ## Immediates (R76, R77) -/

/-- ADDI (R76). -/
def execAddi (d a : Reg) (imm : BitVec 13) (s : State) : Out := result 4 d (s.rd a + imm.signExtend 64) s
/-- ANDI (R76). -/
def execAndi (d a : Reg) (imm : BitVec 13) (s : State) : Out := result 4 d (s.rd a &&& imm.signExtend 64) s
/-- SLLI (R77). -/
def execSlli (d a : Reg) (n : Fin 64) (s : State) : Out := result 4 d (s.rd a <<< n.val) s
/-- SRLI (R77). -/
def execSrli (d a : Reg) (n : Fin 64) (s : State) : Out := result 4 d (s.rd a >>> n.val) s
/-- SRAI (R77). -/
def execSrai (d a : Reg) (n : Fin 64) (s : State) : Out := result 4 d ((s.rd a).sshiftRight n.val) s
/-- RORI (R77). -/
def execRori (d a : Reg) (n : Fin 64) (s : State) : Out := result 4 d ((s.rd a).rotateRight n.val) s

/-! ## Bits (R78) -/

/-- CLZ (R78). -/
def execClz (d a : Reg) (s : State) : Out := result 4 d (BitVec.ofNat 64 (64 - bitLen (s.rd a).toNat)) s
/-- CTZ (R78). -/
def execCtz (d a : Reg) (s : State) : Out := result 4 d (BitVec.ofNat 64 (trailing (s.rd a).toNat 64)) s
/-- POPC (R78). -/
def execPopc (d a : Reg) (s : State) : Out := result 4 d (BitVec.ofNat 64 (ones (s.rd a).toNat 64)) s
/-- BREV (R78). -/
def execBrev (d a : Reg) (s : State) : Out := result 4 d (BitVec.ofNat 64 (revBits (s.rd a).toNat 64)) s
/-- BSWAP (R78). -/
def execBswap (d a : Reg) (s : State) : Out := result 4 d (BitVec.ofNat 64 (leNat (leBytes 8 (s.rd a).toNat).reverse)) s
/-- LOWB (R78). -/
def execLowb (d a : Reg) (s : State) : Out := result 4 d (s.rd a &&& (0 - s.rd a)) s
/-- CLRLOW (R78). -/
def execClrlow (d a : Reg) (s : State) : Out := result 4 d (s.rd a &&& (s.rd a - 1)) s
/-- MASKN (R78). -/
def execMaskn (d a : Reg) (s : State) : Out := result 4 d (maskLow (s.rd a)) s
/-- BSET (R78). -/
def execBset (d a b : Reg) (s : State) : Out := result 4 d ((s.rd a) ||| (1 : Word) <<< amt (s.rd b)) s
/-- BSET with a literal (R78). -/
def execBsetLit (d a : Reg) (x : Word) (s : State) : Out := result 12 d ((s.rd a) ||| (1 : Word) <<< amt x) s
/-- BCLR (R78). -/
def execBclr (d a b : Reg) (s : State) : Out := result 4 d ((s.rd a) &&& ~~~((1 : Word) <<< amt (s.rd b))) s
/-- BCLR with a literal (R78). -/
def execBclrLit (d a : Reg) (x : Word) (s : State) : Out := result 12 d ((s.rd a) &&& ~~~((1 : Word) <<< amt x)) s
/-- BINV (R78). -/
def execBinv (d a b : Reg) (s : State) : Out := result 4 d ((s.rd a) ^^^ (1 : Word) <<< amt (s.rd b)) s
/-- BINV with a literal (R78). -/
def execBinvLit (d a : Reg) (x : Word) (s : State) : Out := result 12 d ((s.rd a) ^^^ (1 : Word) <<< amt x) s
/-- BEXT (R78). -/
def execBext (d a b : Reg) (s : State) : Out := result 4 d ((s.rd a) >>> amt (s.rd b) &&& 1) s
/-- BEXT with a literal (R78). -/
def execBextLit (d a : Reg) (x : Word) (s : State) : Out := result 12 d ((s.rd a) >>> amt x &&& 1) s

/-! ## Bit fields (R79) and message headers (R81) -/

/-- EXTU (R79). -/
def execExtu (d a : Reg) (pos len1 : Fin 64) (s : State) : Out := result 4 d (fieldU (s.rd a) pos.val len1.val) s
/-- EXTS (R79). -/
def execExts (d a : Reg) (pos len1 : Fin 64) (s : State) : Out := result 4 d (fieldS (s.rd a) pos.val len1.val) s
/-- FINS (R79): d is a source as well. -/
def execFins (d a : Reg) (pos len1 : Fin 64) (s : State) : Out := result 4 d (fieldPut (s.rd d) (s.rd a) pos.val len1.val) s
/-- HDR.GET (R81). -/
def execHdrGet (d a : Reg) (pos : Fin 512) (len1 : Fin 64) (s : State) : Out :=
  result 12 d (fieldU (s.rd (hdrReg a pos)) (pos.val % 64) len1.val) s
/-- HDR.GETS (R81). -/
def execHdrGets (d a : Reg) (pos : Fin 512) (len1 : Fin 64) (s : State) : Out :=
  result 12 d (fieldS (s.rd (hdrReg a pos)) (pos.val % 64) len1.val) s
/-- HDR.SET (R81). -/
def execHdrSet (a b : Reg) (pos : Fin 512) (len1 : Fin 64) (s : State) : Out :=
  result 12 (hdrReg a pos) (fieldPut (s.rd (hdrReg a pos)) (s.rd b) (pos.val % 64) len1.val) s
/-- HDR.MATCH (R81). -/
def execHdrMatch (d a b : Reg) (pos : Fin 512) (len1 : Fin 64) (s : State) : Out :=
  result 12 d (boolWord (fieldU (s.rd (hdrReg a pos)) (pos.val % 64) len1.val == fieldU (s.rd b) 0 len1.val)) s
/-- HDR.CLR (R81). -/
def execHdrClr (a : Reg) (s : State) : Out :=
  done 4 ((List.range 8).foldl (fun s i => s.wr (reg (a.val + i)) 0) s)

/-! ## Literal moves, addresses and selection (R82 to R84) -/

/-- LI (R82). -/
def execLi (d : Reg) (imm : BitVec 18) (s : State) : Out := result 4 d (imm.setWidth 64) s
/-- LI with a literal (R82). -/
def execLiLit (d : Reg) (x : Word) (s : State) : Out := result 12 d x s
/-- LA (R83): IMM18 is a signed count of 4-byte units. -/
def execLa (d : Reg) (imm : BitVec 18) (s : State) : Out := result 4 d (s.me.pc + imm.signExtend 64 * 4) s
/-- LA with a literal byte offset (R83). -/
def execLaLit (d : Reg) (x : Word) (s : State) : Out := result 12 d (s.me.pc + x) s
/-- SELNZ (R84). -/
def execSelnz (d a b c : Reg) (s : State) : Out := result 4 d (if s.rd c = 0 then s.rd b else s.rd a) s
/-- SELZ (R84). -/
def execSelz (d a b c : Reg) (s : State) : Out := result 4 d (if s.rd c = 0 then s.rd a else s.rd b) s
/-- MADD (R84). -/
def execMadd (d a b c : Reg) (s : State) : Out := result 4 d (s.rd c + s.rd a * s.rd b) s
/-- MSUB (R84). -/
def execMsub (d a b c : Reg) (s : State) : Out := result 4 d (s.rd c - s.rd a * s.rd b) s

end Sys2Proof.Machine
end

