-- ==== Sys2Proof/Machine/Vector.lean ====
section
/-! DEFINITION. Vector arithmetic, logic, shifts, conversions, compares, reductions and lane moves (spec/05 R107 to R123). -/

namespace Sys2Proof.Machine

/-! ## Lanes (R107 to R110) -/

/-- Lane i of a register, of w bits (R107). -/
def lane (w : Nat) (b : Block) (i : Nat) : Nat := fld b.toNat (w * i) w

/-- The register whose lanes of w bits are those of a list, from lane 0 up (R107). -/
def ofLanes (w : Nat) : List Nat → Nat
  | [] => 0
  | x :: t => x % 2 ^ w + 2 ^ w * ofLanes w t

/-- A register with the lanes of a list. -/
def vecOf (w : Nat) (l : List Nat) : Block := BitVec.ofNat 512 (ofLanes w l)

/-- A lane result and its flags. -/
abbrev LaneRes := Nat × FFlags

/-- The register after an operation over its active lanes (R108, R110). -/
def vecActive (ty : ElType) (k : Word) (old : Block) (f : Nat → LaneRes) : Block :=
  vecOf ty.width ((List.range ty.lanes).map fun i => if k.getLsbD i then (f i).1 else lane ty.width old i)

/-- The flags of the active lanes (R110). -/
def vecFlags (ty : ElType) (k : Word) (f : Nat → LaneRes) : FFlags :=
  (List.range ty.lanes).foldl (fun a i => if k.getLsbD i then a ||| (f i).2 else a) 0

/-- A vector instruction of n bytes over the active lanes of a mask register (R108, R110). -/
def vecInstr (n : Nat) (ty : ElType) (m d : Reg) (f : Nat → LaneRes) (s : State) : Out :=
  resultV n d (vecActive ty (s.mask m) (s.rdv d) f) (s.flag (vecFlags ty (s.mask m) f))

/-- Operand b of a lane: a lane of the vector register, or the low bits of the scalar register (R110). -/
def State.vb (s : State) (ty : ElType) (bs : Bool) (b : Reg) (i : Nat) : Nat :=
  if bs then (s.rd b).toNat % 2 ^ ty.width else lane ty.width (s.rdv b) i

/-- A lane of a vector register of the current slot. -/
def State.va (s : State) (ty : ElType) (a : Reg) (i : Nat) : Nat := lane ty.width (s.rdv a) i

/-- An integer lane as a number (R110). -/
def laneInt (un : Bool) (w x : Nat) : Int := if un then (x : Int) else toSigned w x

/-- Least and greatest value of an integer lane (R111). -/
def laneRange (un : Bool) (w : Nat) : Int × Int := if un then (0, 2 ^ w - 1) else (-(2 ^ (w - 1)), 2 ^ (w - 1) - 1)

/-- An integer narrowed to a lane: cut to w bits, or clamped when it saturates (R110, R111). -/
def laneCut (un sat : Bool) (w : Nat) (x : Int) : Nat :=
  let (lo, hi) := laneRange un w
  let y := if sat then (if x < lo then lo else if hi < x then hi else x) else x
  (y % (2 ^ w : Int)).toNat

/-- A lane result of the scalar operation's rounding and flags (R110). -/
def fpLane (r : Rnd) : LaneRes := (r.code, r.flags)

/-- A two-operand instruction: an integer operation narrowed, or a floating-point one (R111). -/
def vecTwo (n : Nat) (ty : ElType) (m d a b : Reg) (bs un sat : Bool) (f : Int → Int → Int) (g : Fmt → Rm → Nat → Nat → Rnd)
    (s : State) : Out :=
  vecInstr n ty m d (fun i =>
    let x := s.va ty a i
    let y := s.vb ty bs b i
    if ty.isInt then (laneCut un sat ty.width (f (laneInt un ty.width x) (laneInt un ty.width y)), 0)
    else fpLane (g (elFmt ty) s.rm x y)) s

/-- A two-operand instruction on bit patterns (R112, R113). -/
def vecBits (n : Nat) (ty : ElType) (m d a b : Reg) (bs : Bool) (f : Nat → Nat → Nat) (s : State) : Out :=
  vecInstr n ty m d (fun i => (f (s.va ty a i) (s.vb ty bs b i), 0)) s

/-! ## Arithmetic (R111) -/

/-- VADD (R111). -/
def execVadd (ty : ElType) (m d a b : Reg) (s : State) : Out := vecTwo 4 ty m d a b false false false (· + ·) fAdd s
/-- VADD with an extension word (R111). -/
def execVaddX (ty : ElType) (m d a b : Reg) (bs un sat : Bool) (s : State) : Out :=
  vecTwo 12 ty m d a b bs un sat (· + ·) fAdd s
/-- VSUB (R111). -/
def execVsub (ty : ElType) (m d a b : Reg) (s : State) : Out := vecTwo 4 ty m d a b false false false (· - ·) fSub s
/-- VSUB with an extension word (R111). -/
def execVsubX (ty : ElType) (m d a b : Reg) (bs un sat : Bool) (s : State) : Out :=
  vecTwo 12 ty m d a b bs un sat (· - ·) fSub s
/-- VMUL (R111). -/
def execVmul (ty : ElType) (m d a b : Reg) (s : State) : Out := vecTwo 4 ty m d a b false false false (· * ·) fMul s
/-- VMUL with an extension word (R111). -/
def execVmulX (ty : ElType) (m d a b : Reg) (bs : Bool) (s : State) : Out :=
  vecTwo 12 ty m d a b bs false false (· * ·) fMul s
/-- The high half of a lane product (R111). -/
def vecHigh (n : Nat) (ty : ElType) (m d a b : Reg) (bs un : Bool) (s : State) : Out :=
  vecTwo n ty m d a b bs un false (fun x y => x * y / 2 ^ ty.width) fMul s
/-- VMULH (R111). -/
def execVmulh (ty : ElType) (m d a b : Reg) (s : State) : Out := vecHigh 4 ty m d a b false false s
/-- VMULH with an extension word (R111). -/
def execVmulhX (ty : ElType) (m d a b : Reg) (bs un : Bool) (s : State) : Out := vecHigh 12 ty m d a b bs un s
/-- VMIN (R111). -/
def execVmin (ty : ElType) (m d a b : Reg) (s : State) : Out :=
  vecTwo 4 ty m d a b false false false (fun x y => if x < y then x else y) (fun f _ => fMinMax f false) s
/-- VMIN with an extension word (R111). -/
def execVminX (ty : ElType) (m d a b : Reg) (bs un : Bool) (s : State) : Out :=
  vecTwo 12 ty m d a b bs un false (fun x y => if x < y then x else y) (fun f _ => fMinMax f false) s
/-- VMAX (R111). -/
def execVmax (ty : ElType) (m d a b : Reg) (s : State) : Out :=
  vecTwo 4 ty m d a b false false false (fun x y => if x < y then y else x) (fun f _ => fMinMax f true) s
/-- VMAX with an extension word (R111). -/
def execVmaxX (ty : ElType) (m d a b : Reg) (bs un : Bool) (s : State) : Out :=
  vecTwo 12 ty m d a b bs un false (fun x y => if x < y then y else x) (fun f _ => fMinMax f true) s

/-! ## Logic and shifts (R112, R113) -/

/-- VAND (R112). -/
def execVand (ty : ElType) (m d a b : Reg) (s : State) : Out := vecBits 4 ty m d a b false (· &&& ·) s
/-- VAND with an extension word (R112). -/
def execVandX (ty : ElType) (m d a b : Reg) (bs : Bool) (s : State) : Out := vecBits 12 ty m d a b bs (· &&& ·) s
/-- VOR (R112). -/
def execVor (ty : ElType) (m d a b : Reg) (bs : Bool) (s : State) : Out := vecBits 12 ty m d a b bs (· ||| ·) s
/-- VXOR (R112). -/
def execVxor (ty : ElType) (m d a b : Reg) (bs : Bool) (s : State) : Out := vecBits 12 ty m d a b bs (· ^^^ ·) s
/-- VANDN (R112). -/
def execVandn (ty : ElType) (m d a b : Reg) (bs : Bool) (s : State) : Out :=
  vecBits 12 ty m d a b bs (fun x y => x &&& (2 ^ ty.width - 1 - y)) s

/-- Left shift of a lane (R113). -/
def laneSll (w x n : Nat) : Nat := x * 2 ^ n % 2 ^ w
/-- Logical right shift of a lane (R113). -/
def laneSrl (x n : Nat) : Nat := x / 2 ^ n
/-- Arithmetic right shift of a lane (R113). -/
def laneSra (w x n : Nat) : Nat := laneCut true false w (toSigned w x / 2 ^ n)

/-- VSLL (R113): the amount is b[log2(w) - 1:0]. -/
def execVsll (ty : ElType) (m d a b : Reg) (s : State) : Out :=
  vecBits 4 ty m d a b false (fun x y => laneSll ty.width x (y % ty.width)) s
/-- VSLL with an extension word (R113). -/
def execVsllX (ty : ElType) (m d a b : Reg) (bs : Bool) (s : State) : Out :=
  vecBits 12 ty m d a b bs (fun x y => laneSll ty.width x (y % ty.width)) s
/-- VSRL (R113). -/
def execVsrl (ty : ElType) (m d a b : Reg) (bs : Bool) (s : State) : Out :=
  vecBits 12 ty m d a b bs (fun x y => laneSrl x (y % ty.width)) s
/-- VSRA (R113). -/
def execVsra (ty : ElType) (m d a b : Reg) (bs : Bool) (s : State) : Out :=
  vecBits 12 ty m d a b bs (fun x y => laneSra ty.width x (y % ty.width)) s
/-- VSLLI (R113). -/
def execVslli (ty : ElType) (m d a : Reg) (n : BitVec 8) (s : State) : Out :=
  vecInstr 12 ty m d (fun i => (laneSll ty.width (s.va ty a i) n.toNat, 0)) s
/-- VSRLI (R113). -/
def execVsrli (ty : ElType) (m d a : Reg) (n : BitVec 8) (s : State) : Out :=
  vecInstr 12 ty m d (fun i => (laneSrl (s.va ty a i) n.toNat, 0)) s
/-- VSRAI (R113). -/
def execVsrai (ty : ElType) (m d a : Reg) (n : BitVec 8) (s : State) : Out :=
  vecInstr 12 ty m d (fun i => (laneSra ty.width (s.va ty a i) n.toNat, 0)) s

/-! ## Fused multiply-add and signs (R114, R115) -/

/-- Lane-wise fused multiply-add (R114). -/
def vecFma (n : Nat) (ty : ElType) (m d a b : Reg) (bs : Bool) (vc : Reg) (negate : Bool) (s : State) : Out :=
  vecInstr n ty m d (fun i => fpLane (fFma (elFmt ty) s.rm negate (s.va ty a i) (s.vb ty bs b i) (s.va ty vc i))) s
/-- VFMA, 32-bit form (R114). -/
def execVfma (ty : ElType) (m d a b : Reg) (s : State) : Out := vecFma 4 ty m d a b false 0 false s
/-- VFMA with an extension word (R114). -/
def execVfmaX (ty : ElType) (m d a b : Reg) (bs : Bool) (vc : Reg) (s : State) : Out := vecFma 12 ty m d a b bs vc false s
/-- VFNMA (R114). -/
def execVfnma (ty : ElType) (m d a b : Reg) (bs : Bool) (vc : Reg) (s : State) : Out := vecFma 12 ty m d a b bs vc true s

/-- Lane-wise negate or absolute value (R115). -/
def vecSign (n : Nat) (ty : ElType) (m d a : Reg) (abs sat : Bool) (s : State) : Out :=
  vecInstr n ty m d (fun i =>
    let x := s.va ty a i
    if ty.isInt then
      let v := toSigned ty.width x
      (laneCut false sat ty.width (if abs && 0 ≤ v then v else -v), 0)
    else (fSign (elFmt ty) abs x, 0)) s
/-- VNEG (R115). -/
def execVneg (ty : ElType) (m d a : Reg) (s : State) : Out := vecSign 4 ty m d a false false s
/-- VNEG with an extension word (R115). -/
def execVnegX (ty : ElType) (m d a : Reg) (sat : Bool) (s : State) : Out := vecSign 12 ty m d a false sat s
/-- VABS (R115). -/
def execVabs (ty : ElType) (m d a : Reg) (sat : Bool) (s : State) : Out := vecSign 12 ty m d a true sat s

/-! ## Conversion (R116) -/

/-- One converted lane (R116): its bits and flags. -/
def cvtLane (rm : Rm) (ty : ElType) (un sat : Bool) (src : ElType) (srcUn : Bool) (draw : Option (BitVec 32)) (x : Nat) : LaneRes :=
  if ty.isInt then
    if src.isInt then (laneCut un sat ty.width (laneInt srcUn src.width x), 0)
    else
      let (lo, hi) := laneRange un ty.width
      let (v, f) := convertInt rm lo hi (unpack (elFmt src) x)
      (laneCut un false ty.width v, f)
  else fpLane (convert (elFmt ty) rm draw (if src.isInt then intVal (laneInt srcUn src.width x) else unpack (elFmt src) x))

/-- The lanes of a conversion in ascending order of destination lanes, with the generator's state threaded through the active
ones (R67, R116). -/
def cvtLanes (draws : Bool) (f : Option (BitVec 32) → Nat → LaneRes) (active : Nat → Bool) : Nat → Nat → BitVec 32 →
    List (Nat × LaneRes) × BitVec 32
  | _, 0, q => ([], q)
  | i, k + 1, q =>
    if active i then
      let q1 := if draws then xorshift q else q
      let (l, q2) := cvtLanes draws f active (i + 1) k q1
      ((i, f (if draws then some q1 else none) i) :: l, q2)
    else cvtLanes draws f active (i + 1) k q

/-- VCVT of n bytes (R116). -/
def vecCvt (n : Nat) (ty : ElType) (m d a : Reg) (un sat : Bool) (src : ElType) (srcUn : Bool) (p : Nat) (s : State) : Out :=
  let cnt := Nat.min ty.lanes src.lanes
  let si (i : Nat) : Nat := if ty.lanes < src.lanes then p * cnt + i else i
  let di (i : Nat) : Nat := if src.lanes < ty.lanes then p * cnt + i else i
  let k := s.mask m
  let draws := !ty.isInt && s.me.draws (elFmt ty)
  let (l, q) := cvtLanes draws (fun dr i => cvtLane s.rm ty un sat src srcUn dr (lane src.width (s.rdv a) (si i)))
    (fun i => k.getLsbD (di i)) 0 cnt s.me.srState
  let old := s.rdv d
  let new := vecOf ty.width ((List.range ty.lanes).map fun j =>
    match l.find? fun r => di r.1 = j with
    | some r => r.2.1
    | none => lane ty.width old j)
  let fl := l.foldl (fun f r => f ||| r.2.2) 0
  resultV n d new ((s.updMe fun x => { x with srState := q }).flag fl)

/-- VCVT, 32-bit form: from i32, part 0 (R116). -/
def execVcvt (ty : ElType) (m d a : Reg) (s : State) : Out := vecCvt 4 ty m d a false false .i32 false 0 s
/-- VCVT with an extension word (R116). -/
def execVcvtX (ty : ElType) (m d a : Reg) (un sat : Bool) (src : ElType) (srcUn : Bool) (p : Fin 8) (s : State) : Out :=
  vecCvt 12 ty m d a un sat src srcUn p.val s

/-! ## Compares and selection (R117, R118) -/

/-- The mask of the active lanes for which a comparison holds (R117). -/
def cmpMask (ty : ElType) (k : Word) (f : Nat → Bool) : Word :=
  BitVec.ofNat 64 ((List.range ty.lanes).foldl (fun a i => if k.getLsbD i && f i then a + 2 ^ i else a) 0)

/-- A compare of n bytes (R117): `unord` is its result on unordered lanes, `ordered` whether a quiet NaN raises nv. -/
def vecCmp (n : Nat) (ty : ElType) (m a b : Reg) (bs un : Bool) (sx : Reg) (ok : Ordering → Bool) (unord ordered : Bool)
    (s : State) : Out :=
  let k := s.mask m
  let x (i : Nat) : Nat := s.va ty a i
  let y (i : Nat) : Nat := s.vb ty bs b i
  if ty.isInt then
    result n sx (cmpMask ty k fun i => ok (compare (laneInt un ty.width (x i)) (laneInt un ty.width (y i)))) s
  else
    let c (i : Nat) := fCmp (elFmt ty) ordered (x i) (y i)
    result n sx (cmpMask ty k fun i => match (c i).1 with | some o => ok o | none => unord)
      (s.flag (vecFlags ty k fun i => (0, (c i).2)))

/-- VCEQ, 32-bit form: into s0 (R117). -/
def execVceq (ty : ElType) (m a b : Reg) (s : State) : Out := vecCmp 4 ty m a b false false 0 (· == .eq) false false s
/-- VCEQ with an extension word (R117). -/
def execVceqX (ty : ElType) (m a b : Reg) (bs un : Bool) (sx : Reg) (s : State) : Out :=
  vecCmp 12 ty m a b bs un sx (· == .eq) false false s
/-- VCNE (R117). -/
def execVcne (ty : ElType) (m a b : Reg) (bs un : Bool) (sx : Reg) (s : State) : Out :=
  vecCmp 12 ty m a b bs un sx (· != .eq) true false s
/-- VCLT (R117). -/
def execVclt (ty : ElType) (m a b : Reg) (bs un : Bool) (sx : Reg) (s : State) : Out :=
  vecCmp 12 ty m a b bs un sx (· == .lt) false true s
/-- VCLE (R117). -/
def execVcle (ty : ElType) (m a b : Reg) (bs un : Bool) (sx : Reg) (s : State) : Out :=
  vecCmp 12 ty m a b bs un sx (· != .gt) false true s
/-- VCGT (R117). -/
def execVcgt (ty : ElType) (m a b : Reg) (bs un : Bool) (sx : Reg) (s : State) : Out :=
  vecCmp 12 ty m a b bs un sx (· == .gt) false true s
/-- VCGE (R117). -/
def execVcge (ty : ElType) (m a b : Reg) (bs un : Bool) (sx : Reg) (s : State) : Out :=
  vecCmp 12 ty m a b bs un sx (· != .lt) false true s
/-- Selection: every lane is written (R118). -/
def vecSel (n : Nat) (ty : ElType) (m d a b : Reg) (bs : Bool) (s : State) : Out :=
  let k := s.mask m
  resultV n d (vecOf ty.width ((List.range ty.lanes).map fun i => if k.getLsbD i then s.va ty a i else s.vb ty bs b i)) s
/-- VSEL (R118). -/
def execVsel (ty : ElType) (m d a b : Reg) (s : State) : Out := vecSel 4 ty m d a b false s
/-- VSEL with an extension word (R118). -/
def execVselX (ty : ElType) (m d a b : Reg) (bs : Bool) (s : State) : Out := vecSel 12 ty m d a b bs s

/-! ## Reductions (R119) -/

/-- The active lanes of a register, from lane 0 up. -/
def activeLanes (ty : ElType) (k : Word) (b : Block) : List Nat :=
  ((List.range ty.lanes).filter fun i => k.getLsbD i).map (lane ty.width b)

/-- VREDSUM of n bytes (R119). -/
def vecRedSum (n : Nat) (ty : ElType) (m a : Reg) (un : Bool) (sx : Reg) (s : State) : Out :=
  let l := activeLanes ty (s.mask m) (s.rdv a)
  if ty.isInt then result n sx (BitVec.ofInt 64 (l.foldl (fun t x => t + laneInt un ty.width x) 0)) s
  else
    let f := elFmt ty
    let v := l.map (unpack f)
    if v.isEmpty then result n sx 0 s
    else
      let r := sumRound f s.rm (zeroSign s.rm (v.all FVal.isNegZero)) v
      result n sx (BitVec.ofNat 64 r.code) (s.flag r.flags)

/-- VREDMIN and VREDMAX (R119). -/
def vecRedMinMax (ty : ElType) (m a : Reg) (un : Bool) (sx : Reg) (max : Bool) (s : State) : Out :=
  let l := activeLanes ty (s.mask m) (s.rdv a)
  if ty.isInt then
    let (lo, hi) := laneRange un ty.width
    let v := l.foldl (fun t x =>
      let y := laneInt un ty.width x
      if max then (if t < y then y else t) else (if y < t then y else t)) (if max then lo else hi)
    result 12 sx (BitVec.ofInt 64 v) s
  else
    let f := elFmt ty
    let r := l.foldl (fun (t : Rnd) x => let y := fMinMax f max t.code x; { y with flags := t.flags ||| y.flags }) ⟨f.nan, 0⟩
    result 12 sx (BitVec.ofNat 64 r.code) (s.flag r.flags)

/-- A bitwise reduction (R119). -/
def vecRedBits (ty : ElType) (m a : Reg) (sx : Reg) (f : Nat → Nat → Nat) (init : Nat) (s : State) : Out :=
  result 12 sx (BitVec.ofNat 64 ((activeLanes ty (s.mask m) (s.rdv a)).foldl f init)) s

/-- VREDSUM, 32-bit form: into s0 (R119). -/
def execVredsum (ty : ElType) (m a : Reg) (s : State) : Out := vecRedSum 4 ty m a false 0 s
/-- VREDSUM with an extension word (R119). -/
def execVredsumX (ty : ElType) (m a : Reg) (un : Bool) (sx : Reg) (s : State) : Out := vecRedSum 12 ty m a un sx s
/-- VREDMIN (R119). -/
def execVredmin (ty : ElType) (m a : Reg) (un : Bool) (sx : Reg) (s : State) : Out := vecRedMinMax ty m a un sx false s
/-- VREDMAX (R119). -/
def execVredmax (ty : ElType) (m a : Reg) (un : Bool) (sx : Reg) (s : State) : Out := vecRedMinMax ty m a un sx true s
/-- VREDAND (R119); `un` changes no bit of the result. -/
def execVredand (ty : ElType) (m a : Reg) (_un : Bool) (sx : Reg) (s : State) : Out := vecRedBits ty m a sx (· &&& ·) (2 ^ ty.width - 1) s
/-- VREDOR (R119). -/
def execVredor (ty : ElType) (m a : Reg) (_un : Bool) (sx : Reg) (s : State) : Out := vecRedBits ty m a sx (· ||| ·) 0 s
/-- VREDXOR (R119). -/
def execVredxor (ty : ElType) (m a : Reg) (_un : Bool) (sx : Reg) (s : State) : Out := vecRedBits ty m a sx (· ^^^ ·) 0 s

/-! ## Dot product (R120) -/

/-- A T8 value in a product: its only zero has no sign (R55). -/
def t8Prod (x y : FVal) : FVal :=
  match prod x y with
  | some (.fin _ 0 e) => .fin false 0 e
  | some v => if x.isNan || y.isNan then .nar else v
  | none => .nar

/-- One output lane of VDOT.t8 (R120): four exact products and d, rounded once to f32. With a NaR operand and a signalling NaN in d_j
the rule says both no flag and nv; the lane sets nv (log 72). -/
def dotT8 (rm : Rm) (a b : Block) (dj j : Nat) : LaneRes :=
  let ps := (List.range 4).map fun i => t8Prod (unpack .t8 (lane 8 a (4 * j + i))) (unpack .t8 (lane 8 b (4 * j + i)))
  fpLane (sumRound .f32 rm (zeroSign rm false) (unpack .f32 dj :: ps))

/-- One output lane of VDOT.i8 (R120). -/
def dotI8 (un sat : Bool) (a b : Block) (dj j : Nat) : LaneRes :=
  let t := (List.range 4).foldl (fun t i => t + laneInt un 8 (lane 8 a (4 * j + i)) * laneInt un 8 (lane 8 b (4 * j + i))) (toSigned 32 dj)
  (laneCut false sat 32 t, 0)

/-- VDOT of n bytes (R120): the mask tests the sixteen output lanes. -/
def vecDot (n : Nat) (ty : ElType) (m d a b : Reg) (un sat : Bool) (s : State) : Out :=
  vecInstr n .i32 m d (fun j =>
    let dj := lane 32 (s.rdv d) j
    if ty.isInt then dotI8 un sat (s.rdv a) (s.rdv b) dj j else dotT8 s.rm (s.rdv a) (s.rdv b) dj j) s
/-- VDOT (R120). -/
def execVdot (ty : ElType) (m d a b : Reg) (s : State) : Out := vecDot 4 ty m d a b false false s
/-- VDOT with an extension word (R120). -/
def execVdotX (ty : ElType) (m d a b : Reg) (un sat : Bool) (s : State) : Out := vecDot 12 ty m d a b un sat s

/-! ## Moving lanes (R121 to R123) -/

/-- Lanes of d taken from lanes of a, where the function names one (R121). -/
def vecMove (n : Nat) (ty : ElType) (m d a : Reg) (f : Nat → Option Nat) (s : State) : Out :=
  let k := s.mask m
  resultV n d (vecOf ty.width ((List.range ty.lanes).map fun i =>
    match f i with
    | some j => if k.getLsbD i then s.va ty a j else s.va ty d i
    | none => s.va ty d i)) s

/-- VPERM (R121). -/
def execVperm (ty : ElType) (m d a b : Reg) (s : State) : Out :=
  vecMove 4 ty m d a (fun i => some (s.vb ty false b i % ty.lanes)) s
/-- VPERM with an extension word (R121). -/
def execVpermX (ty : ElType) (m d a b : Reg) (bs : Bool) (s : State) : Out :=
  vecMove 12 ty m d a (fun i => some (s.vb ty bs b i % ty.lanes)) s
/-- VSLIDEH (R121). -/
def execVslideh (ty : ElType) (m d a : Reg) (n : BitVec 8) (s : State) : Out :=
  vecMove 12 ty m d a (fun i => if n.toNat ≤ i then some (i - n.toNat) else none) s
/-- VSLIDEL (R121). -/
def execVslidel (ty : ElType) (m d a : Reg) (n : BitVec 8) (s : State) : Out :=
  vecMove 12 ty m d a (fun i => if i + n.toNat < ty.lanes then some (i + n.toNat) else none) s
/-- VREV (R121). -/
def execVrev (ty : ElType) (m d a : Reg) (s : State) : Out := vecMove 12 ty m d a (fun i => some (ty.lanes - 1 - i)) s

/-- VBCAST, 32-bit form: of s0 (R122). -/
def execVbcast (ty : ElType) (m d : Reg) (s : State) : Out := vecInstr 4 ty m d (fun _ => (0, 0)) s
/-- VBCAST with an extension word (R122). -/
def execVbcastX (ty : ElType) (m d sx : Reg) (s : State) : Out := vecInstr 12 ty m d (fun _ => ((s.rd sx).toNat % 2 ^ ty.width, 0)) s
/-- VBCASTL (R122). -/
def execVbcastl (ty : ElType) (m d a : Reg) (k : BitVec 8) (s : State) : Out := vecInstr 12 ty m d (fun _ => (s.va ty a k.toNat, 0)) s
/-- VINDEX (R122). -/
def execVindex (ty : ElType) (m d : Reg) (s : State) : Out := vecInstr 12 ty m d (fun i => (i, 0)) s

/-- A lane moved to a scalar register (R122). -/
def vecExt (n : Nat) (ty : ElType) (a : Reg) (un : Bool) (sx : Reg) (k : Nat) (s : State) : Out :=
  let x := s.va ty a k
  result n sx (if ty.isInt && !un then sext ty.width x else BitVec.ofNat 64 x) s
/-- VEXT, 32-bit form: lane 0 into s0 (R122). -/
def execVext (ty : ElType) (a : Reg) (s : State) : Out := vecExt 4 ty a false 0 0 s
/-- VEXT with an extension word (R122). -/
def execVextX (ty : ElType) (a : Reg) (un : Bool) (sx : Reg) (k : BitVec 8) (s : State) : Out := vecExt 12 ty a un sx k.toNat s
/-- VINS (R122). -/
def execVins (ty : ElType) (d sx : Reg) (k : BitVec 8) (s : State) : Out :=
  resultV 12 d (vecOf ty.width ((List.range ty.lanes).map fun i => if i = k.toNat then (s.rd sx).toNat % 2 ^ ty.width else s.va ty d i)) s

/-- Number of active lanes below lane i. -/
def activeBelow (k : Word) (i : Nat) : Nat := ones (k.toNat % 2 ^ i) i

/-- VCPRS of n bytes (R123). -/
def vecCprs (n : Nat) (ty : ElType) (m d a sx : Reg) (s : State) : Out :=
  let k := s.mask m
  let src := activeLanes ty k (s.rdv a)
  let v := vecOf ty.width (src ++ ((List.range ty.lanes).drop src.length).map (s.va ty d))
  resultV n d v (s.wr sx (BitVec.ofNat 64 src.length))
/-- VCPRS, 32-bit form (R123). -/
def execVcprs (ty : ElType) (m d a : Reg) (s : State) : Out := vecCprs 4 ty m d a 0 s
/-- VCPRS with an extension word (R123). -/
def execVcprsX (ty : ElType) (m d a sx : Reg) (s : State) : Out := vecCprs 12 ty m d a sx s
/-- VEXPD (R123). -/
def execVexpd (ty : ElType) (m d a sx : Reg) (s : State) : Out :=
  let k := s.mask m
  let v := vecOf ty.width ((List.range ty.lanes).map fun i =>
    if k.getLsbD i then s.va ty a (activeBelow k i) else s.va ty d i)
  resultV 12 d v (s.wr sx (BitVec.ofNat 64 (activeBelow k ty.lanes)))

end Sys2Proof.Machine
end

