-- ==== Sys2Proof/Machine/VectorMem.lean ====
section
/-! DEFINITION. Vector memory access: unit stride, strided, gather and scatter, with the progress register (spec/05 R125 to
R129). -/

namespace Sys2Proof.Machine

/-- A register with one lane of w bits replaced. -/
def laneSet (w : Nat) (b : Block) (i x : Nat) : Block :=
  BitVec.ofNat 512 (b.toNat - lane w b i * 2 ^ (w * i) + x % 2 ^ w * 2 ^ (w * i))

/-- How a run over lanes ends: all done, a fault at a lane, or a suspension at a lane. -/
inductive VEnd
  | ok (data : Block) (far : Option Wait) (s : State)
  | trap (i : Nat) (c : Cause) (v : Word) (data : Block) (s : State)
  | wait (i : Nat) (w : Wait) (data : Block) (s : State)

/-- Load lanes in ascending order (R126). -/
def loadLanes (b : By) (w : Nat) : List (Nat × Word) → Block → Option Wait → State → VEnd
  | [], data, far, s => .ok data far s
  | (i, a) :: t, data, far, s =>
    match loadBytes s b a (w / 8) (w / 8) with
    | .ok (l, x) s => loadLanes b w t (laneSet w data i (leNat l)) (match x with | some y => some y | none => far) s
    | .trap c v s => .trap i c v data s
    | .wait x s => .wait i x data s

/-- Store lanes in ascending order where their addresses lie (R126). -/
def storeLanes (b : By) (w : Nat) : List (Nat × Dest) → Block → Option Wait → State → VEnd
  | [], data, far, s => .ok data far s
  | (i, d) :: t, data, far, s =>
    match storeDest s b d (leBytes (w / 8) (lane w data i)) with
    | .ok x s => storeLanes b w t data (match x with | some y => some y | none => far) s
    | .trap c v s => .trap i c v data s
    | .wait x s => .wait i x data s

/-- Every lane of a store checked through step 8 of R334, and where it lies, before any is performed (R127). -/
def checkLanes (b : By) (w : Nat) (s : State) : List (Nat × Word) → Res (List (Nat × Dest))
  | [] => .ok [] s
  | (i, a) :: t =>
    (accessDest s b .store a (w / 8) (w / 8)).andThen fun d s =>
      (checkLanes b w s t).andThen fun l s => .ok ((i, d) :: l) s

/-- The lanes of a mask below lane i. -/
def maskBelow (k : Word) (i : Nat) : Word := k &&& BitVec.ofNat 64 (2 ^ i - 1)

/-- The lanes below lane i have completed: with a progress register they stand (R127). -/
def vecProgress (x : Slot) (p : VProg) : Slot :=
  if p.sx = 0 then { x with vprog := none } else
  let y := if p.store then x else x.wv p.d p.data
  { (y.ws p.sx (y.rs p.sx ||| maskBelow p.mask p.lane)) with vprog := none }

/-- The lanes of w bits from lane i on as one register has them, those below as another. -/
def lanesBelow (w i : Nat) (new old : Block) : Block :=
  (List.range (512 / w)).foldl (fun b j => if j < i then b else laneSet w b j (lane w old j)) new

/-- An access that waits for its reply is abandoned: the slot is as it was when it issued the instruction, but that the lanes a vector
access has completed stand where it names a progress register (R128, R186). Of a load's lanes the first `k` have completed. -/
def Slot.redone (x : Slot) (r : Redo) (k : Nat) : Slot :=
  let y := { x with pc := r.pc, fresh := r.fresh, redo := none }
  let y := match r.reg with | some (d, v) => y.ws d v | none => y
  match r.vec with
  | none => y
  | some (old, p) =>
    let z := if p.store then y else y.wv p.d old
    if p.sx = 0 then z else
    vecProgress (z.ws p.sx r.sx) { p with lane := if p.store then 64 else k, data := lanesBelow p.w k p.data old }

/-- A slot abandons a suspended vector access: its completed lanes are treated as R127 gives (R128). -/
def Slot.abandonVector (x : Slot) : Slot :=
  match x.vprog with
  | some p => vecProgress x p
  | none => x

/-- A fault reaches a slot while its access waits (R209, R346): a vector access keeps its completed lanes under R127. -/
def faultWaiting (s : State) (t : Nat) (cause : Cause) (va : Word) : State :=
  takeSync (s.updSlot t Slot.abandonVector) t cause va

/-- The 64-byte blocks a list of lane addresses touches. -/
def blocksTouched (l : List (Nat × Word)) : Nat := ((l.map fun x => x.2.toNat / 64).eraseDups).length

/-- The qualifiers of a vector access (R125). -/
def vmemQual (x : VMemExt) : MemQual := ⟨x.ord, x.scope, x.ev⟩

/-- A store of one whole block clears its poison (R434). -/
def unpoisonVector (s : State) (t : Nat) (w : Nat) (l : List (Nat × Word)) : State :=
  if s.poisoned.isEmpty then s else
  match l with
  | (0, a) :: _ =>
    if a.toNat % 64 = 0 && l.length * w = 512 && l.all (fun x => x.2 = a + BitVec.ofNat 64 (w / 8 * x.1)) then
      match checkAddr s t .store a 64 1 with
      | .ok (.ls o) => unpoisonIn s (lsBlk (agentOf t)) o 64
      | .ok (.cm o) => unpoisonIn s (cmBlk (clusterOf (agentOf t))) o 64
      | .ok (.glb va) =>
        match translate s (agentOf t) ((s.slot t).mode = .u) .store false va with
        | (.ok p, s) => unpoison s (p.pa / 64)
        | _ => s
      | .error _ => s
    else s
  | _ => s

/-- A vector memory instruction (R125 to R129): `addr` gives a lane's address. -/
def vecMem (store : Bool) (ty : ElType) (m d : Reg) (x : VMemExt) (addr : Nat → Word) (s : State) : Out :=
  let w := ty.width
  let b := s.by (vmemQual x)
  let k := s.mask m &&& ~~~(if x.sx = 0 then 0 else s.rd x.sx)
  let all := ((List.range ty.lanes).filter fun i => k.getLsbD i).map fun i => (i, addr i)
  let l := match s.me.vprog with | some p => all.filter fun y => p.lane ≤ y.1 | none => all
  let data := match s.me.vprog with | some p => p.data | none => s.rdv d
  let prog (i : Nat) (data : Block) (plan : List (Nat × Dest)) : VProg :=
    { lane := i, data := data, mask := k, d := d, sx := x.sx, store := store, w := w, plan := plan }
  let redo (data : Block) : Redo :=
    { pc := s.me.pc, vec := some (s.rdv d, prog 64 data []), sx := s.rd x.sx, fresh := s.me.fresh }
  let go (plan : List (Nat × Dest)) (r : VEnd) : Out :=
    match r with
    | .ok data far s =>
      let s1 := if store then unpoisonVector s s.cur w all else s.wrv d data
      let s2 := if x.sx = 0 then s1 else s1.wr x.sx 0
      doneAway 12 (if 2 < blocksTouched all then some .vector else far) (redo data) s2
    | .trap i c v data s => trap c v (s.updMe fun y => vecProgress y (prog i data []))
    | .wait i q data s => wait q (s.updMe fun y => { y with vprog := some (prog i data (plan.filter fun z => i ≤ z.1)) })
  if store then
    match (match s.me.vprog with | some p => Res.ok p.plan s | none => checkLanes b w s l) with
    | .ok plan s => go plan (storeLanes b w plan data none s)
    | .trap c v s => trap c v s
    | .wait q s => wait q s
  else go [] (loadLanes b w l data none s)

/-- The base address of a vector access (R125). -/
def State.vbase (s : State) (x : VMemExt) : Word := s.rd x.base + x.disp.signExtend 64

/-- VLD (R125). -/
def execVld (ty : ElType) (m d : Reg) (x : VMemExt) (s : State) : Out :=
  vecMem false ty m d x (fun i => s.vbase x + BitVec.ofNat 64 (i * (ty.width / 8))) s
/-- VST (R125). -/
def execVst (ty : ElType) (m d : Reg) (x : VMemExt) (s : State) : Out :=
  vecMem true ty m d x (fun i => s.vbase x + BitVec.ofNat 64 (i * (ty.width / 8))) s
/-- VLDS (R125). -/
def execVlds (ty : ElType) (m d b : Reg) (x : VMemExt) (s : State) : Out :=
  vecMem false ty m d x (fun i => s.vbase x + BitVec.ofNat 64 i * s.rd b) s
/-- VSTS (R125). -/
def execVsts (ty : ElType) (m d b : Reg) (x : VMemExt) (s : State) : Out :=
  vecMem true ty m d x (fun i => s.vbase x + BitVec.ofNat 64 i * s.rd b) s
/-- VGATH (R125). -/
def execVgath (ty : ElType) (m d b : Reg) (shift : Fin 8) (x : VMemExt) (s : State) : Out :=
  vecMem false ty m d x (fun i => s.vbase x + (sext ty.width (s.va ty b i) <<< shift.val)) s
/-- VSCAT (R125). -/
def execVscat (ty : ElType) (m d b : Reg) (shift : Fin 8) (x : VMemExt) (s : State) : Out :=
  vecMem true ty m d x (fun i => s.vbase x + (sext ty.width (s.va ty b i) <<< shift.val)) s

/-- VECTOR_BLOCK_DELIVERY (R129): the last block of a vector access is delivered, and the slot is re-admitted. -/
def execVectorBlockDelivery (t : Nat) (s : State) : Out :=
  .next (if (s.slot t).run = .waiting .vector then s.wake t else s)

/-- MEMORY_ACCESS_REPLY (R104): the reply of an access that uses no coherence message arrives. -/
def execMemoryAccessReply (t : Nat) (s : State) : Out :=
  .next (if (s.slot t).run = .waiting .access then s.wake t else s)

end Sys2Proof.Machine
end

