-- ==== Sys2Proof/Machine/Replies.lean ====
section
/-! DEFINITION. The core's side of coherence messages (spec/09 R209, R210, R215): forwarded requests, and the replies to a core's
requests. -/

namespace Sys2Proof.Machine

/-! ## Forwarded requests (R210) -/

/-- A forwarded request reaches a core; a seventeenth that the core would hold stays in the network (R210). -/
def forwardEvent (s : State) (k type : Nat) : Out :=
  match s.deliverable k with
  | none => .next s
  | some m =>
    if 0x800 ≤ m.dst || m.type != type then .next s
    else if 16 ≤ (s.core m.dst).held.length && holds s m.dst (s.core m.dst).held m then .next s
    else .next (forward (s.unpost k) m.dst m)

/-- RECALL (R210). -/
def execRecall (k : Nat) (s : State) : Out := forwardEvent s k Ty.recall
/-- INV (R210). -/
def execInv (k : Nat) (s : State) : Out := forwardEvent s k Ty.inv
/-- PUSH (R210). -/
def execPush (k : Nat) (s : State) : Out := forwardEvent s k Ty.push

/-- DEFERRED_REQUEST_APPLY (R210): held request k of a core is applied when nothing holds it any more; one held for a release set
waits until that is performed (R197). -/
def execDeferredRequestApply (c k : Nat) (s : State) : Out :=
  let q := s.core c
  match q.held[k]? with
  | none => .next s
  | some m =>
    if mustHold s c m.blk || ((q.held.take k).any fun x => x.blk = m.blk) then .next s
    else if holds s c (q.held.take k) m then .next (flushRel s c 0 m.blk)
    else .next (applyForward (s.updCore c fun q => { q with held := q.held.eraseIdx k }) c m)

/-! ## Replies (R209) -/

/-- The request of a core that a reply matches, by tag and address (R215). -/
def matched (s : State) (m : Msg) : Option Req := (look m.tag (s.core m.dst).reqs).bind fun r => if r.msg.blk = m.blk then some r else none

/-- A request is over. -/
def dropReq (s : State) (c tag : Nat) : State := s.updCore c fun q => { q with reqs := drop tag q.reqs }

/-- The slot whose request has a tag. -/
def reqSlot (s : State) (c tag : Nat) : Nat := match look tag (s.core c).reqs with | some r => r.msg.slot | none => 0

/-- A grant is installed, with a place in L1, the stream buffer or the stash, and the suspended slots re-execute (R170, R209); a block that a
slot may read once takes no place (R253). -/
def install (s : State) (c tag blk : Nat) (t : Tag) (data : Option Block) (single : Option (Nat × Nat × Nat)) : State :=
  let l := (lineOf s c blk).getD { tag := some .invalid }
  let l1 := { l with tag := some t, data := data.getD l.data, written := 0, rel := [], kept := false, single := single }
  let s1 := dropReq s c tag
  readmit (if single.isSome then setLine s1 c blk (some l1) else fillLine s1 c (reqSlot s c tag) blk l1) c blk

/-- A request ends without a grant: the line is invalid, and the suspended slots re-execute (R209). -/
def uninstall (s : State) (c tag blk : Nat) : State :=
  let l := lineOf s c blk
  let keep := match l with | some x => if x.stash then some { x with tag := some Tag.invalid, kept := false } else none | none => none
  readmit (setLine (dropReq s c tag) c blk keep) c blk

/-- The event of reply k reaching a core, when it is of a type: `f` acts on the core, the message and the request it matches; a reply
that matches none is discarded (R215). -/
def replyEvent (s : State) (k type : Nat) (f : State → Nat → Msg → Req → State) : Out :=
  match s.deliverable k with
  | none => .next s
  | some m =>
    if 0x800 ≤ m.dst || m.type != type then .next s else
    let s1 := s.unpost k
    match matched s1 m with
    | some r => .next (f s1 m.dst m r)
    | none => .next s1

/-- DATA_S (R209, R253): word 2 bit 0 marks an append page's single use, of the bytes that the request names; a PREF has no use for it. -/
def execDataS (k : Nat) (s : State) : Out :=
  replyEvent s k Ty.dataS fun s c m r =>
    if 128 ≤ m.tag then s
    else if bitOf m.w[2] 0 && r.pref then uninstall s c m.tag m.blk
    else install s c m.tag m.blk .readOnly m.flit
      (if bitOf m.w[2] 0 then some (threadOf c r.msg.slot, bits r.msg.w[2] 5 0, bits r.msg.w[2] 11 6) else none)

/-- DATA_X (R209). -/
def execDataX (k : Nat) (s : State) : Out :=
  replyEvent s k Ty.dataX fun s c m _ => if 128 ≤ m.tag then s else install s c m.tag m.blk .writable m.flit none

/-- The reply tag that a core's puts carry. -/
def putTag : Nat := 0xFF

/-- A put is acknowledged, or refused with its region: the core no longer waits for it (R181, R229). -/
def putOver (s : State) (m : Msg) : State := s.updCore m.dst fun q => { q with puts := q.puts.erase m.blk }

/-- ACK (R209, R215): of a put, of a channel's fill (R258), or a grant of a tag to a core that may have no data for it. -/
def execAck (k : Nat) (s : State) : Out :=
  match s.deliverable k with
  | none => .next s
  | some m =>
    if 0x800 ≤ m.dst || m.type != Ty.ack then .next s else
    let s1 := s.unpost k
    let g := bits m.w[2] 1 0
    if m.tag = putTag && g = 0 then .next (putOver s1 m) else
    match matched s1 m with
    | none => .next s1
    | some r =>
      if 144 ≤ m.tag && m.tag < 148 then .next (if r.dead then dropReq s1 m.dst m.tag else chanAnswer (dropReq s1 m.dst m.tag) m.dst (Fin.ofNat 4 (m.tag - 144)) r.msg 0)
      else if 128 ≤ m.tag || g = 0 || g = 3 then .next s1
      else
        match lineOf s1 m.dst m.blk with
        | some l => if l.kept then .next (install s1 m.dst m.tag m.blk (if g = 1 then .readOnly else .writable) none none)
            else .next (uninstall s1 m.dst m.tag m.blk)
        | none => .next (uninstall s1 m.dst m.tag m.blk)

/-- BUSY (R209): the request stays posted at the home. -/
def execBusy (k : Nat) (s : State) : Out :=
  replyEvent s k Ty.busy fun s c m r => s.updCore c fun q => { q with reqs := put m.tag { r with busy := true } q.reqs }

/-- RETRY (R209): the request waits for its back-off. -/
def execRetry (k : Nat) (s : State) : Out :=
  replyEvent s k Ty.retry fun s c m r =>
    s.updCore c fun q => { q with reqs := put m.tag { r with busy := true, retry := some (s.time + (m.w[2]).toNat) } q.reqs }

/-- A request is posted again, to the block's home as the region table now gives it (R209). -/
def repost (s : State) (c tag : Nat) (m : Msg) : State :=
  let m1 := { m with dst := procAgent (s.homeOf m.addr), via := none }
  (s.updCore c fun q => { q with reqs := match look tag q.reqs with
    | some r => put tag { r with msg := m1, busy := false, retry := none } q.reqs
    | none => q.reqs }).post m1

/-- RETRY_BACKOFF_EXPIRY (R209): the core reads the region table again. In a tagged region the same request is posted again; in a
direct one the access starts again. -/
def execRetryBackoffExpiry (c blk : Nat) (s : State) : Out :=
  match (s.core c).reqs.find? fun r => r.2.msg.blk = blk && r.2.retry.isSome with
  | none => .next s
  | some (tag, r) =>
    let s1 := { s with time := Nat.max s.time (r.retry.getD 0) }
    if r.dead && 144 ≤ tag && tag < 148 then .next (dropReq s1 c tag)
    else if s1.protoOf (blk * 64) != 0 || r.msg.type = Ty.atom then .next (repost s1 c tag r.msg)
    else if tag < 128 then .next (uninstall s1 c tag blk)
    else if slotTag tag then .next (if r.dead then dropReq s1 c tag else (dropReq s1 c tag).wake (threadOf c r.msg.slot))
    else
      let n : Fin 4 := Fin.ofNat 4 (tag - 144)
      .next (wakeChan ((dropReq s1 c tag).updChan c n fun x => { x with reqOut := false }) c n)

/-- The slots suspended on a block take a trap, each at its own access address (R209, R229). -/
def failSlots (s : State) (c blk : Nat) (cause : Cause) : State :=
  (suspended s c blk).foldl (fun s t =>
    match (s.slot t).run with
    | .waiting (.line _ va) => faultWaiting s t cause va
    | _ => s) s

/-- An atomic whose reply is parked fails (R186, log 60): the instruction is not complete after all. Where the slot has taken the interrupt
it re-executes on return; else it traps now. -/
def failParked (s : State) (t : Nat) (p : Nat × Nat × Reg) (cause : Cause) : State :=
  let back := BitVec.ofNat 64 p.2.1
  if (s.slot t).fresh.isSome then s.updSlot t fun x => { x with parked := none, trPc := x.trPc - back }
  else takeSync (s.updSlot t fun x => { x with parked := none, pc := x.pc - back }) t cause 0

/-- FAIL (R209): the tag becomes invalid and every access that waits for the block fails with the cause the message carries. -/
def execFail (k : Nat) (s : State) : Out :=
  match s.deliverable k with
  | none => .next s
  | some m =>
    if 0x800 ≤ m.dst || m.type != Ty.fail then .next s else
    let s1 := s.unpost k
    let c := m.dst
    let cause : Cause := BitVec.ofNat 8 (bits m.w[2] 7 0)
    if m.tag = putTag then .next (putOver s1 m) else
    match matched s1 m with
    | none => .next s1
    | some r =>
      let s2 := dropReq s1 c m.tag
      if m.tag < 128 && r.pref then .next (uninstall s1 c m.tag m.blk)
      else if m.tag < 128 then
        let keep := match lineOf s2 c m.blk with | some x => if x.stash then some { x with tag := some Tag.invalid, kept := false } else none | none => none
        let s3 := failSlots (setLine s2 c m.blk keep) c m.blk cause
        .next (failBurst (failChannels (failTensor s3 c m.blk cause) c m.blk cause) c m.blk cause)
      else if slotTag m.tag then
        let t := threadOf c r.msg.slot
        if r.dead then .next s2
        else match (s2.slot t).run, (s2.slot t).parked with
          | .waiting (.result _ _ _ va), _ => .next (takeSync s2 t cause va)
          | _, some p => .next (failParked s2 t p cause)
          | _, _ => .next s2
      else if m.tag < 148 then .next (if r.dead then s2 else chanFailed s2 c (Fin.ofNat 4 (m.tag - 144)) r.msg cause)
      else .next s2

/-- RESULT (R215): the instruction that waits for it completes with its value; a parked one is written before the slot issues again
(R186). -/
def execResult (k : Nat) (s : State) : Out :=
  replyEvent s k Ty.result fun s c m r =>
    let s1 := dropReq s c m.tag
    if m.tag < 128 then s
    else if slotTag m.tag then
      let t := threadOf c r.msg.slot
      if r.dead then s1
      else match (s1.slot t).run, (s1.slot t).parked with
        | .waiting (.result b d n _), _ => if b = m.blk then s1.updSlot t fun x => { (x.ws d m.w[2]).past n with run := .active } else s1
        | _, some (_, _, d) => s1.updSlot t fun x => { x.ws d m.w[2] with parked := none }
        | _, _ => s1
    else if m.tag < 148 then if r.dead then s1 else chanAnswer s1 c (Fin.ofNat 4 (m.tag - 144)) r.msg m.w[2]
    else s1

end Sys2Proof.Machine
end

