-- ==== Sys2Proof/Machine/Special.lean ====
section
/-! DEFINITION. The special-function unit (spec/13 R320 to R323). The functions are computed to several hundred bits, and a
result is any value within the bound that R320 gives; which one, the part fixes and the spec does not state (log 8). -/

namespace Sys2Proof.Machine

/-! ## The functions to several hundred bits -/

/-- Fraction bits of the fixed-point numbers used here. -/
def fixP : Nat := 640
/-- One. -/
def fixOne : Int := 2 ^ fixP
/-- pi, rounded down to a fixed-point number. -/
def fixPi : Int := 0x3243F6A8885A308D313198A2E03707344A4093822299F31D0082EFA98EC4E6C89452821E638D01377BE5466CF34E90C6CC0AC29B7C97C50DD3F84D5B5B54709179216D5D98979FB1BD1310BA698DFB5AC
/-- The natural logarithm of 2, rounded down to a fixed-point number. -/
def fixLn2 : Int := 0xB17217F7D1CF79ABC9E3B39803F2F6AF40F343267298B62D8A0D175B8BAAFA2BE7B876206DEBAC98559552FB4AFA1B10ED2EAE35C138214427573B291169B8253E96CA16224AE8C51ACBDA11317C387E
/-- 2 over the square root of pi, rounded down to a fixed-point number. -/
def fixErf : Int := 0x120DD750429B6D11AE3A914FED7FD8688281341D7587CEA2E7342B06199CC416180EB39F0B24E1E2281806C12D98F35D77A3E9DDC91C394F0E9EEDF0EFFFD84A2A4AC3B98489B8CBD3845E8FEF6FF6AF9

/-- Product of fixed-point numbers, rounded down. -/
def fixMul (a b : Int) : Int := a * b / fixOne

/-- A power series whose terms follow one from another: `step k t` is the term after term k. -/
def series (step : Nat → Int → Int) (add : Nat → Int → Int) : Nat → Nat → Int → Int → Int
  | 0, _, _, sum => sum
  | fuel + 1, k, t, sum => series step add fuel (k + 1) (step k t) (sum + add k t)

/-- e^r for r from 0 to 1. -/
def expSmall (r : Int) : Int := series (fun k t => fixMul t r / ((k : Int) + 1)) (fun _ t => t) 150 0 fixOne 0

/-- e^y as m * 2^n with m from 1 to 2. -/
def expFix (y : Int) : Int × Int :=
  let n := y / fixLn2
  (expSmall (y - n * fixLn2), n)

/-- m * 2^n as a fixed-point number. -/
def fixShift (m n : Int) : Int := if 0 ≤ n then m * 2 ^ n.toNat else m / 2 ^ (-n).toNat

/-- sin r for r from -pi to pi. -/
def sinFix (r : Int) : Int :=
  series (fun k t => -(fixMul (fixMul t r) r) / ((2 * (k : Int) + 2) * (2 * (k : Int) + 3))) (fun _ t => t) 130 0 r 0

/-- cos r for r from -pi to pi. -/
def cosFix (r : Int) : Int :=
  series (fun k t => -(fixMul (fixMul t r) r) / ((2 * (k : Int) + 1) * (2 * (k : Int) + 2))) (fun _ t => t) 130 0 fixOne 0

/-- erf x for x from 0 to 12. -/
def erfFix (x : Int) : Int :=
  fixMul fixErf (series (fun k t => -(fixMul (fixMul t x) x) / ((k : Int) + 1)) (fun k t => t / (2 * (k : Int) + 1)) 900 0 x 0)

/-- Bits of the fraction of log2 y, y from 1 to 2, from the top. -/
def log2Bits : Nat → Int → Int → Int
  | 0, _, acc => acc
  | n + 1, y, acc =>
    let z := fixMul y y
    if 2 * fixOne ≤ z then log2Bits n (z / 2) (2 * acc + 1) else log2Bits n z (2 * acc)

/-- A fixed-point result that is not exact. -/
def exOf (neg : Bool) (x : Int) : Ex := ⟨neg != decide (x < 0), if x < 0 then (-x).toNat - 1 else x.toNat, -(fixP : Int), true⟩

/-- Just below 1. -/
def belowOne (neg : Bool) : Ex := ⟨neg, (fixOne - 1).toNat, -(fixP : Int), true⟩

/-- The exact value of a function of a finite non-zero operand, to several hundred bits and a sticky rest (R320). -/
def sfuExact (fn : Nat) (neg : Bool) (m : Nat) (e : Int) : Ex :=
  let big := 2 ^ 8 ≤ m * 2 ^ (e + 400).toNat / 2 ^ 400
  let x := fixShift ((if neg then -(m : Int) else m) * fixOne) e
  let a := fixShift ((m : Int) * fixOne) e
  match fn with
  | 0 =>
    if big then (if neg then ⟨false, 1, -2000, true⟩ else ⟨false, 1, 2000, true⟩) else
    let n := x / fixOne
    let f := x - n * fixOne
    if f = 0 then ⟨false, 1, n, false⟩ else ⟨false, (expSmall (fixMul f fixLn2)).toNat, n - fixP, true⟩
  | 1 =>
    let l := bitLen m - 1
    let n : Int := e + l
    if m = 2 ^ l then ⟨n < 0, n.natAbs, 0, false⟩ else
    let t := n * 2 ^ 300 + log2Bits 300 ((m : Int) * 2 ^ (fixP - l)) 0
    ⟨t < 0, if t < 0 then (-t).toNat - 1 else t.toNat, -300, true⟩
  | 2 => divEx neg 1 0 m e
  | 3 =>
    let k : Nat := if e % 2 = 0 then 800 else 801
    let q := 2 ^ k / m
    let r := isqrt q 420 0
    ⟨false, r, -(((k : Int) + e) / 2), r * r != q || 2 ^ k % m != 0⟩
  | 5 | 6 =>
    let tau := 2 * fixPi
    let r0 := x - x / tau * tau
    let r := if fixPi < r0 then r0 - tau else r0
    exOf false (if fn = 5 then sinFix r else cosFix r)
  | 7 =>
    if big then belowOne neg else
    let (g, n) := expFix (2 * a)
    let y := fixShift g n
    exOf neg ((y - fixOne) * fixOne / (y + fixOne))
  | 8 =>
    if big then (if neg then ⟨false, 1, -2000, true⟩ else belowOne false) else
    let (g, n) := expFix (-x)
    exOf false (fixOne * fixOne / (fixOne + fixShift g n))
  | _ => if 12 * fixOne ≤ a then belowOne neg else exOf neg (erfFix a)

/-- Bound in ulps (R320). -/
def sfuBound (fn : Nat) : Nat := if fn ≤ 3 then 1 else 2

/-- Whether a value lies below the smallest non-zero one of a format (R65). -/
def belowFmt (f : Fmt) (x : Ex) : Bool :=
  match unpack f 1 with
  | .fin _ m e => cmpMag x m e = .lt
  | _ => false

/-- The value of a magnitude code. -/
def codeVal (f : Fmt) (c : Nat) : Dy := match unpack f c with | .fin _ m e => ⟨m, e⟩ | _ => ⟨0, 0⟩

/-- One ulp of a value whose lower neighbour is the code: the distance of the two neighbouring values of the format (R320, log 8). -/
def ulpAt (f : Fmt) (lower : Nat) : Dy :=
  let lo := if lower < f.maxCode then lower else lower - 1
  let d := codeVal f lo
  (codeVal f (lo + 1)).add { d with m := -d.m }

/-- Compare a positive magnitude to a number. -/
def cmpDy (x : Ex) (d : Dy) : Ordering := if d.m < 0 then .gt else cmpMag x d.m.toNat d.e

/-- The magnitude codes whose values lie within a number of ulps of a magnitude, from its lower neighbour (R320). -/
def inUlps (f : Fmt) (b lower : Nat) (x : Ex) : List Nat :=
  let u := ulpAt f lower
  let least := if f = .t8 then 1 else 0
  ((List.range 33).map (lower - 16 + ·)).filter fun c =>
    least ≤ c && c ≤ f.maxCode &&
      cmpDy x ((codeVal f c).add { u with m := b * u.m }) != .gt && cmpDy x ((codeVal f c).add { u with m := -(b * u.m) }) != .lt

/-- A result within the bound of the exact value; `pick` says which (R320, R321). An exact one is delivered as it is, a zero among them
(LOG2 of 1) as +0 with no flag (R64, R66), but for RSQRT, whose exact values the spec does not list; a value beyond the format's range,
above or below, is rounded as R65 says. -/
def sfuPick (f : Fmt) (fn pick : Nat) (x : Ex) : Rnd :=
  if x.m = 0 && !x.sticky then ⟨f.zero false, 0⟩ else
  let r := roundTo f 0 x
  if (!x.sticky && fn != 3) || r.flags &&& Fl.of != 0 || belowFmt f x then r else
  let lower := (roundTo f 1 { x with neg := false }).code
  let l := inUlps f (sfuBound fn) lower { x with neg := false }
  let c := l.getD (pick % l.length) lower
  ⟨f.signed x.neg c, if !x.sticky && r.flags = 0 && c = lower then 0 else r.flags ||| Fl.nx⟩

/-- The value of a lane (R321). -/
def sfuLane (fn : Nat) (ty : ElType) (rm : Rm) (a : Nat) : Rnd :=
  let f := elFmt ty
  let inv : Rnd := ⟨f.nan, Fl.nv⟩
  let one : Nat := (roundTo f 0 ⟨false, 1, 0, false⟩).code
  let poleOf (neg : Bool) : Rnd := ⟨if f = .t8 then f.nan else f.signed neg f.infCode, Fl.dz⟩
  if fn = 4 then fSqrt f rm a else
  match unpack f a with
  | .nar => ⟨f.nan, 0⟩
  | .nan s => nanResult f s
  | .inf neg =>
    match fn with
    | 0 => if neg then ⟨0, 0⟩ else ⟨f.infCode, 0⟩
    | 1 => if neg then inv else ⟨f.infCode, 0⟩
    | 2 => ⟨f.zero neg, 0⟩
    | 3 => if neg then inv else ⟨0, 0⟩
    | 5 | 6 => inv
    | 8 => if neg then ⟨0, 0⟩ else ⟨one, 0⟩
    | _ => ⟨f.signed neg one, 0⟩
  | .fin neg m e =>
    if m = 0 then
      match fn with
      | 0 => ⟨one, 0⟩
      | 1 => poleOf true
      | 2 => poleOf neg
      | 3 => poleOf neg
      | 5 => ⟨f.zero neg, 0⟩
      | 6 => ⟨one, 0⟩
      | 8 => ⟨(roundTo f 0 ⟨false, 1, -1, false⟩).code, 0⟩
      | _ => ⟨f.zero neg, 0⟩
    else if neg && (fn = 1 || fn = 3) then inv
    else sfuPick f fn (Config.sfu fn ty (BitVec.ofNat 64 a)).toNat (sfuExact fn neg m e)

/-! ## The queue (R322, R323) -/

/-- An SFU instruction takes a queue entry, and its slot waits for the result (R322). -/
def sfuInstr (fn : Nat) (ty : ElType) (m d a : Reg) (s : State) : Out :=
  let c := s.myCore
  if (s.core c).sfuq.any fun e => e.slot = slotOf s.cur then wait .sfuFull s
  else wait .sfu (s.updCore c fun q => { q with
    sfuq := q.sfuq ++ [{ fn := fn, ty := ty, slot := slotOf s.cur, d := d, mask := s.mask m, a := s.rdv a, rm := s.rm }] })

/-- SFU.EXP2 (R320). -/
def execSfuExp2 (ty : ElType) (m d a : Reg) (s : State) : Out := sfuInstr 0 ty m d a s
/-- SFU.LOG2 (R320). -/
def execSfuLog2 (ty : ElType) (m d a : Reg) (s : State) : Out := sfuInstr 1 ty m d a s
/-- SFU.RCP (R320). -/
def execSfuRcp (ty : ElType) (m d a : Reg) (s : State) : Out := sfuInstr 2 ty m d a s
/-- SFU.RSQRT (R320). -/
def execSfuRsqrt (ty : ElType) (m d a : Reg) (s : State) : Out := sfuInstr 3 ty m d a s
/-- SFU.SQRT (R320). -/
def execSfuSqrt (ty : ElType) (m d a : Reg) (s : State) : Out := sfuInstr 4 ty m d a s
/-- SFU.SIN (R320). -/
def execSfuSin (ty : ElType) (m d a : Reg) (s : State) : Out := sfuInstr 5 ty m d a s
/-- SFU.COS (R320). -/
def execSfuCos (ty : ElType) (m d a : Reg) (s : State) : Out := sfuInstr 6 ty m d a s
/-- SFU.TANH (R320). -/
def execSfuTanh (ty : ElType) (m d a : Reg) (s : State) : Out := sfuInstr 7 ty m d a s
/-- SFU.SIGM (R320). -/
def execSfuSigm (ty : ElType) (m d a : Reg) (s : State) : Out := sfuInstr 8 ty m d a s
/-- SFU.ERF (R320). -/
def execSfuErf (ty : ElType) (m d a : Reg) (s : State) : Out := sfuInstr 9 ty m d a s

/-- SFU_ENTRY_COMPLETE (R322, R323): the head entry writes its active lanes, and a slot that waits for it goes on past its instruction. The
entry of a record that has ended writes nothing: the next record of the slot starts from zero (R27, log 21). -/
def execSfuEntryComplete (c : Nat) (s : State) : Out :=
  match (s.core c).sfuq with
  | [] => .next s
  | o :: l =>
    let t := threadOf c o.slot
    let f := fun i => let r := sfuLane o.fn o.ty o.rm (lane o.ty.width o.a i); ((r.code, r.flags) : LaneRes)
    let s1 := s.updCore c fun q => { q with sfuq := l }
    .next (s1.updSlot t fun x =>
      let y := { x.wv o.d (vecActive o.ty o.mask (x.rv o.d) f) with fpFlags := x.fpFlags ||| vecFlags o.ty o.mask f }
      if o.lost then x else
      match x.run with
      | .waiting .sfu => { y.past 12 with run := .active }
      | _ => y)

/-- What an interrupt does to a slot that waits for its entry: the instruction counts as completed, and the entry stays in the
queue (R323). -/
def parkSfu (s : State) (t : Nat) : State :=
  (s.updCore (agentOf t) fun q => { q with
    sfuq := q.sfuq.map fun e => if e.slot = slotOf t then { e with parked := true } else e }).updSlot t fun x =>
      { x.past 12 with run := .active }

/-- Whether a slot has a parked result to come (R323): its instructions that name vector registers wait for it. -/
def parkedResult (s : State) (t : Nat) : Bool := (s.core (agentOf t)).sfuq.any fun e => e.slot = slotOf t && e.parked && !e.lost

end Sys2Proof.Machine
end

