-- ==== Sys2Proof/Machine/Interrupt.lean ====
section
/-! DEFINITION. Taking an interrupt (spec/01 R22; spec/15 R348; spec/16 R350 to R352), and what an interrupt or a halt does to the
instruction a slot has in progress (the pre-emption classes of R352). -/

namespace Sys2Proof.Machine

/-! ## The instruction in progress (R352) -/

/-- The instruction in progress is abandoned: it re-executes (R352). A vector access keeps its completed lanes under R128, and the
slot counts as having re-executed for the blocks it waited for (R210). -/
def abandon (s : State) (t : Nat) : State := reexecuted (s.updSlot t fun x => { x.abandonVector with run := .active, got := none }) t

/-- The descriptor that an abandoned TD.LD had loaded is as it was, where nothing has written it since (R186, R279). -/
def redoTd (s : State) (t : Nat) (r : Redo) : State :=
  match r.td with
  | some (i, old, new) => s.updCore (agentOf t) fun q => if q.td[i] = new then { q with td := q.td.set i old } else q
  | none => s

/-- An access that waits for its reply is abandoned, and the slot is as it was before it; of a vector load some lanes may have completed
(R128, R129, R186). One with nothing to restore was performed at issue and has completed, but for the read of a record, whose instruction
stands at its pc still (R155). -/
def endAccess (s : State) (t : Nat) : State :=
  match (s.slot t).redo with
  | none => (s.wake t).updSlot t fun x => { x with got := none }
  | some r =>
    let (k, s1) := match r.vec with | some _ => s.freeBelow 65 | none => (0, s)
    reexecuted (redoTd (s1.updSlot t fun x => { x.redone r k with run := .active }) t r) t

/-- The request that a slot waits for is abandoned: the reply to it matches no instruction (R215, R263). -/
def abandonReq (s : State) (t tag : Nat) : State :=
  abandon (s.updCore (agentOf t) fun q => { q with reqs := match look tag q.reqs with
    | some r => put tag { r with dead := true } q.reqs
    | none => q.reqs }) t

/-- Whether a SEAL is held by its page's home until reservations are filled (R255, R263). -/
def sealHeld (s : State) (m : Msg) : Bool := s.procs.any fun q => q.2.sealers.contains m

/-- A slot that waits for the result of an operation at a home (R186, R263): a SEAL that the home holds, and FREE.SEAL, are abandoned; an
atomic on host memory completes in the background with its reply parked; any other completes first. -/
def endResult (s : State) (t d n : Nat) : Option State :=
  match slotReq (s.core (agentOf t)) (slotOf t) with
  | none => some (abandon s t)
  | some (tag, r) =>
    if r.msg.type = Ty.sealq && (bits r.msg.w[2] 1 0 = 1 || sealHeld s r.msg) then some (abandonReq s t tag)
    else if r.msg.type = Ty.atom && hostLine r.msg.addr then
      some (s.updSlot t fun x => { x.past n with run := .active, parked := some (tag, n, Fin.ofNat 32 d) })
    else none

/-- A slot's instruction in progress ends as its pre-emption class says (R72, R128, R155, R186, R263, R299, R323, R324, R395); `none`
while it must complete first. What was performed at issue has completed. An unbind that RBIND waits for is given up with it: the frame stays
bound for the reissued one, and a page that has gone already completes it (R395). -/
def endInProgress (s : State) (t : Nat) : Option State :=
  let c := agentOf t
  match (s.slot t).run with
  | .idle | .halted | .dead => some s
  | .active => some (abandon s t)
  | .waiting w =>
    match w with
    | .lsSplit _ | .deal | .chanStop _ => none
    | .result _ d n _ => endResult s t d.val n
    | .access | .vector | .host => some (endAccess s t)
    | .pause _ => some (s.wake t)
    | .tensor => some (stopTensor s t)
    | .sfu => some (parkSfu s t)
    | .mailbox m _ => some (abandon (s.updMailbox m fun x => { x with waiters := x.waiters.erase t }) t)
    | .receive _ => some (abandon (s.updCore c fun q => { q with rwaiters := q.rwaiters.erase (slotOf t) }) t)
    | .rbind page =>
      if (look page s.frames).isNone then some (s.wake t)
      else some (abandon ((updFrame s page fun f => { f with unbind := false }).updSlot t fun x => { x with pc := x.pc - 4 }) t)
    | .line _ _ | .page _ _ _ | .pageFull | .lsBusy | .tlbsync | .partDone | .codeflush _ _ _ _ | .puts | .release | .order | .remotes | .acks
    | .spill | .home _ | .barrier _ _ | .irq | .wbLoad | .channel _ _ | .sfuFull | .sfuParked | .rank _ | .inject | .tag _ => some (abandon s t)

/-! ## Pending interrupts (R22, R348, R350) -/

/-- Raise an interrupt in a slot of a partition where its context stands (R355). -/
def raiseIn (s : State) (p t : Nat) (i : Intr) : State :=
  if s.partOf (agentOf t) = some p then raise s t i else updThread s (some p) t fun x => { x with pend := x.pend ++ [i] }

/-- Priority of a pending interrupt (R22). -/
def Intr.rank : Intr → Nat
  | .preempt _ => 0
  | .engine _ _ _ _ => 1
  | .mailbox _ => 2

/-- The interrupt a slot takes next: PREEMPT, then ENGINE_FAULT, then MAILBOX, each in the order they became pending (R22). -/
def firstIntr (l : List Intr) : Option Intr :=
  (l.find? fun i => i.rank = 0).orElse fun _ => (l.find? fun i => i.rank = 1).orElse fun _ => l.find? fun i => i.rank = 2

/-- Cause and tr.val of an interrupt (R332). -/
def Intr.causeVal : Intr → Cause × Word
  | .preempt r => (.preempt, r.setWidth 64)
  | .engine _ a _ _ => (.engineFault, a)
  | .mailbox m => (.mailbox, m.setWidth 64)

/-- What delivery of an interrupt writes before the trap: an engine fault's descriptor (R348). -/
def Intr.deliver (i : Intr) (x : Slot) : Slot :=
  match i with
  | .engine w0 w1 w2 w3 => { x with efd := #v[w0, w1, w2, w3] }
  | _ => x

/-- Whether a slot may take interrupts now (R22, R24, R98): in U mode, in S mode while tr.status.sie is 1, and a slot that holds no
thread at once (R313); not between the members of a bundle (R39). -/
def mayInterrupt (x : Slot) : Bool :=
  match x.run with
  | .halted | .dead => false
  | .idle => true
  | _ => !x.paired && (x.mode = .u || (x.mode = .s && x.trStatus.getLsbD 2))

/-- The queue entries of a slot that enters S mode through PREEMPT move to its core's context buffer, as far as it has room: those to be
injected, then those received for the slot (R351). -/
def spillEntries (s : State) (t : Nat) : State :=
  let c := agentOf t
  match s.partOf c with
  | none => s
  | some p =>
    let q := s.core c
    let s1 := (q.injq.filter fun e => e.slot = slotOf t).foldl (fun s e => match spillItem s p c (.inj e) false with
      | some s1 => s1.updCore c fun q => { q with injq := q.injq.erase e }
      | none => s) s
    (q.rcvq.filter fun e => e.slot = some (slotOf t)).foldl (fun s e => match spillItem s p c (.rcv e) false with
      | some s1 => s1.updCore c fun q => { q with rcvq := q.rcvq.erase e }
      | none => s) s1

/-- Whether a slot's core can issue: its partition runs and is not halted, and its clock runs. -/
def slotRuns (s : State) (t : Nat) : Bool := works s (agentOf t)

/-- A slot takes an interrupt (R20, R22): tr.pc is the first instruction not executed, and 0 for a slot that holds no thread
(R313). -/
def takeIntr (s : State) (t : Nat) (i : Intr) : State :=
  let x := s.slot t
  let resume : Word := if x.run == .idle then 0 else x.pc
  let y := { i.deliver x with pend := x.pend.erase i, mode := if x.run == .idle then .u else x.mode }
  let s1 := enterTrap (s.setSlot t y) t i.causeVal.1 false i.causeVal.2 resume
  if i.rank = 0 && (s1.slot t).run == .active then spillEntries s1 t else s1

/-- INTERRUPT_TAKE (R22): between instructions, or where the pre-emption class of the instruction in progress allows it. -/
def execInterruptTake (t : Nat) (s : State) : Out :=
  if !onCore t || !slotRuns s t || !mayInterrupt (s.slot t) then .next s else
  match firstIntr (s.slot t).pend with
  | none => .next s
  | some _ =>
    match endInProgress s t with
    | none => .next s
    | some s1 =>
      match firstIntr (s1.slot t).pend with
      | none => .next s1
      | some i => .next (takeIntr s1 t i)

end Sys2Proof.Machine
end

