-- ==== Sys2Proof/Machine/Partition.lean ====
section
/-! DEFINITION. Partitions on their cores (spec/16 R353 to R361): where a partition's contexts stand, the halt of a cluster, and
which partition of a pair Matins runs. -/

namespace Sys2Proof.Machine

/-! ## Contexts (R355, R356) -/

/-- The context of a core where it stands. -/
def ctxOfCore (s : State) (c : Nat) : CoreCtx := { slots := (List.range 16).map fun i => s.slot (threadOf c i), core := s.core c }

/-- Put a context into a core; what is not in a context stays with the core: the local store, the lines and what is on its way for
them, the instruction cache and the port's trace ring (R353, R355, R356). -/
def putCtx (s : State) (c : Nat) (x : CoreCtx) : State :=
  let s1 := (List.range 16).foldl (fun s i => s.setSlot (threadOf c i) (x.slots.getD i {})) s
  s1.updCore c fun q => { x.core with
    ls := q.ls, lines := q.lines, reqs := q.reqs, puts := q.puts, awaits := q.awaits, held := q.held, icache := q.icache,
    stamp := q.stamp, trace := q.trace }

/-- The clusters of a partition. -/
def partClusters (s : State) (p : Nat) : List Nat := match (s.part p).cfg with | some g => clusterSet g | none => []

/-- The cores of a partition, in ascending order. -/
def partCores (s : State) (p : Nat) : List Nat := match (s.part p).cfg with | some g => coreSet g | none => []

/-- The anchor cluster of a partition: the lowest of its core set (R359). -/
def anchorOf (s : State) (p : Nat) : Option Nat := (partClusters s p).head?

/-- Whether a partition holds its cores: every cluster runs it and no swap is under way (R353, R354). -/
def holdsCores (s : State) (p : Nat) : Bool :=
  !(partClusters s p).isEmpty && (partClusters s p).all fun k => inPlaceAt s p k && (s.cluster k).swap == .none

/-- A partition's clock: clu.cycle of its anchor cluster (R359). -/
def anchorCycle (s : State) (p : Nat) : Nat := match anchorOf s p with | some k => (s.cluCycle k).toNat | none => 0

/-- The time comes at which a partition's clock reaches a count, when that time is still to come. -/
def reachCycle (s : State) (p n : Nat) : State := { s with time := s.time + (n - anchorCycle s p) }

/-- Whether a partition's clock runs, so that it reaches every count. -/
def anchorRuns (s : State) (p : Nat) : Bool := match anchorOf s p with | some k => (s.cluster k).clock == .running | none => false

/-- A gated cluster runs again (R410): its cycle count goes on, and starts from zero after power gating (R17). -/
def ungate (s : State) (k : Nat) : State :=
  if (s.cluster k).clock == .running then s else s.updCluster k fun x => { x with clock := .running, since := s.time }

/-! ## The halt of a cluster (R354) -/

/-- Both banks of a core's tensor engine drain, so that no counter has to be saved (R299, R356). -/
def drainBanks (s : State) (c : Nat) : State :=
  let (q1, l1) := (s.core c).drained false true
  let (q2, l2) := q1.drained true true
  setOverflow (s.setCore c q2) c (l1 ++ l2)

/-- Deque entries, pieces still to be queued and a record in transit to the core go to its backing area (R135). Without a backing
area they stay with the core's context (log 51). -/
def saveDeque (s : State) (c : Nat) : State :=
  let coming := (s.transit.filter fun x => x.thief = c).map (·.rcd)
  let s1 := { s with transit := s.transit.filter fun x => x.thief != c }
  let backed := hasBacking s c
  let s2 := s1.updCore c fun q =>
    let all := q.deque ++ q.spillPath.map (·.2) ++ coming
    if backed then
      let n := 4096 - q.backing.length
      { q with backing := q.backing ++ all.take n, deque := all.drop n, spillPath := [] }
    else { q with deque := all.take 64, spillPath := (all.drop 64).map fun r => (noThread, r) }
  s2.wakeWhere c (· == .deal)

/-- Every slot of a core ends the instruction it has in progress as R352 gives; a slot whose instruction must complete still waits. -/
def haltSlots (s : State) (c : Nat) : State :=
  (List.range 16).foldl (fun s i => match endInProgress s (threadOf c i) with | some s1 => s1 | none => s) s

/-- Halt a core: its slots, its tensor engine and its deque. Channels and bursts run on to their next boundary (R314, R319). -/
def haltCore (s : State) (c : Nat) : State := drainBanks (haltSlots (saveDeque s c) c) c

/-- The halt stage on a cluster (R354). -/
def haltCluster (s : State) (k out : Nat) (inc : Option Nat) (reason : Nat) : State :=
  let s1 := s.updCluster k fun x => { x with swap := .halted out inc reason }
  (coresOf k).foldl haltCore s1

/-- Every slot of a partition halts in place: its state stays where it is (R361, R363). -/
def haltInPlace (s : State) (p : Nat) : State := (partCores s p).foldl haltSlots s

/-- Whether the halt stage of a cluster is over: no instruction has still to complete, and its engines have stopped (R354). -/
def haltedNow (s : State) (k : Nat) : Bool :=
  (coresOf k).all fun c =>
    let q := s.core c
    (s.slotsWhere c fun x => match x.run with | .waiting _ => true | _ => false).isEmpty && q.tqueue.isEmpty && q.wbld.isNone &&
      q.burst.part = 0 && q.cp.toList.all (fun (x : Chan) => !x.running || (x.wp.toNat % 256 = 0 && !x.reqOut)) && q.sfuq.isEmpty && q.reqs.all (fun (r : Nat × Req) => r.2.dead) && q.held.isEmpty

/-- The flush stage of a core (R247, R354): its release sets are performed; when those are acknowledged, and the posted writes to the host
among them have reached it (R401), every line is given up. No slot
issues these puts, and their headers carry slot 0 (log 66). -/
def flushCore (s : State) (c : Nat) : State :=
  if !(unsent s c).isEmpty then flushUnsent s c 0 (unsent s c)
  else if !released s c || drainsHost s c then s
  else ((s.core c).lines.map (·.1)).foldl (fun s blk =>
    let s1 := giveUp s c 0 blk
    setLine s1 c blk none) s

/-- Whether nothing of a core has still to be put back or acknowledged. -/
def flushedNow (s : State) (c : Nat) : Bool := (s.core c).lines.isEmpty && (s.core c).puts.isEmpty

/-- SWAP_FLUSH (R247, R354): the lines of the outgoing partition are put back; the stage ends when every put is acknowledged. -/
def execSwapFlush (cl : Nat) (s : State) : Out :=
  match (s.cluster cl).swap with
  | .halted out inc reason =>
    if !haltedNow s cl then .next s else
    if (coresOf cl).all (flushedNow s) && (s.cluster cl).l2dirty.isEmpty then
      .next (s.updCluster cl fun x => { x with swap := .flushed out inc reason })
    else
      let s1 := (coresOf cl).foldl flushCore s
      .next (((s1.cluster cl).l2dirty.map (·.1)).foldl (fun s blk => flushL2 s cl blk) s1)
  | _ => .next s

/-! ## Contracts and time slices (R359 to R361) -/

/-- Whether a partition has work: a slot that is not idle, a queued record, an engine that runs, or a mailbox that was notified
(R361). -/
def hasWork (s : State) (p : Nat) : Bool :=
  ((partCores s p).any fun c =>
    let q := coreOfPart s p c
    (slotsOfPart s p c).any (fun x => x.run != .idle) || !q.deque.isEmpty || !q.backing.isEmpty || !q.spillPath.isEmpty ||
      !q.tqueue.isEmpty || q.wbld.isSome || q.burst.st == .running || q.cp.toList.any Chan.running || !q.sfuq.isEmpty) ||
  s.transit.any (fun t => inPlaceAt s p (clusterOf t.thief)) ||
  s.shares.any (fun x => x.part = p) ||
  s.mailboxes.any (fun (x : Nat × Mailbox) => x.2.due && x.2.notify != 0 && (match x.2.assign with | some a => a.owner.val = p | none => false))

/-- Budget that a contract has left now (R361). -/
def budgetLeft (s : State) (p : Nat) : Nat :=
  match (s.part p).contract with
  | none => 0
  | some k => k.left - (match k.since with | some t => anchorCycle s p - t | none => 0)

/-- Change a partition's contract. -/
def updContract (s : State) (p : Nat) (f : Contract → Contract) : State :=
  s.updPart p fun x => { x with contract := x.contract.map f }

/-- Charging of a contract stops: the halt begins (R361). -/
def stopCharge (s : State) (p : Nat) : State :=
  let n := budgetLeft s p
  updContract s p fun k => { k with left := n, since := none }

/-- Charging of a contract starts. -/
def startCharge (s : State) (p : Nat) : State :=
  let now := anchorCycle s p
  updContract s p fun k => { k with since := some now }

/-- Whether a contract partition claims the cores: it runs, with budget left and work (R361). -/
def claims (s : State) (p : Nat) : Bool := (s.part p).running && !(s.part p).diverged && (s.part p).contract.isSome && budgetLeft s p != 0 && hasWork s p

/-- End of a contract's current period. -/
def periodEnd (s : State) (p : Nat) : Nat := match (s.part p).contract with | some k => k.start + k.period | none => 0

/-- Whether the other partition of a pair should hold the cores in place of the holder (R361). -/
def yieldsTo (s : State) (h o : Nat) : Bool :=
  let free (p : Nat) : Bool := (s.part p).running && (s.part p).contract.isNone
  if !(s.part o).running then false
  else if !(s.part h).running then free o || claims s o
  else if claims s h then claims s o && (periodEnd s o < periodEnd s h || (periodEnd s o = periodEnd s h && o < h))
  else if claims s o then true
  else (s.part h).contract.isSome && free o

/-- The holder of a pair's cores. -/
def holderOf (s : State) (p : Nat) : Option Nat :=
  if holdsCores s p then some p
  else match s.partner p with
    | some q => if holdsCores s q then some q else none
    | none => none

/-- Matins reviews a pair and commands a swap where R361 asks for one. What happens while a swap is under way is reviewed at its end
(`execSwapExchange`). -/
def rebalance (s : State) (p reason : Nat) : State :=
  match s.partner p, holderOf s p with
  | some q, some h =>
    let o := if h = p then q else p
    if (s.part h).swapTo.isNone && (s.part h).ending.isNone && (s.part o).ending.isNone && yieldsTo s h o then
      s.updPart h fun x => { x with swapTo := some (o, reason) }
    else s
  | _, _ => s

/-- A partition comes to hold its anchor cluster, by a swap or a start: its budget is charged and its time slice begins (R361). -/
def beginHold (s : State) (p : Nat) : State :=
  let now := anchorCycle s p
  startCharge (s.updPart p fun x => { x with since := now }) p

/-- PARTITION_SWAP (R354): Matins' swap command reaches the clusters, and the halt of the outgoing partition begins. -/
def execPartitionSwap (out inc reason : Nat) (s : State) : Out :=
  if (s.part out).swapTo != some (inc, reason) || !holdsCores s out then .next s else
  let s1 := (stopCharge s out).updPart out fun x => { x with swapTo := none, away := reason, inPlace := false }
  .next ((partClusters s out).foldl (fun s k => haltCluster s k out (some inc) reason) s1)

/-- Whether a partition holds its anchor cluster, from the end of the swap-in there until the halt begins (R361). -/
def holdsAnchor (s : State) (p : Nat) : Bool :=
  match anchorOf s p with
  | some k => inPlaceAt s p k && (s.cluster k).swap == .none
  | none => false

/-- PERIOD_START (R361): a contract's period ends and the next begins with a full budget. -/
def execPeriodStart (part : Nat) (s : State) : Out :=
  match (s.part part).contract with
  | none => .next s
  | some k =>
    if !anchorRuns s part then .next s else
    let s1 := reachCycle s part (k.start + k.period)
    let s2 := (updContract s1 part fun k => { k with start := k.start + k.period, left := k.budget, since := none }).updPart part fun x =>
      { x with inPlace := false }
    let s3 := if holdsAnchor s2 part && (s.part part).running then startCharge s2 part else s2
    .next (rebalance s3 part 2)

/-- Whether a partner may have the cores when a budget is exhausted: it runs, and its own contract, if it has one, has budget left
(R361). -/
def mayHold (s : State) (q : Nat) : Bool := (s.part q).running && ((s.part q).contract.isNone || budgetLeft s q != 0)

/-- BUDGET_EXHAUSTED (R361): the partner is swapped in; a partition that has none that may issue is halted in place until its next
period. -/
def execBudgetExhausted (part : Nat) (s : State) : Out :=
  match (s.part part).contract with
  | none => .next s
  | some k =>
    match k.since with
    | none => .next s
    | some t =>
      if !holdsCores s part || !(s.part part).running || (s.part part).inPlace || !anchorRuns s part then .next s else
      let s1 := stopCharge (reachCycle s part (t + k.left)) part
      match s.partner part with
      | some q =>
        if (s.part part).swapTo.isSome then .next s1
        else if mayHold s1 q then .next (s1.updPart part fun x => { x with swapTo := some (q, 1) })
        else .next (haltInPlace (s1.updPart part fun x => { x with inPlace := true }) part)
      | none => .next (haltInPlace (s1.updPart part fun x => { x with inPlace := true }) part)

/-- TIME_SLICE_EXPIRY (R361): two partners without contracts take turns. -/
def execTimeSliceExpiry (part : Nat) (s : State) : Out :=
  match s.partner part, (s.part part).cfg with
  | some q, some g =>
    let (x, y) := (s.part part, s.part q)
    if !holdsCores s part || !x.running || !y.running || x.contract.isSome || y.contract.isSome || x.swapTo.isSome || !anchorRuns s part then .next s
    else .next ((reachCycle s part (x.since + g.slice)).updPart part fun x => { x with swapTo := some (q, 3) })
  | _, _ => .next s

/-- PARTITION_NO_WORK (R361): a contract partition without work yields its cores to its partner. -/
def execPartitionNoWork (part : Nat) (s : State) : Out :=
  if (s.part part).contract.isNone || !holdsCores s part || hasWork s part then .next s
  else .next (rebalance s part 2)

/-! ## Completion of a partition (R101) -/

/-- Slots of a partition that have fire-and-forget operations outstanding (R101, R382). -/
def partRemotes (s : State) (p : Nat) : Bool := (partCores s p).any fun c => (slotsOfPart s p c).any fun x => x.ff != 0

/-- Lease registers of a partition's cores are made invalid (R417). -/
def endLeases (s : State) (p : Nat) (leases : List Nat) : State :=
  (partCores s p).foldl (fun s c => updCoreOf s p c fun q =>
    leases.foldl (fun (q : Core) i =>
      if h : i < 8 then { q with leaseBase := q.leaseBase.set i 0, leaseLim := q.leaseLim.set i 0 } else q) q) s

/-- Whether some record of a launch is queued, in transit, waiting to be dealt or running, or a burst will push one (R344). -/
def launchLives (s : State) (p : Nat) (tag : BitVec 16) : Bool :=
  let has (r : Rec) : Bool := r.launch = some tag
  ((partCores s p).any fun c =>
    let q := coreOfPart s p c
    q.deque.any has || q.backing.any has || q.spillPath.any (fun (e : Nat × Rec) => has e.2) ||
      (q.burst.st == .running && q.burst.launch = some tag) || (slotsOfPart s p c).any fun x => x.record.any has) ||
  s.transit.any (fun (t : Transit) => (partCores s p).contains t.thief && has t.rcd) || s.shares.any fun (x : Share) => x.part = p && has x.rcd

/-- The leases of completed launches all of whose records have ended are ended (R344). -/
def closeLaunches (s : State) (p : Nat) : State :=
  match (s.part p).closing.filter fun (x : BitVec 16 × List Nat) => !launchLives s p x.1 with
  | [] => s
  | l => (l.foldl (fun s (x : BitVec 16 × List Nat) => endLeases s p x.2) s).updPart p fun x => { x with closing := x.closing.filter fun y => !l.contains y }

/-- PART.DONE (R100, R101, R417): once every remote operation of the partition that is counted has been acknowledged, the oldest
unfinished launch completes; its leases stand until every record of it has ended (R344). With no unfinished launch the completion message
names launch tag 0 (log 67). -/
def execPartDone (a : Reg) (s : State) : Out :=
  privileged (tlbBase 8 0 a 0) s <|
  match s.partOf s.myCore with
  | none => done 4 s
  | some p =>
    if partRemotes s p then wait .partDone s else
    let l := (s.part p).launches.head?
    let tag : Nat := match l with | some l => l.tag.toNat | none => 0
    let s1 := s.hostEvent (some p) 0x82 0 0 [s.rd a, BitVec.ofNat 64 tag]
    let s2 := match l with
      | some l => (s1.updPart p fun x => { x with
          launches := x.launches.drop 1, closing := if l.leases.isEmpty then x.closing else x.closing ++ [(l.tag, l.leases)] }).hostEvent (some p) 0x81 0 tag []
      | none => s1
    done 4 (closeLaunches s2 p)

end Sys2Proof.Machine
end

