-- ==== Sys2Proof/Machine/Mailbox.lean ====
section
/-! DEFINITION. The BAR registers, the mailboxes (spec/18 R408 to R410) and the swap's exchange, after which a mailbox's action may
follow (spec/16 R354 to R357, R362, R363). -/

namespace Sys2Proof.Machine

/-! ## Notify values (R409, R410) -/

/-- Whether a cluster runs a partition now, so that a mailbox's action can follow there (R409, R410). -/
def clusterServes (s : State) (p k : Nat) : Bool :=
  inPlaceAt s p k && (s.cluster k).clock == .running && (s.cluster k).swap == .none && (s.part p).running

/-- The action a notify register's value asks for, once it can be taken: a waiting slot gets the value, else an interrupt is raised
or a wake record pushed, else the value stays (R152, R409). -/
def serveMailbox (s : State) (m : Nat) : State :=
  let x := s.mailbox m
  match x.assign with
  | none => s.updMailbox m fun x => { x with due := false }
  | some a =>
    let settled (s : State) : State := s.updMailbox m fun x => { x with due := false }
    if !x.due then s else
    if x.notify = 0 then settled s else
    match x.waiters with
    | t :: l =>
      match (s.slot t).run with
      | .waiting (.mailbox _ d) =>
        if !clusterServes s a.owner.val (clusterOf (agentOf t)) then s else
        (s.updSlot t fun y => { (y.ws d x.notify).past 4 with run := .active }).updMailbox m fun x =>
          { x with notify := 0, waiters := l, due := false }
      | _ => s.updMailbox m fun x => { x with waiters := l }
    | [] =>
      if !clusterServes s a.owner.val (clusterOf a.wakeCore) then s else
      let byRecord (s : State) : State :=
        if a.wakeRec = 0 then s else dealTo s a.wakeCore noThread (recOf (homeBytes s a.wakeRec 32) a.wakeCore)
      match a.irqSlot with
      | some i =>
        let t := threadOf a.wakeCore i.val
        if (s.slot t).run == .idle then byRecord (settled s) else raise (settled s) t (.mailbox (BitVec.ofNat 8 m))
      | none => byRecord (settled s)

/-- Mailboxes 0 to 15 and 255 are command mailboxes (R408). -/
def isCommandBox (m : Nat) : Bool := m < 16 || m = 255

/-- A value reaches a notify register (R408, R411): a command mailbox's ring is to be read; another mailbox's action is due when
the register becomes non-zero. -/
def applyNotify (s : State) (m : Nat) (v : Word) : State :=
  let s1 := s.updMailbox m fun x =>
    { x with notify := x.notify ||| v, due := x.due || isCommandBox m || x.notify = 0 }
  if isCommandBox m then s1 else
  match (s.mailbox m).assign with
  | some a => rebalance (serveMailbox s1 m) a.owner.val 2
  | none => serveMailbox s1 m

/-- The owner of a mailbox. -/
def mailboxOwner (s : State) (m : Nat) : Option Nat := (s.mailbox m).assign.map fun a => a.owner.val

/-- A mailbox-log entry as a number (R362). -/
def mbxCode (m : Nat) (v : Word) (seq : Nat) : Nat := m + seq % 2 ^ 32 * 2 ^ 32 + v.toNat * 2 ^ 64

/-- The number under which a partition's held mailbox writes wait, beside the ports (R363; log 30). -/
def mbxPort : Nat := 0xFFFF

/-- A held notify write whose turn it is in a partition's mailbox log (R363). -/
def turnOf (s : State) (p : Nat) : Option (Nat × Word) :=
  let x := s.part p
  x.heldNotify.find? fun (n : Nat × Word) => s.mem.le (x.mbxLog + 16 * x.mbxSeq) 16 = mbxCode n.1 n.2 x.mbxSeq

/-- Whether a mailbox log has an entry from i on for a value and a mailbox; no entry has value zero, which ends the log (R363, log 30). -/
def mbxLogHas (m : Memory) (log box : Nat) (v : Word) : Nat → Nat → Bool
  | 0, _ => false
  | fuel + 1, i =>
    let e := m.le (log + 16 * i) 16
    e / 2 ^ 64 != 0 && (e = mbxCode box v i || mbxLogHas m log box v fuel (i + 1))

/-- Apply held notify writes in the order of the mailbox log. -/
def applyHeld : Nat → State → Nat → State
  | 0, s, _ => s
  | fuel + 1, s, p =>
    match turnOf s p with
    | none =>
      s.updPart p fun x => { x with heldSince := if x.heldNotify.isEmpty then drop mbxPort x.heldSince else
        (if (look mbxPort x.heldSince).isNone then put mbxPort s.time x.heldSince else x.heldSince) }
    | some n =>
      let s1 := s.updPart p fun x => { x with heldNotify := x.heldNotify.erase n, mbxSeq := x.mbxSeq + 1, heldSince := drop mbxPort x.heldSince }
      applyHeld fuel (applyNotify s1 n.1 n.2) p

/-- A notify write (R362, R363, R408): a write of zero is discarded; in record mode it is logged, and in replay mode it is applied in
the order of the log. -/
def notify (s : State) (m : Nat) (v : Word) : State :=
  if v = 0 then s else
  match mailboxOwner s m with
  | none => applyNotify s m v
  | some p =>
    match (s.part p).mode with
    | .off => applyNotify s m v
    | .record =>
      let x := s.part p
      let s1 := s.updMem fun mem => mem.wrBytes (x.mbxLog + 16 * x.mbxSeq) (leBytes 16 (mbxCode m v x.mbxSeq))
      applyNotify (s1.updPart p fun x => { x with mbxSeq := x.mbxSeq + 1 }) m v
    | .replay =>
      let s1 := s.updPart p fun x => { x with heldNotify := x.heldNotify ++ [(m, v)] }
      let s2 := applyHeld ((s1.part p).heldNotify.length + 1) s1 p
      let x := s2.part p
      if x.heldNotify.all fun (n : Nat × Word) => mbxLogHas s2.mem x.mbxLog n.1 n.2 (s2.mem.length + 1) x.mbxSeq then s2
      else s2.updPart p fun x => { x with stray := some mbxPort }

/-! ## Registers of the host (R408, R429, R432, R437) -/

/-- Whether the device answers the host's accesses to BAR0 (R429). -/
def bar0Open (s : State) : Bool := s.boot.st == .ready && !s.halted

/-- Whether the device answers accesses to BAR2 (R429, R435). -/
def bar2Open (s : State) : Bool := s.boot.st != .d3hot && s.boot.st != .off

/-- Whether a function reaches a mailbox's page: the physical function all, virtual function v page v and those of the mailboxes
assigned to its partition (R408). -/
def reachesPage (s : State) (fn m : Nat) : Bool := m < 256 && (16 ≤ fn || m = fn || mailboxOwner s m = some fn)

/-- NOTIFY_WRITE (R408 to R410): a host write of a notify register. -/
def execNotifyWrite (fn m : Nat) (v : Word) (s : State) : Out :=
  if bar0Open s && reachesPage s fn m then .next (notify s m v) else .next s

/-- A write to a register of a command mailbox's page (R408). -/
def ringRegister (s : State) (fn m : Nat) (f : Mailbox → Mailbox) : State :=
  if bar0Open s && reachesPage s fn m && isCommandBox m then s.updMailbox m f else s

/-- A write to a register of the physical function's BAR2 (R429, R432, R437). -/
def bar2Register (s : State) (fn : Nat) (f : State → State) : State := if 16 ≤ fn && bar2Open s then f s else s

/-- REGISTER_WRITE (R9, R408, R429, R432, R437). Writing bs.rst is BOOT_RESET. -/
def execRegisterWrite (fn : Nat) (r : BarReg) (v : Word) (s : State) : Out :=
  .next (match r with
  | .ring m => ringRegister s fn m fun x => { x with ring := BitVec.ofNat 64 (bits v 51 6 * 64) }
  | .rsz m => ringRegister s fn m fun x => if 4 ≤ bits v 3 0 && bits v 3 0 ≤ 12 then { x with rsz := bits v 3 0 } else x
  | .prod m => ringRegister s fn m fun x => { x with prod := v.setWidth 32 }
  | .cons _ | .bootStatus | .ulog | .ports => s
  | .recoveryImage => bar2Register s fn fun s => { s with boot := { s.boot with recovery := BitVec.ofNat 64 (bits v 63 12 * 4096) } }
  | .nonce w => bar2Register s fn fun s => { s with attest := { s.attest with nonce := s.attest.nonce.set w v } }
  | .reportAddr => bar2Register s fn fun s => { s with attest := { s.attest with report := v } }
  | .reportGo => bar2Register s fn fun s =>
      if v = 1 && !s.attest.request then { s with attest := { s.attest with request := true, done := false } } else s
  | .telemetry => bar2Register s fn fun s => { s with tele := { s.tele with
      uerr := if bits v 63 48 = 0xFFFF then 0 else s.tele.uerr, cerr := if bits v 47 32 = 0xFFFF then 0 else s.tele.cerr } })

/-- What a host read of a register of a command mailbox's page returns (R9, R408). -/
def ringRead (s : State) (fn m : Nat) (f : Mailbox → Nat) : Word :=
  if bar0Open s && reachesPage s fn m && isCommandBox m then BitVec.ofNat 64 (f (s.mailbox m)) else 0

/-- The state field of the boot status register (R429). -/
def bootCode (s : State) : Nat := match s.boot.st with | .starting => 1 | .recovery => 2 | _ => 0

/-- The telemetry register (R437). -/
def telemetryWord (t : Tele) : Nat :=
  let x := t.sample.getD ⟨0, 0, 0, 0⟩
  t.uerr * 2 ^ 48 + t.cerr * 2 ^ 32 + t.thr.val * 2 ^ 30 + x.pwr.toNat * 2 ^ 18 + x.hot.toNat * 2 ^ 16 + x.tmax.toNat * 2 ^ 8 + x.tavg.toNat

/-- What a host read of a register returns (R9, R408, R429, R432, R437): reserved bits and the write-only bs.rst read as zero, and so does
every page that a function does not reach. A read changes nothing. -/
def barRead (s : State) (fn : Nat) (r : BarReg) : Word :=
  let page (n : Nat) : Word := if 16 ≤ fn && bar2Open s then BitVec.ofNat 64 n else 0
  match r with
  | .ring m => ringRead s fn m fun x => x.ring.toNat
  | .rsz m => ringRead s fn m fun x => x.rsz
  | .prod m => ringRead s fn m fun x => x.prod.toNat
  | .cons m => ringRead s fn m fun x => x.cons.toNat
  | .bootStatus => page (s.boot.fc % 2 ^ 7 * 2 ^ 16 + s.boot.fail % 2 ^ 8 * 2 ^ 8 + bit s.boot.warm * 2 ^ 4 + bootCode s)
  | .recoveryImage => page s.boot.recovery.toNat
  | .nonce w => page s.attest.nonce[w].toNat
  | .reportAddr => page s.attest.report.toNat
  | .reportGo => 0
  | .telemetry => page (telemetryWord s.tele)
  | .ulog => page s.tele.ulog
  | .ports => page (s.tele.ports.toNat % 2 ^ 24)

/-- What a host read of a mailbox's notify register returns, which it leaves as it is (R408). -/
def notifyRead (s : State) (fn m : Nat) : Word := if bar0Open s && reachesPage s fn m then (s.mailbox m).notify else 0

/-- What a host read of the attestation page's done register returns (R432). -/
def attestDone (s : State) (fn : Nat) : Word := if 16 ≤ fn && bar2Open s then boolWord s.attest.done else 0

/-! ## Trace rings (R201, R362) -/

/-- Matins copies a port's ring entries into the trace logs of their partitions (R201, R362, log 30). -/
def copyRing (s : State) (port : Nat) : State :=
  let l := (ringOf s port).entries
  let s1 := updRing s port fun x => { x with entries := [] }
  l.foldl (fun s (e : TraceEntry) =>
    match e.part.filter fun p => (s.part p).mode == .record with
    | none => s
    | some p =>
      let x := s.part p
      let i := (look port x.logged).getD 0
      let code := traceCode e.addr e.seq e.len e.slot e.core e.dev e.gnt
      (s.updMem fun m => m.wrBytes (traceSlot x.traceLog port i) (leBytes 16 code)).updPart p fun y => { y with logged := put port (i + 1) y.logged }) s1

/-- TRACE_RING_COPY (R201, R362). -/
def execTraceRingCopy (port : Nat) (s : State) : Out := .next (if (ringOf s port).entries.isEmpty then s else copyRing s port)

/-- Copy every port's ring, before a partition's logs are closed. -/
def copyRings (s : State) : State :=
  (s.procs.map (·.1) ++ (s.cores.filter fun (q : Nat × Core) => !q.2.trace.entries.isEmpty).map fun (q : Nat × Core) => corePort q.1).foldl copyRing s

/-- REPLAY_DIVERGENCE (R363): an event held for more than 2^24 cycles, or one that matches no entry still to come; the partition halts in
place, and the host is told the port and the number of the entry it has come to. -/
def execReplayDivergence (part port : Nat) (s : State) : Out :=
  let x := s.part part
  let since := if x.stray = some port then some s.time else (look port x.heldSince).map (· + (2 ^ 24 + 1))
  match since with
  | none => .next s
  | some t =>
    if x.mode != .replay || x.diverged then .next s else
    let seq := if port = mbxPort then x.mbxSeq else logEntry s.mem x.traceLog port ((look port x.logged).getD 0) / 2 ^ 32 % 2 ^ 32
    let s1 := ({ s with time := Nat.max s.time t }).updPart part fun x => { x with diverged := true, stray := none }
    .next ((haltInPlace s1 part).hostEvent none 0x86 0 0 [BitVec.ofNat 64 port, BitVec.ofNat 64 seq])

/-! ## The exchange (R354 to R357) -/

/-- Whether a partition learns of its swaps: its own notify flag, or its contract's (R357, R359). -/
def notifiesSwaps (s : State) (p : Nat) : Bool :=
  (match (s.part p).cfg with | some g => g.notify | none => false) || (match (s.part p).contract with | some k => k.notify | none => false)

/-- What a partition's core gets when the partition is back: the messages that arrived while it was away (R355). -/
def unspillCore (s : State) (p c : Nat) : State := returnSpills s p c Spill.away true

/-- The lowest-numbered ready slot of a core takes PREEMPT with the reason that took the cores away (R357). -/
def preemptLowest (s : State) (c reason : Nat) : State :=
  match s.slotsWhere c fun x => x.run == .active with
  | t :: _ => raise s t (.preempt (BitVec.ofNat 8 reason))
  | [] => s

/-- Mailboxes whose action is due are served (R409, R410). -/
def serveMailboxes (s : State) : State := (s.mailboxes.map (·.1)).foldl (fun s m => if isCommandBox m then s else serveMailbox s m) s

/-- A partition's cluster runs again after its context is in the cores (R354 to R357). -/
def restored (s : State) (p k : Nat) : State :=
  let s1 := (coresOf k).foldl (fun s c => unspillCore (rereadChans s c) p c) s
  let s2 := if anchorOf s1 p = some k then beginHold s1 p else s1
  let s3 := if notifiesSwaps s2 p then (coresOf k).foldl (fun s c => preemptLowest s c (s.part p).away) s2 else s2
  serveMailboxes s3

/-- The outgoing partition's context and the shadow store's change places on a cluster (R356). -/
def exchange (s : State) (k out inc : Nat) : State :=
  let old := (coresOf k).map (ctxOfCore s)
  let new := shadowCtxs s inc k
  let s1 := ((coresOf k).zip new).foldl (fun s (x : Nat × CoreCtx) => putCtx s x.1 x.2) s
  s1.updCluster k fun x => { x with shadow := some (out, old), part := some inc, swap := .none }

end Sys2Proof.Machine
end

