-- ==== Sys2Proof/Machine/Matins.lean ====
section
/-! DEFINITION. The commands of Matins (spec/18 R411 to R420), but for those that configure, start, stop, move or feed a partition. -/

namespace Sys2Proof.Machine

/-! ## Rings and packets (R411 to R415) -/

/-- The partition a command targets (R412). -/
def cmdPart (c : Cmd) : Nat := match c.fn with | some v => v.val | none => c.part.val

/-- The command mailbox an entry stands in (R408). -/
def cmdBox (c : Cmd) : Nat := match c.fn with | some v => v.val | none => 255

/-- The answer to a command entry (R413). -/
def cmdDone (s : State) (c : Cmd) (status : Nat) : State := s.hostEvent (c.fn.map (·.val)) 0x81 status c.tag.toNat []

/-- The function whose command mailbox a number names: `none` is the physical function (R408). -/
def boxFn (m : Nat) : Option Nat := if m = 255 then none else some m

/-- Whether a command of a mailbox is still performed in steps, so that the mailbox's later ones wait behind it (R415, R417). -/
def boxHeld (s : State) (m : Nat) : Bool :=
  let mine (c : Cmd) : Bool := c.fn.map (·.val) == boxFn m
  (s.parts.any fun (x : Nat × Part) =>
    (match x.2.ending with | some e => mine e.cmd | none => false) || (x.1 = m && x.2.launches.any (fun l => l.stage == .leases))) ||
  s.hostOps.any fun o => match o with | .biasSet b _ _ => mine b | _ => false

/-- The command mailboxes in the order of their numbers (R408, R411). -/
def commandBoxes : List Nat := List.range 16 ++ [255]

/-- The address in host memory of the i-th entry of a mailbox's ring that Matins has not consumed (R408, R411). -/
def ringEntry (x : Mailbox) (i : Nat) : Nat := 2 ^ 51 + x.ring.toNat + 64 * ((x.cons.toNat + i) % 2 ^ x.rsz)

/-- A word of such an entry. -/
def entryWord (s : State) (m i n : Nat) : Word := homeWord s (ringEntry (s.mailbox m) i + 8 * n)

/-- The command of an entry, from its word 0 (R412). -/
def boxCmd (m : Nat) (w : Word) : Cmd :=
  { fn := if h : m < 16 then some ⟨m, h⟩ else none, tag := BitVec.ofNat 16 (bits w 47 32), part := Fin.ofNat 16 (bits w 19 16), chain := bitOf w 8 }

/-- Whether entries of a type may stand in a packet of several: DELIVER and PAGE.REPLY (R415). -/
def inPackets (ty : Nat) : Bool := ty = 0x0B || ty = 0x0E

/-- Whether the entries from i on that belong to a mailbox's next packet lie below mb.prod, so that Matins starts it; one that is rejected
whole is read at once (R415). -/
def wholeFrom (s : State) (m : Nat) : Nat → Nat → Bool
  | 0, _ => true
  | fuel + 1, i =>
    let x := s.mailbox m
    let w := entryWord s m i 0
    i < (x.prod - x.cons).toNat && (!bitOf w 8 || !inPackets (bits w 7 0) || wholeFrom s m fuel (i + 1))

/-- Whether Matins is in the middle of a mailbox's packet (R415). -/
def Mailbox.midPacket (x : Mailbox) : Bool := !x.packet.isEmpty || x.bad != 0

/-- Whether a mailbox was notified and its ring holds a packet that Matins can start or go on with (R411, R415). -/
def boxReady (s : State) (m : Nat) : Bool :=
  let x := s.mailbox m
  x.due && x.packet.length < (x.prod - x.cons).toNat && !boxHeld s m && (x.midPacket || wholeFrom s m 4 0)

/-- The mailbox that Matins serves next: the one whose packet it has begun, else the next ready one by number after the last served
(R411). -/
def nextBox (s : State) : Option Nat :=
  let l := commandBoxes.filter (boxReady s)
  (l.find? fun m => (s.mailbox m).midPacket).orElse fun _ => (l.find? (s.served < ·)).orElse fun _ => l.head?

/-- The first word of an entry of a type that holds no operand, where the spec gives the operands their words (R246, R412 to R414). -/
def operandEnd (ty : Nat) : Nat :=
  match ty with | 0x02 | 0x03 | 0x0D => 1 | 0x0E | 0x16 => 2 | 0x06 => 5 | _ => 8

/-- Whether an entry is no command: its type is not listed, or a bit is set that no field of it holds (R412). -/
def malformedEntry (s : State) (m i : Nat) : Bool :=
  let w := entryWord s m i 0
  let ty := bits w 7 0
  ty = 0 || 0x16 < ty || bits w 15 9 != 0 || bits w 31 20 != 0 || bits w 63 48 != 0 ||
    (List.range 7).any fun n => operandEnd ty ≤ n + 1 && entryWord s m i (n + 1) != 0

/-- Whether the entry that Matins reads next is a command: its word 0 and those operand words whose place the spec gives are as the ring
holds them (R412, log 13). -/
def entryIs (s : State) (c : Cmd) (ty : Nat) (ops : List Word) : Bool :=
  let m := cmdBox c
  let i := (s.mailbox m).packet.length
  let w := entryWord s m i 0
  let d := boxCmd m w
  !malformedEntry s m i && bits w 7 0 = ty && d.tag == c.tag && d.chain == c.chain && (c.fn.isSome || d.part == c.part) &&
    (List.range ops.length).all fun n => entryWord s m i (n + 1) == ops.getD n 0

/-- Whether Matins reads an entry of a mailbox now: it is that mailbox's turn, and its ring holds the entry (R411, R412, R429). -/
def cmdReady (s : State) (c : Cmd) (ty : Nat) (ops : List Word) : Bool :=
  bar0Open s && nextBox s == some (cmdBox c) && entryIs s c ty ops

/-- Entries of a mailbox have been consumed (R408), which has had its turn (R411). -/
def consume (s : State) (c : Cmd) (n : Nat) : State :=
  { s with served := cmdBox c }.updMailbox (cmdBox c) fun x =>
    let cons := x.cons + BitVec.ofNat 32 n
    { x with cons := cons, packet := [], due := x.due && cons != x.prod }

/-- The command of an entry of a packet. -/
def PacketEntry.cmd : PacketEntry → Cmd
  | .malformed c => c
  | .deliver c _ _ _ => c
  | .reply c _ => c

/-- A packet is rejected: each of its entries read so far is answered with status 1, and those that follow, up to the fourth, will
be (R415). -/
def rejectPacket (s : State) (c : Cmd) : State :=
  let l := (s.mailbox (cmdBox c)).packet
  let s1 := (consume s c (l.length + 1)).updMailbox (cmdBox c) fun x =>
    { x with bad := if !c.chain then 0 else if x.bad != 0 then x.bad - 1 else 3 - l.length }
  cmdDone (l.foldl (fun s e => cmdDone s e.cmd 1) s1) c 1

/-! ## Accesses to device memory (R411) -/

/-- The parts of a range of physical addresses that lie in one block each. -/
def physPieces (pa n : Nat) : List (Nat × Nat) := (pieces (BitVec.ofNat 64 pa) n).map fun x => (x.1.toNat, x.2)

/-- What Matins waits for before an access to a block is performed at its home, and the state in which that is on its way; `none` when the
access may take place (R411). It waits as a waiter for a transient entry, and for the copies that cores hold of a block of protocol 1 or 3,
which the home takes back as for an ATOM (R208, R233); a page of another device, one in host bias and a line of host memory come first as
for an access of another device (R391, R399, R405). -/
def matinsWaits (s : State) (pa : Nat) (store : Bool) : Option State :=
  match homeAdmits s pa store with
  | .fail _ => none
  | .hold => some (openHome s pa store 64)
  | .pass =>
    match s.regionOf pa with
    | none => none
    | some (_, rg) =>
      let e := s.entry (entryAddr rg pa)
      if rgProto rg = 0 || s.hostOps.any (fun o => match o with | .mine a _ => a = pa / 64 * 64 | _ => false) then none
      else if deTr e || handling s (homeIn rg pa) (entryAddr rg pa) then some s
      else if (rgProto rg = 1 || rgProto rg = 3) && (deOv e || deShared e) then
        some (if s.takes.any fun t => t.pa = pa / 64 * 64 then s else stepTakes { s with takes := s.takes ++ [{ pa := pa / 64 * 64, why := .give }] })
      else none

/-- The first wait of a list of accesses: address, bytes, and whether it is a write. -/
def matinsGate (s : State) (l : List (Nat × Nat × Bool)) : Option State :=
  if s.regions.isEmpty && s.hdmSize = 0 then none
  else l.findSome? fun x => (physPieces x.1 x.2.1).findSome? fun y => matinsWaits s y.1 x.2.2

/-- Matins writes memory at each block's home (R411), which releases a line that it took from the host for it (R399). -/
def matinsWrite (s : State) (pa : Nat) (l : List Byte) : State :=
  let ps := physPieces pa l.length
  releaseLines (writePieces s (hostWriter s) ps l) ps true

/-! ## Commands -/

/-- An entry of a command that is no part of a packet of several (R412, R415): its type, the operand words whose place the spec gives, the
memory that Matins accesses for it at once, and which functions may send it (`pf`, `vf`). -/
def command (c : Cmd) (ty : Nat) (ops : List Word) (mem : List (Nat × Nat × Bool)) (pf vf : Bool) (s : State) (k : State → State) : Out :=
  if !cmdReady s c ty ops then .next s else
  let x := s.mailbox (cmdBox c)
  if x.midPacket || c.chain then .next (rejectPacket s c)
  else if !(match c.fn with | some _ => vf | none => pf) then .next (cmdDone (consume s c 1) c 2)
  else match matinsGate s mem with
    | some s1 => .next s1
    | none => .next (k (consume s c 1))

/-- A command whose status is known at once. -/
def answered (c : Cmd) (r : Except Nat State) (s : State) : State :=
  match r with
  | .ok s1 => cmdDone s1 c 0
  | .error n => cmdDone s c n

/-! ## Simple commands -/

/-- EVENT.CFG (R413). -/
def execEventCfg (c : Cmd) (ring : Word) (s : State) : Out :=
  command c 0x16 [ring] [] true false s fun s => answered c
    (if bits ring 5 4 != 0 || bits ring 63 52 != 0 then .error 1
     else .ok { s with pfRing := ring, ringPos := put 1000 0 s.ringPos }) s

/-- PREEMPT (R350). -/
def execPreemptCmd (c : Cmd) (core slot : Nat) (s : State) : Out :=
  let p := cmdPart c
  command c 0x0C [] [] true true s fun s => answered c
    (if 2048 ≤ core || 16 ≤ slot then .error 1
     else if !(partCores s p).contains core then .error 4
     else .ok (raiseIn s p (threadOf core slot) (.preempt 0))) s

/-- IFENCE (R420): no slot of the partition keeps fetched bytes (R182). -/
def execIfenceCmd (c : Cmd) (s : State) : Out :=
  let p := cmdPart c
  command c 0x0D [] [] false true s fun s => answered c
    (if (s.part p).cfg.isNone then .error 4
     else .ok ((partCores s p).foldl (fun s k => updSlotsOf s p k fun x => { x with ibuf := [] }) s)) s

/-- S2.INV (R420): the TLBs and walkers of the partition's clusters keep no translation of it, and every access that used one has completed
first, as TLBI and TLBSYNC order it. -/
def execS2Inv (c : Cmd) (page : Word) (s : State) : Out :=
  let p := cmdPart c
  if c.fn.isNone && (partClusters s p).any fun k => !(usersOf s k fun e => e.part = p).isEmpty then .next s else
  command c 0x11 [] [] true false s fun s => answered c
    (if page != BitVec.allOnes 64 && page.toNat % 4096 != 0 then .error 1
     else if (s.part p).cfg.isNone then .error 4
     else .ok ((partClusters s p).foldl (fun s k => removeEntries s k (fun e => e.part = p) fun e => e.part = p) s)) s

/-- MBX.ASSIGN (R409). -/
def execMbxAssign (c : Cmd) (m : Nat) (e : MbxAssign) (s : State) : Out :=
  command c 0x12 [] [] true false s fun s => answered c
    (if m < 16 || 254 < m || e.k < 4 || 12 < e.k || e.ring % 64 != 0 || 2048 ≤ e.wakeCore then .error 1
     else if !(partCores s e.owner.val).contains e.wakeCore || !backed e.ring (64 + 64 * 2 ^ e.k) then .error 4
     else .ok (s.updMailbox m fun x => { x with assign := some e })) s

/-- ROUTE.LOAD (R367, R368). -/
def execRouteLoad (c : Cmd) (dev : Nat) (es : List (Nat × BitVec 32)) (s : State) : Out :=
  command c 0x07 [] [] true false s fun s => answered c
    (if 1024 ≤ dev || es.any (fun (x : Nat × BitVec 32) => 1024 ≤ x.1 || fld x.2.toNat 25 4 != 0 || fld x.2.toNat 0 5 != 0) then .error 1
     else if es.any (fun (x : Nat × BitVec 32) => (routePorts x.2).any (23 < ·)) then .error 4
     else .ok { s with devNum := dev, routes := es.foldl (fun t (x : Nat × BitVec 32) => put x.1 x.2 t) [] }) s

/-- RANK.WRITE (R372): the table is that of the target partition's job. Operations that wait for a migrating rank are resolved again
(R373). -/
def execRankWrite (c : Cmd) (es : List (Nat × BitVec 32)) (s : State) : Out :=
  command c 0x08 [] [] true false s fun s => answered c
    (if es.any fun (x : Nat × BitVec 32) => 4096 ≤ x.1 || rankSt x.2 = 3 || fld x.2.toNat 14 16 != 0 then .error 1
     else .ok (resolveParked { s with ranks := es.foldl (fun t (x : Nat × BitVec 32) => put ((s.part (cmdPart c)).job * 4096 + x.1) x.2 t) s.ranks })) s

/-- Switch every port's trace ring on, each from index 0, or off (R201, R362). The ring of a core that has not been touched is on by
`ringOn`. -/
def switchRings (s : State) (on : Bool) : State :=
  let f (x : Trace) : Trace := if on then (if x.on then x else { on := true }) else {}
  let s1 := { s with cores := s.cores.map fun (q : Nat × Core) => (q.1, { q.2 with trace := f q.2.trace }) }
  (List.range 77).foldl (fun s p => s.updProc p fun x => { x with trace := f x.trace }) s1

/-- RECORD (R362, R363): the mode of a partition and its logs. -/
def execRecord (c : Cmd) (mode trace mbox : Nat) (s : State) : Out :=
  let p := cmdPart c
  command c 0x0F [] [] true false s fun s => answered c
    (if 2 < mode then .error 1
     else if (s.part p).cfg.isNone then .error 4
     else
       let s1 := copyRings s
       let kept := (s1.part p).heldNotify
       let m : RecMode := if mode = 0 then .off else if mode = 1 then .record else .replay
       let s2 := s1.updPart p fun x =>
         { x with mode := m, traceLog := trace, mbxLog := mbox, logged := [], heldSince := [], mbxSeq := 0, heldNotify := [], stray := none }
       let s3 := switchRings s2 (s2.parts.any fun (x : Nat × Part) => x.2.mode == .record)
       .ok (kept.foldl (fun s (n : Nat × Word) => notify s n.1 n.2) s3)) s

/-- Fields of a contract record (R359). -/
def ctBits (e : BitVec 256) (hi lo : Nat) : Nat := fld e.toNat lo (hi + 1 - lo)

/-- The bound D of R360. -/
def swapBound : Nat := 17200

/-- The admission tests of R360. -/
def admits (s : State) (p period budget : Nat) : Bool :=
  let leasedSet := match (s.part p).cfg with | some g => g.leased | none => false
  let other := match s.partner p with
    | some q => (match (s.part q).contract with | some k => (k.budget, k.period) | none => (0, 1))
    | none => (0, 1)
  leasedSet && budget + swapBound ≤ period && 20 * swapBound ≤ period &&
    10 * (budget * other.2 + other.1 * period) ≤ 9 * period * other.2

/-- CONTRACT (R359, R360). A virtual function's contract is its own partition's. -/
def execContract (c : Cmd) (e : BitVec 256) (s : State) : Out :=
  let p := match c.fn with | some v => v.val | none => ctBits e 135 132
  let (period, budget) := (ctBits e 63 0, ctBits e 127 64)
  command c 0x09 [] [] true true s fun s => answered c
    (if ctBits e 255 136 != 0 || ctBits e 131 130 != 0 then .error 1
     else if ctBits e 135 132 != p then .error 2
     else if (s.part p).cfg.isNone then .error 4
     else if ctBits e 128 128 = 0 then .ok (rebalance (s.updPart p fun x => { x with contract := none, inPlace := false }) p 2)
     else if budget < 1 || 2 ^ 40 ≤ period then .error 1
     else if !admits s p period budget then .error 4
     else
       let s0 := match anchorOf s p with | some k => ungate s k | none => s
       let now := anchorCycle s0 p
       let k : Contract := { period := period, budget := budget, notify := ctBits e 129 129 = 1, left := budget, start := now }
       let s1 := s0.updPart p fun x => { x with inPlace := false, contract := some k }
       let s2 := if holdsCores s1 p && (s1.part p).running then startCharge s1 p else s1
       .ok (rebalance s2 p 2)) s

/-- HDM.CFG (R402): the window, with every page in device bias. -/
def execHdmCfg (c : Cmd) (base size table : Nat) (s : State) : Out :=
  command c 0x13 [] [] true false s fun s => answered c
    (let bad := fun (x : Nat × BitVec 256) =>
       let b := rgBase x.2
       let crosses := b < base + size && base < b + rgSize x.2
       rgValid x.2 && (if crosses then rgHi x.2 != 3 || 1 < rgProto x.2 else rgHi x.2 = 3 && place b != .host)
     if base % 2 ^ 28 != 0 || size % 2 ^ 28 != 0 || size = 0 || 2 ^ 38 < size then .error 1
     else if !backed base size || !backed table (size / 2 ^ 15) || s.regions.any bad then .error 4
     else .ok { s with hdmBase := base, hdmSize := size, biasTab := table, mem := s.mem.clear table (size / 2 ^ 15) }) s

/-- BIAS.SET (R412): one to 4,096 pages of the window flip; the command completes when the last has. -/
def execBiasSet (c : Cmd) (page count : Nat) (host : Bool) (s : State) : Out :=
  command c 0x10 [] [] true true s fun s =>
    if page % 4096 != 0 || count < 1 || 4096 < count || !inWindow s page || !inWindow s (page + (count - 1) * 4096) then cmdDone s c 1
    else stepLink { s with hostOps := s.hostOps ++ [.biasSet c ((List.range count).map fun i => page + i * 4096) host] }

/-! ## Gargiber images (R245, R246) -/

/-- A dispatch entry of an image: protocol, type, limit, word offset. -/
structure ImageEntry where
  proto : Nat
  type : Nat
  lim : Nat
  zero : Nat
  off : Nat
deriving DecidableEq, Repr

/-- A dispatch entry in the data memory's layout (R221): valid, word offset, limit. -/
def ImageEntry.word (e : ImageEntry) : BitVec 32 := BitVec.ofNat 32 (1 + e.off % 2 ^ 14 * 4 + e.lim % 16 * 2 ^ 28)

/-- Little-endian number of n bytes at an offset of an image. -/
def imgNat (l : List Byte) (o n : Nat) : Nat := leNat ((l.drop o).take n)

/-- The dispatch entries of an image. -/
def imgEntries (l : List Byte) (code n : Nat) : List ImageEntry :=
  (List.range n).map fun i =>
    let o := 64 + code + 8 * i
    ⟨imgNat l o 1, imgNat l (o + 1) 1, imgNat l (o + 2) 1, imgNat l (o + 3) 1, imgNat l (o + 4) 4⟩

/-- Checks of R246 on an image, in the order of its statuses. -/
def imgStatus (s : State) (l : List Byte) (len : Nat) (mask : BitVec 128) : Nat :=
  let (flags, protos, off, code, n) := (imgNat l 6 2, imgNat l 8 8, imgNat l 16 4, imgNat l 20 4, imgNat l 24 4)
  if mask = 0 || mask.toNat / 2 ^ 77 != 0 || len < 64 || imgNat l 0 4 != 0x67726267 || imgNat l 4 2 != 1 || 1 < flags || imgNat l 28 36 != 0 ||
      code % 4 != 0 || off % 4 != 0 || len < 64 + code + 8 * n then 1
  else
    let es := imgEntries l code n
    if es.any fun e => 64 ≤ e.proto || !protos.testBit e.proto || e.zero != 0 || 31 < e.type || 15 < e.lim then 1
    else if flags = 1 then 2
    else if protos % 2 ^ 16 != 0 || off < 0x8000 || 0x10000 < off + code || es.any (fun e => 0x4000 ≤ e.off) ||
        s.regions.any (fun (x : Nat × BitVec 256) => rgValid x.2 && protos.testBit (rgProto x.2)) ||
        (es.map fun e => (e.proto, e.type)).eraseDups.length != n then 4
    else 0

/-- An image goes into a protocol processor: its code, and its entries in place of those of the protocols it binds (R246). -/
def loadImage (q : Proc) (l : List Byte) : Proc :=
  let (protos, off, code, n) := (imgNat l 8 8, imgNat l 16 4, imgNat l 20 4, imgNat l 24 4)
  let kept := q.dtab.filter fun (x : Nat × BitVec 32) => !protos.testBit (x.1 / 32)
  { q with hstore := q.hstore.wrBytes off ((l.drop 64).take code),
           dtab := (imgEntries l code n).foldl (fun t e => put (32 * e.proto + e.type) e.word t) kept }

/-- The bytes of an image that Matins reads: at most the length of the command. -/
def loadSize (s : State) (addr len : Nat) : Nat :=
  let head := homeBytes s addr 64
  Nat.min len (64 + imgNat head 20 4 + 8 * imgNat head 24 4)

/-- IMAGE.LOAD (R246). -/
def execImageLoad (c : Cmd) (addr len : Nat) (mask : BitVec 128) (s : State) : Out :=
  command c 0x06 [BitVec.ofNat 64 addr, BitVec.ofNat 64 len, mask.extractLsb' 0 64, mask.extractLsb' 64 64] [(addr, loadSize s addr len, false)] true false s fun s =>
    let l := homeBytes s addr (loadSize s addr len)
    let st := imgStatus s l len mask
    if st != 0 then cmdDone s c st
    else cmdDone (((List.range 77).filter fun j => mask.getLsbD j).foldl (fun s j => s.updProc j fun q => loadImage q l) s) c 0

/-! ## Regions (R212 to R214) -/

/-- Whether an entry's home kind matches the memory its range lies in (R213). -/
def homeKindOk (s : State) (e : BitVec 256) : Bool :=
  let b := rgBase e
  let t := b + rgSize e - 1
  match rgHi e with
  | 0 => (match place b, place t with | .hbm x, .hbm y => x = y | _, _ => false)
  | 1 => (match place b, place t with | .hbm _, .hbm _ => true | _, _ => false)
  | 2 => (match place b, place t with | .ddr, .ddr => true | _, _ => false)
  | _ => (match place b, place t with | .host, .host => true | _, _ => inWindow s b && inWindow s t)

/-- Bytes of a region's directory backing (R214, R390). -/
def dirBytes (e : BitVec 256) : Nat :=
  rgSize e / (64 * 2 ^ rgGrain e) * 16 + (if rgProto e = 8 then rgSize e / 4096 * 16 else 0)

/-- The status of REGION.BIND (R212 to R214, R248, R390, R398, R402). -/
def bindStatus (s : State) (idx : Nat) (e : BitVec 256) : Nat :=
  let (b, n) := (rgBase e, rgSize e)
  let size := rgBits e 141 136
  if 256 ≤ idx || rgBits e 191 160 != 0 || rgBits e 133 130 != 0 || rgBits e 127 116 != 0 || rgBits e 67 52 != 0 || rgBits e 11 0 != 0 ||
      rgFail e || !rgValid e || 6 < rgGrain e || size < 12 || 51 < size || rgBits e 159 156 != 0 || rgBits e 154 152 = 7 then 1
  else if b % n != 0 || rgValid (s.region idx) ||
      s.regions.any (fun (x : Nat × BitVec 256) => rgValid x.2 && rgBase x.2 < b + n && b < rgBase x.2 + rgSize x.2) ||
      (rgBits e 154 152 = 1 && rgBits e 155 155 = 1) || !homeKindOk s e ||
      (rgProto e = 7 && (rgGrain e != 6 || 1 < rgHi e)) || (rgProto e = 8 && (rgGrain e != 0 || rgHi e != 1)) ||
      (rgHi e = 3 && 1 < rgProto e) ||
      (rgHi e != 3 && s.hdmSize != 0 && s.hdmBase < b + n && b < s.hdmBase + s.hdmSize) ||
      !backed (rgDir e) (dirBytes e) then 4
  else 0

/-- REGION.BIND (R212 to R214): the directory is zeroed before the entry is valid. -/
def execRegionBind (c : Cmd) (idx : Nat) (e : BitVec 256) (s : State) : Out :=
  command c 0x04 [] [] true false s fun s =>
    let st := bindStatus s idx e
    if st != 0 then cmdDone s c st
    else cmdDone { s with mem := s.mem.clear (rgDir e) (dirBytes e), regions := put idx e s.regions } c 0

/-- Whether an address lies in a region. -/
def inRegion (e : BitVec 256) (pa : Nat) : Bool := rgBase e ≤ pa && pa < rgBase e + rgSize e

/-- Whether a handler of a region runs, or its home waits for the host, for a link operation or for another device (R214, R222). -/
def regionBusy (s : State) (idx : Nat) (e : BitVec 256) : Bool :=
  s.slots.any (fun (x : Nat × Slot) => !onCore x.1 && (match x.2.handler with | some h => h.region = idx && x.2.run != .idle | none => false)) ||
  s.hostOps.any (fun o => match o with
    | .rd pa _ _ => inRegion e pa | .own pa _ => inRegion e pa | .access pa _ => inRegion e pa | .toHost g => inRegion e g
    | .toDevice g _ => inRegion e g | .birsp _ pa _ _ => inRegion e pa
    | .mine _ _ => false | .biasSet _ _ _ => false) ||
  s.takes.any (fun t => inRegion e t.pa) ||
  s.frames.any (fun (x : Nat × Frame) => inRegion e x.1 &&
    (x.2.asked || x.2.unbind || !x.2.left.isEmpty || !x.2.requests.isEmpty || !x.2.recalls.isEmpty))

/-- Step 2 of R214 for a message on its way to its home: the bytes of a put or WB_DATA reach memory under the region's rule. -/
def landed (rg : BitVec 256) (s : State) (m : Msg) : State :=
  let a := m.addr / 64 * 64
  match m.flit with
  | none => s
  | some b =>
    if m.type = Ty.putp then
      if rgProto rg = 7 then s
      else if rgProto rg = 6 then s.updMem fun x => x.wrBlock a (redMerge (rgOp rg) (x.block a) b m.w[2])
      else s.updMem fun x => x.wrMask a b m.w[2]
    else if (m.type = Ty.putx || m.type = Ty.wbData) && rgProto rg != 7 then s.updMem fun x => x.wrBlock a b
    else s

/-- Whether a message concerns a region and still has something to bring about. -/
def concerns (rg : BitVec 256) (m : Msg) : Bool := inRegion rg m.addr && !(m.dst < 0x800 && (m.type = Ty.result || m.type = Ty.fail))

/-- The bytes that a cluster's L2 holds written go home when they belong to a region (R164, R214). -/
def flushRegion (s : State) (rg : BitVec 256) : State :=
  s.clusters.foldl (fun s (x : Nat × Cluster) =>
    (x.2.l2dirty.filter fun (l : Nat × L2Line) => inRegion rg (l.1 * 64)).foldl (fun s (l : Nat × L2Line) =>
      (s.updMem fun m => m.wrMask (l.1 * 64) l.2.data l.2.written).updCluster x.1 fun q => { q with l2dirty := drop l.1 q.l2dirty }) s) s

/-- The lines of host memory that the device holds exclusive in a region, with whether their holders' data come back: the copies that cores
hold writable or have put back, and grants on their way (R399). -/
def exclusiveLines (s : State) (rg : BitVec 256) : List (Nat × Bool) :=
  let back := s.cores.flatMap (fun (q : Nat × Core) => (q.2.lines.filter fun (l : Nat × Line) => l.2.tag == some .writable).map fun l => l.1 * 64) ++
    (s.net.filter fun m => m.flit.isSome && (m.type = Ty.putx || m.type = Ty.wbData)).map fun m => m.addr / 64 * 64
  let out := (s.net.filter fun m => m.type = Ty.dataX || m.type = Ty.ack).map fun m => m.addr / 64 * 64
  ((back.eraseDups.map (·, true)) ++ ((out.filter fun a => !back.contains a).eraseDups.map (·, false))).filter fun x =>
    inRegion rg x.1 && hostLine x.1 && deOv (s.entry (entryAddr rg x.1))

/-- Step 2 of R214: what is on its way to the homes reaches memory, and then, being newer, the bytes of the clusters' L2 and the lines of the
region that leave every cluster; the host hears of the lines that were exclusive (R399). -/
def recallLines (s0 : State) (rg : BitVec 256) : State :=
  let s := flushRegion ((s0.net.filter (concerns rg)).foldl (landed rg) s0) rg
  let blks := (s.cores.flatMap fun (q : Nat × Core) => (q.2.lines.filter fun (l : Nat × Line) => inRegion rg (l.1 * 64)).map fun l => (q.1, l.1, l.2))
  let s1 := blks.foldl (fun s (x : Nat × Nat × Line) =>
    let (c, blk, l) := x
    let s1 := match l.tag with
      | some .writable =>
        if rgProto rg = 6 then landed rg s (mkMsg s c 0 0 Ty.putp 0 (blk * 64) l.written 0 0 (some l.data) none)
        else if rgProto rg = 2 || rgProto rg = 4 then s.updMem fun m => m.wrMask (blk * 64) l.data l.written
        else s.updMem fun m => m.wrBlock (blk * 64) l.data
      | none => s.updMem fun m => m.wrMask (blk * 64) l.data l.written
      | _ => s
    setLine s1 c blk none) s
  let mine := s1.hostOps.filterMap fun o => match o with | .mine a _ => if inRegion rg a then some a else none | _ => none
  mine.foldl (fun s a => releaseHost s false a) ((exclusiveLines s0 rg).foldl (fun s x => evictHost s x.1 x.2) s1)

/-- Steps 3 and 4 of R214: what was on its way is over, the entry is invalid, and every request of the region that waits or is on its
way is answered with RETRY, back-off 0. -/
def endRegion (s : State) (idx : Nat) (rg : BitVec 256) : State :=
  let mine := concerns rg
  let inDir (a : Nat) : Bool := rgDir rg ≤ a && a < rgDir rg + dirBytes rg
  let procs := s.procs.map fun (x : Nat × Proc) => (x.1, { x.2 with
    waiters := x.2.waiters.filter fun m => !mine m, sealers := x.2.sealers.filter fun m => !mine m,
    readers := x.2.readers.filter fun m => !mine m, rsvs := x.2.rsvs.filter fun r => !inRegion rg r.page,
    copies := x.2.copies.filter fun y => !inRegion rg y.1, replicas := x.2.replicas.filter fun (r : Nat × Nat) => !inRegion rg r.1,
    copying := x.2.copying.filter (fun g => !inRegion rg g), freeing := x.2.freeing.filter (fun y => !inRegion rg y.1),
    pend := x.2.pend.filter (fun (y : Nat × Msg) => !inDir y.1), frees := x.2.frees.filter (fun (y : Nat × Nat) => !inDir y.1),
    since := x.2.since.filter (fun (y : Nat × Nat) => !inDir y.1) })
  let cores := s.cores.map fun (x : Nat × Core) => (x.1, { x.2 with
    puts := x.2.puts.filter fun blk => !inRegion rg (blk * 64), held := x.2.held.filter fun m => !mine m })
  let s2 := { s with
    net := s.net.filter fun m => !mine m, procs := procs, cores := cores,
    mcasts := s.mcasts.filter fun (x : Nat × Mcast) => !inRegion rg x.2.addr,
    frames := s.frames.filter fun (x : Nat × Frame) => !inRegion rg x.1,
    regions := put idx (BitVec.ofNat 256 (rg.toNat - 2 ^ 128)) s.regions }
  (s2.cores.flatMap fun (q : Nat × Core) => q.2.reqs.filterMap fun (r : Nat × Req) =>
      if inRegion rg r.2.msg.addr && !(s2.net.any fun m => !concerns rg m && m.dst = q.1 && m.tag = r.1 && m.blk = r.2.msg.blk) then some r.2.msg
      else none).foldl (fun s m =>
    s.post (mkMsg s (procAgent (homeIn rg m.addr)) 0 m.src Ty.retry m.tag m.addr 0 0 0 none none)) s2

/-- REGION.UNBIND (R214), as one step once no handler of the region runs (log 14). -/
def execRegionUnbind (c : Cmd) (idx : Nat) (s : State) : Out :=
  let rg := s.region idx
  if rgValid rg && regionBusy s idx rg then .next s else
  command c 0x05 [] [] true false s fun s =>
    if 256 ≤ idx then cmdDone s c 1
    else if !rgValid rg then cmdDone s c 4
    else cmdDone (endRegion (recallLines s rg) idx rg) c 0

/-! ## Messages and page replies (R346, R414, R418) -/

/-- DELIVER (R418): the status, and the state after it. -/
def deliver (s : State) (c : Cmd) (m : Nat) (v : Word) (msg : BitVec 448) : Nat × State :=
  if v = 0 then (1, s) else
  if mailboxOwner s m != some (cmdPart c) then (2, s) else
  match (s.mailbox m).assign with
  | none => (2, s)
  | some a =>
    let count := homeWord s a.ring
    let taken := homeWord s (a.ring + 8)
    if (count - taken).toNat = 2 ^ a.k then (3, s) else
    let s1 := matinsWrite s (a.ring + 64 + 64 * (count.toNat % 2 ^ a.k)) (leBytes 64 (msg.toNat * 2 ^ 64))
    let s2 := matinsWrite s1 a.ring (leBytes 8 (count + 1).toNat)
    (0, notify s2 m v)

/-- The pieces of global space that a packet at this target accesses. -/
def packetPieces (p : Packet) : List (Word × Nat) :=
  let a := p.words.getD 0 0
  let n := (p.words.getD 1 0).toNat
  match p.kind with
  | 1 | 2 | 7 => pieces a n
  | 3 => pieces a (atomWidth n)
  | 6 => pieces (a + BitVec.ofNat 64 p.off) (packetBytes p).length
  | 16 | 17 => [(a, 1)]
  | _ => []

/-- Whether a walk of a partition's context misses at a requested page. -/
def missesAt (s : State) (g : PartCfg) (r : PageReq) (va : Word) : Bool :=
  match walk s.mem g va with
  | .ok _ => false
  | .error f => f.dm && f.addr / 4096 * 4096 = r.page && f.stage2 = r.stage2

/-- Accesses of other devices that wait for a refused page fail (R386). -/
def failAtTarget (s : State) (p : Nat) (g : PartCfg) (r : PageReq) : State :=
  (s.atTarget.filter fun x => x.part = p && (packetPieces x).any fun y => missesAt s g r y.1).foldl (fun s x =>
    answerOp (setReasm (leaveTarget s x) x none) x (failOf s x 1 false)) s

/-- A launch ends without having been seeded, or at its partition's stop: its leases end, and its status goes to the host (R417,
R419). -/
def failLaunch (s : State) (p : Nat) (l : Launch) (status : Nat) : State :=
  ((endLeases s p l.leases).updPart p fun x => { x with launches := x.launches.erase l }).hostEvent (some p) 0x81 status l.tag.toNat []

/-- Launches whose residency step waits for a refused page end with status 3 (R417). -/
def failResidency (s : State) (p : Nat) (g : PartCfg) (r : PageReq) : State :=
  ((s.part p).launches.filter fun l => l.stage == .residency && l.ranges.any fun (x : Word × Word) =>
      (List.range ((x.2.toNat + 4095) / 4096 - x.1.toNat / 4096)).any fun i => missesAt s g r (BitVec.ofNat 64 ((x.1.toNat / 4096 + i) * 4096))).foldl
    (fun s l => failLaunch s p l 3) s

/-- PAGE.REPLY (R346): every access that waits on the tag walks again, or faults when the page is refused. -/
def pageReply (s : State) (p : Nat) (w : Word) : State :=
  let tag := bits w 15 0
  match (s.part p).pageReqs.find? fun r => r.tag = tag with
  | none => s
  | some r =>
    let s1 := s.updPart p fun x => { x with pageReqs := x.pageReqs.erase r }
    let waits : List (Nat × Word × Cause) := (partCores s1 p).flatMap fun c =>
      if s1.partOf c != some p then [] else
      ((List.range 16).map (threadOf c)).filterMap fun t =>
        match (s1.slot t).run with
        | .waiting (.page n va cause) => if n = tag then some (t, va, cause) else none
        | _ => none
    if bitOf w 16 then
      let s2 := waits.foldl (fun s (x : Nat × Word × Cause) => faultWaiting s x.1 x.2.2 x.2.1) s1
      match (s2.part p).cfg with
      | some g => failResidency (failAtTarget s2 p g r) p g r
      | none => s2
    else waits.foldl (fun s (x : Nat × Word × Cause) => s.wake x.1) s1

/-- An entry of a packet is performed and answered (R413). -/
def performEntry (s : State) (e : PacketEntry) : State :=
  match e with
  | .malformed c => cmdDone s c 1
  | .deliver c m v msg => let (st, s1) := deliver s c m v msg; cmdDone s1 c st
  | .reply c w => if w.toNat / 2 ^ 17 != 0 then cmdDone s c 1 else cmdDone (pageReply s (cmdPart c) w) c 0

/-- The memory that a DELIVER accesses (R418): the header of the ring and the next entry. -/
def PacketEntry.accesses (s : State) : PacketEntry → List (Nat × Nat × Bool)
  | .deliver c m v _ =>
    if v = 0 || mailboxOwner s m != some (cmdPart c) then [] else
    match (s.mailbox m).assign with
    | none => []
    | some a => [(a.ring, 16, true), (a.ring + 64 + 64 * ((homeWord s a.ring).toNat % 2 ^ a.k), 64, true)]
  | _ => []

/-- An entry that may stand in a packet of several: a chained one waits for the rest of its packet, which is performed whole (R415). -/
def packetStep (s : State) (c : Cmd) (e : PacketEntry) : State :=
  let x := s.mailbox (cmdBox c)
  if x.bad != 0 || (c.chain && x.packet.length = 3) then rejectPacket s c
  else if c.chain then s.updMailbox (cmdBox c) fun x => { x with packet := x.packet ++ [e] }
  else
    let l := x.packet ++ [e]
    match matinsGate s (l.flatMap (PacketEntry.accesses s)) with
    | some s1 => s1
    | none => l.foldl performEntry (consume s c l.length)

/-- A DELIVER or PAGE.REPLY entry, which the physical function may not send (R412, R415). -/
def packetCommand (c : Cmd) (ty : Nat) (ops : List Word) (e : PacketEntry) (s : State) : Out :=
  if !cmdReady s c ty ops then .next s else
  if c.fn.isNone && !(s.mailbox (cmdBox c)).midPacket then .next (cmdDone (consume s c 1) c 2)
  else .next (packetStep s c e)

/-- DELIVER (R418). -/
def execDeliver (c : Cmd) (m : Nat) (v : Word) (msg : BitVec 448) (s : State) : Out := packetCommand c 0x0B [] (.deliver c m v msg) s

/-- PAGE.REPLY (R346, R414). -/
def execPageReply (c : Cmd) (w : Word) (s : State) : Out := packetCommand c 0x0E [w] (.reply c w) s

/-- Matins reads an entry that is no command: it is rejected with status 1, and so is the packet around it unless that may hold its type
(R412, R415). -/
def rejectEntry (s : State) (m : Nat) : State :=
  let x := s.mailbox m
  let w := entryWord s m x.packet.length 0
  let c := boxCmd m w
  if !bar0Open s || nextBox s != some m || !malformedEntry s m x.packet.length then s
  else if inPackets (bits w 7 0) then packetStep s c (.malformed c)
  else if x.midPacket || c.chain then rejectPacket s c
  else cmdDone (consume s c 1) c 1

end Sys2Proof.Machine
end

