-- ==== Sys2Proof/Machine/Context.lean ====
section
/-! DEFINITION. A core's context as the bytes of a partition image (spec/16 R356, spec/18 R421): the fields that R356 names, in its order; the
places within a slot's context and within the parts of several fields are the model's (log 53). -/

namespace Sys2Proof.Machine

/-- The bytes of words. -/
def wordsImage (l : List Word) : List Byte := l.flatMap fun x => leBytes 8 x.toNat

/-- Bytes brought to a length with zeros. -/
def padTo (n : Nat) (l : List Byte) : List Byte := l ++ List.replicate (n - l.length) 0

/-- A word of an image. -/
def imgWord (l : List Byte) (i : Nat) : Word := BitVec.ofNat 64 (imgNat l (8 * i) 8)

/-! ## Slots -/

/-- The state of a halted slot in an image, by number: idle, active, HALTED, DEAD. -/
def Run.code : Run → Nat
  | .idle => 0 | .active | .waiting _ => 1 | .halted => 2 | .dead => 3

/-- The run state of a number. -/
def runOf (n : Nat) : Run := match n with | 0 => .idle | 1 => .active | 2 => .halted | _ => .dead

/-- A mode by number. -/
def Mode.code : Mode → Nat
  | .u => 0 | .s => 1 | .h => 2

/-- The mode of a number. -/
def modeOf (n : Nat) : Mode := if n = 1 then .s else .u

/-- A reply tag in an image: its state and its value (R382). No operation of an exported partition is pending (R421). -/
def RTag.code : RTag → Nat × Word
  | .free | .pending _ _ => (0, 0) | .ready v a => (if a then 3 else 2, v) | .failed v => (4, v)

/-- The reply tag of a state and a value. -/
def rtagOf (n : Nat) (v : Word) : RTag := match n with | 2 => .ready v false | 3 => .ready v true | 4 => .failed v | _ => .free

/-- A slot's barrier bits and phases (R151): two bits for each barrier. -/
def Slot.arrivals (x : Slot) : Nat :=
  (List.range 8).foldl (fun n i => n + (match x.arrived.toList.getD i none with | none => 0 | some p => 1 + 2 * bit p) * 4 ^ i) 0

/-- The words of a slot's context behind its registers: pc; mode, run state, fp.mode, fp.flags, cnt.ovf, tr.status, tr.cause, the
fire-and-forget count and the barrier bits; sr.state; tr.pc, tr.val, tr.scratch; the engine-fault descriptor; the reply tags; the parked
special-function result; and a pending PREEMPT. -/
def slotTail (x : Slot) (q : List SfuOp) (slot : Nat) : List Word :=
  let st := x.mode.code + x.run.code * 2 ^ 2 + x.fpMode.toNat * 2 ^ 5 + x.fpFlags.toNat * 2 ^ 9 + bit x.cntOvf * 2 ^ 14 + x.trStatus.toNat * 2 ^ 15 +
    x.trCause.toNat * 2 ^ 18 + x.ff % 2 ^ 8 * 2 ^ 32 + x.arrivals * 2 ^ 48
  let tags := x.tags.toList.map RTag.code
  let parked : List Word := match q.find? fun e => e.slot = slot && e.parked with
    | none => List.replicate 10 0
    | some e =>
      [BitVec.ofNat 64 (1 + e.fn % 2 ^ 8 * 2 + e.ty.code * 2 ^ 9 + e.d.val * 2 ^ 13 + e.rm.toNat * 2 ^ 18), e.mask] ++
        (List.range 8).map fun i => e.a.extractLsb' (64 * i) 64
  let pend : Word := match x.pend.findSome? fun p => match p with | .preempt r => some r | _ => none with
    | some r => BitVec.ofNat 64 (1 + r.toNat * 2)
    | none => 0
  [x.pc, BitVec.ofNat 64 st, x.srState.setWidth 64, x.trPc, x.trVal, x.trScratch] ++ x.efd.toList ++ tags.map (·.2) ++
    [BitVec.ofNat 64 ((List.range 8).foldl (fun n i => n + (tags.getD i (0, 0)).1 * 16 ^ i) 0)] ++ parked ++ [pend]

/-- A slot's context: s1 to s31, v0 to v31 and the rest, in 0xA00 bytes. -/
def slotImage (x : Slot) (q : List SfuOp) (slot : Nat) : List Byte :=
  padTo 0xA00 (wordsImage (x.s.toList.drop 1) ++ (x.v.toList.flatMap fun b => leBytes 64 b.toNat) ++ wordsImage (slotTail x q slot))

/-- A slot from its context: the fields that stand there, over those of another slot. -/
def slotOfImage (x : Slot) (l : List Byte) : Slot :=
  let t := l.drop (31 * 8 + 32 * 64)
  let w (i : Nat) : Word := imgWord t i
  let st := (w 1).toNat
  { x with
    s := Vector.ofFn fun i => if i = 0 then 0 else imgWord l (i.val - 1),
    v := Vector.ofFn fun i => BitVec.ofNat 512 (imgNat l (31 * 8 + 64 * i.val) 64),
    pc := w 0, mode := modeOf (st % 4), run := runOf (st / 2 ^ 2 % 8), fpMode := BitVec.ofNat 4 (st / 2 ^ 5), fpFlags := BitVec.ofNat 5 (st / 2 ^ 9),
    cntOvf := st.testBit 14, trStatus := BitVec.ofNat 3 (st / 2 ^ 15), trCause := BitVec.ofNat 9 (st / 2 ^ 18), ff := st / 2 ^ 32 % 2 ^ 8,
    arrived := Vector.ofFn fun i => if st.testBit (48 + 2 * i.val) then some (st.testBit (49 + 2 * i.val)) else none,
    srState := (w 2).setWidth 32, trPc := w 3, trVal := w 4, trScratch := w 5, efd := #v[w 6, w 7, w 8, w 9],
    tags := Vector.ofFn fun i => rtagOf ((w 18).toNat / 16 ^ i.val % 16) (w (10 + i.val)),
    pend := (if (w 29).getLsbD 0 && x.pend.all (fun p => match p with | .preempt _ => false | _ => true) then
      [.preempt ((w 29 >>> 1).setWidth 8)] else []) ++ x.pend }

/-- A slot's parked special-function result from its context (R323). -/
def parkedOfImage (l : List Byte) (slot : Nat) : List SfuOp :=
  let t := l.drop (31 * 8 + 32 * 64)
  let w (i : Nat) : Word := imgWord t i
  let st := (w 19).toNat
  if st % 2 = 0 then [] else
    [{ fn := st / 2 % 2 ^ 8, ty := ElType.ofCode (st / 2 ^ 9), slot := slot, d := Fin.ofNat 32 (st / 2 ^ 13), mask := w 20,
       a := BitVec.ofNat 512 (imgNat t (8 * 21) 64), rm := BitVec.ofNat 3 (st / 2 ^ 18), parked := true }]

/-! ## Cores -/

/-- A channel's state (R304): its registers, its status word, the point of a CP.STOP, and the rest. -/
def chanImage (x : Chan) : List Byte :=
  wordsImage [x.src, x.dst, x.len, x.wp, x.rsv.getD (BitVec.allOnes 64),
    BitVec.ofNat 64 (x.st.code * 2 ^ 61 + bit x.ap * 2 ^ 60 + x.slot % 16 * 2 ^ 56 + x.cause.toNat * 2 ^ 48), x.stopAt,
    BitVec.ofNat 64 (bit (x.st == .stopping) + bit x.rsv.isSome * 2 + x.mode.code * 4)]

/-- A channel from its state. -/
def chanOfImage (l : List Byte) : Chan :=
  let w (i : Nat) : Word := imgWord l i
  let st : ChanState := match bits (w 5) 63 61 with
    | 1 => if (w 7).getLsbD 0 then .stopping else .running
    | 2 => .done | 3 => .stopped | 4 => .faulted | 5 => .refused | _ => .idle
  { src := w 0, dst := w 1, len := w 2, wp := w 3, rsv := if (w 7).getLsbD 1 then some (w 4) else none, st := st, ap := bitOf (w 5) 60,
    slot := bits (w 5) 59 56, cause := BitVec.ofNat 8 (bits (w 5) 55 48), stopAt := w 6, mode := modeOf (bits (w 7) 3 2) }

/-- The distributor's pattern register and burst (R316, R318). -/
def burstImage (q : Core) : List Byte :=
  let x := q.burst
  let st := match x.st with | .running => 1 | .done => 2 | .faulted => 3 | _ => 0
  wordsImage [q.distPat, x.src, x.len, x.join, x.pat, x.addr,
    BitVec.ofNat 64 (st * 2 ^ 61 + x.slot % 16 * 2 ^ 56 + x.cause.toNat * 2 ^ 48 + x.mode.code * 2 ^ 46 + x.part % 2 ^ 14 * 2 ^ 32), BitVec.ofNat 64 x.blocks]

/-- A burst from its state. -/
def burstOfImage (l : List Byte) : Burst :=
  let w (i : Nat) : Word := imgWord l i
  let st : ChanState := match bits (w 6) 63 61 with | 1 => .running | 2 => .done | 3 => .faulted | _ => .idle
  { st := st, src := w 1, len := w 2, join := w 3, pat := w 4, addr := w 5, slot := bits (w 6) 59 56, cause := BitVec.ofNat 8 (bits (w 6) 55 48),
    mode := modeOf (bits (w 6) 47 46), part := bits (w 6) 45 32, blocks := (w 7).toNat }

/-- The queues: sixteen messages of the injection queue, none of which an export finds there, and sixteen of the receive queue; word 0 of a
place that holds none is all ones. -/
def queueImage (q : Core) : List Byte :=
  let places (l : List (Vector Word 8)) : List Byte :=
    (List.range 16).flatMap fun i => match l[i]? with
      | some m => wordsImage m.toList
      | none => wordsImage (BitVec.allOnes 64 :: List.replicate 7 0)
  places (q.injq.map (·.w)) ++ places (q.rcvq.map (·.w))

/-- The receive queue of an image: messages that any slot may take (log 53). -/
def rcvqOfImage (l : List Byte) : List RcvEntry :=
  (List.range 16).filterMap fun i =>
    let m := (l.drop (0x400 + 64 * i)).take 64
    if imgWord m 0 = BitVec.allOnes 64 then none else some { slot := none, w := Vector.ofFn fun j => imgWord m j.val }

/-- The bytes of a core's context (R356). -/
def ctxImage (x : CoreCtx) : List Byte :=
  let q := x.core
  ((List.range 16).flatMap fun i => slotImage (x.slots.getD i {}) q.sfuq i) ++ q.statusBlock ++ (q.acc.toList.flatMap Tile.image) ++
    (q.td.toList.flatMap fun x => leBytes 64 x.toNat) ++ queueImage q ++ (q.cp.toList.flatMap chanImage) ++ burstImage q ++
    wordsImage (q.bars.toList.map fun (b : Barrier) => b.reg) ++
    padTo 0x80 (wordsImage [q.trVector.setWidth 64 <<< 2, BitVec.ofNat 64 q.lsSplit.val, q.coreFatal.setWidth 64]) ++
    padTo 0x80 (q.stash.flatMap fun m => wordsImage [BitVec.ofNat 64 m.g, BitVec.ofNat 64 (m.n % 2 ^ 32 + m.k * 2 ^ 32)]) ++ List.replicate 0x400 0

/-- A core's context from its bytes: the fields that stand there, over those of another context. -/
def ctxOfImage (x : CoreCtx) (l : List Byte) : CoreCtx :=
  let q := x.core
  let part (o n : Nat) : List Byte := (l.drop o).take n
  let q1 := match statusOf (part 0xA000 0x100) with
    | some y => { (q.setBank false y.1).setBank true y.2.1 with resume := y.2.2 }
    | none => q
  let q2 := match tileOf (part 0xA100 0x2040) with | some t => q1.setTile 0 t | none => q1
  let q3 := match tileOf (part 0xC140 0x2040) with | some t => q2.setTile 1 t | none => q2
  let slots := (List.range 16).map fun i => slotOfImage (x.slots.getD i {}) (part (0xA00 * i) 0xA00)
  let own := (List.range 16).flatMap fun i => parkedOfImage (part (0xA00 * i) 0xA00) i
  let regs := part 0xFB00 0x80
  let maps := part 0xFB80 0x80
  { slots := slots,
    core := { q3 with
      td := Vector.ofFn fun i => BitVec.ofNat 512 (imgNat l (0xE180 + 64 * i.val) 64),
      rcvq := if q.rcvq.isEmpty then rcvqOfImage (part 0xF180 0x800) else q.rcvq,
      cp := Vector.ofFn fun i => { chanOfImage (part (0xF980 + 0x40 * i.val) 0x40) with buf := (q.cp.toList.getD i.val {}).buf },
      distPat := imgWord (part 0xFA80 0x40) 0,
      burst := { burstOfImage (part 0xFA80 0x40) with launch := q.burst.launch, buf := q.burst.buf },
      bars := Vector.ofFn fun i => { q3.bars[i] with reg := BitVec.ofNat 64 (imgNat l (0xFAC0 + 8 * i.val) 8) },
      trVector := (imgWord regs 0 >>> 2).setWidth 62, lsSplit := Fin.ofNat 16 (imgWord regs 1).toNat, coreFatal := (imgWord regs 2).setWidth 21,
      sfuq := if q.sfuq.isEmpty then own else q.sfuq,
      stash := (List.range 8).filterMap fun i =>
        let n := (imgWord maps (2 * i + 1)).toNat
        if n % 2 ^ 32 = 0 then none else some { g := (imgWord maps (2 * i)).toNat, n := n % 2 ^ 32, k := n / 2 ^ 32 } } }

end Sys2Proof.Machine
end

