-- ==== Sys2Proof/Machine/Lifecycle.lean ====
section
/-! DEFINITION. The life of a partition (spec/18 R416 to R421): its configuration, start and stop, its launches, its image, and the
last stage of a swap (spec/16 R356). -/

namespace Sys2Proof.Machine

/-! ## The configuration (R353, R416) -/

/-- A ring field of a configuration: bits [51:6] and [3:0] (R416). -/
def ringField (w : Word) : Bool := bits w 5 4 = 0 && bits w 63 52 = 0

/-- The fields of a configuration's 128 bytes; a page-request mailbox at address 0 is none. -/
def parseCfg (l : List Byte) : PartCfg :=
  let pageReqs : Word := BitVec.ofNat 64 (imgNat l 120 8)
  { leased := (imgNat l 1 1).testBit 0, notify := (imgNat l 1 1).testBit 1, slice := imgNat l 4 4, cores := BitVec.ofNat 128 (imgNat l 8 16),
    root1 := imgNat l 24 8, root2 := imgNat l 32 8 / 2 * 2, stage2 := (imgNat l 32 8).testBit 0, privBase := BitVec.ofNat 64 (imgNat l 40 8),
    logS := imgNat l 48 1, ws := imgNat l 49 1, backing := imgNat l 56 8, ctxBase := imgNat l 64 8, vector := BitVec.ofNat 64 (imgNat l 72 8),
    pools := (List.range 4).map fun i => (imgNat l (80 + 8 * i) 8 % 2 ^ 40 * 4096, imgNat l (80 + 8 * i) 8 / 2 ^ 40),
    events := BitVec.ofNat 64 (imgNat l 112 8), pageReqs := if bits pageReqs 51 6 = 0 then 0 else pageReqs }

/-- Whether bytes that must be zero are not, or a field is outside its range (R412, R416). -/
def cfgMalformed (l : List Byte) (p : Nat) : Bool :=
  imgNat l 0 1 != p || 3 < imgNat l 1 1 || imgNat l 2 2 != 0 || imgNat l 50 6 != 0 || imgNat l 4 4 < 100000 || imgNat l 8 16 = 0 ||
  imgNat l 48 1 < 12 || 30 < imgNat l 48 1 || 7 < imgNat l 49 1 ||
  !ringField (BitVec.ofNat 64 (imgNat l 112 8)) || !ringField (BitVec.ofNat 64 (imgNat l 120 8))

/-- The partitions whose core sets overlap a configuration's (R353). -/
def overlaps (s : State) (p : Nat) (g : PartCfg) : List (Nat × PartCfg) :=
  s.parts.filterMap fun (x : Nat × Part) => match x.2.cfg with
    | some d => if x.1 != p && (d.cores &&& g.cores) != 0 then some (x.1, d) else none
    | none => none

/-- Whether every 4 KiB page of an area is mapped, so that it can be resident with locked translations (R133, R351, R416). -/
def resident (s : State) (g : PartCfg) (base n : Nat) : Bool :=
  (List.range ((n + 4095) / 4096)).all fun i => match walk s.mem g (BitVec.ofNat 64 (base + i * 4096)) with | .ok _ => true | .error _ => false

/-- Whether a die's replica pool is none that R256 allows: at most 48 GB (R8), and wholly in the die's HBM4 (R166). -/
def poolRefused (die : Nat) (x : Nat × Nat) : Bool :=
  x.2 != 0 && (48000000000 < x.2 * 4096 || place x.1 != .hbm die || !backed x.1 (x.2 * 4096))

/-- Whether a configuration breaks a rule (R166, R256, R353, R416). -/
def cfgRefused (s : State) (p : Nat) (g : PartCfg) : Bool :=
  let others := overlaps s p g
  let n := (coreSet g).length
  (s.part p).running || others.any (fun (x : Nat × PartCfg) => x.2.cores != g.cores || 4 < x.2.ws) || 1 < others.length ||
  (!others.isEmpty && 4 < g.ws) || g.privBase.toNat % 2 ^ g.logS != 0 || g.ctxBase = 0 || g.ctxBase % 8192 != 0 || g.backing % 4096 != 0 ||
  (List.range 4).any (fun d => poolRefused d (g.pools.getD d (0, 0))) ||
  (g.backing != 0 && !resident s g g.backing (n * 0x40000)) || !resident s g g.ctxBase (n * 0x2000)

/-- An initial context: every slot idle (R356). -/
def initialCtx : CoreCtx := { slots := List.replicate 16 {}, core := {} }

/-- The bytes of half a weight buffer, at offsets from 0 (R353). -/
def wbHalf (m : Memory) (high : Bool) : Memory :=
  m.filterMap fun (x : Host.Cell) => if (0x8000 ≤ x.1) == high then some (if high then x.1 - 0x8000 else x.1, x.2) else none

/-- A whole weight buffer from its halves. -/
def wbWhole (lo hi : Memory) : Memory := (lo.filter fun (x : Host.Cell) => x.1 < 0x8000) ++ (hi.filter fun (x : Host.Cell) => x.1 < 0x8000).map fun (x : Host.Cell) => (x.1 + 0x8000, x.2)

/-- A partition that is no longer configured on a cluster leaves it; a partner whose context stands in the shadow store comes into the
cores, and sees the whole of each store again (R353). -/
def vacate (s : State) (p k : Nat) : State :=
  let join (s : State) (mine : List Memory) (lowMine : Bool) : State :=
    ((coresOf k).zip mine).foldl (fun s (x : Nat × Memory) =>
      s.updCore x.1 fun q => { q with wb := if lowMine then wbWhole x.2 q.wb else wbWhole q.wb x.2 }) s
  match (s.cluster k).shadow with
  | some (q, l) =>
    if q = p then
      let s1 := join s (l.map fun (x : CoreCtx) => x.core.wb) (match (s.cluster k).part with | some h => p < h | none => true)
      s1.updCluster k fun x => { x with shadow := none }
    else if inPlaceAt s p k then
      let mine := (coresOf k).map fun c => (s.core c).wb
      let s1 := ((coresOf k).zip l).foldl (fun s (x : Nat × CoreCtx) => putCtx s x.1 x.2) s
      (join s1 mine (p < q)).updCluster k fun x => { x with part := some q, shadow := none }
    else s
  | none => if inPlaceAt s p k then s.updCluster k fun x => { x with part := none } else s

/-- A configured partition gets its place on a cluster: in the cores when no partition is there, else in the shadow store beside its
partner, with whom it divides the weight buffer (R353, R356). -/
def occupy (s : State) (p k : Nat) : State :=
  match (s.cluster k).part with
  | none =>
    let s1 := (coresOf k).foldl (fun s c => putCtx s c { initialCtx with core := { wb := (s.core c).wb } }) s
    s1.updCluster k fun x => { x with part := some p }
  | some q =>
    let high := q < p
    let ctxs := (coresOf k).map fun c => { initialCtx with core := { wb := wbHalf (s.core c).wb high } }
    let s1 := (coresOf k).foldl (fun s c => s.updCore c fun x => { x with wb := wbHalf x.wb (!high) }) s
    s1.updCluster k fun x => { x with shadow := some (p, ctxs) }

/-- The physical addresses of the 4 KiB pages of a resident area, as they are while Matins locks them (R351, R416). -/
def pageAddrs (s : State) (g : PartCfg) (base n : Nat) : List Nat :=
  (List.range ((n + 4095) / 4096)).filterMap fun i => match walk s.mem g (BitVec.ofNat 64 (base + i * 4096)) with
    | .ok x => some x.pa
    | .error _ => none

/-- Every context buffer of a partition starts without an entry: its tag words and the zero bytes behind them are written with zero (R351,
log 62). -/
def clearTags (s : State) (p : Nat) (g : PartCfg) : State :=
  (List.range (coreSet g).length).foldl (fun s i => match (s.part p).ctxPages[2 * i]? with
    | some pa => matinsWrite s pa (List.replicate 0x400 0)
    | none => s) s

/-- PART.CFG (R416). The rings that it names are written from their first entry on (log 26). -/
def execPartCfg (c : Cmd) (pa : Nat) (s : State) : Out :=
  let p := cmdPart c
  command c 0x01 [] [(pa, 128, false)] true false s fun s =>
    let l := homeBytes s pa 128
    let g := parseCfg l
    if cfgMalformed l p then cmdDone s c 1
    else if cfgRefused s p g then cmdDone s c 4
    else
      let s1 := (partClusters s p).foldl (fun s k => vacate s p k) s
      let s2 := s1.updPart p fun x =>
        { x with cfg := some g, launches := [], closing := [], exported := false, swapTo := none, job := Config.job p s.time,
                 ctxPages := pageAddrs s g g.ctxBase ((coreSet g).length * 0x2000) }
      let s3 := clearTags { s2 with ringPos := put (100 + p) 0 (put p 0 s2.ringPos) } p g
      cmdDone ((clusterSet g).foldl (fun s k => occupy s p k) s3) c 0

/-! ## Start (R419) -/

/-- The base and the units of a partition's part of the local store (R353). -/
def halfOf (s : State) (p : Nat) : Nat × Nat :=
  match s.partner p with
  | none => (0, 12)
  | some q => if p < q then (0, 6) else (6, 6)

/-- The write of ls.split that a start makes in a core of a partition: the units that change are zeroed (R18, R419). -/
def startSplit (s : State) (p c : Nat) : State :=
  let (b, u) := halfOf s p
  let v : Fin 16 := if u = 6 then 4 else 8
  let old := Nat.min (coreOfPart s p c).lsSplit.val u
  let lo := Nat.min old v.val
  let s1 := s.updCore c fun q => { q with ls := q.ls.clear ((b + lo) * 0x4000) ((Nat.max old v.val - lo) * 0x4000) }
  updCoreOf s1 p c fun q => { q with lsSplit := v, stash := [] }

/-- A partition is in Matins' scheduling again: its budget is charged where it holds its cores, and its pair is reviewed (R361,
R419). -/
def scheduled (s : State) (p : Nat) : State :=
  let s1 := s.updPart p fun x => { x with running := true, diverged := false, inPlace := false, exported := false }
  serveMailboxes (rebalance (if holdsCores s1 p then beginHold s1 p else s1) p 2)

/-- PART.START (R419). -/
def execPartStart (c : Cmd) (s : State) : Out :=
  let p := cmdPart c
  command c 0x02 [] [] true false s fun s =>
    match (s.part p).cfg with
    | none => cmdDone s c 4
    | some g =>
      if (s.part p).running || (s.part p).exported then cmdDone s c 4 else
      let s1 := (coreSet g).foldl (fun s k =>
        let s1 := startSplit s p k
        let s2 := updCoreOf s1 p k fun q =>
          { q with coreFatal := 0, trVector := BitVec.ofNat 62 (g.vector.toNat / 4), lastSteal := none, searching := true }
        updSlotsOf s2 p k fun x => match x.run with
          | .halted | .dead => { x with run := .idle, mode := .u, record := none, fresh := none, vprog := none }
          | _ => x) s
      cmdDone (scheduled s1 p) c 0

/-! ## Stop and export (R419, R421) -/

/-- A slot after PART.STOP: idle, with nothing under way (R419; log 52). -/
def Slot.stopped (x : Slot) : Slot :=
  { x with run := .idle, mode := .u, record := none, pend := [], remErr := [], ff := 0, tags := Vector.replicate 8 .free, fresh := none,
           vprog := none, lv := none, tlbis := [], tsync := [], redo := none, parked := none, unmaps := [], paired := false, due := false }

/-- What a stop leaves of a core: no record, no message, no lease, and engines that do nothing (R419; log 52). -/
def Core.stopped (q : Core) : Core :=
  { q with
    deque := [], backing := [], spillPath := [], injq := [], rcvq := [], rwaiters := [], spills := [], sfuq := [],
    leaseBase := Vector.replicate 8 0, leaseLim := Vector.replicate 8 0,
    cp := q.cp.map fun (x : Chan) => if x.running then { x with st := .stopped, buf := [] } else x,
    burst := if q.burst.st == .running then { q.burst with st := .idle } else q.burst }

/-- Unfinished launches of a partition end with status 5, in their order (R419). -/
def endLaunches (s : State) (p : Nat) : State := (s.part p).launches.foldl (fun s l => failLaunch s p l 5) s

/-- The partition's slots are idle, and nothing of it is left to run (R419). -/
def stopPart (s : State) (p : Nat) : State :=
  let s1 := (partCores s p).foldl (fun s c => updSlotsOf (updCoreOf s p c Core.stopped) p c Slot.stopped) s
  let s2 := (partClusters s p).foldl (fun s k => if inPlaceAt s p k then s.updCluster k fun x => { x with swap := .none } else s) s1
  let s3 := { s2 with
    remOps := s2.remOps.map fun (o : RemOp) => if o.mine == some p then { o with thread := none } else o,
    transit := s2.transit.filter fun x => !((partCores s p).contains x.thief && inPlaceAt s2 p (clusterOf x.thief)),
    shares := s2.shares.filter fun x => x.part != p,
    barMsgs := s2.barMsgs.filter fun x => x.part != some p }
  endLaunches (s3.updPart p fun x => { x with running := false, inPlace := false, diverged := false, ending := none, swapTo := none, closing := [] }) p

/-- Bytes of a partition image (R421). -/
def imageBytes (g : PartCfg) : Nat := 64 + (coreSet g).length * 0x50000 + (clusterSet g).length * 0x200000

/-- The header of a partition image (R421). -/
def imageHeader (s : State) (p : Nat) (g : PartCfg) : List Byte :=
  let flags := match s.partner p with | none => 0 | some q => if p < q then 1 else 3
  leBytes 4 0x6D696770 ++ leBytes 2 1 ++ leBytes 1 p ++ leBytes 1 flags ++ leBytes 16 g.cores.toNat ++ leBytes 1 g.ws ++ leBytes 39 0

/-- A core's part of a partition image: its context, its local store and its weight buffer (R356, R421). -/
def coreImage (s : State) (p c : Nat) : List Byte :=
  let (b, u) := halfOf s p
  ctxImage { slots := slotsOfPart s p c, core := coreOfPart s p c } ++
    (s.core c).ls.bytes (b * 0x4000) (u * 0x4000) ++ List.replicate (0x30000 - u * 0x4000) 0 ++ (coreOfPart s p c).wb.bytes 0 0x10000

/-- A cluster's part of a partition image: its window (R421). -/
def windowImage (s : State) (p k : Nat) (g : PartCfg) : List Byte :=
  let b := if (halfOf s p).1 = 0 then 0 else 4 * 0x40000
  (s.cluster k).cmem.bytes b (g.ws * 0x40000) ++ List.replicate (0x200000 - g.ws * 0x40000) 0

/-- What an export takes out of the device besides the contexts: the partition's part of each local store, its weight buffer and its windows
(R421, step 5). -/
def clearPart (s : State) (p : Nat) (g : PartCfg) : State :=
  let (b, u) := halfOf s p
  let s1 := (coreSet g).foldl (fun s c =>
    let s1 := s.updCore c fun q => { q with ls := q.ls.clear (b * 0x4000) (u * 0x4000), icache := if inPlaceAt s p (clusterOf c) then [] else q.icache }
    updCoreOf (updSlotsOf s1 p c fun _ => {}) p c fun q => { ls := q.ls, icache := q.icache, stamp := q.stamp, trace := q.trace }) s
  (clusterSet g).foldl (fun s k => s.updCluster k fun x => { x with cmem := x.cmem.clear (if b = 0 then 0 else 4 * 0x40000) (g.ws * 0x40000) }) s1

/-- Write a partition image, and keep beside it what its bytes have no place for (R421, log 53). -/
def writeImage (s : State) (p area : Nat) (g : PartCfg) : State :=
  let s1 := matinsWrite s area (imageHeader s p g)
  let ctxs : List CoreCtx := (coreSet g).map fun c => { slots := slotsOfPart s p c, core := coreOfPart s p c }
  let s2 := ((List.range (coreSet g).length).zip (coreSet g)).foldl (fun s (x : Nat × Nat) =>
    matinsWrite s (area + 64 + x.1 * 0x50000) (coreImage s p x.2)) s1
  let top := area + 64 + (coreSet g).length * 0x50000
  let s3 := ((List.range (clusterSet g).length).zip (clusterSet g)).foldl (fun s (x : Nat × Nat) =>
    matinsWrite s (top + x.1 * 0x200000) (windowImage s p x.2 g)) s2
  { s3 with images := { area := area, ctxs := ctxs } :: s3.images.filter fun i => i.area != area }

/-- Whether the partition's remote operations, messages and bulk transfers have been answered, and no reassembly entry holds bytes for
it (R421, step 3). -/
def remotesAnswered (s : State) (p : Nat) : Bool :=
  !(s.remOps.any fun o => o.mine == some p) && !(s.procs.any fun (x : Nat × Proc) => x.2.reasm.any fun r => r.part = p && r.count != 0)

/-- The last steps of a PART.STOP or a PART.EXPORT, once every cluster that held the partition has been flushed (R419, R421). -/
def finishEnding (s : State) (p : Nat) : State :=
  match (s.part p).ending, (s.part p).cfg with
  | some e, some g =>
    let flushed := (clusterSet g).all fun k => !inPlaceAt s p k || (match (s.cluster k).swap with | .flushed _ _ _ => true | _ => false)
    if !flushed then s else
    match e.area with
    | none => rebalance (cmdDone (stopPart s p) e.cmd 0) p 2
    | some a =>
      if !remotesAnswered s p then s else
      match matinsGate s [(a.1, imageBytes g, true)] with
      | some s1 => s1
      | none =>
      let s1 := stopPart (writeImage s p a.1 g) p
      rebalance (cmdDone ((clearPart s1 p g).updPart p fun x => { x with exported := true }) e.cmd 0) p 2
  | _, _ => s

/-- A stop or an export begins: the partition is halted on the clusters that hold it (R419, R421). -/
def beginEnding (s : State) (p : Nat) (e : Ending) : State :=
  let s1 := (stopCharge s p).updPart p fun x => { x with ending := some e, swapTo := none }
  let s2 := match s1.partner p with
    | some q => s1.updPart q fun x => { x with swapTo := none }
    | none => s1
  let s3 := (partClusters s2 p).foldl (fun s k => if inPlaceAt s p k then haltCluster s k p none 0 else s) s2
  finishEnding s3 p

/-- Whether a cluster of a partition is in a swap. -/
def swapping (s : State) (p : Nat) : Bool := (partClusters s p).any fun k => (s.cluster k).swap != .none

/-- PART.STOP (R419). -/
def execPartStop (c : Cmd) (s : State) : Out :=
  let p := cmdPart c
  if swapping s p then .next s else
  command c 0x03 [] [] true false s fun s =>
    if (s.part p).cfg.isNone then cmdDone s c 4 else beginEnding s p { cmd := c, area := none }

/-- PART.EXPORT (R421). -/
def execPartExport (c : Cmd) (area size : Nat) (s : State) : Out :=
  let p := cmdPart c
  if swapping s p then .next s else
  command c 0x14 [] [] true false s fun s =>
    match (s.part p).cfg with
    | none => cmdDone s c 4
    | some g =>
      let x := s.part p
      if area % 4096 != 0 || !backedOrHost area size then cmdDone s c 1
      else if x.exported || x.contract.isSome || x.mode != .off || !x.closing.isEmpty || x.launches.any (fun l => !l.leases.isEmpty) then cmdDone s c 4
      else if size < imageBytes g then cmdDone s c 3
      else beginEnding s p { cmd := c, area := some (area, size) }

/-! ## Import (R421) -/

/-- What stands beside the bytes of an image that this device wrote: the parts of the contexts that no byte of the image holds (log 53). -/
def besideImage (s : State) (area i : Nat) : CoreCtx :=
  match s.images.find? fun x => x.area = area with
  | some img => img.ctxs.getD i initialCtx
  | none => initialCtx

/-- The status of PART.IMPORT (R421). -/
def importStatus (s : State) (p area : Nat) : Nat :=
  if area % 4096 != 0 || !backedOrHost area 64 then 1 else
  let h := homeBytes s area 64
  if imgNat h 0 4 != 0x6D696770 || imgNat h 4 2 != 1 || 3 < imgNat h 7 1 || imgNat h 25 39 != 0 then 1 else
  match (s.part p).cfg with
  | none => 4
  | some g =>
    if g.cores.toNat != imgNat h 8 16 || g.ws != imgNat h 24 1 || (s.part p).running then 4 else
    let badCore := fun i =>
      let a := area + 64 + i * 0x50000
      let td := homeBytes s (a + 0xE180) 0x1000
      (List.range 64).any (fun j => fmtBad (imgNat td (64 * j + 56) 1)) ||
        ((halfOf s p).2 = 6 && ((homeBytes s (a + 0x10000 + 0x18000) 0x18000).any (· != 0) || (homeBytes s (a + 0x40000 + 0x8000) 0x8000).any (· != 0)))
    if (List.range (coreSet g).length).any badCore then 4 else 0

/-- A core's context, local store and weight buffer come from an image (R421). -/
def importCore (s : State) (p area i c : Nat) : State :=
  let a := area + 64 + i * 0x50000
  let (b, u) := halfOf s p
  let x := ctxOfImage (besideImage s area i) (homeBytes s a 0x10000)
  let y := { x with core := { x.core with wb := Memory.wrBytes [] 0 (homeBytes s (a + 0x40000) 0x10000) } }
  let s1 := s.updCore c fun k => { k with ls := k.ls.wrBytes (b * 0x4000) (homeBytes s (a + 0x10000) (u * 0x4000)) }
  if inPlaceAt s1 p (clusterOf c) then putCtx s1 c y
  else
    let k := clusterOf c
    s1.updCluster k fun z => { z with shadow := some (p, (shadowCtxs s1 p k).modify ((coresOf k).idxOf c) fun _ => y) }

/-- The memory that PART.IMPORT reads (R421). -/
def importReads (s : State) (p area : Nat) : List (Nat × Nat × Bool) :=
  [(area, match (s.part p).cfg with | some g => imageBytes g | none => 64, false)]

/-- PART.IMPORT (R421): the partition resumes as after a swap. -/
def execPartImport (c : Cmd) (area : Nat) (s : State) : Out :=
  let p := cmdPart c
  command c 0x15 [] (importReads s (cmdPart c) area) true false s fun s =>
    let st := importStatus s p area
    if st != 0 then cmdDone s c st else
    match (s.part p).cfg with
    | none => cmdDone s c 4
    | some g =>
      let s1 := ((List.range (coreSet g).length).zip (coreSet g)).foldl (fun s (x : Nat × Nat) => importCore s p area x.1 x.2) s
      let top := area + 64 + (coreSet g).length * 0x50000
      let b := if (halfOf s p).1 = 0 then 0 else 4 * 0x40000
      let s2 := ((List.range (clusterSet g).length).zip (clusterSet g)).foldl (fun s (x : Nat × Nat) =>
        s.updCluster x.2 fun k => { k with cmem := k.cmem.wrBytes b (homeBytes s (top + x.1 * 0x200000) (g.ws * 0x40000)) }) s1
      let s3 := scheduled s2 p
      let s4 := (clusterSet g).foldl (fun s k => if inPlaceAt s p k then restored s p k else s) s3
      cmdDone s4 c 0

/-! ## The exchange (R354, R356) -/

/-- SWAP_EXCHANGE (R354, R356): on a cluster that has been flushed the contexts change places, and the incoming partition runs; for
a stop or an export, its last steps are tried. Once the incoming partition holds every cluster, Matins reviews the pair (R361). -/
def execSwapExchange (cl : Nat) (s : State) : Out :=
  match (s.cluster cl).swap with
  | .flushed out (some inc) _ => .next (rebalance (restored (exchange (copyRings s) cl out inc) inc cl) inc 2)
  | .flushed out none _ => .next (finishEnding s out)
  | .none => .next (match (s.cluster cl).shadow with | some (p, _) => finishEnding s p | none => s)
  | .halted _ _ _ => .next s

/-! ## Launches (R417) -/

/-- What a page of a launch's ranges needs. -/
inductive PageNeed | none | fails | asks (f : WalkFail)

/-- The first page of a launch's ranges that is not resident (R417). -/
def firstNeed (s : State) (g : PartCfg) (ranges : List (Word × Word)) : PageNeed :=
  let pages := ranges.flatMap fun (x : Word × Word) =>
    (List.range ((x.2.toNat + 4095) / 4096 - x.1.toNat / 4096)).map fun i => BitVec.ofNat 64 ((x.1.toNat / 4096 + i) * 4096)
  (pages.findSome? fun va =>
    if !canonical va then some PageNeed.fails else
    match walk s.mem g va with
    | .ok _ => Option.none
    | .error f => some (if f.dm && !f.malformed && g.pageReqs != 0 then PageNeed.asks f else PageNeed.fails)).getD .none

/-- Bytes of a partition's global space, read by Matins; `none` when a walk fails (R417, log 54). -/
def readGlobal (s : State) (g : PartCfg) (va : Word) (n : Nat) : Option (List Byte) :=
  (pieces va n).foldl (fun (r : Option (List Byte)) (x : Word × Nat) => r.bind fun l =>
    match walk s.mem g x.1 with
    | .ok t => some (l ++ homeBytes s t.pa x.2)
    | .error _ => Option.none) (some [])

/-- The memory that holds a launch's records (R411, R417). -/
def launchReads (s : State) (g : PartCfg) (l : List (Word × Bool)) : List (Nat × Nat × Bool) :=
  l.flatMap fun x => (pieces x.1 (if x.2 then 64 else 32)).filterMap fun y => match walk s.mem g y.1 with
    | .ok t => some (t.pa, y.2, false)
    | .error _ => none

/-- A launch's record from its bytes, the second half of a 64-byte one giving its range (R130, R417). -/
def launchRec (l : List Byte) (tag : BitVec 16) : Rec :=
  let w (i : Nat) : Word := BitVec.ofNat 64 (imgNat l (8 * i) 8)
  { code := w 0, frame := w 1, arg := w 2, join := w 3, range := if l.length = 64 then some (w 4, w 5, w 6) else .none, seed := some tag, launch := some tag }

/-- Replace a launch of a partition. -/
def setLaunch (s : State) (p : Nat) (l m : Launch) : State :=
  s.updPart p fun x => { x with launches := x.launches.map fun y => if y = l then m else y }

/-- Write a launch's ranges into lease registers of every core of the partition, the limit rounded up to a page (R16, R417). -/
def grantLeases (s : State) (p : Nat) (ns : List Nat) (ranges : List (Word × Word)) : State :=
  (partCores s p).foldl (fun s c => updCoreOf s p c fun q =>
    (ns.zip ranges).foldl (fun (q : Core) (x : Nat × Word × Word) =>
      if h : x.1 < 8 then { q with
        leaseBase := q.leaseBase.set x.1 (BitVec.ofNat 64 (bits x.2.1 56 12 * 4096 + 1)),
        leaseLim := q.leaseLim.set x.1 (BitVec.ofNat 64 (bits (x.2.2 + 4095) 56 12 * 4096)) } else q) q) s

/-- A launch goes on through residency, leases and admission until its records can be seeded (R417). -/
def advanceLaunch (s : State) (p : Nat) (l : Launch) : State :=
  match (s.part p).cfg with
  | none => s
  | some g =>
    let seedIt (s : State) (l1 : Launch) : State :=
      if (s.part p).contract.isSome && !g.leased then failLaunch s p l1 4 else
      match l1.addrs.mapM fun (x : Word × Bool) => readGlobal s g x.1 (if x.2 then 64 else 32) with
      | none => failLaunch s p l1 3
      | some recs => setLaunch s p l1 { l1 with stage := .seeding, recs := recs.map fun b => launchRec b l1.tag }
    let leaseIt (s : State) (l0 : Launch) : State :=
      match matinsGate s (launchReads s g l0.addrs) with
      | some s1 => setLaunch s1 p l0 { l0 with stage := .leases }
      | none =>
      let used := (s.part p).launches.flatMap (fun m => m.leases) ++ (s.part p).closing.flatMap (·.2)
      let free := (List.range 8).filter fun i => !used.contains i
      if free.length < l0.ranges.length then setLaunch s p l0 { l0 with stage := .leases }
      else
        let ns := free.take l0.ranges.length
        let l1 := { l0 with stage := .leases, leases := ns }
        seedIt (setLaunch (grantLeases s p ns l0.ranges) p l0 l1) l1
    match l.stage with
    | .residency =>
      if !g.leased then leaseIt s l else
      (match firstNeed s g l.ranges with
      | .none => leaseIt s l
      | .fails => failLaunch s p l 3
      | .asks f => (pageRequest s p f .load 0x7FF 0).2)
    | .leases => leaseIt s l
    | .seeding => s

/-- LAUNCH (R417). -/
def execLaunch (c : Cmd) (recs : List (Word × Bool)) (ranges : List (Word × Word)) (quota : Nat) (s : State) : Out :=
  let p := cmdPart c
  command c 0x0A [] [] false true s fun s =>
    if recs.isEmpty || 65536 < recs.length || 8 < ranges.length || quota < 1 || 64 < quota then cmdDone s c 1
    else if (s.part p).cfg.isNone then cmdDone s c 4
    else
      let l : Launch := { tag := c.tag, addrs := recs, quota := quota, ranges := ranges }
      advanceLaunch (s.updPart p fun x => { x with launches := x.launches ++ [l] }) p l

/-- Records of a launch that a core of the partition has queued (R417). -/
def queuedOf (s : State) (p c : Nat) (tag : BitVec 16) : Nat :=
  let q := coreOfPart s p c
  ((q.deque ++ q.backing ++ q.spillPath.map (·.2)).filter fun r => r.seed = some tag).length

/-- A record is pushed to the bottom of a core's deque by Matins, where the partition's context stands (R417). -/
def seedRec (s : State) (p c : Nat) (r : Rec) : State :=
  if inPlaceAt s p (clusterOf c) then dealTo s c noThread r
  else updCoreOf s p c fun q => { q with deque := q.deque ++ [{ r with first := c }] }

/-- The core that the next record of a launch goes to (R417): in the first round each core of the set gets its quota, in ascending order; then
the first core whose count is below the quota. -/
def seedCore (s : State) (p : Nat) (l : Launch) : Option Nat :=
  let cs := partCores s p
  if l.dealt < l.quota * cs.length then cs[l.dealt / l.quota]? else cs.find? fun c => queuedOf s p c l.tag < l.quota

/-- The next record of a launch is pushed (R417). -/
def seedNext (s : State) (p : Nat) : State :=
  let x := s.part p
  if !x.running || swapping s p then s else
  let ready := x.launches.findSome? fun l => match l.recs with
    | r :: rest => (seedCore s p l).map fun c => (l, r, rest, c)
    | [] => none
  match ready with
  | none => s
  | some (l, r, rest, c) => rebalance (seedRec (setLaunch s p l { l with recs := rest, dealt := l.dealt + 1 }) p c r) p 2

/-- LAUNCH_SEED (R344, R417): the leases of launches whose records have all ended are ended, a launch that waited goes on, or the next
record of a launch is pushed. -/
def execLaunchSeed (part : Nat) (s0 : State) : Out :=
  let s := closeLaunches s0 part
  let early := (s.part part).launches.filter fun l => l.stage != .seeding
  if early.isEmpty then .next (seedNext s part) else
  let s1 := early.foldl (fun s l => advanceLaunch s part l) s
  .next (if s1 != s then s1 else seedNext s part)

end Sys2Proof.Machine
end

