-- ==== Sys2Proof/Machine/Sha256.lean ====
section
/-! DEFINITION. SHA-256 as FIPS 180-4 gives it: the hash of an image that the boot ROM and Matins use (spec/20 R428, R430 to R432). -/

namespace Sys2Proof.Machine

/-- The eight working words of the hash. -/
structure Sha where
  a : BitVec 32
  b : BitVec 32
  c : BitVec 32
  d : BitVec 32
  e : BitVec 32
  f : BitVec 32
  g : BitVec 32
  h : BitVec 32
deriving DecidableEq, Repr

/-- The initial hash value. -/
def shaInit : Sha :=
  ⟨0x6a09e667, 0xbb67ae85, 0x3c6ef372, 0xa54ff53a, 0x510e527f, 0x9b05688c, 0x1f83d9ab, 0x5be0cd19⟩

/-- The constants of rounds 0 to 31. -/
def shaKLow : List (BitVec 32) :=
  [0x428a2f98, 0x71374491, 0xb5c0fbcf, 0xe9b5dba5, 0x3956c25b, 0x59f111f1, 0x923f82a4, 0xab1c5ed5,
   0xd807aa98, 0x12835b01, 0x243185be, 0x550c7dc3, 0x72be5d74, 0x80deb1fe, 0x9bdc06a7, 0xc19bf174,
   0xe49b69c1, 0xefbe4786, 0x0fc19dc6, 0x240ca1cc, 0x2de92c6f, 0x4a7484aa, 0x5cb0a9dc, 0x76f988da,
   0x983e5152, 0xa831c66d, 0xb00327c8, 0xbf597fc7, 0xc6e00bf3, 0xd5a79147, 0x06ca6351, 0x14292967]

/-- The constants of rounds 32 to 63. -/
def shaKHigh : List (BitVec 32) :=
  [0x27b70a85, 0x2e1b2138, 0x4d2c6dfc, 0x53380d13, 0x650a7354, 0x766a0abb, 0x81c2c92e, 0x92722c85,
   0xa2bfe8a1, 0xa81a664b, 0xc24b8b70, 0xc76c51a3, 0xd192e819, 0xd6990624, 0xf40e3585, 0x106aa070,
   0x19a4c116, 0x1e376c08, 0x2748774c, 0x34b0bcb5, 0x391c0cb3, 0x4ed8aa4a, 0x5b9cca4f, 0x682e6ff3,
   0x748f82ee, 0x78a5636f, 0x84c87814, 0x8cc70208, 0x90befffa, 0xa4506ceb, 0xbef9a3f7, 0xc67178f2]

/-- A word of the schedule from the words before it, the newest first. -/
def shaNext (l : List (BitVec 32)) : BitVec 32 :=
  let (x, y) := (l.getD 1 0, l.getD 14 0)
  (x.rotateRight 17 ^^^ x.rotateRight 19 ^^^ x >>> 10) + l.getD 6 0 + (y.rotateRight 7 ^^^ y.rotateRight 18 ^^^ y >>> 3) + l.getD 15 0

/-- The message schedule: 64 words from the 16 of a block. -/
def shaSchedule (w : List (BitVec 32)) : List (BitVec 32) := ((List.range 48).foldl (fun l _ => shaNext l :: l) w.reverse).reverse

/-- One round with its constant and its word of the schedule. -/
def Sha.round (s : Sha) (k w : BitVec 32) : Sha :=
  let t1 := s.h + (s.e.rotateRight 6 ^^^ s.e.rotateRight 11 ^^^ s.e.rotateRight 25) + ((s.e &&& s.f) ^^^ (~~~s.e &&& s.g)) + k + w
  let t2 := (s.a.rotateRight 2 ^^^ s.a.rotateRight 13 ^^^ s.a.rotateRight 22) + ((s.a &&& s.b) ^^^ (s.a &&& s.c) ^^^ (s.b &&& s.c))
  ⟨t1 + t2, s.a, s.b, s.c, s.d + t1, s.e, s.f, s.g⟩

/-- The hash after a block of 16 words. -/
def Sha.block (s : Sha) (w : List (BitVec 32)) : Sha :=
  let r := ((shaKLow ++ shaKHigh).zip (shaSchedule w)).foldl (fun (r : Sha) x => r.round x.1 x.2) s
  ⟨s.a + r.a, s.b + r.b, s.c + r.c, s.d + r.d, s.e + r.e, s.f + r.f, s.g + r.g, s.h + r.h⟩

/-- Bytes with the padding: a one bit, zeros, and the length in bits as eight bytes, most significant first. -/
def shaPad (l : List Byte) : List Byte :=
  l ++ 0x80 :: List.replicate ((119 - l.length % 64) % 64) 0 ++ (leBytes 8 (8 * l.length)).reverse

/-- The i-th word of padded bytes, most significant byte first. -/
def shaWord (l : List Byte) (i : Nat) : BitVec 32 := BitVec.ofNat 32 (leNat ((l.drop (4 * i)).take 4).reverse)

/-- SHA-256 of bytes, as the 32 bytes of its result in order: the first is the least significant byte of the value. -/
def sha256 (l : List Byte) : BitVec 256 :=
  let p := shaPad l
  let s := (List.range (p.length / 64)).foldl (fun s i => s.block ((List.range 16).map fun j => shaWord p (16 * i + j))) shaInit
  BitVec.ofNat 256 (leNat ([s.a, s.b, s.c, s.d, s.e, s.f, s.g, s.h].flatMap fun w => (leBytes 4 w.toNat).reverse))

end Sys2Proof.Machine
end

