-- ==== Sys2Proof/Machine/Boot.lean ====
section
/-! DEFINITION. Start-up, firmware, background work, power and telemetry (spec/20 R428 to R437; spec/18 R410), and the host's answers on
CXL.io (R401). -/

namespace Sys2Proof.Machine

/-! ## Starts (R428 to R431) -/

/-- The signature at the end of a signed image holds over SHA-256 of the bytes before it (R430, R431, R245). -/
def signed (l : List Byte) : Bool :=
  Config.verify (sha256 (l.take (l.length - 384))) (BitVec.ofNat 3072 (leNat (l.drop (l.length - 384))))

/-- The patch entries of an image: each the number of a control-store word and its replacement (R430). -/
def patchList (l : List Byte) : List (Nat × BitVec 32) :=
  (List.range (imgNat l 8 4)).map fun i => (imgNat l (64 + 8 * i) 2, BitVec.ofNat 32 (imgNat l (68 + 8 * i) 4))

/-- Whether bytes are laid out as a Matins patch image (R430). -/
def patchForm (l : List Byte) : Bool :=
  let w := imgNat l 8 4
  w ≤ 4096 && l.length = 64 + 8 * w + 384 && imgNat l 0 4 = 0x6D617470 && imgNat l 4 2 ≤ 64 && imgNat l 6 2 ≤ 1 && imgNat l 12 52 = 0 &&
    (List.range w).all fun i => imgNat l (64 + 8 * i) 2 < 4096 && imgNat l (66 + 8 * i) 2 = 0

/-- The image check (R431): the failure code, or 0. Bytes that are no image of R430 fail like a bad signature (log 89). -/
def imageFail (b : Boot) (l : List Byte) : Nat := if !patchForm l || !signed l then 1 else if imgNat l 4 2 < b.fc then 2 else 0

/-- The check of the Essiosh Gargiber image: the layout of R245 with its flag set, its entries of protocols 0 to 15, and the signature (R246,
R428, R431). -/
def gargCheck (l : List Byte) : Bool :=
  let (protos, off, code, n) := (imgNat l 8 8, imgNat l 16 4, imgNat l 20 4, imgNat l 24 4)
  l.length = 64 + code + 8 * n + 384 && imgNat l 0 4 = 0x67726267 && imgNat l 4 2 = 1 && imgNat l 6 2 = 1 && imgNat l 28 36 = 0 &&
    code % 4 = 0 && off % 4 = 0 && protos < 2 ^ 16 &&
    (imgEntries l code n).all (fun e => protos.testBit e.proto && e.zero = 0 && e.type ≤ 31 && e.lim ≤ 15) && signed l

/-- The patch RAM after an image's entries, a later one for a word replacing an earlier (R431). -/
def patchRam (l : List (Nat × BitVec 32)) : List (Nat × BitVec 32) := l.foldl (fun t x => put x.1 x.2 t) []

/-- What a start finds first wrong after the image check, in the order of its steps (R428). -/
def trainingFail (img : BootImage) (gargChecked : Bool) : Nat :=
  if !img.hbmOk then 3 else if !img.ddrOk then 4 else if gargChecked && !gargCheck img.garg then 1 else 0

/-- Whether a start keeps the memory at an address, with its poison (R428, R434). -/
def keepsPlace (pa : Nat) (warm : Bool) : Bool := match place pa with | .host => true | .ddr => warm | _ => false

/-- Physical memory that a start keeps: the host's, and in a warm start the DDR-5 tier's (R428). -/
def keptMemory (m : Memory) (warm : Bool) : Memory := m.filter fun (x : Host.Cell) => keepsPlace x.1 warm

/-- The machine at the start of steps 2 to 7: everything at reset, but for time, what stands outside the device, and what a warm start
or the fuses keep. -/
def restartState (s : State) (warm : Bool) (b : Boot) : State :=
  { State.reset with
    mem := keptMemory s.mem warm, poisoned := s.poisoned.filter (fun blk => keepsPlace (blk * 64) warm), hostOut := s.hostOut, inputs := s.inputs, free := s.free, sent := [],
    time := if warm then s.time else 0,
    clusters := if warm then s.clusters.map fun (x : Nat × Cluster) =>
      (x.1, { held := x.2.held, since := x.2.since, clock := x.2.clock : Cluster }) else [],
    boot := b }

/-- A start (R428): the image check, skipped in a warm start when the image's hash is the latched one; training; and the Gargiber
image, whose check a latched hash skips as well. A failure ends in recovery. -/
def start (s : State) (warm : Bool) (img : BootImage) : State :=
  let latched := warm && sha256 img.image = s.boot.matinsHash
  let gLatched := warm && sha256 img.garg = s.boot.gargHash
  let f1 := if latched then 0 else imageFail s.boot img.image
  let sv := imgNat img.image 4 2
  let fc := if f1 = 0 && !latched && (imgNat img.image 6 2).testBit 0 then Nat.max s.boot.fc sv else s.boot.fc
  let f := if f1 != 0 then f1 else trainingFail img (!gLatched)
  let b : Boot := { s.boot with
    st := if f = 0 then .ready else .recovery, fail := f, warm := warm, fc := fc, vesper := warm,
    matinsHash := if f1 = 0 then sha256 img.image else s.boot.matinsHash, gargHash := if f = 0 then sha256 img.garg else s.boot.gargHash,
    sv := sv, patches := if f1 = 0 then patchRam (patchList img.image) else [], failedPorts := img.failedPorts }
  let s1 := restartState s warm b
  { s1 with tele := { s1.tele with ports := img.failedPorts.setWidth 64 } }

/-- POWER_ON (R428): power-up begins a cold start. -/
def execPowerOn (img : BootImage) (s : State) : Out :=
  if s.boot.st == .off || s.boot.st == .starting then
    .next (start { s with boot := { fc := s.boot.fc } } false img)
  else .next s

/-- FUNDAMENTAL_RESET (R428). -/
def execFundamentalReset (img : BootImage) (s : State) : Out := if s.boot.st == .off then .next s else .next (start s false img)

/-- HOT_RESET (R428): a warm start, but for one that follows a failed check. -/
def execHotReset (img : BootImage) (s : State) : Out :=
  if s.boot.st == .off || s.boot.st == .starting then .next s else .next (start s (s.boot.fail = 0) img)

/-- The image at the recovery image address in host memory (R429): as many bytes as its own count of patch words says. -/
def recoveryImage (s : State) : List Byte :=
  let a := 2 ^ 51 + s.boot.recovery.toNat % 2 ^ 51
  s.mem.bytes a (64 + 8 * Nat.min 4096 (s.mem.le (a + 8) 4) + 384)

/-- BOOT_RESET (R429): writing 1 to bs.rst begins a cold start, in recovery with the image at the recovery image address. -/
def execBootReset (img : BootImage) (s : State) : Out :=
  if !bar2Open s then .next s
  else .next (start s false (if s.boot.st == .recovery then { img with image := recoveryImage s } else img))

/-! ## Power states (R410, R435) -/

/-- D3HOT_ENTRY (R435), by way of configuration space, which responds in recovery too (R429). -/
def execD3hotEntry (s : State) : Out := if s.boot.st == .ready || s.boot.st == .recovery then .next { s with boot := { s.boot with st := .d3hot } } else .next s

/-- POWER_OFF (R435). -/
def execPowerOff (s : State) : Out := .next { s with boot := { s.boot with st := .off } }

/-- Whether no engine of a core runs. -/
def enginesIdle (q : Core) : Bool :=
  q.tqueue.isEmpty && q.wbld.isNone && q.sfuq.isEmpty && q.burst.st != .running && !q.cp.toList.any Chan.running

/-- Whether a cluster is the anchor of a contract, which Matins keeps ungated (R359). -/
def contractAnchor (s : State) (k : Nat) : Bool :=
  s.parts.any fun (x : Nat × Part) => x.2.contract.isSome && anchorOf s x.1 = some k

/-- Whether a mailbox's action is due on a cluster, for which Vesper wakes it (R410). -/
def mailWanted (s : State) (k : Nat) : Bool :=
  s.mailboxes.any fun (x : Nat × Mailbox) => x.2.due && (match x.2.assign with
    | some a => clusterOf a.wakeCore = k || x.2.waiters.any fun t => clusterOf (agentOf t) = k
    | none => false)

/-- Whether something on a cluster calls for its clock: a ready slot, an interrupt that can be taken, queued work, or a mailbox whose
action is due there (R410, R435). -/
def wanted (s : State) (k : Nat) : Bool :=
  ((coresOf k).any fun c =>
    let q := s.core c
    !(s.slotsWhere c fun x => x.run == .active || (!x.pend.isEmpty && mayInterrupt x)).isEmpty || !q.deque.isEmpty || !q.backing.isEmpty ||
      !q.spillPath.isEmpty) || mailWanted s k

/-- Whether every slot of a core is idle or waiting (R410). -/
def restful (s : State) (c : Nat) : Bool := (s.slotsWhere c fun x => x.run == .active || x.run == .halted || x.run == .dead).isEmpty

/-- CLUSTER_CLOCK_GATE (R410): 4,000 cycles with every slot idle or waiting and no engine running. -/
def execClusterClockGate (cl : Nat) (s : State) : Out :=
  let k := s.cluster cl
  if k.clock != .running || k.swap != .none || contractAnchor s cl || wanted s cl || !((coresOf cl).all fun c => restful s c && enginesIdle (s.core c)) then .next s
  else
    let s1 := { s with time := s.time + 4000 }
    .next (s1.updCluster cl fun x => { x with clock := .clockGated, held := (s1.cluCycle cl).toNat })

/-- CLUSTER_POWER_GATE (R410): on host command, when every slot is idle and every deque is empty. -/
def execClusterPowerGate (cl : Nat) (s : State) : Out :=
  let k := s.cluster cl
  let busy := (coresOf cl).any fun c => !(s.slotsWhere c fun x => x.run != .idle).isEmpty || !enginesIdle (s.core c)
  if k.clock == .powerGated || k.swap != .none || contractAnchor s cl || wanted s cl || busy then .next s
  else .next (s.updCluster cl fun x => { x with clock := .powerGated, held := 0 })

/-- CLUSTER_WAKE (R410, R435): Vesper wakes a gated cluster; new work wakes it from clock gating only. -/
def execClusterWake (cl : Nat) (s : State) : Out :=
  let wakes := match (s.cluster cl).clock with
    | .running => false
    | .clockGated => wanted s cl
    | .powerGated => mailWanted s cl
  if wakes then .next (serveMailboxes (ungate s cl)) else .next s

/-! ## Attestation (R432) -/

/-- The first 128 bytes of a report. -/
def reportHead (s : State) : List Byte :=
  leBytes 4 0x61747374 ++ leBytes 2 1 ++ leBytes 2 s.boot.fc ++ leBytes 8 Config.serial.toNat ++
    (s.attest.nonce.toList.flatMap fun x => leBytes 8 x.toNat) ++ leBytes 32 s.boot.matinsHash.toNat ++ leBytes 32 s.boot.gargHash.toNat ++
    leBytes 16 0

/-- ATTEST_REQUEST (R432). -/
def execAttestRequest (s : State) : Out :=
  if !bar0Open s || !s.attest.request then .next s else
  let head := reportHead s
  let l := head ++ leBytes 384 (Config.sign (BitVec.ofNat 1024 (leNat head))).toNat
  let a := 2 ^ 51 + s.attest.report.toNat % 2 ^ 51 / 512 * 512
  .next { s with mem := s.mem.wrBytes a l, attest := { s.attest with request := false, done := true } }

/-! ## Background work (R433, R434) -/

/-- REFRESH (R433): it delays accesses and changes nothing else. -/
def execRefresh (_ctl : Nat) (s : State) : Out := .next s
/-- RECALIBRATION (R433): it delays accesses and changes nothing else. -/
def execRecalibration (_ctl : Nat) (s : State) : Out := .next s

/-- An uncorrectable error is counted, and its address kept (R434, R437). -/
def countError (s : State) (pa : Nat) : State :=
  { s with tele := { s.tele with uerr := Nat.min 0xFFFF (s.tele.uerr + 1), ulog := pa } }

/-- SCRUB (R434): a corrected error is counted; an uncorrectable one poisons its block, and one in a control store, a handler store or
register state stops the device. -/
def execScrub (pa : Nat) (err : EccError) (s : State) : Out :=
  match err with
  | .clean => .next s
  | .corrected => .next { s with tele := { s.tele with cerr := Nat.min 0xFFFF (s.tele.cerr + 1) } }
  | .uncorrectable =>
    let s1 := countError s pa
    .next (if poisonedBlk s (pa / 64) then s1 else { s1 with poisoned := s1.poisoned ++ [pa / 64] })
  | .control =>
    let s1 := countError s pa
    .next { s1 with halted := true, boot := { s1.boot with fail := 5 }, hostOut := s1.hostOut ++ [.internalError] }

/-! ## Temperature and telemetry (R436, R437) -/

/-- THROTTLE_RAISE (R436). -/
def execThrottleRaise (s : State) : Out := .next { s with tele := { s.tele with level := if s.tele.level = 3 then 3 else s.tele.level + 1 } }
/-- THROTTLE_LOWER (R436). -/
def execThrottleLower (s : State) : Out := .next { s with tele := { s.tele with level := if s.tele.level = 0 then 0 else s.tele.level - 1 } }
/-- THERMAL_SHUTDOWN (R436). -/
def execThermalShutdown (s : State) : Out :=
  if s.tele.level = 3 then .next { s with halted := true, hostOut := s.hostOut ++ [.internalError] } else .next s
/-- TELEMETRY_SAMPLE (R437). -/
def execTelemetrySample (t : Telemetry) (s : State) : Out := .next { s with tele := { s.tele with sample := some t, thr := s.tele.level } }

/-! ## The host's answers on CXL.io (R401) -/

/-- CXL_IO_COMPLETION (R401): a slot that waits for the host goes on, behind every write posted before. Slot 0 stands for its core, whose
lazy release sets hold posted writes: they are performed with it (R197, log 86). -/
def execCxlIoCompletion (t : Nat) (s : State) : Out :=
  match (s.slot t).run with
  | .waiting .host => .next { s.wake t with posted := 0 }
  | _ => if onCore t && slotOf t = 0 && drainsHost s (agentOf t) then .next { s with posted := 0 } else .next s

end Sys2Proof.Machine
end

