-- ==== Sys2Proof/Machine/Handlers.lean ====
section
/-! DEFINITION. Handler instructions (spec/09 R224 to R228, R235 to R242; spec/18 R407): they act on the invocation that runs in the
current slot of a protocol processor. -/

namespace Sys2Proof.Machine

/-- The base word of a handler instruction (R235). -/
def handlerBase (major d a b fn : Nat) : Nat :=
  ({ len := 0, major := Fin.ofNat 128 major, d := Fin.ofNat 32 d, a := Fin.ofNat 32 a, b := Fin.ofNat 32 b, fn := Fin.ofNat 256 fn,
     ext := 0, lit := 0 } : Raw).base

/-- A handler instruction decodes only on a protocol processor (R35, R235). -/
def inHandler (base : Nat) (s : State) (k : HCtx → Out) : Out :=
  if onCore s.cur then illegalOp base s else
  match s.me.handler with
  | some h => k h
  | none => illegalOp base s

/-- A forward of an invocation: the ninth, or one of a reply handler, aborts it (R226). -/
def forwarding (h : HCtx) (s : State) (k : State → Out) : Out :=
  if h.msg.lane || 8 ≤ h.forwards then trap .illegalOperand 0 s
  else k (s.updMe fun x => { x with handler := some { h with forwards := h.forwards + 1 } })

/-- The slot's block buffer (R217). -/
def blockBuffer (s : State) : Block := (s.proc s.myProc).dmem.block (0x7C00 + 64 * slotOf s.cur)

/-- The current block, s15 (R235). -/
def currentBlock (s : State) : Nat := (s.rd 15).toNat

/-- TAG.GNT (R236). -/
def execTagGnt (a b : Reg) (s : State) : Out :=
  inHandler (handlerBase 0x78 0 a b 0) s fun _ =>
    let g := (s.rd b).toNat % 4
    let req := (s.rd a).toNat
    if g = 3 then trap .illegalOperand (s.rd b) s
    else
      let s1 := if g = 2 then tracePort s s.myProc (currentBlock s) 1 (req % 2 ^ 12) (req / 2 ^ 12 % 16) true else s
      done 4 (replyReq s1 s1.myProc req (currentBlock s) Ty.ack (BitVec.ofNat 64 g) none)

/-- TAG.GNTD (R236). -/
def execTagGntd (a b : Reg) (s : State) : Out :=
  inHandler (handlerBase 0x78 0 a b 1) s fun _ =>
    let g := (s.rd b).toNat % 4
    let req := (s.rd a).toNat
    if g = 0 || g = 3 then trap .illegalOperand (s.rd b) s
    else
      let s1 := if g = 2 then tracePort s s.myProc (currentBlock s) 1 (req % 2 ^ 12) (req / 2 ^ 12 % 16) true else s
      done 4 (replyReq s1 s1.myProc req (currentBlock s) (if g = 1 then Ty.dataS else Ty.dataX) 0 (some (blockBuffer s)))

/-- TAG.RCL (R237). -/
def execTagRcl (a b : Reg) (s : State) : Out :=
  inHandler (handlerBase 0x78 0 a b 2) s fun h =>
    let keep := (s.rd b).toNat % 4
    let req := (s.rd a).toNat
    if keep = 3 || req / 2 ^ 24 % 2 ^ 10 != s.devNum then trap .illegalOperand (s.rd b) s
    else forwarding h s fun s =>
      done 4 (sendTo s { src := agentOf s.cur, dst := req % 2 ^ 12,
                         w := forwardWords s s.myProc Ty.recall (currentBlock s) (BitVec.ofNat 64 keep) } s.devNum)

/-- DIR.WR (R238). -/
def execDirWr (s : State) : Out :=
  inHandler (handlerBase 0x79 0 0 0 0) s fun h => done 4 (s.setEntry h.entryAddr (s.rd 12, s.rd 13))

/-- An edit of the entry held in s12 and s13 (R238). -/
def dirEdit (f : De → Nat → De) (a : Reg) (s : State) : Out :=
  let e := f (s.rd 12, s.rd 13) ((s.rd a).toNat % 2 ^ 12)
  done 4 ((s.wr 12 e.1).wr 13 e.2)

/-- DIR.SHADD (R238). -/
def execDirShadd (a : Reg) (s : State) : Out := inHandler (handlerBase 0x79 0 a 0 1) s fun _ => dirEdit deAdd a s
/-- DIR.SHDEL (R238). -/
def execDirShdel (a : Reg) (s : State) : Out := inHandler (handlerBase 0x79 0 a 0 2) s fun _ => dirEdit deDel a s

/-- Whether a message type carries a block (R215). -/
def carriesBlock (t : Nat) : Bool := t = 3 || t = 5 || t = 7 || t = 13 || t = 16 || t = 17 || t = 22

/-- Whether a message's lane bit is its type's (R215, R239). -/
def laneOk (w : Word) : Bool := 25 ≤ bits w 4 0 || (bitOf w 5 == replyLane (bits w 4 0))

/-- MSG.SEND (R239). -/
def execMsgSend (a b : Reg) (s : State) : Out :=
  inHandler (handlerBase 0x7A 0 a b 0) s fun h =>
    let w := regGroup s.me a
    let req := (s.rd b).toNat
    let m : Msg := { src := agentOf s.cur, dst := req % 2 ^ 12, w := w, flit := if carriesBlock (bits w[0] 4 0) then some (blockBuffer s) else none }
    if !laneOk w[0] then trap .illegalOperand w[0] s
    else if m.lane then done 4 (sendTo s m (req / 2 ^ 24 % 2 ^ 10))
    else forwarding h s fun s => done 4 (sendTo s m (req / 2 ^ 24 % 2 ^ 10))

/-- MSG.MCAST (R239). Answers combine for the types that holders answer. -/
def execMsgMcast (d a b : Reg) (s : State) : Out :=
  inHandler (handlerBase 0x7A d a b 1) s fun h =>
    let w := regGroup s.me a
    let t := bits w[0] 4 0
    let targets := deHolders (s.rd 12, s.rd 13) ((s.rd b).toNat % 2 ^ 12)
    if bitOf w[0] 5 || !((11 ≤ t && t ≤ 13) || 25 ≤ t) then trap .illegalOperand w[0] s
    else forwarding h s fun s =>
      let flit := if t = Ty.push then some (blockBuffer s) else none
      let s1 := if 25 ≤ t then targets.foldl (fun s g => s.post { src := agentOf s.cur, dst := g, w := w }) s
        else (multicast s s.myProc w flit targets).2
      result 4 d (BitVec.ofNat 64 targets.length) s1

/-- The checks of a block transfer: n bytes of data memory from b (R240). -/
def transferCheck (s : State) (a b : Word) (n : Nat) : Except Trap (Nat × Nat) :=
  if a.toNat % 64 != 0 then .error (.misalign, a)
  else if b.toNat % 64 != 0 then .error (.misalign, b)
  else if !backedOrHost a.toNat 64 then .error (.illegalOperand, a)
  else if 0x8000 < b.toNat + n then .error (.illegalOperand, b)
  else if poisonedBlk s (a.toNat / 64) then .error (.loadFault, a)
  else .ok (a.toNat, b.toNat)

/-- BT.RD (R240). -/
def execBtRd (a b : Reg) (s : State) : Out :=
  inHandler (handlerBase 0x7A 0 a b 4) s fun _ =>
    (Res.ofExcept (transferCheck s (s.rd a) (s.rd b) 64) s).finish fun x s =>
      doneFar 4 (some .access) (s.updProc s.myProc fun q => { q with dmem := q.dmem.wrBlock x.2 (s.mem.block x.1) })

/-- BT.WR (R240): a whole block replaces a poisoned one. -/
def execBtWr (a b : Reg) (s : State) : Out :=
  inHandler (handlerBase 0x7A 0 a b 5) s fun _ =>
    (Res.ofExcept (transferCheck { s with poisoned := [] } (s.rd a) (s.rd b) 64) s).finish fun x s =>
      doneFar 4 (some .access) (unpoison (s.updMem fun m => m.wrBlock x.1 ((s.proc s.myProc).dmem.block x.2)) (x.1 / 64))

/-- BT.MRG (R240): under rg.op in a region of protocol 6, replacement elsewhere, of each element whose mask bytes are all set. -/
def execBtMrg (a b : Reg) (s : State) : Out :=
  inHandler (handlerBase 0x7A 0 a b 6) s fun h =>
    (Res.ofExcept (transferCheck s (s.rd a) (s.rd b) 72) s).finish fun x s =>
      let m := (s.proc s.myProc).dmem
      let mask : BitVec 64 := m.word (x.2 + 64)
      let op := rgOp (s.region h.region)
      let f := if h.proto = 6 then redMerge op (s.mem.block x.1) (m.block x.2) mask
        else elemMerge (elemBytes op) (fun _ v => v) (s.mem.block x.1) (m.block x.2) mask
      doneFar 4 (some .access) (s.updMem fun y => y.wrBlock x.1 f)

/-- HEND (R232, R241): the put that triggered the invocation is acknowledged, and waiters are dispatched. -/
def execHend (s : State) : Out :=
  inHandler (handlerBase 0x7B 0 0 0 0) s fun h =>
    let p := s.myProc
    let m := h.msg
    let s1 := s.updMe fun x => { x with run := .idle, handler := none }
    let s2 := if m.type = Ty.putx || m.type = Ty.puts || m.type = Ty.putp then replyTo s1 p m Ty.ack 0 none else s1
    .next (settleHome (watch (wakeProc s2 p) p h.entryAddr (s2.region h.region)))

/-- HFAIL (R241): the requester fails; the region does not. -/
def execHfail (a b : Reg) (s : State) : Out :=
  inHandler (handlerBase 0x7B 0 a b 1) s fun _ =>
    done 4 (replyReq s s.myProc (s.rd a).toNat (currentBlock s) Ty.fail (BitVec.ofNat 64 ((s.rd b).toNat % 256)) none)

/-- An instruction of the host protocol processor (R242, R407). -/
def onHostProc (base : Nat) (s : State) (k : HCtx → Out) : Out :=
  inHandler base s fun h => if s.myProc = 72 then k h else illegalOp base s

/-- BIAS.RD (R242): a page outside the HDM window has no bias bit, and the value is open. -/
def execBiasRd (d a : Reg) (s : State) : Out :=
  onHostProc (handlerBase 0x7B d a 0 8) s fun _ =>
    let pa := (s.rd a).toNat
    if inWindow s pa then result 4 d (boolWord (hostBias s pa)) s
    else
      let (v, s1) := s.freeBool
      result 4 d (boolWord v) s1

/-- BIAS.WR (R242): the spec gives no effect outside the HDM window, and there it has none (log 37). -/
def execBiasWr (a b : Reg) (s : State) : Out :=
  onHostProc (handlerBase 0x7B 0 a b 9) s fun _ =>
    let pa := (s.rd a).toNat
    done 4 (if inWindow s pa then setBias s pa (bitOf (s.rd b) 0) else s)

/-- BI.SNP (R407). -/
def execBiSnp (b : Reg) (s : State) : Out :=
  onHostProc (handlerBase 0x7B 0 0 b 0x0A) s fun h =>
    let n := (s.rd b).toNat
    let pa := currentBlock s
    if n = 0 || 64 < n || pa % 4096 / 64 + n > 64 then trap .illegalOperand (s.rd b) s
    else forwarding h s fun s => done 4 (backInvalidate s pa n).2

end Sys2Proof.Machine
end

