-- ==== Sys2Proof/Machine/Dispatch.lean ====
section
/-! DEFINITION. One arm for each row of spec/opcode_table.json: the meaning of every instruction and of every step of the part. -/

namespace Sys2Proof.Machine

def exec (i : Instr) (s : State) : Host.Outcome State Fault Refusal :=
  match i with
  | .add d a b => Sys2Proof.Machine.execAdd d a b s
  | .addLit d a x => Sys2Proof.Machine.execAddLit d a x s
  | .sub d a b => Sys2Proof.Machine.execSub d a b s
  | .subLit d a x => Sys2Proof.Machine.execSubLit d a x s
  | .and d a b => Sys2Proof.Machine.execAnd d a b s
  | .andLit d a x => Sys2Proof.Machine.execAndLit d a x s
  | .or d a b => Sys2Proof.Machine.execOr d a b s
  | .orLit d a x => Sys2Proof.Machine.execOrLit d a x s
  | .xor d a b => Sys2Proof.Machine.execXor d a b s
  | .xorLit d a x => Sys2Proof.Machine.execXorLit d a x s
  | .andn d a b => Sys2Proof.Machine.execAndn d a b s
  | .andnLit d a x => Sys2Proof.Machine.execAndnLit d a x s
  | .sll d a b => Sys2Proof.Machine.execSll d a b s
  | .sllLit d a x => Sys2Proof.Machine.execSllLit d a x s
  | .srl d a b => Sys2Proof.Machine.execSrl d a b s
  | .srlLit d a x => Sys2Proof.Machine.execSrlLit d a x s
  | .sra d a b => Sys2Proof.Machine.execSra d a b s
  | .sraLit d a x => Sys2Proof.Machine.execSraLit d a x s
  | .ror d a b => Sys2Proof.Machine.execRor d a b s
  | .rorLit d a x => Sys2Proof.Machine.execRorLit d a x s
  | .slt d a b => Sys2Proof.Machine.execSlt d a b s
  | .sltLit d a x => Sys2Proof.Machine.execSltLit d a x s
  | .sltu d a b => Sys2Proof.Machine.execSltu d a b s
  | .sltuLit d a x => Sys2Proof.Machine.execSltuLit d a x s
  | .seq d a b => Sys2Proof.Machine.execSeq d a b s
  | .seqLit d a x => Sys2Proof.Machine.execSeqLit d a x s
  | .min d a b => Sys2Proof.Machine.execMin d a b s
  | .minLit d a x => Sys2Proof.Machine.execMinLit d a x s
  | .max d a b => Sys2Proof.Machine.execMax d a b s
  | .maxLit d a x => Sys2Proof.Machine.execMaxLit d a x s
  | .minu d a b => Sys2Proof.Machine.execMinu d a b s
  | .minuLit d a x => Sys2Proof.Machine.execMinuLit d a x s
  | .maxu d a b => Sys2Proof.Machine.execMaxu d a b s
  | .maxuLit d a x => Sys2Proof.Machine.execMaxuLit d a x s
  | .mul d a b => Sys2Proof.Machine.execMul d a b s
  | .mulLit d a x => Sys2Proof.Machine.execMulLit d a x s
  | .mulh d a b => Sys2Proof.Machine.execMulh d a b s
  | .mulhLit d a x => Sys2Proof.Machine.execMulhLit d a x s
  | .mulhu d a b => Sys2Proof.Machine.execMulhu d a b s
  | .mulhuLit d a x => Sys2Proof.Machine.execMulhuLit d a x s
  | .div d a b => Sys2Proof.Machine.execDiv d a b s
  | .divLit d a x => Sys2Proof.Machine.execDivLit d a x s
  | .divu d a b => Sys2Proof.Machine.execDivu d a b s
  | .divuLit d a x => Sys2Proof.Machine.execDivuLit d a x s
  | .rem d a b => Sys2Proof.Machine.execRem d a b s
  | .remLit d a x => Sys2Proof.Machine.execRemLit d a x s
  | .remu d a b => Sys2Proof.Machine.execRemu d a b s
  | .remuLit d a x => Sys2Proof.Machine.execRemuLit d a x s
  | .addi d a imm => Sys2Proof.Machine.execAddi d a imm s
  | .andi d a imm => Sys2Proof.Machine.execAndi d a imm s
  | .slli d a n => Sys2Proof.Machine.execSlli d a n s
  | .srli d a n => Sys2Proof.Machine.execSrli d a n s
  | .srai d a n => Sys2Proof.Machine.execSrai d a n s
  | .rori d a n => Sys2Proof.Machine.execRori d a n s
  | .clz d a => Sys2Proof.Machine.execClz d a s
  | .ctz d a => Sys2Proof.Machine.execCtz d a s
  | .popc d a => Sys2Proof.Machine.execPopc d a s
  | .brev d a => Sys2Proof.Machine.execBrev d a s
  | .bswap d a => Sys2Proof.Machine.execBswap d a s
  | .bset d a b => Sys2Proof.Machine.execBset d a b s
  | .bsetLit d a x => Sys2Proof.Machine.execBsetLit d a x s
  | .bclr d a b => Sys2Proof.Machine.execBclr d a b s
  | .bclrLit d a x => Sys2Proof.Machine.execBclrLit d a x s
  | .binv d a b => Sys2Proof.Machine.execBinv d a b s
  | .binvLit d a x => Sys2Proof.Machine.execBinvLit d a x s
  | .bext d a b => Sys2Proof.Machine.execBext d a b s
  | .bextLit d a x => Sys2Proof.Machine.execBextLit d a x s
  | .lowb d a => Sys2Proof.Machine.execLowb d a s
  | .clrlow d a => Sys2Proof.Machine.execClrlow d a s
  | .maskn d a => Sys2Proof.Machine.execMaskn d a s
  | .extu d a pos len1 => Sys2Proof.Machine.execExtu d a pos len1 s
  | .exts d a pos len1 => Sys2Proof.Machine.execExts d a pos len1 s
  | .fins d a pos len1 => Sys2Proof.Machine.execFins d a pos len1 s
  | .hdrGet d a pos len1 => Sys2Proof.Machine.execHdrGet d a pos len1 s
  | .hdrGets d a pos len1 => Sys2Proof.Machine.execHdrGets d a pos len1 s
  | .hdrSet a b pos len1 => Sys2Proof.Machine.execHdrSet a b pos len1 s
  | .hdrMatch d a b pos len1 => Sys2Proof.Machine.execHdrMatch d a b pos len1 s
  | .hdrClr a => Sys2Proof.Machine.execHdrClr a s
  | .li d imm => Sys2Proof.Machine.execLi d imm s
  | .liLit d x => Sys2Proof.Machine.execLiLit d x s
  | .la d imm => Sys2Proof.Machine.execLa d imm s
  | .laLit d x => Sys2Proof.Machine.execLaLit d x s
  | .selnz d a b c => Sys2Proof.Machine.execSelnz d a b c s
  | .selz d a b c => Sys2Proof.Machine.execSelz d a b c s
  | .madd d a b c => Sys2Proof.Machine.execMadd d a b c s
  | .msub d a b c => Sys2Proof.Machine.execMsub d a b c s
  | .fadd t d a b => Sys2Proof.Machine.execFadd t d a b s
  | .faddLit t d a x => Sys2Proof.Machine.execFaddLit t d a x s
  | .fsub t d a b => Sys2Proof.Machine.execFsub t d a b s
  | .fsubLit t d a x => Sys2Proof.Machine.execFsubLit t d a x s
  | .fmul t d a b => Sys2Proof.Machine.execFmul t d a b s
  | .fmulLit t d a x => Sys2Proof.Machine.execFmulLit t d a x s
  | .fdiv t d a b => Sys2Proof.Machine.execFdiv t d a b s
  | .fdivLit t d a x => Sys2Proof.Machine.execFdivLit t d a x s
  | .fmin t d a b => Sys2Proof.Machine.execFmin t d a b s
  | .fminLit t d a x => Sys2Proof.Machine.execFminLit t d a x s
  | .fmax t d a b => Sys2Proof.Machine.execFmax t d a b s
  | .fmaxLit t d a x => Sys2Proof.Machine.execFmaxLit t d a x s
  | .fsqrt t d a => Sys2Proof.Machine.execFsqrt t d a s
  | .fneg t d a => Sys2Proof.Machine.execFneg t d a s
  | .fabs t d a => Sys2Proof.Machine.execFabs t d a s
  | .fma t d a b c => Sys2Proof.Machine.execFma t d a b c s
  | .fnma t d a b c => Sys2Proof.Machine.execFnma t d a b c s
  | .feq t d a b => Sys2Proof.Machine.execFeq t d a b s
  | .flt t d a b => Sys2Proof.Machine.execFlt t d a b s
  | .fle t d a b => Sys2Proof.Machine.execFle t d a b s
  | .fclass t d a => Sys2Proof.Machine.execFclass t d a s
  | .fcvt tgt src d a => Sys2Proof.Machine.execFcvt tgt src d a s
  | .bz a off => Sys2Proof.Machine.execBz a off s
  | .bzLit a x => Sys2Proof.Machine.execBzLit a x s
  | .bnz a off => Sys2Proof.Machine.execBnz a off s
  | .bnzLit a x => Sys2Proof.Machine.execBnzLit a x s
  | .jal a off => Sys2Proof.Machine.execJal a off s
  | .jalLit a x => Sys2Proof.Machine.execJalLit a x s
  | .beq a b off => Sys2Proof.Machine.execBeq a b off s
  | .bne a b off => Sys2Proof.Machine.execBne a b off s
  | .blt a b off => Sys2Proof.Machine.execBlt a b off s
  | .bge a b off => Sys2Proof.Machine.execBge a b off s
  | .bltu a b off => Sys2Proof.Machine.execBltu a b off s
  | .bgeu a b off => Sys2Proof.Machine.execBgeu a b off s
  | .jalr d a => Sys2Proof.Machine.execJalr d a s
  | .jalrDisp d a disp => Sys2Proof.Machine.execJalrDisp d a disp s
  | .bany a b off => Sys2Proof.Machine.execBany a b off s
  | .bnone a b off => Sys2Proof.Machine.execBnone a b off s
  | .ball a b off => Sys2Proof.Machine.execBall a b off s
  | .bnall a b off => Sys2Proof.Machine.execBnall a b off s
  | .crrw d a cr => Sys2Proof.Machine.execCrrw d a cr s
  | .crrs d a cr => Sys2Proof.Machine.execCrrs d a cr s
  | .crrc d a cr => Sys2Proof.Machine.execCrrc d a cr s
  | .crrwi d imm cr => Sys2Proof.Machine.execCrrwi d imm cr s
  | .crrsi d imm cr => Sys2Proof.Machine.execCrrsi d imm cr s
  | .crrci d imm cr => Sys2Proof.Machine.execCrrci d imm cr s
  | .lsSplitWrite t => Sys2Proof.Machine.execLsSplitWrite t s
  | .syscall code => Sys2Proof.Machine.execSyscall code s
  | .break code => Sys2Proof.Machine.execBreak code s
  | .tret => Sys2Proof.Machine.execTret s
  | .halt => Sys2Proof.Machine.execHalt s
  | .iwait => Sys2Proof.Machine.execIwait s
  | .tlbiVa a b => Sys2Proof.Machine.execTlbiVa a b s
  | .tlbiCtx b => Sys2Proof.Machine.execTlbiCtx b s
  | .tlbiAll => Sys2Proof.Machine.execTlbiAll s
  | .tlbsync => Sys2Proof.Machine.execTlbsync s
  | .ptProbe d a => Sys2Proof.Machine.execPtProbe d a s
  | .faultRd d a => Sys2Proof.Machine.execFaultRd d a s
  | .partDone a => Sys2Proof.Machine.execPartDone a s
  | .ld sz d base q => Sys2Proof.Machine.execLd sz d base q s
  | .ldExt sz d base q x => Sys2Proof.Machine.execLdExt sz d base q x s
  | .lds sz d base q => Sys2Proof.Machine.execLds sz d base q s
  | .ldsExt sz d base q x => Sys2Proof.Machine.execLdsExt sz d base q x s
  | .st sz a base q => Sys2Proof.Machine.execSt sz a base q s
  | .stExt sz a base q x => Sys2Proof.Machine.execStExt sz a base q x s
  | .atomSwap sz d base q => Sys2Proof.Machine.execAtomSwap sz d base q s
  | .atomSwapExt sz d base q x => Sys2Proof.Machine.execAtomSwapExt sz d base q x s
  | .atomAdd sz d base q => Sys2Proof.Machine.execAtomAdd sz d base q s
  | .atomAddExt sz d base q x => Sys2Proof.Machine.execAtomAddExt sz d base q x s
  | .atomAnd sz d base q => Sys2Proof.Machine.execAtomAnd sz d base q s
  | .atomAndExt sz d base q x => Sys2Proof.Machine.execAtomAndExt sz d base q x s
  | .atomOr sz d base q => Sys2Proof.Machine.execAtomOr sz d base q s
  | .atomOrExt sz d base q x => Sys2Proof.Machine.execAtomOrExt sz d base q x s
  | .atomXor sz d base q => Sys2Proof.Machine.execAtomXor sz d base q s
  | .atomXorExt sz d base q x => Sys2Proof.Machine.execAtomXorExt sz d base q x s
  | .atomMin sz d base q => Sys2Proof.Machine.execAtomMin sz d base q s
  | .atomMinExt sz d base q x => Sys2Proof.Machine.execAtomMinExt sz d base q x s
  | .atomMax sz d base q => Sys2Proof.Machine.execAtomMax sz d base q s
  | .atomMaxExt sz d base q x => Sys2Proof.Machine.execAtomMaxExt sz d base q x s
  | .atomFadd d base q => Sys2Proof.Machine.execAtomFadd d base q s
  | .atomFaddExt d base q x => Sys2Proof.Machine.execAtomFaddExt d base q x s
  | .cas sz d base q => Sys2Proof.Machine.execCas sz d base q s
  | .casExt sz d base q x => Sys2Proof.Machine.execCasExt sz d base q x s
  | .stnibLo a base q => Sys2Proof.Machine.execStnibLo a base q s
  | .stnibLoExt a base q x => Sys2Proof.Machine.execStnibLoExt a base q x s
  | .stnibHi a base q => Sys2Proof.Machine.execStnibHi a base q s
  | .stnibHiExt a base q x => Sys2Proof.Machine.execStnibHiExt a base q x s
  | .pref n base ev => Sys2Proof.Machine.execPref n base ev s
  | .prefExt n base ev x => Sys2Proof.Machine.execPrefExt n base ev x s
  | .cclean n base sc => Sys2Proof.Machine.execCclean n base sc s
  | .ccleanExt n base sc x => Sys2Proof.Machine.execCcleanExt n base sc x s
  | .cflush n base sc => Sys2Proof.Machine.execCflush n base sc s
  | .cflushExt n base sc x => Sys2Proof.Machine.execCflushExt n base sc x s
  | .codeflush n base sc => Sys2Proof.Machine.execCodeflush n base sc s
  | .codeflushExt n base sc x => Sys2Proof.Machine.execCodeflushExt n base sc x s
  | .ifence => Sys2Proof.Machine.execIfence s
  | .stashMap c base => Sys2Proof.Machine.execStashMap c base s
  | .stashMapExt c base x => Sys2Proof.Machine.execStashMapExt c base x s
  | .stashUnmap base => Sys2Proof.Machine.execStashUnmap base s
  | .stashUnmapExt base x => Sys2Proof.Machine.execStashUnmapExt base x s
  | .spaceTest d a => Sys2Proof.Machine.execSpaceTest d a s
  | .spaceCastGen sp d a => Sys2Proof.Machine.execSpaceCastGen sp d a s
  | .spaceCastOff sp d a => Sys2Proof.Machine.execSpaceCastOff sp d a s
  | .fence o sc => Sys2Proof.Machine.execFence o sc s
  | .append sz d base rel sc => Sys2Proof.Machine.execAppend sz d base rel sc s
  | .appendExt sz d base rel sc x => Sys2Proof.Machine.execAppendExt sz d base rel sc x s
  | .appendV d base rel sc => Sys2Proof.Machine.execAppendV d base rel sc s
  | .appendVExt d base rel sc x => Sys2Proof.Machine.execAppendVExt d base rel sc x s
  | .tailrd d base sc => Sys2Proof.Machine.execTailrd d base sc s
  | .tailrdExt d base sc x => Sys2Proof.Machine.execTailrdExt d base sc x s
  | .seal d base sc => Sys2Proof.Machine.execSeal d base sc s
  | .sealExt d base sc x => Sys2Proof.Machine.execSealExt d base sc x s
  | .freeSeal base => Sys2Proof.Machine.execFreeSeal base s
  | .freeSealExt base x => Sys2Proof.Machine.execFreeSealExt base x s
  | .fork d a b c => Sys2Proof.Machine.execFork d a b c s
  | .forkInc d a b c => Sys2Proof.Machine.execForkInc d a b c s
  | .forkm a => Sys2Proof.Machine.execForkm a s
  | .forkmInc a => Sys2Proof.Machine.execForkmInc a s
  | .rfork a => Sys2Proof.Machine.execRfork a s
  | .done => Sys2Proof.Machine.execDone s
  | .join sc a => Sys2Proof.Machine.execJoin sc a s
  | .yield a => Sys2Proof.Machine.execYield a s
  | .pause a => Sys2Proof.Machine.execPause a s
  | .barSet n a => Sys2Proof.Machine.execBarSet n a s
  | .barArrive n => Sys2Proof.Machine.execBarArrive n s
  | .barWait n => Sys2Proof.Machine.execBarWait n s
  | .barSync n => Sys2Proof.Machine.execBarSync n s
  | .barGet d n => Sys2Proof.Machine.execBarGet d n s
  | .mbxWait d a => Sys2Proof.Machine.execMbxWait d a s
  | .mbxPoll d a => Sys2Proof.Machine.execMbxPoll d a s
  | .selfId d => Sys2Proof.Machine.execSelfId d s
  | .selfXy d => Sys2Proof.Machine.execSelfXy d s
  | .selfDom d => Sys2Proof.Machine.execSelfDom d s
  | .selfIdle d a => Sys2Proof.Machine.execSelfIdle d a s
  | .vadd ty m d a b => Sys2Proof.Machine.execVadd ty m d a b s
  | .vaddX ty m d a b bs un sat => Sys2Proof.Machine.execVaddX ty m d a b bs un sat s
  | .vsub ty m d a b => Sys2Proof.Machine.execVsub ty m d a b s
  | .vsubX ty m d a b bs un sat => Sys2Proof.Machine.execVsubX ty m d a b bs un sat s
  | .vmul ty m d a b => Sys2Proof.Machine.execVmul ty m d a b s
  | .vmulX ty m d a b bs => Sys2Proof.Machine.execVmulX ty m d a b bs s
  | .vmulh ty m d a b => Sys2Proof.Machine.execVmulh ty m d a b s
  | .vmulhX ty m d a b bs un => Sys2Proof.Machine.execVmulhX ty m d a b bs un s
  | .vmin ty m d a b => Sys2Proof.Machine.execVmin ty m d a b s
  | .vminX ty m d a b bs un => Sys2Proof.Machine.execVminX ty m d a b bs un s
  | .vmax ty m d a b => Sys2Proof.Machine.execVmax ty m d a b s
  | .vmaxX ty m d a b bs un => Sys2Proof.Machine.execVmaxX ty m d a b bs un s
  | .vand ty m d a b => Sys2Proof.Machine.execVand ty m d a b s
  | .vandX ty m d a b bs => Sys2Proof.Machine.execVandX ty m d a b bs s
  | .vor ty m d a b bs => Sys2Proof.Machine.execVor ty m d a b bs s
  | .vxor ty m d a b bs => Sys2Proof.Machine.execVxor ty m d a b bs s
  | .vandn ty m d a b bs => Sys2Proof.Machine.execVandn ty m d a b bs s
  | .vsll ty m d a b => Sys2Proof.Machine.execVsll ty m d a b s
  | .vsllX ty m d a b bs => Sys2Proof.Machine.execVsllX ty m d a b bs s
  | .vsrl ty m d a b bs => Sys2Proof.Machine.execVsrl ty m d a b bs s
  | .vsra ty m d a b bs => Sys2Proof.Machine.execVsra ty m d a b bs s
  | .vslli ty m d a n => Sys2Proof.Machine.execVslli ty m d a n s
  | .vsrli ty m d a n => Sys2Proof.Machine.execVsrli ty m d a n s
  | .vsrai ty m d a n => Sys2Proof.Machine.execVsrai ty m d a n s
  | .vfma ty m d a b => Sys2Proof.Machine.execVfma ty m d a b s
  | .vfmaX ty m d a b bs vc => Sys2Proof.Machine.execVfmaX ty m d a b bs vc s
  | .vfnma ty m d a b bs vc => Sys2Proof.Machine.execVfnma ty m d a b bs vc s
  | .vneg ty m d a => Sys2Proof.Machine.execVneg ty m d a s
  | .vnegX ty m d a sat => Sys2Proof.Machine.execVnegX ty m d a sat s
  | .vabs ty m d a sat => Sys2Proof.Machine.execVabs ty m d a sat s
  | .vcvt ty m d a => Sys2Proof.Machine.execVcvt ty m d a s
  | .vcvtX ty m d a un sat src srcUn p => Sys2Proof.Machine.execVcvtX ty m d a un sat src srcUn p s
  | .vceq ty m a b => Sys2Proof.Machine.execVceq ty m a b s
  | .vceqX ty m a b bs un sx => Sys2Proof.Machine.execVceqX ty m a b bs un sx s
  | .vcne ty m a b bs un sx => Sys2Proof.Machine.execVcne ty m a b bs un sx s
  | .vclt ty m a b bs un sx => Sys2Proof.Machine.execVclt ty m a b bs un sx s
  | .vcle ty m a b bs un sx => Sys2Proof.Machine.execVcle ty m a b bs un sx s
  | .vcgt ty m a b bs un sx => Sys2Proof.Machine.execVcgt ty m a b bs un sx s
  | .vcge ty m a b bs un sx => Sys2Proof.Machine.execVcge ty m a b bs un sx s
  | .vsel ty m d a b => Sys2Proof.Machine.execVsel ty m d a b s
  | .vselX ty m d a b bs => Sys2Proof.Machine.execVselX ty m d a b bs s
  | .vredsum ty m a => Sys2Proof.Machine.execVredsum ty m a s
  | .vredsumX ty m a un sx => Sys2Proof.Machine.execVredsumX ty m a un sx s
  | .vredmin ty m a un sx => Sys2Proof.Machine.execVredmin ty m a un sx s
  | .vredmax ty m a un sx => Sys2Proof.Machine.execVredmax ty m a un sx s
  | .vredand ty m a un sx => Sys2Proof.Machine.execVredand ty m a un sx s
  | .vredor ty m a un sx => Sys2Proof.Machine.execVredor ty m a un sx s
  | .vredxor ty m a un sx => Sys2Proof.Machine.execVredxor ty m a un sx s
  | .vdot ty m d a b => Sys2Proof.Machine.execVdot ty m d a b s
  | .vdotX ty m d a b un sat => Sys2Proof.Machine.execVdotX ty m d a b un sat s
  | .vperm ty m d a b => Sys2Proof.Machine.execVperm ty m d a b s
  | .vpermX ty m d a b bs => Sys2Proof.Machine.execVpermX ty m d a b bs s
  | .vslideh ty m d a n => Sys2Proof.Machine.execVslideh ty m d a n s
  | .vslidel ty m d a n => Sys2Proof.Machine.execVslidel ty m d a n s
  | .vrev ty m d a => Sys2Proof.Machine.execVrev ty m d a s
  | .vbcast ty m d => Sys2Proof.Machine.execVbcast ty m d s
  | .vbcastX ty m d sx => Sys2Proof.Machine.execVbcastX ty m d sx s
  | .vbcastl ty m d a k => Sys2Proof.Machine.execVbcastl ty m d a k s
  | .vindex ty m d => Sys2Proof.Machine.execVindex ty m d s
  | .vext ty a => Sys2Proof.Machine.execVext ty a s
  | .vextX ty a un sx k => Sys2Proof.Machine.execVextX ty a un sx k s
  | .vins ty d sx k => Sys2Proof.Machine.execVins ty d sx k s
  | .vcprs ty m d a => Sys2Proof.Machine.execVcprs ty m d a s
  | .vcprsX ty m d a sx => Sys2Proof.Machine.execVcprsX ty m d a sx s
  | .vexpd ty m d a sx => Sys2Proof.Machine.execVexpd ty m d a sx s
  | .vld ty m d x => Sys2Proof.Machine.execVld ty m d x s
  | .vst ty m d x => Sys2Proof.Machine.execVst ty m d x s
  | .vlds ty m d b x => Sys2Proof.Machine.execVlds ty m d b x s
  | .vsts ty m d b x => Sys2Proof.Machine.execVsts ty m d b x s
  | .vgath ty m d b shift x => Sys2Proof.Machine.execVgath ty m d b shift x s
  | .vscat ty m d b shift x => Sys2Proof.Machine.execVscat ty m d b shift x s
  | .tdLd a ta => Sys2Proof.Machine.execTdLd a ta s
  | .tdSt a ta => Sys2Proof.Machine.execTdSt a ta s
  | .tdRdw d ta w => Sys2Proof.Machine.execTdRdw d ta w s
  | .tdWrw b ta w => Sys2Proof.Machine.execTdWrw b ta w s
  | .mm ta tb tile => Sys2Proof.Machine.execMm ta tb tile s
  | .mc ta tb tile => Sys2Proof.Machine.execMc ta tb tile s
  | .mcNdA ta tb tile => Sys2Proof.Machine.execMcNdA ta tb tile s
  | .mcNdB ta tb tile => Sys2Proof.Machine.execMcNdB ta tb tile s
  | .drainA => Sys2Proof.Machine.execDrainA s
  | .drainB => Sys2Proof.Machine.execDrainB s
  | .bankMergeAb => Sys2Proof.Machine.execBankMergeAb s
  | .bankMergeBa => Sys2Proof.Machine.execBankMergeBa s
  | .accMerge a tile => Sys2Proof.Machine.execAccMerge a tile s
  | .accClrF tile => Sys2Proof.Machine.execAccClrF tile s
  | .accClrX ta tb tile => Sys2Proof.Machine.execAccClrX ta tb tile s
  | .accCvt ta tile => Sys2Proof.Machine.execAccCvt ta tile s
  | .accSt a tile => Sys2Proof.Machine.execAccSt a tile s
  | .accLd a tile => Sys2Proof.Machine.execAccLd a tile s
  | .wbLd ta tb => Sys2Proof.Machine.execWbLd ta tb s
  | .compress ta tb => Sys2Proof.Machine.execCompress ta tb s
  | .msave a mask => Sys2Proof.Machine.execMsave a mask s
  | .mrestore a mask => Sys2Proof.Machine.execMrestore a mask s
  | .tensorOpStart c => Sys2Proof.Machine.execTensorOpStart c s
  | .tensorOpComplete c wb => Sys2Proof.Machine.execTensorOpComplete c wb s
  | .cpStart n d a b => Sys2Proof.Machine.execCpStart n d a b s
  | .cpWaitge n d a => Sys2Proof.Machine.execCpWaitge n d a s
  | .cpWp n d => Sys2Proof.Machine.execCpWp n d s
  | .cpStat n d => Sys2Proof.Machine.execCpStat n d s
  | .cpStop n => Sys2Proof.Machine.execCpStop n s
  | .cpResume n => Sys2Proof.Machine.execCpResume n s
  | .channelDelivery c n => Sys2Proof.Machine.execChannelDelivery c n s
  | .channelStopped c n => Sys2Proof.Machine.execChannelStopped c n s
  | .channelFault c n => Sys2Proof.Machine.execChannelFault c n s
  | .distSet a => Sys2Proof.Machine.execDistSet a s
  | .distGo d a b => Sys2Proof.Machine.execDistGo d a b s
  | .distStat d => Sys2Proof.Machine.execDistStat d s
  | .distResume => Sys2Proof.Machine.execDistResume s
  | .distBlock c => Sys2Proof.Machine.execDistBlock c s
  | .distBurstComplete c => Sys2Proof.Machine.execDistBurstComplete c s
  | .sfuExp2 ty m d a => Sys2Proof.Machine.execSfuExp2 ty m d a s
  | .sfuLog2 ty m d a => Sys2Proof.Machine.execSfuLog2 ty m d a s
  | .sfuRcp ty m d a => Sys2Proof.Machine.execSfuRcp ty m d a s
  | .sfuRsqrt ty m d a => Sys2Proof.Machine.execSfuRsqrt ty m d a s
  | .sfuSqrt ty m d a => Sys2Proof.Machine.execSfuSqrt ty m d a s
  | .sfuSin ty m d a => Sys2Proof.Machine.execSfuSin ty m d a s
  | .sfuCos ty m d a => Sys2Proof.Machine.execSfuCos ty m d a s
  | .sfuTanh ty m d a => Sys2Proof.Machine.execSfuTanh ty m d a s
  | .sfuSigm ty m d a => Sys2Proof.Machine.execSfuSigm ty m d a s
  | .sfuErf ty m d a => Sys2Proof.Machine.execSfuErf ty m d a s
  | .sfuEntryComplete c => Sys2Proof.Machine.execSfuEntryComplete c s
  | .qinj a b => Sys2Proof.Machine.execQinj a b s
  | .qinjRel a b => Sys2Proof.Machine.execQinjRel a b s
  | .qrcv a => Sys2Proof.Machine.execQrcv a s
  | .qpoll d a => Sys2Proof.Machine.execQpoll d a s
  | .qcnt d => Sys2Proof.Machine.execQcnt d s
  | .rld tag sz acq a b => Sys2Proof.Machine.execRld tag sz acq a b s
  | .rst sz rel d a b => Sys2Proof.Machine.execRst sz rel d a b s
  | .ratom op tag sz o d a b => Sys2Proof.Machine.execRatom op tag sz o d a b s
  | .ratomCas tag sz o d a b => Sys2Proof.Machine.execRatomCas tag sz o d a b s
  | .rwait d n => Sys2Proof.Machine.execRwait d n s
  | .bulkWr tag d a b c => Sys2Proof.Machine.execBulkWr tag d a b c s
  | .bulkRd tag d a b c => Sys2Proof.Machine.execBulkRd tag d a b c s
  | .rankMe d => Sys2Proof.Machine.execRankMe d s
  | .rankRd d a => Sys2Proof.Machine.execRankRd d a s
  | .rbind d a b => Sys2Proof.Machine.execRbind d a b s
  | .tagGnt a b => Sys2Proof.Machine.execTagGnt a b s
  | .tagGntd a b => Sys2Proof.Machine.execTagGntd a b s
  | .tagRcl a b => Sys2Proof.Machine.execTagRcl a b s
  | .dirWr => Sys2Proof.Machine.execDirWr s
  | .dirShadd a => Sys2Proof.Machine.execDirShadd a s
  | .dirShdel a => Sys2Proof.Machine.execDirShdel a s
  | .msgSend a b => Sys2Proof.Machine.execMsgSend a b s
  | .msgMcast d a b => Sys2Proof.Machine.execMsgMcast d a b s
  | .btRd a b => Sys2Proof.Machine.execBtRd a b s
  | .btWr a b => Sys2Proof.Machine.execBtWr a b s
  | .btMrg a b => Sys2Proof.Machine.execBtMrg a b s
  | .hend => Sys2Proof.Machine.execHend s
  | .hfail a b => Sys2Proof.Machine.execHfail a b s
  | .biasRd d a => Sys2Proof.Machine.execBiasRd d a s
  | .biasWr a b => Sys2Proof.Machine.execBiasWr a b s
  | .biSnp b => Sys2Proof.Machine.execBiSnp b s
  | .interruptTake t => Sys2Proof.Machine.execInterruptTake t s
  | .remoteErrorTake t => Sys2Proof.Machine.execRemoteErrorTake t s
  | .recordPop c => Sys2Proof.Machine.execRecordPop c s
  | .dequeSpill c => Sys2Proof.Machine.execDequeSpill c s
  | .dequeRefill c => Sys2Proof.Machine.execDequeRefill c s
  | .stealSearch c => Sys2Proof.Machine.execStealSearch c s
  | .stealArrival k => Sys2Proof.Machine.execStealArrival k s
  | .undealtShareDeal die => Sys2Proof.Machine.execUndealtShareDeal die s
  | .rangeTransfer die => Sys2Proof.Machine.execRangeTransfer die s
  | .barrierArrival k => Sys2Proof.Machine.execBarrierArrival k s
  | .barrierRelease k => Sys2Proof.Machine.execBarrierRelease k s
  | .pauseExpiry t => Sys2Proof.Machine.execPauseExpiry t s
  | .gets k => Sys2Proof.Machine.execGets k s
  | .getx k => Sys2Proof.Machine.execGetx k s
  | .upg k => Sys2Proof.Machine.execUpg k s
  | .putx k => Sys2Proof.Machine.execPutx k s
  | .puts k => Sys2Proof.Machine.execPuts k s
  | .putp k => Sys2Proof.Machine.execPutp k s
  | .atom k => Sys2Proof.Machine.execAtom k s
  | .apnd k => Sys2Proof.Machine.execApnd k s
  | .apndFill k => Sys2Proof.Machine.execApndFill k s
  | .arsv k => Sys2Proof.Machine.execArsv k s
  | .tailq k => Sys2Proof.Machine.execTailq k s
  | .sealqSeal k => Sys2Proof.Machine.execSealqSeal k s
  | .sealqFree k => Sys2Proof.Machine.execSealqFree k s
  | .replicateNotice k => Sys2Proof.Machine.execReplicateNotice k s
  | .replicaCopyComplete p page => Sys2Proof.Machine.execReplicaCopyComplete p page s
  | .replicaInvalidate k => Sys2Proof.Machine.execReplicaInvalidate k s
  | .customMessage k => Sys2Proof.Machine.execCustomMessage k s
  | .recall k => Sys2Proof.Machine.execRecall k s
  | .inv k => Sys2Proof.Machine.execInv k s
  | .push k => Sys2Proof.Machine.execPush k s
  | .deferredRequestApply c k => Sys2Proof.Machine.execDeferredRequestApply c k s
  | .dataS k => Sys2Proof.Machine.execDataS k s
  | .dataX k => Sys2Proof.Machine.execDataX k s
  | .ack k => Sys2Proof.Machine.execAck k s
  | .busy k => Sys2Proof.Machine.execBusy k s
  | .retry k => Sys2Proof.Machine.execRetry k s
  | .retryBackoffExpiry c blk => Sys2Proof.Machine.execRetryBackoffExpiry c blk s
  | .fail k => Sys2Proof.Machine.execFail k s
  | .wbData k => Sys2Proof.Machine.execWbData k s
  | .invAck k => Sys2Proof.Machine.execInvAck k s
  | .result k => Sys2Proof.Machine.execResult k s
  | .handlerWatchdog t => Sys2Proof.Machine.execHandlerWatchdog t s
  | .transientWatchdog p blk => Sys2Proof.Machine.execTransientWatchdog p blk s
  | .queueMessage p => Sys2Proof.Machine.execQueueMessage p s
  | .remoteLoad p => Sys2Proof.Machine.execRemoteLoad p s
  | .remoteStore p => Sys2Proof.Machine.execRemoteStore p s
  | .remoteAtomic p => Sys2Proof.Machine.execRemoteAtomic p s
  | .valueReply p => Sys2Proof.Machine.execValueReply p s
  | .acknowledgement p => Sys2Proof.Machine.execAcknowledgement p s
  | .bulkWriteData p => Sys2Proof.Machine.execBulkWriteData p s
  | .bulkReadRequest p => Sys2Proof.Machine.execBulkReadRequest p s
  | .bulkReadData p => Sys2Proof.Machine.execBulkReadData p s
  | .dropNotice p => Sys2Proof.Machine.execDropNotice p s
  | .reservationRequest p => Sys2Proof.Machine.execReservationRequest p s
  | .reservationGrant p => Sys2Proof.Machine.execReservationGrant p s
  | .reservedResend k => Sys2Proof.Machine.execReservedResend k s
  | .refusal p => Sys2Proof.Machine.execRefusal p s
  | .failureReport p => Sys2Proof.Machine.execFailureReport p s
  | .pageReadRequest p => Sys2Proof.Machine.execPageReadRequest p s
  | .pageExclusiveRequest p => Sys2Proof.Machine.execPageExclusiveRequest p s
  | .pageData p => Sys2Proof.Machine.execPageData p s
  | .pageRecall p => Sys2Proof.Machine.execPageRecall p s
  | .pageWriteBack p => Sys2Proof.Machine.execPageWriteBack p s
  | .pageAcknowledgement p => Sys2Proof.Machine.execPageAcknowledgement p s
  | .packetForward p room => Sys2Proof.Machine.execPacketForward p room s
  | .fabricResendTimeout k => Sys2Proof.Machine.execFabricResendTimeout k s
  | .linkFlitResend link => Sys2Proof.Machine.execLinkFlitResend link s
  | .linkRetrain port => Sys2Proof.Machine.execLinkRetrain port s
  | .hostGoResponse pa data excl => Sys2Proof.Machine.execHostGoResponse pa data excl s
  | .snpinv pa => Sys2Proof.Machine.execSnpinv pa s
  | .snpdata pa => Sys2Proof.Machine.execSnpdata pa s
  | .snpcur pa => Sys2Proof.Machine.execSnpcur pa s
  | .hostMemrd pa => Sys2Proof.Machine.execHostMemrd pa s
  | .hostMemwr pa mask data => Sys2Proof.Machine.execHostMemwr pa mask data s
  | .notifyWrite fn m v => Sys2Proof.Machine.execNotifyWrite fn m v s
  | .registerWrite fn r v => Sys2Proof.Machine.execRegisterWrite fn r v s
  | .partCfg c pa => Sys2Proof.Machine.execPartCfg c pa s
  | .partStart c => Sys2Proof.Machine.execPartStart c s
  | .partStop c => Sys2Proof.Machine.execPartStop c s
  | .regionBind c idx e => Sys2Proof.Machine.execRegionBind c idx e s
  | .regionUnbind c idx => Sys2Proof.Machine.execRegionUnbind c idx s
  | .imageLoad c addr len mask => Sys2Proof.Machine.execImageLoad c addr len mask s
  | .routeLoad c dev es => Sys2Proof.Machine.execRouteLoad c dev es s
  | .rankWrite c es => Sys2Proof.Machine.execRankWrite c es s
  | .contract c e => Sys2Proof.Machine.execContract c e s
  | .launch c recs ranges quota => Sys2Proof.Machine.execLaunch c recs ranges quota s
  | .launchSeed part => Sys2Proof.Machine.execLaunchSeed part s
  | .deliver c m v msg => Sys2Proof.Machine.execDeliver c m v msg s
  | .preemptCmd c core slot => Sys2Proof.Machine.execPreemptCmd c core slot s
  | .ifenceCmd c => Sys2Proof.Machine.execIfenceCmd c s
  | .pageReply c w => Sys2Proof.Machine.execPageReply c w s
  | .record c mode trace mbox => Sys2Proof.Machine.execRecord c mode trace mbox s
  | .biasSet c page count host => Sys2Proof.Machine.execBiasSet c page count host s
  | .s2Inv c page => Sys2Proof.Machine.execS2Inv c page s
  | .mbxAssign c m e => Sys2Proof.Machine.execMbxAssign c m e s
  | .hdmCfg c base size table => Sys2Proof.Machine.execHdmCfg c base size table s
  | .partExport c area size => Sys2Proof.Machine.execPartExport c area size s
  | .partImport c area => Sys2Proof.Machine.execPartImport c area s
  | .eventCfg c ring => Sys2Proof.Machine.execEventCfg c ring s
  | .partitionSwap out inc reason => Sys2Proof.Machine.execPartitionSwap out inc reason s
  | .swapFlush cl => Sys2Proof.Machine.execSwapFlush cl s
  | .swapExchange cl => Sys2Proof.Machine.execSwapExchange cl s
  | .periodStart part => Sys2Proof.Machine.execPeriodStart part s
  | .budgetExhausted part => Sys2Proof.Machine.execBudgetExhausted part s
  | .timeSliceExpiry part => Sys2Proof.Machine.execTimeSliceExpiry part s
  | .partitionNoWork part => Sys2Proof.Machine.execPartitionNoWork part s
  | .traceRingCopy port => Sys2Proof.Machine.execTraceRingCopy port s
  | .replayDivergence part port => Sys2Proof.Machine.execReplayDivergence part port s
  | .clusterClockGate cl => Sys2Proof.Machine.execClusterClockGate cl s
  | .clusterPowerGate cl => Sys2Proof.Machine.execClusterPowerGate cl s
  | .clusterWake cl => Sys2Proof.Machine.execClusterWake cl s
  | .powerOn img => Sys2Proof.Machine.execPowerOn img s
  | .fundamentalReset img => Sys2Proof.Machine.execFundamentalReset img s
  | .hotReset img => Sys2Proof.Machine.execHotReset img s
  | .bootReset img => Sys2Proof.Machine.execBootReset img s
  | .d3hotEntry => Sys2Proof.Machine.execD3hotEntry s
  | .powerOff => Sys2Proof.Machine.execPowerOff s
  | .attestRequest => Sys2Proof.Machine.execAttestRequest s
  | .refresh ctl => Sys2Proof.Machine.execRefresh ctl s
  | .recalibration ctl => Sys2Proof.Machine.execRecalibration ctl s
  | .scrub pa err => Sys2Proof.Machine.execScrub pa err s
  | .throttleRaise => Sys2Proof.Machine.execThrottleRaise s
  | .throttleLower => Sys2Proof.Machine.execThrottleLower s
  | .thermalShutdown => Sys2Proof.Machine.execThermalShutdown s
  | .telemetrySample t => Sys2Proof.Machine.execTelemetrySample t s
  | .illegalOpEncoding w => Sys2Proof.Machine.execIllegalOpEncoding w s
  | .memoryAccessReply t => Sys2Proof.Machine.execMemoryAccessReply t s
  | .vectorBlockDelivery t => Sys2Proof.Machine.execVectorBlockDelivery t s
  | .tlbiCompletion cl => Sys2Proof.Machine.execTlbiCompletion cl s
  | .codeflushAcknowledgement t => Sys2Proof.Machine.execCodeflushAcknowledgement t s
  | .cxlIoCompletion t => Sys2Proof.Machine.execCxlIoCompletion t s
  | .refusalBackoffResend k => Sys2Proof.Machine.execRefusalBackoffResend k s

end Sys2Proof.Machine
end

