-- ==== Sys2Proof/Machine/Schedule.lean ====
section
/-! DEFINITION. What a step is: a slot issues the instruction at its pc (spec/01 R19 to R24, spec/02 R36, R37, spec/05 R102), or an event
of the part occurs. Which comes next is the first entry of State.inputs, and while that list is empty a schedule of the model's own
(log 3). -/

namespace Sys2Proof.Machine

/-! ## Issue (R36, R37, R102) -/

/-- Majors a protocol processor decodes (R35, R217). -/
def procMajor (m : Nat) : Bool :=
  (1 ≤ m && m ≤ 0x0C) || (0x10 ≤ m && m ≤ 0x13) || (0x18 ≤ m && m ≤ 0x1C) || (0x20 ≤ m && m ≤ 0x24) || m = 0x3C || m = 0x3D ||
    (0x78 ≤ m && m ≤ 0x7B)

/-- Whether the machine a thread belongs to decodes a major (R35, R36). -/
def machineDecodes (t m : Nat) : Bool := if onCore t then m < 0x78 else procMajor m

/-- Whether an instruction names a vector register, and so waits for a parked result of its slot (R323). -/
def namesVector (i : Instr) (m : Nat) : Bool :=
  (0x40 ≤ m && m ≤ 0x5F) || m = 0x72 || (match i with | .appendV _ _ _ _ | .appendVExt _ _ _ _ _ => true | _ => false)

/-- Whether an interrupt that ended IWAIT is taken before the slot's next instruction (R99). -/
def intrDue (x : Slot) : Bool := x.due && !x.pend.isEmpty && mayInterrupt x

/-- Whether a slot is ready: it is in the rotation, and its core or its handler can run (R102, R104, R136, R224). A slot whose last atomic
completes in the background waits for its parked reply (R186). -/
def ready (s : State) (t : Nat) : Bool :=
  s.boot.st == .ready && (s.slot t).run == .active &&
    (if onCore t then works s (agentOf t) && (s.slot t).parked.isNone && !intrDue (s.slot t)
     else (s.slot t).handler.isSome && !outOfSteps s t)

/-- A handler's instruction counts as a step (R224). -/
def countStep (s : State) (t : Nat) : State :=
  if onCore t then s else s.updSlot t fun x => { x with handler := x.handler.map fun h => { h with steps := h.steps + 1 } }

/-- The instruction that the bytes fetched by the current slot hold (R36, R37). -/
noncomputable def runBytes (bs : List Byte) (s : State) : Out :=
  let m := leNat (bs.take 4) / 4 % 128
  match decode bs with
  | .ok (i, _) =>
    if !machineDecodes s.cur m then exec (.illegalOpEncoding (BitVec.ofNat 32 (leNat (bs.take 4)))) s
    else if namesVector i m && parkedResult s s.cur then wait .sfuParked s
    else exec i s
  | .error (.illegal w) => exec (.illegalOpEncoding w) s
  | .error .short => exec (.illegalOpEncoding (BitVec.ofNat 32 (leNat (bs.take 4)))) s

/-- The scalar registers that a scalar-class instruction writes when it goes on to the next instruction: those of a message group (R81), or
field D, but for stores, cache control and branches (R30, R38). `w` is the base word. -/
def pairWrites (i : Instr) (w : Nat) : List Nat :=
  match i with
  | .hdrSet a _ pos _ => [a.val + pos.val / 64]
  | .hdrClr a => (List.range 8).map (a.val + ·)
  | _ =>
    let m := w / 4 % 128
    if m = 0x21 || m = 0x25 || m = 0x29 || (0x18 ≤ m && m ≤ 0x1C) then [] else [fld w 9 5]

/-- Whether an instruction is a taken branch or a call: it transfers control, be it to the next instruction (R38, R90 to R92). -/
def transfers (x : Slot) (i : Instr) : Bool :=
  let m (b : Reg) : Word := if b = 0 then BitVec.allOnes 64 else x.rs b
  match i with
  | .bz a _ | .bzLit a _ => x.rs a == 0
  | .bnz a _ | .bnzLit a _ => x.rs a != 0
  | .jal _ _ | .jalLit _ _ | .jalr _ _ | .jalrDisp _ _ _ => true
  | .beq a b _ => x.rs a == x.rs b
  | .bne a b _ => x.rs a != x.rs b
  | .blt a b _ => (x.rs a).slt (x.rs b)
  | .bge a b _ => !(x.rs a).slt (x.rs b)
  | .bltu a b _ => (x.rs a).ult (x.rs b)
  | .bgeu a b _ => !(x.rs a).ult (x.rs b)
  | .bany a b _ => (x.rs a &&& m b) != 0
  | .bnone a b _ => (x.rs a &&& m b) == 0
  | .ball a b _ => (x.rs a &&& m b) == m b
  | .bnall a b _ => (x.rs a &&& m b) != m b
  | _ => false

/-- Whether an instruction may be the scalar member of a bundle when its slot has gone on to the next: no fence, no IFENCE, no branch that
is taken (R38, R182). -/
def pairs (x : Slot) (i : Instr) : Bool :=
  match i with
  | .fence _ _ | .ifence => false
  | i => !transfers x i

/-- The scalar registers that a vector-class instruction reads: its mask, a scalar in field B, and those its extension word names
(R30, R109, R122, R125). -/
def pairReads (w e : Nat) : List Nat :=
  let m := w / 4 % 128
  fld w 24 5 :: (if 0x58 ≤ m then [fld e 32 5, fld e 51 5] ++ (if m = 0x5A || m = 0x5B then [fld w 19 5] else [])
    else (if fld e 8 1 = 1 then [fld w 19 5] else []) ++ if (m = 0x50 && fld e 0 8 = 0) || (m = 0x51 && fld e 0 8 = 1) then [fld e 24 5] else [])

/-- Whether a scalar-class instruction of a slot and the vector-class one after it form a bundle (R38): `x` is the slot before the first,
whose bytes are bs, and s the state after it. -/
noncomputable def bundles (x : Slot) (bs : List Byte) (s : State) (t : Nat) : Bool :=
  let y := s.slot t
  let w := leNat (bs.take 4)
  let m := w / 4 % 128
  if !(onCore t && 1 ≤ m && m ≤ 0x29 && y.run == .active && y.fresh.isNone && y.mode == x.mode &&
      y.pc.toNat = x.pc.toNat + bs.length) then false else
  match decode bs, fetch s t with
  | .ok (i, _), .ok b _ =>
    let v := leNat (b.take 4)
    pairs x i &&
    (decode b).isOk && 0x40 ≤ v / 4 % 128 && v / 4 % 128 ≤ 0x5F && x.pc.toNat / 64 = (x.pc.toNat + bs.length + b.length - 1) / 64 &&
      !((pairWrites i w).any fun r => r != 0 && (pairReads v (leNat ((b.drop 4).take 8))).contains r)
  | _, _ => false

/-- A handler that has ended, at HEND or in an abort, leaves a slot for the processor's waiters (R232). -/
def afterHandler (s : State) (t : Nat) : State :=
  if onCore t || (s.slot t).run != .idle then s else settleHome (wakeProc s (agentOf t - 0x800))

/-- After an instruction, the blocks that waited for its slot's re-execution no longer do (R210), a processor's waiters are looked at when its
handler has ended (R232), and the slot may stand between the members of a bundle (R39). `x` is the slot before it and bs the bytes
fetched. -/
noncomputable def afterIssue (x : Slot) (bs : List Byte) (t : Nat) (o : Out) : Out :=
  match o with
  | .next s =>
    let s1 := afterHandler (reexecuted s t) t
    .next (if bundles x bs s1 t then s1.updSlot t fun y => { y with paired := true } else s1)
  | o => o

/-- A slot's next instruction begins: no member of a bundle or end of IWAIT stands before it any more. -/
def beginIssue (s : State) (t : Nat) : State :=
  let s0 := countStep { s with cur := t } t
  if (s0.slot t).paired || (s0.slot t).due then s0.updSlot t fun x => { x with paired := false, due := false } else s0

/-- A slot issues the instruction at its pc (R37): the fetch, then the instruction. -/
noncomputable def runSlot (s : State) (t : Nat) : Out :=
  let s0 := beginIssue s t
  match fetch s0 t with
  | .ok bs s1 => afterIssue (s0.slot t) bs t (runBytes bs s1)
  | .trap c v s1 => afterIssue (s0.slot t) [] t (trap c v s1)
  | .wait w s1 => afterIssue (s0.slot t) [] t (wait w s1)

/-- Whether an instruction of a slot ended in a fault that it is re-executed after (R21). -/
def faulted (s s1 : State) (t : Nat) : Bool :=
  !s1.deferred && (s.slot t).fresh.isNone && (s1.slot t).fresh.isSome && (s1.slot t).trPc = (s.slot t).pc

/-- An interrupt due at an instruction that faults stays pending, and the fault is taken (R22); one that ends IWAIT comes before any
instruction (R99). `o` takes the interrupt. -/
noncomputable def interruptOr (s : State) (t : Nat) (o : Out) : Out :=
  if !onCore t || (firstIntr (s.slot t).pend).isNone || !mayInterrupt (s.slot t) || !ready s t then o else
  match runSlot s t with
  | .next s1 => if faulted s s1 t then .next s1 else o
  | _ => o

/-! ## Effects that a port holds back (R201, R363) -/

/-- A step whose port had to wait does not take place; a replay counts from when its event was held (R201, R363). -/
def settled (s s1 : State) : State :=
  if !s1.deferred then s1 else
  match s1.heldAt with
  | none => s
  | some (k, p, strange) => s.updPart k fun x => { x with
      heldSince := if (look p x.heldSince).isSome then x.heldSince else put p s.time x.heldSince,
      stray := if strange && x.stray.isNone then some p else x.stray }

/-- The outcome of a step, with what a port holds back undone. -/
def settleOut (s : State) (o : Out) : Out :=
  match o with
  | .next s1 => .next (settled s s1)
  | o => o

/-- The outcome of a slot's issue: one that a port holds back does not take place, and the rotation goes on past the slot, so that the event
the port waits for can come from another (R102, R363). -/
def settleIssue (s : State) (t : Nat) (o : Out) : Out :=
  match o with
  | .next s1 => .next (if s1.deferred then { settled s s1 with cur := t } else s1)
  | o => o

/-! ## Waits that are over (R104) -/

/-- Whether what a slot waits for has come about, where no event of its own re-admits it (R104). -/
def waitEnded (s : State) (t : Nat) (w : Wait) : Bool :=
  let c := agentOf t
  let q := s.core c
  match w with
  | .line blk _ => tagOf s c blk != .busy && (reqFor q blk).isNone
  | .pageFull => (match s.partOf c with | some p => (s.part p).pageReqs.length < 64 | none => true)
  | .page tag _ _ => (match s.partOf c with | some p => !((s.part p).pageReqs.any fun r => r.tag = tag) | none => true)
  | .lsBusy => !lsBusy s c
  | .tlbsync => tlbisOver s t
  | .partDone => (match s.partOf c with | some p => !partRemotes s p && (s.slot t).remErr.isEmpty | none => true)
  | .puts => q.puts.isEmpty
  | .release => released s c
  | .order => ordered s c
  | .sfuParked => !parkedResult s t
  | .mailbox m _ => (s.mailbox m).notify != 0 && (s.mailbox m).waiters.head? = some t
  | .remotes => (s.slot t).ff = 0 && (s.slot t).remErr.isEmpty
  | .acks => (s.slot t).ff = 0
  | .spill => q.deque.length < 64
  | .home blk => !biasAway s (blk * 64)
  | .irq => !(s.slot t).pend.isEmpty
  | .wbLoad => q.wbld.isNone
  | .sfuFull => !(q.sfuq.any fun e => e.slot = slotOf t)
  | .rank r => rankSt (rankEntry s (jobOn s (agentOf t)) r) != 2
  | .inject => (s.slot t).ff < 64 && q.injq.length < 16
  | .receive _ => (takeable q (slotOf t)).isSome
  | .tag n => (match (s.slot t).tags[n] with | .pending _ _ => false | _ => true)
  | .rbind page => (look page s.frames).isNone
  | .result _ _ _ _ | .access | .vector | .host | .lsSplit _ | .codeflush _ _ _ _ | .deal | .pause _ | .barrier _ _
  | .tensor | .channel _ _ | .chanStop _ | .sfu => false

/-- Re-admit a slot whose wait is over. -/
def readmitSlot (t : Nat) (s : State) : Out :=
  match (s.slot t).run with
  | .waiting w =>
    if !waitEnded s t w then .next s else
    .next ((s.updCore (agentOf t) fun q => { q with rwaiters := q.rwaiters.erase (slotOf t) }).wake t)
  | _ => .next s

/-! ## The schedule of the model (log 3) -/

/-- The event that delivers message k (R211, R220). -/
def deliverMessage (s : State) (k : Nat) : State → Out :=
  match s.net[k]? with
  | none => fun s => .next s
  | some m =>
    match m.type with
    | 0 => execGets k | 1 => execGetx k | 2 => execUpg k | 3 => execPutx k | 4 => execPuts k | 5 => execPutp k | 6 => execAtom k
    | 7 => if bitOf m.w[2] 7 then execApndFill k else execApnd k
    | 8 => execArsv k | 9 => execTailq k
    | 10 => (match bits m.w[2] 1 0 with | 0 => execSealqSeal k | 1 => execSealqFree k | 2 => execReplicateNotice k | _ => execReplicaInvalidate k)
    | 11 => execRecall k | 12 => execInv k | 13 => execPush k | 16 => execDataS k | 17 => execDataX k | 18 => execAck k | 19 => execBusy k
    | 20 => execRetry k | 21 => execFail k | 22 => execWbData k | 23 => execInvAck k | 24 => execResult k
    | _ => execCustomMessage k

/-- The event that takes in a packet of this device, or tries again one that waits at its target (R372, R382). -/
def takePacket (p : Packet) : State → Out :=
  match p.kind with
  | 0 => execQueueMessage p | 1 => execRemoteLoad p | 2 => execRemoteStore p | 3 => execRemoteAtomic p | 4 => execValueReply p
  | 5 => execAcknowledgement p | 6 => execBulkWriteData p | 7 => execBulkReadRequest p | 8 => execBulkReadData p | 9 => execDropNotice p
  | 10 => execReservationRequest p | 11 => execReservationGrant p | 12 => execRefusal p | 13 => execFailureReport p
  | 16 => execPageReadRequest p | 17 => execPageExclusiveRequest p | 18 => execPageData p | 19 => execPageRecall p
  | 20 => execPageWriteBack p | 21 => execPageAcknowledgement p
  | _ => fun s => .next s

/-- Events of a slot that are tried at once. -/
noncomputable def slotEvents (t : Nat) : List (State → Out) :=
  [readmitSlot t, execMemoryAccessReply t, execVectorBlockDelivery t, execLsSplitWrite t, execCodeflushAcknowledgement t,
   execRemoteErrorTake t, (fun s => interruptOr s t (execInterruptTake t s)), execCxlIoCompletion t, execHandlerWatchdog t]

/-- Events of a core that are tried at once. -/
def coreEvents (s : State) (c : Nat) : List (State → Out) :=
  (List.range (s.core c).held.length).map (execDeferredRequestApply c) ++
  [execTensorOpComplete c false, execTensorOpComplete c true, execTensorOpStart c, execDistBlock c, execDistBurstComplete c,
   execSfuEntryComplete c, execDequeSpill c, execDequeRefill c, execRecordPop c, execStealSearch c, execCxlIoCompletion (threadOf c 0)] ++
  ([0, 1, 2, 3] : List (Fin 4)).flatMap fun n => [execChannelDelivery c n, execChannelFault c n, execChannelStopped c n]

/-- The partition events tried at once. -/
def partEvents (s : State) (p : Nat) : List (State → Out) :=
  [execLaunchSeed p, execPartitionNoWork p] ++
    (match (s.part p).swapTo with | some (inc, reason) => [execPartitionSwap p inc reason] | none => [])

/-- The cores that anything has happened on, and those of running partitions. -/
def liveCores (s : State) : List Nat :=
  (s.cores.map (·.1) ++ s.parts.flatMap fun (x : Nat × Part) => if x.2.running then partCores s x.1 else []).eraseDups

/-- What homes do by themselves goes on: takes, flips and pages, waiters whose entry is free, and lines of host memory that no access waits
for any more (R232, R391, R399, R400). -/
def homesGoOn (s : State) : State :=
  settleHome (releaseStale (s.procs.foldl (fun s (x : Nat × Proc) => if x.2.waiters.isEmpty then s else wakeProc s x.1) s))

/-- Events that are tried before any slot issues, in this order. -/
noncomputable def promptEvents (s : State) : List (State → Out) :=
  (List.range s.net.length).map (deliverMessage s) ++
  (s.slots.filter fun (x : Nat × Slot) => x.2.run != .idle || !x.2.pend.isEmpty).flatMap (fun (x : Nat × Slot) => slotEvents x.1) ++
  s.parts.flatMap (fun (x : Nat × Part) => partEvents s x.1) ++
  (liveCores s).flatMap (coreEvents s) ++
  (List.range s.transit.length).map execStealArrival ++
  (List.range s.barMsgs.length).map execBarrierArrival ++ (List.range s.barMsgs.length).map execBarrierRelease ++
  [0, 1, 2, 3].flatMap (fun d => [execUndealtShareDeal d, execRangeTransfer d]) ++
  (s.packets ++ s.atTarget ++ s.qmsgs.map (·.2)).map takePacket ++
  s.cores.flatMap (fun (q : Nat × Core) => (fun s => .next (sendInjected s q.1)) :: q.2.injq.map fun e => execQueueMessage (e.packet s)) ++
  s.procs.flatMap (fun (x : Nat × Proc) => x.2.copying.map fun page => execReplicaCopyComplete x.1 page) ++
  s.procs.map (fun (x : Nat × Proc) => execTraceRingCopy x.1) ++
  (s.cores.filter fun (q : Nat × Core) => !q.2.trace.entries.isEmpty).map (fun (q : Nat × Core) => execTraceRingCopy (corePort q.1)) ++
  s.clusters.flatMap (fun (k : Nat × Cluster) => [execTlbiCompletion k.1, execSwapFlush k.1, execSwapExchange k.1, execClusterWake k.1]) ++
  commandBoxes.map (fun m s => .next (rejectEntry s m)) ++ [execAttestRequest, fun s => .next (homesGoOn s)]

/-- Whether a slot waits for a time (R148). -/
def Slot.pauses (x : Slot) : Bool := match x.run with | .waiting (.pause _) => true | _ => false

/-- Events whose time may lie ahead. -/
def timedEvents (s : State) : List (State → Out) :=
  (s.slots.filter fun (x : Nat × Slot) => x.2.pauses).map (fun (x : Nat × Slot) => execPauseExpiry x.1) ++
  s.cores.flatMap (fun (q : Nat × Core) => q.2.reqs.map fun (r : Nat × Req) => execRetryBackoffExpiry q.1 r.2.msg.blk) ++
  (List.range s.remOps.length).flatMap (fun k => [execRefusalBackoffResend k, execReservedResend k, execFabricResendTimeout k]) ++
  s.parts.flatMap (fun (x : Nat × Part) => [execBudgetExhausted x.1, execPeriodStart x.1, execTimeSliceExpiry x.1] ++
    (x.2.stray.toList ++ x.2.heldSince.map fun (y : Nat × Nat) => y.1).map fun port => execReplayDivergence x.1 port)

/-- The first event of a list that changes the state in a way that is wanted. -/
def firstChange (s : State) (l : List (State → Out)) (wanted : State → Bool) : Option State :=
  l.findSome? fun f => match f s with
    | .next s1 => let s2 := settled s s1; if s2 != s && wanted s2 then some s2 else none
    | _ => none

/-- The next ready slot after the current one, in rotation (R102). -/
def nextReady (s : State) : Option Nat :=
  let l := (s.slots.map (·.1)).filter (ready s)
  (l.find? fun t => s.cur < t).orElse fun _ => l.head?

/-- What happens when no input says what comes next: an event whose time has come, else the next ready slot issues, else an event
whose time lies ahead, else time passes. -/
noncomputable def byDefault (s : State) : Out :=
  if s.boot.st != .ready then .next s else
  match firstChange s (promptEvents s) fun _ => true with
  | some s1 => .next s1
  | none =>
    match firstChange s (timedEvents s) fun s1 => s1.time = s.time with
    | some s1 => .next s1
    | none =>
      match nextReady s with
      | some t => settleIssue s t (runSlot s t)
      | none =>
        match firstChange s (timedEvents s) fun _ => true with
        | some s1 => .next s1
        | none => .next s

/-! ## A step -/

/-- What an event brings about (R22). -/
noncomputable def runEvent (i : Instr) (s : State) : Out :=
  match i with
  | .interruptTake t => interruptOr s t (exec i s)
  | i => exec i s

/-- Whether an event starts the device again (R428, R429). -/
def Input.starts : Input → Bool
  | .event (.powerOn _) | .event (.fundamentalReset _) | .event (.hotReset _) | .event (.bootReset _) => true
  | .event _ | .issue _ | .biRspI _ _ | .badEntry _ => false

/-- Whether the device takes a step: an error or its temperature has not stopped it, and it has power, or it is being started
(R434 to R436). -/
def steps (s : State) : Bool := !(s.halted || s.boot.st == .off) || (match s.inputs with | i :: _ => i.starts | [] => false)

/-- Time passes while a step is taken (log 6). -/
def passTime (s : State) : State := { s with time := s.time + Config.elapsed s.free, free := s.free + 1 }

/-- The first input is used up. -/
def dropInput (s : State) : State := { s with inputs := s.inputs.drop 1 }

/-- One step of the machine. -/
noncomputable def advance (s : State) : Out :=
  if !steps s then .fault .deviceStopped else
  let s1 := dropInput (passTime s)
  match s.inputs with
  | .issue t :: _ => if ready s1 t then settleIssue s1 t (runSlot s1 t) else .next s1
  | .event i :: _ => settleOut s1 (runEvent i s1)
  | .biRspI pa held :: _ => settleOut s1 (.next (if linkUp s1 then settleHome (hostAnswered s1 pa held) else s1))
  | .badEntry m :: _ => settleOut s1 (.next (rejectEntry s1 m))
  | [] => byDefault s1

/-! ## An instruction placed to be run next (log 4) -/

/-- The partition under which a placed instruction runs on core 0. -/
def placedPart : Part := { cfg := some { cores := 1 }, running := true }

/-- A device that runs: started, with nothing that stops it. -/
def started (s : State) : State :=
  { s with boot := { s.boot with st := .ready }, halted := false, deferred := false, heldAt := none }

/-- Place the bytes of an instruction at offset 0 of core 0's scratchpad, and let slot 0 of core 0 issue next, in U mode, in a
partition of cluster 0 that runs alone. -/
def placeOnCore (s : State) (bs : List Byte) : State :=
  let s1 := started { s with
    parts := put 0 placedPart s.parts, cores := put 0 { ls := Memory.wrBytes [] 0 bs } s.cores,
    clusters := put 0 { part := some 0 } s.clusters, slots := put 0 { run := .active, pc := 0xFE00000000000000 } s.slots }
  { s1 with cur := 0, inputs := [.issue 0] }

/-- Place the bytes of an instruction at 0x8000 of the host protocol processor's handler store, and let slot 4 issue it next in a handler
invocation (R221). -/
def placeInHandler (s : State) (bs : List Byte) : State :=
  let t := threadOf (procAgent 72) 4
  let h : HCtx := { msg := { src := 0, dst := procAgent 72, w := Vector.replicate 8 0 }, region := 0, proto := 16, entryAddr := 0 }
  let s1 := started { s with
    procs := put 72 { hstore := Memory.wrBytes [] 0x8000 bs } s.procs,
    slots := put t { run := .active, mode := .h, pc := 0x8000, handler := some h } s.slots }
  { s1 with cur := t, inputs := [.issue t] }

/-- Place the bytes of an instruction where the next step fetches them: in a handler where only handlers decode its major (R35). -/
def placeBytes (s : State) (bs : List Byte) : State :=
  let m := leNat (bs.take 4) / 4 % 128
  if 0x78 ≤ m && m ≤ 0x7B then placeInHandler s bs else placeOnCore s bs

end Sys2Proof.Machine
end

