-- ==== Sys2Proof/Machine/Step.lean ====
section
/-! DEFINITION. The step function, and an instruction placed where the next step fetches it. What they do stands in
Sys2Proof/Machine/Schedule.lean. -/

namespace Sys2Proof.Machine

/-- One step of the machine: a slot issues an instruction, or an event of the part occurs. -/
noncomputable def step (s : State) : Host.Outcome State Fault Refusal := advance s

/-- A state whose next step fetches and runs exactly the instruction whose bits are w, numbered as the opcode table numbers them
(log 4). -/
def State.withFetchWord (s : State) (nbits w : Nat) : State := placeBytes s (tableBytes nbits w)

end Sys2Proof.Machine
end

