-- ==== Sys2Proof/Safety.lean ====
section
/-! DEFINITION. What claims about the machine are stated in: the shapes of an instruction's effect, what an instruction leaves alone,
runs of the machine, and properties of a state that every step keeps. -/

namespace Sys2Proof.Machine

/-! ## Shapes of an effect -/

/-- Instruction i of n bytes writes v to scalar register d, and that and the move to the next instruction are its whole effect. -/
def Gives (i : Instr) (s : State) (n : Nat) (d : Reg) (v : Word) : Prop := exec i s = .next ((s.wr d v).past n)

/-- A register form of 4 bytes and a literal form of 12 bytes of one operation (R73). -/
def BothForms (r : Reg → Reg → Reg → Instr) (l : Reg → Reg → Word → Instr) (f : Word → Word → Word) : Prop :=
  ∀ (s : State) (d a b : Reg) (x : Word),
    Gives (r d a b) s 4 d (f (s.rd a) (s.rd b)) ∧ Gives (l d a x) s 12 d (f (s.rd a) x)

/-- A branch of n bytes that goes to pc + 4 * off when a condition holds and else to the next instruction (R90, R91). -/
def Branches (i : Instr) (s : State) (n : Nat) (taken : Bool) (off : Word) : Prop :=
  exec i s = .next (s.updMe fun x => { x with pc := if taken then x.pc + off * 4 else x.pc + BitVec.ofNat 64 n, fresh := none, vprog := none })

/-- Instruction i of n bytes writes the code of r to scalar register d, raises the flags of r in fp.flags, and does no more (R85). -/
def GivesFloat (i : Instr) (s : State) (n : Nat) (d : Reg) (r : Rnd) : Prop :=
  exec i s = .next (((s.flag r.flags).wr d (BitVec.ofNat 64 r.code)).past n)

/-! ## Rounding -/

/-- Whether a magnitude that lies between two neighbours goes to the upper one, by fp.mode.rm, its sign, the parity of the lower neighbour's
encoding and its place against the middle of the two (R64). -/
def roundsAway (rm : Rm) (neg odd : Bool) (half : Ordering) : Bool :=
  match rm.toNat with
  | 0 => half = .gt || (half = .eq && odd)
  | 1 => false
  | 2 => neg
  | 3 => !neg
  | _ => half ≠ .lt

/-- r delivers the exact non-zero value x in a format (R64 to R66): the value itself where it is one of the format's; of two neighbouring
encodings the one that the mode names, with nx and, below the normal numbers of a binary format, uf; beyond the greatest finite value what
R65 gives, with nx and, where the value overflows, of; and in T8 below the least value that value, with uf and nx. -/
def Delivers (f : Fmt) (rm : Rm) (x : Ex) (r : Rnd) : Prop :=
  let code (c : Nat) : Nat := f.signed x.neg c
  let small : FFlags := let q0 := x.e + (bitLen x.m : Int) - ((f.frac + 1 : Nat) : Int)
    if f ≠ .t8 ∧ cmpMag ⟨x.neg, (quantise rm x q0).1, q0, false⟩ (2 ^ f.frac) f.qmin = .lt then Fl.uf else 0
  ∀ c m e, c ≤ f.maxCode → unpack f c = .fin false m e →
    (cmpMag x m e = .eq → r = ⟨code c, 0⟩) ∧
    (∀ m' e', c < f.maxCode → unpack f (c + 1) = .fin false m' e' → cmpMag x m e = .gt → cmpMag x m' e' = .lt → (f = .t8 → c ≠ 0) →
      let lo := min e e'; let half := cmpMag x (m * 2 ^ (e - lo).toNat + m' * 2 ^ (e' - lo).toNat) (lo - 1)
      r = ⟨code (if roundsAway rm x.neg (c % 2 = 1) half then c + 1 else c), Fl.nx ||| small⟩) ∧
    (f = .t8 → c = 1 → cmpMag x m e = .lt → r = ⟨code 1, Fl.uf ||| Fl.nx⟩) ∧
    (c = f.maxCode → cmpMag x m e = .gt →
      let beyond : Bool := f = .t8 || f = .f6a || f = .f6b || f = .f4 || cmpMag x (m + 1) e ≠ .lt ||
        roundsAway rm x.neg (c % 2 = 1) (cmpMag x (2 * m + 1) (e - 1))
      let toInf : Bool := f.ieee && (rm = 0 || rm = 4 || (rm = 2 && x.neg) || (rm = 3 && !x.neg))
      r = if beyond then ⟨code (if toInf then f.infCode else c), Fl.of ||| Fl.nx⟩ else ⟨code c, Fl.nx⟩)

/-! ## What an instruction leaves alone -/

/-- Nothing but the current slot has changed: no byte of memory, no other slot, no core, no cluster, nothing else of the machine. -/
def OnlyThisSlot (s t : State) : Prop :=
  t = { s with slots := t.slots } ∧ (∀ u, u ≠ s.cur → t.slot u = s.slot u) ∧ ∀ a, t.mem.rd a = s.mem.rd a

/-- Nothing but scalar register d of the current slot and its program counter has changed; the marks of a first instruction of a trap
handler and of an access in progress are cleared. -/
def OnlyScalar (s t : State) (d : Reg) : Prop :=
  OnlyThisSlot s t ∧ (∀ r, r ≠ d → t.rd r = s.rd r) ∧
    t.me = { s.me with s := t.me.s, pc := t.me.pc, fresh := none, vprog := none, got := none }

/-- Nothing but scalar register d, fp.flags, sr.state and the program counter of the current slot has changed. -/
def OnlyFloat (s t : State) (d : Reg) : Prop :=
  OnlyThisSlot s t ∧ (∀ r, r ≠ d → t.rd r = s.rd r) ∧
    t.me = { s.me with s := t.me.s, pc := t.me.pc, fpFlags := t.me.fpFlags, srState := t.me.srState, fresh := none, vprog := none, got := none }

/-- Nothing but vector register d, fp.flags, sr.state and the program counter of the current slot has changed. -/
def OnlyVector (s t : State) (d : Reg) : Prop :=
  OnlyThisSlot s t ∧ (∀ r, r ≠ d → t.rdv r = s.rdv r) ∧
    t.me = { s.me with v := t.me.v, pc := t.me.pc, fpFlags := t.me.fpFlags, srState := t.me.srState, fresh := none, vprog := none, got := none }

/-- The vector register a vector instruction of majors 0x40 to 0x52 writes, where it writes no scalar register (R111 to R123). -/
def vectorDest : Instr → Option Reg
  | .vadd _ _ d _ _ | .vsub _ _ d _ _ | .vmul _ _ d _ _ | .vmulh _ _ d _ _ | .vmin _ _ d _ _ | .vmax _ _ d _ _ | .vand _ _ d _ _
  | .vsll _ _ d _ _ | .vfma _ _ d _ _ | .vsel _ _ d _ _ | .vdot _ _ d _ _ | .vperm _ _ d _ _ => some d
  | .vaddX _ _ d _ _ _ _ _ | .vsubX _ _ d _ _ _ _ _ | .vmulhX _ _ d _ _ _ _ | .vminX _ _ d _ _ _ _ | .vmaxX _ _ d _ _ _ _ => some d
  | .vmulX _ _ d _ _ _ | .vandX _ _ d _ _ _ | .vor _ _ d _ _ _ | .vxor _ _ d _ _ _ | .vandn _ _ d _ _ _ | .vsllX _ _ d _ _ _
  | .vsrl _ _ d _ _ _ | .vsra _ _ d _ _ _ | .vselX _ _ d _ _ _ | .vpermX _ _ d _ _ _ => some d
  | .vslli _ _ d _ _ | .vsrli _ _ d _ _ | .vsrai _ _ d _ _ | .vslideh _ _ d _ _ | .vslidel _ _ d _ _ | .vbcastl _ _ d _ _ => some d
  | .vfmaX _ _ d _ _ _ _ | .vfnma _ _ d _ _ _ _ | .vdotX _ _ d _ _ _ _ => some d
  | .vneg _ _ d _ | .vnegX _ _ d _ _ | .vabs _ _ d _ _ | .vcvt _ _ d _ | .vcvtX _ _ d _ _ _ _ _ _ | .vrev _ _ d _ => some d
  | .vbcast _ _ d | .vbcastX _ _ d _ | .vindex _ _ d | .vins _ d _ _ => some d
  | _ => none

/-! ## Traps and control registers -/

/-- The slot's state after a synchronous trap on a compute core (R20): nothing else of the machine changes. -/
def Traps (i : Instr) (s : State) (cause : Cause) (val resume : Word) : Prop :=
  ∃ t, exec i s = .next t ∧ OnlyThisSlot s t ∧
    t.me = { s.me with
      trCause := cause.setWidth 9, trVal := val, trPc := resume,
      trStatus := (if s.me.mode = .s then 1 else 0) ||| (if s.me.trStatus.getLsbD 2 then 2 else 0),
      mode := .s, pc := (s.core s.myCore).trVector.setWidth 64 <<< 2, run := .active, fresh := some cause, vprog := none,
      got := none, redo := none, paired := false, due := false, lv := if cause = .leaseViolation then some (resume, val) else s.me.lv }

/-- A trap of slot t can be entered: the slot is a core's, the handler lies in that core's own scratchpad (R20), and no byte of its first
instruction is poisoned (R434). -/
def Enterable (s : State) (t : Nat) : Prop :=
  let v : Word := (s.core (agentOf t)).trVector.setWidth 64 <<< 2
  onCore t = true ∧ spaceOf v = some .spd ∧ fld v.toNat 45 11 = agentOf t ∧ offsetOf v + 20 ≤ s.spSize (agentOf t) ∧
    poisonAt s (lsBlk (agentOf t)) (s.spOffset (agentOf t) (offsetOf v)) 20 = none

/-- A trap of the current slot can be entered, and its instruction is not itself the first of a handler (R335). -/
def CanTrap (s : State) : Prop := Enterable s s.cur ∧ s.me.fresh = none

/-- What control register n holds after a write of `new` over `old` (R15); `clear` says that the source itself has bit 0 set under a
form that clears a W1C field (R95). -/
def crStored (n : Nat) (old new : Word) (clear : Bool) : Word :=
  match n with
  | 0x000 => if 5 ≤ new.toNat % 8 then (new &&& 8) ||| (old &&& 7) else new &&& 15
  | 0x001 => new &&& 31
  | 0x002 => if new &&& 0xFFFFFFFF = 0 then 1 else new &&& 0xFFFFFFFF
  | 0x003 => if clear then 0 else old
  | 0x800 => new &&& 0x1FF
  | 0x803 => new &&& 7
  | 0x804 => new &&& ~~~3
  | _ => new

/-! ## Destinations -/

/-- The scalar register an integer instruction of majors 0x01 to 0x0C writes (R74 to R84). -/
def integerDest : Instr → Option Reg
  | .add d _ _ | .sub d _ _ | .and d _ _ | .or d _ _ | .xor d _ _ | .andn d _ _ | .sll d _ _ | .srl d _ _ | .sra d _ _ | .ror d _ _
  | .slt d _ _ | .sltu d _ _ | .seq d _ _ | .min d _ _ | .max d _ _ | .minu d _ _ | .maxu d _ _ | .mul d _ _ | .mulh d _ _
  | .mulhu d _ _ | .div d _ _ | .divu d _ _ | .rem d _ _ | .remu d _ _ | .bset d _ _ | .bclr d _ _ | .binv d _ _ | .bext d _ _ => some d
  | .addLit d _ _ | .subLit d _ _ | .andLit d _ _ | .orLit d _ _ | .xorLit d _ _ | .andnLit d _ _ | .sllLit d _ _ | .srlLit d _ _
  | .sraLit d _ _ | .rorLit d _ _ | .sltLit d _ _ | .sltuLit d _ _ | .seqLit d _ _ | .minLit d _ _ | .maxLit d _ _ | .minuLit d _ _
  | .maxuLit d _ _ | .mulLit d _ _ | .mulhLit d _ _ | .mulhuLit d _ _ | .divLit d _ _ | .divuLit d _ _ | .remLit d _ _
  | .remuLit d _ _ | .bsetLit d _ _ | .bclrLit d _ _ | .binvLit d _ _ | .bextLit d _ _ => some d
  | .addi d _ _ | .andi d _ _ | .slli d _ _ | .srli d _ _ | .srai d _ _ | .rori d _ _ => some d
  | .clz d _ | .ctz d _ | .popc d _ | .brev d _ | .bswap d _ | .lowb d _ | .clrlow d _ | .maskn d _ => some d
  | .extu d _ _ _ | .exts d _ _ _ | .fins d _ _ _ | .hdrGet d _ _ _ | .hdrGets d _ _ _ | .hdrMatch d _ _ _ _ => some d
  | .hdrSet a _ pos _ => some (reg (a.val + pos.val / 64))
  | .li d _ | .liLit d _ | .la d _ | .laLit d _ | .selnz d _ _ _ | .selz d _ _ _ | .madd d _ _ _ | .msub d _ _ _ => some d
  | _ => none

/-- The scalar register a floating-point instruction of majors 0x10 to 0x13 writes (R86 to R89). -/
def floatDest : Instr → Option Reg
  | .fadd _ d _ _ | .fsub _ d _ _ | .fmul _ d _ _ | .fdiv _ d _ _ | .fmin _ d _ _ | .fmax _ d _ _ | .feq _ d _ _ | .flt _ d _ _
  | .fle _ d _ _ => some d
  | .faddLit _ d _ _ | .fsubLit _ d _ _ | .fmulLit _ d _ _ | .fdivLit _ d _ _ | .fminLit _ d _ _ | .fmaxLit _ d _ _ => some d
  | .fsqrt _ d _ | .fneg _ d _ | .fabs _ d _ | .fclass _ d _ | .fma _ d _ _ _ | .fnma _ d _ _ _ | .fcvt _ _ d _ => some d
  | _ => none

/-! ## Memory -/

/-- n bytes from a pointer lie in the current core's own scratchpad, and no write of ls.split is in progress (R96, R159). -/
def InScratchpad (s : State) (ea : Word) (n : Nat) : Prop :=
  onCore s.cur = true ∧ spaceOf ea = some .spd ∧ fld ea.toNat 45 11 = s.myCore ∧ offsetOf ea + n ≤ s.spSize s.myCore ∧
    lsBusy s s.myCore = false

/-- The local store of the current core. -/
def State.myLs (s : State) : Memory := (s.core s.myCore).ls

/-- Where a scratchpad pointer of the current core points in its local store. -/
def State.lsPlace (s : State) (ea : Word) : Nat := s.spOffset s.myCore (offsetOf ea)

/-- n bytes from a pointer lie in the current core's own scratchpad, and none of them is poisoned: a read delivers them (R159, R434). -/
def ReadsScratchpad (s : State) (ea : Word) (n : Nat) : Prop :=
  InScratchpad s ea n ∧ poisonAt s (lsBlk s.myCore) (s.lsPlace ea) n = none

/-- A store of the current slot need not wait: it is no release, or the core has nothing left to perform (R197, R206). -/
def NothingToRelease (s : State) (q : MemQual) : Prop :=
  (q.ord = .rel ∨ q.ord = .sc ∨ s.me.relFence.isSome = true) → released s s.myCore = true

/-- What a cell of w bits holds after an atomic operation with operand x (R174, R176). -/
def newCell (w : Nat) (op : AtomOp) (x : Word) (old : Nat) : Nat :=
  let a := BitVec.ofNat w old
  let b := x.setWidth w
  (match op with
    | .swap => b | .add => a + b | .and => a &&& b | .or => a ||| b | .xor => a ^^^ b
    | .min => if b.toInt < a.toInt then b else a
    | .max => if a.toInt < b.toInt then b else a
    | .fadd => BitVec.ofNat w (fAdd .f32 0 old x.toNat).code).toNat

/-- An atomic operation of n instruction bytes on k aligned bytes of the scratchpad: the cell holds f of its old value, register d the old
value zero-extended, and the slot leaves the rotation until the reply (R104, R176). Nothing else changes. -/
def AtomicInScratchpad (i : Instr) (s : State) (n : Nat) (d : Reg) (ea : Word) (q : MemQual) (k : Nat) (f : Nat → Nat) : Prop :=
  ReadsScratchpad s ea k → ea.toNat % k = 0 → NothingToRelease s q →
    let old := s.myLs.le (s.lsPlace ea) k
    exec i s = .next ((((s.updCore s.myCore fun c => { c with ls := c.ls.wrBytes (s.lsPlace ea) (leBytes k (f old)) }).wr d
      (BitVec.ofNat 64 old)).past n).updMe fun x => { x with run := .waiting .access })

/-- A core and the others of its cluster hold no line and wait for no put, and the cluster's L2 holds nothing written. -/
def CachesEmpty (s : State) (c : Nat) : Prop :=
  (s.core c).lines = [] ∧ (s.core c).puts = [] ∧ (s.cluster (clusterOf c)).l2dirty = [] ∧
    ∀ o ∈ coresOf (clusterOf c), (s.core o).lines = [] ∧ (s.core o).puts = []

/-- An instruction of n bytes asks a home for a result to go to register d: it posts the message m, its slot leaves the rotation until the
RESULT comes, and it changes no register and no byte of memory (R176, R209, R260). -/
def Asks (i : Instr) (s : State) (n : Nat) (d : Reg) (pa : Nat) (ea : Word) (m : Msg) : Prop :=
  ∃ t, exec i s = .next t ∧ t.net = s.net ++ [m] ∧ t.mem = s.mem ∧ (∀ u, u ≠ s.cur → t.slot u = s.slot u) ∧
    t.me = { s.me with run := .waiting (.result (pa / 64) d n ea) } ∧
    look (128 + slotOf s.cur) (t.core s.myCore).reqs = some { msg := m }

/-- The request message of the current slot for an operation at the home of an address (R215). -/
def State.ask (s : State) (dst type pa : Nat) (w2 w3 w4 : Word) (flit : Option Block) : Msg :=
  mkMsg s s.myCore (slotOf s.cur) dst type (128 + slotOf s.cur) pa w2 w3 w4 flit none

/-- Nothing of the current core is unsent, and no posted write to the host is outstanding (R197, R206). -/
def AllReleased (s : State) : Prop := released s s.myCore = true ∧ s.posted = 0

/-! ## Vectors -/

/-- Lane j is active under mask register m: s0 means all lanes (R108). -/
def Active (s : State) (m : Reg) (j : Nat) : Prop := m = 0 ∨ (s.rd m).getLsbD j = true

/-- Instruction i of n bytes gives every active lane of vector register d the low bits of its lane result, leaves the inactive lanes as they
are, raises the flags of the active lanes and of no other, and does no more (R108, R110). -/
def GivesLanes (i : Instr) (s : State) (n : Nat) (ty : ElType) (m d : Reg) (f : Nat → Nat × FFlags) : Prop :=
  ∃ (b : Block) (fl : FFlags), exec i s = .next (((s.flag fl).wrv d b).past n) ∧
    (∀ j, j < ty.lanes → (Active s m j → lane ty.width b j = (f j).1 % 2 ^ ty.width) ∧
      (¬ Active s m j → lane ty.width b j = lane ty.width (s.rdv d) j)) ∧
    ∀ k, fl.getLsbD k = true ↔ ∃ j, j < ty.lanes ∧ Active s m j ∧ (f j).2.getLsbD k = true

/-- Instruction i of n bytes gives every lane of vector register d a value, and does no more. -/
def GivesVector (i : Instr) (s : State) (n : Nat) (ty : ElType) (d : Reg) (f : Nat → Nat) : Prop :=
  ∃ b : Block, exec i s = .next ((s.wrv d b).past n) ∧ ∀ j, j < ty.lanes → lane ty.width b j = f j % 2 ^ ty.width

/-- Instruction i of n bytes writes a mask to scalar register d: bit j is set where lane j is active and satisfies p; the flags of the active
lanes are raised, and no more (R117). -/
def GivesMask (i : Instr) (s : State) (n : Nat) (ty : ElType) (m d : Reg) (p : Nat → Prop) (g : Nat → FFlags) : Prop :=
  ∃ (v : Word) (fl : FFlags), exec i s = .next (((s.flag fl).wr d v).past n) ∧
    (∀ j, v.getLsbD j = true ↔ j < ty.lanes ∧ Active s m j ∧ p j) ∧
    ∀ k, fl.getLsbD k = true ↔ ∃ j, j < ty.lanes ∧ Active s m j ∧ (g j).getLsbD k = true

/-- An integer lane as a number (R110). -/
def laneValue (un : Bool) (w x : Nat) : Int := if un then (x : Int) else (BitVec.ofNat w x).toInt

/-- An integer as a lane: modulo 2^w, or clamped to the lane's range when it saturates (R110, R111). -/
def laneOf (un sat : Bool) (w : Nat) (x : Int) : Nat :=
  let lo : Int := if un then 0 else -2 ^ (w - 1)
  let hi : Int := if un then 2 ^ w - 1 else 2 ^ (w - 1) - 1
  ((if sat then max lo (min hi x) else x) % 2 ^ w).toNat

/-! ## Tensor operands -/

/-- The operands of MM, MC and MC.ND pass the checks at issue (R276, R280): no reserved bit, A in the core's own scratchpad and B in the weight
buffer, equal inner extents, 32 rows of each. -/
def ProductOperands (s : State) (da db : Block) : Prop :=
  tdReserved da = false ∧ tdReserved db = false ∧ tdWb da = false ∧ tdWb db = true ∧ 0 < tdE da 0 ∧ tdE db 0 = tdE da 0 ∧
    32 ≤ tdE da 1 ∧ 32 ≤ tdE db 1 ∧ ((tdTf db).comp = true → tdE da 0 % 64 = 0) ∧
    InScratchpad s (tdBase da) 1 ∧ (∀ r ∈ rowsTo da 32, InScratchpad s r (rowBytes (tdTf da) (tdE da 0))) ∧
    ((tdTf da).scaled = true → InScratchpad s (tdSbase da) (planeBytes da 32)) ∧
    (∀ r ∈ rowsTo db 32, r.toNat + rowBytes (tdTf db) (tdE db 0) ≤ s.wbSize s.myCore) ∧
    ((tdTf db).scaled = true → (tdSbase db).toNat + planeBytes db 32 ≤ s.wbSize s.myCore)

/-- Two descriptors have the same four extents, none of them zero, and a compressed row is whole chunks (code 3 of R276). -/
def SameExtents (da db : Block) : Prop :=
  (∀ i, i < 4 → tdE da i = tdE db i ∧ tdE da i ≠ 0) ∧ ((tdTf da).comp = true → tdE da 0 % 64 = 0)

/-! ## The fabric -/

/-- A rank operand resolves at once to a device and a partition (R372), the device can be reached, and the number of its operations stays
below the bound (R374). -/
def RankReady (s : State) (r : Word) : Prop :=
  let e := rankEntry s (jobOn s s.myCore) r.toNat
  r.toNat < 4096 ∧ rankSt e = 1 ∧ reachable s (rankDev e) = true ∧ outstanding s (rankDev e) false < 2 ^ 15

/-- Between two states this device has sent one operation o of the current slot to the partition of a rank, under the next number of its pair
of devices: each packet waits at the device itself, or has left by a port that leads to its device (R368, R372, R374), but for a droppable one,
which may have been discarded at an output with too little room (R371). -/
def Sends (s t : State) (r : Word) (o : RemOp) : Prop :=
  let e := rankEntry s (jobOn s s.myCore) r.toNat
  t.remOps = s.remOps ++ [o] ∧ o.dst = rankDev e ∧ o.part = rankPart e ∧ o.thread = some s.cur ∧ o.sent = true ∧ o.reply = false ∧
    o.seq = (look (2 * rankDev e) s.nextSeq).getD 0 ∧
    ∀ p ∈ o.packets, p.src = s.devNum ∧ p.dst = rankDev e ∧ p.part = rankPart e ∧ p.reply = false ∧ p.seq = o.seq ∧
      (if rankDev e = s.devNum then p ∈ t.packets else p.drop = false → ∃ port ∈ portsTo s (rankDev e), (port, p) ∈ t.sent)

/-- A packet of another device, of a kind, arrives at this one while its links are up, and its answer can leave (R428). -/
def FromAfar (s : State) (p : Packet) (kind : Nat) : Prop :=
  linkUp s = true ∧ p.kind = kind ∧ p.dst = s.devNum ∧ p.src ≠ s.devNum ∧ portsTo s p.src ≠ [] ∧ s.atTarget.contains p = false

/-- The operation of a packet is complete, and its answer, of a kind and with its words, is on its way under the operation's number and is kept
for a packet that comes again (R374, R375). -/
def Answers (s u : State) (p : Packet) (kind : Nat) (words : List Word) : Prop :=
  ∃ a : Packet, a.kind = kind ∧ a.words = words ∧ a.src = s.devNum ∧ a.dst = p.src ∧ a.reply = true ∧ a.seq = p.seq ∧
    (∃ port ∈ portsTo s p.src, u.sent = s.sent ++ [(port, a)]) ∧ ∃ w ∈ u.windows, w.dev = p.src ∧ w.lane = p.reply ∧ (p.seq, a) ∈ w.done

/-- A packet of another device is taken up, and an acknowledgement goes back under its number (R374, R375). -/
def TakenUp (s u : State) (p : Packet) : Prop :=
  ∃ a : Packet, a.kind = 5 ∧ a.dst = p.src ∧ a.reply = true ∧ a.seq = p.seq ∧ ∃ port ∈ portsTo s p.src, (port, a) ∈ u.sent

/-- A page message, of a kind and with its words and its blocks, has left for a device (R391). -/
def PageSent (s u : State) (dev kind : Nat) (words : List Word) (flits : List Block) : Prop :=
  ∃ q : Packet, q.kind = kind ∧ q.src = s.devNum ∧ q.dst = dev ∧ q.words = words ∧ q.flits = flits ∧ ∃ port ∈ portsTo s dev, (port, q) ∈ u.sent

/-- One page is bound, nothing else goes on at the homes, no line of the page is held and nobody waits for it; a page message of another device is new
here, and messages to that device can leave (R374, R391). -/
def PageAtRest (s : State) (p : Packet) (kind page : Nat) (f : Frame) : Prop :=
  FromAfar s p kind ∧ seen s p = .fresh ∧ outstanding s p.src false + 2 < 2 ^ 15 ∧ s.frames = [(page, f)] ∧ s.takes = [] ∧ s.hostOps = [] ∧ heldLines s page = [] ∧
    pageQuiet s page = true ∧ (s.proc (pageProc s page)).waiters = [] ∧ f.failed = false ∧ f.unbind = false

/-- Exactly one page is bound after an event. -/
def OnlyFrame (u : State) (page : Nat) (f : Frame) : Prop := u.frames = [(page, f)]

/-- A direct block of this device's memory that no region covers and no replay or record watches: a write at its home changes memory and
nothing else that a program can read. -/
def PlainHome (s : State) (pa core : Nat) : Prop :=
  (∃ die, place pa = .hbm die) ∧ s.regionOf pa = none ∧ ringOn s (s.homeOf pa) = false ∧
    ∀ k, s.partOf core = some k → (s.part k).mode ≠ .replay

/-! ## Homes -/

/-- No port record or replay watches a processor (R201, R362, R363). -/
def Unwatched (s : State) (p : Nat) : Prop := ringOn s p = false ∧ ∀ c k, s.partOf c = some k → (s.part k).mode ≠ .replay

/-- Nothing that a home does by itself is in progress: no line is being taken, no page flips, no frame is bound (R391, R400, R404). -/
def HomesQuiet (s : State) : Prop := s.takes = [] ∧ s.hostOps = [] ∧ s.frames = []

/-- Message k is next for protocol processor p (R211, R221), no combined answer. -/
def ReachesHome (s : State) (k p : Nat) (m : Msg) : Prop := s.deliverable k = some m ∧ m.dst = 0x800 + p ∧ m.mc = none

/-- A message of a valid region reaches its home: no handler runs for its entry, and nobody waits there (R221, R231). -/
def OpenAtItsHome (s : State) (k p idx : Nat) (rg : BitVec 256) (m : Msg) : Prop :=
  ReachesHome s k p m ∧ HomesQuiet s ∧ s.regionOf m.addr = some (idx, rg) ∧ rgFail rg = false ∧ homeIn rg m.addr = p ∧ p < 48 ∧
    (s.proc p).waiters = [] ∧ (∀ i, i < 16 → (s.slot (threadOf (0x800 + p) i)).handler = none) ∧ Unwatched s p

/-- A message of a valid region reaches its home, and no transient step stands in its way either (R231). -/
def AtItsHome (s : State) (k p idx : Nat) (rg : BitVec 256) (m : Msg) : Prop :=
  OpenAtItsHome s k p idx rg m ∧ deTr (s.entry (entryAddr rg m.addr)) = false

/-- A directory entry in state 0: nobody holds the block, and nothing is open (R219, R233). -/
def Unheld (e : De) : Prop := deSt e = 0 ∧ deOv e = false ∧ deShared e = false

/-- After an event the entry of a block at address ea is e, written over the memory m, and the messages are those of n. -/
def Leaves (u : State) (m n : State) (ea : Nat) (e : De) : Prop := u.mem = (m.setEntry ea e).mem ∧ u.net = n.net

/-- The invocation that runs in the current slot, which is a protocol processor's (R221, R235). -/
def Running (s : State) (h : HCtx) : Prop := onCore s.cur = false ∧ s.me.handler = some h

/-! ## Commands of the host -/

/-- The entry of a command of Matins: what its word 0 says, its type, and the operand words whose place the spec gives (R412). -/
def cmdEntry : Instr → Option (Cmd × Nat × List Word)
  | .partCfg c _ => some (c, 0x01, []) | .partStart c => some (c, 0x02, []) | .partStop c => some (c, 0x03, [])
  | .regionBind c _ _ => some (c, 0x04, []) | .regionUnbind c _ => some (c, 0x05, [])
  | .imageLoad c addr len mask => some (c, 0x06, [BitVec.ofNat 64 addr, BitVec.ofNat 64 len, mask.extractLsb' 0 64, mask.extractLsb' 64 64])
  | .routeLoad c _ _ => some (c, 0x07, []) | .rankWrite c _ => some (c, 0x08, []) | .contract c _ => some (c, 0x09, [])
  | .launch c _ _ _ => some (c, 0x0A, []) | .deliver c _ _ _ => some (c, 0x0B, []) | .preemptCmd c _ _ => some (c, 0x0C, [])
  | .ifenceCmd c => some (c, 0x0D, []) | .pageReply c w => some (c, 0x0E, [w]) | .record c _ _ _ => some (c, 0x0F, [])
  | .biasSet c _ _ _ => some (c, 0x10, []) | .s2Inv c _ => some (c, 0x11, []) | .mbxAssign c _ _ => some (c, 0x12, [])
  | .hdmCfg c _ _ _ => some (c, 0x13, []) | .partExport c _ _ => some (c, 0x14, []) | .partImport c _ => some (c, 0x15, [])
  | .eventCfg c ring => some (c, 0x16, [ring])
  | _ => none

/-- The memory that Matins reads for a command at once (R411). -/
def cmdReads (s : State) : Instr → List (Nat × Nat × Bool)
  | .imageLoad _ addr len _ => [(addr, loadSize s addr len, false)]
  | .partCfg _ pa => [(pa, 128, false)]
  | .partImport c area => importReads s (cmdPart c) area
  | _ => []

/-- Matins does not read the entry of a command now: it is not its mailbox's turn, or the ring holds no such entry (R411, R412). -/
def NotRead (s : State) (i : Instr) : Prop := ∃ c ty ops, cmdEntry i = some (c, ty, ops) ∧ cmdReady s c ty ops = false

/-- Matins reads the entry c of a command now, at the start of a packet (R411, R412, R415). -/
def Reads (s : State) (i : Instr) (c : Cmd) : Prop :=
  ∃ ty ops, cmdEntry i = some (c, ty, ops) ∧ cmdReady s c ty ops = true ∧ (s.mailbox (cmdBox c)).midPacket = false

/-- Matins reads the entry c of a command now, it is a packet of its own, and its home gives Matins the memory that it reads (R411, R412,
R415). -/
def Single (s : State) (i : Instr) (c : Cmd) : Prop := Reads s i c ∧ c.chain = false ∧ matinsGate s (cmdReads s i) = none

/-- Command i, entry c, completes with a status: its entry is consumed, the machine is as u says, and the function gets the 0x81 event (R413). -/
def Completes (i : Instr) (s : State) (c : Cmd) (u : State) (status : Nat) : Prop := exec i s = .next (cmdDone u c status)

/-! ## Runs -/

/-- Whether a state can be reached from another by steps. -/
inductive Runs : State → State → Prop
  | here (s : State) : Runs s s
  | step (s t u : State) : Runs s t → Machine.step t = .next u → Runs s u

/-- A property of states that every step keeps. -/
def Kept (p : State → Prop) : Prop := ∀ s t, p s → step s = .next t → p t

/-- Physical memory is in its canonical form: rising addresses, and no byte listed that an unlisted one reads as (log 5). -/
def MemoryCanonical (s : State) : Prop := s.mem.wf = true

/-- No effect is held back: what a port could not take in a step did not take place (R201, R363). -/
def NothingHeldBack (s : State) : Prop := s.deferred = false

end Sys2Proof.Machine
end

