-- ==== Sys2Proof/Certificates/Slice0/Obligations.lean ====
section
/-! DEFINITION. The statements for the provers. Each says which rules of spec/ it formalises; OBLIGATIONS.json lists them. -/

open Sys2Proof Sys2Proof.Machine

/-- Major 0x01, register and literal forms: each result as R74's table gives it, shift amounts b[5:0]. Major 0x02, register and literal forms: products,
quotients that truncate toward zero and remainders with the dividend's sign, with the values R75 gives for a zero divisor and for -2^63 over -1.
Majors 0x03 to 0x05, 0x0A to 0x0C: immediates, shifts by a constant, literal moves, addresses and selection. The words of majors 0x01, 0x02, 0x03,
0x04, 0x0A and 0x0B (R74 to R76, R82, R83): the base word from its fields, as R30 lays out formats A, I and U. -/
def Obligations.IntegerResults : Prop :=
  (BothForms .add .addLit (fun a b => a + b) ∧ BothForms .sub .subLit (fun a b => a - b) ∧
  BothForms .and .andLit (fun a b => a &&& b) ∧ BothForms .or .orLit (fun a b => a ||| b) ∧
  BothForms .xor .xorLit (fun a b => a ^^^ b) ∧ BothForms .andn .andnLit (fun a b => a &&& ~~~b) ∧
  BothForms .sll .sllLit (fun a b => a <<< (b.toNat % 64)) ∧ BothForms .srl .srlLit (fun a b => a >>> (b.toNat % 64)) ∧
  BothForms .sra .sraLit (fun a b => BitVec.ofInt 64 (a.toInt / 2 ^ (b.toNat % 64))) ∧
  BothForms .ror .rorLit (fun a b => a >>> (b.toNat % 64) ||| a <<< (64 - b.toNat % 64)) ∧
  BothForms .slt .sltLit (fun a b => if a.toInt < b.toInt then 1 else 0) ∧
  BothForms .sltu .sltuLit (fun a b => if a.toNat < b.toNat then 1 else 0) ∧
  BothForms .seq .seqLit (fun a b => if a = b then 1 else 0) ∧
  BothForms .min .minLit (fun a b => if a.toInt < b.toInt then a else b) ∧
  BothForms .max .maxLit (fun a b => if a.toInt < b.toInt then b else a) ∧
  BothForms .minu .minuLit (fun a b => if a.toNat < b.toNat then a else b) ∧
  BothForms .maxu .maxuLit (fun a b => if a.toNat < b.toNat then b else a)) ∧

  (BothForms .mul .mulLit (fun a b => BitVec.ofInt 64 (a.toInt * b.toInt)) ∧
  BothForms .mulh .mulhLit (fun a b => BitVec.ofInt 64 (a.toInt * b.toInt / 2 ^ 64)) ∧
  BothForms .mulhu .mulhuLit (fun a b => BitVec.ofNat 64 (a.toNat * b.toNat / 2 ^ 64)) ∧
  BothForms .div .divLit (fun a b => if b = 0 then 0xFFFFFFFFFFFFFFFF else BitVec.ofInt 64 (a.toInt.tdiv b.toInt)) ∧
  BothForms .divu .divuLit (fun a b => if b = 0 then 0xFFFFFFFFFFFFFFFF else BitVec.ofNat 64 (a.toNat / b.toNat)) ∧
  BothForms .rem .remLit (fun a b => if b = 0 then a else BitVec.ofInt 64 (a.toInt.tmod b.toInt)) ∧
  BothForms .remu .remuLit (fun a b => if b = 0 then a else BitVec.ofNat 64 (a.toNat % b.toNat))) ∧

  (∀ (s : State) (d a b c : Reg) (imm : BitVec 13) (n : Fin 64) (u : BitVec 18) (x : Word),
    Gives (.addi d a imm) s 4 d (s.rd a + imm.signExtend 64) ∧ Gives (.andi d a imm) s 4 d (s.rd a &&& imm.signExtend 64) ∧
    Gives (.slli d a n) s 4 d (s.rd a <<< n.val) ∧ Gives (.srli d a n) s 4 d (s.rd a >>> n.val) ∧
    Gives (.srai d a n) s 4 d (BitVec.ofInt 64 ((s.rd a).toInt / 2 ^ n.val)) ∧
    Gives (.rori d a n) s 4 d (s.rd a >>> n.val ||| s.rd a <<< (64 - n.val)) ∧
    Gives (.li d u) s 4 d (u.setWidth 64) ∧ Gives (.liLit d x) s 12 d x ∧
    Gives (.la d u) s 4 d (s.me.pc + u.signExtend 64 * 4) ∧ Gives (.laLit d x) s 12 d (s.me.pc + x) ∧
    Gives (.selnz d a b c) s 4 d (if s.rd c ≠ 0 then s.rd a else s.rd b) ∧
    Gives (.selz d a b c) s 4 d (if s.rd c = 0 then s.rd a else s.rd b) ∧
    Gives (.madd d a b c) s 4 d (s.rd c + s.rd a * s.rd b) ∧ Gives (.msub d a b c) s 4 d (s.rd c - s.rd a * s.rd b)) ∧

  (∀ (d a b : Reg) (x : Word) (imm : BitVec 13) (u : BitVec 18),
    (∀ e ∈ [(1, 0x00, Instr.add d a b, Instr.addLit d a x), (1, 0x01, .sub d a b, .subLit d a x), (1, 0x02, .and d a b, .andLit d a x),
        (1, 0x03, .or d a b, .orLit d a x), (1, 0x04, .xor d a b, .xorLit d a x), (1, 0x05, .andn d a b, .andnLit d a x),
        (1, 0x08, .sll d a b, .sllLit d a x), (1, 0x09, .srl d a b, .srlLit d a x), (1, 0x0A, .sra d a b, .sraLit d a x),
        (1, 0x0B, .ror d a b, .rorLit d a x), (1, 0x10, .slt d a b, .sltLit d a x), (1, 0x11, .sltu d a b, .sltuLit d a x),
        (1, 0x12, .seq d a b, .seqLit d a x), (1, 0x14, .min d a b, .minLit d a x), (1, 0x15, .max d a b, .maxLit d a x),
        (1, 0x16, .minu d a b, .minuLit d a x), (1, 0x17, .maxu d a b, .maxuLit d a x),
        (2, 0x00, .mul d a b, .mulLit d a x), (2, 0x01, .mulh d a b, .mulhLit d a x), (2, 0x02, .mulhu d a b, .mulhuLit d a x),
        (2, 0x04, .div d a b, .divLit d a x), (2, 0x05, .divu d a b, .divuLit d a x), (2, 0x06, .rem d a b, .remLit d a x),
        (2, 0x07, .remu d a b, .remuLit d a x)],
      (encodeRaw e.2.2.1).base = e.1 * 4 + d.val * 2 ^ 9 + a.val * 2 ^ 14 + b.val * 2 ^ 19 + e.2.1 * 2 ^ 24 ∧
      (encodeRaw e.2.2.2).base = 1 + e.1 * 4 + d.val * 2 ^ 9 + a.val * 2 ^ 14 + e.2.1 * 2 ^ 24 ∧ (encodeRaw e.2.2.2).lit = x) ∧
    (encodeRaw (.addi d a imm)).base = 0x03 * 4 + d.val * 2 ^ 9 + a.val * 2 ^ 14 + imm.toNat * 2 ^ 19 ∧
    (encodeRaw (.andi d a imm)).base = 0x04 * 4 + d.val * 2 ^ 9 + a.val * 2 ^ 14 + imm.toNat * 2 ^ 19 ∧
    (encodeRaw (.li d u)).base = 0x0A * 4 + d.val * 2 ^ 9 + u.toNat * 2 ^ 14 ∧
    (encodeRaw (.liLit d x)).base = 1 + 0x0A * 4 + d.val * 2 ^ 9 ∧ (encodeRaw (.liLit d x)).lit = x ∧
    (encodeRaw (.la d u)).base = 0x0B * 4 + d.val * 2 ^ 9 + u.toNat * 2 ^ 14 ∧
    (encodeRaw (.laLit d x)).base = 1 + 0x0B * 4 + d.val * 2 ^ 9 ∧ (encodeRaw (.laLit d x)).lit = x)

/-- Major 0x06: counts of bits, the order of bits and bytes, single bits and masks, each said bit by bit (R78). Majors 0x07 to 0x09: bit fields of a
register (R79) and of a message header held in eight registers (R81). -/
def Obligations.BitResults : Prop :=
  ((∀ (s : State) (d a : Reg), ∃ n : Nat, n ≤ 64 ∧ Gives (.clz d a) s 4 d (BitVec.ofNat 64 n) ∧
    (∀ i, 64 - n ≤ i → i < 64 → (s.rd a).getLsbD i = false) ∧ (n < 64 → (s.rd a).getLsbD (63 - n) = true)) ∧
  (∀ (s : State) (d a : Reg), ∃ n : Nat, n ≤ 64 ∧ Gives (.ctz d a) s 4 d (BitVec.ofNat 64 n) ∧
    (∀ i, i < n → (s.rd a).getLsbD i = false) ∧ (n < 64 → (s.rd a).getLsbD n = true)) ∧
  (∀ (s : State) (d a : Reg), Gives (.popc d a) s 4 d (BitVec.ofNat 64 ((List.range 64).countP fun i => (s.rd a).getLsbD i))) ∧
  (∀ (s : State) (d a : Reg), ∃ v : Word, Gives (.brev d a) s 4 d v ∧ ∀ i, i < 64 → v.getLsbD i = (s.rd a).getLsbD (63 - i)) ∧
  (∀ (s : State) (d a : Reg), ∃ v : Word, Gives (.bswap d a) s 4 d v ∧
    ∀ i, i < 8 → v.extractLsb' (8 * i) 8 = (s.rd a).extractLsb' (8 * (7 - i)) 8) ∧
  (∀ (s : State) (d a : Reg), Gives (.lowb d a) s 4 d (s.rd a &&& (0 - s.rd a)) ∧ Gives (.clrlow d a) s 4 d (s.rd a &&& (s.rd a - 1)) ∧
    Gives (.maskn d a) s 4 d (if 64 ≤ (s.rd a).toNat then 0xFFFFFFFFFFFFFFFF else (1 : Word) <<< (s.rd a).toNat - 1)) ∧
  BothForms .bset .bsetLit (fun a b => a ||| (1 : Word) <<< (b.toNat % 64)) ∧
  BothForms .bclr .bclrLit (fun a b => a &&& ~~~((1 : Word) <<< (b.toNat % 64))) ∧
  BothForms .binv .binvLit (fun a b => a ^^^ (1 : Word) <<< (b.toNat % 64)) ∧
  BothForms .bext .bextLit (fun a b => a >>> (b.toNat % 64) &&& 1)) ∧

  (∀ (s : State) (d a b : Reg) (pos len1 : Fin 64) (hp : Fin 512), let w := reg (a.val + hp.val / 64); let p := hp.val % 64; let n := len1.val + 1
    ((Instr.extu d a pos len1).wf = true →
      Gives (.extu d a pos len1) s 4 d (((s.rd a).extractLsb' pos.val n).setWidth 64) ∧
      Gives (.exts d a pos len1) s 4 d (((s.rd a).extractLsb' pos.val n).signExtend 64) ∧
      ∃ v : Word, Gives (.fins d a pos len1) s 4 d v ∧
        ∀ i, i < 64 → v.getLsbD i = if pos.val ≤ i ∧ i < pos.val + n then (s.rd a).getLsbD (i - pos.val) else (s.rd d).getLsbD i) ∧
    ((Instr.hdrGet d a hp len1).wf = true →
      Gives (.hdrGet d a hp len1) s 12 d (((s.rd w).extractLsb' p n).setWidth 64) ∧
      Gives (.hdrGets d a hp len1) s 12 d (((s.rd w).extractLsb' p n).signExtend 64) ∧
      Gives (.hdrMatch d a b hp len1) s 12 d (if (s.rd w).extractLsb' p n = (s.rd b).extractLsb' 0 n then 1 else 0) ∧
      ∃ v : Word, Gives (.hdrSet a b hp len1) s 12 w v ∧
        ∀ i, i < 64 → v.getLsbD i = if p ≤ i ∧ i < p + n then (s.rd b).getLsbD (i - p) else (s.rd w).getLsbD i) ∧
    ((Instr.hdrClr a).wf = true → ∃ t, exec (.hdrClr a) s = .next t ∧
      (∀ r : Reg, t.rd r = if a.val ≤ r.val ∧ r.val ≤ a.val + 7 then 0 else s.rd r) ∧ OnlyThisSlot s t ∧
      t.me = { s.me with s := t.me.s, pc := s.me.pc + 4, fresh := none, vprog := none, got := none }))

/-- An integer instruction of majors 0x01 to 0x0C changes its destination register and the program counter and nothing else: no other register, no flag,
no byte of memory (R72). A floating-point instruction changes its destination register, fp.flags, sr.state and the program counter and nothing else;
it clears no flag (R66); and it changes sr.state only where it is a conversion and fp.mode.sr is 1 (R67). A vector instruction of majors 0x40 to 0x52
that writes vector register d, and no scalar register, changes that register, fp.flags, sr.state and the program counter and nothing else: no byte of
memory, no other slot (R108, R110). The register file: a register that is written reads back what was written, every other register is as it was, and
a write to s0 changes no register, so that s0 still reads as zero (R11). -/
def Obligations.RegisterInstructionFrames : Prop :=
  (∀ (i : Instr) (d : Reg) (s t : State), integerDest i = some d → exec i s = .next t → OnlyScalar s t d) ∧

  (∀ (i : Instr) (d : Reg) (s t : State), floatDest i = some d → exec i s = .next t →
    OnlyFloat s t d ∧ (∀ k, s.me.fpFlags.getLsbD k = true → t.me.fpFlags.getLsbD k = true) ∧
    (t.me.srState ≠ s.me.srState → s.me.fpMode.getLsbD 3 = true ∧ ∃ tgt src a, i = .fcvt tgt src d a)) ∧

  (∀ (i : Instr) (d : Reg) (s t : State), vectorDest i = some d → exec i s = .next t →
    OnlyVector s t d ∧ ∀ k, s.me.fpFlags.getLsbD k = true → t.me.fpFlags.getLsbD k = true) ∧

  (∀ (s : State) (d r : Reg) (v : Word) (n : Nat),
    (s.rd 0 = 0) ∧ (d ≠ 0 → ((s.wr d v).past n).rd d = v) ∧ (r ≠ d → ((s.wr d v).past n).rd r = s.rd r) ∧
    (((s.wr 0 v).past n).rd r = s.rd r) ∧ ((s.wr d v).past n).me.pc = s.me.pc + BitVec.ofNat 64 n)

/-- Majors 0x10 to 0x13: each operation takes the low bits of its operands as patterns of its type, writes the pattern of the rounded result to the low
bits of d with the higher bits zero, and ORs the flags its result calls for into fp.flags (R85 to R89). FNEG, FABS and FCLASS raise no flag. A
stochastic conversion draws exactly once (R67). The operations deliver the exact result rounded once (R64 to R66, R85 to R87): rounding delivers what
`Delivers` says of an exact value, in every format; a sum, a difference, a product and a fused multiply-add are rounded from the exact integer at a
common exponent, and an exact zero has the sign of R64 and R87; a quotient and a root from their leading bits and whether anything is left; a
conversion from its operand's value. The signs of zero sums and the draw below the smallest value are read as log 17 says. -/
def Obligations.FloatResults : Prop :=
  (∀ (s : State) (t : FpType) (d a b c : Reg) (x : Word), let f := FpType.fmt t; let m := s.rm
    let p := (s.rd a).toNat; let q := (s.rd b).toNat; let r := (s.rd c).toNat; let y := x.toNat
    GivesFloat (.fadd t d a b) s 4 d (fAdd f m p q) ∧ GivesFloat (.faddLit t d a x) s 12 d (fAdd f m p y) ∧
    GivesFloat (.fsub t d a b) s 4 d (fSub f m p q) ∧ GivesFloat (.fsubLit t d a x) s 12 d (fSub f m p y) ∧
    GivesFloat (.fmul t d a b) s 4 d (fMul f m p q) ∧ GivesFloat (.fmulLit t d a x) s 12 d (fMul f m p y) ∧
    GivesFloat (.fdiv t d a b) s 4 d (fDiv f m p q) ∧ GivesFloat (.fdivLit t d a x) s 12 d (fDiv f m p y) ∧
    GivesFloat (.fmin t d a b) s 4 d (fMinMax f false p q) ∧ GivesFloat (.fminLit t d a x) s 12 d (fMinMax f false p y) ∧
    GivesFloat (.fmax t d a b) s 4 d (fMinMax f true p q) ∧ GivesFloat (.fmaxLit t d a x) s 12 d (fMinMax f true p y) ∧
    GivesFloat (.fsqrt t d a) s 4 d (fSqrt f m p) ∧
    GivesFloat (.fma t d a b c) s 4 d (fFma f m false p q r) ∧ GivesFloat (.fnma t d a b c) s 4 d (fFma f m true p q r) ∧
    Gives (.fneg t d a) s 4 d (BitVec.ofNat 64 (fSign f false p)) ∧ Gives (.fabs t d a) s 4 d (BitVec.ofNat 64 (fSign f true p)) ∧
    Gives (.fclass t d a) s 4 d (fClass f p) ∧
    GivesFloat (.feq t d a b) s 4 d ⟨if (fCmp f false p q).1 = some .eq then 1 else 0, (fCmp f false p q).2⟩ ∧
    GivesFloat (.flt t d a b) s 4 d ⟨if (fCmp f true p q).1 = some .lt then 1 else 0, (fCmp f true p q).2⟩ ∧
    GivesFloat (.fle t d a b) s 4 d
      ⟨if (fCmp f true p q).1 = some .lt ∨ (fCmp f true p q).1 = some .eq then 1 else 0, (fCmp f true p q).2⟩ ∧
    ∀ (tgt src : CvtCode), let v := cvtSource src (s.rd a)
      match CvtCode.fmt? tgt with
      | none =>
        exec (.fcvt tgt src d a) s =
          .next (((s.flag (convertInt m (cvtRange tgt).1 (cvtRange tgt).2 v).2).wr d
            (BitVec.ofInt 64 (convertInt m (cvtRange tgt).1 (cvtRange tgt).2 v).1)).past 4)
      | some g =>
        (s.me.fpMode.getLsbD 3 = false ∨ g = .f32 → GivesFloat (.fcvt tgt src d a) s 4 d (convert g m none v)) ∧
        (s.me.fpMode.getLsbD 3 = true → g ≠ .f32 → let n := xorshift s.me.srState; let k := convert g m (some n) v
          exec (.fcvt tgt src d a) s =
            .next ((((s.updMe fun z => { z with srState := n }).flag k.flags).wr d (BitVec.ofNat 64 k.code)).past 4))) ∧

  (∀ (t : FpType) (m : Rm) (n : Bool) (a b c : Nat), m.toNat ≤ 4 → let f := FpType.fmt t
    let exactly (r : Rnd) (z e : Int) (zero : Bool) : Prop := r = if z = 0 then ⟨f.zero zero, 0⟩ else roundTo f m ⟨z < 0, z.natAbs, e, false⟩
    let v (neg : Bool) (p : Nat) (e : Int) : Int := if neg then -(p * 2 ^ e.toNat : Int) else p * 2 ^ e.toNat
    (∀ (g : Fmt) (x : Ex), x.m ≠ 0 → (x.sticky = true → 2 ^ 32 ≤ x.m) → Delivers g m x (roundTo g m x)) ∧
    ∀ na ma ea, unpack f a = .fin na ma ea →
      (ma = 0 → fSqrt f m a = ⟨f.zero na, 0⟩) ∧ (ma ≠ 0 → na = true → fSqrt f m a = ⟨f.nan, Fl.nv⟩) ∧
      (ma ≠ 0 → na = false → ∃ (x : Ex) (k : Nat), fSqrt f m a = roundTo f m x ∧ x.neg = false ∧ 2 ^ 32 ≤ x.m ∧ 2 * x.e = ea - k ∧
        x.m * x.m ≤ ma * 2 ^ k ∧ ma * 2 ^ k < (x.m + 1) * (x.m + 1) ∧ (x.sticky = false ↔ x.m * x.m = ma * 2 ^ k)) ∧
      (ma ≠ 0 → ∀ g, convert g m none (.fin na ma ea) = roundTo g m ⟨na, ma, ea, false⟩) ∧
      ∀ nb mb eb, unpack f b = .fin nb mb eb → let e := min 0 (min ea eb)
        exactly (fAdd f m a b) (v na ma (ea - e) + v nb mb (eb - e)) e ((ma = 0 && mb = 0 && na && nb) || m = 2) ∧
        exactly (fSub f m a b) (v na ma (ea - e) - v nb mb (eb - e)) e ((ma = 0 && mb = 0 && na && !nb) || m = 2) ∧
        exactly (fMul f m a b) (v (na != nb) (ma * mb) 0) (ea + eb) (na != nb) ∧
        (mb = 0 → fDiv f m a b = if ma = 0 then ⟨f.nan, Fl.nv⟩ else ⟨if f = .t8 then f.nan else f.signed (na != nb) f.infCode, Fl.dz⟩) ∧
        (mb ≠ 0 → ma = 0 → fDiv f m a b = ⟨f.zero (na != nb), 0⟩) ∧
        (mb ≠ 0 → ma ≠ 0 → ∃ (x : Ex) (k : Nat), fDiv f m a b = roundTo f m x ∧ x.neg = (na != nb) ∧ 2 ^ 32 ≤ x.m ∧ x.e = ea - eb - k ∧
          x.m * mb ≤ ma * 2 ^ k ∧ ma * 2 ^ k < (x.m + 1) * mb ∧ (x.sticky = false ↔ x.m * mb = ma * 2 ^ k)) ∧
        ∀ nc mc ec, unpack f c = .fin nc mc ec → let p := (na != nb) != n; let e := min 0 (min (ea + eb) ec)
          exactly (fFma f m n a b c) (v p (ma * mb) (ea + eb - e) + v nc mc (ec - e)) e
            (if ma * mb = 0 ∧ mc = 0 ∧ p = nc then p else m = 2))

/-- Every arithmetic operation that produces a NaN produces the canonical NaN of its format, in every type and rounding mode, whatever its operands'
payloads (R53). An operation of the arithmetic with a NaN operand produces the canonical NaN, and sets the invalid flag when one of its operands
signals (R53, R66). -/
def Obligations.NanRules : Prop :=
  (∀ (t : FpType) (m : Rm) (n : Bool) (a b c : Nat), let f := FpType.fmt t
    ∀ r ∈ [fAdd f m a b, fSub f m a b, fMul f m a b, fDiv f m a b, fSqrt f m a, fFma f m n a b c, fMinMax f n a b, ⟨fSign f n a, 0⟩],
      (unpack f r.code).isNan = true → r.code = f.nan) ∧

  (∀ (t : FpType) (m : Rm) (n : Bool) (a b c : Nat), let f := FpType.fmt t
    ((unpack f a).isNan = true ∨ (unpack f b).isNan = true →
      ∀ r ∈ [fAdd f m a b, fSub f m a b, fMul f m a b, fDiv f m a b],
        r.code = f.nan ∧ ((unpack f a).isSnan = true ∨ (unpack f b).isSnan = true → r.flags.getLsbD 0 = true)) ∧
    ((unpack f a).isNan = true → (fSqrt f m a).code = f.nan ∧ ((unpack f a).isSnan = true → (fSqrt f m a).flags.getLsbD 0 = true) ∧
      fSign f n a = f.nan) ∧
    ((unpack f a).isNan = true ∨ (unpack f b).isNan = true ∨ (unpack f c).isNan = true → (fFma f m n a b c).code = f.nan ∧
      ((unpack f a).isSnan = true ∨ (unpack f b).isSnan = true ∨ (unpack f c).isSnan = true → (fFma f m n a b c).flags.getLsbD 0 = true)))

/-- Rounding a magnitude m to a multiple of 2^k, as fp.mode.rm says (R64): a multiple is delivered as it is and exactly; else the result is one of the two
neighbours, nearest even takes the nearer one and on a tie the even one, toward zero the smaller magnitude, down and up the neighbour on that side of
the signed value, and nearest away the nearer one and on a tie the larger magnitude. -/
def Obligations.RoundingPicksTheNeighbour : Prop :=
  ∀ (rm : Rm) (neg : Bool) (m k : Nat) (e : Int), let r := quantise rm ⟨neg, m, e, false⟩ (e + k); let v := r.1 * 2 ^ k
    (r.2 = false ↔ 2 ^ k ∣ m) ∧ (2 ^ k ∣ m → v = m) ∧ v < m + 2 ^ k ∧ m < v + 2 ^ k ∧
    (rm = 0 → 2 * v ≤ 2 * m + 2 ^ k ∧ 2 * m ≤ 2 * v + 2 ^ k ∧ (2 * v = 2 * m + 2 ^ k ∨ 2 * m = 2 * v + 2 ^ k → r.1 % 2 = 0)) ∧
    (rm = 1 → v ≤ m) ∧ (rm = 2 → if neg then m ≤ v else v ≤ m) ∧ (rm = 3 → if neg then v ≤ m else m ≤ v) ∧
    (rm = 4 → 2 * v ≤ 2 * m + 2 ^ k ∧ 2 * m < 2 * v + 2 ^ k)

/-- Majors 0x18 to 0x1C: when each branch is taken, where it goes and what it links (R90 to R92). An aligned JALR jumps with its link computed from the
value its base register held before; one whose target's bits [1:0] are not zero traps with MISALIGN and writes no link (R93). -/
def Obligations.BranchResults : Prop :=
  ∀ (s : State) (d a b : Reg) (o : BitVec 18) (w : BitVec 32) (x : Word),
    let off := w.signExtend 64; let m : Word := if b = 0 then 0xFFFFFFFFFFFFFFFF else s.rd b; let p := s.rd a; let q := s.rd b
    let jump (i : Instr) (n : Nat) (r : Reg) (target : Word) : Prop :=
      exec i s = .next ((s.wr r (s.me.pc + BitVec.ofNat 64 n)).updMe fun z => { z with pc := target, fresh := none, vprog := none })
    Branches (.bz a o) s 4 (p = 0) (o.signExtend 64) ∧ Branches (.bzLit a x) s 12 (p = 0) x ∧
    Branches (.bnz a o) s 4 (p ≠ 0) (o.signExtend 64) ∧ Branches (.bnzLit a x) s 12 (p ≠ 0) x ∧
    jump (.jal a o) 4 a (s.me.pc + o.signExtend 64 * 4) ∧ jump (.jalLit a x) 12 a (s.me.pc + x * 4) ∧
    Branches (.beq a b w) s 12 (p = q) off ∧ Branches (.bne a b w) s 12 (p ≠ q) off ∧
    Branches (.blt a b w) s 12 (p.toInt < q.toInt) off ∧ Branches (.bge a b w) s 12 (q.toInt ≤ p.toInt) off ∧
    Branches (.bltu a b w) s 12 (p.toNat < q.toNat) off ∧ Branches (.bgeu a b w) s 12 (q.toNat ≤ p.toNat) off ∧
    Branches (.bany a b w) s 12 (p &&& m ≠ 0) off ∧ Branches (.bnone a b w) s 12 (p &&& m = 0) off ∧
    Branches (.ball a b w) s 12 (p &&& m = m) off ∧ Branches (.bnall a b w) s 12 (p &&& m ≠ m) off ∧
    (p.toNat % 4 = 0 → jump (.jalr d a) 4 d p) ∧ ((p + off).toNat % 4 = 0 → jump (.jalrDisp d a w) 12 d (p + off)) ∧
    (CanTrap s → (p.toNat % 4 ≠ 0 → Traps (.jalr d a) s .misalign p s.me.pc) ∧
      ((p + off).toNat % 4 ≠ 0 → Traps (.jalrDisp d a w) s .misalign (p + off) s.me.pc))

/-- Major 0x3C on a compute core, for an assigned control register that the mode and its class allow (R13): every form puts the value before the
instruction into d, and a form that writes stores the new value field by field (R15, R95); no other control register, no other scalar register, no
vector register and no byte of memory changes. -/
def Obligations.ControlRegisterAccess : Prop :=
  ∀ (s : State) (d a : Reg) (imm : Fin 32) (cr : BitVec 12), let n := cr.toNat; let old := crRead s s.cur n
    let v := s.rd a; let u : Word := BitVec.ofNat 64 imm.val
    onCore s.cur = true → crAssigned true n = true → (0x800 ≤ n → s.me.mode ≠ .u) → (n = 0x808 → lsBusy s s.myCore = false) →
    let reads (i : Instr) : Prop := Gives i s 12 d old
    let writes (i : Instr) (new : Word) (clear : Bool) : Prop := crWritable n = true → n ≠ 0x808 →
      ∃ t, exec i s = .next t ∧ (∀ r, t.rd r = if r = d ∧ r ≠ 0 then old else s.rd r) ∧ (∀ r, t.rdv r = s.rdv r) ∧
        t.me.pc = s.me.pc + 12 ∧ crRead t t.cur n = crStored n old new clear ∧
        (∀ k, k ≠ n → crRead t t.cur k = crRead s s.cur k) ∧ (∀ j, t.mem.rd j = s.mem.rd j)
    writes (.crrw d a cr) v (v.getLsbD 0) ∧ writes (.crrwi d imm cr) u (u.getLsbD 0) ∧
    (if a = 0 then reads (.crrs d a cr) ∧ reads (.crrc d a cr)
     else writes (.crrs d a cr) (old ||| v) (v.getLsbD 0) ∧ writes (.crrc d a cr) (old &&& ~~~v) false) ∧
    (if imm = 0 then reads (.crrsi d imm cr) ∧ reads (.crrci d imm cr)
     else writes (.crrsi d imm cr) (old ||| u) (u.getLsbD 0) ∧ writes (.crrci d imm cr) (old &&& ~~~u) false)

/-- A trap is taken by one slot, which records the cause, whether it is imprecise, the value, the resume address and the mode and interrupt enable it had,
goes on in S mode with interrupts off at the core's trap vector, and does nothing else (R20); when the instruction there cannot be fetched, since its
address names no space that holds code, another core's scratchpad, a place beyond the own one, a poisoned byte or a page that cannot be fetched from,
or when it traps itself, the slot is DEAD and core.fatal keeps the first such event (R24, R160, R335, R434). SYSCALL and BREAK, in U mode as in S
mode, take their trap with tr.val the code and tr.pc the next instruction; a bit pattern that is no instruction traps with ILLEGAL_OP, tr.val its base
word and tr.pc its own address (R20, R21, R36, R97). The trap changes the trap registers, the mode, the interrupt enable and the program counter of
its slot and nothing else of the machine. The checks of a control-register access, in their order (R13, R95): an unassigned number traps with
ILLEGAL_OP whatever the mode, then a number of 0x800 or above traps with PRIV in U mode, then a write of a read-only number traps with ILLEGAL_OP;
tr.val is the base word. -/
def Obligations.TrapsTaken : Prop :=
  ((∀ (s : State) (t : Nat) (cause : Cause) (imp : Bool) (val resume : Word), let c := agentOf t
    let v : Word := (s.core c).trVector.setWidth 64 <<< 2; let u := enterTrap s t cause imp val resume; let x := s.slot t; onCore t = true →
    (Enterable s t →
      u = { s with slots := u.slots } ∧ (∀ k, k ≠ t → u.slot k = s.slot k) ∧
      u.slot t = { x with
        trCause := cause.setWidth 9 ||| (if imp then 0x100 else 0), trVal := val, trPc := resume,
        trStatus := (if x.mode = .s then 1 else 0) ||| (if x.trStatus.getLsbD 2 then 2 else 0),
        mode := .s, pc := v, run := .active, fresh := some cause, vprog := none, got := none, redo := none, paired := false, due := false,
        lv := if cause = .leaseViolation then some (resume, val) else x.lv }) ∧
    (((spaceOf v ≠ some .glb ∧ spaceOf v ≠ some .spd) ∨ (spaceOf v = some .spd ∧ (fld v.toNat 45 11 ≠ c ∨ s.spSize c < offsetOf v + 4 ∨
        poisonAt s (lsBlk c) (s.spOffset c (offsetOf v)) 4 ≠ none)) ∨
        (spaceOf v = some .glb ∧ ∀ s1, s1 = { s with slots := s1.slots } → ∃ f s2, translate s1 c false .fetch false v = (.trap f, s2))) →
      (u.slot t).run = .dead ∧ (∀ k, k ≠ t → u.slot k = s.slot k) ∧
      (u.core c).coreFatal = (if (s.core c).coreFatal.getLsbD 20 then (s.core c).coreFatal
        else BitVec.ofNat 21 (2 ^ 20 + slotOf t * 2 ^ 16 + cause.toNat * 2 ^ 8 + 0x1A)))) ∧
  (∀ (s : State) (code : BitVec 15) (f : Cause), onCore s.cur = true → s.me.fresh = some f →
    ∃ u, exec (.syscall code) s = .next u ∧ u.me.run = .dead ∧
      (u.core s.myCore).coreFatal = (if (s.core s.myCore).coreFatal.getLsbD 20 then (s.core s.myCore).coreFatal
        else BitVec.ofNat 21 (2 ^ 20 + slotOf s.cur * 2 ^ 16 + f.toNat * 2 ^ 8 + 0x1A)))) ∧

  (∀ (s : State) (code : BitVec 15) (w : BitVec 32), CanTrap s →
    Traps (.syscall code) s .syscall (code.setWidth 64) (s.me.pc + 4) ∧
    Traps (.break code) s .break (code.setWidth 64) (s.me.pc + 4) ∧
    Traps (.illegalOpEncoding w) s .illegalOp (w.setWidth 64) s.me.pc) ∧

  (∀ (s : State) (i : Instr) (cr : BitVec 12) (writes : Bool), CanTrap s →
    ((∃ d a, (i = .crrw d a cr ∧ writes = true) ∨ (i = .crrs d a cr ∧ writes = decide (a ≠ 0)) ∨ (i = .crrc d a cr ∧ writes = decide (a ≠ 0))) ∨
     ∃ d imm, (i = .crrwi d imm cr ∧ writes = true) ∨ (i = .crrsi d imm cr ∧ writes = decide (imm ≠ 0)) ∨
       (i = .crrci d imm cr ∧ writes = decide (imm ≠ 0))) →
    let base := BitVec.ofNat 64 (encodeRaw i).base
    (crAssigned true cr.toNat = false → Traps i s .illegalOp base s.me.pc) ∧
    (crAssigned true cr.toNat = true → 0x800 ≤ cr.toNat → s.me.mode = .u → Traps i s .priv base s.me.pc) ∧
    (crAssigned true cr.toNat = true → (0x800 ≤ cr.toNat → s.me.mode ≠ .u) → writes = true → crWritable cr.toNat = false →
      Traps i s .illegalOp base s.me.pc))

/-- A write of ls.split, in each form that writes, reads the old value into d, removes every stash mapping and leaves the rotation with the new value,
written, ORed or cleared as the form says; a form that writes nothing reads it; while a write is in progress every access of ls.split waits; when it
goes on, with no stash line left to write back, it zeroes the 16 KiB units that change and no other byte of the local store, and sets the split, and
its slot goes on behind it; a value above 12 leaves the split as it was, and the mappings are removed all the same, which log 22 reads from R15 and
R18 (R15, R18, R95, R96). -/
def Obligations.LocalStoreSplit : Prop :=
  (∀ (s : State) (d a : Reg) (imm : Fin 32), onCore s.cur = true → s.me.mode ≠ .u →
    let old : Word := BitVec.ofNat 64 (s.core s.myCore).lsSplit.val; let u : Word := BitVec.ofNat 64 imm.val
    let gives (i : Instr) (t : State) : Prop :=
      exec i s = .next (if lsBusy s s.myCore = true then s.updMe fun x => { x with run := .waiting .lsBusy } else t)
    let writes (i : Instr) (v : Word) : Prop := gives i (((s.wr d old).updCore s.myCore fun q => { q with stash := [] }).updMe fun x =>
      { x with run := .waiting (.lsSplit (Fin.ofNat 16 v.toNat)) })
    let reads (i : Instr) : Prop := gives i ((s.wr d old).past 12)
    writes (.crrw d a 0x808) (s.rd a) ∧ writes (.crrwi d imm 0x808) u ∧
    (if a = 0 then reads (.crrs d a 0x808) ∧ reads (.crrc d a 0x808)
     else writes (.crrs d a 0x808) (old ||| s.rd a) ∧ writes (.crrc d a 0x808) (old &&& ~~~(s.rd a))) ∧
    (if imm = 0 then reads (.crrsi d imm 0x808) ∧ reads (.crrci d imm 0x808)
     else writes (.crrsi d imm 0x808) (old ||| u) ∧ writes (.crrci d imm 0x808) (old &&& ~~~u))) ∧
  ∀ (s : State) (t : Nat) (v : Fin 16), let c := agentOf t; let k := (s.core c).lsSplit.val; s.half c = (0, 12) → k ≤ 12 →
    (s.slot t).run = .waiting (.lsSplit v) → stashLines (s.core c) = [] → (s.core c).puts = [] →
    ∃ u, exec (.lsSplitWrite t) s = .next u ∧ (u.slot t).run = .active ∧ (u.slot t).pc = (s.slot t).pc + 12 ∧
      (u.core c).stash = [] ∧ (u.core c).lsSplit = (if v.val ≤ 12 then v else (s.core c).lsSplit) ∧ u.mem = s.mem ∧
      ∀ a, (u.core c).ls.rd a =
        if v.val ≤ 12 ∧ Nat.min k v.val * 0x4000 ≤ a ∧ a < Nat.max k v.val * 0x4000 then 0 else (s.core c).ls.rd a

/-- In S mode TRET goes to tr.pc in the mode tr.status.pm holds, with sie set from pie, and changes nothing else of its slot's registers (R23), here with
no entry of the slot in its core's context buffer; a tr.pc that is not aligned traps with MISALIGN (R12). HALT stops its slot behind it, once the
slot's TLBIs are complete (R98). IWAIT completes at once when an interrupt is pending, which is then due where tr.status.sie is 1, and else leaves the
rotation (R99). The privileged instructions of majors 0x3D and 0x3E trap with PRIV in U mode, tr.val their base word (R19, R37, R97, R100). The
translation instructions in S mode (R100, R341, R343, R349): a TLBI is issued and runs on, and a selector that names no context issues nothing;
TLBSYNC completes when the slot's TLBIs and the accesses that used what they removed are over, and else leaves the rotation; a completing TLBI removes
the entries that it names from its cluster's TLB and from its cores' TLBs, and from the walkers' caches those on the walk path that it names, with
every second-stage entry of the partition, which is the model's choice (log 10); PT.PROBE delivers the word of a walk over the memory that its
cluster's walkers see, as log 10 has it, and leaves the rotation until the walk's reply; FAULT.RD delivers its word, and with an operand of 4 or more
traps. Which slot of a cluster has its TLBI completed first is the model's order (log 3). -/
def Obligations.SystemAndTranslation : Prop :=
  (∀ (s : State), s.me.mode = .s →
    (s.me.trPc.toNat % 4 = 0 → hasSpills (s.core s.myCore) (slotOf s.cur) = false → ∃ t, exec .tret s = .next t ∧ (∀ u, u ≠ s.cur → t.slot u = s.slot u) ∧ t.mem = s.mem ∧
      t.me = { s.me with
        pc := s.me.trPc, mode := if s.me.trStatus.getLsbD 0 then .s else .u, fresh := none, vprog := none,
        trStatus := (s.me.trStatus &&& 3) ||| (if s.me.trStatus.getLsbD 1 then 4 else 0) }) ∧
    (CanTrap s → s.me.trPc.toNat % 4 ≠ 0 → Traps .tret s .misalign s.me.trPc s.me.pc) ∧
    (tlbisOver s s.cur = true → exec .halt s = .next ((s.past 4).updMe fun x => { x with run := .halted })) ∧
    (tlbisOver s s.cur = false → exec .halt s = .next (s.updMe fun x => { x with run := .waiting .tlbsync })) ∧
    (s.me.tlbis = [] → s.me.tsync = [] → tlbisOver s s.cur = true) ∧
    (s.me.pend ≠ [] → exec .iwait s = .next ((s.updMe fun x => { x with due := x.trStatus.getLsbD 2 }).past 4)) ∧
    (s.me.pend = [] → exec .iwait s = .next (s.updMe fun x => { x with run := .waiting .irq }))) ∧

  (∀ (s : State) (i : Instr) (d a b : Reg), CanTrap s → s.me.mode = .u →
    i ∈ [.tret, .halt, .iwait, .tlbiVa a b, .tlbiCtx b, .tlbiAll, .tlbsync, .partDone a, .ptProbe d a, .faultRd d a] →
    Traps i s .priv (BitVec.ofNat 64 (encodeRaw i).base) s.me.pc) ∧

  ((∀ (s : State) (d a b : Reg), s.me.mode = .s →
    let issues (i : Instr) (o : List Tlbi) : Prop := exec i s = .next ((s.updMe fun x => { x with tlbis := x.tlbis ++ o }).past 4)
    let k := (s.rd b).toNat
    issues (.tlbiVa a b) (if k < 16 then [.va ((s.rd a).toNat % 2 ^ 57) k] else []) ∧
    issues (.tlbiCtx b) (if k < 16 then [.ctx k] else []) ∧ issues .tlbiAll [.all] ∧
    (tlbisOver s s.cur = true → exec .tlbsync s = .next (s.past 4)) ∧
    (tlbisOver s s.cur = false → exec .tlbsync s = .next (s.updMe fun x => { x with run := .waiting .tlbsync })) ∧
    ((∀ e ∈ (s.cluster s.myCluster).wcache, s.mem.word e.pa = e.word) →
      exec (.ptProbe d a) s = doneAway 4 (some .access) (s.redoing (some d)) (s.wr d (ptProbe s s.mem s.myCore (s.rd a)))) ∧
    (∀ p m s', s.partOf s.myCore = some p → walkView s s.myCluster p = (m, s') →
      exec (.ptProbe d a) s = doneAway 4 (some .access) (s.redoing (some d)) (s'.wr d (ptProbe s' m s'.myCore (s'.rd a)))) ∧
    ((s.rd a).toNat < 4 → Gives (.faultRd d a) s 4 d (s.me.efd.toList.getD (s.rd a).toNat 0)) ∧
    (CanTrap s → 4 ≤ (s.rd a).toNat → Traps (.faultRd d a) s .illegalOperand (s.rd a) s.me.pc)) ∧
  ∀ (s : State) (cl t : Nat) (ts : List Nat) (o : Tlbi) (l : List Tlbi),
    (coresOf cl).flatMap (fun c => s.slotsWhere c fun x => !x.tlbis.isEmpty) = t :: ts → (s.slot t).tlbis = o :: l →
    ∃ u, exec (.tlbiCompletion cl) s = .next u ∧ (u.slot t).tlbis = l ∧ u.mem = s.mem ∧
      (let named (e : TlbEntry) : Prop :=
          match o with | .va a p => e.part = p ∧ e.va ≤ a ∧ a < e.va + pageBytes e.size | .ctx p => e.part = p ∧ e.g = false | .all => True
        let onPath (e : WalkEntry) : Prop := match o with
          | .va a p => e.part = p ∧ (e.stage2 = true ∨ a / 2 ^ (12 + 9 * e.lvl) = e.va / 2 ^ (12 + 9 * e.lvl)) | .ctx p => e.part = p | .all => True
        (∀ e, e ∈ (u.cluster cl).tlb ↔ e ∈ (s.cluster cl).tlb ∧ ¬ named e) ∧ (∀ e, e ∈ (u.cluster cl).wcache ↔ e ∈ (s.cluster cl).wcache ∧ ¬ onPath e) ∧
        ∀ c ∈ coresOf cl, ∀ e, (e ∈ (u.core c).itlb ↔ e ∈ (s.core c).itlb ∧ ¬ named e) ∧ (e ∈ (u.core c).dtlb ↔ e ∈ (s.core c).dtlb ∧ ¬ named e)) ∧
      ((s.slot t).run = .waiting .tlbsync → l = [] → (s.slot t).tsync = [] → usersOf s cl o.removes = [] → (u.slot t).run = .active))

/-- LD and LDS of unpoisoned bytes of the core's own scratchpad, and of a handler's data memory: the bytes little-endian, zero- or sign-extended; nothing
but the register and the program counter changes (R25, R175, R217). A load from global memory of a direct region that no cache holds, within one
64-byte block (R164, R172, R175): its value is the bytes of physical memory at the translated address, its slot leaves the rotation until the access
is served (R104), and nothing else changes but what the translation left; an .SC load, a load with release and a load of a strong page do so once
everything they wait for has been performed (R171, R194). A byte that nothing has written reads as zero (log 5), and an access is performed before its
slot's next instruction (log 7). -/
def Obligations.Loads : Prop :=
  (∀ (s : State) (sz : Size) (d base : Reg) (q : MemQual) (x : MemExt), let k := bytesOf sz
    let reads (m : Memory) (a : Nat) (i : Instr) (n : Nat) (signed : Bool) : Prop :=
      Gives i s n d (if signed then (BitVec.ofNat (8 * k) (leNat (m.bytes a k))).signExtend 64 else BitVec.ofNat 64 (leNat (m.bytes a k)))
    let near (ea : Word) (i j : Instr) (n : Nat) : Prop :=
      (ReadsScratchpad s ea k → reads s.myLs (s.lsPlace ea) i n false ∧ reads s.myLs (s.lsPlace ea) j n true) ∧
      (onCore s.cur = false → ea.toNat + k ≤ 0x8000 →
        reads (s.proc s.myProc).dmem ea.toNat i n false ∧ reads (s.proc s.myProc).dmem ea.toNat j n true)
    near (s.rd base) (.ld sz d base q) (.lds sz d base q) 4 ∧
    near (s.rd base + (s.rd x.xindex <<< x.xshift.val) + x.disp.signExtend 64) (.ldExt sz d base q x) (.ldsExt sz d base q x) 12) ∧

  (∀ (s s' : State) (sz : Size) (d base : Reg) (q : MemQual) (x : MemExt) (z : Xlat), let c := s.myCore; let k := bytesOf sz
    onCore s.cur = true → (q.ord = .sc ∨ q.ord = .rel ∨ z.ok = 1 → ordered s c = true) → (s.core c).stash = [] → (s.core c).lines = [] →
    (s.cluster (clusterOf c)).l2dirty = [] → z.ok ≠ 3 → z.pa % 64 + k ≤ 64 →
    s.poisoned = [] → s.hdmSize = 0 → (∃ die, place z.pa = .hbm die) → s.protoOf z.pa = 0 →
    let loads (i : Instr) (ea : Word) (n : Nat) (v : Word) : Prop :=
      spaceOf ea = some .glb → ea.toNat % 64 + k ≤ 64 → backingOf s c ea k = none →
      translate s c (s.me.mode = .u) .load false ea = (.ok z, s') →
      exec i s = doneAway n (some .access) (s.redoing (some d)) (s'.wr d v)
    let v := leNat (s.mem.bytes z.pa k)
    let ea := s.rd base + (s.rd x.xindex <<< x.xshift.val) + x.disp.signExtend 64
    loads (.ld sz d base q) (s.rd base) 4 (BitVec.ofNat 64 v) ∧ loads (.ldExt sz d base q x) ea 12 (BitVec.ofNat 64 v) ∧
    loads (.lds sz d base q) (s.rd base) 4 ((BitVec.ofNat (8 * k) v).signExtend 64) ∧
    loads (.ldsExt sz d base q x) ea 12 ((BitVec.ofNat (8 * k) v).signExtend 64))

/-- ST to the core's own scratchpad: the bytes of the register from the computed address upward hold its low bytes, least significant first, and every
other byte of that and of every other core's local store is as it was; no register, no flag, no byte of global memory and nothing else of the machine
changes (R25, R175). The same of a handler's data memory (R217). ST to global memory of the device, within one 64-byte block (R164, R172, R175, R208):
at .CORE the core's direct line takes the bytes, at .CLU the line of the cluster's L2 that holds the block, at a wider scope the home's memory, and
under a coherence protocol a line that the core may write; a store served beyond the core leaves the rotation until its reply (R104), and a release
has nothing left to wait for here (R171, R197). A byte that nothing has written reads as zero (log 5). -/
def Obligations.LocalStores : Prop :=
  (∀ (s : State) (sz : Size) (a base : Reg) (q : MemQual) (x : MemExt), let k := bytesOf sz
    let stores (i : Instr) (n : Nat) (ea : Word) : Prop :=
      (InScratchpad s ea k → NothingToRelease s q → let o := s.lsPlace ea
        ∃ t, exec i s = .next t ∧ t = { s with slots := t.slots, cores := t.cores } ∧ (∀ u, u ≠ s.cur → t.slot u = s.slot u) ∧
          t.me = { s.me with pc := s.me.pc + BitVec.ofNat 64 n, fresh := none, vprog := none, got := none } ∧
          (∀ c, c ≠ s.myCore → t.core c = s.core c) ∧ t.core s.myCore = { s.core s.myCore with ls := t.myLs } ∧
          ∀ j, t.myLs.rd j = if o ≤ j ∧ j < o + k then (s.rd a).extractLsb' (8 * (j - o)) 8 else s.myLs.rd j) ∧
      (onCore s.cur = false → ea.toNat + k ≤ 0x8000 →
        ∃ t, exec i s = .next t ∧ t = { s with slots := t.slots, procs := t.procs } ∧
          t.me = { s.me with pc := s.me.pc + BitVec.ofNat 64 n, fresh := none, vprog := none, got := none } ∧
          (∀ p, p ≠ s.myProc → t.proc p = s.proc p) ∧
          ∀ j, (t.proc s.myProc).dmem.rd j =
            if ea.toNat ≤ j ∧ j < ea.toNat + k then (s.rd a).extractLsb' (8 * (j - ea.toNat)) 8 else (s.proc s.myProc).dmem.rd j)
    stores (.st sz a base q) 4 (s.rd base) ∧
    stores (.stExt sz a base q x) 12 (s.rd base + (s.rd x.xindex <<< x.xshift.val) + x.disp.signExtend 64)) ∧

  (∀ (s s' : State) (sz : Size) (a base : Reg) (q : MemQual) (x : MemExt) (z : Xlat), let c := s.myCore; let k := bytesOf sz
    let blk := z.pa / 64; let lo := z.pa % 64
    onCore s.cur = true → (s.core c).stash = [] → z.ok ≠ 3 → lo + k ≤ 64 → s.hdmSize = 0 → (∃ die, place z.pa = .hbm die) →
    (q.ord = .rel ∨ q.ord = .sc ∨ z.ok = 1 ∨ s.me.relFence.isSome = true → AllReleased s ∧ seenSettled s c = true) →
    let takes (d d' : Block) (w w' : BitVec 64) : Prop :=
      (∀ j, j < 64 → blkByte d' j = if lo ≤ j ∧ j < lo + k then (s.rd a).extractLsb' (8 * (j - lo)) 8 else blkByte d j) ∧
      ∀ j, w'.getLsbD j = (w.getLsbD j || (decide (lo ≤ j) && decide (j < lo + k)))
    let stores (i : Instr) (n : Nat) (ea : Word) : Prop := spaceOf ea = some .glb → ea.toNat % 64 + k ≤ 64 → backingOf s c ea k = none →
      translate s c (s.me.mode = .u) .store false ea = (.ok z, s') →
      let ends (t : State) (run : Run) : Prop := exec i s = .next t ∧ (∀ u, u ≠ s.cur → t.slot u = s.slot u) ∧
        t.me = { s.me with pc := s.me.pc + BitVec.ofNat 64 n, fresh := none, vprog := none, got := none, run := run, redo := t.me.redo }
      (∀ l, lineOf s c blk = some l → l.stash = false → l.stream = none → l.l2 = false →
        (s.protoOf z.pa = 0 ∧ l.tag = none ∧ q.scope = .core) ∨ (s.protoOf z.pa ≠ 0 ∧ l.tag = some .writable) →
        ∃ t l', ends t s.me.run ∧ t.mem = s.mem ∧ lineOf t c blk = some l' ∧ l'.tag = l.tag ∧ takes l.data l'.data l.written l'.written ∧
          ∀ b, b ≠ blk → lineOf t c b = lineOf s c b) ∧
      (s.protoOf z.pa = 0 → q.scope = .clu → ∀ l, look blk (s.cluster (clusterOf c)).l2dirty = some l → ∃ t l', ends t (.waiting .access) ∧
        t.mem = s.mem ∧ look blk (t.cluster (clusterOf c)).l2dirty = some l' ∧ takes l.data l'.data l.written l'.written) ∧
      (s.protoOf z.pa = 0 → 2 ≤ scopeRank q.scope → ringOn s (s.homeOf z.pa) = false → (∀ p, s.partOf c = some p → (s.part p).mode ≠ .replay) →
        ∃ t, ends t (.waiting .access) ∧ ∀ j, t.mem.rd j =
          if z.pa ≤ j ∧ j < z.pa + k then (s.rd a).extractLsb' (8 * (j - z.pa)) 8 else s.mem.rd j)
    stores (.st sz a base q) 4 (s.rd base) ∧
    stores (.stExt sz a base q x) 12 (s.rd base + (s.rd x.xindex <<< x.xshift.val) + x.disp.signExtend 64))

/-- Atomics, compare-and-swap and nibble stores on the core's own scratchpad: each operation's new cell from the old one and the operand, the old value
returned, and nothing else changed, where no byte of the cell is poisoned (R174, R176, R177, R179). -/
def Obligations.LocalAtomics : Prop :=
  ∀ (s : State) (sz : Size) (d base : Reg) (q : MemQual) (x : MemExt), sz = .w ∨ sz = .d →
    let k := bytesOf sz; let ea := s.rd base + (s.rd x.xindex <<< x.xshift.val) + x.disp.signExtend 64; let v := s.rd d
    let both (i j : Instr) (r : Reg) (k : Nat) (f : Nat → Nat) : Prop :=
      AtomicInScratchpad i s 4 r (s.rd base) q k f ∧ AtomicInScratchpad j s 12 r ea q k f
    let op (i j : Instr) (o : AtomOp) : Prop := both i j d k (newCell (8 * k) o v)
    op (.atomSwap sz d base q) (.atomSwapExt sz d base q x) .swap ∧ op (.atomAdd sz d base q) (.atomAddExt sz d base q x) .add ∧
    op (.atomAnd sz d base q) (.atomAndExt sz d base q x) .and ∧ op (.atomOr sz d base q) (.atomOrExt sz d base q x) .or ∧
    op (.atomXor sz d base q) (.atomXorExt sz d base q x) .xor ∧ op (.atomMin sz d base q) (.atomMinExt sz d base q x) .min ∧
    op (.atomMax sz d base q) (.atomMaxExt sz d base q x) .max ∧
    both (.atomFadd d base q) (.atomFaddExt d base q x) d 4 (newCell 32 .fadd v) ∧
    both (.cas sz d base q) (.casExt sz d base q x) d k
      (fun old => if old = v.toNat % 2 ^ (8 * k) then (s.rd (reg (d.val + 1))).toNat % 2 ^ (8 * k) else old) ∧
    both (.stnibLo d base q) (.stnibLoExt d base q x) 0 1 (fun old => old / 16 * 16 + v.toNat % 16) ∧
    both (.stnibHi d base q) (.stnibHiExt d base q x) 0 1 (fun old => old % 16 + v.toNat % 16 * 16)

/-- A scalar access of the core's own scratchpad that runs past its end, or one of another core's scratchpad, traps and does nothing: tr.val is the first
byte that is not there, and for a foreign pointer the address (R21, R159); a load of poisoned bytes traps at the first of them (R434). An append-class
instruction whose address is not on an append page, and a plain store to an append page, trap with STORE_FAULT or LOAD_FAULT at the address (R248,
R260, R261). -/
def Obligations.AddressFaults : Prop :=
  (∀ (s : State) (sz : Size) (d base : Reg) (q : MemQual), let ea := s.rd base; let c := s.myCore
    CanTrap s → spaceOf ea = some .spd →
    (fld ea.toNat 45 11 ≠ c → Traps (.ld sz d base q) s .spaceForeign ea s.me.pc ∧ Traps (.st sz d base q) s .spaceForeign ea s.me.pc) ∧
    (fld ea.toNat 45 11 = c → s.spSize c < offsetOf ea + bytesOf sz → let v := ea + BitVec.ofNat 64 (s.spSize c - offsetOf ea)
      Traps (.ld sz d base q) s .loadFault v s.me.pc ∧ Traps (.st sz d base q) s .storeFault v s.me.pc) ∧
    (InScratchpad s ea (bytesOf sz) → ∀ i, poisonAt s (lsBlk c) (s.lsPlace ea) (bytesOf sz) = some i →
      Traps (.ld sz d base q) s .loadFault (ea + BitVec.ofNat 64 i) s.me.pc)) ∧

  (∀ (s s' : State) (sz : Size) (d base : Reg) (q : MemQual) (sc : Scope) (z : Xlat), let ea := s.rd base
    onCore s.cur = true → spaceOf ea = some .glb → 
    (translate s s.myCore (s.me.mode = .u) .store true ea = (.ok z, s') → z.ok ≠ 3 →
      exec (.append sz d base false sc) s = trap .storeFault ea s' ∧ exec (.seal d base sc) s = trap .storeFault ea s') ∧
    (translate s s.myCore (s.me.mode = .u) .load true ea = (.ok z, s') → z.ok ≠ 3 →
      exec (.tailrd d base sc) s = trap .loadFault ea s') ∧
    (translate s s.myCore (s.me.mode = .u) .store false ea = (.ok z, s') → z.ok = 3 → ea.toNat % 64 + bytesOf sz ≤ 64 →
      exec (.st sz d base q) s = trap .storeFault ea s'))

/-- CCLEAN, CFLUSH and CODEFLUSH over at most 65,536 bytes of a global pointer complete at once where the caches hold nothing, and leave memory and the
caches as they are. Of one block that the core holds: a direct line's written bytes go home, where the scope is wider than the cluster, CFLUSH leaves
no line and CCLEAN keeps it with nothing written; a read-only line stays under CCLEAN, and under CFLUSH it is gone and its home is told; a line that
the core may write goes home in a PUTX, stays read-only under CCLEAN and is gone under CFLUSH, and the slot waits until the home has accepted it.
CODEFLUSH over a range waits for its acknowledgements, and when they come, once the news of what it wrote back has reached every holder, its core has
none of the blocks in its instruction cache (R181, R182, R204, R209). PREF never traps: it completes, changing no register but the program counter,
and, where its core's caches hold nothing that must make room, no byte of memory; where none of its blocks lies in global memory it has no effect at
all (R180). That one step serves the whole range, and that the bytes reach memory in it, is the model's choice (logs 7 and 9). -/
def Obligations.CacheControl : Prop :=
  ((∀ (s : State) (n base : Reg) (sc : Scope) (x : MemExt), CachesEmpty s s.myCore → (s.rd n).toNat ≤ 65536 →
    let ext := s.rd base + (s.rd x.xindex <<< x.xshift.val) + x.disp.signExtend 64
    let cleans (i : Instr) (k : Nat) (ea : Word) : Prop := spaceOf ea = some .glb →
      ∃ t, exec i s = .next t ∧ t.mem = s.mem ∧ (∀ c, (t.core c).lines = (s.core c).lines) ∧ t.net = s.net ∧
        t.me = { s.me with pc := s.me.pc + BitVec.ofNat 64 k, fresh := none, vprog := none, got := none }
    let tells (i : Instr) (k : Nat) (ea : Word) : Prop := spaceOf ea = some .glb →
      if s.rd n = 0 then exec i s = .next (s.past k)
      else ∃ t, exec i s = .next t ∧ t.mem = s.mem ∧
        t.me = { s.me with run := .waiting (.codeflush (ea.toNat / 64) ((ea.toNat + (s.rd n).toNat - 1) / 64) sc k) }
    cleans (.cclean n base sc) 4 (s.rd base) ∧ cleans (.ccleanExt n base sc x) 12 ext ∧ cleans (.cflush n base sc) 4 (s.rd base) ∧
    cleans (.cflushExt n base sc x) 12 ext ∧ tells (.codeflush n base sc) 4 (s.rd base) ∧ tells (.codeflushExt n base sc x) 12 ext) ∧
  (∀ (s : State) (n base : Reg) (sc : Scope) (x : MemExt) (pa : Nat) (l : Line), let c := s.myCore; let blk := pa / 64
    let ext := s.rd base + (s.rd x.xindex <<< x.xshift.val) + x.disp.signExtend 64
    1 ≤ (s.rd n).toNat → (s.rd n).toNat ≤ 64 → lineOf s c blk = some l → (s.core c).puts = [] → (s.cluster (clusterOf c)).l2dirty = [] →
    (∀ o ∈ coresOf (clusterOf c), o ≠ c → (s.core o).lines = [] ∧ (s.core o).puts = []) →
    let acts (flush : Bool) (i : Instr) (k : Nat) (ea : Word) : Prop := spaceOf ea = some .glb → ea.toNat % 64 = 0 → physOf s s.cur ea = (some pa, s) →
      let past : Slot := { s.me with pc := s.me.pc + BitVec.ofNat 64 k, fresh := none, vprog := none, got := none }
      let put (type : Nat) (w2 : Word) (b : Option Block) : Msg := mkMsg s c (slotOf s.cur) (procAgent (s.homeOf (blk * 64))) type 0xFF (blk * 64) w2 0 0 b none
      (l.tag = none → 2 ≤ scopeRank sc → ∃ t, exec i s = .next t ∧ t.me = past ∧ lineOf t c blk = (if flush = true then none else some { l with written := 0 }) ∧
        ∀ j, t.mem.rd j = if blk * 64 ≤ j ∧ j < blk * 64 + 64 ∧ l.written.getLsbD (j - blk * 64) = true then blkByte l.data (j - blk * 64) else s.mem.rd j) ∧
      (l.l2 = false ∨ sc ≠ .core → l.tag = some .readOnly →
        ∃ t, exec i s = .next t ∧ t.mem = s.mem ∧ lineOf t c blk = (if flush = true then none else some l) ∧
          t.net = (if flush = true then s.net ++ [put Ty.puts 0 none] else s.net) ∧ t.me = if flush = true then { s.me with run := .waiting .puts } else past) ∧
      (l.l2 = false ∨ sc ≠ .core → l.tag = some .writable → relPending s c blk = false → s.protoOf (blk * 64) ∉ [0, 2, 4, 6] →
        ∃ t, exec i s = .next t ∧ t.mem = s.mem ∧
          lineOf t c blk = (if flush = true then none else some { l with tag := some .readOnly, written := 0, rel := [] }) ∧
          t.net = s.net ++ [put Ty.putx (if flush = true then 0 else 1) (some l.data)] ∧ t.me = { s.me with run := .waiting .puts })
    acts false (.cclean n base sc) 4 (s.rd base) ∧ acts false (.ccleanExt n base sc x) 12 ext ∧
    acts true (.cflush n base sc) 4 (s.rd base) ∧ acts true (.cflushExt n base sc x) 12 ext) ∧
  ∀ (s : State) (t first last n : Nat) (sc : Scope), (s.slot t).run = .waiting (.codeflush first last sc n) →
    let blks := (physBlocks s t ((List.range (last + 1 - first)).map fun i => BitVec.ofNat 64 ((first + i) * 64))).1
    ((∀ x ∈ s.mcasts, x.2.writer.isSome = true → x.2.addr / 64 ∉ blks) →
      ∃ u, exec (.codeflushAcknowledgement t) s = .next u ∧ (u.slot t).run = .active ∧ (u.slot t).pc = (s.slot t).pc + BitVec.ofNat 64 n ∧
        u.mem = s.mem ∧ ∀ c, (look c s.cores).isSome = true → inScope sc (agentOf t) c = true →
          ∀ e ∈ (u.core c).icache, e ∈ (s.core c).icache ∧ e.1 ∉ blks) ∧
    ((∃ x ∈ s.mcasts, x.2.writer.isSome = true ∧ x.2.addr / 64 ∈ blks) → exec (.codeflushAcknowledgement t) s = .next s)) ∧

  (∀ (s : State) (n base : Reg) (ev : Fin 8) (x : MemExt),
    let pref (i : Instr) (k : Nat) (ea : Word) : Prop :=
      (∃ t, exec i s = .next t ∧ (∀ u, u ≠ s.cur → t.slot u = s.slot u) ∧ ((s.core s.myCore).lines = [] → t.mem = s.mem) ∧
        t.me = { s.me with pc := s.me.pc + BitVec.ofNat 64 k, fresh := none, vprog := none, got := none }) ∧
      ((∀ a ∈ blocksOf ea (Nat.min (Nat.max (s.rd n).toNat 1) 4096), spaceOf a ≠ some .glb ∧ spaceOf a ≠ some .prv) → exec i s = .next (s.past k))
    pref (.pref n base ev) 4 (s.rd base) ∧
    pref (.prefExt n base ev x) 12 (s.rd base + (s.rd x.xindex <<< x.xshift.val) + x.disp.signExtend 64))

/-- FENCE (R206): on a protocol processor and at .CORE it has no effect; .ACQ marks the slot's later loads and .REL its later stores, where something is
outstanding, and of two marks the wider scope stays; .SC completes where nothing of the core is outstanding, and every write that it has seen has
reached every holder, and it takes the mark of a release away, but for one at .SYS that posted writes to the host still wait for (R401). IFENCE
empties the slot's instruction buffer (R182). STASH.MAP of a valid range adds the mapping, and STASH.UNMAP drops it where the core holds no line of it
(R183). SPACE.TEST names a pointer's space, and SPACE.CAST turns an offset into a pointer of its own core and a pointer of the space into its offset
(R184, R185). That a fence is a mark on its slot is the model's form of R206 (log 7). -/
def Obligations.FencesStashAndPointers : Prop :=
  (∀ (s : State) (o : FenceOrd) (sc : Scope),
    (onCore s.cur = false ∨ sc = .core → exec (.fence o sc) s = .next (s.past 4)) ∧
    (onCore s.cur = true → sc ≠ .core →
      let wider (m : Option Scope) : Scope := match m with | some f => if scopeRank sc < scopeRank f then f else sc | none => sc
      exec (.fence .acq sc) s = .next ((s.updMe fun x => { x with acqFence := some (wider x.acqFence) }).past 4) ∧
      exec (.fence .rel sc) s =
        .next ((s.updMe fun x => { x with
          relFence := if released s s.myCore = true ∧ s.posted = 0 then x.relFence else some (wider x.relFence) }).past 4) ∧
      (ordered s s.myCore = true → (4 ≤ scopeRank sc → s.me.ff = 0) → (sc = .sys → s.posted = 0) →
        exec (.fence .sc sc) s = .next ((s.updMe fun x => { x with
          acqFence := some (wider x.acqFence), relFence := if s.posted ≠ 0 ∧ x.relFence = some .sys then x.relFence else none }).past 4)))) ∧

  (∀ (s : State) (a d base : Reg) (x : MemExt), let c := s.myCore; let q := s.core c
    let ext := s.rd base + (s.rd x.xindex <<< x.xshift.val) + x.disp.signExtend 64; let y := s.rd a
    exec .ifence s = .next ((s.updMe fun z => { z with ibuf := [] }).past 4) ∧
    (let len := y.toNat % 2 ^ 18; let k := y.toNat / 2 ^ 32 % 2 ^ 18
     let maps (i : Instr) (n : Nat) (g : Word) : Prop :=
      spaceOf g = some .glb → g.toNat % 64 = 0 → y.toNat = len + k * 2 ^ 32 → len ≠ 0 → len % 64 = 0 → k % 64 = 0 →
      k + len ≤ s.stashSize c → q.stash.length < 8 → lsBusy s c = false →
      (∀ m ∈ q.stash, (g.toNat + len ≤ m.g ∨ m.g + m.n ≤ g.toNat) ∧ (k + len ≤ m.k ∨ m.k + m.n ≤ k)) →
      exec i s = .next ((s.updCore c fun z => { z with stash := z.stash ++ [⟨g.toNat, len, k⟩] }).past n)
     maps (.stashMap a base) 4 (s.rd base) ∧ maps (.stashMapExt a base x) 12 ext) ∧
    (let unmaps (i : Instr) (n : Nat) (g : Word) : Prop :=
      (∃ m ∈ q.stash, m.g = g.toNat) → q.lines = [] → q.puts = [] →
      ∃ t, exec i s = .next t ∧ (t.core c).stash = (q.stash.filter fun m => m.g ≠ g.toNat) ∧ t.mem = s.mem ∧
        t.me = { s.me with pc := s.me.pc + BitVec.ofNat 64 n, fresh := none, vprog := none, got := none, unmaps := s.me.unmaps.filter fun u => u.1 != s.me.pc }
     unmaps (.stashUnmap base) 4 (s.rd base) ∧ unmaps (.stashUnmapExt base x) 12 ext) ∧
    Gives (.spaceTest d a) s 4 d
      (match spaceOf y with
        | some .glb => 0 | some .prv => 1 | none => 4
        | some .spd => if fld y.toNat 45 11 = c then 2 else 0x102
        | some .clu => if fld y.toNat 48 7 = clusterOf c then 3 else 0x103) ∧
    (canonical y = true → Gives (.spaceCastGen .glb d a) s 4 d y) ∧
    (y.toNat < 2 ^ 56 → Gives (.spaceCastGen .prv d a) s 4 d (y ||| 0xFC00000000000000)) ∧
    (onCore s.cur = true → y.toNat < 2 ^ 18 → Gives (.spaceCastGen .spd d a) s 4 d (y ||| (0xFE00000000000000 ||| BitVec.ofNat 64 c <<< 45))) ∧
    (onCore s.cur = true → y.toNat < 2 ^ 21 → Gives (.spaceCastGen .clu d a) s 4 d (y ||| (0xFD00000000000000 ||| BitVec.ofNat 64 (clusterOf c) <<< 48))) ∧
    ∀ sp, spaceOf y = some sp → Gives (.spaceCastOff sp d a) s 4 d (BitVec.ofNat 64 (offsetOf y)))

/-- APPEND, APPEND.V, TAILRD, SEAL and FREE.SEAL on an append page: each asks the page's home in one message, an append with the bytes it carries and
their number, and waits for the result (R260 to R262); TAILRD asks the replica agent of its own die where the page allows it (R256). Its reply tag is
128 plus the slot, where no earlier reply is still to come under it. FREE.SEAL in U mode traps with PRIV (R262). An atomic on global memory of the
device is performed at its block's home: with no copy of the block in its caches the core posts one ATOM message with the operation's code and
operands (R176, R209, R215); that its word 1 names the byte of the cell, and not its block alone, is read from R176 and R215 (log 22). That the
message leaves in the step of its instruction is the model's choice (log 3). -/
def Obligations.AppendAndAtomicRequests : Prop :=
  (∀ (s s' : State) (sz : Size) (d base : Reg) (rel : Bool) (sc : Scope) (x : MemExt) (z : Xlat), onCore s.cur = true → AllReleased s →
    look (128 + slotOf s.cur) (s.core s.myCore).reqs = none →
    let ext := s.rd base + (s.rd x.xindex <<< x.xshift.val) + x.disp.signExtend 64
    let blk := z.pa / 64 * 64; let home := procAgent (s.homeOf z.pa)
    let page (k : Kind) (ea : Word) : Prop :=
      spaceOf ea = some .glb ∧ translate s s.myCore (s.me.mode = .u) k true ea = (.ok z, s') ∧ z.ok = 3 ∧ s.protoOf z.pa = 7
    let appends (i : Instr) (n : Nat) (ea : Word) (l : List Byte) : Prop := page .store ea →
      Asks i s n d z.pa ea (s.ask home Ty.apnd blk (BitVec.ofNat 64 l.length) 0 0 (some (blkOf l)))
    let tails (i : Instr) (n : Nat) (ea : Word) : Prop := page .load ea →
      Asks i s n d z.pa ea (s.ask (if z.nr then home else readAgent s s.myCore z.pa) Ty.tailq blk 0 0 0 none)
    let seals (i : Instr) (n : Nat) (ea : Word) : Prop := page .store ea → Asks i s n d z.pa ea (s.ask home Ty.sealq blk 0 0 0 none)
    let frees (i : Instr) (n : Nat) (ea : Word) : Prop := s.me.mode = .s → ea.toNat < 2 ^ 52 → s.protoOf ea.toNat = 7 →
      Asks i s n 0 ea.toNat ea (s.ask (procAgent (s.homeOf ea.toNat)) Ty.sealq (ea.toNat / 64 * 64) 1 0 0 none)
    let low := leBytes (bytesOf sz) (s.rd d).toNat; let vec := blkBytes (s.rdv d) 0 (s.rd d).toNat
    appends (.append sz d base rel sc) 4 (s.rd base) low ∧ appends (.appendExt sz d base rel sc x) 12 ext low ∧
    (1 ≤ (s.rd d).toNat → (s.rd d).toNat ≤ 64 →
      appends (.appendV d base rel sc) 4 (s.rd base) vec ∧ appends (.appendVExt d base rel sc x) 12 ext vec) ∧
    tails (.tailrd d base sc) 4 (s.rd base) ∧ tails (.tailrdExt d base sc x) 12 ext ∧
    seals (.seal d base sc) 4 (s.rd base) ∧ seals (.sealExt d base sc x) 12 ext ∧
    frees (.freeSeal base) 4 (s.rd base) ∧ frees (.freeSealExt base x) 12 ext ∧
    (CanTrap s → s.me.mode = .u → ∀ i ∈ [Instr.freeSeal base, .freeSealExt base x], Traps i s .priv (BitVec.ofNat 64 (encodeRaw i).base) s.me.pc)) ∧

  (∀ (s s' : State) (sz : Size) (d base : Reg) (q : MemQual) (x : MemExt) (z : Xlat), sz = .w ∨ sz = .d →
    onCore s.cur = true → AllReleased s → seenSettled s s.myCore = true → CachesEmpty s s.myCore → look (128 + slotOf s.cur) (s.core s.myCore).reqs = none → z.ok ≠ 3 → (∃ die, place z.pa = .hbm die) →
    (s.protoOf z.pa = 0 → biasAway s z.pa = false) →
    let ext := s.rd base + (s.rd x.xindex <<< x.xshift.val) + x.disp.signExtend 64; let big := if sz = .d then 64 else 0
    let v := s.rd d; let w := s.rd (reg (d.val + 1))
    let asks (i : Instr) (n : Nat) (ea : Word) (r : Reg) (k code : Nat) (y z' : Word) : Prop :=
      spaceOf ea = some .glb → ea.toNat % k = 0 → translate s s.myCore (s.me.mode = .u) .store false ea = (.ok z, s') →
      Asks i s n r z.pa ea (s.ask (procAgent (s.homeOf z.pa)) Ty.atom z.pa (BitVec.ofNat 64 code) y z' none)
    let both (i j : Instr) (r : Reg) (k code : Nat) (y z' : Word) : Prop :=
      asks i 4 (s.rd base) r k code y z' ∧ asks j 12 ext r k code y z'
    let op (i j : Instr) (code : Nat) : Prop := both i j d (bytesOf sz) (code + big) v 0
    op (.atomSwap sz d base q) (.atomSwapExt sz d base q x) 0 ∧ op (.atomAdd sz d base q) (.atomAddExt sz d base q x) 1 ∧
    op (.atomAnd sz d base q) (.atomAndExt sz d base q x) 2 ∧ op (.atomOr sz d base q) (.atomOrExt sz d base q x) 3 ∧
    op (.atomXor sz d base q) (.atomXorExt sz d base q x) 4 ∧ op (.atomMin sz d base q) (.atomMinExt sz d base q x) 5 ∧
    op (.atomMax sz d base q) (.atomMaxExt sz d base q x) 6 ∧ both (.atomFadd d base q) (.atomFaddExt d base q x) d 4 7 v 0 ∧
    both (.cas sz d base q) (.casExt sz d base q x) d (bytesOf sz) (8 + big) v w ∧
    both (.stnibLo d base q) (.stnibLoExt d base q x) 0 1 16 v 0 ∧ both (.stnibHi d base q) (.stnibHiExt d base q x) 0 1 48 v 0)

/-- A slot that starts a record is in U mode at its code pointer with s3 the frame pointer, s4 the argument, s5 the join cell, s6 and s7 the bounds of a
range record and zero otherwise, every other scalar register and every vector register zero, fp.mode, fp.flags and cnt.ovf zero, and sr.state from the
frame pointer and the argument, never zero (R27); no other slot changes. -/
def Obligations.RecordStart : Prop :=
  ∀ (s : State) (t : Nat) (r : Rec), r.code.toNat % 4 = 0 →
    let u := startRec s t r; let x := u.slot t; let h : BitVec 32 := (r.frame ^^^ r.arg).setWidth 32
    x.mode = .u ∧ x.pc = r.code ∧ x.run = .active ∧ x.record = some r ∧
    (∀ i : Reg, x.rs i = if i = 3 then r.frame else if i = 4 then r.arg else if i = 5 then r.join &&& ~~~63
      else if i = 6 then (match r.range with | some (lo, _, _) => lo | none => 0)
      else if i = 7 then (match r.range with | some (_, hi, _) => hi | none => 0) else 0) ∧
    (∀ i : Reg, x.rv i = 0) ∧ x.fpMode = 0 ∧ x.fpFlags = 0 ∧ x.cntOvf = false ∧ x.srState = (if h = 0 then 1 else h) ∧ x.srState ≠ 0 ∧
    (∀ v, v ≠ t → u.slot v = s.slot v) ∧ u.mem = s.mem

/-- FORK, FORK.INC, FORKM and FORKM.INC (R143): the record becomes the newest entry of the core's deque and the slot goes on; with .INC its cell is
counted up in the same step. FORKM reads the record, here from the core's scratchpad and for the first time. A full deque with no backing area refuses
a fork: ILLEGAL_OPERAND, with tr.val all ones, and no record is queued (R134, R143). A cell is counted at its home in one step (log 14). -/
def Obligations.Forks : Prop :=
  (∀ (s : State) (d a b c : Reg), onCore s.cur = true → AllReleased s → (s.core s.myCore).deque.length < 64 →
    let r : Rec := { code := s.rd d, frame := s.rd a, arg := s.rd b, join := s.rd c, first := s.myCore, launch := launchOf s s.cur }
    let ea := s.rd a; let l := s.myLs.bytes (s.lsPlace ea) 32; let k := { recOf l s.myCore with launch := launchOf s s.cur }
    let anew : Prop := ∀ g, s.me.got = some g → g.1 ≠ s.me.pc
    let offers (i : Instr) (r : Rec) : Prop := (r.join.toNat / 8) % 8 = 0 →
      ∃ t, exec i s = .next t ∧ (t.core s.myCore).deque = (s.core s.myCore).deque ++ [r] ∧ t.mem = s.mem ∧
        t.me = { s.me with pc := s.me.pc + 4, fresh := none, vprog := none, got := none } ∧ ∀ u, u ≠ s.cur → t.slot u = s.slot u
    let counts (i : Instr) (r : Rec) (s' : State) (pa : Nat) : Prop := (r.join.toNat / 8) % 8 = 0 → r.cell ≠ 0 →
      cellAddr s s.cur r.cell r.join = .ok pa s' → released s' s.myCore = true → s'.posted = 0 → (s'.core s.myCore).deque.length < 64 →
      exec i s = .next ((pushBottom (cellCount s' s'.cur pa fun n => n + 1) s'.myCore r).past 4)
    offers (.fork d a b c) r ∧ (ReadsScratchpad s ea 32 → ea.toNat % 32 = 0 → anew → offers (.forkm a) k) ∧
    ∀ s' pa, counts (.forkInc d a b c) r s' pa ∧ (ReadsScratchpad s ea 32 → ea.toNat % 32 = 0 → counts (.forkmInc a) k s' pa)) ∧

  (∀ (s : State) (d a b c : Reg), CanTrap s → (s.core s.myCore).deque.length = 64 → hasBacking s s.myCore = false →
    ((s.rd c).toNat / 8) % 8 = 0 → Traps (.fork d a b c) s .illegalOperand 0xFFFFFFFFFFFFFFFF s.me.pc)

/-- DONE and a JOIN of no cell end the record, and the slot is idle (R146, R147). A JOIN of a cell counts it down: the last one starts the cell's
continuation in the same slot, any other leaves the slot idle, and a cell of zero traps. YIELD queues the record it reads as the oldest entry and ends
the running one (R144). A cell is counted at its home in one step (log 14). -/
def Obligations.RecordEnds : Prop :=
  ∀ (s s' : State) (sc : Scope) (a : Reg) (pa : Nat), s.me.lv = none → let adr := s.rd a
    let ended (x : Slot) : Slot := { x with run := .idle, record := none, mode := .u, fresh := none, vprog := none, lv := none, got := none, unmaps := [] }
    exec .done s = .next (s.setSlot s.cur (ended s.me)) ∧
    (adr = 0 → exec (.join sc a) s = .next (s.setSlot s.cur (ended s.me))) ∧
    (adr ≠ 0 → adr.toNat % 64 = 0 → cellAddr s s.cur adr adr = .ok pa s' → s'.me.ff = 0 → AllReleased s' →
      let n := homeWord s' pa; let k := { recOf (homeBytes s' (pa + 32) 32) s'.myCore with launch := launchOf s' s'.cur }; let s1 := cellCount s' s'.cur pa fun m => m - 1
      (n = 0 → exec (.join sc a) s = trap .illegalOperand adr s') ∧
      (n = 1 → k.code ≠ 0 → exec (.join sc a) s = .next (startRec (endRecord s1 s1.cur) s1.cur k)) ∧
      (n ≠ 0 → n ≠ 1 ∨ k.code = 0 → exec (.join sc a) s = .next (endRecord s1 s1.cur))) ∧
    (let l := s.myLs.bytes (s.lsPlace adr) 32; let r := { recOf l s.myCore with launch := launchOf s s.cur }
     ReadsScratchpad s adr 32 → adr.toNat % 32 = 0 → (∀ g, s.me.got = some g → g.1 ≠ s.me.pc) → AllReleased s → (r.join.toNat / 8) % 8 = 0 → (s.core s.myCore).backing = [] →
      (s.core s.myCore).deque.length < 64 → ∃ t, exec (.yield a) s = .next t ∧
        (t.core s.myCore).deque = r :: (s.core s.myCore).deque ∧ t.me = ended s.me ∧ t.mem = s.mem)

/-- The pieces of a range cover it: with lo < hi, a grain that is not zero and n pieces, at most the units of the range, the first begins at lo, the last
ends at hi, each begins where the one before it ends, and none is empty (R138). RFORK of a record of domain core with no join cell, read from the
core's scratchpad (R138, R145): an empty range queues nothing; else the range is split in at most one piece more than the core has idle slots, and the
pieces go to the core's deque so that the lowest is taken first. -/
def Obligations.RangesAreCut : Prop :=
  (∀ (lo hi g n : Nat), lo < hi → 0 < g → 0 < n → n ≤ units lo hi g →
    (piece lo hi g n 0).1 = lo ∧ (piece lo hi g n (n - 1)).2 = hi ∧
    (∀ p, p + 1 < n → (piece lo hi g n p).2 = (piece lo hi g n (p + 1)).1) ∧
    (∀ p, p < n → (piece lo hi g n p).1 < (piece lo hi g n p).2) ∧
    ∀ p q, p < n → q < n → (piece lo hi g n p).2 - (piece lo hi g n p).1 ≤ (piece lo hi g n q).2 - (piece lo hi g n q).1 + 2 * g) ∧

  (∀ (s : State) (a : Reg), let ea := s.rd a; let c := s.myCore; let l := s.myLs.bytes (s.lsPlace ea) 64
    let w (i : Nat) : Word := BitVec.ofNat 64 (leNat ((l.drop i).take 8))
    let r := { recOf l c with range := some (w 32, w 40, w 48), launch := launchOf s s.cur }
    ReadsScratchpad s ea 64 → ea.toNat % 64 = 0 → r.join.toNat % 4 = 0 → r.join.toNat / 8 = 0 → w 48 ≠ 0 → w 56 = 0 →
    (∀ q ∈ s.cores, q.2.spillPath = []) →
    ((w 40).toNat ≤ (w 32).toNat → exec (.rfork a) s = .next (s.past 4)) ∧
    ((w 32).toNat < (w 40).toNat → let n := Nat.min ((idleSlots s c).length + 1) r.units; let ps := (r.pieces n).map fun x => { x with first := c }
      (s.core c).deque.length + n ≤ 64 →
      ∃ t, exec (.rfork a) s = .next t ∧ (t.core c).deque = (s.core c).deque ++ (ps.drop 1).reverse ++ ps.take 1 ∧ t.mem = s.mem ∧
        t.me = { s.me with pc := s.me.pc + 4, fresh := none, vprog := none, got := none }))

/-- The hardware of the deques (R134 to R137): a pop gives the lowest idle slot with no pending interrupt the newest urgent entry, or the newest; a spill
moves the oldest entries to the backing area and a refill brings the newest back; a steal puts the entry the search finds in transit, or ends the
search, and an arrival starts the record in the lowest such slot, or queues it as the newest entry. The roots of the dies (R139): a die with an idle
core deals the share that waits at its root, and a dry die takes the upper half of the units of the largest share that waits elsewhere, or all of it
when it is one unit; a share with a join cell is dealt when the cell's home has the cell (R132). One event is one step (logs 2 and 3). -/
def Obligations.DequeAndShareEvents : Prop :=
  (∀ (s : State) (c : Nat), let q := s.core c
    (∀ t ts i r, freeSlots s c = t :: ts → q.deque ≠ [] → i = (lastWhere Rec.urgent q.deque).getD (q.deque.length - 1) → q.deque[i]? = some r →
      exec (.recordPop c) s = .next (startRec (settle (s.updCore c fun q => { q with deque := q.deque.eraseIdx i }) c) t r)) ∧
    (48 ≤ q.deque.length → hasBacking s c = true → q.backing.length + 32 ≤ 4096 → q.spillPath = [] →
      ∃ t, exec (.dequeSpill c) s = .next t ∧ (t.core c).deque = q.deque.drop 32 ∧ (t.core c).backing = q.backing ++ q.deque.take 32 ∧
        t.mem = s.mem) ∧
    (q.deque = [] → q.backing ≠ [] → freeSlots s c ≠ [] → ∃ t, exec (.dequeRefill c) s = .next t ∧
      (t.core c).backing ++ (t.core c).deque = q.backing ∧ (t.core c).deque.length = Nat.min 32 q.backing.length ∧ t.slots = s.slots) ∧
    (maySteal s c = true → findVictim s c = none →
      exec (.stealSearch c) s = .next (s.updCore c fun q => { q with searching := false })) ∧
    (∀ v i r, maySteal s c = true → findVictim s c = some (v, i) → (s.core v).deque[i]? = some r →
      exec (.stealSearch c) s = .next { ((settle (s.updCore v fun q => { q with deque := q.deque.eraseIdx i }) v).updCore c fun q =>
        { q with lastSteal := some v }) with
          transit := (settle (s.updCore v fun q => { q with deque := q.deque.eraseIdx i }) v).transit ++ [⟨c, v, r⟩] }) ∧
    ∀ k x, s.transit[k]? = some x → let s1 := { s with transit := s.transit.eraseIdx k }
      (∀ t ts, freeSlots s1 x.thief = t :: ts → exec (.stealArrival k) s = .next (startRec s1 t x.rcd)) ∧
      (freeSlots s1 x.thief = [] → (s.core x.thief).deque.length < 64 → (s.core x.thief).spillPath = [] →
        exec (.stealArrival k) s = .next (pushBottom s1 x.thief x.rcd))) ∧

  ((∀ (s : State) (die i : Nat) (x : Share), (s.shares.findIdx? fun x => x.die = die && !(idleInDie s x.part die x.core).isEmpty) = some i →
    s.shares[i]? = some x →
    exec (.undealtShareDeal die) s = .next (dealShare s { s with shares := s.shares.eraseIdx i } x.part die x.core x.rcd x.cell 0)) ∧
  ∀ (s : State) (die i : Nat) (x : Share) (lo hi g : Nat), largestShare s die = some (i, x) → x.rcd.bounds = (lo, hi, g) →
    let u := x.rcd.units; let mid := lo + (u - u / 2) * g
    (u ≤ 1 → exec (.rangeTransfer die) s = .next (dealShare s { s with shares := s.shares.eraseIdx i } x.part die x.core x.rcd x.cell 0)) ∧
    (1 < u → exec (.rangeTransfer die) s =
      .next (dealShare s { s with shares := s.shares.set i { x with rcd := x.rcd.piece (lo, mid) } } x.part die x.core
        (x.rcd.piece (mid, hi)) x.cell 1)))

/-- Barriers (R149 to R151): BAR.SET of a legal value, where no slot of the core has arrived, stores the value's fields and keeps the phase, and what
neighbours had sent is forgotten, which is the model's choice (log 65); else it traps, as BAR.ARRIVE, BAR.WAIT and BAR.SYNC do of a register that is
not configured for the slot; BAR.GET reads the register, an arrival is recorded with the phase it belongs to, BAR.WAIT and BAR.SYNC wait while the
phase stands and complete once it has changed, BAR.ARRIVE waits where the slot has arrived in the phase already, a release inverts the phase, and a
neighbour's arrival is taken where the register matches. A barrier of no participant reads with either phase (log 39), so BAR.GET is stated of the
others. -/
def Obligations.Barriers : Prop :=
  ∀ (s : State) (n : Fin 8) (a d : Reg), let c := s.myCore; let b := s.bar c n; let v := s.rd a
    let x0 := bits v 4 0; let x1 := bits v 9 5; let y0 := bits v 15 10; let y1 := bits v 21 16
    let legal : Prop := v.getLsbD 62 = true → x0 ≤ x1 ∧ y0 ≤ y1 ∧ x0 ≤ c % 32 ∧ c % 32 ≤ x1 ∧ y0 ≤ c / 32 ∧ c / 32 ≤ y1 ∧
      ∃ g, s.cfgOf c = some g ∧ ∀ x y, x0 ≤ x → x ≤ x1 → y0 ≤ y → y ≤ y1 → y * 32 + x ∈ coreSet g
    let unused : Prop := s.slotsWhere c (fun x => x.arrived[n].isSome) = []
    (unused → legal →
      let u := s.updBar c n fun b =>
        { reg := (b.reg &&& 0x8000000000000000) ||| (v &&& 0x4000FFFF003FFFFF), fromEast := false, fromBelow := false, sent := false }
      exec (.barSet n a) s = .next ((barAdvance u c n).past 4) ∧ (v.getLsbD 62 = false ∨ bits v 47 32 ≠ 0 → barAdvance u c n = u)) ∧
    (CanTrap s → ¬ (unused ∧ legal) → Traps (.barSet n a) s .illegalOperand v s.me.pc) ∧
    (CanTrap s → b.v = false ∨ b.reg.getLsbD (32 + slotOf s.cur) = false → ∀ i ∈ [Instr.barArrive n, .barWait n, .barSync n],
      Traps i s .illegalOperand (BitVec.ofNat 64 n.val) s.me.pc) ∧
    (b.v = false ∨ bits b.reg 47 32 ≠ 0 → Gives (.barGet d n) s 4 d b.reg) ∧
    (b.v = true → b.reg.getLsbD (32 + slotOf s.cur) = true →
      (AllReleased s → s.me.arrived[n] ≠ some b.ph → exec (.barArrive n) s = .next ((barAdvance (s.setArrived n (some b.ph)) c n).past 4)) ∧
      (s.me.arrived[n] = some b.ph → exec (.barArrive n) s = .next (s.updMe fun x => { x with run := .waiting (.barrier n b.ph) })) ∧
      (s.me.arrived[n] = none → exec (.barWait n) s = .next (s.past 4)) ∧
      (AllReleased s → s.me.arrived[n] = none →
        exec (.barSync n) s = barAwait n b.ph (barAdvance (s.setArrived n (some b.ph)) c n)) ∧
      ∀ i ∈ [Instr.barWait n, Instr.barSync n],
        (s.me.arrived[n] = some b.ph → exec i s = .next (s.updMe fun x => { x with run := .waiting (.barrier n b.ph) })) ∧
        (s.me.arrived[n] = some (!b.ph) → exec i s = .next ((s.setArrived n none).past 4))) ∧
    ∀ (k : Nat) (m : BarMsg), s.barMsgs[k]? = some m → barMatches s m = true → let s1 := { s with barMsgs := s.barMsgs.eraseIdx k }
      (m.kind = .arrivalEast → exec (.barrierArrival k) s = .next (barAdvance (s1.updBar m.dst m.n fun b => { b with fromEast := true }) m.dst m.n)) ∧
      (m.kind = .arrivalBelow → exec (.barrierArrival k) s = .next (barAdvance (s1.updBar m.dst m.n fun b => { b with fromBelow := true }) m.dst m.n)) ∧
      (m.kind = .release → exec (.barrierRelease k) s = .next (barAdvance (barRelease s1 m.dst m.n) m.dst m.n) ∧
        ((barRelease s1 m.dst m.n).bar m.dst m.n).ph = !(s.bar m.dst m.n).ph)

/-- PAUSE of zero goes on at once, any other leaves the rotation for at most 1,048,575 cycles and ends then (R148). MBX.WAIT and MBX.POLL of a mailbox of
the partition take its notify value and clear it, and a wait of an empty one, or behind another that began before, leaves the rotation (R152). The
SELF instructions deliver their words (R153). The cycle in which a pause ends is the model's (log 6), and so is the zero of SELF.DOM where no record
runs (log 83). -/
def Obligations.PauseMailboxSelf : Prop :=
  ∀ (s : State) (a d : Reg) (m : Nat), let v := s.rd a; let c := s.myCore
    (v = 0 → exec (.pause a) s = .next (s.past 4)) ∧
    (v ≠ 0 → exec (.pause a) s =
      .next ((s.past 4).updMe fun x => { x with run := .waiting (.pause (s.time + Nat.min v.toNat 1048575)) })) ∧
    (∀ t k, (s.slot t).run = .waiting (.pause k) → ∃ u, exec (.pauseExpiry t) s = .next u ∧ (u.slot t).run = .active ∧ k ≤ u.time ∧ u.mem = s.mem) ∧
    (ownMailbox s v = some m → let y := (s.mailbox m).notify; let took := s.updMailbox m fun x => { x with notify := 0 }
      exec (.mbxPoll d a) s = .next ((took.wr d y).past 4) ∧
      (y ≠ 0 → ((s.mailbox m).waiters = [] ∨ (s.mailbox m).waiters.head? = some s.cur) → exec (.mbxWait d a) s =
        .next (((s.updMailbox m fun x => { x with notify := 0, due := false, waiters := x.waiters.erase s.cur }).wr d y).past 4)) ∧
      (y = 0 ∨ (∃ t, t ≠ s.cur ∧ (s.mailbox m).waiters.head? = some t) → ∃ t, exec (.mbxWait d a) s = .next t ∧ t.me = { s.me with run := .waiting (.mailbox m d) } ∧ s.cur ∈ (t.mailbox m).waiters)) ∧
    Gives (.selfId d) s 4 d (crRead s s.cur 0x400) ∧ Gives (.selfXy d) s 4 d (BitVec.ofNat 64 (c / 32 * 256 + c % 32)) ∧
    (s.me.record = none → Gives (.selfDom d) s 4 d 0) ∧
    (∀ r, s.me.record = some r → Gives (.selfDom d) s 4 d
      (BitVec.ofNat 64 (r.join.toNat % 4 + (if r.join.getLsbD 2 then 4 else 0) + (if r.range.isSome then 8 else 0) +
        (if s.me.stolen then 16 else 0)))) ∧
    (v.toNat < 4 → Gives (.selfIdle d a) s 4 d (BitVec.ofNat 64 (idleCount s c v.toNat)))

/-- The swap of a partition (R354, R361): Matins' command begins the halt of every cluster; a contract's period starts with a full budget; an exhausted
budget swaps the partner in, where that runs and has budget left, or halts the partition in place; a time slice that expires and a partition without
work yield; the flush ends when nothing is left; and PART.DONE, outside U mode, waits for the partition's remote operations and then ends the oldest
launch (R100, R101, R417). The order of the steps of a swap, and what a partner without a budget does, are the model's (logs 6 and 41). -/
def Obligations.PartitionEvents : Prop :=
  ∀ (s : State) (p q reason cl : Nat) (a : Reg),
    ((s.part p).swapTo = some (q, reason) → holdsCores s p = true →
      exec (.partitionSwap p q reason) s = .next ((partClusters s p).foldl (fun s k => haltCluster s k p (some q) reason)
        ((stopCharge s p).updPart p fun x => { x with swapTo := none, away := reason, inPlace := false }))) ∧
    (∀ k, (s.part p).contract = some k → anchorRuns s p = true →
      (∃ t m, exec (.periodStart p) s = .next t ∧ (t.part p).contract = some m ∧ m.left = k.budget ∧ m.start = k.start + k.period ∧
        (t.part p).inPlace = false ∧ t.mem = s.mem) ∧
      (∀ c0, k.since = some c0 → holdsCores s p = true → (s.part p).running = true → (s.part p).inPlace = false → (s.part p).swapTo = none →
        let s1 := stopCharge (reachCycle s p (c0 + k.left)) p
        let halts : Prop := exec (.budgetExhausted p) s = .next (haltInPlace (s1.updPart p fun x => { x with inPlace := true }) p)
        (s.partner p = none → halts) ∧
        (s.partner p = some q → if (s1.part q).running = true ∧ ((s1.part q).contract = none ∨ budgetLeft s1 q ≠ 0)
          then exec (.budgetExhausted p) s = .next (s1.updPart p fun x => { x with swapTo := some (q, 1) }) else halts)) ∧
      (holdsCores s p = true → hasWork s p = false → exec (.partitionNoWork p) s = .next (rebalance s p 2))) ∧
    (∀ g, s.partner p = some q → (s.part p).cfg = some g → holdsCores s p = true → (s.part p).running = true → (s.part q).running = true →
      (s.part p).contract = none → (s.part q).contract = none → (s.part p).swapTo = none → anchorRuns s p = true →
      exec (.timeSliceExpiry p) s = .next ((reachCycle s p ((s.part p).since + g.slice)).updPart p fun x => { x with swapTo := some (q, 3) })) ∧
    (∀ out inc, (s.cluster cl).swap = .halted out inc reason → haltedNow s cl = true → (∀ c ∈ coresOf cl, flushedNow s c = true) →
      (s.cluster cl).l2dirty = [] → ∃ t, exec (.swapFlush cl) s = .next t ∧ (t.cluster cl).swap = .flushed out inc reason ∧ t.mem = s.mem) ∧
    (s.partOf s.myCore = some p → s.me.mode ≠ .u → partRemotes s p = true → exec (.partDone a) s = .next (s.updMe fun x => { x with run := .waiting .partDone })) ∧
    (s.partOf s.myCore = some p → s.me.mode ≠ .u → partRemotes s p = false →
      ∃ t, exec (.partDone a) s = .next t ∧ (t.part p).launches = (s.part p).launches.drop 1 ∧
        t.me = { s.me with pc := s.me.pc + 4, fresh := none, vprog := none, got := none } )

/-- Majors 0x40 to 0x49: arithmetic, logic, shifts, fused multiply-add and signs, lane by lane (R110 to R115). Integer lanes are exact results taken
modulo 2^w, or clamped when the form saturates, signed or unsigned as the form says; floating-point lanes are the scalar operations'. Operand b is a
lane of a vector register, or the low bits of a scalar register under bs. -/
def Obligations.VectorLaneResults : Prop :=
  ∀ (s : State) (ty : ElType) (m d a b vc : Reg) (bs un sat : Bool) (imm : BitVec 8),
    let w := ty.width; let f := elFmt ty
    let x (j : Nat) : Nat := lane w (s.rdv a) j; let z (j : Nat) : Nat := lane w (s.rdv vc) j; let z0 (j : Nat) : Nat := lane w (s.rdv 0) j
    let y (bs : Bool) (j : Nat) : Nat := if bs then (s.rd b).toNat % 2 ^ w else lane w (s.rdv b) j
    let two (i : Instr) (n : Nat) (bs un sat : Bool) (op : Int → Int → Int) (g : Rm → Nat → Nat → Rnd) : Prop :=
      GivesLanes i s n ty m d fun j =>
        if ty.isInt then (laneOf un sat w (op (laneValue un w (x j)) (laneValue un w (y bs j))), 0)
        else ((g s.rm (x j) (y bs j)).code, (g s.rm (x j) (y bs j)).flags)
    let bit (i : Instr) (n : Nat) (g : Nat → Nat) : Prop := GivesLanes i s n ty m d fun j => (g j, 0)
    let fma (i : Instr) (n : Nat) (bs neg : Bool) (z : Nat → Nat) : Prop := GivesLanes i s n ty m d fun j =>
      ((fFma f s.rm neg (x j) (y bs j) (z j)).code, (fFma f s.rm neg (x j) (y bs j) (z j)).flags)
    let sign (i : Instr) (n : Nat) (abs sat : Bool) : Prop := GivesLanes i s n ty m d fun j =>
      (if ty.isInt then laneOf false sat w (if abs ∧ 0 ≤ laneValue false w (x j) then laneValue false w (x j) else -laneValue false w (x j))
       else fSign f abs (x j), 0)
    two (.vadd ty m d a b) 4 false false false (· + ·) (fAdd f) ∧ two (.vaddX ty m d a b bs un sat) 12 bs un sat (· + ·) (fAdd f) ∧
    two (.vsub ty m d a b) 4 false false false (· - ·) (fSub f) ∧ two (.vsubX ty m d a b bs un sat) 12 bs un sat (· - ·) (fSub f) ∧
    two (.vmul ty m d a b) 4 false false false (· * ·) (fMul f) ∧ two (.vmulX ty m d a b bs) 12 bs false false (· * ·) (fMul f) ∧
    (ty.isInt = true → two (.vmulh ty m d a b) 4 false false false (fun p q => p * q / 2 ^ w) (fMul f) ∧
      two (.vmulhX ty m d a b bs un) 12 bs un false (fun p q => p * q / 2 ^ w) (fMul f)) ∧
    two (.vmin ty m d a b) 4 false false false min (fun _ => fMinMax f false) ∧
    two (.vminX ty m d a b bs un) 12 bs un false min (fun _ => fMinMax f false) ∧
    two (.vmax ty m d a b) 4 false false false max (fun _ => fMinMax f true) ∧
    two (.vmaxX ty m d a b bs un) 12 bs un false max (fun _ => fMinMax f true) ∧
    bit (.vand ty m d a b) 4 (fun j => x j &&& y false j) ∧ bit (.vandX ty m d a b bs) 12 (fun j => x j &&& y bs j) ∧
    bit (.vor ty m d a b bs) 12 (fun j => x j ||| y bs j) ∧ bit (.vxor ty m d a b bs) 12 (fun j => x j ^^^ y bs j) ∧
    bit (.vandn ty m d a b bs) 12 (fun j => ((BitVec.ofNat w (x j)) &&& ~~~(BitVec.ofNat w (y bs j))).toNat) ∧
    bit (.vsll ty m d a b) 4 (fun j => x j <<< (y false j % w)) ∧ bit (.vsllX ty m d a b bs) 12 (fun j => x j <<< (y bs j % w)) ∧
    bit (.vsrl ty m d a b bs) 12 (fun j => x j >>> (y bs j % w)) ∧
    bit (.vsra ty m d a b bs) 12 (fun j => laneOf true false w (laneValue false w (x j) / 2 ^ (y bs j % w))) ∧
    bit (.vslli ty m d a imm) 12 (fun j => x j <<< imm.toNat) ∧ bit (.vsrli ty m d a imm) 12 (fun j => x j >>> imm.toNat) ∧
    bit (.vsrai ty m d a imm) 12 (fun j => laneOf true false w (laneValue false w (x j) / 2 ^ imm.toNat)) ∧
    fma (.vfma ty m d a b) 4 false false z0 ∧ fma (.vfmaX ty m d a b bs vc) 12 bs false z ∧ fma (.vfnma ty m d a b bs vc) 12 bs true z ∧
    sign (.vneg ty m d a) 4 false false ∧ sign (.vnegX ty m d a sat) 12 false sat ∧ sign (.vabs ty m d a sat) 12 true sat

/-- Majors 0x4A to 0x4E: conversions (R116), compares into a mask register (R117), selection, which writes every lane (R118), reductions of the active
lanes (R119) and dot products (R120). A stochastic conversion draws once for each active destination lane. That a sum with a quiet NaN lane and
infinities of both signs raises no NV is the model's reading (log 81). -/
def Obligations.VectorCompareReduceResults : Prop :=
  ∀ (s : State) (ty src : ElType) (m d a b sx : Reg) (bs un sat sun : Bool) (part : Fin 8),
    let w := ty.width; let f := elFmt ty; let x (j : Nat) : Nat := lane w (s.rdv a) j
    let y (bs : Bool) (j : Nat) : Nat := if bs then (s.rd b).toNat % 2 ^ w else lane w (s.rdv b) j
    let cvt (i : Instr) (n : Nat) (un sat : Bool) (src : ElType) (sun : Bool) (p : Nat) : Prop :=
      let k := Nat.min ty.lanes src.lanes; let first := if src.lanes < ty.lanes then p * k else 0; let off := if ty.lanes < src.lanes then p * k else 0
      let draws := s.me.fpMode.getLsbD 3 = true ∧ ty.isInt = false ∧ ty ≠ .f32
      p * k + k ≤ Nat.max ty.lanes src.lanes →
      (∃ t, exec i s = .next t ∧ (¬ draws → t.me.srState = s.me.srState) ∧
        (draws → t.me.srState = Nat.repeat xorshift ((List.range k).countP fun j => (s.mask m).getLsbD (first + j)) s.me.srState)) ∧
      (¬ draws → ∃ (v : Block) (fl : FFlags), exec i s = .next (((s.flag fl).wrv d v).past n) ∧
        ∀ j, j < ty.lanes → lane w v j =
          if first ≤ j ∧ j < first + k ∧ (m = 0 ∨ (s.rd m).getLsbD j = true) then
            (cvtLane s.rm ty un sat src sun none (lane src.width (s.rdv a) (j - first + off))).1 % 2 ^ w
          else lane w (s.rdv d) j)
    let cmp (i : Instr) (n : Nat) (bs un : Bool) (r : Reg) (ok : Ordering → Bool) (unord ordered : Bool) : Prop :=
      GivesMask i s n ty m r
        (fun j => if ty.isInt then ok (compare (laneValue un w (x j)) (laneValue un w (y bs j))) = true
          else match (fCmp f ordered (x j) (y bs j)).1 with | some o => ok o = true | none => unord = true)
        (fun j => if ty.isInt then 0 else (fCmp f ordered (x j) (y bs j)).2)
    let act := (List.range ty.lanes).filter fun j => (s.mask m).getLsbD j
    let float (i : Instr) (n : Nat) (r : Reg) (v : Rnd) : Prop := exec i s = .next (((s.flag v.flags).wr r (BitVec.ofNat 64 v.code)).past n)
    let sum (i : Instr) (n : Nat) (un : Bool) (r : Reg) : Prop :=
      (ty.isInt = true → Gives i s n r (BitVec.ofInt 64 ((act.map fun j => laneValue un w (x j)).sum))) ∧
      (ty.isInt = false → act ≠ [] → let l := act.map fun j => unpack f (x j)
        float i n r (sumRound f s.rm (zeroSign s.rm (l.all FVal.isNegZero)) l)) ∧
      (ty.isInt = false → act = [] → Gives i s n r 0)
    let red (i : Instr) (g : Nat → Bool) : Prop := ∃ v : Word, Gives i s 12 sx v ∧ ∀ k, v.getLsbD k = true ↔ k < w ∧ g k = true
    let least (i : Instr) (sx : Reg) (neg : Int → Int) (top : Int) : Prop := ∃ v : Int, Gives i s 12 sx (BitVec.ofInt 64 v) ∧
      (act = [] → v = top) ∧ (act ≠ [] → ∃ j ∈ act, v = laneValue un w (x j)) ∧ ∀ j ∈ act, neg v ≤ neg (laneValue un w (x j))
    let dot (i : Instr) (n : Nat) (un sat : Bool) : Prop := GivesLanes i s n .i32 m d fun j =>
      if ty.isInt then (laneOf false sat 32 ((BitVec.ofNat 32 (lane 32 (s.rdv d) j)).toInt +
        ((List.range 4).map fun k => laneValue un 8 (lane 8 (s.rdv a) (4 * j + k)) * laneValue un 8 (lane 8 (s.rdv b) (4 * j + k))).sum), 0)
      else dotT8 s.rm (s.rdv a) (s.rdv b) (lane 32 (s.rdv d) j) j
    cvt (.vcvt ty m d a) 4 false false .i32 false 0 ∧ cvt (.vcvtX ty m d a un sat src sun part) 12 un sat src sun part.val ∧
    cmp (.vceq ty m a b) 4 false false 0 (· == .eq) false false ∧ cmp (.vceqX ty m a b bs un sx) 12 bs un sx (· == .eq) false false ∧
    cmp (.vcne ty m a b bs un sx) 12 bs un sx (· != .eq) true false ∧ cmp (.vclt ty m a b bs un sx) 12 bs un sx (· == .lt) false true ∧
    cmp (.vcle ty m a b bs un sx) 12 bs un sx (· != .gt) false true ∧ cmp (.vcgt ty m a b bs un sx) 12 bs un sx (· == .gt) false true ∧
    cmp (.vcge ty m a b bs un sx) 12 bs un sx (· != .lt) false true ∧
    GivesVector (.vsel ty m d a b) s 4 ty d (fun j => if m = 0 ∨ (s.rd m).getLsbD j = true then x j else y false j) ∧
    GivesVector (.vselX ty m d a b bs) s 12 ty d (fun j => if m = 0 ∨ (s.rd m).getLsbD j = true then x j else y bs j) ∧
    sum (.vredsum ty m a) 4 false 0 ∧ sum (.vredsumX ty m a un sx) 12 un sx ∧
    (ty.isInt = true → least (.vredmin ty m a un sx) sx id (if un then 2 ^ w - 1 else 2 ^ (w - 1) - 1) ∧
      least (.vredmax ty m a un sx) sx (fun v => -v) (if un then 0 else -2 ^ (w - 1))) ∧
    (ty.isInt = false → let r (max : Bool) : Rnd := (act.map x).foldl (fun (t : Rnd) v =>
        ⟨(fMinMax f max t.code v).code, t.flags ||| (fMinMax f max t.code v).flags⟩) ⟨f.nan, 0⟩
      float (.vredmin ty m a un sx) 12 sx (r false) ∧ float (.vredmax ty m a un sx) 12 sx (r true)) ∧
    red (.vredand ty m a un sx) (fun k => act.all fun j => (x j).testBit k) ∧ red (.vredor ty m a un sx) (fun k => act.any fun j => (x j).testBit k) ∧
    red (.vredxor ty m a un sx) (fun k => decide ((act.countP fun j => (x j).testBit k) % 2 = 1)) ∧
    dot (.vdot ty m d a b) 4 false false ∧ dot (.vdotX ty m d a b un sat) 12 un sat

/-- Majors 0x4F to 0x52: permutations and slides (R121), broadcasts and moves between lanes and scalar registers (R122), compression and expansion (R123). -/
def Obligations.VectorMoveResults : Prop :=
  ∀ (s : State) (ty : ElType) (m d a b sx : Reg) (bs un : Bool) (k : BitVec 8),
    let w := ty.width; let x (j : Nat) : Nat := lane w (s.rdv a) j; let old (j : Nat) : Nat := lane w (s.rdv d) j
    let y (bs : Bool) (j : Nat) : Nat := if bs then (s.rd b).toNat % 2 ^ w else lane w (s.rdv b) j
    let act := (List.range ty.lanes).filter fun j => (s.mask m).getLsbD j
    let low : Nat := (s.rd sx).toNat % 2 ^ w
    let bcast (i : Instr) (n v : Nat) : Prop := GivesLanes i s n ty m d fun _ => (v, 0)
    let ext (i : Instr) (n : Nat) (un : Bool) (r : Reg) (k : Nat) : Prop :=
      Gives i s n r (if ty.isInt ∧ un = false then (BitVec.ofNat w (x k)).signExtend 64 else BitVec.ofNat 64 (x k))
    let packs (i : Instr) (n : Nat) (r : Reg) (f : Nat → Nat) : Prop := ∃ v : Block,
      exec i s = .next (((s.wr r (BitVec.ofNat 64 act.length)).wrv d v).past n) ∧ ∀ j, j < ty.lanes → lane w v j = f j
    GivesVector (.vperm ty m d a b) s 4 ty d (fun j => if m = 0 ∨ (s.rd m).getLsbD j = true then x (y false j % ty.lanes) else old j) ∧
    GivesVector (.vpermX ty m d a b bs) s 12 ty d (fun j => if m = 0 ∨ (s.rd m).getLsbD j = true then x (y bs j % ty.lanes) else old j) ∧
    GivesVector (.vslideh ty m d a k) s 12 ty d
      (fun j => if k.toNat ≤ j ∧ (m = 0 ∨ (s.rd m).getLsbD j = true) then x (j - k.toNat) else old j) ∧
    GivesVector (.vslidel ty m d a k) s 12 ty d
      (fun j => if j + k.toNat < ty.lanes ∧ (m = 0 ∨ (s.rd m).getLsbD j = true) then x (j + k.toNat) else old j) ∧
    GivesVector (.vrev ty m d a) s 12 ty d (fun j => if m = 0 ∨ (s.rd m).getLsbD j = true then x (ty.lanes - 1 - j) else old j) ∧
    bcast (.vbcast ty m d) 4 0 ∧ bcast (.vbcastX ty m d sx) 12 low ∧ bcast (.vbcastl ty m d a k) 12 (x k.toNat) ∧
    GivesLanes (.vindex ty m d) s 12 ty m d (fun j => (j, 0)) ∧
    ext (.vext ty a) 4 false 0 0 ∧ ext (.vextX ty a un sx k) 12 un sx k.toNat ∧
    GivesVector (.vins ty d sx k) s 12 ty d (fun j => if j = k.toNat then low else old j) ∧
    packs (.vcprs ty m d a) 4 0 (fun j => match act[j]? with | some i => x i | none => old j) ∧
    packs (.vcprsX ty m d a sx) 12 sx (fun j => match act[j]? with | some i => x i | none => old j) ∧
    packs (.vexpd ty m d a sx) 12 sx
      (fun j => if m = 0 ∨ (s.rd m).getLsbD j = true then x ((act.filter fun i => i < j).length) else old j)

/-- VLD, VST, VLDS, VSTS, VGATH and VSCAT on the core's own scratchpad (R125 to R129): the lanes to do are those the mask and the progress register leave;
a load of unpoisoned bytes gives each of them the bytes at its address and leaves the others; a store writes them in ascending order, so that of two
lanes that meet the higher one stands, and writes no other byte; the progress register is cleared, and an access of more than two 64-byte blocks
leaves the rotation until its last block is delivered. What an ordering on a vector access does is read as log 18 says. -/
def Obligations.VectorMemory : Prop :=
  (∀ (s : State) (ty : ElType) (m d b : Reg) (sh : Fin 8) (x : VMemExt), onCore s.cur = true → s.me.vprog = none →
    let w := ty.width; let k := w / 8; let base := s.rd x.base + x.disp.signExtend 64
    let todo := s.mask m &&& ~~~(if x.sx = 0 then 0 else s.rd x.sx)
    let l := (List.range ty.lanes).filter fun j => todo.getLsbD j
    let step (j : Nat) : Word := base + BitVec.ofNat 64 (j * k)
    let stride (j : Nat) : Word := base + BitVec.ofNat 64 j * s.rd b
    let index (j : Nat) : Word := base + ((BitVec.ofNat w (lane w (s.rdv b) j)).signExtend 64 <<< sh.val)
    let near (addr : Nat → Word) : Prop := ∀ j ∈ l, InScratchpad s (addr j) k ∧ (addr j).toNat % k = 0
    let clean (addr : Nat → Word) : Prop := ∀ j ∈ l, poisonAt s (lsBlk s.myCore) (s.lsPlace (addr j)) k = none
    let run (addr : Nat → Word) : Run := if 2 < ((l.map fun j => (addr j).toNat / 64).eraseDups).length then .waiting .vector else s.me.run
    let far (addr : Nat → Word) : Option Wait := if 2 < ((l.map fun j => (addr j).toNat / 64).eraseDups).length then some .vector else none
    let loads (i : Instr) (addr : Nat → Word) : Prop := near addr → clean addr → ∃ (v : Block) (r : Redo),
      exec i s = doneAway 12 (far addr) r ((s.wrv d v).wr x.sx 0) ∧ r.pc = s.me.pc ∧
      ∀ j, j < ty.lanes → lane w v j = if j ∈ l then leNat (s.myLs.bytes (s.lsPlace (addr j)) k) else lane w (s.rdv d) j
    let stores (i : Instr) (addr : Nat → Word) : Prop := near addr → NothingToRelease s ⟨x.ord, x.scope, x.ev⟩ →
      ∃ t, exec i s = .next t ∧ t = { s with slots := t.slots, cores := t.cores, poisoned := t.poisoned } ∧ (∀ b ∈ t.poisoned, b ∈ s.poisoned) ∧ (∀ u, u ≠ s.cur → t.slot u = s.slot u) ∧
        t.me = { s.me with s := (s.me.ws x.sx 0).s, pc := s.me.pc + 12, fresh := none, vprog := none, got := none, run := run addr, redo := t.me.redo } ∧
        (∀ c, c ≠ s.myCore → t.core c = s.core c) ∧ t.core s.myCore = { s.core s.myCore with ls := t.myLs } ∧
        ∀ a, t.myLs.rd a =
          match l.reverse.find? fun j => s.lsPlace (addr j) ≤ a ∧ a < s.lsPlace (addr j) + k with
          | some j => (BitVec.ofNat w (lane w (s.rdv d) j)).extractLsb' (8 * (a - s.lsPlace (addr j))) 8
          | none => s.myLs.rd a
    loads (.vld ty m d x) step ∧ stores (.vst ty m d x) step ∧ loads (.vlds ty m d b x) stride ∧ stores (.vsts ty m d b x) stride ∧
    loads (.vgath ty m d b sh x) index ∧ stores (.vscat ty m d b sh x) index) ∧
  ∀ (s : State) (t : Nat),
    ((s.slot t).run = .waiting .vector → exec (.vectorBlockDelivery t) s = .next (s.setSlot t { s.slot t with run := .active, redo := none })) ∧
    ((s.slot t).run = .waiting .access → exec (.memoryAccessReply t) s = .next (s.setSlot t { s.slot t with run := .active, redo := none }))

/-- The descriptor instructions (R279): TD.LD copies 64 bytes into a descriptor and TD.ST a descriptor to memory, here in the scratchpad (a load of
unpoisoned bytes); TD.RDW and TD.WRW read and write one of its eight words; a format byte that names no format traps, and the descriptor stays. The
queue at work (R275, R276, R289, R292): an operation at the head that reads no memory starts when it passes the checks of the second phase, and else
traps in its slot with its code and leaves the queue (no byte of the weight buffer that it reads is poisoned, R434); a started one that writes no
memory has its effect on the tiles and banks, leaves the queue and re-admits its slot past the instruction; so does a WB.LD that reads nothing more.
ACC.CLR.F leaves a tile of zeros in FP mode. Of several codes of one phase the lowest is reported (log 23). -/
def Obligations.TensorDescriptorsAndQueue : Prop :=
  (∀ (s : State) (a d : Reg) (n : Fin 64) (w : Fin 8), let c := s.myCore; let x := s.rd a; let td := (s.core c).td
    let l := s.myLs.bytes (s.lsPlace x) 64; let names (f : Nat) : Prop := f ≤ 0x0C ∨ (0x10 ≤ f ∧ f ≤ 0x1E)
    (InScratchpad s x 64 → x.toNat % 64 = 0 → let clean := poisonAt s (lsBlk c) (s.lsPlace x) 64 = none
      (clean → ∀ f ∈ l[56]?, names f.toNat → ∃ t, exec (.tdLd a n) s = .next t ∧ (∀ k, (t.core c).td[k] = if k = n then blkOf l else td[k]) ∧
        t.mem = s.mem ∧ t.me = { s.me with pc := s.me.pc + 12, fresh := none, vprog := none, got := none }) ∧
      (clean → ∀ f ∈ l[56]?, ¬ names f.toNat → CanTrap s → Traps (.tdLd a n) s .illegalFormat (f.setWidth 64) s.me.pc) ∧
      (NothingToRelease s ⟨.rlx, .pkg, 4⟩ → ∃ t, exec (.tdSt a n) s = .next t ∧ t.mem = s.mem ∧
        t.me = { s.me with pc := s.me.pc + 12, fresh := none, vprog := none, got := none } ∧
        ∀ j, t.myLs.rd j = if s.lsPlace x ≤ j ∧ j < s.lsPlace x + 64 then (td[n]).extractLsb' (8 * (j - s.lsPlace x)) 8 else s.myLs.rd j)) ∧
    (CanTrap s → x.toNat % 64 ≠ 0 → Traps (.tdLd a n) s .misalign x s.me.pc ∧ Traps (.tdSt a n) s .misalign x s.me.pc) ∧
    Gives (.tdRdw d n w) s 12 d ((td[n]).extractLsb' (64 * w.val) 64) ∧
    (w ≠ 7 ∨ names (x.toNat % 256) → ∃ t, exec (.tdWrw a n w) s = .next t ∧ t.mem = s.mem ∧
      t.me = { s.me with pc := s.me.pc + 12, fresh := none, vprog := none, got := none } ∧
      ∀ (k : Fin 64) (v : Fin 8), ((t.core c).td[k]).extractLsb' (64 * v.val) 64 =
        if k = n ∧ v = w then x else (td[k]).extractLsb' (64 * v.val) 64) ∧
    (CanTrap s → w = 7 → ¬ names (x.toNat % 256) → Traps (.tdWrw a n w) s .illegalFormat (BitVec.ofNat 64 (x.toNat % 256)) s.me.pc)) ∧

  (∀ (s : State) (c : Nat) (o : TOp) (l : List TOp), let t := threadOf c o.slot
    ((s.core c).tqueue = o :: l → o.wait = none → o.reads = [] → o.started = false → wbPoisoned s c o = none →
      let o1 := { o with got := 0, wait := none }
      (o1.fails (s.core c) = none → ∃ u, exec (.tensorOpStart c) s = .next u ∧ u.mem = s.mem ∧ u.slots = s.slots ∧
        (u.core c) = { s.core c with tqueue := { o1 with started := true } :: l }) ∧
      (∀ code tile, o1.fails (s.core c) = some (code, tile) → ∃ u : State, exec (.tensorOpStart c) s =
        .next (takeSyncAt (u.wake t) t .illegalOperand (failVal code o.ta o.tb tile) o.pc) ∧ (u.core c).tqueue = l ∧ u.mem = s.mem)) ∧
    ((s.core c).tqueue = o :: l → o.wait = none → o.started = true → o.done = 0 → o.writes (s.core c) (s.slot t) = [] → o.fn ≠ .cvt →
      let r := o.run (s.core c) ((s.slot t).fpMode.extractLsb' 0 3) (o.last (s.core c))
      ∃ u, exec (.tensorOpComplete c false) s = .next u ∧ (u.core c).acc = r.1.acc ∧ (u.core c).banks = r.1.banks ∧ (u.core c).tqueue = r.1.tqueue.drop 1 ∧
        (u.slot t).run = .active ∧ (u.slot t).pc = (s.slot t).pc + BitVec.ofNat 64 o.fn.bytes ∧
        (u.slot t).fpFlags = (s.slot t).fpFlags ||| r.2.1 ∧ u.mem = s.mem ∧
        (o.fn = .clrF → ∀ i, (((u.core c).acc[o.tile]).at i = 0) ∧ ((u.core c).acc[o.tile]).exact = false)) ∧
    ((s.core c).wbld = some o → o.wait = none → o.got = (o.reads.flatMap fun r => pieces r.1 r.2).length → o.fn = .wbLd →
      ∃ u, exec (.tensorOpComplete c true) s = .next u ∧ (u.core c).wbld = none ∧ (u.core c).wb = ((o.run (s.core c) 0 0).1).wb ∧
        (u.slot t).run = .active ∧ (u.slot t).pc = (s.slot t).pc + 12 ∧ u.mem = s.mem))

/-- A tensor instruction that passes the checks at issue enters its core's queue with copies of its descriptors, and its slot leaves the rotation (R275,
R276; of an operand's rows and planes the model checks what a product of 32 rows reads, log 73, and of MSAVE and MRESTORE the range up to the last
selected part, log 88); an operation for which its slot holds a resume record continues from the record, which becomes invalid (R299); WB.LD takes the
load path beside the queue, and waits while that is taken (R295; log 87). There is one resume record of a core (log 23). -/
def Obligations.TensorIssue : Prop :=
  ∀ (s : State) (a : Reg) (ta tb : Fin 64) (tile : Fin 2) (mask : BitVec 5), let q := s.core s.myCore; let da := q.td[ta]; let db := q.td[tb]
    let op (i : Instr) (fn : TFn) (da db : Block) (addr : Word) : TOp :=
      { fn := fn, slot := slotOf s.cur, pc := s.me.pc, word := BitVec.ofNat 32 (encodeRaw i).base, ext := (encodeRaw i).ext, da := da, db := db,
        addr := addr, wbSize := s.wbSize s.myCore }
    let waiting (x : Slot) : Slot := { x with run := .waiting .tensor }
    let enters (i : Instr) (o : TOp) : Prop := exec i s = .next ((s.updCore s.myCore fun q => { q with tqueue := q.tqueue ++ [o] }).updMe waiting)
    let none' : Prop := ∀ r, q.resume = some r → r.slot ≠ slotOf s.cur
    let continues (i : Instr) (o : TOp) : Prop := ∀ r, q.resume = some r → r.slot = slotOf s.cur → r.word = o.word → r.ext = o.ext →
      exec i s = .next ((s.updCore s.myCore fun q => { q with
        resume := none, tqueue := q.tqueue ++ [{ o with da := r.da, db := r.db, addr := r.addr, next := r.next }] }).updMe waiting)
    let product (i : Instr) (fn : TFn) (accepted : Bool) : Prop := continues i (op i fn da db 0) ∧
      (none' → ProductOperands s da db → accepted = true → enters i (op i fn da db 0))
    let plain (i : Instr) (fn : TFn) : Prop := continues i (op i fn 0 0 0) ∧ (none' → enters i (op i fn 0 0 0))
    let image (i : Instr) (fn : TFn) (n : Nat) : Prop :=
      InScratchpad s (s.rd a) n → (s.rd a).toNat % 64 = 0 → enters i (op i fn 0 0 (s.rd a))
    product (.mm ta tb tile) .mm (mmClass (tdFmt da) (tdFmt db)).isSome ∧ product (.mc ta tb tile) .mc (mcFamily (tdFmt da) (tdFmt db)).isSome ∧
    product (.mcNdA ta tb tile) (.mcNd false) (ndFamily (tdFmt da) (tdFmt db)).isSome ∧
    product (.mcNdB ta tb tile) (.mcNd true) (ndFamily (tdFmt da) (tdFmt db)).isSome ∧
    plain .drainA (.drain false) ∧ plain .drainB (.drain true) ∧ plain .bankMergeAb (.bankMerge true) ∧ plain .bankMergeBa (.bankMerge false) ∧
    continues (.accMerge a tile) (op (.accMerge a tile) .accMerge 0 0 (s.rd a)) ∧ (none' → image (.accMerge a tile) .accMerge 8256) ∧
    enters (.accClrF tile) (op (.accClrF tile) .clrF 0 0 0) ∧
    (tdReserved da = false → tdReserved db = false → (∀ i, i < 4 → tdE da i ≠ 0 ∧ tdE db i ≠ 0) → tdE da 0 = tdE db 0 →
      ((tdTf da).comp = true ∨ (tdTf db).comp = true → tdE da 0 % 64 = 0) →
      (mcFamily (tdFmt da) (tdFmt db)).isSome = true ∨ (∃ g, mmClass (tdFmt da) (tdFmt db) = some (g, true)) →
      enters (.accClrX ta tb tile) (op (.accClrX ta tb tile) .clrX da db 0)) ∧
    (tdReserved da = false → tdFmt da ≤ 5 → tdWb da = false → 32 ≤ tdE da 0 → 32 ≤ tdE da 1 → InScratchpad s (tdBase da) 1 →
      (∀ r ∈ rowsTo da 32, InScratchpad s r (4 * (tdTf da).w)) → enters (.accCvt ta tile) (op (.accCvt ta tile) .cvt da 0 0)) ∧
    image (.accSt a tile) .accSt 8256 ∧ image (.accLd a tile) .accLd 8256 ∧ image (.msave a mask) .msave (saveSpan mask.toNat) ∧
    image (.mrestore a mask) .mrestore (saveSpan mask.toNat) ∧
    (tdReserved da = false → tdReserved db = false → tdFmt da = tdFmt db → SameExtents da db → tdWb da = true → tdWb db = false →
      InScratchpad s (tdBase db) 1 → (∀ r ∈ rowsAll da, r.toNat + rowBytes (tdTf da) (tdE da 0) ≤ s.wbSize s.myCore) →
      ((tdTf da).scaled = true → (tdSbase da).toNat + planeBytes da (tdE da 1 * tdE da 2 * tdE da 3) ≤ s.wbSize s.myCore) →
      exec (.wbLd ta tb) s = .next (if q.wbld.isSome then s.updMe fun x => { x with run := .waiting .wbLoad }
        else (s.updCore s.myCore fun q => { q with wbld := some (op (.wbLd ta tb) .wbLd da db 0) }).updMe waiting)) ∧
    (let ranges (x : Block) := (rowsAll x).map (fun r => (r, rowBytes (tdTf x) (tdE x 0))) ++
       if (tdTf x).scaled then [(tdSbase x, planeBytes x (tdE x 1 * tdE x 2 * tdE x 3))] else []
     tdReserved da = false → tdReserved db = false → compressedOf (tdFmt db) = some (tdFmt da) → SameExtents da db → tdWb da = false → tdWb db = false →
      InScratchpad s (tdBase da) 1 → InScratchpad s (tdBase db) 1 → (∀ r ∈ ranges da ++ ranges db, InScratchpad s r.1 r.2) →
      (∀ x ∈ ranges da, ∀ y ∈ ranges db, x.1.toNat + x.2 ≤ y.1.toNat ∨ y.1.toNat + y.2 ≤ x.1.toNat) →
      enters (.compress ta tb) (op (.compress ta tb) .compress da db 0))

/-- Counting is exact (R284, R285): counting the presented pairs p0 to p1 of unscaled operands of a family into an empty bank and draining it adds to
every entry of the tile the sum of the pairs' products, held between -2^63 and 2^63 - 1. -/
def Obligations.CountingAddsTheProducts : Prop :=
  ∀ (o : Operands) (fam p0 p1 : Nat) (b : Bank) (t : Tile), fam = 1 ∨ fam = 2 → b.family = fam → b.counters = o.count fam p0 p1 [] →
    b.drain t = t.addAll fun j => ((List.range (p1 - p0)).map fun p => o.unit fam (j / 32) (j % 32) (p + p0)).sum

/-- The copy-channel instructions (R305 to R307, R310, R312, R313): what CP.START starts, between pointers of the core's own scratchpad or of global
memory, and when it traps (a transfer of no bytes passes every bound, and is done); the wait for a write pointer; the status word; what CP.STOP does
to a channel that runs, has faulted or neither; and CP.RESUME of a faulted channel. A running channel whose source and destination lie in its core's
scratchpad reads the bytes up to the end of a 64-byte block of its source, with its write pointer unmoved (where R309 speaks of pieces of 256 bytes,
the model reads one aligned 64-byte block of the source a step and keeps its bytes until a later step delivers them, log 70); bytes it has read it
delivers, at most to the next 256-byte boundary of the transfer and 64-byte boundary of the destination, and moves its write pointer past them; it is
done at its length, and the slots that wait for a byte it has passed go on (R309, R310). A source that names no space faults it, with its write
pointer unmoved and the fault in its slot's pending interrupts (R313). A channel that has reached its stopping point ends its CP.STOP (R312). The
stopping point of CP.STOP and the lease violations are read as logs 24 and 25 say. -/
def Obligations.CopyChannels : Prop :=
  (∀ (s : State) (n : Fin 4) (d a b : Reg), let c := s.myCore; let x := s.chan c n
    let dst := s.rd d; let src := s.rd a; let len := s.rd b; let near (p : Word) : Prop := spaceOf p = some .glb ∨
      (onCore s.cur = true ∧ spaceOf p = some .spd ∧ fld p.toNat 45 11 = c ∧ (len ≠ 0 → offsetOf p + len.toNat ≤ s.spSize c))
    let sets (i : Instr) (f : Chan → Chan) : Prop := exec i s = .next ((s.updChan c n f).past 4)
    (x.running = false → x.st ≠ .faulted → len.toNat ≤ 2 ^ 40 → near src → near dst →
      (spaceOf src = spaceOf dst → src.toNat + len.toNat ≤ dst.toNat ∨ dst.toNat + len.toNat ≤ src.toNat) →
      sets (.cpStart n d a b) fun _ =>
        { src := src, dst := dst, len := len, st := if len = 0 then .done else .running, slot := slotOf s.cur, mode := s.me.mode }) ∧
    (CanTrap s → (x.running = true ∨ x.st = .faulted → Traps (.cpStart n d a b) s .illegalOperand (BitVec.ofNat 64 n.val) s.me.pc) ∧
      (x.running = false → x.st ≠ .faulted → 2 ^ 40 < len.toNat → Traps (.cpStart n d a b) s .illegalOperand len s.me.pc)) ∧
    (x.running = true → x.wp.toNat < src.toNat →
      exec (.cpWaitge n d a) s = .next (s.updMe fun y => { y with run := .waiting (.channel n src) })) ∧
    (x.running = false ∨ src.toNat ≤ x.wp.toNat → Gives (.cpWaitge n d a) s 4 d x.wp) ∧ Gives (.cpWp n d) s 4 d x.wp ∧
    (let status (aux : Nat) : Prop := Gives (.cpStat n d) s 4 d (BitVec.ofNat 64 (x.st.code * 2 ^ 61 + (if x.ap then 2 ^ 60 else 0) + x.slot * 2 ^ 56 +
        x.cause.toNat * 2 ^ 48 + aux))
     (x.ap = false → status ((x.len - x.wp).toNat % 2 ^ 48)) ∧ (∀ r, x.ap = true → x.rsv = some r → status (r.toNat % 2 ^ 48)) ∧
     (x.ap = true → x.rsv = none → x.st = .refused → status (2 ^ 48 - 1))) ∧
    (x.running = false → x.st ≠ .faulted → exec (.cpStop n) s = .next (s.past 4)) ∧
    (x.st = .faulted → sets (.cpStop n) fun y => { y with st := .stopped, cause := 0, buf := [] }) ∧
    (let till := stopAt256 x.wp.toNat x.len.toNat
     x.running = true →
      (x.wp.toNat ≠ till → exec (.cpStop n) s = .next (((s.updChan c n fun y => { y with st := .stopping, stopAt := BitVec.ofNat 64 till }).past 4).updMe
        fun y => { y with run := .waiting (.chanStop n) })) ∧
      (x.wp.toNat = till → exec (.cpStop n) s = .next ((stopChan s c n).past 4) ∧ (stopChan s c n).mem = s.mem ∧
        (stopChan s c n).chan c n = { x with st := if x.wp = x.len then .done else .stopped, reqOut := false, wait := none, buf := [] })) ∧
    (x.st = .faulted → x.cause ≠ .leaseViolation → sets (.cpResume n) fun y => { y with st := .running, cause := 0, wait := none }) ∧
    (CanTrap s → x.st ≠ .faulted ∨ x.cause = .leaseViolation → Traps (.cpResume n) s .illegalOperand (BitVec.ofNat 64 n.val) s.me.pc)) ∧

  (∀ (s : State) (c : Nat) (n : Fin 4), let x := s.chan c n; let src := x.src + x.wp; let dst := x.dst + x.wp; let k := x.chunk; let m := x.piece
    let t := threadOf c x.slot
    let near (a : Word) (k : Nat) : Prop := spaceOf a = some .spd ∧ fld a.toNat 45 11 = c ∧ offsetOf a + k ≤ s.spSize c
    x.st = .running → halting s c = false → x.reqOut = false → x.ap = false → x.rsv = none → x.wait = none → x.wp.toNat < x.len.toNat →
    (s.core c).lines = [] → lsBusy s c = false → look (144 + n.val) (s.core c).reqs = none → onCore t = true → agentOf t = c → near dst 1 →
    (x.buf = [] → near src m → poisonAt s (lsBlk c) (s.spOffset c (offsetOf src)) m = none → ∃ u, exec (.channelDelivery c n) s = .next u ∧ u.mem = s.mem ∧ 1 ≤ m ∧ m ≤ 64 - src.toNat % 64 ∧
      (u.core c).ls = (s.core c).ls ∧ u.chan c n = { x with buf := (s.core c).ls.bytes (s.spOffset c (offsetOf src)) m, atDst := false }) ∧
    (x.buf ≠ [] → x.len.toNat ≤ x.readTo → near dst k → ∃ u, exec (.channelDelivery c n) s = .next u ∧ u.mem = s.mem ∧ 1 ≤ k ∧ k ≤ 64 ∧
      (u.core c).ls = (s.core c).ls.wrBytes (s.spOffset c (offsetOf dst)) (x.buf.take k) ∧
      u.chan c n = { x with
        wp := x.wp + BitVec.ofNat 64 k, buf := x.buf.drop k, atDst := false, st := if x.wp + BitVec.ofNat 64 k = x.len then .done else .running } ∧
      ∀ i, i < 16 → ∀ b, (s.slot (threadOf c i)).run = .waiting (.channel n b) → b.toNat ≤ (x.wp + BitVec.ofNat 64 k).toNat →
        (u.slot (threadOf c i)).run = .active) ∧
    (x.buf = [] → spaceOf src = none → ∃ u, exec (.channelFault c n) s = .next u ∧ u.mem = s.mem ∧ (u.core c).ls = (s.core c).ls ∧
      u.chan c n = { x with st := .faulted, cause := .loadFault, atDst := false } ∧
      (u.slot t).pend = (s.slot t).pend ++ [.engine (efWord false .loadFault n 2) src x.wp (BitVec.allOnes 64)]) ∧
    let q := s.updChan c n fun y => { y with st := .stopping, stopAt := x.wp }
    ∃ u, exec (.channelStopped c n) q = .next u ∧ (u.chan c n).st = .stopped ∧ (u.chan c n).wp = x.wp ∧ u.mem = s.mem)

/-- The distributor's instructions and events (R316 to R319): DIST.SET of a legal pattern stores it and of an illegal one traps; DIST.GO starts the core's
burst with the pattern; DIST.STAT gives its status; DIST.RESUME continues a faulted one; a block whose pieces can all be read is dealt (the bytes it
leaves over of a source block that two dealt blocks share begin the next one, R203), and at the last the burst is done, its join cell counted down and
the cell's record queued when the count was one. The rule of the deal (R317, R318): under a legal pattern each block of a burst goes to a receiving
core, the places of two blocks never meet, and no block reaches beyond the bytes that the check of DIST.GO counts for its core. A cell is counted at
its home in one step (log 14), and a lease violation cannot be resumed (log 25). -/
def Obligations.Distributor : Prop :=
  ((∀ (s : State) (d a b : Reg), let c := s.myCore; let v := s.rd a; let q := s.core c; let x := q.burst; let join := s.rd d; let len := s.rd b
    let p := ((List.range 16).filter fun i => (bits v 63 48).testBit i).length
    let legal : Prop := bits v 63 48 ≠ 0 ∧ bits v 47 40 ≠ 0 ∧ bits v 47 40 % p = 0 ∧ bits v 34 32 ≤ 6 ∧ bits v 17 0 % 64 = 0 ∧
      bits v 39 35 = 0 ∧ bits v 31 18 = 0
    (legal → exec (.distSet a) s = .next ((s.updCore c fun q => { q with distPat := v }).past 4)) ∧
    (CanTrap s → ¬ legal → Traps (.distSet a) s .illegalOperand v s.me.pc) ∧
    (x.st ≠ .running → x.st ≠ .faulted → spaceOf v = some .glb → len ≠ 0 → len.toNat ≤ 2 ^ 32 → cannotDeal s c len.toNat q.distPat = false →
      join = 0 ∨ (join.toNat % 64 = 0 ∧ spaceOf join = some .spd) → exec (.distGo d a b) s =
      .next ((s.updCore c fun q => { q with
        burst := { st := .running, src := v, len := len, join := join, pat := q.distPat, slot := slotOf s.cur, mode := s.me.mode,
                   launch := launchOf s s.cur } }).past 4)) ∧
    (CanTrap s → x.st = .running ∨ x.st = .faulted → Traps (.distGo d a b) s .illegalOperand 0 s.me.pc) ∧
    Gives (.distStat d) s 4 d (BitVec.ofNat 64 ((match x.st with | .running => 1 | .done => 2 | .faulted => 3 | _ => 0) * 2 ^ 61 +
      (if x.st = .faulted then x.cause.toNat else 0) * 2 ^ 48 + x.blocks % 2 ^ 32)) ∧
    (x.st = .faulted → x.cause ≠ .leaseViolation → exec .distResume s =
      .next ((s.updCore c fun q => { q with burst := { q.burst with st := .running, cause := 0, wait := none } }).past 4)) ∧
    (CanTrap s → x.st ≠ .faulted ∨ x.cause = .leaseViolation → Traps .distResume s .illegalOperand 0 s.me.pc)) ∧
  ∀ (s s' : State) (c pa : Nat), let x := (s.core c).burst; let n := burstBlocks x.len.toNat (dpBs x.pat); let t := threadOf c x.slot
    x.st = .running → halting s c = false → x.wait = none →
    (let start := x.src + BitVec.ofNat 64 (x.blocks * dpBs x.pat); let spot := dealBlock x.pat c x.blocks
     x.blocks < n → lsBusy s spot.1 = false →
     let k := Nat.min (dpBs x.pat) (x.len.toNat - x.blocks * dpBs x.pat)
     ∀ rest, dealPieces s c t x spot.1 spot.2 start x.part x.buf ((pieces start k).drop x.part) = .all rest s' →
     exec (.distBlock c) s = .next ((unpoisonIn s' (lsBlk spot.1) (s'.spOffset spot.1 spot.2) k).updCore c fun q =>
       { q with burst := { q.burst with blocks := q.burst.blocks + 1, part := 0, wait := none, buf := rest } })) ∧
    (let fin (s : State) : State := s.updCore c fun q => { q with burst := { q.burst with st := .done, wait := none } }
     x.blocks = n →
      (x.join = 0 → exec (.distBurstComplete c) s = .next (fin s)) ∧
      (x.join ≠ 0 → cellAddrBy s t true x.join x.join = .ok pa s' → let m := homeWord s' pa
        let r := { recOf (homeBytes s' (pa + 32) 32) c with launch := x.launch }
        exec (.distBurstComplete c) s = .next (fin (if m = 0 then s'
          else if m = 1 ∧ r.code ≠ 0 then dealTo (cellCount s' t pa fun k => k - 1) c noThread r else cellCount s' t pa fun k => k - 1))))) ∧

  (∀ (p : Word) (c len : Nat), c < 2048 → dpMask p ≠ 0 → dpCyc p ≠ 0 → dpCyc p % (dpCores p c).length = 0 → 0 < len →
    let n := burstBlocks len (dpBs p)
    (∀ b, (dealBlock p c b).1 ∈ dpCores p c) ∧
    (∀ b b', (dealBlock p c b).1 = (dealBlock p c b').1 → b ≠ b' →
      (dealBlock p c b).2 + dpBs p ≤ (dealBlock p c b').2 ∨ (dealBlock p c b').2 + dpBs p ≤ (dealBlock p c b).2) ∧
    ∀ b, b < n → let j := b % dpCyc p / (dpCyc p / (dpCores p c).length)
      (dpCores p c)[j]? = some (dealBlock p c b).1 ∧
      (dealBlock p c b).2 + Nat.min (dpBs p) (len - b * dpBs p) ≤ dpOff p + dealtBytes p c len j)

/-- A special-function instruction takes one entry of its core's queue with its operand, mask and rounding mode, and leaves the rotation; a slot that owns
an entry waits for it (R322). The head entry writes its active lanes and no other, raises their flags, and the slot that waits for it goes on behind
its instruction (R321, R322); the entry of a record that has ended writes nothing (the model's reading, log 21). Special-function results that the
spec states, in f32 (R321): NaN operands, infinities, zeros and negative operands, and powers of two, which EXP2 and RCP give exactly; LOG2 of one is
+0 with no flag; SQRT is the scalar square root. A lane whose value the spec only bounds is a free value within the bound (log 8), of which nothing is
claimed. -/
def Obligations.SpecialFunctions : Prop :=
  ((∀ (s : State) (ty : ElType) (m d a : Reg), let c := s.myCore
    let takes (i : Instr) (fn : Nat) : Prop :=
      if (s.core c).sfuq.any (fun e => e.slot = slotOf s.cur) then exec i s = .next (s.updMe fun x => { x with run := .waiting .sfuFull })
      else exec i s = .next ((s.updCore c fun q => { q with sfuq :=
        q.sfuq ++ [{ fn := fn, ty := ty, slot := slotOf s.cur, d := d, mask := s.mask m, a := s.rdv a, rm := s.rm }] }).updMe
          fun x => { x with run := .waiting .sfu })
    takes (.sfuExp2 ty m d a) 0 ∧ takes (.sfuLog2 ty m d a) 1 ∧ takes (.sfuRcp ty m d a) 2 ∧ takes (.sfuRsqrt ty m d a) 3 ∧
    takes (.sfuSqrt ty m d a) 4 ∧ takes (.sfuSin ty m d a) 5 ∧ takes (.sfuCos ty m d a) 6 ∧ takes (.sfuTanh ty m d a) 7 ∧
    takes (.sfuSigm ty m d a) 8 ∧ takes (.sfuErf ty m d a) 9) ∧
  ∀ (s : State) (c : Nat) (o : SfuOp) (l : List SfuOp), (s.core c).sfuq = o :: l → let t := threadOf c o.slot; let w := o.ty.width
    let r (j : Nat) : Rnd := sfuLane o.fn o.ty o.rm (lane w o.a j)
    (o.lost = true → ∃ u, exec (.sfuEntryComplete c) s = .next u ∧ (u.core c).sfuq = l ∧ u.mem = s.mem ∧ ∀ v, u.slot v = s.slot v) ∧
    (o.lost = false → ∃ u, exec (.sfuEntryComplete c) s = .next u ∧ (u.core c).sfuq = l ∧ u.mem = s.mem ∧ (∀ v, v ≠ t → u.slot v = s.slot v) ∧
      (∀ k, k ≠ o.d → (u.slot t).rv k = (s.slot t).rv k) ∧
      (∀ j, j < o.ty.lanes → lane w ((u.slot t).rv o.d) j =
        if o.mask.getLsbD j then (r j).code % 2 ^ w else lane w ((s.slot t).rv o.d) j) ∧
      (∀ k, (u.slot t).fpFlags.getLsbD k = true ↔
        (s.slot t).fpFlags.getLsbD k = true ∨ ∃ j, j < o.ty.lanes ∧ o.mask.getLsbD j = true ∧ (r j).flags.getLsbD k = true) ∧
      ((s.slot t).run = .waiting .sfu → o.parked = false → (u.slot t).run = .active ∧ (u.slot t).pc = (s.slot t).pc + 12))) ∧

  (∀ (rm : Rm) (a : Nat), let f (fn a : Nat) : Rnd := sfuLane fn .f32 rm a; let nan : Nat := 0x7FC00000; let inf : Nat := 0x7F800000
    let ninf : Nat := 0xFF800000; let one : Nat := 0x3F800000; let u := unpack .f32 a
    (f 4 a = fSqrt .f32 rm a) ∧
    (u.isNan = true → ∀ fn, fn < 10 → (f fn a).code = nan ∧ ((f fn a).flags = if u.isSnan then Fl.nv else 0)) ∧
    (∀ m e, u = .fin true m e → m ≠ 0 → f 1 a = ⟨nan, Fl.nv⟩ ∧ f 3 a = ⟨nan, Fl.nv⟩) ∧
    f 0 inf = ⟨inf, 0⟩ ∧ f 0 ninf = ⟨0, 0⟩ ∧ f 1 inf = ⟨inf, 0⟩ ∧ f 1 ninf = ⟨nan, Fl.nv⟩ ∧ f 2 inf = ⟨0, 0⟩ ∧ f 2 ninf = ⟨0x80000000, 0⟩ ∧
    f 3 inf = ⟨0, 0⟩ ∧ f 1 one = ⟨0, 0⟩ ∧ f 5 inf = ⟨nan, Fl.nv⟩ ∧ f 6 ninf = ⟨nan, Fl.nv⟩ ∧ f 7 inf = ⟨one, 0⟩ ∧ f 9 ninf = ⟨0xBF800000, 0⟩ ∧ f 8 inf = ⟨one, 0⟩ ∧
    f 8 ninf = ⟨0, 0⟩ ∧
    (∀ z ∈ [0, 0x80000000], f 0 z = ⟨one, 0⟩ ∧ f 1 z = ⟨ninf, Fl.dz⟩ ∧ f 2 z = ⟨z + inf, Fl.dz⟩ ∧ f 5 z = ⟨z, 0⟩ ∧ f 6 z = ⟨one, 0⟩ ∧ f 7 z = ⟨z, 0⟩ ∧
      f 8 z = ⟨0x3F000000, 0⟩ ∧ f 9 z = ⟨z, 0⟩) ∧
    ∀ k : Int, -126 ≤ k → k ≤ 126 →
      f 2 ((127 + k).toNat * 2 ^ 23) = ⟨(127 - k).toNat * 2 ^ 23, 0⟩ ∧
      f 0 (convert .f32 0 none (intVal k)).code = ⟨(127 + k).toNat * 2 ^ 23, 0⟩)

/-- The fabric's instructions, for a rank that resolves at once (R372, R377 to R383, R387, R394): a message takes an entry of the injection queue, with
the sender's fields written by the hardware, and an entry for another device leaves it as a packet; QRCV and QPOLL take the oldest entry the slot may
take; RLD, RST and RATOM send one packet, with a tag or counted; BULK.WR sends the bytes of its range, here in the scratchpad and none of them
poisoned, and BULK.RD records where they go; RWAIT answers by the state of its tag; RANK.ME and RANK.RD deliver their words. The order of the words in
a packet is the model's form (log 31), and a bulk write reads its source at issue (log 27). -/
def Obligations.FabricInstructions : Prop :=
  ∀ (s : State) (d a b c : Reg) (n : Fin 8) (sz : Size) (f : Bool) (op : AtomOp) (ord : MemOrd), let q := s.core s.myCore; let r := s.rd a; let adr := s.rd b
    let past (k : Nat) (x : Slot) : Slot := { x with pc := x.pc + BitVec.ofNat 64 k, fresh := none, vprog := none, got := none }
    let idle : Prop := released s s.myCore = true ∧ s.me.ff = 0 ∧
      ∀ o ∈ s.remOps, ¬ (o.thread = some s.cur ∧ o.mine = s.partOf s.myCore ∧ o.tag.isSome = true ∧ o.len = none)
    let group := regGroup s.me a
    let filled (e : RcvEntry) (k : Reg) : Word := if a.val ≤ k.val ∧ k.val ≤ a.val + 7 ∧ k ≠ 0 then e.w.toList.getD (k.val - a.val) 0 else s.rd k
    (let inj (i : Instr) (rel : Bool) : Prop := let dst := BitVec.ofNat 64 (adr.toNat % 4096)
      let e := rankEntry s (jobOn s s.myCore) dst.toNat; let w := group.set 0 (sender s s.cur group[0])
      adr.toNat < 2 ^ 28 → RankReady s dst → group[0].getLsbD 5 = false → bits group[0] 44 39 ≤ 48 → (rel = true → idle) → s.me.ff < 64 → q.injq.length < 16 →
      exec i s = .next (((s.updMe fun x => { x with ff := x.ff + 1 }).updCore s.myCore fun q => { q with
        injq := q.injq ++ [{ slot := slotOf s.cur, dest := adr, w := w, rel := rel, dev := rankDev e, part := rankPart e }] }).past 4)
     inj (.qinj a b) false ∧ inj (.qinjRel a b) true) ∧
    (∀ e l, q.injq = e :: l → e.dev ≠ s.devNum → outstanding s e.dev false < 2 ^ 15 → reachable s e.dev = true → let t := sendInjected s s.myCore
      ∃ o, t.remOps = s.remOps ++ [o] ∧ (t.core s.myCore).injq = l ∧ t.mem = s.mem ∧ o.dst = e.dev ∧ o.part = e.part ∧
        o.thread = some (threadOf s.myCore e.slot) ∧ o.counted = true ∧ o.tag = none ∧
        ∀ p ∈ o.packets, p.kind = 0 ∧ p.words = [e.dest, if e.rel then 1 else 0] ∧ p.flits = [blkOf (e.w.toList.flatMap fun x => leBytes 8 x.toNat)] ∧
          ∃ port ∈ portsTo s e.dev, (port, p) ∈ t.sent) ∧
    (∀ e l, q.rcvq = e :: l → e.slot = none ∨ e.slot = some (slotOf s.cur) →
      ((Instr.qrcv a).wf = true → ∃ t, exec (.qrcv a) s = .next t ∧ (t.core s.myCore).rcvq = l ∧ t.mem = s.mem ∧ (∀ k, t.rd k = filled e k) ∧ t.me.pc = s.me.pc + 4) ∧
      ((Instr.qpoll d a).wf = true → ∃ t, exec (.qpoll d a) s = .next t ∧ (t.core s.myCore).rcvq = l ∧ t.mem = s.mem ∧ t.me.pc = s.me.pc + 4 ∧
        ∀ k, t.rd k = if k = d ∧ d ≠ 0 then 1 else filled e k)) ∧
    (q.rcvq = [] → (∃ t, exec (.qrcv a) s = .next t ∧ t.me = { s.me with run := .waiting (.receive a) } ∧ slotOf s.cur ∈ (t.core s.myCore).rwaiters) ∧
      Gives (.qpoll d a) s 4 d 0) ∧
    Gives (.qcnt d) s 4 d (BitVec.ofNat 64 (q.rcvq.countP fun e => e.slot = none || e.slot = some (slotOf s.cur))) ∧
    (RankReady s r → spaceOf adr = some .glb →
      (∀ o ∈ s.remOps, ¬ (o.thread = some s.cur ∧ o.mine = s.partOf s.myCore ∧ o.rank = r.toNat ∧ o.blks.any (remoteBlocks adr (bytesOf sz)).contains = true)) →
      let tagged (i : Instr) (kind : Nat) (acq : Bool) (words : List Word) : Prop := s.me.tags[n] = .free → ∃ t o, exec i s = .next t ∧ Sends s t r o ∧
        o.tag = some n ∧ o.counted = false ∧ o.len = none ∧ (∃ p, o.packets = [p] ∧ p.kind = kind ∧ p.words = adr :: words ++ [BitVec.ofNat 64 s.cur] ∧ p.flits = []) ∧ t.mem = s.mem ∧
        t.me = past 12 { s.me with tags := s.me.tags.set n (.pending none acq) }
      tagged (.rld n sz f a b) 1 f [BitVec.ofNat 64 (bytesOf sz)] ∧
      (s.me.ff < 64 → (f = true → idle) → ∃ t o, exec (.rst sz f d a b) s = .next t ∧ Sends s t r o ∧ o.tag = none ∧ o.counted = true ∧
        (∃ p, o.packets = [p] ∧ p.kind = 2 ∧ p.words = [adr, BitVec.ofNat 64 (bytesOf sz), s.rd d, if f then 1 else 0, BitVec.ofNat 64 s.cur] ∧ p.flits = []) ∧ t.mem = s.mem ∧
        t.me = past 12 { s.me with ff := s.me.ff + 1 }) ∧
      (sz = .w ∨ sz = .d → (ord = .rel ∨ ord = .sc → idle) → let big := if sz = .d then 64 else 0; let rel : Word := if ord = .rel ∨ ord = .sc then 1 else 0
        let acq := decide (ord = .acq ∨ ord = .sc)
        (adr.toNat % (if sz = .d then 8 else 4) = 0 →
          tagged (.ratom op n sz ord d a b) 3 acq [BitVec.ofNat 64 (atomCode op + big), s.rd d, 0, rel] ∧
          tagged (.ratomCas n sz ord d a b) 3 acq [BitVec.ofNat 64 (8 + big), s.rd d, s.rd (reg (d.val + 1)), rel]))) ∧
    (let len := s.rd c; let l := s.myLs.bytes (s.lsPlace (s.rd d)) len.toNat
     RankReady s r → spaceOf adr = some .glb → InScratchpad s (s.rd d) len.toNat → len ≠ 0 → let clean := poisonAt s (lsBlk s.myCore) (s.lsPlace (s.rd d)) len.toNat = none
      (clean → s.me.ff < 64 → ∃ t o, exec (.bulkWr none d a b c) s = .next t ∧ Sends s t r o ∧ o.tag = none ∧ o.counted = true ∧ o.packets.flatMap packetBytes = l ∧
        (∀ p ∈ o.packets, p.kind = 6 ∧ p.words = [adr, BitVec.ofNat 64 s.cur]) ∧ t.mem = s.mem ∧ t.me = past 12 { s.me with ff := s.me.ff + 1 }) ∧
      (s.me.tags[n] = .free →
        (clean → ∃ t o, exec (.bulkWr (some n) d a b c) s = .next t ∧ Sends s t r o ∧ o.tag = some n ∧ o.len = some len ∧ o.packets.flatMap packetBytes = l ∧
          (∀ p ∈ o.packets, p.kind = 6 ∧ p.words = [adr, BitVec.ofNat 64 s.cur]) ∧ t.mem = s.mem ∧ t.me = past 12 { s.me with tags := s.me.tags.set n (.pending (some len) false) }) ∧
        ∃ t o, exec (.bulkRd n d a b c) s = .next t ∧ Sends s t r o ∧ o.tag = some n ∧ o.len = some len ∧
          (o.pieces.flatMap fun x => (List.range x.2).map fun j => x.1 + j) = (List.range len.toNat).map (fun j => 2 ^ 53 + s.lsPlace (s.rd d) + j) ∧
          (∃ p, o.packets = [p] ∧ p.kind = 7 ∧ p.words = [adr, len]) ∧ t.mem = s.mem ∧
          t.me = past 12 { s.me with tags := s.me.tags.set n (.pending (some len) false) })) ∧
    (let x := s.me.tags[n]; let freed : Slot := { s.me with tags := s.me.tags.set n .free }
     (x = .free → CanTrap s → Traps (.rwait d n) s .illegalOperand (BitVec.ofNat 64 n.val) s.me.pc) ∧
     (∀ l k, x = .pending l k → exec (.rwait d n) s = .next (s.updMe fun y => { y with run := .waiting (.tag n) })) ∧
     (∀ v k, x = .ready v k → ∃ t, exec (.rwait d n) s = .next t ∧ OnlyThisSlot s t ∧
       t.me = past 4 { (freed.ws d v) with acqFence := if k then some .job else s.me.acqFence }) ∧
     ∀ v, x = .failed v → Enterable s s.cur → s.me.fresh = none → ∃ t, exec (.rwait d n) s = .next t ∧ OnlyThisSlot s t ∧ t.me.trCause = 0x117 ∧
       t.me.trVal = v ∧ t.me.trPc = s.me.pc ∧ t.me.mode = .s ∧ t.me.tags[n] = .free) ∧
    (let p := (s.partOf s.myCore).getD 0; let job := jobOn s s.myCore
     (∀ k e, s.ranks.find? (fun x => x.1 / 4096 = job && rankSt x.2 = 1 && rankDev x.2 = s.devNum && rankPart x.2 = p) = some (k, e) →
       Gives (.rankMe d) s 4 d (BitVec.ofNat 64 (s.devNum + p * 2 ^ 10 + k % 4096 * 2 ^ 16 + 2 ^ 28))) ∧
     ((∀ x ∈ s.ranks, ¬ (x.1 / 4096 = job ∧ rankSt x.2 = 1 ∧ rankDev x.2 = s.devNum ∧ rankPart x.2 = p)) → Gives (.rankMe d) s 4 d (BitVec.ofNat 64 (s.devNum + p * 2 ^ 10))) ∧
     (r.toNat < 4096 → Gives (.rankRd d a) s 4 d ((rankEntry s job r.toNat).setWidth 64)) ∧
     (CanTrap s → 4096 ≤ r.toNat → Traps (.rankRd d a) s .illegalOperand r s.me.pc))

/-- Packets of another device at this one (R374, R376, R380, R382, R388): a load's bytes, a store and an atomic of a plain block, a bulk write in one
packet and a bulk read are performed in the target partition's context and answered under their number; one whose number is complete is answered
again, and an old one has no effect; a reservation is granted, and waits at the device where 256 entries are in use (the model's reading, log 75; that
every grant starts at offset zero is its choice, log 90); and a queue message goes to its core. The order of the words in a packet is the model's form
(log 31), and an access is performed at its home in one step (log 14). -/
def Obligations.FabricTargets : Prop :=
  (∀ (s : State) (p : Packet), let s0 := moveWindow s p; let w (i : Nat) : Word := p.words.getD i 0; let va := w 0; let k := (w 1).toNat
    let ready (kind : Nat) : Prop := FromAfar s p kind ∧ seen s p = .fresh ∧ (s.part p.part).mode ≠ .replay
    (∀ l, ready 1 → s.hostOps = [] → targetPieces s0 p.part .load (pieces va k) = .ok l s0 → l.all (belowTail s0) = true →
      ∃ u, exec (.remoteLoad p) s = .next u ∧ u.mem = s.mem ∧ Answers s u p 4 [BitVec.ofNat 64 (leNat (readPieces s l))]) ∧
    (∀ pa n, targetPieces s0 p.part .store (pieces va k) = .ok [(pa, n)] s0 → PlainHome s pa 0 → pa % 64 + n ≤ 64 → 0 < n →
      ready 2 → n = k → ∃ u, exec (.remoteStore p) s = .next u ∧ u.mem = s.mem.wrBytes pa (leBytes n (w 2).toNat) ∧ Answers s u p 5 [if p.reply then 1 else 0]) ∧
    (∀ pa, let n := atomWidth k; ready 3 → targetPieces s0 p.part .store (pieces va n) = .ok [(pa, n)] s0 → poisonedBlk s (pa / 64) = false → PlainHome s pa 0 → pa % 64 + n ≤ 64 →
      let old := s.mem.le pa n
      ∃ u, exec (.remoteAtomic p) s = .next u ∧ u.mem = s.mem.wrBytes pa (leBytes n (atomStep k old (w 2).toNat (w 3).toNat)) ∧
        Answers s u p 4 [BitVec.ofNat 64 old]) ∧
    (∀ pa, let b := packetBytes p; ready 6 → p.off = 0 → b.length = p.tot → 0 < p.tot → reasmOf s p = none →
      targetPieces s0 p.part .store (pieces va b.length) = .ok [(pa, b.length)] s0 → PlainHome s pa 0 → pa % 64 + b.length ≤ 64 →
      ∃ u, exec (.bulkWriteData p) s = .next u ∧ u.mem = s.mem.wrBytes pa b ∧ Answers s u p 5 [if p.reply then 1 else 0]) ∧
    (∀ l, ready 7 → s.hostOps = [] → targetPieces s0 p.part .load (pieces va k) = .ok l s0 → l.all (belowTail s0) = true →
      (∀ o ∈ s.remOps, ¬ (o.reply = true ∧ o.dst = p.src ∧ o.seq = p.seq ∧ o.sent = true)) →
      ∃ u o, exec (.bulkReadRequest p) s = .next u ∧ u.mem = s.mem ∧ u.remOps = s.remOps ++ [o] ∧ o.reply = true ∧ o.dst = p.src ∧ o.seq = p.seq ∧
        o.packets.flatMap packetBytes = readPieces s l ∧ ∀ q ∈ o.packets, q.kind = 8 ∧ q.seq = p.seq ∧
          ((∃ port ∈ portsTo s p.src, (port, q) ∈ u.sent) ∨ ∃ g ∈ u.packets, g.kind = 9 ∧ g.dst = s.devNum ∧ g.seq = p.seq ∧ g.off = q.off)) ∧
    (∀ kind i, FromAfar s p kind → (kind, i) ∈ [(1, Instr.remoteLoad p), (2, .remoteStore p), (3, .remoteAtomic p), (6, .bulkWriteData p), (7, .bulkReadRequest p)] →
      (seen s p = .old → exec i s = .next s) ∧ ∀ a, seen s p = .again a → exec i s = .next (emit s a)) ∧
    (let room : Prop := (reasmOf s p).isSome = true ∨ hasGrant s p = true ∨ entriesUsed s p < 256
     FromAfar s p 10 → (¬ room → exec (.reservationRequest p) s = .next { s with atTarget := s.atTarget ++ [p] }) ∧
      (room → ∃ u g port, exec (.reservationRequest p) s = .next u ∧ u.reserved = openGrants s ++ [(p, s.time + 20000)] ∧ u.mem = s.mem ∧
      port ∈ portsTo s p.src ∧ u.sent = s.sent ++ [(port, g)] ∧ g.kind = 11 ∧ g.dst = p.src ∧ g.seq = p.seq ∧ g.off = p.off ∧
      g.words = [if p.reply then 1 else 0, w 0, 0, 20000]))) ∧
  ∀ (s : State) (p : Packet) (g : PartCfg), let c := destCore (p.words.getD 0 0); let e := rcvOf p
    (s.part p.part).cfg = some g → (s.part p.part).exported = false → c ∈ coreSet g → s.partOf c = some p.part → (s.core c).rwaiters = [] →
    (s.core c).spills = [] → (s.core c).rcvq.length < 16 →
    (FromAfar s p 0 → seen s p = .fresh → (∀ x ∈ s.qmsgs, x.2 ≠ p) →
      ∃ u, exec (.queueMessage p) s = .next u ∧ (u.core c).rcvq = (s.core c).rcvq ++ [e] ∧ u.mem = s.mem ∧ Answers s u p 5 [if p.reply then 1 else 0]) ∧
    (∀ k x l, p.kind = 0 → p.src = s.devNum → p.dst = s.devNum → s.cores.find? (fun q => (injFor s p q.2).isSome) = some (k, x) → x.injq = l →
      (s.core k) = x → injFor s p x = some 0 → ∀ f r, l = f :: r → destCore f.dest = c →
      ∃ u, exec (.queueMessage p) s = .next u ∧ (u.core k).injq = r ∧ (u.core c).rcvq = (s.core c).rcvq ++ [e] ∧ u.mem = s.mem ∧
        (u.slot (threadOf k f.slot)).ff = (s.slot (threadOf k f.slot)).ff - 1)

/-- Answers of another device to this one's operations, and what passes through the device (R365, R368, R371, R373, R375, R380, R382, R383, R386, R388,
R389): a value or an acknowledgement completes the operation, and its tag or its slot's count hears of it; a failure report makes the tag fail, but
one that says that the partition has moved keeps the operation while its rank migrates; a refusal sets the back-off, after which the operation is sent
again; a timeout resends four times and then fails; a notice asks for a reservation, and its grant is followed by the resend; data of a bulk read goes
to the local range; a pending REMOTE_ERROR is taken; a packet for another device goes on by a port that leads there, with one hop more; and one that
has made five hops, or that no port leads on, is reported to its sender. The order of the words in a packet is the model's form (log 31), and which of
several ports a packet takes is free (log 38). -/
def Obligations.FabricAnswers : Prop :=
  (∀ (s : State) (p : Packet) (o : RemOp) (t : Nat), (∀ x ∈ s.remOps, x.sent = true) → o.thread = some t → s.partOf (agentOf t) = o.mine →
    let gone (u : State) : Prop := u.remOps = s.remOps.erase o ∧ u.mem = s.mem ∧ ∀ v, v ≠ t → u.slot v = s.slot v
    (FromAfar s p 4 → opOf s p.src false p.seq = some o → ∀ n l k, o.tag = some n → o.len = none → (s.slot t).tags[n] = .pending l k →
      ∃ u, exec (.valueReply p) s = .next u ∧ gone u ∧ u.slot t = { s.slot t with tags := (s.slot t).tags.set n (.ready (p.words.getD 0 0) k) }) ∧
    (FromAfar s p 5 → opOf s p.src ((p.words.getD 0 0).getLsbD 0) p.seq = some o → o.pieces = [] → (∀ q ∈ o.packets, q.kind ≠ 8) →
      ∃ u, exec (.acknowledgement p) s = .next u ∧ gone u ∧
        (o.tag = none → o.counted = true → u.slot t = { s.slot t with ff := (s.slot t).ff - 1 }) ∧
        ∀ n l k v, o.tag = some n → (s.slot t).tags[n] = .pending l k → o.len = some v → u.slot t = { s.slot t with tags := (s.slot t).tags.set n (.ready v k) }) ∧
    (FromAfar s p 13 → opOf s (p.words.getD 3 0).toNat ((p.words.getD 2 0).getLsbD 0) p.seq = some o → p.words.getD 1 0 = 0 → o.parked = false →
      let w := BitVec.ofNat 64 ((p.words.getD 0 0).toNat * 2 ^ 32 + (if o.reply then 2 ^ 26 else 0) + o.dst % 2 ^ 10 * 2 ^ 16 + o.seq % 2 ^ 16)
      ∃ u, exec (.failureReport p) s = .next u ∧ gone u ∧ (∀ n, o.tag = some n → u.slot t = { s.slot t with tags := (s.slot t).tags.set n (.failed w) }) ∧
        (o.tag = none → o.counted = true → u.slot t = { s.slot t with ff := (s.slot t).ff - 1, remErr := (s.slot t).remErr ++ [w] })) ∧
    (FromAfar s p 13 → opOf s (p.words.getD 3 0).toNat ((p.words.getD 2 0).getLsbD 0) p.seq = some o → p.words.getD 0 0 = 2 → p.words.getD 1 0 ≠ 0 →
      o.parked = false → o.moved = false → rankSt (rankEntry s o.job o.rank) = 2 →
      exec (.failureReport p) s = .next (updRemOp s o fun x => { x with parked := true })) ∧
    (FromAfar s p 12 → opOf s p.src ((p.words.getD 1 0).getLsbD 0) p.seq = some o → (∀ q ∈ o.packets, q.kind ≠ 6 ∧ q.kind ≠ 8) →
      exec (.refusal p) s = .next (updRemOp s o fun x => { x with backoff := some (s.time + (p.words.getD 0 0).toNat) })) ∧
    (∀ q, FromAfar s p 9 → opOf s (p.words.getD 3 0).toNat ((p.words.getD 0 0).getLsbD 0) p.seq = some o →
      (∃ y ∈ o.packets, y.off = p.off ∧ y.own = p.own ∧ y.drop = true) →
      (o.packets.find? fun y => y.off = p.off) = some q → portsTo s o.dst ≠ [] → o.dst ≠ s.devNum →
      ∃ u g port, exec (.dropNotice p) s = .next u ∧ port ∈ portsTo s o.dst ∧ u.sent = s.sent ++ [(port, g)] ∧ g.kind = 10 ∧ g.dst = o.dst ∧ g.seq = o.seq ∧
        g.off = q.off ∧ g.words = [BitVec.ofNat 64 (64 * q.flits.length)] ∧ u.mem = s.mem) ∧
    (∀ q, FromAfar s p 11 → noticedOp s p = some (o, q) →
      exec (.reservationGrant p) s = .next (updRemOp s o fun x => { x with granted := put q.off (s.time + (p.words.getD 2 0).toNat) x.granted })) ∧
    (FromAfar s p 8 → seen s p = .fresh → s.remOps.find? (fun x => x.sent && !x.reply && x.dst = p.src && x.seq = p.seq && !x.pieces.isEmpty) = some o →
      reasmOf s p = none → reasmRoom s p = true → p.off = 0 → let b := packetBytes p; b.length = p.tot → 0 < p.tot →
      ∀ key n, o.pieces = [(key, p.tot)] → 2 ^ 53 ≤ key → key < 2 ^ 54 → lsBusy s (agentOf t) = false → o.tag = some n →
      ∃ u, exec (.bulkReadData p) s = .next u ∧ u.remOps = s.remOps.erase o ∧ u.mem = s.mem ∧
        (u.core (agentOf t)).ls = (s.core (agentOf t)).ls.wrBytes (key - 2 ^ 53) b ∧ Answers s u p 5 [if p.reply then 1 else 0] ∧
        ∀ l k v, (s.slot t).tags[n] = .pending l k → o.len = some v → (u.slot t).tags[n] = .ready v k)) ∧
  (∀ (s : State) (k : Nat) (o : RemOp), s.remOps[k]? = some o →
    (∀ till, o.backoff = some till → let s1 := { s with time := Nat.max s.time till }
      exec (.refusalBackoffResend k) s = .next (resendOp (updRemOp s1 o fun x => { x with backoff := none, sentAt := s1.time }) o)) ∧
    (o.sent = true → o.parked = false → let s1 := { s with time := Nat.max s.time (o.sentAt + 400000) }
      exec (.fabricResendTimeout k) s = .next (if o.resends < 4 then resendOp (updRemOp s1 o fun x => { x with resends := x.resends + 1, sentAt := s1.time }) o
        else finishOp (opFailed s1 o 5) o)) ∧
    ∀ off at' l q, o.granted = (off, at') :: l → (o.packets.find? fun q => q.off = off) = some q →
      exec (.reservedResend k) s = .next (emit (updRemOp { s with time := Nat.max s.time at' } o fun x => { x with granted := drop off x.granted }) { q with drop := false })) ∧
  ∀ (s : State) (t : Nat) (v : Word) (l : List Word) (p : Packet) (room : List Nat) (port : Nat),
    ((s.slot t).remErr = v :: l → (s.slot t).run = .active → (s.slot t).mode = .u → Enterable s t → ∃ u, exec (.remoteErrorTake t) s = .next u ∧
      (u.slot t).remErr = l ∧ (u.slot t).trCause = 0x117 ∧ (u.slot t).trVal = v ∧ (u.slot t).trPc = (s.slot t).pc ∧ (u.slot t).mode = .s ∧ u.mem = s.mem) ∧
    (linkUp s = true → p.dst ≠ s.devNum → p.hop < 5 → (∃ k ∈ portsTo s p.dst, p.drop = true → k ∈ room) → ∃ u k, exec (.packetForward p room) s = .next u ∧
      k ∈ portsTo s p.dst ∧ (p.drop = true → k ∈ room) ∧ u.sent = s.sent ++ [(k, { p with hop := p.hop + 1 })] ∧ u.mem = s.mem) ∧
    (linkUp s = true → p.dst ≠ s.devNum → p.src ≠ s.devNum → portsTo s p.src ≠ [] →
     let lost (kind : Word) : Prop := ∃ u k g, exec (.packetForward p room) s = .next u ∧ u.mem = s.mem ∧
       k ∈ portsTo s p.src ∧ u.sent = s.sent ++ [(k, g)] ∧ g.kind = 13 ∧ g.dst = p.src ∧ g.seq = p.seq ∧
       g.words = [kind, 0, if p.reply then 1 else 0, BitVec.ofNat 64 p.dst]
     (5 ≤ p.hop → lost 4) ∧ (p.hop < 5 → portsTo s p.dst = [] → lost 5)) ∧
    exec (.linkFlitResend port) s = .next s ∧
    exec (.linkRetrain port) s = .next { s with sent := s.sent.filter fun x => x.1 != port }

/-- Replies to a core's requests and forwarded requests (R209, R210, R215, R253): a grant installs the block with its tag, here in an L1 set with a free
way, and re-admits the slots suspended on it; BUSY and RETRY mark the request, which the back-off posts again; a RESULT completes the instruction that
waits for it and a FAIL makes it trap; an acknowledged put is no longer waited for; a forwarded request is answered from the line the core holds, also
one that was held back. A request that meets a busy tag is read as log 48 says. -/
def Obligations.CoherenceAtACore : Prop :=
  (∀ (s : State) (k : Nat) (m : Msg) (r : Req), let c := m.dst; let b := m.blk; let old := (lineOf s c b).getD { tag := some .invalid }
    s.deliverable k = some m → c < 0x800 → look m.tag (s.core c).reqs = some r → r.msg.blk = b →
    let installed (i : Instr) (tag : Tag) (data : Block) (single : Option (Nat × Nat × Nat)) : Prop :=
      (l1Set (s.core c) (b % 64)).length < 8 → old.stream = none → ∃ u l, exec i s = .next u ∧ u.net = s.net.eraseIdx k ∧ u.mem = s.mem ∧
      (u.core c).reqs = drop m.tag (s.core c).reqs ∧
      lineOf u c b = some l ∧ l.tag = some tag ∧ l.data = data ∧ l.written = 0 ∧ l.rel = [] ∧ l.kept = false ∧ l.single = single ∧ l.stash = old.stash ∧
      ∀ i va, i < 16 → (s.slot (threadOf c i)).run = .waiting (.line b va) → (u.slot (threadOf c i)).run = .active
    let marked (i : Instr) (r : Req) : Prop := exec i s = .next ((s.unpost k).updCore c fun q => { q with reqs := put m.tag r q.reqs })
    (m.tag < 128 →
      (m.type = Ty.dataS → m.w[2].getLsbD 0 = false ∨ r.pref = false → installed (.dataS k) .readOnly (m.flit.getD old.data)
        (if m.w[2].getLsbD 0 then some (threadOf c r.msg.slot, bits r.msg.w[2] 5 0, bits r.msg.w[2] 11 6) else none)) ∧
      (m.type = Ty.dataX → installed (.dataX k) .writable (m.flit.getD old.data) none) ∧
      (m.type = Ty.ack → old.kept = true → bits m.w[2] 1 0 = 1 → installed (.ack k) .readOnly old.data none) ∧
      (m.type = Ty.ack → old.kept = true → bits m.w[2] 1 0 = 2 → installed (.ack k) .writable old.data none)) ∧
    (m.type = Ty.busy → marked (.busy k) { r with busy := true }) ∧
    (m.type = Ty.retry → marked (.retry k) { r with busy := true, retry := some (s.time + m.w[2].toNat) }) ∧
    (slotTag m.tag = true → r.dead = false → let t := threadOf c r.msg.slot; ∀ d n va, (s.slot t).run = .waiting (.result b d n va) →
      (m.type = Ty.result → ∃ u, exec (.result k) s = .next u ∧ u.net = s.net.eraseIdx k ∧ u.mem = s.mem ∧ (∀ v, v ≠ t → u.slot v = s.slot v) ∧
        u.slot t = { ((s.slot t).ws d m.w[2]).past n with run := .active }) ∧
      (m.type = Ty.fail → exec (.fail k) s =
        .next (takeSync ((s.unpost k).updCore c fun q => { q with reqs := drop m.tag q.reqs }) t (BitVec.ofNat 8 (bits m.w[2] 7 0)) va)))) ∧
  (∀ (s : State) (k : Nat) (m : Msg), s.deliverable k = some m → m.dst < 0x800 → m.tag = 0xFF →
    (m.type = Ty.ack ∧ bits m.w[2] 1 0 = 0 → exec (.ack k) s = .next ((s.unpost k).updCore m.dst fun q => { q with puts := q.puts.erase m.blk })) ∧
    (m.type = Ty.fail → exec (.fail k) s = .next ((s.unpost k).updCore m.dst fun q => { q with puts := q.puts.erase m.blk }))) ∧
  (∀ (s : State) (c blk tag : Nat) (r : Req), (s.core c).reqs.find? (fun r => r.2.msg.blk = blk && r.2.retry.isSome) = some (tag, r) → r.dead = false → s.protoOf (blk * 64) ≠ 0 →
    ∃ u m r', exec (.retryBackoffExpiry c blk) s = .next u ∧ u.time = Nat.max s.time (r.retry.getD 0) ∧ m = { r.msg with dst := procAgent (s.homeOf r.msg.addr), via := none } ∧
      u.net = s.net ++ [m] ∧ look tag (u.core c).reqs = some r' ∧ r'.msg = m ∧ r'.busy = false ∧ r'.retry = none ∧ u.mem = s.mem) ∧
  (∀ (s : State) (c : Nat) (x : Msg) (rest : List Msg), (s.core c).held = x :: rest → x.mc = none → mustHold s c x.blk = false → relPending s c x.blk = false →
    lineOf s c x.blk = none → ∃ u, exec (.deferredRequestApply c 0) s = .next u ∧ (u.core c).held = rest ∧ u.mem = s.mem ∧
      u.net = s.net ++ [mkMsg s c 0 x.src Ty.invAck 0 x.addr 0 0 0 none none]) ∧
  ∀ (s : State) (k : Nat) (m : Msg), let c := m.dst; let b := m.blk; let keep := bits m.w[2] 1 0
    let acks (held : Bool) : Msg := mkMsg s c 0 m.src Ty.invAck 0 m.addr (if held then 1 else 0) 0 0 none none
    let wb (x : Block) : Msg := mkMsg s c 0 m.src Ty.wbData 0 m.addr 0 0 0 (some x) none
    s.deliverable k = some m → c < 0x800 → m.mc = none → mustHold s c b = false → (∀ x ∈ (s.core c).held, x.blk ≠ b) → relPending s c b = false →
    (∀ i ∈ [(Ty.recall, Instr.recall k), (Ty.inv, .inv k), (Ty.push, .push k)], m.type = i.1 → lineOf s c b = none →
      ∃ u, exec i.2 s = .next u ∧ u.net = s.net.eraseIdx k ++ [acks false] ∧ u.mem = s.mem ∧ u.cores = s.cores ∧ u.slots = s.slots) ∧
    (∀ l, lineOf s c b = some l → l.stash = false → l.tag = some .writable →
      let yields (i : Instr) : Prop := ∃ u, exec i s = .next u ∧ u.net = s.net.eraseIdx k ++ [wb l.data] ∧ (u.core c).lines = drop b (s.core c).lines
      (m.type = Ty.inv → yields (.inv k)) ∧ (m.type = Ty.recall → keep = 0 → yields (.recall k)) ∧
      (m.type = Ty.recall → keep = 1 → ∃ u, exec (.recall k) s = .next u ∧ u.net = s.net.eraseIdx k ++ [wb l.data] ∧
        lineOf u c b = some { l with tag := some .readOnly, written := 0, rel := [] })) ∧
    (∀ l, lineOf s c b = some l → m.type = Ty.push → l.tag = some .readOnly → (∀ x ∈ s.net, ¬ (x.src = c ∧ x.type = Ty.putp ∧ x.blk = b)) → ∃ u, exec (.push k) s = .next u ∧ u.net = s.net.eraseIdx k ++ [acks true] ∧
      lineOf u c b = some { l with data := blkMerge l.data (m.flit.getD l.data) (m.w[2] &&& ~~~l.written) })

/-- The host at its link (R399, R400, R402 to R404): a read outside the window brings poisoned data, and a write there completes and writes nothing; one
of a page in host bias is served from memory, a poisoned block as poisoned data; a snoop of a line that no region covers finds nobody; and the host's
answer for a line goes to memory and on to the core that asked. What goes to the host and when it is answered follows logs 35 and 37. -/
def Obligations.HostLink : Prop :=
  ∀ (s : State) (pa : Nat) (mask : Word) (b : Block), let a := pa / 64 * 64
    (linkUp s = true →
    (inWindow s pa = false → exec (.hostMemrd pa) s = .next { s with hostOut := s.hostOut ++ [.data pa none] } ∧ exec (.hostMemwr pa mask b) s = .next { s with hostOut := s.hostOut ++ [.wrAck pa] }) ∧
    (inWindow s pa = true → hostBias s (pa / 4096 * 4096) = true → s.takes = [] → s.hostOps = [] →
      exec (.hostMemrd pa) s = .next { s with hostOut := s.hostOut ++ [.data pa (if poisonedBlk s (a / 64) then none else some (s.mem.block a))] } ∧
      (poisonedBlk s (a / 64) = false → ringOn s (s.homeOf a) = false → exec (.hostMemwr pa mask b) s = .next { s with mem := s.mem.wrMask a b mask, hostOut := s.hostOut ++ [.wrAck pa] })) ∧
    (place a = .host → s.regionOf a = none → s.takes = [] → s.hostOps = [] →
      exec (.snpinv pa) s = .next { s with hostOut := s.hostOut ++ [.rspIHitI a] } ∧ exec (.snpdata pa) s = .next { s with hostOut := s.hostOut ++ [.rspSHitSE a] } ∧
      exec (.snpcur pa) s = .next { s with hostOut := s.hostOut ++ [.curData a none] })) ∧
    ∀ (excl : Bool) (q : Msg) (idx : Nat) (rg : BitVec 256), let p := homeIn rg a; let ea := entryAddr rg a
      s.hostOps = [.rd a excl (some q)] → s.takes = [] → s.frames = [] → s.regionOf a = some (idx, rg) → (s.proc p).waiters = [] → q.blk = a / 64 → Unwatched s p →
      (∀ x ∈ s.net, x.type ≠ Ty.push) → q.type = (if excl then Ty.getx else Ty.gets) →
      let s1 := s.updMem fun m => m.wrBlock a b; let e := dePending (s1.entry ea) 0 0; let who := q.src % 2 ^ 12
      ∃ u, exec (.hostGoResponse pa b excl) s = .next u ∧ u.hostOps = [] ∧
        Leaves u s1 (replyTo s p q (if excl then Ty.dataX else Ty.dataS) 0 (some ((s.mem.wrBlock a b).block a))) ea
          (if excl then deState (deSetOwn (deClear e) (some who)) 2 false else deState (deAdd e who) 1 false)

/-- Requests at the home of a block (R218, R221, R231 to R234): of an unheld block of an invalidate region, GETS makes the reader a sharer with its data,
GETX and UPG make the requester the owner, and ATOM is performed; a block held writable is recalled, its owner's PUTX brings it back, and with the
owner's WB_DATA, or the sharers' INV_ACK, the request that waited is granted; answers that nothing waits for change nothing; a message of a direct
block acts on memory; a custom message to one is told to come back, and one to a region of a loadable protocol starts its handler with the registers
that R221 gives; a message for an entry in progress waits with BUSY; and the watchdogs of handlers and of transient entries abort (R224, R230). A
standard protocol acts in one step by the tables of R233 and R234, which is the model's form of its handler (log 12); the limits in cycles are inputs
(log 19). -/
def Obligations.HomeRequests : Prop :=
  (∀ (s : State) (k p idx : Nat) (rg : BitVec 256) (m : Msg), let ea := entryAddr rg m.addr; let e := s.entry ea; let who := m.src % 2 ^ 12; let n := s.unpost k
    AtItsHome s k p idx rg m → rgProto rg = 1 → place (m.blk * 64) ≠ .host →
    let leaves (i : Instr) (m' n' : State) (e' : De) : Prop := ∃ u, exec i s = .next u ∧ Leaves u m' n' ea e' ∧ u.slots = s.slots ∧ u.cores = s.cores
    let block := some (s.mem.block (m.blk * 64)); let quiet : Prop := (∀ x ∈ s.net, x.type ≠ Ty.push) ∧ (s.core who).held = []
    (Unheld e →
      (quiet → m.type = Ty.gets → leaves (.gets k) s (replyTo n p m Ty.dataS 0 block) (deState (deAdd e who) 1 false)) ∧
      (quiet → m.type = Ty.getx → leaves (.getx k) s (replyTo n p m Ty.dataX 0 block) (deState (deSetOwn (deClear e) (some who)) 2 false)) ∧
      (quiet → m.type = Ty.upg → leaves (.upg k) s (replyTo n p m Ty.dataX 0 block) (deState (deSetOwn (deClear e) (some who)) 2 false)) ∧
      (m.type = Ty.atom → poisonedBlk s m.blk = false → let x := atomMem s.mem m.addr m.w[2].toNat m.w[3] m.w[4]
        leaves (.atom k) { s with mem := x.2 } (replyTo n p m Ty.result (BitVec.ofNat 64 x.1) none) (deState (deClear e) 0 false)) ∧
      (m.type = Ty.putx → leaves (.putx k) s (replyTo n p m Ty.ack 0 none) e) ∧ (m.type = Ty.puts → leaves (.puts k) s (replyTo n p m Ty.ack 0 none) e) ∧
      (m.type = Ty.wbData → leaves (.wbData k) s n e) ∧ (m.type = Ty.invAck → leaves (.invAck k) s n e)) ∧
    (deSt e = 2 → deOv e = true →
      (deOwn e ≠ who → deOwn e < 0x800 → m.type = Ty.gets →
        let w := forwardWords s p Ty.recall (m.blk * 64) 1
        ∃ u, exec (.gets k) s = .next u ∧ u.mem = (s.setEntry ea (deState (dePending e 0 m.requester) 4 true)).mem ∧
          u.net = n.net ++ [{ src := procAgent p, dst := deOwn e, w := w }]) ∧
      (deOwn e = who → m.type = Ty.putx → m.w[2].getLsbD 0 = false →
        leaves (.putx k) (s.updMem fun x => x.wrBlock (m.blk * 64) (m.flit.getD 0)) (replyTo n p m Ty.ack 0 none) (deState (deSetOwn e none) 0 false)))) ∧
  (∀ (s : State) (k p : Nat) (m : Msg), let n := s.unpost k; let pa := m.blk * 64
    ReachesHome s k p m → HomesQuiet s → s.regionOf m.addr = none → inWindow s m.addr = false →
    (m.type = Ty.putp → ∃ u, exec (.putp k) s = .next u ∧ u.mem = s.mem.wrMask pa (m.flit.getD 0) m.w[2] ∧ u.net = (replyTo n p m Ty.ack 0 none).net) ∧
    (m.type = Ty.putx → ∃ u, exec (.putx k) s = .next u ∧ u.mem = s.mem.wrBlock pa (m.flit.getD 0) ∧ u.net = (replyTo n p m Ty.ack 0 none).net) ∧
    (m.type = Ty.atom → poisonedBlk s m.blk = false → Unwatched s p → let x := atomMem s.mem m.addr m.w[2].toNat m.w[3] m.w[4]
      ∃ u, exec (.atom k) s = .next u ∧ u.mem = x.2 ∧ u.net = (replyTo n p m Ty.result (BitVec.ofNat 64 x.1) none).net) ∧
    (25 ≤ m.type → m.lane = false → exec (.customMessage k) s = .next (replyTo n p m Ty.retry 0 none))) ∧
  (∀ (s : State) (k p idx : Nat) (rg : BitVec 256) (m : Msg), ReachesHome s k p m → HomesQuiet s → s.regionOf m.addr = some (idx, rg) → rgFail rg = false →
    homeIn rg m.addr = p → p < 48 → rgProto rg = 1 → (s.proc p).waiters = [] → (∀ i, i < 16 → (s.slot (threadOf (0x800 + p) i)).handler = none) →
    deTr (s.entry (entryAddr rg m.addr)) = true → m.lane = false → m.type = Ty.gets →
    ∃ u, exec (.gets k) s = .next u ∧ (u.proc p).waiters = [{ m with arrived := 0 }] ∧ u.net = (replyTo (s.unpost k) p m Ty.busy 0 none).net ∧ u.mem = s.mem) ∧
  (∀ (s : State) (k p idx : Nat) (rg : BitVec 256) (m q : Msg), let ea := entryAddr rg m.addr; let e := s.entry ea; let who := q.src % 2 ^ 12; let n := s.unpost k
    OpenAtItsHome s k p idx rg m → rgProto rg = 1 → place (m.blk * 64) ≠ .host → look ea (s.proc p).pend = some q → q.blk = m.blk → (∀ x ∈ s.net, x.type ≠ Ty.push) →
    let ends (i : Instr) (t n' : State) (e' : De) : Prop := ∃ u, exec i s = .next u ∧ Leaves u t n' ea e' ∧ (u.proc p).pend = drop ea (s.proc p).pend
    (m.type = Ty.wbData → q.type = Ty.gets → deSt e = 4 → deKind e = 0 → let t := s.updMem fun x => x.wrBlock (m.blk * 64) (m.flit.getD 0)
      ends (.wbData k) t (replyTo n p q Ty.dataS 0 (some (t.mem.block (m.blk * 64))))
        (deAdd (deState (deAdd (dePending (deSetOwn (deClear e) none) 0 0) who) 1 false) (deOwn e))) ∧
    (m.type = Ty.invAck → q.type = Ty.getx → deSt e = 3 → deKind e ≠ 0 → ends (.invAck k) s (replyTo n p q Ty.dataX 0 (some (s.mem.block (m.blk * 64))))
      (deState (deSetOwn (deClear (dePending (deSetOwn (deClear (deClear e)) none) 0 0)) (some who)) 2 false))) ∧
  (∀ (s : State) (k p idx : Nat) (rg : BitVec 256) (m : Msg) (d : BitVec 32), let ea := entryAddr rg m.addr; let e := s.entry ea; let t := threadOf (0x800 + p) 4
    AtItsHome s k p idx rg m → 16 ≤ rgProto rg → 25 ≤ m.type → m.lane = false → (∀ x ∈ s.net, x.arrived = 0) → (s.slot t).run = .idle →
    look (32 * rgProto rg + m.type) (s.proc p).dtab = some d → d.getLsbD 0 = true →
    ∃ u, exec (.customMessage k) s = .next u ∧ u.mem = s.mem ∧ u.net = s.net.eraseIdx k ∧ u.cores = s.cores ∧ (∀ v, v ≠ t → u.slot v = s.slot v) ∧
      let x := u.slot t
      x.mode = .h ∧ x.run = .active ∧ x.pc = BitVec.ofNat 64 (fld d.toNat 2 14 * 4) ∧
      x.handler = some { msg := { m with arrived := 0 }, region := idx, proto := rgProto rg, entryAddr := ea } ∧
      x.rs 3 = BitVec.ofNat 64 idx ∧ (∀ i : Fin 8, x.rs (reg (4 + i.val)) = m.w[i]) ∧ x.rs 12 = e.1 ∧ x.rs 13 = e.2 ∧ x.rs 14 = rgParm rg ∧
      x.rs 15 = BitVec.ofNat 64 (m.blk * 64) ∧ x.rs 16 = 0x7D00 ∧ x.rs 17 = BitVec.ofNat 64 m.requester) ∧
  ∀ (s : State) (t p blk : Nat) (h : HCtx),
    (onCore t = false → (s.slot t).handler = some h → stepLimit s (agentOf t - 0x800) h ≤ h.steps →
      exec (.handlerWatchdog t) s = .next (settleHome (wakeProc (abortHandler s t .watchdog) (agentOf t - 0x800)))) ∧
    ∀ idx rg t0, s.regionOf (blk * 64) = some (idx, rg) → look (entryAddr rg (blk * 64)) (s.proc p).since = some t0 → deTr (s.entry (entryAddr rg (blk * 64))) = true →
      hasWaiters s p (entryAddr rg (blk * 64)) = true →
      ∃ u, exec (.transientWatchdog p blk) s = .next u ∧ t0 + 2 ^ 24 < u.time ∧ (u.region idx).getLsbD 129 = true

/-- Append pages at their home (R249 to R253, R255 to R258): an append with room writes its bytes behind the reserved tail and answers their offset, one
without answers all ones, and one to a page that is not open fails; a fill of a reservation, a reservation, the tail and the seal answer from the
page's entry; a seal of an empty page seals it; an open empty page is free at once, and a sealed one once every replica agent has answered the home's
notice and no core has a line of it from a replica (log 12); a replica is copied for the die that asked, serves its readers, and is dropped when its
page is freed. The append protocol acts in one step by R247 to R258, which is the model's form of its handler (log 12). -/
def Obligations.AppendPages : Prop :=
  (∀ (s : State) (k p idx : Nat) (rg : BitVec 256) (m : Msg), let ea := entryAddr rg m.addr; let e := s.entry ea; let page := m.addr / 4096 * 4096; let n := s.unpost k
    AtItsHome s k p idx rg m → rgProto rg = 7 → m.via = none →
    let answers (i : Instr) (m' : State) (v : Word) (e' : De) : Prop := ∃ u, exec i s = .next u ∧ Leaves u m' (replyTo n p m Ty.result v none) ea e'
    let len := bits m.w[2] 6 0; let off := apRsv e
    (m.type = Ty.apnd → m.w[2].getLsbD 7 = false → deSt e = 0 →
      (off + len ≤ 4096 → apNres e = 0 → answers (.apnd k) (s.updMem fun x => x.wrBytes (page + off) (blkBytes (m.flit.getD 0) 0 len)) (BitVec.ofNat 64 off)
        (e.1, setBits (setBits e.2 12 0 (off + len)) 25 13 (off + len))) ∧
      (4096 < off + len → answers (.apnd k) s 0xFFFFFFFFFFFFFFFF e)) ∧
    (m.type = Ty.apnd → m.w[2].getLsbD 7 = false → deSt e ≠ 0 →
      ∃ u, exec (.apnd k) s = .next u ∧ Leaves u s (failReply n p m .writeAfterSeal) ea e) ∧
    (∀ r, m.type = Ty.apnd → m.w[2].getLsbD 7 = true → (s.proc p).rsvs = [r] → r.page = page → r.start = m.w[3].toNat → (page + r.fill) / 64 = m.blk → r.fill + len < r.stop →
      apNres e = 1 → deSt e = 0 → ∃ u, exec (.apndFill k) s = .next u ∧
        Leaves u (s.updMem fun x => x.wrBytes (page + r.fill) (blkBytes (m.flit.getD 0) 0 len)) (replyTo n p m Ty.ack 0 none) ea
          (e.1, setBits e.2 25 13 (Nat.min off (r.fill + len))) ∧ (u.proc p).rsvs = [{ r with fill := r.fill + len }]) ∧
    (m.type = Ty.arsv → deSt e = 0 → let w := m.w[2].toNat; w ≠ 0 → off + w ≤ 4096 → apNres e = 0 → (s.proc p).rsvs = [] →
      answers (.arsv k) s (BitVec.ofNat 64 off) (e.1, setBits (setBits (setBits e.2 12 0 (off + w)) 35 33 1) 25 13 off)) ∧
    (m.type = Ty.tailq → answers (.tailq k) s (BitVec.ofNat 64 (apPub e + if deSt e = 2 then 2 ^ 63 else 0)) e) ∧
    (m.type = Ty.sealq → bits m.w[2] 1 0 = 0 →
      (deSt e = 2 → answers (.sealqSeal k) s (BitVec.ofNat 64 off) e) ∧
      (deSt e = 0 → apPub e = off → answers (.sealqSeal k) s (BitVec.ofNat 64 off) (deState e 2 false)) ∧
      (deSt e = 0 → apPub e ≠ off → ∃ u, exec (.sealqSeal k) s = .next u ∧ Leaves u s n ea (deState (e.1, setBits e.2 32 29 1) 1 false) ∧
        (u.proc p).sealers = (s.proc p).sealers ++ [m])) ∧
    (m.type = Ty.sealq → bits m.w[2] 1 0 = 1 →
      (deSt e = 0 → off = 0 → answers (.sealqFree k) s 0 e) ∧
      (deSt e = 2 → pageHolders s page = [] → (∀ x ∈ (s.proc p).copies, x.1 ≠ page) → let l := replicaAgents page p
        ∃ u, exec (.sealqFree k) s = .next u ∧ u.mem = (s.setEntry ea (deState e 3 true)).mem ∧
          u.net = n.net ++ l.map (fun a => mkMsg s (procAgent p) 0 (procAgent a) Ty.sealq 0 page 3 0 0 none none) ∧
          look ea (u.proc p).frees = some l.length ∧ look ea (u.proc p).pend = some { m with arrived := 0 }))) ∧
  (∀ (s : State) (k p idx : Nat) (rg : BitVec 256) (m q : Msg), let ea := entryAddr rg m.addr; let e := s.entry ea
    OpenAtItsHome s k p idx rg m → rgProto rg = 7 → m.type = Ty.invAck → look ea (s.proc p).frees = some 1 → look ea (s.proc p).pend = some q →
    pageServed s (m.addr / 4096 * 4096) = [] →
    ∃ u, exec (.invAck k) s = .next u ∧ Leaves u s (replyTo (s.unpost k) p q Ty.result 0 none) ea (deState (e.1, setBits e.2 35 0 0) 0 false)) ∧
  (∀ (s : State) (k p idx : Nat) (rg : BitVec 256) (m : Msg), let page := m.addr / 4096 * 4096; let q := s.proc p
    ReachesHome s k p m → HomesQuiet s → s.regionOf m.addr = some (idx, rg) → rgProto rg = 7 → rgFail rg = false → p ≠ homeIn rg m.addr → p < 48 → m.type = Ty.sealq →
    (bits m.w[2] 1 0 = 2 → look page q.replicas = none → page ∉ q.copying → poolPages s (p / 12) ≠ 0 →
      exec (.replicateNotice k) s = .next ((s.unpost k).updProc p fun q => { q with copying := q.copying ++ [page] })) ∧
    (bits m.w[2] 1 0 = 3 → q.readers = [] → ∃ u, exec (.replicaInvalidate k) s = .next u ∧ (u.proc p).replicas = drop page q.replicas ∧ u.mem = s.mem ∧
      u.net = s.net.eraseIdx k ++ [mkMsg s (procAgent p) 0 m.src Ty.invAck 0 page 0 0 0 none none])) ∧
  ∀ (s : State) (p page idx : Nat) (rg : BitVec 256), let q := s.proc p; page ∈ q.copying → s.regionOf page = some (idx, rg) →
    ∃ u, exec (.replicaCopyComplete p page) s = .next u ∧ (u.proc p).copying = q.copying.erase page ∧ (look page (u.proc p).replicas).isSome = true ∧ u.mem = s.mem ∧
      (∀ x ∈ (u.proc p).readers, x.addr / 4096 * 4096 ≠ page) ∧ (q.readers = [] → u.net = s.net) ∧
      ∀ x, q.readers = [x] → x.type = Ty.tailq → x.addr / 4096 * 4096 = page →
        u.net = (replyTo s p x Ty.result (BitVec.ofNat 64 (apRsv (s.entry (entryAddr rg x.addr)) + 2 ^ 63)) none).net

/-- Handler instructions act on the invocation that runs in their slot of a protocol processor (R220, R224 to R228, R235 to R242, R407): grants and
failures answer the requester their operand names, forwards count against the invocation, edits of the directory entry work on s12 and s13, DIR.WR
writes it, block transfers move a block between memory and data memory, the host processor's instructions set a page's bias and snoop the host, which
answers line by line before the one INV_ACK comes, and HEND ends the invocation and acknowledges the put that started it. What these rules forbid
aborts the invocation; on a compute core every one of them is an illegal instruction (R35, R235). What becomes of a message to an agent that does not
exist, and of a free bit outside the window, is the model's (logs 32 and 37), and nothing here rests on it. -/
def Obligations.HandlerInstructions : Prop :=
  (∀ (s : State) (d a b : Reg), CanTrap s →
    ∀ i ∈ [Instr.tagGnt a b, .tagGntd a b, .tagRcl a b, .dirWr, .dirShadd a, .dirShdel a, .msgSend a b, .msgMcast d a b, .btRd a b, .btWr a b, .btMrg a b,
        .hend, .hfail a b, .biasRd d a, .biasWr a b, .biSnp b],
      Traps i s .illegalOp (BitVec.ofNat 64 (encodeRaw i).base) s.me.pc) ∧
  (∀ (s : State) (h : HCtx) (d a b : Reg), Running s h → let p := s.myProc; let me := agentOf s.cur; let blk := (s.rd 15).toNat
    let req := (s.rd a).toNat; let g := (s.rd b).toNat % 4; let counted := s.updMe fun x => { x with handler := some { h with forwards := h.forwards + 1 } }
    let aborts (i : Instr) : Prop := exec i s = .next (abortHandler s s.cur .illegalOperand)
    let answers (i : Instr) (ty : Nat) (w2 : Word) (flit : Option Block) : Prop := ∃ m : Msg, exec i s = .next ((s.post m).past 4) ∧ m.src = me ∧
      m.dst = req % 2 ^ 12 ∧ m.type = ty ∧ m.lane = true ∧ m.tag = req / 2 ^ 16 % 2 ^ 8 ∧ m.addr = blk / 64 * 64 ∧ m.w[2] = w2 ∧ m.flit = flit
    (isAgent (req % 2 ^ 12) = true → req / 2 ^ 24 % 2 ^ 10 = s.devNum →
      (g ≠ 3 → Unwatched s p → answers (.tagGnt a b) Ty.ack (BitVec.ofNat 64 g) none) ∧
      (g = 1 → answers (.tagGntd a b) Ty.dataS 0 (some (blockBuffer s))) ∧
      (g = 2 → Unwatched s p → answers (.tagGntd a b) Ty.dataX 0 (some (blockBuffer s))) ∧
      answers (.hfail a b) Ty.fail (BitVec.ofNat 64 ((s.rd b).toNat % 256)) none ∧
      (g ≠ 3 → h.msg.lane = false → h.forwards < 8 → exec (.tagRcl a b) s =
        .next ((counted.post { src := me, dst := req % 2 ^ 12, w := forwardWords s p Ty.recall blk (BitVec.ofNat 64 g) }).past 4))) ∧
    (g = 3 → aborts (.tagGnt a b) ∧ aborts (.tagGntd a b) ∧ aborts (.tagRcl a b)) ∧ (g = 0 → aborts (.tagGntd a b)) ∧
    (h.msg.lane = true ∨ 8 ≤ h.forwards → aborts (.tagRcl a b)) ∧
    exec .dirWr s = .next ((s.setEntry h.entryAddr (s.rd 12, s.rd 13)).past 4) ∧
    (∀ f ∈ [(Instr.dirShadd a, deAdd), (.dirShdel a, deDel)], let e := f.2 (s.rd 12, s.rd 13) (req % 2 ^ 12)
      exec f.1 s = .next (((s.wr 12 e.1).wr 13 e.2).past 4)) ∧
    (let w := regGroup s.me a; let dest := (s.rd b).toNat
      let m : Msg := { src := me, dst := dest % 2 ^ 12, w := w, flit := if carriesBlock (bits w[0] 4 0) then some (blockBuffer s) else none }
      (isAgent (dest % 2 ^ 12) = true → dest / 2 ^ 24 % 2 ^ 10 = s.devNum → laneOk w[0] = true →
        exec (.msgSend a b) s = (if h.msg.lane then .next ((s.post m).past 4) else if h.forwards < 8 then .next ((counted.post m).past 4)
          else .next (abortHandler s s.cur .illegalOperand))) ∧
      (laneOk w[0] = false → aborts (.msgSend a b)) ∧
      (bitOf w[0] 5 = false → (bits w[0] 4 0 = Ty.recall ∨ bits w[0] 4 0 = Ty.inv ∨ bits w[0] 4 0 = Ty.push) → h.msg.lane = false → h.forwards < 8 →
        let holders := deHolders (s.rd 12, s.rd 13) (dest % 2 ^ 12)
        exec (.msgMcast d a b) s = .next ((((multicast counted p w (if bits w[0] 4 0 = Ty.push then some (blockBuffer s) else none) holders).2.wr d
          (BitVec.ofNat 64 holders.length))).past 4))) ∧
    (let x := s.rd a; let y := s.rd b; let far (u : State) : Out := .next ((u.past 4).updMe fun z => { z with run := .waiting .access })
      let buf := (s.proc p).dmem; x.toNat % 64 = 0 → y.toNat % 64 = 0 → backedOrHost x.toNat 64 = true →
      (y.toNat + 64 ≤ 0x8000 → poisonedBlk s (x.toNat / 64) = false →
        exec (.btRd a b) s = far (s.updProc p fun q => { q with dmem := q.dmem.wrBlock y.toNat (s.mem.block x.toNat) }) ∧
        exec (.btWr a b) s = far (s.updMem fun m => m.wrBlock x.toNat (buf.block y.toNat))) ∧
      (y.toNat + 72 ≤ 0x8000 → poisonedBlk s (x.toNat / 64) = false → exec (.btMrg a b) s = far (s.updMem fun m => m.wrBlock x.toNat
        (if h.proto = 6 then redMerge (rgOp (s.region h.region)) (s.mem.block x.toNat) (buf.block y.toNat) (buf.word (y.toNat + 64))
         else elemMerge (elemBytes (rgOp (s.region h.region))) (fun _ v => v) (s.mem.block x.toNat) (buf.block y.toNat) (buf.word (y.toNat + 64)))))) ∧
    (HomesQuiet s → (s.proc p).waiters = [] → ∃ u, exec .hend s = .next u ∧ u.me = { s.me with run := .idle, handler := none } ∧ u.mem = s.mem ∧
      u.net = (if h.msg.type = Ty.putx ∨ h.msg.type = Ty.puts ∨ h.msg.type = Ty.putp then replyTo s p h.msg Ty.ack 0 none else s).net) ∧
    (p = 72 →
      (inWindow s req = true → Gives (.biasRd d a) s 4 d (if hostBias s req then 1 else 0) ∧
        ∃ u, exec (.biasWr a b) s = .next (u.past 4) ∧ hostBias u req = (s.rd b).getLsbD 0 ∧ u.slots = s.slots ∧
          ∀ q, (q - s.hdmBase) / 4096 ≠ (req - s.hdmBase) / 4096 → hostBias u q = hostBias s q) ∧
      (let n := (s.rd b).toNat; 0 < n → blk % 4096 / 64 + n ≤ 64 → h.msg.lane = false → h.forwards < 8 → ∃ u k, exec (.biSnp b) s = .next u ∧
        let lines := (List.range n).map fun i => blk + 64 * i
        u.hostOut = s.hostOut ++ lines.map .biSnpInv ∧ u.hostOps = s.hostOps ++ [.birsp k blk lines 0] ∧ u.net = s.net ∧ u.me.pc = s.me.pc + 4)) ∧
    (p ≠ 72 → ∀ i ∈ [Instr.biasRd d a, .biasWr a b, .biSnp b], exec i s = .next (abortHandler s s.cur .illegalOp))) ∧
  (∀ (e : De) (a : Nat), a < 2 ^ 12 → deCv e = false → a ∉ dePointers e →
    (deNp e < 4 → deCv (deAdd e a) = false ∧ dePointers (deAdd e a) = dePointers e ++ [a]) ∧
    (deNp e = 4 → deCv (deAdd e a) = true ∧ ∀ x ∈ dePointers e ++ [a], x < 0x800 ∨ (0x830 ≤ x ∧ x < 0x849) → x ∈ deHolders (deAdd e a) 0xFFF)) ∧
  ∀ (s : State) (t : Nat) (h : HCtx) (c : Cause), onCore t = false → (s.slot t).handler = some h →
    let u := abortHandler s t c; (u.slot t).run = .idle ∧ (u.slot t).handler = none ∧ (u.region h.region).getLsbD 129 = true

/-- Pages shared between devices (R391, R392, R394): a request at the home sends the page whole and names the reader or the owner; the data opens the page
at its proxy; a recall is answered by a write-back, when a line was written, and an acknowledgement; the write-back goes to memory at the home; an
acknowledgement ends a recall or lets the home serve the next request; and RBIND binds and unbinds frames (that RBIND of a page which is bound traps
with its operand b as tr.val is the model's choice, log 38). The contents of a page message and its order of words are the model's form (log 34). -/
def Obligations.PageMessages : Prop :=
  (∀ (s : State) (p : Packet) (page : Nat) (f : Frame), let w (i : Nat) : Word := p.words.getD i 0; let src := p.src
    let blocks : List Block := (List.range 64).map fun i => s.mem.block (page + 64 * i)
    (∀ pa idx rg, let s0 := moveWindow s p; f.home = true → f.requests = [] → f.left = [] → f.phase = 0 → f.owner = none → f.all = false →
      s.regionOf pa = some (idx, rg) → rgProto rg = 8 → pa / 4096 * 4096 = page →
      (PageAtRest s p 16 page f → targetPieces s0 p.part .load [(w 0, 1)] = .ok [(pa, 1)] s0 → src ∉ f.sharers → f.sharers.length < 4 →
        ∃ u, exec (.pageReadRequest p) s = .next u ∧ TakenUp s u p ∧ u.mem = s.mem ∧ PageSent s u src 18 [w 0, 0] blocks ∧
          OnlyFrame u page { f with requests := [p], va := w 0, phase := 3, sharers := f.sharers ++ [src] }) ∧
      (PageAtRest s p 17 page f → targetPieces s0 p.part .store [(w 0, 1)] = .ok [(pa, 1)] s0 → f.sharers = [] →
        ∃ u, exec (.pageExclusiveRequest p) s = .next u ∧ TakenUp s u p ∧ u.mem = s.mem ∧ PageSent s u src 18 [w 0, 1] blocks ∧
          OnlyFrame u page { f with requests := [p], va := w 0, phase := 3, owner := some src })) ∧
    (PageAtRest s p 18 page f → proxyFor s p = some (page, f) → f.asked = true → f.recalls = [] → (w 1).toNat < 2 →
      ∃ u, exec (.pageData p) s = .next u ∧ TakenUp s u p ∧ u.mem = (putPage s page p).mem ∧ PageSent s u src 21 [f.remote, 0, 0] [] ∧
        OnlyFrame u page { f with asked := false, fresh := false, append := false, tail := (w 2).toNat, st := if (w 1).toNat = 1 then .px else .ps }) ∧
    (PageAtRest s p 19 page f → proxyFor s p = some (page, f) → f.recalls = [] → f.st = .px →
      ∃ u, exec (.pageRecall p) s = .next u ∧ TakenUp s u p ∧ u.mem = s.mem ∧ (f.fresh = true → PageSent s u src 20 [f.remote] blocks) ∧
        PageSent s u src 21 [f.remote, if f.fresh then 1 else 0, 0] [] ∧ OnlyFrame u page { f with fresh := false, st := if (w 1).getLsbD 0 then .pi else .ps, phase := 0 }) ∧
    (PageAtRest s p 20 page f → homeFor s p = some (page, f) → f.left = [src] → f.got = [] →
      ∃ u, exec (.pageWriteBack p) s = .next u ∧ TakenUp s u p ∧ u.mem = (putPage s page p).mem ∧ OnlyFrame u page { f with got := [(src, 20)] }) ∧
    (PageAtRest s p 21 page f → homeFor s p = some (page, f) →
      (f.left = [] → f.phase = 3 → (w 2).getLsbD 0 = false → ∀ r, f.requests = [r] →
        ∃ u, exec (.pageAcknowledgement p) s = .next u ∧ TakenUp s u p ∧ u.mem = s.mem ∧ OnlyFrame u page { f with phase := 0, requests := [] }) ∧
      (f.left = [src] → f.requests = [] → (w 1).getLsbD 0 = false → f.excl = true → f.got = [] → f.all = false →
        ∃ u, exec (.pageAcknowledgement p) s = .next u ∧ TakenUp s u p ∧ u.mem = s.mem ∧
          OnlyFrame u page { f with left := [], phase := 0, sharers := f.sharers.erase src, owner := if f.owner = some src then none else f.owner }))) ∧
  ∀ (s : State) (d a b : Reg), let pa := (s.rd a).toNat; let w := s.rd b; let v := s.rd d; let kind := bits w 13 12; let i := Instr.rbind d a b
    let job := jobOn s s.myCore
    CanTrap s → let traps (x : Word) : Prop := Traps i s .illegalOperand x s.me.pc
    (s.me.mode = .u → Traps i s .priv (BitVec.ofNat 64 (encodeRaw i).base) s.me.pc) ∧
    (s.me.mode ≠ .u →
      (pa % 4096 ≠ 0 ∨ s.protoOf pa ≠ 8 → traps (s.rd a)) ∧
      (pa % 4096 = 0 → s.protoOf pa = 8 →
        (bits w 63 14 ≠ 0 ∨ kind = 3 ∨ (kind ≠ 1 ∧ v ≠ 0) ∨ (kind = 1 ∧ (spaceOf v ≠ some .glb ∨ v.toNat % 4096 ≠ 0)) → traps w) ∧
        (bits w 63 14 = 0 → look pa s.frames = none →
          (kind = 0 → v = 0 → traps (s.rd a)) ∧
          (kind = 2 → v = 0 → exec i s = .next ({ s with frames := put pa { home := true, rank := bits w 11 0, job := job, remote := 0 } s.frames }.past 4)) ∧
          (kind = 1 → spaceOf v = some .glb → v.toNat % 4096 = 0 →
            (rankSt (rankEntry s job (bits w 11 0)) = 1 →
              exec i s = .next ({ s with frames := put pa { home := false, rank := bits w 11 0, job := job, remote := v } s.frames }.past 4)) ∧
            (rankSt (rankEntry s job (bits w 11 0)) = 0 → Traps i s .rankFault w s.me.pc))) ∧
        (∀ f, bits w 63 14 = 0 → s.frames = [(pa, f)] →
          ((kind = 1 ∧ spaceOf v = some .glb ∧ v.toNat % 4096 = 0) ∨ (kind = 2 ∧ v = 0) → traps w) ∧
          (kind = 0 → v = 0 → f.home = true → f.failed = false → f.left = [] → f.requests = [] → pageCopies s f = [] → heldLines s pa = [] → pageQuiet s pa = true →
            s.takes = [] → s.hostOps = [] →
            ∃ u, exec i s = .next u ∧ u.frames = [] ∧ u.mem = s.mem ∧ u.me = { s.me.past 4 with run := .waiting (.rbind pa) }))))

/-- A slot takes an interrupt between instructions (R20, R22): PREEMPT before ENGINE_FAULT before MAILBOX, each in the order they became pending, with
tr.pc the first instruction not executed; an engine fault's descriptor comes with it (R348), nothing of another slot changes, and memory only by the
entries that a PREEMPT moves to the context buffer (R351); between the members of a bundle none is taken (R39). -/
def Obligations.InterruptsTaken : Prop :=
  (∀ (s : State) (t : Nat) (i : Intr), let x := s.slot t; Enterable s t → slotRuns s t = true → x.run = .active → x.paired = false → x.vprog = none →
    (s.core (agentOf t)).awaits = [] → firstIntr x.pend = some i → x.mode = .u ∨ (x.mode = .s ∧ x.trStatus.getLsbD 2 = true) →
    ∃ u, exec (.interruptTake t) s = .next u ∧
      ((∀ r, i ≠ .preempt r) ∨ (∀ e ∈ (s.core (agentOf t)).injq, e.slot ≠ slotOf t) ∧ (∀ e ∈ (s.core (agentOf t)).rcvq, e.slot ≠ some (slotOf t)) → u.mem = s.mem) ∧
      (∀ v, v ≠ t → u.slot v = s.slot v) ∧
      let y := u.slot t; y.pend = x.pend.erase i ∧ y.run = .active ∧ y.mode = .s ∧ y.pc = (s.core (agentOf t)).trVector.setWidth 64 <<< 2 ∧ y.trPc = x.pc ∧ y.s = x.s ∧
        y.v = x.v ∧ y.trStatus.getLsbD 0 = (x.mode == .s) ∧ y.trStatus.getLsbD 1 = x.trStatus.getLsbD 2 ∧ y.trStatus.getLsbD 2 = false ∧
        (∀ r, i = .preempt r → y.trCause = Cause.preempt.setWidth 9 ∧ y.trVal = r.setWidth 64) ∧
        (∀ m, i = .mailbox m → y.trCause = Cause.mailbox.setWidth 9 ∧ y.trVal = m.setWidth 64) ∧
        (∀ w0 w1 w2 w3, i = .engine w0 w1 w2 w3 → y.trCause = Cause.engineFault.setWidth 9 ∧ y.trVal = w1 ∧ y.efd = #v[w0, w1, w2, w3])) ∧
  (∀ (l : List Intr) (i : Intr), firstIntr l = some i ↔
    ∃ p q, l = p ++ i :: q ∧ (∀ x ∈ p, i.rank < x.rank) ∧ ∀ x ∈ q, i.rank ≤ x.rank) ∧
  ∀ (s : State) (t : Nat), ((s.slot t).mode = .s ∧ (s.slot t).trStatus.getLsbD 2 = false ∧ (s.slot t).run ≠ .idle) ∨
      ((s.slot t).paired = true ∧ (s.slot t).run ≠ .idle) ∨ (s.slot t).pend = [] →
    exec (.interruptTake t) s = .next s

/-- Commands that Matins performs at once (R350, R359, R360, R362, R367, R372, R402, R409, R412, R413, R420): what each changes when its operands are in
order, and the status it ends with (that S2.INV of one page removes every stage-2 entry of the partition is the model's choice, log 10); a function
that may not send one gets status 2, and an entry that Matins does not read yet changes nothing. RECORD sets a partition's mode and its logs, and the
rings of the processors go on or off; CONTRACT gives a partition the contract that its record describes when the four admission tests of R360 pass,
and takes it away; operations that wait for a migrating rank are resolved again when RANK.WRITE has written its table (R373). The statuses of operands
that R413 does not name one by one are read as log 42 says, and operands without a given word are values (log 13). -/
def Obligations.HostCommands : Prop :=
  ∀ (s : State) (c : Cmd), let q := consume s c 1; let p := cmdPart c
    (∀ i, NotRead s i → exec i s = .next s) ∧
    (c.fn ≠ none → ∀ i ∈ [Instr.eventCfg c 0, .s2Inv c 0, .routeLoad c 0 [], .rankWrite c [], .hdmCfg c 0 0 0, .partStart c, .regionBind c 0 0],
      Single s i c → Completes i s c q 2) ∧
    (c.fn = none →
      (∀ ring, Single s (.eventCfg c ring) c → (bits ring 5 4 = 0 ∧ bits ring 63 52 = 0 → Completes (.eventCfg c ring) s c { q with pfRing := ring, ringPos := put 1000 0 q.ringPos } 0) ∧
        (bits ring 5 4 ≠ 0 ∨ bits ring 63 52 ≠ 0 → Completes (.eventCfg c ring) s c q 1)) ∧
      (∀ page : Word, Single s (.s2Inv c page) c → page = 0xFFFFFFFFFFFFFFFF ∨ page.toNat % 4096 = 0 → ∀ g, (s.part p).cfg = some g →
        let users (k : Nat) := usersOf s k fun e => e.part = p
        ((∃ k ∈ clusterSet g, users k ≠ []) → exec (.s2Inv c page) s = .next s) ∧
        ((∀ k ∈ clusterSet g, users k = []) → ∃ u, Completes (.s2Inv c page) s c u 0 ∧ u.mem = s.mem ∧ u.slots = s.slots ∧ ∀ k ∈ clusterSet g,
          (∀ e ∈ (u.cluster k).tlb, e.part ≠ p) ∧ (∀ e ∈ (u.cluster k).wcache, e.part ≠ p) ∧
          ∀ n ∈ coresOf k, ∀ e, e ∈ (u.core n).itlb ∨ e ∈ (u.core n).dtlb → e.part ≠ p)) ∧
      (∀ m e, Single s (.mbxAssign c m e) c → 16 ≤ m → m ≤ 254 → 4 ≤ e.k → e.k ≤ 12 → e.ring % 64 = 0 → e.wakeCore < 2048 →
        (e.wakeCore ∈ partCores s e.owner.val → backed e.ring (64 + 64 * 2 ^ e.k) = true →
          Completes (.mbxAssign c m e) s c (q.updMailbox m fun x => { x with assign := some e }) 0) ∧
        (e.wakeCore ∉ partCores s e.owner.val → Completes (.mbxAssign c m e) s c q 4)) ∧
      (∀ dev es, Single s (.routeLoad c dev es) c → dev < 1024 → (∀ x ∈ es, x.1 < 1024 ∧ fld (BitVec.toNat x.2) 25 4 = 0 ∧ fld (BitVec.toNat x.2) 0 5 = 0) →
        ((∀ x ∈ es, ∀ n ∈ routePorts x.2, n ≤ 23) →
          Completes (.routeLoad c dev es) s c { q with devNum := dev, routes := es.foldl (fun t x => put x.1 x.2 t) [] } 0) ∧
        ((∃ x ∈ es, ∃ n ∈ routePorts x.2, 23 < n) → Completes (.routeLoad c dev es) s c q 4)) ∧
      (∀ es, Single s (.rankWrite c es) c → (∀ x ∈ es, x.1 < 4096 ∧ rankSt x.2 ≠ 3 ∧ fld (BitVec.toNat x.2) 14 16 = 0) →
        let u := { q with ranks := es.foldl (fun t x => put ((s.part p).job * 4096 + x.1) x.2 t) s.ranks }
        Completes (.rankWrite c es) s c (resolveParked u) 0 ∧ ((∀ o ∈ s.remOps, o.parked = false) → resolveParked u = u)) ∧
      (∀ base size table, Single s (.hdmCfg c base size table) c → base % 2 ^ 28 = 0 → size % 2 ^ 28 = 0 → 0 < size → size ≤ 2 ^ 38 → backed base size = true → backed table (size / 2 ^ 15) = true →
        (∀ x ∈ s.regions, rgValid x.2 = true → if rgBase x.2 < base + size ∧ base < rgBase x.2 + rgSize x.2 then rgHi x.2 = 3 ∧ rgProto x.2 ≤ 1
          else rgHi x.2 = 3 → place (rgBase x.2) = .host) →
        ∃ u, Completes (.hdmCfg c base size table) s c u 0 ∧ u.hdmBase = base ∧ u.hdmSize = size ∧ u.biasTab = table ∧ u.slots = s.slots ∧
          (∀ pa, inWindow u pa = true → hostBias u pa = false) ∧ ∀ a, a < table ∨ table + size / 2 ^ 15 ≤ a → u.mem.rd a = s.mem.rd a)) ∧
    (∀ core slot, Single s (.preemptCmd c core slot) c → (core < 2048 → slot < 16 → core ∈ partCores s p → s.partOf core = some p → (s.slot (threadOf core slot)).run ≠ .waiting .irq →
        Completes (.preemptCmd c core slot) s c (q.updSlot (threadOf core slot) fun x => { x with pend := x.pend ++ [.preempt 0] }) 0) ∧
      (2048 ≤ core ∨ 16 ≤ slot → Completes (.preemptCmd c core slot) s c q 1) ∧
      (core < 2048 → slot < 16 → core ∉ partCores s p → Completes (.preemptCmd c core slot) s c q 4)) ∧
    (Single s (.ifenceCmd c) c → c.fn ≠ none → ∀ g, (s.part p).cfg = some g → ∃ u, Completes (.ifenceCmd c) s c u 0 ∧ u.mem = s.mem ∧
      ∀ k ∈ coreSet g, s.partOf k = some p → ∀ i, i < 16 → u.slot (threadOf k i) = { s.slot (threadOf k i) with ibuf := [] }) ∧
    (c.fn = none → ∀ mode trace mbox, Single s (.record c mode trace mbox) c →
      (2 < mode → Completes (.record c mode trace mbox) s c q 1) ∧ (mode ≤ 2 → (s.part p).cfg = none → Completes (.record c mode trace mbox) s c q 4) ∧
      ∀ g, mode ≤ 2 → (s.part p).cfg = some g → ∃ u, Completes (.record c mode trace mbox) s c u 0 ∧ ((s.part p).heldNotify = [] → u.slots = s.slots ∧
        (u.part p).mode = (if mode = 0 then .off else if mode = 1 then .record else .replay) ∧ (u.part p).traceLog = trace ∧ (u.part p).mbxLog = mbox ∧
        (u.part p).logged = [] ∧ ∀ j, j < 77 → (u.proc j).trace.on = u.parts.any fun x => x.2.mode == .record)) ∧
    (∀ e : BitVec 256, Single s (.contract c e) c → let n := match c.fn with | some v => v.val | none => ctBits e 135 132; let period := ctBits e 63 0; let budget := ctBits e 127 64
      (ctBits e 255 136 ≠ 0 ∨ ctBits e 131 130 ≠ 0 → Completes (.contract c e) s c q 1) ∧
      (ctBits e 255 136 = 0 → ctBits e 131 130 = 0 →
        (ctBits e 135 132 ≠ n → Completes (.contract c e) s c q 2) ∧ (ctBits e 135 132 = n → (s.part n).cfg = none → Completes (.contract c e) s c q 4) ∧
        ∀ g, ctBits e 135 132 = n → (s.part n).cfg = some g →
          (ctBits e 128 128 = 0 → ∃ u, Completes (.contract c e) s c u 0 ∧ (u.part n).contract = none ∧ (u.part n).inPlace = false ∧ u.mem = s.mem ∧
            u.slots = s.slots) ∧
          (ctBits e 128 128 = 1 → 1 ≤ budget → period < 2 ^ 40 →
            (admits s n period budget = false → Completes (.contract c e) s c q 4) ∧
            (admits s n period budget = true → ∃ u k, Completes (.contract c e) s c u 0 ∧ (u.part n).contract = some k ∧ k.period = period ∧ k.budget = budget ∧
              k.left = budget ∧ k.notify = decide (ctBits e 129 129 = 1) ∧ (u.part n).inPlace = false ∧ u.mem = s.mem ∧ u.slots = s.slots)) ∧
          (let other := (s.partner n).bind fun m => (s.part m).contract
           admits s n period budget = true ↔ g.leased = true ∧ budget + 17200 ≤ period ∧ 344000 ≤ period ∧
             (other = none → 10 * budget ≤ 9 * period) ∧
             ∀ k, other = some k → 10 * (budget * k.period + k.budget * period) ≤ 9 * (period * k.period)))) ∧
    (∀ page, (∀ host, Single s (.biasSet c page 1 host) c) → page % 4096 = 0 → inWindow s page = true → s.takes = [] → s.hostOps = [] →
      (∀ host, hostBias s page = host → Completes (.biasSet c page 1 host) s c q 0) ∧
      (hostBias s page = false → heldLines s page = [] → pageQuiet s page = true → (s.proc 72).waiters = [] → (biasPlace s page).1 < 2 ^ 51 →
        ∃ u, exec (.biasSet c page 1 true) s = .next u ∧ u.hostOps = [] ∧ hostBias u page = true))

/-- Regions, images and messages (R212 to R214, R245, R246, R346, R414, R415, R418): REGION.BIND zeroes the directory and makes the entry valid;
REGION.UNBIND leaves no line of the region in a core and no message of it under way but the answers it sends; IMAGE.LOAD changes the processors of its
mask alone; DELIVER puts a message into the mailbox's ring and rings it; PAGE.REPLY wakes what waits for the page or makes it fault; and a chained
entry waits for its packet. The statuses follow log 42, a region ends in one step (log 14), and a chained entry with no follower waits (log 44). -/
def Obligations.RegionsImagesMessages : Prop :=
  ∀ (s : State) (c : Cmd), let q := consume s c 1; let p := cmdPart c
    (c.fn = none →
      (∀ idx e, Single s (.regionBind c idx e) c → (bindStatus s idx e = 0 → Completes (.regionBind c idx e) s c { q with mem := s.mem.clear (rgDir e) (dirBytes e), regions := put idx e s.regions } 0) ∧
        ∀ st, bindStatus s idx e = st → st ≠ 0 → Completes (.regionBind c idx e) s c q st) ∧
      (∀ idx, Single s (.regionUnbind c idx) c → let rg := s.region idx; idx < 256 →
        (rgValid rg = false → Completes (.regionUnbind c idx) s c q 4) ∧
        (rgValid rg = true → regionBusy s idx rg = false → ∃ u, Completes (.regionUnbind c idx) s c u 0 ∧ rgValid (u.region idx) = false ∧ u.slots = s.slots ∧
          (∀ k blk, inRegion rg (blk * 64) = true → lineOf u k blk = none) ∧
          ∀ m ∈ u.net, inRegion rg m.addr = true → m ∈ s.net ∨ (m.type = Ty.retry ∧ m.w[2] = 0))) ∧
      (∀ addr len mask, Single s (.imageLoad c addr len mask) c →
        let n := Nat.min len (64 + imgNat (homeBytes q addr 64) 20 4 + 8 * imgNat (homeBytes q addr 64) 24 4)
        let l := homeBytes q addr n
        (imgStatus q l len mask = 0 → ∃ u, Completes (.imageLoad c addr len mask) s c u 0 ∧ u.mem = s.mem ∧
          ∀ j, u.proc j = if j < 77 ∧ mask.getLsbD j then loadImage (s.proc j) l else s.proc j) ∧
        ∀ st, imgStatus q l len mask = st → st ≠ 0 → Completes (.imageLoad c addr len mask) s c q st)) ∧
    (∀ m v msg, Reads s (.deliver c m v msg) c → c.fn = none → Completes (.deliver c m v msg) s c q 2) ∧
    (∀ w, Reads s (.pageReply c w) c → c.fn = none → Completes (.pageReply c w) s c q 2) ∧
    (c.fn ≠ none → c.chain = true →
      (∀ m v msg, Reads s (.deliver c m v msg) c →
        exec (.deliver c m v msg) s = .next (s.updMailbox (cmdBox c) fun x => { x with packet := [.deliver c m v msg] })) ∧
      ∀ w, Reads s (.pageReply c w) c → exec (.pageReply c w) s = .next (s.updMailbox (cmdBox c) fun x => { x with packet := [.reply c w] })) ∧
    (c.fn ≠ none → c.chain = false →
      (∀ m v msg, Reads s (.deliver c m v msg) c →
        (v = 0 → Completes (.deliver c m v msg) s c q 1) ∧ (v ≠ 0 → mailboxOwner s m ≠ some p → Completes (.deliver c m v msg) s c q 2) ∧
        ∀ a, v ≠ 0 → (q.mailbox m).assign = some a → a.owner.val = p → matinsGate s ((PacketEntry.deliver c m v msg).accesses s) = none →
          let count := homeWord s a.ring; let used := (count - homeWord s (a.ring + 8)).toNat
          (used = 2 ^ a.k → Completes (.deliver c m v msg) s c q 3) ∧
          (used ≠ 2 ^ a.k → Completes (.deliver c m v msg) s c (notify (matinsWrite (matinsWrite q (a.ring + 64 + 64 * (count.toNat % 2 ^ a.k))
            (leBytes 64 (msg.toNat * 2 ^ 64))) a.ring (leBytes 8 (count + 1).toNat)) m v) 0)) ∧
      ∀ w : Word, Reads s (.pageReply c w) c → w.toNat < 2 ^ 17 →
        ((∀ r ∈ (s.part p).pageReqs, r.tag ≠ bits w 15 0) → Completes (.pageReply c w) s c q 0) ∧
        ∀ r t va cause g, (s.part p).pageReqs = [r] → r.tag = bits w 15 0 → (s.part p).cfg = some g → agentOf t ∈ coreSet g → s.partOf (agentOf t) = some p →
          (s.slot t).run = .waiting (.page r.tag va cause) → w.getLsbD 16 = false →
          ∃ u, Completes (.pageReply c w) s c u 0 ∧ (u.part p).pageReqs = [] ∧ u.slot t = { s.slot t with run := .active, redo := none } ∧ u.mem = s.mem)

/-- The life of a partition (R353 to R356, R416, R417, R419, R421): PART.CFG gives a partition its cores with fresh contexts and locks the pages of its
context buffers (the first bytes of each are the only memory it writes, log 62), PART.START sets it running behind its trap vector, PART.STOP and
PART.EXPORT halt it and, once it is off its cores, end it, PART.IMPORT sets it running again, LAUNCH and LAUNCH_SEED bring its records to its deques,
in the first round a quota for each core, and the exchange of a swap makes the incoming partition the cluster's. The statuses follow log 42; fresh
contexts at PART.CFG are log 47, what PART.STOP clears log 52, images log 53, and the records of a launch logs 43 and 54. -/
def Obligations.PartitionLife : Prop :=
  (∀ (s : State) (c : Cmd), let q := consume s c 1; let p := cmdPart c; c.fn = none →
    (∀ pa, Single s (.partCfg c pa) c → let l := homeBytes q pa 128; let g := parseCfg l
      let pages := pageAddrs s g g.ctxBase ((coreSet g).length * 0x2000)
      (cfgMalformed l p = true → Completes (.partCfg c pa) s c q 1) ∧ (cfgMalformed l p = false → cfgRefused q p g = true → Completes (.partCfg c pa) s c q 4) ∧
      (cfgMalformed l p = false → cfgRefused q p g = false → ∃ u, Completes (.partCfg c pa) s c u 0 ∧ (u.part p).cfg = some g ∧ (u.part p).launches = [] ∧ (u.part p).ctxPages = pages ∧
        (s.regions = [] → (∀ a ∈ pages, a < 2 ^ 52) → ∀ a, (∀ (i : Nat) h, pages[2 * i]? = some h → a < h ∨ h + 0x400 ≤ a) → u.mem.rd a = s.mem.rd a) ∧ (partClusters s p = [] → ∀ k ∈ clusterSet g, (s.cluster k).part = none → (u.cluster k).part = some p ∧
          ∀ n ∈ coresOf k, ∀ i, i < 16 → u.slot (threadOf n i) = {}))) ∧
    (Single s (.partStart c) c → ((s.part p).cfg = none ∨ (s.part p).running = true ∨ (s.part p).exported = true → Completes (.partStart c) s c q 4) ∧
      ∀ g, (s.part p).cfg = some g → (s.part p).running = false → (s.part p).exported = false → ∃ u, Completes (.partStart c) s c u 0 ∧
        (u.part p).running = true ∧ (s.partner p = none → ∀ n ∈ coreSet g, s.partOf n = some p →
          (u.core n).trVector = BitVec.ofNat 62 (g.vector.toNat / 4) ∧ (u.core n).lsSplit = 8 ∧ (u.core n).coreFatal = 0 ∧ (u.core n).stash = [])) ∧
    (∀ (i : Instr) (a : Option (Nat × Nat)), ((i = .partStop c ∧ a = none) ∨ ∃ area size, i = .partExport c area size ∧ a = some (area, size)) → Single s i c →
      (swapping s p = true → exec i s = .next s) ∧
      (swapping s p = false → (s.part p).cfg = none → Completes i s c q 4) ∧
      ∀ g, swapping s p = false → (s.part p).cfg = some g →
        (∀ area size, a = some (area, size) → area % 4096 = 0 ∧ backedOrHost area size = true ∧ imageBytes g ≤ size ∧ (s.part p).exported = false ∧
          (s.part p).contract = none ∧ (s.part p).mode = .off ∧ (s.part p).closing = [] ∧ (∀ l ∈ (s.part p).launches, l.leases = [])) →
        ((∃ k ∈ clusterSet g, inPlaceAt s p k = true) → ∃ u, exec i s = .next u ∧ (u.part p).ending = some { cmd := c, area := a } ∧
          ∀ k ∈ clusterSet g, inPlaceAt s p k = true → (u.cluster k).swap = .halted p none 0) ∧
        ((∀ k ∈ clusterSet g, inPlaceAt s p k = false) → (a ≠ none → remotesAnswered s p = true ∧ s.regions = [] ∧ s.hdmSize = 0) → ∃ u, exec i s = .next u ∧ (u.part p).running = false ∧
          (u.part p).launches = [] ∧ (u.part p).ending = none ∧
          ∀ area size, a = some (area, size) → (u.part p).exported = true ∧ ∃ img ∈ u.images, img.area = area ∧
            img.ctxs = (coreSet g).map fun n => { slots := slotsOfPart s p n, core := coreOfPart s p n })) ∧
    ∀ area, Single s (.partImport c area) c → (importStatus q p area = 0 → ∃ u, Completes (.partImport c area) s c u 0 ∧ (u.part p).running = true ∧ (u.part p).exported = false) ∧
      ∀ st, importStatus q p area = st → st ≠ 0 → Completes (.partImport c area) s c q st) ∧
  (∀ (s : State) (c : Cmd), let q := consume s c 1; let p := cmdPart c; c.fn ≠ none → ∀ recs ranges quota, Single s (.launch c recs ranges quota) c →
    (recs = [] ∨ 65536 < recs.length ∨ 8 < ranges.length ∨ quota < 1 ∨ 64 < quota → Completes (.launch c recs ranges quota) s c q 1) ∧
    ∀ g a b, (s.part p).cfg = some g → (s.part p).launches = [] → (s.part p).contract = none → recs = [(a, false)] → ranges = [] → 1 ≤ quota → quota ≤ 64 →
      s.regions = [] → s.hdmSize = 0 → readGlobal (grantLeases q p [] []) g a 32 = some b → ∃ u, exec (.launch c recs ranges quota) s = .next u ∧ u.mem = s.mem ∧
        (u.part p).launches = [{ tag := c.tag, addrs := recs, recs := [launchRec b c.tag], quota := quota, ranges := [], stage := .seeding }]) ∧
  (∀ (s : State) (p n : Nat) (l : Launch) (r : Rec) (rest : List Rec), (s.part p).launches = [l] → l.stage = .seeding → l.recs = r :: rest → (s.part p).running = true →
    swapping s p = false → s.partner p = none → (let cs := partCores s p
     (if l.dealt < l.quota * cs.length then cs[l.dealt / l.quota]? else cs.find? fun k => queuedOf s p k l.tag < l.quota) = some n) → s.partOf n = some p →
    (s.core n).deque.length < 64 → (s.core n).spillPath = [] →
    ∃ u, exec (.launchSeed p) s = .next u ∧ (u.part p).launches = [{ l with recs := rest, dealt := l.dealt + 1 }] ∧ u.mem = s.mem ∧ u.slots = s.slots ∧
      (u.core n).deque = (s.core n).deque ++ [{ r with first := n }]) ∧
  ∀ (s : State) (k out inc why : Nat), (s.cluster k).swap = .flushed out (some inc) why →
    (∀ n ∈ coresOf k, (s.core n).trace.entries = []) → ∃ u, exec (.swapExchange k) s = .next u ∧
    (u.cluster k).part = some inc ∧ (u.cluster k).swap = .none ∧ (u.cluster k).shadow = some (out, (coresOf k).map (ctxOfCore s))

/-- Registers the host writes, and the logs of record and replay (R9, R201, R362, R363, R408 to R410, R429, R432, R437): a notify register takes the value
and rings its command ring or its slot, each register takes its field and no other write changes anything, a port's ring goes into its partition's
log, and an event held too long, or one that matches no entry still to come, ends a replay. Where an entry of a trace log stands is the model's choice
(log 30). -/
def Obligations.HostRegisters : Prop :=
  (∀ (s : State) (fn m : Nat) (v : Word), bar0Open s = true ∧ reachesPage s fn m = true →
    (v = 0 → exec (.notifyWrite fn m v) s = .next s) ∧
    (v ≠ 0 → isCommandBox m = true → (s.mailbox m).assign = none →
      exec (.notifyWrite fn m v) s = .next (s.updMailbox m fun x => { x with notify := x.notify ||| v, due := true })) ∧
    ∀ a i, v ≠ 0 → isCommandBox m = false → (s.mailbox m).assign = some a → (s.part a.owner.val).mode = .off → (s.mailbox m).notify = 0 → (s.mailbox m).waiters = [] →
      a.irqSlot = some i → clusterServes s a.owner.val (clusterOf a.wakeCore) = true → s.partner a.owner.val = none →
      let t := threadOf a.wakeCore i.val; (s.slot t).run ≠ .idle → (s.slot t).run ≠ .waiting .irq →
      ∃ u, exec (.notifyWrite fn m v) s = .next u ∧ (u.mailbox m).notify = v ∧ (u.mailbox m).due = false ∧ u.mem = s.mem ∧
        u.slot t = { s.slot t with pend := (s.slot t).pend ++ [.mailbox (BitVec.ofNat 8 m)] }) ∧
  (∀ (s : State) (fn m : Nat) (r : BarReg) (v : Word), (bar0Open s = false ∨ reachesPage s fn m = false → exec (.notifyWrite fn m v) s = .next s) ∧
    let becomes (r : BarReg) (u : State) : Prop := exec (.registerWrite fn r v) s = .next u
    (bar0Open s = true → reachesPage s fn m = true → isCommandBox m = true →
      becomes (.ring m) (s.updMailbox m fun x => { x with ring := v &&& 0x000FFFFFFFFFFFC0 }) ∧
      becomes (.rsz m) (s.updMailbox m fun x => { x with rsz := if 4 ≤ v.toNat % 16 ∧ v.toNat % 16 ≤ 12 then v.toNat % 16 else x.rsz }) ∧
      becomes (.prod m) (s.updMailbox m fun x => { x with prod := v.setWidth 32 })) ∧
    (bar0Open s = false ∨ reachesPage s fn m = false ∨ isCommandBox m = false → ∀ r ∈ [BarReg.ring m, .rsz m, .prod m], becomes r s) ∧
    becomes (.cons m) s ∧ becomes .bootStatus s ∧ becomes .ulog s ∧ becomes .ports s ∧
    (16 ≤ fn → bar2Open s = true →
      becomes .recoveryImage { s with boot := { s.boot with recovery := v &&& 0xFFFFFFFFFFFFF000 } } ∧ becomes .reportAddr { s with attest := { s.attest with report := v } } ∧
      (∀ w, becomes (.nonce w) { s with attest := { s.attest with nonce := s.attest.nonce.set w v } }) ∧
      becomes .reportGo (if v = 1 ∧ s.attest.request = false then { s with attest := { s.attest with request := true, done := false } } else s) ∧
      becomes .telemetry { s with tele := { s.tele with uerr := if v.toNat / 2 ^ 48 = 0xFFFF then 0 else s.tele.uerr,
                                                        cerr := if v.toNat / 2 ^ 32 % 2 ^ 16 = 0xFFFF then 0 else s.tele.cerr } }) ∧
    (fn < 16 ∨ bar2Open s = false → ∀ r ∈ [BarReg.recoveryImage, .reportAddr, .reportGo, .telemetry], becomes r s)) ∧
  (∀ (s : State) (port : Nat), ((ringOf s port).entries = [] → exec (.traceRingCopy port) s = .next s) ∧
    ∀ e p, (ringOf s port).entries = [e] → e.part = some p → (s.part p).mode = .record → let n := (look port (s.part p).logged).getD 0
      ∃ u, exec (.traceRingCopy port) s = .next u ∧ (ringOf u port).entries = [] ∧ look port (u.part p).logged = some (n + 1) ∧
        u.mem = s.mem.wrBytes ((s.part p).traceLog + port * 2 ^ 36 + 16 * (n % 2 ^ 32)) (leBytes 16 (traceCode e.addr e.seq e.len e.slot e.core e.dev e.gnt))) ∧
  ∀ (s : State) (p port : Nat), (s.part p).mode = .replay → (s.part p).diverged = false →
    (∀ since, look port (s.part p).heldSince = some since → ∃ u, exec (.replayDivergence p port) s = .next u ∧ (u.part p).diverged = true ∧
      ((s.part p).stray ≠ some port → since + 2 ^ 24 < u.time)) ∧
    ((s.part p).stray = some port → ∃ u, exec (.replayDivergence p port) s = .next u ∧ (u.part p).diverged = true ∧ (u.part p).stray = none ∧
      u.time = s.time) ∧
    ((s.part p).stray ≠ some port → look port (s.part p).heldSince = none → exec (.replayDivergence p port) s = .next s)

/-- Starts and power states (R410, R428 to R431, R435): power-up, a fundamental reset and bs.rst start cold and a hot reset starts warm after a good
start, and in recovery bs.rst takes the image at the recovery image address; a start checks its two images (their layout, their signatures over their
own SHA-256 and the fuse counter; bytes that are no image of R430 fail like a bad signature, log 89), but for one whose hash a warm start has latched,
and ends ready or in recovery with the code of the first failure; it leaves the machine at reset but for what it keeps; D3hot and power-off stop the
device; a cluster's clock and power are gated when nothing on it asks for them and come back when something does, from power gating only for a
mailbox, its cycle count standing still meanwhile or starting from zero. What a warm start keeps, and that a clock gate stands for the idle cycles
before it, are the model's readings (logs 45 and 46); the bytes of the images are presented with the event (log 13). -/
def Obligations.StartsAndPower : Prop :=
  (∀ (s : State) (img : BootImage),
    (s.boot.st = .off ∨ s.boot.st = .starting → exec (.powerOn img) s = .next (start { s with boot := { fc := s.boot.fc } } false img)) ∧
    (s.boot.st ≠ .off → exec (.fundamentalReset img) s = .next (start s false img)) ∧
    (s.boot.st ≠ .off → s.boot.st ≠ .starting → exec (.hotReset img) s = .next (start s (s.boot.fail = 0) img)) ∧
    (bar2Open s = true → s.boot.st ≠ .recovery → exec (.bootReset img) s = .next (start s false img)) ∧
    (bar2Open s = true → s.boot.st = .recovery → ∃ l, exec (.bootReset img) s = .next (start s false { img with image := l }) ∧
      ∀ i, i < l.length → l[i]? = some (s.mem.rd (2 ^ 51 + s.boot.recovery.toNat % 2 ^ 51 + i))) ∧
    ∀ warm, let u := start s warm img; let l := img.image; let w := imgNat l 8 4; let sv := imgNat l 4 2
      let sig (l : List Byte) : Bool := Config.verify (sha256 (l.take (l.length - 384))) (BitVec.ofNat 3072 (leNat (l.drop (l.length - 384))))
      let sound := patchForm l && sig l; let gSound := gargCheck img.garg
      let checked := !(warm && sha256 l = s.boot.matinsHash); let gChecked := !(warm && sha256 img.garg = s.boot.gargHash)
      let accepted := !checked || (sound && s.boot.fc ≤ sv)
      let fail := if checked && !sound then 1 else if checked && sv < s.boot.fc then 2 else if !img.hbmOk then 3 else if !img.ddrOk then 4
        else if gChecked && !gSound then 1 else 0
      u.boot.fail = fail ∧ u.boot.st = (if fail = 0 then .ready else .recovery) ∧ u.boot.warm = warm ∧
      (patchForm l = true ↔ w ≤ 4096 ∧ l.length = 64 + 8 * w + 384 ∧ imgNat l 0 4 = 0x6D617470 ∧ sv ≤ 64 ∧ imgNat l 6 2 ≤ 1 ∧ imgNat l 12 52 = 0 ∧
        ∀ i, i < w → imgNat l (64 + 8 * i) 2 < 4096 ∧ imgNat l (66 + 8 * i) 2 = 0) ∧
      (sig img.garg = false ∨ imgNat img.garg 0 4 ≠ 0x67726267 ∨ imgNat img.garg 6 2 ≠ 1 → gargCheck img.garg = false) ∧
      u.boot.matinsHash = (if accepted then sha256 l else s.boot.matinsHash) ∧ (accepted = true → u.boot.patches = patchRam (patchList l)) ∧
      u.boot.gargHash = (if fail = 0 then sha256 img.garg else s.boot.gargHash) ∧
      u.boot.fc = (if checked && accepted && imgNat l 6 2 = 1 then Nat.max s.boot.fc sv else s.boot.fc) ∧
      s.boot.fc ≤ u.boot.fc ∧ u.slots = [] ∧ u.cores = [] ∧ u.procs = [] ∧ u.parts = [] ∧ u.regions = [] ∧ u.ranks = [] ∧ u.net = [] ∧ u.halted = false ∧
      u.tele.ports = img.failedPorts.setWidth 64 ∧
      ∀ a, u.mem.rd a = (match place a with | .host => s.mem.rd a | .ddr => if warm then s.mem.rd a else 0 | _ => 0)) ∧
  (∀ s : State, exec .powerOff s = .next { s with boot := { s.boot with st := .off } } ∧
    (s.boot.st = .ready ∨ s.boot.st = .recovery → exec .d3hotEntry s = .next { s with boot := { s.boot with st := .d3hot } }) ∧
    (s.boot.st ≠ .ready → s.boot.st ≠ .recovery → exec .d3hotEntry s = .next s)) ∧
  ∀ (s : State) (k : Nat), let x := s.cluster k
    let active (r : Run) : Prop := r = .active ∨ r = .halted ∨ r = .dead
    (x.clock = .running → x.swap = .none → contractAnchor s k = false → wanted s k = false →
      (∀ c ∈ coresOf k, enginesIdle (s.core c) = true ∧ ∀ y ∈ s.slots, agentOf y.1 = c → ¬ active y.2.run) →
      (∃ u, exec (.clusterClockGate k) s = .next u ∧ u.time = s.time + 4000 ∧ (u.cluster k).clock = .clockGated ∧ u.slots = s.slots ∧ u.cores = s.cores ∧ u.mem = s.mem ∧
        ∀ n, ({ u with time := u.time + n }).cluCycle k = { s with time := s.time + 4000 }.cluCycle k)) ∧
    (x.clock ≠ .powerGated → x.swap = .none → contractAnchor s k = false → wanted s k = false →
      (∀ c ∈ coresOf k, enginesIdle (s.core c) = true ∧ ∀ i, i < 16 → (s.slot (threadOf c i)).run = .idle) →
      ∃ u, exec (.clusterPowerGate k) s = .next u ∧ (u.cluster k).clock = .powerGated ∧ u.cluCycle k = 0 ∧ u.slots = s.slots ∧ u.cores = s.cores ∧ u.mem = s.mem) ∧
    (wanted s k = true → exec (.clusterClockGate k) s = .next s ∧ exec (.clusterPowerGate k) s = .next s) ∧
    (∀ y ∈ s.slots, agentOf y.1 ∈ coresOf k → active y.2.run → exec (.clusterClockGate k) s = .next s) ∧
    (contractAnchor s k = true → exec (.clusterClockGate k) s = .next s ∧ exec (.clusterPowerGate k) s = .next s) ∧
    (x.clock = .powerGated → exec (.clusterWake k) s = .next (if mailWanted s k then serveMailboxes (ungate s k) else s)) ∧
    (x.clock = .clockGated → wanted s k = true → (∀ m ∈ s.mailboxes, isCommandBox m.1 = true) →
      ∃ u, exec (.clusterWake k) s = .next u ∧ (u.cluster k).clock = .running ∧ u.cluCycle k = s.cluCycle k ∧ u.slots = s.slots ∧ u.mem = s.mem)

/-- Attestation, background work, temperature, telemetry and the host's answers (R401, R432 to R437): a report goes to the host's address, its first bytes
as R432 lays them out; refresh and recalibration change nothing; a scrub counts a corrected error, poisons an uncorrectable block (a block of an SRAM
under the model's number for it, log 85) and stops the device at an error in its control store; the throttle level moves by one within 0 to 3, and
heat at level 3 stops the device; and a completion of the host lets its slot go on, and one for slot 0 of a core whose lazy release sets hold posted
writes drains them (log 86). That refresh and recalibration change nothing, and that the low bits of the report's address are ignored, are the model's
readings (log 45). -/
def Obligations.DeviceHousekeeping : Prop :=
  ∀ (s : State) (n pa t : Nat) (x : Telemetry),
    exec (.refresh n) s = .next s ∧ exec (.recalibration n) s = .next s ∧
    (bar0Open s = false ∨ s.attest.request = false → exec .attestRequest s = .next s) ∧
    (bar0Open s = true → s.attest.request = true → ∃ m, exec .attestRequest s = .next { s with mem := m, attest := { s.attest with request := false, done := true } } ∧
      let a := 2 ^ 51 + s.attest.report.toNat % 2 ^ 51 / 512 * 512
      (∀ b, b < a ∨ a + 512 ≤ b → m.rd b = s.mem.rd b) ∧
      m.le a 4 = 0x61747374 ∧ m.le (a + 4) 2 = 1 ∧ m.le (a + 6) 2 = s.boot.fc % 2 ^ 16 ∧
      (∀ i : Fin 4, m.word (a + 16 + 8 * i.val) = s.attest.nonce[i]) ∧ m.le (a + 48) 32 = s.boot.matinsHash.toNat ∧ m.le (a + 80) 32 = s.boot.gargHash.toNat ∧
      m.le (a + 112) 16 = 0) ∧
    exec (.scrub pa .clean) s = .next s ∧
    exec (.scrub pa .corrected) s = .next { s with tele := { s.tele with cerr := Nat.min 0xFFFF (s.tele.cerr + 1) } } ∧
    (∃ u, exec (.scrub pa .uncorrectable) s = .next u ∧ u.tele = { s.tele with uerr := Nat.min 0xFFFF (s.tele.uerr + 1), ulog := pa } ∧
      pa / 64 ∈ u.poisoned ∧ (∀ b, b ≠ pa / 64 → (b ∈ u.poisoned ↔ b ∈ s.poisoned)) ∧ u.mem = s.mem ∧ u.halted = s.halted) ∧
    (∃ u, exec (.scrub pa .control) s = .next u ∧ u.halted = true ∧ u.boot.fail = 5 ∧ u.hostOut = s.hostOut ++ [.internalError] ∧ u.mem = s.mem) ∧
    (∃ u, exec .throttleRaise s = .next u ∧ u = { s with tele := { s.tele with level := u.tele.level } } ∧ u.tele.level.val = Nat.min 3 (s.tele.level.val + 1)) ∧
    (∃ u, exec .throttleLower s = .next u ∧ u = { s with tele := { s.tele with level := u.tele.level } } ∧ u.tele.level.val = s.tele.level.val - 1) ∧
    (s.tele.level = 3 → exec .thermalShutdown s = .next { s with halted := true, hostOut := s.hostOut ++ [.internalError] }) ∧
    (s.tele.level ≠ 3 → exec .thermalShutdown s = .next s) ∧
    exec (.telemetrySample x) s = .next { s with tele := { s.tele with sample := some x, thr := s.tele.level } } ∧
    ((s.slot t).run = .waiting .host → ∃ u, exec (.cxlIoCompletion t) s = .next u ∧ u.slot t = { s.slot t with run := .active, redo := none } ∧ u.posted = 0 ∧ u.mem = s.mem ∧
      ∀ v, v ≠ t → u.slot v = s.slot v) ∧
    ((s.slot t).run ≠ .waiting .host → exec (.cxlIoCompletion t) s =
      .next (if onCore t ∧ slotOf t = 0 ∧ drainsHost s (agentOf t) = true then { s with posted := 0 } else s))

/-- Words that the spec writes out decode to the instructions it gives them for (R73, R78, R81, R84, R90, R91, R94, R95, R107, R123, R126, R143, R153,
R175, R186, R259, R278, R310, R317, R323, R349, R378, R382, R389, R394, R407). -/
def Obligations.WordsOfTheSpec : Prop :=
  let base (w : Nat) (i : Instr) : Prop := decodeTableWord 32 w = some i
  let ext (w x : Nat) (i : Instr) : Prop := decodeTableWord 96 (w + x * 2 ^ 32) = some i
  (base 0x0000000C (.addi 0 0 0) ∧ base 0x00003028 (.li 24 0) ∧ base 0x00014860 (.bz 4 5) ∧ base 0x01013218 (.ctz 25 4) ∧ base 0x00CE3004 (.add 24 24 25) ∧
    base 0x0D010818 (.clrlow 4 4) ∧ base 0xFFFF0068 (.jal 0 (-4)) ∧ base 0x0800406C (.jalr 0 1) ∧ base 0x0362D440 (.fadd .t8 10 11 12)) ∧
  (ext 0x00011426 0xE1F (.hdrGet 10 4 31 7) ∧ ext 0x010014F2 1 (.crrs 10 0 1) ∧ ext 0x14315486 8 (.stExt .w 10 5 ⟨.rel, .clu, 4⟩ ⟨0, 0, 8⟩) ∧
    base 0x3C795488 (.atomAdd .d 10 5 ⟨.sc, .pkg, 4⟩) ∧ base 0xA0014C94 (.stashMap 6 5) ∧ base 0x1861589C (.append .d 12 5 false .pkg) ∧ base 0x004154A0 (.tailrd 10 5 .die)) ∧
  (base 0x87188300 (.vadd .f32 7 1 2 3) ∧ base 0xE9314938 (.vdot .t8 9 4 5 6) ∧ base 0x1920F0C0 (.fork 24 3 4 25) ∧ base 0x0B0140C8 (.join .pkg 5) ∧
    base 0x1A0000D0 (.barSync 2) ∧ base 0x000114D4 (.mbxWait 10 4)) ∧
  (ext 0x0000018A 0x201 (.mc 1 2 0) ∧ ext 0x00000186 0x10504 (.mm 4 5 1) ∧ ext 0x0200018A 0x201 (.mcNdB 1 2 0) ∧ base 0x0000018C .drainA ∧
    ext 0x03600182 0x07000003 (.tdWrw 12 3 7) ∧ ext 0x0001819E 0x1F000000 (.msave 6 31)) ∧
  (base 0x0162D5C0 (.cpStart 1 10 11 12) ∧ base 0x0402D5C0 (.cpWaitge 0 10 11) ∧ base 0x015A8BC4 (.distGo 5 10 11) ∧ ext 0x870083CA 0 (.sfuExp2 .f32 7 1 2)) ∧
  (base 0x050358F8 (.faultRd 12 13) ∧ base 0x040298F8 (.ptProbe 12 10) ∧ base 0x005A80F8 (.tlbiVa 10 11) ∧ base 0x030000F8 .tlbsync) ∧
  (base 0x00A100E0 (.qinj 4 20) ∧ base 0x010100E0 (.qrcv 4) ∧ ext 0x005A80E6 0x30300 (.rld 3 .d false 10 11) ∧ base 0x0400D8E4 (.rwait 12 3) ∧
    base 0x0102D4EC (.rankRd 10 11) ∧ base 0x087358EC (.rbind 12 13 14)) ∧
  (base 0x000001EC .hend ∧ base 0x01C441E0 (.tagGntd 17 24) ∧ base 0x0AC001EC (.biSnp 24)) ∧
  decode [0, 0, 0, 0] = .error (.illegal 0)

/-- Decoding the bytes of a well-formed instruction gives that instruction and its length, with every operand at every value its encoding admits (R28 to
R36), whatever bytes follow it. -/
def Obligations.DecodeOfEncode : Prop :=
  ∀ (i : Instr) (rest : List Byte), i.hasWords = true → i.wf = true → decode (encode i ++ rest) = .ok (i, i.len)

/-- A step in which a slot issues runs the instruction that the bytes at its pc decode to (R19, R36, R37): it is exec of that instruction on the state in
which time has passed, a handler's step is counted and the fetch has happened; afterwards the blocks that waited for the slot's re-execution no longer
do, the slot may stand between the members of a bundle (R38, R39), a processor whose handler has ended looks at its waiters (R232), and a step whose
port has to wait does not take place, but for the turn of the slot, which passes to the next. Bytes that are no instruction, or one of another kind of
machine, take ILLEGAL_OP, and a fetch that traps or waits ends the step so. A step in which an event occurs is exec of that event; an interrupt is
taken so unless the slot's next instruction faults, which comes first (R22). What a step adds, and that inputs say which slot issues, are the model's
form (logs 3 and 6). -/
def Obligations.StepRunsTheInstruction : Prop :=
  (∀ (s : State) (t : Nat) (rest : List Input), s.inputs = .issue t :: rest → steps s = true →
    let s1 := dropInput (passTime s); let s0 := beginIssue s1 t; let ends (bs : List Byte) (o : Out) : Out := settleIssue s1 t (afterIssue (s0.slot t) bs t o)
    ready s1 t = true →
      (∀ bs s2, fetch s0 t = .ok bs s2 → s2.cur = t → let w := leNat (bs.take 4); let major := w / 4 % 128
        (∀ i n, decode bs = .ok (i, n) → machineDecodes t major = true → (namesVector i major = true → parkedResult s2 t = false) → step s = ends bs (exec i s2)) ∧
        (∀ i n, decode bs = .ok (i, n) → machineDecodes t major = true → namesVector i major = true → parkedResult s2 t = true → step s = ends bs (wait .sfuParked s2)) ∧
        ((∃ i n, decode bs = .ok (i, n)) → machineDecodes t major = false → step s = ends bs (exec (.illegalOpEncoding (BitVec.ofNat 32 w)) s2)) ∧
        ∀ x, decode bs = .error (.illegal x) → step s = ends bs (exec (.illegalOpEncoding x) s2)) ∧
      (∀ c v s2, fetch s0 t = .trap c v s2 → step s = ends [] (trap c v s2)) ∧ ∀ w s2, fetch s0 t = .wait w s2 → step s = ends [] (wait w s2)) ∧
  (∀ (s : State) (i : Instr) (rest : List Input), s.inputs = .event i :: rest → steps s = true →
    let s1 := dropInput (passTime s); ((∀ t, i ≠ .interruptTake t) → step s = settleOut s1 (exec i s1)) ∧
    ∀ t, i = .interruptTake t →
      (ready s1 t = false ∨ (∃ u, runSlot s1 t = .next u ∧ faulted s1 u t = false) → step s = settleOut s1 (exec i s1)) ∧
      ∀ u, onCore t = true → firstIntr (s1.slot t).pend ≠ none → mayInterrupt (s1.slot t) = true → ready s1 t = true → runSlot s1 t = .next u →
        faulted s1 u t = true → step s = settleOut s1 (.next u)) ∧
  (∀ (x : Slot) (bs : List Byte) (t : Nat) (s : State), ∃ u, afterIssue x bs t (.next s) = .next u ∧
    let v := afterHandler (reexecuted s t) t
    (u = v ∨ u = v.updSlot t fun y => { y with paired := true }) ∧ (onCore t = true → v = reexecuted s t)) ∧
  (∀ (s : State) (rest : List Input), steps s = true → let s1 := dropInput (passTime s)
    (∀ m, s.inputs = .badEntry m :: rest → step s = settleOut s1 (.next (rejectEntry s1 m))) ∧
    ∀ pa held, s.inputs = .biRspI pa held :: rest → linkUp s1 = true → step s = settleOut s1 (.next (settleHome (hostAnswered s1 pa held)))) ∧
  (∀ s : State, steps s = false → step s = .fault .deviceStopped) ∧
  (∀ (s s1 : State) (t : Nat), (s1.deferred = false → settleOut s (.next s1) = .next s1 ∧ settleIssue s t (.next s1) = .next s1) ∧
    (s1.deferred = true → settleOut s (.next s1) = .next (settled s s1) ∧ settleIssue s t (.next s1) = .next { settled s s1 with cur := t })) ∧
  ∀ (s : State) (t : Nat), onCore t = true → let a := (s.slot t).pc; let c := agentOf t; let o := s.spOffset c (offsetOf a)
    a.toNat % 4 = 0 → spaceOf a = some .spd → fld a.toNat 45 11 = c → offsetOf a + 20 ≤ s.spSize c → poisonAt s (lsBlk c) o 20 = none →
    let w := (s.core c).ls.bytes o 4; let n := lenBytes (Fin.ofNat 4 (leNat w % 4))
    fetch s t = .ok ((s.core c).ls.bytes o n) s

/-- Every instruction and every event answers a next state, whatever its operands and the state: traps, waits and commands refused are next states, and
nothing stops the model but a device that has been stopped (R19, R434 to R436). That an event which cannot occur leaves the state as it is, is the
model's choice (log 2). -/
def Obligations.NothingIsRefused : Prop :=
  (∀ (i : Instr) (s : State), ∃ t, exec i s = .next t) ∧ (∀ s : State, steps s = true → ∃ t, step s = .next t) ∧
  ∀ s : State, steps s = false ↔ step s = .fault .deviceStopped

/-- No effect is held back after a step (R201, R363; log 3): what a port could not take did not take place. -/
def Obligations.StepsLeaveNothingHeldBack : Prop := Kept NothingHeldBack

/-- Physical memory stays a table in canonical form: rising addresses, and no byte listed that an unlisted one reads as, after every step, from every
state in that form (the form is the model's own, log 5). -/
def Obligations.StepsKeepMemoryCanonical : Prop := Kept MemoryCanonical

/-- Memory and the local stores as byte tables (R25; the canonical form is the model's own, log 5): every write keeps the form, what is written is read
back, the least significant byte lowest, and every other byte is as it was; two memories in the form that read alike are equal. -/
def Obligations.MemoryReadsBack : Prop :=
  (∀ (m : Memory) (a : Nat) (l : List Byte), (m.wf = true → (m.wrBytes a l).wf = true) ∧ (m.wrBytes a l).bytes a l.length = l ∧
    ∀ c, c < a ∨ a + l.length ≤ c → (m.wrBytes a l).rd c = m.rd c) ∧
  (∀ (m : Memory) (a : Nat) (v : Word), (m.wrWord a v).word a = v ∧ ∀ i, i < 8 → (m.wrWord a v).rd (a + i) = v.extractLsb' (8 * i) 8) ∧
  (∀ (m : Memory) (a : Nat) (b : Block) (k : BitVec 64), (m.wf = true → (m.wrMask a b k).wf = true) ∧
    ∀ c, (m.wrMask a b k).rd c = if a ≤ c ∧ c < a + 64 ∧ k.getLsbD (c - a) = true then blkByte b (c - a) else m.rd c) ∧
  (∀ (m : Memory) (a n : Nat), (m.wf = true → (m.clear a n).wf = true) ∧ ∀ c, (m.clear a n).rd c = if a ≤ c ∧ c < a + n then 0 else m.rd c) ∧
  ∀ m k : Memory, m.wf = true → k.wf = true → (∀ a, m.rd a = k.rd a) → m = k

/-- The machine after reset (R15, R22, R212, R428): the device starts, nothing of it runs, no region is bound, every block is direct, memory is in its
canonical form, each control register of every core slot holds the value R15 gives for reset, or, where it gives none, the value that log 1 names; and
the invariants hold there. The values that the spec does not give are those of log 1; they are the model's choice. -/
def Obligations.MachineAtReset : Prop :=
  let s := State.reset
  s.boot.st = .starting ∧ s.halted = false ∧ s.regions = [] ∧ s.parts = [] ∧ s.net = [] ∧ s.remOps = [] ∧ s.hostOut = [] ∧ s.inputs = [] ∧
  MemoryCanonical s ∧ NothingHeldBack s ∧ (∀ a, s.protoOf a = 0) ∧
  (∀ t n, onCore t = true → crAssigned true n = true → n ≠ 0x400 → crRead s t n = if n = 0x002 then 1 else if n = 0x808 then 8 else 0) ∧
  ∀ t, (s.slot t).run = .idle ∧ (s.slot t).mode = .u ∧ (s.slot t).pend = [] ∧ (s.slot t).pc = 0 ∧ (∀ r, (s.slot t).rs r = 0 ∧ (s.slot t).rv r = 0) ∧
    (s.core (agentOf t)).deque = [] ∧ (s.core (agentOf t)).lines = []
end

