-- ==== Sys2Proof/Laws/State.lean ====
section
/-! SUPPORT. What the updates of the state leave alone: one lemma per field per update, true by rfl; and the laws of tables, slots and
registers that later proofs cite instead of unfolding them. -/

set_option Elab.async false

namespace Sys2Proof.Machine

/-! ## Tables -/

/-- A key that was put is found. -/
@[simp] theorem look_put_self {α : Type} (k : Nat) (v : α) (t : Tab α) : look k (put k v t) = some v := by
  induction t with
  | nil => simp [put, look]
  | cons p t ih =>
    obtain ⟨k', v'⟩ := p
    simp only [put]
    split
    · simp [look]
    · split
      · simp [look]
      · rename_i h2; simp [look, h2, ih]

/-- Another key is as it was. -/
@[simp] theorem look_put_ne {α : Type} {j k : Nat} (h : j ≠ k) (v : α) (t : Tab α) : look j (put k v t) = look j t := by
  induction t with
  | nil => simp [put, look, h]
  | cons p t ih =>
    obtain ⟨k', v'⟩ := p
    simp only [put]
    split
    · simp [look, h]
    · split
      · rename_i h2; subst h2; simp [look, h]
      · simp [look, ih]

/-- The last value put under a key is the one that stands. -/
@[simp] theorem put_put {α : Type} (k : Nat) (v w : α) (t : Tab α) : put k v (put k w t) = put k v t := by
  induction t with
  | nil => simp [put]
  | cons p t ih =>
    obtain ⟨k', v'⟩ := p
    simp only [put]
    split
    · simp [put]
    · split
      · simp [put]
      · rename_i h1 h2; simp [put, h1, h2, ih]

/-- Another key is as it was when a key is dropped. -/
@[simp] theorem look_drop_ne {α : Type} {j k : Nat} (h : j ≠ k) (t : Tab α) : look j (drop k t) = look j t := by
  induction t with
  | nil => simp [drop]
  | cons p t ih =>
    obtain ⟨k', v'⟩ := p
    simp only [drop]
    split
    · rename_i h2; subst h2; simp [look, h]
    · simp [look, ih]

/-! ## Slots and registers -/

/-- A slot that was set is read back. -/
@[simp] theorem State.slot_setSlot_self (s : State) (t : Nat) (x : Slot) : (s.setSlot t x).slot t = x := by
  simp [State.setSlot, State.slot]

/-- Another slot is as it was. -/
@[simp] theorem State.slot_setSlot_ne (s : State) {t u : Nat} (h : u ≠ t) (x : Slot) : (s.setSlot t x).slot u = s.slot u := by
  simp [State.setSlot, State.slot, h]

/-- The last slot set is the one that stands. -/
@[simp] theorem State.setSlot_setSlot (s : State) (t : Nat) (x y : Slot) : (s.setSlot t x).setSlot t y = s.setSlot t y := by
  simp [State.setSlot]

/-- A core that was set is read back. -/
@[simp] theorem State.core_setCore_self (s : State) (c : Nat) (x : Core) : (s.setCore c x).core c = x := by
  simp [State.setCore, State.core]

/-- Another core is as it was. -/
@[simp] theorem State.core_setCore_ne (s : State) {c d : Nat} (h : d ≠ c) (x : Core) : (s.setCore c x).core d = s.core d := by
  simp [State.setCore, State.core, h]

/-- The last core set is the one that stands. -/
@[simp] theorem State.setCore_setCore (s : State) (c : Nat) (x y : Core) : (s.setCore c x).setCore c y = s.setCore c y := by
  simp [State.setCore]

/-- A change of a slot sets it. -/
@[simp] theorem State.updSlot_eq (s : State) (t : Nat) (f : Slot → Slot) : s.updSlot t f = s.setSlot t (f (s.slot t)) := rfl

/-- A change of the current slot sets it. -/
@[simp] theorem State.updMe_eq (s : State) (f : Slot → Slot) : s.updMe f = s.setSlot s.cur (f (s.slot s.cur)) := rfl

/-- A change of a core sets it. -/
@[simp] theorem State.updCore_eq (s : State) (c : Nat) (f : Core → Core) : s.updCore c f = s.setCore c (f (s.core c)) := rfl

/-- The current slot. -/
theorem State.me_eq (s : State) : s.me = s.slot s.cur := rfl

/-- s0 reads as zero (R11). -/
@[simp] theorem Slot.rs_zero (x : Slot) : x.rs 0 = 0 := rfl

/-- A write to s0 is discarded (R11). -/
@[simp] theorem Slot.ws_zero (x : Slot) (v : Word) : x.ws 0 v = x := rfl

/-- A scalar register that was written is read back. -/
theorem Slot.rs_ws_self (x : Slot) {d : Reg} (h : d ≠ 0) (v : Word) : (x.ws d v).rs d = v := by
  simp [Slot.rs, Slot.ws, h]

/-- Another scalar register is as it was. -/
theorem Slot.rs_ws_ne (x : Slot) {d r : Reg} (h : r ≠ d) (v : Word) : (x.ws d v).rs r = x.rs r := by
  unfold Slot.rs Slot.ws
  by_cases hd : d = 0
  · simp [hd]
  · have h2 : (d : Nat) ≠ (r : Nat) := fun e => h (Fin.ext e.symm)
    simp [hd, h2]

/-- A vector register that was written is read back. -/
theorem Slot.rv_wv_self (x : Slot) (d : Reg) (v : Block) : (x.wv d v).rv d = v := by
  simp [Slot.rv, Slot.wv]

/-- Another vector register is as it was. -/
theorem Slot.rv_wv_ne (x : Slot) {d r : Reg} (h : r ≠ d) (v : Block) : (x.wv d v).rv r = x.rv r := by
  have h2 : (d : Nat) ≠ (r : Nat) := fun e => h (Fin.ext e.symm)
  simp [Slot.rv, Slot.wv, h2]

/-- The scalar file after a write of a scalar register. -/
theorem Slot.ws_frame (x : Slot) (d : Reg) (v : Word) : x.ws d v = { x with s := (x.ws d v).s } := by
  unfold Slot.ws; split <;> rfl

/-! ## The fields an update of the state leaves alone -/

@[simp] theorem State.setSlot_cores (s : State) (t : Nat) (x : Slot) : (s.setSlot t x).cores = s.cores := rfl
@[simp] theorem State.setSlot_clusters (s : State) (t : Nat) (x : Slot) : (s.setSlot t x).clusters = s.clusters := rfl
@[simp] theorem State.setSlot_procs (s : State) (t : Nat) (x : Slot) : (s.setSlot t x).procs = s.procs := rfl
@[simp] theorem State.setSlot_mem (s : State) (t : Nat) (x : Slot) : (s.setSlot t x).mem = s.mem := rfl
@[simp] theorem State.setSlot_poisoned (s : State) (t : Nat) (x : Slot) : (s.setSlot t x).poisoned = s.poisoned := rfl
@[simp] theorem State.setSlot_regions (s : State) (t : Nat) (x : Slot) : (s.setSlot t x).regions = s.regions := rfl
@[simp] theorem State.setSlot_net (s : State) (t : Nat) (x : Slot) : (s.setSlot t x).net = s.net := rfl
@[simp] theorem State.setSlot_qmsgs (s : State) (t : Nat) (x : Slot) : (s.setSlot t x).qmsgs = s.qmsgs := rfl
@[simp] theorem State.setSlot_mcasts (s : State) (t : Nat) (x : Slot) : (s.setSlot t x).mcasts = s.mcasts := rfl
@[simp] theorem State.setSlot_hdmBase (s : State) (t : Nat) (x : Slot) : (s.setSlot t x).hdmBase = s.hdmBase := rfl
@[simp] theorem State.setSlot_hdmSize (s : State) (t : Nat) (x : Slot) : (s.setSlot t x).hdmSize = s.hdmSize := rfl
@[simp] theorem State.setSlot_biasTab (s : State) (t : Nat) (x : Slot) : (s.setSlot t x).biasTab = s.biasTab := rfl
@[simp] theorem State.setSlot_hostOps (s : State) (t : Nat) (x : Slot) : (s.setSlot t x).hostOps = s.hostOps := rfl
@[simp] theorem State.setSlot_takes (s : State) (t : Nat) (x : Slot) : (s.setSlot t x).takes = s.takes := rfl
@[simp] theorem State.setSlot_hostOut (s : State) (t : Nat) (x : Slot) : (s.setSlot t x).hostOut = s.hostOut := rfl
@[simp] theorem State.setSlot_posted (s : State) (t : Nat) (x : Slot) : (s.setSlot t x).posted = s.posted := rfl
@[simp] theorem State.setSlot_mailboxes (s : State) (t : Nat) (x : Slot) : (s.setSlot t x).mailboxes = s.mailboxes := rfl
@[simp] theorem State.setSlot_served (s : State) (t : Nat) (x : Slot) : (s.setSlot t x).served = s.served := rfl
@[simp] theorem State.setSlot_pfRing (s : State) (t : Nat) (x : Slot) : (s.setSlot t x).pfRing = s.pfRing := rfl
@[simp] theorem State.setSlot_ringPos (s : State) (t : Nat) (x : Slot) : (s.setSlot t x).ringPos = s.ringPos := rfl
@[simp] theorem State.setSlot_parts (s : State) (t : Nat) (x : Slot) : (s.setSlot t x).parts = s.parts := rfl
@[simp] theorem State.setSlot_devNum (s : State) (t : Nat) (x : Slot) : (s.setSlot t x).devNum = s.devNum := rfl
@[simp] theorem State.setSlot_routes (s : State) (t : Nat) (x : Slot) : (s.setSlot t x).routes = s.routes := rfl
@[simp] theorem State.setSlot_ranks (s : State) (t : Nat) (x : Slot) : (s.setSlot t x).ranks = s.ranks := rfl
@[simp] theorem State.setSlot_nextSeq (s : State) (t : Nat) (x : Slot) : (s.setSlot t x).nextSeq = s.nextSeq := rfl
@[simp] theorem State.setSlot_remOps (s : State) (t : Nat) (x : Slot) : (s.setSlot t x).remOps = s.remOps := rfl
@[simp] theorem State.setSlot_windows (s : State) (t : Nat) (x : Slot) : (s.setSlot t x).windows = s.windows := rfl
@[simp] theorem State.setSlot_packets (s : State) (t : Nat) (x : Slot) : (s.setSlot t x).packets = s.packets := rfl
@[simp] theorem State.setSlot_atTarget (s : State) (t : Nat) (x : Slot) : (s.setSlot t x).atTarget = s.atTarget := rfl
@[simp] theorem State.setSlot_sent (s : State) (t : Nat) (x : Slot) : (s.setSlot t x).sent = s.sent := rfl
@[simp] theorem State.setSlot_reserved (s : State) (t : Nat) (x : Slot) : (s.setSlot t x).reserved = s.reserved := rfl
@[simp] theorem State.setSlot_frames (s : State) (t : Nat) (x : Slot) : (s.setSlot t x).frames = s.frames := rfl
@[simp] theorem State.setSlot_boot (s : State) (t : Nat) (x : Slot) : (s.setSlot t x).boot = s.boot := rfl
@[simp] theorem State.setSlot_attest (s : State) (t : Nat) (x : Slot) : (s.setSlot t x).attest = s.attest := rfl
@[simp] theorem State.setSlot_tele (s : State) (t : Nat) (x : Slot) : (s.setSlot t x).tele = s.tele := rfl
@[simp] theorem State.setSlot_halted (s : State) (t : Nat) (x : Slot) : (s.setSlot t x).halted = s.halted := rfl
@[simp] theorem State.setSlot_shares (s : State) (t : Nat) (x : Slot) : (s.setSlot t x).shares = s.shares := rfl
@[simp] theorem State.setSlot_transit (s : State) (t : Nat) (x : Slot) : (s.setSlot t x).transit = s.transit := rfl
@[simp] theorem State.setSlot_barMsgs (s : State) (t : Nat) (x : Slot) : (s.setSlot t x).barMsgs = s.barMsgs := rfl
@[simp] theorem State.setSlot_images (s : State) (t : Nat) (x : Slot) : (s.setSlot t x).images = s.images := rfl
@[simp] theorem State.setSlot_deferred (s : State) (t : Nat) (x : Slot) : (s.setSlot t x).deferred = s.deferred := rfl
@[simp] theorem State.setSlot_heldAt (s : State) (t : Nat) (x : Slot) : (s.setSlot t x).heldAt = s.heldAt := rfl
@[simp] theorem State.setSlot_cur (s : State) (t : Nat) (x : Slot) : (s.setSlot t x).cur = s.cur := rfl
@[simp] theorem State.setSlot_inputs (s : State) (t : Nat) (x : Slot) : (s.setSlot t x).inputs = s.inputs := rfl
@[simp] theorem State.setSlot_free (s : State) (t : Nat) (x : Slot) : (s.setSlot t x).free = s.free := rfl
@[simp] theorem State.setSlot_time (s : State) (t : Nat) (x : Slot) : (s.setSlot t x).time = s.time := rfl

@[simp] theorem State.setCore_slots (s : State) (c : Nat) (x : Core) : (s.setCore c x).slots = s.slots := rfl
@[simp] theorem State.setCore_clusters (s : State) (c : Nat) (x : Core) : (s.setCore c x).clusters = s.clusters := rfl
@[simp] theorem State.setCore_procs (s : State) (c : Nat) (x : Core) : (s.setCore c x).procs = s.procs := rfl
@[simp] theorem State.setCore_mem (s : State) (c : Nat) (x : Core) : (s.setCore c x).mem = s.mem := rfl
@[simp] theorem State.setCore_poisoned (s : State) (c : Nat) (x : Core) : (s.setCore c x).poisoned = s.poisoned := rfl
@[simp] theorem State.setCore_regions (s : State) (c : Nat) (x : Core) : (s.setCore c x).regions = s.regions := rfl
@[simp] theorem State.setCore_net (s : State) (c : Nat) (x : Core) : (s.setCore c x).net = s.net := rfl
@[simp] theorem State.setCore_qmsgs (s : State) (c : Nat) (x : Core) : (s.setCore c x).qmsgs = s.qmsgs := rfl
@[simp] theorem State.setCore_mcasts (s : State) (c : Nat) (x : Core) : (s.setCore c x).mcasts = s.mcasts := rfl
@[simp] theorem State.setCore_hdmBase (s : State) (c : Nat) (x : Core) : (s.setCore c x).hdmBase = s.hdmBase := rfl
@[simp] theorem State.setCore_hdmSize (s : State) (c : Nat) (x : Core) : (s.setCore c x).hdmSize = s.hdmSize := rfl
@[simp] theorem State.setCore_biasTab (s : State) (c : Nat) (x : Core) : (s.setCore c x).biasTab = s.biasTab := rfl
@[simp] theorem State.setCore_hostOps (s : State) (c : Nat) (x : Core) : (s.setCore c x).hostOps = s.hostOps := rfl
@[simp] theorem State.setCore_takes (s : State) (c : Nat) (x : Core) : (s.setCore c x).takes = s.takes := rfl
@[simp] theorem State.setCore_hostOut (s : State) (c : Nat) (x : Core) : (s.setCore c x).hostOut = s.hostOut := rfl
@[simp] theorem State.setCore_posted (s : State) (c : Nat) (x : Core) : (s.setCore c x).posted = s.posted := rfl
@[simp] theorem State.setCore_mailboxes (s : State) (c : Nat) (x : Core) : (s.setCore c x).mailboxes = s.mailboxes := rfl
@[simp] theorem State.setCore_served (s : State) (c : Nat) (x : Core) : (s.setCore c x).served = s.served := rfl
@[simp] theorem State.setCore_pfRing (s : State) (c : Nat) (x : Core) : (s.setCore c x).pfRing = s.pfRing := rfl
@[simp] theorem State.setCore_ringPos (s : State) (c : Nat) (x : Core) : (s.setCore c x).ringPos = s.ringPos := rfl
@[simp] theorem State.setCore_parts (s : State) (c : Nat) (x : Core) : (s.setCore c x).parts = s.parts := rfl
@[simp] theorem State.setCore_devNum (s : State) (c : Nat) (x : Core) : (s.setCore c x).devNum = s.devNum := rfl
@[simp] theorem State.setCore_routes (s : State) (c : Nat) (x : Core) : (s.setCore c x).routes = s.routes := rfl
@[simp] theorem State.setCore_ranks (s : State) (c : Nat) (x : Core) : (s.setCore c x).ranks = s.ranks := rfl
@[simp] theorem State.setCore_nextSeq (s : State) (c : Nat) (x : Core) : (s.setCore c x).nextSeq = s.nextSeq := rfl
@[simp] theorem State.setCore_remOps (s : State) (c : Nat) (x : Core) : (s.setCore c x).remOps = s.remOps := rfl
@[simp] theorem State.setCore_windows (s : State) (c : Nat) (x : Core) : (s.setCore c x).windows = s.windows := rfl
@[simp] theorem State.setCore_packets (s : State) (c : Nat) (x : Core) : (s.setCore c x).packets = s.packets := rfl
@[simp] theorem State.setCore_atTarget (s : State) (c : Nat) (x : Core) : (s.setCore c x).atTarget = s.atTarget := rfl
@[simp] theorem State.setCore_sent (s : State) (c : Nat) (x : Core) : (s.setCore c x).sent = s.sent := rfl
@[simp] theorem State.setCore_reserved (s : State) (c : Nat) (x : Core) : (s.setCore c x).reserved = s.reserved := rfl
@[simp] theorem State.setCore_frames (s : State) (c : Nat) (x : Core) : (s.setCore c x).frames = s.frames := rfl
@[simp] theorem State.setCore_boot (s : State) (c : Nat) (x : Core) : (s.setCore c x).boot = s.boot := rfl
@[simp] theorem State.setCore_attest (s : State) (c : Nat) (x : Core) : (s.setCore c x).attest = s.attest := rfl
@[simp] theorem State.setCore_tele (s : State) (c : Nat) (x : Core) : (s.setCore c x).tele = s.tele := rfl
@[simp] theorem State.setCore_halted (s : State) (c : Nat) (x : Core) : (s.setCore c x).halted = s.halted := rfl
@[simp] theorem State.setCore_shares (s : State) (c : Nat) (x : Core) : (s.setCore c x).shares = s.shares := rfl
@[simp] theorem State.setCore_transit (s : State) (c : Nat) (x : Core) : (s.setCore c x).transit = s.transit := rfl
@[simp] theorem State.setCore_barMsgs (s : State) (c : Nat) (x : Core) : (s.setCore c x).barMsgs = s.barMsgs := rfl
@[simp] theorem State.setCore_images (s : State) (c : Nat) (x : Core) : (s.setCore c x).images = s.images := rfl
@[simp] theorem State.setCore_deferred (s : State) (c : Nat) (x : Core) : (s.setCore c x).deferred = s.deferred := rfl
@[simp] theorem State.setCore_heldAt (s : State) (c : Nat) (x : Core) : (s.setCore c x).heldAt = s.heldAt := rfl
@[simp] theorem State.setCore_cur (s : State) (c : Nat) (x : Core) : (s.setCore c x).cur = s.cur := rfl
@[simp] theorem State.setCore_inputs (s : State) (c : Nat) (x : Core) : (s.setCore c x).inputs = s.inputs := rfl
@[simp] theorem State.setCore_free (s : State) (c : Nat) (x : Core) : (s.setCore c x).free = s.free := rfl
@[simp] theorem State.setCore_time (s : State) (c : Nat) (x : Core) : (s.setCore c x).time = s.time := rfl

@[simp] theorem State.updCluster_slots (s : State) (k : Nat) (f : Cluster → Cluster) : (s.updCluster k f).slots = s.slots := rfl
@[simp] theorem State.updCluster_cores (s : State) (k : Nat) (f : Cluster → Cluster) : (s.updCluster k f).cores = s.cores := rfl
@[simp] theorem State.updCluster_procs (s : State) (k : Nat) (f : Cluster → Cluster) : (s.updCluster k f).procs = s.procs := rfl
@[simp] theorem State.updCluster_mem (s : State) (k : Nat) (f : Cluster → Cluster) : (s.updCluster k f).mem = s.mem := rfl
@[simp] theorem State.updCluster_poisoned (s : State) (k : Nat) (f : Cluster → Cluster) : (s.updCluster k f).poisoned = s.poisoned := rfl
@[simp] theorem State.updCluster_regions (s : State) (k : Nat) (f : Cluster → Cluster) : (s.updCluster k f).regions = s.regions := rfl
@[simp] theorem State.updCluster_net (s : State) (k : Nat) (f : Cluster → Cluster) : (s.updCluster k f).net = s.net := rfl
@[simp] theorem State.updCluster_qmsgs (s : State) (k : Nat) (f : Cluster → Cluster) : (s.updCluster k f).qmsgs = s.qmsgs := rfl
@[simp] theorem State.updCluster_mcasts (s : State) (k : Nat) (f : Cluster → Cluster) : (s.updCluster k f).mcasts = s.mcasts := rfl
@[simp] theorem State.updCluster_hdmBase (s : State) (k : Nat) (f : Cluster → Cluster) : (s.updCluster k f).hdmBase = s.hdmBase := rfl
@[simp] theorem State.updCluster_hdmSize (s : State) (k : Nat) (f : Cluster → Cluster) : (s.updCluster k f).hdmSize = s.hdmSize := rfl
@[simp] theorem State.updCluster_biasTab (s : State) (k : Nat) (f : Cluster → Cluster) : (s.updCluster k f).biasTab = s.biasTab := rfl
@[simp] theorem State.updCluster_hostOps (s : State) (k : Nat) (f : Cluster → Cluster) : (s.updCluster k f).hostOps = s.hostOps := rfl
@[simp] theorem State.updCluster_takes (s : State) (k : Nat) (f : Cluster → Cluster) : (s.updCluster k f).takes = s.takes := rfl
@[simp] theorem State.updCluster_hostOut (s : State) (k : Nat) (f : Cluster → Cluster) : (s.updCluster k f).hostOut = s.hostOut := rfl
@[simp] theorem State.updCluster_posted (s : State) (k : Nat) (f : Cluster → Cluster) : (s.updCluster k f).posted = s.posted := rfl
@[simp] theorem State.updCluster_mailboxes (s : State) (k : Nat) (f : Cluster → Cluster) : (s.updCluster k f).mailboxes = s.mailboxes := rfl
@[simp] theorem State.updCluster_served (s : State) (k : Nat) (f : Cluster → Cluster) : (s.updCluster k f).served = s.served := rfl
@[simp] theorem State.updCluster_pfRing (s : State) (k : Nat) (f : Cluster → Cluster) : (s.updCluster k f).pfRing = s.pfRing := rfl
@[simp] theorem State.updCluster_ringPos (s : State) (k : Nat) (f : Cluster → Cluster) : (s.updCluster k f).ringPos = s.ringPos := rfl
@[simp] theorem State.updCluster_parts (s : State) (k : Nat) (f : Cluster → Cluster) : (s.updCluster k f).parts = s.parts := rfl
@[simp] theorem State.updCluster_devNum (s : State) (k : Nat) (f : Cluster → Cluster) : (s.updCluster k f).devNum = s.devNum := rfl
@[simp] theorem State.updCluster_routes (s : State) (k : Nat) (f : Cluster → Cluster) : (s.updCluster k f).routes = s.routes := rfl
@[simp] theorem State.updCluster_ranks (s : State) (k : Nat) (f : Cluster → Cluster) : (s.updCluster k f).ranks = s.ranks := rfl
@[simp] theorem State.updCluster_nextSeq (s : State) (k : Nat) (f : Cluster → Cluster) : (s.updCluster k f).nextSeq = s.nextSeq := rfl
@[simp] theorem State.updCluster_remOps (s : State) (k : Nat) (f : Cluster → Cluster) : (s.updCluster k f).remOps = s.remOps := rfl
@[simp] theorem State.updCluster_windows (s : State) (k : Nat) (f : Cluster → Cluster) : (s.updCluster k f).windows = s.windows := rfl
@[simp] theorem State.updCluster_packets (s : State) (k : Nat) (f : Cluster → Cluster) : (s.updCluster k f).packets = s.packets := rfl
@[simp] theorem State.updCluster_atTarget (s : State) (k : Nat) (f : Cluster → Cluster) : (s.updCluster k f).atTarget = s.atTarget := rfl
@[simp] theorem State.updCluster_sent (s : State) (k : Nat) (f : Cluster → Cluster) : (s.updCluster k f).sent = s.sent := rfl
@[simp] theorem State.updCluster_reserved (s : State) (k : Nat) (f : Cluster → Cluster) : (s.updCluster k f).reserved = s.reserved := rfl
@[simp] theorem State.updCluster_frames (s : State) (k : Nat) (f : Cluster → Cluster) : (s.updCluster k f).frames = s.frames := rfl
@[simp] theorem State.updCluster_boot (s : State) (k : Nat) (f : Cluster → Cluster) : (s.updCluster k f).boot = s.boot := rfl
@[simp] theorem State.updCluster_attest (s : State) (k : Nat) (f : Cluster → Cluster) : (s.updCluster k f).attest = s.attest := rfl
@[simp] theorem State.updCluster_tele (s : State) (k : Nat) (f : Cluster → Cluster) : (s.updCluster k f).tele = s.tele := rfl
@[simp] theorem State.updCluster_halted (s : State) (k : Nat) (f : Cluster → Cluster) : (s.updCluster k f).halted = s.halted := rfl
@[simp] theorem State.updCluster_shares (s : State) (k : Nat) (f : Cluster → Cluster) : (s.updCluster k f).shares = s.shares := rfl
@[simp] theorem State.updCluster_transit (s : State) (k : Nat) (f : Cluster → Cluster) : (s.updCluster k f).transit = s.transit := rfl
@[simp] theorem State.updCluster_barMsgs (s : State) (k : Nat) (f : Cluster → Cluster) : (s.updCluster k f).barMsgs = s.barMsgs := rfl
@[simp] theorem State.updCluster_images (s : State) (k : Nat) (f : Cluster → Cluster) : (s.updCluster k f).images = s.images := rfl
@[simp] theorem State.updCluster_deferred (s : State) (k : Nat) (f : Cluster → Cluster) : (s.updCluster k f).deferred = s.deferred := rfl
@[simp] theorem State.updCluster_heldAt (s : State) (k : Nat) (f : Cluster → Cluster) : (s.updCluster k f).heldAt = s.heldAt := rfl
@[simp] theorem State.updCluster_cur (s : State) (k : Nat) (f : Cluster → Cluster) : (s.updCluster k f).cur = s.cur := rfl
@[simp] theorem State.updCluster_inputs (s : State) (k : Nat) (f : Cluster → Cluster) : (s.updCluster k f).inputs = s.inputs := rfl
@[simp] theorem State.updCluster_free (s : State) (k : Nat) (f : Cluster → Cluster) : (s.updCluster k f).free = s.free := rfl
@[simp] theorem State.updCluster_time (s : State) (k : Nat) (f : Cluster → Cluster) : (s.updCluster k f).time = s.time := rfl

@[simp] theorem State.updProc_slots (s : State) (p : Nat) (f : Proc → Proc) : (s.updProc p f).slots = s.slots := rfl
@[simp] theorem State.updProc_cores (s : State) (p : Nat) (f : Proc → Proc) : (s.updProc p f).cores = s.cores := rfl
@[simp] theorem State.updProc_clusters (s : State) (p : Nat) (f : Proc → Proc) : (s.updProc p f).clusters = s.clusters := rfl
@[simp] theorem State.updProc_mem (s : State) (p : Nat) (f : Proc → Proc) : (s.updProc p f).mem = s.mem := rfl
@[simp] theorem State.updProc_poisoned (s : State) (p : Nat) (f : Proc → Proc) : (s.updProc p f).poisoned = s.poisoned := rfl
@[simp] theorem State.updProc_regions (s : State) (p : Nat) (f : Proc → Proc) : (s.updProc p f).regions = s.regions := rfl
@[simp] theorem State.updProc_net (s : State) (p : Nat) (f : Proc → Proc) : (s.updProc p f).net = s.net := rfl
@[simp] theorem State.updProc_qmsgs (s : State) (p : Nat) (f : Proc → Proc) : (s.updProc p f).qmsgs = s.qmsgs := rfl
@[simp] theorem State.updProc_mcasts (s : State) (p : Nat) (f : Proc → Proc) : (s.updProc p f).mcasts = s.mcasts := rfl
@[simp] theorem State.updProc_hdmBase (s : State) (p : Nat) (f : Proc → Proc) : (s.updProc p f).hdmBase = s.hdmBase := rfl
@[simp] theorem State.updProc_hdmSize (s : State) (p : Nat) (f : Proc → Proc) : (s.updProc p f).hdmSize = s.hdmSize := rfl
@[simp] theorem State.updProc_biasTab (s : State) (p : Nat) (f : Proc → Proc) : (s.updProc p f).biasTab = s.biasTab := rfl
@[simp] theorem State.updProc_hostOps (s : State) (p : Nat) (f : Proc → Proc) : (s.updProc p f).hostOps = s.hostOps := rfl
@[simp] theorem State.updProc_takes (s : State) (p : Nat) (f : Proc → Proc) : (s.updProc p f).takes = s.takes := rfl
@[simp] theorem State.updProc_hostOut (s : State) (p : Nat) (f : Proc → Proc) : (s.updProc p f).hostOut = s.hostOut := rfl
@[simp] theorem State.updProc_posted (s : State) (p : Nat) (f : Proc → Proc) : (s.updProc p f).posted = s.posted := rfl
@[simp] theorem State.updProc_mailboxes (s : State) (p : Nat) (f : Proc → Proc) : (s.updProc p f).mailboxes = s.mailboxes := rfl
@[simp] theorem State.updProc_served (s : State) (p : Nat) (f : Proc → Proc) : (s.updProc p f).served = s.served := rfl
@[simp] theorem State.updProc_pfRing (s : State) (p : Nat) (f : Proc → Proc) : (s.updProc p f).pfRing = s.pfRing := rfl
@[simp] theorem State.updProc_ringPos (s : State) (p : Nat) (f : Proc → Proc) : (s.updProc p f).ringPos = s.ringPos := rfl
@[simp] theorem State.updProc_parts (s : State) (p : Nat) (f : Proc → Proc) : (s.updProc p f).parts = s.parts := rfl
@[simp] theorem State.updProc_devNum (s : State) (p : Nat) (f : Proc → Proc) : (s.updProc p f).devNum = s.devNum := rfl
@[simp] theorem State.updProc_routes (s : State) (p : Nat) (f : Proc → Proc) : (s.updProc p f).routes = s.routes := rfl
@[simp] theorem State.updProc_ranks (s : State) (p : Nat) (f : Proc → Proc) : (s.updProc p f).ranks = s.ranks := rfl
@[simp] theorem State.updProc_nextSeq (s : State) (p : Nat) (f : Proc → Proc) : (s.updProc p f).nextSeq = s.nextSeq := rfl
@[simp] theorem State.updProc_remOps (s : State) (p : Nat) (f : Proc → Proc) : (s.updProc p f).remOps = s.remOps := rfl
@[simp] theorem State.updProc_windows (s : State) (p : Nat) (f : Proc → Proc) : (s.updProc p f).windows = s.windows := rfl
@[simp] theorem State.updProc_packets (s : State) (p : Nat) (f : Proc → Proc) : (s.updProc p f).packets = s.packets := rfl
@[simp] theorem State.updProc_atTarget (s : State) (p : Nat) (f : Proc → Proc) : (s.updProc p f).atTarget = s.atTarget := rfl
@[simp] theorem State.updProc_sent (s : State) (p : Nat) (f : Proc → Proc) : (s.updProc p f).sent = s.sent := rfl
@[simp] theorem State.updProc_reserved (s : State) (p : Nat) (f : Proc → Proc) : (s.updProc p f).reserved = s.reserved := rfl
@[simp] theorem State.updProc_frames (s : State) (p : Nat) (f : Proc → Proc) : (s.updProc p f).frames = s.frames := rfl
@[simp] theorem State.updProc_boot (s : State) (p : Nat) (f : Proc → Proc) : (s.updProc p f).boot = s.boot := rfl
@[simp] theorem State.updProc_attest (s : State) (p : Nat) (f : Proc → Proc) : (s.updProc p f).attest = s.attest := rfl
@[simp] theorem State.updProc_tele (s : State) (p : Nat) (f : Proc → Proc) : (s.updProc p f).tele = s.tele := rfl
@[simp] theorem State.updProc_halted (s : State) (p : Nat) (f : Proc → Proc) : (s.updProc p f).halted = s.halted := rfl
@[simp] theorem State.updProc_shares (s : State) (p : Nat) (f : Proc → Proc) : (s.updProc p f).shares = s.shares := rfl
@[simp] theorem State.updProc_transit (s : State) (p : Nat) (f : Proc → Proc) : (s.updProc p f).transit = s.transit := rfl
@[simp] theorem State.updProc_barMsgs (s : State) (p : Nat) (f : Proc → Proc) : (s.updProc p f).barMsgs = s.barMsgs := rfl
@[simp] theorem State.updProc_images (s : State) (p : Nat) (f : Proc → Proc) : (s.updProc p f).images = s.images := rfl
@[simp] theorem State.updProc_deferred (s : State) (p : Nat) (f : Proc → Proc) : (s.updProc p f).deferred = s.deferred := rfl
@[simp] theorem State.updProc_heldAt (s : State) (p : Nat) (f : Proc → Proc) : (s.updProc p f).heldAt = s.heldAt := rfl
@[simp] theorem State.updProc_cur (s : State) (p : Nat) (f : Proc → Proc) : (s.updProc p f).cur = s.cur := rfl
@[simp] theorem State.updProc_inputs (s : State) (p : Nat) (f : Proc → Proc) : (s.updProc p f).inputs = s.inputs := rfl
@[simp] theorem State.updProc_free (s : State) (p : Nat) (f : Proc → Proc) : (s.updProc p f).free = s.free := rfl
@[simp] theorem State.updProc_time (s : State) (p : Nat) (f : Proc → Proc) : (s.updProc p f).time = s.time := rfl

@[simp] theorem State.updPart_slots (s : State) (p : Nat) (f : Part → Part) : (s.updPart p f).slots = s.slots := rfl
@[simp] theorem State.updPart_cores (s : State) (p : Nat) (f : Part → Part) : (s.updPart p f).cores = s.cores := rfl
@[simp] theorem State.updPart_clusters (s : State) (p : Nat) (f : Part → Part) : (s.updPart p f).clusters = s.clusters := rfl
@[simp] theorem State.updPart_procs (s : State) (p : Nat) (f : Part → Part) : (s.updPart p f).procs = s.procs := rfl
@[simp] theorem State.updPart_mem (s : State) (p : Nat) (f : Part → Part) : (s.updPart p f).mem = s.mem := rfl
@[simp] theorem State.updPart_poisoned (s : State) (p : Nat) (f : Part → Part) : (s.updPart p f).poisoned = s.poisoned := rfl
@[simp] theorem State.updPart_regions (s : State) (p : Nat) (f : Part → Part) : (s.updPart p f).regions = s.regions := rfl
@[simp] theorem State.updPart_net (s : State) (p : Nat) (f : Part → Part) : (s.updPart p f).net = s.net := rfl
@[simp] theorem State.updPart_qmsgs (s : State) (p : Nat) (f : Part → Part) : (s.updPart p f).qmsgs = s.qmsgs := rfl
@[simp] theorem State.updPart_mcasts (s : State) (p : Nat) (f : Part → Part) : (s.updPart p f).mcasts = s.mcasts := rfl
@[simp] theorem State.updPart_hdmBase (s : State) (p : Nat) (f : Part → Part) : (s.updPart p f).hdmBase = s.hdmBase := rfl
@[simp] theorem State.updPart_hdmSize (s : State) (p : Nat) (f : Part → Part) : (s.updPart p f).hdmSize = s.hdmSize := rfl
@[simp] theorem State.updPart_biasTab (s : State) (p : Nat) (f : Part → Part) : (s.updPart p f).biasTab = s.biasTab := rfl
@[simp] theorem State.updPart_hostOps (s : State) (p : Nat) (f : Part → Part) : (s.updPart p f).hostOps = s.hostOps := rfl
@[simp] theorem State.updPart_takes (s : State) (p : Nat) (f : Part → Part) : (s.updPart p f).takes = s.takes := rfl
@[simp] theorem State.updPart_hostOut (s : State) (p : Nat) (f : Part → Part) : (s.updPart p f).hostOut = s.hostOut := rfl
@[simp] theorem State.updPart_posted (s : State) (p : Nat) (f : Part → Part) : (s.updPart p f).posted = s.posted := rfl
@[simp] theorem State.updPart_mailboxes (s : State) (p : Nat) (f : Part → Part) : (s.updPart p f).mailboxes = s.mailboxes := rfl
@[simp] theorem State.updPart_served (s : State) (p : Nat) (f : Part → Part) : (s.updPart p f).served = s.served := rfl
@[simp] theorem State.updPart_pfRing (s : State) (p : Nat) (f : Part → Part) : (s.updPart p f).pfRing = s.pfRing := rfl
@[simp] theorem State.updPart_ringPos (s : State) (p : Nat) (f : Part → Part) : (s.updPart p f).ringPos = s.ringPos := rfl
@[simp] theorem State.updPart_devNum (s : State) (p : Nat) (f : Part → Part) : (s.updPart p f).devNum = s.devNum := rfl
@[simp] theorem State.updPart_routes (s : State) (p : Nat) (f : Part → Part) : (s.updPart p f).routes = s.routes := rfl
@[simp] theorem State.updPart_ranks (s : State) (p : Nat) (f : Part → Part) : (s.updPart p f).ranks = s.ranks := rfl
@[simp] theorem State.updPart_nextSeq (s : State) (p : Nat) (f : Part → Part) : (s.updPart p f).nextSeq = s.nextSeq := rfl
@[simp] theorem State.updPart_remOps (s : State) (p : Nat) (f : Part → Part) : (s.updPart p f).remOps = s.remOps := rfl
@[simp] theorem State.updPart_windows (s : State) (p : Nat) (f : Part → Part) : (s.updPart p f).windows = s.windows := rfl
@[simp] theorem State.updPart_packets (s : State) (p : Nat) (f : Part → Part) : (s.updPart p f).packets = s.packets := rfl
@[simp] theorem State.updPart_atTarget (s : State) (p : Nat) (f : Part → Part) : (s.updPart p f).atTarget = s.atTarget := rfl
@[simp] theorem State.updPart_sent (s : State) (p : Nat) (f : Part → Part) : (s.updPart p f).sent = s.sent := rfl
@[simp] theorem State.updPart_reserved (s : State) (p : Nat) (f : Part → Part) : (s.updPart p f).reserved = s.reserved := rfl
@[simp] theorem State.updPart_frames (s : State) (p : Nat) (f : Part → Part) : (s.updPart p f).frames = s.frames := rfl
@[simp] theorem State.updPart_boot (s : State) (p : Nat) (f : Part → Part) : (s.updPart p f).boot = s.boot := rfl
@[simp] theorem State.updPart_attest (s : State) (p : Nat) (f : Part → Part) : (s.updPart p f).attest = s.attest := rfl
@[simp] theorem State.updPart_tele (s : State) (p : Nat) (f : Part → Part) : (s.updPart p f).tele = s.tele := rfl
@[simp] theorem State.updPart_halted (s : State) (p : Nat) (f : Part → Part) : (s.updPart p f).halted = s.halted := rfl
@[simp] theorem State.updPart_shares (s : State) (p : Nat) (f : Part → Part) : (s.updPart p f).shares = s.shares := rfl
@[simp] theorem State.updPart_transit (s : State) (p : Nat) (f : Part → Part) : (s.updPart p f).transit = s.transit := rfl
@[simp] theorem State.updPart_barMsgs (s : State) (p : Nat) (f : Part → Part) : (s.updPart p f).barMsgs = s.barMsgs := rfl
@[simp] theorem State.updPart_images (s : State) (p : Nat) (f : Part → Part) : (s.updPart p f).images = s.images := rfl
@[simp] theorem State.updPart_deferred (s : State) (p : Nat) (f : Part → Part) : (s.updPart p f).deferred = s.deferred := rfl
@[simp] theorem State.updPart_heldAt (s : State) (p : Nat) (f : Part → Part) : (s.updPart p f).heldAt = s.heldAt := rfl
@[simp] theorem State.updPart_cur (s : State) (p : Nat) (f : Part → Part) : (s.updPart p f).cur = s.cur := rfl
@[simp] theorem State.updPart_inputs (s : State) (p : Nat) (f : Part → Part) : (s.updPart p f).inputs = s.inputs := rfl
@[simp] theorem State.updPart_free (s : State) (p : Nat) (f : Part → Part) : (s.updPart p f).free = s.free := rfl
@[simp] theorem State.updPart_time (s : State) (p : Nat) (f : Part → Part) : (s.updPart p f).time = s.time := rfl

@[simp] theorem State.updMailbox_slots (s : State) (m : Nat) (f : Mailbox → Mailbox) : (s.updMailbox m f).slots = s.slots := rfl
@[simp] theorem State.updMailbox_cores (s : State) (m : Nat) (f : Mailbox → Mailbox) : (s.updMailbox m f).cores = s.cores := rfl
@[simp] theorem State.updMailbox_clusters (s : State) (m : Nat) (f : Mailbox → Mailbox) : (s.updMailbox m f).clusters = s.clusters := rfl
@[simp] theorem State.updMailbox_procs (s : State) (m : Nat) (f : Mailbox → Mailbox) : (s.updMailbox m f).procs = s.procs := rfl
@[simp] theorem State.updMailbox_mem (s : State) (m : Nat) (f : Mailbox → Mailbox) : (s.updMailbox m f).mem = s.mem := rfl
@[simp] theorem State.updMailbox_poisoned (s : State) (m : Nat) (f : Mailbox → Mailbox) : (s.updMailbox m f).poisoned = s.poisoned := rfl
@[simp] theorem State.updMailbox_regions (s : State) (m : Nat) (f : Mailbox → Mailbox) : (s.updMailbox m f).regions = s.regions := rfl
@[simp] theorem State.updMailbox_net (s : State) (m : Nat) (f : Mailbox → Mailbox) : (s.updMailbox m f).net = s.net := rfl
@[simp] theorem State.updMailbox_qmsgs (s : State) (m : Nat) (f : Mailbox → Mailbox) : (s.updMailbox m f).qmsgs = s.qmsgs := rfl
@[simp] theorem State.updMailbox_mcasts (s : State) (m : Nat) (f : Mailbox → Mailbox) : (s.updMailbox m f).mcasts = s.mcasts := rfl
@[simp] theorem State.updMailbox_hdmBase (s : State) (m : Nat) (f : Mailbox → Mailbox) : (s.updMailbox m f).hdmBase = s.hdmBase := rfl
@[simp] theorem State.updMailbox_hdmSize (s : State) (m : Nat) (f : Mailbox → Mailbox) : (s.updMailbox m f).hdmSize = s.hdmSize := rfl
@[simp] theorem State.updMailbox_biasTab (s : State) (m : Nat) (f : Mailbox → Mailbox) : (s.updMailbox m f).biasTab = s.biasTab := rfl
@[simp] theorem State.updMailbox_hostOps (s : State) (m : Nat) (f : Mailbox → Mailbox) : (s.updMailbox m f).hostOps = s.hostOps := rfl
@[simp] theorem State.updMailbox_takes (s : State) (m : Nat) (f : Mailbox → Mailbox) : (s.updMailbox m f).takes = s.takes := rfl
@[simp] theorem State.updMailbox_hostOut (s : State) (m : Nat) (f : Mailbox → Mailbox) : (s.updMailbox m f).hostOut = s.hostOut := rfl
@[simp] theorem State.updMailbox_posted (s : State) (m : Nat) (f : Mailbox → Mailbox) : (s.updMailbox m f).posted = s.posted := rfl
@[simp] theorem State.updMailbox_served (s : State) (m : Nat) (f : Mailbox → Mailbox) : (s.updMailbox m f).served = s.served := rfl
@[simp] theorem State.updMailbox_pfRing (s : State) (m : Nat) (f : Mailbox → Mailbox) : (s.updMailbox m f).pfRing = s.pfRing := rfl
@[simp] theorem State.updMailbox_ringPos (s : State) (m : Nat) (f : Mailbox → Mailbox) : (s.updMailbox m f).ringPos = s.ringPos := rfl
@[simp] theorem State.updMailbox_parts (s : State) (m : Nat) (f : Mailbox → Mailbox) : (s.updMailbox m f).parts = s.parts := rfl
@[simp] theorem State.updMailbox_devNum (s : State) (m : Nat) (f : Mailbox → Mailbox) : (s.updMailbox m f).devNum = s.devNum := rfl
@[simp] theorem State.updMailbox_routes (s : State) (m : Nat) (f : Mailbox → Mailbox) : (s.updMailbox m f).routes = s.routes := rfl
@[simp] theorem State.updMailbox_ranks (s : State) (m : Nat) (f : Mailbox → Mailbox) : (s.updMailbox m f).ranks = s.ranks := rfl
@[simp] theorem State.updMailbox_nextSeq (s : State) (m : Nat) (f : Mailbox → Mailbox) : (s.updMailbox m f).nextSeq = s.nextSeq := rfl
@[simp] theorem State.updMailbox_remOps (s : State) (m : Nat) (f : Mailbox → Mailbox) : (s.updMailbox m f).remOps = s.remOps := rfl
@[simp] theorem State.updMailbox_windows (s : State) (m : Nat) (f : Mailbox → Mailbox) : (s.updMailbox m f).windows = s.windows := rfl
@[simp] theorem State.updMailbox_packets (s : State) (m : Nat) (f : Mailbox → Mailbox) : (s.updMailbox m f).packets = s.packets := rfl
@[simp] theorem State.updMailbox_atTarget (s : State) (m : Nat) (f : Mailbox → Mailbox) : (s.updMailbox m f).atTarget = s.atTarget := rfl
@[simp] theorem State.updMailbox_sent (s : State) (m : Nat) (f : Mailbox → Mailbox) : (s.updMailbox m f).sent = s.sent := rfl
@[simp] theorem State.updMailbox_reserved (s : State) (m : Nat) (f : Mailbox → Mailbox) : (s.updMailbox m f).reserved = s.reserved := rfl
@[simp] theorem State.updMailbox_frames (s : State) (m : Nat) (f : Mailbox → Mailbox) : (s.updMailbox m f).frames = s.frames := rfl
@[simp] theorem State.updMailbox_boot (s : State) (m : Nat) (f : Mailbox → Mailbox) : (s.updMailbox m f).boot = s.boot := rfl
@[simp] theorem State.updMailbox_attest (s : State) (m : Nat) (f : Mailbox → Mailbox) : (s.updMailbox m f).attest = s.attest := rfl
@[simp] theorem State.updMailbox_tele (s : State) (m : Nat) (f : Mailbox → Mailbox) : (s.updMailbox m f).tele = s.tele := rfl
@[simp] theorem State.updMailbox_halted (s : State) (m : Nat) (f : Mailbox → Mailbox) : (s.updMailbox m f).halted = s.halted := rfl
@[simp] theorem State.updMailbox_shares (s : State) (m : Nat) (f : Mailbox → Mailbox) : (s.updMailbox m f).shares = s.shares := rfl
@[simp] theorem State.updMailbox_transit (s : State) (m : Nat) (f : Mailbox → Mailbox) : (s.updMailbox m f).transit = s.transit := rfl
@[simp] theorem State.updMailbox_barMsgs (s : State) (m : Nat) (f : Mailbox → Mailbox) : (s.updMailbox m f).barMsgs = s.barMsgs := rfl
@[simp] theorem State.updMailbox_images (s : State) (m : Nat) (f : Mailbox → Mailbox) : (s.updMailbox m f).images = s.images := rfl
@[simp] theorem State.updMailbox_deferred (s : State) (m : Nat) (f : Mailbox → Mailbox) : (s.updMailbox m f).deferred = s.deferred := rfl
@[simp] theorem State.updMailbox_heldAt (s : State) (m : Nat) (f : Mailbox → Mailbox) : (s.updMailbox m f).heldAt = s.heldAt := rfl
@[simp] theorem State.updMailbox_cur (s : State) (m : Nat) (f : Mailbox → Mailbox) : (s.updMailbox m f).cur = s.cur := rfl
@[simp] theorem State.updMailbox_inputs (s : State) (m : Nat) (f : Mailbox → Mailbox) : (s.updMailbox m f).inputs = s.inputs := rfl
@[simp] theorem State.updMailbox_free (s : State) (m : Nat) (f : Mailbox → Mailbox) : (s.updMailbox m f).free = s.free := rfl
@[simp] theorem State.updMailbox_time (s : State) (m : Nat) (f : Mailbox → Mailbox) : (s.updMailbox m f).time = s.time := rfl

@[simp] theorem State.updMem_slots (s : State) (f : Memory → Memory) : (s.updMem f).slots = s.slots := rfl
@[simp] theorem State.updMem_cores (s : State) (f : Memory → Memory) : (s.updMem f).cores = s.cores := rfl
@[simp] theorem State.updMem_clusters (s : State) (f : Memory → Memory) : (s.updMem f).clusters = s.clusters := rfl
@[simp] theorem State.updMem_procs (s : State) (f : Memory → Memory) : (s.updMem f).procs = s.procs := rfl
@[simp] theorem State.updMem_poisoned (s : State) (f : Memory → Memory) : (s.updMem f).poisoned = s.poisoned := rfl
@[simp] theorem State.updMem_regions (s : State) (f : Memory → Memory) : (s.updMem f).regions = s.regions := rfl
@[simp] theorem State.updMem_net (s : State) (f : Memory → Memory) : (s.updMem f).net = s.net := rfl
@[simp] theorem State.updMem_qmsgs (s : State) (f : Memory → Memory) : (s.updMem f).qmsgs = s.qmsgs := rfl
@[simp] theorem State.updMem_mcasts (s : State) (f : Memory → Memory) : (s.updMem f).mcasts = s.mcasts := rfl
@[simp] theorem State.updMem_hdmBase (s : State) (f : Memory → Memory) : (s.updMem f).hdmBase = s.hdmBase := rfl
@[simp] theorem State.updMem_hdmSize (s : State) (f : Memory → Memory) : (s.updMem f).hdmSize = s.hdmSize := rfl
@[simp] theorem State.updMem_biasTab (s : State) (f : Memory → Memory) : (s.updMem f).biasTab = s.biasTab := rfl
@[simp] theorem State.updMem_hostOps (s : State) (f : Memory → Memory) : (s.updMem f).hostOps = s.hostOps := rfl
@[simp] theorem State.updMem_takes (s : State) (f : Memory → Memory) : (s.updMem f).takes = s.takes := rfl
@[simp] theorem State.updMem_hostOut (s : State) (f : Memory → Memory) : (s.updMem f).hostOut = s.hostOut := rfl
@[simp] theorem State.updMem_posted (s : State) (f : Memory → Memory) : (s.updMem f).posted = s.posted := rfl
@[simp] theorem State.updMem_mailboxes (s : State) (f : Memory → Memory) : (s.updMem f).mailboxes = s.mailboxes := rfl
@[simp] theorem State.updMem_served (s : State) (f : Memory → Memory) : (s.updMem f).served = s.served := rfl
@[simp] theorem State.updMem_pfRing (s : State) (f : Memory → Memory) : (s.updMem f).pfRing = s.pfRing := rfl
@[simp] theorem State.updMem_ringPos (s : State) (f : Memory → Memory) : (s.updMem f).ringPos = s.ringPos := rfl
@[simp] theorem State.updMem_parts (s : State) (f : Memory → Memory) : (s.updMem f).parts = s.parts := rfl
@[simp] theorem State.updMem_devNum (s : State) (f : Memory → Memory) : (s.updMem f).devNum = s.devNum := rfl
@[simp] theorem State.updMem_routes (s : State) (f : Memory → Memory) : (s.updMem f).routes = s.routes := rfl
@[simp] theorem State.updMem_ranks (s : State) (f : Memory → Memory) : (s.updMem f).ranks = s.ranks := rfl
@[simp] theorem State.updMem_nextSeq (s : State) (f : Memory → Memory) : (s.updMem f).nextSeq = s.nextSeq := rfl
@[simp] theorem State.updMem_remOps (s : State) (f : Memory → Memory) : (s.updMem f).remOps = s.remOps := rfl
@[simp] theorem State.updMem_windows (s : State) (f : Memory → Memory) : (s.updMem f).windows = s.windows := rfl
@[simp] theorem State.updMem_packets (s : State) (f : Memory → Memory) : (s.updMem f).packets = s.packets := rfl
@[simp] theorem State.updMem_atTarget (s : State) (f : Memory → Memory) : (s.updMem f).atTarget = s.atTarget := rfl
@[simp] theorem State.updMem_sent (s : State) (f : Memory → Memory) : (s.updMem f).sent = s.sent := rfl
@[simp] theorem State.updMem_reserved (s : State) (f : Memory → Memory) : (s.updMem f).reserved = s.reserved := rfl
@[simp] theorem State.updMem_frames (s : State) (f : Memory → Memory) : (s.updMem f).frames = s.frames := rfl
@[simp] theorem State.updMem_boot (s : State) (f : Memory → Memory) : (s.updMem f).boot = s.boot := rfl
@[simp] theorem State.updMem_attest (s : State) (f : Memory → Memory) : (s.updMem f).attest = s.attest := rfl
@[simp] theorem State.updMem_tele (s : State) (f : Memory → Memory) : (s.updMem f).tele = s.tele := rfl
@[simp] theorem State.updMem_halted (s : State) (f : Memory → Memory) : (s.updMem f).halted = s.halted := rfl
@[simp] theorem State.updMem_shares (s : State) (f : Memory → Memory) : (s.updMem f).shares = s.shares := rfl
@[simp] theorem State.updMem_transit (s : State) (f : Memory → Memory) : (s.updMem f).transit = s.transit := rfl
@[simp] theorem State.updMem_barMsgs (s : State) (f : Memory → Memory) : (s.updMem f).barMsgs = s.barMsgs := rfl
@[simp] theorem State.updMem_images (s : State) (f : Memory → Memory) : (s.updMem f).images = s.images := rfl
@[simp] theorem State.updMem_deferred (s : State) (f : Memory → Memory) : (s.updMem f).deferred = s.deferred := rfl
@[simp] theorem State.updMem_heldAt (s : State) (f : Memory → Memory) : (s.updMem f).heldAt = s.heldAt := rfl
@[simp] theorem State.updMem_cur (s : State) (f : Memory → Memory) : (s.updMem f).cur = s.cur := rfl
@[simp] theorem State.updMem_inputs (s : State) (f : Memory → Memory) : (s.updMem f).inputs = s.inputs := rfl
@[simp] theorem State.updMem_free (s : State) (f : Memory → Memory) : (s.updMem f).free = s.free := rfl
@[simp] theorem State.updMem_time (s : State) (f : Memory → Memory) : (s.updMem f).time = s.time := rfl

@[simp] theorem State.post_slots (s : State) (m : Msg) : (s.post m).slots = s.slots := rfl
@[simp] theorem State.post_cores (s : State) (m : Msg) : (s.post m).cores = s.cores := rfl
@[simp] theorem State.post_clusters (s : State) (m : Msg) : (s.post m).clusters = s.clusters := rfl
@[simp] theorem State.post_procs (s : State) (m : Msg) : (s.post m).procs = s.procs := rfl
@[simp] theorem State.post_mem (s : State) (m : Msg) : (s.post m).mem = s.mem := rfl
@[simp] theorem State.post_poisoned (s : State) (m : Msg) : (s.post m).poisoned = s.poisoned := rfl
@[simp] theorem State.post_regions (s : State) (m : Msg) : (s.post m).regions = s.regions := rfl
@[simp] theorem State.post_qmsgs (s : State) (m : Msg) : (s.post m).qmsgs = s.qmsgs := rfl
@[simp] theorem State.post_mcasts (s : State) (m : Msg) : (s.post m).mcasts = s.mcasts := rfl
@[simp] theorem State.post_hdmBase (s : State) (m : Msg) : (s.post m).hdmBase = s.hdmBase := rfl
@[simp] theorem State.post_hdmSize (s : State) (m : Msg) : (s.post m).hdmSize = s.hdmSize := rfl
@[simp] theorem State.post_biasTab (s : State) (m : Msg) : (s.post m).biasTab = s.biasTab := rfl
@[simp] theorem State.post_hostOps (s : State) (m : Msg) : (s.post m).hostOps = s.hostOps := rfl
@[simp] theorem State.post_takes (s : State) (m : Msg) : (s.post m).takes = s.takes := rfl
@[simp] theorem State.post_hostOut (s : State) (m : Msg) : (s.post m).hostOut = s.hostOut := rfl
@[simp] theorem State.post_posted (s : State) (m : Msg) : (s.post m).posted = s.posted := rfl
@[simp] theorem State.post_mailboxes (s : State) (m : Msg) : (s.post m).mailboxes = s.mailboxes := rfl
@[simp] theorem State.post_served (s : State) (m : Msg) : (s.post m).served = s.served := rfl
@[simp] theorem State.post_pfRing (s : State) (m : Msg) : (s.post m).pfRing = s.pfRing := rfl
@[simp] theorem State.post_ringPos (s : State) (m : Msg) : (s.post m).ringPos = s.ringPos := rfl
@[simp] theorem State.post_parts (s : State) (m : Msg) : (s.post m).parts = s.parts := rfl
@[simp] theorem State.post_devNum (s : State) (m : Msg) : (s.post m).devNum = s.devNum := rfl
@[simp] theorem State.post_routes (s : State) (m : Msg) : (s.post m).routes = s.routes := rfl
@[simp] theorem State.post_ranks (s : State) (m : Msg) : (s.post m).ranks = s.ranks := rfl
@[simp] theorem State.post_nextSeq (s : State) (m : Msg) : (s.post m).nextSeq = s.nextSeq := rfl
@[simp] theorem State.post_remOps (s : State) (m : Msg) : (s.post m).remOps = s.remOps := rfl
@[simp] theorem State.post_windows (s : State) (m : Msg) : (s.post m).windows = s.windows := rfl
@[simp] theorem State.post_packets (s : State) (m : Msg) : (s.post m).packets = s.packets := rfl
@[simp] theorem State.post_atTarget (s : State) (m : Msg) : (s.post m).atTarget = s.atTarget := rfl
@[simp] theorem State.post_sent (s : State) (m : Msg) : (s.post m).sent = s.sent := rfl
@[simp] theorem State.post_reserved (s : State) (m : Msg) : (s.post m).reserved = s.reserved := rfl
@[simp] theorem State.post_frames (s : State) (m : Msg) : (s.post m).frames = s.frames := rfl
@[simp] theorem State.post_boot (s : State) (m : Msg) : (s.post m).boot = s.boot := rfl
@[simp] theorem State.post_attest (s : State) (m : Msg) : (s.post m).attest = s.attest := rfl
@[simp] theorem State.post_tele (s : State) (m : Msg) : (s.post m).tele = s.tele := rfl
@[simp] theorem State.post_halted (s : State) (m : Msg) : (s.post m).halted = s.halted := rfl
@[simp] theorem State.post_shares (s : State) (m : Msg) : (s.post m).shares = s.shares := rfl
@[simp] theorem State.post_transit (s : State) (m : Msg) : (s.post m).transit = s.transit := rfl
@[simp] theorem State.post_barMsgs (s : State) (m : Msg) : (s.post m).barMsgs = s.barMsgs := rfl
@[simp] theorem State.post_images (s : State) (m : Msg) : (s.post m).images = s.images := rfl
@[simp] theorem State.post_deferred (s : State) (m : Msg) : (s.post m).deferred = s.deferred := rfl
@[simp] theorem State.post_heldAt (s : State) (m : Msg) : (s.post m).heldAt = s.heldAt := rfl
@[simp] theorem State.post_cur (s : State) (m : Msg) : (s.post m).cur = s.cur := rfl
@[simp] theorem State.post_inputs (s : State) (m : Msg) : (s.post m).inputs = s.inputs := rfl
@[simp] theorem State.post_free (s : State) (m : Msg) : (s.post m).free = s.free := rfl
@[simp] theorem State.post_time (s : State) (m : Msg) : (s.post m).time = s.time := rfl

@[simp] theorem State.unpost_slots (s : State) (k : Nat) : (s.unpost k).slots = s.slots := rfl
@[simp] theorem State.unpost_cores (s : State) (k : Nat) : (s.unpost k).cores = s.cores := rfl
@[simp] theorem State.unpost_clusters (s : State) (k : Nat) : (s.unpost k).clusters = s.clusters := rfl
@[simp] theorem State.unpost_procs (s : State) (k : Nat) : (s.unpost k).procs = s.procs := rfl
@[simp] theorem State.unpost_mem (s : State) (k : Nat) : (s.unpost k).mem = s.mem := rfl
@[simp] theorem State.unpost_poisoned (s : State) (k : Nat) : (s.unpost k).poisoned = s.poisoned := rfl
@[simp] theorem State.unpost_regions (s : State) (k : Nat) : (s.unpost k).regions = s.regions := rfl
@[simp] theorem State.unpost_qmsgs (s : State) (k : Nat) : (s.unpost k).qmsgs = s.qmsgs := rfl
@[simp] theorem State.unpost_mcasts (s : State) (k : Nat) : (s.unpost k).mcasts = s.mcasts := rfl
@[simp] theorem State.unpost_hdmBase (s : State) (k : Nat) : (s.unpost k).hdmBase = s.hdmBase := rfl
@[simp] theorem State.unpost_hdmSize (s : State) (k : Nat) : (s.unpost k).hdmSize = s.hdmSize := rfl
@[simp] theorem State.unpost_biasTab (s : State) (k : Nat) : (s.unpost k).biasTab = s.biasTab := rfl
@[simp] theorem State.unpost_hostOps (s : State) (k : Nat) : (s.unpost k).hostOps = s.hostOps := rfl
@[simp] theorem State.unpost_takes (s : State) (k : Nat) : (s.unpost k).takes = s.takes := rfl
@[simp] theorem State.unpost_hostOut (s : State) (k : Nat) : (s.unpost k).hostOut = s.hostOut := rfl
@[simp] theorem State.unpost_posted (s : State) (k : Nat) : (s.unpost k).posted = s.posted := rfl
@[simp] theorem State.unpost_mailboxes (s : State) (k : Nat) : (s.unpost k).mailboxes = s.mailboxes := rfl
@[simp] theorem State.unpost_served (s : State) (k : Nat) : (s.unpost k).served = s.served := rfl
@[simp] theorem State.unpost_pfRing (s : State) (k : Nat) : (s.unpost k).pfRing = s.pfRing := rfl
@[simp] theorem State.unpost_ringPos (s : State) (k : Nat) : (s.unpost k).ringPos = s.ringPos := rfl
@[simp] theorem State.unpost_parts (s : State) (k : Nat) : (s.unpost k).parts = s.parts := rfl
@[simp] theorem State.unpost_devNum (s : State) (k : Nat) : (s.unpost k).devNum = s.devNum := rfl
@[simp] theorem State.unpost_routes (s : State) (k : Nat) : (s.unpost k).routes = s.routes := rfl
@[simp] theorem State.unpost_ranks (s : State) (k : Nat) : (s.unpost k).ranks = s.ranks := rfl
@[simp] theorem State.unpost_nextSeq (s : State) (k : Nat) : (s.unpost k).nextSeq = s.nextSeq := rfl
@[simp] theorem State.unpost_remOps (s : State) (k : Nat) : (s.unpost k).remOps = s.remOps := rfl
@[simp] theorem State.unpost_windows (s : State) (k : Nat) : (s.unpost k).windows = s.windows := rfl
@[simp] theorem State.unpost_packets (s : State) (k : Nat) : (s.unpost k).packets = s.packets := rfl
@[simp] theorem State.unpost_atTarget (s : State) (k : Nat) : (s.unpost k).atTarget = s.atTarget := rfl
@[simp] theorem State.unpost_sent (s : State) (k : Nat) : (s.unpost k).sent = s.sent := rfl
@[simp] theorem State.unpost_reserved (s : State) (k : Nat) : (s.unpost k).reserved = s.reserved := rfl
@[simp] theorem State.unpost_frames (s : State) (k : Nat) : (s.unpost k).frames = s.frames := rfl
@[simp] theorem State.unpost_boot (s : State) (k : Nat) : (s.unpost k).boot = s.boot := rfl
@[simp] theorem State.unpost_attest (s : State) (k : Nat) : (s.unpost k).attest = s.attest := rfl
@[simp] theorem State.unpost_tele (s : State) (k : Nat) : (s.unpost k).tele = s.tele := rfl
@[simp] theorem State.unpost_halted (s : State) (k : Nat) : (s.unpost k).halted = s.halted := rfl
@[simp] theorem State.unpost_shares (s : State) (k : Nat) : (s.unpost k).shares = s.shares := rfl
@[simp] theorem State.unpost_transit (s : State) (k : Nat) : (s.unpost k).transit = s.transit := rfl
@[simp] theorem State.unpost_barMsgs (s : State) (k : Nat) : (s.unpost k).barMsgs = s.barMsgs := rfl
@[simp] theorem State.unpost_images (s : State) (k : Nat) : (s.unpost k).images = s.images := rfl
@[simp] theorem State.unpost_deferred (s : State) (k : Nat) : (s.unpost k).deferred = s.deferred := rfl
@[simp] theorem State.unpost_heldAt (s : State) (k : Nat) : (s.unpost k).heldAt = s.heldAt := rfl
@[simp] theorem State.unpost_cur (s : State) (k : Nat) : (s.unpost k).cur = s.cur := rfl
@[simp] theorem State.unpost_inputs (s : State) (k : Nat) : (s.unpost k).inputs = s.inputs := rfl
@[simp] theorem State.unpost_free (s : State) (k : Nat) : (s.unpost k).free = s.free := rfl
@[simp] theorem State.unpost_time (s : State) (k : Nat) : (s.unpost k).time = s.time := rfl

/-! ## The fields an update of a slot leaves alone -/

@[simp] theorem Slot.past_s (x : Slot) (n : Nat) : (x.past n).s = x.s := rfl
@[simp] theorem Slot.past_v (x : Slot) (n : Nat) : (x.past n).v = x.v := rfl
@[simp] theorem Slot.past_mode (x : Slot) (n : Nat) : (x.past n).mode = x.mode := rfl
@[simp] theorem Slot.past_run (x : Slot) (n : Nat) : (x.past n).run = x.run := rfl
@[simp] theorem Slot.past_fpMode (x : Slot) (n : Nat) : (x.past n).fpMode = x.fpMode := rfl
@[simp] theorem Slot.past_fpFlags (x : Slot) (n : Nat) : (x.past n).fpFlags = x.fpFlags := rfl
@[simp] theorem Slot.past_srState (x : Slot) (n : Nat) : (x.past n).srState = x.srState := rfl
@[simp] theorem Slot.past_cntOvf (x : Slot) (n : Nat) : (x.past n).cntOvf = x.cntOvf := rfl
@[simp] theorem Slot.past_trCause (x : Slot) (n : Nat) : (x.past n).trCause = x.trCause := rfl
@[simp] theorem Slot.past_trPc (x : Slot) (n : Nat) : (x.past n).trPc = x.trPc := rfl
@[simp] theorem Slot.past_trVal (x : Slot) (n : Nat) : (x.past n).trVal = x.trVal := rfl
@[simp] theorem Slot.past_trStatus (x : Slot) (n : Nat) : (x.past n).trStatus = x.trStatus := rfl
@[simp] theorem Slot.past_trScratch (x : Slot) (n : Nat) : (x.past n).trScratch = x.trScratch := rfl
@[simp] theorem Slot.past_arrived (x : Slot) (n : Nat) : (x.past n).arrived = x.arrived := rfl
@[simp] theorem Slot.past_efd (x : Slot) (n : Nat) : (x.past n).efd = x.efd := rfl
@[simp] theorem Slot.past_pend (x : Slot) (n : Nat) : (x.past n).pend = x.pend := rfl
@[simp] theorem Slot.past_remErr (x : Slot) (n : Nat) : (x.past n).remErr = x.remErr := rfl
@[simp] theorem Slot.past_ff (x : Slot) (n : Nat) : (x.past n).ff = x.ff := rfl
@[simp] theorem Slot.past_tags (x : Slot) (n : Nat) : (x.past n).tags = x.tags := rfl
@[simp] theorem Slot.past_record (x : Slot) (n : Nat) : (x.past n).record = x.record := rfl
@[simp] theorem Slot.past_stolen (x : Slot) (n : Nat) : (x.past n).stolen = x.stolen := rfl
@[simp] theorem Slot.past_lv (x : Slot) (n : Nat) : (x.past n).lv = x.lv := rfl
@[simp] theorem Slot.past_relFence (x : Slot) (n : Nat) : (x.past n).relFence = x.relFence := rfl
@[simp] theorem Slot.past_acqFence (x : Slot) (n : Nat) : (x.past n).acqFence = x.acqFence := rfl
@[simp] theorem Slot.past_tlbis (x : Slot) (n : Nat) : (x.past n).tlbis = x.tlbis := rfl
@[simp] theorem Slot.past_tsync (x : Slot) (n : Nat) : (x.past n).tsync = x.tsync := rfl
@[simp] theorem Slot.past_redo (x : Slot) (n : Nat) : (x.past n).redo = x.redo := rfl
@[simp] theorem Slot.past_parked (x : Slot) (n : Nat) : (x.past n).parked = x.parked := rfl
@[simp] theorem Slot.past_unmaps (x : Slot) (n : Nat) : (x.past n).unmaps = x.unmaps := rfl
@[simp] theorem Slot.past_paired (x : Slot) (n : Nat) : (x.past n).paired = x.paired := rfl
@[simp] theorem Slot.past_due (x : Slot) (n : Nat) : (x.past n).due = x.due := rfl
@[simp] theorem Slot.past_ibuf (x : Slot) (n : Nat) : (x.past n).ibuf = x.ibuf := rfl
@[simp] theorem Slot.past_handler (x : Slot) (n : Nat) : (x.past n).handler = x.handler := rfl

@[simp] theorem Slot.jump_s (x : Slot) (a : Word) : (x.jump a).s = x.s := rfl
@[simp] theorem Slot.jump_v (x : Slot) (a : Word) : (x.jump a).v = x.v := rfl
@[simp] theorem Slot.jump_mode (x : Slot) (a : Word) : (x.jump a).mode = x.mode := rfl
@[simp] theorem Slot.jump_run (x : Slot) (a : Word) : (x.jump a).run = x.run := rfl
@[simp] theorem Slot.jump_fpMode (x : Slot) (a : Word) : (x.jump a).fpMode = x.fpMode := rfl
@[simp] theorem Slot.jump_fpFlags (x : Slot) (a : Word) : (x.jump a).fpFlags = x.fpFlags := rfl
@[simp] theorem Slot.jump_srState (x : Slot) (a : Word) : (x.jump a).srState = x.srState := rfl
@[simp] theorem Slot.jump_cntOvf (x : Slot) (a : Word) : (x.jump a).cntOvf = x.cntOvf := rfl
@[simp] theorem Slot.jump_trCause (x : Slot) (a : Word) : (x.jump a).trCause = x.trCause := rfl
@[simp] theorem Slot.jump_trPc (x : Slot) (a : Word) : (x.jump a).trPc = x.trPc := rfl
@[simp] theorem Slot.jump_trVal (x : Slot) (a : Word) : (x.jump a).trVal = x.trVal := rfl
@[simp] theorem Slot.jump_trStatus (x : Slot) (a : Word) : (x.jump a).trStatus = x.trStatus := rfl
@[simp] theorem Slot.jump_trScratch (x : Slot) (a : Word) : (x.jump a).trScratch = x.trScratch := rfl
@[simp] theorem Slot.jump_arrived (x : Slot) (a : Word) : (x.jump a).arrived = x.arrived := rfl
@[simp] theorem Slot.jump_efd (x : Slot) (a : Word) : (x.jump a).efd = x.efd := rfl
@[simp] theorem Slot.jump_pend (x : Slot) (a : Word) : (x.jump a).pend = x.pend := rfl
@[simp] theorem Slot.jump_remErr (x : Slot) (a : Word) : (x.jump a).remErr = x.remErr := rfl
@[simp] theorem Slot.jump_ff (x : Slot) (a : Word) : (x.jump a).ff = x.ff := rfl
@[simp] theorem Slot.jump_tags (x : Slot) (a : Word) : (x.jump a).tags = x.tags := rfl
@[simp] theorem Slot.jump_record (x : Slot) (a : Word) : (x.jump a).record = x.record := rfl
@[simp] theorem Slot.jump_stolen (x : Slot) (a : Word) : (x.jump a).stolen = x.stolen := rfl
@[simp] theorem Slot.jump_lv (x : Slot) (a : Word) : (x.jump a).lv = x.lv := rfl
@[simp] theorem Slot.jump_relFence (x : Slot) (a : Word) : (x.jump a).relFence = x.relFence := rfl
@[simp] theorem Slot.jump_acqFence (x : Slot) (a : Word) : (x.jump a).acqFence = x.acqFence := rfl
@[simp] theorem Slot.jump_tlbis (x : Slot) (a : Word) : (x.jump a).tlbis = x.tlbis := rfl
@[simp] theorem Slot.jump_tsync (x : Slot) (a : Word) : (x.jump a).tsync = x.tsync := rfl
@[simp] theorem Slot.jump_redo (x : Slot) (a : Word) : (x.jump a).redo = x.redo := rfl
@[simp] theorem Slot.jump_parked (x : Slot) (a : Word) : (x.jump a).parked = x.parked := rfl
@[simp] theorem Slot.jump_unmaps (x : Slot) (a : Word) : (x.jump a).unmaps = x.unmaps := rfl
@[simp] theorem Slot.jump_paired (x : Slot) (a : Word) : (x.jump a).paired = x.paired := rfl
@[simp] theorem Slot.jump_due (x : Slot) (a : Word) : (x.jump a).due = x.due := rfl
@[simp] theorem Slot.jump_got (x : Slot) (a : Word) : (x.jump a).got = x.got := rfl
@[simp] theorem Slot.jump_ibuf (x : Slot) (a : Word) : (x.jump a).ibuf = x.ibuf := rfl
@[simp] theorem Slot.jump_handler (x : Slot) (a : Word) : (x.jump a).handler = x.handler := rfl

@[simp] theorem Slot.trapReturn_s (x : Slot)  : (x.trapReturn).s = x.s := rfl
@[simp] theorem Slot.trapReturn_v (x : Slot)  : (x.trapReturn).v = x.v := rfl
@[simp] theorem Slot.trapReturn_run (x : Slot)  : (x.trapReturn).run = x.run := rfl
@[simp] theorem Slot.trapReturn_fpMode (x : Slot)  : (x.trapReturn).fpMode = x.fpMode := rfl
@[simp] theorem Slot.trapReturn_fpFlags (x : Slot)  : (x.trapReturn).fpFlags = x.fpFlags := rfl
@[simp] theorem Slot.trapReturn_srState (x : Slot)  : (x.trapReturn).srState = x.srState := rfl
@[simp] theorem Slot.trapReturn_cntOvf (x : Slot)  : (x.trapReturn).cntOvf = x.cntOvf := rfl
@[simp] theorem Slot.trapReturn_trCause (x : Slot)  : (x.trapReturn).trCause = x.trCause := rfl
@[simp] theorem Slot.trapReturn_trPc (x : Slot)  : (x.trapReturn).trPc = x.trPc := rfl
@[simp] theorem Slot.trapReturn_trVal (x : Slot)  : (x.trapReturn).trVal = x.trVal := rfl
@[simp] theorem Slot.trapReturn_trScratch (x : Slot)  : (x.trapReturn).trScratch = x.trScratch := rfl
@[simp] theorem Slot.trapReturn_arrived (x : Slot)  : (x.trapReturn).arrived = x.arrived := rfl
@[simp] theorem Slot.trapReturn_efd (x : Slot)  : (x.trapReturn).efd = x.efd := rfl
@[simp] theorem Slot.trapReturn_pend (x : Slot)  : (x.trapReturn).pend = x.pend := rfl
@[simp] theorem Slot.trapReturn_remErr (x : Slot)  : (x.trapReturn).remErr = x.remErr := rfl
@[simp] theorem Slot.trapReturn_ff (x : Slot)  : (x.trapReturn).ff = x.ff := rfl
@[simp] theorem Slot.trapReturn_tags (x : Slot)  : (x.trapReturn).tags = x.tags := rfl
@[simp] theorem Slot.trapReturn_record (x : Slot)  : (x.trapReturn).record = x.record := rfl
@[simp] theorem Slot.trapReturn_stolen (x : Slot)  : (x.trapReturn).stolen = x.stolen := rfl
@[simp] theorem Slot.trapReturn_lv (x : Slot)  : (x.trapReturn).lv = x.lv := rfl
@[simp] theorem Slot.trapReturn_relFence (x : Slot)  : (x.trapReturn).relFence = x.relFence := rfl
@[simp] theorem Slot.trapReturn_acqFence (x : Slot)  : (x.trapReturn).acqFence = x.acqFence := rfl
@[simp] theorem Slot.trapReturn_tlbis (x : Slot)  : (x.trapReturn).tlbis = x.tlbis := rfl
@[simp] theorem Slot.trapReturn_tsync (x : Slot)  : (x.trapReturn).tsync = x.tsync := rfl
@[simp] theorem Slot.trapReturn_redo (x : Slot)  : (x.trapReturn).redo = x.redo := rfl
@[simp] theorem Slot.trapReturn_parked (x : Slot)  : (x.trapReturn).parked = x.parked := rfl
@[simp] theorem Slot.trapReturn_unmaps (x : Slot)  : (x.trapReturn).unmaps = x.unmaps := rfl
@[simp] theorem Slot.trapReturn_paired (x : Slot)  : (x.trapReturn).paired = x.paired := rfl
@[simp] theorem Slot.trapReturn_due (x : Slot)  : (x.trapReturn).due = x.due := rfl
@[simp] theorem Slot.trapReturn_got (x : Slot)  : (x.trapReturn).got = x.got := rfl
@[simp] theorem Slot.trapReturn_ibuf (x : Slot)  : (x.trapReturn).ibuf = x.ibuf := rfl
@[simp] theorem Slot.trapReturn_handler (x : Slot)  : (x.trapReturn).handler = x.handler := rfl

@[simp] theorem Slot.trapped_s (x : Slot) (w : Word) (c : Cause) (i : Bool) (v r : Word) : (x.trapped w c i v r).s = x.s := rfl
@[simp] theorem Slot.trapped_v (x : Slot) (w : Word) (c : Cause) (i : Bool) (v r : Word) : (x.trapped w c i v r).v = x.v := rfl
@[simp] theorem Slot.trapped_fpMode (x : Slot) (w : Word) (c : Cause) (i : Bool) (v r : Word) : (x.trapped w c i v r).fpMode = x.fpMode := rfl
@[simp] theorem Slot.trapped_fpFlags (x : Slot) (w : Word) (c : Cause) (i : Bool) (v r : Word) : (x.trapped w c i v r).fpFlags = x.fpFlags := rfl
@[simp] theorem Slot.trapped_srState (x : Slot) (w : Word) (c : Cause) (i : Bool) (v r : Word) : (x.trapped w c i v r).srState = x.srState := rfl
@[simp] theorem Slot.trapped_cntOvf (x : Slot) (w : Word) (c : Cause) (i : Bool) (v r : Word) : (x.trapped w c i v r).cntOvf = x.cntOvf := rfl
@[simp] theorem Slot.trapped_trScratch (x : Slot) (w : Word) (c : Cause) (i : Bool) (v r : Word) : (x.trapped w c i v r).trScratch = x.trScratch := rfl
@[simp] theorem Slot.trapped_arrived (x : Slot) (w : Word) (c : Cause) (i : Bool) (v r : Word) : (x.trapped w c i v r).arrived = x.arrived := rfl
@[simp] theorem Slot.trapped_efd (x : Slot) (w : Word) (c : Cause) (i : Bool) (v r : Word) : (x.trapped w c i v r).efd = x.efd := rfl
@[simp] theorem Slot.trapped_pend (x : Slot) (w : Word) (c : Cause) (i : Bool) (v r : Word) : (x.trapped w c i v r).pend = x.pend := rfl
@[simp] theorem Slot.trapped_remErr (x : Slot) (w : Word) (c : Cause) (i : Bool) (v r : Word) : (x.trapped w c i v r).remErr = x.remErr := rfl
@[simp] theorem Slot.trapped_ff (x : Slot) (w : Word) (c : Cause) (i : Bool) (v r : Word) : (x.trapped w c i v r).ff = x.ff := rfl
@[simp] theorem Slot.trapped_tags (x : Slot) (w : Word) (c : Cause) (i : Bool) (v r : Word) : (x.trapped w c i v r).tags = x.tags := rfl
@[simp] theorem Slot.trapped_record (x : Slot) (w : Word) (c : Cause) (i : Bool) (v r : Word) : (x.trapped w c i v r).record = x.record := rfl
@[simp] theorem Slot.trapped_stolen (x : Slot) (w : Word) (c : Cause) (i : Bool) (v r : Word) : (x.trapped w c i v r).stolen = x.stolen := rfl
@[simp] theorem Slot.trapped_relFence (x : Slot) (w : Word) (c : Cause) (i : Bool) (v r : Word) : (x.trapped w c i v r).relFence = x.relFence := rfl
@[simp] theorem Slot.trapped_acqFence (x : Slot) (w : Word) (c : Cause) (i : Bool) (v r : Word) : (x.trapped w c i v r).acqFence = x.acqFence := rfl
@[simp] theorem Slot.trapped_tlbis (x : Slot) (w : Word) (c : Cause) (i : Bool) (v r : Word) : (x.trapped w c i v r).tlbis = x.tlbis := rfl
@[simp] theorem Slot.trapped_tsync (x : Slot) (w : Word) (c : Cause) (i : Bool) (v r : Word) : (x.trapped w c i v r).tsync = x.tsync := rfl
@[simp] theorem Slot.trapped_parked (x : Slot) (w : Word) (c : Cause) (i : Bool) (v r : Word) : (x.trapped w c i v r).parked = x.parked := rfl
@[simp] theorem Slot.trapped_unmaps (x : Slot) (w : Word) (c : Cause) (i : Bool) (v r : Word) : (x.trapped w c i v r).unmaps = x.unmaps := rfl
@[simp] theorem Slot.trapped_ibuf (x : Slot) (w : Word) (c : Cause) (i : Bool) (v r : Word) : (x.trapped w c i v r).ibuf = x.ibuf := rfl
@[simp] theorem Slot.trapped_handler (x : Slot) (w : Word) (c : Cause) (i : Bool) (v r : Word) : (x.trapped w c i v r).handler = x.handler := rfl

@[simp] theorem Slot.wv_s (x : Slot) (d : Reg) (v : Block) : (x.wv d v).s = x.s := rfl
@[simp] theorem Slot.wv_pc (x : Slot) (d : Reg) (v : Block) : (x.wv d v).pc = x.pc := rfl
@[simp] theorem Slot.wv_mode (x : Slot) (d : Reg) (v : Block) : (x.wv d v).mode = x.mode := rfl
@[simp] theorem Slot.wv_run (x : Slot) (d : Reg) (v : Block) : (x.wv d v).run = x.run := rfl
@[simp] theorem Slot.wv_fpMode (x : Slot) (d : Reg) (v : Block) : (x.wv d v).fpMode = x.fpMode := rfl
@[simp] theorem Slot.wv_fpFlags (x : Slot) (d : Reg) (v : Block) : (x.wv d v).fpFlags = x.fpFlags := rfl
@[simp] theorem Slot.wv_srState (x : Slot) (d : Reg) (v : Block) : (x.wv d v).srState = x.srState := rfl
@[simp] theorem Slot.wv_cntOvf (x : Slot) (d : Reg) (v : Block) : (x.wv d v).cntOvf = x.cntOvf := rfl
@[simp] theorem Slot.wv_trCause (x : Slot) (d : Reg) (v : Block) : (x.wv d v).trCause = x.trCause := rfl
@[simp] theorem Slot.wv_trPc (x : Slot) (d : Reg) (v : Block) : (x.wv d v).trPc = x.trPc := rfl
@[simp] theorem Slot.wv_trVal (x : Slot) (d : Reg) (v : Block) : (x.wv d v).trVal = x.trVal := rfl
@[simp] theorem Slot.wv_trStatus (x : Slot) (d : Reg) (v : Block) : (x.wv d v).trStatus = x.trStatus := rfl
@[simp] theorem Slot.wv_trScratch (x : Slot) (d : Reg) (v : Block) : (x.wv d v).trScratch = x.trScratch := rfl
@[simp] theorem Slot.wv_fresh (x : Slot) (d : Reg) (v : Block) : (x.wv d v).fresh = x.fresh := rfl
@[simp] theorem Slot.wv_arrived (x : Slot) (d : Reg) (v : Block) : (x.wv d v).arrived = x.arrived := rfl
@[simp] theorem Slot.wv_efd (x : Slot) (d : Reg) (v : Block) : (x.wv d v).efd = x.efd := rfl
@[simp] theorem Slot.wv_pend (x : Slot) (d : Reg) (v : Block) : (x.wv d v).pend = x.pend := rfl
@[simp] theorem Slot.wv_remErr (x : Slot) (d : Reg) (v : Block) : (x.wv d v).remErr = x.remErr := rfl
@[simp] theorem Slot.wv_ff (x : Slot) (d : Reg) (v : Block) : (x.wv d v).ff = x.ff := rfl
@[simp] theorem Slot.wv_tags (x : Slot) (d : Reg) (v : Block) : (x.wv d v).tags = x.tags := rfl
@[simp] theorem Slot.wv_record (x : Slot) (d : Reg) (v : Block) : (x.wv d v).record = x.record := rfl
@[simp] theorem Slot.wv_stolen (x : Slot) (d : Reg) (v : Block) : (x.wv d v).stolen = x.stolen := rfl
@[simp] theorem Slot.wv_lv (x : Slot) (d : Reg) (v : Block) : (x.wv d v).lv = x.lv := rfl
@[simp] theorem Slot.wv_relFence (x : Slot) (d : Reg) (v : Block) : (x.wv d v).relFence = x.relFence := rfl
@[simp] theorem Slot.wv_acqFence (x : Slot) (d : Reg) (v : Block) : (x.wv d v).acqFence = x.acqFence := rfl
@[simp] theorem Slot.wv_tlbis (x : Slot) (d : Reg) (v : Block) : (x.wv d v).tlbis = x.tlbis := rfl
@[simp] theorem Slot.wv_tsync (x : Slot) (d : Reg) (v : Block) : (x.wv d v).tsync = x.tsync := rfl
@[simp] theorem Slot.wv_vprog (x : Slot) (d : Reg) (v : Block) : (x.wv d v).vprog = x.vprog := rfl
@[simp] theorem Slot.wv_redo (x : Slot) (d : Reg) (v : Block) : (x.wv d v).redo = x.redo := rfl
@[simp] theorem Slot.wv_parked (x : Slot) (d : Reg) (v : Block) : (x.wv d v).parked = x.parked := rfl
@[simp] theorem Slot.wv_unmaps (x : Slot) (d : Reg) (v : Block) : (x.wv d v).unmaps = x.unmaps := rfl
@[simp] theorem Slot.wv_paired (x : Slot) (d : Reg) (v : Block) : (x.wv d v).paired = x.paired := rfl
@[simp] theorem Slot.wv_due (x : Slot) (d : Reg) (v : Block) : (x.wv d v).due = x.due := rfl
@[simp] theorem Slot.wv_got (x : Slot) (d : Reg) (v : Block) : (x.wv d v).got = x.got := rfl
@[simp] theorem Slot.wv_ibuf (x : Slot) (d : Reg) (v : Block) : (x.wv d v).ibuf = x.ibuf := rfl
@[simp] theorem Slot.wv_handler (x : Slot) (d : Reg) (v : Block) : (x.wv d v).handler = x.handler := rfl

@[simp] theorem Slot.ws_v (x : Slot) (d : Reg) (v : Word) : (x.ws d v).v = x.v := by rw [Slot.ws_frame]
@[simp] theorem Slot.ws_pc (x : Slot) (d : Reg) (v : Word) : (x.ws d v).pc = x.pc := by rw [Slot.ws_frame]
@[simp] theorem Slot.ws_mode (x : Slot) (d : Reg) (v : Word) : (x.ws d v).mode = x.mode := by rw [Slot.ws_frame]
@[simp] theorem Slot.ws_run (x : Slot) (d : Reg) (v : Word) : (x.ws d v).run = x.run := by rw [Slot.ws_frame]
@[simp] theorem Slot.ws_fpMode (x : Slot) (d : Reg) (v : Word) : (x.ws d v).fpMode = x.fpMode := by rw [Slot.ws_frame]
@[simp] theorem Slot.ws_fpFlags (x : Slot) (d : Reg) (v : Word) : (x.ws d v).fpFlags = x.fpFlags := by rw [Slot.ws_frame]
@[simp] theorem Slot.ws_srState (x : Slot) (d : Reg) (v : Word) : (x.ws d v).srState = x.srState := by rw [Slot.ws_frame]
@[simp] theorem Slot.ws_cntOvf (x : Slot) (d : Reg) (v : Word) : (x.ws d v).cntOvf = x.cntOvf := by rw [Slot.ws_frame]
@[simp] theorem Slot.ws_trCause (x : Slot) (d : Reg) (v : Word) : (x.ws d v).trCause = x.trCause := by rw [Slot.ws_frame]
@[simp] theorem Slot.ws_trPc (x : Slot) (d : Reg) (v : Word) : (x.ws d v).trPc = x.trPc := by rw [Slot.ws_frame]
@[simp] theorem Slot.ws_trVal (x : Slot) (d : Reg) (v : Word) : (x.ws d v).trVal = x.trVal := by rw [Slot.ws_frame]
@[simp] theorem Slot.ws_trStatus (x : Slot) (d : Reg) (v : Word) : (x.ws d v).trStatus = x.trStatus := by rw [Slot.ws_frame]
@[simp] theorem Slot.ws_trScratch (x : Slot) (d : Reg) (v : Word) : (x.ws d v).trScratch = x.trScratch := by rw [Slot.ws_frame]
@[simp] theorem Slot.ws_fresh (x : Slot) (d : Reg) (v : Word) : (x.ws d v).fresh = x.fresh := by rw [Slot.ws_frame]
@[simp] theorem Slot.ws_arrived (x : Slot) (d : Reg) (v : Word) : (x.ws d v).arrived = x.arrived := by rw [Slot.ws_frame]
@[simp] theorem Slot.ws_efd (x : Slot) (d : Reg) (v : Word) : (x.ws d v).efd = x.efd := by rw [Slot.ws_frame]
@[simp] theorem Slot.ws_pend (x : Slot) (d : Reg) (v : Word) : (x.ws d v).pend = x.pend := by rw [Slot.ws_frame]
@[simp] theorem Slot.ws_remErr (x : Slot) (d : Reg) (v : Word) : (x.ws d v).remErr = x.remErr := by rw [Slot.ws_frame]
@[simp] theorem Slot.ws_ff (x : Slot) (d : Reg) (v : Word) : (x.ws d v).ff = x.ff := by rw [Slot.ws_frame]
@[simp] theorem Slot.ws_tags (x : Slot) (d : Reg) (v : Word) : (x.ws d v).tags = x.tags := by rw [Slot.ws_frame]
@[simp] theorem Slot.ws_record (x : Slot) (d : Reg) (v : Word) : (x.ws d v).record = x.record := by rw [Slot.ws_frame]
@[simp] theorem Slot.ws_stolen (x : Slot) (d : Reg) (v : Word) : (x.ws d v).stolen = x.stolen := by rw [Slot.ws_frame]
@[simp] theorem Slot.ws_lv (x : Slot) (d : Reg) (v : Word) : (x.ws d v).lv = x.lv := by rw [Slot.ws_frame]
@[simp] theorem Slot.ws_relFence (x : Slot) (d : Reg) (v : Word) : (x.ws d v).relFence = x.relFence := by rw [Slot.ws_frame]
@[simp] theorem Slot.ws_acqFence (x : Slot) (d : Reg) (v : Word) : (x.ws d v).acqFence = x.acqFence := by rw [Slot.ws_frame]
@[simp] theorem Slot.ws_tlbis (x : Slot) (d : Reg) (v : Word) : (x.ws d v).tlbis = x.tlbis := by rw [Slot.ws_frame]
@[simp] theorem Slot.ws_tsync (x : Slot) (d : Reg) (v : Word) : (x.ws d v).tsync = x.tsync := by rw [Slot.ws_frame]
@[simp] theorem Slot.ws_vprog (x : Slot) (d : Reg) (v : Word) : (x.ws d v).vprog = x.vprog := by rw [Slot.ws_frame]
@[simp] theorem Slot.ws_redo (x : Slot) (d : Reg) (v : Word) : (x.ws d v).redo = x.redo := by rw [Slot.ws_frame]
@[simp] theorem Slot.ws_parked (x : Slot) (d : Reg) (v : Word) : (x.ws d v).parked = x.parked := by rw [Slot.ws_frame]
@[simp] theorem Slot.ws_unmaps (x : Slot) (d : Reg) (v : Word) : (x.ws d v).unmaps = x.unmaps := by rw [Slot.ws_frame]
@[simp] theorem Slot.ws_paired (x : Slot) (d : Reg) (v : Word) : (x.ws d v).paired = x.paired := by rw [Slot.ws_frame]
@[simp] theorem Slot.ws_due (x : Slot) (d : Reg) (v : Word) : (x.ws d v).due = x.due := by rw [Slot.ws_frame]
@[simp] theorem Slot.ws_got (x : Slot) (d : Reg) (v : Word) : (x.ws d v).got = x.got := by rw [Slot.ws_frame]
@[simp] theorem Slot.ws_ibuf (x : Slot) (d : Reg) (v : Word) : (x.ws d v).ibuf = x.ibuf := by rw [Slot.ws_frame]
@[simp] theorem Slot.ws_handler (x : Slot) (d : Reg) (v : Word) : (x.ws d v).handler = x.handler := by rw [Slot.ws_frame]

end Sys2Proof.Machine
end

