-- ==== Sys2Proof/Laws/Effects.lean ====
section
/-! SUPPORT. What the shared endings of an instruction do to a state: register writes, moving past an instruction, flags, jumps, and the
ways a meaning ends. A proof about an instruction cites these and does not unfold them. -/

namespace Sys2Proof.Machine

/-! ## Updates of the current slot -/

@[simp] theorem State.updMe_me (s : State) (f : Slot → Slot) : (s.setSlot s.cur (f (s.slot s.cur))).me = f s.me := by
  simp [State.me_eq]

/-- Changing the current slot changes nothing outside it. -/
theorem OnlyThisSlot.upd (s : State) (x : Slot) : OnlyThisSlot s (s.setSlot s.cur x) :=
  ⟨rfl, fun _ h => State.slot_setSlot_ne s h x, fun _ => rfl⟩

/-- The current slot after a register write and the move past an instruction. -/
theorem State.wr_past_eq (s : State) (d : Reg) (v : Word) (n : Nat) :
    (s.wr d v).past n = s.setSlot s.cur ((s.me.ws d v).past n) := by
  simp [State.wr, State.past, State.me_eq]

/-- The current slot after a vector register write and the move past an instruction. -/
theorem State.wrv_past_eq (s : State) (d : Reg) (v : Block) (n : Nat) :
    (s.wrv d v).past n = s.setSlot s.cur ((s.me.wv d v).past n) := by
  simp [State.wrv, State.past, State.me_eq]

/-- The current slot after the move past an instruction. -/
theorem State.past_eq (s : State) (n : Nat) : s.past n = s.setSlot s.cur (s.me.past n) := by
  simp [State.past, State.me_eq]

@[simp] theorem State.wr_zero (s : State) (v : Word) : s.wr 0 v = s.setSlot s.cur s.me := by
  simp [State.wr, State.me_eq]

@[simp] theorem Slot.past_rs (x : Slot) (n : Nat) (r : Reg) : (x.past n).rs r = x.rs r := rfl
@[simp] theorem Slot.past_rv (x : Slot) (n : Nat) (r : Reg) : (x.past n).rv r = x.rv r := rfl
@[simp] theorem Slot.past_pc (x : Slot) (n : Nat) : (x.past n).pc = x.pc + BitVec.ofNat 64 n := rfl
@[simp] theorem Slot.ws_rv (x : Slot) (d r : Reg) (v : Word) : (x.ws d v).rv r = x.rv r := by
  unfold Slot.ws; split <;> rfl
@[simp] theorem State.rd_zero (s : State) : s.rd 0 = 0 := rfl

theorem State.rd_setSlot (s : State) (x : Slot) (r : Reg) : (s.setSlot s.cur x).rd r = x.rs r := by
  simp [State.rd, State.me_eq]
theorem State.rdv_setSlot (s : State) (x : Slot) (r : Reg) : (s.setSlot s.cur x).rdv r = x.rv r := by
  simp [State.rdv, State.me_eq]
theorem State.me_setSlot (s : State) (x : Slot) : (s.setSlot s.cur x).me = x := by
  simp [State.me_eq]

/-- A register that is written reads back what was written. -/
theorem State.rd_wr_past_self (s : State) {d : Reg} (h : d ≠ 0) (v : Word) (n : Nat) : ((s.wr d v).past n).rd d = v := by
  rw [State.wr_past_eq, State.rd_setSlot, Slot.past_rs, Slot.rs_ws_self _ h]

/-- A register that is not the destination reads as before. -/
theorem State.rd_wr_past_ne (s : State) {d r : Reg} (h : r ≠ d) (v : Word) (n : Nat) : ((s.wr d v).past n).rd r = s.rd r := by
  rw [State.wr_past_eq, State.rd_setSlot, Slot.past_rs, Slot.rs_ws_ne _ h]; rfl

/-- The frame of an instruction that writes one scalar register. -/
theorem OnlyScalar.wr_past (s : State) (d : Reg) (v : Word) (n : Nat) : OnlyScalar s ((s.wr d v).past n) d := by
  refine ⟨?_, fun r h => State.rd_wr_past_ne s h v n, ?_⟩
  · rw [State.wr_past_eq]; exact OnlyThisSlot.upd s _
  · rw [State.wr_past_eq, State.me_setSlot]
    unfold Slot.ws Slot.past; split <;> rfl

/-- The frame of an instruction that writes one scalar register and raises flags. -/
theorem OnlyFloat.wr_past (s : State) (f : FFlags) (d : Reg) (v : Word) (n : Nat) :
    OnlyFloat s (((s.flag f).wr d v).past n) d := by
  have e : ((s.flag f).wr d v).past n = s.setSlot s.cur (({ s.me with fpFlags := s.me.fpFlags ||| f } : Slot).ws d v |>.past n) := by
    simp [State.flag, State.wr, State.past, State.me_eq]
  rw [e]
  refine ⟨OnlyThisSlot.upd s _, fun r h => ?_, ?_⟩
  · rw [State.rd_setSlot, Slot.past_rs, Slot.rs_ws_ne _ h]; rfl
  · rw [State.me_setSlot]; unfold Slot.ws Slot.past; split <;> rfl

/-! ## How a meaning ends -/

@[simp] theorem Res.finish_ok {α : Type} (a : α) (s : State) (k : α → State → Out) : (Res.ok a s).finish k = k a s := rfl
@[simp] theorem Res.finish_trap {α : Type} (c : Cause) (v : Word) (s : State) (k : α → State → Out) :
    (Res.trap c v s : Res α).finish k = Sys2Proof.Machine.trap c v s := rfl
@[simp] theorem Res.finish_wait {α : Type} (w : Wait) (s : State) (k : α → State → Out) :
    (Res.wait w s : Res α).finish k = Sys2Proof.Machine.wait w s := rfl

/-- An instruction that ends as its access did answers a next state if what follows its success does. -/
theorem Res.finish_next {α : Type} (r : Res α) (k : α → State → Out) (h : ∀ a s, ∃ t, k a s = .next t) :
    ∃ t, r.finish k = .next t := by
  cases r with
  | ok a s => exact h a s
  | trap c v s => exact ⟨_, rfl⟩
  | wait w s => exact ⟨_, rfl⟩

theorem privileged_user {s : State} (base : Nat) (k : Out) (h : s.me.mode = .u) :
    privileged base s k = trap .priv (BitVec.ofNat 64 base) s := by simp [privileged, h]
theorem privileged_system {s : State} (base : Nat) (k : Out) (h : s.me.mode ≠ .u) : privileged base s k = k := by
  simp [privileged, h]
theorem privileged_next (base : Nat) (s : State) (k : Out) (h : ∃ t, k = .next t) : ∃ t, privileged base s k = .next t := by
  unfold privileged; split
  · exact ⟨_, rfl⟩
  · exact h

/-! ## Taking a trap -/

theorem lenBytes_le (k : Fin 4) : lenBytes k ≤ 20 ∧ 4 ≤ lenBytes k := by revert k; decide

theorem spSize_lt (s : State) (c : Nat) : s.spSize c ≤ 15 * 0x4000 := by
  unfold State.spSize
  have h := (s.core c).lsSplit.isLt
  have : Nat.min (s.core c).lsSplit.val (s.half c).2 ≤ 15 := Nat.le_trans (Nat.min_le_left _ _) (by omega)
  dsimp only
  split <;> omega

theorem fld_add4 (n k w : Nat) (hk : 18 ≤ k) (h : n % 2^18 + 4 < 2^18) : fld (n+4) k w = fld n k w := by
  unfold fld
  have h1 : (n+4) / 2^18 = n / 2^18 := by omega
  have : 2^k = 2^18 * 2^(k-18) := by rw [← Nat.pow_add]; congr 1; omega
  rw [this, ← Nat.div_div_eq_div_mul, ← Nat.div_div_eq_div_mul, h1]

theorem spd_facts {a : Word} (h : spaceOf a = some .spd) : fld a.toNat 56 8 = 0xFE ∧ fld a.toNat 18 27 = 0 ∧ offsetOf a = a.toNat % 2^18 := by
  have e : offsetOf a = fld a.toNat 0 18 := by unfold offsetOf; rw [h]
  have e2 : fld a.toNat 0 18 = a.toNat % 2^18 := by simp [fld]
  refine ⟨?_, ?_, by rw [e, e2]⟩ <;> unfold spaceOf at h <;> dsimp only at h <;> split at h <;> (try simp_all) <;> split at h <;> simp_all

theorem spd_add4 {a : Word} (h : spaceOf a = some .spd) (ho : offsetOf a + 4 < 2^18) :
    spaceOf (a+4) = some .spd ∧ fld (a+4).toNat 45 11 = fld a.toNat 45 11 ∧ offsetOf (a+4) = offsetOf a + 4 := by
  obtain ⟨h1, h2, h3⟩ := spd_facts h
  rw [h3] at ho
  have hlt : a.toNat + 4 < 2^64 := by
    have := a.isLt
    have : a.toNat % 2^18 ≤ 2^18 - 5 := by omega
    have : a.toNat / 2^18 ≤ 2^46 - 1 := by omega
    omega
  have e : (a+4).toNat = a.toNat + 4 := by
    rw [BitVec.toNat_add]; exact Nat.mod_eq_of_lt hlt
  have hs : spaceOf (a+4) = some .spd := by
    unfold spaceOf
    dsimp only
    rw [e, fld_add4 _ 56 8 (by decide) ho, fld_add4 _ 18 27 (by decide) ho, h1]
    simp [h2]
  refine ⟨hs, ?_, ?_⟩
  · rw [e, fld_add4 _ _ _ (by decide) ho]
  · obtain ⟨_, _, h6⟩ := spd_facts hs
    rw [h6, h3, e]; omega

theorem fetchAt_local (s : State) (t : Nat) (a : Word) (n : Nat) (hc : onCore t = true)
    (hs : spaceOf a = some .spd) (hf : fld a.toNat 45 11 = agentOf t)
    (ho : offsetOf a + n ≤ s.spSize (agentOf t)) (hp : poisonAt s (lsBlk (agentOf t)) (s.spOffset (agentOf t) (offsetOf a)) n = none) :
    fetchAt s t a n = .ok ((s.core (agentOf t)).ls.bytes (s.spOffset (agentOf t) (offsetOf a)) n) s := by
  unfold fetchAt
  simp only [hc, Bool.not_true, Bool.false_eq_true, if_false, hs, hf, bne_self_eq_false, hp]
  rw [if_neg (by omega)]

/-- Where no byte of a range is poisoned, none of a part of it is. -/
theorem poisonAt_part (s : State) (f : Nat → Nat) (o n i k : Nat) (h : poisonAt s f o n = none) (hk : i + k ≤ n) :
    poisonAt s f (o + i) k = none := by
  unfold poisonAt at *
  split at h
  · simp_all
  · rw [if_neg ‹_›, List.find?_eq_none]
    intro x hx
    have := (List.find?_eq_none.mp h) (i + x) (List.mem_range.mpr (by have := List.mem_range.mp hx; omega))
    rwa [← Nat.add_assoc] at this

/-- A fetch from the core's own scratchpad reads bytes and changes nothing (R160). -/
theorem fetch_local (s : State) (t : Nat) (hc : onCore t = true) (ha : (s.slot t).pc.toNat % 4 = 0)
    (hs : spaceOf (s.slot t).pc = some .spd) (hf : fld (s.slot t).pc.toNat 45 11 = agentOf t)
    (ho : offsetOf (s.slot t).pc + 20 ≤ s.spSize (agentOf t))
    (hp : poisonAt s (lsBlk (agentOf t)) (s.spOffset (agentOf t) (offsetOf (s.slot t).pc)) 20 = none) : ∃ l, fetch s t = .ok l s := by
  have hb := spSize_lt s (agentOf t)
  obtain ⟨h1, h2, h3⟩ := spd_add4 hs (by omega)
  unfold fetch
  simp only [ha, bne_self_eq_false, Bool.false_eq_true, if_false, hs, Option.some.injEq, reduceCtorEq, decide_false, Bool.and_false]
  rw [fetchAt_local s t _ 4 hc hs hf (by omega) (by have := poisonAt_part s _ _ 20 0 4 hp (by omega); rwa [Nat.add_zero] at this)]
  simp only [Res.andThen]
  split
  · exact ⟨_, rfl⟩
  · have h20 := (lenBytes_le (Fin.ofNat 4 (leNat (Memory.bytes (s.core (agentOf t)).ls (s.spOffset (agentOf t) (offsetOf (s.slot t).pc)) 4) % 4))).1
    rw [fetchAt_local s t _ _ hc h1 (by rw [h2, hf]) ?_ ?_]
    · exact ⟨_, rfl⟩
    · rw [h3]; unfold wordBytes; omega
    · rw [h3, show s.spOffset (agentOf t) (offsetOf (s.slot t).pc + 4) = s.spOffset (agentOf t) (offsetOf (s.slot t).pc) + 4 by
        unfold State.spOffset; omega]
      exact poisonAt_part s _ _ 20 4 _ hp (by unfold wordBytes; omega)

theorem spSize_setSlot (s : State) (t : Nat) (x : Slot) (c : Nat) : (s.setSlot t x).spSize c = s.spSize c := rfl

theorem vec_eq (v : BitVec 62) : BitVec.ofNat 64 (v.toNat * 4) = (v.setWidth 64 <<< 2 : Word) := by
  apply BitVec.eq_of_toNat_eq; simp [Nat.shiftLeft_eq]

/-- A trap that can be entered is the trap of R20. -/
theorem Traps.intro (i : Instr) (s : State) (cause : Cause) (val resume : Word) (h : CanTrap s)
   (he : exec i s = .next (takeSyncAt s s.cur cause val resume)) : Traps i s cause val resume := by
  obtain ⟨⟨h1, h3, h4, h5, h6⟩, h2⟩ := h
  have e : takeSyncAt s s.cur cause val resume = s.setSlot s.cur (s.me.trapped ((s.core s.myCore).trVector.setWidth 64 <<< 2) cause false val resume) := by
    unfold takeSyncAt
    rw [State.me_eq] at *
    simp only [h1, Bool.not_true, Bool.false_eq_true, if_false]
    rw [h2]
    simp only [enterTrap]
    rw [vec_eq, State.updSlot_eq]
    generalize hs1 : s.setSlot s.cur ((s.slot s.cur).trapped ((s.core (agentOf s.cur)).trVector.setWidth 64 <<< 2) cause false val resume) = s1
    have hsl : s1.slot s.cur = (s.slot s.cur).trapped ((s.core (agentOf s.cur)).trVector.setWidth 64 <<< 2) cause false val resume := by
      rw [← hs1]; simp
    have hf := fetch_local s1 s.cur h1 (by rw [hsl]; simp [Slot.trapped, Nat.shiftLeft_eq]) (by rw [hsl]; exact h3) (by rw [hsl]; exact h4)
      (by rw [hsl, ← hs1]; exact h5) (by rw [hsl, ← hs1]; exact h6)
    obtain ⟨l, hl⟩ := hf
    rw [hl, ← hs1]; rfl
  refine ⟨_, he, ?_, ?_⟩
  · rw [e]; exact OnlyThisSlot.upd _ _
  · rw [e, State.me_setSlot]
    unfold Slot.trapped
    have e1 : BitVec.ofNat 9 (cause.toNat + bit false * 2 ^ 8) = cause.setWidth 9 := by
      apply BitVec.eq_of_toNat_eq; simp [bit]
    have e2 : BitVec.ofNat 3 (bit (decide (s.me.mode = .s)) + bit (s.me.trStatus.getLsbD 2) * 2) = (if s.me.mode = .s then 1 else 0) ||| (if s.me.trStatus.getLsbD 2 then 2 else 0) := by
      by_cases hm : s.me.mode = .s <;> cases s.me.trStatus.getLsbD 2 <;> simp [hm, bit]
    rw [e1, e2]

end Sys2Proof.Machine
end

