-- ==== Sys2Proof/Laws/Fields.lean ====
section
/-! SUPPORT. The codes of operands and the fields of words, read back from what the encoder writes. -/

set_option Elab.async false

namespace Sys2Proof

theorem FpType.code_lt (x : FpType) : x.code < 4 := by cases x <;> decide
theorem CvtCode.code_lt (x : CvtCode) : x.code < 12 := by cases x <;> decide
theorem ElType.code_lt (x : ElType) : x.code < 8 := by cases x <;> decide
theorem Size.code_lt (x : Size) : x.code < 4 := by cases x <;> decide
theorem MemOrd.code_lt (x : MemOrd) : x.code < 4 := by cases x <;> decide
theorem Scope.code_lt (x : Scope) : x.code < 6 := by cases x <;> decide
theorem FenceOrd.code_lt (x : FenceOrd) : x.code < 4 := by cases x <;> decide
theorem AtomOp.code_lt (x : AtomOp) : x.code < 8 := by cases x <;> decide
theorem SpaceSel.code_lt (x : SpaceSel) : x.code < 4 := by cases x <;> decide
theorem bit_lt (b : Bool) : bit b < 2 := by cases b <;> decide

theorem FpType.ofCode_of {n : Nat} {x : FpType} (h : n % 4 = x.code) : FpType.ofCode n = x := by
  unfold FpType.ofCode; rw [h]; cases x <;> rfl
theorem ElType.ofCode_of {n : Nat} {x : ElType} (h : n % 8 = x.code) : ElType.ofCode n = x := by
  unfold ElType.ofCode; rw [h]; cases x <;> rfl
theorem Size.ofCode_of {n : Nat} {x : Size} (h : n % 4 = x.code) : Size.ofCode n = x := by
  unfold Size.ofCode; rw [h]; cases x <;> rfl
theorem MemOrd.ofCode_of {n : Nat} {x : MemOrd} (h : n % 4 = x.code) : MemOrd.ofCode n = x := by
  unfold MemOrd.ofCode; rw [h]; cases x <;> rfl
theorem AtomOp.ofCode_of {n : Nat} {x : AtomOp} (h : n % 8 = x.code) : AtomOp.ofCode n = x := by
  unfold AtomOp.ofCode; rw [h]; cases x <;> rfl
theorem SpaceSel.ofCode_of {n : Nat} {x : SpaceSel} (h : n % 4 = x.code) : SpaceSel.ofCode n = x := by
  unfold SpaceSel.ofCode; rw [h]; cases x <;> rfl
theorem FpType.ofCode_code (x : FpType) : FpType.ofCode x.code = x := by cases x <;> rfl
theorem ElType.ofCode_code (x : ElType) : ElType.ofCode x.code = x := by cases x <;> rfl
theorem Size.ofCode_code (x : Size) : Size.ofCode x.code = x := by cases x <;> rfl
theorem MemOrd.ofCode_code (x : MemOrd) : MemOrd.ofCode x.code = x := by cases x <;> rfl
theorem AtomOp.ofCode_code (x : AtomOp) : AtomOp.ofCode x.code = x := by cases x <;> rfl
theorem Scope.ofCode?_code (x : Scope) : Scope.ofCode? x.code = some x := by cases x <;> rfl
theorem Scope.ofCode?_of {n : Nat} {x : Scope} (h : n = x.code) : Scope.ofCode? n = some x := by rw [h, Scope.ofCode?_code]
theorem FenceOrd.ofCode?_code (x : FenceOrd) : FenceOrd.ofCode? x.code = some x := by cases x <;> rfl
theorem CvtCode.ofCode?_code (x : CvtCode) : CvtCode.ofCode? x.code = some x := by cases x <;> rfl
theorem bit_beq_one (b : Bool) : (bit b == 1) = b := by cases b <;> rfl
theorem fin_ofNat_val {n : Nat} [NeZero n] (x : Fin n) : Fin.ofNat n x.val = x := by
  apply Fin.ext; rw [Fin.val_ofNat]; exact Nat.mod_eq_of_lt x.isLt
theorem bv_ofNat_toNat {n : Nat} (x : BitVec n) : BitVec.ofNat n x.toNat = x := by simp

/-- The fields of a vector extension word (R109). -/
theorem vext_fields {w : Word} {o b8 b9 b10 v11 v16 v24 : Nat}
    (h : w = BitVec.ofNat 64 (o + b8 * 2 ^ 8 + b9 * 2 ^ 9 + b10 * 2 ^ 10 + v11 * 2 ^ 11 + v16 * 2 ^ 16 + v24 * 2 ^ 24))
    (ho : o < 256) (h8 : b8 < 2) (h9 : b9 < 2) (h10 : b10 < 2) (h11 : v11 < 32) (h16 : v16 < 256) (h24 : v24 < 32) :
    fld w.toNat 0 8 = o ∧ fld w.toNat 8 1 = b8 ∧ fld w.toNat 9 1 = b9 ∧ fld w.toNat 10 1 = b10 ∧ fld w.toNat 11 5 = v11 ∧
      fld w.toNat 16 8 = v16 ∧ fld w.toNat 24 5 = v24 ∧ fld w.toNat 29 35 = 0 := by
  subst h
  rw [BitVec.toNat_ofNat, Nat.mod_eq_of_lt (by omega)]
  unfold fld
  refine ⟨?_, ?_, ?_, ?_, ?_, ?_, ?_, ?_⟩ <;> omega

/-- The fields of a tensor extension word (R272). -/
theorem text_fields {w : Word} {ta tb ti v : Nat}
    (h : w = BitVec.ofNat 64 (ta + tb * 2 ^ 8 + ti * 2 ^ 16 + v * 2 ^ 24)) (ha : ta < 64) (hb : tb < 64) (ht : ti < 2) (hv : v < 32) :
    fld w.toNat 0 6 = ta ∧ fld w.toNat 6 2 = 0 ∧ fld w.toNat 8 6 = tb ∧ fld w.toNat 14 2 = 0 ∧ fld w.toNat 16 1 = ti ∧
      fld w.toNat 17 7 = 0 ∧ fld w.toNat 24 5 = v ∧ (v < 8 → fld w.toNat 27 2 = 0) ∧ fld w.toNat 29 35 = 0 := by
  subst h
  rw [BitVec.toNat_ofNat, Nat.mod_eq_of_lt (by omega)]
  unfold fld
  refine ⟨?_, ?_, ?_, ?_, ?_, ?_, ?_, fun _ => ?_, ?_⟩ <;> omega

/-- The memory extension word (R33). -/
theorem MemExt.fields {w : Word} (x : MemExt) (h : w = BitVec.ofNat 64 x.toExt) : fld w.toNat 40 24 = 0 ∧ MemExt.ofExt w = x := by
  subst h
  have h1 := x.disp.isLt
  have h2 := x.xindex.isLt
  have h3 := x.xshift.isLt
  unfold MemExt.ofExt MemExt.toExt
  rw [BitVec.toNat_ofNat, Nat.mod_eq_of_lt (by omega)]
  unfold fld
  refine ⟨by omega, ?_⟩
  congr 1
  · apply Fin.ext; rw [Fin.val_ofNat]; omega
  · apply Fin.ext; rw [Fin.val_ofNat]; omega
  · apply BitVec.eq_of_toNat_eq; rw [BitVec.toNat_ofNat]; omega

/-- The vector memory extension word (R125). -/
theorem VMemExt.fields {w : Word} (x : VMemExt) (n : Nat) (h : w = BitVec.ofNat 64 (x.toExt + n * 2 ^ 48)) (hn : n < 8) :
    fld w.toNat 37 3 = 0 ∧ fld w.toNat 48 3 = n ∧ fld w.toNat 56 8 = 0 ∧ VMemExt.ofExt? w = some x := by
  subst h
  have h1 := x.disp.isLt
  have h2 := x.base.isLt
  have h3 := x.ord.code_lt
  have h4 := x.scope.code_lt
  have h5 := x.ev.isLt
  have h6 := x.sx.isLt
  unfold VMemExt.ofExt? VMemExt.toExt
  rw [BitVec.toNat_ofNat, Nat.mod_eq_of_lt (by omega)]
  generalize hN : x.disp.toNat + x.base.val * 2 ^ 32 + x.ord.code * 2 ^ 40 + x.scope.code * 2 ^ 42 + x.ev.val * 2 ^ 45 + x.sx.val * 2 ^ 51 + n * 2 ^ 48 = N
  have e : fld N 42 3 = x.scope.code := by unfold fld; omega
  refine ⟨by unfold fld; omega, by unfold fld; omega, by unfold fld; omega, ?_⟩
  rw [e, Scope.ofCode?_code, Option.bind_some]
  congr 2
  · apply Fin.ext; rw [Fin.val_ofNat]; unfold fld; omega
  · apply Fin.ext; rw [Fin.val_ofNat]; unfold fld; omega
  · apply MemOrd.ofCode_of; unfold fld; omega
  · apply Fin.ext; rw [Fin.val_ofNat]; unfold fld; omega
  · apply BitVec.eq_of_toNat_eq; rw [BitVec.toNat_ofNat]; omega


/-- The type field of a vector base word (R32). -/
theorem vfn_hi (ty : ElType) (m : Reg) : (Fin.ofNat 256 (ty.code * 32 + m.val)).val / 32 = ty.code := by
  have := ty.code_lt; have := m.isLt; rw [Fin.val_ofNat]; omega
/-- The mask field of a vector base word (R32). -/
theorem vfn_lo (ty : ElType) (m : Reg) : Fin.ofNat 32 (Fin.ofNat 256 (ty.code * 32 + m.val)).val = m := by
  have := ty.code_lt; have := m.isLt; apply Fin.ext; rw [Fin.val_ofNat, Fin.val_ofNat]; omega
/-- The function field of a memory base word (R31). -/
theorem mfn {f : Fin 256} (k : Nat) (sz : Size) (q : MemQual) (h : Fin.ofNat 256 (k * 32 + sz.code * 8 + q.ev.val) = f) (hk : k < 8) :
    f.val / 32 = k ∧ Size.ofCode (f.val / 8) = sz ∧ Fin.ofNat 8 f.val = q.ev := by
  have := sz.code_lt; have := q.ev.isLt
  have hv : f.val = k * 32 + sz.code * 8 + q.ev.val := by rw [← h, Fin.val_ofNat]; omega
  exact ⟨by omega, Size.ofCode_of (by omega), by apply Fin.ext; rw [Fin.val_ofNat]; omega⟩
/-- The ordering and scope of a memory base word (R31). -/
theorem mb {b : Fin 32} (q : MemQual) (h : Fin.ofNat 32 (q.ord.code + q.scope.code * 4) = b) :
    Scope.ofCode? (b.val / 4) = some q.scope ∧ MemOrd.ofCode b.val = q.ord := by
  have := q.ord.code_lt; have := q.scope.code_lt
  have hv : b.val = q.ord.code + q.scope.code * 4 := by rw [← h, Fin.val_ofNat]; omega
  exact ⟨Scope.ofCode?_of (by omega), MemOrd.ofCode_of (by omega)⟩

end Sys2Proof
end

