-- ==== Sys2Proof/Laws/Memory.lean ====
section
/-! SUPPORT. The laws of memory: the canonical form (log 5) is kept by every operation on a memory, a byte that was written is read
back, and a write leaves every other byte alone. -/

namespace Sys2Proof.Machine

/-! ## Canonical form -/

/-- A memory whose addresses rise from a bound rises from a lower one. -/
theorem Memory.wfFrom_mono {lo lo' : Nat} (h : lo' ≤ lo) {m : Memory} (hm : Memory.wfFrom lo m = true) :
    Memory.wfFrom lo' m = true := by
  cases m with
  | nil => rfl
  | cons c t =>
    obtain ⟨a, b⟩ := c
    simp only [Memory.wfFrom, Bool.and_eq_true, decide_eq_true_eq] at hm ⊢
    exact ⟨⟨by omega, hm.1.2⟩, hm.2⟩

/-- No address below the bound is listed. -/
theorem look_below {lo : Nat} {m : Memory} (hm : Memory.wfFrom lo m = true) {a : Nat} (h : a < lo) : look a m = none := by
  induction m generalizing lo with
  | nil => rfl
  | cons c t ih =>
    obtain ⟨a', b⟩ := c
    simp only [Memory.wfFrom, Bool.and_eq_true, decide_eq_true_eq] at hm
    have : a ≠ a' := by omega
    simp [look, this, ih hm.2 (by omega)]

/-- Putting a byte that is not zero keeps the form. -/
theorem Memory.wfFrom_put {lo : Nat} {m : Memory} (hm : Memory.wfFrom lo m = true) {a : Nat} (ha : lo ≤ a) {b : Byte} (hb : b ≠ 0) :
    Memory.wfFrom lo (put a b m) = true := by
  induction m generalizing lo with
  | nil =>
    simp only [put, Memory.wfFrom, Bool.and_eq_true, decide_eq_true_eq]
    exact ⟨⟨ha, by simpa using hb⟩, trivial⟩
  | cons c t ih =>
    obtain ⟨a', b'⟩ := c
    simp only [Memory.wfFrom, Bool.and_eq_true, decide_eq_true_eq] at hm
    simp only [put]
    split
    · simp only [Memory.wfFrom, Bool.and_eq_true, decide_eq_true_eq]
      exact ⟨⟨ha, by simpa using hb⟩, ⟨by omega, hm.1.2⟩, hm.2⟩
    · split
      · simp only [Memory.wfFrom, Bool.and_eq_true, decide_eq_true_eq]
        exact ⟨⟨ha, by simpa using hb⟩, Memory.wfFrom_mono (by omega) hm.2⟩
      · simp only [Memory.wfFrom, Bool.and_eq_true, decide_eq_true_eq]
        exact ⟨hm.1, ih hm.2 (by omega)⟩

/-- Removing cells keeps the form. -/
theorem Memory.wfFrom_filter {lo : Nat} {m : Memory} (hm : Memory.wfFrom lo m = true) (p : Host.Cell → Bool) :
    Memory.wfFrom lo (m.filter p) = true := by
  induction m generalizing lo with
  | nil => rfl
  | cons c t ih =>
    obtain ⟨a', b⟩ := c
    simp only [Memory.wfFrom, Bool.and_eq_true, decide_eq_true_eq] at hm
    by_cases hp : p (a', b) = true
    · rw [List.filter_cons_of_pos hp]
      simp only [Memory.wfFrom, Bool.and_eq_true, decide_eq_true_eq]
      exact ⟨hm.1, ih hm.2⟩
    · rw [List.filter_cons_of_neg hp]
      exact Memory.wfFrom_mono (by omega) (ih hm.2)

/-- Writing a byte keeps the form. -/
theorem Memory.wf_wr {m : Memory} (hm : m.wf = true) (a : Nat) (b : Byte) : (m.wr a b).wf = true := by
  unfold Memory.wr Memory.wf
  split
  · exact Memory.wfFrom_filter hm _
  · exact Memory.wfFrom_put hm (Nat.zero_le a) (by assumption)

/-- Writing bytes keeps the form. -/
theorem Memory.wf_wrBytes {m : Memory} (hm : m.wf = true) (a : Nat) (l : List Byte) : (m.wrBytes a l).wf = true := by
  induction l generalizing m a with
  | nil => exact hm
  | cons b t ih => exact ih (Memory.wf_wr hm a b) (a + 1)

/-- Writing a word keeps the form. -/
theorem Memory.wf_wrWord {m : Memory} (hm : m.wf = true) (a : Nat) (x : Word) : (m.wrWord a x).wf = true :=
  Memory.wf_wrBytes hm a _

/-- Writing a block keeps the form. -/
theorem Memory.wf_wrBlock {m : Memory} (hm : m.wf = true) (a : Nat) (b : Block) : (m.wrBlock a b).wf = true :=
  Memory.wf_wrBytes hm a _

/-- Writing bytes of a block under a mask keeps the form. -/
theorem Memory.wf_wrMask {m : Memory} (hm : m.wf = true) (a : Nat) (b : Block) (k : BitVec 64) : (m.wrMask a b k).wf = true := by
  unfold Memory.wrMask
  induction List.range 64 generalizing m with
  | nil => exact hm
  | cons i t ih =>
    simp only [List.foldl_cons]
    split
    · exact ih (Memory.wf_wr hm _ _)
    · exact ih hm

/-- Clearing a range keeps the form. -/
theorem Memory.wf_clear {m : Memory} (hm : m.wf = true) (a n : Nat) : (m.clear a n).wf = true := Memory.wfFrom_filter hm _

/-- Memory after reset has the form. -/
theorem State.reset_mem_wf : State.reset.mem.wf = true := rfl

/-! ## Reading after writing -/

/-- Taking out an address leaves no cell of it, and every other cell. -/
theorem look_filter_ne (a c : Nat) (m : Memory) : look c (m.filter fun x => x.1 != a) = if c = a then none else look c m := by
  induction m with
  | nil => simp [look]
  | cons p t ih =>
    obtain ⟨a', b'⟩ := p
    by_cases h : a' = a
    · subst h
      simp only [List.filter_cons, bne_self_eq_false, Bool.false_eq_true, if_false, ih, look]
      split <;> simp_all
    · simp only [List.filter_cons, bne_iff_ne, ne_eq, h, not_false_eq_true, if_true, look, ih]
      split
      · rename_i h2; subst h2; simp [h]
      · rfl

/-- A byte put in a memory is listed. -/
theorem look_put_cell (a : Nat) (b : Byte) (m : Memory) : look a (put a b m) = some b := by
  induction m with
  | nil => simp [put, look]
  | cons c t ih =>
    obtain ⟨a', b'⟩ := c
    simp only [put]
    split
    · simp [look]
    · split
      · simp [look]
      · rename_i h; simp [look, h, ih]

/-- A byte that was written is read back. -/
theorem Memory.rd_wr_self (m : Memory) (a : Nat) (b : Byte) : (m.wr a b).rd a = b := by
  unfold Memory.wr Memory.rd
  split
  · rename_i h; simp [look_filter_ne, h]
  · rw [look_put_cell]; rfl

/-- Another byte is as it was. -/
theorem Memory.rd_wr_ne {a c : Nat} (h : c ≠ a) (m : Memory) (b : Byte) : (m.wr a b).rd c = m.rd c := by
  unfold Memory.wr Memory.rd
  have hp : ∀ t : Memory, look c (put a b t) = look c t := by
    intro t
    induction t with
    | nil => simp [put, look, h]
    | cons p t ih =>
      obtain ⟨a', b'⟩ := p
      simp only [put]
      split
      · simp [look, h]
      · split
        · rename_i h2; subst h2; simp [look, h]
        · simp [look, ih]
  split
  · simp [look_filter_ne, h]
  · rw [hp]

/-- Bytes outside those written are as they were. -/
theorem Memory.rd_wrBytes_out {a c : Nat} (l : List Byte) (h : c < a ∨ a + l.length ≤ c) (m : Memory) :
    (m.wrBytes a l).rd c = m.rd c := by
  induction l generalizing m a with
  | nil => rfl
  | cons b t ih =>
    simp only [List.length_cons] at h
    simp only [Memory.wrBytes]
    rw [ih (by omega), Memory.rd_wr_ne (by omega)]

/-- Bytes that were written are read back, the first at the lowest address (R25). -/
theorem Memory.rd_wrBytes_in (m : Memory) (a : Nat) (l : List Byte) (i : Nat) (h : i < l.length) :
    (m.wrBytes a l).rd (a + i) = l[i] := by
  induction l generalizing m a i with
  | nil => simp at h
  | cons b t ih =>
    simp only [Memory.wrBytes]
    cases i with
    | zero =>
      rw [Memory.rd_wrBytes_out t (by omega)]
      simp [Memory.rd_wr_self]
    | succ i =>
      have := ih (m.wr a b) (a + 1) i (by simpa using h)
      simpa [Nat.add_assoc, Nat.add_comm 1 i] using this

/-- The bytes of a range that was written are those written. -/
theorem Memory.bytes_wrBytes (m : Memory) (a : Nat) (l : List Byte) :
    (m.wrBytes a l).bytes a l.length = l := by
  induction l generalizing m a with
  | nil => rfl
  | cons b t ih =>
    simp only [Memory.wrBytes, List.length_cons, Memory.bytes, ih]
    rw [Memory.rd_wrBytes_out t (by omega), Memory.rd_wr_self]

/-- The bytes of a range that a write does not meet are as they were. -/
theorem Memory.bytes_wrBytes_out (m : Memory) {a c n : Nat} (l : List Byte) (h : c + n ≤ a ∨ a + l.length ≤ c) :
    (m.wrBytes a l).bytes c n = m.bytes c n := by
  induction n generalizing c with
  | zero => rfl
  | succ n ih =>
    simp only [Memory.bytes]
    rw [ih (by omega), Memory.rd_wrBytes_out l (by omega)]

end Sys2Proof.Machine
end

