-- ==== Sys2Proof/Laws/PerInstr.lean ====
section
/-! SUPPORT. The family Encoding of LAWS.json: decoding the fields that the encoder writes for an instruction gives it back. One
lemma for each constructor of Instr. -/

set_option Elab.async false
set_option linter.unusedSimpArgs false

set_option linter.unnecessarySeqFocus false
set_option linter.unreachableTactic false
set_option linter.unusedTactic false

namespace Sys2Proof

namespace Laws.Encoding

/-- What the family says of an instruction: its words decode to it, if it is an instruction and its operands are allowed. -/
def Statement (i : Instr) : Prop := i.hasWords = true → i.wf = true → decodeFields (encodeRaw i) = some i

/-! ## The decoder of each major -/

theorem decode01_eq (r : Raw) (h : r.major = 0x01) : decodeFields r = decode01 r := by unfold decodeFields; rw [h]; rfl
theorem decode02_eq (r : Raw) (h : r.major = 0x02) : decodeFields r = decode02 r := by unfold decodeFields; rw [h]; rfl
theorem decode03_eq (r : Raw) (h : r.major = 0x03) : decodeFields r = decode03 r := by unfold decodeFields; rw [h]; rfl
theorem decode04_eq (r : Raw) (h : r.major = 0x04) : decodeFields r = decode04 r := by unfold decodeFields; rw [h]; rfl
theorem decode05_eq (r : Raw) (h : r.major = 0x05) : decodeFields r = decode05 r := by unfold decodeFields; rw [h]; rfl
theorem decode06_eq (r : Raw) (h : r.major = 0x06) : decodeFields r = decode06 r := by unfold decodeFields; rw [h]; rfl
theorem decode07_eq (r : Raw) (h : r.major = 0x07) : decodeFields r = decode07 r := by unfold decodeFields; rw [h]; rfl
theorem decode08_eq (r : Raw) (h : r.major = 0x08) : decodeFields r = decode08 r := by unfold decodeFields; rw [h]; rfl
theorem decode09_eq (r : Raw) (h : r.major = 0x09) : decodeFields r = decode09 r := by unfold decodeFields; rw [h]; rfl
theorem decode0A_eq (r : Raw) (h : r.major = 0x0A) : decodeFields r = decode0A r := by unfold decodeFields; rw [h]; rfl
theorem decode0B_eq (r : Raw) (h : r.major = 0x0B) : decodeFields r = decode0B r := by unfold decodeFields; rw [h]; rfl
theorem decode0C_eq (r : Raw) (h : r.major = 0x0C) : decodeFields r = decode0C r := by unfold decodeFields; rw [h]; rfl
theorem decode10_eq (r : Raw) (h : r.major = 0x10) : decodeFields r = decode10 r := by unfold decodeFields; rw [h]; rfl
theorem decode11_eq (r : Raw) (h : r.major = 0x11) : decodeFields r = decode11 r := by unfold decodeFields; rw [h]; rfl
theorem decode12_eq (r : Raw) (h : r.major = 0x12) : decodeFields r = decode12 r := by unfold decodeFields; rw [h]; rfl
theorem decode13_eq (r : Raw) (h : r.major = 0x13) : decodeFields r = decode13 r := by unfold decodeFields; rw [h]; rfl
theorem decode18_eq (r : Raw) (h : r.major = 0x18) : decodeFields r = decode18 r := by unfold decodeFields; rw [h]; rfl
theorem decode19_eq (r : Raw) (h : r.major = 0x19) : decodeFields r = decode19 r := by unfold decodeFields; rw [h]; rfl
theorem decode1A_eq (r : Raw) (h : r.major = 0x1A) : decodeFields r = decode1A r := by unfold decodeFields; rw [h]; rfl
theorem decode1B_eq (r : Raw) (h : r.major = 0x1B) : decodeFields r = decode1B r := by unfold decodeFields; rw [h]; rfl
theorem decode1C_eq (r : Raw) (h : r.major = 0x1C) : decodeFields r = decode1C r := by unfold decodeFields; rw [h]; rfl
theorem decode20_eq (r : Raw) (h : r.major = 0x20) : decodeFields r = decode20 r := by unfold decodeFields; rw [h]; rfl
theorem decode21_eq (r : Raw) (h : r.major = 0x21) : decodeFields r = decode21 r := by unfold decodeFields; rw [h]; rfl
theorem decode22_eq (r : Raw) (h : r.major = 0x22) : decodeFields r = decode22 r := by unfold decodeFields; rw [h]; rfl
theorem decode23_eq (r : Raw) (h : r.major = 0x23) : decodeFields r = decode23 r := by unfold decodeFields; rw [h]; rfl
theorem decode24_eq (r : Raw) (h : r.major = 0x24) : decodeFields r = decode24 r := by unfold decodeFields; rw [h]; rfl
theorem decode25_eq (r : Raw) (h : r.major = 0x25) : decodeFields r = decode25 r := by unfold decodeFields; rw [h]; rfl
theorem decode26_eq (r : Raw) (h : r.major = 0x26) : decodeFields r = decode26 r := by unfold decodeFields; rw [h]; rfl
theorem decode27_eq (r : Raw) (h : r.major = 0x27) : decodeFields r = decode27 r := by unfold decodeFields; rw [h]; rfl
theorem decode28_eq (r : Raw) (h : r.major = 0x28) : decodeFields r = decode28 r := by unfold decodeFields; rw [h]; rfl
theorem decode29_eq (r : Raw) (h : r.major = 0x29) : decodeFields r = decode29 r := by unfold decodeFields; rw [h]; rfl
theorem decode30_eq (r : Raw) (h : r.major = 0x30) : decodeFields r = decode30 r := by unfold decodeFields; rw [h]; rfl
theorem decode31_eq (r : Raw) (h : r.major = 0x31) : decodeFields r = decode31 r := by unfold decodeFields; rw [h]; rfl
theorem decode32_eq (r : Raw) (h : r.major = 0x32) : decodeFields r = decode32 r := by unfold decodeFields; rw [h]; rfl
theorem decode33_eq (r : Raw) (h : r.major = 0x33) : decodeFields r = decode33 r := by unfold decodeFields; rw [h]; rfl
theorem decode34_eq (r : Raw) (h : r.major = 0x34) : decodeFields r = decode34 r := by unfold decodeFields; rw [h]; rfl
theorem decode35_eq (r : Raw) (h : r.major = 0x35) : decodeFields r = decode35 r := by unfold decodeFields; rw [h]; rfl
theorem decode36_eq (r : Raw) (h : r.major = 0x36) : decodeFields r = decode36 r := by unfold decodeFields; rw [h]; rfl
theorem decode38_eq (r : Raw) (h : r.major = 0x38) : decodeFields r = decode38 r := by unfold decodeFields; rw [h]; rfl
theorem decode39_eq (r : Raw) (h : r.major = 0x39) : decodeFields r = decode39 r := by unfold decodeFields; rw [h]; rfl
theorem decode3A_eq (r : Raw) (h : r.major = 0x3A) : decodeFields r = decode3A r := by unfold decodeFields; rw [h]; rfl
theorem decode3B_eq (r : Raw) (h : r.major = 0x3B) : decodeFields r = decode3B r := by unfold decodeFields; rw [h]; rfl
theorem decode3C_eq (r : Raw) (h : r.major = 0x3C) : decodeFields r = decode3C r := by unfold decodeFields; rw [h]; rfl
theorem decode3D_eq (r : Raw) (h : r.major = 0x3D) : decodeFields r = decode3D r := by unfold decodeFields; rw [h]; rfl
theorem decode3E_eq (r : Raw) (h : r.major = 0x3E) : decodeFields r = decode3E r := by unfold decodeFields; rw [h]; rfl
theorem decode40_eq (r : Raw) (h : r.major = 0x40) : decodeFields r = decode40 r := by unfold decodeFields; rw [h]; rfl
theorem decode41_eq (r : Raw) (h : r.major = 0x41) : decodeFields r = decode41 r := by unfold decodeFields; rw [h]; rfl
theorem decode42_eq (r : Raw) (h : r.major = 0x42) : decodeFields r = decode42 r := by unfold decodeFields; rw [h]; rfl
theorem decode43_eq (r : Raw) (h : r.major = 0x43) : decodeFields r = decode43 r := by unfold decodeFields; rw [h]; rfl
theorem decode44_eq (r : Raw) (h : r.major = 0x44) : decodeFields r = decode44 r := by unfold decodeFields; rw [h]; rfl
theorem decode45_eq (r : Raw) (h : r.major = 0x45) : decodeFields r = decode45 r := by unfold decodeFields; rw [h]; rfl
theorem decode46_eq (r : Raw) (h : r.major = 0x46) : decodeFields r = decode46 r := by unfold decodeFields; rw [h]; rfl
theorem decode47_eq (r : Raw) (h : r.major = 0x47) : decodeFields r = decode47 r := by unfold decodeFields; rw [h]; rfl
theorem decode48_eq (r : Raw) (h : r.major = 0x48) : decodeFields r = decode48 r := by unfold decodeFields; rw [h]; rfl
theorem decode49_eq (r : Raw) (h : r.major = 0x49) : decodeFields r = decode49 r := by unfold decodeFields; rw [h]; rfl
theorem decode4A_eq (r : Raw) (h : r.major = 0x4A) : decodeFields r = decode4A r := by unfold decodeFields; rw [h]; rfl
theorem decode4B_eq (r : Raw) (h : r.major = 0x4B) : decodeFields r = decode4B r := by unfold decodeFields; rw [h]; rfl
theorem decode4C_eq (r : Raw) (h : r.major = 0x4C) : decodeFields r = decode4C r := by unfold decodeFields; rw [h]; rfl
theorem decode4D_eq (r : Raw) (h : r.major = 0x4D) : decodeFields r = decode4D r := by unfold decodeFields; rw [h]; rfl
theorem decode4E_eq (r : Raw) (h : r.major = 0x4E) : decodeFields r = decode4E r := by unfold decodeFields; rw [h]; rfl
theorem decode4F_eq (r : Raw) (h : r.major = 0x4F) : decodeFields r = decode4F r := by unfold decodeFields; rw [h]; rfl
theorem decode50_eq (r : Raw) (h : r.major = 0x50) : decodeFields r = decode50 r := by unfold decodeFields; rw [h]; rfl
theorem decode51_eq (r : Raw) (h : r.major = 0x51) : decodeFields r = decode51 r := by unfold decodeFields; rw [h]; rfl
theorem decode52_eq (r : Raw) (h : r.major = 0x52) : decodeFields r = decode52 r := by unfold decodeFields; rw [h]; rfl
theorem decode58_eq (r : Raw) (h : r.major = 0x58) : decodeFields r = decode58 r := by unfold decodeFields; rw [h]; rfl
theorem decode59_eq (r : Raw) (h : r.major = 0x59) : decodeFields r = decode59 r := by unfold decodeFields; rw [h]; rfl
theorem decode5A_eq (r : Raw) (h : r.major = 0x5A) : decodeFields r = decode5A r := by unfold decodeFields; rw [h]; rfl
theorem decode5B_eq (r : Raw) (h : r.major = 0x5B) : decodeFields r = decode5B r := by unfold decodeFields; rw [h]; rfl
theorem decode5C_eq (r : Raw) (h : r.major = 0x5C) : decodeFields r = decode5C r := by unfold decodeFields; rw [h]; rfl
theorem decode5D_eq (r : Raw) (h : r.major = 0x5D) : decodeFields r = decode5D r := by unfold decodeFields; rw [h]; rfl
theorem decode60_eq (r : Raw) (h : r.major = 0x60) : decodeFields r = decode60 r := by unfold decodeFields; rw [h]; rfl
theorem decode61_eq (r : Raw) (h : r.major = 0x61) : decodeFields r = decode61 r := by unfold decodeFields; rw [h]; rfl
theorem decode62_eq (r : Raw) (h : r.major = 0x62) : decodeFields r = decode62 r := by unfold decodeFields; rw [h]; rfl
theorem decode63_eq (r : Raw) (h : r.major = 0x63) : decodeFields r = decode63 r := by unfold decodeFields; rw [h]; rfl
theorem decode64_eq (r : Raw) (h : r.major = 0x64) : decodeFields r = decode64 r := by unfold decodeFields; rw [h]; rfl
theorem decode65_eq (r : Raw) (h : r.major = 0x65) : decodeFields r = decode65 r := by unfold decodeFields; rw [h]; rfl
theorem decode66_eq (r : Raw) (h : r.major = 0x66) : decodeFields r = decode66 r := by unfold decodeFields; rw [h]; rfl
theorem decode67_eq (r : Raw) (h : r.major = 0x67) : decodeFields r = decode67 r := by unfold decodeFields; rw [h]; rfl
theorem decode70_eq (r : Raw) (h : r.major = 0x70) : decodeFields r = decode70 r := by unfold decodeFields; rw [h]; rfl
theorem decode71_eq (r : Raw) (h : r.major = 0x71) : decodeFields r = decode71 r := by unfold decodeFields; rw [h]; rfl
theorem decode72_eq (r : Raw) (h : r.major = 0x72) : decodeFields r = decode72 r := by unfold decodeFields; rw [h]; rfl
theorem decode78_eq (r : Raw) (h : r.major = 0x78) : decodeFields r = decode78 r := by unfold decodeFields; rw [h]; rfl
theorem decode79_eq (r : Raw) (h : r.major = 0x79) : decodeFields r = decode79 r := by unfold decodeFields; rw [h]; rfl
theorem decode7A_eq (r : Raw) (h : r.major = 0x7A) : decodeFields r = decode7A r := by unfold decodeFields; rw [h]; rfl
theorem decode7B_eq (r : Raw) (h : r.major = 0x7B) : decodeFields r = decode7B r := by unfold decodeFields; rw [h]; rfl

/-! ## The constructors -/

theorem add (d : Reg) (a : Reg) (b : Reg) : Statement (.add d a b) := fun _ _ => (decode01_eq _ rfl).trans rfl

theorem addLit (d : Reg) (a : Reg) (x : Word) : Statement (.addLit d a x) := fun _ _ => (decode01_eq _ rfl).trans rfl

theorem sub (d : Reg) (a : Reg) (b : Reg) : Statement (.sub d a b) := fun _ _ => (decode01_eq _ rfl).trans rfl

theorem subLit (d : Reg) (a : Reg) (x : Word) : Statement (.subLit d a x) := fun _ _ => (decode01_eq _ rfl).trans rfl

theorem and (d : Reg) (a : Reg) (b : Reg) : Statement (.and d a b) := fun _ _ => (decode01_eq _ rfl).trans rfl

theorem andLit (d : Reg) (a : Reg) (x : Word) : Statement (.andLit d a x) := fun _ _ => (decode01_eq _ rfl).trans rfl

theorem or (d : Reg) (a : Reg) (b : Reg) : Statement (.or d a b) := fun _ _ => (decode01_eq _ rfl).trans rfl

theorem orLit (d : Reg) (a : Reg) (x : Word) : Statement (.orLit d a x) := fun _ _ => (decode01_eq _ rfl).trans rfl

theorem xor (d : Reg) (a : Reg) (b : Reg) : Statement (.xor d a b) := fun _ _ => (decode01_eq _ rfl).trans rfl

theorem xorLit (d : Reg) (a : Reg) (x : Word) : Statement (.xorLit d a x) := fun _ _ => (decode01_eq _ rfl).trans rfl

theorem andn (d : Reg) (a : Reg) (b : Reg) : Statement (.andn d a b) := fun _ _ => (decode01_eq _ rfl).trans rfl

theorem andnLit (d : Reg) (a : Reg) (x : Word) : Statement (.andnLit d a x) := fun _ _ => (decode01_eq _ rfl).trans rfl

theorem sll (d : Reg) (a : Reg) (b : Reg) : Statement (.sll d a b) := fun _ _ => (decode01_eq _ rfl).trans rfl

theorem sllLit (d : Reg) (a : Reg) (x : Word) : Statement (.sllLit d a x) := fun _ _ => (decode01_eq _ rfl).trans rfl

theorem srl (d : Reg) (a : Reg) (b : Reg) : Statement (.srl d a b) := fun _ _ => (decode01_eq _ rfl).trans rfl

theorem srlLit (d : Reg) (a : Reg) (x : Word) : Statement (.srlLit d a x) := fun _ _ => (decode01_eq _ rfl).trans rfl

theorem sra (d : Reg) (a : Reg) (b : Reg) : Statement (.sra d a b) := fun _ _ => (decode01_eq _ rfl).trans rfl

theorem sraLit (d : Reg) (a : Reg) (x : Word) : Statement (.sraLit d a x) := fun _ _ => (decode01_eq _ rfl).trans rfl

theorem ror (d : Reg) (a : Reg) (b : Reg) : Statement (.ror d a b) := fun _ _ => (decode01_eq _ rfl).trans rfl

theorem rorLit (d : Reg) (a : Reg) (x : Word) : Statement (.rorLit d a x) := fun _ _ => (decode01_eq _ rfl).trans rfl

theorem slt (d : Reg) (a : Reg) (b : Reg) : Statement (.slt d a b) := fun _ _ => (decode01_eq _ rfl).trans rfl

theorem sltLit (d : Reg) (a : Reg) (x : Word) : Statement (.sltLit d a x) := fun _ _ => (decode01_eq _ rfl).trans rfl

theorem sltu (d : Reg) (a : Reg) (b : Reg) : Statement (.sltu d a b) := fun _ _ => (decode01_eq _ rfl).trans rfl

theorem sltuLit (d : Reg) (a : Reg) (x : Word) : Statement (.sltuLit d a x) := fun _ _ => (decode01_eq _ rfl).trans rfl

theorem seq (d : Reg) (a : Reg) (b : Reg) : Statement (.seq d a b) := fun _ _ => (decode01_eq _ rfl).trans rfl

theorem seqLit (d : Reg) (a : Reg) (x : Word) : Statement (.seqLit d a x) := fun _ _ => (decode01_eq _ rfl).trans rfl

theorem min (d : Reg) (a : Reg) (b : Reg) : Statement (.min d a b) := fun _ _ => (decode01_eq _ rfl).trans rfl

theorem minLit (d : Reg) (a : Reg) (x : Word) : Statement (.minLit d a x) := fun _ _ => (decode01_eq _ rfl).trans rfl

theorem max (d : Reg) (a : Reg) (b : Reg) : Statement (.max d a b) := fun _ _ => (decode01_eq _ rfl).trans rfl

theorem maxLit (d : Reg) (a : Reg) (x : Word) : Statement (.maxLit d a x) := fun _ _ => (decode01_eq _ rfl).trans rfl

theorem minu (d : Reg) (a : Reg) (b : Reg) : Statement (.minu d a b) := fun _ _ => (decode01_eq _ rfl).trans rfl

theorem minuLit (d : Reg) (a : Reg) (x : Word) : Statement (.minuLit d a x) := fun _ _ => (decode01_eq _ rfl).trans rfl

theorem maxu (d : Reg) (a : Reg) (b : Reg) : Statement (.maxu d a b) := fun _ _ => (decode01_eq _ rfl).trans rfl

theorem maxuLit (d : Reg) (a : Reg) (x : Word) : Statement (.maxuLit d a x) := fun _ _ => (decode01_eq _ rfl).trans rfl

theorem mul (d : Reg) (a : Reg) (b : Reg) : Statement (.mul d a b) := fun _ _ => (decode02_eq _ rfl).trans rfl

theorem mulLit (d : Reg) (a : Reg) (x : Word) : Statement (.mulLit d a x) := fun _ _ => (decode02_eq _ rfl).trans rfl

theorem mulh (d : Reg) (a : Reg) (b : Reg) : Statement (.mulh d a b) := fun _ _ => (decode02_eq _ rfl).trans rfl

theorem mulhLit (d : Reg) (a : Reg) (x : Word) : Statement (.mulhLit d a x) := fun _ _ => (decode02_eq _ rfl).trans rfl

theorem mulhu (d : Reg) (a : Reg) (b : Reg) : Statement (.mulhu d a b) := fun _ _ => (decode02_eq _ rfl).trans rfl

theorem mulhuLit (d : Reg) (a : Reg) (x : Word) : Statement (.mulhuLit d a x) := fun _ _ => (decode02_eq _ rfl).trans rfl

theorem div (d : Reg) (a : Reg) (b : Reg) : Statement (.div d a b) := fun _ _ => (decode02_eq _ rfl).trans rfl

theorem divLit (d : Reg) (a : Reg) (x : Word) : Statement (.divLit d a x) := fun _ _ => (decode02_eq _ rfl).trans rfl

theorem divu (d : Reg) (a : Reg) (b : Reg) : Statement (.divu d a b) := fun _ _ => (decode02_eq _ rfl).trans rfl

theorem divuLit (d : Reg) (a : Reg) (x : Word) : Statement (.divuLit d a x) := fun _ _ => (decode02_eq _ rfl).trans rfl

theorem rem (d : Reg) (a : Reg) (b : Reg) : Statement (.rem d a b) := fun _ _ => (decode02_eq _ rfl).trans rfl

theorem remLit (d : Reg) (a : Reg) (x : Word) : Statement (.remLit d a x) := fun _ _ => (decode02_eq _ rfl).trans rfl

theorem remu (d : Reg) (a : Reg) (b : Reg) : Statement (.remu d a b) := fun _ _ => (decode02_eq _ rfl).trans rfl

theorem remuLit (d : Reg) (a : Reg) (x : Word) : Statement (.remuLit d a x) := fun _ _ => (decode02_eq _ rfl).trans rfl

theorem addi (d : Reg) (a : Reg) (imm : BitVec 13) : Statement (.addi d a imm) := fun _ _ => by
  refine (decode03_eq { len := 0, major := 3, d := d, a := a, b := Fin.ofNat 32 (imm.toNat % 32), fn := Fin.ofNat 256 (imm.toNat / 32) } rfl).trans ?_
  have := imm.isLt
  generalize hb0 : Fin.ofNat 32 (imm.toNat % 32) = b0
  have hb0v : b0.val = (imm.toNat % 32) := by rw [← hb0, Fin.val_ofNat] <;> omega
  clear hb0
  generalize hf : Fin.ofNat 256 (imm.toNat / 32) = f
  have hfv : f.val = (imm.toNat / 32) := by rw [← hf, Fin.val_ofNat] <;> omega
  clear hf
  have g1 : BitVec.ofNat 13 (f.val * 32 + b0.val) = imm := by apply BitVec.eq_of_toNat_eq; rw [BitVec.toNat_ofNat]; omega
  simp only [decode03, g1, fin_ofNat_val, bv_ofNat_toNat] <;> rfl

theorem andi (d : Reg) (a : Reg) (imm : BitVec 13) : Statement (.andi d a imm) := fun _ _ => by
  refine (decode04_eq { len := 0, major := 4, d := d, a := a, b := Fin.ofNat 32 (imm.toNat % 32), fn := Fin.ofNat 256 (imm.toNat / 32) } rfl).trans ?_
  have := imm.isLt
  generalize hb0 : Fin.ofNat 32 (imm.toNat % 32) = b0
  have hb0v : b0.val = (imm.toNat % 32) := by rw [← hb0, Fin.val_ofNat] <;> omega
  clear hb0
  generalize hf : Fin.ofNat 256 (imm.toNat / 32) = f
  have hfv : f.val = (imm.toNat / 32) := by rw [← hf, Fin.val_ofNat] <;> omega
  clear hf
  have g1 : BitVec.ofNat 13 (f.val * 32 + b0.val) = imm := by apply BitVec.eq_of_toNat_eq; rw [BitVec.toNat_ofNat]; omega
  simp only [decode04, g1, fin_ofNat_val, bv_ofNat_toNat] <;> rfl

theorem slli (d : Reg) (a : Reg) (n : Fin 64) : Statement (.slli d a n) := fun _ _ => by
  refine (decode05_eq { len := 0, major := 5, d := d, a := a, fn := Fin.ofNat 256 (0 * 64 + n.val) } rfl).trans ?_
  have := n.isLt
  generalize hf : Fin.ofNat 256 (0 * 64 + n.val) = f
  have hfv : f.val = (0 * 64 + n.val) := by rw [← hf, Fin.val_ofNat] <;> omega
  clear hf
  have g1 : f.val / 64 = 0 := by omega
  have g2 : Fin.ofNat 64 f.val = n := by apply Fin.ext; rw [Fin.val_ofNat]; omega
  simp only [decode05, g1, g2, fin_ofNat_val] <;> rfl

theorem srli (d : Reg) (a : Reg) (n : Fin 64) : Statement (.srli d a n) := fun _ _ => by
  refine (decode05_eq { len := 0, major := 5, d := d, a := a, fn := Fin.ofNat 256 (1 * 64 + n.val) } rfl).trans ?_
  have := n.isLt
  generalize hf : Fin.ofNat 256 (1 * 64 + n.val) = f
  have hfv : f.val = (1 * 64 + n.val) := by rw [← hf, Fin.val_ofNat] <;> omega
  clear hf
  have g1 : f.val / 64 = 1 := by omega
  have g2 : Fin.ofNat 64 f.val = n := by apply Fin.ext; rw [Fin.val_ofNat]; omega
  simp only [decode05, g1, g2, fin_ofNat_val] <;> rfl

theorem srai (d : Reg) (a : Reg) (n : Fin 64) : Statement (.srai d a n) := fun _ _ => by
  refine (decode05_eq { len := 0, major := 5, d := d, a := a, fn := Fin.ofNat 256 (2 * 64 + n.val) } rfl).trans ?_
  have := n.isLt
  generalize hf : Fin.ofNat 256 (2 * 64 + n.val) = f
  have hfv : f.val = (2 * 64 + n.val) := by rw [← hf, Fin.val_ofNat] <;> omega
  clear hf
  have g1 : f.val / 64 = 2 := by omega
  have g2 : Fin.ofNat 64 f.val = n := by apply Fin.ext; rw [Fin.val_ofNat]; omega
  simp only [decode05, g1, g2, fin_ofNat_val] <;> rfl

theorem rori (d : Reg) (a : Reg) (n : Fin 64) : Statement (.rori d a n) := fun _ _ => by
  refine (decode05_eq { len := 0, major := 5, d := d, a := a, fn := Fin.ofNat 256 (3 * 64 + n.val) } rfl).trans ?_
  have := n.isLt
  generalize hf : Fin.ofNat 256 (3 * 64 + n.val) = f
  have hfv : f.val = (3 * 64 + n.val) := by rw [← hf, Fin.val_ofNat] <;> omega
  clear hf
  have g1 : f.val / 64 = 3 := by omega
  have g2 : Fin.ofNat 64 f.val = n := by apply Fin.ext; rw [Fin.val_ofNat]; omega
  simp only [decode05, g1, g2, fin_ofNat_val] <;> rfl

theorem clz (d : Reg) (a : Reg) : Statement (.clz d a) := fun _ _ => (decode06_eq _ rfl).trans rfl

theorem ctz (d : Reg) (a : Reg) : Statement (.ctz d a) := fun _ _ => (decode06_eq _ rfl).trans rfl

theorem popc (d : Reg) (a : Reg) : Statement (.popc d a) := fun _ _ => (decode06_eq _ rfl).trans rfl

theorem brev (d : Reg) (a : Reg) : Statement (.brev d a) := fun _ _ => (decode06_eq _ rfl).trans rfl

theorem bswap (d : Reg) (a : Reg) : Statement (.bswap d a) := fun _ _ => (decode06_eq _ rfl).trans rfl

theorem bset (d : Reg) (a : Reg) (b : Reg) : Statement (.bset d a b) := fun _ _ => (decode06_eq _ rfl).trans rfl

theorem bsetLit (d : Reg) (a : Reg) (x : Word) : Statement (.bsetLit d a x) := fun _ _ => (decode06_eq _ rfl).trans rfl

theorem bclr (d : Reg) (a : Reg) (b : Reg) : Statement (.bclr d a b) := fun _ _ => (decode06_eq _ rfl).trans rfl

theorem bclrLit (d : Reg) (a : Reg) (x : Word) : Statement (.bclrLit d a x) := fun _ _ => (decode06_eq _ rfl).trans rfl

theorem binv (d : Reg) (a : Reg) (b : Reg) : Statement (.binv d a b) := fun _ _ => (decode06_eq _ rfl).trans rfl

theorem binvLit (d : Reg) (a : Reg) (x : Word) : Statement (.binvLit d a x) := fun _ _ => (decode06_eq _ rfl).trans rfl

theorem bext (d : Reg) (a : Reg) (b : Reg) : Statement (.bext d a b) := fun _ _ => (decode06_eq _ rfl).trans rfl

theorem bextLit (d : Reg) (a : Reg) (x : Word) : Statement (.bextLit d a x) := fun _ _ => (decode06_eq _ rfl).trans rfl

theorem lowb (d : Reg) (a : Reg) : Statement (.lowb d a) := fun _ _ => (decode06_eq _ rfl).trans rfl

theorem clrlow (d : Reg) (a : Reg) : Statement (.clrlow d a) := fun _ _ => (decode06_eq _ rfl).trans rfl

theorem maskn (d : Reg) (a : Reg) : Statement (.maskn d a) := fun _ _ => (decode06_eq _ rfl).trans rfl

theorem extu (d : Reg) (a : Reg) (pos : Fin 64) (len1 : Fin 64) : Statement (.extu d a pos len1) := fun _ _ => by
  refine (decode07_eq { len := 0, major := 7, d := d, a := a, b := Fin.ofNat 32 (pos.val % 32), fn := Fin.ofNat 256 (0 * 128 + len1.val * 2 + pos.val / 32) } rfl).trans ?_
  have := pos.isLt
  have := len1.isLt
  generalize hb0 : Fin.ofNat 32 (pos.val % 32) = b0
  have hb0v : b0.val = (pos.val % 32) := by rw [← hb0, Fin.val_ofNat] <;> omega
  clear hb0
  generalize hf : Fin.ofNat 256 (0 * 128 + len1.val * 2 + pos.val / 32) = f
  have hfv : f.val = (0 * 128 + len1.val * 2 + pos.val / 32) := by rw [← hf, Fin.val_ofNat] <;> omega
  clear hf
  have g1 : f.val / 128 = 0 := by omega
  have g2 : Fin.ofNat 64 (f.val % 2 * 32 + b0.val) = pos := by apply Fin.ext; rw [Fin.val_ofNat]; omega
  have g3 : Fin.ofNat 64 (f.val / 2) = len1 := by apply Fin.ext; rw [Fin.val_ofNat]; omega
  simp only [decode07, g1, g2, g3, fin_ofNat_val] <;> rfl

theorem exts (d : Reg) (a : Reg) (pos : Fin 64) (len1 : Fin 64) : Statement (.exts d a pos len1) := fun _ _ => by
  refine (decode07_eq { len := 0, major := 7, d := d, a := a, b := Fin.ofNat 32 (pos.val % 32), fn := Fin.ofNat 256 (1 * 128 + len1.val * 2 + pos.val / 32) } rfl).trans ?_
  have := pos.isLt
  have := len1.isLt
  generalize hb0 : Fin.ofNat 32 (pos.val % 32) = b0
  have hb0v : b0.val = (pos.val % 32) := by rw [← hb0, Fin.val_ofNat] <;> omega
  clear hb0
  generalize hf : Fin.ofNat 256 (1 * 128 + len1.val * 2 + pos.val / 32) = f
  have hfv : f.val = (1 * 128 + len1.val * 2 + pos.val / 32) := by rw [← hf, Fin.val_ofNat] <;> omega
  clear hf
  have g1 : f.val / 128 = 1 := by omega
  have g2 : Fin.ofNat 64 (f.val % 2 * 32 + b0.val) = pos := by apply Fin.ext; rw [Fin.val_ofNat]; omega
  have g3 : Fin.ofNat 64 (f.val / 2) = len1 := by apply Fin.ext; rw [Fin.val_ofNat]; omega
  simp only [decode07, g1, g2, g3, fin_ofNat_val] <;> rfl

theorem fins (d : Reg) (a : Reg) (pos : Fin 64) (len1 : Fin 64) : Statement (.fins d a pos len1) := fun _ _ => by
  refine (decode08_eq { len := 0, major := 8, d := d, a := a, b := Fin.ofNat 32 (pos.val % 32), fn := Fin.ofNat 256 (0 * 128 + len1.val * 2 + pos.val / 32) } rfl).trans ?_
  have := pos.isLt
  have := len1.isLt
  generalize hb0 : Fin.ofNat 32 (pos.val % 32) = b0
  have hb0v : b0.val = (pos.val % 32) := by rw [← hb0, Fin.val_ofNat] <;> omega
  clear hb0
  generalize hf : Fin.ofNat 256 (0 * 128 + len1.val * 2 + pos.val / 32) = f
  have hfv : f.val = (0 * 128 + len1.val * 2 + pos.val / 32) := by rw [← hf, Fin.val_ofNat] <;> omega
  clear hf
  have g1 : f.val / 128 = 0 := by omega
  have g2 : Fin.ofNat 64 (f.val % 2 * 32 + b0.val) = pos := by apply Fin.ext; rw [Fin.val_ofNat]; omega
  have g3 : Fin.ofNat 64 (f.val / 2) = len1 := by apply Fin.ext; rw [Fin.val_ofNat]; omega
  simp only [decode08, g1, g2, g3, fin_ofNat_val] <;> rfl

theorem hdrGet (d : Reg) (a : Reg) (pos : Fin 512) (len1 : Fin 64) : Statement (.hdrGet d a pos len1) := fun _ _ => by
  refine (decode09_eq { len := 2, major := 9, d := d, a := a, ext := BitVec.ofNat 64 (pos.val + len1.val * 2 ^ 9) } rfl).trans ?_
  have := pos.isLt
  have := len1.isLt
  generalize hx : BitVec.ofNat 64 (pos.val + len1.val * 2 ^ 9) = w
  have hw : w.toNat = (pos.val + len1.val * 2 ^ 9) := by rw [← hx, BitVec.toNat_ofNat]; omega
  have x15_49 : fld w.toNat 15 49 = 0 := by unfold fld; omega
  have g1 : Fin.ofNat 512 w.toNat = pos := by apply Fin.ext; rw [Fin.val_ofNat]; omega
  have g2 : Fin.ofNat 64 (w.toNat / 2 ^ 9) = len1 := by apply Fin.ext; rw [Fin.val_ofNat]; omega
  simp only [decode09, x15_49, g1, g2, fin_ofNat_val] <;> rfl

theorem hdrGets (d : Reg) (a : Reg) (pos : Fin 512) (len1 : Fin 64) : Statement (.hdrGets d a pos len1) := fun _ _ => by
  refine (decode09_eq { len := 2, major := 9, d := d, a := a, fn := 1, ext := BitVec.ofNat 64 (pos.val + len1.val * 2 ^ 9) } rfl).trans ?_
  have := pos.isLt
  have := len1.isLt
  generalize hx : BitVec.ofNat 64 (pos.val + len1.val * 2 ^ 9) = w
  have hw : w.toNat = (pos.val + len1.val * 2 ^ 9) := by rw [← hx, BitVec.toNat_ofNat]; omega
  have x15_49 : fld w.toNat 15 49 = 0 := by unfold fld; omega
  have g1 : Fin.ofNat 512 w.toNat = pos := by apply Fin.ext; rw [Fin.val_ofNat]; omega
  have g2 : Fin.ofNat 64 (w.toNat / 2 ^ 9) = len1 := by apply Fin.ext; rw [Fin.val_ofNat]; omega
  simp only [decode09, x15_49, g1, g2, fin_ofNat_val] <;> rfl

theorem hdrSet (a : Reg) (b : Reg) (pos : Fin 512) (len1 : Fin 64) : Statement (.hdrSet a b pos len1) := fun _ _ => by
  refine (decode09_eq { len := 2, major := 9, a := a, b := b, fn := 2, ext := BitVec.ofNat 64 (pos.val + len1.val * 2 ^ 9) } rfl).trans ?_
  have := pos.isLt
  have := len1.isLt
  generalize hx : BitVec.ofNat 64 (pos.val + len1.val * 2 ^ 9) = w
  have hw : w.toNat = (pos.val + len1.val * 2 ^ 9) := by rw [← hx, BitVec.toNat_ofNat]; omega
  have x15_49 : fld w.toNat 15 49 = 0 := by unfold fld; omega
  have g1 : Fin.ofNat 512 w.toNat = pos := by apply Fin.ext; rw [Fin.val_ofNat]; omega
  have g2 : Fin.ofNat 64 (w.toNat / 2 ^ 9) = len1 := by apply Fin.ext; rw [Fin.val_ofNat]; omega
  simp only [decode09, x15_49, g1, g2, fin_ofNat_val] <;> rfl

theorem hdrMatch (d : Reg) (a : Reg) (b : Reg) (pos : Fin 512) (len1 : Fin 64) : Statement (.hdrMatch d a b pos len1) := fun _ _ => by
  refine (decode09_eq { len := 2, major := 9, d := d, a := a, b := b, fn := 3, ext := BitVec.ofNat 64 (pos.val + len1.val * 2 ^ 9) } rfl).trans ?_
  have := pos.isLt
  have := len1.isLt
  generalize hx : BitVec.ofNat 64 (pos.val + len1.val * 2 ^ 9) = w
  have hw : w.toNat = (pos.val + len1.val * 2 ^ 9) := by rw [← hx, BitVec.toNat_ofNat]; omega
  have x15_49 : fld w.toNat 15 49 = 0 := by unfold fld; omega
  have g1 : Fin.ofNat 512 w.toNat = pos := by apply Fin.ext; rw [Fin.val_ofNat]; omega
  have g2 : Fin.ofNat 64 (w.toNat / 2 ^ 9) = len1 := by apply Fin.ext; rw [Fin.val_ofNat]; omega
  simp only [decode09, x15_49, g1, g2, fin_ofNat_val] <;> rfl

theorem hdrClr (a : Reg) : Statement (.hdrClr a) := fun _ _ => (decode09_eq _ rfl).trans rfl

theorem li (d : Reg) (imm : BitVec 18) : Statement (.li d imm) := fun _ _ => by
  refine (decode0A_eq { len := 0, major := 10, d := d, a := Fin.ofNat 32 (imm.toNat % 32), b := Fin.ofNat 32 (imm.toNat / 32 % 32), fn := Fin.ofNat 256 (imm.toNat / 1024) } rfl).trans ?_
  have := imm.isLt
  generalize ha0 : Fin.ofNat 32 (imm.toNat % 32) = a0
  have ha0v : a0.val = (imm.toNat % 32) := by rw [← ha0, Fin.val_ofNat] <;> omega
  clear ha0
  generalize hb0 : Fin.ofNat 32 (imm.toNat / 32 % 32) = b0
  have hb0v : b0.val = (imm.toNat / 32 % 32) := by rw [← hb0, Fin.val_ofNat] <;> omega
  clear hb0
  generalize hf : Fin.ofNat 256 (imm.toNat / 1024) = f
  have hfv : f.val = (imm.toNat / 1024) := by rw [← hf, Fin.val_ofNat] <;> omega
  clear hf
  have g1 : BitVec.ofNat 18 (f.val * 1024 + b0.val * 32 + a0.val) = imm := by apply BitVec.eq_of_toNat_eq; rw [BitVec.toNat_ofNat]; omega
  simp only [decode0A, g1, fin_ofNat_val, bv_ofNat_toNat] <;> rfl

theorem liLit (d : Reg) (x : Word) : Statement (.liLit d x) := fun _ _ => (decode0A_eq _ rfl).trans rfl

theorem la (d : Reg) (imm : BitVec 18) : Statement (.la d imm) := fun _ _ => by
  refine (decode0B_eq { len := 0, major := 11, d := d, a := Fin.ofNat 32 (imm.toNat % 32), b := Fin.ofNat 32 (imm.toNat / 32 % 32), fn := Fin.ofNat 256 (imm.toNat / 1024) } rfl).trans ?_
  have := imm.isLt
  generalize ha0 : Fin.ofNat 32 (imm.toNat % 32) = a0
  have ha0v : a0.val = (imm.toNat % 32) := by rw [← ha0, Fin.val_ofNat] <;> omega
  clear ha0
  generalize hb0 : Fin.ofNat 32 (imm.toNat / 32 % 32) = b0
  have hb0v : b0.val = (imm.toNat / 32 % 32) := by rw [← hb0, Fin.val_ofNat] <;> omega
  clear hb0
  generalize hf : Fin.ofNat 256 (imm.toNat / 1024) = f
  have hfv : f.val = (imm.toNat / 1024) := by rw [← hf, Fin.val_ofNat] <;> omega
  clear hf
  have g1 : BitVec.ofNat 18 (f.val * 1024 + b0.val * 32 + a0.val) = imm := by apply BitVec.eq_of_toNat_eq; rw [BitVec.toNat_ofNat]; omega
  simp only [decode0B, g1, fin_ofNat_val, bv_ofNat_toNat] <;> rfl

theorem laLit (d : Reg) (x : Word) : Statement (.laLit d x) := fun _ _ => (decode0B_eq _ rfl).trans rfl

theorem selnz (d : Reg) (a : Reg) (b : Reg) (c : Reg) : Statement (.selnz d a b c) := fun _ _ => by
  refine (decode0C_eq { len := 0, major := 12, d := d, a := a, b := b, fn := Fin.ofNat 256 (0 * 32 + c.val) } rfl).trans ?_
  have := c.isLt
  generalize hf : Fin.ofNat 256 (0 * 32 + c.val) = f
  have hfv : f.val = (0 * 32 + c.val) := by rw [← hf, Fin.val_ofNat] <;> omega
  clear hf
  have g1 : f.val / 32 = 0 := by omega
  have g2 : Fin.ofNat 32 f.val = c := by apply Fin.ext; rw [Fin.val_ofNat]; omega
  simp only [decode0C, g1, g2, fin_ofNat_val] <;> rfl

theorem selz (d : Reg) (a : Reg) (b : Reg) (c : Reg) : Statement (.selz d a b c) := fun _ _ => by
  refine (decode0C_eq { len := 0, major := 12, d := d, a := a, b := b, fn := Fin.ofNat 256 (1 * 32 + c.val) } rfl).trans ?_
  have := c.isLt
  generalize hf : Fin.ofNat 256 (1 * 32 + c.val) = f
  have hfv : f.val = (1 * 32 + c.val) := by rw [← hf, Fin.val_ofNat] <;> omega
  clear hf
  have g1 : f.val / 32 = 1 := by omega
  have g2 : Fin.ofNat 32 f.val = c := by apply Fin.ext; rw [Fin.val_ofNat]; omega
  simp only [decode0C, g1, g2, fin_ofNat_val] <;> rfl

theorem madd (d : Reg) (a : Reg) (b : Reg) (c : Reg) : Statement (.madd d a b c) := fun _ _ => by
  refine (decode0C_eq { len := 0, major := 12, d := d, a := a, b := b, fn := Fin.ofNat 256 (2 * 32 + c.val) } rfl).trans ?_
  have := c.isLt
  generalize hf : Fin.ofNat 256 (2 * 32 + c.val) = f
  have hfv : f.val = (2 * 32 + c.val) := by rw [← hf, Fin.val_ofNat] <;> omega
  clear hf
  have g1 : f.val / 32 = 2 := by omega
  have g2 : Fin.ofNat 32 f.val = c := by apply Fin.ext; rw [Fin.val_ofNat]; omega
  simp only [decode0C, g1, g2, fin_ofNat_val] <;> rfl

theorem msub (d : Reg) (a : Reg) (b : Reg) (c : Reg) : Statement (.msub d a b c) := fun _ _ => by
  refine (decode0C_eq { len := 0, major := 12, d := d, a := a, b := b, fn := Fin.ofNat 256 (3 * 32 + c.val) } rfl).trans ?_
  have := c.isLt
  generalize hf : Fin.ofNat 256 (3 * 32 + c.val) = f
  have hfv : f.val = (3 * 32 + c.val) := by rw [← hf, Fin.val_ofNat] <;> omega
  clear hf
  have g1 : f.val / 32 = 3 := by omega
  have g2 : Fin.ofNat 32 f.val = c := by apply Fin.ext; rw [Fin.val_ofNat]; omega
  simp only [decode0C, g1, g2, fin_ofNat_val] <;> rfl

theorem fadd (t : FpType) (d : Reg) (a : Reg) (b : Reg) : Statement (.fadd t d a b) := fun _ _ => by
  refine (decode10_eq { len := 0, major := 16, d := d, a := a, b := b, fn := Fin.ofNat 256 (0 * 4 + t.code) } rfl).trans ?_
  have := t.code_lt
  generalize hf : Fin.ofNat 256 (0 * 4 + t.code) = f
  have hfv : f.val = (0 * 4 + t.code) := by rw [← hf, Fin.val_ofNat] <;> omega
  clear hf
  have g1 : f.val / 4 = 0 := by omega
  have g2 : FpType.ofCode f.val = t := FpType.ofCode_of (by omega)
  simp only [decode10, g1, g2, FpType.ofCode_code, fin_ofNat_val] <;> rfl

theorem faddLit (t : FpType) (d : Reg) (a : Reg) (x : Word) : Statement (.faddLit t d a x) := fun _ _ => by
  refine (decode10_eq { len := 1, major := 16, d := d, a := a, fn := Fin.ofNat 256 (0 * 4 + t.code), lit := x } rfl).trans ?_
  have := t.code_lt
  generalize hf : Fin.ofNat 256 (0 * 4 + t.code) = f
  have hfv : f.val = (0 * 4 + t.code) := by rw [← hf, Fin.val_ofNat] <;> omega
  clear hf
  have g1 : f.val / 4 = 0 := by omega
  have g2 : FpType.ofCode f.val = t := FpType.ofCode_of (by omega)
  simp only [decode10, g1, g2, FpType.ofCode_code, fin_ofNat_val] <;> rfl

theorem fsub (t : FpType) (d : Reg) (a : Reg) (b : Reg) : Statement (.fsub t d a b) := fun _ _ => by
  refine (decode10_eq { len := 0, major := 16, d := d, a := a, b := b, fn := Fin.ofNat 256 (1 * 4 + t.code) } rfl).trans ?_
  have := t.code_lt
  generalize hf : Fin.ofNat 256 (1 * 4 + t.code) = f
  have hfv : f.val = (1 * 4 + t.code) := by rw [← hf, Fin.val_ofNat] <;> omega
  clear hf
  have g1 : f.val / 4 = 1 := by omega
  have g2 : FpType.ofCode f.val = t := FpType.ofCode_of (by omega)
  simp only [decode10, g1, g2, FpType.ofCode_code, fin_ofNat_val] <;> rfl

theorem fsubLit (t : FpType) (d : Reg) (a : Reg) (x : Word) : Statement (.fsubLit t d a x) := fun _ _ => by
  refine (decode10_eq { len := 1, major := 16, d := d, a := a, fn := Fin.ofNat 256 (1 * 4 + t.code), lit := x } rfl).trans ?_
  have := t.code_lt
  generalize hf : Fin.ofNat 256 (1 * 4 + t.code) = f
  have hfv : f.val = (1 * 4 + t.code) := by rw [← hf, Fin.val_ofNat] <;> omega
  clear hf
  have g1 : f.val / 4 = 1 := by omega
  have g2 : FpType.ofCode f.val = t := FpType.ofCode_of (by omega)
  simp only [decode10, g1, g2, FpType.ofCode_code, fin_ofNat_val] <;> rfl

theorem fmul (t : FpType) (d : Reg) (a : Reg) (b : Reg) : Statement (.fmul t d a b) := fun _ _ => by
  refine (decode10_eq { len := 0, major := 16, d := d, a := a, b := b, fn := Fin.ofNat 256 (2 * 4 + t.code) } rfl).trans ?_
  have := t.code_lt
  generalize hf : Fin.ofNat 256 (2 * 4 + t.code) = f
  have hfv : f.val = (2 * 4 + t.code) := by rw [← hf, Fin.val_ofNat] <;> omega
  clear hf
  have g1 : f.val / 4 = 2 := by omega
  have g2 : FpType.ofCode f.val = t := FpType.ofCode_of (by omega)
  simp only [decode10, g1, g2, FpType.ofCode_code, fin_ofNat_val] <;> rfl

theorem fmulLit (t : FpType) (d : Reg) (a : Reg) (x : Word) : Statement (.fmulLit t d a x) := fun _ _ => by
  refine (decode10_eq { len := 1, major := 16, d := d, a := a, fn := Fin.ofNat 256 (2 * 4 + t.code), lit := x } rfl).trans ?_
  have := t.code_lt
  generalize hf : Fin.ofNat 256 (2 * 4 + t.code) = f
  have hfv : f.val = (2 * 4 + t.code) := by rw [← hf, Fin.val_ofNat] <;> omega
  clear hf
  have g1 : f.val / 4 = 2 := by omega
  have g2 : FpType.ofCode f.val = t := FpType.ofCode_of (by omega)
  simp only [decode10, g1, g2, FpType.ofCode_code, fin_ofNat_val] <;> rfl

theorem fdiv (t : FpType) (d : Reg) (a : Reg) (b : Reg) : Statement (.fdiv t d a b) := fun _ _ => by
  refine (decode10_eq { len := 0, major := 16, d := d, a := a, b := b, fn := Fin.ofNat 256 (3 * 4 + t.code) } rfl).trans ?_
  have := t.code_lt
  generalize hf : Fin.ofNat 256 (3 * 4 + t.code) = f
  have hfv : f.val = (3 * 4 + t.code) := by rw [← hf, Fin.val_ofNat] <;> omega
  clear hf
  have g1 : f.val / 4 = 3 := by omega
  have g2 : FpType.ofCode f.val = t := FpType.ofCode_of (by omega)
  simp only [decode10, g1, g2, FpType.ofCode_code, fin_ofNat_val] <;> rfl

theorem fdivLit (t : FpType) (d : Reg) (a : Reg) (x : Word) : Statement (.fdivLit t d a x) := fun _ _ => by
  refine (decode10_eq { len := 1, major := 16, d := d, a := a, fn := Fin.ofNat 256 (3 * 4 + t.code), lit := x } rfl).trans ?_
  have := t.code_lt
  generalize hf : Fin.ofNat 256 (3 * 4 + t.code) = f
  have hfv : f.val = (3 * 4 + t.code) := by rw [← hf, Fin.val_ofNat] <;> omega
  clear hf
  have g1 : f.val / 4 = 3 := by omega
  have g2 : FpType.ofCode f.val = t := FpType.ofCode_of (by omega)
  simp only [decode10, g1, g2, FpType.ofCode_code, fin_ofNat_val] <;> rfl

theorem fmin (t : FpType) (d : Reg) (a : Reg) (b : Reg) : Statement (.fmin t d a b) := fun _ _ => by
  refine (decode10_eq { len := 0, major := 16, d := d, a := a, b := b, fn := Fin.ofNat 256 (4 * 4 + t.code) } rfl).trans ?_
  have := t.code_lt
  generalize hf : Fin.ofNat 256 (4 * 4 + t.code) = f
  have hfv : f.val = (4 * 4 + t.code) := by rw [← hf, Fin.val_ofNat] <;> omega
  clear hf
  have g1 : f.val / 4 = 4 := by omega
  have g2 : FpType.ofCode f.val = t := FpType.ofCode_of (by omega)
  simp only [decode10, g1, g2, FpType.ofCode_code, fin_ofNat_val] <;> rfl

theorem fminLit (t : FpType) (d : Reg) (a : Reg) (x : Word) : Statement (.fminLit t d a x) := fun _ _ => by
  refine (decode10_eq { len := 1, major := 16, d := d, a := a, fn := Fin.ofNat 256 (4 * 4 + t.code), lit := x } rfl).trans ?_
  have := t.code_lt
  generalize hf : Fin.ofNat 256 (4 * 4 + t.code) = f
  have hfv : f.val = (4 * 4 + t.code) := by rw [← hf, Fin.val_ofNat] <;> omega
  clear hf
  have g1 : f.val / 4 = 4 := by omega
  have g2 : FpType.ofCode f.val = t := FpType.ofCode_of (by omega)
  simp only [decode10, g1, g2, FpType.ofCode_code, fin_ofNat_val] <;> rfl

theorem fmax (t : FpType) (d : Reg) (a : Reg) (b : Reg) : Statement (.fmax t d a b) := fun _ _ => by
  refine (decode10_eq { len := 0, major := 16, d := d, a := a, b := b, fn := Fin.ofNat 256 (5 * 4 + t.code) } rfl).trans ?_
  have := t.code_lt
  generalize hf : Fin.ofNat 256 (5 * 4 + t.code) = f
  have hfv : f.val = (5 * 4 + t.code) := by rw [← hf, Fin.val_ofNat] <;> omega
  clear hf
  have g1 : f.val / 4 = 5 := by omega
  have g2 : FpType.ofCode f.val = t := FpType.ofCode_of (by omega)
  simp only [decode10, g1, g2, FpType.ofCode_code, fin_ofNat_val] <;> rfl

theorem fmaxLit (t : FpType) (d : Reg) (a : Reg) (x : Word) : Statement (.fmaxLit t d a x) := fun _ _ => by
  refine (decode10_eq { len := 1, major := 16, d := d, a := a, fn := Fin.ofNat 256 (5 * 4 + t.code), lit := x } rfl).trans ?_
  have := t.code_lt
  generalize hf : Fin.ofNat 256 (5 * 4 + t.code) = f
  have hfv : f.val = (5 * 4 + t.code) := by rw [← hf, Fin.val_ofNat] <;> omega
  clear hf
  have g1 : f.val / 4 = 5 := by omega
  have g2 : FpType.ofCode f.val = t := FpType.ofCode_of (by omega)
  simp only [decode10, g1, g2, FpType.ofCode_code, fin_ofNat_val] <;> rfl

theorem fsqrt (t : FpType) (d : Reg) (a : Reg) : Statement (.fsqrt t d a) := fun _ _ => by
  refine (decode10_eq { len := 0, major := 16, d := d, a := a, fn := Fin.ofNat 256 (6 * 4 + t.code) } rfl).trans ?_
  have := t.code_lt
  generalize hf : Fin.ofNat 256 (6 * 4 + t.code) = f
  have hfv : f.val = (6 * 4 + t.code) := by rw [← hf, Fin.val_ofNat] <;> omega
  clear hf
  have g1 : f.val / 4 = 6 := by omega
  have g2 : FpType.ofCode f.val = t := FpType.ofCode_of (by omega)
  simp only [decode10, g1, g2, FpType.ofCode_code, fin_ofNat_val] <;> rfl

theorem fneg (t : FpType) (d : Reg) (a : Reg) : Statement (.fneg t d a) := fun _ _ => by
  refine (decode10_eq { len := 0, major := 16, d := d, a := a, fn := Fin.ofNat 256 (7 * 4 + t.code) } rfl).trans ?_
  have := t.code_lt
  generalize hf : Fin.ofNat 256 (7 * 4 + t.code) = f
  have hfv : f.val = (7 * 4 + t.code) := by rw [← hf, Fin.val_ofNat] <;> omega
  clear hf
  have g1 : f.val / 4 = 7 := by omega
  have g2 : FpType.ofCode f.val = t := FpType.ofCode_of (by omega)
  simp only [decode10, g1, g2, FpType.ofCode_code, fin_ofNat_val] <;> rfl

theorem fabs (t : FpType) (d : Reg) (a : Reg) : Statement (.fabs t d a) := fun _ _ => by
  refine (decode10_eq { len := 0, major := 16, d := d, a := a, fn := Fin.ofNat 256 (8 * 4 + t.code) } rfl).trans ?_
  have := t.code_lt
  generalize hf : Fin.ofNat 256 (8 * 4 + t.code) = f
  have hfv : f.val = (8 * 4 + t.code) := by rw [← hf, Fin.val_ofNat] <;> omega
  clear hf
  have g1 : f.val / 4 = 8 := by omega
  have g2 : FpType.ofCode f.val = t := FpType.ofCode_of (by omega)
  simp only [decode10, g1, g2, FpType.ofCode_code, fin_ofNat_val] <;> rfl

theorem fma (t : FpType) (d : Reg) (a : Reg) (b : Reg) (c : Reg) : Statement (.fma t d a b c) := fun _ _ => by
  refine (decode11_eq { len := 0, major := 17, d := d, a := a, b := b, fn := Fin.ofNat 256 (0 * 128 + t.code * 32 + c.val) } rfl).trans ?_
  have := t.code_lt
  have := c.isLt
  generalize hf : Fin.ofNat 256 (0 * 128 + t.code * 32 + c.val) = f
  have hfv : f.val = (0 * 128 + t.code * 32 + c.val) := by rw [← hf, Fin.val_ofNat] <;> omega
  clear hf
  have g1 : f.val / 128 = 0 := by omega
  have g2 : f.val / 32 = t.code := by omega
  have g3 : Fin.ofNat 32 f.val = c := by apply Fin.ext; rw [Fin.val_ofNat]; omega
  simp only [decode11, g1, g2, g3, FpType.ofCode_code, fin_ofNat_val] <;> rfl

theorem fnma (t : FpType) (d : Reg) (a : Reg) (b : Reg) (c : Reg) : Statement (.fnma t d a b c) := fun _ _ => by
  refine (decode11_eq { len := 0, major := 17, d := d, a := a, b := b, fn := Fin.ofNat 256 (1 * 128 + t.code * 32 + c.val) } rfl).trans ?_
  have := t.code_lt
  have := c.isLt
  generalize hf : Fin.ofNat 256 (1 * 128 + t.code * 32 + c.val) = f
  have hfv : f.val = (1 * 128 + t.code * 32 + c.val) := by rw [← hf, Fin.val_ofNat] <;> omega
  clear hf
  have g1 : f.val / 128 = 1 := by omega
  have g2 : f.val / 32 = 4 + t.code := by omega
  have g3 : FpType.ofCode (4 + t.code) = t := FpType.ofCode_of (by omega)
  have g4 : Fin.ofNat 32 f.val = c := by apply Fin.ext; rw [Fin.val_ofNat]; omega
  simp only [decode11, g1, g2, g3, g4, FpType.ofCode_code, fin_ofNat_val] <;> rfl

theorem feq (t : FpType) (d : Reg) (a : Reg) (b : Reg) : Statement (.feq t d a b) := fun _ _ => by
  refine (decode12_eq { len := 0, major := 18, d := d, a := a, b := b, fn := Fin.ofNat 256 (0 * 4 + t.code) } rfl).trans ?_
  have := t.code_lt
  generalize hf : Fin.ofNat 256 (0 * 4 + t.code) = f
  have hfv : f.val = (0 * 4 + t.code) := by rw [← hf, Fin.val_ofNat] <;> omega
  clear hf
  have g1 : f.val / 4 = 0 := by omega
  have g2 : FpType.ofCode f.val = t := FpType.ofCode_of (by omega)
  simp only [decode12, g1, g2, FpType.ofCode_code, fin_ofNat_val] <;> rfl

theorem flt (t : FpType) (d : Reg) (a : Reg) (b : Reg) : Statement (.flt t d a b) := fun _ _ => by
  refine (decode12_eq { len := 0, major := 18, d := d, a := a, b := b, fn := Fin.ofNat 256 (1 * 4 + t.code) } rfl).trans ?_
  have := t.code_lt
  generalize hf : Fin.ofNat 256 (1 * 4 + t.code) = f
  have hfv : f.val = (1 * 4 + t.code) := by rw [← hf, Fin.val_ofNat] <;> omega
  clear hf
  have g1 : f.val / 4 = 1 := by omega
  have g2 : FpType.ofCode f.val = t := FpType.ofCode_of (by omega)
  simp only [decode12, g1, g2, FpType.ofCode_code, fin_ofNat_val] <;> rfl

theorem fle (t : FpType) (d : Reg) (a : Reg) (b : Reg) : Statement (.fle t d a b) := fun _ _ => by
  refine (decode12_eq { len := 0, major := 18, d := d, a := a, b := b, fn := Fin.ofNat 256 (2 * 4 + t.code) } rfl).trans ?_
  have := t.code_lt
  generalize hf : Fin.ofNat 256 (2 * 4 + t.code) = f
  have hfv : f.val = (2 * 4 + t.code) := by rw [← hf, Fin.val_ofNat] <;> omega
  clear hf
  have g1 : f.val / 4 = 2 := by omega
  have g2 : FpType.ofCode f.val = t := FpType.ofCode_of (by omega)
  simp only [decode12, g1, g2, FpType.ofCode_code, fin_ofNat_val] <;> rfl

theorem fclass (t : FpType) (d : Reg) (a : Reg) : Statement (.fclass t d a) := fun _ _ => by
  refine (decode12_eq { len := 0, major := 18, d := d, a := a, fn := Fin.ofNat 256 (3 * 4 + t.code) } rfl).trans ?_
  have := t.code_lt
  generalize hf : Fin.ofNat 256 (3 * 4 + t.code) = f
  have hfv : f.val = (3 * 4 + t.code) := by rw [← hf, Fin.val_ofNat] <;> omega
  clear hf
  have g1 : f.val / 4 = 3 := by omega
  have g2 : FpType.ofCode f.val = t := FpType.ofCode_of (by omega)
  simp only [decode12, g1, g2, FpType.ofCode_code, fin_ofNat_val] <;> rfl

theorem fcvt (tgt : CvtCode) (src : CvtCode) (d : Reg) (a : Reg) : Statement (.fcvt tgt src d a) := fun _ _ => by
  refine (decode13_eq { len := 0, major := 19, d := d, a := a, fn := Fin.ofNat 256 (tgt.code * 16 + src.code) } rfl).trans ?_
  have := tgt.code_lt
  have := src.code_lt
  generalize hf : Fin.ofNat 256 (tgt.code * 16 + src.code) = f
  have hfv : f.val = (tgt.code * 16 + src.code) := by rw [← hf, Fin.val_ofNat] <;> omega
  clear hf
  have g1 : f.val % 16 = src.code := by omega
  have g2 : f.val / 16 = tgt.code := by omega
  simp only [decode13, g1, g2, CvtCode.ofCode?_code, fin_ofNat_val] <;> rfl

theorem bz (a : Reg) (off : BitVec 18) : Statement (.bz a off) := fun _ _ => by
  refine (decode18_eq { len := 0, major := 24, d := a, a := Fin.ofNat 32 (off.toNat % 32), b := Fin.ofNat 32 (off.toNat / 32 % 32), fn := Fin.ofNat 256 (off.toNat / 1024) } rfl).trans ?_
  have := off.isLt
  generalize ha0 : Fin.ofNat 32 (off.toNat % 32) = a0
  have ha0v : a0.val = (off.toNat % 32) := by rw [← ha0, Fin.val_ofNat] <;> omega
  clear ha0
  generalize hb0 : Fin.ofNat 32 (off.toNat / 32 % 32) = b0
  have hb0v : b0.val = (off.toNat / 32 % 32) := by rw [← hb0, Fin.val_ofNat] <;> omega
  clear hb0
  generalize hf : Fin.ofNat 256 (off.toNat / 1024) = f
  have hfv : f.val = (off.toNat / 1024) := by rw [← hf, Fin.val_ofNat] <;> omega
  clear hf
  have g1 : BitVec.ofNat 18 (f.val * 1024 + b0.val * 32 + a0.val) = off := by apply BitVec.eq_of_toNat_eq; rw [BitVec.toNat_ofNat]; omega
  simp only [decode18, g1, fin_ofNat_val, bv_ofNat_toNat] <;> rfl

theorem bzLit (a : Reg) (x : Word) : Statement (.bzLit a x) := fun _ _ => (decode18_eq _ rfl).trans rfl

theorem bnz (a : Reg) (off : BitVec 18) : Statement (.bnz a off) := fun _ _ => by
  refine (decode19_eq { len := 0, major := 25, d := a, a := Fin.ofNat 32 (off.toNat % 32), b := Fin.ofNat 32 (off.toNat / 32 % 32), fn := Fin.ofNat 256 (off.toNat / 1024) } rfl).trans ?_
  have := off.isLt
  generalize ha0 : Fin.ofNat 32 (off.toNat % 32) = a0
  have ha0v : a0.val = (off.toNat % 32) := by rw [← ha0, Fin.val_ofNat] <;> omega
  clear ha0
  generalize hb0 : Fin.ofNat 32 (off.toNat / 32 % 32) = b0
  have hb0v : b0.val = (off.toNat / 32 % 32) := by rw [← hb0, Fin.val_ofNat] <;> omega
  clear hb0
  generalize hf : Fin.ofNat 256 (off.toNat / 1024) = f
  have hfv : f.val = (off.toNat / 1024) := by rw [← hf, Fin.val_ofNat] <;> omega
  clear hf
  have g1 : BitVec.ofNat 18 (f.val * 1024 + b0.val * 32 + a0.val) = off := by apply BitVec.eq_of_toNat_eq; rw [BitVec.toNat_ofNat]; omega
  simp only [decode19, g1, fin_ofNat_val, bv_ofNat_toNat] <;> rfl

theorem bnzLit (a : Reg) (x : Word) : Statement (.bnzLit a x) := fun _ _ => (decode19_eq _ rfl).trans rfl

theorem jal (a : Reg) (off : BitVec 18) : Statement (.jal a off) := fun _ _ => by
  refine (decode1A_eq { len := 0, major := 26, d := a, a := Fin.ofNat 32 (off.toNat % 32), b := Fin.ofNat 32 (off.toNat / 32 % 32), fn := Fin.ofNat 256 (off.toNat / 1024) } rfl).trans ?_
  have := off.isLt
  generalize ha0 : Fin.ofNat 32 (off.toNat % 32) = a0
  have ha0v : a0.val = (off.toNat % 32) := by rw [← ha0, Fin.val_ofNat] <;> omega
  clear ha0
  generalize hb0 : Fin.ofNat 32 (off.toNat / 32 % 32) = b0
  have hb0v : b0.val = (off.toNat / 32 % 32) := by rw [← hb0, Fin.val_ofNat] <;> omega
  clear hb0
  generalize hf : Fin.ofNat 256 (off.toNat / 1024) = f
  have hfv : f.val = (off.toNat / 1024) := by rw [← hf, Fin.val_ofNat] <;> omega
  clear hf
  have g1 : BitVec.ofNat 18 (f.val * 1024 + b0.val * 32 + a0.val) = off := by apply BitVec.eq_of_toNat_eq; rw [BitVec.toNat_ofNat]; omega
  simp only [decode1A, g1, fin_ofNat_val, bv_ofNat_toNat] <;> rfl

theorem jalLit (a : Reg) (x : Word) : Statement (.jalLit a x) := fun _ _ => (decode1A_eq _ rfl).trans rfl

theorem beq (a : Reg) (b : Reg) (off : BitVec 32) : Statement (.beq a b off) := fun _ _ => by
  refine (decode1B_eq { len := 2, major := 27, a := a, b := b, ext := BitVec.ofNat 64 (off.toNat) } rfl).trans ?_
  have := off.isLt
  generalize hx : BitVec.ofNat 64 (off.toNat) = w
  have hw : w.toNat = (off.toNat) := by rw [← hx, BitVec.toNat_ofNat]; omega
  have x32_32 : fld w.toNat 32 32 = 0 := by unfold fld; omega
  have g1 : BitVec.ofNat 32 w.toNat = off := by apply BitVec.eq_of_toNat_eq; rw [BitVec.toNat_ofNat]; omega
  simp only [decode1B, x32_32, g1, fin_ofNat_val, bv_ofNat_toNat] <;> rfl

theorem bne (a : Reg) (b : Reg) (off : BitVec 32) : Statement (.bne a b off) := fun _ _ => by
  refine (decode1B_eq { len := 2, major := 27, a := a, b := b, fn := 1, ext := BitVec.ofNat 64 (off.toNat) } rfl).trans ?_
  have := off.isLt
  generalize hx : BitVec.ofNat 64 (off.toNat) = w
  have hw : w.toNat = (off.toNat) := by rw [← hx, BitVec.toNat_ofNat]; omega
  have x32_32 : fld w.toNat 32 32 = 0 := by unfold fld; omega
  have g1 : BitVec.ofNat 32 w.toNat = off := by apply BitVec.eq_of_toNat_eq; rw [BitVec.toNat_ofNat]; omega
  simp only [decode1B, x32_32, g1, fin_ofNat_val, bv_ofNat_toNat] <;> rfl

theorem blt (a : Reg) (b : Reg) (off : BitVec 32) : Statement (.blt a b off) := fun _ _ => by
  refine (decode1B_eq { len := 2, major := 27, a := a, b := b, fn := 2, ext := BitVec.ofNat 64 (off.toNat) } rfl).trans ?_
  have := off.isLt
  generalize hx : BitVec.ofNat 64 (off.toNat) = w
  have hw : w.toNat = (off.toNat) := by rw [← hx, BitVec.toNat_ofNat]; omega
  have x32_32 : fld w.toNat 32 32 = 0 := by unfold fld; omega
  have g1 : BitVec.ofNat 32 w.toNat = off := by apply BitVec.eq_of_toNat_eq; rw [BitVec.toNat_ofNat]; omega
  simp only [decode1B, x32_32, g1, fin_ofNat_val, bv_ofNat_toNat] <;> rfl

theorem bge (a : Reg) (b : Reg) (off : BitVec 32) : Statement (.bge a b off) := fun _ _ => by
  refine (decode1B_eq { len := 2, major := 27, a := a, b := b, fn := 3, ext := BitVec.ofNat 64 (off.toNat) } rfl).trans ?_
  have := off.isLt
  generalize hx : BitVec.ofNat 64 (off.toNat) = w
  have hw : w.toNat = (off.toNat) := by rw [← hx, BitVec.toNat_ofNat]; omega
  have x32_32 : fld w.toNat 32 32 = 0 := by unfold fld; omega
  have g1 : BitVec.ofNat 32 w.toNat = off := by apply BitVec.eq_of_toNat_eq; rw [BitVec.toNat_ofNat]; omega
  simp only [decode1B, x32_32, g1, fin_ofNat_val, bv_ofNat_toNat] <;> rfl

theorem bltu (a : Reg) (b : Reg) (off : BitVec 32) : Statement (.bltu a b off) := fun _ _ => by
  refine (decode1B_eq { len := 2, major := 27, a := a, b := b, fn := 4, ext := BitVec.ofNat 64 (off.toNat) } rfl).trans ?_
  have := off.isLt
  generalize hx : BitVec.ofNat 64 (off.toNat) = w
  have hw : w.toNat = (off.toNat) := by rw [← hx, BitVec.toNat_ofNat]; omega
  have x32_32 : fld w.toNat 32 32 = 0 := by unfold fld; omega
  have g1 : BitVec.ofNat 32 w.toNat = off := by apply BitVec.eq_of_toNat_eq; rw [BitVec.toNat_ofNat]; omega
  simp only [decode1B, x32_32, g1, fin_ofNat_val, bv_ofNat_toNat] <;> rfl

theorem bgeu (a : Reg) (b : Reg) (off : BitVec 32) : Statement (.bgeu a b off) := fun _ _ => by
  refine (decode1B_eq { len := 2, major := 27, a := a, b := b, fn := 5, ext := BitVec.ofNat 64 (off.toNat) } rfl).trans ?_
  have := off.isLt
  generalize hx : BitVec.ofNat 64 (off.toNat) = w
  have hw : w.toNat = (off.toNat) := by rw [← hx, BitVec.toNat_ofNat]; omega
  have x32_32 : fld w.toNat 32 32 = 0 := by unfold fld; omega
  have g1 : BitVec.ofNat 32 w.toNat = off := by apply BitVec.eq_of_toNat_eq; rw [BitVec.toNat_ofNat]; omega
  simp only [decode1B, x32_32, g1, fin_ofNat_val, bv_ofNat_toNat] <;> rfl

theorem jalr (d : Reg) (a : Reg) : Statement (.jalr d a) := fun _ _ => (decode1B_eq _ rfl).trans rfl

theorem jalrDisp (d : Reg) (a : Reg) (disp : BitVec 32) : Statement (.jalrDisp d a disp) := fun _ _ => by
  refine (decode1B_eq { len := 2, major := 27, d := d, a := a, fn := 8, ext := BitVec.ofNat 64 (disp.toNat) } rfl).trans ?_
  have := disp.isLt
  generalize hx : BitVec.ofNat 64 (disp.toNat) = w
  have hw : w.toNat = (disp.toNat) := by rw [← hx, BitVec.toNat_ofNat]; omega
  have x32_32 : fld w.toNat 32 32 = 0 := by unfold fld; omega
  have g1 : BitVec.ofNat 32 w.toNat = disp := by apply BitVec.eq_of_toNat_eq; rw [BitVec.toNat_ofNat]; omega
  simp only [decode1B, x32_32, g1, fin_ofNat_val, bv_ofNat_toNat] <;> rfl

theorem bany (a : Reg) (b : Reg) (off : BitVec 32) : Statement (.bany a b off) := fun _ _ => by
  refine (decode1C_eq { len := 2, major := 28, a := a, b := b, ext := BitVec.ofNat 64 (off.toNat) } rfl).trans ?_
  have := off.isLt
  generalize hx : BitVec.ofNat 64 (off.toNat) = w
  have hw : w.toNat = (off.toNat) := by rw [← hx, BitVec.toNat_ofNat]; omega
  have x32_32 : fld w.toNat 32 32 = 0 := by unfold fld; omega
  have g1 : BitVec.ofNat 32 w.toNat = off := by apply BitVec.eq_of_toNat_eq; rw [BitVec.toNat_ofNat]; omega
  simp only [decode1C, x32_32, g1, fin_ofNat_val, bv_ofNat_toNat] <;> rfl

theorem bnone (a : Reg) (b : Reg) (off : BitVec 32) : Statement (.bnone a b off) := fun _ _ => by
  refine (decode1C_eq { len := 2, major := 28, a := a, b := b, fn := 1, ext := BitVec.ofNat 64 (off.toNat) } rfl).trans ?_
  have := off.isLt
  generalize hx : BitVec.ofNat 64 (off.toNat) = w
  have hw : w.toNat = (off.toNat) := by rw [← hx, BitVec.toNat_ofNat]; omega
  have x32_32 : fld w.toNat 32 32 = 0 := by unfold fld; omega
  have g1 : BitVec.ofNat 32 w.toNat = off := by apply BitVec.eq_of_toNat_eq; rw [BitVec.toNat_ofNat]; omega
  simp only [decode1C, x32_32, g1, fin_ofNat_val, bv_ofNat_toNat] <;> rfl

theorem ball (a : Reg) (b : Reg) (off : BitVec 32) : Statement (.ball a b off) := fun _ _ => by
  refine (decode1C_eq { len := 2, major := 28, a := a, b := b, fn := 2, ext := BitVec.ofNat 64 (off.toNat) } rfl).trans ?_
  have := off.isLt
  generalize hx : BitVec.ofNat 64 (off.toNat) = w
  have hw : w.toNat = (off.toNat) := by rw [← hx, BitVec.toNat_ofNat]; omega
  have x32_32 : fld w.toNat 32 32 = 0 := by unfold fld; omega
  have g1 : BitVec.ofNat 32 w.toNat = off := by apply BitVec.eq_of_toNat_eq; rw [BitVec.toNat_ofNat]; omega
  simp only [decode1C, x32_32, g1, fin_ofNat_val, bv_ofNat_toNat] <;> rfl

theorem bnall (a : Reg) (b : Reg) (off : BitVec 32) : Statement (.bnall a b off) := fun _ _ => by
  refine (decode1C_eq { len := 2, major := 28, a := a, b := b, fn := 3, ext := BitVec.ofNat 64 (off.toNat) } rfl).trans ?_
  have := off.isLt
  generalize hx : BitVec.ofNat 64 (off.toNat) = w
  have hw : w.toNat = (off.toNat) := by rw [← hx, BitVec.toNat_ofNat]; omega
  have x32_32 : fld w.toNat 32 32 = 0 := by unfold fld; omega
  have g1 : BitVec.ofNat 32 w.toNat = off := by apply BitVec.eq_of_toNat_eq; rw [BitVec.toNat_ofNat]; omega
  simp only [decode1C, x32_32, g1, fin_ofNat_val, bv_ofNat_toNat] <;> rfl

theorem crrw (d : Reg) (a : Reg) (cr : BitVec 12) : Statement (.crrw d a cr) := fun _ _ => by
  refine (decode3C_eq { len := 2, major := 60, d := d, a := a, ext := BitVec.ofNat 64 (cr.toNat) } rfl).trans ?_
  have := cr.isLt
  generalize hx : BitVec.ofNat 64 (cr.toNat) = w
  have hw : w.toNat = (cr.toNat) := by rw [← hx, BitVec.toNat_ofNat]; omega
  have x12_52 : fld w.toNat 12 52 = 0 := by unfold fld; omega
  have g1 : BitVec.ofNat 12 w.toNat = cr := by apply BitVec.eq_of_toNat_eq; rw [BitVec.toNat_ofNat]; omega
  simp only [decode3C, x12_52, g1, fin_ofNat_val, bv_ofNat_toNat] <;> rfl

theorem crrs (d : Reg) (a : Reg) (cr : BitVec 12) : Statement (.crrs d a cr) := fun _ _ => by
  refine (decode3C_eq { len := 2, major := 60, d := d, a := a, fn := 1, ext := BitVec.ofNat 64 (cr.toNat) } rfl).trans ?_
  have := cr.isLt
  generalize hx : BitVec.ofNat 64 (cr.toNat) = w
  have hw : w.toNat = (cr.toNat) := by rw [← hx, BitVec.toNat_ofNat]; omega
  have x12_52 : fld w.toNat 12 52 = 0 := by unfold fld; omega
  have g1 : BitVec.ofNat 12 w.toNat = cr := by apply BitVec.eq_of_toNat_eq; rw [BitVec.toNat_ofNat]; omega
  simp only [decode3C, x12_52, g1, fin_ofNat_val, bv_ofNat_toNat] <;> rfl

theorem crrc (d : Reg) (a : Reg) (cr : BitVec 12) : Statement (.crrc d a cr) := fun _ _ => by
  refine (decode3C_eq { len := 2, major := 60, d := d, a := a, fn := 2, ext := BitVec.ofNat 64 (cr.toNat) } rfl).trans ?_
  have := cr.isLt
  generalize hx : BitVec.ofNat 64 (cr.toNat) = w
  have hw : w.toNat = (cr.toNat) := by rw [← hx, BitVec.toNat_ofNat]; omega
  have x12_52 : fld w.toNat 12 52 = 0 := by unfold fld; omega
  have g1 : BitVec.ofNat 12 w.toNat = cr := by apply BitVec.eq_of_toNat_eq; rw [BitVec.toNat_ofNat]; omega
  simp only [decode3C, x12_52, g1, fin_ofNat_val, bv_ofNat_toNat] <;> rfl

theorem crrwi (d : Reg) (imm : Fin 32) (cr : BitVec 12) : Statement (.crrwi d imm cr) := fun _ _ => by
  refine (decode3C_eq { len := 2, major := 60, d := d, a := imm, fn := 4, ext := BitVec.ofNat 64 (cr.toNat) } rfl).trans ?_
  have := cr.isLt
  generalize hx : BitVec.ofNat 64 (cr.toNat) = w
  have hw : w.toNat = (cr.toNat) := by rw [← hx, BitVec.toNat_ofNat]; omega
  have x12_52 : fld w.toNat 12 52 = 0 := by unfold fld; omega
  have g1 : BitVec.ofNat 12 w.toNat = cr := by apply BitVec.eq_of_toNat_eq; rw [BitVec.toNat_ofNat]; omega
  simp only [decode3C, x12_52, g1, fin_ofNat_val, bv_ofNat_toNat] <;> rfl

theorem crrsi (d : Reg) (imm : Fin 32) (cr : BitVec 12) : Statement (.crrsi d imm cr) := fun _ _ => by
  refine (decode3C_eq { len := 2, major := 60, d := d, a := imm, fn := 5, ext := BitVec.ofNat 64 (cr.toNat) } rfl).trans ?_
  have := cr.isLt
  generalize hx : BitVec.ofNat 64 (cr.toNat) = w
  have hw : w.toNat = (cr.toNat) := by rw [← hx, BitVec.toNat_ofNat]; omega
  have x12_52 : fld w.toNat 12 52 = 0 := by unfold fld; omega
  have g1 : BitVec.ofNat 12 w.toNat = cr := by apply BitVec.eq_of_toNat_eq; rw [BitVec.toNat_ofNat]; omega
  simp only [decode3C, x12_52, g1, fin_ofNat_val, bv_ofNat_toNat] <;> rfl

theorem crrci (d : Reg) (imm : Fin 32) (cr : BitVec 12) : Statement (.crrci d imm cr) := fun _ _ => by
  refine (decode3C_eq { len := 2, major := 60, d := d, a := imm, fn := 6, ext := BitVec.ofNat 64 (cr.toNat) } rfl).trans ?_
  have := cr.isLt
  generalize hx : BitVec.ofNat 64 (cr.toNat) = w
  have hw : w.toNat = (cr.toNat) := by rw [← hx, BitVec.toNat_ofNat]; omega
  have x12_52 : fld w.toNat 12 52 = 0 := by unfold fld; omega
  have g1 : BitVec.ofNat 12 w.toNat = cr := by apply BitVec.eq_of_toNat_eq; rw [BitVec.toNat_ofNat]; omega
  simp only [decode3C, x12_52, g1, fin_ofNat_val, bv_ofNat_toNat] <;> rfl

theorem syscall (code : BitVec 15) : Statement (.syscall code) := fun _ _ => by
  refine (decode3D_eq { len := 0, major := 61, d := Fin.ofNat 32 (code.toNat % 32), a := Fin.ofNat 32 (code.toNat / 32 % 32), b := Fin.ofNat 32 (code.toNat / 1024) } rfl).trans ?_
  have := code.isLt
  generalize hd0 : Fin.ofNat 32 (code.toNat % 32) = d0
  have hd0v : d0.val = (code.toNat % 32) := by rw [← hd0, Fin.val_ofNat] <;> omega
  clear hd0
  generalize ha0 : Fin.ofNat 32 (code.toNat / 32 % 32) = a0
  have ha0v : a0.val = (code.toNat / 32 % 32) := by rw [← ha0, Fin.val_ofNat] <;> omega
  clear ha0
  generalize hb0 : Fin.ofNat 32 (code.toNat / 1024) = b0
  have hb0v : b0.val = (code.toNat / 1024) := by rw [← hb0, Fin.val_ofNat] <;> omega
  clear hb0
  have g1 : BitVec.ofNat 15 (b0.val * 1024 + a0.val * 32 + d0.val) = code := by apply BitVec.eq_of_toNat_eq; rw [BitVec.toNat_ofNat]; omega
  simp only [decode3D, g1, bv_ofNat_toNat] <;> rfl

end Laws.Encoding

theorem Laws.Encoding.break (code : BitVec 15) : Laws.Encoding.Statement (.break code) := fun _ _ => by
  refine (Laws.Encoding.decode3D_eq { len := 0, major := 61, d := Fin.ofNat 32 (code.toNat % 32), a := Fin.ofNat 32 (code.toNat / 32 % 32), b := Fin.ofNat 32 (code.toNat / 1024), fn := 1 } rfl).trans ?_
  have := code.isLt
  generalize hd0 : Fin.ofNat 32 (code.toNat % 32) = d0
  have hd0v : d0.val = (code.toNat % 32) := by rw [← hd0, Fin.val_ofNat] <;> omega
  clear hd0
  generalize ha0 : Fin.ofNat 32 (code.toNat / 32 % 32) = a0
  have ha0v : a0.val = (code.toNat / 32 % 32) := by rw [← ha0, Fin.val_ofNat] <;> omega
  clear ha0
  generalize hb0 : Fin.ofNat 32 (code.toNat / 1024) = b0
  have hb0v : b0.val = (code.toNat / 1024) := by rw [← hb0, Fin.val_ofNat] <;> omega
  clear hb0
  have g1 : BitVec.ofNat 15 (b0.val * 1024 + a0.val * 32 + d0.val) = code := by apply BitVec.eq_of_toNat_eq; rw [BitVec.toNat_ofNat]; omega
  simp only [decode3D, g1, bv_ofNat_toNat] <;> rfl

namespace Laws.Encoding

theorem tret : Statement (.tret) := fun _ _ => (decode3D_eq _ rfl).trans rfl

theorem halt : Statement (.halt) := fun _ _ => (decode3D_eq _ rfl).trans rfl

theorem iwait : Statement (.iwait) := fun _ _ => (decode3D_eq _ rfl).trans rfl

theorem tlbiVa (a : Reg) (b : Reg) : Statement (.tlbiVa a b) := fun _ _ => (decode3E_eq _ rfl).trans rfl

theorem tlbiCtx (b : Reg) : Statement (.tlbiCtx b) := fun _ _ => (decode3E_eq _ rfl).trans rfl

theorem tlbiAll : Statement (.tlbiAll) := fun _ _ => (decode3E_eq _ rfl).trans rfl

theorem tlbsync : Statement (.tlbsync) := fun _ _ => (decode3E_eq _ rfl).trans rfl

theorem ptProbe (d : Reg) (a : Reg) : Statement (.ptProbe d a) := fun _ _ => (decode3E_eq _ rfl).trans rfl

theorem faultRd (d : Reg) (a : Reg) : Statement (.faultRd d a) := fun _ _ => (decode3E_eq _ rfl).trans rfl

theorem partDone (a : Reg) : Statement (.partDone a) := fun _ _ => (decode3E_eq _ rfl).trans rfl

theorem ld (sz : Size) (d : Reg) (base : Reg) (q : MemQual) : Statement (.ld sz d base q) := fun _ _ => by
  refine (decode20_eq { len := 0, major := 32, d := d, a := base, b := Fin.ofNat 32 (q.ord.code + q.scope.code * 4), fn := Fin.ofNat 256 (0 * 32 + sz.code * 8 + q.ev.val) } rfl).trans ?_
  have := sz.code_lt
  generalize hb : Fin.ofNat 32 (q.ord.code + q.scope.code * 4) = b0
  obtain ⟨b1, b2⟩ := mb q hb
  generalize hf : Fin.ofNat 256 (0 * 32 + sz.code * 8 + q.ev.val) = f
  obtain ⟨f1, f2, f3⟩ := mfn 0 sz q hf (by omega)
  simp only [decode20, b1, b2, f1, f2, f3, Raw.memQual?, Option.bind_some, Size.ofCode_code, fin_ofNat_val, Scope.ofCode?_code] <;> rfl

theorem ldExt (sz : Size) (d : Reg) (base : Reg) (q : MemQual) (x : MemExt) : Statement (.ldExt sz d base q x) := fun _ _ => by
  refine (decode20_eq { len := 2, major := 32, d := d, a := base, b := Fin.ofNat 32 (q.ord.code + q.scope.code * 4), fn := Fin.ofNat 256 (0 * 32 + sz.code * 8 + q.ev.val), ext := BitVec.ofNat 64 (x.toExt) } rfl).trans ?_
  have := sz.code_lt
  generalize hb : Fin.ofNat 32 (q.ord.code + q.scope.code * 4) = b0
  obtain ⟨b1, b2⟩ := mb q hb
  generalize hf : Fin.ofNat 256 (0 * 32 + sz.code * 8 + q.ev.val) = f
  obtain ⟨f1, f2, f3⟩ := mfn 0 sz q hf (by omega)
  generalize hx : BitVec.ofNat 64 (x.toExt) = w
  obtain ⟨x40, xe⟩ := MemExt.fields (w := w) x (by rw [← hx])
  simp only [decode20, b1, b2, f1, f2, f3, x40, xe, Raw.memQual?, Option.bind_some, Size.ofCode_code, fin_ofNat_val, Scope.ofCode?_code] <;> rfl

theorem lds (sz : Size) (d : Reg) (base : Reg) (q : MemQual) : Statement (.lds sz d base q) := fun _ _ => by
  refine (decode20_eq { len := 0, major := 32, d := d, a := base, b := Fin.ofNat 32 (q.ord.code + q.scope.code * 4), fn := Fin.ofNat 256 (1 * 32 + sz.code * 8 + q.ev.val) } rfl).trans ?_
  have := sz.code_lt
  generalize hb : Fin.ofNat 32 (q.ord.code + q.scope.code * 4) = b0
  obtain ⟨b1, b2⟩ := mb q hb
  generalize hf : Fin.ofNat 256 (1 * 32 + sz.code * 8 + q.ev.val) = f
  obtain ⟨f1, f2, f3⟩ := mfn 1 sz q hf (by omega)
  simp only [decode20, b1, b2, f1, f2, f3, Raw.memQual?, Option.bind_some, Size.ofCode_code, fin_ofNat_val, Scope.ofCode?_code] <;> rfl

theorem ldsExt (sz : Size) (d : Reg) (base : Reg) (q : MemQual) (x : MemExt) : Statement (.ldsExt sz d base q x) := fun _ _ => by
  refine (decode20_eq { len := 2, major := 32, d := d, a := base, b := Fin.ofNat 32 (q.ord.code + q.scope.code * 4), fn := Fin.ofNat 256 (1 * 32 + sz.code * 8 + q.ev.val), ext := BitVec.ofNat 64 (x.toExt) } rfl).trans ?_
  have := sz.code_lt
  generalize hb : Fin.ofNat 32 (q.ord.code + q.scope.code * 4) = b0
  obtain ⟨b1, b2⟩ := mb q hb
  generalize hf : Fin.ofNat 256 (1 * 32 + sz.code * 8 + q.ev.val) = f
  obtain ⟨f1, f2, f3⟩ := mfn 1 sz q hf (by omega)
  generalize hx : BitVec.ofNat 64 (x.toExt) = w
  obtain ⟨x40, xe⟩ := MemExt.fields (w := w) x (by rw [← hx])
  simp only [decode20, b1, b2, f1, f2, f3, x40, xe, Raw.memQual?, Option.bind_some, Size.ofCode_code, fin_ofNat_val, Scope.ofCode?_code] <;> rfl

theorem st (sz : Size) (a : Reg) (base : Reg) (q : MemQual) : Statement (.st sz a base q) := fun _ _ => by
  refine (decode21_eq { len := 0, major := 33, d := a, a := base, b := Fin.ofNat 32 (q.ord.code + q.scope.code * 4), fn := Fin.ofNat 256 (0 * 32 + sz.code * 8 + q.ev.val) } rfl).trans ?_
  have := sz.code_lt
  generalize hb : Fin.ofNat 32 (q.ord.code + q.scope.code * 4) = b0
  obtain ⟨b1, b2⟩ := mb q hb
  generalize hf : Fin.ofNat 256 (0 * 32 + sz.code * 8 + q.ev.val) = f
  obtain ⟨f1, f2, f3⟩ := mfn 0 sz q hf (by omega)
  simp only [decode21, b1, b2, f1, f2, f3, Raw.memQual?, Option.bind_some, Size.ofCode_code, fin_ofNat_val, Scope.ofCode?_code] <;> rfl

theorem stExt (sz : Size) (a : Reg) (base : Reg) (q : MemQual) (x : MemExt) : Statement (.stExt sz a base q x) := fun _ _ => by
  refine (decode21_eq { len := 2, major := 33, d := a, a := base, b := Fin.ofNat 32 (q.ord.code + q.scope.code * 4), fn := Fin.ofNat 256 (0 * 32 + sz.code * 8 + q.ev.val), ext := BitVec.ofNat 64 (x.toExt) } rfl).trans ?_
  have := sz.code_lt
  generalize hb : Fin.ofNat 32 (q.ord.code + q.scope.code * 4) = b0
  obtain ⟨b1, b2⟩ := mb q hb
  generalize hf : Fin.ofNat 256 (0 * 32 + sz.code * 8 + q.ev.val) = f
  obtain ⟨f1, f2, f3⟩ := mfn 0 sz q hf (by omega)
  generalize hx : BitVec.ofNat 64 (x.toExt) = w
  obtain ⟨x40, xe⟩ := MemExt.fields (w := w) x (by rw [← hx])
  simp only [decode21, b1, b2, f1, f2, f3, x40, xe, Raw.memQual?, Option.bind_some, Size.ofCode_code, fin_ofNat_val, Scope.ofCode?_code] <;> rfl

theorem atomSwap (sz : Size) (d : Reg) (base : Reg) (q : MemQual) : Statement (.atomSwap sz d base q) := fun _ _ => by
  refine (decode22_eq { len := 0, major := 34, d := d, a := base, b := Fin.ofNat 32 (q.ord.code + q.scope.code * 4), fn := Fin.ofNat 256 (0 * 32 + sz.code * 8 + q.ev.val) } rfl).trans ?_
  have := sz.code_lt
  generalize hb : Fin.ofNat 32 (q.ord.code + q.scope.code * 4) = b0
  obtain ⟨b1, b2⟩ := mb q hb
  generalize hf : Fin.ofNat 256 (0 * 32 + sz.code * 8 + q.ev.val) = f
  obtain ⟨f1, f2, f3⟩ := mfn 0 sz q hf (by omega)
  simp only [decode22, b1, b2, f1, f2, f3, Raw.memQual?, Option.bind_some, Size.ofCode_code, fin_ofNat_val, Scope.ofCode?_code] <;> rfl

theorem atomSwapExt (sz : Size) (d : Reg) (base : Reg) (q : MemQual) (x : MemExt) : Statement (.atomSwapExt sz d base q x) := fun _ _ => by
  refine (decode22_eq { len := 2, major := 34, d := d, a := base, b := Fin.ofNat 32 (q.ord.code + q.scope.code * 4), fn := Fin.ofNat 256 (0 * 32 + sz.code * 8 + q.ev.val), ext := BitVec.ofNat 64 (x.toExt) } rfl).trans ?_
  have := sz.code_lt
  generalize hb : Fin.ofNat 32 (q.ord.code + q.scope.code * 4) = b0
  obtain ⟨b1, b2⟩ := mb q hb
  generalize hf : Fin.ofNat 256 (0 * 32 + sz.code * 8 + q.ev.val) = f
  obtain ⟨f1, f2, f3⟩ := mfn 0 sz q hf (by omega)
  generalize hx : BitVec.ofNat 64 (x.toExt) = w
  obtain ⟨x40, xe⟩ := MemExt.fields (w := w) x (by rw [← hx])
  simp only [decode22, b1, b2, f1, f2, f3, x40, xe, Raw.memQual?, Option.bind_some, Size.ofCode_code, fin_ofNat_val, Scope.ofCode?_code] <;> rfl

theorem atomAdd (sz : Size) (d : Reg) (base : Reg) (q : MemQual) : Statement (.atomAdd sz d base q) := fun _ _ => by
  refine (decode22_eq { len := 0, major := 34, d := d, a := base, b := Fin.ofNat 32 (q.ord.code + q.scope.code * 4), fn := Fin.ofNat 256 (1 * 32 + sz.code * 8 + q.ev.val) } rfl).trans ?_
  have := sz.code_lt
  generalize hb : Fin.ofNat 32 (q.ord.code + q.scope.code * 4) = b0
  obtain ⟨b1, b2⟩ := mb q hb
  generalize hf : Fin.ofNat 256 (1 * 32 + sz.code * 8 + q.ev.val) = f
  obtain ⟨f1, f2, f3⟩ := mfn 1 sz q hf (by omega)
  simp only [decode22, b1, b2, f1, f2, f3, Raw.memQual?, Option.bind_some, Size.ofCode_code, fin_ofNat_val, Scope.ofCode?_code] <;> rfl

theorem atomAddExt (sz : Size) (d : Reg) (base : Reg) (q : MemQual) (x : MemExt) : Statement (.atomAddExt sz d base q x) := fun _ _ => by
  refine (decode22_eq { len := 2, major := 34, d := d, a := base, b := Fin.ofNat 32 (q.ord.code + q.scope.code * 4), fn := Fin.ofNat 256 (1 * 32 + sz.code * 8 + q.ev.val), ext := BitVec.ofNat 64 (x.toExt) } rfl).trans ?_
  have := sz.code_lt
  generalize hb : Fin.ofNat 32 (q.ord.code + q.scope.code * 4) = b0
  obtain ⟨b1, b2⟩ := mb q hb
  generalize hf : Fin.ofNat 256 (1 * 32 + sz.code * 8 + q.ev.val) = f
  obtain ⟨f1, f2, f3⟩ := mfn 1 sz q hf (by omega)
  generalize hx : BitVec.ofNat 64 (x.toExt) = w
  obtain ⟨x40, xe⟩ := MemExt.fields (w := w) x (by rw [← hx])
  simp only [decode22, b1, b2, f1, f2, f3, x40, xe, Raw.memQual?, Option.bind_some, Size.ofCode_code, fin_ofNat_val, Scope.ofCode?_code] <;> rfl

theorem atomAnd (sz : Size) (d : Reg) (base : Reg) (q : MemQual) : Statement (.atomAnd sz d base q) := fun _ _ => by
  refine (decode22_eq { len := 0, major := 34, d := d, a := base, b := Fin.ofNat 32 (q.ord.code + q.scope.code * 4), fn := Fin.ofNat 256 (2 * 32 + sz.code * 8 + q.ev.val) } rfl).trans ?_
  have := sz.code_lt
  generalize hb : Fin.ofNat 32 (q.ord.code + q.scope.code * 4) = b0
  obtain ⟨b1, b2⟩ := mb q hb
  generalize hf : Fin.ofNat 256 (2 * 32 + sz.code * 8 + q.ev.val) = f
  obtain ⟨f1, f2, f3⟩ := mfn 2 sz q hf (by omega)
  simp only [decode22, b1, b2, f1, f2, f3, Raw.memQual?, Option.bind_some, Size.ofCode_code, fin_ofNat_val, Scope.ofCode?_code] <;> rfl

theorem atomAndExt (sz : Size) (d : Reg) (base : Reg) (q : MemQual) (x : MemExt) : Statement (.atomAndExt sz d base q x) := fun _ _ => by
  refine (decode22_eq { len := 2, major := 34, d := d, a := base, b := Fin.ofNat 32 (q.ord.code + q.scope.code * 4), fn := Fin.ofNat 256 (2 * 32 + sz.code * 8 + q.ev.val), ext := BitVec.ofNat 64 (x.toExt) } rfl).trans ?_
  have := sz.code_lt
  generalize hb : Fin.ofNat 32 (q.ord.code + q.scope.code * 4) = b0
  obtain ⟨b1, b2⟩ := mb q hb
  generalize hf : Fin.ofNat 256 (2 * 32 + sz.code * 8 + q.ev.val) = f
  obtain ⟨f1, f2, f3⟩ := mfn 2 sz q hf (by omega)
  generalize hx : BitVec.ofNat 64 (x.toExt) = w
  obtain ⟨x40, xe⟩ := MemExt.fields (w := w) x (by rw [← hx])
  simp only [decode22, b1, b2, f1, f2, f3, x40, xe, Raw.memQual?, Option.bind_some, Size.ofCode_code, fin_ofNat_val, Scope.ofCode?_code] <;> rfl

theorem atomOr (sz : Size) (d : Reg) (base : Reg) (q : MemQual) : Statement (.atomOr sz d base q) := fun _ _ => by
  refine (decode22_eq { len := 0, major := 34, d := d, a := base, b := Fin.ofNat 32 (q.ord.code + q.scope.code * 4), fn := Fin.ofNat 256 (3 * 32 + sz.code * 8 + q.ev.val) } rfl).trans ?_
  have := sz.code_lt
  generalize hb : Fin.ofNat 32 (q.ord.code + q.scope.code * 4) = b0
  obtain ⟨b1, b2⟩ := mb q hb
  generalize hf : Fin.ofNat 256 (3 * 32 + sz.code * 8 + q.ev.val) = f
  obtain ⟨f1, f2, f3⟩ := mfn 3 sz q hf (by omega)
  simp only [decode22, b1, b2, f1, f2, f3, Raw.memQual?, Option.bind_some, Size.ofCode_code, fin_ofNat_val, Scope.ofCode?_code] <;> rfl

theorem atomOrExt (sz : Size) (d : Reg) (base : Reg) (q : MemQual) (x : MemExt) : Statement (.atomOrExt sz d base q x) := fun _ _ => by
  refine (decode22_eq { len := 2, major := 34, d := d, a := base, b := Fin.ofNat 32 (q.ord.code + q.scope.code * 4), fn := Fin.ofNat 256 (3 * 32 + sz.code * 8 + q.ev.val), ext := BitVec.ofNat 64 (x.toExt) } rfl).trans ?_
  have := sz.code_lt
  generalize hb : Fin.ofNat 32 (q.ord.code + q.scope.code * 4) = b0
  obtain ⟨b1, b2⟩ := mb q hb
  generalize hf : Fin.ofNat 256 (3 * 32 + sz.code * 8 + q.ev.val) = f
  obtain ⟨f1, f2, f3⟩ := mfn 3 sz q hf (by omega)
  generalize hx : BitVec.ofNat 64 (x.toExt) = w
  obtain ⟨x40, xe⟩ := MemExt.fields (w := w) x (by rw [← hx])
  simp only [decode22, b1, b2, f1, f2, f3, x40, xe, Raw.memQual?, Option.bind_some, Size.ofCode_code, fin_ofNat_val, Scope.ofCode?_code] <;> rfl

theorem atomXor (sz : Size) (d : Reg) (base : Reg) (q : MemQual) : Statement (.atomXor sz d base q) := fun _ _ => by
  refine (decode22_eq { len := 0, major := 34, d := d, a := base, b := Fin.ofNat 32 (q.ord.code + q.scope.code * 4), fn := Fin.ofNat 256 (4 * 32 + sz.code * 8 + q.ev.val) } rfl).trans ?_
  have := sz.code_lt
  generalize hb : Fin.ofNat 32 (q.ord.code + q.scope.code * 4) = b0
  obtain ⟨b1, b2⟩ := mb q hb
  generalize hf : Fin.ofNat 256 (4 * 32 + sz.code * 8 + q.ev.val) = f
  obtain ⟨f1, f2, f3⟩ := mfn 4 sz q hf (by omega)
  simp only [decode22, b1, b2, f1, f2, f3, Raw.memQual?, Option.bind_some, Size.ofCode_code, fin_ofNat_val, Scope.ofCode?_code] <;> rfl

theorem atomXorExt (sz : Size) (d : Reg) (base : Reg) (q : MemQual) (x : MemExt) : Statement (.atomXorExt sz d base q x) := fun _ _ => by
  refine (decode22_eq { len := 2, major := 34, d := d, a := base, b := Fin.ofNat 32 (q.ord.code + q.scope.code * 4), fn := Fin.ofNat 256 (4 * 32 + sz.code * 8 + q.ev.val), ext := BitVec.ofNat 64 (x.toExt) } rfl).trans ?_
  have := sz.code_lt
  generalize hb : Fin.ofNat 32 (q.ord.code + q.scope.code * 4) = b0
  obtain ⟨b1, b2⟩ := mb q hb
  generalize hf : Fin.ofNat 256 (4 * 32 + sz.code * 8 + q.ev.val) = f
  obtain ⟨f1, f2, f3⟩ := mfn 4 sz q hf (by omega)
  generalize hx : BitVec.ofNat 64 (x.toExt) = w
  obtain ⟨x40, xe⟩ := MemExt.fields (w := w) x (by rw [← hx])
  simp only [decode22, b1, b2, f1, f2, f3, x40, xe, Raw.memQual?, Option.bind_some, Size.ofCode_code, fin_ofNat_val, Scope.ofCode?_code] <;> rfl

theorem atomMin (sz : Size) (d : Reg) (base : Reg) (q : MemQual) : Statement (.atomMin sz d base q) := fun _ _ => by
  refine (decode22_eq { len := 0, major := 34, d := d, a := base, b := Fin.ofNat 32 (q.ord.code + q.scope.code * 4), fn := Fin.ofNat 256 (5 * 32 + sz.code * 8 + q.ev.val) } rfl).trans ?_
  have := sz.code_lt
  generalize hb : Fin.ofNat 32 (q.ord.code + q.scope.code * 4) = b0
  obtain ⟨b1, b2⟩ := mb q hb
  generalize hf : Fin.ofNat 256 (5 * 32 + sz.code * 8 + q.ev.val) = f
  obtain ⟨f1, f2, f3⟩ := mfn 5 sz q hf (by omega)
  simp only [decode22, b1, b2, f1, f2, f3, Raw.memQual?, Option.bind_some, Size.ofCode_code, fin_ofNat_val, Scope.ofCode?_code] <;> rfl

theorem atomMinExt (sz : Size) (d : Reg) (base : Reg) (q : MemQual) (x : MemExt) : Statement (.atomMinExt sz d base q x) := fun _ _ => by
  refine (decode22_eq { len := 2, major := 34, d := d, a := base, b := Fin.ofNat 32 (q.ord.code + q.scope.code * 4), fn := Fin.ofNat 256 (5 * 32 + sz.code * 8 + q.ev.val), ext := BitVec.ofNat 64 (x.toExt) } rfl).trans ?_
  have := sz.code_lt
  generalize hb : Fin.ofNat 32 (q.ord.code + q.scope.code * 4) = b0
  obtain ⟨b1, b2⟩ := mb q hb
  generalize hf : Fin.ofNat 256 (5 * 32 + sz.code * 8 + q.ev.val) = f
  obtain ⟨f1, f2, f3⟩ := mfn 5 sz q hf (by omega)
  generalize hx : BitVec.ofNat 64 (x.toExt) = w
  obtain ⟨x40, xe⟩ := MemExt.fields (w := w) x (by rw [← hx])
  simp only [decode22, b1, b2, f1, f2, f3, x40, xe, Raw.memQual?, Option.bind_some, Size.ofCode_code, fin_ofNat_val, Scope.ofCode?_code] <;> rfl

theorem atomMax (sz : Size) (d : Reg) (base : Reg) (q : MemQual) : Statement (.atomMax sz d base q) := fun _ _ => by
  refine (decode22_eq { len := 0, major := 34, d := d, a := base, b := Fin.ofNat 32 (q.ord.code + q.scope.code * 4), fn := Fin.ofNat 256 (6 * 32 + sz.code * 8 + q.ev.val) } rfl).trans ?_
  have := sz.code_lt
  generalize hb : Fin.ofNat 32 (q.ord.code + q.scope.code * 4) = b0
  obtain ⟨b1, b2⟩ := mb q hb
  generalize hf : Fin.ofNat 256 (6 * 32 + sz.code * 8 + q.ev.val) = f
  obtain ⟨f1, f2, f3⟩ := mfn 6 sz q hf (by omega)
  simp only [decode22, b1, b2, f1, f2, f3, Raw.memQual?, Option.bind_some, Size.ofCode_code, fin_ofNat_val, Scope.ofCode?_code] <;> rfl

theorem atomMaxExt (sz : Size) (d : Reg) (base : Reg) (q : MemQual) (x : MemExt) : Statement (.atomMaxExt sz d base q x) := fun _ _ => by
  refine (decode22_eq { len := 2, major := 34, d := d, a := base, b := Fin.ofNat 32 (q.ord.code + q.scope.code * 4), fn := Fin.ofNat 256 (6 * 32 + sz.code * 8 + q.ev.val), ext := BitVec.ofNat 64 (x.toExt) } rfl).trans ?_
  have := sz.code_lt
  generalize hb : Fin.ofNat 32 (q.ord.code + q.scope.code * 4) = b0
  obtain ⟨b1, b2⟩ := mb q hb
  generalize hf : Fin.ofNat 256 (6 * 32 + sz.code * 8 + q.ev.val) = f
  obtain ⟨f1, f2, f3⟩ := mfn 6 sz q hf (by omega)
  generalize hx : BitVec.ofNat 64 (x.toExt) = w
  obtain ⟨x40, xe⟩ := MemExt.fields (w := w) x (by rw [← hx])
  simp only [decode22, b1, b2, f1, f2, f3, x40, xe, Raw.memQual?, Option.bind_some, Size.ofCode_code, fin_ofNat_val, Scope.ofCode?_code] <;> rfl

theorem atomFadd (d : Reg) (base : Reg) (q : MemQual) : Statement (.atomFadd d base q) := fun _ _ => by
  refine (decode22_eq { len := 0, major := 34, d := d, a := base, b := Fin.ofNat 32 (q.ord.code + q.scope.code * 4), fn := Fin.ofNat 256 (7 * 32 + 2 * 8 + q.ev.val) } rfl).trans ?_
  have := q.ev.isLt
  generalize hb : Fin.ofNat 32 (q.ord.code + q.scope.code * 4) = b0
  obtain ⟨b1, b2⟩ := mb q hb
  generalize hf : Fin.ofNat 256 (7 * 32 + 2 * 8 + q.ev.val) = f
  have hfv : f.val = (7 * 32 + 2 * 8 + q.ev.val) := by rw [← hf, Fin.val_ofNat] <;> omega
  clear hf
  have g1 : f.val / 32 = 7 := by omega
  have g2 : f.val / 8 = 30 := by omega
  have g3 : Fin.ofNat 8 f.val = q.ev := by apply Fin.ext; rw [Fin.val_ofNat]; omega
  simp only [decode22, b1, b2, g1, g2, g3, Raw.memQual?, Option.bind_some, fin_ofNat_val, Scope.ofCode?_code] <;> rfl

theorem atomFaddExt (d : Reg) (base : Reg) (q : MemQual) (x : MemExt) : Statement (.atomFaddExt d base q x) := fun _ _ => by
  refine (decode22_eq { len := 2, major := 34, d := d, a := base, b := Fin.ofNat 32 (q.ord.code + q.scope.code * 4), fn := Fin.ofNat 256 (7 * 32 + 2 * 8 + q.ev.val), ext := BitVec.ofNat 64 (x.toExt) } rfl).trans ?_
  have := q.ev.isLt
  generalize hb : Fin.ofNat 32 (q.ord.code + q.scope.code * 4) = b0
  obtain ⟨b1, b2⟩ := mb q hb
  generalize hf : Fin.ofNat 256 (7 * 32 + 2 * 8 + q.ev.val) = f
  have hfv : f.val = (7 * 32 + 2 * 8 + q.ev.val) := by rw [← hf, Fin.val_ofNat] <;> omega
  clear hf
  generalize hx : BitVec.ofNat 64 (x.toExt) = w
  obtain ⟨x40, xe⟩ := MemExt.fields (w := w) x (by rw [← hx])
  have g1 : f.val / 32 = 7 := by omega
  have g2 : f.val / 8 = 30 := by omega
  have g3 : Fin.ofNat 8 f.val = q.ev := by apply Fin.ext; rw [Fin.val_ofNat]; omega
  simp only [decode22, b1, b2, x40, xe, g1, g2, g3, Raw.memQual?, Option.bind_some, fin_ofNat_val, Scope.ofCode?_code] <;> rfl

theorem cas (sz : Size) (d : Reg) (base : Reg) (q : MemQual) : Statement (.cas sz d base q) := fun _ _ => by
  refine (decode23_eq { len := 0, major := 35, d := d, a := base, b := Fin.ofNat 32 (q.ord.code + q.scope.code * 4), fn := Fin.ofNat 256 (0 * 32 + sz.code * 8 + q.ev.val) } rfl).trans ?_
  have := sz.code_lt
  generalize hb : Fin.ofNat 32 (q.ord.code + q.scope.code * 4) = b0
  obtain ⟨b1, b2⟩ := mb q hb
  generalize hf : Fin.ofNat 256 (0 * 32 + sz.code * 8 + q.ev.val) = f
  obtain ⟨f1, f2, f3⟩ := mfn 0 sz q hf (by omega)
  simp only [decode23, b1, b2, f1, f2, f3, Raw.memQual?, Option.bind_some, Size.ofCode_code, fin_ofNat_val, Scope.ofCode?_code] <;> rfl

theorem casExt (sz : Size) (d : Reg) (base : Reg) (q : MemQual) (x : MemExt) : Statement (.casExt sz d base q x) := fun _ _ => by
  refine (decode23_eq { len := 2, major := 35, d := d, a := base, b := Fin.ofNat 32 (q.ord.code + q.scope.code * 4), fn := Fin.ofNat 256 (0 * 32 + sz.code * 8 + q.ev.val), ext := BitVec.ofNat 64 (x.toExt) } rfl).trans ?_
  have := sz.code_lt
  generalize hb : Fin.ofNat 32 (q.ord.code + q.scope.code * 4) = b0
  obtain ⟨b1, b2⟩ := mb q hb
  generalize hf : Fin.ofNat 256 (0 * 32 + sz.code * 8 + q.ev.val) = f
  obtain ⟨f1, f2, f3⟩ := mfn 0 sz q hf (by omega)
  generalize hx : BitVec.ofNat 64 (x.toExt) = w
  obtain ⟨x40, xe⟩ := MemExt.fields (w := w) x (by rw [← hx])
  simp only [decode23, b1, b2, f1, f2, f3, x40, xe, Raw.memQual?, Option.bind_some, Size.ofCode_code, fin_ofNat_val, Scope.ofCode?_code] <;> rfl

theorem stnibLo (a : Reg) (base : Reg) (q : MemQual) : Statement (.stnibLo a base q) := fun _ _ => by
  refine (decode29_eq { len := 0, major := 41, d := a, a := base, b := Fin.ofNat 32 (q.ord.code + q.scope.code * 4), fn := Fin.ofNat 256 (0 * 32 + q.ev.val) } rfl).trans ?_
  have := q.ev.isLt
  generalize hb : Fin.ofNat 32 (q.ord.code + q.scope.code * 4) = b0
  obtain ⟨b1, b2⟩ := mb q hb
  generalize hf : Fin.ofNat 256 (0 * 32 + q.ev.val) = f
  have hfv : f.val = (0 * 32 + q.ev.val) := by rw [← hf, Fin.val_ofNat] <;> omega
  clear hf
  have g1 : f.val / 8 = 0 := by omega
  have g2 : Fin.ofNat 8 f.val = q.ev := by apply Fin.ext; rw [Fin.val_ofNat]; omega
  simp only [decode29, b1, b2, g1, g2, Raw.memQual?, Option.bind_some, fin_ofNat_val, Scope.ofCode?_code] <;> rfl

theorem stnibLoExt (a : Reg) (base : Reg) (q : MemQual) (x : MemExt) : Statement (.stnibLoExt a base q x) := fun _ _ => by
  refine (decode29_eq { len := 2, major := 41, d := a, a := base, b := Fin.ofNat 32 (q.ord.code + q.scope.code * 4), fn := Fin.ofNat 256 (0 * 32 + q.ev.val), ext := BitVec.ofNat 64 (x.toExt) } rfl).trans ?_
  have := q.ev.isLt
  generalize hb : Fin.ofNat 32 (q.ord.code + q.scope.code * 4) = b0
  obtain ⟨b1, b2⟩ := mb q hb
  generalize hf : Fin.ofNat 256 (0 * 32 + q.ev.val) = f
  have hfv : f.val = (0 * 32 + q.ev.val) := by rw [← hf, Fin.val_ofNat] <;> omega
  clear hf
  generalize hx : BitVec.ofNat 64 (x.toExt) = w
  obtain ⟨x40, xe⟩ := MemExt.fields (w := w) x (by rw [← hx])
  have g1 : f.val / 8 = 0 := by omega
  have g2 : Fin.ofNat 8 f.val = q.ev := by apply Fin.ext; rw [Fin.val_ofNat]; omega
  simp only [decode29, b1, b2, x40, xe, g1, g2, Raw.memQual?, Option.bind_some, fin_ofNat_val, Scope.ofCode?_code] <;> rfl

theorem stnibHi (a : Reg) (base : Reg) (q : MemQual) : Statement (.stnibHi a base q) := fun _ _ => by
  refine (decode29_eq { len := 0, major := 41, d := a, a := base, b := Fin.ofNat 32 (q.ord.code + q.scope.code * 4), fn := Fin.ofNat 256 (1 * 32 + q.ev.val) } rfl).trans ?_
  have := q.ev.isLt
  generalize hb : Fin.ofNat 32 (q.ord.code + q.scope.code * 4) = b0
  obtain ⟨b1, b2⟩ := mb q hb
  generalize hf : Fin.ofNat 256 (1 * 32 + q.ev.val) = f
  have hfv : f.val = (1 * 32 + q.ev.val) := by rw [← hf, Fin.val_ofNat] <;> omega
  clear hf
  have g1 : f.val / 8 = 4 := by omega
  have g2 : Fin.ofNat 8 f.val = q.ev := by apply Fin.ext; rw [Fin.val_ofNat]; omega
  simp only [decode29, b1, b2, g1, g2, Raw.memQual?, Option.bind_some, fin_ofNat_val, Scope.ofCode?_code] <;> rfl

theorem stnibHiExt (a : Reg) (base : Reg) (q : MemQual) (x : MemExt) : Statement (.stnibHiExt a base q x) := fun _ _ => by
  refine (decode29_eq { len := 2, major := 41, d := a, a := base, b := Fin.ofNat 32 (q.ord.code + q.scope.code * 4), fn := Fin.ofNat 256 (1 * 32 + q.ev.val), ext := BitVec.ofNat 64 (x.toExt) } rfl).trans ?_
  have := q.ev.isLt
  generalize hb : Fin.ofNat 32 (q.ord.code + q.scope.code * 4) = b0
  obtain ⟨b1, b2⟩ := mb q hb
  generalize hf : Fin.ofNat 256 (1 * 32 + q.ev.val) = f
  have hfv : f.val = (1 * 32 + q.ev.val) := by rw [← hf, Fin.val_ofNat] <;> omega
  clear hf
  generalize hx : BitVec.ofNat 64 (x.toExt) = w
  obtain ⟨x40, xe⟩ := MemExt.fields (w := w) x (by rw [← hx])
  have g1 : f.val / 8 = 4 := by omega
  have g2 : Fin.ofNat 8 f.val = q.ev := by apply Fin.ext; rw [Fin.val_ofNat]; omega
  simp only [decode29, b1, b2, x40, xe, g1, g2, Raw.memQual?, Option.bind_some, fin_ofNat_val, Scope.ofCode?_code] <;> rfl

theorem pref (n : Reg) (base : Reg) (ev : Fin 8) : Statement (.pref n base ev) := fun _ _ => by
  refine (decode25_eq { len := 0, major := 37, d := n, a := base, b := Fin.ofNat 32 (0), fn := Fin.ofNat 256 (ev.val) } rfl).trans ?_
  have := ev.isLt
  generalize hb0 : Fin.ofNat 32 (0) = b0
  have hb0v : b0.val = (0) := by rw [← hb0, Fin.val_ofNat] <;> omega
  clear hb0
  generalize hf : Fin.ofNat 256 (ev.val) = f
  have hfv : f.val = (ev.val) := by rw [← hf, Fin.val_ofNat] <;> omega
  clear hf
  have g1 : b0.val % 4 = 0 := by omega
  have g2 : b0.val / 4 = 0 := by omega
  have g3 : f.val % 8 = ev.val := by omega
  have g4 : f.val / 8 = 0 := by omega
  have g5 : Fin.ofNat 8 f.val = ev := by apply Fin.ext; rw [Fin.val_ofNat]; omega
  simp only [decode25, hb0v, g1, g2, g3, g4, g5, fin_ofNat_val] <;> rfl

theorem prefExt (n : Reg) (base : Reg) (ev : Fin 8) (x : MemExt) : Statement (.prefExt n base ev x) := fun _ _ => by
  refine (decode25_eq { len := 2, major := 37, d := n, a := base, b := Fin.ofNat 32 (0), fn := Fin.ofNat 256 (ev.val), ext := BitVec.ofNat 64 (x.toExt) } rfl).trans ?_
  have := ev.isLt
  generalize hb0 : Fin.ofNat 32 (0) = b0
  have hb0v : b0.val = (0) := by rw [← hb0, Fin.val_ofNat] <;> omega
  clear hb0
  generalize hf : Fin.ofNat 256 (ev.val) = f
  have hfv : f.val = (ev.val) := by rw [← hf, Fin.val_ofNat] <;> omega
  clear hf
  generalize hx : BitVec.ofNat 64 (x.toExt) = w
  obtain ⟨x40, xe⟩ := MemExt.fields (w := w) x (by rw [← hx])
  have g1 : b0.val % 4 = 0 := by omega
  have g2 : b0.val / 4 = 0 := by omega
  have g3 : f.val % 8 = ev.val := by omega
  have g4 : f.val / 8 = 0 := by omega
  have g5 : Fin.ofNat 8 f.val = ev := by apply Fin.ext; rw [Fin.val_ofNat]; omega
  simp only [decode25, hb0v, x40, xe, g1, g2, g3, g4, g5, fin_ofNat_val] <;> rfl

theorem cclean (n : Reg) (base : Reg) (sc : Scope) : Statement (.cclean n base sc) := fun _ _ => by
  refine (decode25_eq { len := 0, major := 37, d := n, a := base, b := Fin.ofNat 32 (sc.code * 4), fn := Fin.ofNat 256 (1 * 32) } rfl).trans ?_
  have := sc.code_lt
  generalize hb0 : Fin.ofNat 32 (sc.code * 4) = b0
  have hb0v : b0.val = (sc.code * 4) := by rw [← hb0, Fin.val_ofNat] <;> omega
  clear hb0
  generalize hf : Fin.ofNat 256 (1 * 32) = f
  have hfv : f.val = (1 * 32) := by rw [← hf, Fin.val_ofNat] <;> omega
  clear hf
  have g1 : b0.val % 4 = 0 := by omega
  have g2 : b0.val / 4 = sc.code := by omega
  have g3 : f.val % 8 = 0 := by omega
  have g4 : f.val / 8 = 4 := by omega
  simp only [decode25, g1, g2, g3, g4, Option.bind_some, fin_ofNat_val, Scope.ofCode?_code] <;> rfl

theorem ccleanExt (n : Reg) (base : Reg) (sc : Scope) (x : MemExt) : Statement (.ccleanExt n base sc x) := fun _ _ => by
  refine (decode25_eq { len := 2, major := 37, d := n, a := base, b := Fin.ofNat 32 (sc.code * 4), fn := Fin.ofNat 256 (1 * 32), ext := BitVec.ofNat 64 (x.toExt) } rfl).trans ?_
  have := sc.code_lt
  generalize hb0 : Fin.ofNat 32 (sc.code * 4) = b0
  have hb0v : b0.val = (sc.code * 4) := by rw [← hb0, Fin.val_ofNat] <;> omega
  clear hb0
  generalize hf : Fin.ofNat 256 (1 * 32) = f
  have hfv : f.val = (1 * 32) := by rw [← hf, Fin.val_ofNat] <;> omega
  clear hf
  generalize hx : BitVec.ofNat 64 (x.toExt) = w
  obtain ⟨x40, xe⟩ := MemExt.fields (w := w) x (by rw [← hx])
  have g1 : b0.val % 4 = 0 := by omega
  have g2 : b0.val / 4 = sc.code := by omega
  have g3 : f.val % 8 = 0 := by omega
  have g4 : f.val / 8 = 4 := by omega
  simp only [decode25, x40, xe, g1, g2, g3, g4, Option.bind_some, fin_ofNat_val, Scope.ofCode?_code] <;> rfl

theorem cflush (n : Reg) (base : Reg) (sc : Scope) : Statement (.cflush n base sc) := fun _ _ => by
  refine (decode25_eq { len := 0, major := 37, d := n, a := base, b := Fin.ofNat 32 (sc.code * 4), fn := Fin.ofNat 256 (2 * 32) } rfl).trans ?_
  have := sc.code_lt
  generalize hb0 : Fin.ofNat 32 (sc.code * 4) = b0
  have hb0v : b0.val = (sc.code * 4) := by rw [← hb0, Fin.val_ofNat] <;> omega
  clear hb0
  generalize hf : Fin.ofNat 256 (2 * 32) = f
  have hfv : f.val = (2 * 32) := by rw [← hf, Fin.val_ofNat] <;> omega
  clear hf
  have g1 : b0.val % 4 = 0 := by omega
  have g2 : b0.val / 4 = sc.code := by omega
  have g3 : f.val % 8 = 0 := by omega
  have g4 : f.val / 8 = 8 := by omega
  simp only [decode25, g1, g2, g3, g4, Option.bind_some, fin_ofNat_val, Scope.ofCode?_code] <;> rfl

theorem cflushExt (n : Reg) (base : Reg) (sc : Scope) (x : MemExt) : Statement (.cflushExt n base sc x) := fun _ _ => by
  refine (decode25_eq { len := 2, major := 37, d := n, a := base, b := Fin.ofNat 32 (sc.code * 4), fn := Fin.ofNat 256 (2 * 32), ext := BitVec.ofNat 64 (x.toExt) } rfl).trans ?_
  have := sc.code_lt
  generalize hb0 : Fin.ofNat 32 (sc.code * 4) = b0
  have hb0v : b0.val = (sc.code * 4) := by rw [← hb0, Fin.val_ofNat] <;> omega
  clear hb0
  generalize hf : Fin.ofNat 256 (2 * 32) = f
  have hfv : f.val = (2 * 32) := by rw [← hf, Fin.val_ofNat] <;> omega
  clear hf
  generalize hx : BitVec.ofNat 64 (x.toExt) = w
  obtain ⟨x40, xe⟩ := MemExt.fields (w := w) x (by rw [← hx])
  have g1 : b0.val % 4 = 0 := by omega
  have g2 : b0.val / 4 = sc.code := by omega
  have g3 : f.val % 8 = 0 := by omega
  have g4 : f.val / 8 = 8 := by omega
  simp only [decode25, x40, xe, g1, g2, g3, g4, Option.bind_some, fin_ofNat_val, Scope.ofCode?_code] <;> rfl

theorem codeflush (n : Reg) (base : Reg) (sc : Scope) : Statement (.codeflush n base sc) := fun _ _ => by
  refine (decode25_eq { len := 0, major := 37, d := n, a := base, b := Fin.ofNat 32 (sc.code * 4), fn := Fin.ofNat 256 (3 * 32) } rfl).trans ?_
  have := sc.code_lt
  generalize hb0 : Fin.ofNat 32 (sc.code * 4) = b0
  have hb0v : b0.val = (sc.code * 4) := by rw [← hb0, Fin.val_ofNat] <;> omega
  clear hb0
  generalize hf : Fin.ofNat 256 (3 * 32) = f
  have hfv : f.val = (3 * 32) := by rw [← hf, Fin.val_ofNat] <;> omega
  clear hf
  have g1 : b0.val % 4 = 0 := by omega
  have g2 : b0.val / 4 = sc.code := by omega
  have g3 : f.val % 8 = 0 := by omega
  have g4 : f.val / 8 = 12 := by omega
  simp only [decode25, g1, g2, g3, g4, Option.bind_some, fin_ofNat_val, Scope.ofCode?_code] <;> rfl

theorem codeflushExt (n : Reg) (base : Reg) (sc : Scope) (x : MemExt) : Statement (.codeflushExt n base sc x) := fun _ _ => by
  refine (decode25_eq { len := 2, major := 37, d := n, a := base, b := Fin.ofNat 32 (sc.code * 4), fn := Fin.ofNat 256 (3 * 32), ext := BitVec.ofNat 64 (x.toExt) } rfl).trans ?_
  have := sc.code_lt
  generalize hb0 : Fin.ofNat 32 (sc.code * 4) = b0
  have hb0v : b0.val = (sc.code * 4) := by rw [← hb0, Fin.val_ofNat] <;> omega
  clear hb0
  generalize hf : Fin.ofNat 256 (3 * 32) = f
  have hfv : f.val = (3 * 32) := by rw [← hf, Fin.val_ofNat] <;> omega
  clear hf
  generalize hx : BitVec.ofNat 64 (x.toExt) = w
  obtain ⟨x40, xe⟩ := MemExt.fields (w := w) x (by rw [← hx])
  have g1 : b0.val % 4 = 0 := by omega
  have g2 : b0.val / 4 = sc.code := by omega
  have g3 : f.val % 8 = 0 := by omega
  have g4 : f.val / 8 = 12 := by omega
  simp only [decode25, x40, xe, g1, g2, g3, g4, Option.bind_some, fin_ofNat_val, Scope.ofCode?_code] <;> rfl

theorem ifence : Statement (.ifence) := fun _ _ => by
  refine (decode25_eq { len := 0, major := 37, fn := Fin.ofNat 256 (4 * 32) } rfl).trans ?_
  generalize hf : Fin.ofNat 256 (4 * 32) = f
  have hfv : f.val = (4 * 32) := by rw [← hf, Fin.val_ofNat] <;> omega
  clear hf
  have g1 : f.val % 8 = 0 := by omega
  have g2 : f.val / 8 = 16 := by omega
  simp only [decode25, g1, g2] <;> rfl

theorem stashMap (c : Reg) (base : Reg) : Statement (.stashMap c base) := fun _ _ => by
  refine (decode25_eq { len := 0, major := 37, d := c, a := base, b := Fin.ofNat 32 (0), fn := Fin.ofNat 256 (5 * 32) } rfl).trans ?_
  generalize hb0 : Fin.ofNat 32 (0) = b0
  have hb0v : b0.val = (0) := by rw [← hb0, Fin.val_ofNat] <;> omega
  clear hb0
  generalize hf : Fin.ofNat 256 (5 * 32) = f
  have hfv : f.val = (5 * 32) := by rw [← hf, Fin.val_ofNat] <;> omega
  clear hf
  have g1 : b0.val % 4 = 0 := by omega
  have g2 : b0.val / 4 = 0 := by omega
  have g3 : f.val % 8 = 0 := by omega
  have g4 : f.val / 8 = 20 := by omega
  simp only [decode25, hb0v, g1, g2, g3, g4, fin_ofNat_val] <;> rfl

theorem stashMapExt (c : Reg) (base : Reg) (x : MemExt) : Statement (.stashMapExt c base x) := fun _ _ => by
  refine (decode25_eq { len := 2, major := 37, d := c, a := base, b := Fin.ofNat 32 (0), fn := Fin.ofNat 256 (5 * 32), ext := BitVec.ofNat 64 (x.toExt) } rfl).trans ?_
  generalize hb0 : Fin.ofNat 32 (0) = b0
  have hb0v : b0.val = (0) := by rw [← hb0, Fin.val_ofNat] <;> omega
  clear hb0
  generalize hf : Fin.ofNat 256 (5 * 32) = f
  have hfv : f.val = (5 * 32) := by rw [← hf, Fin.val_ofNat] <;> omega
  clear hf
  generalize hx : BitVec.ofNat 64 (x.toExt) = w
  obtain ⟨x40, xe⟩ := MemExt.fields (w := w) x (by rw [← hx])
  have g1 : b0.val % 4 = 0 := by omega
  have g2 : b0.val / 4 = 0 := by omega
  have g3 : f.val % 8 = 0 := by omega
  have g4 : f.val / 8 = 20 := by omega
  simp only [decode25, hb0v, x40, xe, g1, g2, g3, g4, fin_ofNat_val] <;> rfl

theorem stashUnmap (base : Reg) : Statement (.stashUnmap base) := fun _ _ => by
  refine (decode25_eq { len := 0, major := 37, a := base, b := Fin.ofNat 32 (0), fn := Fin.ofNat 256 (6 * 32) } rfl).trans ?_
  generalize hb0 : Fin.ofNat 32 (0) = b0
  have hb0v : b0.val = (0) := by rw [← hb0, Fin.val_ofNat] <;> omega
  clear hb0
  generalize hf : Fin.ofNat 256 (6 * 32) = f
  have hfv : f.val = (6 * 32) := by rw [← hf, Fin.val_ofNat] <;> omega
  clear hf
  have g1 : b0.val % 4 = 0 := by omega
  have g2 : b0.val / 4 = 0 := by omega
  have g3 : f.val % 8 = 0 := by omega
  have g4 : f.val / 8 = 24 := by omega
  simp only [decode25, hb0v, g1, g2, g3, g4, fin_ofNat_val] <;> rfl

theorem stashUnmapExt (base : Reg) (x : MemExt) : Statement (.stashUnmapExt base x) := fun _ _ => by
  refine (decode25_eq { len := 2, major := 37, a := base, b := Fin.ofNat 32 (0), fn := Fin.ofNat 256 (6 * 32), ext := BitVec.ofNat 64 (x.toExt) } rfl).trans ?_
  generalize hb0 : Fin.ofNat 32 (0) = b0
  have hb0v : b0.val = (0) := by rw [← hb0, Fin.val_ofNat] <;> omega
  clear hb0
  generalize hf : Fin.ofNat 256 (6 * 32) = f
  have hfv : f.val = (6 * 32) := by rw [← hf, Fin.val_ofNat] <;> omega
  clear hf
  generalize hx : BitVec.ofNat 64 (x.toExt) = w
  obtain ⟨x40, xe⟩ := MemExt.fields (w := w) x (by rw [← hx])
  have g1 : b0.val % 4 = 0 := by omega
  have g2 : b0.val / 4 = 0 := by omega
  have g3 : f.val % 8 = 0 := by omega
  have g4 : f.val / 8 = 24 := by omega
  simp only [decode25, hb0v, x40, xe, g1, g2, g3, g4, fin_ofNat_val] <;> rfl

theorem spaceTest (d : Reg) (a : Reg) : Statement (.spaceTest d a) := fun _ _ => by
  refine (decode26_eq { len := 0, major := 38, d := d, a := a } rfl).trans ?_
  simp only [decode26] <;> rfl

theorem spaceCastGen (sp : SpaceSel) (d : Reg) (a : Reg) : Statement (.spaceCastGen sp d a) := fun _ _ => by
  refine (decode26_eq { len := 0, major := 38, d := d, a := a, fn := Fin.ofNat 256 (1 * 32 + sp.code * 8) } rfl).trans ?_
  have := sp.code_lt
  generalize hf : Fin.ofNat 256 (1 * 32 + sp.code * 8) = f
  have hfv : f.val = (1 * 32 + sp.code * 8) := by rw [← hf, Fin.val_ofNat] <;> omega
  clear hf
  have g1 : f.val % 8 = 0 := by omega
  have g2 : f.val / 32 = 1 := by omega
  have g3 : f.val / 8 = 4 + sp.code := by omega
  have g4 : SpaceSel.ofCode (4 + sp.code) = sp := SpaceSel.ofCode_of (by omega)
  have z : ¬ (4 + sp.code = 0) := by omega
  simp only [decode26, g1, g2, g3, g4, z, fin_ofNat_val] <;> rfl

theorem spaceCastOff (sp : SpaceSel) (d : Reg) (a : Reg) : Statement (.spaceCastOff sp d a) := fun _ _ => by
  refine (decode26_eq { len := 0, major := 38, d := d, a := a, fn := Fin.ofNat 256 (2 * 32 + sp.code * 8) } rfl).trans ?_
  have := sp.code_lt
  generalize hf : Fin.ofNat 256 (2 * 32 + sp.code * 8) = f
  have hfv : f.val = (2 * 32 + sp.code * 8) := by rw [← hf, Fin.val_ofNat] <;> omega
  clear hf
  have g1 : f.val % 8 = 0 := by omega
  have g2 : f.val / 32 = 2 := by omega
  have g3 : f.val / 8 = 8 + sp.code := by omega
  have g4 : SpaceSel.ofCode (8 + sp.code) = sp := SpaceSel.ofCode_of (by omega)
  have z : ¬ (8 + sp.code = 0) := by omega
  simp only [decode26, g1, g2, g3, g4, z, fin_ofNat_val] <;> rfl

theorem fence (o : FenceOrd) (sc : Scope) : Statement (.fence o sc) := fun _ _ => by
  refine (decode24_eq { len := 0, major := 36, fn := Fin.ofNat 256 (sc.code * 4 + o.code) } rfl).trans ?_
  have := o.code_lt
  have := sc.code_lt
  generalize hf : Fin.ofNat 256 (sc.code * 4 + o.code) = f
  have hfv : f.val = (sc.code * 4 + o.code) := by rw [← hf, Fin.val_ofNat] <;> omega
  clear hf
  have g1 : f.val % 4 = o.code := by omega
  have g2 : f.val / 32 = 0 := by omega
  have g3 : f.val / 4 = sc.code := by omega
  simp only [decode24, g1, g2, g3, FenceOrd.ofCode?_code, Scope.ofCode?_code] <;> rfl

theorem append (sz : Size) (d : Reg) (base : Reg) (rel : Bool) (sc : Scope) : Statement (.append sz d base rel sc) := fun _ _ => by
  refine (decode27_eq { len := 0, major := 39, d := d, a := base, b := Fin.ofNat 32 ((if rel then 2 else 0) + sc.code * 4), fn := Fin.ofNat 256 (sz.code * 8) } rfl).trans ?_
  have := sz.code_lt
  have := sc.code_lt
  generalize hb0 : Fin.ofNat 32 ((if rel then 2 else 0) + sc.code * 4) = b0
  have := bit_lt rel
  have hr : (if rel then 2 else 0) = 2 * bit rel := by cases rel <;> rfl
  have hb0v : b0.val = 2 * bit rel + sc.code * 4 := by rw [← hb0, Fin.val_ofNat, hr]; omega
  clear hb0
  generalize hf : Fin.ofNat 256 (sz.code * 8) = f
  have hfv : f.val = (sz.code * 8) := by rw [← hf, Fin.val_ofNat] <;> omega
  clear hf
  have g1 : b0.val % 2 = 0 := by omega
  have g2 : b0.val / 4 = sc.code := by omega
  have g3 : f.val % 8 = 0 := by omega
  have g4 : f.val / 32 = 0 := by omega
  have g5 : f.val / 8 = sz.code := by omega
  have g6 : decide (b0.val % 4 = 2) = rel := by rw [show b0.val % 4 = 2 * bit rel from by omega]; cases rel <;> rfl
  -- ARG decide (b0.val % 4 = 2)
  simp only [decode27, g1, g2, g3, g4, g5, g6, Option.bind_some, Size.ofCode_code, fin_ofNat_val, bit_beq_one, Scope.ofCode?_code] <;> rfl

theorem appendExt (sz : Size) (d : Reg) (base : Reg) (rel : Bool) (sc : Scope) (x : MemExt) : Statement (.appendExt sz d base rel sc x) := fun _ _ => by
  refine (decode27_eq { len := 2, major := 39, d := d, a := base, b := Fin.ofNat 32 ((if rel then 2 else 0) + sc.code * 4), fn := Fin.ofNat 256 (sz.code * 8), ext := BitVec.ofNat 64 (x.toExt) } rfl).trans ?_
  have := sz.code_lt
  have := sc.code_lt
  generalize hb0 : Fin.ofNat 32 ((if rel then 2 else 0) + sc.code * 4) = b0
  have := bit_lt rel
  have hr : (if rel then 2 else 0) = 2 * bit rel := by cases rel <;> rfl
  have hb0v : b0.val = 2 * bit rel + sc.code * 4 := by rw [← hb0, Fin.val_ofNat, hr]; omega
  clear hb0
  generalize hf : Fin.ofNat 256 (sz.code * 8) = f
  have hfv : f.val = (sz.code * 8) := by rw [← hf, Fin.val_ofNat] <;> omega
  clear hf
  generalize hx : BitVec.ofNat 64 (x.toExt) = w
  obtain ⟨x40, xe⟩ := MemExt.fields (w := w) x (by rw [← hx])
  have g1 : b0.val % 2 = 0 := by omega
  have g2 : b0.val / 4 = sc.code := by omega
  have g3 : f.val % 8 = 0 := by omega
  have g4 : f.val / 32 = 0 := by omega
  have g5 : f.val / 8 = sz.code := by omega
  have g6 : decide (b0.val % 4 = 2) = rel := by rw [show b0.val % 4 = 2 * bit rel from by omega]; cases rel <;> rfl
  -- ARG decide (b0.val % 4 = 2)
  simp only [decode27, x40, xe, g1, g2, g3, g4, g5, g6, Option.bind_some, Size.ofCode_code, fin_ofNat_val, bit_beq_one, Scope.ofCode?_code] <;> rfl

theorem appendV (d : Reg) (base : Reg) (rel : Bool) (sc : Scope) : Statement (.appendV d base rel sc) := fun _ _ => by
  refine (decode27_eq { len := 0, major := 39, d := d, a := base, b := Fin.ofNat 32 ((if rel then 2 else 0) + sc.code * 4), fn := 32 } rfl).trans ?_
  have := sc.code_lt
  generalize hb0 : Fin.ofNat 32 ((if rel then 2 else 0) + sc.code * 4) = b0
  have := bit_lt rel
  have hr : (if rel then 2 else 0) = 2 * bit rel := by cases rel <;> rfl
  have hb0v : b0.val = 2 * bit rel + sc.code * 4 := by rw [← hb0, Fin.val_ofNat, hr]; omega
  clear hb0
  have g1 : b0.val % 2 = 0 := by omega
  have g2 : b0.val / 4 = sc.code := by omega
  have g3 : decide (b0.val % 4 = 2) = rel := by rw [show b0.val % 4 = 2 * bit rel from by omega]; cases rel <;> rfl
  -- ARG decide (b0.val % 4 = 2)
  simp only [decode27, g1, g2, g3, Option.bind_some, fin_ofNat_val, bit_beq_one, Scope.ofCode?_code] <;> rfl

theorem appendVExt (d : Reg) (base : Reg) (rel : Bool) (sc : Scope) (x : MemExt) : Statement (.appendVExt d base rel sc x) := fun _ _ => by
  refine (decode27_eq { len := 2, major := 39, d := d, a := base, b := Fin.ofNat 32 ((if rel then 2 else 0) + sc.code * 4), fn := 32, ext := BitVec.ofNat 64 (x.toExt) } rfl).trans ?_
  have := sc.code_lt
  generalize hb0 : Fin.ofNat 32 ((if rel then 2 else 0) + sc.code * 4) = b0
  have := bit_lt rel
  have hr : (if rel then 2 else 0) = 2 * bit rel := by cases rel <;> rfl
  have hb0v : b0.val = 2 * bit rel + sc.code * 4 := by rw [← hb0, Fin.val_ofNat, hr]; omega
  clear hb0
  generalize hx : BitVec.ofNat 64 (x.toExt) = w
  obtain ⟨x40, xe⟩ := MemExt.fields (w := w) x (by rw [← hx])
  have g1 : b0.val % 2 = 0 := by omega
  have g2 : b0.val / 4 = sc.code := by omega
  have g3 : decide (b0.val % 4 = 2) = rel := by rw [show b0.val % 4 = 2 * bit rel from by omega]; cases rel <;> rfl
  -- ARG decide (b0.val % 4 = 2)
  simp only [decode27, x40, xe, g1, g2, g3, Option.bind_some, fin_ofNat_val, bit_beq_one, Scope.ofCode?_code] <;> rfl

theorem tailrd (d : Reg) (base : Reg) (sc : Scope) : Statement (.tailrd d base sc) := fun _ _ => by
  refine (decode28_eq { len := 0, major := 40, d := d, a := base, b := Fin.ofNat 32 (sc.code * 4), fn := Fin.ofNat 256 (0 * 32) } rfl).trans ?_
  have := sc.code_lt
  generalize hb0 : Fin.ofNat 32 (sc.code * 4) = b0
  have hb0v : b0.val = (sc.code * 4) := by rw [← hb0, Fin.val_ofNat] <;> omega
  clear hb0
  generalize hf : Fin.ofNat 256 (0 * 32) = f
  have hfv : f.val = (0 * 32) := by rw [← hf, Fin.val_ofNat] <;> omega
  clear hf
  have g1 : b0.val % 4 = 0 := by omega
  have g2 : b0.val / 4 = sc.code := by omega
  have g3 : f.val % 8 = 0 := by omega
  have g4 : f.val / 8 = 0 := by omega
  simp only [decode28, g1, g2, g3, g4, Option.bind_some, fin_ofNat_val, Scope.ofCode?_code] <;> rfl

theorem tailrdExt (d : Reg) (base : Reg) (sc : Scope) (x : MemExt) : Statement (.tailrdExt d base sc x) := fun _ _ => by
  refine (decode28_eq { len := 2, major := 40, d := d, a := base, b := Fin.ofNat 32 (sc.code * 4), fn := Fin.ofNat 256 (0 * 32), ext := BitVec.ofNat 64 (x.toExt) } rfl).trans ?_
  have := sc.code_lt
  generalize hb0 : Fin.ofNat 32 (sc.code * 4) = b0
  have hb0v : b0.val = (sc.code * 4) := by rw [← hb0, Fin.val_ofNat] <;> omega
  clear hb0
  generalize hf : Fin.ofNat 256 (0 * 32) = f
  have hfv : f.val = (0 * 32) := by rw [← hf, Fin.val_ofNat] <;> omega
  clear hf
  generalize hx : BitVec.ofNat 64 (x.toExt) = w
  obtain ⟨x40, xe⟩ := MemExt.fields (w := w) x (by rw [← hx])
  have g1 : b0.val % 4 = 0 := by omega
  have g2 : b0.val / 4 = sc.code := by omega
  have g3 : f.val % 8 = 0 := by omega
  have g4 : f.val / 8 = 0 := by omega
  simp only [decode28, x40, xe, g1, g2, g3, g4, Option.bind_some, fin_ofNat_val, Scope.ofCode?_code] <;> rfl

end Laws.Encoding

theorem Laws.Encoding.seal (d : Reg) (base : Reg) (sc : Scope) : Laws.Encoding.Statement (.seal d base sc) := fun _ _ => by
  refine (Laws.Encoding.decode28_eq { len := 0, major := 40, d := d, a := base, b := Fin.ofNat 32 (sc.code * 4), fn := Fin.ofNat 256 (1 * 32) } rfl).trans ?_
  have := sc.code_lt
  generalize hb0 : Fin.ofNat 32 (sc.code * 4) = b0
  have hb0v : b0.val = (sc.code * 4) := by rw [← hb0, Fin.val_ofNat] <;> omega
  clear hb0
  generalize hf : Fin.ofNat 256 (1 * 32) = f
  have hfv : f.val = (1 * 32) := by rw [← hf, Fin.val_ofNat] <;> omega
  clear hf
  have g1 : b0.val % 4 = 0 := by omega
  have g2 : b0.val / 4 = sc.code := by omega
  have g3 : f.val % 8 = 0 := by omega
  have g4 : f.val / 8 = 4 := by omega
  simp only [decode28, g1, g2, g3, g4, Option.bind_some, fin_ofNat_val, Scope.ofCode?_code] <;> rfl

namespace Laws.Encoding

theorem sealExt (d : Reg) (base : Reg) (sc : Scope) (x : MemExt) : Statement (.sealExt d base sc x) := fun _ _ => by
  refine (decode28_eq { len := 2, major := 40, d := d, a := base, b := Fin.ofNat 32 (sc.code * 4), fn := Fin.ofNat 256 (1 * 32), ext := BitVec.ofNat 64 (x.toExt) } rfl).trans ?_
  have := sc.code_lt
  generalize hb0 : Fin.ofNat 32 (sc.code * 4) = b0
  have hb0v : b0.val = (sc.code * 4) := by rw [← hb0, Fin.val_ofNat] <;> omega
  clear hb0
  generalize hf : Fin.ofNat 256 (1 * 32) = f
  have hfv : f.val = (1 * 32) := by rw [← hf, Fin.val_ofNat] <;> omega
  clear hf
  generalize hx : BitVec.ofNat 64 (x.toExt) = w
  obtain ⟨x40, xe⟩ := MemExt.fields (w := w) x (by rw [← hx])
  have g1 : b0.val % 4 = 0 := by omega
  have g2 : b0.val / 4 = sc.code := by omega
  have g3 : f.val % 8 = 0 := by omega
  have g4 : f.val / 8 = 4 := by omega
  simp only [decode28, x40, xe, g1, g2, g3, g4, Option.bind_some, fin_ofNat_val, Scope.ofCode?_code] <;> rfl

theorem freeSeal (base : Reg) : Statement (.freeSeal base) := fun _ _ => by
  refine (decode28_eq { len := 0, major := 40, a := base, b := Fin.ofNat 32 (0), fn := Fin.ofNat 256 (2 * 32) } rfl).trans ?_
  generalize hb0 : Fin.ofNat 32 (0) = b0
  have hb0v : b0.val = (0) := by rw [← hb0, Fin.val_ofNat] <;> omega
  clear hb0
  generalize hf : Fin.ofNat 256 (2 * 32) = f
  have hfv : f.val = (2 * 32) := by rw [← hf, Fin.val_ofNat] <;> omega
  clear hf
  have g1 : b0.val % 4 = 0 := by omega
  have g2 : b0.val / 4 = 0 := by omega
  have g3 : f.val % 8 = 0 := by omega
  have g4 : f.val / 8 = 8 := by omega
  simp only [decode28, hb0v, g1, g2, g3, g4, fin_ofNat_val] <;> rfl

theorem freeSealExt (base : Reg) (x : MemExt) : Statement (.freeSealExt base x) := fun _ _ => by
  refine (decode28_eq { len := 2, major := 40, a := base, b := Fin.ofNat 32 (0), fn := Fin.ofNat 256 (2 * 32), ext := BitVec.ofNat 64 (x.toExt) } rfl).trans ?_
  generalize hb0 : Fin.ofNat 32 (0) = b0
  have hb0v : b0.val = (0) := by rw [← hb0, Fin.val_ofNat] <;> omega
  clear hb0
  generalize hf : Fin.ofNat 256 (2 * 32) = f
  have hfv : f.val = (2 * 32) := by rw [← hf, Fin.val_ofNat] <;> omega
  clear hf
  generalize hx : BitVec.ofNat 64 (x.toExt) = w
  obtain ⟨x40, xe⟩ := MemExt.fields (w := w) x (by rw [← hx])
  have g1 : b0.val % 4 = 0 := by omega
  have g2 : b0.val / 4 = 0 := by omega
  have g3 : f.val % 8 = 0 := by omega
  have g4 : f.val / 8 = 8 := by omega
  simp only [decode28, hb0v, x40, xe, g1, g2, g3, g4, fin_ofNat_val] <;> rfl

theorem fork (d : Reg) (a : Reg) (b : Reg) (c : Reg) : Statement (.fork d a b c) := fun _ _ => by
  refine (decode30_eq { len := 0, major := 48, d := d, a := a, b := b, fn := Fin.ofNat 256 (0 * 32 + c.val) } rfl).trans ?_
  have := c.isLt
  generalize hf : Fin.ofNat 256 (0 * 32 + c.val) = f
  have hfv : f.val = (0 * 32 + c.val) := by rw [← hf, Fin.val_ofNat] <;> omega
  clear hf
  have g1 : f.val % 32 = c.val := by omega
  have g2 : f.val / 32 = 0 := by omega
  have g3 : Fin.ofNat 32 f.val = c := by apply Fin.ext; rw [Fin.val_ofNat]; omega
  simp only [decode30, g1, g2, g3, fin_ofNat_val] <;> rfl

theorem forkInc (d : Reg) (a : Reg) (b : Reg) (c : Reg) : Statement (.forkInc d a b c) := fun _ _ => by
  refine (decode30_eq { len := 0, major := 48, d := d, a := a, b := b, fn := Fin.ofNat 256 (1 * 32 + c.val) } rfl).trans ?_
  have := c.isLt
  generalize hf : Fin.ofNat 256 (1 * 32 + c.val) = f
  have hfv : f.val = (1 * 32 + c.val) := by rw [← hf, Fin.val_ofNat] <;> omega
  clear hf
  have g1 : f.val % 32 = c.val := by omega
  have g2 : f.val / 32 = 1 := by omega
  have g3 : Fin.ofNat 32 f.val = c := by apply Fin.ext; rw [Fin.val_ofNat]; omega
  simp only [decode30, g1, g2, g3, fin_ofNat_val] <;> rfl

theorem forkm (a : Reg) : Statement (.forkm a) := fun _ _ => by
  refine (decode30_eq { len := 0, major := 48, a := a, fn := Fin.ofNat 256 (2 * 32) } rfl).trans ?_
  generalize hf : Fin.ofNat 256 (2 * 32) = f
  have hfv : f.val = (2 * 32) := by rw [← hf, Fin.val_ofNat] <;> omega
  clear hf
  have g1 : f.val % 32 = 0 := by omega
  have g2 : f.val / 32 = 2 := by omega
  simp only [decode30, g1, g2, fin_ofNat_val] <;> rfl

theorem forkmInc (a : Reg) : Statement (.forkmInc a) := fun _ _ => by
  refine (decode30_eq { len := 0, major := 48, a := a, fn := Fin.ofNat 256 (3 * 32) } rfl).trans ?_
  generalize hf : Fin.ofNat 256 (3 * 32) = f
  have hfv : f.val = (3 * 32) := by rw [← hf, Fin.val_ofNat] <;> omega
  clear hf
  have g1 : f.val % 32 = 0 := by omega
  have g2 : f.val / 32 = 3 := by omega
  simp only [decode30, g1, g2, fin_ofNat_val] <;> rfl

theorem rfork (a : Reg) : Statement (.rfork a) := fun _ _ => (decode31_eq _ rfl).trans rfl

theorem done : Statement (.done) := fun _ _ => (decode32_eq _ rfl).trans rfl

theorem join (sc : Scope) (a : Reg) : Statement (.join sc a) := fun _ _ => by
  refine (decode32_eq { len := 0, major := 50, a := a, fn := Fin.ofNat 256 (8 + sc.code) } rfl).trans ?_
  have := sc.code_lt
  generalize hf : Fin.ofNat 256 (8 + sc.code) = f
  have hfv : f.val = (8 + sc.code) := by rw [← hf, Fin.val_ofNat] <;> omega
  clear hf
  have g1 : f.val % 8 = sc.code := by omega
  have g2 : f.val / 8 = 1 := by omega
  have z : ¬ (f.val = 0) := by omega
  simp only [decode32, g1, g2, Option.bind_some, z, Scope.ofCode?_code, fin_ofNat_val] <;> rfl

theorem yield (a : Reg) : Statement (.yield a) := fun _ _ => (decode33_eq _ rfl).trans rfl

theorem pause (a : Reg) : Statement (.pause a) := fun _ _ => (decode33_eq _ rfl).trans rfl

theorem barSet (n : Fin 8) (a : Reg) : Statement (.barSet n a) := fun _ _ => by
  refine (decode34_eq { len := 0, major := 52, a := a, fn := Fin.ofNat 256 (n.val) } rfl).trans ?_
  have := n.isLt
  generalize hf : Fin.ofNat 256 (n.val) = f
  have hfv : f.val = (n.val) := by rw [← hf, Fin.val_ofNat] <;> omega
  clear hf
  have g1 : f.val / 8 = 0 := by omega
  have g2 : Fin.ofNat 8 f.val = n := by apply Fin.ext; rw [Fin.val_ofNat]; omega
  simp only [decode34, g1, g2, fin_ofNat_val] <;> rfl

theorem barArrive (n : Fin 8) : Statement (.barArrive n) := fun _ _ => by
  refine (decode34_eq { len := 0, major := 52, fn := Fin.ofNat 256 (1 * 8 + n.val) } rfl).trans ?_
  have := n.isLt
  generalize hf : Fin.ofNat 256 (1 * 8 + n.val) = f
  have hfv : f.val = (1 * 8 + n.val) := by rw [← hf, Fin.val_ofNat] <;> omega
  clear hf
  have g1 : f.val / 8 = 1 := by omega
  have g2 : Fin.ofNat 8 f.val = n := by apply Fin.ext; rw [Fin.val_ofNat]; omega
  simp only [decode34, g1, g2, fin_ofNat_val] <;> rfl

theorem barWait (n : Fin 8) : Statement (.barWait n) := fun _ _ => by
  refine (decode34_eq { len := 0, major := 52, fn := Fin.ofNat 256 (2 * 8 + n.val) } rfl).trans ?_
  have := n.isLt
  generalize hf : Fin.ofNat 256 (2 * 8 + n.val) = f
  have hfv : f.val = (2 * 8 + n.val) := by rw [← hf, Fin.val_ofNat] <;> omega
  clear hf
  have g1 : f.val / 8 = 2 := by omega
  have g2 : Fin.ofNat 8 f.val = n := by apply Fin.ext; rw [Fin.val_ofNat]; omega
  simp only [decode34, g1, g2, fin_ofNat_val] <;> rfl

theorem barSync (n : Fin 8) : Statement (.barSync n) := fun _ _ => by
  refine (decode34_eq { len := 0, major := 52, fn := Fin.ofNat 256 (3 * 8 + n.val) } rfl).trans ?_
  have := n.isLt
  generalize hf : Fin.ofNat 256 (3 * 8 + n.val) = f
  have hfv : f.val = (3 * 8 + n.val) := by rw [← hf, Fin.val_ofNat] <;> omega
  clear hf
  have g1 : f.val / 8 = 3 := by omega
  have g2 : Fin.ofNat 8 f.val = n := by apply Fin.ext; rw [Fin.val_ofNat]; omega
  simp only [decode34, g1, g2, fin_ofNat_val] <;> rfl

theorem barGet (d : Reg) (n : Fin 8) : Statement (.barGet d n) := fun _ _ => by
  refine (decode34_eq { len := 0, major := 52, d := d, fn := Fin.ofNat 256 (4 * 8 + n.val) } rfl).trans ?_
  have := n.isLt
  generalize hf : Fin.ofNat 256 (4 * 8 + n.val) = f
  have hfv : f.val = (4 * 8 + n.val) := by rw [← hf, Fin.val_ofNat] <;> omega
  clear hf
  have g1 : f.val / 8 = 4 := by omega
  have g2 : Fin.ofNat 8 f.val = n := by apply Fin.ext; rw [Fin.val_ofNat]; omega
  simp only [decode34, g1, g2, fin_ofNat_val] <;> rfl

theorem mbxWait (d : Reg) (a : Reg) : Statement (.mbxWait d a) := fun _ _ => (decode35_eq _ rfl).trans rfl

theorem mbxPoll (d : Reg) (a : Reg) : Statement (.mbxPoll d a) := fun _ _ => (decode35_eq _ rfl).trans rfl

theorem selfId (d : Reg) : Statement (.selfId d) := fun _ _ => (decode36_eq _ rfl).trans rfl

theorem selfXy (d : Reg) : Statement (.selfXy d) := fun _ _ => (decode36_eq _ rfl).trans rfl

theorem selfDom (d : Reg) : Statement (.selfDom d) := fun _ _ => (decode36_eq _ rfl).trans rfl

theorem selfIdle (d : Reg) (a : Reg) : Statement (.selfIdle d a) := fun _ _ => (decode36_eq _ rfl).trans rfl

theorem vadd (ty : ElType) (m : Reg) (d : Reg) (a : Reg) (b : Reg) : Statement (.vadd ty m d a b) := fun _ _ => by
  refine (decode40_eq { len := 0, major := 64, d := d, a := a, b := b, fn := Fin.ofNat 256 (ty.code * 32 + m.val) } rfl).trans ?_
  have := ty.code_lt
  have := m.isLt
  simp only [decode40, vfn_hi, vfn_lo, ElType.ofCode_code, fin_ofNat_val] <;> rfl

theorem vaddX (ty : ElType) (m : Reg) (d : Reg) (a : Reg) (b : Reg) (bs : Bool) (un : Bool) (sat : Bool) : Statement (.vaddX ty m d a b bs un sat) := fun _ _ => by
  refine (decode40_eq { len := 2, major := 64, d := d, a := a, b := b, fn := Fin.ofNat 256 (ty.code * 32 + m.val), ext := BitVec.ofNat 64 (bit bs * 2 ^ 8 + bit un * 2 ^ 9 + bit sat * 2 ^ 10) } rfl).trans ?_
  have := ty.code_lt
  have := m.isLt
  have := bit_lt bs
  have := bit_lt un
  have := bit_lt sat
  generalize hx : BitVec.ofNat 64 (bit bs * 2 ^ 8 + bit un * 2 ^ 9 + bit sat * 2 ^ 10) = w
  obtain ⟨x0, x8, x9, x10, x11, x16, x24, x29⟩ := vext_fields (w := w) (o := 0) (b8 := bit bs) (b9 := bit un) (b10 := bit sat) (v11 := 0) (v16 := 0) (v24 := 0) (hx.symm.trans (congrArg _ (by omega))) (by omega) (by omega) (by omega) (by omega) (by omega) (by omega) (by omega)
  simp only [decode40, vfn_hi, vfn_lo, x0, x8, x9, x10, x11, x16, x24, x29, ElType.ofCode_code, fin_ofNat_val, bit_beq_one] <;> rfl

theorem vsub (ty : ElType) (m : Reg) (d : Reg) (a : Reg) (b : Reg) : Statement (.vsub ty m d a b) := fun _ _ => by
  refine (decode41_eq { len := 0, major := 65, d := d, a := a, b := b, fn := Fin.ofNat 256 (ty.code * 32 + m.val) } rfl).trans ?_
  have := ty.code_lt
  have := m.isLt
  simp only [decode41, vfn_hi, vfn_lo, ElType.ofCode_code, fin_ofNat_val] <;> rfl

theorem vsubX (ty : ElType) (m : Reg) (d : Reg) (a : Reg) (b : Reg) (bs : Bool) (un : Bool) (sat : Bool) : Statement (.vsubX ty m d a b bs un sat) := fun _ _ => by
  refine (decode41_eq { len := 2, major := 65, d := d, a := a, b := b, fn := Fin.ofNat 256 (ty.code * 32 + m.val), ext := BitVec.ofNat 64 (bit bs * 2 ^ 8 + bit un * 2 ^ 9 + bit sat * 2 ^ 10) } rfl).trans ?_
  have := ty.code_lt
  have := m.isLt
  have := bit_lt bs
  have := bit_lt un
  have := bit_lt sat
  generalize hx : BitVec.ofNat 64 (bit bs * 2 ^ 8 + bit un * 2 ^ 9 + bit sat * 2 ^ 10) = w
  obtain ⟨x0, x8, x9, x10, x11, x16, x24, x29⟩ := vext_fields (w := w) (o := 0) (b8 := bit bs) (b9 := bit un) (b10 := bit sat) (v11 := 0) (v16 := 0) (v24 := 0) (hx.symm.trans (congrArg _ (by omega))) (by omega) (by omega) (by omega) (by omega) (by omega) (by omega) (by omega)
  simp only [decode41, vfn_hi, vfn_lo, x0, x8, x9, x10, x11, x16, x24, x29, ElType.ofCode_code, fin_ofNat_val, bit_beq_one] <;> rfl

theorem vmul (ty : ElType) (m : Reg) (d : Reg) (a : Reg) (b : Reg) : Statement (.vmul ty m d a b) := fun _ _ => by
  refine (decode42_eq { len := 0, major := 66, d := d, a := a, b := b, fn := Fin.ofNat 256 (ty.code * 32 + m.val) } rfl).trans ?_
  have := ty.code_lt
  have := m.isLt
  simp only [decode42, vfn_hi, vfn_lo, ElType.ofCode_code, fin_ofNat_val] <;> rfl

theorem vmulX (ty : ElType) (m : Reg) (d : Reg) (a : Reg) (b : Reg) (bs : Bool) : Statement (.vmulX ty m d a b bs) := fun _ _ => by
  refine (decode42_eq { len := 2, major := 66, d := d, a := a, b := b, fn := Fin.ofNat 256 (ty.code * 32 + m.val), ext := BitVec.ofNat 64 (bit bs * 2 ^ 8) } rfl).trans ?_
  have := ty.code_lt
  have := m.isLt
  have := bit_lt bs
  generalize hx : BitVec.ofNat 64 (bit bs * 2 ^ 8) = w
  obtain ⟨x0, x8, x9, x10, x11, x16, x24, x29⟩ := vext_fields (w := w) (o := 0) (b8 := bit bs) (b9 := 0) (b10 := 0) (v11 := 0) (v16 := 0) (v24 := 0) (hx.symm.trans (congrArg _ (by omega))) (by omega) (by omega) (by omega) (by omega) (by omega) (by omega) (by omega)
  simp only [decode42, vfn_hi, vfn_lo, x0, x8, x9, x10, x11, x16, x24, x29, ElType.ofCode_code, fin_ofNat_val, bit_beq_one] <;> rfl

theorem vmulh (ty : ElType) (m : Reg) (d : Reg) (a : Reg) (b : Reg) : Statement (.vmulh ty m d a b) := fun _ _ => by
  refine (decode43_eq { len := 0, major := 67, d := d, a := a, b := b, fn := Fin.ofNat 256 (ty.code * 32 + m.val) } rfl).trans ?_
  have := ty.code_lt
  have := m.isLt
  simp only [decode43, vfn_hi, vfn_lo, ElType.ofCode_code, fin_ofNat_val] <;> rfl

theorem vmulhX (ty : ElType) (m : Reg) (d : Reg) (a : Reg) (b : Reg) (bs : Bool) (un : Bool) : Statement (.vmulhX ty m d a b bs un) := fun _ _ => by
  refine (decode43_eq { len := 2, major := 67, d := d, a := a, b := b, fn := Fin.ofNat 256 (ty.code * 32 + m.val), ext := BitVec.ofNat 64 (bit bs * 2 ^ 8 + bit un * 2 ^ 9) } rfl).trans ?_
  have := ty.code_lt
  have := m.isLt
  have := bit_lt bs
  have := bit_lt un
  generalize hx : BitVec.ofNat 64 (bit bs * 2 ^ 8 + bit un * 2 ^ 9) = w
  obtain ⟨x0, x8, x9, x10, x11, x16, x24, x29⟩ := vext_fields (w := w) (o := 0) (b8 := bit bs) (b9 := bit un) (b10 := 0) (v11 := 0) (v16 := 0) (v24 := 0) (hx.symm.trans (congrArg _ (by omega))) (by omega) (by omega) (by omega) (by omega) (by omega) (by omega) (by omega)
  simp only [decode43, vfn_hi, vfn_lo, x0, x8, x9, x10, x11, x16, x24, x29, ElType.ofCode_code, fin_ofNat_val, bit_beq_one] <;> rfl

theorem vmin (ty : ElType) (m : Reg) (d : Reg) (a : Reg) (b : Reg) : Statement (.vmin ty m d a b) := fun _ _ => by
  refine (decode44_eq { len := 0, major := 68, d := d, a := a, b := b, fn := Fin.ofNat 256 (ty.code * 32 + m.val) } rfl).trans ?_
  have := ty.code_lt
  have := m.isLt
  simp only [decode44, vfn_hi, vfn_lo, ElType.ofCode_code, fin_ofNat_val] <;> rfl

theorem vminX (ty : ElType) (m : Reg) (d : Reg) (a : Reg) (b : Reg) (bs : Bool) (un : Bool) : Statement (.vminX ty m d a b bs un) := fun _ _ => by
  refine (decode44_eq { len := 2, major := 68, d := d, a := a, b := b, fn := Fin.ofNat 256 (ty.code * 32 + m.val), ext := BitVec.ofNat 64 (bit bs * 2 ^ 8 + bit un * 2 ^ 9) } rfl).trans ?_
  have := ty.code_lt
  have := m.isLt
  have := bit_lt bs
  have := bit_lt un
  generalize hx : BitVec.ofNat 64 (bit bs * 2 ^ 8 + bit un * 2 ^ 9) = w
  obtain ⟨x0, x8, x9, x10, x11, x16, x24, x29⟩ := vext_fields (w := w) (o := 0) (b8 := bit bs) (b9 := bit un) (b10 := 0) (v11 := 0) (v16 := 0) (v24 := 0) (hx.symm.trans (congrArg _ (by omega))) (by omega) (by omega) (by omega) (by omega) (by omega) (by omega) (by omega)
  simp only [decode44, vfn_hi, vfn_lo, x0, x8, x9, x10, x11, x16, x24, x29, ElType.ofCode_code, fin_ofNat_val, bit_beq_one] <;> rfl

theorem vmax (ty : ElType) (m : Reg) (d : Reg) (a : Reg) (b : Reg) : Statement (.vmax ty m d a b) := fun _ _ => by
  refine (decode45_eq { len := 0, major := 69, d := d, a := a, b := b, fn := Fin.ofNat 256 (ty.code * 32 + m.val) } rfl).trans ?_
  have := ty.code_lt
  have := m.isLt
  simp only [decode45, vfn_hi, vfn_lo, ElType.ofCode_code, fin_ofNat_val] <;> rfl

theorem vmaxX (ty : ElType) (m : Reg) (d : Reg) (a : Reg) (b : Reg) (bs : Bool) (un : Bool) : Statement (.vmaxX ty m d a b bs un) := fun _ _ => by
  refine (decode45_eq { len := 2, major := 69, d := d, a := a, b := b, fn := Fin.ofNat 256 (ty.code * 32 + m.val), ext := BitVec.ofNat 64 (bit bs * 2 ^ 8 + bit un * 2 ^ 9) } rfl).trans ?_
  have := ty.code_lt
  have := m.isLt
  have := bit_lt bs
  have := bit_lt un
  generalize hx : BitVec.ofNat 64 (bit bs * 2 ^ 8 + bit un * 2 ^ 9) = w
  obtain ⟨x0, x8, x9, x10, x11, x16, x24, x29⟩ := vext_fields (w := w) (o := 0) (b8 := bit bs) (b9 := bit un) (b10 := 0) (v11 := 0) (v16 := 0) (v24 := 0) (hx.symm.trans (congrArg _ (by omega))) (by omega) (by omega) (by omega) (by omega) (by omega) (by omega) (by omega)
  simp only [decode45, vfn_hi, vfn_lo, x0, x8, x9, x10, x11, x16, x24, x29, ElType.ofCode_code, fin_ofNat_val, bit_beq_one] <;> rfl

theorem vand (ty : ElType) (m : Reg) (d : Reg) (a : Reg) (b : Reg) : Statement (.vand ty m d a b) := fun _ _ => by
  refine (decode46_eq { len := 0, major := 70, d := d, a := a, b := b, fn := Fin.ofNat 256 (ty.code * 32 + m.val) } rfl).trans ?_
  have := ty.code_lt
  have := m.isLt
  simp only [decode46, vfn_hi, vfn_lo, ElType.ofCode_code, fin_ofNat_val] <;> rfl

theorem vandX (ty : ElType) (m : Reg) (d : Reg) (a : Reg) (b : Reg) (bs : Bool) : Statement (.vandX ty m d a b bs) := fun _ _ => by
  refine (decode46_eq { len := 2, major := 70, d := d, a := a, b := b, fn := Fin.ofNat 256 (ty.code * 32 + m.val), ext := BitVec.ofNat 64 (bit bs * 2 ^ 8) } rfl).trans ?_
  have := ty.code_lt
  have := m.isLt
  have := bit_lt bs
  generalize hx : BitVec.ofNat 64 (bit bs * 2 ^ 8) = w
  obtain ⟨x0, x8, x9, x10, x11, x16, x24, x29⟩ := vext_fields (w := w) (o := 0) (b8 := bit bs) (b9 := 0) (b10 := 0) (v11 := 0) (v16 := 0) (v24 := 0) (hx.symm.trans (congrArg _ (by omega))) (by omega) (by omega) (by omega) (by omega) (by omega) (by omega) (by omega)
  simp only [decode46, vfn_hi, vfn_lo, x0, x8, x9, x10, x11, x16, x24, x29, ElType.ofCode_code, fin_ofNat_val, bit_beq_one] <;> rfl

theorem vor (ty : ElType) (m : Reg) (d : Reg) (a : Reg) (b : Reg) (bs : Bool) : Statement (.vor ty m d a b bs) := fun _ _ => by
  refine (decode46_eq { len := 2, major := 70, d := d, a := a, b := b, fn := Fin.ofNat 256 (ty.code * 32 + m.val), ext := BitVec.ofNat 64 (1 + bit bs * 2 ^ 8) } rfl).trans ?_
  have := ty.code_lt
  have := m.isLt
  have := bit_lt bs
  generalize hx : BitVec.ofNat 64 (1 + bit bs * 2 ^ 8) = w
  obtain ⟨x0, x8, x9, x10, x11, x16, x24, x29⟩ := vext_fields (w := w) (o := 1) (b8 := bit bs) (b9 := 0) (b10 := 0) (v11 := 0) (v16 := 0) (v24 := 0) (hx.symm.trans (congrArg _ (by omega))) (by omega) (by omega) (by omega) (by omega) (by omega) (by omega) (by omega)
  simp only [decode46, vfn_hi, vfn_lo, x0, x8, x9, x10, x11, x16, x24, x29, ElType.ofCode_code, fin_ofNat_val, bit_beq_one] <;> rfl

theorem vxor (ty : ElType) (m : Reg) (d : Reg) (a : Reg) (b : Reg) (bs : Bool) : Statement (.vxor ty m d a b bs) := fun _ _ => by
  refine (decode46_eq { len := 2, major := 70, d := d, a := a, b := b, fn := Fin.ofNat 256 (ty.code * 32 + m.val), ext := BitVec.ofNat 64 (2 + bit bs * 2 ^ 8) } rfl).trans ?_
  have := ty.code_lt
  have := m.isLt
  have := bit_lt bs
  generalize hx : BitVec.ofNat 64 (2 + bit bs * 2 ^ 8) = w
  obtain ⟨x0, x8, x9, x10, x11, x16, x24, x29⟩ := vext_fields (w := w) (o := 2) (b8 := bit bs) (b9 := 0) (b10 := 0) (v11 := 0) (v16 := 0) (v24 := 0) (hx.symm.trans (congrArg _ (by omega))) (by omega) (by omega) (by omega) (by omega) (by omega) (by omega) (by omega)
  simp only [decode46, vfn_hi, vfn_lo, x0, x8, x9, x10, x11, x16, x24, x29, ElType.ofCode_code, fin_ofNat_val, bit_beq_one] <;> rfl

theorem vandn (ty : ElType) (m : Reg) (d : Reg) (a : Reg) (b : Reg) (bs : Bool) : Statement (.vandn ty m d a b bs) := fun _ _ => by
  refine (decode46_eq { len := 2, major := 70, d := d, a := a, b := b, fn := Fin.ofNat 256 (ty.code * 32 + m.val), ext := BitVec.ofNat 64 (3 + bit bs * 2 ^ 8) } rfl).trans ?_
  have := ty.code_lt
  have := m.isLt
  have := bit_lt bs
  generalize hx : BitVec.ofNat 64 (3 + bit bs * 2 ^ 8) = w
  obtain ⟨x0, x8, x9, x10, x11, x16, x24, x29⟩ := vext_fields (w := w) (o := 3) (b8 := bit bs) (b9 := 0) (b10 := 0) (v11 := 0) (v16 := 0) (v24 := 0) (hx.symm.trans (congrArg _ (by omega))) (by omega) (by omega) (by omega) (by omega) (by omega) (by omega) (by omega)
  simp only [decode46, vfn_hi, vfn_lo, x0, x8, x9, x10, x11, x16, x24, x29, ElType.ofCode_code, fin_ofNat_val, bit_beq_one] <;> rfl

theorem vsll (ty : ElType) (m : Reg) (d : Reg) (a : Reg) (b : Reg) : Statement (.vsll ty m d a b) := fun _ _ => by
  refine (decode47_eq { len := 0, major := 71, d := d, a := a, b := b, fn := Fin.ofNat 256 (ty.code * 32 + m.val) } rfl).trans ?_
  have := ty.code_lt
  have := m.isLt
  simp only [decode47, vfn_hi, vfn_lo, ElType.ofCode_code, fin_ofNat_val] <;> rfl

theorem vsllX (ty : ElType) (m : Reg) (d : Reg) (a : Reg) (b : Reg) (bs : Bool) : Statement (.vsllX ty m d a b bs) := fun _ _ => by
  refine (decode47_eq { len := 2, major := 71, d := d, a := a, b := b, fn := Fin.ofNat 256 (ty.code * 32 + m.val), ext := BitVec.ofNat 64 (bit bs * 2 ^ 8) } rfl).trans ?_
  have := ty.code_lt
  have := m.isLt
  have := bit_lt bs
  generalize hx : BitVec.ofNat 64 (bit bs * 2 ^ 8) = w
  obtain ⟨x0, x8, x9, x10, x11, x16, x24, x29⟩ := vext_fields (w := w) (o := 0) (b8 := bit bs) (b9 := 0) (b10 := 0) (v11 := 0) (v16 := 0) (v24 := 0) (hx.symm.trans (congrArg _ (by omega))) (by omega) (by omega) (by omega) (by omega) (by omega) (by omega) (by omega)
  simp only [decode47, vfn_hi, vfn_lo, x0, x8, x9, x10, x11, x16, x24, x29, ElType.ofCode_code, fin_ofNat_val, bit_beq_one] <;> rfl

theorem vsrl (ty : ElType) (m : Reg) (d : Reg) (a : Reg) (b : Reg) (bs : Bool) : Statement (.vsrl ty m d a b bs) := fun _ _ => by
  refine (decode47_eq { len := 2, major := 71, d := d, a := a, b := b, fn := Fin.ofNat 256 (ty.code * 32 + m.val), ext := BitVec.ofNat 64 (1 + bit bs * 2 ^ 8) } rfl).trans ?_
  have := ty.code_lt
  have := m.isLt
  have := bit_lt bs
  generalize hx : BitVec.ofNat 64 (1 + bit bs * 2 ^ 8) = w
  obtain ⟨x0, x8, x9, x10, x11, x16, x24, x29⟩ := vext_fields (w := w) (o := 1) (b8 := bit bs) (b9 := 0) (b10 := 0) (v11 := 0) (v16 := 0) (v24 := 0) (hx.symm.trans (congrArg _ (by omega))) (by omega) (by omega) (by omega) (by omega) (by omega) (by omega) (by omega)
  simp only [decode47, vfn_hi, vfn_lo, x0, x8, x9, x10, x11, x16, x24, x29, ElType.ofCode_code, fin_ofNat_val, bit_beq_one] <;> rfl

theorem vsra (ty : ElType) (m : Reg) (d : Reg) (a : Reg) (b : Reg) (bs : Bool) : Statement (.vsra ty m d a b bs) := fun _ _ => by
  refine (decode47_eq { len := 2, major := 71, d := d, a := a, b := b, fn := Fin.ofNat 256 (ty.code * 32 + m.val), ext := BitVec.ofNat 64 (2 + bit bs * 2 ^ 8) } rfl).trans ?_
  have := ty.code_lt
  have := m.isLt
  have := bit_lt bs
  generalize hx : BitVec.ofNat 64 (2 + bit bs * 2 ^ 8) = w
  obtain ⟨x0, x8, x9, x10, x11, x16, x24, x29⟩ := vext_fields (w := w) (o := 2) (b8 := bit bs) (b9 := 0) (b10 := 0) (v11 := 0) (v16 := 0) (v24 := 0) (hx.symm.trans (congrArg _ (by omega))) (by omega) (by omega) (by omega) (by omega) (by omega) (by omega) (by omega)
  simp only [decode47, vfn_hi, vfn_lo, x0, x8, x9, x10, x11, x16, x24, x29, ElType.ofCode_code, fin_ofNat_val, bit_beq_one] <;> rfl

theorem vslli (ty : ElType) (m : Reg) (d : Reg) (a : Reg) (n : BitVec 8) : Statement (.vslli ty m d a n) := fun _ _ => by
  refine (decode47_eq { len := 2, major := 71, d := d, a := a, fn := Fin.ofNat 256 (ty.code * 32 + m.val), ext := BitVec.ofNat 64 (4 + n.toNat * 2 ^ 16) } rfl).trans ?_
  have := ty.code_lt
  have := m.isLt
  have := n.isLt
  generalize hx : BitVec.ofNat 64 (4 + n.toNat * 2 ^ 16) = w
  obtain ⟨x0, x8, x9, x10, x11, x16, x24, x29⟩ := vext_fields (w := w) (o := 4) (b8 := 0) (b9 := 0) (b10 := 0) (v11 := 0) (v16 := n.toNat) (v24 := 0) (hx.symm.trans (congrArg _ (by omega))) (by omega) (by omega) (by omega) (by omega) (by omega) (by omega) (by omega)
  have g1 : BitVec.ofNat 8 (fld w.toNat 16 8) = n := by apply BitVec.eq_of_toNat_eq; rw [BitVec.toNat_ofNat]; omega
  simp only [decode47, vfn_hi, vfn_lo, x0, x8, x9, x10, x11, x16, x24, x29, g1, ElType.ofCode_code, fin_ofNat_val, bv_ofNat_toNat] <;> rfl

theorem vsrli (ty : ElType) (m : Reg) (d : Reg) (a : Reg) (n : BitVec 8) : Statement (.vsrli ty m d a n) := fun _ _ => by
  refine (decode47_eq { len := 2, major := 71, d := d, a := a, fn := Fin.ofNat 256 (ty.code * 32 + m.val), ext := BitVec.ofNat 64 (5 + n.toNat * 2 ^ 16) } rfl).trans ?_
  have := ty.code_lt
  have := m.isLt
  have := n.isLt
  generalize hx : BitVec.ofNat 64 (5 + n.toNat * 2 ^ 16) = w
  obtain ⟨x0, x8, x9, x10, x11, x16, x24, x29⟩ := vext_fields (w := w) (o := 5) (b8 := 0) (b9 := 0) (b10 := 0) (v11 := 0) (v16 := n.toNat) (v24 := 0) (hx.symm.trans (congrArg _ (by omega))) (by omega) (by omega) (by omega) (by omega) (by omega) (by omega) (by omega)
  have g1 : BitVec.ofNat 8 (fld w.toNat 16 8) = n := by apply BitVec.eq_of_toNat_eq; rw [BitVec.toNat_ofNat]; omega
  simp only [decode47, vfn_hi, vfn_lo, x0, x8, x9, x10, x11, x16, x24, x29, g1, ElType.ofCode_code, fin_ofNat_val, bv_ofNat_toNat] <;> rfl

theorem vsrai (ty : ElType) (m : Reg) (d : Reg) (a : Reg) (n : BitVec 8) : Statement (.vsrai ty m d a n) := fun _ _ => by
  refine (decode47_eq { len := 2, major := 71, d := d, a := a, fn := Fin.ofNat 256 (ty.code * 32 + m.val), ext := BitVec.ofNat 64 (6 + n.toNat * 2 ^ 16) } rfl).trans ?_
  have := ty.code_lt
  have := m.isLt
  have := n.isLt
  generalize hx : BitVec.ofNat 64 (6 + n.toNat * 2 ^ 16) = w
  obtain ⟨x0, x8, x9, x10, x11, x16, x24, x29⟩ := vext_fields (w := w) (o := 6) (b8 := 0) (b9 := 0) (b10 := 0) (v11 := 0) (v16 := n.toNat) (v24 := 0) (hx.symm.trans (congrArg _ (by omega))) (by omega) (by omega) (by omega) (by omega) (by omega) (by omega) (by omega)
  have g1 : BitVec.ofNat 8 (fld w.toNat 16 8) = n := by apply BitVec.eq_of_toNat_eq; rw [BitVec.toNat_ofNat]; omega
  simp only [decode47, vfn_hi, vfn_lo, x0, x8, x9, x10, x11, x16, x24, x29, g1, ElType.ofCode_code, fin_ofNat_val, bv_ofNat_toNat] <;> rfl

theorem vfma (ty : ElType) (m : Reg) (d : Reg) (a : Reg) (b : Reg) : Statement (.vfma ty m d a b) := fun _ _ => by
  refine (decode48_eq { len := 0, major := 72, d := d, a := a, b := b, fn := Fin.ofNat 256 (ty.code * 32 + m.val) } rfl).trans ?_
  have := ty.code_lt
  have := m.isLt
  simp only [decode48, vfn_hi, vfn_lo, ElType.ofCode_code, fin_ofNat_val] <;> rfl

theorem vfmaX (ty : ElType) (m : Reg) (d : Reg) (a : Reg) (b : Reg) (bs : Bool) (vc : Reg) : Statement (.vfmaX ty m d a b bs vc) := fun _ _ => by
  refine (decode48_eq { len := 2, major := 72, d := d, a := a, b := b, fn := Fin.ofNat 256 (ty.code * 32 + m.val), ext := BitVec.ofNat 64 (bit bs * 2 ^ 8 + vc.val * 2 ^ 11) } rfl).trans ?_
  have := ty.code_lt
  have := m.isLt
  have := bit_lt bs
  have := vc.isLt
  generalize hx : BitVec.ofNat 64 (bit bs * 2 ^ 8 + vc.val * 2 ^ 11) = w
  obtain ⟨x0, x8, x9, x10, x11, x16, x24, x29⟩ := vext_fields (w := w) (o := 0) (b8 := bit bs) (b9 := 0) (b10 := 0) (v11 := vc.val) (v16 := 0) (v24 := 0) (hx.symm.trans (congrArg _ (by omega))) (by omega) (by omega) (by omega) (by omega) (by omega) (by omega) (by omega)
  simp only [decode48, vfn_hi, vfn_lo, x0, x8, x9, x10, x11, x16, x24, x29, ElType.ofCode_code, fin_ofNat_val, bit_beq_one] <;> rfl

theorem vfnma (ty : ElType) (m : Reg) (d : Reg) (a : Reg) (b : Reg) (bs : Bool) (vc : Reg) : Statement (.vfnma ty m d a b bs vc) := fun _ _ => by
  refine (decode48_eq { len := 2, major := 72, d := d, a := a, b := b, fn := Fin.ofNat 256 (ty.code * 32 + m.val), ext := BitVec.ofNat 64 (1 + bit bs * 2 ^ 8 + vc.val * 2 ^ 11) } rfl).trans ?_
  have := ty.code_lt
  have := m.isLt
  have := bit_lt bs
  have := vc.isLt
  generalize hx : BitVec.ofNat 64 (1 + bit bs * 2 ^ 8 + vc.val * 2 ^ 11) = w
  obtain ⟨x0, x8, x9, x10, x11, x16, x24, x29⟩ := vext_fields (w := w) (o := 1) (b8 := bit bs) (b9 := 0) (b10 := 0) (v11 := vc.val) (v16 := 0) (v24 := 0) (hx.symm.trans (congrArg _ (by omega))) (by omega) (by omega) (by omega) (by omega) (by omega) (by omega) (by omega)
  simp only [decode48, vfn_hi, vfn_lo, x0, x8, x9, x10, x11, x16, x24, x29, ElType.ofCode_code, fin_ofNat_val, bit_beq_one] <;> rfl

theorem vneg (ty : ElType) (m : Reg) (d : Reg) (a : Reg) : Statement (.vneg ty m d a) := fun _ _ => by
  refine (decode49_eq { len := 0, major := 73, d := d, a := a, fn := Fin.ofNat 256 (ty.code * 32 + m.val) } rfl).trans ?_
  have := ty.code_lt
  have := m.isLt
  simp only [decode49, vfn_hi, vfn_lo, ElType.ofCode_code, fin_ofNat_val] <;> rfl

theorem vnegX (ty : ElType) (m : Reg) (d : Reg) (a : Reg) (sat : Bool) : Statement (.vnegX ty m d a sat) := fun _ _ => by
  refine (decode49_eq { len := 2, major := 73, d := d, a := a, fn := Fin.ofNat 256 (ty.code * 32 + m.val), ext := BitVec.ofNat 64 (bit sat * 2 ^ 10) } rfl).trans ?_
  have := ty.code_lt
  have := m.isLt
  have := bit_lt sat
  generalize hx : BitVec.ofNat 64 (bit sat * 2 ^ 10) = w
  obtain ⟨x0, x8, x9, x10, x11, x16, x24, x29⟩ := vext_fields (w := w) (o := 0) (b8 := 0) (b9 := 0) (b10 := bit sat) (v11 := 0) (v16 := 0) (v24 := 0) (hx.symm.trans (congrArg _ (by omega))) (by omega) (by omega) (by omega) (by omega) (by omega) (by omega) (by omega)
  simp only [decode49, vfn_hi, vfn_lo, x0, x8, x9, x10, x11, x16, x24, x29, ElType.ofCode_code, fin_ofNat_val, bit_beq_one] <;> rfl

theorem vabs (ty : ElType) (m : Reg) (d : Reg) (a : Reg) (sat : Bool) : Statement (.vabs ty m d a sat) := fun _ _ => by
  refine (decode49_eq { len := 2, major := 73, d := d, a := a, fn := Fin.ofNat 256 (ty.code * 32 + m.val), ext := BitVec.ofNat 64 (1 + bit sat * 2 ^ 10) } rfl).trans ?_
  have := ty.code_lt
  have := m.isLt
  have := bit_lt sat
  generalize hx : BitVec.ofNat 64 (1 + bit sat * 2 ^ 10) = w
  obtain ⟨x0, x8, x9, x10, x11, x16, x24, x29⟩ := vext_fields (w := w) (o := 1) (b8 := 0) (b9 := 0) (b10 := bit sat) (v11 := 0) (v16 := 0) (v24 := 0) (hx.symm.trans (congrArg _ (by omega))) (by omega) (by omega) (by omega) (by omega) (by omega) (by omega) (by omega)
  simp only [decode49, vfn_hi, vfn_lo, x0, x8, x9, x10, x11, x16, x24, x29, ElType.ofCode_code, fin_ofNat_val, bit_beq_one] <;> rfl

theorem vcvt (ty : ElType) (m : Reg) (d : Reg) (a : Reg) : Statement (.vcvt ty m d a) := fun _ _ => by
  refine (decode4A_eq { len := 0, major := 74, d := d, a := a, fn := Fin.ofNat 256 (ty.code * 32 + m.val) } rfl).trans ?_
  have := ty.code_lt
  have := m.isLt
  simp only [decode4A, vfn_hi, vfn_lo, ElType.ofCode_code, fin_ofNat_val] <;> rfl

theorem vcvtX (ty : ElType) (m : Reg) (d : Reg) (a : Reg) (un : Bool) (sat : Bool) (src : ElType) (srcUn : Bool) (p : Fin 8) : Statement (.vcvtX ty m d a un sat src srcUn p) := fun _ _ => by
  refine (decode4A_eq { len := 2, major := 74, d := d, a := a, fn := Fin.ofNat 256 (ty.code * 32 + m.val), ext := BitVec.ofNat 64 (bit un * 2 ^ 9 + bit sat * 2 ^ 10 + p.val * 2 ^ 16 + src.code * 2 ^ 20 + bit srcUn * 2 ^ 23) } rfl).trans ?_
  have := ty.code_lt
  have := m.isLt
  have := bit_lt un
  have := bit_lt sat
  have := src.code_lt
  have := bit_lt srcUn
  have := p.isLt
  generalize hx : BitVec.ofNat 64 (bit un * 2 ^ 9 + bit sat * 2 ^ 10 + p.val * 2 ^ 16 + src.code * 2 ^ 20 + bit srcUn * 2 ^ 23) = w
  obtain ⟨x0, x8, x9, x10, x11, x16, x24, x29⟩ := vext_fields (w := w) (o := 0) (b8 := 0) (b9 := bit un) (b10 := bit sat) (v11 := 0) (v16 := (p.val + src.code * 2 ^ 4 + bit srcUn * 2 ^ 7)) (v24 := 0) (hx.symm.trans (congrArg _ (by omega))) (by omega) (by omega) (by omega) (by omega) (by omega) (by omega) (by omega)
  have y16 : fld w.toNat 16 3 = p.val := by unfold fld at x16 ⊢; omega
  have y19 : fld w.toNat 19 1 = 0 := by unfold fld at x16 ⊢; omega
  have y20 : fld w.toNat 20 3 = src.code := by unfold fld at x16 ⊢; omega
  have y23 : fld w.toNat 23 1 = bit srcUn := by unfold fld at x16 ⊢; omega
  simp only [decode4A, vfn_hi, vfn_lo, x0, x8, x9, x10, x11, x24, x29, y16, y19, y20, y23, ElType.ofCode_code, fin_ofNat_val, bit_beq_one] <;> rfl

theorem vceq (ty : ElType) (m : Reg) (a : Reg) (b : Reg) : Statement (.vceq ty m a b) := fun _ _ => by
  refine (decode4B_eq { len := 0, major := 75, a := a, b := b, fn := Fin.ofNat 256 (ty.code * 32 + m.val) } rfl).trans ?_
  have := ty.code_lt
  have := m.isLt
  simp only [decode4B, vfn_hi, vfn_lo, ElType.ofCode_code, fin_ofNat_val] <;> rfl

theorem vceqX (ty : ElType) (m : Reg) (a : Reg) (b : Reg) (bs : Bool) (un : Bool) (sx : Reg) : Statement (.vceqX ty m a b bs un sx) := fun _ _ => by
  refine (decode4B_eq { len := 2, major := 75, a := a, b := b, fn := Fin.ofNat 256 (ty.code * 32 + m.val), ext := BitVec.ofNat 64 (bit bs * 2 ^ 8 + bit un * 2 ^ 9 + sx.val * 2 ^ 24) } rfl).trans ?_
  have := ty.code_lt
  have := m.isLt
  have := bit_lt bs
  have := bit_lt un
  have := sx.isLt
  generalize hx : BitVec.ofNat 64 (bit bs * 2 ^ 8 + bit un * 2 ^ 9 + sx.val * 2 ^ 24) = w
  obtain ⟨x0, x8, x9, x10, x11, x16, x24, x29⟩ := vext_fields (w := w) (o := 0) (b8 := bit bs) (b9 := bit un) (b10 := 0) (v11 := 0) (v16 := 0) (v24 := sx.val) (hx.symm.trans (congrArg _ (by omega))) (by omega) (by omega) (by omega) (by omega) (by omega) (by omega) (by omega)
  simp only [decode4B, vfn_hi, vfn_lo, x0, x8, x9, x10, x11, x16, x24, x29, ElType.ofCode_code, fin_ofNat_val, bit_beq_one] <;> rfl

theorem vcne (ty : ElType) (m : Reg) (a : Reg) (b : Reg) (bs : Bool) (un : Bool) (sx : Reg) : Statement (.vcne ty m a b bs un sx) := fun _ _ => by
  refine (decode4B_eq { len := 2, major := 75, a := a, b := b, fn := Fin.ofNat 256 (ty.code * 32 + m.val), ext := BitVec.ofNat 64 (1 + bit bs * 2 ^ 8 + bit un * 2 ^ 9 + sx.val * 2 ^ 24) } rfl).trans ?_
  have := ty.code_lt
  have := m.isLt
  have := bit_lt bs
  have := bit_lt un
  have := sx.isLt
  generalize hx : BitVec.ofNat 64 (1 + bit bs * 2 ^ 8 + bit un * 2 ^ 9 + sx.val * 2 ^ 24) = w
  obtain ⟨x0, x8, x9, x10, x11, x16, x24, x29⟩ := vext_fields (w := w) (o := 1) (b8 := bit bs) (b9 := bit un) (b10 := 0) (v11 := 0) (v16 := 0) (v24 := sx.val) (hx.symm.trans (congrArg _ (by omega))) (by omega) (by omega) (by omega) (by omega) (by omega) (by omega) (by omega)
  simp only [decode4B, vfn_hi, vfn_lo, x0, x8, x9, x10, x11, x16, x24, x29, ElType.ofCode_code, fin_ofNat_val, bit_beq_one] <;> rfl

theorem vclt (ty : ElType) (m : Reg) (a : Reg) (b : Reg) (bs : Bool) (un : Bool) (sx : Reg) : Statement (.vclt ty m a b bs un sx) := fun _ _ => by
  refine (decode4B_eq { len := 2, major := 75, a := a, b := b, fn := Fin.ofNat 256 (ty.code * 32 + m.val), ext := BitVec.ofNat 64 (2 + bit bs * 2 ^ 8 + bit un * 2 ^ 9 + sx.val * 2 ^ 24) } rfl).trans ?_
  have := ty.code_lt
  have := m.isLt
  have := bit_lt bs
  have := bit_lt un
  have := sx.isLt
  generalize hx : BitVec.ofNat 64 (2 + bit bs * 2 ^ 8 + bit un * 2 ^ 9 + sx.val * 2 ^ 24) = w
  obtain ⟨x0, x8, x9, x10, x11, x16, x24, x29⟩ := vext_fields (w := w) (o := 2) (b8 := bit bs) (b9 := bit un) (b10 := 0) (v11 := 0) (v16 := 0) (v24 := sx.val) (hx.symm.trans (congrArg _ (by omega))) (by omega) (by omega) (by omega) (by omega) (by omega) (by omega) (by omega)
  simp only [decode4B, vfn_hi, vfn_lo, x0, x8, x9, x10, x11, x16, x24, x29, ElType.ofCode_code, fin_ofNat_val, bit_beq_one] <;> rfl

theorem vcle (ty : ElType) (m : Reg) (a : Reg) (b : Reg) (bs : Bool) (un : Bool) (sx : Reg) : Statement (.vcle ty m a b bs un sx) := fun _ _ => by
  refine (decode4B_eq { len := 2, major := 75, a := a, b := b, fn := Fin.ofNat 256 (ty.code * 32 + m.val), ext := BitVec.ofNat 64 (3 + bit bs * 2 ^ 8 + bit un * 2 ^ 9 + sx.val * 2 ^ 24) } rfl).trans ?_
  have := ty.code_lt
  have := m.isLt
  have := bit_lt bs
  have := bit_lt un
  have := sx.isLt
  generalize hx : BitVec.ofNat 64 (3 + bit bs * 2 ^ 8 + bit un * 2 ^ 9 + sx.val * 2 ^ 24) = w
  obtain ⟨x0, x8, x9, x10, x11, x16, x24, x29⟩ := vext_fields (w := w) (o := 3) (b8 := bit bs) (b9 := bit un) (b10 := 0) (v11 := 0) (v16 := 0) (v24 := sx.val) (hx.symm.trans (congrArg _ (by omega))) (by omega) (by omega) (by omega) (by omega) (by omega) (by omega) (by omega)
  simp only [decode4B, vfn_hi, vfn_lo, x0, x8, x9, x10, x11, x16, x24, x29, ElType.ofCode_code, fin_ofNat_val, bit_beq_one] <;> rfl

theorem vcgt (ty : ElType) (m : Reg) (a : Reg) (b : Reg) (bs : Bool) (un : Bool) (sx : Reg) : Statement (.vcgt ty m a b bs un sx) := fun _ _ => by
  refine (decode4B_eq { len := 2, major := 75, a := a, b := b, fn := Fin.ofNat 256 (ty.code * 32 + m.val), ext := BitVec.ofNat 64 (4 + bit bs * 2 ^ 8 + bit un * 2 ^ 9 + sx.val * 2 ^ 24) } rfl).trans ?_
  have := ty.code_lt
  have := m.isLt
  have := bit_lt bs
  have := bit_lt un
  have := sx.isLt
  generalize hx : BitVec.ofNat 64 (4 + bit bs * 2 ^ 8 + bit un * 2 ^ 9 + sx.val * 2 ^ 24) = w
  obtain ⟨x0, x8, x9, x10, x11, x16, x24, x29⟩ := vext_fields (w := w) (o := 4) (b8 := bit bs) (b9 := bit un) (b10 := 0) (v11 := 0) (v16 := 0) (v24 := sx.val) (hx.symm.trans (congrArg _ (by omega))) (by omega) (by omega) (by omega) (by omega) (by omega) (by omega) (by omega)
  simp only [decode4B, vfn_hi, vfn_lo, x0, x8, x9, x10, x11, x16, x24, x29, ElType.ofCode_code, fin_ofNat_val, bit_beq_one] <;> rfl

theorem vcge (ty : ElType) (m : Reg) (a : Reg) (b : Reg) (bs : Bool) (un : Bool) (sx : Reg) : Statement (.vcge ty m a b bs un sx) := fun _ _ => by
  refine (decode4B_eq { len := 2, major := 75, a := a, b := b, fn := Fin.ofNat 256 (ty.code * 32 + m.val), ext := BitVec.ofNat 64 (5 + bit bs * 2 ^ 8 + bit un * 2 ^ 9 + sx.val * 2 ^ 24) } rfl).trans ?_
  have := ty.code_lt
  have := m.isLt
  have := bit_lt bs
  have := bit_lt un
  have := sx.isLt
  generalize hx : BitVec.ofNat 64 (5 + bit bs * 2 ^ 8 + bit un * 2 ^ 9 + sx.val * 2 ^ 24) = w
  obtain ⟨x0, x8, x9, x10, x11, x16, x24, x29⟩ := vext_fields (w := w) (o := 5) (b8 := bit bs) (b9 := bit un) (b10 := 0) (v11 := 0) (v16 := 0) (v24 := sx.val) (hx.symm.trans (congrArg _ (by omega))) (by omega) (by omega) (by omega) (by omega) (by omega) (by omega) (by omega)
  simp only [decode4B, vfn_hi, vfn_lo, x0, x8, x9, x10, x11, x16, x24, x29, ElType.ofCode_code, fin_ofNat_val, bit_beq_one] <;> rfl

theorem vsel (ty : ElType) (m : Reg) (d : Reg) (a : Reg) (b : Reg) : Statement (.vsel ty m d a b) := fun _ _ => by
  refine (decode4C_eq { len := 0, major := 76, d := d, a := a, b := b, fn := Fin.ofNat 256 (ty.code * 32 + m.val) } rfl).trans ?_
  have := ty.code_lt
  have := m.isLt
  simp only [decode4C, vfn_hi, vfn_lo, ElType.ofCode_code, fin_ofNat_val] <;> rfl

theorem vselX (ty : ElType) (m : Reg) (d : Reg) (a : Reg) (b : Reg) (bs : Bool) : Statement (.vselX ty m d a b bs) := fun _ _ => by
  refine (decode4C_eq { len := 2, major := 76, d := d, a := a, b := b, fn := Fin.ofNat 256 (ty.code * 32 + m.val), ext := BitVec.ofNat 64 (bit bs * 2 ^ 8) } rfl).trans ?_
  have := ty.code_lt
  have := m.isLt
  have := bit_lt bs
  generalize hx : BitVec.ofNat 64 (bit bs * 2 ^ 8) = w
  obtain ⟨x0, x8, x9, x10, x11, x16, x24, x29⟩ := vext_fields (w := w) (o := 0) (b8 := bit bs) (b9 := 0) (b10 := 0) (v11 := 0) (v16 := 0) (v24 := 0) (hx.symm.trans (congrArg _ (by omega))) (by omega) (by omega) (by omega) (by omega) (by omega) (by omega) (by omega)
  simp only [decode4C, vfn_hi, vfn_lo, x0, x8, x9, x10, x11, x16, x24, x29, ElType.ofCode_code, fin_ofNat_val, bit_beq_one] <;> rfl

theorem vredsum (ty : ElType) (m : Reg) (a : Reg) : Statement (.vredsum ty m a) := fun _ _ => by
  refine (decode4D_eq { len := 0, major := 77, a := a, fn := Fin.ofNat 256 (ty.code * 32 + m.val) } rfl).trans ?_
  have := ty.code_lt
  have := m.isLt
  simp only [decode4D, vfn_hi, vfn_lo, ElType.ofCode_code, fin_ofNat_val] <;> rfl

theorem vredsumX (ty : ElType) (m : Reg) (a : Reg) (un : Bool) (sx : Reg) : Statement (.vredsumX ty m a un sx) := fun _ _ => by
  refine (decode4D_eq { len := 2, major := 77, a := a, fn := Fin.ofNat 256 (ty.code * 32 + m.val), ext := BitVec.ofNat 64 (bit un * 2 ^ 9 + sx.val * 2 ^ 24) } rfl).trans ?_
  have := ty.code_lt
  have := m.isLt
  have := bit_lt un
  have := sx.isLt
  generalize hx : BitVec.ofNat 64 (bit un * 2 ^ 9 + sx.val * 2 ^ 24) = w
  obtain ⟨x0, x8, x9, x10, x11, x16, x24, x29⟩ := vext_fields (w := w) (o := 0) (b8 := 0) (b9 := bit un) (b10 := 0) (v11 := 0) (v16 := 0) (v24 := sx.val) (hx.symm.trans (congrArg _ (by omega))) (by omega) (by omega) (by omega) (by omega) (by omega) (by omega) (by omega)
  simp only [decode4D, vfn_hi, vfn_lo, x0, x8, x9, x10, x11, x16, x24, x29, ElType.ofCode_code, fin_ofNat_val, bit_beq_one] <;> rfl

theorem vredmin (ty : ElType) (m : Reg) (a : Reg) (un : Bool) (sx : Reg) : Statement (.vredmin ty m a un sx) := fun _ _ => by
  refine (decode4D_eq { len := 2, major := 77, a := a, fn := Fin.ofNat 256 (ty.code * 32 + m.val), ext := BitVec.ofNat 64 (1 + bit un * 2 ^ 9 + sx.val * 2 ^ 24) } rfl).trans ?_
  have := ty.code_lt
  have := m.isLt
  have := bit_lt un
  have := sx.isLt
  generalize hx : BitVec.ofNat 64 (1 + bit un * 2 ^ 9 + sx.val * 2 ^ 24) = w
  obtain ⟨x0, x8, x9, x10, x11, x16, x24, x29⟩ := vext_fields (w := w) (o := 1) (b8 := 0) (b9 := bit un) (b10 := 0) (v11 := 0) (v16 := 0) (v24 := sx.val) (hx.symm.trans (congrArg _ (by omega))) (by omega) (by omega) (by omega) (by omega) (by omega) (by omega) (by omega)
  simp only [decode4D, vfn_hi, vfn_lo, x0, x8, x9, x10, x11, x16, x24, x29, ElType.ofCode_code, fin_ofNat_val, bit_beq_one] <;> rfl

theorem vredmax (ty : ElType) (m : Reg) (a : Reg) (un : Bool) (sx : Reg) : Statement (.vredmax ty m a un sx) := fun _ _ => by
  refine (decode4D_eq { len := 2, major := 77, a := a, fn := Fin.ofNat 256 (ty.code * 32 + m.val), ext := BitVec.ofNat 64 (2 + bit un * 2 ^ 9 + sx.val * 2 ^ 24) } rfl).trans ?_
  have := ty.code_lt
  have := m.isLt
  have := bit_lt un
  have := sx.isLt
  generalize hx : BitVec.ofNat 64 (2 + bit un * 2 ^ 9 + sx.val * 2 ^ 24) = w
  obtain ⟨x0, x8, x9, x10, x11, x16, x24, x29⟩ := vext_fields (w := w) (o := 2) (b8 := 0) (b9 := bit un) (b10 := 0) (v11 := 0) (v16 := 0) (v24 := sx.val) (hx.symm.trans (congrArg _ (by omega))) (by omega) (by omega) (by omega) (by omega) (by omega) (by omega) (by omega)
  simp only [decode4D, vfn_hi, vfn_lo, x0, x8, x9, x10, x11, x16, x24, x29, ElType.ofCode_code, fin_ofNat_val, bit_beq_one] <;> rfl

theorem vredand (ty : ElType) (m : Reg) (a : Reg) (un : Bool) (sx : Reg) : Statement (.vredand ty m a un sx) := fun _ _ => by
  refine (decode4D_eq { len := 2, major := 77, a := a, fn := Fin.ofNat 256 (ty.code * 32 + m.val), ext := BitVec.ofNat 64 (3 + bit un * 2 ^ 9 + sx.val * 2 ^ 24) } rfl).trans ?_
  have := ty.code_lt
  have := m.isLt
  have := bit_lt un
  have := sx.isLt
  generalize hx : BitVec.ofNat 64 (3 + bit un * 2 ^ 9 + sx.val * 2 ^ 24) = w
  obtain ⟨x0, x8, x9, x10, x11, x16, x24, x29⟩ := vext_fields (w := w) (o := 3) (b8 := 0) (b9 := bit un) (b10 := 0) (v11 := 0) (v16 := 0) (v24 := sx.val) (hx.symm.trans (congrArg _ (by omega))) (by omega) (by omega) (by omega) (by omega) (by omega) (by omega) (by omega)
  simp only [decode4D, vfn_hi, vfn_lo, x0, x8, x9, x10, x11, x16, x24, x29, ElType.ofCode_code, fin_ofNat_val, bit_beq_one] <;> rfl

theorem vredor (ty : ElType) (m : Reg) (a : Reg) (un : Bool) (sx : Reg) : Statement (.vredor ty m a un sx) := fun _ _ => by
  refine (decode4D_eq { len := 2, major := 77, a := a, fn := Fin.ofNat 256 (ty.code * 32 + m.val), ext := BitVec.ofNat 64 (4 + bit un * 2 ^ 9 + sx.val * 2 ^ 24) } rfl).trans ?_
  have := ty.code_lt
  have := m.isLt
  have := bit_lt un
  have := sx.isLt
  generalize hx : BitVec.ofNat 64 (4 + bit un * 2 ^ 9 + sx.val * 2 ^ 24) = w
  obtain ⟨x0, x8, x9, x10, x11, x16, x24, x29⟩ := vext_fields (w := w) (o := 4) (b8 := 0) (b9 := bit un) (b10 := 0) (v11 := 0) (v16 := 0) (v24 := sx.val) (hx.symm.trans (congrArg _ (by omega))) (by omega) (by omega) (by omega) (by omega) (by omega) (by omega) (by omega)
  simp only [decode4D, vfn_hi, vfn_lo, x0, x8, x9, x10, x11, x16, x24, x29, ElType.ofCode_code, fin_ofNat_val, bit_beq_one] <;> rfl

theorem vredxor (ty : ElType) (m : Reg) (a : Reg) (un : Bool) (sx : Reg) : Statement (.vredxor ty m a un sx) := fun _ _ => by
  refine (decode4D_eq { len := 2, major := 77, a := a, fn := Fin.ofNat 256 (ty.code * 32 + m.val), ext := BitVec.ofNat 64 (5 + bit un * 2 ^ 9 + sx.val * 2 ^ 24) } rfl).trans ?_
  have := ty.code_lt
  have := m.isLt
  have := bit_lt un
  have := sx.isLt
  generalize hx : BitVec.ofNat 64 (5 + bit un * 2 ^ 9 + sx.val * 2 ^ 24) = w
  obtain ⟨x0, x8, x9, x10, x11, x16, x24, x29⟩ := vext_fields (w := w) (o := 5) (b8 := 0) (b9 := bit un) (b10 := 0) (v11 := 0) (v16 := 0) (v24 := sx.val) (hx.symm.trans (congrArg _ (by omega))) (by omega) (by omega) (by omega) (by omega) (by omega) (by omega) (by omega)
  simp only [decode4D, vfn_hi, vfn_lo, x0, x8, x9, x10, x11, x16, x24, x29, ElType.ofCode_code, fin_ofNat_val, bit_beq_one] <;> rfl

theorem vdot (ty : ElType) (m : Reg) (d : Reg) (a : Reg) (b : Reg) : Statement (.vdot ty m d a b) := fun _ _ => by
  refine (decode4E_eq { len := 0, major := 78, d := d, a := a, b := b, fn := Fin.ofNat 256 (ty.code * 32 + m.val) } rfl).trans ?_
  have := ty.code_lt
  have := m.isLt
  simp only [decode4E, vfn_hi, vfn_lo, ElType.ofCode_code, fin_ofNat_val] <;> rfl

theorem vdotX (ty : ElType) (m : Reg) (d : Reg) (a : Reg) (b : Reg) (un : Bool) (sat : Bool) : Statement (.vdotX ty m d a b un sat) := fun _ _ => by
  refine (decode4E_eq { len := 2, major := 78, d := d, a := a, b := b, fn := Fin.ofNat 256 (ty.code * 32 + m.val), ext := BitVec.ofNat 64 (bit un * 2 ^ 9 + bit sat * 2 ^ 10) } rfl).trans ?_
  have := ty.code_lt
  have := m.isLt
  have := bit_lt un
  have := bit_lt sat
  generalize hx : BitVec.ofNat 64 (bit un * 2 ^ 9 + bit sat * 2 ^ 10) = w
  obtain ⟨x0, x8, x9, x10, x11, x16, x24, x29⟩ := vext_fields (w := w) (o := 0) (b8 := 0) (b9 := bit un) (b10 := bit sat) (v11 := 0) (v16 := 0) (v24 := 0) (hx.symm.trans (congrArg _ (by omega))) (by omega) (by omega) (by omega) (by omega) (by omega) (by omega) (by omega)
  simp only [decode4E, vfn_hi, vfn_lo, x0, x8, x9, x10, x11, x16, x24, x29, ElType.ofCode_code, fin_ofNat_val, bit_beq_one] <;> rfl

theorem vperm (ty : ElType) (m : Reg) (d : Reg) (a : Reg) (b : Reg) : Statement (.vperm ty m d a b) := fun _ _ => by
  refine (decode4F_eq { len := 0, major := 79, d := d, a := a, b := b, fn := Fin.ofNat 256 (ty.code * 32 + m.val) } rfl).trans ?_
  have := ty.code_lt
  have := m.isLt
  simp only [decode4F, vfn_hi, vfn_lo, ElType.ofCode_code, fin_ofNat_val] <;> rfl

theorem vpermX (ty : ElType) (m : Reg) (d : Reg) (a : Reg) (b : Reg) (bs : Bool) : Statement (.vpermX ty m d a b bs) := fun _ _ => by
  refine (decode4F_eq { len := 2, major := 79, d := d, a := a, b := b, fn := Fin.ofNat 256 (ty.code * 32 + m.val), ext := BitVec.ofNat 64 (bit bs * 2 ^ 8) } rfl).trans ?_
  have := ty.code_lt
  have := m.isLt
  have := bit_lt bs
  generalize hx : BitVec.ofNat 64 (bit bs * 2 ^ 8) = w
  obtain ⟨x0, x8, x9, x10, x11, x16, x24, x29⟩ := vext_fields (w := w) (o := 0) (b8 := bit bs) (b9 := 0) (b10 := 0) (v11 := 0) (v16 := 0) (v24 := 0) (hx.symm.trans (congrArg _ (by omega))) (by omega) (by omega) (by omega) (by omega) (by omega) (by omega) (by omega)
  simp only [decode4F, vfn_hi, vfn_lo, x0, x8, x9, x10, x11, x16, x24, x29, ElType.ofCode_code, fin_ofNat_val, bit_beq_one] <;> rfl

theorem vslideh (ty : ElType) (m : Reg) (d : Reg) (a : Reg) (n : BitVec 8) : Statement (.vslideh ty m d a n) := fun _ _ => by
  refine (decode4F_eq { len := 2, major := 79, d := d, a := a, fn := Fin.ofNat 256 (ty.code * 32 + m.val), ext := BitVec.ofNat 64 (1 + n.toNat * 2 ^ 16) } rfl).trans ?_
  have := ty.code_lt
  have := m.isLt
  have := n.isLt
  generalize hx : BitVec.ofNat 64 (1 + n.toNat * 2 ^ 16) = w
  obtain ⟨x0, x8, x9, x10, x11, x16, x24, x29⟩ := vext_fields (w := w) (o := 1) (b8 := 0) (b9 := 0) (b10 := 0) (v11 := 0) (v16 := n.toNat) (v24 := 0) (hx.symm.trans (congrArg _ (by omega))) (by omega) (by omega) (by omega) (by omega) (by omega) (by omega) (by omega)
  have g1 : BitVec.ofNat 8 (fld w.toNat 16 8) = n := by apply BitVec.eq_of_toNat_eq; rw [BitVec.toNat_ofNat]; omega
  simp only [decode4F, vfn_hi, vfn_lo, x0, x8, x9, x10, x11, x16, x24, x29, g1, ElType.ofCode_code, fin_ofNat_val, bv_ofNat_toNat] <;> rfl

theorem vslidel (ty : ElType) (m : Reg) (d : Reg) (a : Reg) (n : BitVec 8) : Statement (.vslidel ty m d a n) := fun _ _ => by
  refine (decode4F_eq { len := 2, major := 79, d := d, a := a, fn := Fin.ofNat 256 (ty.code * 32 + m.val), ext := BitVec.ofNat 64 (2 + n.toNat * 2 ^ 16) } rfl).trans ?_
  have := ty.code_lt
  have := m.isLt
  have := n.isLt
  generalize hx : BitVec.ofNat 64 (2 + n.toNat * 2 ^ 16) = w
  obtain ⟨x0, x8, x9, x10, x11, x16, x24, x29⟩ := vext_fields (w := w) (o := 2) (b8 := 0) (b9 := 0) (b10 := 0) (v11 := 0) (v16 := n.toNat) (v24 := 0) (hx.symm.trans (congrArg _ (by omega))) (by omega) (by omega) (by omega) (by omega) (by omega) (by omega) (by omega)
  have g1 : BitVec.ofNat 8 (fld w.toNat 16 8) = n := by apply BitVec.eq_of_toNat_eq; rw [BitVec.toNat_ofNat]; omega
  simp only [decode4F, vfn_hi, vfn_lo, x0, x8, x9, x10, x11, x16, x24, x29, g1, ElType.ofCode_code, fin_ofNat_val, bv_ofNat_toNat] <;> rfl

theorem vrev (ty : ElType) (m : Reg) (d : Reg) (a : Reg) : Statement (.vrev ty m d a) := fun _ _ => by
  refine (decode4F_eq { len := 2, major := 79, d := d, a := a, fn := Fin.ofNat 256 (ty.code * 32 + m.val), ext := 3 } rfl).trans ?_
  have := ty.code_lt
  have := m.isLt
  simp only [decode4F, vfn_hi, vfn_lo, ElType.ofCode_code, fin_ofNat_val] <;> rfl

theorem vbcast (ty : ElType) (m : Reg) (d : Reg) : Statement (.vbcast ty m d) := fun _ _ => by
  refine (decode50_eq { len := 0, major := 80, d := d, fn := Fin.ofNat 256 (ty.code * 32 + m.val) } rfl).trans ?_
  have := ty.code_lt
  have := m.isLt
  simp only [decode50, vfn_hi, vfn_lo, ElType.ofCode_code, fin_ofNat_val] <;> rfl

theorem vbcastX (ty : ElType) (m : Reg) (d : Reg) (sx : Reg) : Statement (.vbcastX ty m d sx) := fun _ _ => by
  refine (decode50_eq { len := 2, major := 80, d := d, fn := Fin.ofNat 256 (ty.code * 32 + m.val), ext := BitVec.ofNat 64 (sx.val * 2 ^ 24) } rfl).trans ?_
  have := ty.code_lt
  have := m.isLt
  have := sx.isLt
  generalize hx : BitVec.ofNat 64 (sx.val * 2 ^ 24) = w
  obtain ⟨x0, x8, x9, x10, x11, x16, x24, x29⟩ := vext_fields (w := w) (o := 0) (b8 := 0) (b9 := 0) (b10 := 0) (v11 := 0) (v16 := 0) (v24 := sx.val) (hx.symm.trans (congrArg _ (by omega))) (by omega) (by omega) (by omega) (by omega) (by omega) (by omega) (by omega)
  simp only [decode50, vfn_hi, vfn_lo, x0, x8, x9, x10, x11, x16, x24, x29, ElType.ofCode_code, fin_ofNat_val] <;> rfl

theorem vbcastl (ty : ElType) (m : Reg) (d : Reg) (a : Reg) (k : BitVec 8) : Statement (.vbcastl ty m d a k) := fun _ _ => by
  refine (decode50_eq { len := 2, major := 80, d := d, a := a, fn := Fin.ofNat 256 (ty.code * 32 + m.val), ext := BitVec.ofNat 64 (1 + k.toNat * 2 ^ 16) } rfl).trans ?_
  have := ty.code_lt
  have := m.isLt
  have := k.isLt
  generalize hx : BitVec.ofNat 64 (1 + k.toNat * 2 ^ 16) = w
  obtain ⟨x0, x8, x9, x10, x11, x16, x24, x29⟩ := vext_fields (w := w) (o := 1) (b8 := 0) (b9 := 0) (b10 := 0) (v11 := 0) (v16 := k.toNat) (v24 := 0) (hx.symm.trans (congrArg _ (by omega))) (by omega) (by omega) (by omega) (by omega) (by omega) (by omega) (by omega)
  have g1 : BitVec.ofNat 8 (fld w.toNat 16 8) = k := by apply BitVec.eq_of_toNat_eq; rw [BitVec.toNat_ofNat]; omega
  simp only [decode50, vfn_hi, vfn_lo, x0, x8, x9, x10, x11, x16, x24, x29, g1, ElType.ofCode_code, fin_ofNat_val, bv_ofNat_toNat] <;> rfl

theorem vindex (ty : ElType) (m : Reg) (d : Reg) : Statement (.vindex ty m d) := fun _ _ => by
  refine (decode50_eq { len := 2, major := 80, d := d, fn := Fin.ofNat 256 (ty.code * 32 + m.val), ext := 2 } rfl).trans ?_
  have := ty.code_lt
  have := m.isLt
  simp only [decode50, vfn_hi, vfn_lo, ElType.ofCode_code, fin_ofNat_val] <;> rfl

theorem vext (ty : ElType) (a : Reg) : Statement (.vext ty a) := fun _ _ => by
  refine (decode51_eq { len := 0, major := 81, a := a, fn := Fin.ofNat 256 (ty.code * 32) } rfl).trans ?_
  have := ty.code_lt
  generalize hf : Fin.ofNat 256 (ty.code * 32) = f
  have hfv : f.val = (ty.code * 32) := by rw [← hf, Fin.val_ofNat] <;> omega
  clear hf
  have g1 : f.val % 32 = 0 := by omega
  have g2 : f.val / 32 = ty.code := by omega
  simp only [decode51, g1, g2, ElType.ofCode_code, fin_ofNat_val] <;> rfl

theorem vextX (ty : ElType) (a : Reg) (un : Bool) (sx : Reg) (k : BitVec 8) : Statement (.vextX ty a un sx k) := fun _ _ => by
  refine (decode51_eq { len := 2, major := 81, a := a, fn := Fin.ofNat 256 (ty.code * 32), ext := BitVec.ofNat 64 (bit un * 2 ^ 9 + sx.val * 2 ^ 24 + k.toNat * 2 ^ 16) } rfl).trans ?_
  have := ty.code_lt
  have := bit_lt un
  have := sx.isLt
  have := k.isLt
  generalize hf : Fin.ofNat 256 (ty.code * 32) = f
  have hfv : f.val = (ty.code * 32) := by rw [← hf, Fin.val_ofNat] <;> omega
  clear hf
  generalize hx : BitVec.ofNat 64 (bit un * 2 ^ 9 + sx.val * 2 ^ 24 + k.toNat * 2 ^ 16) = w
  obtain ⟨x0, x8, x9, x10, x11, x16, x24, x29⟩ := vext_fields (w := w) (o := 0) (b8 := 0) (b9 := bit un) (b10 := 0) (v11 := 0) (v16 := k.toNat) (v24 := sx.val) (hx.symm.trans (congrArg _ (by omega))) (by omega) (by omega) (by omega) (by omega) (by omega) (by omega) (by omega)
  have g1 : f.val % 32 = 0 := by omega
  have g2 : f.val / 32 = ty.code := by omega
  have g3 : BitVec.ofNat 8 (fld w.toNat 16 8) = k := by apply BitVec.eq_of_toNat_eq; rw [BitVec.toNat_ofNat]; omega
  simp only [decode51, x0, x8, x9, x10, x11, x16, x24, x29, g1, g2, g3, ElType.ofCode_code, fin_ofNat_val, bit_beq_one, bv_ofNat_toNat] <;> rfl

theorem vins (ty : ElType) (d : Reg) (sx : Reg) (k : BitVec 8) : Statement (.vins ty d sx k) := fun _ _ => by
  refine (decode51_eq { len := 2, major := 81, d := d, fn := Fin.ofNat 256 (ty.code * 32), ext := BitVec.ofNat 64 (1 + sx.val * 2 ^ 24 + k.toNat * 2 ^ 16) } rfl).trans ?_
  have := ty.code_lt
  have := sx.isLt
  have := k.isLt
  generalize hf : Fin.ofNat 256 (ty.code * 32) = f
  have hfv : f.val = (ty.code * 32) := by rw [← hf, Fin.val_ofNat] <;> omega
  clear hf
  generalize hx : BitVec.ofNat 64 (1 + sx.val * 2 ^ 24 + k.toNat * 2 ^ 16) = w
  obtain ⟨x0, x8, x9, x10, x11, x16, x24, x29⟩ := vext_fields (w := w) (o := 1) (b8 := 0) (b9 := 0) (b10 := 0) (v11 := 0) (v16 := k.toNat) (v24 := sx.val) (hx.symm.trans (congrArg _ (by omega))) (by omega) (by omega) (by omega) (by omega) (by omega) (by omega) (by omega)
  have g1 : f.val % 32 = 0 := by omega
  have g2 : f.val / 32 = ty.code := by omega
  have g3 : BitVec.ofNat 8 (fld w.toNat 16 8) = k := by apply BitVec.eq_of_toNat_eq; rw [BitVec.toNat_ofNat]; omega
  simp only [decode51, x0, x8, x9, x10, x11, x16, x24, x29, g1, g2, g3, ElType.ofCode_code, fin_ofNat_val, bv_ofNat_toNat] <;> rfl

theorem vcprs (ty : ElType) (m : Reg) (d : Reg) (a : Reg) : Statement (.vcprs ty m d a) := fun _ _ => by
  refine (decode52_eq { len := 0, major := 82, d := d, a := a, fn := Fin.ofNat 256 (ty.code * 32 + m.val) } rfl).trans ?_
  have := ty.code_lt
  have := m.isLt
  simp only [decode52, vfn_hi, vfn_lo, ElType.ofCode_code, fin_ofNat_val] <;> rfl

theorem vcprsX (ty : ElType) (m : Reg) (d : Reg) (a : Reg) (sx : Reg) : Statement (.vcprsX ty m d a sx) := fun _ _ => by
  refine (decode52_eq { len := 2, major := 82, d := d, a := a, fn := Fin.ofNat 256 (ty.code * 32 + m.val), ext := BitVec.ofNat 64 (sx.val * 2 ^ 24) } rfl).trans ?_
  have := ty.code_lt
  have := m.isLt
  have := sx.isLt
  generalize hx : BitVec.ofNat 64 (sx.val * 2 ^ 24) = w
  obtain ⟨x0, x8, x9, x10, x11, x16, x24, x29⟩ := vext_fields (w := w) (o := 0) (b8 := 0) (b9 := 0) (b10 := 0) (v11 := 0) (v16 := 0) (v24 := sx.val) (hx.symm.trans (congrArg _ (by omega))) (by omega) (by omega) (by omega) (by omega) (by omega) (by omega) (by omega)
  simp only [decode52, vfn_hi, vfn_lo, x0, x8, x9, x10, x11, x16, x24, x29, ElType.ofCode_code, fin_ofNat_val] <;> rfl

theorem vexpd (ty : ElType) (m : Reg) (d : Reg) (a : Reg) (sx : Reg) : Statement (.vexpd ty m d a sx) := fun _ _ => by
  refine (decode52_eq { len := 2, major := 82, d := d, a := a, fn := Fin.ofNat 256 (ty.code * 32 + m.val), ext := BitVec.ofNat 64 (1 + sx.val * 2 ^ 24) } rfl).trans ?_
  have := ty.code_lt
  have := m.isLt
  have := sx.isLt
  generalize hx : BitVec.ofNat 64 (1 + sx.val * 2 ^ 24) = w
  obtain ⟨x0, x8, x9, x10, x11, x16, x24, x29⟩ := vext_fields (w := w) (o := 1) (b8 := 0) (b9 := 0) (b10 := 0) (v11 := 0) (v16 := 0) (v24 := sx.val) (hx.symm.trans (congrArg _ (by omega))) (by omega) (by omega) (by omega) (by omega) (by omega) (by omega) (by omega)
  simp only [decode52, vfn_hi, vfn_lo, x0, x8, x9, x10, x11, x16, x24, x29, ElType.ofCode_code, fin_ofNat_val] <;> rfl

theorem vld (ty : ElType) (m : Reg) (d : Reg) (x : VMemExt) : Statement (.vld ty m d x) := fun _ _ => by
  refine (decode58_eq { len := 2, major := 88, d := d, fn := Fin.ofNat 256 (ty.code * 32 + m.val), ext := BitVec.ofNat 64 (x.toExt) } rfl).trans ?_
  have := ty.code_lt
  have := m.isLt
  generalize hx : BitVec.ofNat 64 (x.toExt) = w
  obtain ⟨x37, x48, x56, xe⟩ := VMemExt.fields (w := w) x 0 (hx.symm.trans (congrArg _ (by omega))) (by omega)
  simp only [decode58, vfn_hi, vfn_lo, x37, x48, x56, xe, Option.bind_some, ElType.ofCode_code, fin_ofNat_val] <;> rfl

theorem vst (ty : ElType) (m : Reg) (d : Reg) (x : VMemExt) : Statement (.vst ty m d x) := fun _ _ => by
  refine (decode59_eq { len := 2, major := 89, d := d, fn := Fin.ofNat 256 (ty.code * 32 + m.val), ext := BitVec.ofNat 64 (x.toExt) } rfl).trans ?_
  have := ty.code_lt
  have := m.isLt
  generalize hx : BitVec.ofNat 64 (x.toExt) = w
  obtain ⟨x37, x48, x56, xe⟩ := VMemExt.fields (w := w) x 0 (hx.symm.trans (congrArg _ (by omega))) (by omega)
  simp only [decode59, vfn_hi, vfn_lo, x37, x48, x56, xe, Option.bind_some, ElType.ofCode_code, fin_ofNat_val] <;> rfl

theorem vlds (ty : ElType) (m : Reg) (d : Reg) (b : Reg) (x : VMemExt) : Statement (.vlds ty m d b x) := fun _ _ => by
  refine (decode5A_eq { len := 2, major := 90, d := d, b := b, fn := Fin.ofNat 256 (ty.code * 32 + m.val), ext := BitVec.ofNat 64 (x.toExt) } rfl).trans ?_
  have := ty.code_lt
  have := m.isLt
  generalize hx : BitVec.ofNat 64 (x.toExt) = w
  obtain ⟨x37, x48, x56, xe⟩ := VMemExt.fields (w := w) x 0 (hx.symm.trans (congrArg _ (by omega))) (by omega)
  simp only [decode5A, vfn_hi, vfn_lo, x37, x48, x56, xe, Option.bind_some, ElType.ofCode_code, fin_ofNat_val] <;> rfl

theorem vsts (ty : ElType) (m : Reg) (d : Reg) (b : Reg) (x : VMemExt) : Statement (.vsts ty m d b x) := fun _ _ => by
  refine (decode5B_eq { len := 2, major := 91, d := d, b := b, fn := Fin.ofNat 256 (ty.code * 32 + m.val), ext := BitVec.ofNat 64 (x.toExt) } rfl).trans ?_
  have := ty.code_lt
  have := m.isLt
  generalize hx : BitVec.ofNat 64 (x.toExt) = w
  obtain ⟨x37, x48, x56, xe⟩ := VMemExt.fields (w := w) x 0 (hx.symm.trans (congrArg _ (by omega))) (by omega)
  simp only [decode5B, vfn_hi, vfn_lo, x37, x48, x56, xe, Option.bind_some, ElType.ofCode_code, fin_ofNat_val] <;> rfl

theorem vgath (ty : ElType) (m : Reg) (d : Reg) (b : Reg) (shift : Fin 8) (x : VMemExt) : Statement (.vgath ty m d b shift x) := fun _ _ => by
  refine (decode5C_eq { len := 2, major := 92, d := d, b := b, fn := Fin.ofNat 256 (ty.code * 32 + m.val), ext := BitVec.ofNat 64 (x.toExt + shift.val * 2 ^ 48) } rfl).trans ?_
  have := ty.code_lt
  have := m.isLt
  have := shift.isLt
  generalize hx : BitVec.ofNat 64 (x.toExt + shift.val * 2 ^ 48) = w
  obtain ⟨x37, x48, x56, xe⟩ := VMemExt.fields (w := w) x shift.val (hx.symm.trans (congrArg _ (by omega))) (by omega)
  simp only [decode5C, vfn_hi, vfn_lo, x37, x48, x56, xe, Option.bind_some, ElType.ofCode_code, fin_ofNat_val] <;> rfl

theorem vscat (ty : ElType) (m : Reg) (d : Reg) (b : Reg) (shift : Fin 8) (x : VMemExt) : Statement (.vscat ty m d b shift x) := fun _ _ => by
  refine (decode5D_eq { len := 2, major := 93, d := d, b := b, fn := Fin.ofNat 256 (ty.code * 32 + m.val), ext := BitVec.ofNat 64 (x.toExt + shift.val * 2 ^ 48) } rfl).trans ?_
  have := ty.code_lt
  have := m.isLt
  have := shift.isLt
  generalize hx : BitVec.ofNat 64 (x.toExt + shift.val * 2 ^ 48) = w
  obtain ⟨x37, x48, x56, xe⟩ := VMemExt.fields (w := w) x shift.val (hx.symm.trans (congrArg _ (by omega))) (by omega)
  simp only [decode5D, vfn_hi, vfn_lo, x37, x48, x56, xe, Option.bind_some, ElType.ofCode_code, fin_ofNat_val] <;> rfl

theorem tdLd (a : Reg) (ta : Fin 64) : Statement (.tdLd a ta) := fun _ _ => by
  refine (decode60_eq { len := 2, major := 96, a := a, ext := BitVec.ofNat 64 (ta.val) } rfl).trans ?_
  have := ta.isLt
  generalize hx : BitVec.ofNat 64 (ta.val) = w0
  obtain ⟨x0, x6, x8, x14, x16, x17, x24, x27, x29⟩ := text_fields (w := w0) (ta := ta.val) (tb := 0) (ti := 0) (v := 0) (hx.symm.trans (congrArg _ (by omega))) (by omega) (by omega) (by omega) (by omega)
  simp only [decode60, x0, x6, x8, x14, x16, x17, x24, x29, fin_ofNat_val] <;> rfl

theorem tdSt (a : Reg) (ta : Fin 64) : Statement (.tdSt a ta) := fun _ _ => by
  refine (decode60_eq { len := 2, major := 96, a := a, fn := 1, ext := BitVec.ofNat 64 (ta.val) } rfl).trans ?_
  have := ta.isLt
  generalize hx : BitVec.ofNat 64 (ta.val) = w0
  obtain ⟨x0, x6, x8, x14, x16, x17, x24, x27, x29⟩ := text_fields (w := w0) (ta := ta.val) (tb := 0) (ti := 0) (v := 0) (hx.symm.trans (congrArg _ (by omega))) (by omega) (by omega) (by omega) (by omega)
  simp only [decode60, x0, x6, x8, x14, x16, x17, x24, x29, fin_ofNat_val] <;> rfl

theorem tdRdw (d : Reg) (ta : Fin 64) (w : Fin 8) : Statement (.tdRdw d ta w) := fun _ _ => by
  refine (decode60_eq { len := 2, major := 96, d := d, fn := 2, ext := BitVec.ofNat 64 (ta.val + w.val * 2 ^ 24) } rfl).trans ?_
  have := ta.isLt
  have := w.isLt
  generalize hx : BitVec.ofNat 64 (ta.val + w.val * 2 ^ 24) = w0
  obtain ⟨x0, x6, x8, x14, x16, x17, x24, x27, x29⟩ := text_fields (w := w0) (ta := ta.val) (tb := 0) (ti := 0) (v := w.val) (hx.symm.trans (congrArg _ (by omega))) (by omega) (by omega) (by omega) (by omega)
  have x27 := x27 (by omega)
  have y24 : fld w0.toNat 24 3 = w.val := by unfold fld at x24 ⊢; omega
  simp only [decode60, x27, y24, x0, x6, x8, x14, x16, x17, x24, x29, fin_ofNat_val] <;> rfl

theorem tdWrw (b : Reg) (ta : Fin 64) (w : Fin 8) : Statement (.tdWrw b ta w) := fun _ _ => by
  refine (decode60_eq { len := 2, major := 96, b := b, fn := 3, ext := BitVec.ofNat 64 (ta.val + w.val * 2 ^ 24) } rfl).trans ?_
  have := ta.isLt
  have := w.isLt
  generalize hx : BitVec.ofNat 64 (ta.val + w.val * 2 ^ 24) = w0
  obtain ⟨x0, x6, x8, x14, x16, x17, x24, x27, x29⟩ := text_fields (w := w0) (ta := ta.val) (tb := 0) (ti := 0) (v := w.val) (hx.symm.trans (congrArg _ (by omega))) (by omega) (by omega) (by omega) (by omega)
  have x27 := x27 (by omega)
  have y24 : fld w0.toNat 24 3 = w.val := by unfold fld at x24 ⊢; omega
  simp only [decode60, x27, y24, x0, x6, x8, x14, x16, x17, x24, x29, fin_ofNat_val] <;> rfl

theorem mm (ta : Fin 64) (tb : Fin 64) (tile : Fin 2) : Statement (.mm ta tb tile) := fun _ _ => by
  refine (decode61_eq { len := 2, major := 97, ext := BitVec.ofNat 64 (ta.val + tb.val * 2 ^ 8 + tile.val * 2 ^ 16) } rfl).trans ?_
  have := ta.isLt
  have := tb.isLt
  have := tile.isLt
  generalize hx : BitVec.ofNat 64 (ta.val + tb.val * 2 ^ 8 + tile.val * 2 ^ 16) = w0
  obtain ⟨x0, x6, x8, x14, x16, x17, x24, x27, x29⟩ := text_fields (w := w0) (ta := ta.val) (tb := tb.val) (ti := tile.val) (v := 0) (hx.symm.trans (congrArg _ (by omega))) (by omega) (by omega) (by omega) (by omega)
  simp only [decode61, x0, x6, x8, x14, x16, x17, x24, x29, fin_ofNat_val] <;> rfl

theorem mc (ta : Fin 64) (tb : Fin 64) (tile : Fin 2) : Statement (.mc ta tb tile) := fun _ _ => by
  refine (decode62_eq { len := 2, major := 98, ext := BitVec.ofNat 64 (ta.val + tb.val * 2 ^ 8 + tile.val * 2 ^ 16) } rfl).trans ?_
  have := ta.isLt
  have := tb.isLt
  have := tile.isLt
  generalize hx : BitVec.ofNat 64 (ta.val + tb.val * 2 ^ 8 + tile.val * 2 ^ 16) = w0
  obtain ⟨x0, x6, x8, x14, x16, x17, x24, x27, x29⟩ := text_fields (w := w0) (ta := ta.val) (tb := tb.val) (ti := tile.val) (v := 0) (hx.symm.trans (congrArg _ (by omega))) (by omega) (by omega) (by omega) (by omega)
  simp only [decode62, x0, x6, x8, x14, x16, x17, x24, x29, fin_ofNat_val] <;> rfl

theorem mcNdA (ta : Fin 64) (tb : Fin 64) (tile : Fin 2) : Statement (.mcNdA ta tb tile) := fun _ _ => by
  refine (decode62_eq { len := 2, major := 98, fn := 1, ext := BitVec.ofNat 64 (ta.val + tb.val * 2 ^ 8 + tile.val * 2 ^ 16) } rfl).trans ?_
  have := ta.isLt
  have := tb.isLt
  have := tile.isLt
  generalize hx : BitVec.ofNat 64 (ta.val + tb.val * 2 ^ 8 + tile.val * 2 ^ 16) = w0
  obtain ⟨x0, x6, x8, x14, x16, x17, x24, x27, x29⟩ := text_fields (w := w0) (ta := ta.val) (tb := tb.val) (ti := tile.val) (v := 0) (hx.symm.trans (congrArg _ (by omega))) (by omega) (by omega) (by omega) (by omega)
  simp only [decode62, x0, x6, x8, x14, x16, x17, x24, x29, fin_ofNat_val] <;> rfl

theorem mcNdB (ta : Fin 64) (tb : Fin 64) (tile : Fin 2) : Statement (.mcNdB ta tb tile) := fun _ _ => by
  refine (decode62_eq { len := 2, major := 98, fn := 2, ext := BitVec.ofNat 64 (ta.val + tb.val * 2 ^ 8 + tile.val * 2 ^ 16) } rfl).trans ?_
  have := ta.isLt
  have := tb.isLt
  have := tile.isLt
  generalize hx : BitVec.ofNat 64 (ta.val + tb.val * 2 ^ 8 + tile.val * 2 ^ 16) = w0
  obtain ⟨x0, x6, x8, x14, x16, x17, x24, x27, x29⟩ := text_fields (w := w0) (ta := ta.val) (tb := tb.val) (ti := tile.val) (v := 0) (hx.symm.trans (congrArg _ (by omega))) (by omega) (by omega) (by omega) (by omega)
  simp only [decode62, x0, x6, x8, x14, x16, x17, x24, x29, fin_ofNat_val] <;> rfl

theorem drainA : Statement (.drainA) := fun _ _ => (decode63_eq _ rfl).trans rfl

theorem drainB : Statement (.drainB) := fun _ _ => (decode63_eq _ rfl).trans rfl

theorem bankMergeAb : Statement (.bankMergeAb) := fun _ _ => (decode63_eq _ rfl).trans rfl

theorem bankMergeBa : Statement (.bankMergeBa) := fun _ _ => (decode63_eq _ rfl).trans rfl

theorem accMerge (a : Reg) (tile : Fin 2) : Statement (.accMerge a tile) := fun _ _ => by
  refine (decode63_eq { len := 2, major := 99, a := a, fn := 4, ext := BitVec.ofNat 64 (tile.val * 2 ^ 16) } rfl).trans ?_
  have := tile.isLt
  generalize hx : BitVec.ofNat 64 (tile.val * 2 ^ 16) = w0
  obtain ⟨x0, x6, x8, x14, x16, x17, x24, x27, x29⟩ := text_fields (w := w0) (ta := 0) (tb := 0) (ti := tile.val) (v := 0) (hx.symm.trans (congrArg _ (by omega))) (by omega) (by omega) (by omega) (by omega)
  simp only [decode63, x0, x6, x8, x14, x16, x17, x24, x29, fin_ofNat_val] <;> rfl

theorem accClrF (tile : Fin 2) : Statement (.accClrF tile) := fun _ _ => by
  refine (decode64_eq { len := 2, major := 100, ext := BitVec.ofNat 64 (tile.val * 2 ^ 16) } rfl).trans ?_
  have := tile.isLt
  generalize hx : BitVec.ofNat 64 (tile.val * 2 ^ 16) = w0
  obtain ⟨x0, x6, x8, x14, x16, x17, x24, x27, x29⟩ := text_fields (w := w0) (ta := 0) (tb := 0) (ti := tile.val) (v := 0) (hx.symm.trans (congrArg _ (by omega))) (by omega) (by omega) (by omega) (by omega)
  simp only [decode64, x0, x6, x8, x14, x16, x17, x24, x29, fin_ofNat_val] <;> rfl

theorem accClrX (ta : Fin 64) (tb : Fin 64) (tile : Fin 2) : Statement (.accClrX ta tb tile) := fun _ _ => by
  refine (decode64_eq { len := 2, major := 100, fn := 1, ext := BitVec.ofNat 64 (ta.val + tb.val * 2 ^ 8 + tile.val * 2 ^ 16) } rfl).trans ?_
  have := ta.isLt
  have := tb.isLt
  have := tile.isLt
  generalize hx : BitVec.ofNat 64 (ta.val + tb.val * 2 ^ 8 + tile.val * 2 ^ 16) = w0
  obtain ⟨x0, x6, x8, x14, x16, x17, x24, x27, x29⟩ := text_fields (w := w0) (ta := ta.val) (tb := tb.val) (ti := tile.val) (v := 0) (hx.symm.trans (congrArg _ (by omega))) (by omega) (by omega) (by omega) (by omega)
  simp only [decode64, x0, x6, x8, x14, x16, x17, x24, x29, fin_ofNat_val] <;> rfl

theorem accCvt (ta : Fin 64) (tile : Fin 2) : Statement (.accCvt ta tile) := fun _ _ => by
  refine (decode64_eq { len := 2, major := 100, fn := 2, ext := BitVec.ofNat 64 (ta.val + tile.val * 2 ^ 16) } rfl).trans ?_
  have := ta.isLt
  have := tile.isLt
  generalize hx : BitVec.ofNat 64 (ta.val + tile.val * 2 ^ 16) = w0
  obtain ⟨x0, x6, x8, x14, x16, x17, x24, x27, x29⟩ := text_fields (w := w0) (ta := ta.val) (tb := 0) (ti := tile.val) (v := 0) (hx.symm.trans (congrArg _ (by omega))) (by omega) (by omega) (by omega) (by omega)
  simp only [decode64, x0, x6, x8, x14, x16, x17, x24, x29, fin_ofNat_val] <;> rfl

theorem accSt (a : Reg) (tile : Fin 2) : Statement (.accSt a tile) := fun _ _ => by
  refine (decode64_eq { len := 2, major := 100, a := a, fn := 3, ext := BitVec.ofNat 64 (tile.val * 2 ^ 16) } rfl).trans ?_
  have := tile.isLt
  generalize hx : BitVec.ofNat 64 (tile.val * 2 ^ 16) = w0
  obtain ⟨x0, x6, x8, x14, x16, x17, x24, x27, x29⟩ := text_fields (w := w0) (ta := 0) (tb := 0) (ti := tile.val) (v := 0) (hx.symm.trans (congrArg _ (by omega))) (by omega) (by omega) (by omega) (by omega)
  simp only [decode64, x0, x6, x8, x14, x16, x17, x24, x29, fin_ofNat_val] <;> rfl

theorem accLd (a : Reg) (tile : Fin 2) : Statement (.accLd a tile) := fun _ _ => by
  refine (decode64_eq { len := 2, major := 100, a := a, fn := 4, ext := BitVec.ofNat 64 (tile.val * 2 ^ 16) } rfl).trans ?_
  have := tile.isLt
  generalize hx : BitVec.ofNat 64 (tile.val * 2 ^ 16) = w0
  obtain ⟨x0, x6, x8, x14, x16, x17, x24, x27, x29⟩ := text_fields (w := w0) (ta := 0) (tb := 0) (ti := tile.val) (v := 0) (hx.symm.trans (congrArg _ (by omega))) (by omega) (by omega) (by omega) (by omega)
  simp only [decode64, x0, x6, x8, x14, x16, x17, x24, x29, fin_ofNat_val] <;> rfl

theorem wbLd (ta : Fin 64) (tb : Fin 64) : Statement (.wbLd ta tb) := fun _ _ => by
  refine (decode65_eq { len := 2, major := 101, ext := BitVec.ofNat 64 (ta.val + tb.val * 2 ^ 8) } rfl).trans ?_
  have := ta.isLt
  have := tb.isLt
  generalize hx : BitVec.ofNat 64 (ta.val + tb.val * 2 ^ 8) = w0
  obtain ⟨x0, x6, x8, x14, x16, x17, x24, x27, x29⟩ := text_fields (w := w0) (ta := ta.val) (tb := tb.val) (ti := 0) (v := 0) (hx.symm.trans (congrArg _ (by omega))) (by omega) (by omega) (by omega) (by omega)
  simp only [decode65, x0, x6, x8, x14, x16, x17, x24, x29, fin_ofNat_val] <;> rfl

theorem compress (ta : Fin 64) (tb : Fin 64) : Statement (.compress ta tb) := fun _ _ => by
  refine (decode66_eq { len := 2, major := 102, ext := BitVec.ofNat 64 (ta.val + tb.val * 2 ^ 8) } rfl).trans ?_
  have := ta.isLt
  have := tb.isLt
  generalize hx : BitVec.ofNat 64 (ta.val + tb.val * 2 ^ 8) = w0
  obtain ⟨x0, x6, x8, x14, x16, x17, x24, x27, x29⟩ := text_fields (w := w0) (ta := ta.val) (tb := tb.val) (ti := 0) (v := 0) (hx.symm.trans (congrArg _ (by omega))) (by omega) (by omega) (by omega) (by omega)
  simp only [decode66, x0, x6, x8, x14, x16, x17, x24, x29, fin_ofNat_val] <;> rfl

theorem msave (a : Reg) (mask : BitVec 5) : Statement (.msave a mask) := fun _ _ => by
  refine (decode67_eq { len := 2, major := 103, a := a, ext := BitVec.ofNat 64 (mask.toNat * 2 ^ 24) } rfl).trans ?_
  have := mask.isLt
  generalize hx : BitVec.ofNat 64 (mask.toNat * 2 ^ 24) = w0
  obtain ⟨x0, x6, x8, x14, x16, x17, x24, x27, x29⟩ := text_fields (w := w0) (ta := 0) (tb := 0) (ti := 0) (v := mask.toNat) (hx.symm.trans (congrArg _ (by omega))) (by omega) (by omega) (by omega) (by omega)
  have g1 : BitVec.ofNat 5 (fld w0.toNat 24 5) = mask := by apply BitVec.eq_of_toNat_eq; rw [BitVec.toNat_ofNat]; omega
  simp only [decode67, x0, x6, x8, x14, x16, x17, x24, x29, g1, fin_ofNat_val, bv_ofNat_toNat] <;> rfl

theorem mrestore (a : Reg) (mask : BitVec 5) : Statement (.mrestore a mask) := fun _ _ => by
  refine (decode67_eq { len := 2, major := 103, a := a, fn := 1, ext := BitVec.ofNat 64 (mask.toNat * 2 ^ 24) } rfl).trans ?_
  have := mask.isLt
  generalize hx : BitVec.ofNat 64 (mask.toNat * 2 ^ 24) = w0
  obtain ⟨x0, x6, x8, x14, x16, x17, x24, x27, x29⟩ := text_fields (w := w0) (ta := 0) (tb := 0) (ti := 0) (v := mask.toNat) (hx.symm.trans (congrArg _ (by omega))) (by omega) (by omega) (by omega) (by omega)
  have g1 : BitVec.ofNat 5 (fld w0.toNat 24 5) = mask := by apply BitVec.eq_of_toNat_eq; rw [BitVec.toNat_ofNat]; omega
  simp only [decode67, x0, x6, x8, x14, x16, x17, x24, x29, g1, fin_ofNat_val, bv_ofNat_toNat] <;> rfl

theorem cpStart (n : Fin 4) (d : Reg) (a : Reg) (b : Reg) : Statement (.cpStart n d a b) := fun _ _ => by
  refine (decode70_eq { len := 0, major := 112, d := d, a := a, b := b, fn := Fin.ofNat 256 (0 * 4 + n.val) } rfl).trans ?_
  have := n.isLt
  generalize hf : Fin.ofNat 256 (0 * 4 + n.val) = f
  have hfv : f.val = (0 * 4 + n.val) := by rw [← hf, Fin.val_ofNat] <;> omega
  clear hf
  have g1 : f.val / 4 = 0 := by omega
  have g2 : Fin.ofNat 4 f.val = n := by apply Fin.ext; rw [Fin.val_ofNat]; omega
  simp only [decode70, g1, g2, fin_ofNat_val] <;> rfl

theorem cpWaitge (n : Fin 4) (d : Reg) (a : Reg) : Statement (.cpWaitge n d a) := fun _ _ => by
  refine (decode70_eq { len := 0, major := 112, d := d, a := a, fn := Fin.ofNat 256 (1 * 4 + n.val) } rfl).trans ?_
  have := n.isLt
  generalize hf : Fin.ofNat 256 (1 * 4 + n.val) = f
  have hfv : f.val = (1 * 4 + n.val) := by rw [← hf, Fin.val_ofNat] <;> omega
  clear hf
  have g1 : f.val / 4 = 1 := by omega
  have g2 : Fin.ofNat 4 f.val = n := by apply Fin.ext; rw [Fin.val_ofNat]; omega
  simp only [decode70, g1, g2, fin_ofNat_val] <;> rfl

theorem cpWp (n : Fin 4) (d : Reg) : Statement (.cpWp n d) := fun _ _ => by
  refine (decode70_eq { len := 0, major := 112, d := d, fn := Fin.ofNat 256 (2 * 4 + n.val) } rfl).trans ?_
  have := n.isLt
  generalize hf : Fin.ofNat 256 (2 * 4 + n.val) = f
  have hfv : f.val = (2 * 4 + n.val) := by rw [← hf, Fin.val_ofNat] <;> omega
  clear hf
  have g1 : f.val / 4 = 2 := by omega
  have g2 : Fin.ofNat 4 f.val = n := by apply Fin.ext; rw [Fin.val_ofNat]; omega
  simp only [decode70, g1, g2, fin_ofNat_val] <;> rfl

theorem cpStat (n : Fin 4) (d : Reg) : Statement (.cpStat n d) := fun _ _ => by
  refine (decode70_eq { len := 0, major := 112, d := d, fn := Fin.ofNat 256 (3 * 4 + n.val) } rfl).trans ?_
  have := n.isLt
  generalize hf : Fin.ofNat 256 (3 * 4 + n.val) = f
  have hfv : f.val = (3 * 4 + n.val) := by rw [← hf, Fin.val_ofNat] <;> omega
  clear hf
  have g1 : f.val / 4 = 3 := by omega
  have g2 : Fin.ofNat 4 f.val = n := by apply Fin.ext; rw [Fin.val_ofNat]; omega
  simp only [decode70, g1, g2, fin_ofNat_val] <;> rfl

theorem cpStop (n : Fin 4) : Statement (.cpStop n) := fun _ _ => by
  refine (decode70_eq { len := 0, major := 112, fn := Fin.ofNat 256 (4 * 4 + n.val) } rfl).trans ?_
  have := n.isLt
  generalize hf : Fin.ofNat 256 (4 * 4 + n.val) = f
  have hfv : f.val = (4 * 4 + n.val) := by rw [← hf, Fin.val_ofNat] <;> omega
  clear hf
  have g1 : f.val / 4 = 4 := by omega
  have g2 : Fin.ofNat 4 f.val = n := by apply Fin.ext; rw [Fin.val_ofNat]; omega
  simp only [decode70, g1, g2, fin_ofNat_val] <;> rfl

theorem cpResume (n : Fin 4) : Statement (.cpResume n) := fun _ _ => by
  refine (decode70_eq { len := 0, major := 112, fn := Fin.ofNat 256 (5 * 4 + n.val) } rfl).trans ?_
  have := n.isLt
  generalize hf : Fin.ofNat 256 (5 * 4 + n.val) = f
  have hfv : f.val = (5 * 4 + n.val) := by rw [← hf, Fin.val_ofNat] <;> omega
  clear hf
  have g1 : f.val / 4 = 5 := by omega
  have g2 : Fin.ofNat 4 f.val = n := by apply Fin.ext; rw [Fin.val_ofNat]; omega
  simp only [decode70, g1, g2, fin_ofNat_val] <;> rfl

theorem distSet (a : Reg) : Statement (.distSet a) := fun _ _ => (decode71_eq _ rfl).trans rfl

theorem distGo (d : Reg) (a : Reg) (b : Reg) : Statement (.distGo d a b) := fun _ _ => (decode71_eq _ rfl).trans rfl

theorem distStat (d : Reg) : Statement (.distStat d) := fun _ _ => (decode71_eq _ rfl).trans rfl

theorem distResume : Statement (.distResume) := fun _ _ => (decode71_eq _ rfl).trans rfl

theorem sfuExp2 (ty : ElType) (m : Reg) (d : Reg) (a : Reg) : Statement (.sfuExp2 ty m d a) := fun _ _ => by
  refine (decode72_eq { len := 2, major := 114, d := d, a := a, fn := Fin.ofNat 256 (ty.code * 32 + m.val) } rfl).trans ?_
  have := ty.code_lt
  have := m.isLt
  simp only [decode72, vfn_hi, vfn_lo, ElType.ofCode_code, fin_ofNat_val] <;> rfl

theorem sfuLog2 (ty : ElType) (m : Reg) (d : Reg) (a : Reg) : Statement (.sfuLog2 ty m d a) := fun _ _ => by
  refine (decode72_eq { len := 2, major := 114, d := d, a := a, fn := Fin.ofNat 256 (ty.code * 32 + m.val), ext := 1 } rfl).trans ?_
  have := ty.code_lt
  have := m.isLt
  simp only [decode72, vfn_hi, vfn_lo, ElType.ofCode_code, fin_ofNat_val] <;> rfl

theorem sfuRcp (ty : ElType) (m : Reg) (d : Reg) (a : Reg) : Statement (.sfuRcp ty m d a) := fun _ _ => by
  refine (decode72_eq { len := 2, major := 114, d := d, a := a, fn := Fin.ofNat 256 (ty.code * 32 + m.val), ext := 2 } rfl).trans ?_
  have := ty.code_lt
  have := m.isLt
  simp only [decode72, vfn_hi, vfn_lo, ElType.ofCode_code, fin_ofNat_val] <;> rfl

theorem sfuRsqrt (ty : ElType) (m : Reg) (d : Reg) (a : Reg) : Statement (.sfuRsqrt ty m d a) := fun _ _ => by
  refine (decode72_eq { len := 2, major := 114, d := d, a := a, fn := Fin.ofNat 256 (ty.code * 32 + m.val), ext := 3 } rfl).trans ?_
  have := ty.code_lt
  have := m.isLt
  simp only [decode72, vfn_hi, vfn_lo, ElType.ofCode_code, fin_ofNat_val] <;> rfl

theorem sfuSqrt (ty : ElType) (m : Reg) (d : Reg) (a : Reg) : Statement (.sfuSqrt ty m d a) := fun _ _ => by
  refine (decode72_eq { len := 2, major := 114, d := d, a := a, fn := Fin.ofNat 256 (ty.code * 32 + m.val), ext := 4 } rfl).trans ?_
  have := ty.code_lt
  have := m.isLt
  simp only [decode72, vfn_hi, vfn_lo, ElType.ofCode_code, fin_ofNat_val] <;> rfl

theorem sfuSin (ty : ElType) (m : Reg) (d : Reg) (a : Reg) : Statement (.sfuSin ty m d a) := fun _ _ => by
  refine (decode72_eq { len := 2, major := 114, d := d, a := a, fn := Fin.ofNat 256 (ty.code * 32 + m.val), ext := 5 } rfl).trans ?_
  have := ty.code_lt
  have := m.isLt
  simp only [decode72, vfn_hi, vfn_lo, ElType.ofCode_code, fin_ofNat_val] <;> rfl

theorem sfuCos (ty : ElType) (m : Reg) (d : Reg) (a : Reg) : Statement (.sfuCos ty m d a) := fun _ _ => by
  refine (decode72_eq { len := 2, major := 114, d := d, a := a, fn := Fin.ofNat 256 (ty.code * 32 + m.val), ext := 6 } rfl).trans ?_
  have := ty.code_lt
  have := m.isLt
  simp only [decode72, vfn_hi, vfn_lo, ElType.ofCode_code, fin_ofNat_val] <;> rfl

theorem sfuTanh (ty : ElType) (m : Reg) (d : Reg) (a : Reg) : Statement (.sfuTanh ty m d a) := fun _ _ => by
  refine (decode72_eq { len := 2, major := 114, d := d, a := a, fn := Fin.ofNat 256 (ty.code * 32 + m.val), ext := 7 } rfl).trans ?_
  have := ty.code_lt
  have := m.isLt
  simp only [decode72, vfn_hi, vfn_lo, ElType.ofCode_code, fin_ofNat_val] <;> rfl

theorem sfuSigm (ty : ElType) (m : Reg) (d : Reg) (a : Reg) : Statement (.sfuSigm ty m d a) := fun _ _ => by
  refine (decode72_eq { len := 2, major := 114, d := d, a := a, fn := Fin.ofNat 256 (ty.code * 32 + m.val), ext := 8 } rfl).trans ?_
  have := ty.code_lt
  have := m.isLt
  simp only [decode72, vfn_hi, vfn_lo, ElType.ofCode_code, fin_ofNat_val] <;> rfl

theorem sfuErf (ty : ElType) (m : Reg) (d : Reg) (a : Reg) : Statement (.sfuErf ty m d a) := fun _ _ => by
  refine (decode72_eq { len := 2, major := 114, d := d, a := a, fn := Fin.ofNat 256 (ty.code * 32 + m.val), ext := 9 } rfl).trans ?_
  have := ty.code_lt
  have := m.isLt
  simp only [decode72, vfn_hi, vfn_lo, ElType.ofCode_code, fin_ofNat_val] <;> rfl

theorem qinj (a : Reg) (b : Reg) : Statement (.qinj a b) := fun _ _ => (decode38_eq _ rfl).trans rfl

theorem qinjRel (a : Reg) (b : Reg) : Statement (.qinjRel a b) := fun _ _ => (decode38_eq _ rfl).trans rfl

theorem qrcv (a : Reg) : Statement (.qrcv a) := fun _ _ => (decode38_eq _ rfl).trans rfl

theorem qpoll (d : Reg) (a : Reg) : Statement (.qpoll d a) := fun _ _ => (decode38_eq _ rfl).trans rfl

theorem qcnt (d : Reg) : Statement (.qcnt d) := fun _ _ => (decode38_eq _ rfl).trans rfl

theorem rld (tag : Fin 8) (sz : Size) (acq : Bool) (a : Reg) (b : Reg) : Statement (.rld tag sz acq a b) := fun _ _ => by
  refine (decode39_eq { len := 2, major := 57, a := a, b := b, ext := BitVec.ofNat 64 (tag.val * 2 ^ 8 + sz.code * 2 ^ 16 + bit acq * 2 ^ 18) } rfl).trans ?_
  have := tag.isLt
  have := sz.code_lt
  have := bit_lt acq
  generalize hx : BitVec.ofNat 64 (tag.val * 2 ^ 8 + sz.code * 2 ^ 16 + bit acq * 2 ^ 18) = w
  have hw : w.toNat = (tag.val * 2 ^ 8 + sz.code * 2 ^ 16 + bit acq * 2 ^ 18) := by rw [← hx, BitVec.toNat_ofNat]; omega
  have x0_8 : fld w.toNat 0 8 = 0 := by unfold fld; omega
  have x8_3 : fld w.toNat 8 3 = tag.val := by unfold fld; omega
  have x11_5 : fld w.toNat 11 5 = 0 := by unfold fld; omega
  have x16_2 : fld w.toNat 16 2 = sz.code := by unfold fld; omega
  have x18_1 : fld w.toNat 18 1 = bit acq := by unfold fld; omega
  have x19_45 : fld w.toNat 19 45 = 0 := by unfold fld; omega
  simp only [decode39, x0_8, x8_3, x11_5, x16_2, x18_1, x19_45, fin_ofNat_val, Size.ofCode_code, bit_beq_one] <;> rfl

theorem rst (sz : Size) (rel : Bool) (d : Reg) (a : Reg) (b : Reg) : Statement (.rst sz rel d a b) := fun _ _ => by
  refine (decode39_eq { len := 2, major := 57, d := d, a := a, b := b, fn := 2, ext := BitVec.ofNat 64 (sz.code * 2 ^ 16 + bit rel * 2 ^ 19) } rfl).trans ?_
  have := sz.code_lt
  have := bit_lt rel
  generalize hx : BitVec.ofNat 64 (sz.code * 2 ^ 16 + bit rel * 2 ^ 19) = w
  have hw : w.toNat = (sz.code * 2 ^ 16 + bit rel * 2 ^ 19) := by rw [← hx, BitVec.toNat_ofNat]; omega
  have x0_16 : fld w.toNat 0 16 = 0 := by unfold fld; omega
  have x16_2 : fld w.toNat 16 2 = sz.code := by unfold fld; omega
  have x18_1 : fld w.toNat 18 1 = 0 := by unfold fld; omega
  have x19_1 : fld w.toNat 19 1 = bit rel := by unfold fld; omega
  have x20_44 : fld w.toNat 20 44 = 0 := by unfold fld; omega
  simp only [decode39, x0_16, x16_2, x18_1, x19_1, x20_44, Size.ofCode_code, bit_beq_one, fin_ofNat_val] <;> rfl

theorem ratom (op : AtomOp) (tag : Fin 8) (sz : Size) (o : MemOrd) (d : Reg) (a : Reg) (b : Reg) : Statement (.ratom op tag sz o d a b) := fun _ _ => by
  refine (decode39_eq { len := 2, major := 57, d := d, a := a, b := b, fn := 3, ext := BitVec.ofNat 64 (tag.val * 2 ^ 8 + sz.code * 2 ^ 16 + o.code * 2 ^ 18 + op.code * 2 ^ 21) } rfl).trans ?_
  have := op.code_lt
  have := tag.isLt
  have := sz.code_lt
  have := o.code_lt
  generalize hx : BitVec.ofNat 64 (tag.val * 2 ^ 8 + sz.code * 2 ^ 16 + o.code * 2 ^ 18 + op.code * 2 ^ 21) = w
  have hw : w.toNat = (tag.val * 2 ^ 8 + sz.code * 2 ^ 16 + o.code * 2 ^ 18 + op.code * 2 ^ 21) := by rw [← hx, BitVec.toNat_ofNat]; omega
  have x0_8 : fld w.toNat 0 8 = 0 := by unfold fld; omega
  have x8_3 : fld w.toNat 8 3 = tag.val := by unfold fld; omega
  have x11_5 : fld w.toNat 11 5 = 0 := by unfold fld; omega
  have x16_2 : fld w.toNat 16 2 = sz.code := by unfold fld; omega
  have x18_2 : fld w.toNat 18 2 = o.code := by unfold fld; omega
  have x20_1 : fld w.toNat 20 1 = 0 := by unfold fld; omega
  have x21_3 : fld w.toNat 21 3 = op.code := by unfold fld; omega
  have x24_40 : fld w.toNat 24 40 = 0 := by unfold fld; omega
  simp only [decode39, x0_8, x8_3, x11_5, x16_2, x18_2, x20_1, x21_3, x24_40, AtomOp.ofCode_code, fin_ofNat_val, Size.ofCode_code, MemOrd.ofCode_code] <;> rfl

theorem ratomCas (tag : Fin 8) (sz : Size) (o : MemOrd) (d : Reg) (a : Reg) (b : Reg) : Statement (.ratomCas tag sz o d a b) := fun _ _ => by
  refine (decode39_eq { len := 2, major := 57, d := d, a := a, b := b, fn := 3, ext := BitVec.ofNat 64 (tag.val * 2 ^ 8 + sz.code * 2 ^ 16 + o.code * 2 ^ 18 + 2 ^ 20) } rfl).trans ?_
  have := tag.isLt
  have := sz.code_lt
  have := o.code_lt
  generalize hx : BitVec.ofNat 64 (tag.val * 2 ^ 8 + sz.code * 2 ^ 16 + o.code * 2 ^ 18 + 2 ^ 20) = w
  have hw : w.toNat = (tag.val * 2 ^ 8 + sz.code * 2 ^ 16 + o.code * 2 ^ 18 + 2 ^ 20) := by rw [← hx, BitVec.toNat_ofNat]; omega
  have x0_8 : fld w.toNat 0 8 = 0 := by unfold fld; omega
  have x8_3 : fld w.toNat 8 3 = tag.val := by unfold fld; omega
  have x11_5 : fld w.toNat 11 5 = 0 := by unfold fld; omega
  have x16_2 : fld w.toNat 16 2 = sz.code := by unfold fld; omega
  have x18_2 : fld w.toNat 18 2 = o.code := by unfold fld; omega
  have x21_43 : fld w.toNat 21 43 = 0 := by unfold fld; omega
  have z : ¬ (fld w.toNat 20 1 = 0) := by unfold fld; omega
  simp only [decode39, x0_8, x8_3, x11_5, x16_2, x18_2, x21_43, z, and_false, if_false, fin_ofNat_val, Size.ofCode_code, MemOrd.ofCode_code] <;> rfl

theorem rwait (d : Reg) (n : Fin 8) : Statement (.rwait d n) := fun _ _ => by
  refine (decode39_eq { len := 0, major := 57, d := d, a := Fin.ofNat 32 (n.val), fn := 4 } rfl).trans ?_
  have := n.isLt
  generalize ha0 : Fin.ofNat 32 (n.val) = a0
  have ha0v : a0.val = (n.val) := by rw [← ha0, Fin.val_ofNat] <;> omega
  clear ha0
  have g1 : Fin.ofNat 8 a0.val = n := by apply Fin.ext; rw [Fin.val_ofNat]; omega
  have z : a0.val < 8 := by omega
  simp only [decode39, g1, z, fin_ofNat_val] <;> rfl

theorem bulkWr (tag : Option (Fin 8)) (d : Reg) (a : Reg) (b : Reg) (c : Reg) : Statement (.bulkWr tag d a b c) := fun _ _ => by
  refine (decode3A_eq { len := 2, major := 58, d := d, a := a, b := b, fn := Fin.ofNat 256 (c.val), ext := BitVec.ofNat 64 (bulkTag tag) } rfl).trans ?_
  have := c.isLt
  generalize hf : Fin.ofNat 256 (c.val) = f
  have hfv : f.val = (c.val) := by rw [← hf, Fin.val_ofNat] <;> omega
  generalize hx : BitVec.ofNat 64 (bulkTag tag) = w
  have g1 : f.val / 32 = 0 := by omega
  have g2 : Fin.ofNat 32 f.val = c := by apply Fin.ext; rw [Fin.val_ofNat]; omega
  cases tag with
  | none =>
    subst hx
    simp only [decode3A, g1, g2] <;> rfl
  | some n =>
    have := n.isLt
    have hw : w.toNat = n.val + 2 ^ 7 := by
      rw [← hx, BitVec.toNat_ofNat]
      show (n.val + 2 ^ 7) % 2 ^ 64 = n.val + 2 ^ 7
      omega
    have x3 : fld w.toNat 3 4 = 0 := by unfold fld; omega
    have x8 : fld w.toNat 8 56 = 0 := by unfold fld; omega
    have x7 : fld w.toNat 7 1 = 1 := by unfold fld; omega
    have g3 : Fin.ofNat 8 w.toNat = n := by apply Fin.ext; rw [Fin.val_ofNat]; omega
    simp only [decode3A, g1, g2, g3, x3, x8, x7] <;> rfl

theorem bulkRd (tag : Fin 8) (d : Reg) (a : Reg) (b : Reg) (c : Reg) : Statement (.bulkRd tag d a b c) := fun _ _ => by
  refine (decode3A_eq { len := 2, major := 58, d := d, a := a, b := b, fn := Fin.ofNat 256 (32 + c.val), ext := BitVec.ofNat 64 (tag.val + 2 ^ 7) } rfl).trans ?_
  have := tag.isLt
  have := c.isLt
  generalize hf : Fin.ofNat 256 (32 + c.val) = f
  have hfv : f.val = (32 + c.val) := by rw [← hf, Fin.val_ofNat] <;> omega
  clear hf
  generalize hx : BitVec.ofNat 64 (tag.val + 2 ^ 7) = w
  have hw : w.toNat = (tag.val + 2 ^ 7) := by rw [← hx, BitVec.toNat_ofNat]; omega
  have x3_4 : fld w.toNat 3 4 = 0 := by unfold fld; omega
  have x7_1 : fld w.toNat 7 1 = 1 := by unfold fld; omega
  have x8_56 : fld w.toNat 8 56 = 0 := by unfold fld; omega
  have g1 : f.val / 32 = 1 := by omega
  have g2 : Fin.ofNat 8 w.toNat = tag := by apply Fin.ext; rw [Fin.val_ofNat]; omega
  have g3 : Fin.ofNat 32 f.val = c := by apply Fin.ext; rw [Fin.val_ofNat]; omega
  simp only [decode3A, x3_4, x7_1, x8_56, g1, g2, g3, fin_ofNat_val] <;> rfl

theorem rankMe (d : Reg) : Statement (.rankMe d) := fun _ _ => (decode3B_eq _ rfl).trans rfl

theorem rankRd (d : Reg) (a : Reg) : Statement (.rankRd d a) := fun _ _ => (decode3B_eq _ rfl).trans rfl

theorem rbind (d : Reg) (a : Reg) (b : Reg) : Statement (.rbind d a b) := fun _ _ => (decode3B_eq _ rfl).trans rfl

theorem tagGnt (a : Reg) (b : Reg) : Statement (.tagGnt a b) := fun _ _ => (decode78_eq _ rfl).trans rfl

theorem tagGntd (a : Reg) (b : Reg) : Statement (.tagGntd a b) := fun _ _ => (decode78_eq _ rfl).trans rfl

theorem tagRcl (a : Reg) (b : Reg) : Statement (.tagRcl a b) := fun _ _ => (decode78_eq _ rfl).trans rfl

theorem dirWr : Statement (.dirWr) := fun _ _ => (decode79_eq _ rfl).trans rfl

theorem dirShadd (a : Reg) : Statement (.dirShadd a) := fun _ _ => (decode79_eq _ rfl).trans rfl

theorem dirShdel (a : Reg) : Statement (.dirShdel a) := fun _ _ => (decode79_eq _ rfl).trans rfl

theorem msgSend (a : Reg) (b : Reg) : Statement (.msgSend a b) := fun _ _ => (decode7A_eq _ rfl).trans rfl

theorem msgMcast (d : Reg) (a : Reg) (b : Reg) : Statement (.msgMcast d a b) := fun _ _ => (decode7A_eq _ rfl).trans rfl

theorem btRd (a : Reg) (b : Reg) : Statement (.btRd a b) := fun _ _ => (decode7A_eq _ rfl).trans rfl

theorem btWr (a : Reg) (b : Reg) : Statement (.btWr a b) := fun _ _ => (decode7A_eq _ rfl).trans rfl

theorem btMrg (a : Reg) (b : Reg) : Statement (.btMrg a b) := fun _ _ => (decode7A_eq _ rfl).trans rfl

theorem hend : Statement (.hend) := fun _ _ => (decode7B_eq _ rfl).trans rfl

theorem hfail (a : Reg) (b : Reg) : Statement (.hfail a b) := fun _ _ => (decode7B_eq _ rfl).trans rfl

theorem biasRd (d : Reg) (a : Reg) : Statement (.biasRd d a) := fun _ _ => (decode7B_eq _ rfl).trans rfl

theorem biasWr (a : Reg) (b : Reg) : Statement (.biasWr a b) := fun _ _ => (decode7B_eq _ rfl).trans rfl

theorem biSnp (b : Reg) : Statement (.biSnp b) := fun _ _ => (decode7B_eq _ rfl).trans rfl

theorem lsSplitWrite (t : Nat) : Statement (.lsSplitWrite t) := fun h => nomatch h

theorem tensorOpStart (c : Nat) : Statement (.tensorOpStart c) := fun h => nomatch h

theorem tensorOpComplete (c : Nat) (wb : Bool) : Statement (.tensorOpComplete c wb) := fun h => nomatch h

theorem channelDelivery (c : Nat) (n : Fin 4) : Statement (.channelDelivery c n) := fun h => nomatch h

theorem channelStopped (c : Nat) (n : Fin 4) : Statement (.channelStopped c n) := fun h => nomatch h

theorem channelFault (c : Nat) (n : Fin 4) : Statement (.channelFault c n) := fun h => nomatch h

theorem distBlock (c : Nat) : Statement (.distBlock c) := fun h => nomatch h

theorem distBurstComplete (c : Nat) : Statement (.distBurstComplete c) := fun h => nomatch h

theorem sfuEntryComplete (c : Nat) : Statement (.sfuEntryComplete c) := fun h => nomatch h

theorem interruptTake (t : Nat) : Statement (.interruptTake t) := fun h => nomatch h

theorem remoteErrorTake (t : Nat) : Statement (.remoteErrorTake t) := fun h => nomatch h

theorem recordPop (c : Nat) : Statement (.recordPop c) := fun h => nomatch h

theorem dequeSpill (c : Nat) : Statement (.dequeSpill c) := fun h => nomatch h

theorem dequeRefill (c : Nat) : Statement (.dequeRefill c) := fun h => nomatch h

theorem stealSearch (c : Nat) : Statement (.stealSearch c) := fun h => nomatch h

theorem stealArrival (k : Nat) : Statement (.stealArrival k) := fun h => nomatch h

theorem undealtShareDeal (die : Nat) : Statement (.undealtShareDeal die) := fun h => nomatch h

theorem rangeTransfer (die : Nat) : Statement (.rangeTransfer die) := fun h => nomatch h

theorem barrierArrival (k : Nat) : Statement (.barrierArrival k) := fun h => nomatch h

theorem barrierRelease (k : Nat) : Statement (.barrierRelease k) := fun h => nomatch h

theorem pauseExpiry (t : Nat) : Statement (.pauseExpiry t) := fun h => nomatch h

theorem gets (k : Nat) : Statement (.gets k) := fun h => nomatch h

theorem getx (k : Nat) : Statement (.getx k) := fun h => nomatch h

theorem upg (k : Nat) : Statement (.upg k) := fun h => nomatch h

theorem putx (k : Nat) : Statement (.putx k) := fun h => nomatch h

theorem puts (k : Nat) : Statement (.puts k) := fun h => nomatch h

theorem putp (k : Nat) : Statement (.putp k) := fun h => nomatch h

theorem atom (k : Nat) : Statement (.atom k) := fun h => nomatch h

theorem apnd (k : Nat) : Statement (.apnd k) := fun h => nomatch h

theorem apndFill (k : Nat) : Statement (.apndFill k) := fun h => nomatch h

theorem arsv (k : Nat) : Statement (.arsv k) := fun h => nomatch h

theorem tailq (k : Nat) : Statement (.tailq k) := fun h => nomatch h

theorem sealqSeal (k : Nat) : Statement (.sealqSeal k) := fun h => nomatch h

theorem sealqFree (k : Nat) : Statement (.sealqFree k) := fun h => nomatch h

theorem replicateNotice (k : Nat) : Statement (.replicateNotice k) := fun h => nomatch h

theorem replicaCopyComplete (p : Nat) (page : Nat) : Statement (.replicaCopyComplete p page) := fun h => nomatch h

theorem replicaInvalidate (k : Nat) : Statement (.replicaInvalidate k) := fun h => nomatch h

theorem customMessage (k : Nat) : Statement (.customMessage k) := fun h => nomatch h

end Laws.Encoding

theorem Laws.Encoding.recall (k : Nat) : Laws.Encoding.Statement (.recall k) := fun h => nomatch h

namespace Laws.Encoding

theorem inv (k : Nat) : Statement (.inv k) := fun h => nomatch h

theorem push (k : Nat) : Statement (.push k) := fun h => nomatch h

theorem deferredRequestApply (c : Nat) (k : Nat) : Statement (.deferredRequestApply c k) := fun h => nomatch h

theorem dataS (k : Nat) : Statement (.dataS k) := fun h => nomatch h

theorem dataX (k : Nat) : Statement (.dataX k) := fun h => nomatch h

theorem ack (k : Nat) : Statement (.ack k) := fun h => nomatch h

theorem busy (k : Nat) : Statement (.busy k) := fun h => nomatch h

theorem retry (k : Nat) : Statement (.retry k) := fun h => nomatch h

theorem retryBackoffExpiry (c : Nat) (blk : Nat) : Statement (.retryBackoffExpiry c blk) := fun h => nomatch h

theorem fail (k : Nat) : Statement (.fail k) := fun h => nomatch h

theorem wbData (k : Nat) : Statement (.wbData k) := fun h => nomatch h

theorem invAck (k : Nat) : Statement (.invAck k) := fun h => nomatch h

theorem result (k : Nat) : Statement (.result k) := fun h => nomatch h

theorem handlerWatchdog (t : Nat) : Statement (.handlerWatchdog t) := fun h => nomatch h

theorem transientWatchdog (p : Nat) (blk : Nat) : Statement (.transientWatchdog p blk) := fun h => nomatch h

theorem queueMessage (p : Packet) : Statement (.queueMessage p) := fun h => nomatch h

theorem remoteLoad (p : Packet) : Statement (.remoteLoad p) := fun h => nomatch h

theorem remoteStore (p : Packet) : Statement (.remoteStore p) := fun h => nomatch h

theorem remoteAtomic (p : Packet) : Statement (.remoteAtomic p) := fun h => nomatch h

theorem valueReply (p : Packet) : Statement (.valueReply p) := fun h => nomatch h

theorem acknowledgement (p : Packet) : Statement (.acknowledgement p) := fun h => nomatch h

theorem bulkWriteData (p : Packet) : Statement (.bulkWriteData p) := fun h => nomatch h

theorem bulkReadRequest (p : Packet) : Statement (.bulkReadRequest p) := fun h => nomatch h

theorem bulkReadData (p : Packet) : Statement (.bulkReadData p) := fun h => nomatch h

theorem dropNotice (p : Packet) : Statement (.dropNotice p) := fun h => nomatch h

theorem reservationRequest (p : Packet) : Statement (.reservationRequest p) := fun h => nomatch h

theorem reservationGrant (p : Packet) : Statement (.reservationGrant p) := fun h => nomatch h

theorem reservedResend (k : Nat) : Statement (.reservedResend k) := fun h => nomatch h

theorem refusal (p : Packet) : Statement (.refusal p) := fun h => nomatch h

theorem failureReport (p : Packet) : Statement (.failureReport p) := fun h => nomatch h

theorem pageReadRequest (p : Packet) : Statement (.pageReadRequest p) := fun h => nomatch h

theorem pageExclusiveRequest (p : Packet) : Statement (.pageExclusiveRequest p) := fun h => nomatch h

theorem pageData (p : Packet) : Statement (.pageData p) := fun h => nomatch h

theorem pageRecall (p : Packet) : Statement (.pageRecall p) := fun h => nomatch h

theorem pageWriteBack (p : Packet) : Statement (.pageWriteBack p) := fun h => nomatch h

theorem pageAcknowledgement (p : Packet) : Statement (.pageAcknowledgement p) := fun h => nomatch h

theorem packetForward (p : Packet) (room : List Nat) : Statement (.packetForward p room) := fun h => nomatch h

theorem fabricResendTimeout (k : Nat) : Statement (.fabricResendTimeout k) := fun h => nomatch h

theorem linkFlitResend (link : Nat) : Statement (.linkFlitResend link) := fun h => nomatch h

theorem linkRetrain (port : Nat) : Statement (.linkRetrain port) := fun h => nomatch h

theorem hostGoResponse (pa : Nat) (data : Block) (excl : Bool) : Statement (.hostGoResponse pa data excl) := fun h => nomatch h

theorem snpinv (pa : Nat) : Statement (.snpinv pa) := fun h => nomatch h

theorem snpdata (pa : Nat) : Statement (.snpdata pa) := fun h => nomatch h

theorem snpcur (pa : Nat) : Statement (.snpcur pa) := fun h => nomatch h

theorem hostMemrd (pa : Nat) : Statement (.hostMemrd pa) := fun h => nomatch h

theorem hostMemwr (pa : Nat) (mask : Word) (data : Block) : Statement (.hostMemwr pa mask data) := fun h => nomatch h

theorem notifyWrite (fn : Nat) (m : Nat) (v : Word) : Statement (.notifyWrite fn m v) := fun h => nomatch h

theorem registerWrite (fn : Nat) (r : BarReg) (v : Word) : Statement (.registerWrite fn r v) := fun h => nomatch h

theorem partCfg (c : Cmd) (pa : Nat) : Statement (.partCfg c pa) := fun h => nomatch h

theorem partStart (c : Cmd) : Statement (.partStart c) := fun h => nomatch h

theorem partStop (c : Cmd) : Statement (.partStop c) := fun h => nomatch h

theorem regionBind (c : Cmd) (idx : Nat) (e : BitVec 256) : Statement (.regionBind c idx e) := fun h => nomatch h

theorem regionUnbind (c : Cmd) (idx : Nat) : Statement (.regionUnbind c idx) := fun h => nomatch h

theorem imageLoad (c : Cmd) (addr : Nat) (len : Nat) (mask : BitVec 128) : Statement (.imageLoad c addr len mask) := fun h => nomatch h

theorem routeLoad (c : Cmd) (dev : Nat) (es : List (Nat × BitVec 32)) : Statement (.routeLoad c dev es) := fun h => nomatch h

theorem rankWrite (c : Cmd) (es : List (Nat × BitVec 32)) : Statement (.rankWrite c es) := fun h => nomatch h

theorem contract (c : Cmd) (e : BitVec 256) : Statement (.contract c e) := fun h => nomatch h

theorem launch (c : Cmd) (recs : List (Word × Bool)) (ranges : List (Word × Word)) (quota : Nat) : Statement (.launch c recs ranges quota) := fun h => nomatch h

theorem launchSeed (part : Nat) : Statement (.launchSeed part) := fun h => nomatch h

theorem deliver (c : Cmd) (m : Nat) (v : Word) (msg : BitVec 448) : Statement (.deliver c m v msg) := fun h => nomatch h

theorem preemptCmd (c : Cmd) (core : Nat) (slot : Nat) : Statement (.preemptCmd c core slot) := fun h => nomatch h

theorem ifenceCmd (c : Cmd) : Statement (.ifenceCmd c) := fun h => nomatch h

theorem pageReply (c : Cmd) (w : Word) : Statement (.pageReply c w) := fun h => nomatch h

theorem record (c : Cmd) (mode : Nat) (trace : Nat) (mbox : Nat) : Statement (.record c mode trace mbox) := fun h => nomatch h

theorem biasSet (c : Cmd) (page : Nat) (count : Nat) (host : Bool) : Statement (.biasSet c page count host) := fun h => nomatch h

theorem s2Inv (c : Cmd) (page : Word) : Statement (.s2Inv c page) := fun h => nomatch h

theorem mbxAssign (c : Cmd) (m : Nat) (e : MbxAssign) : Statement (.mbxAssign c m e) := fun h => nomatch h

theorem hdmCfg (c : Cmd) (base : Nat) (size : Nat) (table : Nat) : Statement (.hdmCfg c base size table) := fun h => nomatch h

theorem partExport (c : Cmd) (area : Nat) (size : Nat) : Statement (.partExport c area size) := fun h => nomatch h

theorem partImport (c : Cmd) (area : Nat) : Statement (.partImport c area) := fun h => nomatch h

theorem eventCfg (c : Cmd) (ring : Word) : Statement (.eventCfg c ring) := fun h => nomatch h

theorem partitionSwap (out : Nat) (inc : Nat) (reason : Nat) : Statement (.partitionSwap out inc reason) := fun h => nomatch h

theorem swapFlush (cl : Nat) : Statement (.swapFlush cl) := fun h => nomatch h

theorem swapExchange (cl : Nat) : Statement (.swapExchange cl) := fun h => nomatch h

theorem periodStart (part : Nat) : Statement (.periodStart part) := fun h => nomatch h

theorem budgetExhausted (part : Nat) : Statement (.budgetExhausted part) := fun h => nomatch h

theorem timeSliceExpiry (part : Nat) : Statement (.timeSliceExpiry part) := fun h => nomatch h

theorem partitionNoWork (part : Nat) : Statement (.partitionNoWork part) := fun h => nomatch h

theorem traceRingCopy (port : Nat) : Statement (.traceRingCopy port) := fun h => nomatch h

theorem replayDivergence (part : Nat) (port : Nat) : Statement (.replayDivergence part port) := fun h => nomatch h

theorem clusterClockGate (cl : Nat) : Statement (.clusterClockGate cl) := fun h => nomatch h

theorem clusterPowerGate (cl : Nat) : Statement (.clusterPowerGate cl) := fun h => nomatch h

theorem clusterWake (cl : Nat) : Statement (.clusterWake cl) := fun h => nomatch h

theorem powerOn (img : BootImage) : Statement (.powerOn img) := fun h => nomatch h

theorem fundamentalReset (img : BootImage) : Statement (.fundamentalReset img) := fun h => nomatch h

theorem hotReset (img : BootImage) : Statement (.hotReset img) := fun h => nomatch h

theorem bootReset (img : BootImage) : Statement (.bootReset img) := fun h => nomatch h

theorem d3hotEntry : Statement (.d3hotEntry) := fun h => nomatch h

theorem powerOff : Statement (.powerOff) := fun h => nomatch h

theorem attestRequest : Statement (.attestRequest) := fun h => nomatch h

theorem refresh (ctl : Nat) : Statement (.refresh ctl) := fun h => nomatch h

theorem recalibration (ctl : Nat) : Statement (.recalibration ctl) := fun h => nomatch h

theorem scrub (pa : Nat) (err : EccError) : Statement (.scrub pa err) := fun h => nomatch h

theorem throttleRaise : Statement (.throttleRaise) := fun h => nomatch h

theorem throttleLower : Statement (.throttleLower) := fun h => nomatch h

theorem thermalShutdown : Statement (.thermalShutdown) := fun h => nomatch h

theorem telemetrySample (t : Telemetry) : Statement (.telemetrySample t) := fun h => nomatch h

theorem illegalOpEncoding (w : BitVec 32) : Statement (.illegalOpEncoding w) := fun h => nomatch h

theorem memoryAccessReply (t : Nat) : Statement (.memoryAccessReply t) := fun h => nomatch h

theorem vectorBlockDelivery (t : Nat) : Statement (.vectorBlockDelivery t) := fun h => nomatch h

theorem tlbiCompletion (cl : Nat) : Statement (.tlbiCompletion cl) := fun h => nomatch h

theorem codeflushAcknowledgement (t : Nat) : Statement (.codeflushAcknowledgement t) := fun h => nomatch h

theorem cxlIoCompletion (t : Nat) : Statement (.cxlIoCompletion t) := fun h => nomatch h

theorem refusalBackoffResend (k : Nat) : Statement (.refusalBackoffResend k) := fun h => nomatch h

end Laws.Encoding

end Sys2Proof
end

