-- ==== Sys2Proof/Tests/Slice0.lean ====
section
/-! SUPPORT. Tests: ill-formed operands that each check of WellFormed refuses, words written out from the encodings of the spec, single
steps with results that the spec gives, and a state that meets the hypotheses of every obligation that has hypotheses (witness_…). -/

set_option Elab.async false

namespace Sys2Proof.Tests

open Sys2Proof.Machine

/-! ## Ill-formed operands (R36): each is refused beside a well-formed neighbour -/

theorem test_wf_field : (Instr.extu 1 2 1 63).wf = false ∧ (Instr.fins 1 2 63 1).wf = false ∧ (Instr.exts 1 2 0 63).wf = true ∧
    (Instr.extu 1 2 63 0).wf = true := by decide
theorem test_wf_header : (Instr.hdrGet 1 25 0 0).wf = false ∧ (Instr.hdrSet 0 1 0 0).wf = false ∧ (Instr.hdrGet 1 24 60 4).wf = false ∧
    (Instr.hdrMatch 1 24 2 511 0).wf = true ∧ (Instr.hdrClr 25).wf = false ∧ (Instr.hdrClr 24).wf = true := by decide
theorem test_wf_convert : (Instr.fcvt .i32 .n64 1 2).wf = false ∧ (Instr.fcvt .t8 .t8 1 2).wf = false ∧ (Instr.fcvt .t8 .f32 1 2).wf = true := by decide
theorem test_wf_load : (Instr.ld .d 1 2 ⟨.rel, .clu, 4⟩).wf = false ∧ (Instr.ld .d 1 2 ⟨.acq, .clu, 4⟩).wf = true ∧
    (Instr.lds .d 1 2 ⟨.rlx, .clu, 4⟩).wf = false ∧ (Instr.st .d 1 2 ⟨.acq, .clu, 4⟩).wf = false := by decide
theorem test_wf_index : (Instr.ldExt .d 1 2 ⟨.rlx, .clu, 4⟩ ⟨1, 0, 0⟩).wf = false ∧ (Instr.prefExt 1 2 4 ⟨1, 0, 0⟩).wf = false ∧
    (Instr.ldExt .d 1 2 ⟨.rlx, .clu, 4⟩ ⟨1, 3, 0⟩).wf = true := by decide
theorem test_wf_atomic : (Instr.atomAdd .h 1 2 ⟨.rlx, .clu, 4⟩).wf = false ∧ (Instr.cas .d 0 2 ⟨.rlx, .clu, 4⟩).wf = false ∧
    (Instr.cas .d 31 2 ⟨.rlx, .clu, 4⟩).wf = false ∧ (Instr.cas .w 30 2 ⟨.rlx, .clu, 4⟩).wf = true := by decide
theorem test_wf_vector_type : (Instr.vaddX .f32 0 1 2 3 false true false).wf = false ∧ (Instr.vand .f16 0 1 2 3).wf = false ∧
    (Instr.vfma .i32 0 1 2 3).wf = false ∧ (Instr.sfuSin .i8 0 1 2).wf = false ∧ (Instr.vfma .t8 0 1 2 3).wf = true := by decide
theorem test_wf_vector_shift : (Instr.vslli .i8 0 1 2 8).wf = false ∧ (Instr.vslli .i8 0 1 2 7).wf = true ∧ (Instr.vsrai .f32 0 1 2 1).wf = false := by
  decide
theorem test_wf_vector_convert : (Instr.vcvt .i32 0 1 2).wf = false ∧ (Instr.vcvtX .i32 0 1 2 false true .f32 false 0).wf = false ∧
    (Instr.vcvtX .i8 0 1 2 false true .i32 false 4).wf = false ∧ (Instr.vcvtX .i8 0 1 2 false true .i32 false 3).wf = true := by decide
theorem test_wf_dot : (Instr.vdot .i32 0 1 2 3).wf = false ∧ (Instr.vdotX .t8 0 1 2 3 true false).wf = false ∧
    (Instr.vdotX .i8 0 1 2 3 true true).wf = true := by decide
theorem test_wf_lane : (Instr.vbcastl .f32 0 1 2 16).wf = false ∧ (Instr.vins .i64 1 2 8).wf = false ∧ (Instr.vextX .i64 1 true 2 7).wf = true := by decide
theorem test_wf_progress : (Instr.vld .i8 3 1 ⟨3, 4, .clu, .rlx, 5, 0⟩).wf = false ∧ (Instr.vld .i8 3 1 ⟨5, 4, .clu, .rlx, 5, 0⟩).wf = false ∧
    (Instr.vlds .i8 0 1 6 ⟨6, 4, .clu, .rlx, 5, 0⟩).wf = false ∧ (Instr.vld .i8 3 1 ⟨0, 4, .clu, .rlx, 5, 0⟩).wf = true := by decide
theorem test_wf_messages : (Instr.qinj 25 1).wf = false ∧ (Instr.qrcv 0).wf = false ∧ (Instr.qpoll 11 4).wf = false ∧ (Instr.qpoll 12 4).wf = true ∧
    (Instr.ratom .fadd 0 .d .rlx 1 2 3).wf = false ∧ (Instr.ratomCas 0 .d .rlx 31 2 3).wf = false := by decide

/-! ## Words written out from the encodings: the length code in bits [1:0], the major in [8:2], d [13:9], a [18:14], b [23:19], fn [31:24]
(R30), and above bit 31 the extension word -/

/-- A base word from its fields. -/
def word (len major d a b fn : Nat) : Nat := len + major * 2 ^ 2 + d * 2 ^ 9 + a * 2 ^ 14 + b * 2 ^ 19 + fn * 2 ^ 24

theorem test_decode_integer : decodeTableWord 32 (word 0 0x01 5 6 7 0x01) = some (.sub 5 6 7) ∧
    decodeTableWord 32 (word 0 0x02 5 6 7 0x04) = some (.div 5 6 7) ∧ decodeTableWord 32 (0x03 * 4 + 5 * 2 ^ 9 + 6 * 2 ^ 14 + 0x1FFF * 2 ^ 19) = some (.addi 5 6 (-1)) := by
  decide +kernel
theorem test_decode_bits : decodeTableWord 32 (word 0 0x06 4 5 0 0x02) = some (.popc 4 5) ∧
    decodeTableWord 32 (0x07 * 4 + 4 * 2 ^ 9 + 5 * 2 ^ 14 + 8 * 2 ^ 19 + 15 * 2 ^ 25 + 2 ^ 31) = some (.exts 4 5 8 15) := by decide +kernel
theorem test_decode_float : decodeTableWord 32 0x0362D440 = some (.fadd .t8 10 11 12) := by decide +kernel
theorem test_decode_branch : decodeTableWord 32 (0x18 * 4 + 4 * 2 ^ 9 + 5 * 2 ^ 14) = some (.bz 4 5) ∧
    decodeTableWord 32 0xFFFF0068 = some (.jal 0 (-4)) := by decide +kernel
theorem test_decode_system : decodeTableWord 32 (word 0 0x3D 3 0 0 0x00) = some (.syscall 3) ∧
    decodeTableWord 96 (word 2 0x3C 10 0 0 0x01 + 2 ^ 32) = some (.crrs 10 0 1) := by decide +kernel
theorem test_decode_memory : decodeTableWord 96 (0x14315486 + 8 * 2 ^ 32) = some (.stExt .w 10 5 ⟨.rel, .clu, 4⟩ ⟨0, 0, 8⟩) ∧
    decodeTableWord 32 0x3C795488 = some (.atomAdd .d 10 5 ⟨.sc, .pkg, 4⟩) := by decide +kernel
theorem test_decode_append : decodeTableWord 32 0x1861589C = some (.append .d 12 5 false .pkg) := by decide +kernel
theorem test_decode_vector : decodeTableWord 32 0x87188300 = some (.vadd .f32 7 1 2 3) ∧ decodeTableWord 32 0xE9314938 = some (.vdot .t8 9 4 5 6) := by
  decide +kernel
theorem test_decode_work : decodeTableWord 32 (word 0 0x30 24 3 4 25) = some (.fork 24 3 4 25) ∧ decodeTableWord 32 0x1A0000D0 = some (.barSync 2) := by
  decide +kernel
theorem test_decode_tensor : decodeTableWord 96 (word 2 0x61 0 0 0 0 + 0x10504 * 2 ^ 32) = some (.mm 4 5 1) ∧ decodeTableWord 32 0x0000018C = some .drainA := by
  decide +kernel
theorem test_decode_channels : decodeTableWord 32 0x0162D5C0 = some (.cpStart 1 10 11 12) ∧ decodeTableWord 32 0x015A8BC4 = some (.distGo 5 10 11) ∧
    decodeTableWord 96 0x870083CA = some (.sfuExp2 .f32 7 1 2) := by decide +kernel
theorem test_decode_translation : decodeTableWord 32 0x040298F8 = some (.ptProbe 12 10) ∧ decodeTableWord 32 0x005A80F8 = some (.tlbiVa 10 11) := by
  decide +kernel
theorem test_decode_fabric : decodeTableWord 32 0x00A100E0 = some (.qinj 4 20) ∧ decodeTableWord 96 (0x005A80E6 + 0x30300 * 2 ^ 32) = some (.rld 3 .d false 10 11) := by
  decide +kernel
theorem test_decode_handlers : decodeTableWord 32 0x01C441E0 = some (.tagGntd 17 24) ∧ decodeTableWord 32 0x000001EC = some .hend := by decide +kernel
theorem test_decode_refuses : decodeTableWord 32 0 = none ∧ decodeTableWord 32 (word 0 0x01 5 6 7 0x1F) = none ∧ decodeTableWord 32 (word 3 0x01 5 6 7 0) = none ∧
    decodeTableWord 32 (word 0 0x06 4 5 1 0x02) = none := by decide +kernel

/-! ## Small states -/

/-- A slot of a core that runs, with registers. -/
def thread (rs : List (Nat × Word)) : Slot :=
  rs.foldl (fun x r => x.ws (reg r.1) r.2) { run := .active, pc := 0xFE00000000000100 }
/-- Core 0 with its trap handler at 0x1000 of its scratchpad, and slot 0 running. -/
def base (rs : List (Nat × Word)) : State := { slots := [(0, thread rs)], cores := [(0, { trVector := 0x3F80000000000400 })] }
/-- A pointer to a byte of core 0's scratchpad. -/
def sp (n : Nat) : Word := BitVec.ofNat 64 (0xFE00000000000000 + n)
/-- The state after an instruction, or one of no current slot where there is no next state. -/
def next (i : Instr) (s : State) : State := match exec i s with | .next t => t | _ => { cur := 0xFFFFF }
/-- A scalar register after an instruction. -/
def after (i : Instr) (s : State) (r : Reg) : Word := (next i s).rd r

/-! ## Single steps with the results the spec gives -/

theorem test_div : after (.div 4 5 6) (base [(5, -7), (6, 2)]) 4 = -3 ∧ after (.rem 4 5 6) (base [(5, -7), (6, 2)]) 4 = -1 ∧
    after (.div 4 5 6) (base [(5, 0x8000000000000000), (6, -1)]) 4 = 0x8000000000000000 ∧ after (.rem 4 5 0) (base [(5, 9)]) 4 = 9 := by decide +kernel
theorem test_maskn : after (.maskn 4 5) (base [(5, 16)]) 4 = 0xFFFF := by decide +kernel
theorem test_shift_amount : after (.sra 4 5 6) (base [(5, -8), (6, 65)]) 4 = -4 := by decide +kernel
/-- R88's example. -/
theorem test_fadd_t8 : after (.fadd .t8 10 11 12) (base [(11, 0x5F), (12, 0x10)]) 10 = 0x60 ∧
    (next (.fadd .t8 10 11 12) (base [(11, 0x5F), (12, 0x10)])).me.fpFlags = Fl.nx := by decide +kernel
/-- R89's example. -/
theorem test_fcvt_i32 : after (.fcvt .i32 .f32 10 11) (base [(11, 0xC02CCCCD)]) 10 = 0xFFFFFFFFFFFFFFFD := by decide +kernel
/-- R91: a loop edge that is taken goes to pc + 4 * off. -/
theorem test_bnz : (next (.bnz 4 (-2)) (base [(4, 1)])).me.pc = sp 0xF8 ∧ (next (.bnz 4 (-2)) (base [])).me.pc = sp 0x104 := by decide +kernel
/-- R27's example. -/
theorem test_record_start : let x := (startRec {} 16 ⟨0x100000, 0x20000040, 7, 0, none, 0, none, none⟩).slot 16
    x.rs 3 = 0x20000040 ∧ x.rs 4 = 7 ∧ x.rs 2 = 0 ∧ x.srState = 0x20000047 ∧ x.pc = 0x100000 ∧ x.mode = .u ∧ x.run = .active := by decide +kernel
/-- R24's example: what the trap records on core 2. -/
theorem test_trap : let x := (enterTrap { slots := [(32, { thread [] with pc := 0x100040, trStatus := 4 })], cores := [(2, { trVector := 0x3F80100000007000 })] } 32
      .loadFault false 0x401000 0x100040).slot 32
    x.pc = 0xFE0040000001C000 ∧ x.mode = .s ∧ x.trCause = 5 ∧ x.trVal = 0x401000 ∧ x.trPc = 0x100040 ∧ x.trStatus = 2 := by decide +kernel
/-- R95's example: a read-only number traps even when the register is zero. -/
theorem test_crrs_readonly : let t := next (.crrs 10 5 0x400) (base [(10, 3)])
    t.me.trCause = 1 ∧ t.rd 10 = 3 ∧ t.me.pc = sp 0x1000 := by
  decide +kernel
/-- R25: the lowest byte lies lowest. -/
theorem test_store_bytes : ((next (.st .h 4 5 ⟨.rlx, .core, 4⟩) (base [(4, 0x1234), (5, sp 8)])).core 0).ls = [(8, 0x34), (9, 0x12)] := by decide +kernel
theorem test_load_signed : let t := next (.st .h 4 5 ⟨.rlx, .core, 4⟩) (base [(4, 0xFF80), (5, sp 8)])
    after (.lds .b 6 5 ⟨.rlx, .core, 4⟩) t 6 = 0xFFFFFFFFFFFFFF80 ∧ after (.ld .h 6 5 ⟨.rlx, .core, 4⟩) t 6 = 0xFF80 := by
  decide +kernel
/-- The last bytes of the scratchpad and the first beyond it (R159). -/
theorem test_scratchpad_end : after (.ld .d 6 5 ⟨.rlx, .core, 4⟩) (base [(5, sp 0x1FFF8), (6, 9)]) 6 = 0 ∧
    (let t := next (.ld .d 6 5 ⟨.rlx, .core, 4⟩) (base [(5, sp 0x1FFFC), (6, 9)]); t.me.trCause = 5 ∧ t.me.trVal = sp 0x20000) := by
  decide +kernel

/-! ## A state that meets the hypotheses of every obligation: integer, floating-point and vector instructions -/

theorem witness_bit_fields : (Instr.extu 1 2 0 63).wf = true ∧ (Instr.extu 1 2 63 0).wf = true ∧ (Instr.hdrGet 1 24 511 0).wf = true ∧
    (Instr.hdrGet 1 1 0 63).wf = true ∧ (Instr.hdrClr 1).wf = true ∧ (Instr.hdrClr 24).wf = true := by decide
theorem witness_frames_integer : integerDest (.add 4 5 6) = some 4 ∧ exec (.add 4 5 6) (base []) = .next (next (.add 4 5 6) (base [])) := ⟨rfl, rfl⟩
theorem witness_frames_float : floatDest (.fcvt .t8 .f32 4 5) = some 4 ∧
    exec (.fcvt .t8 .f32 4 5) (base []) = .next (next (.fcvt .t8 .f32 4 5) (base [])) := ⟨rfl, rfl⟩
theorem witness_frames_vector : vectorDest (.vadd .i8 0 31 1 2) = some 31 ∧
    exec (.vadd .i8 0 31 1 2) (base []) = .next (next (.vadd .i8 0 31 1 2) (base [])) := ⟨rfl, rfl⟩
theorem witness_frames_s0 : (4 : Reg) ≠ 0 ∧ (5 : Reg) ≠ 4 := by decide
theorem witness_float_stochastic : ((base []).updMe fun x => { x with fpMode := 8 }).me.fpMode.getLsbD 3 = true ∧ (base []).me.fpMode.getLsbD 3 = false ∧
    CvtCode.fmt? .t8 = some .t8 ∧ CvtCode.fmt? .i32 = none := by decide +kernel
theorem witness_nan : (unpack .f32 0x7FC00000).isNan = true ∧ (unpack .f32 0x7F800001).isSnan = true ∧ (unpack .f16 0x7D01).isSnan = true := by decide +kernel
theorem witness_rounding : ¬ (2 ^ 1 ∣ 3) ∧ (2 ^ 1 ∣ 4) := by decide
theorem witness_vector_float : ElType.f32.isInt = false ∧ ElType.i8.isInt = true ∧ ¬ ((base []).me.fpMode.getLsbD 3 = true) ∧
    (List.range ElType.f32.lanes).filter (fun j => ((base []).mask 0).getLsbD j) ≠ [] ∧
    (List.range ElType.f32.lanes).filter (fun j => ((base []).mask 4).getLsbD j) = [] := by decide +kernel
theorem witness_vector_convert : (3 : Fin 8).val * Nat.min ElType.i8.lanes ElType.i32.lanes + Nat.min ElType.i8.lanes ElType.i32.lanes ≤
    Nat.max ElType.i8.lanes ElType.i32.lanes := by decide

/-! ## Branches, control registers, traps -/

theorem witness_can_trap : CanTrap (base []) := by unfold CanTrap Enterable; decide +kernel
theorem witness_branch : ((base [(5, sp 8)]).rd 5).toNat % 4 = 0 ∧ ((base [(5, sp 9)]).rd 5).toNat % 4 ≠ 0 := by decide +kernel
theorem witness_control_register : onCore (base []).cur = true ∧ crAssigned true 0x000 = true ∧ crWritable 0x000 = true ∧ crAssigned true 0x800 = true ∧
    ((base []).updMe fun x => { x with mode := .s }).me.mode ≠ .u ∧ crWritable 0x800 = true ∧ crAssigned true 0x400 = true ∧ crWritable 0x400 = false ∧
    crAssigned true 0xFFF = false ∧ (base []).me.mode = .u := by decide +kernel
theorem witness_trap_record : let v : Word := ((base []).core 0).trVector.setWidth 64 <<< 2
    onCore 0 = true ∧ spaceOf v = some .spd ∧ fld v.toNat 45 11 = agentOf 0 ∧ offsetOf v + 20 ≤ (base []).spSize 0 := by decide +kernel
theorem witness_trap_dead : onCore 16 = true ∧ spaceOf ((((({ cores := [(1, { trVector := 0x2000000000000000 })] } : State).core 1).trVector.setWidth 64 <<< 2 : Word))) = none := by
  decide +kernel
theorem witness_trap_double : ((base []).updMe fun x => { x with fresh := some .loadFault }).me.fresh = some .loadFault := by decide +kernel
theorem witness_local_store_split : onCore (base []).cur = true ∧ ((base []).updMe fun x => { x with mode := .s }).me.mode ≠ .u ∧ lsBusy (base []) (base []).myCore = false := by
  decide +kernel
/-- A slot that waits to write ls.split, at the smallest, the greatest and an ignored value. -/
def splitting (v : Fin 16) : State := (base []).updMe fun x => { x with run := .waiting (.lsSplit v) }
theorem witness_local_store_split_write : ∀ v ∈ [(0 : Fin 16), 12, 15], (splitting v).half 0 = (0, 12) ∧ ((splitting v).core 0).lsSplit.val ≤ 12 ∧
    ((splitting v).slot 0).run = .waiting (.lsSplit v) ∧ stashLines ((splitting v).core 0) = [] ∧ ((splitting v).core 0).puts = [] := by decide +kernel

/-! ## System and translation -/

/-- Core 0's slot 0 in S mode. -/
def system (rs : List (Nat × Word)) : State := (base rs).updMe fun x => { x with mode := .s }
theorem witness_system : (system []).me.mode = .s ∧ (system []).me.trPc.toNat % 4 = 0 ∧ ((system []).updMe fun x => { x with trPc := 2 }).me.trPc.toNat % 4 ≠ 0 ∧
    (system []).me.pend = [] ∧ ((system []).updMe fun x => { x with pend := [.preempt 0] }).me.pend ≠ [] := by decide +kernel
theorem witness_system_trap : CanTrap (system []) ∧ CanTrap ((system []).updMe fun x => { x with trPc := 2 }) := by
  unfold CanTrap Enterable; decide +kernel
theorem witness_fault_rd : ((system [(5, 3)]).rd 5).toNat < 4 ∧ 4 ≤ ((system [(5, 4)]).rd 5).toNat ∧ ((system [(5, 15)]).rd 5).toNat < 16 := by decide +kernel
theorem witness_tlbi : let s := (system []).updMe fun x => { x with tlbis := [.ctx 3] }
    (coresOf 0).flatMap (fun c => s.slotsWhere c fun x => !x.tlbis.isEmpty) = [0] ∧ (s.slot 0).tlbis = [.ctx 3] ∧ (system []).me.tlbis = [] := by decide +kernel

/-! ## Memory -/

theorem witness_scratchpad : InScratchpad (base []) (sp 0) 8 ∧ InScratchpad (base []) (sp 0x1FFF8) 8 ∧ InScratchpad (base []) (sp 0x1FFFC) 4 := by
  unfold InScratchpad; decide +kernel
/-- Handler h in slot 4 of the host's protocol processor, with registers. -/
def handling (h : HCtx) (rs : List (Nat × Word)) : State :=
  { slots := [((0x800 + 72) * 16 + 4, { thread rs with pc := 0, mode := .h, handler := some h })], cur := (0x800 + 72) * 16 + 4 }
/-- A message to that processor about address 0x8000000001000, of a type. -/
def ask (ty addr : Nat) : Msg := mkMsg {} 0 0 (0x800 + 72) ty 3 addr 0 0 0 none none
/-- An invocation for such a message. -/
def invocation : HCtx := { msg := ask 30 0x8000000001000, region := 0, proto := 16, entryAddr := 0 }
theorem witness_handler_memory : onCore (handling invocation []).cur = false ∧ ((handling invocation [(5, 0x7FF8)]).rd 5).toNat + 8 ≤ 0x8000 := by decide +kernel
/-- Partition 0 on cluster 0, with the first GiB mapped to itself for user reads, writes and execution; ok as R337 codes it. -/
def paged (ok : Nat) (rs : List (Nat × Word)) : State :=
  { base rs with
    clusters := [(0, { part := some 0 })], parts := [(0, { running := true, cfg := some { cores := 1, root1 := 0x100000 } })],
    mem := [(0x100000, 0x01), (0x100001, 0x10), (0x100002, 0x10), (0x101000, 0x01), (0x101001, 0x20), (0x101002, 0x10), (0x102000, 0x3F)] ++
      (if ok = 0 then [] else [(0x102006, BitVec.ofNat 8 (64 * ok))]) ++ [(0x102007, 0x0F)] }
/-- The translation of an address of that GiB. -/
def leaf (ok pa : Nat) : Xlat := { pa := pa, size := 15, ok := ok, nr := false, g := false, u := true, x := true, w := true, r := true }

theorem witness_translation : translate (paged 0 []) 0 true .load false 0x4000FF8 = (.ok (leaf 0 0x4000FF8), (translate (paged 0 []) 0 true .load false 0x4000FF8).2) ∧
    translate (paged 0 []) 0 true .store false 0x4000FF8 = (.ok (leaf 0 0x4000FF8), (translate (paged 0 []) 0 true .store false 0x4000FF8).2) ∧
    translate (paged 3 []) 0 true .store true 0x4000000 = (.ok (leaf 3 0x4000000), (translate (paged 3 []) 0 true .store true 0x4000000).2) ∧
    translate (paged 3 []) 0 true .load true 0x4000000 = (.ok (leaf 3 0x4000000), (translate (paged 3 []) 0 true .load true 0x4000000).2) :=
  ⟨Prod.ext (by decide +kernel) rfl, Prod.ext (by decide +kernel) rfl, Prod.ext (by decide +kernel) rfl, Prod.ext (by decide +kernel) rfl⟩
theorem witness_global_load : onCore (paged 0 []).cur = true ∧ MemOrd.rlx ≠ .sc ∧ ((paged 0 []).core 0).stash = [] ∧ CachesEmpty (paged 0 []) 0 ∧ (leaf 0 0x4000FF8).ok ≠ 3 ∧
    (leaf 0 0x4000FF8).pa % 64 + 8 ≤ 64 ∧ (paged 0 []).poisoned = [] ∧ (paged 0 []).hdmSize = 0 ∧ (∃ die, place (leaf 0 0x4000FF8).pa = .hbm die) ∧
    (paged 0 []).protoOf 0x4000FF8 = 0 ∧ spaceOf 0x4000FF8 = some .glb ∧ (0x4000FF8 : Word).toNat % 64 + 8 ≤ 64 ∧ backingOf (paged 0 []) 0 0x4000FF8 8 = none :=
  ⟨by decide +kernel, by decide, by decide +kernel, by unfold CachesEmpty; decide +kernel, by decide, by decide, by decide +kernel, by decide +kernel, ⟨0, by decide +kernel⟩,
    by decide +kernel, by decide +kernel, by decide, by decide +kernel⟩
theorem witness_store_release : NothingToRelease (base []) ⟨.rel, .pkg, 4⟩ ∧ NothingToRelease (base []) ⟨.rlx, .core, 4⟩ := by
  unfold NothingToRelease; decide +kernel
theorem witness_address_faults : CanTrap (base []) ∧ spaceOf (sp 0x1FFFF) = some .spd ∧ fld (sp 0x1FFFF).toNat 45 11 = 0 ∧ (base []).spSize 0 < offsetOf (sp 0x1FFFF) + 2 ∧
    fld (0xFE00200000000000 : Word).toNat 45 11 ≠ 0 ∧ spaceOf 0xFE00200000000000 = some .spd := by unfold CanTrap Enterable; decide +kernel
theorem witness_append_faults : spaceOf 0x4000000 = some .glb ∧ (leaf 0 0).ok ≠ 3 ∧ (leaf 3 0).ok = 3 ∧ (0x4000038 : Word).toNat % 64 + bytesOf .d ≤ 64 ∧
    translate (paged 3 []) 0 true .store false 0x4000038 = (.ok (leaf 3 0x4000038), (translate (paged 3 []) 0 true .store false 0x4000038).2) :=
  ⟨by decide +kernel, by decide, by decide, by decide, Prod.ext (by decide +kernel) rfl⟩
theorem witness_cache_control : CachesEmpty (base []) (base []).myCore ∧ ((base [(4, 65536)]).rd 4).toNat ≤ 65536 ∧ (base []).rd 4 = 0 ∧ spaceOf ((base [(5, 0x40)]).rd 5) = some .glb := by
  unfold CachesEmpty; decide +kernel
/-- Core 0 holds a direct line of block 0x100000 with its byte 3 written, and its cluster the translation of it. -/
def dirty : State :=
  (({ paged 0 [(4, 64), (5, 0x4000000)] with
      clusters := [(0, { part := some 0, tlb := [{ part := 0, va := 0, size := 15, pa := 0, ok := 0, nr := false, g := false, u := true, x := true, w := true, r := true }] })] } : State).updCore 0
    fun q => { q with
      lines := [(0x100000, { tag := none, data := 0xFF000000, written := 8 })],
      dtlb := [{ part := 0, va := 0, size := 15, pa := 0, ok := 0, nr := false, g := false, u := true, x := true, w := true, r := true }] })
theorem witness_cache_clean : spaceOf (dirty.rd 5) = some .glb ∧ (dirty.rd 5).toNat % 64 = 0 ∧ 1 ≤ (dirty.rd 4).toNat ∧ (dirty.rd 4).toNat ≤ 64 ∧ 2 ≤ scopeRank .die ∧
    (lineOf dirty 0 0x100000).map (fun l => (l.tag, l.stash, l.l2)) = some (none, false, false) ∧ (dirty.core 0).puts = [] ∧ (dirty.cluster (clusterOf 0)).l2dirty = [] := by
  decide +kernel
theorem witness_cache_clean_place : physOf dirty dirty.cur (dirty.rd 5) = (some 0x4000000, dirty) := Prod.ext (by decide +kernel) (by rfl)
theorem witness_codeflush : (((base []).updMe fun x => { x with run := .waiting (.codeflush 0x100000 0x100001 .pkg 4) }).slot 0).run = .waiting (.codeflush 0x100000 0x100001 .pkg 4) ∧
    (look 0 (base []).cores).isSome = true ∧ inScope .pkg (agentOf 0) 0 = true := by decide +kernel
theorem witness_prefetch : spaceOf (sp 64) = some .spd ∧ spaceOf 0xFD00000000000000 = some .clu ∧ spaceOf 0x0123456789ABCDEF = none := by decide +kernel
theorem witness_fence : onCore (handling invocation []).cur = false ∧ onCore (base []).cur = true ∧ Scope.pkg ≠ .core ∧ released (base []) (base []).myCore = true ∧
    (base []).me.ff = 0 ∧ (base []).posted = 0 := by decide +kernel
theorem witness_stash_map : let s := base [(4, 0x40 + 0x80 * 2 ^ 32), (5, 0x4000000)]; let g := s.rd 5; let y := s.rd 4
    spaceOf g = some .glb ∧ g.toNat % 64 = 0 ∧ y.toNat = 64 + 128 * 2 ^ 32 ∧ 128 + 64 ≤ s.stashSize 0 ∧ (s.core 0).stash.length < 8 ∧ (s.core 0).stash = [] := by decide +kernel
theorem witness_stash_unmap : let s := (base [(5, 0x4000000)]).updCore 0 fun q => { q with stash := [⟨0x4000000, 64, 0⟩] }
    (∃ m ∈ (s.core 0).stash, m.g = (s.rd 5).toNat) ∧ (s.core 0).lines = [] ∧ (s.core 0).puts = [] := by decide +kernel
theorem witness_pointers : canonical 0xFF00000000000000 = true ∧ (0xFFFFFFFFFFFFFF : Word).toNat < 2 ^ 56 ∧ (0x3FFFF : Word).toNat < 2 ^ 18 ∧ (0x1FFFFF : Word).toNat < 2 ^ 21 ∧
    spaceOf (sp 0x3FFFF) = some .spd := by decide +kernel
/-- Region 0 over the first GiB of die 0 with a protocol, its directory at 0x40000000. -/
def region (proto : Nat) : BitVec 256 := BitVec.ofNat 256 (0x4000000 * 2 ^ 68 + 2 ^ 128 + 30 * 2 ^ 136 + proto * 2 ^ 146)
/-- Append pages of the first GiB, translated as append pages. -/
def appendable (rs : List (Nat × Word)) : State := { paged 3 rs with regions := [(0, region 7)] }
theorem witness_append_requests : onCore (appendable []).cur = true ∧ AllReleased (appendable []) ∧ spaceOf 0x4000000 = some .glb ∧
    translate (appendable []) 0 ((appendable []).me.mode = .u) .store true 0x4000000 = (.ok (leaf 3 0x4000000), (translate (appendable []) 0 true .store true 0x4000000).2) ∧
    translate (appendable []) 0 ((appendable []).me.mode = .u) .load true 0x4000000 = (.ok (leaf 3 0x4000000), (translate (appendable []) 0 true .load true 0x4000000).2) ∧
    (leaf 3 0x4000000).ok = 3 ∧ (appendable []).protoOf 0x4000000 = 7 ∧ 1 ≤ ((appendable [(4, 64)]).rd 4).toNat ∧ ((appendable [(4, 64)]).rd 4).toNat ≤ 64 :=
  ⟨by decide +kernel, by unfold AllReleased; decide +kernel, by decide +kernel, Prod.ext (by decide +kernel) rfl, Prod.ext (by decide +kernel) rfl, by decide, by decide +kernel,
    by decide +kernel, by decide +kernel⟩
theorem witness_free_seal : ((appendable []).updMe fun x => { x with mode := .s }).me.mode = .s ∧ (0x4000000 : Word).toNat < 2 ^ 52 := by decide +kernel
theorem witness_atomic_requests : onCore (paged 0 []).cur = true ∧ AllReleased (paged 0 []) ∧ CachesEmpty (paged 0 []) (paged 0 []).myCore ∧ (leaf 0 0x4000FF8).ok ≠ 3 ∧
    (∃ die, place (leaf 0 0x4000FF8).pa = .hbm die) ∧ spaceOf 0x4000FF8 = some .glb ∧ (0x4000FF8 : Word).toNat % 8 = 0 :=
  ⟨by decide +kernel, by unfold AllReleased; decide +kernel, by unfold CachesEmpty; decide +kernel, by decide, ⟨0, by decide +kernel⟩, by decide +kernel, by decide⟩

/-! ## Parallel work -/

/-- A record with no join cell. -/
def rec0 : Rec := ⟨0x100000, 0x20000040, 7, 0, none, 0, none, none⟩
theorem witness_record_start : rec0.code.toNat % 4 = 0 := by decide
theorem witness_fork : onCore (base []).cur = true ∧ AllReleased (base []) ∧ ((base []).core 0).deque.length < 64 ∧ (rec0.join.toNat / 8) % 8 = 0 ∧
    InScratchpad (base [(4, sp 0x20)]) ((base [(4, sp 0x20)]).rd 4) 32 ∧ ((base [(4, sp 0x20)]).rd 4).toNat % 32 = 0 := by
  unfold AllReleased InScratchpad; decide +kernel
/-- A slot whose registers name the join cell at 0x4000040 of its partition, with a count. -/
def joining (n : Word) : State := let s := paged 0 [(7, 0x4000040)]; { s with mem := s.mem.wrWord 0x4000040 n }
/-- The state in which an access ends. -/
def endState {α : Type} : Res α → State
  | .ok _ s => s | .trap _ _ s => s | .wait _ s => s
/-- What an access gives, where it succeeds. -/
def given {α : Type} : Res α → Option α
  | .ok a _ => some a | _ => none
theorem ok_of_given {α : Type} {x : Res α} {a : α} (h : given x = some a) : x = .ok a (endState x) := by
  cases x <;> simp_all [given, endState]
/-- The state in which the cell has been found. -/
def joined (n : Word) : State := endState (cellAddr (joining n) 0 0x4000040 0x4000040)
theorem witness_cell (n : Word) (h : given (cellAddr (joining n) 0 0x4000040 0x4000040) = some 0x4000040) :
    cellAddr (joining n) 0 0x4000040 0x4000040 = .ok 0x4000040 (joined n) := ok_of_given h
theorem witness_fork_counts : let r : Rec := ⟨0x100000, 0x20000040, 7, 0x4000040, none, 0, none, none⟩
    (r.join.toNat / 8) % 8 = 0 ∧ r.cell = 0x4000040 ∧ cellAddr (joining 1) 0 0x4000040 0x4000040 = .ok 0x4000040 (joined 1) ∧ released (joined 1) 0 = true ∧
    (joined 1).posted = 0 ∧ ((joined 1).core 0).deque.length < 64 :=
  ⟨by decide +kernel, by decide +kernel, witness_cell 1 (by decide +kernel), by decide +kernel, by decide +kernel, by decide +kernel⟩
theorem witness_fork_full : let s := (base []).updCore 0 fun q => { q with deque := List.replicate 64 rec0 }
    CanTrap s ∧ (s.core s.myCore).deque.length = 64 ∧ hasBacking s s.myCore = false ∧ ((s.rd 7).toNat / 8) % 8 = 0 := by unfold CanTrap Enterable; decide +kernel
theorem witness_join : (joining 1).me.lv = none ∧ (joining 1).rd 7 = 0x4000040 ∧ cellAddr (joining 1) 0 0x4000040 0x4000040 = .ok 0x4000040 (joined 1) ∧
    (joining 1).me.ff = 0 ∧ AllReleased (joined 1) ∧ homeWord (joined 1) 0x4000040 = 1 ∧ homeWord (joined 0) 0x4000040 = 0 ∧ homeWord (joined 2) 0x4000040 = 2 ∧
    (recOf (homeBytes (joined 1) 0x4000060 32) 0).code = 0 :=
  ⟨by decide +kernel, by decide +kernel, witness_cell 1 (by decide +kernel), by decide +kernel, by unfold AllReleased; decide +kernel, by decide +kernel, by decide +kernel,
    by decide +kernel, by decide +kernel⟩
theorem witness_join_continues : let s := { joining 1 with mem := (joining 1).mem.wrWord 0x4000060 0x100000 }
    homeWord (translate s 0 true .store false 0x4000040).2 0x4000040 = 1 ∧
    (recOf (homeBytes (translate s 0 true .store false 0x4000040).2 0x4000060 32) 0).code ≠ 0 := by decide +kernel
theorem witness_yield : let s := base [(4, sp 0x20)]; let r := recOf (s.myLs.bytes (s.lsPlace (s.rd 4)) 32) s.myCore
    InScratchpad s (s.rd 4) 32 ∧ (s.rd 4).toNat % 32 = 0 ∧ AllReleased s ∧ (r.join.toNat / 8) % 8 = 0 ∧ (s.core s.myCore).backing = [] ∧ (s.core s.myCore).deque.length < 64 := by
  unfold InScratchpad AllReleased; decide +kernel
theorem witness_pieces : (3 : Nat) < 20 ∧ 0 < 4 ∧ 0 < 5 ∧ 5 ≤ units 3 20 4 := by decide +kernel
/-- Core 0 with a range record of domain core at the start of its scratchpad: units of 4 from 0 to a bound. -/
def ranged (hi : Word) : State := (base [(4, sp 0)]).updCore 0 fun q => { q with ls := ((Memory.wrWord [] 0 0x100000).wrWord 40 hi).wrWord 48 4 }
theorem witness_range_fork : InScratchpad (ranged 20) (sp 0) 64 ∧ InScratchpad (ranged 0) (sp 0) 64 ∧ ((ranged 20).core 0).deque.length + 16 ≤ 64 ∧
    (∀ q ∈ (ranged 20).cores, q.2.spillPath = []) ∧ ∀ q ∈ (ranged 0).cores, q.2.spillPath = [] := by unfold InScratchpad; decide +kernel
theorem witness_range_fork_record : (ranged 20).rd 4 = sp 0 ∧ (sp 0).toNat % 64 = 0 ∧ (recOf ((ranged 20).myLs.bytes 0 64) 0).join = 0 ∧
    BitVec.ofNat 64 (leNat (((ranged 20).myLs.bytes 0 64).drop 48 |>.take 8)) = (4 : Word) ∧ leNat (((ranged 20).myLs.bytes 0 64).drop 56 |>.take 8) = 0 ∧
    leNat (((ranged 20).myLs.bytes 0 64).drop 40 |>.take 8) = 20 ∧ leNat (((ranged 0).myLs.bytes 0 64).drop 40 |>.take 8) = 0 ∧ (ranged 20).lsPlace (sp 0) = 0 := by decide +kernel
/-- Core 0 with idle slots of partition 0 and entries in its deque. -/
def queued (n : Nat) : State := { paged 0 [] with slots := [], cores := [(0, { deque := List.replicate n rec0 })] }
theorem witness_pop : (idleSlots (queued 2) 0).head? = some 0 ∧ ((queued 2).core 0).deque ≠ [] ∧ (lastWhere Rec.urgent ((queued 2).core 0).deque).getD 1 = 1 ∧
    ((queued 2).core 0).deque[1]? = some rec0 := by decide +kernel
/-- The same with a backing area at 0x5000000. -/
def backedUp (n k : Nat) : State :=
  { queued n with
    parts := [(0, { running := true, cfg := some { cores := 1, root1 := 0x100000, backing := 0x5000000 } })], cores := [(0, { deque := List.replicate n rec0, backing := List.replicate k rec0 })] }
theorem witness_spill : 48 ≤ ((backedUp 48 4064).core 0).deque.length ∧ hasBacking (backedUp 48 4064) 0 = true ∧ ((backedUp 48 4064).core 0).backing.length + 32 ≤ 4096 ∧
    ((backedUp 48 4064).core 0).spillPath = [] := by decide +kernel
theorem witness_refill : ((backedUp 0 1).core 0).deque = [] ∧ ((backedUp 0 1).core 0).backing ≠ [] ∧ idleSlots (backedUp 0 1) 0 ≠ [] := by decide +kernel
/-- Core 1 of the cluster, idle, beside core 0 with a record in its deque that cores of its cluster may take. -/
def stealing (n : Nat) : State := { queued 0 with cores := [(0, { deque := List.replicate n { rec0 with join := 1 } }), (1, {})] }
theorem witness_steal : maySteal (stealing 0) 1 = true ∧ findVictim (stealing 0) 1 = none ∧ maySteal (stealing 1) 1 = true ∧ findVictim (stealing 1) 1 = some (0, 0) ∧
    ((stealing 1).core 0).deque[0]? = some { rec0 with join := 1 } := by decide +kernel
/-- A record on its way to core 1. -/
def inTransit : State := { stealing 0 with transit := [⟨1, 0, rec0⟩] }
theorem witness_arrival : inTransit.transit[0]? = some ⟨1, 0, rec0⟩ ∧ (idleSlots { inTransit with transit := [] } 1).head? = some 16 ∧
    let busy : State := { inTransit with slots := (List.range 16).map fun i => (16 + i, thread []) }
    idleSlots { busy with transit := [] } 1 = [] ∧ (busy.core 1).deque.length < 64 ∧ (busy.core 1).spillPath = [] := by decide +kernel
/-- A share of a range that waits at the root of die 0. -/
def sharing (hi : Word) : State := { queued 0 with shares := [⟨0, 0, 0, { rec0 with join := 2, range := some (0, hi, 4) }, none⟩] }
theorem witness_share : ((sharing 20).shares.findIdx? fun x => x.die = 0 && !(idleInDie (sharing 20) x.part 0 x.core).isEmpty) = some 0 ∧
    (sharing 20).shares[0]? = some ⟨0, 0, 0, { rec0 with join := 2, range := some (0, 20, 4) }, none⟩ := by decide +kernel
theorem witness_range_transfer : largestShare { sharing 20 with shares := (sharing 20).shares.map fun x => { x with die := 1, core := 1000 } } 0 = some (0, ⟨0, 1, 1000, { rec0 with join := 2, range := some (0, 20, 4) }, none⟩) ∧
    ({ rec0 with join := 2, range := some (0, 20, 4) } : Rec).bounds = (0, 20, 4) ∧ 1 < ({ rec0 with range := some (0, 20, 4) } : Rec).units ∧
    ({ rec0 with range := some (0, 4, 4) } : Rec).units ≤ 1 := by decide +kernel

/-! ## Barriers, waits, partitions -/

/-- Core 0 with barrier 7 active for slot 0 alone, in a phase, with an arrival of slot 0 recorded or not. -/
def barred (ph : Word) (arr : Option Bool) : State :=
  { slots := [(0, { thread [] with arrived := (Vector.replicate 8 none).set 7 arr })],
    cores := [(0, { bars := (Vector.replicate 8 {}).set 7 { reg := ph <<< 63 ||| 0x4000000100000000 } })] }
theorem witness_barrier_set : (base []).slotsWhere 0 (fun x => x.arrived[(7 : Fin 8)].isSome) = [] ∧ (0x8000000000000000 : Word).getLsbD 62 = false ∧
    ((base []).bar 0 7).v = false := by decide +kernel
theorem witness_barrier : ((barred 0 none).bar 0 7).v = true ∧ ((barred 0 none).bar 0 7).reg.getLsbD (32 + slotOf 0) = true ∧ bits ((barred 0 none).bar 0 7).reg 47 32 ≠ 0 ∧
    (barred 0 none).me.arrived[(7 : Fin 8)] = none ∧ (barred 0 (some false)).me.arrived[(7 : Fin 8)] = some ((barred 0 (some false)).bar 0 7).ph ∧
    (barred 1 (some false)).me.arrived[(7 : Fin 8)] = some (!((barred 1 (some false)).bar 0 7).ph) := by decide +kernel
theorem witness_barrier_released : AllReleased (barred 0 none) := by unfold AllReleased; decide +kernel
theorem witness_barrier_message (k : BarKind) : let s : State := { barred 0 none with barMsgs := [⟨none, 0, 7, 0, k⟩] }
    s.barMsgs[0]? = some ⟨none, 0, 7, 0, k⟩ ∧ barMatches s ⟨none, 0, 7, 0, k⟩ = true := ⟨rfl, by cases k <;> decide +kernel⟩
theorem witness_pause : ((base []).rd 0 = 0) ∧ (base [(4, 0x100000)]).rd 4 ≠ 0 ∧
    (((base []).updMe fun x => { x with run := .waiting (.pause 9) }).slot 0).run = .waiting (.pause 9) := by decide +kernel
/-- Mailbox 254 of partition 0, with a notify value. -/
def boxed (v : Word) : State :=
  { paged 0 [(4, 254)] with mailboxes := [(254, { notify := v, assign := some { owner := 0, wakeCore := 0, irqSlot := some 0, ring := 0x4000000, k := 4, wakeRec := 0 } })] }
theorem witness_mailbox : ownMailbox (boxed 0) ((boxed 0).rd 4) = some 254 ∧ ((boxed 0).mailbox 254).notify = 0 ∧ ((boxed 5).mailbox 254).notify ≠ 0 := by decide +kernel
theorem witness_self : (base []).me.record = none ∧ ((base []).updMe fun x => { x with record := some rec0 }).me.record = some rec0 ∧
    ((base [(4, 3)]).rd 4).toNat < 4 := by decide +kernel
/-- Partitions 0 and 1 on cluster 0, 0 holding it. -/
def paired (x y : Part → Part) : State :=
  { base [] with
    clusters := [(0, { part := some 0 })], parts := [(0, x { running := true, cfg := some { cores := 1, slice := 1000 } }), (1, y { running := true, cfg := some { cores := 1 } })] }
/-- The same partition 0 with no partner. -/
def alone (x : Part → Part) : State := { paired x id with parts := [(0, x { running := true, cfg := some { cores := 1 } })] }
/-- A contract whose budget is being charged since cycle 0. -/
def contract : Contract := { period := 1000, budget := 500, notify := false, left := 300, start := 0, since := some 0 }
theorem witness_swap_command : let s := paired (fun x => { x with swapTo := some (1, 3) }) id
    (s.part 0).swapTo = some (1, 3) ∧ holdsCores s 0 = true := by decide +kernel
theorem witness_contract : let f : Part → Part := fun x => { x with contract := some contract }
    ((alone f).part 0).contract = some contract ∧ anchorRuns (alone f) 0 = true ∧ contract.since = some 0 ∧ holdsCores (alone f) 0 = true ∧ ((alone f).part 0).running = true ∧
    ((alone f).part 0).inPlace = false ∧ ((alone f).part 0).swapTo = none ∧ (alone f).partner 0 = none ∧
    (paired f id).partner 0 = some 1 ∧ ((paired f id).part 1).running = true ∧ ((paired f id).part 1).contract = none ∧ anchorRuns (paired f id) 0 = true ∧ holdsCores (paired f id) 0 = true := by
  decide +kernel
theorem witness_no_work : let s : State := { alone fun x => { x with contract := some contract } with slots := [] }
    holdsCores s 0 = true ∧ hasWork s 0 = false ∧ anchorRuns s 0 = true := by decide +kernel
theorem witness_time_slice : let s := paired id id
    s.partner 0 = some 1 ∧ ((s.part 0).cfg.map (·.slice)) = some 1000 ∧ holdsCores s 0 = true ∧ (s.part 0).running = true ∧ (s.part 1).running = true ∧ (s.part 0).contract = none ∧
    (s.part 1).contract = none ∧ (s.part 0).swapTo = none ∧ anchorRuns s 0 = true := by decide +kernel
theorem witness_flush : let s : State := { clusters := [(0, { part := some 0, swap := .halted 0 (some 1) 3 })] }
    (s.cluster 0).swap = .halted 0 (some 1) 3 ∧ haltedNow s 0 = true ∧ (∀ c ∈ coresOf 0, flushedNow s c = true) ∧ (s.cluster 0).l2dirty = [] := by decide +kernel
theorem witness_part_done : (paged 0 []).partOf (paged 0 []).myCore = some 0 ∧ partRemotes (paged 0 []) 0 = false := by decide +kernel

/-! ## Vector memory -/

/-- A unit-stride access of s5 with progress register s6. -/
def vext : VMemExt := { sx := 6, ev := 4, scope := .clu, ord := .rlx, base := 5, disp := 0 }
/-- Lanes 1 and 15 of f32 still to do. -/
def vectored : State := base [(4, 0x8002), (5, sp 0x1FFC0)]
theorem witness_vector_memory : onCore vectored.cur = true ∧ vectored.me.vprog = none ∧
    (List.range ElType.f32.lanes).filter (fun j => (vectored.mask 4 &&& ~~~(vectored.rd 6)).getLsbD j) = [1, 15] ∧
    InScratchpad vectored (sp 0x1FFC4) 4 ∧ InScratchpad vectored (sp 0x1FFFC) 4 ∧ (sp 0x1FFC4).toNat % 4 = 0 ∧ (sp 0x1FFFC).toNat % 4 = 0 := by
  unfold InScratchpad; decide +kernel
theorem witness_vector_addresses : vectored.rd vext.base + vext.disp.signExtend 64 + BitVec.ofNat 64 (15 * 4) = sp 0x1FFFC ∧
    vectored.rd 5 + BitVec.ofNat 64 15 * (base [(7, 4)]).rd 7 = sp 0x1FFFC ∧ vectored.rd 5 + ((BitVec.ofNat 32 (lane 32 (vectored.rdv 2) 15)).signExtend 64 <<< 2) = sp 0x1FFC0 := by decide +kernel
theorem witness_vector_store : NothingToRelease vectored ⟨vext.ord, vext.scope, vext.ev⟩ := by unfold NothingToRelease; decide +kernel
theorem witness_vector_reply : (((base []).updMe fun x => { x with run := .waiting .vector }).slot 0).run = .waiting .vector ∧
    (((base []).updMe fun x => { x with run := .waiting .access }).slot 0).run = .waiting .access := by decide +kernel

/-! ## The tensor engine -/

/-- Bytes of the default scratchpad. -/
theorem in_scratchpad {s : State} (k n : Nat) (hc : s.cur = 0) (hs : s.spSize 0 = 0x20000) (hb : lsBusy s 0 = false) (hk : k + n ≤ 0x20000) (h0 : k < 0x20000) :
    InScratchpad s (sp k) n := by
  have ht : (sp k).toNat = 0xFE00000000000000 + k := by simp [sp]; omega
  have h1 : spaceOf (sp k) = some .spd := by
    unfold spaceOf
    have a : fld (0xFE00000000000000 + k) 56 8 = 0xFE := by unfold fld; omega
    have b : fld (0xFE00000000000000 + k) 18 27 = 0 := by unfold fld; omega
    simp only [ht, a, b]; rfl
  have h2 : offsetOf (sp k) = k := by
    unfold offsetOf; rw [h1]; simp only [ht]; unfold fld; omega
  refine ⟨by rw [hc]; rfl, h1, ?_, ?_, ?_⟩
  · rw [ht]; simp only [State.myCore, hc, agentOf]; unfold fld; omega
  · rw [h2]; simp only [State.myCore, hc, agentOf]; show k + n ≤ s.spSize 0; omega
  · simp only [State.myCore, hc, agentOf]; exact hb
/-- Rows 64 bytes apart. -/
theorem rows_in_scratchpad {s : State} {l : List Word} {n : Nat} (st : Nat) (hl : l = (List.range 32).map fun i => sp (st * i)) (hc : s.cur = 0) (hs : s.spSize 0 = 0x20000)
    (hb : lsBusy s 0 = false) (hn : n ≤ 64) (ht : st ≤ 64) : ∀ r ∈ l, InScratchpad s r n := by
  subst hl
  intro r hr
  obtain ⟨i, hi, rfl⟩ := List.mem_map.mp hr
  have := List.mem_range.mp hi
  have : st * i ≤ 64 * 31 := Nat.mul_le_mul ht (by omega)
  exact in_scratchpad _ _ hc hs hb (by omega) (by omega)

/-- A descriptor (R272): base, extents, row stride, format, and whether it lies in the weight buffer. -/
def desc (at0 : Word) (e0 e1 e2 e3 st fmt wb : Nat) : Block :=
  BitVec.ofNat 512 (at0.toNat + e0 * 2 ^ 128 + e1 * 2 ^ 160 + e2 * 2 ^ 192 + e3 * 2 ^ 224 + st * 2 ^ 256 + fmt * 2 ^ 448 + wb * 2 ^ 464)
/-- Operands A in the scratchpad and B in the weight buffer, of 32 rows of 4 elements of a format. -/
def opA (fmt : Nat) : Block := desc (sp 0) 4 32 1 1 64 fmt 0
def opB (fmt : Nat) : Block := desc 0 4 32 1 1 64 fmt 1
theorem witness_td_ld : InScratchpad (base [(4, sp 0x1FFC0)]) (sp 0x1FFC0) 64 ∧ (sp 0x1FFC0).toNat % 64 = 0 ∧
    ((base [(4, sp 0x1FFC0)]).myLs.bytes 0x1FFC0 64)[56]? = some 0 ∧ (sp 1).toNat % 64 ≠ 0 := by unfold InScratchpad; decide +kernel
theorem witness_td_bad : ((((base []).updCore 0 fun q => { q with ls := [(56, 0x0D)] }).myLs.bytes 0 64)[56]?) = some 0x0D ∧ ¬ (0x0D ≤ 0x0C ∨ (0x10 ≤ 0x0D ∧ 0x0D ≤ 0x1E)) ∧
    NothingToRelease (base []) ⟨.rlx, .pkg, 4⟩ := by unfold NothingToRelease; decide +kernel
theorem witness_td_wrw : (6 : Fin 8) ≠ 7 ∧ (0x10 ≤ (base [(4, 0x10)]).rd 4) ∧ 0x1F % 256 = 0x1F := by decide +kernel
/-- An operation of the queue, for slot 0. -/
def queuedOp (fn : TFn) : TOp := { fn := fn, slot := 0, pc := sp 0x100, word := 0, ext := 0 }
/-- Core 0 with that operation at the head. -/
def withQueue (o : TOp) (tile : Tile) : State :=
  ((base []).updMe fun x => { x with run := .waiting .tensor }).updCore 0 fun q => { q with tqueue := [o], acc := #v[tile, {}] }
theorem witness_tensor_start : (queuedOp .clrF).wait = none ∧ (queuedOp .clrF).reads = [] ∧ (queuedOp .clrF).started = false ∧
    (queuedOp .clrF).fails ((withQueue (queuedOp .clrF) {}).core 0) = none ∧ (queuedOp (.drain true)).reads = [] := by decide +kernel
theorem witness_tensor_fails : let o := queuedOp (.drain false)
    o.reads = [] ∧ ({ o with got := 0 }.fails (((withQueue o {}).core 0).setBank false { fill := 1, family := 1 })) = some (9, 0) := by decide +kernel
theorem witness_tensor_complete : let o := { queuedOp .clrF with started := true }
    o.wait = none ∧ o.started = true ∧ o.done = 0 ∧ o.writes ((withQueue o {}).core 0) ((withQueue o {}).slot 0) = [] ∧ o.fn ≠ .cvt := by decide +kernel
theorem witness_wb_load : let o := { queuedOp .wbLd with da := desc 0 4 1 0 0 64 0x09 1, db := desc (sp 0) 4 1 0 0 64 0x09 0 }
    o.wait = none ∧ o.got = (o.reads.flatMap fun r => Machine.pieces r.1 r.2).length ∧ o.fn = .wbLd := by decide +kernel
/-- Core 0 with two descriptors. -/
def described (da db : Block) : State := (base [(4, sp 0)]).updCore 0 fun q => { q with td := (q.td.set 0 da).set 1 db }
theorem all_below {l : List Word} {n m : Nat} (h : l.all (fun r => r.toNat + n ≤ m) = true) : ∀ r ∈ l, r.toNat + n ≤ m := by simpa using h
/-- A and B pass the checks of a product in format f. -/
theorem product_operands {s : State} (f : Nat) (hc : s.cur = 0) (hs : s.spSize 0 = 0x20000) (hb : lsBusy s 0 = false) (hw : s.wbSize 0 = 0x10000)
    (h : tdReserved (opA f) = false ∧ tdReserved (opB f) = false ∧ tdWb (opA f) = false ∧ tdWb (opB f) = true ∧ tdE (opA f) 0 = 4 ∧ tdE (opB f) 0 = 4 ∧
      tdE (opA f) 1 = 32 ∧ tdE (opB f) 1 = 32 ∧ (tdTf (opB f)).comp = false ∧ tdBase (opA f) = sp 0 ∧ (rowsTo (opA f) 32 = (List.range 32).map fun i => sp (64 * i)) ∧
      rowBytes (tdTf (opA f)) 4 ≤ 64 ∧ (tdTf (opA f)).scaled = false ∧ (rowsTo (opB f) 32).all (fun r => r.toNat + rowBytes (tdTf (opB f)) 4 ≤ 0x10000) = true ∧
      (tdTf (opB f)).scaled = false) : ProductOperands s (opA f) (opB f) := by
  obtain ⟨h1, h2, h3, h4, h5, h6, h7, h8, h9, h10, h11, h12, h13, h14, h15⟩ := h
  have hm : s.myCore = 0 := by simp [State.myCore, hc, agentOf]
  refine ⟨h1, h2, h3, h4, by omega, by omega, by omega, by omega, by simp [h9], ?_, ?_, by simp [h13], ?_, by simp [h15]⟩
  · rw [h10]; exact in_scratchpad 0 1 hc hs hb (by omega) (by omega)
  · rw [h5]; exact rows_in_scratchpad 64 h11 hc hs hb h12 (by omega)
  · rw [h6, hm, hw]; exact all_below h14
theorem witness_product_mm : ProductOperands (described (opA 9) (opB 9)) (opA 9) (opB 9) ∧ (mmClass (tdFmt (opA 9)) (tdFmt (opB 9))).isSome = true ∧
    ((described (opA 9) (opB 9)).core 0).resume = none :=
  ⟨product_operands 9 rfl (by decide +kernel) (by decide +kernel) (by decide +kernel) (by decide +kernel), by decide +kernel, by decide +kernel⟩
theorem witness_product_mc : ProductOperands (described (opA 8) (opB 8)) (opA 8) (opB 8) ∧ (mcFamily (tdFmt (opA 8)) (tdFmt (opB 8))).isSome = true ∧
    (ndFamily (tdFmt (opA 8)) (tdFmt (opB 8))).isSome = true :=
  ⟨product_operands 8 rfl (by decide +kernel) (by decide +kernel) (by decide +kernel) (by decide +kernel), by decide +kernel, by decide +kernel⟩
theorem witness_acc_clear : tdReserved (opA 9) = false ∧ (∃ g, mmClass (tdFmt (opA 9)) (tdFmt (opB 9)) = some (g, true)) := ⟨by decide +kernel, ⟨_, rfl⟩⟩
theorem witness_acc_image : InScratchpad (base [(4, sp 0)]) (sp 0) 8256 ∧ (sp 0).toNat % 64 = 0 ∧ InScratchpad (base []) (sp 0) (saveSpan 31) := by
  unfold InScratchpad; decide +kernel
/-- A resume record of slot 0. -/
def resumed (i : Instr) : State := (base []).updCore 0 fun q => { q with resume := some { slot := 0, next := 3, word := BitVec.ofNat 32 (encodeRaw i).base, ext := (encodeRaw i).ext, addr := 0, da := 0, db := 0 } }
theorem witness_resume : ∀ i ∈ [Instr.mm 0 1 0, .mc 0 1 0, .mcNdA 0 1 0, .mcNdB 0 1 0, .drainA, .bankMergeAb, .accMerge 4 1],
    ((resumed i).core 0).resume.map (fun r => (r.slot, r.word, r.ext)) = some (slotOf (resumed i).cur, BitVec.ofNat 32 (encodeRaw i).base, (encodeRaw i).ext) := by decide +kernel
/-- A tile image to be converted to t8. -/
def converted : Block := desc (sp 0) 32 32 1 1 32 5 0
theorem witness_acc_cvt : tdReserved converted = false ∧ tdFmt converted ≤ 5 ∧ tdWb converted = false ∧ 32 ≤ tdE converted 0 ∧ 32 ≤ tdE converted 1 ∧
    tdBase converted = sp 0 ∧ InScratchpad (described converted 0) (sp 0) 1 := by unfold InScratchpad; decide +kernel
theorem witness_acc_cvt_rows : ∀ r ∈ rowsTo converted 32, InScratchpad (described converted 0) r (4 * (tdTf converted).w) :=
  rows_in_scratchpad 32 (by decide +kernel) rfl (by decide +kernel) (by decide +kernel) (by decide +kernel) (by omega)
theorem witness_wb_ld : let da := desc 0 4 1 1 1 64 9 1; let db := desc (sp 0) 4 1 1 1 64 9 0
    tdReserved da = false ∧ tdReserved db = false ∧ tdFmt da = tdFmt db ∧ tdWb da = true ∧ tdWb db = false ∧ tdBase db = sp 0 ∧
    (rowsAll da).all (fun r => r.toNat + rowBytes (tdTf da) (tdE da 0) ≤ (base []).wbSize 0) = true ∧ (tdTf da).scaled = false ∧ (tdTf da).comp = false := by decide +kernel
theorem witness_wb_ld_extents : SameExtents (desc 0 4 1 1 1 64 9 1) (desc (sp 0) 4 1 1 1 64 9 0) :=
  ⟨by decide +kernel, fun h => absurd h (by decide +kernel)⟩
theorem witness_compress : let da := desc (sp 0x1000) 64 1 1 1 64 0x1A 0; let db := desc (sp 0) 64 1 1 1 64 9 0
    tdReserved da = false ∧ tdReserved db = false ∧ compressedOf (tdFmt db) = some (tdFmt da) ∧ tdWb da = false ∧ tdWb db = false ∧
    tdBase da = sp 0x1000 ∧ tdBase db = sp 0 ∧ rowsAll da = [sp 0x1000] ∧ rowsAll db = [sp 0] ∧ rowBytes (tdTf da) 64 = 40 ∧
    InScratchpad (base []) (sp 0x1000) 40 ∧ InScratchpad (base []) (sp 0) 64 ∧ (sp 0).toNat + 64 ≤ (sp 0x1000).toNat ∧ (tdTf da).scaled = false := by
  unfold InScratchpad; decide +kernel
theorem witness_compress_extents : SameExtents (desc (sp 0x1000) 64 1 1 1 64 0x1A 0) (desc (sp 0) 64 1 1 1 64 9 0) := ⟨by decide +kernel, fun _ => by decide +kernel⟩
/-- A bank filled with the products of operands. -/
def counted (o : Operands) : Bank := { family := 1, counters := o.count 1 0 4 [] }
theorem witness_counting (o : Operands) : (counted o).family = 1 ∧ (counted o).counters = o.count 1 0 4 [] := by simp [counted]

/-! ## Copy channels, the distributor, special functions -/

/-- Core 0 with channel 3 in a state. -/
def channelled (x : Chan) (rs : List (Nat × Word)) : State := (base rs).updChan 0 3 fun _ => x
theorem witness_cp_start : ((channelled {} []).chan 0 3).running = false ∧ ((channelled {} []).chan 0 3).st ≠ .faulted ∧ (2 ^ 40 : Nat) ≤ 2 ^ 40 ∧
    InScratchpad (base []) (sp 0x100) 0x80 ∧ InScratchpad (base []) (sp 0x180) 0x80 ∧ spaceOf (sp 0x100) = spaceOf (sp 0x180) ∧ (sp 0x100).toNat + 0x80 ≤ (sp 0x180).toNat ∧
    spaceOf 0x4000000 = some .glb := by unfold InScratchpad; decide +kernel
theorem witness_cp_faulted : ((channelled { st := .faulted, cause := .loadFault } []).chan 0 3).st = .faulted ∧ Cause.loadFault ≠ .leaseViolation ∧
    ((channelled { st := .faulted, cause := .leaseViolation } []).chan 0 3).cause = .leaseViolation ∧ 2 ^ 40 < (0x10000000001 : Word).toNat := by decide +kernel
theorem witness_cp_running : let x : Chan := { st := .running, src := sp 0x100, dst := sp 0x800, len := 0x180, wp := 0x40, slot := 0 }
    ((channelled x []).chan 0 3).running = true ∧ x.wp.toNat < (0x41 : Word).toNat ∧ (0x40 : Word).toNat ≤ x.wp.toNat ∧ x.wp.toNat ≠ stopAt256 x.wp.toNat x.len.toNat ∧ stopAt256 0x100 0x180 = 0x100 ∧
    x.ap = false ∧ (channelled { x with ap := true, rsv := some 7 } []).chan 0 3 ≠ x ∧ (channelled { x with ap := true, st := .refused } []).chan 0 3 ≠ x := by decide +kernel
theorem witness_cp_delivery : let x : Chan := { st := .running, src := sp 0x100, dst := sp 0x800, len := 0x180, wp := 0x140, slot := 0 }; let s := channelled x []
    (s.chan 0 3).st = .running ∧ halting s 0 = false ∧ x.reqOut = false ∧ x.ap = false ∧ x.rsv = none ∧ x.wait = none ∧ x.wp.toNat < x.len.toNat ∧ (s.core 0).lines = [] ∧
    lsBusy s 0 = false ∧ onCore (threadOf 0 x.slot) = true ∧ agentOf (threadOf 0 x.slot) = 0 ∧ spaceOf (x.dst + x.wp) = some .spd ∧ fld (x.dst + x.wp).toNat 45 11 = 0 ∧
    offsetOf (x.dst + x.wp) + (s.chan 0 3).chunk ≤ s.spSize 0 ∧ spaceOf (x.src + x.wp) = some .spd ∧ offsetOf (x.src + x.wp) + (s.chan 0 3).chunk ≤ s.spSize 0 := by decide +kernel
theorem witness_cp_no_space : spaceOf (0x0200000000000000 + 0x140 : Word) = none ∧
    (((base []).updMe fun x => { x with run := .waiting (.channel 3 0x180) }).slot (threadOf 0 0)).run = .waiting (.channel 3 0x180) := by decide +kernel
/-- A pattern of cores 0 and 1 with blocks of 64 bytes. -/
def pattern2 : Word := 0x0003020000000000
theorem witness_dist_set : bits pattern2 63 48 ≠ 0 ∧ bits pattern2 47 40 ≠ 0 ∧ bits pattern2 47 40 % ((List.range 16).filter fun i => (bits pattern2 63 48).testBit i).length = 0 ∧
    bits pattern2 34 32 ≤ 6 ∧ bits pattern2 17 0 % 64 = 0 ∧ bits pattern2 39 35 = 0 ∧ bits pattern2 31 18 = 0 ∧ bits 0 63 48 = 0 := by decide +kernel
/-- Core 0 with that pattern, and a burst. -/
def dealing (x : Burst) : State := (base []).updCore 0 fun q => { q with distPat := pattern2, burst := x }
theorem witness_dist_go : ((dealing {}).core 0).burst.st ≠ .running ∧ ((dealing {}).core 0).burst.st ≠ .faulted ∧ spaceOf 0x4000000 = some .glb ∧ (0x100 : Word).toNat ≤ 2 ^ 32 ∧
    cannotDeal (dealing {}) 0 0x100 pattern2 = false ∧ (sp 0x40).toNat % 64 = 0 ∧ spaceOf (sp 0x40) = some .spd := by decide +kernel
theorem witness_dist_resume : ((dealing { st := .faulted, cause := .loadFault }).core 0).burst.st = .faulted ∧ ((dealing { st := .running }).core 0).burst.st = .running := by decide +kernel
/-- A burst over translated memory. -/
def bursting (blocks : Nat) (join : Word) : State :=
  (paged 0 []).updCore 0 fun q => { q with distPat := pattern2, burst := { st := .running, src := 0x4000000, len := 0x80, pat := pattern2, blocks := blocks, join := join } }
/-- What dealing the first block gives. -/
def dealt : EngEnd (List Byte) := let s := bursting 0 0; let x := (s.core 0).burst
  dealPieces s 0 0 x (dealBlock x.pat 0 0).1 (dealBlock x.pat 0 0).2 x.src 0 [] (Machine.pieces x.src 64)
theorem witness_dist_block : ((bursting 0 0).core 0).burst.st = .running ∧ halting (bursting 0 0) 0 = false ∧ 0 < burstBlocks 0x80 (dpBs pattern2) ∧
    lsBusy (bursting 0 0) (dealBlock pattern2 0 0).1 = false ∧ dpBs pattern2 = 64 := by decide +kernel
theorem witness_dist_pieces : (match dealt with | .all _ _ => true | _ => false) = true := by decide +kernel
theorem witness_dist_complete : ((bursting 2 0).core 0).burst.blocks = burstBlocks 0x80 (dpBs pattern2) ∧
    given (cellAddrBy (bursting 2 0x4000040) 0 true 0x4000040 0x4000040) = some 0x4000040 := by decide +kernel
theorem witness_deal : dpMask pattern2 ≠ 0 ∧ dpCyc pattern2 ≠ 0 ∧ dpCyc pattern2 % (dpCores pattern2 0).length = 0 := by decide +kernel
theorem witness_special : ((base []).core 0).sfuq = [] ∧
    let o : SfuOp := { fn := 0, ty := .f32, slot := 0, d := 7, mask := 3, a := 0, rm := 0 }
    (((base []).updCore 0 fun q => { q with sfuq := [o] }).core 0).sfuq = [o] ∧ o.parked = false ∧
    (((base []).updMe fun x => { x with run := .waiting .sfu }).slot 0).run = .waiting .sfu := by decide +kernel
theorem witness_special_values : (unpack .f32 0x7FC00000).isNan = true ∧ (∃ m e, unpack .f32 0xBF800000 = .fin true m e ∧ m ≠ 0) :=
  ⟨by decide +kernel, _, _, rfl, by decide⟩

/-! ## The fabric -/

/-- Device 0 with a port to device 1, rank 5 there, rank 6 here (partition 0), and a slot whose registers name both. -/
def wired (rs : List (Nat × Word)) : State :=
  { paged 0 rs with boot := { st := .ready }, routes := [(1, 0x80000060)], ranks := [(5, 0x40000801), (6, 0x40000000)] }
theorem witness_rank_ready : RankReady (wired []) 5 ∧ RankReady (wired []) 6 := by unfold RankReady; decide +kernel
theorem witness_rank_devices : rankDev (rankEntry (wired []) 0 6) = (wired []).devNum ∧ rankDev (rankEntry (wired []) 0 5) ≠ (wired []).devNum ∧ portsTo (wired []) 1 = [3] := by decide +kernel
theorem witness_inject : let s := wired [(5, 6)]
    (s.rd 5).toNat < 2 ^ 28 ∧ (regGroup s.me 8)[0].getLsbD 5 = false ∧ bits (regGroup s.me 8)[0] 44 39 ≤ 48 ∧ s.me.ff < 64 ∧ (s.core 0).injq.length < 16 ∧ released s 0 = true ∧
    s.me.ff = 0 ∧ s.remOps = [] := by decide +kernel
/-- Core 0 with a message in its receive queue. -/
def received (slot : Option Nat) : State := (wired []).updCore 0 fun q => { q with rcvq := [{ slot := slot, w := #v[1, 2, 3, 4, 5, 6, 7, 8] }] }
theorem witness_receive : ((received none).core 0).rcvq.map (·.slot) = [none] ∧ ((received (some 0)).core 0).rcvq.map (·.slot) = [some (slotOf (received (some 0)).cur)] ∧
    (Instr.qrcv 24).wf = true ∧ (Instr.qpoll 9 1).wf = true ∧ ((wired []).core 0).rcvq = [] := by decide +kernel
theorem witness_remote : spaceOf 0x4000000 = some .glb ∧ (wired []).me.tags[(7 : Fin 8)] = .free ∧ (wired []).me.ff < 64 ∧ (0x4000FF8 : Word).toNat % 8 = 0 ∧ (wired []).remOps = [] := by decide +kernel
theorem witness_bulk : InScratchpad (wired []) (sp 0x100) 100 ∧ (100 : Word) ≠ 0 := by unfold InScratchpad; decide +kernel
/-- Slot 0 with reply tag 7 in a state. -/
def tagged (x : RTag) : State := (wired []).updMe fun y => { y with tags := y.tags.set 7 x }
theorem witness_rwait : (tagged (.pending none false)).me.tags[(7 : Fin 8)] = .pending none false ∧ (tagged (.ready 5 true)).me.tags[(7 : Fin 8)] = .ready 5 true ∧
    (tagged (.failed 5)).me.tags[(7 : Fin 8)] = .failed 5 ∧ (tagged .free).me.tags[(7 : Fin 8)] = .free ∧ (tagged (.failed 5)).me.fresh = none := by decide +kernel
theorem witness_rwait_trap : CanTrap (wired []) ∧ Enterable (tagged (.failed 5)) 0 := by unfold CanTrap Enterable; decide +kernel
theorem witness_rank_me : ((wired []).ranks.find? fun x => x.1 / 4096 = jobOn (wired []) 0 && rankSt x.2 = 1 && rankDev x.2 = (wired []).devNum && rankPart x.2 = 0) = some (6, 0x40000000) ∧ (base []).ranks = [] ∧
    (0xFFF : Word).toNat < 4096 ∧ 4096 ≤ (0x1000 : Word).toNat := by decide +kernel
/-- A packet of device 1 for partition 0 here. -/
def packet (kind : Nat) (words : List Word) : Packet :=
  { kind := kind, src := 1, dst := 0, part := 0, hop := 0, drop := false, reply := false, own := 0, seq := 9, off := 0, tot := 0, words := words, flits := [] }
theorem witness_from_afar : FromAfar (wired []) (packet 1 [0x4000000, 8]) 1 ∧ seen (wired []) (packet 1 [0x4000000, 8]) = .fresh := by
  unfold FromAfar; refine ⟨by decide +kernel, rfl⟩
theorem witness_seen_again : seen { wired [] with windows := [⟨1, false, 9, [(9, packet 4 [])]⟩] } (packet 1 []) = .again (packet 4 []) := by decide +kernel
theorem witness_seen_old : seen { wired [] with windows := [⟨1, false, 70000, []⟩] } (packet 1 []) = .old := by decide +kernel
/-- What an access at the target gives. -/
def pieceList : AtTarget (List (Nat × Nat)) → List (Nat × Nat)
  | .ok l _ => l | _ => []
theorem witness_target : pieceList (targetPieces (moveWindow (wired []) (packet 1 [])) 0 .load (Machine.pieces 0x4000000 8)) = [(0x4000000, 8)] ∧
    pieceList (targetPieces (moveWindow (wired []) (packet 2 [])) 0 .store (Machine.pieces 0x4000000 8)) = [(0x4000000, 8)] ∧ belowTail (wired []) (0x4000000, 8) = true := by decide +kernel
theorem witness_plain_home : PlainHome (wired []) 0x4000000 0 := by
  refine ⟨⟨0, by decide +kernel⟩, by decide +kernel, by decide +kernel, ?_⟩
  intro k hk
  have h : (wired []).partOf 0 = some 0 := by decide +kernel
  cases (h.symm.trans hk); decide +kernel
/-- A bulk write of 64 bytes in one packet. -/
def bulk : Packet := { packet 6 [0x4000000] with tot := 64, flits := [5] }
theorem witness_bulk_data : bulk.off = 0 ∧ (packetBytes bulk).length = bulk.tot ∧ 0 < bulk.tot ∧ reasmOf (wired []) bulk = none ∧ reasmRoom (wired []) bulk = true ∧
    pieceList (targetPieces (moveWindow (wired []) bulk) 0 .store (Machine.pieces 0x4000000 64)) = [(0x4000000, 64)] := by decide +kernel
theorem witness_queue_message : ((wired []).part 0).cfg.map (fun g => (coreSet g).contains 0) = some true ∧ ((wired []).part 0).exported = false ∧ (wired []).partOf 0 = some 0 ∧ ((wired []).core 0).rwaiters = [] ∧
    ((wired []).core 0).spills = [] ∧ ((wired []).core 0).rcvq.length < 16 ∧ destCore ((packet 0 [0]).words.getD 0 0) = 0 ∧ (wired []).qmsgs = [] := by decide +kernel
/-- An entry of core 0's injection queue for core 0 itself, and its packet. -/
def injected : InjEntry := { slot := 0, dest := 6, w := #v[1, 2, 3, 4, 5, 6, 7, 8], rel := false }
theorem witness_queue_local : let s := (wired []).updCore 0 fun q => { q with injq := [injected] }; let p := injected.packet s
    p.kind = 0 ∧ p.src = s.devNum ∧ p.dst = s.devNum ∧ injFor s p (s.core 0) = some 0 ∧ destCore injected.dest = 0 ∧ (s.cores.find? fun q => (injFor s p q.2).isSome).isSome = true := by decide +kernel
/-- An operation of slot 0 at device 1. -/
def remoteOp (tag : Option (Fin 8)) (len : Option Word) (packets : List Packet) : RemOp :=
  { dst := 1, seq := 9, part := 2, packets := packets, thread := some 0, mine := some 0, tag := tag, counted := tag.isNone, len := len, sent := true }
/-- Slot 0 waiting for it. -/
def waitingFor (o : RemOp) (x : RTag) : State := { tagged x with remOps := [o] }
theorem witness_answers : let o := remoteOp (some 7) none []; let s := waitingFor o (.pending none false)
    s.remOps.all (·.sent) = true ∧ o.thread = some 0 ∧ s.partOf (agentOf 0) = o.mine ∧ opOf s (packet 4 []).src false (packet 4 []).seq = some o ∧ o.tag = some 7 ∧ o.len = none ∧
    (s.slot 0).tags[(7 : Fin 8)] = .pending none false ∧ o.pieces = [] ∧ o.packets = [] := by decide +kernel
theorem witness_answers_from_afar : FromAfar (waitingFor (remoteOp (some 7) none []) (.pending none false)) (packet 4 [5]) 4 ∧
    FromAfar (waitingFor (remoteOp (some 7) none []) (.pending none false)) (packet 13 [5, 0, 0]) 13 := by unfold FromAfar; decide +kernel
theorem witness_answer_bulk : let o := remoteOp (some 7) (some 64) []; let s := waitingFor o (.pending (some 64) false)
    o.len = some 64 ∧ (s.slot 0).tags[(7 : Fin 8)] = .pending (some 64) false ∧ opOf s 1 ((packet 5 [0]).words.getD 0 0 |>.getLsbD 0) 9 = some o := by decide +kernel
theorem witness_answer_counted : let o := remoteOp none none []; o.tag = none ∧ o.counted = true ∧ (packet 13 [5, 0, 0]).words.getD 1 0 = 0 ∧
    opOf (waitingFor o .free) 1 ((packet 12 [100, 0]).words.getD 1 0 |>.getLsbD 0) 9 = some o := by decide +kernel
/-- An operation whose packet may be dropped. -/
def dropOp : RemOp := remoteOp none none [{ packet 0 [] with src := 0, dst := 1, drop := true, flits := [5] }]
theorem witness_notice : let s := waitingFor dropOp .free
    (s.remOps.find? fun x => x.sent && x.reply = false && x.seq = 9 && x.packets.any fun y => y.off = 0 && y.drop) = some dropOp ∧
    dropOp.packets.find? (fun y => y.off = 0) = some { packet 0 [] with src := 0, dst := 1, drop := true, flits := [5] } ∧ portsTo s dropOp.dst ≠ [] ∧ dropOp.dst ≠ s.devNum ∧
    noticedOp s (packet 11 [0]) = some (dropOp, { packet 0 [] with src := 0, dst := 1, drop := true, flits := [5] }) := by decide +kernel
/-- A bulk read of 64 bytes to the scratchpad, and its data. -/
def bulkRead : RemOp := { remoteOp (some 7) (some 64) [] with pieces := [(2 ^ 53 + 0x100, 64)] }
theorem witness_bulk_read : let s := waitingFor bulkRead (.pending (some 64) false); let p := { packet 8 [] with tot := 64, flits := [5] }
    seen s p = .fresh ∧ (s.remOps.find? fun x => x.sent && !x.reply && x.dst = p.src && x.seq = p.seq && !x.pieces.isEmpty) = some bulkRead ∧ reasmOf s p = none ∧
    (packetBytes p).length = p.tot ∧ 2 ^ 53 ≤ 2 ^ 53 + 0x100 ∧ 2 ^ 53 + 0x100 < 2 ^ 54 := by
  refine ⟨rfl, ?_, ?_, ?_, ?_, ?_⟩ <;> decide +kernel
theorem witness_resend : (waitingFor { dropOp with backoff := some 99, granted := [(0, 50)] } .free).remOps[0]? = some { dropOp with backoff := some 99, granted := [(0, 50)] } ∧
    dropOp.resends < 4 ∧ ¬ ({ dropOp with resends := 4 } : RemOp).resends < 4 := by decide +kernel
theorem witness_remote_error : let s := (wired []).updMe fun x => { x with remErr := [5] }
    (s.slot 0).remErr = [5] ∧ (s.slot 0).run = .active ∧ (s.slot 0).mode = .u := by decide +kernel
theorem witness_forward : (0 : Nat) < 5 ∧ { packet 1 [] with dst := 1, src := 2 }.dst ≠ (wired []).devNum ∧ 3 ∈ portsTo (wired []) 1 := by decide +kernel

/-! ## Coherence: messages at a core -/

/-- A message of home 4 to core 0 about block 0x4000000. -/
def toCore (ty tag : Nat) (w2 : Word) : Msg := mkMsg {} (0x800 + 4) 0 0 ty tag 0x4000000 w2 0 0 none none
/-- Core 0 with that message next, a request under its tag, and a line of the block. -/
def asked (m : Msg) (line : Tab Line) (retry : Option Nat) : State :=
  (({ base [] with net := [m], regions := [(0, region 1)] } : State).updMe fun x => { x with run := .waiting (.result 0x100000 5 4 0x4000000) }).updCore 0 fun q =>
    { q with reqs := [(m.tag, { msg := toCore 0 0 0, retry := retry })], lines := line }
theorem witness_reply (ty tag : Nat) (w2 : Word) : (asked (toCore ty tag w2) [] none).deliverable 0 = some (toCore ty tag w2) ∧ (toCore ty tag w2).dst < 0x800 := ⟨rfl, by simp [toCore, mkMsg]⟩
theorem witness_reply_request : look (toCore Ty.dataS 127 0).tag ((asked (toCore Ty.dataS 127 0) [] none).core 0).reqs = some { msg := toCore 0 0 0 } ∧
    (toCore 0 0 0).blk = (toCore Ty.dataS 127 0).blk := ⟨rfl, rfl⟩
theorem witness_reply_tags : (toCore Ty.dataS 127 0).tag = 127 ∧ (toCore Ty.dataS 127 0).type = Ty.dataS ∧ (toCore Ty.dataX 0 0).type = Ty.dataX ∧ (toCore Ty.ack 0 1).type = Ty.ack ∧
    bits (toCore Ty.ack 0 2).w[2] 1 0 = 2 ∧ (toCore Ty.busy 0 0).type = Ty.busy ∧ (toCore Ty.retry 0 0).type = Ty.retry ∧ (toCore Ty.result 128 0).tag = 128 ∧
    (toCore Ty.result 143 0).tag = 143 ∧ (toCore Ty.fail 143 0).type = Ty.fail ∧ (toCore Ty.ack 255 0).tag = 0xFF ∧ (toCore Ty.fail 255 0).tag = 0xFF := by decide +kernel
theorem witness_reply_kept : (lineOf (asked (toCore Ty.ack 0 1) [(0x100000, { tag := some .busy, kept := true })] none) 0 0x100000).map (·.kept) = some true ∧
    ((asked (toCore Ty.result 128 0) [] none).slot (threadOf 0 (128 - 128))).run = .waiting (.result 0x100000 5 4 0x4000000) := by decide +kernel
theorem witness_retry : let s := asked (toCore Ty.busy 3 0) [] (some 100)
    ((s.core 0).reqs.find? (fun r => r.2.msg.blk = 0x100000 && r.2.retry.isSome)).map (·.1) = some 3 ∧ s.protoOf (0x100000 * 64) ≠ 0 := by decide +kernel
/-- Core 0 holding back a forwarded request. -/
def heldBack : State := { base [] with cores := [(0, { held := [toCore Ty.inv 0 0] })] }
theorem witness_held_back : (heldBack.core 0).held = [toCore Ty.inv 0 0] ∧ (toCore Ty.inv 0 0).mc = none := ⟨rfl, rfl⟩
theorem witness_held_back_free : mustHold heldBack 0 0x100000 = false ∧ relPending heldBack 0 0x100000 = false ∧ (lineOf heldBack 0 0x100000).isNone = true := by decide +kernel
theorem witness_forward_request : ∀ ty ∈ [Ty.recall, Ty.inv, Ty.push], (toCore ty 0 0).type = ty ∧ mustHold (asked (toCore ty 0 0) [] none) 0 0x100000 = false ∧
    relPending (asked (toCore ty 0 0) [] none) 0 0x100000 = false ∧ (lineOf (asked (toCore ty 0 0) [] none) 0 0x100000).isNone = true := by decide +kernel
theorem witness_forward_held : ((asked (toCore Ty.inv 0 0) [] none).core 0).held = [] ∧
    (lineOf (asked (toCore Ty.recall 0 1) [(0x100000, { tag := some .writable })] none) 0 0x100000).map (fun l => (l.stash, l.tag)) = some (false, some .writable) ∧
    (lineOf (asked (toCore Ty.push 0 0) [(0x100000, { tag := some .readOnly })] none) 0 0x100000).map (·.tag) = some (some .readOnly) ∧ bits (toCore Ty.recall 0 1).w[2] 1 0 = 1 := by decide +kernel

/-! ## The host's link -/

/-- A window of 256 MiB at 0x10000000 with its bias table at 0x5000000, page 0x10000000 in host bias. -/
def windowed : State := { base [] with hdmBase := 0x10000000, hdmSize := 0x10000000, biasTab := 0x5000000, mem := [(0x5000000, 1)] }
theorem witness_window : inWindow windowed 0x1FFFFFFF = true ∧ inWindow windowed 0x20000000 = false ∧ hostBias windowed (0x10000FFF / 4096 * 4096) = true ∧ windowed.takes = [] ∧
    windowed.hostOps = [] := by decide +kernel
/-- Region 0 over a page of host memory, served by the host's processor. -/
def hostRegion : BitVec 256 := BitVec.ofNat 256 (0x8000000000000 + 0x4000000 * 2 ^ 68 + 2 ^ 128 + 3 * 2 ^ 134 + 12 * 2 ^ 136 + 1 * 2 ^ 146)
/-- A request of core 3 for a line of it, which waits for the host. -/
def hostAsk (ty : Nat) : Msg := mkMsg {} 3 2 (0x800 + 72) ty 9 0x8000000000040 0 0 0 none none
def hostWait (excl : Bool) (ty : Nat) : State := { base [] with regions := [(0, hostRegion)], hostOps := [.rd 0x8000000000040 excl (some (hostAsk ty))] }
theorem witness_snoop : place (0x8000000000040 / 64 * 64) = .host ∧ (base []).regionOf 0x8000000000040 = none := by decide +kernel
theorem witness_host_answer : (hostWait true Ty.getx).hostOps = [.rd 0x8000000000040 true (some (hostAsk Ty.getx))] ∧ (hostWait true Ty.getx).regionOf 0x8000000000040 = some (0, hostRegion) ∧
    homeIn hostRegion 0x8000000000040 = 72 ∧ ((hostWait true Ty.getx).proc 72).waiters = [] ∧ (hostAsk Ty.getx).blk = 0x8000000000040 / 64 ∧ (hostAsk Ty.getx).type = Ty.getx ∧ (hostAsk Ty.gets).type = Ty.gets :=
  ⟨rfl, by decide +kernel, by decide +kernel, rfl, by decide +kernel, by decide +kernel, by decide +kernel⟩
theorem witness_unwatched (s : State) (p : Nat) (hp : ringOn s p = false) (h : s.clusters = []) : Unwatched s p := by
  refine ⟨hp, fun c k hk => ?_⟩
  simp [State.partOf, State.cluster, h, look] at hk
theorem witness_host_unwatched : Unwatched (hostWait true Ty.getx) 72 := witness_unwatched _ _ rfl rfl

/-! ## Homes -/

/-- A message of core 3 to the home of 0x4000000. -/
def toHome (ty : Nat) (w2 : Word) : Msg := mkMsg {} 3 2 (0x800 + 4) ty 9 0x4000000 w2 0 0 none none
/-- That message next at its home, in a region of a protocol, with an entry of the block. -/
def atHome (proto ty : Nat) (w2 : Word) (e : De) : State :=
  ({ net := [toHome ty w2], regions := [(0, region proto)] } : State).setEntry (entryAddr (region proto) 0x4000000) e
theorem witness_at_home (ty : Nat) (w2 : Word) : ReachesHome (atHome 1 ty w2 (0, 0)) 0 4 (toHome ty w2) ∧ HomesQuiet (atHome 1 ty w2 (0, 0)) := ⟨⟨rfl, rfl, rfl⟩, rfl, rfl, rfl⟩
/-- The owner of a block held writable. -/
def owned (a : Nat) : De := deState (deSetOwn (0, 0) (some a)) 2 false
theorem at_home (proto : Nat) (ty : Nat) (w2 : Word) (e : De) (h : (atHome proto ty w2 e).regionOf 0x4000000 = some (0, region proto) ∧ (toHome ty w2).addr = 0x4000000 ∧
    rgFail (region proto) = false ∧ homeIn (region proto) 0x4000000 = 4 ∧ deTr ((atHome proto ty w2 e).entry (entryAddr (region proto) 0x4000000)) = false) :
    AtItsHome (atHome proto ty w2 e) 0 4 0 (region proto) (toHome ty w2) := by
  obtain ⟨h1, h2, h3, h4, h5⟩ := h
  exact ⟨⟨⟨rfl, rfl, rfl⟩, ⟨rfl, rfl, rfl⟩, by rw [h2]; exact h1, h3, by rw [h2]; exact h4, by omega, rfl, fun _ _ => rfl, witness_unwatched _ _ rfl rfl⟩, by rw [h2]; exact h5⟩
theorem witness_home_unheld : AtItsHome (atHome 1 Ty.gets 0 (0, 0)) 0 4 0 (region 1) (toHome Ty.gets 0) ∧ rgProto (region 1) = 1 ∧ Unheld ((atHome 1 Ty.gets 0 (0, 0)).entry (entryAddr (region 1) 0x4000000)) :=
  ⟨at_home _ _ _ _ (by decide +kernel), by decide +kernel, by unfold Unheld; decide +kernel⟩
theorem witness_home_types : place ((toHome Ty.gets 0).blk * 64) ≠ .host ∧ (toHome Ty.gets 0).type = Ty.gets ∧ (toHome Ty.atom 0).type = Ty.atom ∧ (toHome Ty.wbData 0).type = Ty.wbData ∧
    poisonedBlk (atHome 1 Ty.atom 0 (0, 0)) (toHome Ty.atom 0).blk = false := by decide +kernel
theorem witness_home_owned : AtItsHome (atHome 1 Ty.gets 0 (owned 5)) 0 4 0 (region 1) (toHome Ty.gets 0) ∧ AtItsHome (atHome 1 Ty.putx 0 (owned 3)) 0 4 0 (region 1) (toHome Ty.putx 0) :=
  ⟨at_home _ _ _ _ (by decide +kernel), at_home _ _ _ _ (by decide +kernel)⟩
theorem witness_home_owner : let e := (atHome 1 Ty.gets 0 (owned 5)).entry (entryAddr (region 1) 0x4000000)
    deSt e = 2 ∧ deOv e = true ∧ deOwn e = 5 ∧ (toHome Ty.gets 0).src % 2 ^ 12 = 3 ∧ (toHome Ty.putx 0).w[2].getLsbD 0 = false := by decide +kernel
/-- The same message with no region bound. -/
def direct (ty : Nat) : State := { net := [toHome ty 0] }
theorem witness_direct : ReachesHome (direct Ty.putp) 0 4 (toHome Ty.putp 0) ∧ HomesQuiet (direct Ty.putp) ∧ (direct Ty.putp).regionOf 0x4000000 = none ∧ Unwatched (direct Ty.atom) 4 :=
  ⟨⟨rfl, rfl, rfl⟩, ⟨rfl, rfl, rfl⟩, rfl, witness_unwatched _ _ rfl rfl⟩
theorem witness_direct_types : inWindow (direct Ty.putp) 0x4000000 = false ∧ (toHome Ty.putp 0).type = Ty.putp ∧ 25 ≤ (toHome 25 0).type ∧ 25 ≤ (toHome 31 0).type ∧ (toHome 25 0).lane = false := by decide +kernel
theorem witness_home_busy : deTr ((atHome 1 Ty.gets 0 (deState (0, 0) 3 true)).entry (entryAddr (region 1) 0x4000000)) = true ∧ (toHome Ty.gets 0).lane = false ∧ homeIn (region 1) 0x4000000 = 4 ∧
    rgFail (region 1) = false ∧ (atHome 1 Ty.gets 0 (deState (0, 0) 3 true)).regionOf (toHome Ty.gets 0).addr = some (0, region 1) := by decide +kernel
theorem witness_watchdog : onCore ((0x800 + 72) * 16 + 4) = false ∧ stepLimit (handling invocation []) 72 { invocation with steps := 256 } ≤ 256 := by decide +kernel
/-- A transient entry with a message that waits for it. -/
def transient : State := (atHome 1 Ty.gets 0 (deState (0, 0) 3 true)).updProc 4 fun q => { q with since := [(entryAddr (region 1) 0x4000000, 7)], waiters := [toHome Ty.gets 0] }
theorem witness_transient : transient.regionOf (0x100000 * 64) = some (0, region 1) ∧ look (entryAddr (region 1) (0x100000 * 64)) (transient.proc 4).since = some 7 ∧
    deTr (transient.entry (entryAddr (region 1) (0x100000 * 64))) = true ∧ hasWaiters transient 4 (entryAddr (region 1) (0x100000 * 64)) = true := by decide +kernel

/-! ## Append pages -/

/-- An append page's entry: what is reserved and published, how many reservations, and its state. -/
def page (rsv pub nres st : Nat) : De := deState (0, setBits (setBits (setBits 0 12 0 rsv) 25 13 pub) 35 33 nres) st false
theorem witness_append_page (ty : Nat) (w2 : Word) (e : De) (h : deTr ((atHome 7 ty w2 e).entry (entryAddr (region 7) 0x4000000)) = false) (ha : (toHome ty w2).addr = 0x4000000)
    (hr : (atHome 7 ty w2 e).regionOf 0x4000000 = some (0, region 7)) : AtItsHome (atHome 7 ty w2 e) 0 4 0 (region 7) (toHome ty w2) :=
  at_home _ _ _ _ ⟨hr, ha, by decide +kernel, by decide +kernel, h⟩
theorem witness_append_full : AtItsHome (atHome 7 Ty.apnd 64 (page 4032 4032 0 0)) 0 4 0 (region 7) (toHome Ty.apnd 64) ∧ AtItsHome (atHome 7 Ty.apnd 64 (page 4033 4033 0 0)) 0 4 0 (region 7) (toHome Ty.apnd 64) :=
  ⟨witness_append_page _ _ _ (by decide +kernel) (by decide +kernel) (by decide +kernel), witness_append_page _ _ _ (by decide +kernel) (by decide +kernel) (by decide +kernel)⟩
theorem witness_append : (toHome Ty.apnd 64).type = Ty.apnd ∧ (toHome Ty.apnd 64).w[2].getLsbD 7 = false ∧ (toHome Ty.apnd 192).w[2].getLsbD 7 = true ∧ bits (toHome Ty.apnd 64).w[2] 6 0 = 64 ∧
    deSt (page 4032 4032 0 0) = 0 ∧ apRsv (page 4032 4032 0 0) + 64 ≤ 4096 ∧ apNres (page 4032 4032 0 0) = 0 ∧ 4096 < apRsv (page 4033 4033 0 0) + 64 ∧ deSt (page 64 64 0 2) = 2 ∧
    apPub (page 64 64 0 0) = apRsv (page 64 64 0 0) ∧ apPub (page 64 0 1 0) ≠ apRsv (page 64 0 1 0) ∧ apNres (page 64 0 1 0) = 1 ∧ rgProto (region 7) = 7 := by decide +kernel
/-- A page with one reservation of 128 bytes, of which a fill of 32 bytes comes. -/
def filling : State := (atHome 7 Ty.apnd (128 + 32) (page 128 0 1 0)).updProc 4 fun q => { q with rsvs := [⟨0x4000000, 0, 0, 128⟩] }
theorem witness_fill : (toHome Ty.apnd (128 + 32)).type = Ty.apnd ∧ (toHome Ty.apnd (128 + 32)).w[2].getLsbD 7 = true ∧ (filling.proc 4).rsvs = [⟨0x4000000, 0, 0, 128⟩] ∧
    (toHome Ty.apnd (128 + 32)).addr / 4096 * 4096 = 0x4000000 ∧ (0x4000000 + 0) / 64 = (toHome Ty.apnd (128 + 32)).blk ∧ 0 + bits (toHome Ty.apnd (128 + 32)).w[2] 6 0 < 128 := by decide +kernel
theorem witness_tail_seal : (toHome Ty.arsv 64).type = Ty.arsv ∧ (toHome Ty.arsv 64).w[2].toNat ≠ 0 ∧ (toHome Ty.tailq 0).type = Ty.tailq ∧ (toHome Ty.sealq 0).type = Ty.sealq ∧
    bits (toHome Ty.sealq 0).w[2] 1 0 = 0 ∧ bits (toHome Ty.sealq 1).w[2] 1 0 = 1 ∧ bits (toHome Ty.sealq 2).w[2] 1 0 = 2 ∧ bits (toHome Ty.sealq 3).w[2] 1 0 = 3 := by decide +kernel
/-- The same page's message at processor 16, a replica agent of die 1, whose partition has a pool. -/
def atReplica (w2 : Word) : State :=
  { net := [{ toHome Ty.sealq w2 with dst := 0x800 + 16 }], regions := [(0, region 7)], parts := [(0, { cfg := some { pools := [(0, 0), (0, 4)] } })] }
theorem witness_replica : ReachesHome (atReplica 2) 0 16 { toHome Ty.sealq 2 with dst := 0x800 + 16 } ∧ HomesQuiet (atReplica 2) ∧ ((atReplica 2).proc 16).replicas = [] ∧
    ((atReplica 2).proc 16).copying = [] ∧ ((atReplica 3).proc 16).readers = [] := ⟨⟨rfl, rfl, rfl⟩, ⟨rfl, rfl, rfl⟩, rfl, rfl, rfl⟩
theorem witness_replica_pool : poolPages (atReplica 2) (16 / 12) ≠ 0 ∧ 16 ≠ homeIn (region 7) 0x4000000 ∧ rgFail (region 7) = false := by decide +kernel
/-- A copy that is complete, and a reader that waits for it. -/
def copied : State := { atReplica 2 with procs := [(16, { copying := [0x4000000], readers := [toHome Ty.tailq 0] })] }
theorem witness_copy : 0x4000000 ∈ (copied.proc 16).copying ∧ copied.regionOf 0x4000000 = some (0, region 7) ∧ (toHome Ty.tailq 0).addr / 4096 * 4096 = 0x4000000 := by decide +kernel

/-! ## Handlers -/

/-- The invocation in slot 4 of the host's processor, beside a window at 0x10000000 and its bias table. -/
def atHost (h : HCtx) (rs : List (Nat × Word)) : State := { handling h rs with hdmBase := 0x10000000, hdmSize := 0x10000000, biasTab := 0x5000000 }
theorem witness_running : Running (handling invocation []) invocation ∧ Running (atHost { invocation with forwards := 8 } []) { invocation with forwards := 8 } := ⟨⟨rfl, rfl⟩, ⟨rfl, rfl⟩⟩
theorem witness_requester : let s := atHost invocation [(5, 0x92003), (6, 2)]
    isAgent ((s.rd 5).toNat % 2 ^ 12) = true ∧ (s.rd 5).toNat / 2 ^ 24 % 2 ^ 10 = s.devNum ∧ (s.rd 6).toNat % 4 = 2 ∧ isAgent 0x84C = true ∧ isAgent 0x84D = false := by decide +kernel
theorem witness_handler_unwatched : Unwatched (handling invocation []) 72 := witness_unwatched _ _ rfl rfl
theorem witness_forwards : invocation.msg.lane = false ∧ invocation.forwards < 8 ∧ 8 ≤ ({ invocation with forwards := 8 } : HCtx).forwards ∧ ({ invocation with msg := ask Ty.ack 0 } : HCtx).msg.lane = true := by
  decide +kernel
theorem witness_message_lane : let w (x : Nat) := (regGroup (handling invocation [(8, BitVec.ofNat 64 x)]).me 8)[0]
    laneOk (w 25) = true ∧ laneOk (w 57) = true ∧ laneOk (w Ty.recall) = true ∧ laneOk (w (Ty.recall + 32)) = false ∧ bitOf (w Ty.inv) 5 = false ∧ bits (w Ty.push) 4 0 = Ty.push := by decide +kernel
theorem witness_block_transfer : let s := handling invocation [(5, 0x8000000000040), (6, 0x7FC0), (7, 0x7F80)]
    (s.rd 5).toNat % 64 = 0 ∧ (s.rd 6).toNat % 64 = 0 ∧ (s.rd 7).toNat % 64 = 0 ∧ backedOrHost (s.rd 5).toNat 64 = true ∧ (s.rd 6).toNat + 64 ≤ 0x8000 ∧ (s.rd 7).toNat + 72 ≤ 0x8000 ∧
    poisonedBlk s ((s.rd 5).toNat / 64) = false := by decide +kernel
theorem witness_handler_end : HomesQuiet (handling invocation []) ∧ ((handling invocation []).proc 72).waiters = [] ∧ (ask Ty.putx 0).type = Ty.putx ∧ invocation.msg.type = 30 := ⟨⟨rfl, rfl, rfl⟩, rfl, rfl, rfl⟩
theorem witness_host_handler : let s := atHost invocation [(5, 0x10001000), (15, 0x10000FC0), (6, 1)]
    s.myProc = 72 ∧ inWindow s (s.rd 5).toNat = true ∧ 0 < (s.rd 6).toNat ∧ (s.rd 15).toNat % 4096 / 64 + (s.rd 6).toNat ≤ 64 ∧
    ((0x10002000 : Nat) - s.hdmBase) / 4096 ≠ ((s.rd 5).toNat - s.hdmBase) / 4096 := by decide +kernel
/-- The same invocation in slot 0 of processor 4. -/
def elsewhere : State := { slots := [((0x800 + 4) * 16, { run := .active, mode := .h, handler := some invocation })], cur := (0x800 + 4) * 16 }
theorem witness_other_processor : Running elsewhere invocation ∧ elsewhere.myProc ≠ 72 := ⟨⟨rfl, rfl⟩, by decide +kernel⟩
theorem witness_directory_pointers : deNp (0, 0) = 0 ∧ deCv (0, 0) = false ∧ (3 : Nat) ∉ dePointers (0, 0) ∧ deNp (deAdd (deAdd (deAdd (deAdd (0, 0) 1) 2) 0x7FF) 0x830) = 4 ∧
    deCv (deAdd (deAdd (deAdd (deAdd (0, 0) 1) 2) 0x7FF) 0x830) = false ∧ (3 : Nat) ∉ dePointers (deAdd (deAdd (deAdd (deAdd (0, 0) 1) 2) 0x7FF) 0x830) := by decide +kernel
theorem witness_abort : onCore ((0x800 + 72) * 16 + 4) = false ∧ ((handling invocation []).slot ((0x800 + 72) * 16 + 4)).handler = some invocation := ⟨by decide, rfl⟩

/-! ## Pages between devices -/

/-- Page 0x4000000 of a region of protocol 8, bound as a frame. -/
def framed (f : Frame) : State := { wired [] with regions := [(0, region 8)], frames := [(0x4000000, f)] }
/-- A home's frame and a proxy's of the page at 0x4000000 of rank 5. -/
def homeFrame : Frame := { home := true, rank := 0, remote := 0 }
def proxyFrame : Frame := { home := false, rank := 5, remote := 0x4000000, asked := true }
theorem page_at_rest (kind : Nat) (ws : List Word) (f : Frame) (h : f.failed = false ∧ f.unbind = false ∧ heldLines (framed f) 0x4000000 = [] ∧ pageQuiet (framed f) 0x4000000 = true) :
    PageAtRest (framed f) (packet kind ws) kind 0x4000000 f :=
  ⟨⟨rfl, rfl, rfl, Nat.one_ne_zero, by show portsTo (wired []) 1 ≠ []; decide +kernel, rfl⟩, rfl, by show outstanding (wired []) 1 false + 2 < 2 ^ 15; decide +kernel, rfl, rfl, rfl, h.2.2.1, h.2.2.2, rfl, h.1, h.2.1⟩
theorem witness_page_request : PageAtRest (framed homeFrame) (packet 16 [0x4000000]) 16 0x4000000 homeFrame ∧ PageAtRest (framed homeFrame) (packet 17 [0x4000000]) 17 0x4000000 homeFrame :=
  ⟨page_at_rest _ _ _ (by decide +kernel), page_at_rest _ _ _ (by decide +kernel)⟩
theorem witness_page_place : (framed homeFrame).regionOf 0x4000000 = some (0, region 8) ∧ rgProto (region 8) = 8 ∧ homeFrame.requests = [] ∧ homeFrame.phase = 0 ∧ homeFrame.owner = none ∧
    (1 : Nat) ∉ homeFrame.sharers ∧ homeFrame.sharers.length < 4 := by decide +kernel
/-- What is left of an access at the target, and the state after it. -/
def atTargetState : AtTarget (List (Nat × Nat)) → Option State
  | .ok _ s => some s | _ => none
theorem witness_page_pieces : let s := moveWindow (framed homeFrame) (packet 16 [0x4000000])
    pieceList (targetPieces s 0 .load [(0x4000000, 1)]) = [(0x4000000, 1)] ∧ (atTargetState (targetPieces s 0 .load [(0x4000000, 1)])).map (·.free) = some s.free := by decide +kernel
theorem witness_page_data : PageAtRest (framed proxyFrame) (packet 18 [0x4000000, 1]) 18 0x4000000 proxyFrame ∧ proxyFor (framed proxyFrame) (packet 18 [0x4000000, 1]) = some (0x4000000, proxyFrame) :=
  ⟨page_at_rest _ _ _ (by decide +kernel), by decide +kernel⟩
theorem witness_page_recall : PageAtRest (framed { proxyFrame with asked := false, st := .px, fresh := true }) (packet 19 [0x4000000, 1]) 19 0x4000000 { proxyFrame with asked := false, st := .px, fresh := true } ∧
    proxyFor (framed { proxyFrame with asked := false, st := .px, fresh := true }) (packet 19 [0x4000000, 1]) = some (0x4000000, { proxyFrame with asked := false, st := .px, fresh := true }) :=
  ⟨page_at_rest _ _ _ (by decide +kernel), by decide +kernel⟩
/-- The home's frame while device 1 is recalled, and while it is sent the page. -/
def recalling : Frame := { homeFrame with owner := some 1, left := [1], excl := true, phase := 1, va := 0x4000000 }
def serving : Frame := { homeFrame with requests := [packet 16 [0x4000000]], phase := 3, va := 0x4000000 }
theorem witness_page_write_back : PageAtRest (framed recalling) (packet 20 [0x4000000]) 20 0x4000000 recalling ∧ homeFor (framed recalling) (packet 20 [0x4000000]) = some (0x4000000, recalling) ∧
    recalling.left = [1] ∧ recalling.got = [] := ⟨page_at_rest _ _ _ (by decide +kernel), by decide +kernel, rfl, rfl⟩
theorem witness_page_acknowledgement : PageAtRest (framed serving) (packet 21 [0x4000000, 0, 0]) 21 0x4000000 serving ∧ homeFor (framed serving) (packet 21 [0x4000000, 0, 0]) = some (0x4000000, serving) ∧
    PageAtRest (framed recalling) (packet 21 [0x4000000, 0, 0]) 21 0x4000000 recalling ∧ homeFor (framed recalling) (packet 21 [0x4000000, 0, 0]) = some (0x4000000, recalling) :=
  ⟨page_at_rest _ _ _ (by decide +kernel), by decide +kernel, page_at_rest _ _ _ (by decide +kernel), by decide +kernel⟩
/-- Slot 0 in S mode before RBIND of the page, with the frames that are bound. -/
def binding (w v : Word) (l : List (Nat × Frame)) : State :=
  ({ wired [(4, v), (5, 0x4000000), (6, w)] with regions := [(0, region 8)], frames := l } : State).updMe fun x => { x with mode := .s }
theorem witness_rbind_trap : CanTrap (binding 0 0 []) ∧ CanTrap (wired []) ∧ (wired []).me.mode = .u := ⟨by unfold CanTrap Enterable; decide +kernel, by unfold CanTrap Enterable; decide +kernel, by decide +kernel⟩
theorem witness_rbind : let s := binding (0x1000 + 5) 0x4000000 []
    (s.rd 5).toNat % 4096 = 0 ∧ s.protoOf (s.rd 5).toNat = 8 ∧ bits (s.rd 6) 63 14 = 0 ∧ bits (s.rd 6) 13 12 = 1 ∧ spaceOf (s.rd 4) = some .glb ∧ (s.rd 4).toNat % 4096 = 0 ∧
    look (s.rd 5).toNat s.frames = none ∧ rankSt (rankEntry s (jobOn s 0) (bits (s.rd 6) 11 0)) = 1 ∧ rankSt (rankEntry s (jobOn s 0) 0xFFF) = 0 := by decide +kernel
theorem witness_rbind_refused : (wired []).protoOf 0x4000000 ≠ 8 ∧ bits (0x4000 : Word) 63 14 ≠ 0 ∧ bits (0x3000 : Word) 13 12 = 3 ∧ bits (0x2000 : Word) 13 12 = 2 ∧ spaceOf (sp 0) ≠ some .glb := by decide +kernel
theorem witness_rbind_bound : let s := binding 0 0 [(0x4000000, homeFrame)]
    pageCopies s homeFrame = [] ∧ heldLines s 0x4000000 = [] ∧ pageQuiet s 0x4000000 = true ∧ s.takes = [] ∧ s.hostOps = [] := by decide +kernel

/-! ## Interrupts -/

/-- Slot 0 of core 0 with interrupts pending. -/
def pending (l : List Intr) : State := (paged 0 []).updMe fun x => { x with pend := l }
theorem witness_interrupt : ∀ i ∈ [Intr.preempt 9, .engine 1 2 3 4, .mailbox 17], Enterable (pending [i]) 0 ∧ slotRuns (pending [i]) 0 = true ∧ firstIntr ((pending [i]).slot 0).pend = some i ∧
    ((pending [i]).core 0).awaits = [] := by unfold Enterable; decide +kernel
theorem witness_interrupt_mode : ((pending []).slot 0).mode = .u ∧ ((pending []).slot 0).run = .active ∧ ((pending []).slot 0).vprog = none ∧ (((system []).updMe fun x => { x with trStatus := 4 }).slot 0).trStatus.getLsbD 2 = true ∧
    ((system []).slot 0).trStatus.getLsbD 2 = false ∧ ((pending []).slot 0).pend = [] := by decide +kernel

/-! ## Commands of the host -/

/-- An entry of a command mailbox about partition 0. -/
def entry (fn : Option (Fin 16)) (chain : Bool) : Cmd := { fn := fn, tag := 7, part := 0, chain := chain }
/-- The device ready, with an entry of a type first in the ring of its command mailbox, which was notified: word 0 and the operand words (R408, R412). -/
def commanded (s : State) (c : Cmd := entry none false) (ty : Nat := 0x16) (ops : List Word := []) : State :=
  let w : Word := BitVec.ofNat 64 (ty + (if c.chain then 2 ^ 8 else 0) + c.part.val * 2 ^ 16 + c.tag.toNat * 2 ^ 32)
  let l := ((w :: ops).flatMap fun x => leBytes 8 x.toNat).zipIdx.filterMap fun x => if x.1 = 0 then none else some (2 ^ 51 + x.2, x.1)
  { s with boot := { st := .ready }, mem := s.mem ++ l, mailboxes := [(cmdBox c, { due := true, prod := if c.chain then 2 else 1 })] }
/-- The state before a command, with its entry in the ring. -/
def before (s : State) (i : Instr) : State :=
  match cmdEntry i with | some (c, ty, ops) => commanded s c ty ops | none => s
/-- Whether Matins reads the entry of a command now, and it is a packet of its own. -/
def readable (s : State) (i : Instr) : Bool :=
  match cmdEntry i with | some (c, ty, ops) => cmdReady s c ty ops && !(s.mailbox (cmdBox c)).midPacket && !c.chain && (matinsGate s (cmdReads s i)).isNone | none => false
theorem single_of_readable {s : State} {i : Instr} (h : readable s i = true) : ∃ c, Single s i c := by
  unfold readable at h
  split at h
  · rename_i c ty ops e
    simp only [Bool.and_eq_true, Bool.not_eq_true', Option.isNone_iff_eq_none] at h
    exact ⟨c, ⟨ty, ops, e, h.1.1.1, h.1.1.2⟩, h.1.2, h.2⟩
  · cases h
theorem witness_single : ∀ i ∈ (let c := entry none false; [Instr.partCfg c 0x4000000, .partStart c, .partStop c, .partExport c 0x10000000 0x800000, .partImport c 0x4000000,
    .regionBind c 0 0, .regionUnbind c 0, .imageLoad c 0x4000000 76 1, .routeLoad c 0 [], .rankWrite c [], .contract c 0, .record c 0 0 0, .biasSet c 0x10000000 1 true,
    .s2Inv c 0, .mbxAssign c 16 ⟨0, 0, 4, 0, none, 0⟩, .hdmCfg c 0 0 0, .eventCfg c 0x000FFFFFFFFFFFCF, .preemptCmd c 0 0]), readable (before (paged 0 []) i) i = true := by decide +kernel
theorem witness_single_function : ∀ i ∈ (let c := entry (some 0) false; [Instr.preemptCmd c 0 0, .ifenceCmd c, .launch c [] [] 1, .contract c 0, .biasSet c 0x10000000 1 true, .eventCfg c 0,
    .s2Inv c 0, .routeLoad c 0 [], .rankWrite c [], .hdmCfg c 0 0 0, .partStart c, .regionBind c 0 0]), readable (before (paged 0 []) i) i = true := by decide +kernel
theorem witness_not_read : NotRead (paged 0 []) (.eventCfg (entry none false) 0) := ⟨_, _, _, rfl, by decide +kernel⟩
/-- DELIVER and PAGE.REPLY of functions that may and may not send them, chained or not. -/
theorem witness_reads : ∀ f ∈ [none, some (0 : Fin 16)], ∀ ch ∈ [true, false], (f = none → ch = false) →
    (let c := entry f ch; cmdReady (commanded (paged 0 []) c 0x0B) c 0x0B [] && !((commanded (paged 0 []) c 0x0B).mailbox (cmdBox c)).midPacket &&
      cmdReady (commanded (paged 0 []) c 0x0E [5]) c 0x0E [5]) = true := by decide +kernel
theorem witness_ring : bits (0x000FFFFFFFFFFFCF : Word) 5 4 = 0 ∧ bits (0x000FFFFFFFFFFFCF : Word) 63 52 = 0 ∧ bits (16 : Word) 5 4 ≠ 0 ∧ bits (0x0010000000000000 : Word) 63 52 ≠ 0 := by decide
theorem witness_configured : ((commanded (paged 0 [])).part 0).cfg = some { cores := 1, root1 := 0x100000 } ∧ (0x1000 : Word).toNat % 4096 = 0 := by decide +kernel
theorem witness_assign : let s := commanded (paged 0 []); let e : MbxAssign := ⟨0, 0x4000000, 12, 99, none, 0⟩
    4 ≤ e.k ∧ e.k ≤ 12 ∧ e.ring % 64 = 0 ∧ e.wakeCore ∈ partCores s e.owner.val ∧ 16 ∉ partCores s e.owner.val ∧ backed e.ring (64 + 64 * 2 ^ e.k) = true := by decide +kernel
theorem witness_route : fld (0x80000060 : BitVec 32).toNat 25 4 = 0 ∧ fld (0x80000060 : BitVec 32).toNat 0 5 = 0 ∧ routePorts 0x80000060 = [3] ∧ routePorts 0x800002E0 = [23] ∧ routePorts 0x80000300 = [24] := by
  decide +kernel
theorem witness_rank_entry : rankSt (0x40000801 : BitVec 32) = 1 ∧ fld (0x40000801 : BitVec 32).toNat 14 16 = 0 := by decide +kernel
theorem witness_window_command : backed 0x10000000 0x10000000 = true ∧ backed 0x5000000 (0x10000000 / 2 ^ 15) = true ∧ (commanded (paged 0 [])).regions = [] ∧
    rgValid (region 1) = true ∧ rgBase (region 1) < 0x40000000 + 0x10000000 ∧ ¬ (0x40000000 < rgBase (region 1) + rgSize (region 1)) ∧ rgHi hostRegion = 3 ∧ place (rgBase hostRegion) = .host := by decide +kernel
theorem witness_preempt : let s := commanded (paged 0 [])
    (99 : Nat) ∈ partCores s 0 ∧ s.partOf 99 = some 0 ∧ (s.slot (threadOf 99 15)).run ≠ .waiting .irq ∧ (16 : Nat) ∉ partCores s 0 ∧ (0 : Nat) ∈ clusterSet { cores := 1 } := by decide +kernel
theorem witness_bias_command : let s := commanded windowed
    inWindow s 0x10000000 = true ∧ hostBias s 0x10000000 = true ∧ inWindow s 0x1FFFF000 = true ∧ hostBias s 0x1FFFF000 = false ∧ heldLines s 0x1FFFF000 = [] ∧ pageQuiet s 0x1FFFF000 = true ∧
    (s.proc 72).waiters = [] ∧ (biasPlace s 0x1FFFF000).1 < 2 ^ 51 ∧ s.takes = [] ∧ s.hostOps = [] := by decide +kernel
theorem witness_bias_single : ∀ h ∈ [true, false], let i := Instr.biasSet (entry none false) 0x1FFFF000 1 h; readable (before windowed i) i = true := by decide +kernel

theorem witness_bind : bindStatus (commanded (paged 0 [])) 255 (region 1) = 0 ∧ bindStatus (commanded (paged 0 [])) 256 (region 1) = 1 ∧ bindStatus (commanded (appendable [])) 1 (region 1) = 4 := by decide +kernel
theorem witness_unbind : let s := commanded (appendable [])
    rgValid (s.region 0) = true ∧ rgValid (s.region 255) = false ∧ regionBusy s 0 (s.region 0) = false ∧ inRegion (s.region 0) (0xFFFFFF * 64) = true := by decide +kernel
theorem witness_unbind_single : let i := Instr.regionUnbind (entry none false) 0; readable (before (appendable []) i) i = true := by decide +kernel
/-- A handler image of one word of code, bound for protocol 16 and message type 0, at 0x4000000. -/
def imaged : State := commanded { paged 0 [] with mem := (paged 0 []).mem ++ [(0x4000000, 0x67), (0x4000001, 0x62), (0x4000002, 0x72), (0x4000003, 0x67), (0x4000004, 1), (0x400000A, 1),
  (0x4000011, 0x80), (0x4000014, 4), (0x4000018, 1), (0x4000040, 0xEC), (0x4000041, 1), (0x4000044, 16)] }
theorem witness_image : let q := consume imaged (entry none false) 1; let h := homeBytes q 0x4000000 64; let n := Nat.min 76 (64 + imgNat h 20 4 + 8 * imgNat h 24 4)
    n = 76 ∧ imgStatus q (homeBytes q 0x4000000 76) 76 1 = 0 ∧ imgStatus q (homeBytes q 0x4000000 76) 76 0 = 1 := by decide +kernel
/-- Mailbox 16 of partition 0, with its ring at 0x4000000. -/
def mailed : State := (commanded (paged 0 []) (entry (some 0) false) 0x0B).updMailbox 16 fun x => { x with assign := some ⟨0, 0x4000000, 4, 0, some 1, 0⟩ }
theorem witness_deliver : Reads mailed (.deliver (entry (some 0) false) 16 9 0) (entry (some 0) false) ∧ Reads mailed (.deliver (entry (some 0) false) 17 0 0) (entry (some 0) false) :=
  ⟨⟨_, _, rfl, by decide +kernel, by decide +kernel⟩, ⟨_, _, rfl, by decide +kernel, by decide +kernel⟩⟩
theorem witness_deliver_owner : let q := consume mailed (entry (some 0) false) 1
    mailboxOwner mailed 16 = some 0 ∧ mailboxOwner mailed 17 ≠ some 0 ∧ (q.mailbox 16).assign = some ⟨0, 0x4000000, 4, 0, some 1, 0⟩ ∧ (homeWord q 0x4000000 - homeWord q 0x4000008).toNat ≠ 2 ^ 4 := by decide +kernel
/-- The same ring full. -/
def full : State := { mailed with mem := (0x4000000, 16) :: mailed.mem }
theorem witness_deliver_full : let q := consume full (entry (some 0) false) 1; (homeWord q 0x4000000 - homeWord q 0x4000008).toNat = 2 ^ 4 := by decide +kernel
/-- Slot 0 waiting for a page, of which partition 0 has asked under tag 5. -/
def pageAsked : State := ((commanded (paged 0 []) (entry (some 0) false) 0x0E [5]).updPart 0 fun x => { x with pageReqs := [⟨5, 0x4000000, false, 1, 0, 0⟩] }).updSlot 0 fun x => { x with run := .waiting (.page 5 0x4000000 .loadFault) }
theorem witness_page_reply : Reads pageAsked (.pageReply (entry (some 0) false) 5) (entry (some 0) false) := ⟨_, _, rfl, by decide +kernel, by decide +kernel⟩
theorem witness_page_asked : (pageAsked.part 0).pageReqs = [⟨5, 0x4000000, false, 1, 0, 0⟩] ∧ (pageAsked.slot 0).run = .waiting (.page 5 0x4000000 .loadFault) ∧ bits (5 : Word) 15 0 = 5 ∧
    (5 : Word).getLsbD 16 = false ∧ (0x1FFFF : Word).toNat < 2 ^ 17 ∧ (0 : Nat) ∈ coreSet { cores := 1, root1 := 0x100000 } ∧ pageAsked.partOf 0 = some 0 := by decide +kernel

/-! ## Partitions -/

/-- The configuration of partition 0 on cluster 0 as the host writes it, at 0x4000000, but for the low byte of its time slice and the high one of its
context area's address. -/
def configured (slice ctx : Byte) : State := { paged 0 [] with
  parts := [], clusters := []
  mem := (paged 0 []).mem ++ [(0x4000004, slice), (0x4000005, 0x86), (0x4000006, 1), (0x4000008, 1), (0x400001A, 0x10), (0x4000030, 12)] ++
    (if ctx = 0 then [] else [(0x4000043, ctx)]) ++ [(0x4000049, 0x10), (0x400004F, 0xFE)] }
theorem witness_configuration : let l := homeBytes (consume (configured 0xA0 8) (entry none false) 1) 0x4000000 128
    cfgMalformed l 0 = false ∧ (parseCfg l).cores = 1 ∧ (parseCfg l).slice = 100000 ∧ (parseCfg l).ctxBase = 0x8000000 ∧ partClusters (configured 0xA0 8) 0 = [] ∧
    clusterSet (parseCfg l) = [0] ∧ ((configured 0xA0 8).cluster 0).part = none := by decide +kernel
theorem witness_configuration_accepted : let q := consume (configured 0xA0 8) (entry none false) 1; cfgRefused q 0 (parseCfg (homeBytes q 0x4000000 128)) = false := by decide +kernel
theorem witness_configuration_refused : (let q := consume (configured 0x9F 8) (entry none false) 1; cfgMalformed (homeBytes q 0x4000000 128) 0 = true) ∧
    (let q := consume (configured 0xA0 0) (entry none false) 1; cfgMalformed (homeBytes q 0x4000000 128) 0 = false ∧ cfgRefused q 0 (parseCfg (homeBytes q 0x4000000 128)) = true) := by decide +kernel
/-- Partition 0 configured on cluster 0 and not running. -/
def stopped : State := (commanded (paged 0 [])).updPart 0 fun x => { x with running := false }
theorem witness_start : (stopped.part 0).running = false ∧ (stopped.part 0).exported = false ∧ stopped.partner 0 = none ∧ ((commanded (paged 0 [])).part 0).running = true ∧
    (0 : Nat) ∈ coreSet { cores := 1, root1 := 0x100000 } ∧ stopped.partOf 0 = some 0 := by decide +kernel
theorem witness_stop : let s := commanded (paged 0 [])
    swapping s 0 = false ∧ inPlaceAt s 0 0 = true ∧ (s.part 1).cfg = none ∧ (s.part 0).contract = none ∧ (s.part 0).mode = .off ∧ (s.part 0).launches = [] ∧
    swapping (s.updCluster 0 fun x => { x with swap := .halted 0 none 0 }) 0 = true ∧ inPlaceAt (s.updCluster 0 fun x => { x with part := some 1 }) 0 0 = false ∧ remotesAnswered s 0 = true := by decide +kernel
theorem witness_export : backedOrHost 0x10000000 0x800000 = true ∧ imageBytes { cores := 1, root1 := 0x100000 } ≤ 0x800000 ∧ (0x10000000 : Nat) % 4096 = 0 := by decide +kernel
theorem witness_import_refused : importStatus (consume (commanded (paged 0 [])) (entry none false) 1) 0 0x4000000 = 1 := by decide +kernel
theorem witness_launch_refused : (65536 : Nat) < 65537 ∧ (8 : Nat) < 9 ∧ (0 : Nat) < 1 ∧ (64 : Nat) < 65 := by decide
theorem witness_launch : let s := commanded (paged 0 [])
    (readGlobal (grantLeases (consume s (entry (some 0) false) 1) 0 [] []) { cores := 1, root1 := 0x100000 } 0x4000000 32).map (·.length) = some 32 ∧ (s.part 0).launches = [] ∧
    (s.part 0).contract = none := by decide +kernel
/-- A launch whose one record is read and has yet to reach a core. -/
def seeding : State := (commanded (paged 0 [])).updPart 0 fun x => { x with launches := [{ tag := 7, addrs := [], recs := [⟨1, 2, 3, 4, none, 0, some 7, some 7⟩], quota := 1, ranges := [], stage := .seeding }] }
theorem witness_seed : (seeding.part 0).launches.map (fun l => (l.stage, l.recs, l.quota)) = [(.seeding, [⟨1, 2, 3, 4, none, 0, some 7, some 7⟩], 1)] ∧ (seeding.part 0).running = true ∧ swapping seeding 0 = false ∧
    seeding.partner 0 = none ∧ (partCores seeding 0).find? (fun k => queuedOf seeding 0 k 7 < 1) = some 0 ∧ seeding.partOf 0 = some 0 ∧ (seeding.core 0).deque.length < 64 ∧ (seeding.core 0).spillPath = [] := by decide +kernel
theorem witness_exchange : let s := (paged 0 []).updCluster 0 fun x => { x with swap := .flushed 0 (some 1) 2 }; (s.cluster 0).swap = .flushed 0 (some 1) 2 := by decide +kernel

/-! ## Registers the host writes -/

theorem witness_notify : bar0Open mailed = true ∧ reachesPage mailed 0 16 = true ∧ reachesPage mailed 16 255 = true ∧ reachesPage mailed 0 0 = true ∧ reachesPage mailed 0 1 = false ∧ reachesPage mailed 16 256 = false ∧
    bar0Open (paged 0 []) = false ∧ isCommandBox 15 = true ∧ isCommandBox 16 = false ∧ isCommandBox 255 = true ∧ (mailed.mailbox 0).assign = none := by decide +kernel
theorem witness_notify_slot : (mailed.mailbox 16).assign = some ⟨0, 0x4000000, 4, 0, some 1, 0⟩ ∧ (mailed.part 0).mode = .off ∧ (mailed.mailbox 16).notify = 0 ∧ (mailed.mailbox 16).waiters = [] ∧
    clusterServes mailed 0 (clusterOf 0) = true ∧ mailed.partner 0 = none := by decide +kernel
theorem witness_notify_occupied : ((mailed.updSlot (threadOf 0 1) fun x => { x with run := .halted }).slot (threadOf 0 1)).run ≠ .idle ∧
    ((mailed.updSlot (threadOf 0 1) fun x => { x with run := .halted }).slot (threadOf 0 1)).run ≠ .waiting .irq := by decide +kernel
theorem witness_bar2 : bar2Open (paged 0 []) = true ∧ bar2Open { paged 0 [] with boot := { st := .d3hot } } = false ∧ bar2Open { paged 0 [] with boot := { st := .off } } = false := by decide +kernel
/-- Partition 0 being recorded, with one entry in the ring of processor 4. -/
def recorded : State := ((paged 0 []).updPart 0 fun x => { x with mode := .record, traceLog := 0x10000000 }).updProc 4 fun x => { x with trace := { on := true, entries := [⟨0x4000000, 0, 64, 0, 0, 0, false, some 0⟩] } }
theorem witness_recorded : (ringOf recorded 4).entries = [⟨0x4000000, 0, 64, 0, 0, 0, false, some 0⟩] ∧ (recorded.part 0).mode = .record ∧ (ringOf (paged 0 []) 4).entries = [] := by decide +kernel
theorem witness_replay : let s := (paged 0 []).updPart 0 fun x => { x with mode := .replay, heldSince := [(4, 9)] }
    look 4 (s.part 0).heldSince = some 9 ∧ (s.part 0).mode = .replay ∧ (s.part 0).diverged = false := by decide +kernel

/-! ## Start-up, power and housekeeping -/

/-- An image Matins starts from. -/
def image (sv : Byte) : BootImage :=
  { image := leBytes 4 0x6D617470 ++ [sv, 0, 1, 0] ++ List.replicate 440 0, garg := leBytes 4 0x67726267 ++ [1, 0, 0, 0], hbmOk := true, ddrOk := true, failedPorts := 0 }
theorem witness_image_form : patchForm (image 64).image = true ∧ patchForm (image 65).image = false ∧ imgNat (image 64).image 4 2 = 64 ∧ gargCheck (image 0).garg = false ∧
    imgNat (image 0).garg 6 2 ≠ 1 := by decide +kernel
/-- A warm start with the image that the last start latched takes it without a check. -/
theorem witness_warm_start : let l := (image 5).image; let b : Boot := { matinsHash := sha256 l }; !(!(true && sha256 l = b.matinsHash)) = true := by simp
theorem witness_boot_states : State.reset.boot.st = .starting ∧ (commanded (paged 0 [])).boot.st = .ready ∧ bar2Open (commanded (paged 0 [])) = true ∧
    bar2Open { paged 0 [] with boot := { st := .recovery } } = true := by decide +kernel
/-- A cluster with nothing on it. -/
def empty : State := { clusters := [(0, {})] }
theorem witness_gate : (empty.cluster 0).clock = .running ∧ (empty.cluster 0).swap = .none ∧ contractAnchor empty 0 = false ∧ wanted empty 0 = false ∧
    (∀ c ∈ coresOf 0, enginesIdle (empty.core c) = true ∧ ∀ i, i < 16 → (empty.slot (threadOf c i)).run = .idle) := by decide +kernel
theorem witness_wake : let s := (paged 0 []).updCluster 0 fun x => { x with clock := .clockGated }
    wanted s 0 = true ∧ (s.cluster 0).clock ≠ .running ∧ (∀ m ∈ s.mailboxes, isCommandBox m.1 = true) := by decide +kernel
theorem witness_anchor : contractAnchor ((paged 0 []).updPart 0 fun x => { x with contract := some { period := 100, budget := 10, notify := false, left := 10, start := 0 } }) 0 = true := by decide +kernel
theorem witness_attest : let s := { commanded (paged 0 []) with attest := { request := true } }; bar0Open s = true ∧ s.attest.request = true := by decide +kernel
theorem witness_throttle : ({ level := 3 } : Tele).level = 3 ∧ ({} : Tele).level ≠ 3 := by decide
theorem witness_host_wait : (((base []).updSlot 0 fun x => { x with run := .waiting .host }).slot 0).run = .waiting .host := rfl

/-! ## Steps -/

/-- A slot that issues ADD s4, s5, s6 at offset 0x100 of the scratchpad. -/
def issuing : State := ({ commanded (paged 0 []) with inputs := [.issue 0] } : State).updCore 0 fun q => { q with ls := q.ls.wrBytes 0x100 (leBytes 4 (word 0 0x01 4 5 6 0)) }
theorem witness_step : issuing.inputs = [.issue 0] ∧ steps issuing = true ∧ steps { issuing with halted := true } = false ∧ (issuing.slot 0).pc.toNat % 4 = 0 ∧ spaceOf (issuing.slot 0).pc = some .spd ∧
    fld (issuing.slot 0).pc.toNat 45 11 = 0 ∧ offsetOf (issuing.slot 0).pc + 20 ≤ issuing.spSize 0 ∧ machineDecodes 0 1 = true ∧ machineDecodes 0 0x7A = false := by decide +kernel
theorem witness_step_ready : ready (dropInput (passTime issuing)) 0 = true := by
  show ready ({ issuing with inputs := [] } : State) 0 = true
  decide +kernel
theorem witness_step_fetch : fetch (countStep { dropInput issuing with cur := 0 } 0) 0 = .ok (leBytes 4 (word 0 0x01 4 5 6 0)) (countStep { dropInput issuing with cur := 0 } 0) ∧
    (decode (leBytes 4 (word 0 0x01 4 5 6 0))).toOption = some (.add 4 5 6, 4) ∧ (decode (leBytes 4 0)).toOption = none := by
  refine ⟨by rfl, ?_, ?_⟩ <;> decide +kernel
theorem witness_step_event : ({ issuing with inputs := [.event (.refresh 0)] } : State).inputs = [.event (.refresh 0)] := rfl
theorem witness_kept : NothingHeldBack State.reset ∧ MemoryCanonical State.reset ∧ MemoryCanonical (paged 0 []) := by unfold NothingHeldBack MemoryCanonical; decide +kernel
theorem witness_memory : (Memory.wrBytes [] 5 [1, 0, 2]).wf = true ∧ Memory.wf [] = true ∧ (Instr.add 4 5 6).hasWords = true ∧ (Instr.add 4 5 6).wf = true := by decide +kernel

/-! ## More states that meet the hypotheses of a statement -/

theorem witness_split_in_progress : lsBusy (system []) 0 = false ∧ lsBusy (splitting 12) 0 = true ∧ (system []).me.mode ≠ .u ∧
    lsBusy ((system []).updSlot 1 fun x => { x with run := .waiting (.lsSplit 3) }) 0 = true := by decide +kernel
theorem witness_return : hasSpills ((system []).core 0) 0 = false ∧ tlbisOver (system []) 0 = true ∧
    tlbisOver ((system []).updMe fun x => { x with tlbis := [.all] }) 0 = false ∧ ((system []).cluster 0).wcache = [] := by decide +kernel
theorem witness_tlbi_waiter : let s := (system []).updMe fun x => { x with tlbis := [.all], run := .waiting .tlbsync }
    (s.slot 0).run = .waiting .tlbsync ∧ (s.slot 0).tsync = [] ∧ ∀ c ∈ coresOf 0, (s.core c).reqs = [] := by decide +kernel
theorem witness_ordered : ordered (paged 1 []) 0 = true ∧ seenSettled (paged 0 []) 0 = true ∧ look (128 + slotOf (paged 0 []).cur) ((paged 0 []).core 0).reqs = none ∧
    ((base []).me.unmaps = []) ∧ ordered (base []) 0 = true := by decide +kernel
theorem witness_prefetch_nowhere : blocksOf (sp 64) 64 = [sp 64] ∧ blocksOf 0xFD00000000000000 1 = [0xFD00000000000000] ∧ spaceOf (sp 64) ≠ some .glb ∧ spaceOf 0xFD00000000000000 ≠ some .prv := by
  decide +kernel
theorem witness_free_slots : (freeSlots (queued 2) 0).head? = some 0 ∧ freeSlots (backedUp 0 1) 0 ≠ [] ∧ (freeSlots { inTransit with transit := [] } 1).head? = some 16 := by decide +kernel
theorem witness_mailbox_behind : let s := (boxed 5).updMailbox 254 fun x => { x with waiters := [3, 0] }
    ownMailbox s (s.rd 4) = some 254 ∧ (s.mailbox 254).notify ≠ 0 ∧ (s.mailbox 254).waiters.head? = some 3 ∧ s.cur ≠ 3 := by decide +kernel
theorem witness_part_done_mode : let s := (paged 0 []).updMe fun x => { x with mode := .s }
    s.partOf s.myCore = some 0 ∧ s.me.mode ≠ .u ∧ partRemotes s 0 = false ∧ partRemotes (s.updMe fun x => { x with ff := 1 }) 0 = true := by decide +kernel
theorem witness_injected : let s := (wired []).updCore 0 fun q => { q with injq := [{ slot := 0, dest := 5, w := #v[1, 2, 3, 4, 5, 6, 7, 8], rel := false, dev := 1, part := 2 }] }
    ((s.core s.myCore).injq.map (·.dev)) = [1] ∧ s.devNum ≠ 1 ∧ outstanding s 1 false < 2 ^ 15 ∧ reachable s 1 = true := by decide +kernel
theorem witness_target_plays : ((wired []).part 0).mode ≠ .replay ∧ entriesUsed (wired []) bulk < 256 ∧ (reasmOf (wired []) bulk).isSome = false := by decide +kernel
theorem witness_lost_packet : let p := { packet 1 [] with dst := 9, src := 1 }
    p.dst ≠ (wired []).devNum ∧ p.src ≠ (wired []).devNum ∧ portsTo (wired []) p.src ≠ [] ∧ portsTo (wired []) p.dst = [] ∧ p.hop < 5 ∧ 5 ≤ { p with hop := 5 }.hop := by decide +kernel
theorem witness_reported : let o := remoteOp (some 7) none []; let s := waitingFor o (.pending none false)
    opOf s ((packet 13 [5, 0, 0, 1]).words.getD 3 0).toNat ((packet 13 [5, 0, 0, 1]).words.getD 2 0 |>.getLsbD 0) 9 = some o := by decide +kernel
theorem witness_noticed : let s := waitingFor dropOp .free; let p := packet 9 [0, 0, 0, 1]
    opOf s (p.words.getD 3 0).toNat ((p.words.getD 0 0).getLsbD 0) p.seq = some dropOp ∧ (dropOp.packets.any fun y => y.off = p.off && y.own = p.own && y.drop) = true := by decide +kernel
theorem witness_bulk_room : reasmRoom (waitingFor bulkRead (.pending (some 64) false)) { packet 8 [] with tot := 64, flits := [5] } = true := by decide +kernel
theorem witness_own_tags : slotTag 128 = true ∧ slotTag 144 = false ∧ ({ msg := toCore 0 0 0 } : Req).dead = false ∧ ({ msg := toCore 0 0 0 } : Req).pref = false := by decide +kernel
theorem witness_quiet_home : (∀ x ∈ (atHome 1 Ty.gets 0 (0, 0)).net, x.type ≠ Ty.push) ∧ ((atHome 1 Ty.gets 0 (0, 0)).core 3).held = [] := by decide +kernel

/-! A home with one request under way, which the owner's data or the sharers' acknowledgement lets it grant -/

/-- The request of core 6 that the home of 0x4000000 has put off. -/
def putOff (ty : Nat) : Msg := mkMsg {} 6 1 (0x800 + 4) ty 9 0x4000000 0 0 0 none none
/-- The home of the block with that request, an answer of core 3 next, and the entry given. -/
def answered (proto ty reqTy : Nat) (e : De) (frees : Tab Nat) : State :=
  (atHome proto ty 0 e).updProc 4 fun q => { q with pend := [(entryAddr (region proto) 0x4000000, putOff reqTy)], frees := frees }
theorem open_home (proto ty reqTy : Nat) (e : De) (l : Tab Nat) (h : (answered proto ty reqTy e l).regionOf 0x4000000 = some (0, region proto) ∧ (toHome ty 0).addr = 0x4000000 ∧
    rgFail (region proto) = false ∧ homeIn (region proto) 0x4000000 = 4) : OpenAtItsHome (answered proto ty reqTy e l) 0 4 0 (region proto) (toHome ty 0) := by
  obtain ⟨h1, h2, h3, h4⟩ := h
  exact ⟨⟨rfl, rfl, rfl⟩, ⟨rfl, rfl, rfl⟩, by rw [h2]; exact h1, h3, by rw [h2]; exact h4, by omega, rfl, fun _ _ => rfl, witness_unwatched _ _ rfl rfl⟩
/-- A block being recalled from its owner, and one whose sharers are being invalidated. -/
def recalled : De := deState (dePending (deSetOwn (0, 0) (some 3)) 0 6) 4 true
def invalidated : De := deState (dePending (deAdd (0, 0) 3) 1 6) 3 true
theorem witness_write_back_grants : OpenAtItsHome (answered 1 Ty.wbData Ty.gets recalled []) 0 4 0 (region 1) (toHome Ty.wbData 0) ∧
    OpenAtItsHome (answered 1 Ty.invAck Ty.getx invalidated []) 0 4 0 (region 1) (toHome Ty.invAck 0) :=
  ⟨open_home _ _ _ _ _ (by decide +kernel), open_home _ _ _ _ _ (by decide +kernel)⟩
theorem witness_write_back_entry : let s := answered 1 Ty.wbData Ty.gets recalled []; let e := s.entry (entryAddr (region 1) 0x4000000)
    deSt e = 4 ∧ deKind e = 0 ∧ (look (entryAddr (region 1) 0x4000000) (s.proc 4).pend).map (fun q => (q.type, q.blk)) = some (Ty.gets, (toHome Ty.wbData 0).blk) ∧
    (∀ x ∈ s.net, x.type ≠ Ty.push) ∧ place ((toHome Ty.wbData 0).blk * 64) ≠ .host := by decide +kernel
theorem witness_acknowledgement_entry : let s := answered 1 Ty.invAck Ty.getx invalidated []; let e := s.entry (entryAddr (region 1) 0x4000000)
    deSt e = 3 ∧ deKind e ≠ 0 ∧ (look (entryAddr (region 1) 0x4000000) (s.proc 4).pend).map (fun q => (q.type, q.blk)) = some (Ty.getx, (toHome Ty.invAck 0).blk) ∧
    (∀ x ∈ s.net, x.type ≠ Ty.push) := by decide +kernel
/-- A sealed page that is being freed, with the answer of one replica agent to come. -/
theorem witness_free_ends : OpenAtItsHome (answered 7 Ty.invAck Ty.sealq (page 64 64 0 3) [(entryAddr (region 7) 0x4000000, 1)]) 0 4 0 (region 7) (toHome Ty.invAck 0) ∧
    look (entryAddr (region 7) 0x4000000) ((answered 7 Ty.invAck Ty.sealq (page 64 64 0 3) [(entryAddr (region 7) 0x4000000, 1)]).proc 4).frees = some 1 :=
  ⟨open_home _ _ _ _ _ (by decide +kernel), by decide +kernel⟩
theorem witness_free_begins : AtItsHome (atHome 7 Ty.sealq 1 (page 64 64 0 2)) 0 4 0 (region 7) (toHome Ty.sealq 1) ∧
    pageHolders (atHome 7 Ty.sealq 1 (page 64 64 0 2)) 0x4000000 = [] ∧ ((atHome 7 Ty.sealq 1 (page 64 64 0 2)).proc 4).copies = [] :=
  ⟨witness_append_page _ _ _ (by decide +kernel) (by decide +kernel) (by decide +kernel), by decide +kernel, by decide +kernel⟩
/-- A loadable protocol's message at its home, with a handler for its type. -/
def custom : State := (atHome 16 30 0 (0, 0)).updProc 4 fun q => { q with dtab := [(32 * 16 + 30, 0x41)] }
theorem witness_custom : AtItsHome custom 0 4 0 (region 16) (toHome 30 0) := by
  have h : custom.regionOf 0x4000000 = some (0, region 16) ∧ (toHome 30 0).addr = 0x4000000 ∧ rgFail (region 16) = false ∧ homeIn (region 16) 0x4000000 = 4 ∧
    deTr (custom.entry (entryAddr (region 16) 0x4000000)) = false := by decide +kernel
  obtain ⟨h1, h2, h3, h4, h5⟩ := h
  exact ⟨⟨⟨rfl, rfl, rfl⟩, ⟨rfl, rfl, rfl⟩, by rw [h2]; exact h1, h3, by rw [h2]; exact h4, by omega, rfl, fun _ _ => rfl, witness_unwatched _ _ rfl rfl⟩, by rw [h2]; exact h5⟩
theorem witness_custom_handler : 16 ≤ rgProto (region 16) ∧ (toHome 30 0).lane = false ∧ (∀ x ∈ custom.net, x.arrived = 0) ∧ (custom.slot (threadOf (0x800 + 4) 4)).run = .idle ∧
    look (32 * rgProto (region 16) + (toHome 30 0).type) (custom.proc 4).dtab = some 0x41 ∧ (0x41 : BitVec 32).getLsbD 0 = true := by decide +kernel

/-! Commands, logs and steps -/

/-- A contract entry for partition 0: valid, period 1,000,000 and a budget. -/
def asks (budget : Nat) : BitVec 256 := BitVec.ofNat 256 (1000000 + budget * 2 ^ 64 + 2 ^ 128)
/-- Partition 0 taking leases, as R360 asks of a contract. -/
def leasing : State := (paged 0 []).updPart 0 fun x => { x with cfg := some { cores := 1, root1 := 0x100000, leased := true } }
theorem witness_contract_record : ctBits (asks 500000) 255 136 = 0 ∧ ctBits (asks 500000) 131 130 = 0 ∧ ctBits (asks 500000) 135 132 = 0 ∧ ctBits (asks 500000) 128 128 = 1 ∧
    ctBits (asks 500000) 63 0 < 2 ^ 40 ∧ 1 ≤ ctBits (asks 500000) 127 64 ∧ (leasing.part 0).cfg = some { cores := 1, root1 := 0x100000, leased := true } ∧
    admits leasing 0 1000000 500000 = true ∧ admits leasing 0 1000000 990000 = false ∧ ctBits 0 128 128 = 0 := by decide +kernel
theorem witness_contract_single : ∀ f ∈ [none, some (0 : Fin 16)], let i := Instr.contract (entry f false) (asks 500000); readable (before leasing i) i = true := by decide +kernel
theorem witness_record : ((commanded (paged 0 [])).part 0).heldNotify = [] ∧ (0 : Nat) ≤ 2 ∧ ¬ (3 : Nat) ≤ 2 := by decide +kernel
theorem witness_translations_used : ∀ k ∈ clusterSet { cores := 1 }, usersOf (commanded (paged 0 [])) k (fun e => e.part = 0) = [] := by decide +kernel
/-- A load of core 0 under way for a block that its data TLB names. -/
def inUse : State := (commanded (paged 0 [])).updCore 0 fun q => { q with
  reqs := [(3, { msg := toCore 0 3 0 })], dtlb := [{ part := 0, va := 0, size := 15, pa := 0, ok := 0, nr := false, g := false, u := true, x := true, w := true, r := true }] }
theorem witness_translations_in_use : ∃ k ∈ clusterSet { cores := 1 }, usersOf inUse k (fun e => e.part = 0) ≠ [] := ⟨0, by decide +kernel, by decide +kernel⟩
theorem witness_export_closed : ((commanded (paged 0 [])).part 0).closing = [] := by decide +kernel
theorem witness_exchange_rings : let s := (paged 0 []).updCluster 0 fun x => { x with swap := .flushed 0 (some 1) 2 }; ∀ n ∈ coresOf 0, (s.core n).trace.entries = [] := by decide +kernel
theorem witness_stray : let s := (paged 0 []).updPart 0 fun x => { x with mode := .replay, stray := some 4 }
    (s.part 0).stray = some 4 ∧ (s.part 0).stray ≠ some 5 ∧ look 5 (s.part 0).heldSince = none ∧ (s.part 0).mode = .replay := by decide +kernel
/-- A slot with an interrupt pending before an instruction that is none. -/
noncomputable def interrupted (w : Nat) : State := ({ commanded (pending [.preempt 9]) with inputs := [.event (.interruptTake 0)] } : State).updCore 0 fun q => { q with ls := q.ls.wrBytes 0x100 (leBytes 4 w) }
theorem witness_interrupt_step : (interrupted 0).inputs = [.event (.interruptTake 0)] ∧ steps (interrupted 0) = true ∧ firstIntr ((interrupted 0).slot 0).pend ≠ none ∧
    mayInterrupt ((interrupted 0).slot 0) = true := by decide +kernel
theorem witness_interrupt_ready : ready (dropInput (passTime (interrupted 0))) 0 = true ∧ ready (dropInput (passTime { interrupted 0 with parts := [] })) 0 = false := by
  show ready ({ interrupted 0 with inputs := [] } : State) 0 = true ∧ ready ({ interrupted 0 with inputs := [], parts := [] } : State) 0 = false
  decide +kernel
theorem witness_interrupt_fault : (match runSlot (dropInput (interrupted 0)) 0 with | .next u => faulted (dropInput (interrupted 0)) u 0 | _ => false) = true ∧
    (match runSlot (dropInput (interrupted (word 0 0x01 4 5 6 0))) 0 with | .next u => faulted (dropInput (interrupted 0)) u 0 | _ => true) = false := by decide +kernel

/-! ## States for the clauses on poison, caches, barriers, and refusals -/

/-- Core 0 whose trap vector is a pointer. -/
def vectored62 (v : Word) : State := (base []).updCore 0 fun q => { q with trVector := BitVec.ofNat 62 (v.toNat / 4) }
theorem witness_trap_dead_places : let v (s : State) : Word := (s.core 0).trVector.setWidth 64 <<< 2
    spaceOf (v (vectored62 0xFE00200000000000)) = some .spd ∧ fld (v (vectored62 0xFE00200000000000)).toNat 45 11 ≠ 0 ∧
    spaceOf (v (vectored62 (sp 0x20000))) = some .spd ∧ (vectored62 (sp 0x20000)).spSize 0 < offsetOf (v (vectored62 (sp 0x20000))) + 4 ∧
    poisonAt { base [] with poisoned := [lsBlk 0 0x1000] } (lsBlk 0) (({ base [] with poisoned := [lsBlk 0 0x1000] } : State).spOffset 0 0x1000) 4 ≠ none ∧
    spaceOf (v (vectored62 0x4000000)) = some .glb := by decide +kernel
/-- With no partition on the core, no page can be fetched from. -/
theorem witness_trap_dead_page : ∀ s1 : State, s1 = { vectored62 0x4000000 with slots := s1.slots } → ∃ f s2, translate s1 0 false .fetch false 0x4000000 = (.trap f, s2) := by
  intro s1 h
  rw [h]
  exact ⟨_, _, rfl⟩
/-- Exact values of each kind, and neighbours in f32 and in t8. -/
theorem witness_exact : unpack .f32 0x3FC00000 = .fin false 0xC00000 (-23) ∧ unpack .f32 0x80000000 = .fin true 0 (-149) ∧ (0 : Rm).toNat ≤ 4 ∧
    cmpMag ⟨false, 3, -1, false⟩ 0xC00000 (-23) = .eq ∧ cmpMag ⟨false, 2 ^ 25 + 1, -25, false⟩ 0x800000 (-23) = .gt ∧ cmpMag ⟨false, 2 ^ 25 + 1, -25, false⟩ 0x800001 (-23) = .lt ∧
    unpack .f32 0x3F800000 = .fin false 0x800000 (-23) ∧ unpack .f32 0x3F800001 = .fin false 0x800001 (-23) ∧ (2 : Nat) ^ 32 ≤ 2 ^ 32 + 1 ∧
    (∃ m e, unpack .t8 1 = .fin false m e ∧ cmpMag ⟨false, 1, -100, false⟩ m e = .lt) ∧ (∃ m e, unpack .f32 Fmt.f32.maxCode = .fin false m e ∧ cmpMag ⟨false, 1, 200, false⟩ m e = .gt) :=
  ⟨by decide +kernel, by decide +kernel, by decide, by decide +kernel, by decide +kernel, by decide +kernel, by decide +kernel, by decide +kernel, by decide,
    ⟨_, _, rfl, by decide +kernel⟩, ⟨_, _, rfl, by decide +kernel⟩⟩
/-- Core 0 with byte 0x45 of its scratchpad in a poisoned block. -/
def poisonedAt (o : Nat) : State := { base [(5, sp o)] with poisoned := [lsBlk 0 0x40] }
theorem witness_poison : InScratchpad (poisonedAt 0x3C) (sp 0x3C) 8 ∧ poisonAt (poisonedAt 0x3C) (lsBlk 0) 0x3C 8 = some 4 ∧ poisonAt (poisonedAt 0x38) (lsBlk 0) 0x38 8 = none ∧
    ReadsScratchpad (poisonedAt 0x38) (sp 0x38) 8 := by unfold ReadsScratchpad InScratchpad; decide +kernel

/-- Core 0 with a line of block 0x100000, in a region of a protocol, and bytes of it written in the cluster's L2. -/
def lined (proto : Nat) (l : Tab Line) (l2 : Tab L2Line) : State :=
  (({ paged 0 [(4, 1), (5, 0x4000000)] with regions := if proto = 0 then [] else [(0, region proto)] } : State).updCore 0 fun q => { q with lines := l }).updCluster 0 fun k => { k with l2dirty := l2 }
theorem witness_global_store : let s := lined 0 [] []; let u := lined 1 [(0x4000FF8 / 64, { tag := some .writable })] []
    translate s 0 true .store false 0x4000FF8 = (.ok (leaf 0 0x4000FF8), (translate s 0 true .store false 0x4000FF8).2) ∧
    translate u 0 true .store false 0x4000FF8 = (.ok (leaf 0 0x4000FF8), (translate u 0 true .store false 0x4000FF8).2) ∧ spaceOf 0x4000FF8 = some .glb :=
  ⟨Prod.ext (by decide +kernel) rfl, Prod.ext (by decide +kernel) rfl, by decide +kernel⟩
theorem witness_global_store_place : let s := lined 0 [] []; onCore s.cur = true ∧ (s.core 0).stash = [] ∧ (leaf 0 0x4000FF8).ok ≠ 3 ∧ (0x4000FF8 : Nat) % 64 + 8 ≤ 64 ∧ s.hdmSize = 0 ∧
    AllReleased s ∧ seenSettled s 0 = true ∧ backingOf s 0 0x4000FF8 8 = none ∧ s.protoOf 0x4000FF8 = 0 ∧ 2 ≤ scopeRank .die ∧ ringOn s (s.homeOf 0x4000FF8) = false ∧
    s.partOf 0 = some 0 ∧ (s.part 0).mode ≠ .replay := by unfold AllReleased; decide +kernel
theorem witness_global_store_lines : let direct := lined 0 [(0x4000FF8 / 64, { tag := none })] []; let tagged := lined 1 [(0x4000FF8 / 64, { tag := some .writable })] []
    (lineOf direct 0 (0x4000FF8 / 64)).map (fun l => (l.stash, l.stream, l.l2, l.tag)) = some (false, none, false, none) ∧ direct.protoOf 0x4000FF8 = 0 ∧
    (lineOf tagged 0 (0x4000FF8 / 64)).map (fun l => (l.stash, l.stream, l.l2, l.tag)) = some (false, none, false, some .writable) ∧ tagged.protoOf 0x4000FF8 ≠ 0 ∧
    look (0x4000FF8 / 64) ((lined 0 [] [(0x4000FF8 / 64, {})]).cluster (clusterOf 0)).l2dirty = some {} := by decide +kernel
theorem witness_cache_lines : ∀ g ∈ [Tag.readOnly, .writable], let s := lined 1 [(0x100000, { tag := some g, data := 5 })] []
    1 ≤ (s.rd 4).toNat ∧ (s.rd 4).toNat ≤ 64 ∧ lineOf s 0 0x100000 = some { tag := some g, data := 5 } ∧ (s.core 0).puts = [] ∧ (s.cluster 0).l2dirty = [] ∧
    (∀ o ∈ coresOf 0, o ≠ 0 → (s.core o).lines = [] ∧ (s.core o).puts = []) ∧ relPending s 0 0x100000 = false ∧ s.protoOf (0x100000 * 64) ∉ [0, 2, 4, 6] ∧
    spaceOf (s.rd 5) = some .glb ∧ (s.rd 5).toNat % 64 = 0 := by decide +kernel
/-- The same core with the translation of the page in its TLBs. -/
def known (g : Tag) : State := { dirty with regions := [(0, region 1)] }.updCore 0 fun q => { q with lines := [(0x100000, { tag := some g, data := 5 })] }
theorem witness_cache_place : ∀ g ∈ [Tag.readOnly, .writable], (physOf (known g) (known g).cur ((known g).rd 5)).1 = some 0x4000000 := by decide +kernel
theorem witness_cache_place_state : (physOf (known .writable) 0 0x4000000).2 = known .writable := by decide +kernel
/-- Slot 0 in CODEFLUSH of the block at 0x4000000, and the news of it under way or not. -/
def flushing (told : Bool) : State :=
  { (lined 1 [] []).updMe fun x => { x with run := .waiting (.codeflush 0x100000 0x100000 .pkg 4) } with
    mcasts := if told then [(0, { home := 4, addr := 0x4000000, left := [3], writer := some 0 })] else [] }
theorem witness_codeflush_told : let blks := (physBlocks (flushing true) 0 ((List.range (0x100000 + 1 - 0x100000)).map fun i => BitVec.ofNat 64 ((0x100000 + i) * 64))).1
    ((flushing true).slot 0).run = .waiting (.codeflush 0x100000 0x100000 .pkg 4) ∧ (∃ x ∈ (flushing true).mcasts, x.2.writer.isSome = true ∧ x.2.addr / 64 ∈ blks) ∧
    ∀ x ∈ (flushing false).mcasts, x.2.writer.isSome = true → x.2.addr / 64 ∉ blks :=
  ⟨by decide +kernel, ⟨_, .head _, by decide +kernel, by decide +kernel⟩, by decide +kernel⟩
theorem witness_prefetch_caches : ((base [(5, 0x4000000)]).core 0).lines = [] ∧ lsBusy (base []) 0 = false := by decide +kernel
theorem witness_atomic_bias : (paged 0 []).protoOf 0x4000FF8 = 0 ∧ biasAway (paged 0 []) 0x4000FF8 = false := by decide +kernel
theorem witness_free_seal_user : CanTrap (appendable []) ∧ (appendable []).me.mode = .u := by unfold CanTrap Enterable; decide +kernel
theorem witness_anew : (base []).me.got = none ∧ ReadsScratchpad (base [(4, sp 0x20)]) (sp 0x20) 32 ∧ ReadsScratchpad (ranged 20) (sp 0) 64 := by
  unfold ReadsScratchpad InScratchpad; decide +kernel
/-- A barrier of core 0 alone for slot 0, and a rectangle that is none. -/
theorem witness_barrier_configured : let v : Word := 0x4000000100000000; let s := paged 0 [(4, v)]
    v.getLsbD 62 = true ∧ bits v 4 0 ≤ bits v 9 5 ∧ bits v 15 10 ≤ bits v 21 16 ∧ bits v 4 0 ≤ 0 ∧ 0 ≤ bits v 9 5 ∧ s.cfgOf 0 = some { cores := 1, root1 := 0x100000 } ∧ 0 ∈ coreSet { cores := 1 } ∧
    bits v 47 32 ≠ 0 ∧ s.slotsWhere 0 (fun x => x.arrived[(7 : Fin 8)].isSome) = [] ∧ CanTrap s ∧ ((paged 0 []).bar 0 7).v = false ∧
    ¬ (bits (0x4000000000000001 : Word) 4 0 ≤ bits (0x4000000000000001 : Word) 9 5) := by unfold CanTrap Enterable; decide +kernel

/-! ## States for engines, packets and lines -/

theorem witness_tensor_clean : wbPoisoned (withQueue (queuedOp .clrF) {}) 0 (queuedOp .clrF) = none ∧ tdE (opA 9) 0 = tdE (opB 9) 0 ∧ (tdTf (opA 9)).comp = false ∧ (tdTf (opB 9)).comp = false ∧
    poisonAt (base []) (lsBlk 0) 0x1FFC0 64 = none := by decide +kernel
/-- A transfer of no bytes between places that do not exist. -/
theorem witness_no_bytes : let p := sp 0x3FFFF
    spaceOf p = some .spd ∧ fld p.toNat 45 11 = 0 ∧ p.toNat + 0 ≤ p.toNat ∧ (base []).spSize 0 < offsetOf p := by decide +kernel
theorem witness_channel_reads : let x : Chan := { st := .running, src := sp 0x123, dst := sp 0x800, len := 0x180, wp := 0x40 }; let s := channelled x []
    x.buf = [] ∧ offsetOf (x.src + x.wp) + x.piece ≤ s.spSize 0 ∧ poisonAt s (lsBlk 0) (s.spOffset 0 (offsetOf (x.src + x.wp))) x.piece = none ∧
    look (144 + 3) (s.core 0).reqs = none := by decide +kernel
theorem witness_channel_delivers : let x : Chan := { st := .running, src := sp 0x100, dst := sp 0x800, len := 0x180, wp := 0x140, buf := List.replicate 64 7 }; let s := channelled x []
    x.buf ≠ [] ∧ x.len.toNat ≤ x.readTo ∧ offsetOf (x.dst + x.wp) + x.chunk ≤ s.spSize 0 := by decide +kernel
theorem witness_one : unpack .f32 0x3F800000 = .fin false 0x800000 (-23) := by decide +kernel
/-- Every reassembly entry of the processor of an operation in use. -/
def crowded : State := (wired []).updProc (48 + 9) fun x => { x with reasm := List.replicate 256 ⟨0, 2, false, 33, 100, 0, 0⟩ }
theorem witness_no_room : FromAfar crowded (packet 10 [8192]) 10 ∧ (reasmOf crowded (packet 10 [8192])).isSome = false ∧ hasGrant crowded (packet 10 [8192]) = false ∧
    ¬ entriesUsed crowded (packet 10 [8192]) < 256 := by unfold FromAfar; decide +kernel
/-- An operation whose rank migrates. -/
def migrating : State :=
  { waitingFor { remoteOp (some 7) none [] with rank := 5 } (.pending none false) with ranks := [(5, 0x80000801)] }
theorem witness_parked : let o := { remoteOp (some 7) none [] with rank := 5 }; let p := packet 13 [2, 1, 0, 1]
    FromAfar migrating p 13 ∧ opOf migrating (p.words.getD 3 0).toNat ((p.words.getD 2 0).getLsbD 0) p.seq = some o ∧ p.words.getD 0 0 = 2 ∧ p.words.getD 1 0 ≠ 0 ∧ o.parked = false ∧
    o.moved = false ∧ rankSt (rankEntry migrating o.job o.rank) = 2 := by unfold FromAfar; decide +kernel
theorem witness_plain_target : (wired []).hostOps = [] ∧ poisonedBlk (wired []) (0x4000000 / 64) = false ∧ linkUp (wired []) = true ∧
    lsBusy (waitingFor bulkRead (.pending (some 64) false)) 0 = false := by decide +kernel
theorem witness_room_in_set : (l1Set ((asked (toCore Ty.dataS 127 0) [] none).core 0) (0x100000 % 64)).length < 8 ∧ ({ tag := some .invalid } : Line).stream = none := by decide +kernel
theorem witness_host_link : let s := { windowed with boot := { st := .ready } }
    linkUp s = true ∧ inWindow s 0x20000000 = false ∧ inWindow s 0x10000000 = true ∧ hostBias s (0x10000000 / 4096 * 4096) = true ∧ poisonedBlk s (0x10000000 / 64) = false ∧
    ringOn s (s.homeOf 0x10000000) = false := by decide +kernel
theorem witness_nobody_served : pageServed (answered 7 Ty.invAck Ty.sealq (page 64 64 0 3) [(entryAddr (region 7) 0x4000000, 1)]) 0x4000000 = [] := by decide +kernel

/-! ## Commands: each with the state that its entry is read in -/

theorem witness_event_ring : ∀ r ∈ [0x000FFFFFFFFFFFCF, 16], let i := Instr.eventCfg (entry none false) (BitVec.ofNat 64 r); readable (before (paged 0 []) i) i = true := by decide +kernel
theorem witness_s2_inv : ∀ pg ∈ [0xFFFFFFFFFFFFFFFF, 0x1000], let i := Instr.s2Inv (entry none false) (BitVec.ofNat 64 pg); let s := before (paged 0 []) i; readable s i = true ∧
    (s.part 0).cfg = some { cores := 1, root1 := 0x100000 } ∧ ∀ k ∈ clusterSet { cores := 1, root1 := 0x100000 }, usersOf s k (fun e => e.part = 0) = [] := by decide +kernel
/-- A load of core 0 under way for a block that its data TLB names. -/
def inUsing : State := (paged 0 []).updCore 0 fun q => { q with
  reqs := [(3, { msg := toCore 0 3 0 })], dtlb := [{ part := 0, va := 0, size := 15, pa := 0, ok := 0, nr := false, g := false, u := true, x := true, w := true, r := true }] }
theorem witness_s2_inv_waits : let i := Instr.s2Inv (entry none false) 0x1000; let s := before inUsing i; readable s i = true ∧
    ∃ k ∈ clusterSet { cores := 1, root1 := 0x100000 }, usersOf s k (fun e => e.part = 0) ≠ [] := ⟨by decide +kernel, 0, by decide +kernel, by decide +kernel⟩
theorem witness_assign_entries : ∀ n ∈ [99, 16], let e : MbxAssign := ⟨0, 0x4000000, 12, n, none, 0⟩; let i := Instr.mbxAssign (entry none false) 254 e; let s := before (paged 0 []) i
    readable s i = true ∧ (n ∈ partCores s e.owner.val ↔ n = 99) ∧ backed e.ring (64 + 64 * 2 ^ e.k) = true := by decide +kernel
theorem witness_route_entries : ∀ e ∈ [0x80000060, 0x80000300], let i := Instr.routeLoad (entry none false) 1023 [(1023, BitVec.ofNat 32 e)]; readable (before (paged 0 []) i) i = true := by decide +kernel
theorem witness_rank_write : let i := Instr.rankWrite (entry none false) [(4095, 0x40000801)]; let s := before (paged 0 []) i; readable s i = true ∧ s.remOps = [] := by decide +kernel
theorem witness_window_entries : let i := Instr.hdmCfg (entry none false) 0x10000000 0x10000000 0x60000000; let s := before { paged 0 [] with regions := [(0, hostRegion)] } i
    readable s i = true ∧ rgValid hostRegion = true ∧ ¬ (rgBase hostRegion < 0x10000000 + 0x10000000) ∧ backed 0x60000000 (0x10000000 / 2 ^ 15) = true := by decide +kernel
theorem witness_preempt_entries : ∀ x ∈ [(99, 15), (2048, 0), (0, 16), (16, 0)], let i := Instr.preemptCmd (entry none false) x.1 x.2; readable (before (paged 0 []) i) i = true := by decide +kernel
theorem witness_record_entries : (∀ m ∈ [0, 1, 2, 3], let i := Instr.record (entry none false) m 0x10000000 0x20000000; let s := before (paged 0 []) i
      readable s i = true ∧ (s.part 0).cfg.isSome = true ∧ (s.part 0).heldNotify = []) ∧
    let i := Instr.record (entry none false) 2 0 0; readable (before { paged 0 [] with parts := [] } i) i = true := by decide +kernel
/-- A contract entry with a reserved bit, one that is not valid, one of another partition, and those for the tests of R360. -/
theorem witness_contract_entries : ∀ e ∈ [2 ^ 130, 2 ^ 136, 0, 2 ^ 132, (asks 500000).toNat, (asks 990000).toNat], let i := Instr.contract (entry none false) (BitVec.ofNat 256 e); readable (before leasing i) i = true := by
  decide +kernel
theorem witness_contract_function : (let i := Instr.contract (entry (some 0) false) (2 ^ 132); readable (before leasing i) i = true) ∧
    let i := Instr.contract (entry none false) (asks 500000); readable (before { leasing with parts := [] } i) i = true := by decide +kernel
theorem witness_bias_entries : ∀ pg ∈ [0x10000000, 0x1FFFF000], ∀ h ∈ [true, false], let i := Instr.biasSet (entry none false) pg 1 h; let s := before windowed i
    readable s i = true ∧ s.takes = [] ∧ s.hostOps = [] ∧ pageQuiet s pg = true ∧ heldLines s pg = [] := by decide +kernel
theorem witness_bind_entries : ∀ k ∈ [255, 256], let i := Instr.regionBind (entry none false) k (region 1); let s := before (paged 0 []) i
    readable s i = true ∧ bindStatus s k (region 1) = (if k = 255 then 0 else 1) := by decide +kernel
theorem witness_unbind_entries : ∀ k ∈ [0, 255], let i := Instr.regionUnbind (entry none false) k; let s := before (appendable []) i
    readable s i = true ∧ (rgValid (s.region k) = true ↔ k = 0) ∧ regionBusy s 0 (s.region 0) = false := by decide +kernel
/-- A handler image of one word of code, bound for protocol 16 and message type 0, at 0x4000000. -/
def imageAt : State := { paged 0 [] with mem := (paged 0 []).mem ++ [(0x4000000, 0x67), (0x4000001, 0x62), (0x4000002, 0x72), (0x4000003, 0x67), (0x4000004, 1), (0x400000A, 1),
  (0x4000011, 0x80), (0x4000014, 4), (0x4000018, 1), (0x4000040, 0xEC), (0x4000041, 1), (0x4000044, 16)] }
theorem witness_image_entries : ∀ n ∈ [1, 0], let k : BitVec 128 := BitVec.ofNat 128 n; let i := Instr.imageLoad (entry none false) 0x4000000 76 k; let s := before imageAt i; let q := consume s (entry none false) 1
    readable s i = true ∧ imgStatus q (homeBytes q 0x4000000 76) 76 k = (if n = 1 then 0 else 1) := by decide +kernel
theorem witness_deliver_gate : (matinsGate mailed ((PacketEntry.deliver (entry (some 0) false) 16 9 0).accesses mailed)).isNone = true ∧ (∃ a, (mailed.mailbox 16).assign = some a ∧ a.owner.val = 0) ∧
    Reads full (.deliver (entry (some 0) false) 16 9 0) (entry (some 0) false) := ⟨by decide +kernel, ⟨_, rfl, rfl⟩, _, _, rfl, by decide +kernel, by decide +kernel⟩

/-! ## Partitions, power and steps -/

theorem witness_configuration_entries : ∀ x ∈ [(0xA0, 8), (0x9F, 8), (0xA0, 0)], let i := Instr.partCfg (entry none false) 0x4000000;
    readable (before (configured (BitVec.ofNat 8 x.1) (BitVec.ofNat 8 x.2)) i) i = true := by
  decide +kernel
theorem witness_configuration_pages : let s := before (configured 0xA0 8) (.partCfg (entry none false) 0x4000000); let g := parseCfg (homeBytes (consume s (entry none false) 1) 0x4000000 128)
    s.regions = [] ∧ (pageAddrs s g g.ctxBase ((coreSet g).length * 0x2000)).all (fun a => a < 2 ^ 52) = true ∧ pageAddrs s g g.ctxBase ((coreSet g).length * 0x2000) ≠ [] := by decide +kernel
theorem witness_start_entries : ∀ r ∈ [true, false], let i := Instr.partStart (entry none false); let s := before ((paged 0 []).updPart 0 fun x => { x with running := r }) i
    readable s i = true ∧ (s.part 0).running = r ∧ (s.part 0).exported = false ∧ s.partner 0 = none ∧ s.partOf 0 = some 0 := by decide +kernel
/-- Partition 0 before its end: in place, swapping, off its cores, or not configured. -/
theorem witness_end_entries : ∀ i ∈ [Instr.partStop (entry none false), .partExport (entry none false) 0x10000000 0x800000],
    readable (before (paged 0 []) i) i = true ∧
    (let s := before ((paged 0 []).updCluster 0 fun x => { x with swap := .halted 0 none 0 }) i; readable s i = true ∧ swapping s 0 = true) ∧
    (let s := before ((paged 0 []).updCluster 0 fun x => { x with part := some 1 }) i; readable s i = true ∧ swapping s 0 = false ∧ (∀ k ∈ clusterSet { cores := 1, root1 := 0x100000 }, inPlaceAt s 0 k = false) ∧
      remotesAnswered s 0 = true ∧ s.regions = [] ∧ s.hdmSize = 0 ∧ (s.part 0).closing = []) ∧
    let s := before { paged 0 [] with parts := [] } i; readable s i = true ∧ swapping s 0 = false ∧ (s.part 0).cfg = none := by decide +kernel

/-- Host-written memory lists nothing above the image's header but the ring. -/
theorem zero_bytes {s : State} (hr : s.regions = []) (hm : s.mem.all (fun c => c.1 < 0x4001000 || 2 ^ 51 ≤ c.1) = true) {a n : Nat} (ha : 0x4001000 ≤ a) (hn : a + n ≤ 2 ^ 51) :
    homeBytes s a n = List.replicate n 0 := by
  have hb : ∀ b, 0x4001000 ≤ b → b < 2 ^ 51 → homeByte s b = 0 := by
    intro b h1 h2
    have hp : s.protoOf (b / 64 * 64) = 0 := by simp [State.protoOf, State.regionOf, hr]
    have hl : ∀ (m : Memory), m.all (fun c => c.1 < 0x4001000 || 2 ^ 51 ≤ c.1) = true → m.rd b = 0 := by
      intro m
      unfold Memory.rd
      induction m with
      | nil => intro _; rfl
      | cons x l ih =>
        obtain ⟨k, v⟩ := x
        intro h
        simp only [List.all_cons, Bool.and_eq_true, Bool.or_eq_true, decide_eq_true_eq] at h
        have : k ≠ b := by omega
        simp only [look]
        split
        · omega
        · exact ih h.2
    simp [homeByte, hp, hl _ hm]
  unfold homeBytes
  apply List.ext_getElem
  · simp
  · intro i h1 h2
    simp only [List.length_map, List.length_range] at h1
    simp only [List.getElem_map, List.getElem_range, List.getElem_replicate]
    exact hb _ (by omega) (by omega)
theorem zero_entry (n o : Nat) : imgNat (List.replicate n 0) o 1 = 0 := by
  unfold imgNat
  rw [List.drop_replicate, List.take_replicate]
  cases h : min 1 (n - o) with
  | zero => rfl
  | succ k => have : k = 0 := by omega
              subst this; rfl
/-- The image of a partition on cluster 0 at 0x4000000. -/
def imagined : State := { paged 0 [] with
  parts := [(0, { exported := true, cfg := some { cores := 1, root1 := 0x100000 } })]
  mem := (paged 0 []).mem ++ [(0x4000000, 0x70), (0x4000001, 0x67), (0x4000002, 0x69), (0x4000003, 0x6D), (0x4000004, 1), (0x4000008, 1)] }
theorem witness_import_entries : let i := Instr.partImport (entry none false) 0x4000000; let s := before imagined i
    readable s i = true ∧ importStatus (consume s (entry none false) 1) 0 0x4000000 = 0 := by
  refine ⟨by decide +kernel, ?_⟩
  generalize hq : consume (before imagined (.partImport (entry none false) 0x4000000)) (entry none false) 1 = q
  have hr : q.regions = [] := by rw [← hq]; rfl
  have hm : q.mem.all (fun c => c.1 < 0x4001000 || 2 ^ 51 ≤ c.1) = true := by rw [← hq]; decide +kernel
  have h1 : (homeBytes q 0x4000000 64) = [0x70, 0x67, 0x69, 0x6D, 1, 0, 0, 0, 1] ++ List.replicate 55 0 := by rw [← hq]; decide +kernel
  have hc : (q.part 0).cfg = some { cores := 1, root1 := 0x100000 } := by rw [← hq]; decide +kernel
  have hn : (q.part 0).running = false := by rw [← hq]; decide +kernel
  have hh : (halfOf q 0).2 ≠ 6 := by rw [← hq]; decide +kernel
  have hl : (coreSet { cores := 1, root1 := 0x100000 }).length = 16 := by decide +kernel
  unfold importStatus
  simp only [h1, hc, hn, hl]
  rw [if_neg (by decide +kernel), if_neg (by decide +kernel), if_neg (by decide +kernel), if_neg]
  simp only [List.any_eq_true, Bool.or_eq_true, not_exists, not_and, not_or]
  intro k hk
  have hk := List.mem_range.mp hk
  constructor
  · intro j _
    rw [zero_bytes hr hm (by omega) (by omega), zero_entry]
    decide
  · intro h; simp only [Bool.and_eq_true, decide_eq_true_eq] at h; exact hh h.1
theorem witness_launch_entries : let i := Instr.launch (entry (some 0) false) [(0x4000000, false)] [] 64; let s := before (paged 0 []) i
    readable s i = true ∧ s.regions = [] ∧ s.hdmSize = 0 ∧ (s.part 0).cfg.isSome = true ∧
    (readGlobal (grantLeases (consume s (entry (some 0) false) 1) 0 [] []) { cores := 1, root1 := 0x100000 } 0x4000000 32).isSome = true := by decide +kernel
theorem witness_first_round : (partCores seeding 0)[0 / 1]? = some 0 ∧ 0 < 1 * (partCores seeding 0).length := by decide +kernel
theorem witness_gate_slots : ∀ y ∈ empty.slots, agentOf y.1 = 0 → ¬ (y.2.run = .active ∨ y.2.run = .halted ∨ y.2.run = .dead) := by decide +kernel
theorem witness_no_gate : ∃ y ∈ (base []).slots, agentOf y.1 ∈ coresOf 0 ∧ y.2.run = .active := ⟨_, .head _, by decide +kernel, rfl⟩
theorem witness_power_gated : let s := (paged 0 []).updCluster 0 fun x => { x with clock := .powerGated }; (s.cluster 0).clock = .powerGated := by decide +kernel
theorem witness_other_inputs : steps { issuing with inputs := [.badEntry 255] } = true ∧ steps { issuing with inputs := [.biRspI 0x10000000 true] } = true ∧
    linkUp (dropInput (passTime { issuing with inputs := [.biRspI 0x10000000 true] })) = true := by
  refine ⟨by decide +kernel, by decide +kernel, ?_⟩
  show linkUp ({ issuing with inputs := [] } : State) = true
  decide +kernel
theorem witness_held_effect : ({ base [] with deferred := true } : State).deferred = true := rfl
/-- A slot whose special-function result is parked, before VADD. -/
def parkedBefore : State := ({ commanded (paged 0 []) with inputs := [.issue 0] } : State).updCore 0 fun q => { q with
  ls := q.ls.wrBytes 0x100 (leBytes 4 0x87188300), sfuq := [{ fn := 0, ty := .f32, slot := 0, d := 7, mask := 0, a := 0, rm := 0, parked := true }] }
theorem witness_parked_result : (decode (leBytes 4 0x87188300)).toOption = some (.vadd .f32 7 1 2 3, 4) ∧ namesVector (.vadd .f32 7 1 2 3) (0x87188300 / 4 % 128) = true ∧
    parkedResult parkedBefore 0 = true ∧ poisonAt issuing (lsBlk 0) (issuing.spOffset 0 0x100) 20 = none := by decide +kernel

end Sys2Proof.Tests
end

section
/-! What the host's registers do (R408 to R410, R429, R432, R437), and what the copy of a port's ring and the end of a replay do (R201,
R362, R363). -/

namespace Sys2Proof.Machine

/-! ## The meanings of the four events -/

theorem exec_notifyWrite (fn m : Nat) (v : Word) (s : State) : exec (.notifyWrite fn m v) s = execNotifyWrite fn m v s := rfl
theorem exec_registerWrite (fn : Nat) (r : BarReg) (v : Word) (s : State) : exec (.registerWrite fn r v) s = execRegisterWrite fn r v s := rfl
theorem exec_traceRingCopy (port : Nat) (s : State) : exec (.traceRingCopy port) s = execTraceRingCopy port s := rfl
theorem exec_replayDivergence (p port : Nat) (s : State) : exec (.replayDivergence p port) s = execReplayDivergence p port s := rfl

/-! ## Partitions, mailboxes, processors and rings read back -/

/-- A partition that was changed is read back. -/
@[simp] theorem State.part_updPart_self (s : State) (p : Nat) (f : Part → Part) : (s.updPart p f).part p = f (s.part p) := by
  simp [State.part, State.updPart]

/-- A mailbox that was changed is read back. -/
@[simp] theorem State.mailbox_updMailbox_self (s : State) (m : Nat) (f : Mailbox → Mailbox) :
    (s.updMailbox m f).mailbox m = f (s.mailbox m) := by
  simp [State.mailbox, State.updMailbox]

/-- A slot lies outside the mailboxes. -/
@[simp] theorem State.mailbox_setSlot (s : State) (t : Nat) (x : Slot) (m : Nat) : (s.setSlot t x).mailbox m = s.mailbox m := rfl

/-- The last change of a mailbox follows on the one before. -/
@[simp] theorem State.updMailbox_updMailbox (s : State) (m : Nat) (f g : Mailbox → Mailbox) :
    (s.updMailbox m f).updMailbox m g = s.updMailbox m fun x => g (f x) := by
  simp [State.mailbox, State.updMailbox]

/-- A change of a mailbox counts by what it makes of that mailbox. -/
theorem State.updMailbox_congr {s : State} {m : Nat} {f g : Mailbox → Mailbox} (h : f (s.mailbox m) = g (s.mailbox m)) :
    s.updMailbox m f = s.updMailbox m g := by
  simp [State.updMailbox, h]

/-- A processor that was changed is read back. -/
@[simp] theorem State.proc_updProc_self (s : State) (p : Nat) (f : Proc → Proc) : (s.updProc p f).proc p = f (s.proc p) := by
  simp [State.proc, State.updProc]

/-- A port's ring that was changed is read back. -/
@[simp] theorem ringOf_updRing_self (s : State) (port : Nat) (f : Trace → Trace) : ringOf (updRing s port f) port = f (ringOf s port) := by
  unfold ringOf updRing
  by_cases h : port < 77 <;> simp [h]

/-- A change of a partition or of memory changes no ring. -/
@[simp] theorem ringOf_updPart (s : State) (p : Nat) (f : Part → Part) (port : Nat) : ringOf (s.updPart p f) port = ringOf s port := by
  unfold ringOf; rfl
@[simp] theorem ringOf_updMem (s : State) (f : Memory → Memory) (port : Nat) : ringOf (s.updMem f) port = ringOf s port := by
  unfold ringOf; rfl

/-- A change of memory gives that memory. -/
@[simp] theorem State.updMem_mem (s : State) (f : Memory → Memory) : (s.updMem f).mem = f s.mem := rfl

/-- A change of a port's ring changes no partition and no memory. -/
@[simp] theorem updRing_parts (s : State) (port : Nat) (f : Trace → Trace) : (updRing s port f).parts = s.parts := by
  unfold updRing; split <;> rfl

@[simp] theorem updRing_mem (s : State) (port : Nat) (f : Trace → Trace) : (updRing s port f).mem = s.mem := by
  unfold updRing; split <;> rfl

@[simp] theorem part_updRing (s : State) (port : Nat) (f : Trace → Trace) (p : Nat) : (updRing s port f).part p = s.part p := by
  simp [State.part]

/-! ## Notify values (R408 to R410) -/

/-- The host's write of a notify register that its function reaches. -/
theorem execNotifyWrite_reached {s : State} {fn m : Nat} (v : Word) (h : bar0Open s = true ∧ reachesPage s fn m = true) :
    execNotifyWrite fn m v s = .next (notify s m v) := by
  simp [execNotifyWrite, h]

/-- The host's write of a notify register that its function does not reach. -/
theorem execNotifyWrite_unreached {s : State} {fn m : Nat} (v : Word) (h : bar0Open s = false ∨ reachesPage s fn m = false) :
    execNotifyWrite fn m v s = .next s := by
  obtain h | h := h <;> simp [execNotifyWrite, h]

/-- A write of zero is discarded (R408). -/
@[simp] theorem notify_zero (s : State) (m : Nat) : notify s m 0 = s := by simp [notify]

/-- A value for a mailbox without an owner is applied at once. -/
theorem notify_unassigned {s : State} {m : Nat} {v : Word} (hv : v ≠ 0) (ha : (s.mailbox m).assign = none) :
    notify s m v = applyNotify s m v := by
  rw [notify, if_neg hv]; simp [mailboxOwner, ha]

/-- A value for a mailbox whose owner neither records nor replays is applied at once. -/
theorem notify_off {s : State} {m : Nat} {v : Word} {a : MbxAssign} (hv : v ≠ 0) (ha : (s.mailbox m).assign = some a)
    (ho : (s.part a.owner.val).mode = .off) : notify s m v = applyNotify s m v := by
  rw [notify, if_neg hv]; simp [mailboxOwner, ha, ho]

/-- A value for a command mailbox leaves its ring to be read (R408). -/
theorem applyNotify_command (s : State) {m : Nat} (v : Word) (hm : isCommandBox m = true) :
    applyNotify s m v = s.updMailbox m fun x => { x with notify := x.notify ||| v, due := true } := by
  simp [applyNotify, hm]

/-- A partition without a partner has no swap to ask for (R361). -/
theorem rebalance_alone {s : State} {p : Nat} (reason : Nat) (h : s.partner p = none) : rebalance s p reason = s := by
  simp [rebalance, h]

/-- A raised interrupt is pending in a slot that does not wait for one (R22). -/
theorem raise_pends {s : State} {t : Nat} (i : Intr) (h : (s.slot t).run ≠ .waiting .irq) :
    raise s t i = s.setSlot t { s.slot t with pend := (s.slot t).pend ++ [i] } := by
  simp [raise, h]

/-- A mailbox that no slot waits at raises its interrupt in its slot, and its value stays (R409). -/
theorem serveMailbox_raises {s : State} {m : Nat} {a : MbxAssign} {i : Fin 16} (ha : (s.mailbox m).assign = some a)
    (hd : (s.mailbox m).due = true) (hn : (s.mailbox m).notify ≠ 0) (hw : (s.mailbox m).waiters = []) (hi : a.irqSlot = some i)
    (hs : clusterServes s a.owner.val (clusterOf a.wakeCore) = true) (hr : (s.slot (threadOf a.wakeCore i.val)).run ≠ .idle) :
    serveMailbox s m = raise (s.updMailbox m fun x => { x with due := false }) (threadOf a.wakeCore i.val) (.mailbox (BitVec.ofNat 8 m)) := by
  simp only [serveMailbox, ha, hd, if_neg hn, hw, hi]
  simp [hs, hr]

/-- The state after a mailbox has rung its slot (R409). -/
def rung (s : State) (m t : Nat) (v : Word) : State :=
  (s.updMailbox m fun x => { x with notify := v, due := false }).setSlot t
    { s.slot t with pend := (s.slot t).pend ++ [.mailbox (BitVec.ofNat 8 m)] }

theorem rung_notify (s : State) (m t : Nat) (v : Word) : ((rung s m t v).mailbox m).notify = v := by
  simp [rung]

theorem rung_due (s : State) (m t : Nat) (v : Word) : ((rung s m t v).mailbox m).due = false := by
  simp [rung]

theorem rung_slot (s : State) (m t : Nat) (v : Word) :
    (rung s m t v).slot t = { s.slot t with pend := (s.slot t).pend ++ [.mailbox (BitVec.ofNat 8 m)] } :=
  State.slot_setSlot_self ..

/-- A value in an empty notify register rings the mailbox's slot, where the owner has no partner (R409, R410). -/
theorem applyNotify_rings {s : State} {m : Nat} {v : Word} {a : MbxAssign} {i : Fin 16} (hv : v ≠ 0) (hm : isCommandBox m = false)
    (ha : (s.mailbox m).assign = some a) (hn : (s.mailbox m).notify = 0) (hw : (s.mailbox m).waiters = []) (hi : a.irqSlot = some i)
    (hs : clusterServes s a.owner.val (clusterOf a.wakeCore) = true) (hp : s.partner a.owner.val = none)
    (hr : (s.slot (threadOf a.wakeCore i.val)).run ≠ .idle) (hq : (s.slot (threadOf a.wakeCore i.val)).run ≠ .waiting .irq) :
    applyNotify s m v = rung s m (threadOf a.wakeCore i.val) v := by
  let s1 := s.updMailbox m fun x => { x with notify := x.notify ||| v, due := x.due || isCommandBox m || x.notify = 0 }
  have htaken : (s1.updMailbox m fun x => { x with due := false }) = s.updMailbox m fun x => { x with notify := v, due := false } := by
    rw [State.updMailbox_updMailbox]
    exact State.updMailbox_congr (by simp [hn])
  have hserve : serveMailbox s1 m = rung s m (threadOf a.wakeCore i.val) v := by
    rw [serveMailbox_raises (s := s1) (a := a) (i := i) (by simpa [s1] using ha) (by simp [s1, hn]) (by simpa [s1, hn] using hv)
      (by simpa [s1] using hw) hi hs hr, htaken, raise_pends]
    · rfl
    · exact hq
  have hstay : applyNotify s m v = rebalance (serveMailbox s1 m) a.owner.val 2 := by
    simp [applyNotify, hm, ha, s1]
  rw [hstay, hserve]
  exact rebalance_alone 2 hp

/-! ## Bit fields of register values -/

/-- A field put back in its place is the word under the field's mask. -/
theorem ofNat_bits_mul (v : Word) (hi lo : Nat) :
    BitVec.ofNat 64 (bits v hi lo * 2 ^ lo) = v &&& BitVec.ofNat 64 ((2 ^ (hi + 1 - lo) - 1) * 2 ^ lo) := by
  apply BitVec.eq_of_getLsbD_eq
  intro i h
  simp only [bits, fld, BitVec.getLsbD_ofNat, BitVec.getLsbD_and, Nat.testBit_mul_two_pow, Nat.testBit_mod_two_pow,
    Nat.testBit_div_two_pow, Nat.testBit_two_pow_sub_one, h, decide_true, Bool.true_and]
  by_cases hl : lo ≤ i
  · simp [hl, BitVec.getLsbD, Bool.and_comm]
  · simp [hl]

theorem bits_3_0 (v : Word) : bits v 3 0 = v.toNat % 16 := by simp [bits, fld]
theorem bits_63_48 (v : Word) : bits v 63 48 = v.toNat / 2 ^ 48 := by unfold bits fld; omega

/-! ## Registers (R408, R429, R432, R437) -/

/-- A register of a command mailbox's page that a function reaches takes its value. -/
theorem ringRegister_reached {s : State} {fn m : Nat} (f : Mailbox → Mailbox) (h0 : bar0Open s = true) (hp : reachesPage s fn m = true)
    (hm : isCommandBox m = true) : ringRegister s fn m f = s.updMailbox m f := by
  simp [ringRegister, h0, hp, hm]

/-- Any other write to such a register is lost. -/
theorem ringRegister_unreached {s : State} {fn m : Nat} (f : Mailbox → Mailbox)
    (h : bar0Open s = false ∨ reachesPage s fn m = false ∨ isCommandBox m = false) : ringRegister s fn m f = s := by
  obtain h | h | h := h <;> simp [ringRegister, h]

/-- A register of BAR2 takes the physical function's value. -/
theorem bar2Register_reached {s : State} {fn : Nat} (f : State → State) (hf : 16 ≤ fn) (h2 : bar2Open s = true) :
    bar2Register s fn f = f s := by
  simp [bar2Register, hf, h2]

/-- Any other write to a register of BAR2 is lost. -/
theorem bar2Register_unreached {s : State} {fn : Nat} (f : State → State) (h : fn < 16 ∨ bar2Open s = false) :
    bar2Register s fn f = s := by
  obtain h | h := h
  · simp [bar2Register, Nat.not_le.mpr h]
  · simp [bar2Register, h]

/-- The ring's address is bits [51:6] of what is written (R408). -/
theorem registerWrite_ring {s : State} {fn m : Nat} (v : Word) (h0 : bar0Open s = true) (hp : reachesPage s fn m = true)
    (hm : isCommandBox m = true) :
    execRegisterWrite fn (.ring m) v s = .next (s.updMailbox m fun x => { x with ring := v &&& 0x000FFFFFFFFFFFC0 }) := by
  have hv : BitVec.ofNat 64 (bits v 51 6 * 64) = v &&& 0x000FFFFFFFFFFFC0 := ofNat_bits_mul v 51 6
  simp only [execRegisterWrite, ringRegister_reached _ h0 hp hm, hv]

/-- The ring's size is bits [3:0] of what is written, where they are from 4 to 12 (R408). -/
theorem registerWrite_rsz {s : State} {fn m : Nat} (v : Word) (h0 : bar0Open s = true) (hp : reachesPage s fn m = true)
    (hm : isCommandBox m = true) :
    execRegisterWrite fn (.rsz m) v s =
      .next (s.updMailbox m fun x => { x with rsz := if 4 ≤ v.toNat % 16 ∧ v.toNat % 16 ≤ 12 then v.toNat % 16 else x.rsz }) := by
  simp only [execRegisterWrite, ringRegister_reached _ h0 hp hm, bits_3_0, Bool.and_eq_true, decide_eq_true_eq]
  by_cases hz : 4 ≤ v.toNat % 16 ∧ v.toNat % 16 ≤ 12 <;> simp [hz]

/-- The recovery image's address is bits [63:12] of what is written (R429). -/
theorem registerWrite_recoveryImage {s : State} {fn : Nat} (v : Word) (hf : 16 ≤ fn) (h2 : bar2Open s = true) :
    execRegisterWrite fn .recoveryImage v s = .next { s with boot := { s.boot with recovery := v &&& 0xFFFFFFFFFFFFF000 } } := by
  have hv : BitVec.ofNat 64 (bits v 63 12 * 4096) = v &&& 0xFFFFFFFFFFFFF000 := ofNat_bits_mul v 63 12
  simp only [execRegisterWrite, bar2Register_reached _ hf h2, hv]

/-- A request for a report is taken while none is open (R432). -/
theorem registerWrite_reportGo {s : State} {fn : Nat} (v : Word) (hf : 16 ≤ fn) (h2 : bar2Open s = true) :
    execRegisterWrite fn .reportGo v s = .next (if v = 1 ∧ s.attest.request = false then
      { s with attest := { s.attest with request := true, done := false } } else s) := by
  simp [execRegisterWrite, bar2Register_reached _ hf h2]

/-- A counter of errors is cleared by writing ones to it (R437). -/
theorem registerWrite_telemetry {s : State} {fn : Nat} (v : Word) (hf : 16 ≤ fn) (h2 : bar2Open s = true) :
    execRegisterWrite fn .telemetry v s = .next { s with tele := { s.tele with
      uerr := if v.toNat / 2 ^ 48 = 0xFFFF then 0 else s.tele.uerr,
      cerr := if v.toNat / 2 ^ 32 % 2 ^ 16 = 0xFFFF then 0 else s.tele.cerr } } := by
  simp only [execRegisterWrite, bar2Register_reached _ hf h2, bits_63_48]
  rfl

/-! ## The copy of a ring (R201, R362) -/

/-- A ring with one entry, of a partition that records, goes to the place of the port's next entry in its log. -/
theorem copyRing_single {s : State} {port p : Nat} {e : TraceEntry} (he : (ringOf s port).entries = [e]) (hp : e.part = some p)
    (hm : (s.part p).mode = .record) :
    copyRing s port =
      ((updRing s port fun x => { x with entries := [] }).updMem fun m =>
        m.wrBytes (traceSlot (s.part p).traceLog port ((look port (s.part p).logged).getD 0))
          (leBytes 16 (traceCode e.addr e.seq e.len e.slot e.core e.dev e.gnt))).updPart p fun y =>
        { y with logged := put port ((look port (s.part p).logged).getD 0 + 1) y.logged } := by
  simp [copyRing, he, hp, hm, Option.filter_some]

/-! ## A partition halts in place: no partition's own state changes, and no time passes (R361, R363) -/

/-- The partitions and the time are as they were. -/
def SamePartsAndTime (s u : State) : Prop := u.parts = s.parts ∧ u.time = s.time

theorem SamePartsAndTime.refl (s : State) : SamePartsAndTime s s := ⟨rfl, rfl⟩

theorem SamePartsAndTime.trans {s u v : State} (h1 : SamePartsAndTime s u) (h2 : SamePartsAndTime u v) : SamePartsAndTime s v :=
  ⟨h2.1.trans h1.1, h2.2.trans h1.2⟩

/-- What every step of a fold keeps, the fold keeps. -/
theorem SamePartsAndTime.foldl {α : Type} {f : State → α → State} (h : ∀ s a, SamePartsAndTime s (f s a)) (l : List α) (s : State) :
    SamePartsAndTime s (l.foldl f s) := by
  induction l generalizing s with
  | nil => exact .refl s
  | cons a l ih => exact (h s a).trans (ih (f s a))

/-- A partition reads the same where the partitions are as they were. -/
theorem SamePartsAndTime.part {s u : State} (h : SamePartsAndTime s u) (p : Nat) : u.part p = s.part p := by
  simp [State.part, h.1]

/-! ### Updates of slots and cores -/

theorem SamePartsAndTime.setCore {s u : State} (h : SamePartsAndTime s u) (c : Nat) (q : Core) : SamePartsAndTime s (u.setCore c q) := h
theorem SamePartsAndTime.updCore {s u : State} (h : SamePartsAndTime s u) (c : Nat) (f : Core → Core) :
    SamePartsAndTime s (u.updCore c f) := h
theorem SamePartsAndTime.updSlot {s u : State} (h : SamePartsAndTime s u) (t : Nat) (f : Slot → Slot) :
    SamePartsAndTime s (u.updSlot t f) := h
theorem SamePartsAndTime.wake {s u : State} (h : SamePartsAndTime s u) (t : Nat) : SamePartsAndTime s (u.wake t) := h

/-! ### Accesses and requests that are given up (R352) -/

theorem samePartsAndTime_wakeWhere (s : State) (c : Nat) (f : Wait → Bool) : SamePartsAndTime s (s.wakeWhere c f) :=
  .foldl (f := State.wake) (fun s t => (SamePartsAndTime.refl s).wake t) _ _

theorem samePartsAndTime_reexecuted (s : State) (t : Nat) : SamePartsAndTime s (reexecuted s t) := by
  unfold reexecuted
  dsimp only
  repeat' split
  all_goals exact ⟨rfl, rfl⟩

theorem samePartsAndTime_abandon (s : State) (t : Nat) : SamePartsAndTime s (abandon s t) :=
  .trans ⟨rfl, rfl⟩ (samePartsAndTime_reexecuted _ t)

theorem samePartsAndTime_updFrame (s : State) (page : Nat) (f : Frame → Frame) : SamePartsAndTime s (updFrame s page f) := by
  unfold updFrame; split <;> exact ⟨rfl, rfl⟩

theorem samePartsAndTime_redoTd (s : State) (t : Nat) (r : Redo) : SamePartsAndTime s (redoTd s t r) := by
  unfold redoTd; split <;> exact ⟨rfl, rfl⟩

/-- An access that is given up draws at most a free value. -/
theorem samePartsAndTime_endAccess (s : State) (t : Nat) : SamePartsAndTime s (endAccess s t) := by
  unfold endAccess
  cases (s.slot t).redo with
  | none => exact ⟨rfl, rfl⟩
  | some r =>
    refine .trans (.trans ?_ (samePartsAndTime_redoTd _ t r)) (samePartsAndTime_reexecuted _ t)
    cases r.vec <;> exact ⟨rfl, rfl⟩

theorem samePartsAndTime_endResult {s u : State} {t d n : Nat} (h : endResult s t d n = some u) : SamePartsAndTime s u := by
  unfold endResult at h
  split at h
  · cases h; exact samePartsAndTime_abandon s t
  · split at h
    · cases h; exact .trans ⟨rfl, rfl⟩ (samePartsAndTime_abandon _ t)
    · split at h
      · cases h; exact ⟨rfl, rfl⟩
      · cases h

/-! ### The tensor queue (R299) -/

theorem samePartsAndTime_setOverflow (s : State) (c : Nat) (l : List Nat) : SamePartsAndTime s (setOverflow s c l) := by
  refine .foldl (fun _ _ => ?_) _ _
  exact ⟨rfl, rfl⟩

theorem samePartsAndTime_applyOp (s : State) (c : Nat) (o : TOp) (rm : Rm) (till : Nat) (rz : Rm) :
    SamePartsAndTime s (applyOp s c o rm till rz) :=
  .updSlot (.trans (.setCore (.refl s) c _) (samePartsAndTime_setOverflow ..)) _ _

theorem samePartsAndTime_dropOp (s : State) (c : Nat) (wb : Bool) : SamePartsAndTime s (dropOp s c wb) := by
  unfold dropOp
  split
  · refine .trans ?_ (samePartsAndTime_wakeWhere ..)
    exact .updCore (.refl s) c _
  · exact .updCore (.refl s) c _

theorem samePartsAndTime_keepRecord (s : State) (c : Nat) (o : TOp) : SamePartsAndTime s (keepRecord s c o) := by
  unfold keepRecord; split <;> exact ⟨rfl, rfl⟩

theorem samePartsAndTime_endOp (s : State) (c : Nat) (wb : Bool) (o : TOp) : SamePartsAndTime s (endOp s c wb o) :=
  .updSlot (samePartsAndTime_dropOp s c wb) _ _

/-- The choice of a stopping point draws a free value. -/
theorem samePartsAndTime_stopPoint (s : State) (q : Core) (o : TOp) : SamePartsAndTime s (stopPoint s q o).2 := by
  unfold stopPoint State.freeBelow
  exact .refl s

/-- What an operation has done when it stops at a point the engine has reached (R299). -/
theorem samePartsAndTime_stopped (s : State) (c : Nat) (q : Core) (o : TOp) (rm : Rm) (n : Nat) (rz : Rm) :
    SamePartsAndTime s (applyOp (stopPoint s q o).2 c o rm n rz) :=
  (samePartsAndTime_stopPoint s q o).trans (samePartsAndTime_applyOp ..)

theorem samePartsAndTime_stopTensor (s : State) (t : Nat) : SamePartsAndTime s (stopTensor s t) := by
  unfold stopTensor
  dsimp only
  split
  · exact .wake (samePartsAndTime_dropOp s _ true) t
  split
  · exact .refl s
  split
  · exact .trans (.wake (.updCore (.refl s) _ _) t) (samePartsAndTime_keepRecord ..)
  split
  case h_1 | h_2 => exact .trans (samePartsAndTime_applyOp ..) (samePartsAndTime_endOp ..)
  case h_3 | h_4 | h_5 | h_6 =>
    refine .updCore (.wake (.updCore ?_ _ _) _) _ _
    split
    · exact .trans (.setCore (samePartsAndTime_stopped ..) _ _) (samePartsAndTime_setOverflow ..)
    · exact samePartsAndTime_stopped ..
  all_goals exact .wake (.updCore (.refl s) _ _) t

/-! ### The instruction in progress -/

theorem samePartsAndTime_endInProgress {s u : State} {t : Nat} (h : endInProgress s t = some u) : SamePartsAndTime s u := by
  unfold endInProgress at h
  dsimp only at h
  cases hr : (s.slot t).run with
  | idle | halted | dead =>
    simp only [hr, Option.some.injEq] at h
    exact h ▸ .refl s
  | active =>
    simp only [hr, Option.some.injEq] at h
    exact h ▸ samePartsAndTime_abandon s t
  | waiting w =>
    simp only [hr] at h
    cases w with
    | lsSplit | deal | chanStop => cases h
    | result => exact samePartsAndTime_endResult h
    | access | vector | host => cases h; exact samePartsAndTime_endAccess s t
    | pause | sfu => cases h; exact ⟨rfl, rfl⟩
    | tensor => cases h; exact samePartsAndTime_stopTensor s t
    | mailbox | receive => cases h; exact .trans ⟨rfl, rfl⟩ (samePartsAndTime_abandon _ t)
    | rbind page =>
      dsimp only at h
      split at h
      · cases h; exact ⟨rfl, rfl⟩
      · cases h
        exact .trans (.updSlot (samePartsAndTime_updFrame s page _) t _) (samePartsAndTime_abandon _ t)
    | _ => cases h; exact samePartsAndTime_abandon s t

/-! ### The halt, and the event that tells the host -/

theorem samePartsAndTime_haltSlots (s : State) (c : Nat) : SamePartsAndTime s (haltSlots s c) := by
  refine .foldl (fun s i => ?_) _ _
  split
  next h => exact samePartsAndTime_endInProgress h
  next => exact .refl s

theorem samePartsAndTime_haltInPlace (s : State) (p : Nat) : SamePartsAndTime s (haltInPlace s p) :=
  .foldl samePartsAndTime_haltSlots _ _

theorem samePartsAndTime_ringWrite (s : State) (ring : Word) (key fn vec size : Nat) (ws : List Word) :
    SamePartsAndTime s (s.ringWrite ring key fn vec size ws) := by
  unfold State.ringWrite; split <;> exact ⟨rfl, rfl⟩

/-- An event for the physical function changes no partition. -/
theorem samePartsAndTime_hostEvent_pf (s : State) (type status tag : Nat) (ws : List Word) :
    SamePartsAndTime s (s.hostEvent none type status tag ws) :=
  samePartsAndTime_ringWrite ..

/-- A partition halts in place, and the host is told. -/
theorem samePartsAndTime_halted_told (s : State) (p type status tag : Nat) (ws : List Word) :
    SamePartsAndTime s ((haltInPlace s p).hostEvent none type status tag ws) :=
  (samePartsAndTime_haltInPlace s p).trans (samePartsAndTime_hostEvent_pf _ type status tag ws)

/-! ## The end of a replay (R363) -/

/-- The time from which an event of a port ends a partition's replay: now for one that matches no entry still to come, 2^24 cycles and one
after it was first held for another. -/
def divergenceAt (s : State) (p port : Nat) : Option Nat :=
  if (s.part p).stray = some port then some s.time else (look port (s.part p).heldSince).map (· + (2 ^ 24 + 1))

/-- An event that matches no entry still to come ends the replay at once. -/
theorem divergenceAt_stray {s : State} {p port : Nat} (h : (s.part p).stray = some port) : divergenceAt s p port = some s.time := by
  simp [divergenceAt, h]

/-- An event that is held ends the replay, and unless it is stray only when it is held too long. -/
theorem divergenceAt_held {s : State} {p port since : Nat} (h : look port (s.part p).heldSince = some since) :
    ∃ n, divergenceAt s p port = some n ∧ ((s.part p).stray ≠ some port → since + 2 ^ 24 < n) := by
  by_cases hs : (s.part p).stray = some port
  · exact ⟨_, divergenceAt_stray hs, fun hne => absurd hs hne⟩
  · exact ⟨since + (2 ^ 24 + 1), by simp [divergenceAt, hs, h], fun _ => by omega⟩

/-- A port that holds nothing ends no replay. -/
theorem divergenceAt_none {s : State} {p port : Nat} (hs : (s.part p).stray ≠ some port) (h : look port (s.part p).heldSince = none) :
    divergenceAt s p port = none := by
  simp [divergenceAt, hs, h]

/-- Without such an event the replay goes on. -/
theorem replayDivergence_none {s : State} {p port : Nat} (h : divergenceAt s p port = none) : execReplayDivergence p port s = .next s := by
  unfold divergenceAt at h
  simp only [execReplayDivergence, h]

/-- With such an event the replay of a partition ends when its time has come. -/
theorem replayDivergence_ends {s : State} {p port n : Nat} (hm : (s.part p).mode = .replay) (hd : (s.part p).diverged = false)
    (h : divergenceAt s p port = some n) :
    ∃ u, execReplayDivergence p port s = .next u ∧ (u.part p).diverged = true ∧ (u.part p).stray = none ∧ u.time = Nat.max s.time n := by
  unfold divergenceAt at h
  simp only [execReplayDivergence, h, hm, hd]
  refine ⟨_, rfl, ?_⟩
  rw [(samePartsAndTime_halted_told _ p 0x86 0 0 _).part, (samePartsAndTime_halted_told _ p 0x86 0 0 _).2, State.part_updPart_self]
  exact ⟨rfl, rfl, rfl⟩

/-! ## The obligation -/

/-- Settles O50: notify registers, the other registers, the copy of a ring and the end of a replay, each by the lemmas of its section. -/
theorem hostRegisters : Obligations.HostRegisters := by
  unfold Obligations.HostRegisters
  refine ⟨fun s fn m v hreach => ?_, fun s fn m r v => ?_, fun s port => ⟨fun he => ?_, fun e p he hp hm => ?_⟩,
    fun s p port hm hd => ⟨fun since hs => ?_, fun hs => ?_, fun hs hl => ?_⟩⟩
  · simp only [exec_notifyWrite, execNotifyWrite_reached v hreach]
    refine ⟨fun hv => ?_, fun hv hc ha => ?_, fun a i hv hc ha ho hn hw hi hs hp hr hq => ?_⟩
    · rw [hv, notify_zero]
    · rw [notify_unassigned hv ha, applyNotify_command s v hc]
    · rw [notify_off hv ha ho, applyNotify_rings hv hc ha hn hw hi hs hp hr hq]
      exact ⟨_, rfl, rung_notify .., rung_due .., rfl, rung_slot ..⟩
  · simp only [exec_notifyWrite, exec_registerWrite]
    refine ⟨fun h => execNotifyWrite_unreached v h, fun h0 hp hc => ⟨registerWrite_ring v h0 hp hc, registerWrite_rsz v h0 hp hc, ?_⟩, ?_,
      rfl, rfl, rfl, rfl, fun hf h2 => ⟨registerWrite_recoveryImage v hf h2, ?_, fun w => ?_, registerWrite_reportGo v hf h2,
        registerWrite_telemetry v hf h2⟩, ?_⟩
    · rw [execRegisterWrite, ringRegister_reached _ h0 hp hc]
    · intro h
      simp [execRegisterWrite, ringRegister_unreached _ h]
    · rw [execRegisterWrite, bar2Register_reached _ hf h2]
    · rw [execRegisterWrite, bar2Register_reached _ hf h2]
    · intro h
      simp [execRegisterWrite, bar2Register_unreached _ h]
  · simp [exec_traceRingCopy, execTraceRingCopy, he]
  · intro n
    refine ⟨copyRing s port, by simp [exec_traceRingCopy, execTraceRingCopy, he], ?_⟩
    rw [copyRing_single he hp hm]
    refine ⟨by simp, ?_, ?_⟩
    · simp [n]
    · simp only [State.updPart_mem, State.updMem_mem, updRing_mem, traceSlot, n]
  · obtain ⟨n, hn, hlate⟩ := divergenceAt_held hs
    obtain ⟨u, hu, hdiv, -, htime⟩ := replayDivergence_ends hm hd hn
    rw [exec_replayDivergence]
    exact ⟨u, hu, hdiv, fun hstray => htime ▸ Nat.lt_of_lt_of_le (hlate hstray) (Nat.le_max_right ..)⟩
  · obtain ⟨u, hu, hdiv, hnone, htime⟩ := replayDivergence_ends hm hd (divergenceAt_stray hs)
    rw [exec_replayDivergence]
    exact ⟨u, hu, hdiv, hnone, htime.trans (Nat.max_self _)⟩
  · rw [exec_replayDivergence]
    exact replayDivergence_none (divergenceAt_none hs hl)

end Sys2Proof.Machine
end

section
/-! The form of physical memory (log 5) through every function of the model: what a function leaves of memory, and that memory comes out of it in
canonical form. A lemma `f_mem` says that f leaves memory as it is; `f_canon`, that memory is canonical after f when it was before; `f_ends`, that the
instruction or event f answers a next state, whose memory is canonical. The premise Q stands for what is known of memory before the step: with Q the
canonical form itself this is the invariant, and with Q false it says that nothing is refused. -/

set_option Elab.async false

namespace Sys2Proof.Machine

/-- Memory is in canonical form (log 5), if it was under some premise: with a premise that memory was so before, the form is kept. -/
def Canon (Q : Prop) (m : Memory) : Prop := Q → m.wf = true

@[simp] theorem Canon.wrBytes {Q : Prop} {m : Memory} (h : Canon Q m) (a : Nat) (l : List Byte) : Canon Q (m.wrBytes a l) :=
  fun q => Memory.wf_wrBytes (h q) a l
@[simp] theorem Canon.wr {Q : Prop} {m : Memory} (h : Canon Q m) (a : Nat) (b : Byte) : Canon Q (m.wr a b) := fun q => Memory.wf_wr (h q) a b
@[simp] theorem Canon.wrWord {Q : Prop} {m : Memory} (h : Canon Q m) (a : Nat) (x : Word) :
    Canon Q (m.wrWord a x) := fun q => Memory.wf_wrWord (h q) a x
@[simp] theorem Canon.wrBlock {Q : Prop} {m : Memory} (h : Canon Q m) (a : Nat) (b : Block) :
    Canon Q (m.wrBlock a b) := fun q => Memory.wf_wrBlock (h q) a b
@[simp] theorem Canon.wrMask {Q : Prop} {m : Memory} (h : Canon Q m) (a : Nat) (b : Block) (k : BitVec 64) : Canon Q (m.wrMask a b k) :=
  fun q => Memory.wf_wrMask (h q) a b k
@[simp] theorem Canon.clear {Q : Prop} {m : Memory} (h : Canon Q m) (a n : Nat) : Canon Q (m.clear a n) := fun q => Memory.wf_clear (h q) a n
@[simp] theorem Canon.filter {Q : Prop} {m : Memory} (h : Canon Q m) (p : Host.Cell → Bool) : Canon Q (m.filter p) :=
  fun q => Memory.wfFrom_filter (h q) p

/-- What an access answers, a value, a trap or a wait, comes with a state whose memory is canonical. -/
def Res.Canon {α : Type} (Q : Prop) : Res α → Prop
  | .ok _ s | .trap _ _ s | .wait _ s => Machine.Canon Q s.mem

/-- A meaning answers a next state, whose memory is canonical. -/
def Ends (Q : Prop) (o : Out) : Prop := ∃ t, o = .next t ∧ Canon Q t.mem

@[simp] theorem Res.canon_ok {α : Type} {Q : Prop} (a : α) (s : State) : (Res.ok a s).Canon Q ↔ Machine.Canon Q s.mem := Iff.rfl
@[simp] theorem Res.canon_trap {α : Type} {Q : Prop} (c : Cause) (v : Word) (s : State) :
    (Res.trap c v s : Res α).Canon Q ↔ Machine.Canon Q s.mem := Iff.rfl
@[simp] theorem Res.canon_wait {α : Type} {Q : Prop} (w : Wait) (s : State) : (Res.wait w s : Res α).Canon Q ↔ Machine.Canon Q s.mem := Iff.rfl
@[simp] theorem ends_next {Q : Prop} (t : State) : Ends Q (.next t) ↔ Canon Q t.mem := by simp [Ends]

/-- Memory after a choice is that after the branch taken. -/
@[simp] theorem State.mem_ite (c : Prop) [Decidable c] (a b : State) : (if c then a else b).mem = if c then a.mem else b.mem := by
  split <;> rfl
@[simp] theorem canon_ite {Q : Prop} (c : Prop) [Decidable c] (a b : Memory) :
    Canon Q (if c then a else b) ↔ (c → Canon Q a) ∧ (¬c → Canon Q b) := by
  split <;> simp_all
@[simp] theorem Res.canon_ite {α : Type} {Q : Prop} (c : Prop) [Decidable c] (a b : Res α) :
    (if c then a else b).Canon Q ↔ (c → a.Canon Q) ∧ (¬c → b.Canon Q) := by
  split <;> simp_all
@[simp] theorem ends_ite {Q : Prop} (c : Prop) [Decidable c] (a b : Out) :
    Ends Q (if c then a else b) ↔ (c → Ends Q a) ∧ (¬c → Ends Q b) := by
  split <;> simp_all

@[simp] theorem Res.Canon.andThen {α β : Type} {Q : Prop} {r : Res α} {f : α → State → Res β} (hr : r.Canon Q)
    (hf : ∀ a s, Machine.Canon Q s.mem → (f a s).Canon Q) : (r.andThen f).Canon Q := by
  cases r with
  | ok a s => exact hf a s hr
  | trap c v s => exact hr
  | wait w s => exact hr

/-- A state that comes with a value is the second part of the pair. -/
theorem Canon.of_snd {α : Type} {Q : Prop} {r : α × State} {a : α} {s : State} (e : r = (a, s)) (h : Canon Q r.2.mem) : Canon Q s.mem := by
  subst e; exact h
theorem Canon.of_fst {α : Type} {Q : Prop} {r : State × α} {a : α} {s : State} (e : r = (s, a)) (h : Canon Q r.1.mem) : Canon Q s.mem := by
  subst e; exact h
theorem Canon.of_ok {α : Type} {Q : Prop} {r : Res α} {a : α} {s : State} (e : r = .ok a s) (h : r.Canon Q) : Canon Q s.mem := by
  subst e; exact h
theorem Canon.of_trap {α : Type} {Q : Prop} {r : Res α} {c : Cause} {v : Word} {s : State} (e : r = .trap c v s) (h : r.Canon Q) : Canon Q s.mem := by
  subst e; exact h
theorem Canon.of_wait {α : Type} {Q : Prop} {r : Res α} {w : Wait} {s : State} (e : r = .wait w s) (h : r.Canon Q) : Canon Q s.mem := by
  subst e; exact h

@[simp] theorem canon_foldl {α : Type} {Q : Prop} (f : State → α → State) (hf : ∀ s a, Canon Q s.mem → Canon Q (f s a).mem) (l : List α) (s : State)
    (h : Canon Q s.mem) : Canon Q (l.foldl f s).mem := by
  induction l generalizing s with
  | nil => exact h
  | cons a l ih => exact ih (f s a) (hf s a h)

@[simp] theorem foldl_mem {α : Type} (f : State → α → State) (hf : ∀ s a, (f s a).mem = s.mem) (l : List α) (s : State) :
    (l.foldl f s).mem = s.mem := by
  induction l generalizing s with
  | nil => rfl
  | cons a l ih => exact (ih (f s a)).trans (hf s a)

/-! ### Updates of the state, traps and reports -/

@[simp] theorem State.mem_setSlot (s : State) (t : Nat) (x : Slot) : (s.setSlot t x).mem = s.mem := (rfl)
@[simp] theorem State.mem_setCore (s : State) (c : Nat) (x : Core) : (s.setCore c x).mem = s.mem := (rfl)
@[simp] theorem State.mem_updCluster (s : State) (k : Nat) (f : Cluster → Cluster) : (s.updCluster k f).mem = s.mem := (rfl)
@[simp] theorem State.mem_updProc (s : State) (p : Nat) (f : Proc → Proc) : (s.updProc p f).mem = s.mem := (rfl)
@[simp] theorem State.mem_updPart (s : State) (p : Nat) (f : Part → Part) : (s.updPart p f).mem = s.mem := (rfl)
@[simp] theorem State.mem_updMailbox (s : State) (m : Nat) (f : Mailbox → Mailbox) : (s.updMailbox m f).mem = s.mem := (rfl)
@[simp] theorem State.mem_post (s : State) (m : Msg) : (s.post m).mem = s.mem := (rfl)
@[simp] theorem State.mem_unpost (s : State) (k : Nat) : (s.unpost k).mem = s.mem := (rfl)
@[simp] theorem mem_updRing (s : State) (p : Nat) (f : Trace → Trace) : (updRing s p f).mem = s.mem := by
  unfold updRing
  split <;> rfl

@[simp] theorem State.updSlot_mem (s : State) (t : Nat) (f : Slot → Slot) : (State.updSlot s t f).mem = s.mem := (rfl)
@[simp] theorem State.updCore_mem (s : State) (c : Nat) (f : Core → Core) : (State.updCore s c f).mem = s.mem := (rfl)
@[simp] theorem updFrame_mem (s : State) (page : Nat) (f : Frame → Frame) : (updFrame s page f).mem = s.mem := by unfold updFrame; split <;> rfl
@[simp] theorem State.updMe_mem (s : State) (f : Slot → Slot) : (State.updMe s f).mem = s.mem := (rfl)
@[simp] theorem State.wr_mem (s : State) (r : Reg) (v : Word) : (State.wr s r v).mem = s.mem := (rfl)
@[simp] theorem State.wrv_mem (s : State) (r : Reg) (v : Block) : (State.wrv s r v).mem = s.mem := (rfl)
@[simp] theorem State.past_mem (s : State) (n : Nat) : (State.past s n).mem = s.mem := (rfl)
@[simp] theorem done_ends {Q : Prop} (n : Nat) (s : State) (hm : Canon Q s.mem) : Ends Q (done n s) := by simp [done, hm]

@[simp] theorem result_ends {Q : Prop} (n : Nat) (d : Reg) (v : Word) (s : State) (hm : Canon Q s.mem) :
    Ends Q (result n d v s) := by
  simp [result, hm]

@[simp] theorem resultV_ends {Q : Prop} (n : Nat) (d : Reg) (v : Block) (s : State) (hm : Canon Q s.mem) :
    Ends Q (resultV n d v s) := by
  simp [resultV, hm]

@[simp] theorem wait_ends {Q : Prop} (w : Wait) (s : State) (hm : Canon Q s.mem) : Ends Q (wait w s) := by simp [wait, hm]
@[simp] theorem State.wake_mem (s : State) (t : Nat) : (State.wake s t).mem = s.mem := (rfl)

@[simp] theorem State.wakeWhere_mem (s : State) (agent : Nat) (f : Wait → Bool) : (s.wakeWhere agent f).mem = s.mem := by
  unfold State.wakeWhere
  exact foldl_mem _ (fun s t => State.wake_mem s t) _ s

@[simp] theorem State.freeBool_mem (s : State) : (State.freeBool s).2.mem = s.mem := (rfl)
@[simp] theorem State.freeWord_mem (s : State) : (State.freeWord s).2.mem = s.mem := (rfl)
@[simp] theorem State.freeBelow_mem (s : State) (n : Nat) : (State.freeBelow s n).2.mem = s.mem := (rfl)
@[simp] theorem State.updMem_mem_eq (s : State) (f : Memory → Memory) : (s.updMem f).mem = f s.mem := (rfl)

@[simp] theorem setBias_canon {Q : Prop} (s : State) (pa : Nat) (host : Bool) (hm : Canon Q s.mem) :
    Canon Q (setBias s pa host).mem := by
  simp [setBias, hm]

@[simp] theorem askDevice_mem (s : State) (pa : Nat) : (askDevice s pa).mem = s.mem := by unfold askDevice; split <;> rfl
@[simp] theorem State.queued_mem (s : State) (k : Nat) : (State.queued s k).mem = s.mem := by simp only [State.queued]; (repeat' split) <;> simp

@[simp] theorem State.ringWrite_canon {Q : Prop} (s : State) (ring : Word) (key fn vec size : Nat) (ws : List Word) (hm : Canon Q s.mem) :
    Canon Q (s.ringWrite ring key fn vec size ws).mem := by
  unfold State.ringWrite
  split
  · exact hm
  · exact List.foldlRecOn (motive := Canon Q) _ _ hm fun m h i _ => h.wrWord _ _

@[simp] theorem State.hostEvent_canon {Q : Prop} (s : State) (fn : Option Nat) (type : Nat) (status : Nat) (tag : Nat) (ws : List Word)
    (hm : Canon Q s.mem) :
    Canon Q (State.hostEvent s fn type status tag ws).mem := by
  simp only [State.hostEvent]
  (repeat' split) <;> simp [hm]

@[simp] theorem updCoreOf_mem (s : State) (p : Nat) (c : Nat) (f : Core → Core) :
    (updCoreOf s p c f).mem = s.mem := by
  simp only [updCoreOf]
  split <;> simp

@[simp] theorem updSlotsOf_mem (s : State) (p c : Nat) (f : Slot → Slot) : (updSlotsOf s p c f).mem = s.mem := by
  dsimp only [updSlotsOf]
  split
  · exact foldl_mem (fun s i => s.updSlot (threadOf c i) f) (fun _ _ => rfl) _ s
  · rfl

/-! ### Translation and page requests -/

@[simp] theorem capped_mem (n : Nat) (e : α) (l : List α) (s : State) : (capped n e l s).2.mem = s.mem := by unfold capped; split <;> rfl
@[simp] theorem tlbPut_mem (n : Nat) (e : TlbEntry) (l : List TlbEntry) (s : State) : (tlbPut n e l s).2.mem = s.mem := by simp [tlbPut]
@[simp] theorem setCoreTlb_mem (s : State) (c : Nat) (fetch : Bool) (l : List TlbEntry) : (setCoreTlb s c fetch l).mem = s.mem := (rfl)
@[simp] theorem fillCoreTlb_mem (s : State) (c : Nat) (fetch : Bool) (e : TlbEntry) : (fillCoreTlb s c fetch e).mem = s.mem := by simp [fillCoreTlb]
@[simp] theorem fillTlb_mem (s : State) (k : Nat) (e : TlbEntry) : (fillTlb s k e).mem = s.mem := by simp [fillTlb]

@[simp] theorem walkView_mem (s : State) (k p : Nat) : (walkView s k p).2.mem = s.mem := by
  unfold walkView
  exact List.foldlRecOn (motive := fun x : Memory × State => x.2.mem = s.mem) _ _ rfl fun _ h _ _ => h

@[simp] theorem cacheTrail_mem (s : State) (k : Nat) (l : List WalkEntry) : (cacheTrail s k l).mem = s.mem := (rfl)

@[simp] theorem locate_mem (s : State) (c : Nat) (k : Kind) (va : Word) : (locate s c k va).2.mem = s.mem := by
  unfold locate
  split
  · rfl
  split
  · rfl
  split_ifs
  · rfl
  · rfl
  lift_lets
  extract_lets a cl fetch now keep fresh second
  have hkeep : ∀ e s, (keep e s).2.mem = s.mem := fun e s => by
    simp only [keep]
    split <;> simp
  have hfresh : ∀ s, (fresh s).2.mem = s.mem := fun s => by
    simp only [fresh]
    split
    · simp
    · split_ifs <;> simp
  have hsecond : ∀ s, (second s).2.mem = s.mem := fun s => by
    simp only [second]
    split
    · exact hfresh s
    · split_ifs
      · simp [hkeep]
      · simp [hfresh, hkeep]
  split
  · exact hsecond s
  · simp only []
    split_ifs
    · exact hkeep _ s
    · simp [hsecond, hkeep]

@[simp] theorem translate_mem (s : State) (c : Nat) (user : Bool) (k : Kind) (append : Bool) (va : Word) :
    (translate s c user k append va).2.mem = s.mem := by
  have h := locate_mem s c k va
  unfold translate
  split <;> simp_all

@[simp] theorem pageRequest_canon {Q : Prop} (s : State) (p : Nat) (f : WalkFail) (k : Kind) (core slot : Nat) (hm : Canon Q s.mem) :
    Canon Q (pageRequest s p f k core slot).2.mem := by
  dsimp only [pageRequest]
  split
  · exact hm
  · split
    · exact hm
    · exact State.ringWrite_canon _ _ _ _ _ _ _ hm

/-! ### Lines of the caches -/

@[simp] theorem tracePortBy_mem (s : State) (p : Nat) (pa : Nat) (len : Nat) (core : Nat) (slot : Nat) (dev : Nat) (part : Option Nat) (gnt : Bool) :
    (tracePortBy s p pa len core slot dev part gnt).mem = s.mem := by
  simp only [tracePortBy]
  (repeat' split) <;> simp

@[simp] theorem tracePort_mem (s : State) (p : Nat) (pa : Nat) (len : Nat) (core : Nat) (slot : Nat) (gnt : Bool) :
    (tracePort s p pa len core slot gnt).mem = s.mem := by
  simp [tracePort]

@[simp] theorem portWriteBy_canon {Q : Prop} (s : State) (pa : Nat) (l : List Byte) (w : Writer) (hm : Canon Q s.mem) :
    Canon Q (portWriteBy s pa l w).mem := by
  simp [portWriteBy, hm]

@[simp] theorem portWrite_canon {Q : Prop} (s : State) (pa : Nat) (l : List Byte) (core : Nat) (slot : Nat) (hm : Canon Q s.mem) :
    Canon Q (portWrite s pa l core slot).mem := by
  simp [portWrite, hm]

@[simp] theorem portMask_canon {Q : Prop} (s : State) (c : Nat) (slot : Nat) (blk : Nat) (b : Block) (mask : BitVec 64) (hm : Canon Q s.mem) :
    Canon Q (portMask s c slot blk b mask).mem := by
  unfold portMask
  split <;> simp [hm]

@[simp] theorem setLine_mem (s : State) (c : Nat) (blk : Nat) (l : Option Line) : (setLine s c blk l).mem = s.mem := (rfl)
@[simp] theorem setL2_mem (s : State) (k : Nat) (blk : Nat) (l : L2Line) : (setL2 s k blk l).mem = s.mem := (rfl)

@[simp] theorem coverL2_mem (s : State) (k : Nat) (blk : Nat) (mask : BitVec 64) :
    (coverL2 s k blk mask).mem = s.mem := by
  unfold coverL2
  split <;> rfl

@[simp] theorem useL2_mem (s : State) (k : Nat) : (useL2 s k).2.mem = s.mem := (rfl)

@[simp] theorem mergeL2_mem (s : State) (c : Nat) (blk : Nat) (prio : Fin 8) (b : Block) (mask : BitVec 64) :
    (mergeL2 s c blk prio b mask).mem = s.mem := (rfl)

@[simp] theorem seeL2_mem (s : State) (c : Nat) (blk : Nat) (ev : Fin 8) : (seeL2 s c blk ev).mem = s.mem := by unfold seeL2; split <;> rfl

@[simp] theorem flushL2_canon {Q : Prop} (s : State) (k : Nat) (blk : Nat) (hm : Canon Q s.mem) :
    Canon Q (flushL2 s k blk).mem := by
  unfold flushL2
  split <;> simp [hm]

@[simp] theorem postPut_mem (s : State) (c : Nat) (slot : Nat) (blk : Nat) (type : Nat) (w2 : Word) (flit : Option Block) :
    (postPut s c slot blk type w2 flit).mem = s.mem := (rfl)

@[simp] theorem giveUp_canon {Q : Prop} (s : State) (c : Nat) (slot : Nat) (blk : Nat) (hm : Canon Q s.mem) :
    Canon Q (giveUp s c slot blk).mem := by
  simp only [giveUp]
  (repeat' split) <;> simp [hm]

@[simp] theorem cleanLine_canon {Q : Prop} (s : State) (c : Nat) (slot : Nat) (blk : Nat) (hm : Canon Q s.mem) :
    Canon Q (cleanLine s c slot blk).mem := by
  simp only [cleanLine]
  (repeat' split) <;> simp [hm]

@[simp] theorem flushUnsent_mem (s : State) (c : Nat) (slot : Nat) (blks : List Nat) :
    (flushUnsent s c slot blks).mem = s.mem := by
  unfold flushUnsent
  exact foldl_mem _ (fun _ _ => by dsimp only; (repeat' split) <;> simp) _ _

@[simp] theorem flushRel_mem (s : State) (c : Nat) (slot : Nat) (blk : Nat) :
    (flushRel s c slot blk).mem = s.mem := by
  unfold flushRel
  split <;> simp

@[simp] theorem evictL2_canon {Q : Prop} (s : State) (k : Nat) (set : Nat) (hm : Canon Q s.mem) :
    Canon Q (evictL2 s k set).mem := by
  unfold evictL2
  split <;> simp [hm]

@[simp] theorem settleL2_canon {Q : Prop} (s : State) (k : Nat) (blk : Nat) (hm : Canon Q s.mem) :
    Canon Q (settleL2 s k blk).mem := by
  simp only [settleL2]
  (repeat' split) <;> simp [hm]

@[simp] theorem moveToL2_canon {Q : Prop} (s : State) (c : Nat) (v : Nat) (hm : Canon Q s.mem) :
    Canon Q (moveToL2 s c v).mem := by
  simp only [moveToL2]
  (repeat' split) <;> simp [hm]

@[simp] theorem makeRoom_canon {Q : Prop} (s : State) (c set n : Nat) (hm : Canon Q s.mem) : Canon Q (makeRoom s c set n).2.mem := by
  induction n generalizing s with
  | zero => exact hm
  | succ n ih =>
    unfold makeRoom
    split_ifs
    · exact hm
    · split
      · exact hm
      · exact ih _ (moveToL2_canon s c _ hm)

@[simp] theorem freeStream_canon {Q : Prop} (s : State) (c slot blk : Nat) (hm : Canon Q s.mem) : Canon Q (freeStream s c slot blk).mem := by
  unfold freeStream
  exact canon_foldl _ (fun s l hs => giveUp_canon s c slot l.1 hs) _ s hm

@[simp] theorem fillLine_canon {Q : Prop} (s : State) (c slot blk : Nat) (l : Line) (hm : Canon Q s.mem) : Canon Q (fillLine s c slot blk l).mem := by
  dsimp only [fillLine]
  split
  · simp [hm, -State.setCore_mem]
  split
  · simp [hm, -State.setCore_mem]
  split
  · simp [hm, -State.setCore_mem]
  split
  · next e => simp [Canon.of_snd (Q := Q) e (makeRoom_canon _ _ _ _ (by simp [hm, -State.setCore_mem]))]
  · next e => simp [Canon.of_snd (Q := Q) e (makeRoom_canon _ _ _ _ (by simp [hm, -State.setCore_mem]))]

@[simp] theorem touch_canon {Q : Prop} (s : State) (c : Nat) (slot : Nat) (blk : Nat) (ev : Fin 8) (hm : Canon Q s.mem) :
    Canon Q (touch s c slot blk ev).mem := by
  simp only [touch]
  (repeat' split) <;> simp [hm]

@[simp] theorem request_canon {Q : Prop} (s : State) (c : Nat) (slot : Nat) (blk : Nat) (type : Nat) (w2 : Word) (nr : Bool) (stash : Bool)
    (ev : Fin 8) (va : Word) (hm : Canon Q s.mem) :
    Canon Q (request s c slot blk type w2 nr stash ev va).mem := by
  unfold request
  split <;> simp [hm]

@[simp] theorem answer_mem (s : State) (c : Nat) (m : Msg) (data : Option Block) (held : Bool) :
    (answer s c m data held).mem = s.mem := by
  simp only [answer]
  (repeat' split) <;> simp

@[simp] theorem tracePush_mem (s : State) (c : Nat) (m : Msg) (mask : BitVec 64) :
    (tracePush s c m mask).mem = s.mem := by
  simp only [tracePush]
  (repeat' split) <;> simp

@[simp] theorem mergePush_mem (s : State) (c : Nat) (m : Msg) (l : Line) : (mergePush s c m l).mem = s.mem := by simp [mergePush]

@[simp] theorem applyForward_mem (s : State) (c : Nat) (m : Msg) :
    (applyForward s c m).mem = s.mem := by
  simp only [applyForward]
  (repeat' split) <;> simp

@[simp] theorem forward_mem (s : State) (c : Nat) (m : Msg) : (forward s c m).mem = s.mem := by simp only [forward]; (repeat' split) <;> simp

@[simp] theorem readmit_mem (s : State) (c blk : Nat) : (readmit s c blk).mem = s.mem := by
  dsimp only [readmit]
  rw [State.updCore_mem]
  exact foldl_mem _ (fun s t => State.wake_mem s t) _ s

@[simp] theorem reexecuted_mem (s : State) (t : Nat) : (reexecuted s t).mem = s.mem := by simp only [reexecuted]; (repeat' split) <;> simp

/-! ### Accesses of a slot -/

@[simp] theorem Res.ofExcept_canon {α : Type} {Q : Prop} (e : Except Trap α) (s : State) (hm : Machine.Canon Q s.mem) :
    (Res.ofExcept e s).Canon Q := by
  unfold Res.ofExcept
  split <;> exact hm

@[simp] theorem Res.andThen_ok {α β : Type} (a : α) (s : State) (f : α → State → Res β) : (Res.ok a s).andThen f = f a s := rfl

@[simp] theorem translatePart_canon {Q : Prop} (s : State) (b : By) (k : Kind) (append : Bool) (va : Word) (len : Nat) (hm : Canon Q s.mem) :
    (translatePart s b k append va len).Canon Q := by
  dsimp only [translatePart]
  have ht : Canon Q (translate s (agentOf b.t) b.user k append va).2.mem := by simp [hm]
  split
  · next e => exact Canon.of_snd e ht
  · next e =>
    have h := Canon.of_snd e ht
    split
    · exact h
    · split
      all_goals
        next e => exact Canon.of_snd e (pageRequest_canon _ _ _ _ _ _ h)
  · next e =>
    have h := Canon.of_snd e ht
    split_ifs <;> exact h

@[simp] theorem translateParts_canon {Q : Prop} (s : State) (b : By) (k : Kind) (append : Bool) (l : List (Word × Nat)) (hm : Canon Q s.mem) :
    (translateParts s b k append l).Canon Q := by
  induction l generalizing s with
  | nil => exact hm
  | cons p l ih =>
    unfold translateParts
    exact (translatePart_canon _ _ _ _ _ _ hm).andThen fun _ s hm => (ih s hm).andThen fun _ _ hm => hm

@[simp] theorem releaseFirst_canon {Q : Prop} (s : State) (t : Nat) (sc : Scope) (hm : Canon Q s.mem) :
    (releaseFirst s t sc).Canon Q := by
  simp only [releaseFirst]
  (repeat' split) <;> simp [hm]

@[simp] theorem orderFirst_canon {Q : Prop} (s : State) (t : Nat) (o : MemOrd) (hm : Canon Q s.mem) :
    (orderFirst s t o).Canon Q := by
  simp only [orderFirst]
  (repeat' split) <;> simp [hm]

@[simp] theorem obtain_canon {Q : Prop} (s : State) (c : Nat) (slot : Nat) (blk : Nat) (store : Bool) (lo : Nat) (n : Nat) (nr : Bool)
    (stash : Bool) (ev : Fin 8) (va : Word) (hm : Canon Q s.mem) :
    (obtain s c slot blk store lo n nr stash ev va).Canon Q := by
  simp only [obtain]
  (repeat' split) <;> simp [hm]

@[simp] theorem directLoad_mem (s : State) (c : Nat) (blk : Nat) (sc : Scope) (ev : Fin 8) :
    (directLoad s c blk sc ev).2.mem = s.mem := by
  simp only [directLoad]
  (repeat' split) <;> simp

@[simp] theorem fillDirectStash_mem (s : State) (c : Nat) (blk : Nat) (va : Word) :
    (fillDirectStash s c blk va).mem = s.mem := by
  simp only [fillDirectStash]
  (repeat' split) <;> simp

@[simp] theorem markStash_mem (s : State) (c : Nat) (blk : Nat) (st : Bool) (va : Word) :
    (markStash s c blk st va).mem = s.mem := by
  simp only [markStash]
  (repeat' split) <;> simp

@[simp] theorem loadPartMem_canon {Q : Prop} (s : State) (b : By) (p : Part1) (hm : Canon Q s.mem) : (loadPartMem s b p).Canon Q := by
  dsimp only [loadPartMem]
  split
  · exact hm
  split
  · exact hm
  split
  · simp [hm]
  split
  · split <;> split_ifs <;> simp [hm]
  · refine (obtain_canon _ _ _ _ _ _ _ _ _ _ _ hm).andThen fun _ s hm => ?_
    split <;> simp [hm]

@[simp] theorem loadPart_canon {Q : Prop} (s : State) (b : By) (p : Part1) (hm : Canon Q s.mem) : (loadPart s b p).Canon Q := by
  refine (loadPartMem_canon s b p hm).andThen fun r s hm => ?_
  split
  · exact hm
  · simp [hm]

@[simp] theorem loadParts_canon {Q : Prop} (s : State) (b : By) (l : List Part1) (hm : Canon Q s.mem) : (loadParts s b l).Canon Q := by
  induction l generalizing s with
  | nil => exact hm
  | cons p l ih =>
    unfold loadParts
    exact (loadPart_canon s b p hm).andThen fun _ s hm => (ih s hm).andThen fun _ _ hm => hm

@[simp] theorem storeReady_canon {Q : Prop} (s : State) (b : By) (p : Part1) (hm : Canon Q s.mem) : (storeReady s b p).Canon Q := by
  dsimp only [storeReady]
  refine Res.Canon.andThen ?_ fun _ s hm => ?_
  · split_ifs <;> simp [hm]
  · split_ifs <;> simp [hm]

@[simp] theorem spoilBacking_mem (s : State) (c : Nat) : (spoilBacking s c).mem = s.mem := (rfl)

@[simp] theorem storeDirectL1_canon {Q : Prop} (s : State) (c : Nat) (slot : Nat) (blk : Nat) (ev : Fin 8) (b : Block) (mask : BitVec 64)
    (hm : Canon Q s.mem) :
    Canon Q (storeDirectL1 s c slot blk ev b mask).mem := by
  simp only [storeDirectL1]
  (repeat' split) <;> simp [hm]

@[simp] theorem coverL1_mem (s : State) (c : Nat) (blk : Nat) (mask : BitVec 64) :
    (coverL1 s c blk mask).mem = s.mem := by
  unfold coverL1
  split <;> rfl

@[simp] theorem storePartMem_canon {Q : Prop} (s : State) (b : By) (p : Part1) (l : List Byte) (hm : Canon Q s.mem) :
    Canon Q (storePartMem s b p l).1.mem := by
  simp only [storePartMem]
  (repeat' split) <;> simp [hm]

@[simp] theorem unpoison_mem (s : State) (blk : Nat) : (unpoison s blk).mem = s.mem := by unfold unpoison; split <;> rfl

@[simp] theorem unpoisonIn_mem (s : State) (f : Nat → Nat) (o : Nat) (n : Nat) :
    (unpoisonIn s f o n).mem = s.mem := by
  unfold unpoisonIn
  split <;> rfl

@[simp] theorem storePart_canon {Q : Prop} (s : State) (b : By) (p : Part1) (l : List Byte) (hm : Canon Q s.mem) :
    Canon Q (storePart s b p l).1.mem := by
  simp only [storePart]
  (repeat' split) <;> simp [hm]

@[simp] theorem storesReady_canon {Q : Prop} (s : State) (b : By) (l : List Part1) (hm : Canon Q s.mem) : (storesReady s b l).Canon Q := by
  induction l generalizing s with
  | nil => exact hm
  | cons p l ih =>
    unfold storesReady
    exact (storeReady_canon s b p hm).andThen fun _ s hm => ih s hm

@[simp] theorem storeParts_canon {Q : Prop} (s : State) (b : By) (ps : List Part1) (l : List Byte) (hm : Canon Q s.mem) :
    Canon Q (storeParts s b ps l).1.mem := by
  induction ps generalizing s l with
  | nil => exact hm
  | cons p ps ih => exact ih _ _ (storePart_canon s b p _ hm)

@[simp] theorem lsFree_canon {Q : Prop} (s : State) (c : Nat) (hm : Canon Q s.mem) : (lsFree s c).Canon Q := by unfold lsFree; split <;> simp [hm]

@[simp] theorem stashFree_canon {Q : Prop} (s : State) (c : Nat) (ps : List Part1) (hm : Canon Q s.mem) :
    (stashFree s c ps).Canon Q := by
  unfold stashFree
  split <;> simp [hm]

@[simp] theorem lsFirst_canon {Q : Prop} (s : State) (t : Nat) (ea : Word) (hm : Canon Q s.mem) :
    (lsFirst s t ea).Canon Q := by
  unfold lsFirst
  split <;> simp [hm]

@[simp] theorem accessDest_canon {Q : Prop} (s : State) (b : By) (k : Kind) (ea : Word) (n align : Nat) (hm : Canon Q s.mem) :
    (accessDest s b k ea n align).Canon Q := by
  refine (lsFirst_canon s b.t ea hm).andThen fun _ s hm => (Res.ofExcept_canon _ s hm).andThen fun tg s hm => ?_
  split
  · exact hm
  · exact hm
  · exact (translateParts_canon s b k false _ hm).andThen fun _ _ hm => hm

@[simp] theorem loadDest_canon {Q : Prop} (s : State) (b : By) (d : Dest) (n : Nat) (hm : Canon Q s.mem) : (loadDest s b d n).Canon Q := by
  dsimp only [loadDest]
  split
  · refine (lsFree_canon s _ hm).andThen fun _ s hm => ?_
    split <;> exact hm
  · refine (orderFirst_canon s _ _ hm).andThen fun _ s hm => ?_
    split <;> exact hm
  · refine Res.Canon.andThen ?_ fun _ s hm => (stashFree_canon s _ _ hm).andThen fun _ s hm => loadParts_canon s b _ hm
    split
    · exact hm
    · simp [hm]

@[simp] theorem loadBytes_canon {Q : Prop} (s : State) (b : By) (ea : Word) (n align : Nat) (hm : Canon Q s.mem) :
    (loadBytes s b ea n align).Canon Q :=
  (accessDest_canon s b .load ea n align hm).andThen fun d s hm => loadDest_canon s b d n hm

@[simp] theorem storeDest_canon {Q : Prop} (s : State) (b : By) (d : Dest) (l : List Byte) (hm : Canon Q s.mem) : (storeDest s b d l).Canon Q := by
  dsimp only [storeDest]
  split
  · refine Res.Canon.andThen ?_ fun _ s hm => (lsFree_canon s _ hm).andThen fun _ s hm => ?_
    · split <;> simp [hm]
    · simp [hm]
  · refine Res.Canon.andThen ?_ fun _ s hm => ?_
    · split <;> simp [hm]
    · simp [hm]
  · exact (stashFree_canon s _ _ hm).andThen fun _ s hm => (storesReady_canon s b _ hm).andThen fun _ s hm => storeParts_canon s b _ l hm

@[simp] theorem storeBytes_canon {Q : Prop} (s : State) (b : By) (ea : Word) (l : List Byte) (align : Nat) (hm : Canon Q s.mem) :
    (storeBytes s b ea l align).Canon Q :=
  (accessDest_canon s b .store ea l.length align hm).andThen fun d s hm => storeDest_canon s b d l hm

/-! ### Fetch, traps and the end of an instruction -/

@[simp] theorem keepFetched_mem (s : State) (t : Nat) (blk : Nat) (b : Block) (cached : Bool) :
    (keepFetched s t blk b cached).mem = s.mem := by
  simp only [keepFetched]
  (repeat' split) <;> simp

@[simp] theorem fetchBlock_mem (s : State) (t : Nat) (blk : Nat) : (fetchBlock s t blk).2.mem = s.mem := by simp only [fetchBlock]; split <;> simp

@[simp] theorem codeBlock_canon {Q : Prop} (s : State) (t : Nat) (va : Word) (n : Nat) (hm : Canon Q s.mem) : (codeBlock s t va n).Canon Q := by
  refine (translatePart_canon s _ .fetch false va n hm).andThen fun p s hm => ?_
  split
  · exact hm
  split
  · exact hm
  · simp [hm]

@[simp] theorem fetchGlobal_canon {Q : Prop} (s : State) (t : Nat) (a : Word) (hm : Canon Q s.mem) : (fetchGlobal s t a).Canon Q := by
  refine (codeBlock_canon s t a 4 hm).andThen fun k s hm => ?_
  dsimp only
  split
  · exact hm
  · exact (codeBlock_canon s t _ _ hm).andThen fun _ _ hm => hm

@[simp] theorem fetchAt_canon {Q : Prop} (s : State) (t : Nat) (a : Word) (n : Nat) (hm : Canon Q s.mem) :
    (fetchAt s t a n).Canon Q := by
  simp only [fetchAt]
  (repeat' split) <;> simp [hm]

@[simp] theorem fetch_canon {Q : Prop} (s : State) (t : Nat) (hm : Canon Q s.mem) : (fetch s t).Canon Q := by
  dsimp only [fetch]
  split
  · exact hm
  split
  · exact fetchGlobal_canon s t _ hm
  · refine (fetchAt_canon s t _ _ hm).andThen fun w s hm => ?_
    split
    · exact hm
    · exact (fetchAt_canon s t _ _ hm).andThen fun _ _ hm => hm

@[simp] theorem die_canon {Q : Prop} (s : State) (t : Nat) (first : Cause) (hm : Canon Q s.mem) :
    Canon Q (die s t first).mem := by
  simp [die, hm, -State.setSlot_mem]

@[simp] theorem enterTrap_canon {Q : Prop} (s : State) (t : Nat) (cause : Cause) (imp : Bool) (val : Word) (resume : Word) (hm : Canon Q s.mem) :
    Canon Q (enterTrap s t cause imp val resume).mem := by
  simp only [enterTrap]
  split <;> simp [hm, -State.setSlot_mem]

@[simp] theorem failReply_mem (s : State) (p : Nat) (m : Msg) (cause : Cause) : (failReply s p m cause).mem = s.mem := (rfl)

@[simp] theorem failWaiters_mem (s : State) (idx : Nat) : (failWaiters s idx).mem = s.mem := by
  unfold failWaiters
  refine foldl_mem _ (fun s q => ?_) _ s
  exact (foldl_mem _ (fun s m => failReply_mem s q.1 m .protocolFail) _ _).trans (State.mem_updProc s q.1 _)

@[simp] theorem failRegion_canon {Q : Prop} (s : State) (p : Nat) (idx : Nat) (cause : Cause) (pcWord : Nat) (hm : Canon Q s.mem) :
    Canon Q (failRegion s p idx cause pcWord).mem := by
  simp [failRegion, hm]

@[simp] theorem abortHandler_canon {Q : Prop} (s : State) (t : Nat) (cause : Cause) (hm : Canon Q s.mem) :
    Canon Q (abortHandler s t cause).mem := by
  simp only [abortHandler]
  (repeat' split) <;> simp [hm, -State.setSlot_mem]

@[simp] theorem takeSyncAt_canon {Q : Prop} (s : State) (t : Nat) (cause : Cause) (val : Word) (resume : Word) (hm : Canon Q s.mem) :
    Canon Q (takeSyncAt s t cause val resume).mem := by
  simp only [takeSyncAt]
  (repeat' split) <;> simp [hm]

@[simp] theorem takeSync_canon {Q : Prop} (s : State) (t : Nat) (cause : Cause) (val : Word) (hm : Canon Q s.mem) :
    Canon Q (takeSync s t cause val).mem := by
  simp [takeSync, hm]

@[simp] theorem trap_ends {Q : Prop} (cause : Cause) (val : Word) (s : State) (hm : Canon Q s.mem) : Ends Q (trap cause val s) := by simp [trap, hm]
@[simp] theorem illegalOp_ends {Q : Prop} (base : Nat) (s : State) (hm : Canon Q s.mem) : Ends Q (illegalOp base s) := by simp [illegalOp, hm]

@[simp] theorem Ends.finish {α : Type} {Q : Prop} {r : Res α} {k : α → State → Out} (hr : r.Canon Q)
    (hk : ∀ a s, Machine.Canon Q s.mem → Ends Q (k a s)) : Ends Q (r.finish k) := by
  cases r with
  | ok a s => exact hk a s hr
  | trap c v s => exact trap_ends c v s hr
  | wait w s => exact wait_ends w s hr

@[simp] theorem privileged_ends {Q : Prop} (base : Nat) (s : State) (k : Out) (hm : Canon Q s.mem) (hk : Ends Q k) :
    Ends Q (privileged base s k) := by
  unfold privileged
  split
  · exact trap_ends _ _ _ hm
  · exact hk

@[simp] theorem doneFar_ends {Q : Prop} (n : Nat) (w : Option Wait) (s : State) (hm : Canon Q s.mem) :
    Ends Q (doneFar n w s) := by
  unfold doneFar
  split <;> simp [hm]

@[simp] theorem doneAway_ends {Q : Prop} (n : Nat) (w : Option Wait) (r : Redo) (s : State) (hm : Canon Q s.mem) :
    Ends Q (doneAway n w r s) := by
  unfold doneAway
  split <;> simp [hm]

@[simp] theorem State.flag_mem (s : State) (f : FFlags) : (State.flag s f).mem = s.mem := (rfl)

/-! ### Loads, stores and atomics -/

@[simp] theorem loadAny_canon {Q : Prop} (s : State) (q : MemQual) (ea : Word) (n : Nat) (hm : Canon Q s.mem) :
    (loadAny s q ea n).Canon Q := by
  unfold loadAny
  split <;> simp [hm]

@[simp] theorem storeAny_canon {Q : Prop} (s : State) (q : MemQual) (ea : Word) (l : List Byte) (hm : Canon Q s.mem) :
    (storeAny s q ea l).Canon Q := by
  unfold storeAny
  split <;> simp [hm]

@[simp] theorem loadInstr_ends {Q : Prop} (n : Nat) (signed : Bool) (sz : Size) (d : Reg) (ea : Word) (q : MemQual) (s : State) (hm : Canon Q s.mem) :
    Ends Q (loadInstr n signed sz d ea q s) := by
  simp only [loadInstr]
  split <;> simp_all

@[simp] theorem storeInstr_ends {Q : Prop} (n : Nat) (sz : Size) (a : Reg) (ea : Word) (q : MemQual) (s : State) (hm : Canon Q s.mem) :
    Ends Q (storeInstr n sz a ea q s) := by
  simp_all [storeInstr]

@[simp] theorem execLd_ends {Q : Prop} (sz : Size) (d : Reg) (base : Reg) (q : MemQual) (s : State) (hm : Canon Q s.mem) :
    Ends Q (execLd sz d base q s) := by
  simp [execLd, hm]

@[simp] theorem execLdExt_ends {Q : Prop} (sz : Size) (d : Reg) (base : Reg) (q : MemQual) (x : MemExt) (s : State) (hm : Canon Q s.mem) :
    Ends Q (execLdExt sz d base q x s) := by
  simp [execLdExt, hm]

@[simp] theorem execLds_ends {Q : Prop} (sz : Size) (d : Reg) (base : Reg) (q : MemQual) (s : State) (hm : Canon Q s.mem) :
    Ends Q (execLds sz d base q s) := by
  simp [execLds, hm]

@[simp] theorem execLdsExt_ends {Q : Prop} (sz : Size) (d : Reg) (base : Reg) (q : MemQual) (x : MemExt) (s : State) (hm : Canon Q s.mem) :
    Ends Q (execLdsExt sz d base q x s) := by
  simp [execLdsExt, hm]

@[simp] theorem execSt_ends {Q : Prop} (sz : Size) (a : Reg) (base : Reg) (q : MemQual) (s : State) (hm : Canon Q s.mem) :
    Ends Q (execSt sz a base q s) := by
  simp [execSt, hm]

@[simp] theorem execStExt_ends {Q : Prop} (sz : Size) (a : Reg) (base : Reg) (q : MemQual) (x : MemExt) (s : State) (hm : Canon Q s.mem) :
    Ends Q (execStExt sz a base q x s) := by
  simp [execStExt, hm]

@[simp] theorem yieldBlock_canon {Q : Prop} (s : State) (c : Nat) (slot : Nat) (blk : Nat) (va : Word) (hm : Canon Q s.mem) :
    (yieldBlock s c slot blk va).Canon Q := by
  simp only [yieldBlock]
  (repeat' split) <;> simp [hm]

@[simp] theorem slotRequest_mem (s : State) (tag : Nat) (c : Nat) (slot : Nat) (type : Nat) (dst : Nat) (pa : Nat) (w2 : Word) (w3 : Word)
    (w4 : Word) (flit : Option Block) :
    (slotRequest s tag c slot type dst pa w2 w3 w4 flit).mem = s.mem := (rfl)

@[simp] theorem askHome_ends {Q : Prop} (n : Nat) (d : Reg) (va : Word) (type : Nat) (dst : Nat) (pa : Nat) (w2 : Word) (w3 : Word) (w4 : Word)
    (flit : Option Block) (s : State) (hm : Canon Q s.mem) :
    Ends Q (askHome n d va type dst pa w2 w3 w4 flit s) := by
  unfold askHome
  split <;> simp [hm]

@[simp] theorem atomInstr_ends {Q : Prop} (n code : Nat) (x v : Word) (d : Reg) (ea : Word) (q : MemQual) (s : State) (hm : Canon Q s.mem) :
    Ends Q (atomInstr n code x v d ea q s) := by
  dsimp only [atomInstr]
  split
  · exact .finish (Res.ofExcept_canon _ s hm) fun _ s hm => by simp [hm]
  · refine .finish (.andThen (lsFirst_canon _ _ _ hm) fun _ s hm => Res.ofExcept_canon _ s hm) fun tg s hm => ?_
    split
    · refine .finish (.andThen (by simp [hm]) fun _ s hm => lsFree_canon s _ hm) fun _ s hm => ?_
      simp [hm]
    · refine .finish (.andThen (by simp [hm]) fun _ s hm => by simp [hm]) fun _ s hm => ?_
      simp [hm]
    · refine .finish (translatePart_canon _ _ _ _ _ _ hm) fun p s hm => ?_
      split
      · split
        · simp [hm]
        · refine .finish (.andThen (by simp [hm]) fun _ s hm => by simp [hm]) fun _ s hm => ?_
          simp [hm, atomMem]
      split
      · simp [hm]
      · refine .finish (.andThen (.andThen (by simp [hm]) fun _ s hm => by simp [hm]) fun _ s hm => by simp [hm]) fun _ s hm => ?_
        simp [hm]

@[simp] theorem execAtomSwap_ends {Q : Prop} (sz : Size) (d : Reg) (base : Reg) (q : MemQual) (s : State) (hm : Canon Q s.mem) :
    Ends Q (execAtomSwap sz d base q s) := by
  simp [execAtomSwap, hm]

@[simp] theorem execAtomSwapExt_ends {Q : Prop} (sz : Size) (d : Reg) (base : Reg) (q : MemQual) (x : MemExt) (s : State) (hm : Canon Q s.mem) :
    Ends Q (execAtomSwapExt sz d base q x s) := by
  simp [execAtomSwapExt, hm]

@[simp] theorem execAtomAdd_ends {Q : Prop} (sz : Size) (d : Reg) (base : Reg) (q : MemQual) (s : State) (hm : Canon Q s.mem) :
    Ends Q (execAtomAdd sz d base q s) := by
  simp [execAtomAdd, hm]

@[simp] theorem execAtomAddExt_ends {Q : Prop} (sz : Size) (d : Reg) (base : Reg) (q : MemQual) (x : MemExt) (s : State) (hm : Canon Q s.mem) :
    Ends Q (execAtomAddExt sz d base q x s) := by
  simp [execAtomAddExt, hm]

@[simp] theorem execAtomAnd_ends {Q : Prop} (sz : Size) (d : Reg) (base : Reg) (q : MemQual) (s : State) (hm : Canon Q s.mem) :
    Ends Q (execAtomAnd sz d base q s) := by
  simp [execAtomAnd, hm]

@[simp] theorem execAtomAndExt_ends {Q : Prop} (sz : Size) (d : Reg) (base : Reg) (q : MemQual) (x : MemExt) (s : State) (hm : Canon Q s.mem) :
    Ends Q (execAtomAndExt sz d base q x s) := by
  simp [execAtomAndExt, hm]

@[simp] theorem execAtomOr_ends {Q : Prop} (sz : Size) (d : Reg) (base : Reg) (q : MemQual) (s : State) (hm : Canon Q s.mem) :
    Ends Q (execAtomOr sz d base q s) := by
  simp [execAtomOr, hm]

@[simp] theorem execAtomOrExt_ends {Q : Prop} (sz : Size) (d : Reg) (base : Reg) (q : MemQual) (x : MemExt) (s : State) (hm : Canon Q s.mem) :
    Ends Q (execAtomOrExt sz d base q x s) := by
  simp [execAtomOrExt, hm]

@[simp] theorem execAtomXor_ends {Q : Prop} (sz : Size) (d : Reg) (base : Reg) (q : MemQual) (s : State) (hm : Canon Q s.mem) :
    Ends Q (execAtomXor sz d base q s) := by
  simp [execAtomXor, hm]

@[simp] theorem execAtomXorExt_ends {Q : Prop} (sz : Size) (d : Reg) (base : Reg) (q : MemQual) (x : MemExt) (s : State) (hm : Canon Q s.mem) :
    Ends Q (execAtomXorExt sz d base q x s) := by
  simp [execAtomXorExt, hm]

@[simp] theorem execAtomMin_ends {Q : Prop} (sz : Size) (d : Reg) (base : Reg) (q : MemQual) (s : State) (hm : Canon Q s.mem) :
    Ends Q (execAtomMin sz d base q s) := by
  simp [execAtomMin, hm]

@[simp] theorem execAtomMinExt_ends {Q : Prop} (sz : Size) (d : Reg) (base : Reg) (q : MemQual) (x : MemExt) (s : State) (hm : Canon Q s.mem) :
    Ends Q (execAtomMinExt sz d base q x s) := by
  simp [execAtomMinExt, hm]

@[simp] theorem execAtomMax_ends {Q : Prop} (sz : Size) (d : Reg) (base : Reg) (q : MemQual) (s : State) (hm : Canon Q s.mem) :
    Ends Q (execAtomMax sz d base q s) := by
  simp [execAtomMax, hm]

@[simp] theorem execAtomMaxExt_ends {Q : Prop} (sz : Size) (d : Reg) (base : Reg) (q : MemQual) (x : MemExt) (s : State) (hm : Canon Q s.mem) :
    Ends Q (execAtomMaxExt sz d base q x s) := by
  simp [execAtomMaxExt, hm]

@[simp] theorem execAtomFadd_ends {Q : Prop} (d : Reg) (base : Reg) (q : MemQual) (s : State) (hm : Canon Q s.mem) :
    Ends Q (execAtomFadd d base q s) := by
  simp [execAtomFadd, hm]

@[simp] theorem execAtomFaddExt_ends {Q : Prop} (d : Reg) (base : Reg) (q : MemQual) (x : MemExt) (s : State) (hm : Canon Q s.mem) :
    Ends Q (execAtomFaddExt d base q x s) := by
  simp [execAtomFaddExt, hm]

@[simp] theorem execCas_ends {Q : Prop} (sz : Size) (d : Reg) (base : Reg) (q : MemQual) (s : State) (hm : Canon Q s.mem) :
    Ends Q (execCas sz d base q s) := by
  simp [execCas, hm]

@[simp] theorem execCasExt_ends {Q : Prop} (sz : Size) (d : Reg) (base : Reg) (q : MemQual) (x : MemExt) (s : State) (hm : Canon Q s.mem) :
    Ends Q (execCasExt sz d base q x s) := by
  simp [execCasExt, hm]

@[simp] theorem execStnibLo_ends {Q : Prop} (a : Reg) (base : Reg) (q : MemQual) (s : State) (hm : Canon Q s.mem) :
    Ends Q (execStnibLo a base q s) := by
  simp [execStnibLo, hm]

@[simp] theorem execStnibLoExt_ends {Q : Prop} (a : Reg) (base : Reg) (q : MemQual) (x : MemExt) (s : State) (hm : Canon Q s.mem) :
    Ends Q (execStnibLoExt a base q x s) := by
  simp [execStnibLoExt, hm]

@[simp] theorem execStnibHi_ends {Q : Prop} (a : Reg) (base : Reg) (q : MemQual) (s : State) (hm : Canon Q s.mem) :
    Ends Q (execStnibHi a base q s) := by
  simp [execStnibHi, hm]

@[simp] theorem execStnibHiExt_ends {Q : Prop} (a : Reg) (base : Reg) (q : MemQual) (x : MemExt) (s : State) (hm : Canon Q s.mem) :
    Ends Q (execStnibHiExt a base q x s) := by
  simp [execStnibHiExt, hm]

@[simp] theorem physOf_mem (s : State) (t : Nat) (va : Word) : (physOf s t va).2.mem = s.mem := by
  have h := locate_mem s (agentOf t) .load va
  unfold physOf
  split <;> simp_all

@[simp] theorem prefetchBlock_canon {Q : Prop} (s : State) (t : Nat) (ev : Fin 8) (va : Word) (hm : Canon Q s.mem) :
    Canon Q (prefetchBlock s t ev va).mem := by
  have ht : Canon Q (translate s (agentOf t) ((s.slot t).mode = .u) .load false va).2.mem := by simp [hm]
  unfold prefetchBlock
  split
  · next e =>
    have h := Canon.of_snd e ht
    dsimp only
    split
    · exact h
    · split <;> simp [h]
  · next e => exact Canon.of_snd e ht

@[simp] theorem prefInstr_ends {Q : Prop} (n : Nat) (len ea : Word) (ev : Fin 8) (s : State) (hm : Canon Q s.mem) :
    Ends Q (prefInstr n len ea ev s) := by
  unfold prefInstr
  refine done_ends n _ (canon_foldl _ (fun s a hm => ?_) _ s hm)
  split <;> simp [hm]

@[simp] theorem execPref_ends {Q : Prop} (n : Reg) (base : Reg) (ev : Fin 8) (s : State) (hm : Canon Q s.mem) :
    Ends Q (execPref n base ev s) := by
  simp [execPref, hm]

@[simp] theorem execPrefExt_ends {Q : Prop} (n : Reg) (base : Reg) (ev : Fin 8) (x : MemExt) (s : State) (hm : Canon Q s.mem) :
    Ends Q (execPrefExt n base ev x s) := by
  simp [execPrefExt, hm]

@[simp] theorem toL2_canon {Q : Prop} (s : State) (c : Nat) (blk : Nat) (keep : Bool) (hm : Canon Q s.mem) :
    Canon Q (toL2 s c blk keep).mem := by
  simp only [toL2]
  (repeat' split) <;> simp [hm]

@[simp] theorem cleanBlock_canon {Q : Prop} (s : State) (t : Nat) (flush : Bool) (sc : Scope) (va : Word) (hm : Canon Q s.mem) :
    Canon Q (cleanBlock s t flush sc va).mem := by
  simp only [cleanBlock]
  split
  · simp [hm]
  · rw [State.mem_ite, canon_ite]
    refine ⟨fun _ => flushL2_canon _ _ _ ?_, fun _ => ?_⟩
    all_goals
      refine canon_foldl _ (fun s o hm => ?_) _ _ (by simp [hm])
      split_ifs <;> simp [hm]

@[simp] theorem cleanFirst_mem (s : State) (t : Nat) (sc : Scope) (l : List Word) : (cleanFirst s t sc l).2.mem = s.mem := by
  induction l generalizing s with
  | nil => rfl
  | cons va l ih => simp [cleanFirst, ih]

@[simp] theorem physBlocks_mem (s : State) (t : Nat) (l : List Word) : (physBlocks s t l).2.mem = s.mem := by
  induction l generalizing s with
  | nil => rfl
  | cons va l ih => simp [physBlocks, ih]

@[simp] theorem cacheInstr_ends {Q : Prop} (flush : Bool) (sc : Scope) (len ea : Word) (k : State → Out) (s : State) (hm : Canon Q s.mem)
    (hk : ∀ s, Canon Q s.mem → Ends Q (k s)) : Ends Q (cacheInstr flush sc len ea k s) := by
  dsimp only [cacheInstr]
  split
  · simp [hm]
  split
  · simp [hm]
  split
  · simp [hm]
  have h : Canon Q ((blocksOf ea len.toNat).foldl (fun s a => cleanBlock s s.cur flush sc a) (cleanFirst s s.cur sc (blocksOf ea len.toNat)).2).mem :=
    canon_foldl _ (fun s a hm => cleanBlock_canon s _ flush sc a hm) _ _ (by simp [hm])
  split
  · exact hk _ (by simpa using h)
  · exact wait_ends _ _ (by simpa using h)

@[simp] theorem execCclean_ends {Q : Prop} (n : Reg) (base : Reg) (sc : Scope) (s : State) (hm : Canon Q s.mem) :
    Ends Q (execCclean n base sc s) := by
  simp +contextual [execCclean, hm]

@[simp] theorem execCcleanExt_ends {Q : Prop} (n : Reg) (base : Reg) (sc : Scope) (x : MemExt) (s : State) (hm : Canon Q s.mem) :
    Ends Q (execCcleanExt n base sc x s) := by
  simp +contextual [execCcleanExt, hm]

@[simp] theorem execCflush_ends {Q : Prop} (n : Reg) (base : Reg) (sc : Scope) (s : State) (hm : Canon Q s.mem) :
    Ends Q (execCflush n base sc s) := by
  simp +contextual [execCflush, hm]

@[simp] theorem execCflushExt_ends {Q : Prop} (n : Reg) (base : Reg) (sc : Scope) (x : MemExt) (s : State) (hm : Canon Q s.mem) :
    Ends Q (execCflushExt n base sc x s) := by
  simp +contextual [execCflushExt, hm]

@[simp] theorem codeflushInstr_ends {Q : Prop} (n : Nat) (len : Word) (ea : Word) (sc : Scope) (s : State) (hm : Canon Q s.mem) :
    Ends Q (codeflushInstr n len ea sc s) := by
  simp only [codeflushInstr]
  (repeat' split) <;> simp +contextual [hm]

@[simp] theorem execCodeflush_ends {Q : Prop} (n : Reg) (base : Reg) (sc : Scope) (s : State) (hm : Canon Q s.mem) :
    Ends Q (execCodeflush n base sc s) := by
  simp [execCodeflush, hm]

@[simp] theorem execCodeflushExt_ends {Q : Prop} (n : Reg) (base : Reg) (sc : Scope) (x : MemExt) (s : State) (hm : Canon Q s.mem) :
    Ends Q (execCodeflushExt n base sc x s) := by
  simp [execCodeflushExt, hm]

@[simp] theorem execCodeflushAcknowledgement_ends {Q : Prop} (t : Nat) (s : State) (hm : Canon Q s.mem) :
    Ends Q (execCodeflushAcknowledgement t s) := by
  simp only [execCodeflushAcknowledgement]
  (repeat' split) <;> simp [hm]

@[simp] theorem execIfence_ends {Q : Prop} (s : State) (hm : Canon Q s.mem) : Ends Q (execIfence s) := by simp [execIfence, hm, -State.setSlot_mem]

@[simp] theorem stashMapInstr_ends {Q : Prop} (n : Nat) (c : Word) (g : Word) (s : State) (hm : Canon Q s.mem) :
    Ends Q (stashMapInstr n c g s) := by
  simp only [stashMapInstr]
  (repeat' split) <;> simp [hm, -State.setCore_mem]

@[simp] theorem execStashMap_ends {Q : Prop} (c : Reg) (base : Reg) (s : State) (hm : Canon Q s.mem) :
    Ends Q (execStashMap c base s) := by
  simp [execStashMap, hm]

@[simp] theorem execStashMapExt_ends {Q : Prop} (c : Reg) (base : Reg) (x : MemExt) (s : State) (hm : Canon Q s.mem) :
    Ends Q (execStashMapExt c base x s) := by
  simp [execStashMapExt, hm]

@[simp] theorem unmapLines_canon {Q : Prop} (s : State) (c slot g n : Nat) (hm : Canon Q s.mem) : Canon Q (unmapLines s c slot g n).2.mem := by
  simp +contextual [unmapLines, hm]

@[simp] theorem stashUnmapInstr_ends {Q : Prop} (n : Nat) (ea : Word) (s : State) (hm : Canon Q s.mem) : Ends Q (stashUnmapInstr n ea s) := by
  unfold stashUnmapInstr
  extract_lets c pc go
  have hgo : ∀ g len s, Canon Q s.mem → Ends Q (go g len s) := fun g len s hm => by
    have h := unmapLines_canon s c (slotOf s.cur) g len hm
    simp only [go]
    split
    · next e => simp [Canon.of_snd e h, -State.setSlot_mem]
    · next e => simp [Canon.of_snd e h, -State.setSlot_mem]
  split
  · simp [hgo, hm, -State.setSlot_mem]
  · exact hgo _ _ s hm
  · exact trap_ends _ _ s hm

@[simp] theorem execStashUnmap_ends {Q : Prop} (base : Reg) (s : State) (hm : Canon Q s.mem) :
    Ends Q (execStashUnmap base s) := by
  simp [execStashUnmap, hm]

@[simp] theorem execStashUnmapExt_ends {Q : Prop} (base : Reg) (x : MemExt) (s : State) (hm : Canon Q s.mem) :
    Ends Q (execStashUnmapExt base x s) := by
  simp [execStashUnmapExt, hm]

@[simp] theorem execSpaceTest_ends {Q : Prop} (d : Reg) (a : Reg) (s : State) (hm : Canon Q s.mem) :
    Ends Q (execSpaceTest d a s) := by
  simp [execSpaceTest, hm]

@[simp] theorem execSpaceCastGen_ends {Q : Prop} (sp : SpaceSel) (d : Reg) (a : Reg) (s : State) (hm : Canon Q s.mem) :
    Ends Q (execSpaceCastGen sp d a s) := by
  simp only [execSpaceCastGen]
  (repeat' split) <;> simp [hm]

@[simp] theorem execSpaceCastOff_ends {Q : Prop} (sp : SpaceSel) (d : Reg) (a : Reg) (s : State) (hm : Canon Q s.mem) :
    Ends Q (execSpaceCastOff sp d a s) := by
  simp only [execSpaceCastOff]
  split <;> simp [hm]

/-! ### Append pages -/

@[simp] theorem fenceMarks_mem (s : State) (acq : Bool) (rel : Bool) (sc : Scope) : (fenceMarks s acq rel sc).mem = s.mem := (rfl)

@[simp] theorem execFence_ends {Q : Prop} (o : FenceOrd) (sc : Scope) (s : State) (hm : Canon Q s.mem) :
    Ends Q (execFence o sc s) := by
  simp only [execFence]
  (repeat' split) <;> simp [hm, -State.setSlot_mem]

@[simp] theorem appendPage_canon {Q : Prop} (s : State) (k : Kind) (ea : Word) (hm : Canon Q s.mem) : (appendPage s k ea).Canon Q := by
  refine .andThen (Res.ofExcept_canon _ s hm) fun tg s hm => ?_
  split
  · refine .andThen (translatePart_canon _ _ _ _ _ _ hm) fun p s hm => ?_
    simp [hm]
  · exact hm

@[simp] theorem appendInstr_ends {Q : Prop} (n : Nat) (d : Reg) (ea : Word) (src : List Byte) (rel : Bool) (sc : Scope) (s : State)
    (hm : Canon Q s.mem) : Ends Q (appendInstr n d ea src rel sc s) := by
  refine .finish (.andThen (appendPage_canon s _ ea hm) fun p s hm => .andThen ?_ fun _ s hm => hm) fun p s hm => askHome_ends _ _ _ _ _ _ _ _ _ _ s hm
  simp [hm]

@[simp] theorem appendScalar_ends {Q : Prop} (n : Nat) (sz : Size) (d : Reg) (ea : Word) (rel : Bool) (sc : Scope) (s : State) (hm : Canon Q s.mem) :
    Ends Q (appendScalar n sz d ea rel sc s) := by
  simp [appendScalar, hm]

@[simp] theorem appendVec_ends {Q : Prop} (n : Nat) (d : Reg) (ea : Word) (rel : Bool) (sc : Scope) (s : State) (hm : Canon Q s.mem) :
    Ends Q (appendVec n d ea rel sc s) := by
  simp [appendVec, hm]

@[simp] theorem execAppend_ends {Q : Prop} (sz : Size) (d : Reg) (base : Reg) (rel : Bool) (sc : Scope) (s : State) (hm : Canon Q s.mem) :
    Ends Q (execAppend sz d base rel sc s) := by
  simp [execAppend, hm]

@[simp] theorem execAppendExt_ends {Q : Prop} (sz : Size) (d : Reg) (base : Reg) (rel : Bool) (sc : Scope) (x : MemExt) (s : State)
    (hm : Canon Q s.mem) :
    Ends Q (execAppendExt sz d base rel sc x s) := by
  simp [execAppendExt, hm]

@[simp] theorem execAppendV_ends {Q : Prop} (d : Reg) (base : Reg) (rel : Bool) (sc : Scope) (s : State) (hm : Canon Q s.mem) :
    Ends Q (execAppendV d base rel sc s) := by
  simp [execAppendV, hm]

@[simp] theorem execAppendVExt_ends {Q : Prop} (d : Reg) (base : Reg) (rel : Bool) (sc : Scope) (x : MemExt) (s : State) (hm : Canon Q s.mem) :
    Ends Q (execAppendVExt d base rel sc x s) := by
  simp [execAppendVExt, hm]

@[simp] theorem tailInstr_ends {Q : Prop} (n : Nat) (d : Reg) (ea : Word) (s : State) (hm : Canon Q s.mem) :
    Ends Q (tailInstr n d ea s) := by
  simp +contextual [tailInstr, hm]

@[simp] theorem execTailrd_ends {Q : Prop} (d : Reg) (base : Reg) (_sc : Scope) (s : State) (hm : Canon Q s.mem) :
    Ends Q (execTailrd d base _sc s) := by
  simp [execTailrd, hm]

@[simp] theorem execTailrdExt_ends {Q : Prop} (d : Reg) (base : Reg) (_sc : Scope) (x : MemExt) (s : State) (hm : Canon Q s.mem) :
    Ends Q (execTailrdExt d base _sc x s) := by
  simp [execTailrdExt, hm]

@[simp] theorem sealInstr_ends {Q : Prop} (n : Nat) (d : Reg) (ea : Word) (sc : Scope) (s : State) (hm : Canon Q s.mem) :
    Ends Q (sealInstr n d ea sc s) :=
  .finish (.andThen (appendPage_canon s _ ea hm) fun _ s hm => .andThen (releaseFirst_canon s _ _ hm) fun _ _ hm => hm)
    fun _ s hm => askHome_ends _ _ _ _ _ _ _ _ _ _ s hm

@[simp] theorem execSeal_ends {Q : Prop} (d : Reg) (base : Reg) (sc : Scope) (s : State) (hm : Canon Q s.mem) :
    Ends Q (execSeal d base sc s) := by
  simp [execSeal, hm]

@[simp] theorem execSealExt_ends {Q : Prop} (d : Reg) (base : Reg) (sc : Scope) (x : MemExt) (s : State) (hm : Canon Q s.mem) :
    Ends Q (execSealExt d base sc x s) := by
  simp [execSealExt, hm]

@[simp] theorem freeSealInstr_ends {Q : Prop} (base : Nat) (n : Nat) (ea : Word) (s : State) (hm : Canon Q s.mem) :
    Ends Q (freeSealInstr base n ea s) := by
  simp [freeSealInstr, hm]

@[simp] theorem execFreeSeal_ends {Q : Prop} (base : Reg) (s : State) (hm : Canon Q s.mem) :
    Ends Q (execFreeSeal base s) := by
  simp [execFreeSeal, hm]

@[simp] theorem execFreeSealExt_ends {Q : Prop} (base : Reg) (x : MemExt) (s : State) (hm : Canon Q s.mem) :
    Ends Q (execFreeSealExt base x s) := by
  simp [execFreeSealExt, hm]

/-! ### Requests to a home -/

@[simp] theorem State.setEntry_canon {Q : Prop} (s : State) (a : Nat) (e : De) (hm : Canon Q s.mem) :
    Canon Q (State.setEntry s a e).mem := by
  simp [State.setEntry, hm]

@[simp] theorem evictHost_mem (s : State) (pa : Nat) (dirty : Bool) : (evictHost s pa dirty).mem = s.mem := by simp [evictHost]

@[simp] theorem takeHost_canon {Q : Prop} (s : State) (pa : Nat) (excl : Bool) (hm : Canon Q s.mem) :
    Canon Q (takeHost s pa excl).mem := by
  simp only [takeHost]
  split <;> simp [hm]

@[simp] theorem releaseHost_canon {Q : Prop} (s : State) (wrote : Bool) (pa : Nat) (hm : Canon Q s.mem) :
    Canon Q (releaseHost s wrote pa).mem := by
  simp only [releaseHost]
  split <;> simp [hm]

@[simp] theorem patchCopies_mem (s : State) (blk : Nat) (lo : Nat) (l : List Byte) : (patchCopies s blk lo l).mem = s.mem := (rfl)
@[simp] theorem dirtyFrame_mem (s : State) (pa : Nat) : (dirtyFrame s pa).mem = s.mem := by simp only [dirtyFrame]; split <;> simp

@[simp] theorem homeStore_canon {Q : Prop} (s : State) (pa : Nat) (l : List Byte) (w : Writer) (hm : Canon Q s.mem) :
    Canon Q (homeStore s pa l w).mem := by
  simp [homeStore, hm]

@[simp] theorem homeStoreAll_canon {Q : Prop} (s : State) (pa : Nat) (w : Writer) (l : List Byte) (hm : Canon Q s.mem) :
    Canon Q (homeStoreAll s pa w l).mem := by
  unfold homeStoreAll
  exact canon_foldl _ (fun _ _ hm => by dsimp only; (repeat' split) <;> simp [hm]) _ _ hm

@[simp] theorem patchReaders_mem (s : State) (blk : Nat) (b : Block) : (patchReaders s blk b).mem = s.mem := (rfl)

@[simp] theorem homeWrite_canon {Q : Prop} (s : State) (pa : Nat) (l : List Byte) (w : Writer) (hm : Canon Q s.mem) :
    Canon Q (homeWrite s pa l w).mem := by
  unfold homeWrite
  split
  · split
    · exact homeStoreAll_canon s pa w l hm
    · rw [patchReaders_mem, tracePortBy_mem]
      exact hm.wrBlock _ _
  · exact homeStoreAll_canon s pa w l hm

@[simp] theorem cellHeld_canon {Q : Prop} (s : State) (c : Nat) (slot : Nat) (pa : Nat) (nr : Bool) (a : Word) (hm : Canon Q s.mem) :
    (cellHeld s c slot pa nr a).Canon Q := by
  simp [cellHeld, hm]

@[simp] theorem cellAddrBy_canon {Q : Prop} (s : State) (t : Nat) (engine : Bool) (a val : Word) (hm : Canon Q s.mem) :
    (cellAddrBy s t engine a val).Canon Q := by
  refine .andThen (Res.ofExcept_canon _ s hm) fun tg s hm => ?_
  split
  · have h := translatePart_canon (Q := Q) s ⟨t, (s.slot t).mode = .u, ⟨.rlx, .pkg, 4⟩, engine⟩ .store false ‹Word› 64 hm
    split
    · next e =>
      have hm := Canon.of_ok e h
      split
      · exact hm
      split
      · exact hm
      split
      · exact hm
      · exact .andThen (cellHeld_canon _ _ _ _ _ _ hm) fun _ _ hm => hm
    · next e => exact Canon.of_trap e h
    · next e => exact Canon.of_wait e h
  · exact hm

@[simp] theorem cellAddr_canon {Q : Prop} (s : State) (t : Nat) (a : Word) (val : Word) (hm : Canon Q s.mem) :
    (cellAddr s t a val).Canon Q := by
  simp [cellAddr, hm]

@[simp] theorem cellCount_canon {Q : Prop} (s : State) (t : Nat) (pa : Nat) (f : Word → Word) (hm : Canon Q s.mem) :
    Canon Q (cellCount s t pa f).mem := by
  simp [cellCount, hm]

/-! ### Context buffers -/

@[simp] theorem ctxWrite_canon {Q : Prop} (s : State) (p : Nat) (c : Nat) (off : Nat) (l : List Byte) (hm : Canon Q s.mem) :
    Canon Q (ctxWrite s p c off l).mem := by
  unfold ctxWrite
  split <;> simp [hm]

theorem spillItem_canon {Q : Prop} {s t : State} {p c : Nat} {it : SpillItem} {away : Bool} (e : spillItem s p c it away = some t)
    (hm : Canon Q s.mem) : Canon Q t.mem := by
  obtain ⟨i, -, rfl⟩ := Option.map_eq_some_iff.mp e
  simp [hm]

@[simp] theorem returnSpills_canon {Q : Prop} (s : State) (p : Nat) (c : Nat) (f : Spill → Bool) (after : Bool) (hm : Canon Q s.mem) :
    Canon Q (returnSpills s p c f after).mem := by
  simp +contextual [returnSpills, hm]

/-! ### System and translation instructions -/

@[simp] theorem crWrite_mem (s : State) (t : Nat) (cr : Nat) (v : Word) (clear : Bool) :
    (crWrite s t cr v clear).mem = s.mem := by
  unfold crWrite
  split <;> rfl

@[simp] theorem crAccess_ends {Q : Prop} (base : Nat) (o : CrOp) (writes : Bool) (d : Reg) (v : Word) (cr : BitVec 12) (s : State)
    (hm : Canon Q s.mem) :
    Ends Q (crAccess base o writes d v cr s) := by
  simp [crAccess, hm]

@[simp] theorem execCrrw_ends {Q : Prop} (d : Reg) (a : Reg) (cr : BitVec 12) (s : State) (hm : Canon Q s.mem) :
    Ends Q (execCrrw d a cr s) := by
  simp [execCrrw, hm]

@[simp] theorem execCrrs_ends {Q : Prop} (d : Reg) (a : Reg) (cr : BitVec 12) (s : State) (hm : Canon Q s.mem) :
    Ends Q (execCrrs d a cr s) := by
  simp [execCrrs, hm]

@[simp] theorem execCrrc_ends {Q : Prop} (d : Reg) (a : Reg) (cr : BitVec 12) (s : State) (hm : Canon Q s.mem) :
    Ends Q (execCrrc d a cr s) := by
  simp [execCrrc, hm]

@[simp] theorem execCrrwi_ends {Q : Prop} (d : Reg) (imm : Fin 32) (cr : BitVec 12) (s : State) (hm : Canon Q s.mem) :
    Ends Q (execCrrwi d imm cr s) := by
  simp [execCrrwi, hm]

@[simp] theorem execCrrsi_ends {Q : Prop} (d : Reg) (imm : Fin 32) (cr : BitVec 12) (s : State) (hm : Canon Q s.mem) :
    Ends Q (execCrrsi d imm cr s) := by
  simp [execCrrsi, hm]

@[simp] theorem execCrrci_ends {Q : Prop} (d : Reg) (imm : Fin 32) (cr : BitVec 12) (s : State) (hm : Canon Q s.mem) :
    Ends Q (execCrrci d imm cr s) := by
  simp [execCrrci, hm]

@[simp] theorem dropStash_canon {Q : Prop} (s : State) (c : Nat) (hm : Canon Q s.mem) :
    Canon Q (dropStash s c).mem := by
  simp +contextual [dropStash, hm]

@[simp] theorem setSplit_mem (s : State) (c : Nat) (v : Fin 16) : (setSplit s c v).mem = s.mem := by simp [setSplit]

@[simp] theorem execLsSplitWrite_ends {Q : Prop} (t : Nat) (s : State) (hm : Canon Q s.mem) :
    Ends Q (execLsSplitWrite t s) := by
  unfold execLsSplitWrite
  split <;> simp [hm]

@[simp] theorem execSyscall_ends {Q : Prop} (code : BitVec 15) (s : State) (hm : Canon Q s.mem) :
    Ends Q (execSyscall code s) := by
  simp [execSyscall, hm]

@[simp] theorem execBreak_ends {Q : Prop} (code : BitVec 15) (s : State) (hm : Canon Q s.mem) : Ends Q (execBreak code s) := by simp [execBreak, hm]

@[simp] theorem systemOnly_ends {Q : Prop} (fn : Nat) (s : State) (k : Out) (hm : Canon Q s.mem) (hk : Ends Q k) : Ends Q (systemOnly fn s k) := by
  simp [systemOnly, hm, hk]

@[simp] theorem unspill_canon {Q : Prop} (s : State) (t : Nat) (hm : Canon Q s.mem) :
    Canon Q (unspill s t).mem := by
  unfold unspill
  split <;> simp [hm]

@[simp] theorem execTret_ends {Q : Prop} (s : State) (hm : Canon Q s.mem) : Ends Q (execTret s) := by simp [execTret, hm, -State.setSlot_mem]
@[simp] theorem execHalt_ends {Q : Prop} (s : State) (hm : Canon Q s.mem) : Ends Q (execHalt s) := by simp [execHalt, hm]
@[simp] theorem execIwait_ends {Q : Prop} (s : State) (hm : Canon Q s.mem) : Ends Q (execIwait s) := by simp [execIwait, hm, -State.setSlot_mem]

@[simp] theorem issueTlbi_ends {Q : Prop} (o : Option Tlbi) (s : State) (hm : Canon Q s.mem) :
    Ends Q (issueTlbi o s) := by
  unfold issueTlbi
  split <;> simp [hm, -State.setSlot_mem]

@[simp] theorem execTlbiVa_ends {Q : Prop} (a : Reg) (b : Reg) (s : State) (hm : Canon Q s.mem) :
    Ends Q (execTlbiVa a b s) := by
  simp [execTlbiVa, hm]

@[simp] theorem execTlbiCtx_ends {Q : Prop} (b : Reg) (s : State) (hm : Canon Q s.mem) : Ends Q (execTlbiCtx b s) := by simp [execTlbiCtx, hm]
@[simp] theorem execTlbiAll_ends {Q : Prop} (s : State) (hm : Canon Q s.mem) : Ends Q (execTlbiAll s) := by simp [execTlbiAll, hm]
@[simp] theorem execTlbsync_ends {Q : Prop} (s : State) (hm : Canon Q s.mem) : Ends Q (execTlbsync s) := by simp [execTlbsync, hm]

@[simp] theorem removeEntries_mem (s : State) (cl : Nat) (removes : TlbEntry → Bool) (removesWalk : WalkEntry → Bool) :
    (removeEntries s cl removes removesWalk).mem = s.mem := by
  simp [removeEntries]

@[simp] theorem applyTlbi_mem (s : State) (cl : Nat) (o : Tlbi) : (applyTlbi s cl o).mem = s.mem := by simp [applyTlbi]

@[simp] theorem execTlbiCompletion_ends {Q : Prop} (cl : Nat) (s : State) (hm : Canon Q s.mem) :
    Ends Q (execTlbiCompletion cl s) := by
  simp only [execTlbiCompletion]
  (repeat' split) <;> simp [hm]

@[simp] theorem execPtProbe_ends {Q : Prop} (d : Reg) (a : Reg) (s : State) (hm : Canon Q s.mem) :
    Ends Q (execPtProbe d a s) := by
  unfold execPtProbe
  split <;> simp [hm]

@[simp] theorem execFaultRd_ends {Q : Prop} (d : Reg) (a : Reg) (s : State) (hm : Canon Q s.mem) :
    Ends Q (execFaultRd d a s) := by
  simp [execFaultRd, hm]

@[simp] theorem execIllegalOpEncoding_ends {Q : Prop} (w : BitVec 32) (s : State) (hm : Canon Q s.mem) :
    Ends Q (execIllegalOpEncoding w s) := by
  simp [execIllegalOpEncoding, hm]

/-! ### Records, joins, barriers and mailboxes -/

@[simp] theorem startRec_canon {Q : Prop} (s : State) (t : Nat) (r : Rec) (hm : Canon Q s.mem) :
    Canon Q (startRec s t r).mem := by
  simp [startRec, hm, -State.setSlot_mem]

@[simp] theorem endRecord_canon {Q : Prop} (s : State) (t : Nat) (hm : Canon Q s.mem) :
    Canon Q (endRecord s t).mem := by
  simp only [endRecord]
  split <;> simp [hm, -State.setSlot_mem]

@[simp] theorem pushRoom_canon {Q : Prop} (s : State) (c : Nat) (hm : Canon Q s.mem) : (pushRoom s c).Canon Q := by simp [pushRoom, hm]
@[simp] theorem report_mem (s : State) (c : Nat) (r : Rec) : (report s c r).mem = s.mem := by simp [report]
@[simp] theorem pushBottom_mem (s : State) (c : Nat) (r : Rec) : (pushBottom s c r).mem = s.mem := by simp [pushBottom]
@[simp] theorem settle_mem (s : State) (c : Nat) : (settle s c).mem = s.mem := by simp [settle]
@[simp] theorem dealTo_mem (s : State) (c : Nat) (issuer : Nat) (r : Rec) : (dealTo s c issuer r).mem = s.mem := by simp [dealTo]

@[simp] theorem execDequeSpill_ends {Q : Prop} (c : Nat) (s : State) (hm : Canon Q s.mem) :
    Ends Q (execDequeSpill c s) := by
  simp [execDequeSpill, hm]

@[simp] theorem execDequeRefill_ends {Q : Prop} (c : Nat) (s : State) (hm : Canon Q s.mem) :
    Ends Q (execDequeRefill c s) := by
  simp [execDequeRefill, hm]

@[simp] theorem execRecordPop_ends {Q : Prop} (c : Nat) (s : State) (hm : Canon Q s.mem) :
    Ends Q (execRecordPop c s) := by
  simp only [execRecordPop]
  (repeat' split) <;> simp [hm]

@[simp] theorem execStealSearch_ends {Q : Prop} (c : Nat) (s : State) (hm : Canon Q s.mem) :
    Ends Q (execStealSearch c s) := by
  simp only [execStealSearch]
  (repeat' split) <;> simp [hm]

@[simp] theorem execStealArrival_ends {Q : Prop} (k : Nat) (s : State) (hm : Canon Q s.mem) :
    Ends Q (execStealArrival k s) := by
  simp only [execStealArrival]
  (repeat' split) <;> simp [hm]

@[simp] theorem readRec_canon {Q : Prop} (s : State) (a : Word) (n : Nat) (hm : Canon Q s.mem) : (readRec s a n).Canon Q := by simp [readRec, hm]

@[simp] theorem awaitRec_canon {Q : Prop} (s : State) (a : Word) (n : Nat) (hm : Canon Q s.mem) : (awaitRec s a n).Canon Q := by
  unfold awaitRec
  split
  · exact hm
  · refine .andThen (readRec_canon s a n hm) fun r s hm => ?_
    split <;> simp [hm]

@[simp] theorem checkJoin_canon {Q : Prop} (r : Rec) (v : Word) (s : State) (hm : Canon Q s.mem) :
    (checkJoin r v s).Canon Q := by
  simp [checkJoin, hm]

@[simp] theorem releaseOffer_canon {Q : Prop} (s : State) (r : Rec) (hm : Canon Q s.mem) : (releaseOffer s r).Canon Q := by simp [releaseOffer, hm]

@[simp] theorem offer_ends {Q : Prop} (inc : Bool) (r0 : Rec) (w : Option Wait) (s : State) (hm : Canon Q s.mem) : Ends Q (offer inc r0 w s) := by
  refine .finish (.andThen (checkJoin_canon _ _ s hm) fun _ s hm => .andThen ?_ fun cell s hm => .andThen (pushRoom_canon s _ hm) fun _ s hm =>
    .andThen (releaseOffer_canon s _ hm) fun _ s hm => hm) fun cell s hm => ?_
  · split
    · split
      · exact hm
      · exact .andThen (cellAddr_canon s _ _ _ hm) fun _ s hm => hm
    · exact hm
  · dsimp only
    split <;> simp [hm]

@[simp] theorem execFork_ends {Q : Prop} (d : Reg) (a : Reg) (b : Reg) (c : Reg) (s : State) (hm : Canon Q s.mem) :
    Ends Q (execFork d a b c s) := by
  simp [execFork, hm]

@[simp] theorem execForkInc_ends {Q : Prop} (d : Reg) (a : Reg) (b : Reg) (c : Reg) (s : State) (hm : Canon Q s.mem) :
    Ends Q (execForkInc d a b c s) := by
  simp [execForkInc, hm]

@[simp] theorem execForkm_ends {Q : Prop} (a : Reg) (s : State) (hm : Canon Q s.mem) : Ends Q (execForkm a s) := by simp +contextual [execForkm, hm]

@[simp] theorem execForkmInc_ends {Q : Prop} (a : Reg) (s : State) (hm : Canon Q s.mem) :
    Ends Q (execForkmInc a s) := by
  simp +contextual [execForkmInc, hm]

theorem yieldPlace_mem {s t : State} {c : Nat} {r : Rec} (e : yieldPlace s c r = some t) : t.mem = s.mem := by
  revert e
  simp only [yieldPlace]
  split_ifs <;> rintro ⟨⟩ <;> simp

@[simp] theorem execYield_ends {Q : Prop} (a : Reg) (s : State) (hm : Canon Q s.mem) : Ends Q (execYield a s) := by
  refine .finish (.andThen (awaitRec_canon s _ 32 hm) fun l s hm => .andThen (checkJoin_canon _ _ s hm) fun _ s hm => ?_) fun r s hm => ?_
  · split
    · exact hm
    · exact .andThen (releaseOffer_canon s _ hm) fun _ s hm => hm
  · split
    · next e => simp [yieldPlace_mem e, hm]
    · simp [hm]

@[simp] theorem execRfork_ends {Q : Prop} (a : Reg) (s : State) (hm : Canon Q s.mem) : Ends Q (execRfork a s) := by
  refine .finish (.andThen (readRec_canon s _ 64 hm) fun l s hm => .andThen (checkJoin_canon _ _ s hm) fun _ s hm => ?_) fun x s hm => ?_
  · split
    · exact hm
    · refine .andThen ?_ fun _ s hm => .andThen (releaseOffer_canon s _ hm) fun _ s hm => hm
      split
      · exact hm
      · exact .andThen (cellAddr_canon s _ _ _ hm) fun _ s hm => hm
  · obtain ⟨r, cell, far⟩ := x
    rcases cell with - | pa
    all_goals
      rw [ends_ite]
      refine ⟨fun _ => doneFar_ends _ _ _ ?_, fun _ => doneFar_ends _ _ _ ?_⟩
      all_goals
        split
        · simp [hm]
        · exact canon_foldl _ (fun s e hm => by simp [hm]) _ _ (by simp [hm])

@[simp] theorem dealShare_canon {Q : Prop} (held s : State) (p die c : Nat) (r : Rec) (cell : Option Nat) (extra : Nat) (hh : Canon Q held.mem)
    (hm : Canon Q s.mem) : Canon Q (dealShare held s p die c r cell extra).mem := by
  simp only [dealShare]
  split
  · simp [hm]
  · have h := cellHeld_canon (Q := Q) held c 0 ‹Nat› false 0 hh
    split
    · next e => simp [Canon.of_ok e h]
    · next e => exact Canon.of_wait e h
    · next e => exact Canon.of_trap e h

@[simp] theorem execUndealtShareDeal_ends {Q : Prop} (die : Nat) (s : State) (hm : Canon Q s.mem) :
    Ends Q (execUndealtShareDeal die s) := by
  simp only [execUndealtShareDeal]
  (repeat' split) <;> simp [hm]

@[simp] theorem execRangeTransfer_ends {Q : Prop} (die : Nat) (s : State) (hm : Canon Q s.mem) :
    Ends Q (execRangeTransfer die s) := by
  unfold execRangeTransfer
  split <;> simp [hm]

@[simp] theorem execDone_ends {Q : Prop} (s : State) (hm : Canon Q s.mem) : Ends Q (execDone s) := by simp [execDone, hm]

@[simp] theorem execJoin_ends {Q : Prop} (sc : Scope) (a : Reg) (s : State) (hm : Canon Q s.mem) : Ends Q (execJoin sc a s) := by
  dsimp only [execJoin]
  split
  · simp [hm]
  split
  · simp [hm]
  refine .finish (.andThen (cellAddr_canon s _ _ _ hm) fun pa s hm => ?_) fun pa s hm => ?_
  · split
    · exact hm
    · exact .andThen (releaseFirst_canon s _ _ hm) fun _ s hm => hm
  · split
    · simp [hm]
    · have h1 := cellCount_canon (Q := Q) s s.cur pa (· - 1) hm
      split
      · exact (ends_next _).2 (startRec_canon _ _ _ (endRecord_canon _ _ h1))
      · exact (ends_next _).2 (endRecord_canon _ _ h1)

@[simp] theorem execPause_ends {Q : Prop} (a : Reg) (s : State) (hm : Canon Q s.mem) : Ends Q (execPause a s) := by simp [execPause, hm]

@[simp] theorem execPauseExpiry_ends {Q : Prop} (t : Nat) (s : State) (hm : Canon Q s.mem) :
    Ends Q (execPauseExpiry t s) := by
  unfold execPauseExpiry
  split <;> simp [hm]

@[simp] theorem State.updBar_mem (s : State) (c : Nat) (n : Fin 8) (f : Barrier → Barrier) : (State.updBar s c n f).mem = s.mem := (rfl)
@[simp] theorem barRelease_mem (s : State) (c : Nat) (n : Fin 8) : (barRelease s c n).mem = s.mem := by simp [barRelease]
@[simp] theorem barAdvance_mem (s : State) (c : Nat) (n : Fin 8) : (barAdvance s c n).mem = s.mem := by simp [barAdvance]

@[simp] theorem execBarrierArrival_ends {Q : Prop} (k : Nat) (s : State) (hm : Canon Q s.mem) :
    Ends Q (execBarrierArrival k s) := by
  unfold execBarrierArrival
  split <;> simp [hm]

@[simp] theorem execBarrierRelease_ends {Q : Prop} (k : Nat) (s : State) (hm : Canon Q s.mem) :
    Ends Q (execBarrierRelease k s) := by
  unfold execBarrierRelease
  split <;> simp [hm]

@[simp] theorem execBarSet_ends {Q : Prop} (n : Fin 8) (a : Reg) (s : State) (hm : Canon Q s.mem) :
    Ends Q (execBarSet n a s) := by
  simp [execBarSet, hm]

@[simp] theorem execBarGet_ends {Q : Prop} (d : Reg) (n : Fin 8) (s : State) (hm : Canon Q s.mem) :
    Ends Q (execBarGet d n s) := by
  simp [execBarGet, hm]

@[simp] theorem barCheck_ends {Q : Prop} (n : Fin 8) (s : State) (k : Barrier → Out) (hm : Canon Q s.mem) (hk : ∀ b, Ends Q (k b)) :
    Ends Q (barCheck n s k) := by
  simp [barCheck, hm, hk]

@[simp] theorem State.setArrived_mem (s : State) (n : Fin 8) (o : Option Bool) : (State.setArrived s n o).mem = s.mem := (rfl)

@[simp] theorem arrive_ends {Q : Prop} (n : Fin 8) (b : Barrier) (s : State) (k : State → Out) (hm : Canon Q s.mem)
    (hk : ∀ s, Canon Q s.mem → Ends Q (k s)) : Ends Q (arrive n b s k) :=
  .finish (releaseFirst_canon s _ _ hm) fun _ s hm => hk _ (by simp [hm])

@[simp] theorem execBarArrive_ends {Q : Prop} (n : Fin 8) (s : State) (hm : Canon Q s.mem) : Ends Q (execBarArrive n s) := by
  refine barCheck_ends n s _ hm fun b => ?_
  split
  · exact wait_ends _ s hm
  · exact arrive_ends n b s _ hm fun s hm => done_ends 4 s hm

@[simp] theorem barAwait_ends {Q : Prop} (n : Fin 8) (p : Bool) (s : State) (hm : Canon Q s.mem) : Ends Q (barAwait n p s) := by simp [barAwait, hm]

@[simp] theorem execBarWait_ends {Q : Prop} (n : Fin 8) (s : State) (hm : Canon Q s.mem) : Ends Q (execBarWait n s) := by
  refine barCheck_ends n s _ hm fun b => ?_
  split <;> simp [hm]

@[simp] theorem execBarSync_ends {Q : Prop} (n : Fin 8) (s : State) (hm : Canon Q s.mem) : Ends Q (execBarSync n s) := by
  refine barCheck_ends n s _ hm fun b => ?_
  split
  · exact arrive_ends n b s _ hm fun s hm => barAwait_ends n b.ph s hm
  · exact barAwait_ends n _ s hm

@[simp] theorem execMbxWait_ends {Q : Prop} (d : Reg) (a : Reg) (s : State) (hm : Canon Q s.mem) :
    Ends Q (execMbxWait d a s) := by
  unfold execMbxWait
  split <;> simp [hm, -State.updMailbox_mem]

@[simp] theorem execMbxPoll_ends {Q : Prop} (d : Reg) (a : Reg) (s : State) (hm : Canon Q s.mem) :
    Ends Q (execMbxPoll d a s) := by
  unfold execMbxPoll
  split <;> simp [hm, -State.updMailbox_mem]

@[simp] theorem execSelfId_ends {Q : Prop} (d : Reg) (s : State) (hm : Canon Q s.mem) : Ends Q (execSelfId d s) := by simp [execSelfId, hm]
@[simp] theorem execSelfXy_ends {Q : Prop} (d : Reg) (s : State) (hm : Canon Q s.mem) : Ends Q (execSelfXy d s) := by simp [execSelfXy, hm]
@[simp] theorem execSelfDom_ends {Q : Prop} (d : Reg) (s : State) (hm : Canon Q s.mem) : Ends Q (execSelfDom d s) := by simp [execSelfDom, hm]

@[simp] theorem execSelfIdle_ends {Q : Prop} (d : Reg) (a : Reg) (s : State) (hm : Canon Q s.mem) :
    Ends Q (execSelfIdle d a s) := by
  simp [execSelfIdle, hm]

/-! ### Accesses of an engine -/

@[simp] theorem raise_mem (s : State) (t : Nat) (i : Intr) : (raise s t i).mem = s.mem := (rfl)
@[simp] theorem dropSingle_mem (s : State) (t : Nat) : (dropSingle s t).mem = s.mem := by simp [dropSingle]

@[simp] theorem engLoad_canon {Q : Prop} (s : State) (t : Nat) (m : Mode) (ev : Fin 8) (va : Word) (n : Nat) (hm : Canon Q s.mem) :
    (engLoad s t m ev va n).Canon Q := by
  simp [engLoad, hm]

@[simp] theorem engStore_canon {Q : Prop} (s : State) (t : Nat) (m : Mode) (va : Word) (l : List Byte) (hm : Canon Q s.mem) :
    (engStore s t m va l).Canon Q := by
  simp [engStore, hm]

/-- However a run of an engine's accesses ends, the memory of its state is canonical. -/
def EngEnd.Canon {α : Type} (Q : Prop) : EngEnd α → Prop
  | .all _ s | .waits _ _ _ s | .faults _ _ _ _ s => Machine.Canon Q s.mem

theorem Canon.of_all {α : Type} {Q : Prop} {r : EngEnd α} {a : α} {s : State} (e : r = .all a s) (h : r.Canon Q) : Canon Q s.mem := by
  subst e; exact h
theorem Canon.of_waits {α : Type} {Q : Prop} {r : EngEnd α} {w : Wait} {x : α} {k : Nat} {s : State} (e : r = .waits x k w s) (h : r.Canon Q) :
    Canon Q s.mem := by
  subst e; exact h
theorem Canon.of_faults {α : Type} {Q : Prop} {r : EngEnd α} {c : Cause} {v : Word} {x : α} {k : Nat} {s : State} (e : r = .faults x k c v s) (h : r.Canon Q) :
    Canon Q s.mem := by
  subst e; exact h

@[simp] theorem engReads_canon {Q : Prop} (s : State) (t : Nat) (m : Mode) (ev : Fin 8) (img : Memory) (k : Nat) (l : List (Word × Nat))
    (hm : Canon Q s.mem) : (engReads s t m ev img k l).Canon Q := by
  induction l generalizing s img k with
  | nil => exact hm
  | cons p l ih =>
    have h := engLoad_canon (Q := Q) s t m ev p.1 p.2 hm
    unfold engReads
    split
    · next e => exact ih _ _ _ (Canon.of_ok e h)
    · next e => exact Canon.of_wait e h
    · next e => exact Canon.of_trap e h

@[simp] theorem engWrites_canon {Q : Prop} (s : State) (t : Nat) (m : Mode) (k : Nat) (l : List (Word × List Byte)) (hm : Canon Q s.mem) :
    (engWrites s t m k l).Canon Q := by
  induction l generalizing s k with
  | nil => exact hm
  | cons p l ih =>
    have h := engStore_canon (Q := Q) s t m p.1 p.2 hm
    unfold engWrites
    split
    · next e => exact ih _ _ (Canon.of_ok e h)
    · next e => exact Canon.of_wait e h
    · next e => exact Canon.of_trap e h

/-! ### The tensor engine -/

@[simp] theorem execTdLd_ends {Q : Prop} (a : Reg) (td : Fin 64) (s : State) (hm : Canon Q s.mem) :
    Ends Q (execTdLd a td s) := by
  simp +contextual [execTdLd, hm, -State.setCore_mem]

@[simp] theorem execTdSt_ends {Q : Prop} (a : Reg) (td : Fin 64) (s : State) (hm : Canon Q s.mem) :
    Ends Q (execTdSt a td s) := by
  simp +contextual [execTdSt, hm]

@[simp] theorem execTdRdw_ends {Q : Prop} (d : Reg) (td : Fin 64) (w : Fin 8) (s : State) (hm : Canon Q s.mem) :
    Ends Q (execTdRdw d td w s) := by
  simp [execTdRdw, hm]

@[simp] theorem execTdWrw_ends {Q : Prop} (b : Reg) (td : Fin 64) (w : Fin 8) (s : State) (hm : Canon Q s.mem) :
    Ends Q (execTdWrw b td w s) := by
  simp [execTdWrw, hm, -State.setCore_mem]

@[simp] theorem enqueue_ends {Q : Prop} (op : TOp) (s : State) (hm : Canon Q s.mem) :
    Ends Q (enqueue op s) := by
  simp [enqueue, hm, -State.setCore_mem]

@[simp] theorem issueChecked_ends {Q : Prop} (op : TOp) (fails : Option Trap) (s : State) (hm : Canon Q s.mem) :
    Ends Q (issueChecked op fails s) := by
  unfold issueChecked
  split <;> simp [hm]

@[simp] theorem issueResumable_ends {Q : Prop} (op : TOp) (fails : State → Option Trap) (s : State) (hm : Canon Q s.mem) :
    Ends Q (issueResumable op fails s) := by
  dsimp only [issueResumable]
  split <;> simp [hm, -State.setCore_mem]

@[simp] theorem issueProduct_ends {Q : Prop} (fn : TFn) (major : Nat) (f : Nat) (ok : Nat → Nat → Bool) (ta : Fin 64) (tb : Fin 64) (tile : Fin 2)
    (s : State) (hm : Canon Q s.mem) :
    Ends Q (issueProduct fn major f ok ta tb tile s) := by
  simp [issueProduct, hm]

@[simp] theorem execMm_ends {Q : Prop} (ta : Fin 64) (tb : Fin 64) (tile : Fin 2) (s : State) (hm : Canon Q s.mem) :
    Ends Q (execMm ta tb tile s) := by
  simp [execMm, hm]

@[simp] theorem execMc_ends {Q : Prop} (ta : Fin 64) (tb : Fin 64) (tile : Fin 2) (s : State) (hm : Canon Q s.mem) :
    Ends Q (execMc ta tb tile s) := by
  simp [execMc, hm]

@[simp] theorem execMcNdA_ends {Q : Prop} (ta : Fin 64) (tb : Fin 64) (tile : Fin 2) (s : State) (hm : Canon Q s.mem) :
    Ends Q (execMcNdA ta tb tile s) := by
  simp [execMcNdA, hm]

@[simp] theorem execMcNdB_ends {Q : Prop} (ta : Fin 64) (tb : Fin 64) (tile : Fin 2) (s : State) (hm : Canon Q s.mem) :
    Ends Q (execMcNdB ta tb tile s) := by
  simp [execMcNdB, hm]

@[simp] theorem execDrainA_ends {Q : Prop} (s : State) (hm : Canon Q s.mem) : Ends Q (execDrainA s) := by simp [execDrainA, hm]
@[simp] theorem execDrainB_ends {Q : Prop} (s : State) (hm : Canon Q s.mem) : Ends Q (execDrainB s) := by simp [execDrainB, hm]
@[simp] theorem execBankMergeAb_ends {Q : Prop} (s : State) (hm : Canon Q s.mem) : Ends Q (execBankMergeAb s) := by simp [execBankMergeAb, hm]
@[simp] theorem execBankMergeBa_ends {Q : Prop} (s : State) (hm : Canon Q s.mem) : Ends Q (execBankMergeBa s) := by simp [execBankMergeBa, hm]

@[simp] theorem execAccMerge_ends {Q : Prop} (a : Reg) (tile : Fin 2) (s : State) (hm : Canon Q s.mem) :
    Ends Q (execAccMerge a tile s) := by
  simp [execAccMerge, hm]

@[simp] theorem execAccClrF_ends {Q : Prop} (tile : Fin 2) (s : State) (hm : Canon Q s.mem) : Ends Q (execAccClrF tile s) := by simp [execAccClrF, hm]

@[simp] theorem execAccClrX_ends {Q : Prop} (ta : Fin 64) (tb : Fin 64) (tile : Fin 2) (s : State) (hm : Canon Q s.mem) :
    Ends Q (execAccClrX ta tb tile s) := by
  simp [execAccClrX, hm]

@[simp] theorem execAccCvt_ends {Q : Prop} (ta : Fin 64) (tile : Fin 2) (s : State) (hm : Canon Q s.mem) :
    Ends Q (execAccCvt ta tile s) := by
  simp [execAccCvt, hm]

@[simp] theorem execAccSt_ends {Q : Prop} (a : Reg) (tile : Fin 2) (s : State) (hm : Canon Q s.mem) :
    Ends Q (execAccSt a tile s) := by
  simp [execAccSt, hm]

@[simp] theorem execAccLd_ends {Q : Prop} (a : Reg) (tile : Fin 2) (s : State) (hm : Canon Q s.mem) :
    Ends Q (execAccLd a tile s) := by
  simp [execAccLd, hm]

@[simp] theorem execWbLd_ends {Q : Prop} (ta : Fin 64) (tb : Fin 64) (s : State) (hm : Canon Q s.mem) :
    Ends Q (execWbLd ta tb s) := by
  simp only [execWbLd]
  split <;> simp [hm, -State.setCore_mem]

@[simp] theorem execCompress_ends {Q : Prop} (ta : Fin 64) (tb : Fin 64) (s : State) (hm : Canon Q s.mem) :
    Ends Q (execCompress ta tb s) := by
  simp [execCompress, hm]

@[simp] theorem execMsave_ends {Q : Prop} (a : Reg) (mask : BitVec 5) (s : State) (hm : Canon Q s.mem) :
    Ends Q (execMsave a mask s) := by
  simp [execMsave, hm]

@[simp] theorem execMrestore_ends {Q : Prop} (a : Reg) (mask : BitVec 5) (s : State) (hm : Canon Q s.mem) :
    Ends Q (execMrestore a mask s) := by
  simp [execMrestore, hm]

@[simp] theorem setOverflow_mem (s : State) (c : Nat) (l : List Nat) : (setOverflow s c l).mem = s.mem := by simp [setOverflow, -State.setSlot_mem]

@[simp] theorem applyOp_mem (s : State) (c : Nat) (o : TOp) (rm : Rm) (till : Nat) (rz : Rm) :
    (applyOp s c o rm till rz).mem = s.mem := by
  simp [applyOp]

@[simp] theorem dropOp_mem (s : State) (c : Nat) (wb : Bool) : (dropOp s c wb).mem = s.mem := by simp [dropOp]
@[simp] theorem keepRecord_mem (s : State) (c : Nat) (o : TOp) : (keepRecord s c o).mem = s.mem := by simp [keepRecord]

@[simp] theorem tensorFault_mem (s : State) (c : Nat) (wb : Bool) (o : TOp) (write : Bool) (cause : Cause) (va : Word) :
    (tensorFault s c wb o write cause va).mem = s.mem := by
  simp [tensorFault]

@[simp] theorem updOp_mem (s : State) (c : Nat) (wb : Bool) (f : TOp → TOp) : (updOp s c wb f).mem = s.mem := (rfl)

@[simp] theorem readSome_ends {Q : Prop} (s : State) (c : Nat) (wb : Bool) (o : TOp) (n : Nat) (k : TOp → State → Out) (hm : Canon Q s.mem)
    (hk : ∀ o s, Canon Q s.mem → Ends Q (k o s)) : Ends Q (readSome s c wb o n k) := by
  have h := engReads_canon (Q := Q) s (threadOf c o.slot) (s.slot (threadOf c o.slot)).mode 4 o.img o.got
    (((o.reads.flatMap fun r => pieces r.1 r.2).take n).drop o.got) hm
  dsimp only [readSome]
  split
  · next e => rw [e] at h; exact hk _ _ (by rw [updOp_mem]; exact h)
  · next e => rw [e] at h; exact (ends_next _).2 (by rw [updOp_mem]; exact h)
  · next e => rw [e] at h; exact (ends_next _).2 (by rw [tensorFault_mem]; exact h)

@[simp] theorem readOp_ends {Q : Prop} (s : State) (c : Nat) (wb : Bool) (o : TOp) (k : TOp → State → Out) (hm : Canon Q s.mem)
    (hk : ∀ o s, Canon Q s.mem → Ends Q (k o s)) : Ends Q (readOp s c wb o k) := readSome_ends s c wb o _ k hm hk

@[simp] theorem unpoisonWb_mem (s : State) (c : Nat) (o : TOp) : (unpoisonWb s c o).mem = s.mem := by simp [unpoisonWb]

@[simp] theorem execTensorOpStart_ends {Q : Prop} (c : Nat) (s : State) (hm : Canon Q s.mem) : Ends Q (execTensorOpStart c s) := by
  dsimp only [execTensorOpStart]
  split
  · simp [hm]
  split
  · simp [hm]
  split
  · simp [hm]
  refine readSome_ends s c _ _ _ _ hm fun o s hm => ?_
  split
  · simp [hm]
  refine readOp_ends s c _ _ _ hm fun o s hm => ?_
  split
  · split <;> simp [hm]
  · simp [hm]

@[simp] theorem endOp_mem (s : State) (c : Nat) (wb : Bool) (o : TOp) : (endOp s c wb o).mem = s.mem := by simp [endOp]

@[simp] theorem execTensorOpComplete_ends {Q : Prop} (c : Nat) (wb : Bool) (s : State) (hm : Canon Q s.mem) :
    Ends Q (execTensorOpComplete c wb s) := by
  unfold execTensorOpComplete
  split
  · split
    · simp [hm]
    · split
      · simp [hm]
      · exact readOp_ends s c _ _ _ hm fun o s hm => by simp [hm]
  · split
    · simp [hm]
    · next o _ _ =>
      split
      · simp [hm]
      · have h := engWrites_canon (Q := Q) s (threadOf c o.slot) (s.slot (threadOf c o.slot)).mode o.done
          ((o.writes (s.core c) (s.slot (threadOf c o.slot))).drop o.done) hm
        dsimp only
        split
        · next e => rw [e] at h; exact (ends_next _).2 (by rw [updOp_mem]; exact h)
        · next e => rw [e] at h; exact (ends_next _).2 (by rw [tensorFault_mem]; exact h)
        · next e =>
          rw [e] at h
          rw [ends_next, endOp_mem, unpoisonWb_mem]
          split
          · rw [State.updSlot_mem, applyOp_mem]; exact h
          · rw [applyOp_mem]; exact h

@[simp] theorem stopPoint_mem (s : State) (q : Core) (o : TOp) : (stopPoint s q o).2.mem = s.mem := (rfl)
@[simp] theorem stopTensor_mem (s : State) (t : Nat) : (stopTensor s t).mem = s.mem := by simp only [stopTensor]; (repeat' split) <;> simp

@[simp] theorem failTensor_mem (s : State) (c : Nat) (blk : Nat) (cause : Cause) :
    (failTensor s c blk cause).mem = s.mem := by
  simp only [failTensor]
  (repeat' split) <;> simp

/-! ### Channels and the distributor -/

@[simp] theorem State.updChan_mem (s : State) (c : Nat) (n : Fin 4) (f : Chan → Chan) : (State.updChan s c n f).mem = s.mem := (rfl)
@[simp] theorem chanAux_mem (x : Chan) (s : State) : (chanAux x s).2.mem = s.mem := by simp only [chanAux]; (repeat' split) <;> simp
@[simp] theorem wakeChan_mem (s : State) (c : Nat) (n : Fin 4) : (wakeChan s c n).mem = s.mem := by simp [wakeChan]

@[simp] theorem execCpStart_ends {Q : Prop} (n : Fin 4) (d : Reg) (a : Reg) (b : Reg) (s : State) (hm : Canon Q s.mem) :
    Ends Q (execCpStart n d a b s) := by
  simp only [execCpStart]
  (repeat' split) <;> simp [hm]

@[simp] theorem execCpWaitge_ends {Q : Prop} (n : Fin 4) (d : Reg) (a : Reg) (s : State) (hm : Canon Q s.mem) :
    Ends Q (execCpWaitge n d a s) := by
  simp [execCpWaitge, hm]

@[simp] theorem execCpWp_ends {Q : Prop} (n : Fin 4) (d : Reg) (s : State) (hm : Canon Q s.mem) : Ends Q (execCpWp n d s) := by simp [execCpWp, hm]

@[simp] theorem execCpStat_ends {Q : Prop} (n : Fin 4) (d : Reg) (s : State) (hm : Canon Q s.mem) :
    Ends Q (execCpStat n d s) := by
  simp [execCpStat, hm]

@[simp] theorem dropChanReq_mem (s : State) (c : Nat) (n : Fin 4) : (dropChanReq s c n).mem = s.mem := by simp [dropChanReq]
@[simp] theorem stopChan_mem (s : State) (c : Nat) (n : Fin 4) : (stopChan s c n).mem = s.mem := by simp [stopChan]
@[simp] theorem execCpStop_ends {Q : Prop} (n : Fin 4) (s : State) (hm : Canon Q s.mem) : Ends Q (execCpStop n s) := by simp [execCpStop, hm]
@[simp] theorem execCpResume_ends {Q : Prop} (n : Fin 4) (s : State) (hm : Canon Q s.mem) : Ends Q (execCpResume n s) := by simp [execCpResume, hm]
@[simp] theorem Chan.readsOn_mem (x : Chan) (s : State) : (Chan.readsOn x s).2.mem = s.mem := by simp only [Chan.readsOn]; (repeat' split) <;> simp

@[simp] theorem chanRequest_mem (s : State) (c : Nat) (n : Fin 4) (type : Nat) (pa : Nat) (w2 : Word) (w3 : Word) (flit : Option Block) :
    (chanRequest s c n type pa w2 w3 flit).mem = s.mem := (rfl)

@[simp] theorem chanDest_canon {Q : Prop} (s : State) (c : Nat) (n : Fin 4) (hm : Canon Q s.mem) : (chanDest s c n).Canon Q := by
  dsimp only [chanDest]
  split
  · split
    · next e =>
      have h := Canon.of_ok e (translatePart_canon _ _ _ _ _ _ hm)
      split <;> exact h
    · next e =>
      have h := Canon.of_trap e (translatePart_canon _ _ _ _ _ _ hm)
      split <;> exact h
    · next e => exact Canon.of_wait e (translatePart_canon _ _ _ _ _ _ hm)
  · split <;> exact hm
  · exact hm

/-- However an access of a channel ends, the memory of its state is canonical. -/
def ChanRes.Canon (Q : Prop) : ChanRes → Prop
  | .moved s | .waits _ _ s | .faults _ _ _ s => Machine.Canon Q s.mem

@[simp] theorem chanRead_canon {Q : Prop} (s : State) (c : Nat) (n : Fin 4) (hm : Canon Q s.mem) : (chanRead s c n).Canon Q := by
  dsimp only [chanRead]
  split
  · next e => exact Canon.of_wait e (engLoad_canon _ _ _ _ _ _ hm)
  · next e => exact Canon.of_trap e (engLoad_canon _ _ _ _ _ _ hm)
  · next e =>
    rw [ChanRes.Canon, State.updChan_mem]
    exact Canon.of_ok e (engLoad_canon _ _ _ _ _ _ hm)

@[simp] theorem chanWrite_canon {Q : Prop} (s : State) (c : Nat) (n : Fin 4) (dest : Option Part1) (hm : Canon Q s.mem) :
    (chanWrite s c n dest).Canon Q := by
  dsimp only [chanWrite]
  split
  · rw [ChanRes.Canon, chanRequest_mem]
    exact hm
  · split
    · next e => exact Canon.of_wait e (engStore_canon _ _ _ _ _ hm)
    · next e => exact Canon.of_trap e (engStore_canon _ _ _ _ _ hm)
    · next e =>
      rw [ChanRes.Canon, State.updChan_mem]
      exact Canon.of_ok e (engStore_canon _ _ _ _ _ hm)

@[simp] theorem chanStep_canon {Q : Prop} (s : State) (c : Nat) (n : Fin 4) (hm : Canon Q s.mem) : (chanStep s c n).Canon Q := by
  have hd : (if (s.chan c n).ap || (s.chan c n).wp = 0 then chanDest s c n else Res.ok none s).Canon Q := by simp [hm]
  simp only [chanStep]
  split
  · next e => exact Canon.of_wait e hd
  · next e => exact Canon.of_trap e hd
  · next s1 e =>
    have h1 : Canon Q s1.mem := Canon.of_ok e hd
    split
    · split
      · next e => exact Canon.of_wait e (releaseFirst_canon _ _ _ h1)
      · next e => exact Canon.of_trap e (releaseFirst_canon _ _ _ h1)
      · next e =>
        rw [ChanRes.Canon, chanRequest_mem, State.updChan_mem]
        exact Canon.of_ok e (releaseFirst_canon _ _ _ h1)
    · rw [ChanRes.Canon, chanRequest_mem]
      exact h1
    · exact h1
    · have h2 : Canon Q (if ((s.chan c n).atDst && !(s.chan c n).buf.isEmpty) = true then (false, s1) else (s.chan c n).readsOn s1).2.mem := by
        split
        · exact h1
        · rw [Chan.readsOn_mem]
          exact h1
      generalize (if ((s.chan c n).atDst && !(s.chan c n).buf.isEmpty) = true then (false, s1) else (s.chan c n).readsOn s1) = p at h2 ⊢
      split
      · have h := chanRead_canon _ c n h2
        split
        · next e => rw [e] at h; exact h
        · split
          · exact h
          · exact chanWrite_canon _ c n _ h2
      · exact chanWrite_canon _ c n _ h2

@[simp] theorem execChannelDelivery_ends {Q : Prop} (c : Nat) (n : Fin 4) (s : State) (hm : Canon Q s.mem) : Ends Q (execChannelDelivery c n s) := by
  have h := chanStep_canon s c n hm
  unfold execChannelDelivery
  split
  · simp [hm]
  · split
    · next e => rw [e] at h; simpa [ChanRes.Canon] using h
    · next e => rw [e] at h; simpa [ChanRes.Canon] using h
    · simp [hm]

@[simp] theorem chanFault_mem (s : State) (c : Nat) (n : Fin 4) (write : Bool) (cause : Cause) (va : Word) :
    (chanFault s c n write cause va).mem = s.mem := by
  simp [chanFault]

@[simp] theorem execChannelFault_ends {Q : Prop} (c : Nat) (n : Fin 4) (s : State) (hm : Canon Q s.mem) : Ends Q (execChannelFault c n s) := by
  have h := chanStep_canon s c n hm
  unfold execChannelFault
  split
  · simp [hm]
  · split
    · next e => rw [e] at h; simpa [ChanRes.Canon] using h
    · simp [hm]

@[simp] theorem execChannelStopped_ends {Q : Prop} (c : Nat) (n : Fin 4) (s : State) (hm : Canon Q s.mem) :
    Ends Q (execChannelStopped c n s) := by
  simp [execChannelStopped, hm]

@[simp] theorem chanAnswer_mem (s : State) (c : Nat) (n : Fin 4) (req : Msg) (v : Word) : (chanAnswer s c n req v).mem = s.mem := by simp [chanAnswer]

@[simp] theorem chanFailed_mem (s : State) (c : Nat) (n : Fin 4) (req : Msg) (cause : Cause) :
    (chanFailed s c n req cause).mem = s.mem := by
  simp [chanFailed]

@[simp] theorem failChannels_mem (s : State) (c blk : Nat) (cause : Cause) : (failChannels s c blk cause).mem = s.mem := by
  refine foldl_mem (fun s n => match (s.chan c n).wait with
    | some (.line b va) => if b = blk && (s.chan c n).running then chanFault s c n (s.chan c n).atDst cause va else s
    | _ => s) (fun s n => ?_) _ s
  split
  · split <;> simp
  · rfl

@[simp] theorem execDistSet_ends {Q : Prop} (a : Reg) (s : State) (hm : Canon Q s.mem) :
    Ends Q (execDistSet a s) := by
  simp [execDistSet, hm, -State.setCore_mem]

@[simp] theorem homedElsewhere_mem (s : State) (t : Nat) (a : Word) : (homedElsewhere s t a).2.mem = s.mem := by
  unfold homedElsewhere
  split
  · next va _ =>
    have h := translate_mem s (agentOf t) ((s.slot t).mode = .u) .store false va
    split <;> simp_all
  · rfl

@[simp] theorem execDistGo_ends {Q : Prop} (d : Reg) (a : Reg) (b : Reg) (s : State) (hm : Canon Q s.mem) :
    Ends Q (execDistGo d a b s) := by
  simp only [execDistGo]
  (repeat' split) <;> simp [hm, -State.setCore_mem]

@[simp] theorem execDistStat_ends {Q : Prop} (d : Reg) (s : State) (hm : Canon Q s.mem) : Ends Q (execDistStat d s) := by simp [execDistStat, hm]

@[simp] theorem execDistResume_ends {Q : Prop} (s : State) (hm : Canon Q s.mem) :
    Ends Q (execDistResume s) := by
  simp [execDistResume, hm, -State.setCore_mem]

@[simp] theorem burstFault_mem (s : State) (c : Nat) (write : Bool) (cause : Cause) (va : Word) : (burstFault s c write cause va).mem = s.mem := (rfl)

@[simp] theorem dealPieces_canon {Q : Prop} (s : State) (c t : Nat) (x : Burst) (core off : Nat) (start : Word) (k : Nat) (buf : List Byte)
    (l : List (Word × Nat)) (hm : Canon Q s.mem) : (dealPieces s c t x core off start k buf l).Canon Q := by
  induction l generalizing s k buf with
  | nil => exact hm
  | cons p l ih =>
    have h : ∀ n, (if k = 0 && !buf.isEmpty then Res.ok buf s else engLoad s t x.mode 4 p.1 n).Canon Q := fun n => by simp [hm]
    simp only [dealPieces]
    split
    · next e =>
      refine ih _ _ _ ?_
      have h1 := Canon.of_ok e (h _)
      split
      · exact h1
      · rw [tracePort_mem]
        exact h1
    · next e => exact Canon.of_wait e (h _)
    · next e => exact Canon.of_trap e (h _)

@[simp] theorem execDistBlock_ends {Q : Prop} (c : Nat) (s : State) (hm : Canon Q s.mem) : Ends Q (execDistBlock c s) := by
  simp only [execDistBlock]
  split
  · simp [hm]
  · split
    · next e =>
      rw [ends_next, State.updCore_mem, unpoisonIn_mem]
      exact Canon.of_all e (dealPieces_canon _ _ _ _ _ _ _ _ _ _ hm)
    · next e =>
      rw [ends_next, State.updCore_mem]
      exact Canon.of_waits e (dealPieces_canon _ _ _ _ _ _ _ _ _ _ hm)
    · next e =>
      rw [ends_next, burstFault_mem]
      exact Canon.of_faults e (dealPieces_canon _ _ _ _ _ _ _ _ _ _ hm)

@[simp] theorem execDistBurstComplete_ends {Q : Prop} (c : Nat) (s : State) (hm : Canon Q s.mem) : Ends Q (execDistBurstComplete c s) := by
  dsimp only [execDistBurstComplete]
  split
  · simp [hm]
  split
  · simp [hm]
  split
  · next e => simp [Canon.of_wait (Q := Q) e (cellAddrBy_canon _ _ _ _ _ hm)]
  · next e => simp [Canon.of_trap (Q := Q) e (cellAddrBy_canon _ _ _ _ _ hm)]
  · next e =>
    have h := Canon.of_ok (Q := Q) e (cellAddrBy_canon _ _ _ _ _ hm)
    rw [ends_next, State.updCore_mem]
    split
    · split <;> simp [h]
    · split <;> simp [h]

@[simp] theorem failBurst_mem (s : State) (c : Nat) (blk : Nat) (cause : Cause) :
    (failBurst s c blk cause).mem = s.mem := by
  unfold failBurst
  split <;> simp

@[simp] theorem rereadChans_mem (s : State) (c : Nat) : (rereadChans s c).mem = s.mem := (rfl)

/-! ### The fabric -/

@[simp] theorem portSpace_mem (s : State) (room : Option (List Nat)) (port : Nat) :
    (portSpace s room port).2.mem = s.mem := by
  simp only [portSpace]
  split <;> simp

@[simp] theorem mostFree_mem (s : State) (room : Option (List Nat)) (l : List Nat) : (mostFree s room l).2.mem = s.mem := by
  induction l generalizing s with
  | nil => rfl
  | cons port l ih =>
    have h := ih (portSpace s room port).2
    rw [portSpace_mem] at h
    simp only [mostFree]
    split <;> simp_all

@[simp] theorem emitLossless_mem (s : State) (room : Option (List Nat)) (p : Packet) : (emitLossless s room p).mem = s.mem := by
  have h := mostFree_mem s room (portsTo s p.dst)
  unfold emitLossless
  split
  · rfl
  · split <;> simp_all

@[simp] theorem notice_mem (s : State) (p : Packet) (kind : Nat) (words : List Word) : (notice s p kind words).mem = s.mem := by simp [notice]
@[simp] theorem dropped_mem (s : State) (p : Packet) : (dropped s p).mem = s.mem := by simp [dropped]

@[simp] theorem putOut_mem (s : State) (room : Option (List Nat)) (p : Packet) : (putOut s room p).mem = s.mem := by
  have h := mostFree_mem s room (portsTo s p.dst)
  unfold putOut
  split
  · split <;> simp_all
  · simp_all

@[simp] theorem emit_mem (s : State) (p : Packet) : (emit s p).mem = s.mem := by simp [emit]
@[simp] theorem moveWindow_mem (s : State) (p : Packet) : (moveWindow s p).mem = s.mem := (rfl)
@[simp] theorem answerOp_mem (s : State) (p : Packet) (ack : Packet) : (answerOp s p ack).mem = s.mem := by simp [answerOp]
@[simp] theorem leaveTarget_mem (s : State) (p : Packet) : (leaveTarget s p).mem = s.mem := (rfl)

@[simp] theorem updThread_mem (s : State) (p : Option Nat) (t : Nat) (f : Slot → Slot) :
    (updThread s p t f).mem = s.mem := by
  simp only [updThread]
  (repeat' split) <;> simp

@[simp] theorem opFailed_mem (s : State) (o : RemOp) (kind : Nat) :
    (opFailed s o kind).mem = s.mem := by
  simp only [opFailed]
  (repeat' split) <;> simp

@[simp] theorem opDone_mem (s : State) (o : RemOp) (v : Word) : (opDone s o v).mem = s.mem := by unfold opDone; split <;> simp
@[simp] theorem sendOp_mem (s : State) (o : RemOp) : (sendOp s o).mem = s.mem := by simp [sendOp]
@[simp] theorem sendHeld_mem (s : State) : (sendHeld s).mem = s.mem := by unfold sendHeld; split <;> simp
@[simp] theorem finishOp_mem (s : State) (o : RemOp) : (finishOp s o).mem = s.mem := by simp [finishOp]
@[simp] theorem updRemOp_mem (s : State) (o : RemOp) (f : RemOp → RemOp) : (updRemOp s o f).mem = s.mem := (rfl)
@[simp] theorem resendOp_mem (s : State) (o : RemOp) : (resendOp s o).mem = s.mem := by simp [resendOp]

@[simp] theorem askPage_mem (s : State) (page : Nat) (f : Frame) (excl : Bool) (what : Nat) :
    (askPage s page f excl what).mem = s.mem := by
  simp [askPage]

@[simp] theorem recallPage_mem (s : State) (page : Nat) (f : Frame) (devs : List Nat) (excl : Bool) :
    (recallPage s page f devs excl).mem = s.mem := by
  simp [recallPage]

@[simp] theorem openFrame_mem (s : State) (page : Nat) (read : Bool) (what : Nat) :
    (openFrame s page read what).mem = s.mem := by
  unfold openFrame
  split <;> simp

@[simp] theorem openHome_canon {Q : Prop} (s : State) (pa : Nat) (store : Bool) (n : Nat) (hm : Canon Q s.mem) :
    Canon Q (openHome s pa store n).mem := by
  simp [openHome, hm]

/-- However an access at a target ends, the memory of its state is canonical. -/
def AtTarget.Canon {α : Type} (Q : Prop) : AtTarget α → Prop
  | .ok _ s | .waits s | .fails _ _ s => Machine.Canon Q s.mem

theorem Canon.of_target_ok {α : Type} {Q : Prop} {r : AtTarget α} {a : α} {s : State} (e : r = .ok a s) (h : r.Canon Q) : Canon Q s.mem := by
  subst e; exact h

theorem Canon.of_target_waits {α : Type} {Q : Prop} {r : AtTarget α} {s : State} (e : r = .waits s) (h : r.Canon Q) : Canon Q s.mem := by
  subst e; exact h

theorem Canon.of_target_fails {α : Type} {Q : Prop} {r : AtTarget α} {k : Nat} {m : Bool} {s : State} (e : r = .fails k m s) (h : r.Canon Q) :
    Canon Q s.mem := by
  subst e; exact h

@[simp] theorem AtTarget.canon_ok {α : Type} {Q : Prop} (a : α) (s : State) : (AtTarget.ok a s).Canon Q ↔ Machine.Canon Q s.mem := Iff.rfl
@[simp] theorem AtTarget.canon_waits {α : Type} {Q : Prop} (s : State) : (AtTarget.waits s : AtTarget α).Canon Q ↔ Machine.Canon Q s.mem := Iff.rfl

@[simp] theorem AtTarget.canon_fails {α : Type} {Q : Prop} (k : Nat) (m : Bool) (s : State) :
    (AtTarget.fails k m s : AtTarget α).Canon Q ↔ Machine.Canon Q s.mem := Iff.rfl

@[simp] theorem AtTarget.canon_ite {α : Type} {Q : Prop} (c : Prop) [Decidable c] (a b : AtTarget α) :
    (if c then a else b).Canon Q ↔ (c → a.Canon Q) ∧ (¬c → b.Canon Q) := by
  split <;> simp_all

@[simp] theorem targetPieces_canon {Q : Prop} (s : State) (part : Nat) (k : Kind) (l : List (Word × Nat)) (hm : Canon Q s.mem) :
    (targetPieces s part k l).Canon Q := by
  induction l generalizing s with
  | nil => exact hm
  | cons p l ih =>
    have h := ih s hm
    simp only [targetPieces]
    split
    · exact hm
    · split_ifs
      · exact hm
      · exact hm
      · exact hm
      · split
        · split_ifs
          · exact hm
          · split
            · exact hm
            · simp [hm]
            · split
              · next e => exact Canon.of_target_ok e h
              · exact h
        · split_ifs <;> simp [hm]

@[simp] theorem writePieces_canon {Q : Prop} (s : State) (w : Writer) (l : List (Nat × Nat)) (b : List Byte) (hm : Canon Q s.mem) :
    Canon Q (writePieces s w l b).mem := by
  induction l generalizing s b with
  | nil => exact hm
  | cons p l ih =>
    refine ih _ _ ?_
    have h := homeWrite_canon (Q := Q) s p.1 (b.take p.2) w hm
    split
    · rw [unpoison_mem]; exact h
    · exact h

@[simp] theorem releaseLines_canon {Q : Prop} (s : State) (l : List (Nat × Nat)) (wrote : Bool) (hm : Canon Q s.mem) :
    Canon Q (releaseLines s l wrote).mem := by
  simp +contextual [releaseLines, hm]

@[simp] theorem performRemote_canon {Q : Prop} (s : State) (p : Packet) (hm : Canon Q s.mem) : (performRemote s p).Canon Q := by
  simp only [performRemote]
  split
  · split
    · next e =>
      have h := Canon.of_target_ok e (targetPieces_canon _ _ _ _ hm)
      split <;> simp [h]
    · next e => exact Canon.of_target_waits e (targetPieces_canon _ _ _ _ hm)
    · next e => exact Canon.of_target_fails e (targetPieces_canon _ _ _ _ hm)
  · split
    · next e =>
      have h := Canon.of_target_ok e (targetPieces_canon _ _ _ _ hm)
      rw [AtTarget.canon_ok]
      exact releaseLines_canon _ _ _ (writePieces_canon _ _ _ _ h)
    · next e => exact Canon.of_target_waits e (targetPieces_canon _ _ _ _ hm)
    · next e => exact Canon.of_target_fails e (targetPieces_canon _ _ _ _ hm)
  · split
    · next e =>
      have h := Canon.of_target_ok e (targetPieces_canon _ _ _ _ hm)
      split
      · split_ifs
        · exact h
        · exact h
        · rw [AtTarget.canon_ok]
          exact releaseLines_canon _ _ _ (homeStoreAll_canon _ _ _ _ h)
      · exact h
    · next e => exact Canon.of_target_waits e (targetPieces_canon _ _ _ _ hm)
    · next e => exact Canon.of_target_fails e (targetPieces_canon _ _ _ _ hm)

@[simp] theorem waitAtTarget_mem (s : State) (p : Packet) : (waitAtTarget s p).mem = s.mem := by simp [waitAtTarget]

@[simp] theorem tryAtTarget_canon {Q : Prop} (s : State) (p : Packet) (f : State → Packet → AtTarget (Nat × List Word)) (hm : Canon Q s.mem)
    (hf : ∀ s, Canon Q s.mem → (f s p).Canon Q) : Canon Q (tryAtTarget s p f).mem := by
  simp only [tryAtTarget]
  split
  · next e => simp [Canon.of_target_ok e (hf s hm)]
  · next e => simp [Canon.of_target_waits e (hf s hm)]
  · next e => simp [Canon.of_target_fails e (hf s hm)]

/-- A packet that arrives is taken from the fabric; memory is as it was. -/
theorem mem_of_arrived {s s1 : State} {p : Packet} {k : Nat} (e : arrived s p k = some s1) : s1.mem = s.mem := by
  unfold arrived at e
  split_ifs at e
  all_goals cases e
  all_goals rfl

theorem Canon.of_arrived {Q : Prop} {s s1 : State} {p : Packet} {k : Nat} (e : arrived s p k = some s1) (hm : Canon Q s.mem) : Canon Q s1.mem := by
  rw [mem_of_arrived e]; exact hm

@[simp] theorem targetEvent_ends {Q : Prop} (s : State) (p : Packet) (kind : Nat) (f : State → Packet → AtTarget (Nat × List Word))
    (hm : Canon Q s.mem) (hf : ∀ s, Canon Q s.mem → (f s p).Canon Q) : Ends Q (targetEvent s p kind f) := by
  unfold targetEvent
  split
  · exact (ends_next _).2 (tryAtTarget_canon _ _ _ hm hf)
  · split
    · simp [hm]
    · next e =>
      have h := Canon.of_arrived e hm
      split
      · simp [h]
      · simp [h]
      · rw [ends_next]
        split
        · exact h
        · exact tryAtTarget_canon _ _ _ h hf
      · exact (ends_next _).2 (tryAtTarget_canon _ _ _ (by simp [h]) hf)

@[simp] theorem execRemoteLoad_ends {Q : Prop} (p : Packet) (s : State) (hm : Canon Q s.mem) : Ends Q (execRemoteLoad p s) :=
  targetEvent_ends _ _ _ _ hm fun s => performRemote_canon s p

@[simp] theorem execRemoteStore_ends {Q : Prop} (p : Packet) (s : State) (hm : Canon Q s.mem) : Ends Q (execRemoteStore p s) :=
  targetEvent_ends _ _ _ _ hm fun s => performRemote_canon s p

@[simp] theorem execRemoteAtomic_ends {Q : Prop} (p : Packet) (s : State) (hm : Canon Q s.mem) : Ends Q (execRemoteAtomic p s) :=
  targetEvent_ends _ _ _ _ hm fun s => performRemote_canon s p

@[simp] theorem execValueReply_ends {Q : Prop} (p : Packet) (s : State) (hm : Canon Q s.mem) : Ends Q (execValueReply p s) := by
  unfold execValueReply
  split
  · simp [hm]
  · next e =>
    have h := Canon.of_arrived e hm
    split <;> simp [h]

@[simp] theorem execAcknowledgement_ends {Q : Prop} (p : Packet) (s : State) (hm : Canon Q s.mem) : Ends Q (execAcknowledgement p s) := by
  simp only [execAcknowledgement]
  split
  · simp [hm]
  · next e =>
    have h := Canon.of_arrived e hm
    split
    · split
      · rw [ends_next]
        split <;> simp [h]
      · simp [h]
    · simp [h]

@[simp] theorem resolveMoved_mem (s : State) (o : RemOp) : (resolveMoved s o).mem = s.mem := by simp only [resolveMoved]; split <;> simp
@[simp] theorem resolveParked_mem (s : State) : (resolveParked s).mem = s.mem := by simp [resolveParked]

@[simp] theorem execFailureReport_ends {Q : Prop} (p : Packet) (s : State) (hm : Canon Q s.mem) : Ends Q (execFailureReport p s) := by
  simp only [execFailureReport]
  split
  · simp [hm]
  · next e =>
    have h := Canon.of_arrived e hm
    split
    · simp [h]
    · split_ifs <;> simp [h]

@[simp] theorem execRefusal_ends {Q : Prop} (p : Packet) (s : State) (hm : Canon Q s.mem) : Ends Q (execRefusal p s) := by
  simp only [execRefusal]
  split
  · simp [hm]
  · next e =>
    have h := Canon.of_arrived e hm
    split
    · simp [h]
    · split
      · simp [h]
      · split <;> simp [h]

@[simp] theorem execRefusalBackoffResend_ends {Q : Prop} (k : Nat) (s : State) (hm : Canon Q s.mem) :
    Ends Q (execRefusalBackoffResend k s) := by
  simp only [execRefusalBackoffResend]
  (repeat' split) <;> simp [hm]

@[simp] theorem execFabricResendTimeout_ends {Q : Prop} (k : Nat) (s : State) (hm : Canon Q s.mem) :
    Ends Q (execFabricResendTimeout k s) := by
  unfold execFabricResendTimeout
  split <;> simp [hm]

@[simp] theorem forwardFailed_mem (s : State) (p : Packet) (kind : Nat) : (forwardFailed s p kind).mem = s.mem := by simp [forwardFailed]

@[simp] theorem execPacketForward_ends {Q : Prop} (p : Packet) (room : List Nat) (s : State) (hm : Canon Q s.mem) :
    Ends Q (execPacketForward p room s) := by
  simp [execPacketForward, hm]

@[simp] theorem execLinkFlitResend_ends {Q : Prop} (_link : Nat) (s : State) (hm : Canon Q s.mem) :
    Ends Q (execLinkFlitResend _link s) := by
  simp [execLinkFlitResend, hm]

@[simp] theorem execLinkRetrain_ends {Q : Prop} (port : Nat) (s : State) (hm : Canon Q s.mem) :
    Ends Q (execLinkRetrain port s) := by
  simp [execLinkRetrain, hm]

@[simp] theorem resolveRank_canon {Q : Prop} (s : State) (r : Word) (v : Word) (hm : Canon Q s.mem) :
    (resolveRank s r v).Canon Q := by
  simp only [resolveRank]
  (repeat' split) <;> simp [hm]

@[simp] theorem remoteRelease_canon {Q : Prop} (s : State) (t : Nat) (hm : Canon Q s.mem) : (remoteRelease s t).Canon Q := by simp [remoteRelease, hm]

@[simp] theorem injectInstr_ends {Q : Prop} (rel : Bool) (a b : Reg) (s : State) (hm : Canon Q s.mem) : Ends Q (injectInstr rel a b s) := by
  simp only [injectInstr]
  split
  · simp [hm, -State.setSlot_mem, -State.setCore_mem]
  · refine .finish (.andThen (resolveRank_canon _ _ _ hm) fun whom s hm => ?_) fun whom s hm => by simp [hm, -State.setSlot_mem, -State.setCore_mem]
    split
    · exact hm
    · refine .andThen ?_ fun _ s hm => by simp [hm, -State.setSlot_mem, -State.setCore_mem]
      split <;> simp [hm, -State.setSlot_mem, -State.setCore_mem]

@[simp] theorem execQinj_ends {Q : Prop} (a : Reg) (b : Reg) (s : State) (hm : Canon Q s.mem) : Ends Q (execQinj a b s) := by simp [execQinj, hm]

@[simp] theorem execQinjRel_ends {Q : Prop} (a : Reg) (b : Reg) (s : State) (hm : Canon Q s.mem) :
    Ends Q (execQinjRel a b s) := by
  simp [execQinjRel, hm]

@[simp] theorem execQrcv_ends {Q : Prop} (a : Reg) (s : State) (hm : Canon Q s.mem) :
    Ends Q (execQrcv a s) := by
  simp only [execQrcv]
  (repeat' split) <;> simp [hm, -State.setCore_mem]

@[simp] theorem execQpoll_ends {Q : Prop} (d : Reg) (a : Reg) (s : State) (hm : Canon Q s.mem) :
    Ends Q (execQpoll d a s) := by
  simp only [execQpoll]
  split <;> simp [hm, -State.setSlot_mem]

@[simp] theorem execQcnt_ends {Q : Prop} (d : Reg) (s : State) (hm : Canon Q s.mem) : Ends Q (execQcnt d s) := by simp [execQcnt, hm]

/-- A delivered message leaves a state whose memory is canonical. -/
def Delivery.Canon (Q : Prop) : Delivery → Prop
  | .ok s => Machine.Canon Q s.mem
  | .full | .noCore => True

theorem Canon.of_delivery {Q : Prop} {r : Delivery} {s : State} (e : r = .ok s) (h : r.Canon Q) : Canon Q s.mem := by
  subst e; exact h

@[simp] theorem Delivery.canon_ok {Q : Prop} (s : State) : (Delivery.ok s).Canon Q ↔ Machine.Canon Q s.mem := Iff.rfl
@[simp] theorem Delivery.canon_full {Q : Prop} : Delivery.full.Canon Q := trivial
@[simp] theorem Delivery.canon_noCore {Q : Prop} : Delivery.noCore.Canon Q := trivial

@[simp] theorem Delivery.canon_ite {Q : Prop} (c : Prop) [Decidable c] (a b : Delivery) :
    (if c then a else b).Canon Q ↔ (c → a.Canon Q) ∧ (¬c → b.Canon Q) := by
  split <;> simp_all

@[simp] theorem bufferMsg_canon {Q : Prop} (s : State) (part : Nat) (c : Nat) (e : RcvEntry) (away : Bool) (hm : Canon Q s.mem) :
    (bufferMsg s part c e away).Canon Q := by
  unfold bufferMsg
  split
  · next e => exact spillItem_canon e hm
  · trivial

@[simp] theorem deliverMsg_canon {Q : Prop} (s : State) (part : Nat) (c : Nat) (e : RcvEntry) (hm : Canon Q s.mem) :
    (deliverMsg s part c e).Canon Q := by
  simp only [deliverMsg]
  (repeat' split) <;> simp [hm]

@[simp] theorem sendInjected_mem (s : State) (c : Nat) : (sendInjected s c).mem = s.mem := by simp only [sendInjected]; split <;> simp
@[simp] theorem injFailed_mem (s : State) (c : Nat) (slot : Nat) (kind : Nat) : (injFailed s c slot kind).mem = s.mem := (rfl)
@[simp] theorem injRefused_mem (s : State) (c : Nat) (i : Nat) (e : InjEntry) : (injRefused s c i e).mem = s.mem := by simp [injRefused]

@[simp] theorem fabricMessage_canon {Q : Prop} (s : State) (p : Packet) (isNew : Bool) (hm : Canon Q s.mem) :
    Canon Q (fabricMessage s p isNew).mem := by
  simp only [fabricMessage]
  split
  · next e =>
    have h := Canon.of_delivery e (deliverMsg_canon _ _ _ _ hm)
    rw [answerOp_mem]
    exact h
  · rw [answerOp_mem]
    exact hm
  · simp [hm]

@[simp] theorem execQueueMessage_ends {Q : Prop} (p : Packet) (s : State) (hm : Canon Q s.mem) : Ends Q (execQueueMessage p s) := by
  simp only [execQueueMessage]
  split
  · simp [hm]
  · split
    · split
      · simp [hm]
      · split
        · simp [hm]
        · split
          · next e =>
            rw [ends_next, State.updSlot_mem]
            exact Canon.of_delivery e (deliverMsg_canon _ _ _ _ (by simp [hm]))
          · simp [hm]
          · simp [hm]
    · split
      · simp [hm]
      · split <;> simp [hm]

@[simp] theorem remoteIssue_canon {Q : Prop} (s : State) (rank : Word) (addr : Word) (n : Nat) (align : Nat) (tag : Option (Fin 8)) (rel : Bool)
    (hm : Canon Q s.mem) : (remoteIssue s rank addr n align tag rel).Canon Q := by
  refine .andThen (resolveRank_canon _ _ _ hm) fun whom s hm => ?_
  split_ifs
  · exact hm
  · exact hm
  · exact hm
  · exact .andThen (remoteRelease_canon _ _ hm) fun _ s hm => by simp [hm]
  · exact .andThen hm fun _ s hm => by simp [hm]

@[simp] theorem remoteSend_ends {Q : Prop} (n : Nat) (kind : Nat) (whom : Nat × Nat) (rank : Word) (addr : Word) (tag : Option (Fin 8))
    (acq : Bool) (words : List Word) (s : State) (hm : Canon Q s.mem) :
    Ends Q (remoteSend n kind whom rank addr tag acq words s) := by
  simp [remoteSend, hm]

@[simp] theorem execRld_ends {Q : Prop} (tag : Fin 8) (sz : Size) (acq : Bool) (a : Reg) (b : Reg) (s : State) (hm : Canon Q s.mem) :
    Ends Q (execRld tag sz acq a b s) := by
  simp +contextual [execRld, hm]

@[simp] theorem execRst_ends {Q : Prop} (sz : Size) (rel : Bool) (d : Reg) (a : Reg) (b : Reg) (s : State) (hm : Canon Q s.mem) :
    Ends Q (execRst sz rel d a b s) := by
  simp +contextual [execRst, hm]

@[simp] theorem remoteAtom_ends {Q : Prop} (tag : Fin 8) (code : Nat) (o : MemOrd) (x : Word) (v : Word) (a : Reg) (b : Reg) (s : State)
    (hm : Canon Q s.mem) :
    Ends Q (remoteAtom tag code o x v a b s) := by
  simp +contextual [remoteAtom, hm]

@[simp] theorem execRatom_ends {Q : Prop} (op : AtomOp) (tag : Fin 8) (sz : Size) (o : MemOrd) (d : Reg) (a : Reg) (b : Reg) (s : State)
    (hm : Canon Q s.mem) :
    Ends Q (execRatom op tag sz o d a b s) := by
  simp [execRatom, hm]

@[simp] theorem execRatomCas_ends {Q : Prop} (tag : Fin 8) (sz : Size) (o : MemOrd) (d : Reg) (a : Reg) (b : Reg) (s : State) (hm : Canon Q s.mem) :
    Ends Q (execRatomCas tag sz o d a b s) := by
  simp [execRatomCas, hm]

@[simp] theorem takeRemoteError_canon {Q : Prop} (s : State) (t : Nat) (v : Word) (hm : Canon Q s.mem) :
    Canon Q (takeRemoteError s t v).mem := by
  unfold takeRemoteError
  split <;> simp [hm]

@[simp] theorem execRwait_ends {Q : Prop} (d : Reg) (n : Fin 8) (s : State) (hm : Canon Q s.mem) :
    Ends Q (execRwait d n s) := by
  unfold execRwait
  split <;> simp [hm, -State.setSlot_mem]

@[simp] theorem bulkPart_canon {Q : Prop} (s : State) (k : Kind) (p : Part1) (hm : Canon Q s.mem) :
    (bulkPart s k p).Canon Q := by
  simp only [bulkPart]
  (repeat' split) <;> simp [hm]

@[simp] theorem poisonFree_canon {Q : Prop} (s : State) (k : Kind) (va : Word) (bad : Option Nat) (tg : Target) (hm : Canon Q s.mem) :
    (poisonFree s k va bad tg).Canon Q := by
  unfold poisonFree
  split <;> simp [hm]

@[simp] theorem bulkPieces_canon {Q : Prop} (s : State) (b : By) (k : Kind) (l : List (Word × Nat)) (hm : Canon Q s.mem) :
    (bulkPieces s b k l).Canon Q := by
  induction l generalizing s with
  | nil => exact hm
  | cons p l ih =>
    refine .andThen (Res.ofExcept_canon _ _ hm) fun tg s hm => .andThen ?_ fun x s hm => .andThen (ih s hm) fun r s hm => hm
    cases tg with
    | glb g => exact .andThen (translatePart_canon _ _ _ _ _ _ hm) fun p s hm => .andThen (bulkPart_canon _ _ _ hm) fun p s hm => hm
    | ls o => exact poisonFree_canon _ _ _ _ _ hm
    | cm o => exact poisonFree_canon _ _ _ _ _ hm

@[simp] theorem bulkWrite_canon {Q : Prop} (s : State) (c : Nat) (slot : Nat) (key : Nat) (l : List Byte) (hm : Canon Q s.mem) :
    Canon Q (bulkWrite s c slot key l).mem := by
  simp only [bulkWrite]
  (repeat' split) <;> simp [hm]

@[simp] theorem bulkIssue_canon {Q : Prop} (s : State) (k : Kind) (d : Reg) (a : Reg) (b : Reg) (c : Reg) (tag : Option (Fin 8))
    (hm : Canon Q s.mem) : (bulkIssue s k d a b c tag).Canon Q := by
  refine .andThen (resolveRank_canon _ _ _ hm) fun whom s hm => ?_
  split_ifs
  · exact hm
  · exact hm
  · exact hm
  · exact .andThen (lsFirst_canon _ _ _ hm) fun _ s hm => .andThen (bulkPieces_canon _ _ _ _ hm) fun x s hm => by simp [hm]

@[simp] theorem execBulkWr_ends {Q : Prop} (tag : Option (Fin 8)) (d : Reg) (a : Reg) (b : Reg) (c : Reg) (s : State) (hm : Canon Q s.mem) :
    Ends Q (execBulkWr tag d a b c s) := by
  refine .finish (bulkIssue_canon _ _ _ _ _ _ _ hm) fun x s hm => done_ends _ _ ?_
  rw [sendOp_mem, State.updMe_mem]
  exact releaseLines_canon _ _ _ hm

@[simp] theorem execBulkRd_ends {Q : Prop} (tag : Fin 8) (d : Reg) (a : Reg) (b : Reg) (c : Reg) (s : State) (hm : Canon Q s.mem) :
    Ends Q (execBulkRd tag d a b c s) := by
  refine .finish (bulkIssue_canon _ _ _ _ _ _ _ hm) fun x s hm => done_ends _ _ ?_
  rw [sendOp_mem, State.updMe_mem]
  exact hm

@[simp] theorem setReasm_mem (s : State) (p : Packet) (r : Option Reasm) : (setReasm s p r).mem = s.mem := (rfl)
@[simp] theorem noReasm_mem (s : State) (p : Packet) : (noReasm s p).mem = s.mem := by simp [noReasm]
@[simp] theorem arrivedAt_mem (s : State) (p : Packet) : (arrivedAt s p).mem = s.mem := (rfl)

@[simp] theorem reassemble_canon {Q : Prop} (s : State) (p : Packet) (write : State → List Byte → AtTarget Unit) (finish : State → State)
    (hm : Canon Q s.mem) (hw : ∀ s b, Canon Q s.mem → (write s b).Canon Q) (hf : ∀ s, Canon Q s.mem → Canon Q (finish s).mem) :
    Canon Q (reassemble s p write finish).mem := by
  simp only [reassemble]
  split
  · simp [hm]
  · split
    · simp [hm]
    · split
      · next e => simp [Canon.of_target_waits e (hw _ _ hm)]
      · next e => simp [Canon.of_target_fails e (hw _ _ hm)]
      · next e =>
        have h := Canon.of_target_ok e (hw _ _ hm)
        split
        · exact hf _ (by simp [h])
        · simp [h]

@[simp] theorem dataEvent_ends {Q : Prop} (s : State) (p : Packet) (kind : Nat) (apply : State → State) (hm : Canon Q s.mem)
    (ha : ∀ s, Canon Q s.mem → Canon Q (apply s).mem) : Ends Q (dataEvent s p kind apply) := by
  unfold dataEvent
  split
  · exact (ends_next _).2 (ha _ hm)
  · split
    · simp [hm]
    · next e =>
      have h := Canon.of_arrived e hm
      split
      · simp [h]
      · simp [h]
      · rw [ends_next]
        split
        · exact h
        · exact ha _ h
      · exact (ends_next _).2 (ha _ (by simp [h]))

@[simp] theorem execBulkWriteData_ends {Q : Prop} (p : Packet) (s : State) (hm : Canon Q s.mem) : Ends Q (execBulkWriteData p s) := by
  refine dataEvent_ends _ _ _ _ hm fun s hm => reassemble_canon _ _ _ _ hm (fun s b hm => ?_) fun s hm => by simp [hm]
  split
  · next e =>
    rw [AtTarget.canon_ok]
    exact releaseLines_canon _ _ _ (writePieces_canon _ _ _ _ (Canon.of_target_ok e (targetPieces_canon _ _ _ _ hm)))
  · next e => exact Canon.of_target_waits e (targetPieces_canon _ _ _ _ hm)
  · next e => exact Canon.of_target_fails e (targetPieces_canon _ _ _ _ hm)

@[simp] theorem execBulkReadRequest_ends {Q : Prop} (p : Packet) (s : State) (hm : Canon Q s.mem) : Ends Q (execBulkReadRequest p s) := by
  unfold execBulkReadRequest
  lift_lets
  intro go
  have hgo : ∀ s, Canon Q s.mem → Canon Q (go s).mem := by
    intro s hm
    simp only [go]
    split
    · exact hm
    · split
      · next e => simp [Canon.of_target_waits e (targetPieces_canon _ _ _ _ hm)]
      · next e => simp [Canon.of_target_fails e (targetPieces_canon _ _ _ _ hm)]
      · next e =>
        have h := Canon.of_target_ok e (targetPieces_canon _ _ _ _ hm)
        split
        · simp [h]
        · rw [foldl_mem emit emit_mem, leaveTarget_mem]
          exact releaseLines_canon _ _ _ h
  clear_value go
  split
  · exact (ends_next _).2 (hgo _ hm)
  · split
    · simp [hm]
    · next e =>
      have h := Canon.of_arrived e hm
      split
      · simp [h]
      · simp [h]
      · rw [ends_next]
        split
        · exact h
        · exact hgo _ h
      · exact (ends_next _).2 (hgo _ (by simp [h]))

@[simp] theorem writeLocal_canon {Q : Prop} (s : State) (c slot off : Nat) (b : List Byte) (l : List (Nat × Nat)) (n : Nat) (hm : Canon Q s.mem) :
    Canon Q (writeLocal s c slot off b l n).mem := by
  induction l generalizing s n with
  | nil => exact hm
  | cons p l ih =>
    refine ih _ _ ?_
    split
    · exact hm
    · exact bulkWrite_canon _ _ _ _ _ hm

@[simp] theorem localAdmits_canon {Q : Prop} (s : State) (c off n : Nat) (l : List (Nat × Nat)) (at' : Nat) (hm : Canon Q s.mem) :
    (localAdmits s c off n l at').Canon Q := by
  induction l generalizing at' with
  | nil => exact hm
  | cons p l ih =>
    simp only [localAdmits]
    split_ifs
    · exact ih _
    · exact hm
    · exact ih _
    · split
      · exact hm
      · simp [hm]
      · exact ih _

@[simp] theorem execBulkReadData_ends {Q : Prop} (p : Packet) (s : State) (hm : Canon Q s.mem) : Ends Q (execBulkReadData p s) := by
  unfold execBulkReadData
  split
  · exact dataEvent_ends _ _ _ _ hm fun s hm => hm
  · refine dataEvent_ends _ _ _ _ hm fun s hm => reassemble_canon _ _ _ _ hm (fun s b hm => ?_) fun s hm => by simp [hm]
    have h := fun c off n l => localAdmits_canon (Q := Q) s c off n l 0 hm
    split
    · next e => exact writeLocal_canon _ _ _ _ _ _ _ (Canon.of_target_ok e (h _ _ _ _))
    · exact h _ _ _ _

@[simp] theorem execDropNotice_ends {Q : Prop} (p : Packet) (s : State) (hm : Canon Q s.mem) : Ends Q (execDropNotice p s) := by
  simp only [execDropNotice]
  split
  · simp [hm]
  · next e =>
    have h := Canon.of_arrived e hm
    split
    · simp [h]
    · split <;> simp [h]

@[simp] theorem grantReservation_mem (s : State) (p : Packet) : (grantReservation s p).mem = s.mem := by simp [grantReservation]

@[simp] theorem execReservationRequest_ends {Q : Prop} (p : Packet) (s : State) (hm : Canon Q s.mem) : Ends Q (execReservationRequest p s) := by
  simp only [execReservationRequest]
  split
  · simp [hm]
  · split
    · simp [hm]
    · next e => simp [Canon.of_arrived e hm]

@[simp] theorem execReservationGrant_ends {Q : Prop} (p : Packet) (s : State) (hm : Canon Q s.mem) : Ends Q (execReservationGrant p s) := by
  unfold execReservationGrant
  split
  · simp [hm]
  · next e =>
    have h := Canon.of_arrived e hm
    split <;> simp [h]

@[simp] theorem execReservedResend_ends {Q : Prop} (k : Nat) (s : State) (hm : Canon Q s.mem) :
    Ends Q (execReservedResend k s) := by
  simp only [execReservedResend]
  (repeat' split) <;> simp [hm]

@[simp] theorem execRankMe_ends {Q : Prop} (d : Reg) (s : State) (hm : Canon Q s.mem) : Ends Q (execRankMe d s) := by simp [execRankMe, hm]

@[simp] theorem execRankRd_ends {Q : Prop} (d : Reg) (a : Reg) (s : State) (hm : Canon Q s.mem) :
    Ends Q (execRankRd d a s) := by
  simp [execRankRd, hm]

@[simp] theorem execRemoteErrorTake_ends {Q : Prop} (t : Nat) (s : State) (hm : Canon Q s.mem) :
    Ends Q (execRemoteErrorTake t s) := by
  simp only [execRemoteErrorTake]
  split <;> simp [hm, -State.setSlot_mem]

/-! ### Protocol processors -/

/-- A fold of a function whose value is named keeps memory, if one step does. -/
theorem foldl_mem_of_eq {α : Type} (f : State → α → State) (hf : ∀ s a t, t = f s a → t.mem = s.mem) (l : List α) (s : State) :
    (l.foldl f s).mem = s.mem :=
  foldl_mem f (fun s a => hf s a _ rfl) l s

@[simp] theorem sendTo_mem (s : State) (m : Msg) (dev : Nat) : (sendTo s m dev).mem = s.mem := by simp [sendTo]

@[simp] theorem replyReq_mem (s : State) (p : Nat) (req : Nat) (addr : Nat) (type : Nat) (w2 : Word) (flit : Option Block) :
    (replyReq s p req addr type w2 flit).mem = s.mem := by
  simp [replyReq]

@[simp] theorem replyTo_mem (s : State) (p : Nat) (m : Msg) (type : Nat) (w2 : Word) (flit : Option Block) :
    (replyTo s p m type w2 flit).mem = s.mem := by
  simp [replyTo]

@[simp] theorem multicast_mem (s : State) (p : Nat) (w : Vector Word 8) (flit : Option Block) (targets : List Nat) (writer : optParam
    (Option Nat) none) :
    (multicast s p w flit targets writer).2.mem = s.mem := by
  simp only [multicast]
  (repeat' split) <;> simp [-State.post_mem]

@[simp] theorem recallTo_mem (s : State) (p : Nat) (o : Nat) (addr : Nat) (keep : Nat) : (recallTo s p o addr keep).mem = s.mem := by simp [recallTo]
@[simp] theorem setPend_mem (s : State) (j : Job) (m : Option Msg) : (setPend s j m).mem = s.mem := (rfl)
@[simp] theorem putBlock_canon {Q : Prop} (s : State) (j : Job) (hm : Canon Q s.mem) : Canon Q (putBlock s j).mem := by simp [putBlock, hm]
@[simp] theorem maskPushes_mem (s : State) (c : Nat) (blk : Nat) (mask : BitVec 64) : (maskPushes s c blk mask).mem = s.mem := by simp [maskPushes]
@[simp] theorem maskPuts_mem (s : State) (c : Nat) (blk : Nat) : (maskPuts s c blk).mem = s.mem := (rfl)
@[simp] theorem givenBlock_mem (s : State) (c : Nat) (blk : Nat) : (givenBlock s c blk).mem = s.mem := by simp [givenBlock]
@[simp] theorem grantS_mem (s : State) (j : Job) (m : Msg) : (grantS s j m).mem = s.mem := by simp [grantS]
@[simp] theorem grantX_mem (s : State) (j : Job) (m : Msg) (data : Bool) : (grantX s j m data).mem = s.mem := by simp [grantX]

theorem applyAtom_eq (s : State) (p : Nat) (m : Msg) : applyAtom s p m =
    if poisonedBlk s m.blk then failReply s p m .storeFault else
    replyTo (dirtyFrame (tracePort { s with mem := (atomMem s.mem m.addr (m.w[2]).toNat m.w[3] m.w[4]).2 } p m.addr (atomWidth (m.w[2]).toNat)
      m.src m.slot false) m.addr) p m Ty.result (BitVec.ofNat 64 (atomMem s.mem m.addr (m.w[2]).toNat m.w[3] m.w[4]).1) none := (rfl)

@[simp] theorem applyAtom_canon {Q : Prop} (s : State) (p : Nat) (m : Msg) (hm : Canon Q s.mem) : Canon Q (applyAtom s p m).mem := by
  rw [applyAtom_eq]
  split
  · rw [failReply_mem]
    exact hm
  · rw [replyTo_mem, dirtyFrame_mem, tracePort_mem]
    exact hm.wrBytes _ _

@[simp] theorem askHost_mem (s : State) (pa : Nat) (excl : Bool) (m : Option Msg) : (askHost s pa excl m).mem = s.mem := (rfl)

@[simp] theorem grantFree_canon {Q : Prop} (s : State) (j : Job) (e : De) (m : Msg) (read : Bool) (listed : Bool) (hm : Canon Q s.mem) :
    Canon Q (grantFree s j e m read listed).2.mem := by
  simp only [grantFree]
  (repeat' split) <;> simp [hm]

@[simp] theorem tellSnoop_mem (s : State) (pa : Nat) (wasExc : Bool) : (tellSnoop s pa wasExc).mem = s.mem := by unfold tellSnoop; split <;> rfl

@[simp] theorem finishPending_canon {Q : Prop} (s : State) (j : Job) (e : De) (kept : Option Nat) (wasExc : Bool) (once : Bool) (hm : Canon Q s.mem) :
    Canon Q (finishPending s j e kept wasExc once).2.mem := by
  simp only [finishPending]
  (repeat' split) <;> simp [hm]

/-- However a standard handler ends, the memory of its state is canonical. -/
def HEnd.Canon (Q : Prop) : HEnd → Prop
  | .ok _ s | .abort _ s => Machine.Canon Q s.mem

theorem Canon.of_hend {Q : Prop} {r : HEnd} {e : De} {s : State} (eq : r = .ok e s) (h : r.Canon Q) : Canon Q s.mem := by
  subst eq; exact h

theorem Canon.of_abort {Q : Prop} {r : HEnd} {c : Cause} {s : State} (eq : r = .abort c s) (h : r.Canon Q) : Canon Q s.mem := by
  subst eq; exact h

@[simp] theorem HEnd.canon_ok {Q : Prop} (e : De) (s : State) : (HEnd.ok e s).Canon Q ↔ Machine.Canon Q s.mem := Iff.rfl
@[simp] theorem HEnd.canon_abort {Q : Prop} (c : Cause) (s : State) : (HEnd.abort c s).Canon Q ↔ Machine.Canon Q s.mem := Iff.rfl

@[simp] theorem HEnd.canon_ite {Q : Prop} (c : Prop) [Decidable c] (a b : HEnd) :
    (if c then a else b).Canon Q ↔ (c → a.Canon Q) ∧ (¬c → b.Canon Q) := by
  split <;> simp_all

theorem HEnd.Canon.ite {Q : Prop} {c : Prop} [Decidable c] {a b : HEnd} (ha : a.Canon Q) (hb : b.Canon Q) : (if c then a else b).Canon Q := by
  split
  · exact ha
  · exact hb

@[simp] theorem stdHandler_canon {Q : Prop} (mig once : Bool) (s : State) (j : Job) (hm : Canon Q s.mem) : (stdHandler mig once s j).Canon Q := by
  have hput : Canon Q (putBlock s j).mem := putBlock_canon s j hm
  have hpend : ∀ e kept w, Canon Q (finishPending s j e kept w once).2.mem := fun e kept w => finishPending_canon _ _ _ _ _ _ hm
  have hpend' : ∀ e kept w, Canon Q (finishPending (putBlock s j) j e kept w once).2.mem := fun e kept w => finishPending_canon _ _ _ _ _ _ hput
  simp only [stdHandler]
  repeat' apply HEnd.Canon.ite
  any_goals simp [hm, hput, hpend, hpend']
  all_goals split <;> simp [hm]

@[simp] theorem tellHolders_mem (s : State) (j : Job) (type : Nat) (w2 : Word) (targets : List Nat) (writer : Nat) (due : Option Msg) :
    (tellHolders s j type w2 targets writer due).mem = s.mem := by
  simp [tellHolders]

@[simp] theorem pushAnswered_mem (s : State) (j : Job) : (pushAnswered s j).mem = s.mem := by simp only [pushAnswered]; (repeat' split) <;> simp

@[simp] theorem mergePut_canon {Q : Prop} (s : State) (j : Job) (reduce : Bool) (hm : Canon Q s.mem) :
    Canon Q (mergePut s j reduce).mem := by
  simp only [mergePut]
  split <;> simp [hm]

@[simp] theorem updateHandler_canon {Q : Prop} (s : State) (j : Job) (hm : Canon Q s.mem) : (updateHandler s j).Canon Q := by simp [updateHandler, hm]
@[simp] theorem pushAll_mem (s : State) (j : Job) (e : De) (skip : Nat) (writer : Nat) : (pushAll s j e skip writer).mem = s.mem := by simp [pushAll]

@[simp] theorem finishPush_canon {Q : Prop} (s : State) (j : Job) (e : De) (kept : Option Nat) (hm : Canon Q s.mem) :
    Canon Q (finishPush s j e kept).2.mem := by
  simp only [finishPush]
  (repeat' split) <;> simp [hm]

@[simp] theorem pushHandler_canon {Q : Prop} (s : State) (j : Job) (hm : Canon Q s.mem) :
    (pushHandler s j).Canon Q := by
  unfold pushHandler
  split <;> simp [hm]

@[simp] theorem reduceHandler_canon {Q : Prop} (s : State) (j : Job) (hm : Canon Q s.mem) : (reduceHandler s j).Canon Q := by simp [reduceHandler, hm]
@[simp] theorem serveRead_mem (s : State) (p : Nat) (m : Msg) (tail : Nat) : (serveRead s p m tail).mem = s.mem := by simp [serveRead]

theorem replyAll_mem (s : State) (p type : Nat) (v : Word) (l : List Msg) : (l.foldl (fun s m => replyTo s p m type v none) s).mem = s.mem :=
  foldl_mem_of_eq _ (fun s m t h => by rw [h, replyTo_mem]) _ _

theorem sealPage_snd (s : State) (p page : Nat) (e : De) : (sealPage s p page e).2 =
    ((s.proc p).sealers.filter fun m => m.addr / 4096 * 4096 = page).foldl (fun s m => replyTo s p m Ty.result (BitVec.ofNat 64 (apRsv e)) none)
      (s.updProc p fun q => { q with sealers := q.sealers.filter fun m => !(m.addr / 4096 * 4096 = page) }) := (rfl)

@[simp] theorem sealPage_mem (s : State) (p : Nat) (page : Nat) (e : De) : (sealPage s p page e).2.mem = s.mem := by
  rw [sealPage_snd, replyAll_mem, State.updProc_mem]

@[simp] theorem useReplica_mem (s : State) (p : Nat) (page : Nat) : (useReplica s p page).mem = s.mem := (rfl)
@[simp] theorem dropOldest_mem (s : State) (die : Nat) : (dropOldest s die).mem = s.mem := by unfold dropOldest; split <;> rfl
@[simp] theorem invLines_mem (s : State) (p : Nat) (l : List (Nat × List Nat)) : (invLines s p l).mem = s.mem := by simp [invLines]

@[simp] theorem freed_mem (s : State) (j : Job) (e : De) : (freed s j e).2.mem = s.mem := by
  have hreply : ∀ (s t : State) (m : Msg), t = replyTo (setPend s j none) j.p m Ty.result 0 none → t.mem = s.mem :=
    fun s t m h => by rw [h, replyTo_mem, setPend_mem]
  simp only [freed, State.updProc_mem]
  split
  · exact hreply _ _ _ rfl
  · rfl

@[simp] theorem startFree_mem (s : State) (j : Job) (e : De) :
    (startFree s j e).2.mem = s.mem := by
  simp only [startFree]
  split <;> simp [-State.post_mem]

@[simp] theorem endFree_mem (s : State) (j : Job) (e : De) : (endFree s j e).2.mem = s.mem := by unfold endFree; split <;> simp
@[simp] theorem noticeAgent_mem (s : State) (j : Job) (e : De) : (noticeAgent s j e).mem = s.mem := by unfold noticeAgent; split <;> simp

@[simp] theorem appendHandler_canon {Q : Prop} (s : State) (j : Job) (hm : Canon Q s.mem) : (appendHandler s j).Canon Q := by
  simp only [appendHandler]
  repeat' apply HEnd.Canon.ite
  any_goals simp [hm]
  · split
    · simp [hm]
    · repeat' apply HEnd.Canon.ite
      all_goals simp [hm]
  · split
    · simp [hm]
    · repeat' apply HEnd.Canon.ite
      all_goals simp [hm]

@[simp] theorem proxyRead_canon {Q : Prop} (s : State) (j : Job) (tail : Nat) (hm : Canon Q s.mem) :
    (proxyRead s j tail).Canon Q := by
  simp [proxyRead, hm]

@[simp] theorem openGate_mem (s : State) (rg : BitVec 256) (m : Msg) : (openGate s rg m).mem = s.mem := by simp [openGate]

@[simp] theorem abortJob_canon {Q : Prop} (s : State) (j : Job) (cause : Cause) (pcWord : Nat) (hm : Canon Q s.mem) :
    Canon Q (abortJob s j cause pcWord).mem := by
  simp [abortJob, hm]

@[simp] theorem watch_mem (s : State) (p : Nat) (ea : Nat) (rg : BitVec 256) : (watch s p ea rg).mem = s.mem := (rfl)
@[simp] theorem hendAck_mem (s : State) (j : Job) : (hendAck s j).mem = s.mem := by simp [hendAck]

@[simp] theorem runStandard_canon {Q : Prop} (s : State) (j : Job) (hm : Canon Q s.mem) : Canon Q (runStandard s j).mem := by
  unfold runStandard
  lift_lets
  intro proto r
  have hr : r.Canon Q := by
    unfold r
    clear_value proto
    split
    case h_8 => split <;> simp [hm]
    all_goals simp [hm]
  clear_value r
  cases r with
  | ok e s1 =>
    rw [hendAck_mem, State.setEntry, State.updMem_mem_eq]
    exact (Canon.wrWord hr _ _).wrWord _ _
  | abort c s1 => exact abortJob_canon _ _ _ _ (by simpa using hr)

@[simp] theorem startHandler_mem (s : State) (j : Job) (t : Nat) (entry : Nat) :
    (startHandler s j t entry).mem = s.mem := by
  unfold startHandler
  split <;> rfl

theorem dispatch_canon {Q : Prop} {s t : State} {j : Job} (e : dispatch s j = some t) (hm : Canon Q s.mem) : Canon Q t.mem := by
  simp only [dispatch] at e
  split_ifs at e
  · obtain rfl := Option.some.inj e
    exact runStandard_canon s j hm
  · obtain rfl := Option.some.inj e
    exact abortJob_canon _ _ _ _ (by simp [hm])
  · obtain ⟨i, -, rfl⟩ := Option.map_eq_some_iff.mp e
    simp [hm]

@[simp] theorem wakeWaiters_canon {Q : Prop} (n : Nat) (s : State) (p ea : Nat) (hm : Canon Q s.mem) : Canon Q (wakeWaiters n s p ea).mem := by
  induction n generalizing s with
  | zero => exact hm
  | succ n ih =>
    simp only [wakeWaiters]
    split
    · exact hm
    · split
      · exact hm
      · split
        · exact hm
        · split
          · simp [hm]
          · exact ih _ (by simp [hm])
          · split
            · next e => exact ih _ (dispatch_canon e (by simp [hm]))
            · exact hm

@[simp] theorem wakeProc_canon {Q : Prop} (s : State) (p : Nat) (hm : Canon Q s.mem) : Canon Q (wakeProc s p).mem :=
  canon_foldl _ (fun s ea hm => wakeWaiters_canon 9 s p ea hm) _ _ hm

@[simp] theorem tracePutAt_mem (s : State) (p : Nat) (m : Msg) (mask : BitVec 64) :
    (tracePutAt s p m mask).mem = s.mem := by
  unfold tracePutAt
  split <;> simp

@[simp] theorem directMessage_canon {Q : Prop} (s : State) (p : Nat) (m : Msg) (hm : Canon Q s.mem) :
    Canon Q (directMessage s p m).mem := by
  simp [directMessage, hm]

@[simp] theorem agentMessage_canon {Q : Prop} (s : State) (p : Nat) (idx : Nat) (rg : BitVec 256) (m : Msg) (hm : Canon Q s.mem) :
    Canon Q (agentMessage s p idx rg m).mem := by
  simp [agentMessage, hm]

@[simp] theorem execReplicaCopyComplete_ends {Q : Prop} (p : Nat) (page : Nat) (s : State) (hm : Canon Q s.mem) :
    Ends Q (execReplicaCopyComplete p page s) := by
  unfold execReplicaCopyComplete
  split <;> simp [hm]

@[simp] theorem takeAnswer_canon {Q : Prop} (s : State) (t : Take) (m : Msg) (hm : Canon Q s.mem) :
    Canon Q (takeAnswer s t m).mem := by
  simp [takeAnswer, hm]

@[simp] theorem wakePage_canon {Q : Prop} (s : State) (p : Nat) (page : Nat) (hm : Canon Q s.mem) : Canon Q (wakePage s p page).mem := by
  unfold wakePage
  split
  · exact hm
  · exact canon_foldl _ (fun s i hm => wakeWaiters_canon 9 s p _ hm) _ _ hm

@[simp] theorem pageToDevice_canon {Q : Prop} (s : State) (page : Nat) (hm : Canon Q s.mem) :
    Canon Q (pageToDevice s page).mem := by
  simp [pageToDevice, hm]

theorem homeMessage_canon {Q : Prop} {s t : State} {p : Nat} {m : Msg} (e : homeMessage s p m = some t) (hm : Canon Q s.mem) : Canon Q t.mem := by
  unfold homeMessage at e
  split at e
  · obtain rfl := Option.some.inj e
    exact takeAnswer_canon _ _ _ hm
  split at e
  · obtain rfl := Option.some.inj e
    exact pageToDevice_canon _ _ hm
  split at e
  · split_ifs at e
    obtain rfl := Option.some.inj e
    exact directMessage_canon _ _ _ hm
  split at e
  · split_ifs at e
    obtain rfl := Option.some.inj e
    exact directMessage_canon _ _ _ hm
  split at e
  · obtain rfl := Option.some.inj e
    simp [hm]
  split at e
  · obtain rfl := Option.some.inj e
    exact agentMessage_canon _ _ _ _ _ hm
  dsimp only at e
  split at e
  · obtain rfl := Option.some.inj e
    simp [hm]
  split_ifs at e
  any_goals (obtain rfl := Option.some.inj e; simp [hm])
  all_goals
    obtain ⟨s1, h1, rfl⟩ := Option.map_eq_some_iff.mp e
    have hm' : Canon Q s1.mem := by
      refine dispatch_canon h1 ?_
      simp [hm]
    simp [hm']

/-! ### The host link -/

@[simp] theorem updTake_mem (s : State) (t : Take) (f : Take → Take) : (updTake s t f).mem = s.mem := (rfl)
@[simp] theorem takeEvicts_mem (s : State) (t : Take) : (takeEvicts s t).mem = s.mem := by simp [takeEvicts]

@[simp] theorem stepTake_canon {Q : Prop} (s : State) (t : Take) (hm : Canon Q s.mem) :
    Canon Q (stepTake s t).mem := by
  unfold stepTake
  split <;> simp [hm]

@[simp] theorem stepTakes_canon {Q : Prop} (s : State) (hm : Canon Q s.mem) : Canon Q (stepTakes s).mem := by
  refine canon_foldl _ (fun s t hm => ?_) _ _ (canon_foldl _ (fun s t hm => stepTake_canon s t hm) _ _ hm)
  split
  · exact stepTake_canon s t hm
  · exact hm

@[simp] theorem takePage_canon {Q : Prop} (s : State) (page : Nat) (why : TakeWhy) (hm : Canon Q s.mem) :
    Canon Q (takePage s page why).mem := by
  simp [takePage, hm]

@[simp] theorem serveHost_canon {Q : Prop} (s : State) (pa : Nat) (wr : Option (Word × Block)) (hm : Canon Q s.mem) :
    Canon Q (serveHost s pa wr).mem := by
  simp only [serveHost]
  (repeat' split) <;> simp [hm]

@[simp] theorem pageToHost_canon {Q : Prop} (s : State) (page : Nat) (hm : Canon Q s.mem) : Canon Q (pageToHost s page).mem := by
  refine wakePage_canon _ _ _ (canon_foldl _ (fun s o hm => ?_) _ _ ?_)
  · split
    · simp [hm]
    · exact hm
  · simp [hm]

@[simp] theorem stepBiasSet_canon {Q : Prop} (s : State) (c : Cmd) (pages : List Nat) (host : Bool) (hm : Canon Q s.mem) :
    Canon Q (stepBiasSet s c pages host).mem := by
  simp +contextual [stepBiasSet, hm]

@[simp] theorem backInvalidate_mem (s : State) (pa : Nat) (n : Nat) : (backInvalidate s pa n).2.mem = s.mem := (rfl)
@[simp] theorem hostAnswered_mem (s : State) (pa : Nat) (held : Bool) : (hostAnswered s pa held).mem = s.mem := by unfold hostAnswered; split <;> simp

@[simp] theorem stepHostOp_canon {Q : Prop} (s : State) (o : HostOp) (hm : Canon Q s.mem) :
    Canon Q (stepHostOp s o).mem := by
  unfold stepHostOp
  split <;> simp [hm]

@[simp] theorem linkPass_canon {Q : Prop} (s : State) (hm : Canon Q s.mem) : Canon Q (linkPass s).mem := by simp +contextual [linkPass, hm]

@[simp] theorem stepLink_canon {Q : Prop} (s : State) (hm : Canon Q s.mem) : Canon Q (stepLink s).mem :=
  linkPass_canon _ (linkPass_canon _ (linkPass_canon _ (linkPass_canon _ (stepTakes_canon _ hm))))

@[simp] theorem execHostMemrd_ends {Q : Prop} (pa : Nat) (s : State) (hm : Canon Q s.mem) : Ends Q (execHostMemrd pa s) := by simp [execHostMemrd, hm]

@[simp] theorem execHostMemwr_ends {Q : Prop} (pa : Nat) (mask : Word) (data : Block) (s : State) (hm : Canon Q s.mem) :
    Ends Q (execHostMemwr pa mask data s) := by
  simp [execHostMemwr, hm]

@[simp] theorem snoopEvent_ends {Q : Prop} (s : State) (pa : Nat) (why : TakeWhy) (hm : Canon Q s.mem) :
    Ends Q (snoopEvent s pa why) := by
  simp [snoopEvent, hm]

@[simp] theorem execSnpinv_ends {Q : Prop} (pa : Nat) (s : State) (hm : Canon Q s.mem) : Ends Q (execSnpinv pa s) := by simp [execSnpinv, hm]
@[simp] theorem execSnpdata_ends {Q : Prop} (pa : Nat) (s : State) (hm : Canon Q s.mem) : Ends Q (execSnpdata pa s) := by simp [execSnpdata, hm]
@[simp] theorem execSnpcur_ends {Q : Prop} (pa : Nat) (s : State) (hm : Canon Q s.mem) : Ends Q (execSnpcur pa s) := by simp [execSnpcur, hm]

@[simp] theorem execHostGoResponse_ends {Q : Prop} (pa : Nat) (data : Block) (excl : Bool) (s : State) (hm : Canon Q s.mem) :
    Ends Q (execHostGoResponse pa data excl s) := by
  have hw : Canon Q (s.mem.wrBlock (pa / 64 * 64) data) := hm.wrBlock _ _
  simp only [execHostGoResponse]
  split
  · simp [hw]
  · split
    · simp [hw]
    · refine (ends_next _).2 (stepLink_canon _ ?_)
      rw [watch_mem]
      refine wakeWaiters_canon _ _ _ _ ?_
      rw [State.setEntry, State.updMem_mem_eq]
      refine (Canon.wrWord ?_ _ _).wrWord _ _
      split
      · simp [hw]
      · exact grantFree_canon _ _ _ _ _ _ (by simp [hw])
  · simp [hm]

/-! ### Pages of other devices -/

@[simp] theorem putPage_canon {Q : Prop} (s : State) (pa : Nat) (p : Packet) (hm : Canon Q s.mem) : Canon Q (putPage s pa p).mem := by
  have h : ∀ (l : List (Nat × Block)) (m : Memory), Canon Q m → Canon Q (l.foldl (fun m x => m.wrBlock (pa + 64 * x.1) x.2) m) := by
    intro l
    induction l with
    | nil => exact fun m hm => hm
    | cons x l ih => exact fun m hm => ih _ (hm.wrBlock _ _)
  unfold putPage
  dsimp only
  split
  · exact h _ _ hm
  · exact h _ _ hm

@[simp] theorem pageMessage_mem (s : State) (kind : Nat) (dev : Nat) (part : Nat) (words : List Word) :
    (pageMessage s kind dev part words).mem = s.mem := by
  simp [pageMessage]

@[simp] theorem pageData_mem (s : State) (kind : Nat) (dev : Nat) (part : Nat) (words : List Word) (pa : Nat) (n : Nat) :
    (pageData s kind dev part words pa n).mem = s.mem := by
  simp [pageData]

@[simp] theorem takeLines_canon {Q : Prop} (s : State) (page : Nat) (excl : Bool) (hm : Canon Q s.mem) :
    Canon Q (takeLines s page excl).mem := by
  simp [takeLines, hm]

@[simp] theorem stepHome_canon {Q : Prop} (s : State) (page : Nat) (f : Frame) (hm : Canon Q s.mem) :
    Canon Q (stepHome s page f).mem := by
  simp only [stepHome]
  (repeat' split) <;> simp [hm]

@[simp] theorem stepProxy_canon {Q : Prop} (s : State) (page : Nat) (f : Frame) (hm : Canon Q s.mem) :
    Canon Q (stepProxy s page f).mem := by
  unfold stepProxy
  split <;> simp [hm]

@[simp] theorem failPage_mem (s : State) (page : Nat) : (failPage s page).mem = s.mem := by simp [failPage]

@[simp] theorem stepFrame_canon {Q : Prop} (s : State) (page : Nat) (hm : Canon Q s.mem) :
    Canon Q (stepFrame s page).mem := by
  unfold stepFrame
  split <;> simp [hm]

@[simp] theorem releaseStale_canon {Q : Prop} (s : State) (hm : Canon Q s.mem) : Canon Q (releaseStale s).mem := by
  simp only [releaseStale]
  split
  · exact hm
  · refine canon_foldl _ (fun s o hm => ?_) _ _ hm
    split
    · exact releaseHost_canon _ _ _ hm
    · exact hm

@[simp] theorem settleHome_canon {Q : Prop} (s : State) (hm : Canon Q s.mem) : Canon Q (settleHome s).mem := by simp +contextual [settleHome, hm]

@[simp] theorem appendForProxy_mem (s : State) (r : Packet) (pa : Nat) (rg : BitVec 256) :
    (appendForProxy s r pa rg).mem = s.mem := by
  simp [appendForProxy]

@[simp] theorem pageAsked_canon {Q : Prop} (s : State) (r : Packet) (hm : Canon Q s.mem) : (pageAsked s r).Canon Q := by
  unfold pageAsked
  split
  · next e => exact Canon.of_target_waits e (targetPieces_canon _ _ _ _ hm)
  · next e => exact Canon.of_target_fails e (targetPieces_canon _ _ _ _ hm)
  · next e =>
    have h := Canon.of_target_ok e (targetPieces_canon _ _ _ _ hm)
    split
    · exact h
    · split
      · exact h
      · split
        · simp [h]
        · split
          · split <;> simp [h]
          · exact h

@[simp] theorem pageEvent_ends {Q : Prop} (s : State) (p : Packet) (kind : Nat) (f : State → Packet → AtTarget (Nat × List Word))
    (hm : Canon Q s.mem) (hf : ∀ s, Canon Q s.mem → (f s p).Canon Q) : Ends Q (pageEvent s p kind f) := by
  obtain ⟨t, ht, h⟩ := targetEvent_ends s p kind f hm hf
  rw [pageEvent, ht]
  simp [h]

@[simp] theorem pageTaken_canon {Q : Prop} (g : State → Packet → State) (s : State) (p : Packet) (h : Canon Q (g s p).mem) :
    (pageTaken g s p).Canon Q := h

@[simp] theorem execPageReadRequest_ends {Q : Prop} (p : Packet) (s : State) (hm : Canon Q s.mem) : Ends Q (execPageReadRequest p s) :=
  pageEvent_ends _ _ _ _ hm fun s hm => pageAsked_canon s p hm

@[simp] theorem execPageExclusiveRequest_ends {Q : Prop} (p : Packet) (s : State) (hm : Canon Q s.mem) : Ends Q (execPageExclusiveRequest p s) :=
  pageEvent_ends _ _ _ _ hm fun s hm => pageAsked_canon s p hm

theorem mem_of_replyTo {s t : State} {p type : Nat} {m : Msg} {w : Word} {b : Option Block} (h : t = replyTo s p m type w b) : t.mem = s.mem := by
  rw [h, replyTo_mem]

@[simp] theorem pageArrives_canon {Q : Prop} (s : State) (p : Packet) (hm : Canon Q s.mem) : Canon Q (pageArrives s p).mem := by
  suffices h : ∀ t, t = pageArrives s p → Canon Q t.mem from h _ rfl
  intro t ht
  have hput : ∀ pa, Canon Q (putPage s pa p).mem := fun pa => putPage_canon s pa p hm
  unfold pageArrives at ht
  split at ht
  · rw [ht]
    exact hm
  · split at ht
    · rw [ht]
      exact hm
    · dsimp only at ht
      split at ht
      · rw [ht]
        refine wakePage_canon _ _ _ ?_
        rw [foldl_mem_of_eq]
        · simp [hm]
        · intro s m t h
          split at h
          · rw [h, failReply_mem]
          · rw [h, failReply_mem]
          · exact mem_of_replyTo h
      · rw [ht]
        refine wakePage_canon _ _ _ ?_
        split
        · rw [updFrame_mem]
          exact hput _
        · rw [pageMessage_mem, updFrame_mem]
          exact hput _

@[simp] theorem execPageData_ends {Q : Prop} (p : Packet) (s : State) (hm : Canon Q s.mem) : Ends Q (execPageData p s) :=
  pageEvent_ends _ _ _ _ hm fun s hm => pageTaken_canon _ _ _ (pageArrives_canon s p hm)

@[simp] theorem execPageRecall_ends {Q : Prop} (p : Packet) (s : State) (hm : Canon Q s.mem) : Ends Q (execPageRecall p s) := by
  refine pageEvent_ends _ _ _ _ hm fun s hm => pageTaken_canon _ _ _ ?_
  split <;> simp [hm]

@[simp] theorem recallOver_mem (s : State) (page : Nat) (dev : Nat) : (recallOver s page dev).mem = s.mem := by simp [recallOver]

@[simp] theorem execPageWriteBack_ends {Q : Prop} (p : Packet) (s : State) (hm : Canon Q s.mem) : Ends Q (execPageWriteBack p s) := by
  refine pageEvent_ends _ _ _ _ hm fun s hm => pageTaken_canon _ _ _ ?_
  split
  · exact hm
  · dsimp only
    split <;> simp [hm]

@[simp] theorem freeAnswered_canon {Q : Prop} (s : State) (h : Nat) (page : Nat) (x : Nat × Nat × Word) (hm : Canon Q s.mem) :
    Canon Q (freeAnswered s h page x).mem := by
  simp only [freeAnswered]
  (repeat' split) <;> simp [hm]

@[simp] theorem execPageAcknowledgement_ends {Q : Prop} (p : Packet) (s : State) (hm : Canon Q s.mem) : Ends Q (execPageAcknowledgement p s) := by
  refine pageEvent_ends _ _ _ _ hm fun s hm => pageTaken_canon _ _ _ ?_
  split
  · split <;> simp [hm]
  · simp [hm]

@[simp] theorem execRbind_ends {Q : Prop} (d a b : Reg) (s : State) (hm : Canon Q s.mem) : Ends Q (execRbind d a b s) := by
  refine privileged_ends _ _ _ hm ?_
  dsimp only
  split
  · simp [hm]
  · split
    · simp [hm]
    · split
      · simp [hm]
      · simp [hm]
      · simp [hm]
      · exact .finish (resolveRank_canon _ _ _ hm) fun _ s hm => by simp [hm]
      · simp [hm]

/-! ### Messages that arrive -/

@[simp] theorem homeEvent_ends {Q : Prop} (s : State) (k : Nat) (f : Msg → Bool) (hm : Canon Q s.mem) : Ends Q (homeEvent s k f) := by
  unfold homeEvent
  split
  · simp [hm]
  · split
    · simp [hm]
    · split
      · next e => exact (ends_next _).2 (settleHome_canon _ (homeMessage_canon e (by simp [hm])))
      · simp [hm]

@[simp] theorem execGets_ends {Q : Prop} (k : Nat) (s : State) (hm : Canon Q s.mem) : Ends Q (execGets k s) := by simp [execGets, hm]
@[simp] theorem execGetx_ends {Q : Prop} (k : Nat) (s : State) (hm : Canon Q s.mem) : Ends Q (execGetx k s) := by simp [execGetx, hm]
@[simp] theorem execUpg_ends {Q : Prop} (k : Nat) (s : State) (hm : Canon Q s.mem) : Ends Q (execUpg k s) := by simp [execUpg, hm]
@[simp] theorem execPutx_ends {Q : Prop} (k : Nat) (s : State) (hm : Canon Q s.mem) : Ends Q (execPutx k s) := by simp [execPutx, hm]
@[simp] theorem execPuts_ends {Q : Prop} (k : Nat) (s : State) (hm : Canon Q s.mem) : Ends Q (execPuts k s) := by simp [execPuts, hm]
@[simp] theorem execPutp_ends {Q : Prop} (k : Nat) (s : State) (hm : Canon Q s.mem) : Ends Q (execPutp k s) := by simp [execPutp, hm]
@[simp] theorem execAtom_ends {Q : Prop} (k : Nat) (s : State) (hm : Canon Q s.mem) : Ends Q (execAtom k s) := by simp [execAtom, hm]
@[simp] theorem execApnd_ends {Q : Prop} (k : Nat) (s : State) (hm : Canon Q s.mem) : Ends Q (execApnd k s) := by simp [execApnd, hm]
@[simp] theorem execApndFill_ends {Q : Prop} (k : Nat) (s : State) (hm : Canon Q s.mem) : Ends Q (execApndFill k s) := by simp [execApndFill, hm]
@[simp] theorem execArsv_ends {Q : Prop} (k : Nat) (s : State) (hm : Canon Q s.mem) : Ends Q (execArsv k s) := by simp [execArsv, hm]
@[simp] theorem execTailq_ends {Q : Prop} (k : Nat) (s : State) (hm : Canon Q s.mem) : Ends Q (execTailq k s) := by simp [execTailq, hm]
@[simp] theorem execSealqSeal_ends {Q : Prop} (k : Nat) (s : State) (hm : Canon Q s.mem) : Ends Q (execSealqSeal k s) := by simp [execSealqSeal, hm]
@[simp] theorem execSealqFree_ends {Q : Prop} (k : Nat) (s : State) (hm : Canon Q s.mem) : Ends Q (execSealqFree k s) := by simp [execSealqFree, hm]

@[simp] theorem execReplicateNotice_ends {Q : Prop} (k : Nat) (s : State) (hm : Canon Q s.mem) :
    Ends Q (execReplicateNotice k s) := by
  simp [execReplicateNotice, hm]

@[simp] theorem execReplicaInvalidate_ends {Q : Prop} (k : Nat) (s : State) (hm : Canon Q s.mem) :
    Ends Q (execReplicaInvalidate k s) := by
  simp [execReplicaInvalidate, hm]

@[simp] theorem execWbData_ends {Q : Prop} (k : Nat) (s : State) (hm : Canon Q s.mem) : Ends Q (execWbData k s) := by simp [execWbData, hm]
@[simp] theorem execInvAck_ends {Q : Prop} (k : Nat) (s : State) (hm : Canon Q s.mem) : Ends Q (execInvAck k s) := by simp [execInvAck, hm]

@[simp] theorem execCustomMessage_ends {Q : Prop} (k : Nat) (s : State) (hm : Canon Q s.mem) :
    Ends Q (execCustomMessage k s) := by
  unfold execCustomMessage
  split <;> simp [hm]

@[simp] theorem execHandlerWatchdog_ends {Q : Prop} (t : Nat) (s : State) (hm : Canon Q s.mem) : Ends Q (execHandlerWatchdog t s) := by
  have h : Canon Q (abortHandler s t .watchdog).mem := by simp [hm]
  unfold execHandlerWatchdog
  split
  · exact (ends_next _).2 (settleHome_canon _ (wakeProc_canon _ _ h))
  · simp [hm]

@[simp] theorem execTransientWatchdog_ends {Q : Prop} (p : Nat) (blk : Nat) (s : State) (hm : Canon Q s.mem) :
    Ends Q (execTransientWatchdog p blk s) := by
  simp only [execTransientWatchdog]
  (repeat' split) <;> simp [hm, -State.updProc_mem]

/-! ### Branches -/

@[simp] theorem branch_ends {Q : Prop} (n : Nat) (taken : Bool) (off : Word) (s : State) (hm : Canon Q s.mem) :
    Ends Q (branch n taken off s) := by
  simp [branch, hm]

@[simp] theorem jumpLink_ends {Q : Prop} (n : Nat) (a : Reg) (off : Word) (s : State) (hm : Canon Q s.mem) :
    Ends Q (jumpLink n a off s) := by
  simp [jumpLink, hm]

@[simp] theorem jumpReg_ends {Q : Prop} (n : Nat) (d : Reg) (a : Reg) (disp : Word) (s : State) (hm : Canon Q s.mem) :
    Ends Q (jumpReg n d a disp s) := by
  simp [jumpReg, hm]

@[simp] theorem execBz_ends {Q : Prop} (a : Reg) (off : BitVec 18) (s : State) (hm : Canon Q s.mem) : Ends Q (execBz a off s) := by simp [execBz, hm]
@[simp] theorem execBzLit_ends {Q : Prop} (a : Reg) (x : Word) (s : State) (hm : Canon Q s.mem) : Ends Q (execBzLit a x s) := by simp [execBzLit, hm]

@[simp] theorem execBnz_ends {Q : Prop} (a : Reg) (off : BitVec 18) (s : State) (hm : Canon Q s.mem) :
    Ends Q (execBnz a off s) := by
  simp [execBnz, hm]

@[simp] theorem execBnzLit_ends {Q : Prop} (a : Reg) (x : Word) (s : State) (hm : Canon Q s.mem) :
    Ends Q (execBnzLit a x s) := by
  simp [execBnzLit, hm]

@[simp] theorem execJal_ends {Q : Prop} (a : Reg) (off : BitVec 18) (s : State) (hm : Canon Q s.mem) :
    Ends Q (execJal a off s) := by
  simp [execJal, hm]

@[simp] theorem execJalLit_ends {Q : Prop} (a : Reg) (x : Word) (s : State) (hm : Canon Q s.mem) :
    Ends Q (execJalLit a x s) := by
  simp [execJalLit, hm]

@[simp] theorem execBeq_ends {Q : Prop} (a : Reg) (b : Reg) (off : BitVec 32) (s : State) (hm : Canon Q s.mem) :
    Ends Q (execBeq a b off s) := by
  simp [execBeq, hm]

@[simp] theorem execBne_ends {Q : Prop} (a : Reg) (b : Reg) (off : BitVec 32) (s : State) (hm : Canon Q s.mem) :
    Ends Q (execBne a b off s) := by
  simp [execBne, hm]

@[simp] theorem execBlt_ends {Q : Prop} (a : Reg) (b : Reg) (off : BitVec 32) (s : State) (hm : Canon Q s.mem) :
    Ends Q (execBlt a b off s) := by
  simp [execBlt, hm]

@[simp] theorem execBge_ends {Q : Prop} (a : Reg) (b : Reg) (off : BitVec 32) (s : State) (hm : Canon Q s.mem) :
    Ends Q (execBge a b off s) := by
  simp [execBge, hm]

@[simp] theorem execBltu_ends {Q : Prop} (a : Reg) (b : Reg) (off : BitVec 32) (s : State) (hm : Canon Q s.mem) :
    Ends Q (execBltu a b off s) := by
  simp [execBltu, hm]

@[simp] theorem execBgeu_ends {Q : Prop} (a : Reg) (b : Reg) (off : BitVec 32) (s : State) (hm : Canon Q s.mem) :
    Ends Q (execBgeu a b off s) := by
  simp [execBgeu, hm]

@[simp] theorem execJalr_ends {Q : Prop} (d : Reg) (a : Reg) (s : State) (hm : Canon Q s.mem) : Ends Q (execJalr d a s) := by simp [execJalr, hm]

@[simp] theorem execJalrDisp_ends {Q : Prop} (d : Reg) (a : Reg) (disp : BitVec 32) (s : State) (hm : Canon Q s.mem) :
    Ends Q (execJalrDisp d a disp s) := by
  simp [execJalrDisp, hm]

@[simp] theorem execBany_ends {Q : Prop} (a : Reg) (b : Reg) (off : BitVec 32) (s : State) (hm : Canon Q s.mem) :
    Ends Q (execBany a b off s) := by
  simp [execBany, hm]

@[simp] theorem execBnone_ends {Q : Prop} (a : Reg) (b : Reg) (off : BitVec 32) (s : State) (hm : Canon Q s.mem) :
    Ends Q (execBnone a b off s) := by
  simp [execBnone, hm]

@[simp] theorem execBall_ends {Q : Prop} (a : Reg) (b : Reg) (off : BitVec 32) (s : State) (hm : Canon Q s.mem) :
    Ends Q (execBall a b off s) := by
  simp [execBall, hm]

@[simp] theorem execBnall_ends {Q : Prop} (a : Reg) (b : Reg) (off : BitVec 32) (s : State) (hm : Canon Q s.mem) :
    Ends Q (execBnall a b off s) := by
  simp [execBnall, hm]

/-! ### Floating-point instructions -/

@[simp] theorem fpResult_ends {Q : Prop} (n : Nat) (d : Reg) (r : Rnd) (s : State) (hm : Canon Q s.mem) :
    Ends Q (fpResult n d r s) := by
  simp [fpResult, hm]

@[simp] theorem fpTwo_ends {Q : Prop} (n : Nat) (f : Fmt → Rm → Nat → Nat → Rnd) (t : FpType) (d : Reg) (a : Word) (b : Word) (s : State)
    (hm : Canon Q s.mem) :
    Ends Q (fpTwo n f t d a b s) := by
  simp [fpTwo, hm]

@[simp] theorem fpCompare_ends {Q : Prop} (ordered : Bool) (ok : Ordering → Bool) (t : FpType) (d : Reg) (a : Reg) (b : Reg) (s : State)
    (hm : Canon Q s.mem) :
    Ends Q (fpCompare ordered ok t d a b s) := by
  simp [fpCompare, hm]

@[simp] theorem execFadd_ends {Q : Prop} (t : FpType) (d : Reg) (a : Reg) (b : Reg) (s : State) (hm : Canon Q s.mem) :
    Ends Q (execFadd t d a b s) := by
  simp [execFadd, hm]

@[simp] theorem execFaddLit_ends {Q : Prop} (t : FpType) (d : Reg) (a : Reg) (x : Word) (s : State) (hm : Canon Q s.mem) :
    Ends Q (execFaddLit t d a x s) := by
  simp [execFaddLit, hm]

@[simp] theorem execFsub_ends {Q : Prop} (t : FpType) (d : Reg) (a : Reg) (b : Reg) (s : State) (hm : Canon Q s.mem) :
    Ends Q (execFsub t d a b s) := by
  simp [execFsub, hm]

@[simp] theorem execFsubLit_ends {Q : Prop} (t : FpType) (d : Reg) (a : Reg) (x : Word) (s : State) (hm : Canon Q s.mem) :
    Ends Q (execFsubLit t d a x s) := by
  simp [execFsubLit, hm]

@[simp] theorem execFmul_ends {Q : Prop} (t : FpType) (d : Reg) (a : Reg) (b : Reg) (s : State) (hm : Canon Q s.mem) :
    Ends Q (execFmul t d a b s) := by
  simp [execFmul, hm]

@[simp] theorem execFmulLit_ends {Q : Prop} (t : FpType) (d : Reg) (a : Reg) (x : Word) (s : State) (hm : Canon Q s.mem) :
    Ends Q (execFmulLit t d a x s) := by
  simp [execFmulLit, hm]

@[simp] theorem execFdiv_ends {Q : Prop} (t : FpType) (d : Reg) (a : Reg) (b : Reg) (s : State) (hm : Canon Q s.mem) :
    Ends Q (execFdiv t d a b s) := by
  simp [execFdiv, hm]

@[simp] theorem execFdivLit_ends {Q : Prop} (t : FpType) (d : Reg) (a : Reg) (x : Word) (s : State) (hm : Canon Q s.mem) :
    Ends Q (execFdivLit t d a x s) := by
  simp [execFdivLit, hm]

@[simp] theorem execFmin_ends {Q : Prop} (t : FpType) (d : Reg) (a : Reg) (b : Reg) (s : State) (hm : Canon Q s.mem) :
    Ends Q (execFmin t d a b s) := by
  simp [execFmin, hm]

@[simp] theorem execFminLit_ends {Q : Prop} (t : FpType) (d : Reg) (a : Reg) (x : Word) (s : State) (hm : Canon Q s.mem) :
    Ends Q (execFminLit t d a x s) := by
  simp [execFminLit, hm]

@[simp] theorem execFmax_ends {Q : Prop} (t : FpType) (d : Reg) (a : Reg) (b : Reg) (s : State) (hm : Canon Q s.mem) :
    Ends Q (execFmax t d a b s) := by
  simp [execFmax, hm]

@[simp] theorem execFmaxLit_ends {Q : Prop} (t : FpType) (d : Reg) (a : Reg) (x : Word) (s : State) (hm : Canon Q s.mem) :
    Ends Q (execFmaxLit t d a x s) := by
  simp [execFmaxLit, hm]

@[simp] theorem execFsqrt_ends {Q : Prop} (t : FpType) (d : Reg) (a : Reg) (s : State) (hm : Canon Q s.mem) :
    Ends Q (execFsqrt t d a s) := by
  simp [execFsqrt, hm]

@[simp] theorem execFneg_ends {Q : Prop} (t : FpType) (d : Reg) (a : Reg) (s : State) (hm : Canon Q s.mem) :
    Ends Q (execFneg t d a s) := by
  simp [execFneg, hm]

@[simp] theorem execFabs_ends {Q : Prop} (t : FpType) (d : Reg) (a : Reg) (s : State) (hm : Canon Q s.mem) :
    Ends Q (execFabs t d a s) := by
  simp [execFabs, hm]

@[simp] theorem execFma_ends {Q : Prop} (t : FpType) (d : Reg) (a : Reg) (b : Reg) (c : Reg) (s : State) (hm : Canon Q s.mem) :
    Ends Q (execFma t d a b c s) := by
  simp [execFma, hm]

@[simp] theorem execFnma_ends {Q : Prop} (t : FpType) (d : Reg) (a : Reg) (b : Reg) (c : Reg) (s : State) (hm : Canon Q s.mem) :
    Ends Q (execFnma t d a b c s) := by
  simp [execFnma, hm]

@[simp] theorem execFeq_ends {Q : Prop} (t : FpType) (d : Reg) (a : Reg) (b : Reg) (s : State) (hm : Canon Q s.mem) :
    Ends Q (execFeq t d a b s) := by
  simp [execFeq, hm]

@[simp] theorem execFlt_ends {Q : Prop} (t : FpType) (d : Reg) (a : Reg) (b : Reg) (s : State) (hm : Canon Q s.mem) :
    Ends Q (execFlt t d a b s) := by
  simp [execFlt, hm]

@[simp] theorem execFle_ends {Q : Prop} (t : FpType) (d : Reg) (a : Reg) (b : Reg) (s : State) (hm : Canon Q s.mem) :
    Ends Q (execFle t d a b s) := by
  simp [execFle, hm]

@[simp] theorem execFclass_ends {Q : Prop} (t : FpType) (d : Reg) (a : Reg) (s : State) (hm : Canon Q s.mem) :
    Ends Q (execFclass t d a s) := by
  simp [execFclass, hm]

@[simp] theorem execFcvt_ends {Q : Prop} (tgt : CvtCode) (src : CvtCode) (d : Reg) (a : Reg) (s : State) (hm : Canon Q s.mem) :
    Ends Q (execFcvt tgt src d a s) := by
  unfold execFcvt
  split <;> simp [hm, -State.setSlot_mem]

/-! ### Integer instructions -/

@[simp] theorem execAdd_ends {Q : Prop} (d : Reg) (a : Reg) (b : Reg) (s : State) (hm : Canon Q s.mem) :
    Ends Q (execAdd d a b s) := by
  simp [execAdd, hm]

@[simp] theorem execAddLit_ends {Q : Prop} (d : Reg) (a : Reg) (x : Word) (s : State) (hm : Canon Q s.mem) :
    Ends Q (execAddLit d a x s) := by
  simp [execAddLit, hm]

@[simp] theorem execSub_ends {Q : Prop} (d : Reg) (a : Reg) (b : Reg) (s : State) (hm : Canon Q s.mem) :
    Ends Q (execSub d a b s) := by
  simp [execSub, hm]

@[simp] theorem execSubLit_ends {Q : Prop} (d : Reg) (a : Reg) (x : Word) (s : State) (hm : Canon Q s.mem) :
    Ends Q (execSubLit d a x s) := by
  simp [execSubLit, hm]

@[simp] theorem execAnd_ends {Q : Prop} (d : Reg) (a : Reg) (b : Reg) (s : State) (hm : Canon Q s.mem) :
    Ends Q (execAnd d a b s) := by
  simp [execAnd, hm]

@[simp] theorem execAndLit_ends {Q : Prop} (d : Reg) (a : Reg) (x : Word) (s : State) (hm : Canon Q s.mem) :
    Ends Q (execAndLit d a x s) := by
  simp [execAndLit, hm]

@[simp] theorem execOr_ends {Q : Prop} (d : Reg) (a : Reg) (b : Reg) (s : State) (hm : Canon Q s.mem) :
    Ends Q (execOr d a b s) := by
  simp [execOr, hm]

@[simp] theorem execOrLit_ends {Q : Prop} (d : Reg) (a : Reg) (x : Word) (s : State) (hm : Canon Q s.mem) :
    Ends Q (execOrLit d a x s) := by
  simp [execOrLit, hm]

@[simp] theorem execXor_ends {Q : Prop} (d : Reg) (a : Reg) (b : Reg) (s : State) (hm : Canon Q s.mem) :
    Ends Q (execXor d a b s) := by
  simp [execXor, hm]

@[simp] theorem execXorLit_ends {Q : Prop} (d : Reg) (a : Reg) (x : Word) (s : State) (hm : Canon Q s.mem) :
    Ends Q (execXorLit d a x s) := by
  simp [execXorLit, hm]

@[simp] theorem execAndn_ends {Q : Prop} (d : Reg) (a : Reg) (b : Reg) (s : State) (hm : Canon Q s.mem) :
    Ends Q (execAndn d a b s) := by
  simp [execAndn, hm]

@[simp] theorem execAndnLit_ends {Q : Prop} (d : Reg) (a : Reg) (x : Word) (s : State) (hm : Canon Q s.mem) :
    Ends Q (execAndnLit d a x s) := by
  simp [execAndnLit, hm]

@[simp] theorem execSll_ends {Q : Prop} (d : Reg) (a : Reg) (b : Reg) (s : State) (hm : Canon Q s.mem) :
    Ends Q (execSll d a b s) := by
  simp [execSll, hm]

@[simp] theorem execSllLit_ends {Q : Prop} (d : Reg) (a : Reg) (x : Word) (s : State) (hm : Canon Q s.mem) :
    Ends Q (execSllLit d a x s) := by
  simp [execSllLit, hm]

@[simp] theorem execSrl_ends {Q : Prop} (d : Reg) (a : Reg) (b : Reg) (s : State) (hm : Canon Q s.mem) :
    Ends Q (execSrl d a b s) := by
  simp [execSrl, hm]

@[simp] theorem execSrlLit_ends {Q : Prop} (d : Reg) (a : Reg) (x : Word) (s : State) (hm : Canon Q s.mem) :
    Ends Q (execSrlLit d a x s) := by
  simp [execSrlLit, hm]

@[simp] theorem execSra_ends {Q : Prop} (d : Reg) (a : Reg) (b : Reg) (s : State) (hm : Canon Q s.mem) :
    Ends Q (execSra d a b s) := by
  simp [execSra, hm]

@[simp] theorem execSraLit_ends {Q : Prop} (d : Reg) (a : Reg) (x : Word) (s : State) (hm : Canon Q s.mem) :
    Ends Q (execSraLit d a x s) := by
  simp [execSraLit, hm]

@[simp] theorem execRor_ends {Q : Prop} (d : Reg) (a : Reg) (b : Reg) (s : State) (hm : Canon Q s.mem) :
    Ends Q (execRor d a b s) := by
  simp [execRor, hm]

@[simp] theorem execRorLit_ends {Q : Prop} (d : Reg) (a : Reg) (x : Word) (s : State) (hm : Canon Q s.mem) :
    Ends Q (execRorLit d a x s) := by
  simp [execRorLit, hm]

@[simp] theorem execSlt_ends {Q : Prop} (d : Reg) (a : Reg) (b : Reg) (s : State) (hm : Canon Q s.mem) :
    Ends Q (execSlt d a b s) := by
  simp [execSlt, hm]

@[simp] theorem execSltLit_ends {Q : Prop} (d : Reg) (a : Reg) (x : Word) (s : State) (hm : Canon Q s.mem) :
    Ends Q (execSltLit d a x s) := by
  simp [execSltLit, hm]

@[simp] theorem execSltu_ends {Q : Prop} (d : Reg) (a : Reg) (b : Reg) (s : State) (hm : Canon Q s.mem) :
    Ends Q (execSltu d a b s) := by
  simp [execSltu, hm]

@[simp] theorem execSltuLit_ends {Q : Prop} (d : Reg) (a : Reg) (x : Word) (s : State) (hm : Canon Q s.mem) :
    Ends Q (execSltuLit d a x s) := by
  simp [execSltuLit, hm]

@[simp] theorem execSeq_ends {Q : Prop} (d : Reg) (a : Reg) (b : Reg) (s : State) (hm : Canon Q s.mem) :
    Ends Q (execSeq d a b s) := by
  simp [execSeq, hm]

@[simp] theorem execSeqLit_ends {Q : Prop} (d : Reg) (a : Reg) (x : Word) (s : State) (hm : Canon Q s.mem) :
    Ends Q (execSeqLit d a x s) := by
  simp [execSeqLit, hm]

@[simp] theorem execMin_ends {Q : Prop} (d : Reg) (a : Reg) (b : Reg) (s : State) (hm : Canon Q s.mem) :
    Ends Q (execMin d a b s) := by
  simp [execMin, hm]

@[simp] theorem execMinLit_ends {Q : Prop} (d : Reg) (a : Reg) (x : Word) (s : State) (hm : Canon Q s.mem) :
    Ends Q (execMinLit d a x s) := by
  simp [execMinLit, hm]

@[simp] theorem execMax_ends {Q : Prop} (d : Reg) (a : Reg) (b : Reg) (s : State) (hm : Canon Q s.mem) :
    Ends Q (execMax d a b s) := by
  simp [execMax, hm]

@[simp] theorem execMaxLit_ends {Q : Prop} (d : Reg) (a : Reg) (x : Word) (s : State) (hm : Canon Q s.mem) :
    Ends Q (execMaxLit d a x s) := by
  simp [execMaxLit, hm]

@[simp] theorem execMinu_ends {Q : Prop} (d : Reg) (a : Reg) (b : Reg) (s : State) (hm : Canon Q s.mem) :
    Ends Q (execMinu d a b s) := by
  simp [execMinu, hm]

@[simp] theorem execMinuLit_ends {Q : Prop} (d : Reg) (a : Reg) (x : Word) (s : State) (hm : Canon Q s.mem) :
    Ends Q (execMinuLit d a x s) := by
  simp [execMinuLit, hm]

@[simp] theorem execMaxu_ends {Q : Prop} (d : Reg) (a : Reg) (b : Reg) (s : State) (hm : Canon Q s.mem) :
    Ends Q (execMaxu d a b s) := by
  simp [execMaxu, hm]

@[simp] theorem execMaxuLit_ends {Q : Prop} (d : Reg) (a : Reg) (x : Word) (s : State) (hm : Canon Q s.mem) :
    Ends Q (execMaxuLit d a x s) := by
  simp [execMaxuLit, hm]

@[simp] theorem execMul_ends {Q : Prop} (d : Reg) (a : Reg) (b : Reg) (s : State) (hm : Canon Q s.mem) :
    Ends Q (execMul d a b s) := by
  simp [execMul, hm]

@[simp] theorem execMulLit_ends {Q : Prop} (d : Reg) (a : Reg) (x : Word) (s : State) (hm : Canon Q s.mem) :
    Ends Q (execMulLit d a x s) := by
  simp [execMulLit, hm]

@[simp] theorem execMulh_ends {Q : Prop} (d : Reg) (a : Reg) (b : Reg) (s : State) (hm : Canon Q s.mem) :
    Ends Q (execMulh d a b s) := by
  simp [execMulh, hm]

@[simp] theorem execMulhLit_ends {Q : Prop} (d : Reg) (a : Reg) (x : Word) (s : State) (hm : Canon Q s.mem) :
    Ends Q (execMulhLit d a x s) := by
  simp [execMulhLit, hm]

@[simp] theorem execMulhu_ends {Q : Prop} (d : Reg) (a : Reg) (b : Reg) (s : State) (hm : Canon Q s.mem) :
    Ends Q (execMulhu d a b s) := by
  simp [execMulhu, hm]

@[simp] theorem execMulhuLit_ends {Q : Prop} (d : Reg) (a : Reg) (x : Word) (s : State) (hm : Canon Q s.mem) :
    Ends Q (execMulhuLit d a x s) := by
  simp [execMulhuLit, hm]

@[simp] theorem execDiv_ends {Q : Prop} (d : Reg) (a : Reg) (b : Reg) (s : State) (hm : Canon Q s.mem) :
    Ends Q (execDiv d a b s) := by
  simp [execDiv, hm]

@[simp] theorem execDivLit_ends {Q : Prop} (d : Reg) (a : Reg) (x : Word) (s : State) (hm : Canon Q s.mem) :
    Ends Q (execDivLit d a x s) := by
  simp [execDivLit, hm]

@[simp] theorem execDivu_ends {Q : Prop} (d : Reg) (a : Reg) (b : Reg) (s : State) (hm : Canon Q s.mem) :
    Ends Q (execDivu d a b s) := by
  simp [execDivu, hm]

@[simp] theorem execDivuLit_ends {Q : Prop} (d : Reg) (a : Reg) (x : Word) (s : State) (hm : Canon Q s.mem) :
    Ends Q (execDivuLit d a x s) := by
  simp [execDivuLit, hm]

@[simp] theorem execRem_ends {Q : Prop} (d : Reg) (a : Reg) (b : Reg) (s : State) (hm : Canon Q s.mem) :
    Ends Q (execRem d a b s) := by
  simp [execRem, hm]

@[simp] theorem execRemLit_ends {Q : Prop} (d : Reg) (a : Reg) (x : Word) (s : State) (hm : Canon Q s.mem) :
    Ends Q (execRemLit d a x s) := by
  simp [execRemLit, hm]

@[simp] theorem execRemu_ends {Q : Prop} (d : Reg) (a : Reg) (b : Reg) (s : State) (hm : Canon Q s.mem) :
    Ends Q (execRemu d a b s) := by
  simp [execRemu, hm]

@[simp] theorem execRemuLit_ends {Q : Prop} (d : Reg) (a : Reg) (x : Word) (s : State) (hm : Canon Q s.mem) :
    Ends Q (execRemuLit d a x s) := by
  simp [execRemuLit, hm]

@[simp] theorem execAddi_ends {Q : Prop} (d : Reg) (a : Reg) (imm : BitVec 13) (s : State) (hm : Canon Q s.mem) :
    Ends Q (execAddi d a imm s) := by
  simp [execAddi, hm]

@[simp] theorem execAndi_ends {Q : Prop} (d : Reg) (a : Reg) (imm : BitVec 13) (s : State) (hm : Canon Q s.mem) :
    Ends Q (execAndi d a imm s) := by
  simp [execAndi, hm]

@[simp] theorem execSlli_ends {Q : Prop} (d : Reg) (a : Reg) (n : Fin 64) (s : State) (hm : Canon Q s.mem) :
    Ends Q (execSlli d a n s) := by
  simp [execSlli, hm]

@[simp] theorem execSrli_ends {Q : Prop} (d : Reg) (a : Reg) (n : Fin 64) (s : State) (hm : Canon Q s.mem) :
    Ends Q (execSrli d a n s) := by
  simp [execSrli, hm]

@[simp] theorem execSrai_ends {Q : Prop} (d : Reg) (a : Reg) (n : Fin 64) (s : State) (hm : Canon Q s.mem) :
    Ends Q (execSrai d a n s) := by
  simp [execSrai, hm]

@[simp] theorem execRori_ends {Q : Prop} (d : Reg) (a : Reg) (n : Fin 64) (s : State) (hm : Canon Q s.mem) :
    Ends Q (execRori d a n s) := by
  simp [execRori, hm]

@[simp] theorem execClz_ends {Q : Prop} (d : Reg) (a : Reg) (s : State) (hm : Canon Q s.mem) : Ends Q (execClz d a s) := by simp [execClz, hm]
@[simp] theorem execCtz_ends {Q : Prop} (d : Reg) (a : Reg) (s : State) (hm : Canon Q s.mem) : Ends Q (execCtz d a s) := by simp [execCtz, hm]
@[simp] theorem execPopc_ends {Q : Prop} (d : Reg) (a : Reg) (s : State) (hm : Canon Q s.mem) : Ends Q (execPopc d a s) := by simp [execPopc, hm]
@[simp] theorem execBrev_ends {Q : Prop} (d : Reg) (a : Reg) (s : State) (hm : Canon Q s.mem) : Ends Q (execBrev d a s) := by simp [execBrev, hm]
@[simp] theorem execBswap_ends {Q : Prop} (d : Reg) (a : Reg) (s : State) (hm : Canon Q s.mem) : Ends Q (execBswap d a s) := by simp [execBswap, hm]
@[simp] theorem execLowb_ends {Q : Prop} (d : Reg) (a : Reg) (s : State) (hm : Canon Q s.mem) : Ends Q (execLowb d a s) := by simp [execLowb, hm]

@[simp] theorem execClrlow_ends {Q : Prop} (d : Reg) (a : Reg) (s : State) (hm : Canon Q s.mem) :
    Ends Q (execClrlow d a s) := by
  simp [execClrlow, hm]

@[simp] theorem execMaskn_ends {Q : Prop} (d : Reg) (a : Reg) (s : State) (hm : Canon Q s.mem) : Ends Q (execMaskn d a s) := by simp [execMaskn, hm]

@[simp] theorem execBset_ends {Q : Prop} (d : Reg) (a : Reg) (b : Reg) (s : State) (hm : Canon Q s.mem) :
    Ends Q (execBset d a b s) := by
  simp [execBset, hm]

@[simp] theorem execBsetLit_ends {Q : Prop} (d : Reg) (a : Reg) (x : Word) (s : State) (hm : Canon Q s.mem) :
    Ends Q (execBsetLit d a x s) := by
  simp [execBsetLit, hm]

@[simp] theorem execBclr_ends {Q : Prop} (d : Reg) (a : Reg) (b : Reg) (s : State) (hm : Canon Q s.mem) :
    Ends Q (execBclr d a b s) := by
  simp [execBclr, hm]

@[simp] theorem execBclrLit_ends {Q : Prop} (d : Reg) (a : Reg) (x : Word) (s : State) (hm : Canon Q s.mem) :
    Ends Q (execBclrLit d a x s) := by
  simp [execBclrLit, hm]

@[simp] theorem execBinv_ends {Q : Prop} (d : Reg) (a : Reg) (b : Reg) (s : State) (hm : Canon Q s.mem) :
    Ends Q (execBinv d a b s) := by
  simp [execBinv, hm]

@[simp] theorem execBinvLit_ends {Q : Prop} (d : Reg) (a : Reg) (x : Word) (s : State) (hm : Canon Q s.mem) :
    Ends Q (execBinvLit d a x s) := by
  simp [execBinvLit, hm]

@[simp] theorem execBext_ends {Q : Prop} (d : Reg) (a : Reg) (b : Reg) (s : State) (hm : Canon Q s.mem) :
    Ends Q (execBext d a b s) := by
  simp [execBext, hm]

@[simp] theorem execBextLit_ends {Q : Prop} (d : Reg) (a : Reg) (x : Word) (s : State) (hm : Canon Q s.mem) :
    Ends Q (execBextLit d a x s) := by
  simp [execBextLit, hm]

@[simp] theorem execExtu_ends {Q : Prop} (d : Reg) (a : Reg) (pos : Fin 64) (len1 : Fin 64) (s : State) (hm : Canon Q s.mem) :
    Ends Q (execExtu d a pos len1 s) := by
  simp [execExtu, hm]

@[simp] theorem execExts_ends {Q : Prop} (d : Reg) (a : Reg) (pos : Fin 64) (len1 : Fin 64) (s : State) (hm : Canon Q s.mem) :
    Ends Q (execExts d a pos len1 s) := by
  simp [execExts, hm]

@[simp] theorem execFins_ends {Q : Prop} (d : Reg) (a : Reg) (pos : Fin 64) (len1 : Fin 64) (s : State) (hm : Canon Q s.mem) :
    Ends Q (execFins d a pos len1 s) := by
  simp [execFins, hm]

@[simp] theorem execHdrGet_ends {Q : Prop} (d : Reg) (a : Reg) (pos : Fin 512) (len1 : Fin 64) (s : State) (hm : Canon Q s.mem) :
    Ends Q (execHdrGet d a pos len1 s) := by
  simp [execHdrGet, hm]

@[simp] theorem execHdrGets_ends {Q : Prop} (d : Reg) (a : Reg) (pos : Fin 512) (len1 : Fin 64) (s : State) (hm : Canon Q s.mem) :
    Ends Q (execHdrGets d a pos len1 s) := by
  simp [execHdrGets, hm]

@[simp] theorem execHdrSet_ends {Q : Prop} (a : Reg) (b : Reg) (pos : Fin 512) (len1 : Fin 64) (s : State) (hm : Canon Q s.mem) :
    Ends Q (execHdrSet a b pos len1 s) := by
  simp [execHdrSet, hm]

@[simp] theorem execHdrMatch_ends {Q : Prop} (d : Reg) (a : Reg) (b : Reg) (pos : Fin 512) (len1 : Fin 64) (s : State) (hm : Canon Q s.mem) :
    Ends Q (execHdrMatch d a b pos len1 s) := by
  simp [execHdrMatch, hm]

@[simp] theorem execHdrClr_ends {Q : Prop} (a : Reg) (s : State) (hm : Canon Q s.mem) : Ends Q (execHdrClr a s) := by simp [execHdrClr, hm]
@[simp] theorem execLi_ends {Q : Prop} (d : Reg) (imm : BitVec 18) (s : State) (hm : Canon Q s.mem) : Ends Q (execLi d imm s) := by simp [execLi, hm]
@[simp] theorem execLiLit_ends {Q : Prop} (d : Reg) (x : Word) (s : State) (hm : Canon Q s.mem) : Ends Q (execLiLit d x s) := by simp [execLiLit, hm]
@[simp] theorem execLa_ends {Q : Prop} (d : Reg) (imm : BitVec 18) (s : State) (hm : Canon Q s.mem) : Ends Q (execLa d imm s) := by simp [execLa, hm]
@[simp] theorem execLaLit_ends {Q : Prop} (d : Reg) (x : Word) (s : State) (hm : Canon Q s.mem) : Ends Q (execLaLit d x s) := by simp [execLaLit, hm]

@[simp] theorem execSelnz_ends {Q : Prop} (d : Reg) (a : Reg) (b : Reg) (c : Reg) (s : State) (hm : Canon Q s.mem) :
    Ends Q (execSelnz d a b c s) := by
  simp [execSelnz, hm]

@[simp] theorem execSelz_ends {Q : Prop} (d : Reg) (a : Reg) (b : Reg) (c : Reg) (s : State) (hm : Canon Q s.mem) :
    Ends Q (execSelz d a b c s) := by
  simp [execSelz, hm]

@[simp] theorem execMadd_ends {Q : Prop} (d : Reg) (a : Reg) (b : Reg) (c : Reg) (s : State) (hm : Canon Q s.mem) :
    Ends Q (execMadd d a b c s) := by
  simp [execMadd, hm]

@[simp] theorem execMsub_ends {Q : Prop} (d : Reg) (a : Reg) (b : Reg) (c : Reg) (s : State) (hm : Canon Q s.mem) :
    Ends Q (execMsub d a b c s) := by
  simp [execMsub, hm]

/-! ### Vector instructions -/

@[simp] theorem vecInstr_ends {Q : Prop} (n : Nat) (ty : ElType) (m : Reg) (d : Reg) (f : Nat → LaneRes) (s : State) (hm : Canon Q s.mem) :
    Ends Q (vecInstr n ty m d f s) := by
  simp [vecInstr, hm]

@[simp] theorem vecTwo_ends {Q : Prop} (n : Nat) (ty : ElType) (m : Reg) (d : Reg) (a : Reg) (b : Reg) (bs : Bool) (un : Bool) (sat : Bool)
    (f : ℤ → ℤ → ℤ) (g : Fmt → Rm → Nat → Nat → Rnd) (s : State) (hm : Canon Q s.mem) :
    Ends Q (vecTwo n ty m d a b bs un sat f g s) := by
  simp [vecTwo, hm]

@[simp] theorem vecBits_ends {Q : Prop} (n : Nat) (ty : ElType) (m : Reg) (d : Reg) (a : Reg) (b : Reg) (bs : Bool) (f : Nat → Nat → Nat)
    (s : State) (hm : Canon Q s.mem) :
    Ends Q (vecBits n ty m d a b bs f s) := by
  simp [vecBits, hm]

@[simp] theorem execVadd_ends {Q : Prop} (ty : ElType) (m : Reg) (d : Reg) (a : Reg) (b : Reg) (s : State) (hm : Canon Q s.mem) :
    Ends Q (execVadd ty m d a b s) := by
  simp [execVadd, hm]

@[simp] theorem execVaddX_ends {Q : Prop} (ty : ElType) (m : Reg) (d : Reg) (a : Reg) (b : Reg) (bs : Bool) (un : Bool) (sat : Bool) (s : State)
    (hm : Canon Q s.mem) :
    Ends Q (execVaddX ty m d a b bs un sat s) := by
  simp [execVaddX, hm]

@[simp] theorem execVsub_ends {Q : Prop} (ty : ElType) (m : Reg) (d : Reg) (a : Reg) (b : Reg) (s : State) (hm : Canon Q s.mem) :
    Ends Q (execVsub ty m d a b s) := by
  simp [execVsub, hm]

@[simp] theorem execVsubX_ends {Q : Prop} (ty : ElType) (m : Reg) (d : Reg) (a : Reg) (b : Reg) (bs : Bool) (un : Bool) (sat : Bool) (s : State)
    (hm : Canon Q s.mem) :
    Ends Q (execVsubX ty m d a b bs un sat s) := by
  simp [execVsubX, hm]

@[simp] theorem execVmul_ends {Q : Prop} (ty : ElType) (m : Reg) (d : Reg) (a : Reg) (b : Reg) (s : State) (hm : Canon Q s.mem) :
    Ends Q (execVmul ty m d a b s) := by
  simp [execVmul, hm]

@[simp] theorem execVmulX_ends {Q : Prop} (ty : ElType) (m : Reg) (d : Reg) (a : Reg) (b : Reg) (bs : Bool) (s : State) (hm : Canon Q s.mem) :
    Ends Q (execVmulX ty m d a b bs s) := by
  simp [execVmulX, hm]

@[simp] theorem vecHigh_ends {Q : Prop} (n : Nat) (ty : ElType) (m : Reg) (d : Reg) (a : Reg) (b : Reg) (bs : Bool) (un : Bool) (s : State)
    (hm : Canon Q s.mem) :
    Ends Q (vecHigh n ty m d a b bs un s) := by
  simp [vecHigh, hm]

@[simp] theorem execVmulh_ends {Q : Prop} (ty : ElType) (m : Reg) (d : Reg) (a : Reg) (b : Reg) (s : State) (hm : Canon Q s.mem) :
    Ends Q (execVmulh ty m d a b s) := by
  simp [execVmulh, hm]

@[simp] theorem execVmulhX_ends {Q : Prop} (ty : ElType) (m : Reg) (d : Reg) (a : Reg) (b : Reg) (bs : Bool) (un : Bool) (s : State)
    (hm : Canon Q s.mem) :
    Ends Q (execVmulhX ty m d a b bs un s) := by
  simp [execVmulhX, hm]

@[simp] theorem execVmin_ends {Q : Prop} (ty : ElType) (m : Reg) (d : Reg) (a : Reg) (b : Reg) (s : State) (hm : Canon Q s.mem) :
    Ends Q (execVmin ty m d a b s) := by
  simp [execVmin, hm]

@[simp] theorem execVminX_ends {Q : Prop} (ty : ElType) (m : Reg) (d : Reg) (a : Reg) (b : Reg) (bs : Bool) (un : Bool) (s : State)
    (hm : Canon Q s.mem) :
    Ends Q (execVminX ty m d a b bs un s) := by
  simp [execVminX, hm]

@[simp] theorem execVmax_ends {Q : Prop} (ty : ElType) (m : Reg) (d : Reg) (a : Reg) (b : Reg) (s : State) (hm : Canon Q s.mem) :
    Ends Q (execVmax ty m d a b s) := by
  simp [execVmax, hm]

@[simp] theorem execVmaxX_ends {Q : Prop} (ty : ElType) (m : Reg) (d : Reg) (a : Reg) (b : Reg) (bs : Bool) (un : Bool) (s : State)
    (hm : Canon Q s.mem) :
    Ends Q (execVmaxX ty m d a b bs un s) := by
  simp [execVmaxX, hm]

@[simp] theorem execVand_ends {Q : Prop} (ty : ElType) (m : Reg) (d : Reg) (a : Reg) (b : Reg) (s : State) (hm : Canon Q s.mem) :
    Ends Q (execVand ty m d a b s) := by
  simp [execVand, hm]

@[simp] theorem execVandX_ends {Q : Prop} (ty : ElType) (m : Reg) (d : Reg) (a : Reg) (b : Reg) (bs : Bool) (s : State) (hm : Canon Q s.mem) :
    Ends Q (execVandX ty m d a b bs s) := by
  simp [execVandX, hm]

@[simp] theorem execVor_ends {Q : Prop} (ty : ElType) (m : Reg) (d : Reg) (a : Reg) (b : Reg) (bs : Bool) (s : State) (hm : Canon Q s.mem) :
    Ends Q (execVor ty m d a b bs s) := by
  simp [execVor, hm]

@[simp] theorem execVxor_ends {Q : Prop} (ty : ElType) (m : Reg) (d : Reg) (a : Reg) (b : Reg) (bs : Bool) (s : State) (hm : Canon Q s.mem) :
    Ends Q (execVxor ty m d a b bs s) := by
  simp [execVxor, hm]

@[simp] theorem execVandn_ends {Q : Prop} (ty : ElType) (m : Reg) (d : Reg) (a : Reg) (b : Reg) (bs : Bool) (s : State) (hm : Canon Q s.mem) :
    Ends Q (execVandn ty m d a b bs s) := by
  simp [execVandn, hm]

@[simp] theorem execVsll_ends {Q : Prop} (ty : ElType) (m : Reg) (d : Reg) (a : Reg) (b : Reg) (s : State) (hm : Canon Q s.mem) :
    Ends Q (execVsll ty m d a b s) := by
  simp [execVsll, hm]

@[simp] theorem execVsllX_ends {Q : Prop} (ty : ElType) (m : Reg) (d : Reg) (a : Reg) (b : Reg) (bs : Bool) (s : State) (hm : Canon Q s.mem) :
    Ends Q (execVsllX ty m d a b bs s) := by
  simp [execVsllX, hm]

@[simp] theorem execVsrl_ends {Q : Prop} (ty : ElType) (m : Reg) (d : Reg) (a : Reg) (b : Reg) (bs : Bool) (s : State) (hm : Canon Q s.mem) :
    Ends Q (execVsrl ty m d a b bs s) := by
  simp [execVsrl, hm]

@[simp] theorem execVsra_ends {Q : Prop} (ty : ElType) (m : Reg) (d : Reg) (a : Reg) (b : Reg) (bs : Bool) (s : State) (hm : Canon Q s.mem) :
    Ends Q (execVsra ty m d a b bs s) := by
  simp [execVsra, hm]

@[simp] theorem execVslli_ends {Q : Prop} (ty : ElType) (m : Reg) (d : Reg) (a : Reg) (n : BitVec 8) (s : State) (hm : Canon Q s.mem) :
    Ends Q (execVslli ty m d a n s) := by
  simp [execVslli, hm]

@[simp] theorem execVsrli_ends {Q : Prop} (ty : ElType) (m : Reg) (d : Reg) (a : Reg) (n : BitVec 8) (s : State) (hm : Canon Q s.mem) :
    Ends Q (execVsrli ty m d a n s) := by
  simp [execVsrli, hm]

@[simp] theorem execVsrai_ends {Q : Prop} (ty : ElType) (m : Reg) (d : Reg) (a : Reg) (n : BitVec 8) (s : State) (hm : Canon Q s.mem) :
    Ends Q (execVsrai ty m d a n s) := by
  simp [execVsrai, hm]

@[simp] theorem vecFma_ends {Q : Prop} (n : Nat) (ty : ElType) (m : Reg) (d : Reg) (a : Reg) (b : Reg) (bs : Bool) (vc : Reg) (negate : Bool)
    (s : State) (hm : Canon Q s.mem) :
    Ends Q (vecFma n ty m d a b bs vc negate s) := by
  simp [vecFma, hm]

@[simp] theorem execVfma_ends {Q : Prop} (ty : ElType) (m : Reg) (d : Reg) (a : Reg) (b : Reg) (s : State) (hm : Canon Q s.mem) :
    Ends Q (execVfma ty m d a b s) := by
  simp [execVfma, hm]

@[simp] theorem execVfmaX_ends {Q : Prop} (ty : ElType) (m : Reg) (d : Reg) (a : Reg) (b : Reg) (bs : Bool) (vc : Reg) (s : State)
    (hm : Canon Q s.mem) :
    Ends Q (execVfmaX ty m d a b bs vc s) := by
  simp [execVfmaX, hm]

@[simp] theorem execVfnma_ends {Q : Prop} (ty : ElType) (m : Reg) (d : Reg) (a : Reg) (b : Reg) (bs : Bool) (vc : Reg) (s : State)
    (hm : Canon Q s.mem) :
    Ends Q (execVfnma ty m d a b bs vc s) := by
  simp [execVfnma, hm]

@[simp] theorem vecSign_ends {Q : Prop} (n : Nat) (ty : ElType) (m : Reg) (d : Reg) (a : Reg) (abs : Bool) (sat : Bool) (s : State)
    (hm : Canon Q s.mem) :
    Ends Q (vecSign n ty m d a abs sat s) := by
  simp [vecSign, hm]

@[simp] theorem execVneg_ends {Q : Prop} (ty : ElType) (m : Reg) (d : Reg) (a : Reg) (s : State) (hm : Canon Q s.mem) :
    Ends Q (execVneg ty m d a s) := by
  simp [execVneg, hm]

@[simp] theorem execVnegX_ends {Q : Prop} (ty : ElType) (m : Reg) (d : Reg) (a : Reg) (sat : Bool) (s : State) (hm : Canon Q s.mem) :
    Ends Q (execVnegX ty m d a sat s) := by
  simp [execVnegX, hm]

@[simp] theorem execVabs_ends {Q : Prop} (ty : ElType) (m : Reg) (d : Reg) (a : Reg) (sat : Bool) (s : State) (hm : Canon Q s.mem) :
    Ends Q (execVabs ty m d a sat s) := by
  simp [execVabs, hm]

@[simp] theorem vecCvt_ends {Q : Prop} (n : Nat) (ty : ElType) (m : Reg) (d : Reg) (a : Reg) (un : Bool) (sat : Bool) (src : ElType)
    (srcUn : Bool) (p : Nat) (s : State) (hm : Canon Q s.mem) :
    Ends Q (vecCvt n ty m d a un sat src srcUn p s) := by
  simp [vecCvt, hm]

@[simp] theorem execVcvt_ends {Q : Prop} (ty : ElType) (m : Reg) (d : Reg) (a : Reg) (s : State) (hm : Canon Q s.mem) :
    Ends Q (execVcvt ty m d a s) := by
  simp [execVcvt, hm]

@[simp] theorem execVcvtX_ends {Q : Prop} (ty : ElType) (m : Reg) (d : Reg) (a : Reg) (un : Bool) (sat : Bool) (src : ElType) (srcUn : Bool)
    (p : Fin 8) (s : State) (hm : Canon Q s.mem) :
    Ends Q (execVcvtX ty m d a un sat src srcUn p s) := by
  simp [execVcvtX, hm]

@[simp] theorem vecCmp_ends {Q : Prop} (n : Nat) (ty : ElType) (m : Reg) (a : Reg) (b : Reg) (bs : Bool) (un : Bool) (sx : Reg)
    (ok : Ordering → Bool) (unord : Bool) (ordered : Bool) (s : State) (hm : Canon Q s.mem) :
    Ends Q (vecCmp n ty m a b bs un sx ok unord ordered s) := by
  simp [vecCmp, hm]

@[simp] theorem execVceq_ends {Q : Prop} (ty : ElType) (m : Reg) (a : Reg) (b : Reg) (s : State) (hm : Canon Q s.mem) :
    Ends Q (execVceq ty m a b s) := by
  simp [execVceq, hm]

@[simp] theorem execVceqX_ends {Q : Prop} (ty : ElType) (m : Reg) (a : Reg) (b : Reg) (bs : Bool) (un : Bool) (sx : Reg) (s : State)
    (hm : Canon Q s.mem) :
    Ends Q (execVceqX ty m a b bs un sx s) := by
  simp [execVceqX, hm]

@[simp] theorem execVcne_ends {Q : Prop} (ty : ElType) (m : Reg) (a : Reg) (b : Reg) (bs : Bool) (un : Bool) (sx : Reg) (s : State)
    (hm : Canon Q s.mem) :
    Ends Q (execVcne ty m a b bs un sx s) := by
  simp [execVcne, hm]

@[simp] theorem execVclt_ends {Q : Prop} (ty : ElType) (m : Reg) (a : Reg) (b : Reg) (bs : Bool) (un : Bool) (sx : Reg) (s : State)
    (hm : Canon Q s.mem) :
    Ends Q (execVclt ty m a b bs un sx s) := by
  simp [execVclt, hm]

@[simp] theorem execVcle_ends {Q : Prop} (ty : ElType) (m : Reg) (a : Reg) (b : Reg) (bs : Bool) (un : Bool) (sx : Reg) (s : State)
    (hm : Canon Q s.mem) :
    Ends Q (execVcle ty m a b bs un sx s) := by
  simp [execVcle, hm]

@[simp] theorem execVcgt_ends {Q : Prop} (ty : ElType) (m : Reg) (a : Reg) (b : Reg) (bs : Bool) (un : Bool) (sx : Reg) (s : State)
    (hm : Canon Q s.mem) :
    Ends Q (execVcgt ty m a b bs un sx s) := by
  simp [execVcgt, hm]

@[simp] theorem execVcge_ends {Q : Prop} (ty : ElType) (m : Reg) (a : Reg) (b : Reg) (bs : Bool) (un : Bool) (sx : Reg) (s : State)
    (hm : Canon Q s.mem) :
    Ends Q (execVcge ty m a b bs un sx s) := by
  simp [execVcge, hm]

@[simp] theorem vecSel_ends {Q : Prop} (n : Nat) (ty : ElType) (m : Reg) (d : Reg) (a : Reg) (b : Reg) (bs : Bool) (s : State) (hm : Canon Q s.mem) :
    Ends Q (vecSel n ty m d a b bs s) := by
  simp [vecSel, hm]

@[simp] theorem execVsel_ends {Q : Prop} (ty : ElType) (m : Reg) (d : Reg) (a : Reg) (b : Reg) (s : State) (hm : Canon Q s.mem) :
    Ends Q (execVsel ty m d a b s) := by
  simp [execVsel, hm]

@[simp] theorem execVselX_ends {Q : Prop} (ty : ElType) (m : Reg) (d : Reg) (a : Reg) (b : Reg) (bs : Bool) (s : State) (hm : Canon Q s.mem) :
    Ends Q (execVselX ty m d a b bs s) := by
  simp [execVselX, hm]

@[simp] theorem vecRedSum_ends {Q : Prop} (n : Nat) (ty : ElType) (m : Reg) (a : Reg) (un : Bool) (sx : Reg) (s : State) (hm : Canon Q s.mem) :
    Ends Q (vecRedSum n ty m a un sx s) := by
  simp [vecRedSum, hm]

@[simp] theorem vecRedMinMax_ends {Q : Prop} (ty : ElType) (m : Reg) (a : Reg) (un : Bool) (sx : Reg) (max : Bool) (s : State) (hm : Canon Q s.mem) :
    Ends Q (vecRedMinMax ty m a un sx max s) := by
  simp [vecRedMinMax, hm]

@[simp] theorem vecRedBits_ends {Q : Prop} (ty : ElType) (m : Reg) (a : Reg) (sx : Reg) (f : Nat → Nat → Nat) (init : Nat) (s : State)
    (hm : Canon Q s.mem) :
    Ends Q (vecRedBits ty m a sx f init s) := by
  simp [vecRedBits, hm]

@[simp] theorem execVredsum_ends {Q : Prop} (ty : ElType) (m : Reg) (a : Reg) (s : State) (hm : Canon Q s.mem) :
    Ends Q (execVredsum ty m a s) := by
  simp [execVredsum, hm]

@[simp] theorem execVredsumX_ends {Q : Prop} (ty : ElType) (m : Reg) (a : Reg) (un : Bool) (sx : Reg) (s : State) (hm : Canon Q s.mem) :
    Ends Q (execVredsumX ty m a un sx s) := by
  simp [execVredsumX, hm]

@[simp] theorem execVredmin_ends {Q : Prop} (ty : ElType) (m : Reg) (a : Reg) (un : Bool) (sx : Reg) (s : State) (hm : Canon Q s.mem) :
    Ends Q (execVredmin ty m a un sx s) := by
  simp [execVredmin, hm]

@[simp] theorem execVredmax_ends {Q : Prop} (ty : ElType) (m : Reg) (a : Reg) (un : Bool) (sx : Reg) (s : State) (hm : Canon Q s.mem) :
    Ends Q (execVredmax ty m a un sx s) := by
  simp [execVredmax, hm]

@[simp] theorem execVredand_ends {Q : Prop} (ty : ElType) (m : Reg) (a : Reg) (_un : Bool) (sx : Reg) (s : State) (hm : Canon Q s.mem) :
    Ends Q (execVredand ty m a _un sx s) := by
  simp [execVredand, hm]

@[simp] theorem execVredor_ends {Q : Prop} (ty : ElType) (m : Reg) (a : Reg) (_un : Bool) (sx : Reg) (s : State) (hm : Canon Q s.mem) :
    Ends Q (execVredor ty m a _un sx s) := by
  simp [execVredor, hm]

@[simp] theorem execVredxor_ends {Q : Prop} (ty : ElType) (m : Reg) (a : Reg) (_un : Bool) (sx : Reg) (s : State) (hm : Canon Q s.mem) :
    Ends Q (execVredxor ty m a _un sx s) := by
  simp [execVredxor, hm]

@[simp] theorem vecDot_ends {Q : Prop} (n : Nat) (ty : ElType) (m : Reg) (d : Reg) (a : Reg) (b : Reg) (un : Bool) (sat : Bool) (s : State)
    (hm : Canon Q s.mem) :
    Ends Q (vecDot n ty m d a b un sat s) := by
  simp [vecDot, hm]

@[simp] theorem execVdot_ends {Q : Prop} (ty : ElType) (m : Reg) (d : Reg) (a : Reg) (b : Reg) (s : State) (hm : Canon Q s.mem) :
    Ends Q (execVdot ty m d a b s) := by
  simp [execVdot, hm]

@[simp] theorem execVdotX_ends {Q : Prop} (ty : ElType) (m : Reg) (d : Reg) (a : Reg) (b : Reg) (un : Bool) (sat : Bool) (s : State)
    (hm : Canon Q s.mem) :
    Ends Q (execVdotX ty m d a b un sat s) := by
  simp [execVdotX, hm]

@[simp] theorem vecMove_ends {Q : Prop} (n : Nat) (ty : ElType) (m : Reg) (d : Reg) (a : Reg) (f : Nat → Option Nat) (s : State)
    (hm : Canon Q s.mem) :
    Ends Q (vecMove n ty m d a f s) := by
  simp [vecMove, hm]

@[simp] theorem execVperm_ends {Q : Prop} (ty : ElType) (m : Reg) (d : Reg) (a : Reg) (b : Reg) (s : State) (hm : Canon Q s.mem) :
    Ends Q (execVperm ty m d a b s) := by
  simp [execVperm, hm]

@[simp] theorem execVpermX_ends {Q : Prop} (ty : ElType) (m : Reg) (d : Reg) (a : Reg) (b : Reg) (bs : Bool) (s : State) (hm : Canon Q s.mem) :
    Ends Q (execVpermX ty m d a b bs s) := by
  simp [execVpermX, hm]

@[simp] theorem execVslideh_ends {Q : Prop} (ty : ElType) (m : Reg) (d : Reg) (a : Reg) (n : BitVec 8) (s : State) (hm : Canon Q s.mem) :
    Ends Q (execVslideh ty m d a n s) := by
  simp [execVslideh, hm]

@[simp] theorem execVslidel_ends {Q : Prop} (ty : ElType) (m : Reg) (d : Reg) (a : Reg) (n : BitVec 8) (s : State) (hm : Canon Q s.mem) :
    Ends Q (execVslidel ty m d a n s) := by
  simp [execVslidel, hm]

@[simp] theorem execVrev_ends {Q : Prop} (ty : ElType) (m : Reg) (d : Reg) (a : Reg) (s : State) (hm : Canon Q s.mem) :
    Ends Q (execVrev ty m d a s) := by
  simp [execVrev, hm]

@[simp] theorem execVbcast_ends {Q : Prop} (ty : ElType) (m : Reg) (d : Reg) (s : State) (hm : Canon Q s.mem) :
    Ends Q (execVbcast ty m d s) := by
  simp [execVbcast, hm]

@[simp] theorem execVbcastX_ends {Q : Prop} (ty : ElType) (m : Reg) (d : Reg) (sx : Reg) (s : State) (hm : Canon Q s.mem) :
    Ends Q (execVbcastX ty m d sx s) := by
  simp [execVbcastX, hm]

@[simp] theorem execVbcastl_ends {Q : Prop} (ty : ElType) (m : Reg) (d : Reg) (a : Reg) (k : BitVec 8) (s : State) (hm : Canon Q s.mem) :
    Ends Q (execVbcastl ty m d a k s) := by
  simp [execVbcastl, hm]

@[simp] theorem execVindex_ends {Q : Prop} (ty : ElType) (m : Reg) (d : Reg) (s : State) (hm : Canon Q s.mem) :
    Ends Q (execVindex ty m d s) := by
  simp [execVindex, hm]

@[simp] theorem vecExt_ends {Q : Prop} (n : Nat) (ty : ElType) (a : Reg) (un : Bool) (sx : Reg) (k : Nat) (s : State) (hm : Canon Q s.mem) :
    Ends Q (vecExt n ty a un sx k s) := by
  simp [vecExt, hm]

@[simp] theorem execVext_ends {Q : Prop} (ty : ElType) (a : Reg) (s : State) (hm : Canon Q s.mem) : Ends Q (execVext ty a s) := by simp [execVext, hm]

@[simp] theorem execVextX_ends {Q : Prop} (ty : ElType) (a : Reg) (un : Bool) (sx : Reg) (k : BitVec 8) (s : State) (hm : Canon Q s.mem) :
    Ends Q (execVextX ty a un sx k s) := by
  simp [execVextX, hm]

@[simp] theorem execVins_ends {Q : Prop} (ty : ElType) (d : Reg) (sx : Reg) (k : BitVec 8) (s : State) (hm : Canon Q s.mem) :
    Ends Q (execVins ty d sx k s) := by
  simp [execVins, hm]

@[simp] theorem vecCprs_ends {Q : Prop} (n : Nat) (ty : ElType) (m : Reg) (d : Reg) (a : Reg) (sx : Reg) (s : State) (hm : Canon Q s.mem) :
    Ends Q (vecCprs n ty m d a sx s) := by
  simp [vecCprs, hm]

@[simp] theorem execVcprs_ends {Q : Prop} (ty : ElType) (m : Reg) (d : Reg) (a : Reg) (s : State) (hm : Canon Q s.mem) :
    Ends Q (execVcprs ty m d a s) := by
  simp [execVcprs, hm]

@[simp] theorem execVcprsX_ends {Q : Prop} (ty : ElType) (m : Reg) (d : Reg) (a : Reg) (sx : Reg) (s : State) (hm : Canon Q s.mem) :
    Ends Q (execVcprsX ty m d a sx s) := by
  simp [execVcprsX, hm]

@[simp] theorem execVexpd_ends {Q : Prop} (ty : ElType) (m : Reg) (d : Reg) (a : Reg) (sx : Reg) (s : State) (hm : Canon Q s.mem) :
    Ends Q (execVexpd ty m d a sx s) := by
  simp [execVexpd, hm]

/-! ### Vector memory instructions -/

/-- However a vector access ends, the memory of its state is canonical. -/
def VEnd.Canon (Q : Prop) : VEnd → Prop
  | .ok _ _ s | .trap _ _ _ _ s | .wait _ _ _ s => Machine.Canon Q s.mem

@[simp] theorem loadLanes_canon {Q : Prop} (b : By) (w : Nat) (l : List (Nat × Word)) (data : Block) (far : Option Wait) (s : State)
    (hm : Canon Q s.mem) : (loadLanes b w l data far s).Canon Q := by
  induction l generalizing data far s with
  | nil => exact hm
  | cons x l ih =>
    unfold loadLanes
    split
    · next e => exact ih _ _ _ (Canon.of_ok e (loadBytes_canon _ _ _ _ _ hm))
    · next e => exact Canon.of_trap e (loadBytes_canon _ _ _ _ _ hm)
    · next e => exact Canon.of_wait e (loadBytes_canon _ _ _ _ _ hm)

@[simp] theorem storeLanes_canon {Q : Prop} (b : By) (w : Nat) (l : List (Nat × Dest)) (data : Block) (far : Option Wait) (s : State)
    (hm : Canon Q s.mem) : (storeLanes b w l data far s).Canon Q := by
  induction l generalizing far s with
  | nil => exact hm
  | cons x l ih =>
    unfold storeLanes
    split
    · next e => exact ih _ _ (Canon.of_ok e (storeDest_canon _ _ _ _ hm))
    · next e => exact Canon.of_trap e (storeDest_canon _ _ _ _ hm)
    · next e => exact Canon.of_wait e (storeDest_canon _ _ _ _ hm)

@[simp] theorem checkLanes_canon {Q : Prop} (b : By) (w : Nat) (s : State) (l : List (Nat × Word)) (hm : Canon Q s.mem) :
    (checkLanes b w s l).Canon Q := by
  induction l generalizing s with
  | nil => exact hm
  | cons x l ih => exact .andThen (accessDest_canon _ _ _ _ _ _ hm) fun d s hm => .andThen (ih s hm) fun l s hm => hm

@[simp] theorem faultWaiting_canon {Q : Prop} (s : State) (t : Nat) (cause : Cause) (va : Word) (hm : Canon Q s.mem) :
    Canon Q (faultWaiting s t cause va).mem := by
  simp [faultWaiting, hm, -State.setSlot_mem]

@[simp] theorem unpoisonVector_mem (s : State) (t : Nat) (w : Nat) (l : List (Nat × Word)) : (unpoisonVector s t w l).mem = s.mem := by
  unfold unpoisonVector
  split
  · rfl
  split
  · split
    · split
      · simp
      · simp
      · next va _ =>
        have h := translate_mem s (agentOf t) ((s.slot t).mode = .u) .store false va
        split
        · next e =>
          rw [e] at h
          simpa using h
        · rfl
      · rfl
    · rfl
  · rfl

@[simp] theorem vecMem_ends {Q : Prop} (store : Bool) (ty : ElType) (m d : Reg) (x : VMemExt) (addr : Nat → Word) (s : State)
    (hm : Canon Q s.mem) : Ends Q (vecMem store ty m d x addr s) := by
  unfold vecMem
  extract_lets w b k all l data prog redo go
  have hgo : ∀ plan r, r.Canon Q → Ends Q (go plan r) := by
    intro plan r hr
    cases r with
    | ok data far s =>
      have hr : Canon Q s.mem := hr
      exact doneAway_ends _ _ _ _ (by simp [hr])
    | trap i c v data s =>
      have hr : Canon Q s.mem := hr
      exact trap_ends _ _ _ (by simp [hr])
    | wait i q data s =>
      have hr : Canon Q s.mem := hr
      exact wait_ends _ _ (by simp [hr])
  clear_value go
  split
  · have hplan : ∀ p : Option VProg, (match p with | some p => Res.ok p.plan s | none => checkLanes b w s l).Canon Q := by
      intro p
      cases p with
      | some p => exact hm
      | none => exact checkLanes_canon _ _ _ _ hm
    split
    · next e => exact hgo _ _ (storeLanes_canon _ _ _ _ _ _ (Canon.of_ok e (hplan _)))
    · next e => exact trap_ends _ _ _ (Canon.of_trap e (hplan _))
    · next e => exact wait_ends _ _ (Canon.of_wait e (hplan _))
  · exact hgo _ _ (loadLanes_canon _ _ _ _ _ _ hm)

@[simp] theorem execVld_ends {Q : Prop} (ty : ElType) (m : Reg) (d : Reg) (x : VMemExt) (s : State) (hm : Canon Q s.mem) :
    Ends Q (execVld ty m d x s) := by
  simp [execVld, hm]

@[simp] theorem execVst_ends {Q : Prop} (ty : ElType) (m : Reg) (d : Reg) (x : VMemExt) (s : State) (hm : Canon Q s.mem) :
    Ends Q (execVst ty m d x s) := by
  simp [execVst, hm]

@[simp] theorem execVlds_ends {Q : Prop} (ty : ElType) (m : Reg) (d : Reg) (b : Reg) (x : VMemExt) (s : State) (hm : Canon Q s.mem) :
    Ends Q (execVlds ty m d b x s) := by
  simp [execVlds, hm]

@[simp] theorem execVsts_ends {Q : Prop} (ty : ElType) (m : Reg) (d : Reg) (b : Reg) (x : VMemExt) (s : State) (hm : Canon Q s.mem) :
    Ends Q (execVsts ty m d b x s) := by
  simp [execVsts, hm]

@[simp] theorem execVgath_ends {Q : Prop} (ty : ElType) (m : Reg) (d : Reg) (b : Reg) (shift : Fin 8) (x : VMemExt) (s : State) (hm : Canon Q s.mem) :
    Ends Q (execVgath ty m d b shift x s) := by
  simp [execVgath, hm]

@[simp] theorem execVscat_ends {Q : Prop} (ty : ElType) (m : Reg) (d : Reg) (b : Reg) (shift : Fin 8) (x : VMemExt) (s : State) (hm : Canon Q s.mem) :
    Ends Q (execVscat ty m d b shift x s) := by
  simp [execVscat, hm]

@[simp] theorem execVectorBlockDelivery_ends {Q : Prop} (t : Nat) (s : State) (hm : Canon Q s.mem) :
    Ends Q (execVectorBlockDelivery t s) := by
  simp [execVectorBlockDelivery, hm]

@[simp] theorem execMemoryAccessReply_ends {Q : Prop} (t : Nat) (s : State) (hm : Canon Q s.mem) :
    Ends Q (execMemoryAccessReply t s) := by
  simp [execMemoryAccessReply, hm]

/-! ### Replies at a core -/

@[simp] theorem forwardEvent_ends {Q : Prop} (s : State) (k : Nat) (type : Nat) (hm : Canon Q s.mem) :
    Ends Q (forwardEvent s k type) := by
  unfold forwardEvent
  split <;> simp [hm]

@[simp] theorem execRecall_ends {Q : Prop} (k : Nat) (s : State) (hm : Canon Q s.mem) : Ends Q (execRecall k s) := by simp [execRecall, hm]
@[simp] theorem execInv_ends {Q : Prop} (k : Nat) (s : State) (hm : Canon Q s.mem) : Ends Q (execInv k s) := by simp [execInv, hm]
@[simp] theorem execPush_ends {Q : Prop} (k : Nat) (s : State) (hm : Canon Q s.mem) : Ends Q (execPush k s) := by simp [execPush, hm]

@[simp] theorem execDeferredRequestApply_ends {Q : Prop} (c : Nat) (k : Nat) (s : State) (hm : Canon Q s.mem) :
    Ends Q (execDeferredRequestApply c k s) := by
  simp only [execDeferredRequestApply]
  split <;> simp [hm]

@[simp] theorem dropReq_mem (s : State) (c : Nat) (tag : Nat) : (dropReq s c tag).mem = s.mem := (rfl)

@[simp] theorem install_canon {Q : Prop} (s : State) (c : Nat) (tag : Nat) (blk : Nat) (t : Tag) (data : Option Block) (single : Option
    (Nat × Nat × Nat)) (hm : Canon Q s.mem) :
    Canon Q (install s c tag blk t data single).mem := by
  simp [install, hm]

@[simp] theorem uninstall_mem (s : State) (c : Nat) (tag : Nat) (blk : Nat) : (uninstall s c tag blk).mem = s.mem := by simp [uninstall]

@[simp] theorem replyEvent_ends {Q : Prop} (s : State) (k type : Nat) (f : State → Nat → Msg → Req → State) (hm : Canon Q s.mem)
    (hf : ∀ s c m r, Canon Q s.mem → Canon Q (f s c m r).mem) : Ends Q (replyEvent s k type f) := by
  unfold replyEvent
  split
  · exact (ends_next _).2 hm
  · split
    · exact (ends_next _).2 hm
    · dsimp only
      split
      · exact (ends_next _).2 (hf _ _ _ _ hm)
      · exact (ends_next _).2 hm

@[simp] theorem execDataS_ends {Q : Prop} (k : Nat) (s : State) (hm : Canon Q s.mem) : Ends Q (execDataS k s) := by
  refine replyEvent_ends _ _ _ _ hm fun s c m r hm => ?_
  split
  · exact hm
  · split
    · rw [uninstall_mem]
      exact hm
    · exact install_canon _ _ _ _ _ _ _ hm

@[simp] theorem execDataX_ends {Q : Prop} (k : Nat) (s : State) (hm : Canon Q s.mem) : Ends Q (execDataX k s) := by
  refine replyEvent_ends _ _ _ _ hm fun s c m r hm => ?_
  split
  · exact hm
  · exact install_canon _ _ _ _ _ _ _ hm

@[simp] theorem putOver_mem (s : State) (m : Msg) : (putOver s m).mem = s.mem := (rfl)

@[simp] theorem execAck_ends {Q : Prop} (k : Nat) (s : State) (hm : Canon Q s.mem) : Ends Q (execAck k s) := by
  unfold execAck
  split
  · exact (ends_next _).2 hm
  split
  · exact (ends_next _).2 hm
  dsimp only
  split
  · exact (ends_next _).2 hm
  split
  · exact (ends_next _).2 hm
  split
  · rw [ends_next]
    split
    · exact hm
    · rw [chanAnswer_mem]
      exact hm
  split
  · exact (ends_next _).2 hm
  split
  · split
    · exact (ends_next _).2 (install_canon _ _ _ _ _ _ _ hm)
    · rw [ends_next, uninstall_mem]
      exact hm
  · rw [ends_next, uninstall_mem]
    exact hm

@[simp] theorem execBusy_ends {Q : Prop} (k : Nat) (s : State) (hm : Canon Q s.mem) : Ends Q (execBusy k s) :=
  replyEvent_ends _ _ _ _ hm fun _ _ _ _ hm => hm

@[simp] theorem execRetry_ends {Q : Prop} (k : Nat) (s : State) (hm : Canon Q s.mem) : Ends Q (execRetry k s) :=
  replyEvent_ends _ _ _ _ hm fun _ _ _ _ hm => hm

@[simp] theorem repost_mem (s : State) (c : Nat) (tag : Nat) (m : Msg) : (repost s c tag m).mem = s.mem := (rfl)

@[simp] theorem execRetryBackoffExpiry_ends {Q : Prop} (c blk : Nat) (s : State) (hm : Canon Q s.mem) :
    Ends Q (execRetryBackoffExpiry c blk s) := by
  unfold execRetryBackoffExpiry
  split
  · exact (ends_next _).2 hm
  dsimp only
  split
  · exact (ends_next _).2 hm
  split
  · exact (ends_next _).2 hm
  split
  · rw [ends_next, uninstall_mem]
    exact hm
  split
  · rw [ends_next]
    split
    · exact hm
    · exact hm
  · rw [ends_next, wakeChan_mem]
    exact hm

@[simp] theorem failSlots_canon {Q : Prop} (s : State) (c : Nat) (blk : Nat) (cause : Cause) (hm : Canon Q s.mem) :
    Canon Q (failSlots s c blk cause).mem := by
  refine canon_foldl _ (fun s t hm => ?_) _ _ hm
  split
  · exact faultWaiting_canon _ _ _ _ hm
  · exact hm

@[simp] theorem failParked_canon {Q : Prop} (s : State) (t : Nat) (p : Nat × Nat × Reg) (cause : Cause) (hm : Canon Q s.mem) :
    Canon Q (failParked s t p cause).mem := by
  simp [failParked, hm, -State.setSlot_mem]

@[simp] theorem execFail_ends {Q : Prop} (k : Nat) (s : State) (hm : Canon Q s.mem) : Ends Q (execFail k s) := by
  unfold execFail
  split
  · exact (ends_next _).2 hm
  split
  · exact (ends_next _).2 hm
  dsimp only
  split
  · exact (ends_next _).2 hm
  split
  · exact (ends_next _).2 hm
  split
  · rw [ends_next, uninstall_mem]
    exact hm
  split
  · rw [ends_next, failBurst_mem, failChannels_mem, failTensor_mem]
    exact failSlots_canon _ _ _ _ hm
  split
  · split
    · exact (ends_next _).2 hm
    split
    · exact (ends_next _).2 (takeSync_canon _ _ _ _ hm)
    · exact (ends_next _).2 (failParked_canon _ _ _ _ hm)
    · exact (ends_next _).2 hm
  split
  · rw [ends_next]
    split
    · exact hm
    · rw [chanFailed_mem]
      exact hm
  · exact (ends_next _).2 hm

@[simp] theorem execResult_ends {Q : Prop} (k : Nat) (s : State) (hm : Canon Q s.mem) : Ends Q (execResult k s) := by
  refine replyEvent_ends _ _ _ _ hm fun s c m r hm => ?_
  dsimp only
  split
  · exact hm
  split
  · split
    · exact hm
    split
    · split
      · exact hm
      · exact hm
    · exact hm
    · exact hm
  split
  · split
    · exact hm
    · rw [chanAnswer_mem]
      exact hm
  · exact hm

/-! ### Special functions -/

@[simp] theorem sfuInstr_ends {Q : Prop} (fn : Nat) (ty : ElType) (m : Reg) (d : Reg) (a : Reg) (s : State) (hm : Canon Q s.mem) :
    Ends Q (sfuInstr fn ty m d a s) := by
  simp [sfuInstr, hm, -State.setCore_mem]

@[simp] theorem execSfuExp2_ends {Q : Prop} (ty : ElType) (m : Reg) (d : Reg) (a : Reg) (s : State) (hm : Canon Q s.mem) :
    Ends Q (execSfuExp2 ty m d a s) := by
  simp [execSfuExp2, hm]

@[simp] theorem execSfuLog2_ends {Q : Prop} (ty : ElType) (m : Reg) (d : Reg) (a : Reg) (s : State) (hm : Canon Q s.mem) :
    Ends Q (execSfuLog2 ty m d a s) := by
  simp [execSfuLog2, hm]

@[simp] theorem execSfuRcp_ends {Q : Prop} (ty : ElType) (m : Reg) (d : Reg) (a : Reg) (s : State) (hm : Canon Q s.mem) :
    Ends Q (execSfuRcp ty m d a s) := by
  simp [execSfuRcp, hm]

@[simp] theorem execSfuRsqrt_ends {Q : Prop} (ty : ElType) (m : Reg) (d : Reg) (a : Reg) (s : State) (hm : Canon Q s.mem) :
    Ends Q (execSfuRsqrt ty m d a s) := by
  simp [execSfuRsqrt, hm]

@[simp] theorem execSfuSqrt_ends {Q : Prop} (ty : ElType) (m : Reg) (d : Reg) (a : Reg) (s : State) (hm : Canon Q s.mem) :
    Ends Q (execSfuSqrt ty m d a s) := by
  simp [execSfuSqrt, hm]

@[simp] theorem execSfuSin_ends {Q : Prop} (ty : ElType) (m : Reg) (d : Reg) (a : Reg) (s : State) (hm : Canon Q s.mem) :
    Ends Q (execSfuSin ty m d a s) := by
  simp [execSfuSin, hm]

@[simp] theorem execSfuCos_ends {Q : Prop} (ty : ElType) (m : Reg) (d : Reg) (a : Reg) (s : State) (hm : Canon Q s.mem) :
    Ends Q (execSfuCos ty m d a s) := by
  simp [execSfuCos, hm]

@[simp] theorem execSfuTanh_ends {Q : Prop} (ty : ElType) (m : Reg) (d : Reg) (a : Reg) (s : State) (hm : Canon Q s.mem) :
    Ends Q (execSfuTanh ty m d a s) := by
  simp [execSfuTanh, hm]

@[simp] theorem execSfuSigm_ends {Q : Prop} (ty : ElType) (m : Reg) (d : Reg) (a : Reg) (s : State) (hm : Canon Q s.mem) :
    Ends Q (execSfuSigm ty m d a s) := by
  simp [execSfuSigm, hm]

@[simp] theorem execSfuErf_ends {Q : Prop} (ty : ElType) (m : Reg) (d : Reg) (a : Reg) (s : State) (hm : Canon Q s.mem) :
    Ends Q (execSfuErf ty m d a s) := by
  simp [execSfuErf, hm]

@[simp] theorem execSfuEntryComplete_ends {Q : Prop} (c : Nat) (s : State) (hm : Canon Q s.mem) :
    Ends Q (execSfuEntryComplete c s) := by
  unfold execSfuEntryComplete
  split <;> simp [hm]

@[simp] theorem parkSfu_mem (s : State) (t : Nat) : (parkSfu s t).mem = s.mem := (rfl)

/-! ### Interrupts -/

@[simp] theorem abandon_mem (s : State) (t : Nat) : (abandon s t).mem = s.mem := by simp [abandon]
@[simp] theorem redoTd_mem (s : State) (t : Nat) (r : Redo) : (redoTd s t r).mem = s.mem := by unfold redoTd; split <;> rfl
@[simp] theorem endAccess_mem (s : State) (t : Nat) : (endAccess s t).mem = s.mem := by simp only [endAccess]; (repeat' split) <;> simp
@[simp] theorem abandonReq_mem (s : State) (t : Nat) (tag : Nat) : (abandonReq s t tag).mem = s.mem := by simp [abandonReq]

theorem mem_of_endResult {s u : State} {t d n : Nat} (e : endResult s t d n = some u) : u.mem = s.mem := by
  simp only [endResult] at e
  split at e
  · obtain rfl := Option.some.inj e
    exact abandon_mem _ _
  · split_ifs at e
    · obtain rfl := Option.some.inj e
      exact abandonReq_mem _ _ _
    · obtain rfl := Option.some.inj e
      rfl

theorem endInProgress_canon {Q : Prop} {s u : State} {t : Nat} (e : endInProgress s t = some u) (hm : Canon Q s.mem) : Canon Q u.mem := by
  unfold endInProgress at e
  dsimp only at e
  split at e
  case h_5 =>
    split at e
    case h_4 => rw [mem_of_endResult e]; exact hm
    case h_13 =>
      split at e
      · obtain rfl := Option.some.inj e
        exact hm
      · obtain rfl := Option.some.inj e
        simp [hm]
    all_goals cases e
    all_goals simp [hm]
  all_goals
    cases e
    simp [hm]

@[simp] theorem raiseIn_mem (s : State) (p : Nat) (t : Nat) (i : Intr) : (raiseIn s p t i).mem = s.mem := by simp [raiseIn]

@[simp] theorem spillEntries_canon {Q : Prop} (s : State) (t : Nat) (hm : Canon Q s.mem) : Canon Q (spillEntries s t).mem := by
  unfold spillEntries
  dsimp only
  split
  · exact hm
  · refine canon_foldl _ (fun s e hm => ?_) _ _ (canon_foldl _ (fun s e hm => ?_) _ _ hm)
    · split
      · next eq =>
        rw [State.updCore_mem]
        exact spillItem_canon eq hm
      · exact hm
    · split
      · next eq =>
        rw [State.updCore_mem]
        exact spillItem_canon eq hm
      · exact hm

@[simp] theorem takeIntr_canon {Q : Prop} (s : State) (t : Nat) (i : Intr) (hm : Canon Q s.mem) :
    Canon Q (takeIntr s t i).mem := by
  simp [takeIntr, hm, -State.setSlot_mem]

@[simp] theorem execInterruptTake_ends {Q : Prop} (t : Nat) (s : State) (hm : Canon Q s.mem) : Ends Q (execInterruptTake t s) := by
  unfold execInterruptTake
  split
  · exact (ends_next _).2 hm
  split
  · exact (ends_next _).2 hm
  split
  · exact (ends_next _).2 hm
  · next e =>
    have h := endInProgress_canon e hm
    split
    · exact (ends_next _).2 h
    · exact (ends_next _).2 (takeIntr_canon _ _ _ h)

/-! ### Partitions and swaps -/

@[simp] theorem putCtx_mem (s : State) (c : Nat) (x : CoreCtx) : (putCtx s c x).mem = s.mem := by simp [putCtx, -State.setSlot_mem]
@[simp] theorem reachCycle_mem (s : State) (p : Nat) (n : Nat) : (reachCycle s p n).mem = s.mem := (rfl)
@[simp] theorem ungate_mem (s : State) (k : Nat) : (ungate s k).mem = s.mem := by simp [ungate]
@[simp] theorem drainBanks_mem (s : State) (c : Nat) : (drainBanks s c).mem = s.mem := by simp [drainBanks]
@[simp] theorem saveDeque_mem (s : State) (c : Nat) : (saveDeque s c).mem = s.mem := by simp [saveDeque]

@[simp] theorem haltSlots_canon {Q : Prop} (s : State) (c : Nat) (hm : Canon Q s.mem) : Canon Q (haltSlots s c).mem := by
  refine canon_foldl _ (fun s i hm => ?_) _ _ hm
  split
  · next e => exact endInProgress_canon e hm
  · exact hm

@[simp] theorem haltCore_canon {Q : Prop} (s : State) (c : Nat) (hm : Canon Q s.mem) : Canon Q (haltCore s c).mem := by
  unfold haltCore
  rw [drainBanks_mem]
  exact haltSlots_canon _ _ (by simp [hm])

@[simp] theorem haltCluster_canon {Q : Prop} (s : State) (k : Nat) (out : Nat) (inc : Option Nat) (reason : Nat) (hm : Canon Q s.mem) :
    Canon Q (haltCluster s k out inc reason).mem :=
  canon_foldl _ (fun s c hm => haltCore_canon s c hm) _ _ hm

@[simp] theorem haltInPlace_canon {Q : Prop} (s : State) (p : Nat) (hm : Canon Q s.mem) : Canon Q (haltInPlace s p).mem :=
  canon_foldl _ (fun s c hm => haltSlots_canon s c hm) _ _ hm

@[simp] theorem flushCore_canon {Q : Prop} (s : State) (c : Nat) (hm : Canon Q s.mem) :
    Canon Q (flushCore s c).mem := by
  simp +contextual [flushCore, hm]

@[simp] theorem execSwapFlush_ends {Q : Prop} (cl : Nat) (s : State) (hm : Canon Q s.mem) : Ends Q (execSwapFlush cl s) := by
  unfold execSwapFlush
  split
  · split
    · exact (ends_next _).2 hm
    split
    · exact (ends_next _).2 hm
    · exact (ends_next _).2 (canon_foldl _ (fun s b hm => flushL2_canon s cl b hm) _ _ (canon_foldl _ (fun s c hm => flushCore_canon s c hm) _ _ hm))
  · exact (ends_next _).2 hm

@[simp] theorem updContract_mem (s : State) (p : Nat) (f : Contract → Contract) : (updContract s p f).mem = s.mem := (rfl)
@[simp] theorem stopCharge_mem (s : State) (p : Nat) : (stopCharge s p).mem = s.mem := (rfl)
@[simp] theorem startCharge_mem (s : State) (p : Nat) : (startCharge s p).mem = s.mem := (rfl)
@[simp] theorem rebalance_mem (s : State) (p : Nat) (reason : Nat) : (rebalance s p reason).mem = s.mem := by unfold rebalance; split <;> simp
@[simp] theorem beginHold_mem (s : State) (p : Nat) : (beginHold s p).mem = s.mem := (rfl)

@[simp] theorem execPartitionSwap_ends {Q : Prop} (out inc reason : Nat) (s : State) (hm : Canon Q s.mem) :
    Ends Q (execPartitionSwap out inc reason s) := by
  unfold execPartitionSwap
  split
  · exact (ends_next _).2 hm
  · exact (ends_next _).2 (canon_foldl _ (fun s k hm => haltCluster_canon s k _ _ _ hm) _ _ (by simp [hm]))

@[simp] theorem execPeriodStart_ends {Q : Prop} (part : Nat) (s : State) (hm : Canon Q s.mem) :
    Ends Q (execPeriodStart part s) := by
  unfold execPeriodStart
  split <;> simp [hm]

@[simp] theorem execBudgetExhausted_ends {Q : Prop} (part : Nat) (s : State) (hm : Canon Q s.mem) :
    Ends Q (execBudgetExhausted part s) := by
  simp only [execBudgetExhausted]
  (repeat' split) <;> simp [hm]

@[simp] theorem execTimeSliceExpiry_ends {Q : Prop} (part : Nat) (s : State) (hm : Canon Q s.mem) :
    Ends Q (execTimeSliceExpiry part s) := by
  unfold execTimeSliceExpiry
  split <;> simp [hm]

@[simp] theorem execPartitionNoWork_ends {Q : Prop} (part : Nat) (s : State) (hm : Canon Q s.mem) :
    Ends Q (execPartitionNoWork part s) := by
  simp [execPartitionNoWork, hm]

@[simp] theorem endLeases_mem (s : State) (p : Nat) (leases : List Nat) : (endLeases s p leases).mem = s.mem := by simp [endLeases]
@[simp] theorem closeLaunches_mem (s : State) (p : Nat) : (closeLaunches s p).mem = s.mem := by unfold closeLaunches; split <;> simp

@[simp] theorem execPartDone_ends {Q : Prop} (a : Reg) (s : State) (hm : Canon Q s.mem) : Ends Q (execPartDone a s) := by
  refine privileged_ends _ _ _ hm ?_
  split
  · simp [hm]
  · next p _ =>
    split
    · simp [hm]
    · refine done_ends _ _ ?_
      rw [closeLaunches_mem]
      split
      · exact State.hostEvent_canon _ _ _ _ _ _ (State.hostEvent_canon _ _ _ _ _ _ hm)
      · exact State.hostEvent_canon _ _ _ _ _ _ hm

/-! ### Mailboxes, registers and trace rings -/

@[simp] theorem serveMailbox_mem (s : State) (m : Nat) : (serveMailbox s m).mem = s.mem := by simp only [serveMailbox]; (repeat' split) <;> simp

@[simp] theorem applyNotify_mem (s : State) (m : Nat) (v : Word) :
    (applyNotify s m v).mem = s.mem := by
  simp only [applyNotify]
  (repeat' split) <;> simp

@[simp] theorem applyHeld_mem (n : Nat) (s : State) (p : Nat) : (applyHeld n s p).mem = s.mem := by
  induction n generalizing s with
  | zero => rfl
  | succ n ih =>
    unfold applyHeld
    split
    · rfl
    · rw [ih]
      simp

@[simp] theorem notify_canon {Q : Prop} (s : State) (m : Nat) (v : Word) (hm : Canon Q s.mem) :
    Canon Q (notify s m v).mem := by
  simp only [notify]
  (repeat' split) <;> simp [hm]

@[simp] theorem execNotifyWrite_ends {Q : Prop} (fn : Nat) (m : Nat) (v : Word) (s : State) (hm : Canon Q s.mem) :
    Ends Q (execNotifyWrite fn m v s) := by
  simp [execNotifyWrite, hm]

@[simp] theorem ringRegister_mem (s : State) (fn : Nat) (m : Nat) (f : Mailbox → Mailbox) :
    (ringRegister s fn m f).mem = s.mem := by
  simp [ringRegister]

@[simp] theorem bar2Register_mem (s : State) (fn : Nat) (f : State → State) (hf : ∀ s, (f s).mem = s.mem) : (bar2Register s fn f).mem = s.mem := by
  unfold bar2Register
  split
  · exact hf s
  · rfl

@[simp] theorem execRegisterWrite_ends {Q : Prop} (fn : Nat) (r : BarReg) (v : Word) (s : State) (hm : Canon Q s.mem) :
    Ends Q (execRegisterWrite fn r v s) := by
  refine (ends_next _).2 ?_
  split
  case h_11 =>
    rw [bar2Register_mem]
    · exact hm
    · intro s
      split <;> rfl
  all_goals simp [hm]

@[simp] theorem copyRing_canon {Q : Prop} (s : State) (port : Nat) (hm : Canon Q s.mem) : Canon Q (copyRing s port).mem := by
  refine canon_foldl _ (fun s e hm => ?_) _ _ (by simp [hm])
  split
  · exact hm
  · exact hm.wrBytes _ _

@[simp] theorem execTraceRingCopy_ends {Q : Prop} (port : Nat) (s : State) (hm : Canon Q s.mem) :
    Ends Q (execTraceRingCopy port s) := by
  simp [execTraceRingCopy, hm]

@[simp] theorem copyRings_canon {Q : Prop} (s : State) (hm : Canon Q s.mem) : Canon Q (copyRings s).mem :=
  canon_foldl _ (fun s p hm => copyRing_canon s p hm) _ _ hm

@[simp] theorem execReplayDivergence_ends {Q : Prop} (part : Nat) (port : Nat) (s : State) (hm : Canon Q s.mem) :
    Ends Q (execReplayDivergence part port s) := by
  simp only [execReplayDivergence]
  split <;> simp [hm, -State.updPart_mem]

@[simp] theorem unspillCore_canon {Q : Prop} (s : State) (p : Nat) (c : Nat) (hm : Canon Q s.mem) :
    Canon Q (unspillCore s p c).mem := by
  simp [unspillCore, hm]

@[simp] theorem preemptLowest_mem (s : State) (c : Nat) (reason : Nat) :
    (preemptLowest s c reason).mem = s.mem := by
  unfold preemptLowest
  split <;> rfl

@[simp] theorem serveMailboxes_mem (s : State) : (serveMailboxes s).mem = s.mem := by simp [serveMailboxes]

@[simp] theorem restored_canon {Q : Prop} (s : State) (p : Nat) (k : Nat) (hm : Canon Q s.mem) :
    Canon Q (restored s p k).mem := by
  simp +contextual [restored, hm]

@[simp] theorem exchange_mem (s : State) (k : Nat) (out : Nat) (inc : Nat) : (exchange s k out inc).mem = s.mem := by simp [exchange]

/-! ### Commands -/

@[simp] theorem cmdDone_canon {Q : Prop} (s : State) (c : Cmd) (status : Nat) (hm : Canon Q s.mem) :
    Canon Q (cmdDone s c status).mem := by
  simp [cmdDone, hm]

@[simp] theorem consume_mem (s : State) (c : Cmd) (n : Nat) : (consume s c n).mem = s.mem := (rfl)

@[simp] theorem rejectPacket_canon {Q : Prop} (s : State) (c : Cmd) (hm : Canon Q s.mem) : Canon Q (rejectPacket s c).mem :=
  cmdDone_canon _ _ _ (canon_foldl _ (fun s e hm => cmdDone_canon s e.cmd 1 hm) _ _ hm)

theorem matinsWaits_canon {Q : Prop} {s t : State} {pa : Nat} {store : Bool} (e : matinsWaits s pa store = some t) (hm : Canon Q s.mem) :
    Canon Q t.mem := by
  unfold matinsWaits at e
  split at e
  · cases e
  · cases e
    simp [hm]
  · split at e
    · cases e
    · dsimp only at e
      split_ifs at e with _ _ _ h
      · cases e
        exact hm
      · cases e
        exact hm
      · cases e
        exact stepTakes_canon _ hm

theorem matinsGate_canon {Q : Prop} {s t : State} {l : List (Nat × Nat × Bool)} (e : matinsGate s l = some t) (hm : Canon Q s.mem) :
    Canon Q t.mem := by
  unfold matinsGate at e
  split_ifs at e
  obtain ⟨x, -, hx⟩ := List.exists_of_findSome?_eq_some e
  obtain ⟨y, -, hy⟩ := List.exists_of_findSome?_eq_some hx
  exact matinsWaits_canon hy hm

@[simp] theorem matinsWrite_canon {Q : Prop} (s : State) (pa : Nat) (l : List Byte) (hm : Canon Q s.mem) :
    Canon Q (matinsWrite s pa l).mem := by
  simp [matinsWrite, hm]

theorem command_ends {Q : Prop} {c : Cmd} {ty : Nat} {ops : List Word} {mem : List (Nat × Nat × Bool)} {pf vf : Bool} {s : State}
    {k : State → State} (hm : Canon Q s.mem) (hk : ∀ s, Canon Q s.mem → Canon Q (k s).mem) : Ends Q (command c ty ops mem pf vf s k) := by
  unfold command
  split
  · exact (ends_next _).2 hm
  dsimp only
  split
  · exact (ends_next _).2 (rejectPacket_canon _ _ hm)
  refine (ends_ite _ _ _).2 ⟨fun _ => (ends_next _).2 (cmdDone_canon _ _ _ hm), fun _ => ?_⟩
  split
  · next e => exact (ends_next _).2 (matinsGate_canon e hm)
  · exact (ends_next _).2 (hk _ hm)

/-- A command that is granted leaves a state whose memory is canonical. -/
def Granted (Q : Prop) (r : Except Nat State) : Prop := ∀ t, r = .ok t → Canon Q t.mem

@[simp] theorem granted_ok {Q : Prop} (s : State) : Granted Q (.ok s) ↔ Canon Q s.mem := by simp [Granted]
@[simp] theorem granted_error {Q : Prop} (n : Nat) : Granted Q (.error n) := by simp [Granted]

@[simp] theorem granted_ite {Q : Prop} (c : Prop) [Decidable c] (a b : Except Nat State) :
    Granted Q (if c then a else b) ↔ (c → Granted Q a) ∧ (¬c → Granted Q b) := by
  split <;> simp_all

theorem Granted.ite {Q : Prop} {c : Prop} [Decidable c] {a b : Except Nat State} (ha : Granted Q a) (hb : Granted Q b) :
    Granted Q (if c then a else b) := (granted_ite c a b).2 ⟨fun _ => ha, fun _ => hb⟩

theorem answered_canon {Q : Prop} {c : Cmd} {r : Except Nat State} {s : State} (hm : Canon Q s.mem) (hr : Granted Q r) :
    Canon Q (answered c r s).mem := by
  unfold answered
  split
  · next t => exact cmdDone_canon _ _ _ (hr t rfl)
  · exact cmdDone_canon _ _ _ hm

@[simp] theorem execEventCfg_ends {Q : Prop} (c : Cmd) (ring : Word) (s : State) (hm : Canon Q s.mem) : Ends Q (execEventCfg c ring s) := by
  unfold execEventCfg
  exact command_ends hm fun s hm => answered_canon hm (by simp [hm])

@[simp] theorem execPreemptCmd_ends {Q : Prop} (c : Cmd) (core slot : Nat) (s : State) (hm : Canon Q s.mem) :
    Ends Q (execPreemptCmd c core slot s) := by
  unfold execPreemptCmd
  exact command_ends hm fun s hm => answered_canon hm (by simp [hm])

@[simp] theorem execIfenceCmd_ends {Q : Prop} (c : Cmd) (s : State) (hm : Canon Q s.mem) : Ends Q (execIfenceCmd c s) := by
  unfold execIfenceCmd
  dsimp only
  refine command_ends hm fun s hm => answered_canon hm ?_
  rw [granted_ite, granted_ok]
  exact ⟨fun _ => granted_error _, fun _ => canon_foldl _ (fun s k hm => by simp [hm]) _ _ hm⟩

@[simp] theorem execS2Inv_ends {Q : Prop} (c : Cmd) (page : Word) (s : State) (hm : Canon Q s.mem) : Ends Q (execS2Inv c page s) := by
  unfold execS2Inv
  dsimp only
  split
  · exact (ends_next _).2 hm
  · refine command_ends hm fun s hm => answered_canon hm ?_
    rw [granted_ite, granted_ite, granted_ok]
    exact ⟨fun _ => granted_error _, fun _ => ⟨fun _ => granted_error _, fun _ => canon_foldl _ (fun s k hm => by simp [hm]) _ _ hm⟩⟩

@[simp] theorem execMbxAssign_ends {Q : Prop} (c : Cmd) (m : Nat) (e : MbxAssign) (s : State) (hm : Canon Q s.mem) :
    Ends Q (execMbxAssign c m e s) := by
  unfold execMbxAssign
  exact command_ends hm fun s hm => answered_canon hm (by simp [hm])

@[simp] theorem execRouteLoad_ends {Q : Prop} (c : Cmd) (dev : Nat) (es : List (Nat × BitVec 32)) (s : State) (hm : Canon Q s.mem) :
    Ends Q (execRouteLoad c dev es s) := by
  unfold execRouteLoad
  refine command_ends hm fun s hm => answered_canon hm ?_
  rw [granted_ite, granted_ite, granted_ok]
  exact ⟨fun _ => granted_error _, fun _ => ⟨fun _ => granted_error _, fun _ => hm⟩⟩

@[simp] theorem execRankWrite_ends {Q : Prop} (c : Cmd) (es : List (Nat × BitVec 32)) (s : State) (hm : Canon Q s.mem) :
    Ends Q (execRankWrite c es s) := by
  unfold execRankWrite
  refine command_ends hm fun s hm => answered_canon hm ?_
  rw [granted_ite, granted_ok, resolveParked_mem]
  exact ⟨fun _ => granted_error _, fun _ => hm⟩

@[simp] theorem switchRings_mem (s : State) (on : Bool) : (switchRings s on).mem = s.mem := by simp [switchRings, -State.updProc_mem]

@[simp] theorem execRecord_ends {Q : Prop} (c : Cmd) (mode trace mbox : Nat) (s : State) (hm : Canon Q s.mem) :
    Ends Q (execRecord c mode trace mbox s) := by
  unfold execRecord
  dsimp only
  refine command_ends hm fun s hm => answered_canon hm ?_
  rw [granted_ite, granted_ite]
  refine ⟨fun _ => granted_error _, fun _ => ⟨fun _ => granted_error _, fun _ => (granted_ok _).2 ?_⟩⟩
  refine canon_foldl _ (fun s n hm => notify_canon s n.1 n.2 hm) _ _ ?_
  rw [switchRings_mem, State.updPart_mem]
  exact copyRings_canon _ hm

@[simp] theorem execContract_ends {Q : Prop} (c : Cmd) (e : BitVec 256) (s : State) (hm : Canon Q s.mem) : Ends Q (execContract c e s) := by
  unfold execContract
  extract_lets p
  clear_value p
  dsimp only
  refine command_ends hm fun s hm => answered_canon hm ?_
  repeat' apply Granted.ite
  any_goals exact granted_error _
  · rw [granted_ok, rebalance_mem]
    exact hm
  · rw [granted_ok, rebalance_mem, State.mem_ite, startCharge_mem, ite_self, State.updPart_mem]
    split <;> simp [hm]

@[simp] theorem execHdmCfg_ends {Q : Prop} (c : Cmd) (base size table : Nat) (s : State) (hm : Canon Q s.mem) :
    Ends Q (execHdmCfg c base size table s) := by
  unfold execHdmCfg
  refine command_ends hm fun s hm => answered_canon hm ?_
  dsimp only
  rw [granted_ite, granted_ite, granted_ok]
  exact ⟨fun _ => granted_error _, fun _ => ⟨fun _ => granted_error _, fun _ => hm.clear _ _⟩⟩

@[simp] theorem execBiasSet_ends {Q : Prop} (c : Cmd) (page count : Nat) (host : Bool) (s : State) (hm : Canon Q s.mem) :
    Ends Q (execBiasSet c page count host s) := by
  unfold execBiasSet
  refine command_ends hm fun s hm => ?_
  split
  · exact cmdDone_canon _ _ _ hm
  · exact stepLink_canon _ hm

@[simp] theorem execImageLoad_ends {Q : Prop} (c : Cmd) (addr len : Nat) (mask : BitVec 128) (s : State) (hm : Canon Q s.mem) :
    Ends Q (execImageLoad c addr len mask s) := by
  unfold execImageLoad
  refine command_ends hm fun s hm => ?_
  dsimp only
  split
  · exact cmdDone_canon _ _ _ hm
  · exact cmdDone_canon _ _ _ (canon_foldl _ (fun s j hm => by simp [hm]) _ _ hm)

@[simp] theorem execRegionBind_ends {Q : Prop} (c : Cmd) (idx : Nat) (e : BitVec 256) (s : State) (hm : Canon Q s.mem) :
    Ends Q (execRegionBind c idx e s) := by
  unfold execRegionBind
  refine command_ends hm fun s hm => ?_
  dsimp only
  split
  · exact cmdDone_canon _ _ _ hm
  · exact cmdDone_canon _ _ _ (hm.clear _ _)

@[simp] theorem landed_canon {Q : Prop} (rg : BitVec 256) (s : State) (m : Msg) (hm : Canon Q s.mem) :
    Canon Q (landed rg s m).mem := by
  unfold landed
  split <;> simp [hm]

@[simp] theorem flushRegion_canon {Q : Prop} (s : State) (rg : BitVec 256) (hm : Canon Q s.mem) : Canon Q (flushRegion s rg).mem :=
  canon_foldl _ (fun _ _ hm => canon_foldl _ (fun _ _ hm => hm.wrMask _ _ _) _ _ hm) _ _ hm

@[simp] theorem recallLines_canon {Q : Prop} (s0 : State) (rg : BitVec 256) (hm : Canon Q s0.mem) : Canon Q (recallLines s0 rg).mem := by
  have hs : Canon Q (flushRegion ((s0.net.filter (concerns rg)).foldl (landed rg) s0) rg).mem :=
    flushRegion_canon _ _ (canon_foldl _ (fun s m hm => landed_canon rg s m hm) _ _ hm)
  refine canon_foldl _ (fun s a hm => releaseHost_canon _ _ _ hm) _ _ (canon_foldl _ (fun s x hm => ?_) _ _ (canon_foldl _ (fun s x hm => ?_) _ _ hs))
  · rw [evictHost_mem]
    exact hm
  · dsimp only
    rw [setLine_mem]
    split
    · split
      · exact landed_canon _ _ _ hm
      · split
        · exact hm.wrMask _ _ _
        · exact hm.wrBlock _ _
    · exact hm.wrMask _ _ _
    · exact hm

@[simp] theorem endRegion_mem (s : State) (idx : Nat) (rg : BitVec 256) : (endRegion s idx rg).mem = s.mem := by simp [endRegion, -State.post_mem]

@[simp] theorem execRegionUnbind_ends {Q : Prop} (c : Cmd) (idx : Nat) (s : State) (hm : Canon Q s.mem) : Ends Q (execRegionUnbind c idx s) := by
  unfold execRegionUnbind
  dsimp only
  split
  · exact (ends_next _).2 hm
  · refine command_ends hm fun s hm => ?_
    split
    · exact cmdDone_canon _ _ _ hm
    split
    · exact cmdDone_canon _ _ _ hm
    · refine cmdDone_canon _ _ _ ?_
      rw [endRegion_mem]
      exact recallLines_canon _ _ hm

@[simp] theorem deliver_canon {Q : Prop} (s : State) (c : Cmd) (m : Nat) (v : Word) (msg : BitVec 448) (hm : Canon Q s.mem) :
    Canon Q (deliver s c m v msg).2.mem := by
  unfold deliver
  split
  · exact hm
  split
  · exact hm
  split
  · exact hm
  dsimp only
  split
  · exact hm
  · exact notify_canon _ _ _ (matinsWrite_canon _ _ _ (matinsWrite_canon _ _ _ hm))

@[simp] theorem failAtTarget_mem (s : State) (p : Nat) (g : PartCfg) (r : PageReq) : (failAtTarget s p g r).mem = s.mem := by simp [failAtTarget]

@[simp] theorem failLaunch_canon {Q : Prop} (s : State) (p : Nat) (l : Launch) (status : Nat) (hm : Canon Q s.mem) :
    Canon Q (failLaunch s p l status).mem := by
  simp [failLaunch, hm]

@[simp] theorem failResidency_canon {Q : Prop} (s : State) (p : Nat) (g : PartCfg) (r : PageReq) (hm : Canon Q s.mem) :
    Canon Q (failResidency s p g r).mem := by
  simp +contextual [failResidency, hm]

@[simp] theorem pageReply_canon {Q : Prop} (s : State) (p : Nat) (w : Word) (hm : Canon Q s.mem) : Canon Q (pageReply s p w).mem := by
  unfold pageReply
  dsimp only
  split
  · exact hm
  split
  · have h := canon_foldl (Q := Q) (fun s (x : Nat × Word × Cause) => faultWaiting s x.1 x.2.2 x.2.1)
      (fun s x hm => faultWaiting_canon s x.1 x.2.2 x.2.1 hm)
    split
    · refine failResidency_canon _ _ _ _ ?_
      rw [failAtTarget_mem]
      exact h _ _ hm
    · exact h _ _ hm
  · exact canon_foldl _ (fun s x hm => by simp [hm]) _ _ hm

@[simp] theorem performEntry_canon {Q : Prop} (s : State) (e : PacketEntry) (hm : Canon Q s.mem) :
    Canon Q (performEntry s e).mem := by
  unfold performEntry
  split <;> simp [hm]

@[simp] theorem packetStep_canon {Q : Prop} (s : State) (c : Cmd) (e : PacketEntry) (hm : Canon Q s.mem) : Canon Q (packetStep s c e).mem := by
  unfold packetStep
  dsimp only
  split
  · exact rejectPacket_canon _ _ hm
  split
  · exact hm
  split
  · next e => exact matinsGate_canon e hm
  · exact canon_foldl _ (fun s e hm => performEntry_canon s e hm) _ _ hm

@[simp] theorem packetCommand_ends {Q : Prop} (c : Cmd) (ty : Nat) (ops : List Word) (e : PacketEntry) (s : State) (hm : Canon Q s.mem) :
    Ends Q (packetCommand c ty ops e s) := by
  simp [packetCommand, hm]

@[simp] theorem execDeliver_ends {Q : Prop} (c : Cmd) (m : Nat) (v : Word) (msg : BitVec 448) (s : State) (hm : Canon Q s.mem) :
    Ends Q (execDeliver c m v msg s) := by
  simp [execDeliver, hm]

@[simp] theorem execPageReply_ends {Q : Prop} (c : Cmd) (w : Word) (s : State) (hm : Canon Q s.mem) :
    Ends Q (execPageReply c w s) := by
  simp [execPageReply, hm]

@[simp] theorem rejectEntry_canon {Q : Prop} (s : State) (m : Nat) (hm : Canon Q s.mem) : Canon Q (rejectEntry s m).mem := by simp [rejectEntry, hm]

/-! ### The life of a partition -/

@[simp] theorem vacate_mem (s : State) (p : Nat) (k : Nat) : (vacate s p k).mem = s.mem := by unfold vacate; split <;> simp [-State.setCore_mem]

@[simp] theorem occupy_mem (s : State) (p : Nat) (k : Nat) :
    (occupy s p k).mem = s.mem := by
  unfold occupy
  split <;> simp [-State.setCore_mem, -State.updCluster_mem]

@[simp] theorem clearTags_canon {Q : Prop} (s : State) (p : Nat) (g : PartCfg) (hm : Canon Q s.mem) : Canon Q (clearTags s p g).mem := by
  refine canon_foldl _ (fun s i hm => ?_) _ _ hm
  split
  · exact matinsWrite_canon _ _ _ hm
  · exact hm

@[simp] theorem execPartCfg_ends {Q : Prop} (c : Cmd) (pa : Nat) (s : State) (hm : Canon Q s.mem) : Ends Q (execPartCfg c pa s) := by
  unfold execPartCfg
  dsimp only
  refine command_ends hm fun s hm => ?_
  split
  · exact cmdDone_canon _ _ _ hm
  split
  · exact cmdDone_canon _ _ _ hm
  · have hv : Canon Q ((partClusters s (cmdPart c)).foldl (fun s k => vacate s (cmdPart c) k) s).mem :=
      canon_foldl _ (fun s k hm => by simp [hm]) _ _ hm
    exact cmdDone_canon _ _ _ (canon_foldl _ (fun s k hm => by simp [hm]) _ _ (clearTags_canon _ _ _ hv))

@[simp] theorem startSplit_mem (s : State) (p : Nat) (c : Nat) : (startSplit s p c).mem = s.mem := by simp [startSplit]
@[simp] theorem scheduled_mem (s : State) (p : Nat) : (scheduled s p).mem = s.mem := by simp [scheduled]

@[simp] theorem execPartStart_ends {Q : Prop} (c : Cmd) (s : State) (hm : Canon Q s.mem) : Ends Q (execPartStart c s) := by
  unfold execPartStart
  dsimp only
  refine command_ends hm fun s hm => ?_
  split
  · exact cmdDone_canon _ _ _ hm
  split
  · exact cmdDone_canon _ _ _ hm
  · refine cmdDone_canon _ _ _ ?_
    rw [scheduled_mem]
    refine canon_foldl _ (fun s k hm => ?_) _ _ hm
    rw [updSlotsOf_mem, updCoreOf_mem, startSplit_mem]
    exact hm

@[simp] theorem endLaunches_canon {Q : Prop} (s : State) (p : Nat) (hm : Canon Q s.mem) :
    Canon Q (endLaunches s p).mem := by
  simp +contextual [endLaunches, hm]

@[simp] theorem stopPart_canon {Q : Prop} (s : State) (p : Nat) (hm : Canon Q s.mem) :
    Canon Q (stopPart s p).mem := by
  simp [stopPart, hm, -State.updPart_mem]

@[simp] theorem clearPart_mem (s : State) (p : Nat) (g : PartCfg) : (clearPart s p g).mem = s.mem := by simp [clearPart, -State.updCluster_mem]

theorem canon_foldl_of_eq {α : Type} {Q : Prop} (f : State → α → State) (hf : ∀ s a t, t = f s a → Canon Q s.mem → Canon Q t.mem) (l : List α)
    (s : State) (hm : Canon Q s.mem) : Canon Q (l.foldl f s).mem :=
  canon_foldl f (fun s a hm => hf s a _ rfl hm) l s hm

theorem canon_of_matinsWrite {Q : Prop} {s t : State} {pa : Nat} {l : List Byte} (e : t = matinsWrite s pa l) (hm : Canon Q s.mem) :
    Canon Q t.mem := by
  rw [e]
  exact matinsWrite_canon _ _ _ hm

@[simp] theorem writeImage_canon {Q : Prop} (s : State) (p area : Nat) (g : PartCfg) (hm : Canon Q s.mem) : Canon Q (writeImage s p area g).mem :=
  canon_foldl_of_eq _ (fun _ _ _ e hm => canon_of_matinsWrite e hm) _ _ (canon_foldl_of_eq _ (fun _ _ _ e hm => canon_of_matinsWrite e hm) _ _
    (matinsWrite_canon _ _ _ hm))

@[simp] theorem finishEnding_canon {Q : Prop} (s : State) (p : Nat) (hm : Canon Q s.mem) : Canon Q (finishEnding s p).mem := by
  unfold finishEnding
  split
  · dsimp only
    split
    · exact hm
    split
    · rw [rebalance_mem]
      exact cmdDone_canon _ _ _ (by simp [hm])
    split
    · exact hm
    split
    · next e => exact matinsGate_canon e hm
    · rw [rebalance_mem]
      refine cmdDone_canon _ _ _ ?_
      rw [State.updPart_mem, clearPart_mem]
      exact stopPart_canon _ _ (writeImage_canon _ _ _ _ hm)
  · exact hm

@[simp] theorem beginEnding_canon {Q : Prop} (s : State) (p : Nat) (e : Ending) (hm : Canon Q s.mem) : Canon Q (beginEnding s p e).mem := by
  refine finishEnding_canon _ _ (canon_foldl _ (fun s k hm => ?_) _ _ ?_)
  · split
    · exact haltCluster_canon _ _ _ _ _ hm
    · exact hm
  · split <;> simp [hm]

@[simp] theorem execPartStop_ends {Q : Prop} (c : Cmd) (s : State) (hm : Canon Q s.mem) : Ends Q (execPartStop c s) := by
  unfold execPartStop
  dsimp only
  split
  · exact (ends_next _).2 hm
  · refine command_ends hm fun s hm => ?_
    split
    · exact cmdDone_canon _ _ _ hm
    · exact beginEnding_canon _ _ _ hm

@[simp] theorem execPartExport_ends {Q : Prop} (c : Cmd) (area size : Nat) (s : State) (hm : Canon Q s.mem) :
    Ends Q (execPartExport c area size s) := by
  unfold execPartExport
  dsimp only
  split
  · exact (ends_next _).2 hm
  · refine command_ends hm fun s hm => ?_
    split
    · exact cmdDone_canon _ _ _ hm
    split
    · exact cmdDone_canon _ _ _ hm
    split
    · exact cmdDone_canon _ _ _ hm
    split
    · exact cmdDone_canon _ _ _ hm
    · exact beginEnding_canon _ _ _ hm

@[simp] theorem importCore_mem (s : State) (p : Nat) (area : Nat) (i : Nat) (c : Nat) :
    (importCore s p area i c).mem = s.mem := by
  simp only [importCore]
  split <;> simp

@[simp] theorem execPartImport_ends {Q : Prop} (c : Cmd) (area : Nat) (s : State) (hm : Canon Q s.mem) : Ends Q (execPartImport c area s) := by
  unfold execPartImport
  dsimp only
  refine command_ends hm fun s hm => ?_
  split
  · exact cmdDone_canon _ _ _ hm
  split
  · exact cmdDone_canon _ _ _ hm
  · refine cmdDone_canon _ _ _ (canon_foldl _ (fun s k hm => ?_) _ _ ?_)
    · split
      · simp [hm]
      · exact hm
    · rw [scheduled_mem]
      refine canon_foldl _ (fun s x hm => ?_) _ _ (canon_foldl _ (fun s x hm => ?_) _ _ hm)
      · rw [State.updCluster_mem]
        exact hm
      · rw [importCore_mem]
        exact hm

@[simp] theorem execSwapExchange_ends {Q : Prop} (cl : Nat) (s : State) (hm : Canon Q s.mem) :
    Ends Q (execSwapExchange cl s) := by
  simp only [execSwapExchange]
  (repeat' split) <;> simp [hm]

@[simp] theorem setLaunch_mem (s : State) (p : Nat) (l : Launch) (m : Launch) : (setLaunch s p l m).mem = s.mem := (rfl)

@[simp] theorem grantLeases_mem (s : State) (p : Nat) (ns : List Nat) (ranges : List (Word × Word)) :
    (grantLeases s p ns ranges).mem = s.mem := by
  simp [grantLeases]

@[simp] theorem advanceLaunch_canon {Q : Prop} (s : State) (p : Nat) (l : Launch) (hm : Canon Q s.mem) : Canon Q (advanceLaunch s p l).mem := by
  unfold advanceLaunch
  split
  · exact hm
  · extract_lets seedIt leaseIt
    have hseed : ∀ s l, Canon Q s.mem → Canon Q (seedIt s l).mem := by
      intro s l hm
      simp only [seedIt]
      split
      · simp [hm]
      · split <;> simp [hm]
    clear_value seedIt
    have hlease : ∀ s l, Canon Q s.mem → Canon Q (leaseIt s l).mem := by
      intro s l hm
      simp only [leaseIt]
      split
      · next e =>
        rw [setLaunch_mem]
        exact matinsGate_canon e hm
      · split
        · simp [hm]
        · exact hseed _ _ (by simp [hm])
    clear_value leaseIt
    split
    · split
      · exact hlease _ _ hm
      · split
        · exact hlease _ _ hm
        · simp [hm]
        · simp [hm]
    · exact hlease _ _ hm
    · exact hm

@[simp] theorem execLaunch_ends {Q : Prop} (c : Cmd) (recs : List (Word × Bool)) (ranges : List (Word × Word)) (quota : Nat) (s : State)
    (hm : Canon Q s.mem) : Ends Q (execLaunch c recs ranges quota s) := by
  unfold execLaunch
  dsimp only
  refine command_ends hm fun s hm => ?_
  split
  · exact cmdDone_canon _ _ _ hm
  split
  · exact cmdDone_canon _ _ _ hm
  · exact advanceLaunch_canon _ _ _ hm

@[simp] theorem seedRec_mem (s : State) (p : Nat) (c : Nat) (r : Rec) : (seedRec s p c r).mem = s.mem := by simp [seedRec]
@[simp] theorem seedNext_mem (s : State) (p : Nat) : (seedNext s p).mem = s.mem := by simp only [seedNext]; (repeat' split) <;> simp

@[simp] theorem execLaunchSeed_ends {Q : Prop} (part : Nat) (s0 : State) (hm : Canon Q s0.mem) :
    Ends Q (execLaunchSeed part s0) := by
  simp +contextual [execLaunchSeed, hm]

/-! ### Start, power and faults -/

@[simp] theorem restartState_canon {Q : Prop} (s : State) (warm : Bool) (b : Boot) (hm : Canon Q s.mem) : Canon Q (restartState s warm b).mem :=
  hm.filter _

@[simp] theorem start_canon {Q : Prop} (s : State) (warm : Bool) (img : BootImage) (hm : Canon Q s.mem) :
    Canon Q (start s warm img).mem := by
  simp [start, hm]

@[simp] theorem execPowerOn_ends {Q : Prop} (img : BootImage) (s : State) (hm : Canon Q s.mem) :
    Ends Q (execPowerOn img s) := by
  simp [execPowerOn, hm]

@[simp] theorem execFundamentalReset_ends {Q : Prop} (img : BootImage) (s : State) (hm : Canon Q s.mem) :
    Ends Q (execFundamentalReset img s) := by
  simp [execFundamentalReset, hm]

@[simp] theorem execHotReset_ends {Q : Prop} (img : BootImage) (s : State) (hm : Canon Q s.mem) :
    Ends Q (execHotReset img s) := by
  simp [execHotReset, hm]

@[simp] theorem execBootReset_ends {Q : Prop} (img : BootImage) (s : State) (hm : Canon Q s.mem) :
    Ends Q (execBootReset img s) := by
  simp [execBootReset, hm]

@[simp] theorem execD3hotEntry_ends {Q : Prop} (s : State) (hm : Canon Q s.mem) : Ends Q (execD3hotEntry s) := by simp [execD3hotEntry, hm]
@[simp] theorem execPowerOff_ends {Q : Prop} (s : State) (hm : Canon Q s.mem) : Ends Q (execPowerOff s) := by simp [execPowerOff, hm]

@[simp] theorem execClusterClockGate_ends {Q : Prop} (cl : Nat) (s : State) (hm : Canon Q s.mem) :
    Ends Q (execClusterClockGate cl s) := by
  simp [execClusterClockGate, hm]

@[simp] theorem execClusterPowerGate_ends {Q : Prop} (cl : Nat) (s : State) (hm : Canon Q s.mem) :
    Ends Q (execClusterPowerGate cl s) := by
  simp [execClusterPowerGate, hm]

@[simp] theorem execClusterWake_ends {Q : Prop} (cl : Nat) (s : State) (hm : Canon Q s.mem) :
    Ends Q (execClusterWake cl s) := by
  simp [execClusterWake, hm]

@[simp] theorem execAttestRequest_ends {Q : Prop} (s : State) (hm : Canon Q s.mem) : Ends Q (execAttestRequest s) := by simp [execAttestRequest, hm]
@[simp] theorem execRefresh_ends {Q : Prop} (_ctl : Nat) (s : State) (hm : Canon Q s.mem) : Ends Q (execRefresh _ctl s) := by simp [execRefresh, hm]

@[simp] theorem execRecalibration_ends {Q : Prop} (_ctl : Nat) (s : State) (hm : Canon Q s.mem) :
    Ends Q (execRecalibration _ctl s) := by
  simp [execRecalibration, hm]

@[simp] theorem countError_mem (s : State) (pa : Nat) : (countError s pa).mem = s.mem := (rfl)

@[simp] theorem execScrub_ends {Q : Prop} (pa : Nat) (err : EccError) (s : State) (hm : Canon Q s.mem) :
    Ends Q (execScrub pa err s) := by
  unfold execScrub
  split <;> simp [hm]

@[simp] theorem execThrottleRaise_ends {Q : Prop} (s : State) (hm : Canon Q s.mem) : Ends Q (execThrottleRaise s) := by simp [execThrottleRaise, hm]
@[simp] theorem execThrottleLower_ends {Q : Prop} (s : State) (hm : Canon Q s.mem) : Ends Q (execThrottleLower s) := by simp [execThrottleLower, hm]

@[simp] theorem execThermalShutdown_ends {Q : Prop} (s : State) (hm : Canon Q s.mem) :
    Ends Q (execThermalShutdown s) := by
  simp [execThermalShutdown, hm]

@[simp] theorem execTelemetrySample_ends {Q : Prop} (t : Telemetry) (s : State) (hm : Canon Q s.mem) :
    Ends Q (execTelemetrySample t s) := by
  simp [execTelemetrySample, hm]

@[simp] theorem execCxlIoCompletion_ends {Q : Prop} (t : Nat) (s : State) (hm : Canon Q s.mem) :
    Ends Q (execCxlIoCompletion t s) := by
  unfold execCxlIoCompletion
  split <;> simp [hm]

/-! ### Handler instructions -/

@[simp] theorem inHandler_ends {Q : Prop} (base : Nat) (s : State) (k : HCtx → Out) (hm : Canon Q s.mem) (hk : ∀ h, Ends Q (k h)) :
    Ends Q (inHandler base s k) := by
  unfold inHandler
  split
  · exact illegalOp_ends _ _ hm
  split
  · exact hk _
  · exact illegalOp_ends _ _ hm

@[simp] theorem forwarding_ends {Q : Prop} (h : HCtx) (s : State) (k : State → Out) (hm : Canon Q s.mem)
    (hk : ∀ s, Canon Q s.mem → Ends Q (k s)) : Ends Q (forwarding h s k) := by
  unfold forwarding
  split
  · exact trap_ends _ _ _ hm
  · exact hk _ hm

@[simp] theorem execTagGnt_ends {Q : Prop} (a : Reg) (b : Reg) (s : State) (hm : Canon Q s.mem) :
    Ends Q (execTagGnt a b s) := by
  simp [execTagGnt, hm]

@[simp] theorem execTagGntd_ends {Q : Prop} (a : Reg) (b : Reg) (s : State) (hm : Canon Q s.mem) :
    Ends Q (execTagGntd a b s) := by
  simp [execTagGntd, hm]

@[simp] theorem execTagRcl_ends {Q : Prop} (a b : Reg) (s : State) (hm : Canon Q s.mem) : Ends Q (execTagRcl a b s) := by
  refine inHandler_ends _ _ _ hm fun h => ?_
  dsimp only
  split
  · exact trap_ends _ _ _ hm
  · refine forwarding_ends _ _ _ hm fun s hm => done_ends _ _ ?_
    rw [sendTo_mem]
    exact hm

@[simp] theorem execDirWr_ends {Q : Prop} (s : State) (hm : Canon Q s.mem) : Ends Q (execDirWr s) :=
  inHandler_ends _ _ _ hm fun _ => done_ends _ _ ((hm.wrWord _ _).wrWord _ _)

@[simp] theorem dirEdit_ends {Q : Prop} (f : De → Nat → De) (a : Reg) (s : State) (hm : Canon Q s.mem) :
    Ends Q (dirEdit f a s) := by
  simp [dirEdit, hm]

@[simp] theorem execDirShadd_ends {Q : Prop} (a : Reg) (s : State) (hm : Canon Q s.mem) : Ends Q (execDirShadd a s) := by simp [execDirShadd, hm]
@[simp] theorem execDirShdel_ends {Q : Prop} (a : Reg) (s : State) (hm : Canon Q s.mem) : Ends Q (execDirShdel a s) := by simp [execDirShdel, hm]

@[simp] theorem execMsgSend_ends {Q : Prop} (a b : Reg) (s : State) (hm : Canon Q s.mem) : Ends Q (execMsgSend a b s) := by
  refine inHandler_ends _ _ _ hm fun h => ?_
  dsimp only
  split
  · exact trap_ends _ _ _ hm
  · refine (ends_ite _ _ _).2 ⟨fun _ => done_ends _ _ ?_, fun _ => forwarding_ends _ _ _ hm fun s hm => done_ends _ _ ?_⟩
    · rw [sendTo_mem]
      exact hm
    · rw [sendTo_mem]
      exact hm

@[simp] theorem execMsgMcast_ends {Q : Prop} (d a b : Reg) (s : State) (hm : Canon Q s.mem) : Ends Q (execMsgMcast d a b s) := by
  refine inHandler_ends _ _ _ hm fun h => ?_
  dsimp only
  split
  · exact trap_ends _ _ _ hm
  · refine forwarding_ends _ _ _ hm fun s hm => result_ends _ _ _ _ ?_
    split
    · exact canon_foldl _ (fun s g hm => by simp [hm]) _ _ hm
    · rw [multicast_mem]
      exact hm

@[simp] theorem execBtRd_ends {Q : Prop} (a b : Reg) (s : State) (hm : Canon Q s.mem) : Ends Q (execBtRd a b s) :=
  inHandler_ends _ _ _ hm fun _ => .finish (Res.ofExcept_canon _ _ hm) fun _ _ hm => doneFar_ends _ _ _ hm

@[simp] theorem execBtWr_ends {Q : Prop} (a b : Reg) (s : State) (hm : Canon Q s.mem) : Ends Q (execBtWr a b s) := by
  refine inHandler_ends _ _ _ hm fun _ => .finish (Res.ofExcept_canon _ _ hm) fun _ _ hm => doneFar_ends _ _ _ ?_
  rw [unpoison_mem]
  exact hm.wrBlock _ _

@[simp] theorem execBtMrg_ends {Q : Prop} (a b : Reg) (s : State) (hm : Canon Q s.mem) : Ends Q (execBtMrg a b s) :=
  inHandler_ends _ _ _ hm fun _ => .finish (Res.ofExcept_canon _ _ hm) fun _ _ hm => doneFar_ends _ _ _ (hm.wrBlock _ _)

@[simp] theorem execHend_ends {Q : Prop} (s : State) (hm : Canon Q s.mem) : Ends Q (execHend s) := by
  refine inHandler_ends _ _ _ hm fun h => (ends_next _).2 (settleHome_canon _ ?_)
  rw [watch_mem]
  refine wakeProc_canon _ _ ?_
  split
  · rw [replyTo_mem]
    exact hm
  · exact hm

@[simp] theorem execHfail_ends {Q : Prop} (a : Reg) (b : Reg) (s : State) (hm : Canon Q s.mem) : Ends Q (execHfail a b s) := by simp [execHfail, hm]

@[simp] theorem onHostProc_ends {Q : Prop} (base : Nat) (s : State) (k : HCtx → Out) (hm : Canon Q s.mem) (hk : ∀ h, Ends Q (k h)) :
    Ends Q (onHostProc base s k) := by
  refine inHandler_ends _ _ _ hm fun h => ?_
  split
  · exact hk h
  · exact illegalOp_ends _ _ hm

@[simp] theorem execBiasRd_ends {Q : Prop} (d : Reg) (a : Reg) (s : State) (hm : Canon Q s.mem) :
    Ends Q (execBiasRd d a s) := by
  simp [execBiasRd, hm]

@[simp] theorem execBiasWr_ends {Q : Prop} (a b : Reg) (s : State) (hm : Canon Q s.mem) : Ends Q (execBiasWr a b s) :=
  onHostProc_ends _ _ _ hm fun _ => by simp [hm]

@[simp] theorem execBiSnp_ends {Q : Prop} (b : Reg) (s : State) (hm : Canon Q s.mem) : Ends Q (execBiSnp b s) := by
  refine onHostProc_ends _ _ _ hm fun h => ?_
  dsimp only
  split
  · exact trap_ends _ _ _ hm
  · exact forwarding_ends _ _ _ hm fun s hm => by simp [hm]

/-! ### Every instruction -/

@[simp] theorem exec_ends {Q : Prop} (i : Instr) (s : State) (hm : Canon Q s.mem) : Ends Q (exec i s) := by unfold exec; split <;> simp [hm]

/-! ### A step -/

@[simp] theorem countStep_mem (s : State) (t : Nat) : (countStep s t).mem = s.mem := by simp [countStep]

theorem runBytes_ends {Q : Prop} (bs : List Byte) (s : State) (hm : Canon Q s.mem) : Ends Q (runBytes bs s) := by
  unfold runBytes
  dsimp only
  split
  · split
    · exact exec_ends _ _ hm
    split
    · exact wait_ends _ _ hm
    · exact exec_ends _ _ hm
  · exact exec_ends _ _ hm
  · exact exec_ends _ _ hm

@[simp] theorem afterHandler_canon {Q : Prop} (s : State) (t : Nat) (hm : Canon Q s.mem) : Canon Q (afterHandler s t).mem := by
  unfold afterHandler
  split
  · exact hm
  · exact settleHome_canon _ (wakeProc_canon _ _ hm)

theorem afterIssue_ends {Q : Prop} {x : Slot} {bs : List Byte} {t : Nat} {o : Out} (h : Ends Q o) : Ends Q (afterIssue x bs t o) := by
  obtain ⟨s, rfl, hm⟩ := h
  have ha : Canon Q (afterHandler (reexecuted s t) t).mem := afterHandler_canon _ _ (by simp [hm])
  simp [afterIssue, ha]

@[simp] theorem beginIssue_mem (s : State) (t : Nat) : (beginIssue s t).mem = s.mem := by simp [beginIssue]

theorem runSlot_ends {Q : Prop} (s : State) (t : Nat) (hm : Canon Q s.mem) : Ends Q (runSlot s t) := by
  have hf : (fetch (beginIssue s t) t).Canon Q := fetch_canon _ _ (by simp [hm])
  unfold runSlot
  dsimp only
  split
  · next e => exact afterIssue_ends (runBytes_ends _ _ (Canon.of_ok e hf))
  · next e => exact afterIssue_ends (trap_ends _ _ _ (Canon.of_trap e hf))
  · next e => exact afterIssue_ends (wait_ends _ _ (Canon.of_wait e hf))

theorem interruptOr_ends {Q : Prop} {s : State} {t : Nat} {o : Out} (hm : Canon Q s.mem) (ho : Ends Q o) : Ends Q (interruptOr s t o) := by
  obtain ⟨s1, e, h⟩ := runSlot_ends s t hm
  unfold interruptOr
  split
  · exact ho
  · rw [e]
    dsimp only
    split
    · exact (ends_next _).2 h
    · exact ho

theorem settled_canon {Q : Prop} {s s1 : State} (hm : Canon Q s.mem) (h1 : Canon Q s1.mem) : Canon Q (settled s s1).mem := by
  unfold settled
  split
  · exact h1
  · split
    · exact hm
    · rw [State.updPart_mem]
      exact hm

theorem settleOut_ends {Q : Prop} {s : State} {o : Out} (hm : Canon Q s.mem) (ho : Ends Q o) : Ends Q (settleOut s o) := by
  obtain ⟨s1, rfl, h1⟩ := ho
  exact (ends_next _).2 (settled_canon hm h1)

theorem settleIssue_ends {Q : Prop} {s : State} {t : Nat} {o : Out} (hm : Canon Q s.mem) (ho : Ends Q o) : Ends Q (settleIssue s t o) := by
  obtain ⟨s1, rfl, h1⟩ := ho
  rw [settleIssue, ends_next]
  split
  · exact settled_canon hm h1
  · exact h1

/-- An event that answers a next state with canonical memory from every state that has it. -/
def Safe (Q : Prop) (f : State → Out) : Prop := ∀ s, Canon Q s.mem → Ends Q (f s)

theorem forall_mem_nil_safe {Q : Prop} : ∀ f ∈ ([] : List (State → Out)), Safe Q f := fun _ h => absurd h List.not_mem_nil

@[simp] theorem readmitSlot_ends {Q : Prop} (t : Nat) (s : State) (hm : Canon Q s.mem) :
    Ends Q (readmitSlot t s) := by
  unfold readmitSlot
  split <;> simp [hm]

theorem deliverMessage_safe {Q : Prop} (s : State) (k : Nat) : Safe Q (deliverMessage s k) := by
  unfold deliverMessage
  split
  · exact fun t hm => (ends_next _).2 hm
  · split
    case h_8 => split <;> exact fun t hm => by simp [hm]
    case h_11 => split <;> exact fun t hm => by simp [hm]
    all_goals exact fun t hm => by simp [hm]

theorem takePacket_safe {Q : Prop} (p : Packet) : Safe Q (takePacket p) := by
  unfold takePacket
  split
  all_goals exact fun t hm => by simp [hm]

theorem slotEvents_safe {Q : Prop} (t : Nat) : ∀ f ∈ slotEvents t, Safe Q f := by
  simp only [slotEvents, List.forall_mem_cons]
  refine ⟨?_, ?_, ?_, ?_, ?_, ?_, ?_, ?_, ?_, forall_mem_nil_safe⟩
  case refine_7 => exact fun s hm => interruptOr_ends hm (by simp [hm])
  all_goals exact fun s hm => by simp [hm]

theorem coreEvents_safe {Q : Prop} (s : State) (c : Nat) : ∀ f ∈ coreEvents s c, Safe Q f := by
  simp only [coreEvents, List.forall_mem_append, List.forall_mem_map, List.forall_mem_cons, List.forall_mem_flatMap]
  refine ⟨⟨fun k _ s hm => by simp [hm], ?_⟩, ?_⟩
  · refine ⟨?_, ?_, ?_, ?_, ?_, ?_, ?_, ?_, ?_, ?_, ?_, forall_mem_nil_safe⟩
    all_goals exact fun s hm => by simp [hm]
  · refine ⟨?_, ?_, ?_, ?_, fun _ h => absurd h List.not_mem_nil⟩
    all_goals exact ⟨fun s hm => by simp [hm], fun s hm => by simp [hm], fun s hm => by simp [hm], forall_mem_nil_safe⟩

theorem partEvents_safe {Q : Prop} (s : State) (p : Nat) : ∀ f ∈ partEvents s p, Safe Q f := by
  simp only [partEvents, List.forall_mem_append, List.forall_mem_cons]
  refine ⟨⟨fun s hm => by simp [hm], fun s hm => by simp [hm], forall_mem_nil_safe⟩, ?_⟩
  split
  · exact fun f h s hm => by rw [List.mem_singleton.mp h]; simp [hm]
  · exact forall_mem_nil_safe

@[simp] theorem homesGoOn_canon {Q : Prop} (s : State) (hm : Canon Q s.mem) : Canon Q (homesGoOn s).mem := by
  refine settleHome_canon _ (releaseStale_canon _ (canon_foldl _ (fun s x hm => ?_) _ _ hm))
  split
  · exact hm
  · exact wakeProc_canon _ _ hm

theorem promptEvents_safe {Q : Prop} (s : State) : ∀ f ∈ promptEvents s, Safe Q f := by
  simp only [promptEvents, List.forall_mem_append, List.forall_mem_map, List.forall_mem_flatMap]
  refine ⟨⟨⟨⟨⟨⟨⟨⟨⟨⟨⟨⟨⟨⟨⟨?_, ?_⟩, ?_⟩, ?_⟩, ?_⟩, ?_⟩, ?_⟩, ?_⟩, ?_⟩, ?_⟩, ?_⟩, ?_⟩, ?_⟩, ?_⟩, ?_⟩, ?_⟩
  · exact fun k _ => deliverMessage_safe s k
  · exact fun x _ => slotEvents_safe x.1
  · exact fun x _ => partEvents_safe s x.1
  · exact fun c _ => coreEvents_safe s c
  · exact fun k _ s hm => by simp [hm]
  · exact fun k _ s hm => by simp [hm]
  · exact fun k _ s hm => by simp [hm]
  · simp only [List.forall_mem_cons]
    refine ⟨?_, ?_, ?_, ?_, fun _ h => absurd h List.not_mem_nil⟩
    all_goals exact ⟨fun s hm => by simp [hm], fun s hm => by simp [hm], forall_mem_nil_safe⟩
  · exact ⟨⟨fun p _ => takePacket_safe p, fun p _ => takePacket_safe p⟩, fun p _ => takePacket_safe p.2⟩
  · intro q _
    simp only [List.forall_mem_cons, List.forall_mem_map]
    exact ⟨fun s hm => by simp [hm], fun e _ s hm => by simp [hm]⟩
  · exact fun x _ page _ s hm => by simp [hm]
  · exact fun x _ s hm => by simp [hm]
  · exact fun q _ s hm => by simp [hm]
  · intro k _
    simp only [List.forall_mem_cons]
    exact ⟨fun s hm => by simp [hm], fun s hm => by simp [hm], fun s hm => by simp [hm], fun s hm => by simp [hm], forall_mem_nil_safe⟩
  · exact fun m _ s hm => (ends_next _).2 (rejectEntry_canon _ _ hm)
  · simp only [List.forall_mem_cons]
    exact ⟨fun s hm => by simp [hm], fun s hm => (ends_next _).2 (homesGoOn_canon _ hm), forall_mem_nil_safe⟩

theorem timedEvents_safe {Q : Prop} (s : State) : ∀ f ∈ timedEvents s, Safe Q f := by
  simp only [timedEvents, List.forall_mem_append, List.forall_mem_map, List.forall_mem_cons, List.forall_mem_flatMap]
  refine ⟨⟨⟨fun x _ s hm => ?_, fun q _ r _ s hm => ?_⟩, fun k _ => ⟨fun s hm => ?_, fun s hm => ?_, fun s hm => ?_, forall_mem_nil_safe⟩⟩,
    fun x _ => ⟨⟨fun s hm => ?_, fun s hm => ?_, fun s hm => ?_, forall_mem_nil_safe⟩, fun p _ s hm => ?_, fun p _ s hm => ?_⟩⟩
  all_goals simp [hm]

theorem firstChange_canon {Q : Prop} {s t : State} {l : List (State → Out)} {wanted : State → Bool} (e : firstChange s l wanted = some t)
    (hl : ∀ f ∈ l, Safe Q f) (hm : Canon Q s.mem) : Canon Q t.mem := by
  obtain ⟨f, hf, h⟩ := List.exists_of_findSome?_eq_some e
  obtain ⟨s1, e1, h1⟩ := hl f hf s hm
  rw [e1] at h
  dsimp only at h
  split_ifs at h
  cases h
  exact settled_canon hm h1

theorem byDefault_ends {Q : Prop} (s : State) (hm : Canon Q s.mem) : Ends Q (byDefault s) := by
  unfold byDefault
  split
  · exact (ends_next _).2 hm
  split
  · next e => exact (ends_next _).2 (firstChange_canon e (promptEvents_safe s) hm)
  split
  · next e => exact (ends_next _).2 (firstChange_canon e (timedEvents_safe s) hm)
  split
  · exact settleIssue_ends hm (runSlot_ends _ _ hm)
  split
  · next e => exact (ends_next _).2 (firstChange_canon e (timedEvents_safe s) hm)
  · exact (ends_next _).2 hm

theorem runEvent_ends {Q : Prop} (i : Instr) (s : State) (hm : Canon Q s.mem) : Ends Q (runEvent i s) := by
  unfold runEvent
  split
  · exact interruptOr_ends hm (exec_ends _ _ hm)
  · exact exec_ends _ _ hm

@[simp] theorem passTime_mem (s : State) : (passTime s).mem = s.mem := (rfl)
@[simp] theorem dropInput_mem (s : State) : (dropInput s).mem = s.mem := (rfl)

theorem advance_ends {Q : Prop} (s : State) (hs : steps s = true) (hm : Canon Q s.mem) : Ends Q (advance s) := by
  have h1 : Canon Q (dropInput (passTime s)).mem := hm
  unfold advance
  rw [if_neg (by simp [hs])]
  dsimp only
  split
  · split
    · exact settleIssue_ends h1 (runSlot_ends _ _ h1)
    · exact (ends_next _).2 h1
  · exact settleOut_ends h1 (runEvent_ends _ _ h1)
  · refine settleOut_ends h1 ((ends_next _).2 ?_)
    split
    · exact settleHome_canon _ (by simp [hm])
    · exact h1
  · exact settleOut_ends h1 ((ends_next _).2 (rejectEntry_canon _ _ h1))
  · exact byDefault_ends _ h1

/-! ### The two statements -/

theorem advance_stopped {s : State} (h : steps s = false) : advance s = .fault .deviceStopped := by
  rw [advance, if_pos (by simp [h])]

theorem steps_of_next {s t : State} (h : step s = .next t) : steps s = true := by
  by_contra hn
  rw [step, advance_stopped (by simpa using hn)] at h
  cases h

/-- Settles O58: every function of the model keeps the canonical form, so a step does. -/
theorem stepsKeepMemoryCanonical : Obligations.StepsKeepMemoryCanonical := by
  intro s t hs h
  obtain ⟨u, hu, hm⟩ := advance_ends (Q := s.mem.wf = true) s (steps_of_next h) id
  rw [step, hu] at h
  cases h
  exact hm hs

theorem canon_false (m : Memory) : Canon False m := False.elim

/-- Settles O56: every meaning ends in a next state, and a step of a device that takes steps is made of such meanings. -/
theorem nothingIsRefused : Obligations.NothingIsRefused := by
  have hnext : ∀ s, steps s = true → ∃ t, step s = .next t := fun s hs => by
    obtain ⟨t, ht, -⟩ := advance_ends (Q := False) s hs (canon_false _)
    exact ⟨t, ht⟩
  refine ⟨fun i s => ?_, hnext, fun s => ⟨advance_stopped, fun h => ?_⟩⟩
  · obtain ⟨t, ht, -⟩ := exec_ends (Q := False) i s (canon_false _)
    exact ⟨t, ht⟩
  · by_contra hn
    obtain ⟨t, ht⟩ := hnext s (by simpa using hn)
    rw [ht] at h
    cases h

end Sys2Proof.Machine
end

section
/-! Bytes of numbers, and what a memory reads as after each of its writes (R25, log 5). -/

namespace Sys2Proof.Machine

/-! ### Little-endian bytes -/

@[simp] theorem leBytes_length (n x : Nat) : (leBytes n x).length = n := by
  induction n generalizing x with
  | zero => rfl
  | succ n ih => simp [leBytes, ih]

theorem leNat_leBytes (n x : Nat) : leNat (leBytes n x) = x % 256 ^ n := by
  induction n generalizing x with
  | zero => simp [leBytes, leNat, Nat.mod_one]
  | succ n ih =>
    have h : x % 256 ^ (n + 1) = x % 256 + 256 * (x / 256 % 256 ^ n) := by rw [Nat.pow_succ', Nat.mod_mul]
    rw [leBytes, leNat, ih, BitVec.toNat_ofNat, h]

theorem leBytes_getElem (n x i : Nat) (h : i < (leBytes n x).length) : (leBytes n x)[i] = BitVec.ofNat 8 (x / 256 ^ i) := by
  induction n generalizing x i with
  | zero => simp [leBytes] at h
  | succ n ih =>
    cases i with
    | zero => simp [leBytes]
    | succ i =>
      have hi : i < (leBytes n (x / 256)).length := by simpa [leBytes] using h
      simp [leBytes, ih _ _ hi, Nat.pow_succ', Nat.div_div_eq_div_mul]

/-- Byte i of a word is its bits from 8 * i upward. -/
theorem leBytes_getElem_word (v : Word) (i : Nat) (h : i < (leBytes 8 v.toNat).length) : (leBytes 8 v.toNat)[i] = v.extractLsb' (8 * i) 8 := by
  rw [leBytes_getElem]
  apply BitVec.eq_of_toNat_eq
  rw [BitVec.toNat_ofNat, BitVec.extractLsb'_toNat, Nat.shiftRight_eq_div_pow, Nat.pow_mul]

/-! ### Reading after each write -/

theorem Memory.le_wrBytes (m : Memory) (a n x : Nat) : (m.wrBytes a (leBytes n x)).le a n = x % 256 ^ n := by
  have h := Memory.bytes_wrBytes m a (leBytes n x)
  rw [leBytes_length] at h
  rw [Memory.le, h, leNat_leBytes]

theorem Memory.word_wrWord (m : Memory) (a : Nat) (v : Word) : (m.wrWord a v).word a = v := by
  have h : v.toNat % 256 ^ 8 = v.toNat := Nat.mod_eq_of_lt v.isLt
  rw [Memory.word, Memory.wrWord, Memory.le_wrBytes, h, BitVec.ofNat_toNat, BitVec.setWidth_eq]

theorem Memory.rd_wrWord (m : Memory) (a : Nat) (v : Word) {i : Nat} (h : i < 8) : (m.wrWord a v).rd (a + i) = v.extractLsb' (8 * i) 8 := by
  rw [Memory.wrWord, Memory.rd_wrBytes_in m a _ i (by simpa using h), leBytes_getElem_word]

/-- The first n bytes that a masked write writes, and no other. -/
theorem Memory.rd_foldl_mask (m : Memory) (a : Nat) (b : Block) (k : BitVec 64) (n c : Nat) :
    ((List.range n).foldl (fun m i => if k.getLsbD i then m.wr (a + i) (blkByte b i) else m) m).rd c =
      if a ≤ c ∧ c < a + n ∧ k.getLsbD (c - a) = true then blkByte b (c - a) else m.rd c := by
  induction n with
  | zero =>
    have h : ¬(a ≤ c ∧ c < a + 0 ∧ k.getLsbD (c - a) = true) := by omega
    rw [if_neg h]
    rfl
  | succ n ih =>
    rw [List.range_succ, List.foldl_append, List.foldl_cons, List.foldl_nil]
    by_cases hc : c = a + n
    · subst hc
      have h : ¬(a ≤ a + n ∧ a + n < a + n ∧ k.getLsbD (a + n - a) = true) := by omega
      rw [if_neg h] at ih
      simp only [Nat.le_add_right, Nat.add_lt_add_iff_left, Nat.lt_succ_self, true_and, Nat.add_sub_cancel_left]
      split
      · exact Memory.rd_wr_self _ _ _
      · exact ih
    · have h : (a ≤ c ∧ c < a + (n + 1) ∧ k.getLsbD (c - a) = true) ↔ (a ≤ c ∧ c < a + n ∧ k.getLsbD (c - a) = true) := by
        constructor <;> rintro ⟨h1, h2, h3⟩ <;> exact ⟨h1, by omega, h3⟩
      rw [if_congr h rfl rfl, ← ih]
      split
      · exact Memory.rd_wr_ne hc _ _
      · rfl

theorem Memory.rd_wrMask (m : Memory) (a : Nat) (b : Block) (k : BitVec 64) (c : Nat) :
    (m.wrMask a b k).rd c = if a ≤ c ∧ c < a + 64 ∧ k.getLsbD (c - a) = true then blkByte b (c - a) else m.rd c :=
  Memory.rd_foldl_mask m a b k 64 c

/-- What a table restricted to some keys holds. -/
theorem look_filter_key {α : Type} (p : Nat → Bool) (c : Nat) (t : Tab α) : look c (t.filter fun x => p x.1) = if p c then look c t else none := by
  induction t with
  | nil => simp [look]
  | cons x t ih =>
    obtain ⟨j, v⟩ := x
    by_cases hj : p j
    · by_cases hc : c = j
      · simp [look, hj, hc]
      · simp [look, hj, hc, ih]
    · by_cases hc : c = j
      · subst hc
        simp [ih, hj]
      · simp [look, hj, hc, ih]

theorem Memory.rd_clear (m : Memory) (a n c : Nat) : (m.clear a n).rd c = if a ≤ c ∧ c < a + n then 0 else m.rd c := by
  rw [Memory.clear, Memory.rd, look_filter_key fun x => !(decide (a ≤ x) && decide (x < a + n))]
  by_cases h : a ≤ c ∧ c < a + n
  · simp [h]
  · rw [if_neg h, if_pos (by simp; omega), Memory.rd]

/-! ### A canonical memory is what it reads as -/

/-- The first cell of a memory reads as its byte, which is not zero. -/
theorem Memory.rd_head {lo a : Nat} {b : Byte} {t : Memory} (h : Memory.wfFrom lo ((a, b) :: t) = true) :
    Memory.rd ((a, b) :: t) a = b ∧ b ≠ 0 ∧ Memory.wfFrom (a + 1) t = true := by
  simp only [Memory.wfFrom, Bool.and_eq_true, bne_iff_ne] at h
  obtain ⟨⟨-, hb⟩, ht⟩ := h
  exact ⟨by simp [Memory.rd, look], hb, ht⟩

/-- Below its bound a memory reads as zero. -/
theorem Memory.rd_below {lo a : Nat} {m : Memory} (hm : Memory.wfFrom lo m = true) (h : a < lo) : m.rd a = 0 := by
  rw [Memory.rd, look_below hm h]
  rfl

theorem Memory.rd_tail {a c : Nat} {b : Byte} {t : Memory} (h : c ≠ a) : Memory.rd ((a, b) :: t) c = Memory.rd t c := by
  simp [Memory.rd, look, h]

/-- The tails of two memories that begin with the same address read alike. -/
theorem Memory.rd_tails {a : Nat} {b b' : Byte} {t t' : Memory} (ht : Memory.wfFrom (a + 1) t = true) (ht' : Memory.wfFrom (a + 1) t' = true)
    (h : ∀ c, Memory.rd ((a, b) :: t) c = Memory.rd ((a, b') :: t') c) (c : Nat) : Memory.rd t c = Memory.rd t' c := by
  by_cases hc : c = a
  · rw [hc, Memory.rd_below ht (Nat.lt_succ_self a), Memory.rd_below ht' (Nat.lt_succ_self a)]
  · rw [← Memory.rd_tail hc, h c, Memory.rd_tail hc]

/-- A memory whose first cell lies below every cell of another reads differently there. -/
theorem Memory.rd_ne_of_head_lt {lo a a' : Nat} {b b' : Byte} {t t' : Memory} (hm : Memory.wfFrom lo ((a, b) :: t) = true)
    (hk : Memory.wfFrom lo ((a', b') :: t') = true) (h : a < a') : Memory.rd ((a, b) :: t) a ≠ Memory.rd ((a', b') :: t') a := by
  obtain ⟨hrd, hb, -⟩ := Memory.rd_head hm
  obtain ⟨-, -, ht'⟩ := Memory.rd_head hk
  rw [hrd, Memory.rd_tail (by omega), Memory.rd_below ht' (by omega)]
  exact hb

theorem Memory.eq_of_wfFrom {lo : Nat} {m k : Memory} (hm : Memory.wfFrom lo m = true) (hk : Memory.wfFrom lo k = true)
    (h : ∀ a, m.rd a = k.rd a) : m = k := by
  induction m generalizing lo k with
  | nil =>
    cases k with
    | nil => rfl
    | cons x t' =>
      obtain ⟨hrd, hb, -⟩ := Memory.rd_head hk
      exact absurd (hrd.symm.trans (h x.1).symm) hb
  | cons x t ih =>
    obtain ⟨a, b⟩ := x
    cases k with
    | nil =>
      obtain ⟨hrd, hb, -⟩ := Memory.rd_head hm
      exact absurd (hrd.symm.trans (h a)) hb
    | cons y t' =>
      obtain ⟨a', b'⟩ := y
      rcases Nat.lt_trichotomy a a' with hlt | rfl | hlt
      · exact absurd (h a) (Memory.rd_ne_of_head_lt hm hk hlt)
      · obtain ⟨hrd, -, ht⟩ := Memory.rd_head hm
        obtain ⟨hrd', -, ht'⟩ := Memory.rd_head hk
        rw [ih ht ht' (Memory.rd_tails ht ht' h), ← hrd, ← hrd', h a]
      · exact absurd (h a').symm (Memory.rd_ne_of_head_lt hk hm hlt)

/-- Settles O59: one law of reading after each kind of write, and extensionality by induction along the rising addresses. -/
theorem memoryReadsBack : Obligations.MemoryReadsBack := by
  refine ⟨fun m a l => ⟨fun h => Memory.wf_wrBytes h a l, Memory.bytes_wrBytes m a l, fun c h => Memory.rd_wrBytes_out l h m⟩,
    fun m a v => ⟨Memory.word_wrWord m a v, fun i h => Memory.rd_wrWord m a v h⟩,
    fun m a b k => ⟨fun h => Memory.wf_wrMask h a b k, Memory.rd_wrMask m a b k⟩,
    fun m a n => ⟨fun h => Memory.wf_clear h a n, Memory.rd_clear m a n⟩,
    fun m k hm hk h => Memory.eq_of_wfFrom hm hk h⟩

end Sys2Proof.Machine
end

section
/-! The machine after reset (R15, R22, R212, R428). -/

namespace Sys2Proof.Machine

/-! ### Every place of the machine at reset -/

@[simp] theorem State.slot_reset (t : Nat) : State.reset.slot t = {} := rfl
@[simp] theorem State.core_reset (c : Nat) : State.reset.core c = {} := rfl

/-- No region is bound, so every block is direct (R212). -/
theorem State.protoOf_reset (a : Nat) : State.reset.protoOf a = 0 := rfl

/-- The numbers of the control registers of a core (R13). -/
theorem crAssigned_core {n : Nat} (h : crAssigned true n = true) :
    n ≤ 3 ∨ n = 0x400 ∨ n = 0x401 ∨ (0x800 ≤ n ∧ n ≤ 0x805) ∨ n = 0x808 ∨ (0xC00 ≤ n ∧ n ≤ 0xC10) := by
  simpa [crAssigned, or_assoc] using h

/-- Every lease register is zero at reset, and so is core.fatal. -/
theorem crRead_reset_lease (t : Nat) {n : Nat} (h1 : 0xC00 ≤ n) (h2 : n ≤ 0xC10) : crRead State.reset t n = 0 := by
  interval_cases n <;> rfl

theorem crRead_reset (t : Nat) {n : Nat} (h : crAssigned true n = true) (hn : n ≠ 0x400) :
    crRead State.reset t n = if n = 0x002 then 1 else if n = 0x808 then 8 else 0 := by
  rcases crAssigned_core h with h | h | rfl | ⟨h1, h2⟩ | rfl | ⟨h1, h2⟩
  · interval_cases n <;> rfl
  · exact absurd h hn
  · rfl
  · interval_cases n <;> rfl
  · rfl
  · rw [crRead_reset_lease t h1 h2, if_neg (by omega), if_neg (by omega)]

/-- Settles O60: the state at reset is the one whose every table is empty, so each place reads as its default. -/
theorem machineAtReset : Obligations.MachineAtReset := by
  refine ⟨rfl, rfl, rfl, rfl, rfl, rfl, rfl, rfl, State.reset_mem_wf, rfl, State.protoOf_reset, fun t n _ h hn => crRead_reset t h hn, fun t => ?_⟩
  exact ⟨rfl, rfl, rfl, rfl, fun r => ⟨by simp [Slot.rs], by simp [Slot.rv]⟩, rfl, rfl⟩

end Sys2Proof.Machine
end

section
/-! What a step does with the instruction at the program counter, or with an event (R19, R36, R37). -/

namespace Sys2Proof.Machine

/-! ### The fetch of a whole instruction -/

/-- The bytes of a range are those of its two parts. -/
theorem Memory.bytes_add (m : Memory) (a i k : Nat) : m.bytes a (i + k) = m.bytes a i ++ m.bytes (a + i) k := by
  induction i generalizing a with
  | zero => simp [Memory.bytes]
  | succ i ih =>
    rw [show i + 1 + k = i + k + 1 by omega, Memory.bytes, Memory.bytes, ih, show a + 1 + i = a + (i + 1) by omega]
    rfl

theorem State.spOffset_add (s : State) (c o i : Nat) : s.spOffset c (o + i) = s.spOffset c o + i := by
  unfold State.spOffset
  omega

/-- A fetch from the core's own scratchpad reads the bytes of the instruction there (R36, R160). -/
theorem fetch_local_bytes (s : State) (t : Nat) (hc : onCore t = true) (ha : (s.slot t).pc.toNat % 4 = 0)
    (hs : spaceOf (s.slot t).pc = some .spd) (hf : fld (s.slot t).pc.toNat 45 11 = agentOf t)
    (ho : offsetOf (s.slot t).pc + 20 ≤ s.spSize (agentOf t))
    (hp : poisonAt s (lsBlk (agentOf t)) (s.spOffset (agentOf t) (offsetOf (s.slot t).pc)) 20 = none) :
    let o := s.spOffset (agentOf t) (offsetOf (s.slot t).pc)
    let ls := (s.core (agentOf t)).ls
    fetch s t = .ok (ls.bytes o (wordBytes (ls.bytes o 4))) s := by
  intro o ls
  have hb := spSize_lt s (agentOf t)
  obtain ⟨h1, h2, h3⟩ := spd_add4 hs (by omega)
  obtain ⟨h20, h4⟩ : wordBytes (ls.bytes o 4) ≤ 20 ∧ 4 ≤ wordBytes (ls.bytes o 4) := lenBytes_le _
  have hfirst : fetchAt s t (s.slot t).pc 4 = .ok (ls.bytes o 4) s := by
    have hp4 := poisonAt_part s _ _ 20 0 4 hp (by omega)
    rw [Nat.add_zero] at hp4
    exact fetchAt_local s t _ 4 hc hs hf (by omega) hp4
  have hrest : fetchAt s t ((s.slot t).pc + 4) (wordBytes (ls.bytes o 4) - 4) = .ok (ls.bytes (o + 4) (wordBytes (ls.bytes o 4) - 4)) s := by
    rw [fetchAt_local s t _ _ hc h1 (by rw [h2, hf]), h3, State.spOffset_add]
    · omega
    · rw [h3, State.spOffset_add]
      exact poisonAt_part s _ o 20 4 _ hp (by omega)
  unfold fetch
  simp only [ha, bne_self_eq_false, Bool.false_eq_true, if_false, hs, Option.some.injEq, reduceCtorEq, decide_false, Bool.and_false, hfirst, Res.andThen]
  split
  · next h => rw [show wordBytes (ls.bytes o 4) = 4 by omega]
  · rw [hrest]
    change Res.ok (ls.bytes o 4 ++ ls.bytes (o + 4) (wordBytes (ls.bytes o 4) - 4)) s = _
    rw [← Memory.bytes_add, show 4 + (wordBytes (ls.bytes o 4) - 4) = wordBytes (ls.bytes o 4) by omega]

/-! ### The instruction that the bytes fetched hold -/

theorem runBytes_decoded {bs : List Byte} {s : State} {i : Instr} {n : Nat} (hd : decode bs = .ok (i, n))
    (hm : machineDecodes s.cur (leNat (bs.take 4) / 4 % 128) = true) :
    runBytes bs s = if namesVector i (leNat (bs.take 4) / 4 % 128) && parkedResult s s.cur then wait .sfuParked s else exec i s := by
  simp [runBytes, hd, hm]

theorem runBytes_foreign {bs : List Byte} {s : State} (hd : ∃ i n, decode bs = .ok (i, n))
    (hm : machineDecodes s.cur (leNat (bs.take 4) / 4 % 128) = false) :
    runBytes bs s = exec (.illegalOpEncoding (BitVec.ofNat 32 (leNat (bs.take 4)))) s := by
  obtain ⟨i, n, hd⟩ := hd
  simp [runBytes, hd, hm]

theorem runBytes_illegal {bs : List Byte} {s : State} {x : BitVec 32} (hd : decode bs = .error (.illegal x)) :
    runBytes bs s = exec (.illegalOpEncoding x) s := by
  simp [runBytes, hd]

/-! ### The step of an input -/

theorem step_issue {s : State} {t : Nat} {rest : List Input} (hi : s.inputs = .issue t :: rest) (hs : steps s = true)
    (hr : ready (dropInput (passTime s)) t = true) :
    step s = settleIssue (dropInput (passTime s)) t (runSlot (dropInput (passTime s)) t) := by
  rw [step, advance, if_neg (by simp [hs])]
  simp [hi, hr]

theorem step_event {s : State} {i : Instr} {rest : List Input} (hi : s.inputs = .event i :: rest) (hs : steps s = true) :
    step s = settleOut (dropInput (passTime s)) (runEvent i (dropInput (passTime s))) := by
  rw [step, advance, if_neg (by simp [hs])]
  simp [hi]

theorem step_badEntry {s : State} {m : Nat} {rest : List Input} (hi : s.inputs = .badEntry m :: rest) (hs : steps s = true) :
    step s = settleOut (dropInput (passTime s)) (.next (rejectEntry (dropInput (passTime s)) m)) := by
  rw [step, advance, if_neg (by simp [hs])]
  simp [hi]

theorem step_biRspI {s : State} {pa : Nat} {held : Bool} {rest : List Input} (hi : s.inputs = .biRspI pa held :: rest) (hs : steps s = true)
    (hl : linkUp (dropInput (passTime s)) = true) :
    step s = settleOut (dropInput (passTime s)) (.next (settleHome (hostAnswered (dropInput (passTime s)) pa held))) := by
  rw [step, advance, if_neg (by simp [hs])]
  simp [hi, hl]

theorem runEvent_of_ne {i : Instr} (h : ∀ t, i ≠ .interruptTake t) (s : State) : runEvent i s = exec i s := by
  unfold runEvent
  split
  · next t => exact absurd rfl (h t)
  · rfl

theorem runEvent_interruptTake (t : Nat) (s : State) : runEvent (.interruptTake t) s = interruptOr s t (exec (.interruptTake t) s) := rfl

/-- An interrupt is taken where its slot issues nothing, or an instruction that does not fault (R22). -/
theorem interruptOr_taken {s : State} {t : Nat} {o : Out} (h : ready s t = false ∨ ∃ u, runSlot s t = .next u ∧ faulted s u t = false) :
    interruptOr s t o = o := by
  unfold interruptOr
  rcases h with h | ⟨u, hu, hf⟩
  · simp [h]
  · simp [hu, hf]

/-- A fault of the next instruction comes before an interrupt (R22). -/
theorem interruptOr_faulted {s u : State} {t : Nat} {o : Out} (hc : onCore t = true) (hp : firstIntr (s.slot t).pend ≠ none)
    (hm : mayInterrupt (s.slot t) = true) (hr : ready s t = true) (hu : runSlot s t = .next u) (hf : faulted s u t = true) :
    interruptOr s t o = .next u := by
  simp [interruptOr, hc, hp, hm, hr, hu, hf]

theorem afterHandler_onCore {t : Nat} (hc : onCore t = true) (s : State) : afterHandler s t = s := by simp [afterHandler, hc]

theorem afterIssue_next (x : Slot) (bs : List Byte) (t : Nat) (s : State) : ∃ u, afterIssue x bs t (.next s) = .next u ∧
    (u = afterHandler (reexecuted s t) t ∨ u = (afterHandler (reexecuted s t) t).updSlot t fun y => { y with paired := true }) := by
  refine ⟨_, rfl, ?_⟩
  split
  · exact .inr rfl
  · exact .inl rfl

theorem runSlot_of_fetch_ok {s s1 : State} {t : Nat} {bs : List Byte} (h : fetch (beginIssue s t) t = .ok bs s1) :
    runSlot s t = afterIssue ((beginIssue s t).slot t) bs t (runBytes bs s1) := by
  simp [runSlot, h]

theorem runSlot_of_fetch_trap {s s1 : State} {t : Nat} {c : Cause} {v : BitVec 64} (h : fetch (beginIssue s t) t = .trap c v s1) :
    runSlot s t = afterIssue ((beginIssue s t).slot t) [] t (trap c v s1) := by
  simp [runSlot, h]

theorem runSlot_of_fetch_wait {s s1 : State} {t : Nat} {w : Wait} (h : fetch (beginIssue s t) t = .wait w s1) :
    runSlot s t = afterIssue ((beginIssue s t).slot t) [] t (wait w s1) := by
  simp [runSlot, h]

/-- Settles O55: the step of each kind of input, and the run of the bytes fetched, case by case. -/
theorem stepRunsTheInstruction : Obligations.StepRunsTheInstruction := by
  refine ⟨?_, ?_, fun x bs t s => ?_, fun s rest hs => ?_, fun s hs => ?_, fun s s1 t => ?_, fun s t hc ha hs hf ho hp => ?_⟩
  · intro s t rest hi hs s1 s0 ends hr
    have hstep := step_issue hi hs hr
    refine ⟨fun bs s2 hfetch hcur => ?_, fun c v s2 hfetch => ?_, fun w s2 hfetch => ?_⟩
    · rw [runSlot_of_fetch_ok hfetch] at hstep
      subst hcur
      refine ⟨fun i n hd hm hv => ?_, fun i n hd hm hn hv => ?_, fun hd hm => ?_, fun x hd => ?_⟩
      · rw [hstep, runBytes_decoded hd hm, if_neg]
        simpa using hv
      · rw [hstep, runBytes_decoded hd hm, if_pos (by simp [hn, hv])]
      · rw [hstep, runBytes_foreign hd hm]
      · rw [hstep, runBytes_illegal hd]
    · rw [hstep, runSlot_of_fetch_trap hfetch]
    · rw [hstep, runSlot_of_fetch_wait hfetch]
  · intro s i rest hi hs s1
    have hstep := step_event hi hs
    refine ⟨fun h => by rw [hstep, runEvent_of_ne h], ?_⟩
    rintro t rfl
    rw [runEvent_interruptTake] at hstep
    exact ⟨fun h => by rw [hstep, interruptOr_taken h], fun u hc hp hm hr hu hf => by rw [hstep, interruptOr_faulted hc hp hm hr hu hf]⟩
  · obtain ⟨u, hu, h⟩ := afterIssue_next x bs t s
    exact ⟨u, hu, h, fun hc => afterHandler_onCore hc _⟩
  · exact ⟨fun m hi => step_badEntry hi hs, fun pa held hi hl => step_biRspI hi hs hl⟩
  · rw [step, advance, if_pos (by simp [hs])]
  · exact ⟨fun h => by simp [settleOut, settleIssue, settled, h], fun h => by simp [settleOut, settleIssue, h]⟩
  · exact fetch_local_bytes s t hc ha hs hf ho hp

end Sys2Proof.Machine
end

section
/-! The start of a record (R27). -/

namespace Sys2Proof.Machine

/-- The scalar registers at record start, one by one; the range of the record gives s6 and s7 (R27). -/
theorem startRegs_getElem (r : Rec) (i : Reg) : (startRegs r)[i] = if i = 3 then r.frame else if i = 4 then r.arg else if i = 5 then r.cell
    else if i = 6 then (match r.range with | some (lo, _, _) => lo | none => 0)
    else if i = 7 then (match r.range with | some (_, hi, _) => hi | none => 0) else 0 := by
  unfold startRegs
  cases r.range <;> fin_cases i <;> rfl

theorem Slot.start_rs (x : Slot) (r : Rec) (b : Bool) (i : Reg) : (x.start r b).rs i = (startRegs r)[i] := by
  unfold Slot.rs
  split
  · subst i
    rfl
  · rfl

theorem Slot.start_rv (x : Slot) (r : Rec) (b : Bool) (i : Reg) : (x.start r b).rv i = 0 := by
  simp [Slot.rv, Slot.start]

theorem startState_ne_zero (r : Rec) : startState r ≠ 0 := by
  unfold startState
  dsimp only
  split
  · decide
  · assumption

/-- A record at an aligned code pointer starts its slot and changes no other (R27, R130). -/
theorem slot_startRec {s : State} {r : Rec} (t : Nat) (h : r.code.toNat % 4 = 0) :
    (startRec s t r).slot t = (s.slot t).start r (r.first != agentOf t) ∧ (∀ v, v ≠ t → (startRec s t r).slot v = s.slot v) ∧
      (startRec s t r).mem = s.mem := by
  unfold startRec
  simp only [h, bne_self_eq_false, Bool.false_eq_true, if_false]
  refine ⟨by rw [State.updSlot_eq, State.slot_setSlot_self]; rfl, fun v hv => ?_, rfl⟩
  rw [State.updSlot_eq, State.slot_setSlot_ne _ hv]
  rfl

/-- Settles O19: the slot is the one that Slot.start gives, register by register. -/
theorem recordStart : Obligations.RecordStart := by
  intro s t r hcode u x h
  obtain ⟨hself, hother, hmem⟩ := slot_startRec (s := s) t hcode
  have hx : x = (s.slot t).start r (r.first != agentOf t) := hself
  refine ⟨by rw [hx]; rfl, by rw [hx]; rfl, by rw [hx]; rfl, by rw [hx]; rfl, fun i => ?_, fun i => ?_, by rw [hx]; rfl, by rw [hx]; rfl,
    by rw [hx]; rfl, by rw [hx]; rfl, ?_, hother, hmem⟩
  · rw [hx, Slot.start_rs, startRegs_getElem]
    rfl
  · rw [hx, Slot.start_rv]
  · rw [hx]
    exact startState_ne_zero r

end Sys2Proof.Machine
end

section
/-! Taking a trap, and the death of a slot whose handler cannot be entered (R20, R24, R335). -/

namespace Sys2Proof.Machine

/-! ### A slot dies (R24) -/

/-- An event entry for the host changes no slot and no core. -/
theorem State.ringWrite_keeps (s : State) (ring : Word) (key fn vec size : Nat) (ws : List Word) :
    let u := s.ringWrite ring key fn vec size ws
    u.slots = s.slots ∧ u.cores = s.cores ∧ u.cur = s.cur := by
  unfold State.ringWrite
  split <;> exact ⟨rfl, rfl, rfl⟩

theorem State.hostEvent_keeps (s : State) (fn : Option Nat) (type status tag : Nat) (ws : List Word) :
    let u := s.hostEvent fn type status tag ws
    u.slots = s.slots ∧ u.cores = s.cores ∧ u.cur = s.cur := by
  unfold State.hostEvent
  split
  · exact State.ringWrite_keeps ..
  · split
    · exact ⟨rfl, rfl, rfl⟩
    · exact State.ringWrite_keeps ..

theorem State.slot_congr {s t : State} (h : t.slots = s.slots) (k : Nat) : t.slot k = s.slot k := by
  simp [State.slot, h]

theorem State.core_congr {s t : State} (h : t.cores = s.cores) (c : Nat) : t.core c = s.core c := by
  simp [State.core, h]

/-- What core.fatal says of a death, where it has said nothing yet (R24). -/
def fatalWord (t : Nat) (first : Cause) : BitVec 21 := BitVec.ofNat 21 (2 ^ 20 + slotOf t * 2 ^ 16 + first.toNat * 2 ^ 8 + 0x1A)

/-- The slot is DEAD, no other slot changes, and core.fatal keeps the first event (R24). -/
theorem die_effect (s : State) (t : Nat) (first : Cause) :
    ((die s t first).slot t).run = .dead ∧ (∀ k, k ≠ t → (die s t first).slot k = s.slot k) ∧
      ((die s t first).core (agentOf t)).coreFatal =
        if (s.core (agentOf t)).coreFatal.getLsbD 20 then (s.core (agentOf t)).coreFatal else fatalWord t first := by
  have hs : ∀ k, (die s t first).slot k = (s.setSlot t { s.slot t with run := .dead, vprog := none }).slot k :=
    State.slot_congr (State.hostEvent_keeps ..).1
  have hc : ∀ c, (die s t first).core c = (s.setCore (agentOf t) { s.core (agentOf t) with
      coreFatal := if (s.core (agentOf t)).coreFatal.getLsbD 20 then (s.core (agentOf t)).coreFatal else fatalWord t first }).core c :=
    State.core_congr (State.hostEvent_keeps ..).2.1
  refine ⟨by rw [hs, State.slot_setSlot_self], fun k hk => by rw [hs, State.slot_setSlot_ne _ hk], by rw [hc, State.core_setCore_self]⟩

theorem die_cur (s : State) (t : Nat) (first : Cause) : (die s t first).cur = s.cur := (State.hostEvent_keeps ..).2.2

/-! ### The entry of a trap (R20) -/

/-- Where the traps of a core go (R20). -/
def State.trapEntry (s : State) (c : Nat) : Word := (s.core c).trVector.setWidth 64 <<< 2

theorem trapEntry_aligned (s : State) (c : Nat) : (s.trapEntry c).toNat % 4 = 0 := by
  simp [State.trapEntry, Nat.shiftLeft_eq]

/-- A slot after the steps of R20. -/
def State.trapTaken (s : State) (t : Nat) (cause : Cause) (imp : Bool) (val resume : Word) : State :=
  s.setSlot t ((s.slot t).trapped (s.trapEntry (agentOf t)) cause imp val resume)

@[simp] theorem State.slot_trapTaken (s : State) (t : Nat) (cause : Cause) (imp : Bool) (val resume : Word) :
    (s.trapTaken t cause imp val resume).slot t = (s.slot t).trapped (s.trapEntry (agentOf t)) cause imp val resume :=
  State.slot_setSlot_self ..

/-- The trap is entered, or the slot dies where its first instruction cannot be fetched. -/
theorem enterTrap_eq (s : State) (t : Nat) (cause : Cause) (imp : Bool) (val resume : Word) : enterTrap s t cause imp val resume =
    match fetch (s.trapTaken t cause imp val resume) t with
    | .trap _ _ _ => die (s.trapTaken t cause imp val resume) t cause
    | _ => s.trapTaken t cause imp val resume := by
  simp only [enterTrap, vec_eq]
  rfl

theorem enterTrap_entered {s : State} {t : Nat} (h : Enterable s t) (cause : Cause) (imp : Bool) (val resume : Word) :
    enterTrap s t cause imp val resume = s.trapTaken t cause imp val resume := by
  obtain ⟨hc, hs, hf, ho, hp⟩ := h
  have hfetch : ∃ l, fetch (s.trapTaken t cause imp val resume) t = .ok l (s.trapTaken t cause imp val resume) := by
    apply fetch_local _ _ hc <;> rw [State.slot_trapTaken]
    · exact trapEntry_aligned s _
    · exact hs
    · exact hf
    · exact ho
    · exact hp
  obtain ⟨l, hl⟩ := hfetch
  rw [enterTrap_eq, hl]

theorem enterTrap_dies {s : State} {t : Nat} {cause : Cause} {imp : Bool} {val resume : Word}
    (h : ∃ c v u, fetch (s.trapTaken t cause imp val resume) t = .trap c v u) :
    enterTrap s t cause imp val resume = die (s.trapTaken t cause imp val resume) t cause := by
  obtain ⟨c, v, u, h⟩ := h
  rw [enterTrap_eq, h]

/-- The trap registers as R20 words them. -/
theorem Slot.trapped_eq (x : Slot) (vector : Word) (cause : Cause) (imp : Bool) (val resume : Word) :
    x.trapped vector cause imp val resume = { x with
      trCause := cause.setWidth 9 ||| (if imp then 0x100 else 0), trVal := val, trPc := resume,
      trStatus := (if x.mode = .s then 1 else 0) ||| (if x.trStatus.getLsbD 2 then 2 else 0),
      mode := .s, pc := vector, run := .active, fresh := some cause, vprog := none, got := none, redo := none, paired := false, due := false,
      lv := if cause = .leaseViolation then some (resume, val) else x.lv } := by
  have hcause : BitVec.ofNat 9 (cause.toNat + bit imp * 2 ^ 8) = cause.setWidth 9 ||| (if imp then 0x100 else 0) := by
    cases imp
    · apply BitVec.eq_of_toNat_eq
      simp [bit]
    · revert cause
      decide
  have hstatus : BitVec.ofNat 3 (bit (decide (x.mode = .s)) + bit (x.trStatus.getLsbD 2) * 2) =
      (if x.mode = .s then 1 else 0) ||| (if x.trStatus.getLsbD 2 then 2 else 0) := by
    by_cases hm : x.mode = .s <;> cases x.trStatus.getLsbD 2 <;> simp [hm, bit]
  rw [Slot.trapped, hcause, hstatus]

/-! ### Where the entry cannot be fetched -/

theorem Res.andThen_trap_of {α β : Type} {r : Res α} {c : Cause} {v : Word} {s : State} (h : r = .trap c v s) (f : α → State → Res β) :
    r.andThen f = .trap c v s := by
  rw [h]
  rfl

/-- A fetch at an aligned address that is not global ends with what the fetch of its base word met. -/
theorem fetch_traps_of_fetchAt {s : State} {t : Nat} (ha : (s.slot t).pc.toNat % 4 = 0) (hg : spaceOf (s.slot t).pc ≠ some .glb)
    (h : ∃ c v u, fetchAt s t (s.slot t).pc 4 = .trap c v u) : ∃ c v u, fetch s t = .trap c v u := by
  obtain ⟨c, v, u, h⟩ := h
  refine ⟨c, v, u, ?_⟩
  unfold fetch
  simp only [ha, bne_self_eq_false, Bool.false_eq_true, if_false, hg, decide_false, Bool.and_false]
  exact Res.andThen_trap_of h _

/-- An address of no space that holds code (R160). -/
theorem fetchAt_traps_space {s : State} {t : Nat} {a : Word} (n : Nat) (hc : onCore t = true) (h : spaceOf a ≠ some .spd) :
    ∃ c v u, fetchAt s t a n = .trap c v u := by
  refine ⟨.fetchFault, a, s, ?_⟩
  unfold fetchAt
  simp only [hc, Bool.not_true, Bool.false_eq_true, if_false]

/-- A foreign scratchpad, a place beyond the own one, or a poisoned byte (R160, R434). -/
theorem fetchAt_traps_place {s : State} {t : Nat} {a : Word} {n : Nat} (hc : onCore t = true) (hs : spaceOf a = some .spd)
    (h : fld a.toNat 45 11 ≠ agentOf t ∨ s.spSize (agentOf t) < offsetOf a + n ∨
      poisonAt s (lsBlk (agentOf t)) (s.spOffset (agentOf t) (offsetOf a)) n ≠ none) :
    ∃ c v u, fetchAt s t a n = .trap c v u := by
  unfold fetchAt
  simp only [hc, Bool.not_true, Bool.false_eq_true, if_false, hs]
  split
  · exact ⟨_, _, _, rfl⟩
  next hf =>
    split
    · exact ⟨_, _, _, rfl⟩
    next ho =>
      split
      · exact ⟨_, _, _, rfl⟩
      next hp =>
        rcases h with h | h | h
        · exact absurd (by simpa using hf) h
        · exact absurd h ho
        · exact absurd hp h

/-- A page that cannot be fetched from (R334). -/
theorem fetch_traps_page {s : State} {t : Nat} (hc : onCore t = true) (ha : (s.slot t).pc.toNat % 4 = 0) (hg : spaceOf (s.slot t).pc = some .glb)
    (hm : (s.slot t).mode ≠ .u) (h : ∃ f u, translate s (agentOf t) false .fetch false (s.slot t).pc = (.trap f, u)) :
    ∃ c v u, fetch s t = .trap c v u := by
  obtain ⟨f, u, h⟩ := h
  refine ⟨f, (s.slot t).pc, u, ?_⟩
  unfold fetch
  simp only [ha, bne_self_eq_false, Bool.false_eq_true, if_false, hc, hg, decide_true, Bool.and_self, if_true]
  refine Res.andThen_trap_of (Res.andThen_trap_of ?_ _) _
  simp only [translatePart, hm, decide_false, h]

/-- Whether the first instruction of a core's trap handler cannot be fetched: what R20 and R24 say of its address. -/
def Unenterable (s : State) (t : Nat) : Prop :=
  let c := agentOf t; let v := s.trapEntry c
  (spaceOf v ≠ some .glb ∧ spaceOf v ≠ some .spd) ∨ (spaceOf v = some .spd ∧ (fld v.toNat 45 11 ≠ c ∨ s.spSize c < offsetOf v + 4 ∨
    poisonAt s (lsBlk c) (s.spOffset c (offsetOf v)) 4 ≠ none)) ∨
    (spaceOf v = some .glb ∧ ∀ s1, s1 = { s with slots := s1.slots } → ∃ f s2, translate s1 c false .fetch false v = (.trap f, s2))

theorem fetch_traps_of_unenterable {s : State} {t : Nat} (hc : onCore t = true) (h : Unenterable s t) (cause : Cause) (imp : Bool)
    (val resume : Word) : ∃ c v u, fetch (s.trapTaken t cause imp val resume) t = .trap c v u := by
  have hx := s.slot_trapTaken t cause imp val resume
  have hpc : ((s.trapTaken t cause imp val resume).slot t).pc = s.trapEntry (agentOf t) := by rw [hx]; rfl
  have ha : ((s.trapTaken t cause imp val resume).slot t).pc.toNat % 4 = 0 := by rw [hpc]; exact trapEntry_aligned s _
  rcases h with ⟨hg, hs⟩ | ⟨hs, hp⟩ | ⟨hg, ht⟩
  · rw [← hpc] at hg hs
    exact fetch_traps_of_fetchAt ha hg (fetchAt_traps_space 4 hc hs)
  · refine fetch_traps_of_fetchAt ha (by rw [hpc, hs]; decide) ?_
    rw [hpc]
    exact fetchAt_traps_place hc hs hp
  · refine fetch_traps_page hc ha (by rw [hpc, hg]) (by rw [hx]; simp [Slot.trapped]) ?_
    rw [hpc]
    exact ht _ rfl

/-! ### A trap of an instruction -/

/-- An instruction of a slot that stands at the first of its handler kills the slot when it traps (R335). -/
theorem takeSyncAt_fresh {s : State} {t : Nat} {f : Cause} (hc : onCore t = true) (hf : (s.slot t).fresh = some f) (cause : Cause)
    (val resume : Word) : takeSyncAt s t cause val resume = die s t f := by
  simp [takeSyncAt, hc, hf]

/-- An instruction that ends in the trap of its own address. -/
theorem Traps.of_trap {i : Instr} {s : State} {cause : Cause} {val : Word} (h : CanTrap s) (he : exec i s = trap cause val s) :
    Traps i s cause val s.me.pc :=
  Traps.intro i s cause val s.me.pc h he

/-! ### The checks of a control-register access (R13, R95) -/

section
variable {s : State} {base : Nat} {o : CrOp} {writes : Bool} {d : Reg} {v : Word} {cr : BitVec 12}

theorem crAccess_unassigned (h : crAssigned (onCore s.cur) cr.toNat = false) :
    crAccess base o writes d v cr s = trap .illegalOp (BitVec.ofNat 64 base) s := by
  simp [crAccess, h, illegalOp]

theorem crAccess_privileged (h : crAssigned (onCore s.cur) cr.toNat = true) (hn : 0x800 ≤ cr.toNat) (hm : s.me.mode = .u) :
    crAccess base o writes d v cr s = trap .priv (BitVec.ofNat 64 base) s := by
  simp [crAccess, h, hn, hm]

theorem crAccess_readOnly (h : crAssigned (onCore s.cur) cr.toNat = true) (hm : 0x800 ≤ cr.toNat → s.me.mode ≠ .u) (hw : writes = true)
    (hr : crWritable cr.toNat = false) : crAccess base o writes d v cr s = trap .illegalOp (BitVec.ofNat 64 base) s := by
  have hp : ¬(0x800 ≤ cr.toNat ∧ s.me.mode = .u) := fun h => hm h.1 h.2
  simp [crAccess, h, hp, hw, hr, illegalOp]

end

/-- Instruction i accesses control register cr; `writes` says whether its form writes (R95). -/
def CrForm (i : Instr) (cr : BitVec 12) (writes : Bool) : Prop :=
  (∃ d a, (i = .crrw d a cr ∧ writes = true) ∨ (i = .crrs d a cr ∧ writes = decide (a ≠ 0)) ∨ (i = .crrc d a cr ∧ writes = decide (a ≠ 0))) ∨
    ∃ d imm, (i = .crrwi d imm cr ∧ writes = true) ∨ (i = .crrsi d imm cr ∧ writes = decide (imm ≠ 0)) ∨
      (i = .crrci d imm cr ∧ writes = decide (imm ≠ 0))

theorem crBase_eq (d a : Reg) (fn : Nat) (x : Word) :
    crBase d a fn = ({ len := 2, major := 0x3C, d := d, a := a, fn := Fin.ofNat 256 fn, ext := x } : Raw).base := by
  simp [crBase, Raw.base]

/-- Every form is an access with the base word that its encoding has. -/
theorem exec_crForm {i : Instr} {cr : BitVec 12} {writes : Bool} (h : CrForm i cr writes) (s : State) :
    ∃ o d v, exec i s = crAccess (encodeRaw i).base o writes d v cr s := by
  have hne (a : Fin 32) : (a != 0) = decide (a ≠ 0) := (decide_not ..).symm
  rcases h with ⟨d, a, ⟨rfl, rfl⟩ | ⟨rfl, rfl⟩ | ⟨rfl, rfl⟩⟩ | ⟨d, imm, ⟨rfl, rfl⟩ | ⟨rfl, rfl⟩ | ⟨rfl, rfl⟩⟩
  · exact ⟨.rw, d, s.rd a, by change execCrrw d _ cr s = _; rw [execCrrw, crBase_eq]; rfl⟩
  · exact ⟨.rs, d, s.rd a, by change execCrrs d _ cr s = _; rw [execCrrs, crBase_eq, hne]; rfl⟩
  · exact ⟨.rc, d, s.rd a, by change execCrrc d _ cr s = _; rw [execCrrc, crBase_eq, hne]; rfl⟩
  · exact ⟨.rw, d, BitVec.ofNat 64 imm, by change execCrrwi d _ cr s = _; rw [execCrrwi, crBase_eq]; rfl⟩
  · exact ⟨.rs, d, BitVec.ofNat 64 imm, by change execCrrsi d _ cr s = _; rw [execCrrsi, crBase_eq, hne]; rfl⟩
  · exact ⟨.rc, d, BitVec.ofNat 64 imm, by change execCrrci d _ cr s = _; rw [execCrrci, crBase_eq, hne]; rfl⟩

/-- Settles O9: the entry of a trap and the death of a slot, the traps of SYSCALL, BREAK and illegal words, and the checks in their order. -/
theorem trapsTaken : Obligations.TrapsTaken := by
  refine ⟨⟨?_, fun s code f hc hf => ?_⟩, fun s code w h => ⟨?_, ?_, ?_⟩, ?_⟩
  · intro s t cause imp val resume c v u x hc
    refine ⟨fun h => ?_, fun h => ?_⟩
    · have hu : u = s.trapTaken t cause imp val resume := enterTrap_entered h cause imp val resume
      rw [hu]
      exact ⟨rfl, fun k hk => State.slot_setSlot_ne s hk _, (s.slot_trapTaken t cause imp val resume).trans (Slot.trapped_eq ..)⟩
    · have hu : u = die (s.trapTaken t cause imp val resume) t cause := enterTrap_dies (fetch_traps_of_unenterable hc h cause imp val resume)
      obtain ⟨hrun, hother, hfatal⟩ := die_effect (s.trapTaken t cause imp val resume) t cause
      rw [hu]
      exact ⟨hrun, fun k hk => (hother k hk).trans (State.slot_setSlot_ne s hk _), hfatal⟩
  · obtain ⟨hrun, -, hfatal⟩ := die_effect s s.cur f
    have he : exec (.syscall code) s = .next (takeSyncAt s s.cur .syscall (code.setWidth 64) (s.me.pc + 4)) := rfl
    rw [takeSyncAt_fresh hc hf] at he
    exact ⟨_, he, by rw [State.me_eq, die_cur, hrun], hfatal⟩
  · exact Traps.intro _ s _ _ _ h rfl
  · exact Traps.intro _ s _ _ _ h rfl
  · exact Traps.of_trap h (congrArg (trap .illegalOp · s) (BitVec.ofNat_toNat ..))
  · intro s i cr writes h hi base
    obtain ⟨o, d, v, he⟩ := exec_crForm hi s
    obtain ⟨⟨hc, -⟩, -⟩ := id h
    rw [show crAssigned true cr.toNat = crAssigned (onCore s.cur) cr.toNat by rw [hc]]
    exact ⟨fun ha => Traps.of_trap h (he.trans (crAccess_unassigned ha)), fun ha hn hm => Traps.of_trap h (he.trans (crAccess_privileged ha hn hm)),
      fun ha hm hw hr => Traps.of_trap h (he.trans (crAccess_readOnly ha hm hw hr))⟩

end Sys2Proof.Machine
end

section
/-! A scratchpad access while a write of ls.split is in progress: it waits, whatever its address (R96). -/

namespace Sys2Proof.Machine

/-- An access of the core's own scratchpad waits for a write of ls.split in progress before its address is checked (R96). -/
theorem accessDest_lsBusy {s : State} {b : By} {ea : Word} (hs : spaceOf ea = some .spd) (hf : fld ea.toNat 45 11 = agentOf b.t)
    (hb : lsBusy s (agentOf b.t) = true) (k : Kind) (n align : Nat) : accessDest s b k ea n align = .wait .lsBusy s := by
  simp [accessDest, lsFirst, lsFree, hs, hf, hb, Res.andThen]

/-- So a load leaves the rotation (R96). -/
theorem exec_ld_lsBusy {s : State} {base : Reg} (hc : onCore s.cur = true) (hs : spaceOf (s.rd base) = some .spd)
    (hf : fld (s.rd base).toNat 45 11 = s.myCore) (hb : lsBusy s s.myCore = true) (sz : Size) (d : Reg) (q : MemQual) :
    exec (.ld sz d base q) s = wait .lsBusy s := by
  have h : loadAny s q (s.rd base) (bytesOf sz) = .wait .lsBusy s := by
    rw [loadAny, if_pos hc, loadBytes, accessDest_lsBusy (b := s.by q) hs hf hb]
    rfl
  change loadInstr 4 false sz d (s.rd base) q s = _
  rw [loadInstr, h, Res.finish_wait]

/-- A slot whose instruction waits has not trapped: a trap leaves it active. -/
theorem not_traps_of_wait {i : Instr} {s : State} {w : Wait} (h : exec i s = wait w s) (cause : Cause) (val resume : Word) :
    ¬ Traps i s cause val resume := by
  rintro ⟨t, ht, -, hme⟩
  have hrun : (s.updMe fun x => { x with run := .waiting w }).me.run = .active := by
    have he : t = s.updMe fun x => { x with run := .waiting w } := by
      rw [h] at ht
      exact (Host.Outcome.next.inj ht).symm
    rw [← he, hme]
  rw [State.updMe_eq, State.me_setSlot] at hrun
  cases hrun

/-- The last byte address of core 0's scratchpad window, beyond the end of its scratchpad. -/
def farPointer : Word := 0xFE0000000003FFFF

/-- Slot 0 of core 0 holds a pointer beyond its scratchpad, while a write of ls.split of slot 1 is in progress; the trap vector lies in the
scratchpad. -/
def splittingState : State :=
  { State.reset with
    cores := [(0, { trVector := 0x3F80000000000000 })],
    slots := [(0, { s := (Vector.replicate 32 0).set 1 farPointer }), (1, { run := .waiting (.lsSplit 0) })] }

theorem splittingState_canTrap : CanTrap splittingState := by
  refine ⟨⟨?_, ?_, ?_, ?_, ?_⟩, ?_⟩ <;> decide

/-- Refutes O15: while a write of ls.split is in progress a load beyond the end of the scratchpad waits for it and does not trap
(R96), which the clause for such addresses does not exclude. -/
theorem not_addressFaults : ¬ Obligations.AddressFaults := by
  rintro ⟨h, -⟩
  have hwait : exec (.ld .b 2 1 ⟨.rlx, .core, 0⟩) splittingState = wait .lsBusy splittingState :=
    exec_ld_lsBusy (by decide) (by decide) (by decide) (by decide) _ _ _
  have htraps := (h splittingState .b 2 1 ⟨.rlx, .core, 0⟩ splittingState_canTrap (by decide)).2.1 (by decide) (by decide)
  exact not_traps_of_wait hwait _ _ _ htraps.1

end Sys2Proof.Machine
end

section
/-! The control registers: what a write stores and what it leaves alone (R13, R15, R95). -/

namespace Sys2Proof.Machine

/-- A register write and the move to the next instruction change no control register. -/
theorem crRead_wr_past (s : State) (d : Reg) (v : Word) (n k : Nat) : crRead ((s.wr d v).past n) s.cur k = crRead s s.cur k := by
  have hx : ((s.wr d v).past n).slot s.cur = (s.me.ws d v).past n := by rw [State.wr_past_eq, State.slot_setSlot_self]
  unfold crRead
  rw [hx]
  simp only [Slot.past_fpMode, Slot.past_fpFlags, Slot.past_srState, Slot.past_cntOvf, Slot.past_trCause, Slot.past_trPc, Slot.past_trVal,
    Slot.past_trStatus, Slot.past_trScratch, Slot.past_handler, Slot.ws_fpMode, Slot.ws_fpFlags, Slot.ws_srState, Slot.ws_cntOvf,
    Slot.ws_trCause, Slot.ws_trPc, Slot.ws_trVal, Slot.ws_trStatus, Slot.ws_trScratch, Slot.ws_handler]
  rfl

/-- The registers of a core slot that a write can change, but ls.split (R14). -/
theorem crWritable_core {n : Nat} (ha : crAssigned true n = true) (hw : crWritable n = true) (hs : n ≠ 0x808) :
    n ≤ 3 ∨ (0x800 ≤ n ∧ n ≤ 0x805) := by
  simp only [crAssigned, crWritable, if_true, Bool.or_eq_true, Bool.and_eq_true, decide_eq_true_eq] at ha hw
  omega

theorem setWidth_setWidth_eq_and (v : Word) {k : Nat} (hk : k ≤ 64) : (v.setWidth k).setWidth 64 = v &&& BitVec.ofNat 64 (2 ^ k - 1) := by
  have h : 2 ^ k ≤ 2 ^ 64 := Nat.pow_le_pow_right (by decide) hk
  have h0 : 0 < 2 ^ k := Nat.two_pow_pos k
  apply BitVec.eq_of_toNat_eq
  rw [BitVec.toNat_setWidth, BitVec.toNat_setWidth, BitVec.toNat_and, BitVec.toNat_ofNat, Nat.mod_eq_of_lt (a := 2 ^ k - 1) (by omega),
    Nat.and_two_pow_sub_one_eq_mod, Nat.mod_eq_of_lt (Nat.lt_of_lt_of_le (Nat.mod_lt _ h0) h)]

/-- An rm of 5 to 7 leaves that field as it was (R15). -/
theorem fpModeWrite_setWidth (old : BitVec 4) (v : Word) : (fpModeWrite old v).setWidth 64 =
    if 5 ≤ v.toNat % 8 then (v &&& 8) ||| (old.setWidth 64 &&& 7) else v &&& 15 := by
  have h15 : v &&& (15 : Word) = (v.setWidth 4).setWidth 64 := (setWidth_setWidth_eq_and v (k := 4) (by decide)).symm
  have h8 : v &&& (8 : Word) = (v.setWidth 4).setWidth 64 &&& 8 := by rw [← h15, BitVec.and_assoc]; rfl
  have hn : (v.setWidth 4).toNat = v.toNat % 16 := BitVec.toNat_setWidth ..
  have hbit : v.toNat / 8 % 2 = (v.setWidth 4).toNat / 8 % 2 := by omega
  have hrm : v.toNat % 8 = (v.setWidth 4).toNat % 8 := by omega
  unfold fpModeWrite
  rw [h15, h8, hbit, hrm]
  generalize v.setWidth 4 = w
  revert old w
  decide

theorem trVector_word (v : Word) : BitVec.ofNat 64 ((BitVec.ofNat 62 (v.toNat / 4)).toNat * 4) = v &&& ~~~(3 : Word) := by
  have h : v &&& ~~~(3 : Word) = v >>> 2 <<< 2 := by rw [BitVec.shiftLeft_ushiftRight]; rfl
  have hv := v.isLt
  rw [h]
  apply BitVec.eq_of_toNat_eq
  simp only [BitVec.toNat_ofNat, BitVec.toNat_shiftLeft, BitVec.toNat_ushiftRight, Nat.shiftRight_eq_div_pow, Nat.shiftLeft_eq]
  omega

/-- A write stores the new value field by field (R15). -/
theorem crRead_crWrite_self {n : Nat} (ha : crAssigned true n = true) (hw : crWritable n = true) (hs : n ≠ 0x808) (s : State) (t : Nat)
    (v : Word) (c : Bool) : crRead (crWrite s t n v c) t n = crStored n (crRead s t n) v c := by
  have hcases := crWritable_core ha hw hs
  clear ha hw hs
  have hn : n = 0 ∨ n = 1 ∨ n = 2 ∨ n = 3 ∨ n = 0x800 ∨ n = 0x801 ∨ n = 0x802 ∨ n = 0x803 ∨ n = 0x804 ∨ n = 0x805 := by omega
  rcases hn with rfl | rfl | rfl | rfl | rfl | rfl | rfl | rfl | rfl | rfl <;>
    simp only [crRead, crWrite, crStored, State.updSlot_eq, State.updCore_eq, State.slot_setSlot_self, State.core_setCore_self]
  · exact fpModeWrite_setWidth _ v
  · exact setWidth_setWidth_eq_and v (by decide)
  · rw [← show (v.setWidth 32).setWidth 64 = v &&& 0xFFFFFFFF from setWidth_setWidth_eq_and v (by decide)]
    by_cases h : v.setWidth 32 = (0 : BitVec 32)
    · rw [h]
      rfl
    · have h64 : (v.setWidth 32).setWidth 64 ≠ (0 : Word) := fun h0 => h (by simpa using congrArg (BitVec.setWidth 32) h0)
      rw [if_neg h, if_neg h64]
  · cases c <;> simp [boolWord]
  · exact setWidth_setWidth_eq_and v (by decide)
  · exact setWidth_setWidth_eq_and v (by decide)
  · exact trVector_word v

theorem thId_setSlot (s : State) (t u : Nat) (x : Slot) : thId (s.setSlot t x) u = thId s u := rfl
theorem thId_setCore (s : State) (c u : Nat) (q : Core) : thId (s.setCore c q) u = thId s u := rfl
theorem State.cluCycle_setSlot (s : State) (t k : Nat) (x : Slot) : (s.setSlot t x).cluCycle k = s.cluCycle k := rfl
theorem State.cluCycle_setCore (s : State) (c k : Nat) (q : Core) : (s.setCore c q).cluCycle k = s.cluCycle k := rfl
theorem State.core_setSlot (s : State) (t c : Nat) (x : Slot) : (s.setSlot t x).core c = s.core c := rfl
theorem State.proc_setSlot (s : State) (t p : Nat) (x : Slot) : (s.setSlot t x).proc p = s.proc p := rfl
theorem State.slot_setCore (s : State) (c t : Nat) (q : Core) : (s.setCore c q).slot t = s.slot t := rfl
theorem State.proc_setCore (s : State) (c p : Nat) (q : Core) : (s.setCore c q).proc p = s.proc p := rfl

/-- No other control register changes (R95). -/
theorem crRead_crWrite_ne {n k : Nat} (h : k ≠ n) (s : State) (t : Nat) (v : Word) (c : Bool) :
    crRead (crWrite s t n v c) t k = crRead s t k := by
  unfold crWrite
  split <;> unfold crRead <;>
    simp only [State.updSlot_eq, State.updCore_eq, State.slot_setSlot_self, State.core_setCore_self, thId_setSlot, thId_setCore,
      State.cluCycle_setSlot, State.cluCycle_setCore, State.core_setSlot, State.proc_setSlot, State.slot_setCore, State.proc_setCore] <;>
    split
  any_goals contradiction
  all_goals rfl

/-! ### The forms that write where their operand field is not 0 (R95) -/

theorem exec_crrs_writes {d : Reg} {a : Reg} (h : a ≠ 0) (cr : BitVec 12) (s : State) :
    exec (.crrs d a cr) s = crAccess (crBase d a 1) .rs true d (s.rd a) cr s := by
  change crAccess _ _ (a != 0) _ _ _ _ = _
  rw [bne_iff_ne.mpr h]

theorem exec_crrc_writes {d : Reg} {a : Reg} (h : a ≠ 0) (cr : BitVec 12) (s : State) :
    exec (.crrc d a cr) s = crAccess (crBase d a 2) .rc true d (s.rd a) cr s := by
  change crAccess _ _ (a != 0) _ _ _ _ = _
  rw [bne_iff_ne.mpr h]

theorem exec_crrsi_writes {d : Reg} {a : Fin 32} (h : a ≠ 0) (cr : BitVec 12) (s : State) :
    exec (.crrsi d a cr) s = crAccess (crBase d a 5) .rs true d (BitVec.ofNat 64 a.val) cr s := by
  change crAccess _ _ (a != 0) _ _ _ _ = _
  rw [bne_iff_ne.mpr h]

theorem exec_crrci_writes {d : Reg} {a : Fin 32} (h : a ≠ 0) (cr : BitVec 12) (s : State) :
    exec (.crrci d a cr) s = crAccess (crBase d a 6) .rc true d (BitVec.ofNat 64 a.val) cr s := by
  change crAccess _ _ (a != 0) _ _ _ _ = _
  rw [bne_iff_ne.mpr h]

/-! ### An access that the checks let through (R13, R95, R96) -/

section
variable {s : State} {base : Nat} {o : CrOp} {d : Reg} {v : Word} {cr : BitVec 12}

/-- A form that does not write reads the register. -/
theorem crAccess_reads (hc : onCore s.cur = true) (ha : crAssigned true cr.toNat = true) (hm : 0x800 ≤ cr.toNat → s.me.mode ≠ .u)
    (hb : cr.toNat = 0x808 → lsBusy s s.myCore = false) : crAccess base o false d v cr s = .next ((s.wr d (crRead s s.cur cr.toNat)).past 12) := by
  have hp : ¬(0x800 ≤ cr.toNat ∧ s.me.mode = .u) := fun h => hm h.1 h.2
  have hl : ¬(cr.toNat = 0x808 ∧ lsBusy s s.myCore = true) := fun h => by simp [hb h.1] at h
  simp [crAccess, hc, ha, hp, hl, result]

/-- A form that writes stores the new value. -/
theorem crAccess_writes (hc : onCore s.cur = true) (ha : crAssigned true cr.toNat = true) (hm : 0x800 ≤ cr.toNat → s.me.mode ≠ .u)
    (hw : crWritable cr.toNat = true) (hs : cr.toNat ≠ 0x808) : crAccess base o true d v cr s =
      .next (((crWrite s s.cur cr.toNat (o.value (crRead s s.cur cr.toNat) v) (bitOf v 0 && o != .rc)).wr d (crRead s s.cur cr.toNat)).past 12) := by
  have hp : ¬(0x800 ≤ cr.toNat ∧ s.me.mode = .u) := fun h => hm h.1 h.2
  simp [crAccess, hc, ha, hp, hw, hs, result]

end

/-- A write of a control register leaves the registers, the program counter and memory alone. -/
theorem crWrite_frame (s : State) (n : Nat) (v : Word) (c : Bool) : let u := crWrite s s.cur n v c
    u.cur = s.cur ∧ u.me.s = s.me.s ∧ u.me.v = s.me.v ∧ u.me.pc = s.me.pc ∧ u.mem = s.mem := by
  unfold crWrite
  dsimp only
  split <;> simp [State.me_eq, State.slot_setCore]

/-- What a write of control register n leaves behind it: the old value in d, the new one in n, and nothing else changed (R15, R95). -/
def CrWritten (s t : State) (d : Reg) (n : Nat) (new : Word) (clear : Bool) : Prop :=
  (∀ r, t.rd r = if r = d ∧ r ≠ 0 then crRead s s.cur n else s.rd r) ∧ (∀ r, t.rdv r = s.rdv r) ∧ t.me.pc = s.me.pc + 12 ∧
    crRead t t.cur n = crStored n (crRead s s.cur n) new clear ∧ (∀ k, k ≠ n → crRead t t.cur k = crRead s s.cur k) ∧
    ∀ j, t.mem.rd j = s.mem.rd j

theorem crWritten {n : Nat} (ha : crAssigned true n = true) (hw : crWritable n = true) (hs : n ≠ 0x808) (s : State) (d : Reg) (v : Word)
    (c : Bool) : CrWritten s (((crWrite s s.cur n v c).wr d (crRead s s.cur n)).past 12) d n v c := by
  obtain ⟨hcur, hregs, hvecs, hpc, hmem⟩ := crWrite_frame s n v c
  have hself := crRead_crWrite_self ha hw hs s s.cur v c
  have hother := fun k hk => crRead_crWrite_ne (n := n) (k := k) hk s s.cur v c
  generalize crWrite s s.cur n v c = u at *
  rw [← hcur] at hself hother
  have hrd (r : Reg) : u.rd r = s.rd r := by simp [State.rd, Slot.rs, hregs]
  refine ⟨fun r => ?_, fun r => ?_, ?_, ?_, fun k hk => ?_, fun j => ?_⟩
  · by_cases h : r = d
    · subst h
      by_cases h0 : r = 0
      · subst h0
        rfl
      · rw [State.rd_wr_past_self u h0, if_pos ⟨rfl, h0⟩]
    · rw [State.rd_wr_past_ne u h, if_neg (fun hr => h hr.1), hrd]
  · rw [State.wr_past_eq, State.rdv_setSlot, Slot.past_rv, Slot.ws_rv]
    simp [State.rdv, Slot.rv, hvecs]
  · rw [State.wr_past_eq, State.me_setSlot, Slot.past_pc, Slot.ws_pc, hpc]
    rfl
  · exact (crRead_wr_past u d _ 12 n).trans (hcur ▸ hself)
  · exact (crRead_wr_past u d _ 12 k).trans (hcur ▸ hother k hk)
  · exact congrArg (·.rd j) hmem

/-- Settles O8: each form is an access that reads, or one that writes. -/
theorem controlRegisterAccess : Obligations.ControlRegisterAccess := by
  intro s d a imm cr n old v u hc ha hm hb reads writes
  have hreads {i : Instr} (base : Nat) (o : CrOp) (x : Word) (he : exec i s = crAccess base o false d x cr s) : reads i :=
    he.trans (crAccess_reads hc ha hm hb)
  have hwrites {i : Instr} (base : Nat) (o : CrOp) (x : Word) (he : exec i s = crAccess base o true d x cr s) :
      writes i (o.value old x) (bitOf x 0 && o != .rc) := fun hw hs =>
    ⟨_, he.trans (crAccess_writes hc ha hm hw hs), crWritten ha hw hs s d _ _⟩
  have hset (x : Word) : (bitOf x 0 && true) = x.getLsbD 0 := Bool.and_true _
  refine ⟨hset v ▸ hwrites _ .rw v rfl, hset u ▸ hwrites _ .rw u rfl, ?_, ?_⟩
  · split
    next h =>
      subst h
      exact ⟨hreads _ .rs v rfl, hreads _ .rc v rfl⟩
    next h =>
      exact ⟨hset v ▸ hwrites _ .rs v (exec_crrs_writes h cr s), Bool.and_false (bitOf v 0) ▸ hwrites _ .rc v (exec_crrc_writes h cr s)⟩
  · split
    next h =>
      subst h
      exact ⟨hreads _ .rs u rfl, hreads _ .rc u rfl⟩
    next h =>
      exact ⟨hset u ▸ hwrites _ .rs u (exec_crrsi_writes h cr s), Bool.and_false (bitOf u 0) ▸ hwrites _ .rc u (exec_crrci_writes h cr s)⟩

end Sys2Proof.Machine
end

section
/-! What the register instructions change, and what they leave alone (R11, R66, R67, R72, R108). -/

namespace Sys2Proof.Machine

/-! ### How the register instructions end -/

/-- An integer instruction writes one value to its destination register and completes (R72). -/
theorem exec_integer {i : Instr} {d : Reg} (h : integerDest i = some d) (s : State) : ∃ n v, exec i s = result n d v s := by
  unfold integerDest at h
  split at h <;> cases h <;> exact ⟨_, _, rfl⟩

/-- A slot with flags raised and a state of its generator (R66, R67). -/
def Slot.raised (x : Slot) (fl : FFlags) (q : BitVec 32) : Slot := { x with fpFlags := x.fpFlags ||| fl, srState := q }

/-- The state after an instruction that writes a scalar register, raises flags and leaves the generator in a state. -/
def State.floatEnd (s : State) (n : Nat) (d : Reg) (v : Word) (fl : FFlags) (q : BitVec 32) : State :=
  s.setSlot s.cur (((s.me.raised fl q).ws d v).past n)

/-- The state after an instruction that writes a vector register, raises flags and leaves the generator in a state. -/
def State.vectorEnd (s : State) (n : Nat) (d : Reg) (v : Block) (fl : FFlags) (q : BitVec 32) : State :=
  s.setSlot s.cur (((s.me.raised fl q).wv d v).past n)

theorem Slot.raised_none (x : Slot) : x.raised 0 x.srState = x := by simp [Slot.raised]

theorem result_eq_floatEnd (n : Nat) (d : Reg) (v : Word) (s : State) : result n d v s = .next (s.floatEnd n d v 0 s.me.srState) := by
  rw [result, State.wr_past_eq, State.floatEnd, Slot.raised_none]

theorem result_flag (n : Nat) (d : Reg) (v : Word) (fl : FFlags) (s : State) :
    result n d v (s.flag fl) = .next (s.floatEnd n d v fl s.me.srState) := by
  simp [result, State.floatEnd, State.wr_past_eq, State.flag, State.me_eq, Slot.raised]

/-- The generator's state after a draw (R67). -/
def State.drawn (s : State) (q : BitVec 32) : State := s.updMe fun x => { x with srState := q }

theorem result_drawn_flag (n : Nat) (d : Reg) (v : Word) (fl : FFlags) (q : BitVec 32) (s : State) :
    result n d v ((s.drawn q).flag fl) = .next (s.floatEnd n d v fl q) := by
  simp [result, State.floatEnd, State.wr_past_eq, State.flag, State.drawn, State.me_eq, Slot.raised]

theorem resultV_eq_vectorEnd (n : Nat) (d : Reg) (v : Block) (s : State) : resultV n d v s = .next (s.vectorEnd n d v 0 s.me.srState) := by
  rw [resultV, State.wrv_past_eq, State.vectorEnd, Slot.raised_none]

theorem resultV_flag (n : Nat) (d : Reg) (v : Block) (fl : FFlags) (s : State) :
    resultV n d v (s.flag fl) = .next (s.vectorEnd n d v fl s.me.srState) := by
  simp [resultV, State.vectorEnd, State.wrv_past_eq, State.flag, State.me_eq, Slot.raised]

theorem resultV_drawn_flag (n : Nat) (d : Reg) (v : Block) (fl : FFlags) (q : BitVec 32) (s : State) :
    resultV n d v ((s.drawn q).flag fl) = .next (s.vectorEnd n d v fl q) := by
  simp [resultV, State.vectorEnd, State.wrv_past_eq, State.flag, State.drawn, State.me_eq, Slot.raised]

/-- A conversion draws only where it is stochastic, and that fp.mode.sr says (R67, R89). -/
theorem exec_fcvt (tgt src : CvtCode) (d a : Reg) (s : State) : ∃ n v fl q, exec (.fcvt tgt src d a) s = .next (s.floatEnd n d v fl q) ∧
    (q ≠ s.me.srState → s.me.fpMode.getLsbD 3 = true) := by
  change ∃ n v fl q, execFcvt tgt src d a s = .next (s.floatEnd n d v fl q) ∧ _
  unfold execFcvt
  dsimp only
  split
  · split
    next hd =>
      have hsr : s.me.fpMode.getLsbD 3 = true := (Bool.and_eq_true_iff.mp hd).1
      exact ⟨_, _, _, _, result_drawn_flag .., fun _ => hsr⟩
    next => exact ⟨_, _, _, _, result_flag .., fun h => absurd rfl h⟩
  · exact ⟨_, _, _, _, result_flag .., fun h => absurd rfl h⟩

/-- A floating-point instruction writes its destination register and raises flags; only a conversion moves the generator (R66, R67, R85). -/
theorem exec_float {i : Instr} {d : Reg} (h : floatDest i = some d) (s : State) : ∃ n v fl q, exec i s = .next (s.floatEnd n d v fl q) ∧
    (q ≠ s.me.srState → s.me.fpMode.getLsbD 3 = true ∧ ∃ tgt src a, i = .fcvt tgt src d a) := by
  unfold floatDest at h
  split at h <;> cases h
  case h_17 | h_18 | h_19 => exact ⟨_, _, _, _, result_eq_floatEnd .., fun h => absurd rfl h⟩
  case h_22 tgt src a =>
    obtain ⟨n, v, fl, q, he, hq⟩ := exec_fcvt tgt src d a s
    exact ⟨n, v, fl, q, he, fun h => ⟨hq h, _, _, _, rfl⟩⟩
  all_goals exact ⟨_, _, _, _, result_flag .., fun h => absurd rfl h⟩

/-- A vector instruction that names a vector register to write writes it and raises flags (R108, R110). -/
theorem exec_vector {i : Instr} {d : Reg} (h : vectorDest i = some d) (s : State) : ∃ n v fl q, exec i s = .next (s.vectorEnd n d v fl q) := by
  unfold vectorDest at h
  split at h <;> cases h
  case h_10 | h_12 | h_26 | h_27 | h_31 | h_32 | h_42 | h_46 => exact ⟨_, _, _, _, resultV_eq_vectorEnd ..⟩
  case h_40 | h_41 => exact ⟨_, _, _, _, resultV_drawn_flag ..⟩
  all_goals exact ⟨_, _, _, _, resultV_flag ..⟩

/-! ### What they leave alone -/

theorem Slot.raised_flags {x : Slot} (fl : FFlags) (q : BitVec 32) {k : Nat} (h : x.fpFlags.getLsbD k = true) :
    (x.raised fl q).fpFlags.getLsbD k = true := by
  simp [Slot.raised, h]

section
variable (s : State) (n : Nat) (d : Reg) (fl : FFlags) (q : BitVec 32)

theorem State.me_floatEnd (v : Word) : (s.floatEnd n d v fl q).me = ((s.me.raised fl q).ws d v).past n := State.me_setSlot ..

theorem State.me_vectorEnd (v : Block) : (s.vectorEnd n d v fl q).me = ((s.me.raised fl q).wv d v).past n := State.me_setSlot ..

theorem onlyFloat_floatEnd (v : Word) : OnlyFloat s (s.floatEnd n d v fl q) d := by
  refine ⟨OnlyThisSlot.upd s _, fun r hr => ?_, ?_⟩
  · exact (State.rd_setSlot ..).trans (Slot.rs_ws_ne _ hr v)
  · rw [State.me_floatEnd, Slot.ws_frame]
    rfl

theorem onlyVector_vectorEnd (v : Block) : OnlyVector s (s.vectorEnd n d v fl q) d := by
  refine ⟨OnlyThisSlot.upd s _, fun r hr => ?_, ?_⟩
  · exact (State.rdv_setSlot ..).trans (Slot.rv_wv_ne _ hr v)
  · rw [State.me_vectorEnd]
    rfl

end

/-- Settles O3: each of the three kinds of instruction ends in one way, and each way changes its slot alone. -/
theorem registerInstructionFrames : Obligations.RegisterInstructionFrames := by
  refine ⟨fun i d s t hi ht => ?_, fun i d s t hi ht => ?_, fun i d s t hi ht => ?_, fun s d r v n => ⟨rfl, fun hd => ?_, fun hr => ?_, ?_, ?_⟩⟩
  · obtain ⟨n, v, he⟩ := exec_integer hi s
    obtain rfl := Host.Outcome.next.inj (he.symm.trans ht)
    exact OnlyScalar.wr_past s d v n
  · obtain ⟨n, v, fl, q, he, hq⟩ := exec_float hi s
    obtain rfl := Host.Outcome.next.inj (he.symm.trans ht)
    refine ⟨onlyFloat_floatEnd s n d fl q v, fun k hk => ?_, fun h => hq ?_⟩
    · rw [State.me_floatEnd, Slot.past_fpFlags, Slot.ws_fpFlags]
      exact Slot.raised_flags fl q hk
    · rwa [State.me_floatEnd, Slot.past_srState, Slot.ws_srState] at h
  · obtain ⟨n, v, fl, q, he⟩ := exec_vector hi s
    obtain rfl := Host.Outcome.next.inj (he.symm.trans ht)
    refine ⟨onlyVector_vectorEnd s n d fl q v, fun k hk => ?_⟩
    rw [State.me_vectorEnd]
    exact Slot.raised_flags fl q hk
  · exact State.rd_wr_past_self s hd v n
  · exact State.rd_wr_past_ne s hr v n
  · rw [State.wr_past_eq, State.rd_setSlot]
    rfl
  · rw [State.wr_past_eq, State.me_setSlot, Slot.past_pc, Slot.ws_pc]

end Sys2Proof.Machine
end

section
/-! Accesses of ls.split, and the write of it that goes on (R15, R18, R95, R96). -/

namespace Sys2Proof.Machine

/-! ### An access of ls.split (R95, R96) -/

section
variable {s : State} {base : Nat} {o : CrOp} {d : Reg} {v : Word}

theorem crRead_lsSplit (s : State) (t : Nat) : crRead s t 0x808 = BitVec.ofNat 64 (s.core (agentOf t)).lsSplit.val := rfl

/-- While a write is in progress every access waits. -/
theorem crAccess_lsSplit_busy (hc : onCore s.cur = true) (hm : s.me.mode ≠ .u) (hb : lsBusy s s.myCore = true) (w : Bool) :
    crAccess base o w d v 0x808 s = wait .lsBusy s := by
  simp [crAccess, hc, hm, hb, crAssigned, crWritable]

theorem crAccess_lsSplit_writes (hc : onCore s.cur = true) (hm : s.me.mode ≠ .u) (hb : lsBusy s s.myCore = false) :
    crAccess base o true d v 0x808 s = .next (((s.wr d (crRead s s.cur 0x808)).updCore s.myCore fun q => { q with stash := [] }).updMe fun x =>
      { x with run := .waiting (.lsSplit (Fin.ofNat 16 (o.value (crRead s s.cur 0x808) v).toNat)) }) := by
  simp [crAccess, hc, hm, hb, crAssigned, crWritable]

theorem crAccess_lsSplit_reads (hc : onCore s.cur = true) (hm : s.me.mode ≠ .u) (hb : lsBusy s s.myCore = false) :
    crAccess base o false d v 0x808 s = .next ((s.wr d (crRead s s.cur 0x808)).past 12) :=
  crAccess_reads hc rfl (fun _ => hm) fun _ => hb

end

/-! ### The slots that the end of the write re-admits (R104) -/

theorem State.slot_wake_ne (s : State) {t u : Nat} (h : u ≠ t) : (s.wake t).slot u = s.slot u := State.slot_setSlot_ne s h _

theorem State.slot_foldl_wake (l : List Nat) (s : State) {u : Nat} (h : u ∉ l) : (l.foldl State.wake s).slot u = s.slot u := by
  induction l generalizing s with
  | nil => rfl
  | cons t l ih =>
    rw [List.mem_cons, not_or] at h
    rw [List.foldl_cons, ih _ h.2, State.slot_wake_ne s h.1]

theorem State.foldl_wake_keeps (l : List Nat) (s : State) : (l.foldl State.wake s).cores = s.cores ∧ (l.foldl State.wake s).mem = s.mem := by
  induction l generalizing s with
  | nil => exact ⟨rfl, rfl⟩
  | cons t l ih => exact ih (s.wake t)

/-- Re-admitting the slots that wait for something leaves a slot that does not wait alone, and the cores and memory. -/
theorem State.wakeWhere_keeps (s : State) (c : Nat) (f : Wait → Bool) : (s.wakeWhere c f).cores = s.cores ∧ (s.wakeWhere c f).mem = s.mem :=
  State.foldl_wake_keeps _ s

theorem State.slot_wakeWhere_active {s : State} {t : Nat} (h : (s.slot t).run = .active) (c : Nat) (f : Wait → Bool) :
    (s.wakeWhere c f).slot t = s.slot t := by
  apply State.slot_foldl_wake
  simp [State.slotsWhere, h]

/-! ### The write goes on (R18) -/

/-- A core whose stash mappings are gone; a busy line goes on as a line of L1. -/
def Core.unstashed (q : Core) : Core :=
  { q with stash := [], lines := q.lines.map fun l => (l.1, if l.2.tag = some .busy then { l.2 with stash := false } else l.2) }

/-- A core without stash lines has nothing to write back: its mappings go (R18). -/
theorem dropStash_noLines {s : State} {c : Nat} (h : stashLines (s.core c) = []) : dropStash s c = s.setCore c (s.core c).unstashed := by
  rw [dropStash, h]
  rfl

theorem stashLines_unstashed {q : Core} (h : stashLines q = []) : stashLines q.unstashed = [] := by
  simp only [stashLines, Core.unstashed, List.map_eq_nil_iff, List.filter_eq_nil_iff, List.mem_map, forall_exists_index, and_imp,
    forall_apply_eq_imp_iff₂] at h ⊢
  intro l hl
  split
  · simp
  · exact h l hl

/-- The split is set and the units that change are zeroed; a value above 12 changes nothing (R18, log 22). -/
theorem setSplit_core {s : State} {c : Nat} (hh : s.half c = (0, 12)) (hk : (s.core c).lsSplit.val ≤ 12) (v : Fin 16) :
    let k := (s.core c).lsSplit.val; let u := setSplit s c v
    (u.core c).stash = (s.core c).stash ∧ (u.core c).lsSplit = (if v.val ≤ 12 then v else (s.core c).lsSplit) ∧
      (∀ a, (u.core c).ls.rd a =
        if v.val ≤ 12 ∧ Nat.min k v.val * 0x4000 ≤ a ∧ a < Nat.max k v.val * 0x4000 then 0 else (s.core c).ls.rd a) ∧
      u.slots = s.slots ∧ u.mem = s.mem := by
  intro k u
  have hmin : Nat.min k 12 = k := Nat.min_eq_left hk
  by_cases hv : v.val ≤ 12
  · have hu : u = s.setCore c { s.core c with
        ls := (s.core c).ls.clear ((0 + Nat.min k v.val) * 0x4000) ((Nat.max k v.val - Nat.min k v.val) * 0x4000), lsSplit := v } := by
      simp only [u, setSplit, hh, if_neg (Nat.not_lt.mpr hv), State.updCore_eq]
      rw [hmin]
    have hle : Nat.min k v.val ≤ Nat.max k v.val := Nat.le_trans (Nat.min_le_left ..) (Nat.le_max_left ..)
    rw [hu, State.core_setCore_self]
    refine ⟨rfl, (if_pos hv).symm, fun a => ?_, rfl, rfl⟩
    rw [Memory.rd_clear]
    refine if_congr ?_ rfl rfl
    omega
  · have hu : u = s := by simp only [u, setSplit, hh, if_pos (Nat.lt_of_not_le hv)]
    rw [hu]
    exact ⟨rfl, (if_neg hv).symm, fun a => (if_neg fun h => hv h.1).symm, rfl, rfl⟩

/-- With nothing left to write back the write completes, and its slot goes on behind it (R18, R96). -/
theorem execLsSplitWrite_goesOn {s : State} {t : Nat} {v : Fin 16} (hrun : (s.slot t).run = .waiting (.lsSplit v))
    (hlines : stashLines (s.core (agentOf t)) = []) (hputs : (s.core (agentOf t)).puts = []) :
    exec (.lsSplitWrite t) s = .next (((setSplit (dropStash s (agentOf t)) (agentOf t) v).updSlot t fun x => { x.past 12 with run := .active }).wakeWhere
      (agentOf t) (· == .lsBusy)) := by
  have hcore : (dropStash s (agentOf t)).core (agentOf t) = (s.core (agentOf t)).unstashed := by
    rw [dropStash_noLines hlines, State.core_setCore_self]
  have hnone : (s.core (agentOf t)).unstashed.puts = [] := hputs
  change execLsSplitWrite t s = _
  unfold execLsSplitWrite
  simp only [hrun, hcore, hnone, stashLines_unstashed hlines, List.isEmpty_nil, Bool.not_true, Bool.or_self, Bool.false_eq_true, if_false]

/-- Settles O10: the accesses case by case, and the write that goes on. -/
theorem localStoreSplit : Obligations.LocalStoreSplit := by
  refine ⟨?_, ?_⟩
  · intro s d a imm hc hm old u gives writes reads
    have hgives {i : Instr} {w : Bool} {t : State} (base : Nat) (o : CrOp) (x : Word) (he : exec i s = crAccess base o w d x 0x808 s)
        (ht : lsBusy s s.myCore = false → crAccess base o w d x 0x808 s = .next t) : gives i t := by
      change exec i s = _
      rw [he]
      split
      next hb => exact crAccess_lsSplit_busy hc hm hb w
      next hb => exact ht (by simpa using hb)
    have hwrites {i : Instr} (base : Nat) (o : CrOp) (x : Word) (he : exec i s = crAccess base o true d x 0x808 s) : writes i (o.value old x) :=
      hgives base o x he (crAccess_lsSplit_writes hc hm)
    have hreads {i : Instr} (base : Nat) (o : CrOp) (x : Word) (he : exec i s = crAccess base o false d x 0x808 s) : reads i :=
      hgives base o x he (crAccess_lsSplit_reads hc hm)
    refine ⟨hwrites _ .rw _ rfl, hwrites _ .rw _ rfl, ?_, ?_⟩
    · split
      next h =>
        subst h
        exact ⟨hreads _ .rs 0 rfl, hreads _ .rc 0 rfl⟩
      next h =>
        exact ⟨hwrites _ .rs _ (exec_crrs_writes h _ s), hwrites _ .rc _ (exec_crrc_writes h _ s)⟩
    · split
      next h =>
        subst h
        exact ⟨hreads _ .rs u rfl, hreads _ .rc u rfl⟩
      next h =>
        exact ⟨hwrites _ .rs _ (exec_crrsi_writes h _ s), hwrites _ .rc _ (exec_crrci_writes h _ s)⟩
  · intro s t v c k hh hk hrun hlines hputs
    have he := execLsSplitWrite_goesOn hrun hlines hputs
    have hcore : (dropStash s c).core c = (s.core c).unstashed := by rw [dropStash_noLines hlines, State.core_setCore_self]
    have hsame : (dropStash s c).slots = s.slots ∧ (dropStash s c).mem = s.mem := by
      rw [dropStash_noLines hlines]
      exact ⟨rfl, rfl⟩
    obtain ⟨hstash, hsplit, hrd, hslots, hmem⟩ := setSplit_core (s := dropStash s c) (c := c) (by rw [dropStash_noLines hlines]; exact hh)
      (by rw [hcore]; exact hk) v
    rw [hcore] at hstash hsplit hrd
    have hslot : (setSplit (dropStash s c) c v).slot t = s.slot t := State.slot_congr (hslots.trans hsame.1) t
    generalize setSplit (dropStash s c) c v = w at *
    have hw : ((w.updSlot t fun x => { x.past 12 with run := .active }).slot t).run = .active := by rw [State.updSlot_eq, State.slot_setSlot_self]
    have hu := State.slot_wakeWhere_active hw c (· == .lsBusy)
    obtain ⟨hcores, hmems⟩ := State.wakeWhere_keeps (w.updSlot t fun x => { x.past 12 with run := .active }) c (· == .lsBusy)
    have hc : ∀ c', _ = w.core c' := State.core_congr (s := w) hcores
    refine ⟨_, he, by rw [hu]; exact hw, ?_, ?_, ?_, ?_, fun a => ?_⟩
    · rw [hu, State.updSlot_eq, State.slot_setSlot_self, hslot]
      rfl
    · rw [hc, hstash]
      rfl
    · rw [hc, hsplit]
      rfl
    · rw [hmems]
      exact hmem.trans hsame.2
    · rw [hc, hrd]
      rfl

end Sys2Proof.Machine
end

section
/-! What a translation leaves behind: entries of TLBs and of walkers' caches, and free choices taken (R340, log 10). -/

namespace Sys2Proof.Machine

/-- Between two states only entries of TLBs and of walkers' caches, and the free choices taken, differ. -/
structure OnlyTlbs (s u : State) : Prop where
  rest : u = { s with cores := u.cores, clusters := u.clusters, free := u.free }
  core : ∀ c, u.core c = { s.core c with itlb := (u.core c).itlb, dtlb := (u.core c).dtlb }
  cluster : ∀ k, u.cluster k = { s.cluster k with tlb := (u.cluster k).tlb, wcache := (u.cluster k).wcache }

@[simp] theorem State.cluster_updCluster_self (s : State) (k : Nat) (f : Cluster → Cluster) : (s.updCluster k f).cluster k = f (s.cluster k) := by
  simp [State.updCluster, State.cluster]

@[simp] theorem State.cluster_updCluster_ne (s : State) {j k : Nat} (h : j ≠ k) (f : Cluster → Cluster) :
    (s.updCluster k f).cluster j = s.cluster j := by
  simp [State.updCluster, State.cluster, h]

namespace OnlyTlbs

theorem refl (s : State) : OnlyTlbs s s := ⟨rfl, fun _ => rfl, fun _ => rfl⟩

theorem trans {s u w : State} (h1 : OnlyTlbs s u) (h2 : OnlyTlbs u w) : OnlyTlbs s w where
  rest := h2.rest.trans (by rw [h1.rest])
  core c := (h2.core c).trans (by rw [h1.core c])
  cluster k := (h2.cluster k).trans (by rw [h1.cluster k])

theorem free (s : State) (n : Nat) : OnlyTlbs s { s with free := n } := ⟨rfl, fun _ => rfl, fun _ => rfl⟩

theorem updCore (s : State) (c : Nat) (i d : List TlbEntry) : OnlyTlbs s (s.updCore c fun q => { q with itlb := i, dtlb := d }) where
  rest := rfl
  core e := by
    rw [State.updCore_eq]
    by_cases h : e = c
    · subst h
      rw [State.core_setCore_self]
    · rw [State.core_setCore_ne _ h]
  cluster _ := rfl

theorem updCluster (s : State) (k : Nat) (t : List TlbEntry) (w : List WalkEntry) :
    OnlyTlbs s (s.updCluster k fun q => { q with tlb := t, wcache := w }) where
  rest := rfl
  core _ := rfl
  cluster e := by
    by_cases h : e = k
    · subst h
      rw [State.cluster_updCluster_self]
    · rw [State.cluster_updCluster_ne _ h]

end OnlyTlbs

/-! ### The steps of a translation -/

theorem onlyTlbs_setCoreTlb (s : State) (c : Nat) (fetch : Bool) (l : List TlbEntry) : OnlyTlbs s (setCoreTlb s c fetch l) := by
  cases fetch
  · exact .updCore s c (s.core c).itlb l
  · exact .updCore s c l (s.core c).dtlb

theorem onlyTlbs_capped {α : Type} (n : Nat) (e : α) (l : List α) (s : State) : OnlyTlbs s (capped n e l s).2 := by
  unfold capped
  split
  · exact .refl s
  · exact .free s _

theorem onlyTlbs_tlbPut (n : Nat) (e : TlbEntry) (l : List TlbEntry) (s : State) : OnlyTlbs s (tlbPut n e l s).2 := onlyTlbs_capped ..

theorem onlyTlbs_fillCoreTlb (s : State) (c : Nat) (fetch : Bool) (e : TlbEntry) : OnlyTlbs s (fillCoreTlb s c fetch e) :=
  (onlyTlbs_tlbPut ..).trans (onlyTlbs_setCoreTlb ..)

theorem onlyTlbs_updTlb (s : State) (k : Nat) (l : List TlbEntry) : OnlyTlbs s (s.updCluster k fun q => { q with tlb := l }) :=
  .updCluster s k l (s.cluster k).wcache

theorem onlyTlbs_fillTlb (s : State) (k : Nat) (e : TlbEntry) : OnlyTlbs s (fillTlb s k e) :=
  (onlyTlbs_tlbPut ..).trans (onlyTlbs_updTlb ..)

theorem onlyTlbs_cacheTrail (s : State) (k : Nat) (l : List WalkEntry) : OnlyTlbs s (cacheTrail s k l) :=
  .updCluster s k (s.cluster k).tlb _

theorem onlyTlbs_walkView (s : State) (k p : Nat) : OnlyTlbs s (walkView s k p).2 := by
  unfold walkView
  exact List.foldlRecOn (motive := fun x : Memory × State => OnlyTlbs s x.2) _ _ (.refl s) fun x h _ _ => h.trans (.free x.2 _)

theorem onlyTlbs_locate (s : State) (c : Nat) (k : Kind) (va : Word) : OnlyTlbs s (locate s c k va).2 := by
  unfold locate
  split
  · exact .refl s
  rename_i p _
  split
  · exact .refl s
  split_ifs
  · exact .refl s
  · exact .refl s
  lift_lets
  extract_lets a cl fetch now keep fresh second
  have hkeep (e : TlbEntry) (s : State) : OnlyTlbs s (keep e s).2 := by
    simp only [keep]
    split
    · exact .refl s
    · exact .free s _
  have hfresh (s : State) : OnlyTlbs s (fresh s).2 := by
    have hview := onlyTlbs_walkView s cl p
    simp only [fresh]
    split
    · exact ((hview.trans (onlyTlbs_fillCoreTlb ..)).trans (onlyTlbs_fillTlb ..)).trans (onlyTlbs_cacheTrail ..)
    · split_ifs <;> exact hview
  clear_value keep fresh
  have hsecond (s : State) : OnlyTlbs s (second s).2 := by
    simp only [second]
    split
    · exact hfresh s
    · split_ifs
      · exact (hkeep _ s).trans (onlyTlbs_fillCoreTlb ..)
      · exact ((hkeep _ s).trans (onlyTlbs_updTlb ..)).trans (hfresh _)
  clear_value second
  split
  · exact hsecond s
  · simp only []
    split_ifs
    · exact hkeep _ s
    · exact ((hkeep _ s).trans (onlyTlbs_setCoreTlb ..)).trans (hsecond _)

/-- A translation leaves entries of TLBs behind, and nothing else (R340). -/
theorem onlyTlbs_translate {s u : State} {c : Nat} {user append : Bool} {k : Kind} {va : Word} {x : Xres}
    (h : translate s c user k append va = (x, u)) : OnlyTlbs s u := by
  have hl := onlyTlbs_locate s c k va
  unfold translate at h
  generalize locate s c k va = r at h hl
  split at h <;> cases h <;> exact hl

/-! ### What stays the same -/

namespace OnlyTlbs

variable {s u : State} (h : OnlyTlbs s u)
include h

theorem slots : u.slots = s.slots := by rw [h.rest]
theorem mem : u.mem = s.mem := by rw [h.rest]
theorem cur : u.cur = s.cur := by rw [h.rest]
theorem parts : u.parts = s.parts := by rw [h.rest]
theorem poisoned : u.poisoned = s.poisoned := by rw [h.rest]
theorem hdmSize : u.hdmSize = s.hdmSize := by rw [h.rest]
theorem regions : u.regions = s.regions := by rw [h.rest]
theorem mcasts : u.mcasts = s.mcasts := by rw [h.rest]
theorem posted : u.posted = s.posted := by rw [h.rest]
theorem slot (t : Nat) : u.slot t = s.slot t := State.slot_congr h.slots t
theorem lines (c : Nat) : (u.core c).lines = (s.core c).lines := by rw [h.core c]
theorem stash (c : Nat) : (u.core c).stash = (s.core c).stash := by rw [h.core c]
theorem puts (c : Nat) : (u.core c).puts = (s.core c).puts := by rw [h.core c]
theorem awaits (c : Nat) : (u.core c).awaits = (s.core c).awaits := by rw [h.core c]
theorem l2dirty (k : Nat) : (u.cluster k).l2dirty = (s.cluster k).l2dirty := by rw [h.cluster k]
theorem part (p : Nat) : u.part p = s.part p := by rw [State.part, State.part, h.parts]
theorem partOf (c : Nat) : u.partOf c = s.partOf c := by rw [State.partOf, State.partOf, h.cluster]
theorem cfgOf (c : Nat) : u.cfgOf c = s.cfgOf c := by simp only [State.cfgOf, h.partOf, h.part]
theorem protoOf (a : Nat) : u.protoOf a = s.protoOf a := by simp only [State.protoOf, State.regionOf, h.regions]
theorem unsent (c : Nat) : Machine.unsent u c = Machine.unsent s c := by simp only [Machine.unsent, h.lines, h.protoOf]
theorem released (c : Nat) : Machine.released u c = Machine.released s c := by
  simp only [Machine.released, telling, h.unsent, h.puts, h.mcasts]
theorem seenSettled (c : Nat) : Machine.seenSettled u c = Machine.seenSettled s c := by simp only [Machine.seenSettled, h.mcasts]
theorem ordered (c : Nat) : Machine.ordered u c = Machine.ordered s c := by simp only [Machine.ordered, h.released, h.seenSettled]
theorem backingOf (c : Nat) (va : Word) (n : Nat) : Machine.backingOf u c va n = Machine.backingOf s c va n := by
  simp only [Machine.backingOf, h.cfgOf]
theorem biasAway (h0 : s.hdmSize = 0) (pa : Nat) : Machine.biasAway u pa = false := by simp [Machine.biasAway, inWindow, h.hdmSize, h0]

end OnlyTlbs

end Sys2Proof.Machine
end

section
/-! LD and LDS (R25, R164, R175, R217). -/

namespace Sys2Proof.Machine

/-! ### Values -/

/-- Sign extension as the model computes it is that of a bit vector. -/
theorem sext_eq_signExtend {w : Nat} (h : 0 < w) (x : Nat) : sext w x = (BitVec.ofNat w x).signExtend 64 := by
  have hw : 2 ^ w = 2 * 2 ^ (w - 1) := by rw [← Nat.pow_succ']; congr 1; omega
  have hx : (x : Int) % 2 ^ w = ((x % 2 ^ w : Nat) : Int) := by push_cast; rfl
  have hp : (2 : Int) ^ w = ((2 ^ w : Nat) : Int) := by push_cast; rfl
  have ht : toSigned w x = (BitVec.ofNat w x).toInt := by
    rw [toSigned, BitVec.toInt_eq_toNat_cond, BitVec.toNat_ofNat, hx, hp]
    split <;> split <;> omega
  rw [sext, ht, BitVec.signExtend]

theorem leNat_lt (l : List Byte) : leNat l < 256 ^ l.length := by
  induction l with
  | nil => simp [leNat]
  | cons b l ih =>
    have hb := b.isLt
    rw [leNat, List.length_cons, Nat.pow_succ]
    omega

/-- Byte j of the number that bytes make. -/
theorem leNat_div (l : List Byte) (j : Nat) (h : j < l.length) : leNat l / 256 ^ j % 256 = l[j].toNat := by
  induction l generalizing j with
  | nil => simp at h
  | cons b l ih =>
    have hb := b.isLt
    cases j with
    | zero =>
      simp only [leNat, Nat.pow_zero, Nat.div_one, List.getElem_cons_zero]
      omega
    | succ j =>
      have hd : (b.toNat + 256 * leNat l) / 256 = leNat l := by omega
      rw [leNat, Nat.pow_succ', ← Nat.div_div_eq_div_mul, hd, List.getElem_cons_succ]
      exact ih j (by simpa using h)

theorem Memory.bytes_length (m : Memory) (a n : Nat) : (m.bytes a n).length = n := by
  induction n generalizing a with
  | zero => rfl
  | succ n ih => simp [Memory.bytes, ih]

theorem Memory.bytes_getElem (m : Memory) (a n j : Nat) (h : j < (m.bytes a n).length) : (m.bytes a n)[j] = m.rd (a + j) := by
  induction n generalizing a j with
  | zero => simp [Memory.bytes] at h
  | succ n ih =>
    cases j with
    | zero => rfl
    | succ j =>
      have hj : j < (m.bytes (a + 1) n).length := by simpa [Memory.bytes] using h
      have ha : a + (j + 1) = a + 1 + j := by omega
      simp only [Memory.bytes, List.getElem_cons_succ, ih (a + 1) j hj, ha]

/-- The bytes of a block of memory are those of memory. -/
theorem blkByte_block (m : Memory) (a : Nat) {j : Nat} (h : j < 64) : blkByte (m.block a) j = m.rd (a + j) := by
  have hl : j < (m.bytes a 64).length := by rwa [Memory.bytes_length]
  have hlt : leNat (m.bytes a 64) < 2 ^ 512 := by
    have h := leNat_lt (m.bytes a 64)
    rw [Memory.bytes_length] at h
    rwa [show (256 : Nat) = 2 ^ 8 from rfl, ← Nat.pow_mul] at h
  apply BitVec.eq_of_toNat_eq
  rw [blkByte, BitVec.extractLsb'_toNat, Memory.block, BitVec.toNat_ofNat, Memory.le, Nat.mod_eq_of_lt hlt, Nat.shiftRight_eq_div_pow, Nat.pow_mul,
    ← Memory.bytes_getElem m a 64 j hl]
  exact leNat_div _ j hl

theorem blkBytes_block (m : Memory) (a : Nat) {i n : Nat} (h : i + n ≤ 64) : blkBytes (m.block a) i n = m.bytes (a + i) n := by
  induction n generalizing i with
  | zero => rfl
  | succ n ih => rw [blkBytes, Memory.bytes, blkByte_block m a (by omega), ih (by omega), Nat.add_assoc]

/-! ### Checks that let an access through -/

@[simp] theorem Res.ok_andThen {α β : Type} (a : α) (s : State) (f : α → State → Res β) : (Res.ok a s).andThen f = f a s := rfl

theorem lsFree_of_idle {s : State} {c : Nat} (h : lsBusy s c = false) : lsFree s c = .ok () s := by simp [lsFree, h]

/-- An access of the core's own scratchpad is one of its local store (R159). -/
theorem accessDest_scratchpad {s : State} {ea : Word} {n : Nat} (h : InScratchpad s ea n) (q : MemQual) (k : Kind) :
    accessDest s (s.by q) k ea n 1 = .ok (.ls (s.lsPlace ea)) s := by
  obtain ⟨-, hs, hf, ho, hb⟩ := h
  have hmod : ea.toNat % 1 = 0 := Nat.mod_one _
  have hfirst : lsFirst s s.cur ea = .ok () s := by
    rw [lsFirst]
    split
    · exact lsFree_of_idle hb
    · rfl
  have hcheck : checkAddr s s.cur k ea n 1 = .ok (.ls (s.lsPlace ea)) := by
    have hn : ¬ s.spSize (agentOf s.cur) < offsetOf ea + n := Nat.not_lt.mpr ho
    have hf' : fld ea.toNat 45 11 = agentOf s.cur := hf
    simp [checkAddr, hs, hf', hmod, hn, State.lsPlace, State.myCore]
  change (lsFirst s s.cur ea).andThen _ = _
  rw [hfirst, Res.ok_andThen]
  change (Res.ofExcept (checkAddr s s.cur k ea n 1) s).andThen _ = _
  rw [hcheck]
  rfl

/-- The parts of an access that lies within a block: one (R172). -/
theorem splitParts_within {ea : Word} {n : Nat} (h : ea.toNat % 64 + n ≤ 64) : splitParts ea n = [(ea, n)] := by
  have hmin : Nat.min n (64 - ea.toNat % 64) = n := Nat.min_eq_left (by omega)
  simp [splitParts, hmin]

/-- An access of global memory that its translation grants (R334). -/
theorem accessDest_global {s u : State} {ea : Word} {n : Nat} {z : Xlat} {k : Kind} (hs : spaceOf ea = some .glb) (hn : ea.toNat % 64 + n ≤ 64)
    (hz : z.ok ≠ 3) (ht : translate s s.myCore (s.me.mode = .u) k false ea = (.ok z, u)) (q : MemQual) :
    accessDest s (s.by q) k ea n 1 = .ok (.glb [⟨ea, z.pa, n, z⟩]) u := by
  have hmod : ea.toNat % 1 = 0 := Nat.mod_one _
  have hfirst : lsFirst s s.cur ea = .ok () s := by simp [lsFirst, hs]
  have hcheck : checkAddr s s.cur k ea n 1 = .ok (.glb ea) := by simp [checkAddr, hs, hmod]
  have hpart : translatePart s (s.by q) k false ea n = .ok ⟨ea, z.pa, n, z⟩ u := by
    unfold translatePart
    have ht' : translate s (agentOf (s.by q).t) (s.by q).user k false ea = (.ok z, u) := ht
    simp [ht', hz]
  change (lsFirst s s.cur ea).andThen _ = _
  rw [hfirst, Res.ok_andThen]
  change (Res.ofExcept (checkAddr s s.cur k ea n 1) s).andThen _ = _
  rw [hcheck]
  change (translateParts s (s.by q) k false (splitParts ea n)).andThen _ = _
  rw [splitParts_within hn, translateParts, hpart]
  rfl

/-! ### Loads near the core -/

/-- A load of unpoisoned bytes of the core's own scratchpad (R175, R434). -/
theorem loadAny_scratchpad {s : State} {ea : Word} {n : Nat} (h : ReadsScratchpad s ea n) (q : MemQual) :
    loadAny s q ea n = .ok (s.myLs.bytes (s.lsPlace ea) n, none) s := by
  obtain ⟨h, hp⟩ := h
  obtain ⟨hc, -, -, -, hb⟩ := id h
  rw [loadAny, if_pos hc, loadBytes, accessDest_scratchpad h q, Res.ok_andThen]
  change (lsFree s s.myCore).andThen _ = _
  rw [lsFree_of_idle hb, Res.ok_andThen]
  change (match poisonAt s (lsBlk s.myCore) (s.lsPlace ea) n with | some i => _ | none => _) = _
  rw [hp]
  rfl

/-- A load of a handler's data memory (R217). -/
theorem loadAny_dmem {s : State} {ea : Word} {n : Nat} (hc : onCore s.cur = false) (h : ea.toNat + n ≤ 0x8000) (q : MemQual) :
    loadAny s q ea n = .ok ((s.proc s.myProc).dmem.bytes ea.toNat n, none) s := by
  simp [loadAny, hc, hmemCheck, Nat.mod_one, h, Res.ofExcept]

/-- What a load gives to its register (R175). -/
def loadValue (signed : Bool) (sz : Size) (v : Nat) : Word :=
  if signed then (BitVec.ofNat (8 * bytesOf sz) v).signExtend 64 else BitVec.ofNat 64 v

theorem loadInstr_of_ok {s u : State} {q : MemQual} {ea : Word} {sz : Size} {l : List Byte} {w : Option Wait}
    (h : loadAny s q ea (bytesOf sz) = .ok (l, w) u) (n : Nat) (signed : Bool) (d : Reg) :
    loadInstr n signed sz d ea q s = doneAway n w (s.redoing (some d)) (u.wr d (loadValue signed sz (leNat l))) := by
  have hw : 0 < 8 * bytesOf sz := by cases sz <;> decide
  rw [loadInstr, h, Res.finish_ok, loadValue, ← sext_eq_signExtend hw]

/-! ### Loads of global memory past the caches (R164, R171) -/

/-- The block that an access touches, and the place within it. -/
theorem blkBytes_of_pa (m : Memory) (pa : Nat) {n : Nat} (h : pa % 64 + n ≤ 64) : blkBytes (m.block (pa / 64 * 64)) (pa % 64) n = m.bytes pa n := by
  rw [blkBytes_block m _ h, show pa / 64 * 64 + pa % 64 = pa by omega]

theorem uncachedHost_hbm {s : State} {pa : Nat} (h : ∃ die, place pa = .hbm die) : uncachedHost s pa = false := by
  obtain ⟨die, h⟩ := h
  simp [uncachedHost, h]

theorem stashOf_none {q : Core} (h : q.stash = []) (va : Nat) : stashOf q va = none := by simp [stashOf, h]

/-- A core without lines has none of a block. -/
theorem lineOf_none {s : State} {c : Nat} (h : (s.core c).lines = []) (blk : Nat) : lineOf s c blk = none := by simp [lineOf, h, look]

/-- A direct block that no cache of the core holds is read from memory, beyond the core (R104, R164). -/
theorem loadPartMem_direct {s : State} {b : By} {p : Part1} (hpois : s.poisoned = []) (hhost : uncachedHost s p.pa = false)
    (hproto : s.protoOf p.pa = 0) (hbias : biasAway s p.pa = false) (hstash : (s.core (agentOf b.t)).stash = [])
    (hlines : (s.core (agentOf b.t)).lines = []) (hl2 : (s.cluster (clusterOf (agentOf b.t))).l2dirty = []) (hn : p.pa % 64 + p.len ≤ 64) :
    loadPartMem s b p = .ok (s.mem.bytes p.pa p.len, some .access) s := by
  have hl := lineOf_none hlines (p.pa / 64)
  have hdirect : directLoad s (agentOf b.t) (p.pa / 64) b.q.scope b.q.ev = (s.mem.block (p.pa / 64 * 64), s) := by
    simp [directLoad, directBlock, ownDirect, l2Block, hl, hl2, look]
  have hfar : farLoad s (agentOf b.t) (p.pa / 64) (p.pa % 64) p.len b.q.scope = true := by simp [farLoad, hl]
  have htouch : touch s (agentOf b.t) (slotOf b.t) (p.pa / 64) b.q.ev = s := by simp [touch, hl]
  simp [loadPartMem, poisonedBlk, hpois, hhost, hproto, hbias, stashOf_none hstash, hdirect, hfar, htouch, blkBytes_of_pa _ _ hn]

/-- The bytes of a checked access of one part, outside every deque's backing area. -/
theorem loadParts_single {s u : State} {b : By} {p : Part1} {l : List Byte} {w : Option Wait} (h : loadPartMem s b p = .ok (l, w) u)
    (hb : backingOf u (agentOf b.t) p.va p.len = none) : loadParts s b [p] = .ok (l, w) u := by
  have hpart : loadPart s b p = .ok (l, w) u := by
    rw [loadPart, h, Res.ok_andThen]
    simp [hb]
  rw [loadParts, hpart]
  simp [loadParts]
  cases w <;> rfl

/-- A load whose core has nothing left to perform, or which asks for no order, does not wait for one (R126, R192, R194). -/
theorem orderFirst_ok {s : State} {t : Nat} {o : MemOrd} (h : o = .sc ∨ o = .rel → ordered s (agentOf t) = true) : orderFirst s t o = .ok () s := by
  unfold orderFirst
  cases o with
  | sc => simp [h (.inl rfl)]
  | rel => simp [(Bool.and_eq_true_iff.mp (h (.inr rfl))).1]
  | _ => rfl

theorem pageOrd_ordered {x : Xlat} {o : MemOrd} (h : pageOrd x o = .sc ∨ pageOrd x o = .rel) : o = .sc ∨ o = .rel ∨ x.ok = 1 := by
  unfold pageOrd at h
  split at h
  next h1 => exact .inr (.inr h1)
  next => simp at h
  next => exact h.elim .inl fun h => .inr (.inl h)

/-- A load asks for the order of its instruction or of its page (R171). -/
theorem loadOrd_single {b : By} {p : Part1} (h : loadOrd b [p] = .sc ∨ loadOrd b [p] = .rel) : b.q.ord = .sc ∨ b.q.ord = .rel ∨ p.x.ok = 1 := by
  apply pageOrd_ordered
  generalize ho : pageOrd p.x b.q.ord = o
  simp only [loadOrd, List.map_cons, List.map_nil, ho] at h
  cases o <;> simp at h ⊢

/-- A load of one part whose address has been checked, from memory. -/
theorem loadDest_direct {s : State} {b : By} {p : Part1} (hpois : s.poisoned = []) (hhost : uncachedHost s p.pa = false)
    (hproto : s.protoOf p.pa = 0) (hbias : biasAway s p.pa = false) (hstash : (s.core (agentOf b.t)).stash = [])
    (hlines : (s.core (agentOf b.t)).lines = []) (hl2 : (s.cluster (clusterOf (agentOf b.t))).l2dirty = []) (hn : p.pa % 64 + p.len ≤ 64)
    (hord : b.q.ord = .sc ∨ b.q.ord = .rel ∨ p.x.ok = 1 → ordered s (agentOf b.t) = true) (hback : backingOf s (agentOf b.t) p.va p.len = none) :
    loadDest s b (.glb [p]) p.len = .ok (s.mem.bytes p.pa p.len, some .access) s := by
  have hfirst : (if [p].any fun p => retrying s b.t (p.pa / 64) then Res.ok () s else orderFirst s b.t (loadOrd b [p])) = .ok () s := by
    split
    · rfl
    · exact orderFirst_ok fun h => hord (loadOrd_single h)
  have hfree : stashFree s (agentOf b.t) [p] = .ok () s := by simp [stashFree, stashOf_none hstash]
  change (if [p].any _ then _ else _ : Res Unit).andThen _ = _
  rw [hfirst, Res.ok_andThen, hfree, Res.ok_andThen]
  exact loadParts_single (loadPartMem_direct hpois hhost hproto hbias hstash hlines hl2 hn) hback

/-- Settles O12: loads near the core and of global memory, each by what its access delivers. -/
theorem loads : Obligations.Loads := by
  refine ⟨?_, ?_⟩
  · intro s sz d base q x k reads near
    have hnear (ea : Word) (i j : Instr) (n : Nat) (hi : exec i s = loadInstr n false sz d ea q s) (hj : exec j s = loadInstr n true sz d ea q s) :
        near ea i j n := by
      refine ⟨fun h => ?_, fun hc h => ?_⟩
      · have hl := loadAny_scratchpad h q
        exact ⟨hi.trans (loadInstr_of_ok hl ..), hj.trans (loadInstr_of_ok hl ..)⟩
      · have hl := loadAny_dmem hc h q
        exact ⟨hi.trans (loadInstr_of_ok hl ..), hj.trans (loadInstr_of_ok hl ..)⟩
    exact ⟨hnear _ _ _ _ rfl rfl, hnear _ _ _ _ rfl rfl⟩
  · intro s s' sz d base q x z c k hc hord hstash hlines hl2 hz hn hpois hhdm hplace hproto loads v ea
    have hloads (i : Instr) (a : Word) (n : Nat) (signed : Bool) (hi : exec i s = loadInstr n signed sz d a q s) :
        loads i a n (loadValue signed sz v) := by
      intro hs ha hback ht
      have h := onlyTlbs_translate ht
      have hl : loadAny s q a k = .ok (s.mem.bytes z.pa k, some .access) s' := by
        rw [loadAny, if_pos hc, loadBytes, accessDest_global hs ha hz ht q, Res.ok_andThen, ← h.mem]
        exact loadDest_direct (p := ⟨a, z.pa, k, z⟩) (h.poisoned.trans hpois) (uncachedHost_hbm hplace) ((h.protoOf _).trans hproto)
          (h.biasAway hhdm _) ((h.stash _).trans hstash) ((h.lines _).trans hlines) ((h.l2dirty _).trans hl2) hn
          (fun ho => (h.ordered c).trans (hord ho)) ((h.backingOf ..).trans hback)
      exact hi.trans (loadInstr_of_ok hl ..)
    exact ⟨hloads _ _ _ false rfl, hloads _ _ _ false rfl, hloads _ _ _ true rfl, hloads _ _ _ true rfl⟩

end Sys2Proof.Machine
end

section
/-! ST to the scratchpad, to handler data memory and to global memory (R25, R164, R175, R208, R217). -/

namespace Sys2Proof.Machine

/-! ### Bytes of blocks -/

theorem leNat_div_getD (l : List Byte) (j : Nat) : leNat l / 256 ^ j % 256 = (l.getD j 0).toNat := by
  by_cases h : j < l.length
  · rw [leNat_div l j h, List.getD_eq_getElem?_getD, List.getElem?_eq_getElem h, Option.getD_some]
  · have hlt : leNat l < 256 ^ j := Nat.lt_of_lt_of_le (leNat_lt l) (Nat.pow_le_pow_right (by decide) (by omega))
    rw [Nat.div_eq_of_lt hlt, List.getD_eq_getElem?_getD, List.getElem?_eq_none (by omega)]
    rfl

theorem blkByte_blkOf {l : List Byte} (hl : l.length ≤ 64) (j : Nat) : blkByte (blkOf l) j = l.getD j 0 := by
  have hlt : leNat l < 2 ^ 512 := by
    have h := Nat.lt_of_lt_of_le (leNat_lt l) (Nat.pow_le_pow_right (by decide) hl)
    rwa [show (256 : Nat) = 2 ^ 8 from rfl, ← Nat.pow_mul] at h
  apply BitVec.eq_of_toNat_eq
  rw [blkByte, blkOf, BitVec.extractLsb'_toNat, BitVec.toNat_ofNat, Nat.mod_eq_of_lt hlt, Nat.shiftRight_eq_div_pow, Nat.pow_mul]
  exact leNat_div_getD l j

theorem blkByte_blkMerge (old new : Block) (mask : BitVec 64) {j : Nat} (h : j < 64) :
    blkByte (blkMerge old new mask) j = if mask.getLsbD j then blkByte new j else blkByte old j := by
  rw [blkMerge, blkByte_blkOf (by simp), List.getD_eq_getElem?_getD, List.getElem?_map, List.getElem?_range h]
  rfl

theorem maskRange_getLsbD {lo n : Nat} (h : lo + n ≤ 64) (j : Nat) : (maskRange lo n).getLsbD j = (decide (lo ≤ j) && decide (j < lo + n)) := by
  rw [maskRange, BitVec.getLsbD_ofNat, Nat.testBit_mul_two_pow, Nat.testBit_two_pow_sub_one, Bool.eq_iff_iff]
  simp only [Bool.and_eq_true, decide_eq_true_eq]
  omega

/-- A block with bytes put into it. -/
theorem blkByte_blkPut (b : Block) {lo : Nat} {l : List Byte} (h : lo + l.length ≤ 64) {j : Nat} (hj : j < 64) :
    blkByte (blkPut b lo l) j = if lo ≤ j ∧ j < lo + l.length then l.getD (j - lo) 0 else blkByte b j := by
  rw [blkPut, blkByte_blkMerge _ _ _ hj, maskRange_getLsbD h, blkByte_blkOf (by simpa using h)]
  refine if_ctx_congr (by simp) (fun hc => ?_) fun _ => rfl
  rw [List.getD_append_right _ _ _ _ (by simpa using hc.1), List.length_replicate]

/-- Bytes of a register, and none beyond them. -/
theorem leBytes_getD (n : Nat) (v : Word) {i : Nat} (h : i < n) : (leBytes n v.toNat).getD i 0 = v.extractLsb' (8 * i) 8 := by
  have hi : i < (leBytes n v.toNat).length := by simpa using h
  rw [List.getD_eq_getElem?_getD, List.getElem?_eq_getElem hi, Option.getD_some, leBytes_getElem]
  apply BitVec.eq_of_toNat_eq
  rw [BitVec.toNat_ofNat, BitVec.extractLsb'_toNat, Nat.shiftRight_eq_div_pow, Nat.pow_mul]

/-- A memory with the low bytes of a register written. -/
theorem Memory.rd_wrBytes_leBytes (m : Memory) (a n : Nat) (v : Word) (j : Nat) :
    (m.wrBytes a (leBytes n v.toNat)).rd j = if a ≤ j ∧ j < a + n then v.extractLsb' (8 * (j - a)) 8 else m.rd j := by
  split
  next h =>
    have hi : j - a < (leBytes n v.toNat).length := by rw [leBytes_length]; omega
    have hr := Memory.rd_wrBytes_in m a _ (j - a) hi
    rw [show a + (j - a) = j by omega] at hr
    rw [hr, ← leBytes_getD n v (by omega), List.getD_eq_getElem?_getD, List.getElem?_eq_getElem hi, Option.getD_some]
  next h => exact Memory.rd_wrBytes_out _ (by rw [leBytes_length]; omega) m

/-- What a store of n bytes of a register at place lo of a block leaves of the block and of its mask of written bytes (R164). -/
def Takes (v : Word) (lo n : Nat) (d d' : Block) (w w' : BitVec 64) : Prop :=
  (∀ j, j < 64 → blkByte d' j = if lo ≤ j ∧ j < lo + n then v.extractLsb' (8 * (j - lo)) 8 else blkByte d j) ∧
    ∀ j, w'.getLsbD j = (w.getLsbD j || (decide (lo ≤ j) && decide (j < lo + n)))

theorem takes_blkPut {lo n : Nat} (h : lo + n ≤ 64) (v : Word) (d : Block) (w : BitVec 64) :
    Takes v lo n d (blkPut d lo (leBytes n v.toNat)) w (w ||| maskRange lo n) := by
  refine ⟨fun j hj => ?_, fun j => ?_⟩
  · rw [blkByte_blkPut d (by simpa using h) hj, leBytes_length]
    exact if_ctx_congr .rfl (fun hc => leBytes_getD n v (by omega)) fun _ => rfl
  · rw [BitVec.getLsbD_or, maskRange_getLsbD h]

theorem takes_blkMerge {lo n : Nat} (h : lo + n ≤ 64) (v : Word) (d : Block) (w : BitVec 64) :
    Takes v lo n d (blkMerge d (blkPut 0 lo (leBytes n v.toNat)) (maskRange lo n)) w (w ||| maskRange lo n) := by
  refine ⟨fun j hj => ?_, fun j => ?_⟩
  · rw [blkByte_blkMerge _ _ _ hj, maskRange_getLsbD h, blkByte_blkPut 0 (by simpa using h) hj, leBytes_length]
    refine if_ctx_congr (by simp) (fun hc => ?_) fun _ => rfl
    rw [if_pos hc, leBytes_getD n v (by omega)]
  · rw [BitVec.getLsbD_or, maskRange_getLsbD h]

theorem maskRange_or_ne_zero {lo n : Nat} (h : lo + n ≤ 64) (hn : 0 < n) (w : BitVec 64) : w ||| maskRange lo n ≠ 0 := by
  intro h0
  have hb : (w ||| maskRange lo n).getLsbD lo = true := by
    rw [BitVec.getLsbD_or, maskRange_getLsbD h]
    simp [hn]
  rw [h0] at hb
  simp at hb

/-! ### Stores near the core -/

/-- The state after an access of n instruction bytes that was served beyond the core, or by it. -/
def State.away (s : State) (n : Nat) (w : Option Wait) (r : Redo) : State :=
  match w with
  | none => s.past n
  | some w => (s.past n).updMe fun x => { x with run := .waiting w, redo := some r }

theorem doneAway_eq (n : Nat) (w : Option Wait) (r : Redo) (s : State) : doneAway n w r s = .next (s.away n w r) := by
  cases w <;> rfl

theorem storeInstr_of_ok {s u : State} {q : MemQual} {ea : Word} {sz : Size} {a : Reg} {w : Option Wait}
    (h : storeAny s q ea (leBytes (bytesOf sz) (s.rd a).toNat) = .ok w u) (n : Nat) :
    storeInstr n sz a ea q s = .next (u.away n w (u.redoing none)) := by
  rw [storeInstr, h, Res.finish_ok, doneAway_eq]

/-- Fewer than 64 bytes cover no block: what is poisoned stays so (R434). -/
theorem unpoisonIn_few (s : State) (f : Nat → Nat) (o : Nat) {n : Nat} (h : n < 64) : unpoisonIn s f o n = s := by
  have hn : n / 64 = 0 := Nat.div_eq_of_lt h
  unfold unpoisonIn
  split
  · rfl
  · simp [hn]

theorem bytesOf_bounds (sz : Size) : 0 < bytesOf sz ∧ bytesOf sz ≤ 8 := by cases sz <;> decide

/-- A release of the core alone, which has nothing left to perform, goes on (R197). -/
theorem releaseFirst_core {s : State} {t : Nat} (h : released s (agentOf t) = true) : releaseFirst s t .core = .ok () s := by
  simp [releaseFirst, h]

theorem storeDest_ls {s : State} {b : By} {l : List Byte}
    (hr : (!b.engine && (decide (b.q.ord = .rel) || decide (b.q.ord = .sc) || (s.slot b.t).relFence.isSome)) = true →
      released s (agentOf b.t) = true) (hb : lsBusy s (agentOf b.t) = false) (hl : l.length < 64) (o : Nat) :
    storeDest s b (.ls o) l = .ok none (s.updCore (agentOf b.t) fun c => { c with ls := c.ls.wrBytes o l }) := by
  have hfirst {rel : Bool} (h : rel = true → released s (agentOf b.t) = true) : (if rel then releaseFirst s b.t .core else Res.ok () s) = .ok () s := by
    split
    next hrel => exact releaseFirst_core (h hrel)
    next => rfl
  unfold storeDest
  dsimp only
  rw [hfirst hr, Res.ok_andThen, lsFree_of_idle hb, Res.ok_andThen, unpoisonIn_few _ _ _ hl]

/-- A store to the core's own scratchpad, with nothing to release (R175, R197). -/
theorem storeAny_scratchpad {s : State} {ea : Word} {q : MemQual} {l : List Byte} (h : InScratchpad s ea l.length) (hr : NothingToRelease s q)
    (hl : l.length < 64) :
    storeAny s q ea l = .ok none (s.updCore s.myCore fun c => { c with ls := c.ls.wrBytes (s.lsPlace ea) l }) := by
  obtain ⟨hc, -, -, -, hb⟩ := id h
  rw [storeAny, if_pos hc, storeBytes, accessDest_scratchpad h q, Res.ok_andThen]
  refine storeDest_ls (b := s.by q) (fun hrel => hr ?_) hb hl _
  simp only [Bool.and_eq_true, Bool.or_eq_true, decide_eq_true_eq, or_assoc] at hrel
  exact hrel.2

/-- A store to a handler's data memory (R217). -/
theorem storeAny_dmem {s : State} {ea : Word} {l : List Byte} (hc : onCore s.cur = false) (h : ea.toNat + l.length ≤ 0x8000) (q : MemQual) :
    storeAny s q ea l = .ok none (s.updProc s.myProc fun p => { p with dmem := p.dmem.wrBytes ea.toNat l }) := by
  simp [storeAny, hc, hmemCheck, Nat.mod_one, h, Res.ofExcept]

/-! ### The state after a store -/

section
variable (s : State) (n : Nat) (w : Option Wait) (r : Redo)

theorem State.away_keeps : (s.away n w r).cores = s.cores ∧ (s.away n w r).clusters = s.clusters ∧ (s.away n w r).mem = s.mem := by
  cases w <;> exact ⟨rfl, rfl, rfl⟩

theorem State.away_rest : s.away n w r = { s with slots := (s.away n w r).slots } := by cases w <;> rfl

theorem State.slot_away {t : Nat} (h : t ≠ s.cur) : (s.away n w r).slot t = s.slot t := by
  cases w with
  | none => exact State.slot_setSlot_ne s h _
  | some w => exact (State.slot_setSlot_ne _ h _).trans (State.slot_setSlot_ne s h _)

/-- How the slot goes on after an access (R104). -/
def runAfter (run : Run) : Option Wait → Run
  | none => run
  | some w => .waiting w

theorem State.me_past : (s.past n).me = s.me.past n := (congrArg State.me (State.past_eq s n)).trans (State.me_setSlot ..)

theorem State.me_away : (s.away n w r).me = { s.me with
    pc := s.me.pc + BitVec.ofNat 64 n, fresh := none, vprog := none, got := none, run := runAfter s.me.run w, redo := (s.away n w r).me.redo } := by
  cases w with
  | none =>
    have h : (s.away n none r).me = s.me.past n := s.me_past n
    rw [h]
    rfl
  | some w =>
    have h : (s.away n (some w) r).me = { s.me.past n with run := .waiting w, redo := some r } := by
      change ((s.past n).updMe _).me = _
      rw [State.past_eq, State.updMe_eq, State.setSlot_cur, State.slot_setSlot_self]
      exact State.me_setSlot (s.setSlot s.cur _) _
    rw [h]
    rfl

end

/-! ### The lines of a core -/

@[simp] theorem lineOf_setLine_self (s : State) (c blk : Nat) (l : Line) : lineOf (setLine s c blk (some l)) c blk = some l := by
  simp [lineOf, setLine]

theorem lineOf_setLine_ne (s : State) (c : Nat) {b blk : Nat} (h : b ≠ blk) (l : Option Line) : lineOf (setLine s c blk l) c b = lineOf s c b := by
  cases l <;> simp [lineOf, setLine, h]

/-- A line stands in the L1 of its core, or outside it only for its single use (R170, R253). -/
def Line.Still (l : Line) : Prop := l.stash = false ∧ l.stream = none ∧ l.l2 = false

/-- Between two states a core's line of a block changes, with the stamp of its core, and nothing else. -/
structure OnlyLine (s u : State) (c blk : Nat) (l' : Line) : Prop where
  rest : u = { s with cores := u.cores }
  line : lineOf u c blk = some l'
  others : ∀ b, b ≠ blk → lineOf u c b = lineOf s c b

theorem OnlyLine.setLine {s u : State} {c blk : Nat} {l : Line} (h : OnlyLine s u c blk l) (l' : Line) :
    OnlyLine s (Machine.setLine u c blk (some l')) c blk l' where
  rest := by
    conv_lhs => rw [h.rest]
    rfl
  line := lineOf_setLine_self ..
  others b hb := (lineOf_setLine_ne u c hb _).trans (h.others b hb)

/-- A line after a hit: the access's priority, a place in L1, and the last use of its core (R170). -/
def Line.hit (l : Line) (ev : Fin 8) (used : Nat) : Line := { l with prio := ev, stream := none, used := used, l2 := false }

/-- A hit leaves a line where it stands: it takes the access's priority, and no other line moves (R170). -/
theorem touch_still {s : State} {c blk : Nat} {l : Line} (hl : lineOf s c blk = some l) (h : l.Still) (slot : Nat) (ev : Fin 8) :
    ∃ l', OnlyLine s (touch s c slot blk ev) c blk l' ∧ l'.tag = l.tag ∧ l'.data = l.data ∧ l'.written = l.written := by
  obtain ⟨hstash, hstream, hl2⟩ := h
  by_cases hev : ev = 0
  · have ht : touch s c slot blk ev = s := by simp [touch, hl, hstash, hev]
    rw [ht]
    exact ⟨l, ⟨rfl, hl, fun _ _ => rfl⟩, rfl, rfl, rfl⟩
  · have ht : touch s c slot blk ev = fillLine s c slot blk { l with prio := ev, stream := none } := by simp [touch, hl, hstash, hev]
    have hlook : look blk (s.core c).lines = some l := hl
    have hin : (l.hit ev (s.core c).stamp).inL1 = l.inL1 := by simp [Line.hit, Line.inL1, hstash, hstream, hl2]
    have hone : ∀ w, w = s.setCore c { s.core c with stamp := (s.core c).stamp + 1 } → ∀ x,
        OnlyLine s (setLine w c blk (some x)) c blk x ∧ OnlyLine s (setLine (setLine w c blk none) c blk (some x)) c blk x := by
      rintro w rfl x
      refine ⟨⟨rfl, lineOf_setLine_self .., fun b hb => ?_⟩, ⟨rfl, lineOf_setLine_self .., fun b hb => ?_⟩⟩
      · rw [lineOf_setLine_ne _ _ hb]
        simp [lineOf]
      · rw [lineOf_setLine_ne _ _ hb, lineOf_setLine_ne _ _ hb]
        simp [lineOf]
    obtain ⟨hstays, hagain⟩ := hone _ rfl (l.hit ev (s.core c).stamp)
    refine ⟨l.hit ev (s.core c).stamp, ?_, rfl, rfl, rfl⟩
    rw [ht]
    by_cases hi : l.inL1 = true
    · have hcond : (l.stash || ((l.hit ev (s.core c).stamp).inL1 && (look blk (s.core c).lines).any Line.inL1)) = true := by
        simp [hlook, hin, hi]
      have hf : fillLine s c slot blk { l with prio := ev, stream := none } = _ := if_pos hcond
      rwa [hf]
    · have hcond : ¬ (l.stash || ((l.hit ev (s.core c).stamp).inL1 && (look blk (s.core c).lines).any Line.inL1)) = true := by
        simp [hstash, hin, hi]
      have hout : (!(l.hit ev (s.core c).stamp).inL1) = true := by simp [hin, hi]
      have hf : fillLine s c slot blk { l with prio := ev, stream := none } = _ := (if_neg hcond).trans (if_pos hout)
      rwa [hf]

/-! ### A store of one part (R164, R172, R175) -/

/-- A core has nothing left to perform, and everything it has seen is performed (R171, R197). -/
def SettledCore (s : State) (c : Nat) : Prop := released s c = true ∧ s.posted = 0 ∧ seenSettled s c = true

/-- A store whose release has nothing to wait for is ready, where its block is direct or the core may write it (R197, R208). -/
theorem storeReady_ok {s : State} {b : By} {p : Part1}
    (hrel : b.q.ord = .rel ∨ b.q.ord = .sc ∨ p.x.ok = 1 ∨ (s.slot b.t).relFence.isSome = true → SettledCore s (agentOf b.t))
    (hbias : biasAway s p.pa = false) (hown : s.protoOf p.pa ≠ 0 → ∃ l, lineOf s (agentOf b.t) (p.pa / 64) = some l ∧ l.tag = some .writable) :
    storeReady s b p = .ok () s := by
  have hpage (h : pageOrd p.x b.q.ord = .sc ∨ pageOrd p.x b.q.ord = .rel) : SettledCore s (agentOf b.t) := by
    rcases pageOrd_ordered h with h | h | h
    · exact hrel (.inr (.inl h))
    · exact hrel (.inl h)
    · exact hrel (.inr (.inr (.inl h)))
  have hisrel (h : isRelease s b.t p.x b.q.ord = true) : SettledCore s (agentOf b.t) := by
    simp only [isRelease, Bool.or_eq_true, decide_eq_true_eq] at h
    rcases h with (h | h) | h
    · exact hpage (.inr h)
    · exact hpage (.inl h)
    · exact hrel (.inr (.inr (.inr h)))
  unfold storeReady
  dsimp only
  have hfirst (lazy : Bool) : (if b.engine || retrying s b.t (p.pa / 64) then Res.ok () s
      else if decide (pageOrd p.x b.q.ord = .sc) && !seenSettled s (agentOf b.t) then .wait .order s
      else if (!b.engine && isRelease s b.t p.x b.q.ord) && !lazy then releaseFirst s b.t (relScope s b.t b.q.scope)
      else .ok () s) = .ok () s := by
    split
    · rfl
    split
    next h =>
      simp only [Bool.and_eq_true, decide_eq_true_eq, Bool.not_eq_true'] at h
      exact absurd (hpage (.inl h.1)).2.2 (by simp [h.2])
    split
    next h =>
      simp only [Bool.and_eq_true] at h
      obtain ⟨hr, hp, -⟩ := hisrel h.1.2
      simp [releaseFirst, hr, hp]
    next => rfl
  rw [hfirst, Res.ok_andThen]
  split
  · rw [hbias]
    rfl
  next hproto =>
    obtain ⟨l, hl, ht⟩ := hown hproto
    simp [obtain, hl, ht]

/-- A store whose one part is ready is performed. -/
theorem storeDest_single {s u : State} {b : By} {p : Part1} {l : List Byte} {w : Option Wait} (hstash : (s.core (agentOf b.t)).stash = [])
    (hready : storeReady s b p = .ok () s) (hpart : storePartMem s b p l = (u, w)) (hlen : l.length = p.len) (hlt : p.len < 64)
    (hback : backingOf u (agentOf b.t) p.va p.len = none) : storeDest s b (.glb [p]) l = .ok w u := by
  have hfree : stashFree s (agentOf b.t) [p] = .ok () s := by simp [stashFree, stashOf_none hstash]
  have hone : storePart s b p (l.take p.len) = (u, w) := by
    rw [List.take_of_length_le (Nat.le_of_eq hlen)]
    simp [storePart, hpart, Nat.ne_of_lt hlt, hback]
  have hall : storeParts s b [p] l = (u, w) := by
    simp only [storeParts, hone]
    cases w <;> rfl
  unfold storeDest
  simp only [hfree, Res.ok_andThen, storesReady, hready, hall]

/-! ### Where a store of one part goes (R164, R208) -/

section
variable {s : State} {b : By} {p : Part1} {v : Word} {n : Nat}

/-- A line of the core takes the bytes: a direct one at .CORE, or one that the core may write under a protocol (R164, R208). -/
theorem storePartMem_line {l : Line} (hhost : uncachedHost s p.pa = false) (hstash : (s.core (agentOf b.t)).stash = [])
    (hl : lineOf s (agentOf b.t) (p.pa / 64) = some l) (hstill : l.Still)
    (hwhere : (s.protoOf p.pa = 0 ∧ b.q.scope = .core) ∨ s.protoOf p.pa ≠ 0) (hn : p.pa % 64 + n ≤ 64) :
    ∃ u l', storePartMem s b p (leBytes n v.toNat) = (u, none) ∧ OnlyLine s u (agentOf b.t) (p.pa / 64) l' ∧ l'.tag = l.tag ∧
      Takes v (p.pa % 64) n l.data l'.data l.written l'.written := by
  obtain ⟨x, hx, htag, hdata, hwritten⟩ := touch_still hl hstill (slotOf b.t) b.q.ev
  rw [← hdata, ← hwritten]
  rcases hwhere with ⟨hproto, hscope⟩ | hproto
  · refine ⟨_, _, ?_, hx.setLine { x with
      data := blkMerge x.data (blkPut 0 (p.pa % 64) (leBytes n v.toNat)) (maskRange (p.pa % 64) n), written := x.written ||| maskRange (p.pa % 64) n },
      htag, takes_blkMerge hn v _ _⟩
    simp [storePartMem, hhost, hproto, hscope, stashOf_none hstash, storeDirectL1, hl, hx.line]
  · have hmark : markStash (touch s (agentOf b.t) (slotOf b.t) (p.pa / 64) b.q.ev) (agentOf b.t) (p.pa / 64) false p.va =
        touch s (agentOf b.t) (slotOf b.t) (p.pa / 64) b.q.ev := rfl
    obtain ⟨rel, hrel⟩ : ∃ rel, storePartMem s b p (leBytes n v.toNat) = (setLine (touch s (agentOf b.t) (slotOf b.t) (p.pa / 64) b.q.ev)
        (agentOf b.t) (p.pa / 64) (some { x with
          data := blkPut x.data (p.pa % 64) (leBytes n v.toNat), written := x.written ||| maskRange (p.pa % 64) n, rel := rel }), none) := by
      unfold storePartMem
      simp only [hhost, hproto, stashOf_none hstash, Option.isSome_none, Bool.false_and, Bool.false_eq_true, if_false, hmark, hx.line, leBytes_length]
      exact ⟨_, rfl⟩
    exact ⟨_, _, hrel, hx.setLine _, htag, takes_blkPut hn v _ _⟩

end

/-- Between two states the lines of cores, what clusters hold written, and memory may differ, and nothing else. -/
structure OnlyBytes (s u : State) : Prop where
  rest : u = { s with cores := u.cores, clusters := u.clusters, mem := u.mem }
  cluster : ∀ k, u.cluster k = { s.cluster k with l2dirty := (u.cluster k).l2dirty, stamp := (u.cluster k).stamp }

theorem OnlyBytes.trans {s u w : State} (h1 : OnlyBytes s u) (h2 : OnlyBytes u w) : OnlyBytes s w where
  rest := h2.rest.trans (by rw [h1.rest])
  cluster k := (h2.cluster k).trans (by rw [h1.cluster k])

theorem OnlyLine.bytes {s u : State} {c blk : Nat} {l : Line} (h : OnlyLine s u c blk l) : OnlyBytes s u where
  rest := h.rest.trans (by rw [h.rest])
  cluster k := by
    have hk : u.cluster k = s.cluster k := by rw [h.rest]; rfl
    rw [hk]

theorem onlyBytes_coverL1 (s : State) (c blk : Nat) (mask : BitVec 64) : OnlyBytes s (coverL1 s c blk mask) := by
  unfold coverL1
  split <;> exact ⟨rfl, fun _ => rfl⟩

theorem onlyBytes_updMem (s : State) (f : Memory → Memory) : OnlyBytes s (s.updMem f) := ⟨rfl, fun _ => rfl⟩

theorem onlyBytes_updCluster (s : State) (k : Nat) (d : Tab L2Line) (n : Nat) :
    OnlyBytes s (s.updCluster k fun q => { q with l2dirty := d, stamp := n }) where
  rest := rfl
  cluster j := by
    by_cases h : j = k
    · subst h
      rw [State.cluster_updCluster_self]
    · rw [State.cluster_updCluster_ne _ h]

theorem onlyBytes_setL2 (s : State) (k blk : Nat) (l : L2Line) : OnlyBytes s (setL2 s k blk l) := onlyBytes_updCluster s k _ (s.cluster k).stamp

theorem onlyBytes_coverL2 (s : State) (k blk : Nat) (mask : BitVec 64) : OnlyBytes s (coverL2 s k blk mask) := by
  unfold coverL2
  split
  · exact onlyBytes_setL2 ..
  · exact ⟨rfl, fun _ => rfl⟩

theorem onlyBytes_mergeL2 (s : State) (c blk : Nat) (prio : Fin 8) (b : Block) (mask : BitVec 64) : OnlyBytes s (mergeL2 s c blk prio b mask) :=
  (onlyBytes_updCluster s (clusterOf c) (s.cluster (clusterOf c)).l2dirty _).trans (onlyBytes_setL2 ..)

theorem coverL1_keeps (s : State) (c blk : Nat) (mask : BitVec 64) :
    (coverL1 s c blk mask).clusters = s.clusters ∧ (coverL1 s c blk mask).mem = s.mem := by
  unfold coverL1
  split <;> exact ⟨rfl, rfl⟩

/-- A line of the cluster's L2 takes the bytes of a core (R164). -/
theorem look_mergeL2 {s : State} {c blk : Nat} {l : L2Line} (hl : look blk (s.cluster (clusterOf c)).l2dirty = some l) (prio : Fin 8) (b : Block)
    {mask : BitVec 64} (h0 : l.written ||| mask ≠ 0) : ∃ l', look blk ((mergeL2 s c blk prio b mask).cluster (clusterOf c)).l2dirty = some l' ∧
      l'.data = blkMerge l.data b mask ∧ l'.written = l.written ||| mask := by
  have hmask : ¬ (l.written = 0#64 ∧ mask = 0#64) := by
    rintro ⟨h1, rfl⟩
    exact h0 (by simp [h1])
  simp [mergeL2, setL2, useL2, hl, hmask]

/-- Lines of cores and of clusters leave the ports' rings as they are (R201). -/
theorem ringOn_setLine (s : State) (c blk : Nat) (l : Option Line) (p : Nat) : ringOn (setLine s c blk l) p = ringOn s p := by
  have hcore (e : Nat) : ((setLine s c blk l).core e).trace = (s.core e).trace := by
    by_cases h : e = c
    · subst h
      simp [setLine]
    · simp [setLine, h]
  have hring : ringOf (setLine s c blk l) p = ringOf s p := by
    rw [ringOf, hcore]
    rfl
  rw [ringOn, hring]
  rfl

theorem ringOn_coverL1 (s : State) (c blk : Nat) (mask : BitVec 64) (p : Nat) : ringOn (coverL1 s c blk mask) p = ringOn s p := by
  unfold coverL1
  split
  · exact ringOn_setLine ..
  · rfl

theorem ringOn_coverL2 (s : State) (k blk : Nat) (mask : BitVec 64) (p : Nat) : ringOn (coverL2 s k blk mask) p = ringOn s p := by
  unfold coverL2
  split <;> rfl

/-- A write that no port has to record or to find in a log is one of memory alone (R200, R201). -/
theorem portWrite_free {s : State} {pa c : Nat} (hring : ringOn s (s.homeOf pa) = false)
    (hreplay : ∀ k, s.partOf c = some k → (s.part k).mode ≠ .replay) (l : List Byte) (slot : Nat) :
    portWrite s pa l c slot = s.updMem fun m => m.wrBytes pa l := by
  have hring' : ringOn (s.updMem fun m => m.wrBytes pa l) (s.homeOf pa) = false := hring
  unfold portWrite portWriteBy tracePortBy
  simp only [hring', Bool.false_eq_true, if_false]
  change (match s.partOf c with | none => _ | some k => _) = _
  split
  next => rfl
  next k hk =>
    have hmode : ((s.part k).mode != .replay) = true := by simpa using hreplay k hk
    exact if_pos hmode

namespace OnlyBytes

variable {s u : State} (h : OnlyBytes s u)
include h

theorem slots : u.slots = s.slots := by rw [h.rest]
theorem cur : u.cur = s.cur := by rw [h.rest]
theorem slot (t : Nat) : u.slot t = s.slot t := State.slot_congr h.slots t
theorem part (p : Nat) : u.part p = s.part p := by rw [h.rest]; rfl
theorem partOf (c : Nat) : u.partOf c = s.partOf c := by rw [State.partOf, State.partOf, h.cluster]
theorem cfgOf (c : Nat) : u.cfgOf c = s.cfgOf c := by simp only [State.cfgOf, h.partOf, h.part]
theorem backingOf (c : Nat) (va : Word) (n : Nat) : Machine.backingOf u c va n = Machine.backingOf s c va n := by
  simp only [Machine.backingOf, h.cfgOf]
theorem homeOf (pa : Nat) : u.homeOf pa = s.homeOf pa := by rw [h.rest]; rfl

end OnlyBytes

section
variable {s : State} {b : By} {p : Part1} {v : Word} {n : Nat}

/-- At .CLU the line of the cluster's L2 that holds the block takes the bytes (R164). -/
theorem storePartMem_cluster {l : L2Line} (hhost : uncachedHost s p.pa = false) (hstash : (s.core (agentOf b.t)).stash = [])
    (hproto : s.protoOf p.pa = 0) (hscope : b.q.scope = .clu) (hl : look (p.pa / 64) (s.cluster (clusterOf (agentOf b.t))).l2dirty = some l)
    (hn : p.pa % 64 + n ≤ 64) (h0 : 0 < n) :
    ∃ u l', storePartMem s b p (leBytes n v.toNat) = (u, some .access) ∧ OnlyBytes s u ∧ u.mem = s.mem ∧
      look (p.pa / 64) (u.cluster (clusterOf (agentOf b.t))).l2dirty = some l' ∧ Takes v (p.pa % 64) n l.data l'.data l.written l'.written := by
  obtain ⟨hclusters, hmem⟩ := coverL1_keeps s (agentOf b.t) (p.pa / 64) (maskRange (p.pa % 64) n)
  have hl' : look (p.pa / 64) ((coverL1 s (agentOf b.t) (p.pa / 64) (maskRange (p.pa % 64) n)).cluster (clusterOf (agentOf b.t))).l2dirty = some l := by
    rw [State.cluster, hclusters]
    exact hl
  obtain ⟨l', hlook, hdata, hwritten⟩ := look_mergeL2 hl' (if b.q.ev = 0 then l.prio else b.q.ev) (blkPut 0 (p.pa % 64) (leBytes n v.toNat))
    (maskRange_or_ne_zero hn h0 l.written)
  refine ⟨_, l', ?_, (onlyBytes_coverL1 ..).trans (onlyBytes_mergeL2 ..), hmem, hlook, ?_⟩
  · simp [storePartMem, hhost, hproto, hscope, stashOf_none hstash, hl]
  · rw [hdata, hwritten]
    exact takes_blkMerge hn v _ _

/-- At a wider scope the home's memory takes the bytes (R164). -/
theorem storePartMem_home (hhost : uncachedHost s p.pa = false) (hstash : (s.core (agentOf b.t)).stash = []) (hproto : s.protoOf p.pa = 0)
    (hscope : 2 ≤ scopeRank b.q.scope) (hring : ringOn s (s.homeOf p.pa) = false)
    (hreplay : ∀ k, s.partOf (agentOf b.t) = some k → (s.part k).mode ≠ .replay) (l : List Byte) :
    ∃ u, storePartMem s b p l = (u, some .access) ∧ OnlyBytes s u ∧ u.mem = s.mem.wrBytes p.pa l := by
  have hcover : ∀ w, w = coverL2 (coverL1 s (agentOf b.t) (p.pa / 64) (maskRange (p.pa % 64) l.length)) (clusterOf (agentOf b.t)) (p.pa / 64)
      (maskRange (p.pa % 64) l.length) → OnlyBytes s w ∧ w.mem = s.mem := by
    rintro w rfl
    exact ⟨(onlyBytes_coverL1 ..).trans (onlyBytes_coverL2 ..), by simp⟩
  obtain ⟨hbytes, hmem⟩ := hcover _ rfl
  have hport := portWrite_free (c := agentOf b.t) (by rw [hbytes.homeOf, ringOn_coverL2, ringOn_coverL1]; exact hring)
    (fun k hk => by rw [hbytes.part]; exact hreplay k (hbytes.partOf _ ▸ hk)) l (slotOf b.t)
  refine ⟨_, Eq.trans ?_ (congrArg (·, some Wait.access) hport), hbytes.trans (onlyBytes_updMem ..), congrArg (·.wrBytes p.pa l) hmem⟩
  unfold storePartMem
  simp only [hhost, hproto, stashOf_none hstash, Option.isSome_none, Bool.false_and, Bool.false_eq_true, if_false, if_true]
  split
  next h => simp [h, scopeRank] at hscope
  next h => simp [h, scopeRank] at hscope
  next => rfl

end

/-! ### ST -/

/-- A store near the core ends with its slot past it (R175). -/
theorem State.past_near (s : State) (n : Nat) : s.past n = { s with slots := (s.past n).slots } ∧ (∀ t, t ≠ s.cur → (s.past n).slot t = s.slot t) ∧
    (s.past n).me = { s.me with pc := s.me.pc + BitVec.ofNat 64 n, fresh := none, vprog := none, got := none } :=
  ⟨rfl, fun _ h => State.slot_setSlot_ne s h _, s.me_past n⟩

/-- What a local store's write changes: the bytes of that local store (R175). -/
theorem State.core_writeLs (s : State) (c : Nat) (f : Memory → Memory) :
    (∀ e, e ≠ c → (s.updCore c fun q => { q with ls := f q.ls }).core e = s.core e) ∧
      (s.updCore c fun q => { q with ls := f q.ls }).core c = { s.core c with ls := f (s.core c).ls } :=
  ⟨fun _ h => State.core_setCore_ne s h _, State.core_setCore_self ..⟩

/-- What a write of a handler's data memory changes: the bytes of that data memory (R217). -/
theorem State.proc_writeDmem (s : State) (p : Nat) (f : Memory → Memory) :
    (∀ e, e ≠ p → (s.updProc p fun q => { q with dmem := f q.dmem }).proc e = s.proc e) ∧
      ((s.updProc p fun q => { q with dmem := f q.dmem }).proc p).dmem = f (s.proc p).dmem := by
  refine ⟨fun e h => ?_, by rw [State.proc_updProc_self]⟩
  simp [State.updProc, State.proc, h]

/-- A translation leaves the homes and the ports' rings as they are (R201). -/
theorem OnlyTlbs.ringOn_homeOf {s u : State} (h : OnlyTlbs s u) (pa : Nat) : ringOn u (u.homeOf pa) = ringOn s (s.homeOf pa) := by
  have hhome : u.homeOf pa = s.homeOf pa := by rw [h.rest]; rfl
  have hproc (p : Nat) : u.proc p = s.proc p := by rw [h.rest]; rfl
  have hring (p : Nat) : ringOf u p = ringOf s p := by rw [ringOf, ringOf, hproc, h.core]
  rw [hhome, ringOn, ringOn, hring, h.parts]

/-- A store to global memory ends with its slot past it, and with the lines and bytes that its part left (R104). -/
theorem storeInstr_global {s s' u : State} {q : MemQual} {ea : Word} {sz : Size} {a : Reg} {w : Option Wait}
    (h : storeAny s q ea (leBytes (bytesOf sz) (s.rd a).toNat) = .ok w u) (ht : OnlyTlbs s s') (hb : OnlyBytes s' u) (n : Nat) :
    ∃ t, storeInstr n sz a ea q s = .next t ∧ (∀ j, j ≠ s.cur → t.slot j = s.slot j) ∧ t.me = { s.me with
      pc := s.me.pc + BitVec.ofNat 64 n, fresh := none, vprog := none, got := none, run := runAfter s.me.run w, redo := t.me.redo } ∧
      t.cores = u.cores ∧ t.clusters = u.clusters ∧ t.mem = u.mem := by
  have hcur : u.cur = s.cur := hb.cur.trans ht.cur
  have hslot (j : Nat) : u.slot j = s.slot j := (hb.slot j).trans (ht.slot j)
  have hme : u.me = s.me := by rw [State.me, State.me, hcur, hslot]
  refine ⟨_, storeInstr_of_ok h n, fun j hj => ?_, ?_, State.away_keeps ..⟩
  · rw [State.slot_away _ _ _ _ (hcur ▸ hj), hslot]
  · have h := State.me_away u n w (u.redoing none)
    rwa [hme] at h

/-- Settles O13: stores near the core by the bytes that they write, and those to global memory by where they are performed. -/
theorem localStores : Obligations.LocalStores := by
  refine ⟨?_, ?_⟩
  · intro s sz a base q x k stores
    obtain ⟨-, hk⟩ := bytesOf_bounds sz
    have hl : (leBytes k (s.rd a).toNat).length = k := leBytes_length ..
    have hstores (i : Instr) (n : Nat) (ea : Word) (hi : exec i s = storeInstr n sz a ea q s) : stores i n ea := by
      refine ⟨?_, ?_⟩
      · intro h hr o
        have hany := storeAny_scratchpad (l := leBytes k (s.rd a).toNat) (hl.symm ▸ h) hr (by omega)
        obtain ⟨hrest, hothers, hme⟩ := State.past_near (s.updCore s.myCore fun c => { c with ls := c.ls.wrBytes o (leBytes k (s.rd a).toNat) }) n
        obtain ⟨hcores, hcore⟩ := s.core_writeLs s.myCore (·.wrBytes o (leBytes k (s.rd a).toNat))
        have hls := congrArg Core.ls hcore
        refine ⟨_, hi.trans (storeInstr_of_ok hany n), hrest, hothers, hme, hcores, ?_, fun j => ?_⟩
        · exact hcore.trans (congrArg (fun m => { s.core s.myCore with ls := m }) hls.symm)
        · exact (congrArg (·.rd j) hls).trans (Memory.rd_wrBytes_leBytes ..)
      · intro hc h
        have hany := storeAny_dmem (l := leBytes k (s.rd a).toNat) hc (hl.symm ▸ h) q
        obtain ⟨hrest, -, hme⟩ := State.past_near (s.updProc s.myProc fun p => { p with dmem := p.dmem.wrBytes ea.toNat (leBytes k (s.rd a).toNat) }) n
        obtain ⟨hprocs, hdmem⟩ := s.proc_writeDmem s.myProc (·.wrBytes ea.toNat (leBytes k (s.rd a).toNat))
        exact ⟨_, hi.trans (storeInstr_of_ok hany n), hrest, hme, hprocs, fun j => (congrArg (·.rd j) hdmem).trans (Memory.rd_wrBytes_leBytes ..)⟩
    exact ⟨hstores _ _ _ rfl, hstores _ _ _ rfl⟩
  · intro s s' sz a base q x z c k blk lo hc hstash hz hn hhdm hplace hrel takes stores
    obtain ⟨hk0, hk⟩ := bytesOf_bounds sz
    have hl : (leBytes k (s.rd a).toNat).length = k := leBytes_length ..
    have hstores (i : Instr) (n : Nat) (ea : Word) (hi : exec i s = storeInstr n sz a ea q s) : stores i n ea := by
      intro hs hea hback ht ends
      have h := onlyTlbs_translate ht
      have hhost : uncachedHost s' z.pa = false := uncachedHost_hbm hplace
      have hstash' : (s'.core c).stash = [] := (h.stash c).trans hstash
      have hlines (b : Nat) : lineOf s' c b = lineOf s c b := by simp only [lineOf, h.lines]
      have hready (hown : s.protoOf z.pa ≠ 0 → ∃ l, lineOf s c blk = some l ∧ l.tag = some .writable) :
          storeReady s' (s.by q) ⟨ea, z.pa, k, z⟩ = .ok () s' := by
        refine storeReady_ok (fun ho => ?_) (h.biasAway hhdm _) fun hp => ?_
        · obtain ⟨⟨hr, hp⟩, hseen⟩ := hrel (by rwa [h.slot] at ho)
          exact ⟨(h.released c).trans hr, h.posted.trans hp, (h.seenSettled c).trans hseen⟩
        · obtain ⟨l, hline, htag⟩ := hown (h.protoOf _ ▸ hp)
          exact ⟨l, (hlines blk).trans hline, htag⟩
      have hends {u : State} {w : Option Wait} (hown : s.protoOf z.pa ≠ 0 → ∃ l, lineOf s c blk = some l ∧ l.tag = some .writable)
          (hpart : storePartMem s' (s.by q) ⟨ea, z.pa, k, z⟩ (leBytes k (s.rd a).toNat) = (u, w)) (hb : OnlyBytes s' u) :
          ∃ t, ends t (runAfter s.me.run w) ∧ t.cores = u.cores ∧ t.clusters = u.clusters ∧ t.mem = u.mem := by
        have hany : storeAny s q ea (leBytes k (s.rd a).toNat) = .ok w u := by
          rw [storeAny, if_pos hc, storeBytes, hl, accessDest_global hs hea hz ht q, Res.ok_andThen]
          exact storeDest_single hstash' (hready hown) hpart hl (Nat.lt_of_le_of_lt hk (by decide))
            (((hb.backingOf ..).trans (h.backingOf ..)).trans hback)
        obtain ⟨t, hnext, hothers, hme, hrest⟩ := storeInstr_global hany h hb n
        exact ⟨t, ⟨hi.trans hnext, hothers, hme⟩, hrest⟩
      refine ⟨?_, ?_, ?_⟩
      · intro l hline hst hstream hl2 hwhere
        obtain ⟨u, l', hpart, hone, htag, htakes⟩ := storePartMem_line (v := s.rd a) (b := s.by q) (p := ⟨ea, z.pa, k, z⟩) (n := k) hhost hstash'
          ((hlines blk).trans hline) ⟨hst, hstream, hl2⟩ (by rw [h.protoOf]; exact hwhere.imp (fun h => ⟨h.1, h.2.2⟩) (·.1)) hn
        obtain ⟨t, hend, hcores, -, hmem⟩ := hends (fun hp => ⟨l, hline, (hwhere.resolve_left fun h => hp h.1).2⟩) hpart hone.bytes
        have hline' (b : Nat) : lineOf t c b = lineOf u c b := by simp only [lineOf, State.core, hcores]
        refine ⟨t, l', hend, ?_, (hline' blk).trans hone.line, htag, htakes, fun b hb => ?_⟩
        · rw [hmem, hone.rest]
          exact h.mem
        · exact (hline' b).trans ((hone.others b hb).trans (hlines b))
      · intro hproto hscope l hlook
        obtain ⟨u, l', hpart, hbytes, hmem', hl', htakes⟩ := storePartMem_cluster (v := s.rd a) (b := s.by q) (p := ⟨ea, z.pa, k, z⟩) (n := k)
          hhost hstash' ((h.protoOf _).trans hproto) hscope (by rw [h.l2dirty]; exact hlook) hn hk0
        obtain ⟨t, hend, -, hclusters, hmem⟩ := hends (fun hp => absurd hproto hp) hpart hbytes
        refine ⟨t, l', hend, (hmem.trans hmem').trans h.mem, ?_, htakes⟩
        rw [State.cluster, hclusters]
        exact hl'
      · intro hproto hscope hring hreplay
        obtain ⟨u, hpart, hbytes, hmem'⟩ := storePartMem_home (b := s.by q) (p := ⟨ea, z.pa, k, z⟩) hhost hstash'
          ((h.protoOf _).trans hproto) hscope ((h.ringOn_homeOf _).trans hring) (fun p hp => by rw [h.part]; exact hreplay p (h.partOf _ ▸ hp)) (leBytes k (s.rd a).toNat)
        obtain ⟨t, hend, -, -, hmem⟩ := hends (fun hp => absurd hproto hp) hpart hbytes
        refine ⟨t, hend, fun j => ?_⟩
        rw [hmem, hmem', h.mem]
        exact Memory.rd_wrBytes_leBytes ..
    exact ⟨hstores _ _ _ rfl, hstores _ _ _ rfl⟩

end Sys2Proof.Machine
end

section
/-! Interrupts between instructions (R20, R22, R39, R348, R351). -/

namespace Sys2Proof.Machine

/-! ### The interrupt that comes first (R22) -/

theorem Intr.rank_le (i : Intr) : i.rank ≤ 2 := by cases i <;> simp [Intr.rank]

/-- The first of a rank comes first where none is of a lower one. -/
theorem some_eq_first_iff {l : List Intr} {j : Intr} {k : Nat} (hj : l.find? (fun x => decide (x.rank = k)) = some j)
    (hlow : ∀ x ∈ l, k ≤ x.rank) (i : Intr) :
    some j = some i ↔ (∀ x ∈ l, i.rank ≤ x.rank) ∧ l.find? (fun x => decide (x.rank = i.rank)) = some i := by
  have hk : j.rank = k := by simpa using List.find?_some hj
  subst hk
  refine ⟨?_, fun ⟨hle, hi⟩ => ?_⟩
  · rintro ⟨⟩
    exact ⟨hlow, hj⟩
  · have hrank : i.rank = j.rank := Nat.le_antisymm (hle j (List.mem_of_find?_eq_some hj)) (hlow i (List.mem_of_find?_eq_some hi))
    rw [← hj, ← hi, hrank]

/-- The first interrupt is the first of the lowest rank (R22). -/
theorem firstIntr_eq_some_iff (l : List Intr) (i : Intr) :
    firstIntr l = some i ↔ (∀ x ∈ l, i.rank ≤ x.rank) ∧ l.find? (fun x => decide (x.rank = i.rank)) = some i := by
  unfold firstIntr
  cases h0 : l.find? fun x => decide (x.rank = 0) with
  | some j => exact some_eq_first_iff h0 (fun _ _ => Nat.zero_le _) i
  | none =>
    have hn0 : ∀ x ∈ l, x.rank ≠ 0 := by simpa using h0
    cases h1 : l.find? fun x => decide (x.rank = 1) with
    | some j => exact some_eq_first_iff h1 (fun x hx => Nat.one_le_iff_ne_zero.mpr (hn0 x hx)) i
    | none =>
      have hn1 : ∀ x ∈ l, x.rank ≠ 1 := by simpa using h1
      have htwo : ∀ x ∈ l, 2 ≤ x.rank := fun x hx => by
        have h0 := hn0 x hx
        have h1 := hn1 x hx
        omega
      cases h2 : l.find? fun x => decide (x.rank = 2) with
      | some j => exact some_eq_first_iff h2 htwo i
      | none =>
        have hn2 : ∀ x ∈ l, x.rank ≠ 2 := by simpa using h2
        refine ⟨fun h => absurd h (by simp [Option.orElse]), fun ⟨_, hi⟩ => ?_⟩
        have hmem := List.mem_of_find?_eq_some hi
        exact absurd (Nat.le_antisymm i.rank_le (htwo i hmem)) (hn2 i hmem)

/-- The first interrupt, by its place: none before it comes as early, none behind it earlier (R22). -/
theorem firstIntr_iff_place (l : List Intr) (i : Intr) :
    firstIntr l = some i ↔ ∃ p q, l = p ++ i :: q ∧ (∀ x ∈ p, i.rank < x.rank) ∧ ∀ x ∈ q, i.rank ≤ x.rank := by
  rw [firstIntr_eq_some_iff, List.find?_eq_some_iff_append]
  refine ⟨fun ⟨hle, _, p, q, hl, hp⟩ => ⟨p, q, hl, fun x hx => ?_, fun x hx => hle x (by simp [hl, hx])⟩,
    fun ⟨p, q, hl, hp, hq⟩ => ⟨fun x hx => ?_, by simp, p, q, hl, fun x hx => ?_⟩⟩
  · have hne : x.rank ≠ i.rank := by simpa using hp x hx
    exact Nat.lt_of_le_of_ne (hle x (by simp [hl, hx])) hne.symm
  · rw [hl, List.mem_append, List.mem_cons] at hx
    rcases hx with hx | rfl | hx
    · exact Nat.le_of_lt (hp x hx)
    · exact Nat.le_refl _
    · exact hq x hx
  · simpa using Nat.ne_of_gt (hp x hx)

/-! ### Entries that move to the context buffer change no slot (R351) -/

theorem foldl_slots {α : Type} (f : State → α → State) (h : ∀ s a, (f s a).slots = s.slots) (l : List α) (s : State) :
    (l.foldl f s).slots = s.slots :=
  List.foldlRecOn (motive := fun u => u.slots = s.slots) l f rfl fun u hu a _ => (h u a).trans hu

theorem updRing_slots (s : State) (p : Nat) (f : Trace → Trace) : (updRing s p f).slots = s.slots := by
  unfold updRing
  split <;> rfl

theorem tracePortBy_slots (s : State) (p pa len core slot dev : Nat) (part : Option Nat) (gnt : Bool) :
    (tracePortBy s p pa len core slot dev part gnt).slots = s.slots := by
  unfold tracePortBy
  extract_lets q s1
  have h1 : s1.slots = s.slots := by
    simp only [s1]
    split_ifs
    · rfl
    · exact updRing_slots ..
    · rfl
  clear_value s1
  split
  · exact h1
  · dsimp only
    split_ifs <;> exact h1

theorem homeStore_slots (s : State) (pa : Nat) (l : List Byte) (w : Writer) : (homeStore s pa l w).slots = s.slots := by
  have hport : (portWriteBy s pa l w).slots = s.slots := tracePortBy_slots ..
  have hdirty (u : State) : (dirtyFrame u pa).slots = u.slots := by
    unfold dirtyFrame
    dsimp only
    split <;> rfl
  unfold homeStore
  dsimp only
  split <;> exact (hdirty _).trans hport

theorem ctxWrite_slots (s : State) (p c off : Nat) (l : List Byte) : (ctxWrite s p c off l).slots = s.slots := by
  unfold ctxWrite
  split
  · exact foldl_slots _ (fun _ _ => homeStore_slots ..) _ _
  · rfl

theorem updCoreOf_slots (s : State) (p c : Nat) (f : Core → Core) : (updCoreOf s p c f).slots = s.slots := by
  unfold updCoreOf
  dsimp only
  split <;> rfl

theorem spillItem_slots {s u : State} {p c : Nat} {it : SpillItem} {away : Bool} (h : spillItem s p c it away = some u) : u.slots = s.slots := by
  unfold spillItem at h
  simp only [Option.map_eq_some_iff] at h
  obtain ⟨i, -, rfl⟩ := h
  exact (updCoreOf_slots ..).trans ((ctxWrite_slots ..).trans (ctxWrite_slots ..))

theorem spillEntries_slots (s : State) (t : Nat) : (spillEntries s t).slots = s.slots := by
  unfold spillEntries
  dsimp only
  split
  · rfl
  · refine (foldl_slots _ (fun u e => ?_) _ _).trans (foldl_slots _ (fun u e => ?_) _ _)
    all_goals
      split
      · next h => exact (spillItem_slots h :)
      · rfl

/-- A slot without entries in the queues moves none (R351). -/
theorem spillEntries_none {s : State} {t : Nat} (hi : ∀ e ∈ (s.core (agentOf t)).injq, e.slot ≠ slotOf t)
    (hr : ∀ e ∈ (s.core (agentOf t)).rcvq, e.slot ≠ some (slotOf t)) : spillEntries s t = s := by
  have hinj : (s.core (agentOf t)).injq.filter (fun e => e.slot = slotOf t) = [] := by simpa using hi
  have hrcv : (s.core (agentOf t)).rcvq.filter (fun e => e.slot = some (slotOf t)) = [] := by simpa using hr
  unfold spillEntries
  dsimp only
  split
  · rfl
  · rw [hinj, hrcv]
    rfl

/-! ### The interrupt that is taken (R20, R22) -/

/-- A slot between instructions has none in progress that could not end. -/
theorem endInProgress_active {s : State} {t : Nat} (hrun : (s.slot t).run = .active) (hv : (s.slot t).vprog = none)
    (ha : (s.core (agentOf t)).awaits = []) : endInProgress s t = some (s.setSlot t { s.slot t with run := .active, got := none }) := by
  have habandon : (s.slot t).abandonVector = s.slot t := by simp [Slot.abandonVector, hv]
  have hre (x : Slot) : reexecuted (s.setSlot t x) t = s.setSlot t x := by
    have hawaits : ((s.setSlot t x).core (agentOf t)).awaits = [] := ha
    simp [reexecuted, hawaits]
  unfold endInProgress
  simp only [hrun]
  rw [abandon, State.updSlot_eq, hre, habandon]

/-- What a slot is when it has taken an interrupt (R20, R348). -/
def Slot.interrupted (x : Slot) (vector : Word) (i : Intr) : Slot :=
  Slot.trapped { i.deliver x with pend := x.pend.erase i, mode := x.mode } vector i.causeVal.1 false i.causeVal.2 x.pc

/-- What the slot records, and where it goes on (R20, R22, R348). -/
theorem Slot.interrupted_eq (x : Slot) (vector : Word) (i : Intr) : x.interrupted vector i = { x with
    efd := (i.deliver x).efd, pend := x.pend.erase i, trCause := i.causeVal.1.setWidth 9, trVal := i.causeVal.2, trPc := x.pc,
    trStatus := (if x.mode = .s then 1 else 0) ||| (if x.trStatus.getLsbD 2 then 2 else 0),
    mode := .s, pc := vector, run := .active, fresh := some i.causeVal.1, vprog := none, got := none, redo := none, paired := false, due := false } := by
  have hlease : i.causeVal.1 ≠ .leaseViolation := by
    cases i <;> simp [Intr.causeVal, Cause.leaseViolation, Cause.preempt, Cause.engineFault, Cause.mailbox]
  cases i <;> simp [interrupted, trapped_eq, Intr.deliver, hlease]

/-- tr.status of a trap: the mode and the interrupt enable before it, and interrupts off (R20). -/
theorem trapStatus_bits (m : Mode) (sie : Bool) : let w : BitVec 3 := (if m = .s then 1 else 0) ||| (if sie then 2 else 0)
    w.getLsbD 0 = (m == .s) ∧ w.getLsbD 1 = sie ∧ w.getLsbD 2 = false := by
  cases m <;> cases sie <;> decide

theorem takeIntr_entered {s : State} {t : Nat} (h : Enterable s t) (hrun : (s.slot t).run = .active) (i : Intr) :
    (takeIntr s t i).slots = (s.setSlot t ((s.slot t).interrupted (s.trapEntry (agentOf t)) i)).slots ∧
      ((∀ r, i ≠ .preempt r) ∨ (∀ e ∈ (s.core (agentOf t)).injq, e.slot ≠ slotOf t) ∧
        (∀ e ∈ (s.core (agentOf t)).rcvq, e.slot ≠ some (slotOf t)) → (takeIntr s t i).mem = s.mem) := by
  have hw : ∃ w, w = s.setSlot t ((s.slot t).interrupted (s.trapEntry (agentOf t)) i) ∧
      takeIntr s t i = if i.rank = 0 && (w.slot t).run == .active then spillEntries w t else w := by
    refine ⟨_, rfl, ?_⟩
    have hidle : ((s.slot t).run == .idle) = false := by simp [hrun]
    have henter (y : Slot) : enterTrap (s.setSlot t y) t i.causeVal.1 false i.causeVal.2 (s.slot t).pc =
        s.setSlot t (y.trapped (s.trapEntry (agentOf t)) i.causeVal.1 false i.causeVal.2 (s.slot t).pc) := by
      rw [enterTrap_entered (s := s.setSlot t y) h, State.trapTaken, State.slot_setSlot_self, State.setSlot_setSlot]
      rfl
    unfold takeIntr
    simp only [hidle, Bool.false_eq_true, if_false, henter]
    rfl
  obtain ⟨w, hw, heq⟩ := hw
  rw [heq, ← hw]
  refine ⟨?_, fun hmem => ?_⟩
  · split
    · exact spillEntries_slots w t
    · rfl
  · have hwmem : w.mem = s.mem := by rw [hw]; rfl
    split
    next hp =>
      rcases hmem with hi | ⟨hinj, hrcv⟩
      · cases i with
        | preempt r => exact absurd rfl (hi r)
        | engine | mailbox => simp [Intr.rank] at hp
      · have hcore : w.core (agentOf t) = s.core (agentOf t) := by rw [hw]; rfl
        rw [spillEntries_none (by rwa [hcore]) (by rwa [hcore]), hwmem]
    next => exact hwmem

/-- Where a slot may take an interrupt, the first that is pending is taken. -/
theorem interruptTake_takes {s s1 : State} {t : Nat} {i : Intr} (hc : onCore t = true) (hw : slotRuns s t = true)
    (hm : mayInterrupt (s.slot t) = true) (hf : firstIntr (s.slot t).pend = some i) (he : endInProgress s t = some s1)
    (hp : (s1.slot t).pend = (s.slot t).pend) : exec (.interruptTake t) s = .next (takeIntr s1 t i) := by
  change execInterruptTake t s = _
  simp [execInterruptTake, hc, hw, hm, hf, he, hp]

/-- Settles O46: the interrupt taken, the order of those pending, and where none is taken. -/
theorem interruptsTaken : Obligations.InterruptsTaken := by
  refine ⟨?_, firstIntr_iff_place, fun s t h => ?_⟩
  · intro s t i x h hruns hrun hpaired hv hawaits hfirst hmode
    have hmay : mayInterrupt x = true := by
      rcases hmode with hm | ⟨hm, hsie⟩
      · simp [mayInterrupt, hrun, hpaired, hm]
      · simp [mayInterrupt, hrun, hpaired, hm, hsie]
    have hslot : (s.setSlot t { x with run := .active, got := none }).slot t = { x with run := .active, got := none } := State.slot_setSlot_self ..
    have hexec := interruptTake_takes h.1 hruns hmay hfirst (endInProgress_active hrun hv hawaits) (by rw [hslot])
    obtain ⟨hslots, hmem⟩ := takeIntr_entered (s := s.setSlot t { x with run := .active, got := none }) h (by rw [hslot]) i
    rw [hslot, State.setSlot_setSlot] at hslots
    have hself := (State.slot_congr hslots t).trans (State.slot_setSlot_self ..)
    refine ⟨_, hexec, hmem, fun v hv => (State.slot_congr hslots v).trans (State.slot_setSlot_ne s hv _), ?_⟩
    rw [hself, Slot.interrupted_eq]
    obtain ⟨hprev, hie, hoff⟩ := trapStatus_bits x.mode (x.trStatus.getLsbD 2)
    refine ⟨rfl, rfl, rfl, rfl, rfl, rfl, rfl, hprev, hie, hoff, ?_, ?_, ?_⟩
    · rintro r rfl
      exact ⟨rfl, rfl⟩
    · rintro m rfl
      exact ⟨rfl, rfl⟩
    · rintro w0 w1 w2 w3 rfl
      exact ⟨rfl, rfl, rfl⟩
  · change execInterruptTake t s = .next s
    have hnone : mayInterrupt (s.slot t) = false ∨ firstIntr (s.slot t).pend = none := by
      rcases h with ⟨hm, hsie, hrun⟩ | ⟨hpaired, hrun⟩ | hp
      · left
        unfold mayInterrupt
        split <;> simp_all
      · left
        unfold mayInterrupt
        split <;> simp_all
      · right
        rw [hp]
        rfl
    unfold execInterruptTake
    rcases hnone with hm | hf
    · simp [hm]
    · split
      · rfl
      · rw [hf]

end Sys2Proof.Machine
end

section
/-! TRET, HALT and IWAIT, the privileged instructions in U mode, and the translation instructions (R19, R23, R97 to R100, R341 to R349). -/

namespace Sys2Proof.Machine

/-! ### System instructions in S mode (R23, R97 to R99) -/

theorem systemOnly_system {s : State} (fn : Nat) (k : Out) (h : s.me.mode = .s) : systemOnly fn s k = k := by
  simp [systemOnly, privileged, h]

theorem systemOnly_user {s : State} (fn : Nat) (k : Out) (h : s.me.mode = .u) : systemOnly fn s k = trap .priv (BitVec.ofNat 64 (sysBase fn)) s := by
  simp [systemOnly, privileged, h]

/-- tr.status after a return: the enable comes back from pie, and pm and pie stay (R23). -/
theorem trapReturn_status (w : BitVec 3) :
    BitVec.ofNat 3 (w.toNat % 4 + bit (w.getLsbD 1) * 4) = (w &&& 3) ||| (if w.getLsbD 1 then 4 else 0) := by
  revert w
  decide

/-- A slot without entries in its core's context buffer gets none back (R351). -/
theorem unspill_none {s : State} {t : Nat} (h : hasSpills (s.core (agentOf t)) (slotOf t) = false) : unspill s t = s := by
  unfold unspill
  split
  next p hp =>
    have hin : inPlaceAt s p (clusterOf (agentOf t)) = true := by simpa [inPlaceAt, State.partOf] using hp
    have hcore : coreOfPart s p (agentOf t) = s.core (agentOf t) := by simp [coreOfPart, hin]
    have hnone : ((coreOfPart s p (agentOf t)).spills.filter fun e => e.item.slot = some (slotOf t)) = [] := by
      simpa [hcore, hasSpills] using h
    unfold returnSpills
    simp [hnone]
  next => rfl

/-- TRET to an aligned address (R23). -/
theorem exec_tret_returns {s : State} (hm : s.me.mode = .s) (ha : s.me.trPc.toNat % 4 = 0) (hs : hasSpills (s.core s.myCore) (slotOf s.cur) = false) :
    exec .tret s = .next (s.updMe Slot.trapReturn) := by
  have hnone : unspill (s.updMe Slot.trapReturn) s.cur = s.updMe Slot.trapReturn := unspill_none hs
  have hcur : (s.updMe Slot.trapReturn).cur = s.cur := rfl
  change systemOnly 2 s _ = _
  rw [systemOnly_system _ _ hm]
  simp only [ha, bne_self_eq_false, Bool.false_eq_true, if_false, hcur, hnone, ite_self]

/-- TRET to an address that is not aligned (R12). -/
theorem exec_tret_misaligned {s : State} (hm : s.me.mode = .s) (ha : s.me.trPc.toNat % 4 ≠ 0) : exec .tret s = trap .misalign s.me.trPc s := by
  change systemOnly 2 s _ = _
  rw [systemOnly_system _ _ hm]
  simp [ha]

theorem exec_halt {s : State} (hm : s.me.mode = .s) :
    exec .halt s = if !tlbisOver s s.cur then wait .tlbsync s else .next ((s.past 4).updMe fun x => { x with run := .halted }) :=
  systemOnly_system _ _ hm

theorem exec_iwait {s : State} (hm : s.me.mode = .s) :
    exec .iwait s = if s.me.pend.isEmpty then wait .irq s else done 4 (s.updMe fun x => { x with due := x.trStatus.getLsbD 2 }) :=
  systemOnly_system _ _ hm

theorem tlbisOver_none {s : State} {t : Nat} (h1 : (s.slot t).tlbis = []) (h2 : (s.slot t).tsync = []) : tlbisOver s t = true := by
  simp [tlbisOver, h1, h2]

/-! ### In U mode (R19) -/

/-- The system and translation instructions of majors 0x3D and 0x3E (R97, R100). -/
def privilegedInstrs (d a b : Reg) : List Instr :=
  [.tret, .halt, .iwait, .tlbiVa a b, .tlbiCtx b, .tlbiAll, .tlbsync, .partDone a, .ptProbe d a, .faultRd d a]

theorem exec_privileged_user {s : State} (hm : s.me.mode = .u) {i : Instr} {d a b : Reg} (hi : i ∈ privilegedInstrs d a b) :
    exec i s = trap .priv (BitVec.ofNat 64 (encodeRaw i).base) s := by
  have hbase (fn : Nat) (k : Out) (d a b : Reg) : privileged (tlbBase fn d a b) s k =
      trap .priv (BitVec.ofNat 64 ({ len := 0, major := 0x3E, d := d, a := a, b := b, fn := Fin.ofNat 256 fn } : Raw).base) s := by
    rw [privileged_user _ _ hm]
    simp [tlbBase, Raw.base]
  have hsys (fn : Nat) (k : Out) := systemOnly_user fn k hm
  simp only [privilegedInstrs, List.mem_cons, List.not_mem_nil, or_false] at hi
  rcases hi with rfl | rfl | rfl | rfl | rfl | rfl | rfl | rfl | rfl | rfl
  · exact hsys 2 _
  · exact hsys 3 _
  · exact hsys 4 _
  · exact hbase 0 _ 0 a b
  · exact hbase 1 _ 0 0 b
  · exact hbase 2 _ 0 0 0
  · exact hbase 3 _ 0 0 0
  · exact hbase 8 _ 0 a 0
  · exact hbase 4 _ d a 0
  · exact hbase 5 _ d a 0

/-! ### Translation instructions in S mode (R100, R341, R343, R349) -/

theorem issueTlbi_eq (o : Option Tlbi) (s : State) :
    issueTlbi o s = .next ((s.updMe fun x => { x with tlbis := x.tlbis ++ o.toList }).past 4) := by
  cases o with
  | none =>
    have hsame : (s.updMe fun x => { x with tlbis := x.tlbis ++ [] }) = s.setSlot s.cur s.me := by simp [State.me]
    have hme : (s.setSlot s.cur s.me).me = s.me := s.me_setSlot s.me
    change Host.Outcome.next (s.past 4) = .next ((s.updMe fun x => { x with tlbis := x.tlbis ++ [] }).past 4)
    rw [hsame, State.past_eq, State.past_eq, hme, State.setSlot_cur, State.setSlot_setSlot]
  | some x => rfl

theorem ctxOf_map (f : Nat → Tlbi) (b : Word) : ((ctxOf b).map f).toList = if b.toNat < 16 then [f b.toNat] else [] := by
  unfold ctxOf
  split <;> rfl

/-- A walker none of whose entries differs from memory sees memory (R340). -/
theorem walkView_consistent {s : State} {k : Nat} (h : ∀ e ∈ (s.cluster k).wcache, s.mem.word e.pa = e.word) (p : Nat) :
    walkView s k p = (s.mem, s) := by
  have hnone : ((s.cluster k).wcache.filter fun e => e.part = p && s.mem.word e.pa != e.word) = [] := by
    simp only [List.filter_eq_nil_iff, Bool.and_eq_true, bne_iff_ne, ne_eq, not_and, not_not]
    exact fun e he _ => h e he
  rw [walkView, hnone, List.foldl_nil]

theorem exec_ptProbe_walk {s s' : State} {p : Nat} {m : Memory} (hm : s.me.mode = .s) (hp : s.partOf s.myCore = some p)
    (hw : walkView s s.myCluster p = (m, s')) (d a : Reg) :
    exec (.ptProbe d a) s = doneAway 4 (some .access) (s.redoing (some d)) (s'.wr d (ptProbe s' m s'.myCore (s'.rd a))) := by
  change privileged _ s _ = _
  rw [privileged_system _ _ (by simp [hm])]
  simp only [hp, hw]

theorem exec_ptProbe_memory {s : State} (hm : s.me.mode = .s) (h : ∀ e ∈ (s.cluster s.myCluster).wcache, s.mem.word e.pa = e.word) (d a : Reg) :
    exec (.ptProbe d a) s = doneAway 4 (some .access) (s.redoing (some d)) (s.wr d (ptProbe s s.mem s.myCore (s.rd a))) := by
  cases hp : s.partOf s.myCore with
  | some p => exact exec_ptProbe_walk hm hp (walkView_consistent h p) d a
  | none =>
    change privileged _ s _ = _
    rw [privileged_system _ _ (by simp [hm])]
    simp only [hp]

/-! ### A TLBI completes (R100, R341) -/

/-- What the removal of entries leaves of a core's TLBs (R341). -/
def Core.without (q : Core) (r : TlbEntry → Bool) : Core := { q with itlb := q.itlb.filter fun e => !r e, dtlb := q.dtlb.filter fun e => !r e }

/-- A core's TLBs hold after a removal what they held and was not named. -/
def Core.Without (q q' : Core) (r : TlbEntry → Bool) : Prop :=
  ∀ e, (e ∈ q'.itlb ↔ e ∈ q.itlb ∧ ¬ r e = true) ∧ (e ∈ q'.dtlb ↔ e ∈ q.dtlb ∧ ¬ r e = true)

/-- The removal of entries at one core (R341). -/
def removeAt (r : TlbEntry → Bool) (s : State) (c : Nat) : State :=
  if (s.core c).itlb.any r || (s.core c).dtlb.any r then s.setCore c ((s.core c).without r) else s

theorem removeAt_keeps (r : TlbEntry → Bool) (s : State) (c : Nat) : (removeAt r s c).slots = s.slots ∧ (removeAt r s c).mem = s.mem ∧
    (removeAt r s c).clusters = s.clusters := by
  unfold removeAt
  split <;> exact ⟨rfl, rfl, rfl⟩

theorem removeAt_core_self (r : TlbEntry → Bool) (s : State) (c : Nat) : (s.core c).Without ((removeAt r s c).core c) r := by
  intro e
  unfold removeAt
  split
  next => simp [Core.without]
  next h =>
    simp only [Bool.or_eq_true, List.any_eq_true, not_or, not_exists, not_and] at h
    exact ⟨⟨fun he => ⟨he, h.1 e he⟩, And.left⟩, ⟨fun he => ⟨he, h.2 e he⟩, And.left⟩⟩

theorem removeAt_core_ne (r : TlbEntry → Bool) (s : State) {c k : Nat} (h : k ≠ c) : (removeAt r s c).core k = s.core k := by
  unfold removeAt
  split
  · exact State.core_setCore_ne _ h _
  · rfl

theorem Core.Without.trans {q q' q'' : Core} {r : TlbEntry → Bool} (h1 : q.Without q' r) (h2 : q'.Without q'' r) : q.Without q'' r := fun e =>
  ⟨by rw [(h2 e).1, (h1 e).1, and_assoc, and_self], by rw [(h2 e).2, (h1 e).2, and_assoc, and_self]⟩

/-- The removal at every core of a list, and at no other (R341). -/
theorem removeAt_all (r : TlbEntry → Bool) (l : List Nat) (s : State) :
    (∀ c ∈ l, (s.core c).Without ((l.foldl (removeAt r) s).core c) r) ∧ ∀ c, c ∉ l → (l.foldl (removeAt r) s).core c = s.core c := by
  induction l generalizing s with
  | nil => exact ⟨fun c hc => absurd hc (by simp), fun c _ => rfl⟩
  | cons a l ih =>
    obtain ⟨hin, hout⟩ := ih (removeAt r s a)
    rw [List.foldl_cons]
    refine ⟨fun c hc => ?_, fun c hc => ?_⟩
    · by_cases hca : c = a
      · subst hca
        by_cases hl : c ∈ l
        · exact (removeAt_core_self r s c).trans (hin c hl)
        · rw [hout c hl]
          exact removeAt_core_self r s c
      · rw [← removeAt_core_ne r s hca]
        exact hin c ((List.mem_cons.mp hc).resolve_left hca)
    · rw [List.mem_cons, not_or] at hc
      rw [hout c hc.2, removeAt_core_ne r s hc.1]

theorem removeAt_all_keeps (r : TlbEntry → Bool) (l : List Nat) (s : State) :
    let u := l.foldl (removeAt r) s; u.slots = s.slots ∧ u.mem = s.mem ∧ u.clusters = s.clusters :=
  List.foldlRecOn (motive := fun u : State => u.slots = s.slots ∧ u.mem = s.mem ∧ u.clusters = s.clusters) l _ ⟨rfl, rfl, rfl⟩ fun u hu c _ => by
    obtain ⟨hslots, hmem, hclusters⟩ := removeAt_keeps r u c
    exact ⟨hslots.trans hu.1, hmem.trans hu.2.1, hclusters.trans hu.2.2⟩

/-- A TLBI takes the entries that it names from its cluster's TLB, from the walkers' cache and from the TLBs of the cluster's cores (R341). -/
theorem applyTlbi_effect (s : State) (cl : Nat) (o : Tlbi) : let u := applyTlbi s cl o
    u.slots = s.slots ∧ u.mem = s.mem ∧
      u.cluster cl = { s.cluster cl with
        tlb := (s.cluster cl).tlb.filter fun e => !o.removes e, wcache := (s.cluster cl).wcache.filter fun e => !o.removesWalk e } ∧
      ∀ c ∈ coresOf cl, (s.core c).Without (u.core c) o.removes := by
  intro u
  obtain ⟨s1, hs1, hu⟩ : ∃ s1, s1 = (s.updCluster cl fun k => { k with
        tlb := k.tlb.filter fun e => !o.removes e, wcache := k.wcache.filter fun e => !o.removesWalk e }) ∧
      u = (coresOf cl).foldl (removeAt o.removes) s1 :=
    ⟨_, rfl, rfl⟩
  obtain ⟨hslots, hmem, hclusters⟩ := removeAt_all_keeps o.removes (coresOf cl) s1
  obtain ⟨hwithout, -⟩ := removeAt_all o.removes (coresOf cl) s1
  rw [← hu] at hslots hmem hclusters hwithout
  subst hs1
  refine ⟨hslots, hmem, ?_, hwithout⟩
  rw [State.cluster, hclusters]
  exact State.cluster_updCluster_self ..

theorem Tlbi.removes_iff (o : Tlbi) (e : TlbEntry) : o.removes e = true ↔
    match o with | .va a p => e.part = p ∧ e.va ≤ a ∧ a < e.va + pageBytes e.size | .ctx p => e.part = p ∧ e.g = false | .all => True := by
  cases o <;> simp [Tlbi.removes, and_assoc]

theorem Tlbi.removesWalk_iff (o : Tlbi) (e : WalkEntry) : o.removesWalk e = true ↔
    match o with
    | .va a p => e.part = p ∧ (e.stage2 = true ∨ a / 2 ^ (12 + 9 * e.lvl) = e.va / 2 ^ (12 + 9 * e.lvl)) | .ctx p => e.part = p | .all => True := by
  cases o <;> simp [Tlbi.removesWalk]

/-- A slot that is re-admitted, where it is, keeps all but its wait (R104). -/
theorem State.wake_if (s : State) (t : Nat) (b : Bool) : let u := if b then s.wake t else s
    u.cores = s.cores ∧ u.clusters = s.clusters ∧ u.mem = s.mem ∧ (u.slot t).tlbis = (s.slot t).tlbis ∧
      (b = true → ∀ w, (s.slot t).run = .waiting w → (u.slot t).run = .active) := by
  cases b with
  | false => exact ⟨rfl, rfl, rfl, rfl, fun h => absurd h (by decide)⟩
  | true =>
    refine ⟨rfl, rfl, rfl, ?_, fun _ w hw => ?_⟩
    · simp only [if_true, State.wake, State.updSlot_eq, State.slot_setSlot_self]
      split <;> rfl
    · simp only [if_true, State.wake, State.updSlot_eq, State.slot_setSlot_self, hw]

/-- A slot one of whose TLBIs completes goes on where it waited for nothing else (R100). -/
theorem tlbiCompletion_slot {s : State} {cl t : Nat} {ts : List Nat} {o : Tlbi} {l : List Tlbi}
    (hts : (coresOf cl).flatMap (fun c => s.slotsWhere c fun x => !x.tlbis.isEmpty) = t :: ts) (ho : (s.slot t).tlbis = o :: l) :
    ∃ u a, exec (.tlbiCompletion cl) s = .next u ∧ a = applyTlbi s cl o ∧ u.cores = a.cores ∧ u.clusters = a.clusters ∧ u.mem = a.mem ∧
      (u.slot t).tlbis = l ∧
      ((s.slot t).run = .waiting .tlbsync → l = [] → (s.slot t).tsync = [] → usersOf s cl o.removes = [] → (u.slot t).run = .active) := by
  obtain ⟨y, hy⟩ : ∃ y, y = { s.slot t with tlbis := l, tsync := (s.slot t).tsync.filter (stillUsing s) ++ usersOf s cl o.removes } := ⟨_, rfl⟩
  obtain ⟨a, ha⟩ : ∃ a, a = applyTlbi s cl o := ⟨_, rfl⟩
  have hexec : ∃ s1, s1 = a.setSlot t y ∧
      exec (.tlbiCompletion cl) s = .next (if tlbisOver s1 t && (s1.slot t).run == .waiting .tlbsync then s1.wake t else s1) := by
    refine ⟨_, rfl, ?_⟩
    have hslot : a.slot t = s.slot t := State.slot_congr (ha ▸ (applyTlbi_effect s cl o).1) t
    change execTlbiCompletion cl s = _
    unfold execTlbiCompletion
    simp only [hts, ho, ← ha, State.updSlot_eq, hslot, hy]
  obtain ⟨s1, hs1, hexec⟩ := hexec
  have hslot : s1.slot t = y := by rw [hs1, State.slot_setSlot_self]
  have hsame : s1.cores = a.cores ∧ s1.clusters = a.clusters ∧ s1.mem = a.mem := by
    rw [hs1]
    exact ⟨rfl, rfl, rfl⟩
  have hwake := s1.wake_if t (tlbisOver s1 t && (s1.slot t).run == .waiting .tlbsync)
  generalize (if tlbisOver s1 t && (s1.slot t).run == .waiting .tlbsync then s1.wake t else s1) = u at hexec hwake
  obtain ⟨hcores, hclusters, hmem, htlbis, hrun⟩ := hwake
  refine ⟨u, a, hexec, ha, hcores.trans hsame.1, hclusters.trans hsame.2.1, hmem.trans hsame.2.2, htlbis.trans ?_,
    fun hwait hl hsync husers => hrun ?_ .tlbsync ?_⟩
  · rw [hslot, hy]
  · have hover : tlbisOver s1 t = true := tlbisOver_none (by rw [hslot, hy, hl]) (by rw [hslot, hy, hsync, husers]; rfl)
    rw [hover, hslot, hy]
    simp [hwait]
  · rw [hslot, hy]
    exact hwait

/-- Settles O11: the system instructions in both modes, and the translation instructions with the completion of a TLBI. -/
theorem systemAndTranslation : Obligations.SystemAndTranslation := by
  refine ⟨fun s hm => ⟨fun ha hs => ?_, fun h ha => ?_, fun h => ?_, fun h => ?_, tlbisOver_none, fun h => ?_, fun h => ?_⟩,
    fun s i d a b h hm hi => Traps.of_trap h (exec_privileged_user hm (d := d) (a := a) (b := b) hi), fun s d a b hm => ?_, ?_⟩
  · refine ⟨_, exec_tret_returns hm ha hs, fun u hu => State.slot_setSlot_ne s hu _, rfl, ?_⟩
    rw [State.updMe_eq]
    refine (State.me_setSlot ..).trans ?_
    rw [← trapReturn_status]
    rfl
  · exact Traps.of_trap h (exec_tret_misaligned hm ha)
  · rw [exec_halt hm, h]
    rfl
  · rw [exec_halt hm, h]
    rfl
  · rw [exec_iwait hm, if_neg (by simpa using h)]
    rfl
  · rw [exec_iwait hm, if_pos (by simpa using h)]
    rfl
  · have hpriv (base : Nat) (k : Out) : privileged base s k = k := privileged_system base k (by simp [hm])
    refine ⟨?_, ?_, ?_, fun h => ?_, fun h => ?_, fun h => exec_ptProbe_memory hm h d a, fun p m s' hp hw => exec_ptProbe_walk hm hp hw d a,
      fun h => ?_, fun hc h => Traps.of_trap hc ?_⟩
    · refine (hpriv _ _).trans ((issueTlbi_eq ..).trans ?_)
      rw [ctxOf_map, show fld (s.rd a).toNat 0 57 = (s.rd a).toNat % 2 ^ 57 by simp [fld]]
    · refine (hpriv _ _).trans ((issueTlbi_eq ..).trans ?_)
      rw [ctxOf_map]
    · exact (hpriv _ _).trans (issueTlbi_eq ..)
    · exact (hpriv _ _).trans (if_pos h)
    · exact (hpriv _ _).trans (if_neg (by simp [h]))
    · exact (hpriv _ _).trans (if_neg (Nat.not_le.mpr h))
    · exact (hpriv _ _).trans (if_pos h)
  · intro s cl t ts o l hts ho
    obtain ⟨u, a, hexec, ha, hcores, hclusters, hmem, htlbis, hrun⟩ := tlbiCompletion_slot hts ho
    obtain ⟨-, hmem', hcluster, hwithout⟩ := applyTlbi_effect s cl o
    rw [← ha] at hmem' hcluster hwithout
    have hcluster' : u.cluster cl = a.cluster cl := by rw [State.cluster, State.cluster, hclusters]
    rw [hcluster] at hcluster'
    refine ⟨u, hexec, htlbis, hmem.trans hmem', ⟨fun e => ?_, fun e => ?_, fun c hc e => ?_⟩, hrun⟩
    · rw [hcluster']
      exact (by simp : e ∈ _ ↔ e ∈ _ ∧ ¬ o.removes e = true).trans (and_congr_right fun _ => not_congr (o.removes_iff e))
    · rw [hcluster']
      exact (by simp : e ∈ _ ↔ e ∈ _ ∧ ¬ o.removesWalk e = true).trans (and_congr_right fun _ => not_congr (o.removesWalk_iff e))
    · rw [State.core_congr hcores]
      obtain ⟨hi, hd⟩ := hwithout c hc e
      exact ⟨hi.trans (and_congr_right fun _ => not_congr (o.removes_iff e)), hd.trans (and_congr_right fun _ => not_congr (o.removes_iff e))⟩

end Sys2Proof.Machine
end

section
/-! Decoding after encoding (R28 to R36): the fields of an instruction are read back from its bytes, and the instruction from its fields. -/

namespace Sys2Proof

open Machine

/-! ### Fields and bytes (R28, R30) -/

theorem Raw.base_lt (r : Raw) : r.base < 256 ^ 4 := by
  obtain ⟨len, major, d, a, b, fn, ext, lit⟩ := r
  simp only [Raw.base]
  omega

theorem Raw.ofBase_base (r : Raw) : Raw.ofBase r.base = { r with ext := 0, lit := 0 } := by
  obtain ⟨len, major, d, a, b, fn, ext, lit⟩ := r
  simp only [Raw.ofBase, Raw.base, Raw.mk.injEq, Fin.ext_iff, Fin.val_ofNat, and_true]
  omega

/-- The length in bytes is that of the words the length code names. -/
theorem lenBytes_words (l : Fin 4) : lenBytes l = 4 + (if Raw.hasExt l then 8 else 0) + if Raw.hasLit l then 8 else 0 := by
  revert l
  decide

theorem Raw.bytes_length (r : Raw) : r.bytes.length = lenBytes r.len := by
  rw [lenBytes_words, Raw.bytes]
  split <;> split <;> simp

@[simp] theorem ofNat_leNat_leBytes (w : Word) : BitVec.ofNat 64 (leNat (leBytes 8 w.toNat)) = w := by
  rw [leNat_leBytes, Nat.mod_eq_of_lt (by have := w.isLt; omega), bv_ofNat_toNat]

/-- A group of fields holds no word that its length does not name, so its bytes hold all of it. -/
def Raw.Exact (r : Raw) : Prop := (Raw.hasExt r.len = false → r.ext = 0) ∧ (Raw.hasLit r.len = false → r.lit = 0)

/-- The fields are read back from their bytes, whatever bytes follow. -/
theorem parseRaw_bytes {r : Raw} (h : r.Exact) (rest : List Byte) : parseRaw (r.bytes ++ rest) = .ok (r, lenBytes r.len) := by
  have hlen : (r.bytes ++ rest).length = lenBytes r.len + rest.length := by rw [List.length_append, r.bytes_length]
  have hfour : 4 ≤ lenBytes r.len := by rw [lenBytes_words]; omega
  have hbytes : r.bytes ++ rest = leBytes 4 r.base ++ ((if Raw.hasExt r.len then leBytes 8 r.ext.toNat else []) ++
      ((if Raw.hasLit r.len then leBytes 8 r.lit.toNat else []) ++ rest)) := by simp [Raw.bytes]
  have hbase : Raw.ofBase (leNat ((r.bytes ++ rest).take 4)) = { r with ext := 0, lit := 0 } := by
    rw [hbytes, List.take_left' (leBytes_length ..), leNat_leBytes, Nat.mod_eq_of_lt r.base_lt, Raw.ofBase_base]
  unfold parseRaw
  rw [if_neg (by omega), hbase]
  dsimp only
  rw [if_neg (by omega), hbytes, List.drop_left' (leBytes_length ..)]
  obtain ⟨hext, hlit⟩ := h
  obtain ⟨len, major, d, a, b, fn, ext, lit⟩ := r
  cases he : Raw.hasExt len <;> cases hl : Raw.hasLit len
  · obtain rfl : ext = 0 := hext he
    obtain rfl : lit = 0 := hlit hl
    simp
  · obtain rfl : ext = 0 := hext he
    simp
  · obtain rfl : lit = 0 := hlit hl
    simp
  · simp

/-! ### The three forms of an instruction's fields: the base word alone, with a literal, with an extension (R28) -/

theorem Raw.exact_base (major : Fin 128) (d a b : Fin 32) (fn : Fin 256) :
    Raw.Exact { len := 0, major := major, d := d, a := a, b := b, fn := fn } := ⟨fun _ => rfl, fun _ => rfl⟩

theorem Raw.exact_lit (major : Fin 128) (d a b : Fin 32) (fn : Fin 256) (x : Word) :
    Raw.Exact { len := 1, major := major, d := d, a := a, b := b, fn := fn, lit := x } := ⟨fun _ => rfl, nofun⟩

theorem Raw.exact_ext (major : Fin 128) (d a b : Fin 32) (fn : Fin 256) (x : Word) :
    Raw.Exact { len := 2, major := major, d := d, a := a, b := b, fn := fn, ext := x } := ⟨nofun, fun _ => rfl⟩

theorem encodeRaw_exact (i : Instr) : (encodeRaw i).Exact := by
  unfold encodeRaw
  cases i <;> simp only [Raw.exact_base, Raw.exact_lit, Raw.exact_ext]

/-! ### Every instruction -/

namespace Laws.Encoding

/-- The laws of the single instructions together, in the order of the model: of the instructions, and of the steps of the part, which have no words. -/
theorem decodeFields_encodeRaw : ∀ i : Instr, Statement i
  | .add .. => add _ _ _ | .addLit .. => addLit _ _ _ | .sub .. => sub _ _ _ | .subLit .. => subLit _ _ _ | .and .. => and _ _ _
  | .andLit .. => andLit _ _ _ | .or .. => or _ _ _ | .orLit .. => orLit _ _ _ | .xor .. => xor _ _ _ | .xorLit .. => xorLit _ _ _
  | .andn .. => andn _ _ _ | .andnLit .. => andnLit _ _ _ | .sll .. => sll _ _ _ | .sllLit .. => sllLit _ _ _ | .srl .. => srl _ _ _
  | .srlLit .. => srlLit _ _ _ | .sra .. => sra _ _ _ | .sraLit .. => sraLit _ _ _ | .ror .. => ror _ _ _ | .rorLit .. => rorLit _ _ _
  | .slt .. => slt _ _ _ | .sltLit .. => sltLit _ _ _ | .sltu .. => sltu _ _ _ | .sltuLit .. => sltuLit _ _ _ | .seq .. => seq _ _ _
  | .seqLit .. => seqLit _ _ _ | .min .. => min _ _ _ | .minLit .. => minLit _ _ _ | .max .. => max _ _ _ | .maxLit .. => maxLit _ _ _
  | .minu .. => minu _ _ _ | .minuLit .. => minuLit _ _ _ | .maxu .. => maxu _ _ _ | .maxuLit .. => maxuLit _ _ _
  | .mul .. => mul _ _ _ | .mulLit .. => mulLit _ _ _ | .mulh .. => mulh _ _ _ | .mulhLit .. => mulhLit _ _ _ | .mulhu .. => mulhu _ _ _
  | .mulhuLit .. => mulhuLit _ _ _ | .div .. => div _ _ _ | .divLit .. => divLit _ _ _ | .divu .. => divu _ _ _
  | .divuLit .. => divuLit _ _ _ | .rem .. => rem _ _ _ | .remLit .. => remLit _ _ _ | .remu .. => remu _ _ _
  | .remuLit .. => remuLit _ _ _
  | .addi .. => addi _ _ _
  | .andi .. => andi _ _ _
  | .slli .. => slli _ _ _ | .srli .. => srli _ _ _ | .srai .. => srai _ _ _ | .rori .. => rori _ _ _
  | .clz .. => clz _ _ | .ctz .. => ctz _ _ | .popc .. => popc _ _ | .brev .. => brev _ _ | .bswap .. => bswap _ _
  | .bset .. => bset _ _ _ | .bsetLit .. => bsetLit _ _ _ | .bclr .. => bclr _ _ _ | .bclrLit .. => bclrLit _ _ _ | .binv .. => binv _ _ _
  | .binvLit .. => binvLit _ _ _ | .bext .. => bext _ _ _ | .bextLit .. => bextLit _ _ _ | .lowb .. => lowb _ _ | .clrlow .. => clrlow _ _
  | .maskn .. => maskn _ _
  | .extu .. => extu _ _ _ _ | .exts .. => exts _ _ _ _
  | .fins .. => fins _ _ _ _
  | .hdrGet .. => hdrGet _ _ _ _ | .hdrGets .. => hdrGets _ _ _ _ | .hdrSet .. => hdrSet _ _ _ _ | .hdrMatch .. => hdrMatch _ _ _ _ _
  | .hdrClr .. => hdrClr _
  | .li .. => li _ _ | .liLit .. => liLit _ _
  | .la .. => la _ _ | .laLit .. => laLit _ _
  | .selnz .. => selnz _ _ _ _ | .selz .. => selz _ _ _ _ | .madd .. => madd _ _ _ _ | .msub .. => msub _ _ _ _
  | .fadd .. => fadd _ _ _ _ | .faddLit .. => faddLit _ _ _ _ | .fsub .. => fsub _ _ _ _ | .fsubLit .. => fsubLit _ _ _ _
  | .fmul .. => fmul _ _ _ _ | .fmulLit .. => fmulLit _ _ _ _ | .fdiv .. => fdiv _ _ _ _ | .fdivLit .. => fdivLit _ _ _ _
  | .fmin .. => fmin _ _ _ _ | .fminLit .. => fminLit _ _ _ _ | .fmax .. => fmax _ _ _ _ | .fmaxLit .. => fmaxLit _ _ _ _
  | .fsqrt .. => fsqrt _ _ _ | .fneg .. => fneg _ _ _ | .fabs .. => fabs _ _ _
  | .fma .. => fma _ _ _ _ _ | .fnma .. => fnma _ _ _ _ _
  | .feq .. => feq _ _ _ _ | .flt .. => flt _ _ _ _ | .fle .. => fle _ _ _ _ | .fclass .. => fclass _ _ _
  | .fcvt .. => fcvt _ _ _ _
  | .bz .. => bz _ _ | .bzLit .. => bzLit _ _
  | .bnz .. => bnz _ _ | .bnzLit .. => bnzLit _ _
  | .jal .. => jal _ _ | .jalLit .. => jalLit _ _
  | .beq .. => beq _ _ _ | .bne .. => bne _ _ _ | .blt .. => blt _ _ _ | .bge .. => bge _ _ _ | .bltu .. => bltu _ _ _
  | .bgeu .. => bgeu _ _ _ | .jalr .. => jalr _ _ | .jalrDisp .. => jalrDisp _ _ _
  | .bany .. => bany _ _ _ | .bnone .. => bnone _ _ _ | .ball .. => ball _ _ _ | .bnall .. => bnall _ _ _
  | .crrw .. => crrw _ _ _ | .crrs .. => crrs _ _ _ | .crrc .. => crrc _ _ _ | .crrwi .. => crrwi _ _ _ | .crrsi .. => crrsi _ _ _
  | .crrci .. => crrci _ _ _
  | .syscall .. => syscall _ | .break .. => Laws.Encoding.break _ | .tret => tret | .halt => halt | .iwait => iwait
  | .tlbiVa .. => tlbiVa _ _ | .tlbiCtx .. => tlbiCtx _ | .tlbiAll => tlbiAll | .tlbsync => tlbsync | .ptProbe .. => ptProbe _ _
  | .faultRd .. => faultRd _ _ | .partDone .. => partDone _
  | .ld .. => ld _ _ _ _ | .ldExt .. => ldExt _ _ _ _ _ | .lds .. => lds _ _ _ _ | .ldsExt .. => ldsExt _ _ _ _ _
  | .st .. => st _ _ _ _ | .stExt .. => stExt _ _ _ _ _
  | .atomSwap .. => atomSwap _ _ _ _ | .atomSwapExt .. => atomSwapExt _ _ _ _ _ | .atomAdd .. => atomAdd _ _ _ _
  | .atomAddExt .. => atomAddExt _ _ _ _ _ | .atomAnd .. => atomAnd _ _ _ _ | .atomAndExt .. => atomAndExt _ _ _ _ _
  | .atomOr .. => atomOr _ _ _ _ | .atomOrExt .. => atomOrExt _ _ _ _ _ | .atomXor .. => atomXor _ _ _ _
  | .atomXorExt .. => atomXorExt _ _ _ _ _ | .atomMin .. => atomMin _ _ _ _ | .atomMinExt .. => atomMinExt _ _ _ _ _
  | .atomMax .. => atomMax _ _ _ _ | .atomMaxExt .. => atomMaxExt _ _ _ _ _ | .atomFadd .. => atomFadd _ _ _
  | .atomFaddExt .. => atomFaddExt _ _ _ _
  | .cas .. => cas _ _ _ _ | .casExt .. => casExt _ _ _ _ _
  | .stnibLo .. => stnibLo _ _ _ | .stnibLoExt .. => stnibLoExt _ _ _ _ | .stnibHi .. => stnibHi _ _ _
  | .stnibHiExt .. => stnibHiExt _ _ _ _
  | .pref .. => pref _ _ _ | .prefExt .. => prefExt _ _ _ _ | .cclean .. => cclean _ _ _ | .ccleanExt .. => ccleanExt _ _ _ _
  | .cflush .. => cflush _ _ _ | .cflushExt .. => cflushExt _ _ _ _ | .codeflush .. => codeflush _ _ _
  | .codeflushExt .. => codeflushExt _ _ _ _ | .ifence => ifence | .stashMap .. => stashMap _ _ | .stashMapExt .. => stashMapExt _ _ _
  | .stashUnmap .. => stashUnmap _ | .stashUnmapExt .. => stashUnmapExt _ _
  | .spaceTest .. => spaceTest _ _ | .spaceCastGen .. => spaceCastGen _ _ _ | .spaceCastOff .. => spaceCastOff _ _ _
  | .fence .. => fence _ _
  | .append .. => append _ _ _ _ _ | .appendExt .. => appendExt _ _ _ _ _ _ | .appendV .. => appendV _ _ _ _
  | .appendVExt .. => appendVExt _ _ _ _ _
  | .tailrd .. => tailrd _ _ _ | .tailrdExt .. => tailrdExt _ _ _ _ | .seal .. => Laws.Encoding.seal _ _ _
  | .sealExt .. => sealExt _ _ _ _ | .freeSeal .. => freeSeal _ | .freeSealExt .. => freeSealExt _ _
  | .fork .. => fork _ _ _ _ | .forkInc .. => forkInc _ _ _ _ | .forkm .. => forkm _ | .forkmInc .. => forkmInc _
  | .rfork .. => rfork _
  | .done => done | .join .. => join _ _
  | .yield .. => yield _ | .pause .. => pause _
  | .barSet .. => barSet _ _ | .barArrive .. => barArrive _ | .barWait .. => barWait _ | .barSync .. => barSync _
  | .barGet .. => barGet _ _
  | .mbxWait .. => mbxWait _ _ | .mbxPoll .. => mbxPoll _ _
  | .selfId .. => selfId _ | .selfXy .. => selfXy _ | .selfDom .. => selfDom _ | .selfIdle .. => selfIdle _ _
  | .vadd .. => vadd _ _ _ _ _ | .vaddX .. => vaddX _ _ _ _ _ _ _ _
  | .vsub .. => vsub _ _ _ _ _ | .vsubX .. => vsubX _ _ _ _ _ _ _ _
  | .vmul .. => vmul _ _ _ _ _ | .vmulX .. => vmulX _ _ _ _ _ _
  | .vmulh .. => vmulh _ _ _ _ _ | .vmulhX .. => vmulhX _ _ _ _ _ _ _
  | .vmin .. => vmin _ _ _ _ _ | .vminX .. => vminX _ _ _ _ _ _ _
  | .vmax .. => vmax _ _ _ _ _ | .vmaxX .. => vmaxX _ _ _ _ _ _ _
  | .vand .. => vand _ _ _ _ _ | .vandX .. => vandX _ _ _ _ _ _ | .vor .. => vor _ _ _ _ _ _ | .vxor .. => vxor _ _ _ _ _ _
  | .vandn .. => vandn _ _ _ _ _ _
  | .vsll .. => vsll _ _ _ _ _ | .vsllX .. => vsllX _ _ _ _ _ _ | .vsrl .. => vsrl _ _ _ _ _ _ | .vsra .. => vsra _ _ _ _ _ _
  | .vslli .. => vslli _ _ _ _ _ | .vsrli .. => vsrli _ _ _ _ _ | .vsrai .. => vsrai _ _ _ _ _
  | .vfma .. => vfma _ _ _ _ _ | .vfmaX .. => vfmaX _ _ _ _ _ _ _ | .vfnma .. => vfnma _ _ _ _ _ _ _
  | .vneg .. => vneg _ _ _ _ | .vnegX .. => vnegX _ _ _ _ _ | .vabs .. => vabs _ _ _ _ _
  | .vcvt .. => vcvt _ _ _ _ | .vcvtX .. => vcvtX _ _ _ _ _ _ _ _ _
  | .vceq .. => vceq _ _ _ _ | .vceqX .. => vceqX _ _ _ _ _ _ _ | .vcne .. => vcne _ _ _ _ _ _ _ | .vclt .. => vclt _ _ _ _ _ _ _
  | .vcle .. => vcle _ _ _ _ _ _ _ | .vcgt .. => vcgt _ _ _ _ _ _ _ | .vcge .. => vcge _ _ _ _ _ _ _
  | .vsel .. => vsel _ _ _ _ _ | .vselX .. => vselX _ _ _ _ _ _
  | .vredsum .. => vredsum _ _ _ | .vredsumX .. => vredsumX _ _ _ _ _ | .vredmin .. => vredmin _ _ _ _ _
  | .vredmax .. => vredmax _ _ _ _ _ | .vredand .. => vredand _ _ _ _ _ | .vredor .. => vredor _ _ _ _ _
  | .vredxor .. => vredxor _ _ _ _ _
  | .vdot .. => vdot _ _ _ _ _ | .vdotX .. => vdotX _ _ _ _ _ _ _
  | .vperm .. => vperm _ _ _ _ _ | .vpermX .. => vpermX _ _ _ _ _ _ | .vslideh .. => vslideh _ _ _ _ _ | .vslidel .. => vslidel _ _ _ _ _
  | .vrev .. => vrev _ _ _ _
  | .vbcast .. => vbcast _ _ _ | .vbcastX .. => vbcastX _ _ _ _ | .vbcastl .. => vbcastl _ _ _ _ _ | .vindex .. => vindex _ _ _
  | .vext .. => vext _ _ | .vextX .. => vextX _ _ _ _ _ | .vins .. => vins _ _ _ _
  | .vcprs .. => vcprs _ _ _ _ | .vcprsX .. => vcprsX _ _ _ _ _ | .vexpd .. => vexpd _ _ _ _ _
  | .vld .. => vld _ _ _ _
  | .vst .. => vst _ _ _ _
  | .vlds .. => vlds _ _ _ _ _
  | .vsts .. => vsts _ _ _ _ _
  | .vgath .. => vgath _ _ _ _ _ _
  | .vscat .. => vscat _ _ _ _ _ _
  | .tdLd .. => tdLd _ _ | .tdSt .. => tdSt _ _ | .tdRdw .. => tdRdw _ _ _ | .tdWrw .. => tdWrw _ _ _
  | .mm .. => mm _ _ _
  | .mc .. => mc _ _ _ | .mcNdA .. => mcNdA _ _ _ | .mcNdB .. => mcNdB _ _ _
  | .drainA => drainA | .drainB => drainB | .bankMergeAb => bankMergeAb | .bankMergeBa => bankMergeBa | .accMerge .. => accMerge _ _
  | .accClrF .. => accClrF _ | .accClrX .. => accClrX _ _ _ | .accCvt .. => accCvt _ _ | .accSt .. => accSt _ _ | .accLd .. => accLd _ _
  | .wbLd .. => wbLd _ _
  | .compress .. => compress _ _
  | .msave .. => msave _ _ | .mrestore .. => mrestore _ _
  | .cpStart .. => cpStart _ _ _ _ | .cpWaitge .. => cpWaitge _ _ _ | .cpWp .. => cpWp _ _ | .cpStat .. => cpStat _ _
  | .cpStop .. => cpStop _ | .cpResume .. => cpResume _
  | .distSet .. => distSet _ | .distGo .. => distGo _ _ _ | .distStat .. => distStat _ | .distResume => distResume
  | .sfuExp2 .. => sfuExp2 _ _ _ _ | .sfuLog2 .. => sfuLog2 _ _ _ _ | .sfuRcp .. => sfuRcp _ _ _ _ | .sfuRsqrt .. => sfuRsqrt _ _ _ _
  | .sfuSqrt .. => sfuSqrt _ _ _ _ | .sfuSin .. => sfuSin _ _ _ _ | .sfuCos .. => sfuCos _ _ _ _ | .sfuTanh .. => sfuTanh _ _ _ _
  | .sfuSigm .. => sfuSigm _ _ _ _ | .sfuErf .. => sfuErf _ _ _ _
  | .qinj .. => qinj _ _ | .qinjRel .. => qinjRel _ _ | .qrcv .. => qrcv _ | .qpoll .. => qpoll _ _ | .qcnt .. => qcnt _
  | .rld .. => rld _ _ _ _ _ | .rst .. => rst _ _ _ _ _ | .ratom .. => ratom _ _ _ _ _ _ _ | .ratomCas .. => ratomCas _ _ _ _ _ _
  | .rwait .. => rwait _ _
  | .bulkWr .. => bulkWr _ _ _ _ _ | .bulkRd .. => bulkRd _ _ _ _ _
  | .rankMe .. => rankMe _ | .rankRd .. => rankRd _ _ | .rbind .. => rbind _ _ _
  | .tagGnt .. => tagGnt _ _ | .tagGntd .. => tagGntd _ _ | .tagRcl .. => tagRcl _ _
  | .dirWr => dirWr | .dirShadd .. => dirShadd _ | .dirShdel .. => dirShdel _
  | .msgSend .. => msgSend _ _ | .msgMcast .. => msgMcast _ _ _ | .btRd .. => btRd _ _ | .btWr .. => btWr _ _ | .btMrg .. => btMrg _ _
  | .hend => hend | .hfail .. => hfail _ _ | .biasRd .. => biasRd _ _ | .biasWr .. => biasWr _ _ | .biSnp .. => biSnp _
  | .lsSplitWrite .. => lsSplitWrite _ | .tensorOpStart .. => tensorOpStart _ | .tensorOpComplete .. => tensorOpComplete _ _
  | .channelDelivery .. => channelDelivery _ _ | .channelStopped .. => channelStopped _ _ | .channelFault .. => channelFault _ _
  | .distBlock .. => distBlock _ | .distBurstComplete .. => distBurstComplete _ | .sfuEntryComplete .. => sfuEntryComplete _
  | .interruptTake .. => interruptTake _ | .remoteErrorTake .. => remoteErrorTake _ | .recordPop .. => recordPop _
  | .dequeSpill .. => dequeSpill _ | .dequeRefill .. => dequeRefill _ | .stealSearch .. => stealSearch _
  | .stealArrival .. => stealArrival _ | .undealtShareDeal .. => undealtShareDeal _ | .rangeTransfer .. => rangeTransfer _
  | .barrierArrival .. => barrierArrival _ | .barrierRelease .. => barrierRelease _ | .pauseExpiry .. => pauseExpiry _
  | .gets .. => gets _ | .getx .. => getx _ | .upg .. => upg _ | .putx .. => putx _ | .puts .. => puts _ | .putp .. => putp _
  | .atom .. => atom _ | .apnd .. => apnd _ | .apndFill .. => apndFill _ | .arsv .. => arsv _ | .tailq .. => tailq _
  | .sealqSeal .. => sealqSeal _ | .sealqFree .. => sealqFree _ | .replicateNotice .. => replicateNotice _
  | .replicaCopyComplete .. => replicaCopyComplete _ _ | .replicaInvalidate .. => replicaInvalidate _
  | .customMessage .. => customMessage _ | .recall .. => Laws.Encoding.recall _ | .inv .. => inv _ | .push .. => push _
  | .deferredRequestApply .. => deferredRequestApply _ _ | .dataS .. => dataS _ | .dataX .. => dataX _ | .ack .. => ack _
  | .busy .. => busy _ | .retry .. => retry _ | .retryBackoffExpiry .. => retryBackoffExpiry _ _ | .fail .. => fail _
  | .wbData .. => wbData _ | .invAck .. => invAck _ | .result .. => result _ | .handlerWatchdog .. => handlerWatchdog _
  | .transientWatchdog .. => transientWatchdog _ _ | .queueMessage .. => queueMessage _ | .remoteLoad .. => remoteLoad _
  | .remoteStore .. => remoteStore _ | .remoteAtomic .. => remoteAtomic _ | .valueReply .. => valueReply _
  | .acknowledgement .. => acknowledgement _ | .bulkWriteData .. => bulkWriteData _ | .bulkReadRequest .. => bulkReadRequest _
  | .bulkReadData .. => bulkReadData _ | .dropNotice .. => dropNotice _ | .reservationRequest .. => reservationRequest _
  | .reservationGrant .. => reservationGrant _ | .reservedResend .. => reservedResend _ | .refusal .. => refusal _
  | .failureReport .. => failureReport _ | .pageReadRequest .. => pageReadRequest _ | .pageExclusiveRequest .. => pageExclusiveRequest _
  | .pageData .. => pageData _ | .pageRecall .. => pageRecall _ | .pageWriteBack .. => pageWriteBack _
  | .pageAcknowledgement .. => pageAcknowledgement _ | .packetForward .. => packetForward _ _
  | .fabricResendTimeout .. => fabricResendTimeout _ | .linkFlitResend .. => linkFlitResend _ | .linkRetrain .. => linkRetrain _
  | .hostGoResponse .. => hostGoResponse _ _ _ | .snpinv .. => snpinv _ | .snpdata .. => snpdata _ | .snpcur .. => snpcur _
  | .hostMemrd .. => hostMemrd _ | .hostMemwr .. => hostMemwr _ _ _ | .notifyWrite .. => notifyWrite _ _ _
  | .registerWrite .. => registerWrite _ _ _ | .partCfg .. => partCfg _ _ | .partStart .. => partStart _ | .partStop .. => partStop _
  | .regionBind .. => regionBind _ _ _ | .regionUnbind .. => regionUnbind _ _ | .imageLoad .. => imageLoad _ _ _ _
  | .routeLoad .. => routeLoad _ _ _ | .rankWrite .. => rankWrite _ _ | .contract .. => contract _ _ | .launch .. => launch _ _ _ _
  | .launchSeed .. => launchSeed _ | .deliver .. => deliver _ _ _ _ | .preemptCmd .. => preemptCmd _ _ _ | .ifenceCmd .. => ifenceCmd _
  | .pageReply .. => pageReply _ _ | .record .. => record _ _ _ _ | .biasSet .. => biasSet _ _ _ _ | .s2Inv .. => s2Inv _ _
  | .mbxAssign .. => mbxAssign _ _ _ | .hdmCfg .. => hdmCfg _ _ _ _ | .partExport .. => partExport _ _ _
  | .partImport .. => partImport _ _ | .eventCfg .. => eventCfg _ _ | .partitionSwap .. => partitionSwap _ _ _
  | .swapFlush .. => swapFlush _ | .swapExchange .. => swapExchange _ | .periodStart .. => periodStart _
  | .budgetExhausted .. => budgetExhausted _ | .timeSliceExpiry .. => timeSliceExpiry _ | .partitionNoWork .. => partitionNoWork _
  | .traceRingCopy .. => traceRingCopy _ | .replayDivergence .. => replayDivergence _ _ | .clusterClockGate .. => clusterClockGate _
  | .clusterPowerGate .. => clusterPowerGate _ | .clusterWake .. => clusterWake _ | .powerOn .. => powerOn _
  | .fundamentalReset .. => fundamentalReset _ | .hotReset .. => hotReset _ | .bootReset .. => bootReset _ | .d3hotEntry => d3hotEntry
  | .powerOff => powerOff | .attestRequest => attestRequest | .refresh .. => refresh _ | .recalibration .. => recalibration _
  | .scrub .. => scrub _ _ | .throttleRaise => throttleRaise | .throttleLower => throttleLower | .thermalShutdown => thermalShutdown
  | .telemetrySample .. => telemetrySample _ | .illegalOpEncoding .. => illegalOpEncoding _ | .memoryAccessReply .. => memoryAccessReply _
  | .vectorBlockDelivery .. => vectorBlockDelivery _ | .tlbiCompletion .. => tlbiCompletion _
  | .codeflushAcknowledgement .. => codeflushAcknowledgement _ | .cxlIoCompletion .. => cxlIoCompletion _
  | .refusalBackoffResend .. => refusalBackoffResend _

end Laws.Encoding

/-- The operand checks refuse no well-formed instruction (R36). -/
theorem decodeRaw_encodeRaw {i : Instr} (hwords : i.hasWords = true) (hwf : i.wf = true) : decodeRaw (encodeRaw i) = some i := by
  rw [decodeRaw, Laws.Encoding.decodeFields_encodeRaw i hwords hwf, Option.filter_some, if_pos hwf]

/-- Settles O54: the fields are read back from the bytes, and every instruction from its fields. -/
theorem decodeOfEncode : Obligations.DecodeOfEncode := by
  intro i rest hwords hwf
  rw [decode, encode, parseRaw_bytes (encodeRaw_exact i) rest]
  simp [decodeRaw_encodeRaw hwords hwf, Instr.len]

end Sys2Proof
end

section
/-! Rounding to a quantum and the neighbours it chooses from (R64): mantissas and exponents are compared as the rational numbers they stand for. -/

namespace Sys2Proof.Machine

/-! ### Magnitudes as rational numbers -/

/-- The magnitude m * 2^e of a mantissa and an exponent (R52). -/
def magnitude (m : Nat) (e : Int) : ℚ := m * 2 ^ e

theorem magnitude_mul_two_pow (m k : Nat) (e : Int) : magnitude (m * 2 ^ k) e = magnitude m (e + k) := by
  rw [magnitude, magnitude, zpow_add₀ two_ne_zero, zpow_natCast]
  push_cast
  ring

/-- The same magnitude at a smaller exponent. -/
theorem magnitude_rescale (m : Nat) {e q : Int} (h : q ≤ e) : magnitude m e = magnitude (m * 2 ^ (e - q).toNat) q := by
  rw [magnitude_mul_two_pow, Int.toNat_of_nonneg (by omega), add_sub_cancel]

@[simp] theorem magnitude_lt_magnitude {a b : Nat} {e : Int} : magnitude a e < magnitude b e ↔ a < b := by
  rw [magnitude, magnitude, mul_lt_mul_iff_left₀ (by positivity), Nat.cast_lt]

@[simp] theorem magnitude_le_magnitude {a b : Nat} {e : Int} : magnitude a e ≤ magnitude b e ↔ a ≤ b := by
  rw [← not_lt, magnitude_lt_magnitude, not_lt]

@[simp] theorem magnitude_inj {a b : Nat} {e : Int} : magnitude a e = magnitude b e ↔ a = b := by
  simp only [le_antisymm_iff, magnitude_le_magnitude]

theorem two_pow_magnitude_le {j k : Nat} {d e : Int} : magnitude (2 ^ j) d ≤ magnitude (2 ^ k) e ↔ d + j ≤ e + k := by
  rw [← one_mul (2 ^ j), ← one_mul (2 ^ k), magnitude_mul_two_pow, magnitude_mul_two_pow]
  simp [magnitude]

theorem two_pow_magnitude_lt {j k : Nat} {d e : Int} : magnitude (2 ^ j) d < magnitude (2 ^ k) e ↔ d + j < e + k := by
  rw [← not_le, two_pow_magnitude_le, not_le]

/-- The magnitude that an exact value starts at: its own where it is not sticky (R64). -/
def Ex.floor (x : Ex) : ℚ := magnitude x.m x.e

/-- A comparison of magnitudes compares the rational numbers; a sticky excess tips the balance of equal ones. -/
theorem cmpMag_eq (x : Ex) (m : Nat) (e : Int) :
    cmpMag x m e = if x.floor < magnitude m e then .lt else if magnitude m e < x.floor then .gt else if x.sticky then .gt else .eq := by
  have hx : ∀ lo ≤ x.e, x.floor = magnitude (x.m * 2 ^ (x.e - lo).toNat) lo := fun lo h => magnitude_rescale _ h
  have hm : ∀ lo ≤ e, magnitude m e = magnitude (m * 2 ^ (e - lo).toNat) lo := fun lo h => magnitude_rescale _ h
  unfold cmpMag
  split
  next h => simp only [hx _ le_rfl, hm _ h, magnitude_lt_magnitude]
  next h => simp only [hx e (by omega), hm e le_rfl, magnitude_lt_magnitude]

theorem cmpMag_eq_lt {x : Ex} {m : Nat} {e : Int} : cmpMag x m e = .lt ↔ x.floor < magnitude m e := by
  rw [cmpMag_eq]
  split_ifs <;> simp_all

theorem cmpMag_ne_lt {x : Ex} {m : Nat} {e : Int} : cmpMag x m e ≠ .lt ↔ magnitude m e ≤ x.floor := by
  rw [ne_eq, cmpMag_eq_lt, not_lt]

theorem cmpMag_eq_eq {x : Ex} {m : Nat} {e : Int} : cmpMag x m e = .eq ↔ x.floor = magnitude m e ∧ x.sticky = false := by
  rw [cmpMag_eq]
  split_ifs with h1 h2 h3
  · simp [h1.ne]
  · simp [h2.ne']
  · simp [h3]
  · simp [h3, le_antisymm (not_lt.mp h2) (not_lt.mp h1)]

theorem magnitude_two_mul (m : Nat) (e : Int) : magnitude (2 * m) (e - 1) = magnitude m e := by
  simpa [mul_comm] using magnitude_mul_two_pow m 1 (e - 1)

/-! ### The multiple of a quantum that rounding takes -/

@[simp] theorem roundUp_none (rm : Rm) (neg odd : Bool) : roundUp rm neg odd none = false := rfl

@[simp] theorem roundUp_some (rm : Rm) (neg odd : Bool) (half : Ordering) : roundUp rm neg odd (some half) = roundsAway rm neg odd half := by
  cases half <;> rfl

/-- M is the greatest multiple of the quantum 2^q that is not above x. -/
structure Ex.Between (x : Ex) (M : Nat) (q : Int) : Prop where
  le : magnitude M q ≤ x.floor
  lt : x.floor < magnitude (M + 1) q

theorem Ex.exists_between (x : Ex) (q : Int) : ∃ M, x.Between M q := by
  have hq : (0 : ℚ) < 2 ^ q := by positivity
  have hx : 0 ≤ x.floor / 2 ^ q := by unfold Ex.floor magnitude; positivity
  refine ⟨⌊x.floor / 2 ^ q⌋₊, ?_, ?_⟩
  · exact (le_div_iff₀ hq).mp (Nat.floor_le hx)
  · simpa [magnitude] using (div_lt_iff₀ hq).mp (Nat.lt_floor_add_one (x.floor / 2 ^ q))

/-- The part of a magnitude below a quantum: none of a multiple M of it, and else its place against the middle of M and M + 1. -/
theorem Ex.Between.discarded {x : Ex} {M k : Nat} (h : x.Between M (x.e + (k + 1 : Nat))) :
    x.m / 2 ^ (k + 1) = M ∧ discarded x.m (k + 1) x.sticky =
      if cmpMag x M (x.e + (k + 1 : Nat)) = .eq then none else some (cmpMag x (2 * M + 1) (x.e + (k + 1 : Nat) - 1)) := by
  obtain ⟨hle, hlt⟩ := h
  rw [Ex.floor, ← magnitude_mul_two_pow, magnitude_le_magnitude] at hle
  rw [Ex.floor, ← magnitude_mul_two_pow, magnitude_lt_magnitude, Nat.succ_mul] at hlt
  obtain ⟨r, hr⟩ := Nat.exists_eq_add_of_le' hle
  have hrlt : r < 2 ^ (k + 1) := by omega
  have hmod : x.m % 2 ^ (k + 1) = r := by rw [hr, Nat.add_mul_mod_self_right, Nat.mod_eq_of_lt hrlt]
  have hmiddle : magnitude (2 * M + 1) (x.e + (k + 1 : Nat) - 1) = magnitude (2 ^ k + M * 2 ^ (k + 1)) x.e := by
    rw [show x.e + ((k + 1 : Nat) : Int) - 1 = x.e + k by omega, ← magnitude_mul_two_pow]
    ring_nf
  constructor
  · rw [hr, Nat.add_mul_div_right _ _ (by positivity), Nat.div_eq_of_lt hrlt, Nat.zero_add]
  · rw [cmpMag_eq, cmpMag_eq, hmiddle, ← magnitude_mul_two_pow, Ex.floor]
    simp only [Machine.discarded, magnitude_lt_magnitude, hmod]
    rw [hr]
    cases x.sticky <;> grind

/-- Rounding to a quantum (R64): a multiple is delivered as it is; else the lower neighbour M or the upper one M + 1, by the mode, the sign, the
parity of M and the place against their middle. -/
theorem quantise_of_between {rm : Rm} {x : Ex} {M : Nat} {q : Int} (h : x.Between M q) :
    quantise rm x q = if cmpMag x M q = .eq then (M, false)
      else (if roundsAway rm x.neg (M % 2 = 1) (cmpMag x (2 * M + 1) (q - 1)) then M + 1 else M, true) := by
  unfold quantise
  split
  next hq =>
    obtain ⟨hle, hlt⟩ := h
    have hx : x.floor = magnitude (x.m * 2 ^ (x.e - q).toNat) q := magnitude_rescale _ hq
    rw [hx, magnitude_le_magnitude] at hle
    rw [hx, magnitude_lt_magnitude] at hlt
    obtain rfl : M = x.m * 2 ^ (x.e - q).toNat := by omega
    rw [cmpMag_eq, cmpMag_eq, hx, ← magnitude_two_mul _ q]
    cases x.sticky <;> simp
  next hq =>
    obtain ⟨k, rfl⟩ : ∃ k : Nat, q = x.e + (k + 1 : Nat) := ⟨(q - x.e - 1).toNat, by omega⟩
    obtain ⟨hdiv, hdiscarded⟩ := h.discarded
    simp only [add_sub_cancel_left, Int.toNat_natCast, hdiv, hdiscarded]
    by_cases hexact : cmpMag x M (x.e + (k + 1 : Nat)) = .eq
    · simp only [hexact, if_true, roundUp_none, Bool.false_eq_true, if_false, Option.isSome_none]
    · simp only [hexact, if_false, roundUp_some, Option.isSome_some]

theorem le_quantise {rm : Rm} {x : Ex} {M : Nat} {q : Int} (h : magnitude M q ≤ x.floor) : M ≤ (quantise rm x q).1 := by
  obtain ⟨N, hN⟩ := x.exists_between q
  have hMN : M ≤ N := Nat.lt_succ_iff.mp (magnitude_lt_magnitude.mp (h.trans_lt hN.lt))
  rw [quantise_of_between hN]
  split_ifs <;> simp <;> omega

end Sys2Proof.Machine
end

section
/-! Rounding to a multiple of a power of two (R64). -/

namespace Sys2Proof.Machine

/-! ### The five modes (R64) -/

theorem roundsAway_nearestEven (neg odd : Bool) (a b : Nat) : roundsAway 0 neg odd (compare a b) = true ↔ b < a ∨ a = b ∧ odd = true := by
  simp [roundsAway, compare_gt_iff_gt]

theorem roundsAway_towardZero (neg odd : Bool) (half : Ordering) : roundsAway 1 neg odd half = false := rfl

theorem roundsAway_down (neg odd : Bool) (half : Ordering) : roundsAway 2 neg odd half = neg := rfl

theorem roundsAway_up (neg odd : Bool) (half : Ordering) : roundsAway 3 neg odd half = !neg := rfl

theorem roundsAway_nearestAway (neg odd : Bool) (a b : Nat) : roundsAway 4 neg odd (compare a b) = true ↔ b ≤ a := by
  simp [roundsAway, compare_lt_iff_lt]

/-! ### Exact magnitudes -/

/-- A magnitude m against the middle of the multiples M and M + 1 of 2^k. -/
def againstMiddle (m M k : Nat) : Ordering := compare (2 * m) (2 * (M * 2 ^ k) + 2 ^ k)

theorem Ex.between_div (neg : Bool) (m k : Nat) (e : Int) : (⟨neg, m, e, false⟩ : Ex).Between (m / 2 ^ k) (e + k) := by
  constructor
  · rw [Ex.floor, ← magnitude_mul_two_pow, magnitude_le_magnitude]
    exact Nat.div_mul_le_self m (2 ^ k)
  · rw [Ex.floor, ← magnitude_mul_two_pow, magnitude_lt_magnitude]
    exact Nat.lt_mul_of_div_lt (Nat.lt_succ_self _) (by positivity)

theorem cmpMag_middle (neg : Bool) (m M k : Nat) (e : Int) : cmpMag ⟨neg, m, e, false⟩ (2 * M + 1) (e + k - 1) = againstMiddle m M k := by
  have hmid : magnitude (2 * M + 1) (e + k - 1) = magnitude (2 * (M * 2 ^ k) + 2 ^ k) (e - 1) := by
    rw [show e + k - 1 = e - 1 + k by omega, ← magnitude_mul_two_pow]
    ring_nf
  rw [cmpMag_eq, Ex.floor, hmid, ← magnitude_two_mul m]
  simp only [magnitude_lt_magnitude, againstMiddle, compare, compareOfLessAndEq]
  grind

/-- Rounding an exact magnitude to a multiple of 2^k: the quotient, or the number after it. -/
theorem quantise_exact (rm : Rm) (neg : Bool) (m k : Nat) (e : Int) :
    quantise rm ⟨neg, m, e, false⟩ (e + k) = if m = m / 2 ^ k * 2 ^ k then (m / 2 ^ k, false)
      else (if roundsAway rm neg (m / 2 ^ k % 2 = 1) (againstMiddle m (m / 2 ^ k) k) then m / 2 ^ k + 1 else m / 2 ^ k, true) := by
  have hexact : cmpMag ⟨neg, m, e, false⟩ (m / 2 ^ k) (e + k) = .eq ↔ m = m / 2 ^ k * 2 ^ k := by
    rw [cmpMag_eq_eq, Ex.floor, ← magnitude_mul_two_pow, magnitude_inj]
    simp
  rw [quantise_of_between (Ex.between_div neg m k e), cmpMag_middle]
  simp only [hexact]

/-- Settles O6: the quotient and the number after it are the two neighbours, and each mode names one of them. -/
theorem roundingPicksTheNeighbour : Obligations.RoundingPicksTheNeighbour := by
  intro rm neg m k e
  have hdvd : 2 ^ k ∣ m ↔ m = m / 2 ^ k * 2 ^ k := by rw [Nat.dvd_iff_div_mul_eq, eq_comm]
  have hle : m / 2 ^ k * 2 ^ k ≤ m := Nat.div_mul_le_self m (2 ^ k)
  have hlt : m < m / 2 ^ k * 2 ^ k + 2 ^ k := Nat.lt_div_mul_add (by positivity)
  have hnext : (m / 2 ^ k + 1) * 2 ^ k = m / 2 ^ k * 2 ^ k + 2 ^ k := Nat.succ_mul ..
  have hpos : 0 < 2 ^ k := by positivity
  have hq := quantise_exact rm neg m k e
  rw [againstMiddle] at hq
  dsimp only
  by_cases hm : m = m / 2 ^ k * 2 ^ k
  · rw [if_pos hm] at hq
    simp only [hq, hdvd]
    generalize m / 2 ^ k * 2 ^ k = A at *
    grind
  · rw [if_neg hm] at hq
    simp only [hq, hdvd, ite_mul, hnext]
    generalize m / 2 ^ k * 2 ^ k = A at *
    generalize m / 2 ^ k = M at *
    generalize 2 ^ k = T at *
    refine ⟨by simp [hm], by simp [hm], by split_ifs <;> omega, by split_ifs <;> omega, ?_, ?_, ?_, ?_, ?_⟩ <;> rintro rfl
    · simp only [roundsAway_nearestEven]
      split_ifs <;> grind
    · simpa only [roundsAway_towardZero, Bool.false_eq_true, if_false] using hle
    · rw [roundsAway_down]
      cases neg <;> simp [hle, hlt.le]
    · rw [roundsAway_up]
      cases neg <;> simp [hle, hlt.le]
    · simp only [roundsAway_nearestAway]
      split_ifs <;> omega

end Sys2Proof.Machine
end

section
/-! The codes of a format and the values they stand for (R52, R53, R55). -/

namespace Sys2Proof.Machine

/-! ### Signs and magnitudes of codes -/

theorem Fmt.two_pow_width (f : Fmt) : 2 ^ f.width = 2 * f.signBit := by cases f <;> rfl

theorem Fmt.maxCode_lt_signBit (f : Fmt) : f.maxCode < f.signBit := by cases f <;> decide

theorem Fmt.maxCode_le_infCode (f : Fmt) : f.maxCode ≤ f.infCode := by cases f <;> decide

theorem Fmt.maxCode_lt_infCode {f : Fmt} (hf : f.ieee = true) : f.maxCode < f.infCode := by
  revert hf
  cases f <;> decide

theorem Fmt.infCode_lt_signBit (f : Fmt) : f.infCode < f.signBit := by cases f <;> decide

/-- A value with another sign. -/
def FVal.withSign (neg : Bool) : FVal → FVal
  | .fin _ m e => .fin neg m e
  | .inf _ => .inf neg
  | v => v

@[simp] theorem FVal.isNan_withSign (neg : Bool) (v : FVal) : (v.withSign neg).isNan = v.isNan := by cases v <;> rfl

theorem unpack_mod (f : Fmt) (c : Nat) : unpack f (c % 2 ^ f.width) = unpack f c := by
  simp only [unpack, Nat.mod_mod]

/-- A code's sign bit is its sign and nothing else, but for the NaR of T8 (R52, R55). -/
theorem unpack_signed {f : Fmt} {a : Nat} (neg : Bool) (ha : a < f.signBit) (h0 : f = .t8 → a ≠ 0) :
    unpack f (f.signed neg a) = (unpack f a).withSign neg := by
  have hw := f.two_pow_width
  have hlow : f.signed neg a % 2 ^ f.width = f.signed neg a := Nat.mod_eq_of_lt (by cases neg <;> simp [Fmt.signed] <;> omega)
  have ha' : a % 2 ^ f.width = a := Nat.mod_eq_of_lt (by omega)
  have hmag : f.signed neg a % f.signBit = a := by cases neg <;> simp [Fmt.signed, Nat.mod_eq_of_lt ha]
  have hneg : decide (f.signBit ≤ f.signed neg a) = neg := by cases neg <;> simp [Fmt.signed, ha]
  have hpos : decide (f.signBit ≤ a) = false := by simpa using ha
  unfold unpack
  simp only [hlow, ha', hmag, hneg, hpos, Nat.mod_eq_of_lt ha]
  split
  next => simp [h0 rfl, FVal.withSign]
  next => split_ifs <;> rfl

/-- Every code is a magnitude with a sign. -/
theorem exists_signed (f : Fmt) (c : Nat) : ∃ neg a, a < f.signBit ∧ c % 2 ^ f.width = f.signed neg a := by
  have hpos : 0 < f.signBit := Nat.two_pow_pos _
  have hlt : c % 2 ^ f.width < 2 ^ f.width := Nat.mod_lt _ (by positivity)
  rw [f.two_pow_width] at *
  by_cases h : f.signBit ≤ c % (2 * f.signBit)
  · exact ⟨true, c % (2 * f.signBit) - f.signBit, by omega, by simp [Fmt.signed]; omega⟩
  · exact ⟨false, c % (2 * f.signBit), by omega, rfl⟩

/-! ### The magnitudes of the binary formats (R52) -/

/-- Code c of a binary format stands for m * 2^e. -/
structure Fmt.IsCode (f : Fmt) (c m : Nat) (e : Int) : Prop where
  qmin_le : f.qmin ≤ e
  lt : m < 2 ^ (f.frac + 1)
  normal : e = f.qmin ∨ 2 ^ f.frac ≤ m
  code : c = (e - f.qmin).toNat * 2 ^ f.frac + m

theorem unpack_of_le_maxCode {f : Fmt} {c : Nat} (hf : f ≠ .t8) (hc : c ≤ f.maxCode) :
    ∃ m e, unpack f c = .fin false m e ∧ f.IsCode c m e := by
  have hs := hc.trans_lt f.maxCode_lt_signBit
  have hlow : c % 2 ^ f.width = c := Nat.mod_eq_of_lt (by rw [f.two_pow_width]; omega)
  have hinf : (f.ieee && decide (f.infCode ≤ c)) = false := by
    rw [Bool.and_eq_false_imp, decide_eq_false_iff_not, not_le]
    exact fun hf => hc.trans_lt (Fmt.maxCode_lt_infCode hf)
  have hnan : ¬ (f = .e4 ∧ c = 0x7F) := by
    rintro ⟨rfl, rfl⟩
    exact absurd hc (by decide)
  have hdiv := Nat.div_add_mod' c (2 ^ f.frac)
  have hmod := Nat.mod_lt c (Nat.two_pow_pos f.frac)
  unfold unpack
  split
  next => exact absurd rfl hf
  next =>
    simp only [hlow, Nat.mod_eq_of_lt hs, hinf, Bool.false_eq_true, if_false, decide_eq_false (not_le.mpr hs)]
    rw [if_neg (by simpa using hnan)]
    split
    next h0 =>
      rw [h0] at hdiv
      exact ⟨_, _, rfl, le_rfl, by omega, .inl rfl, by simpa using hdiv.symm⟩
    next h0 =>
      obtain ⟨n, hn⟩ := Nat.exists_eq_succ_of_ne_zero h0
      refine ⟨_, _, rfl, by omega, by omega, .inr (by omega), ?_⟩
      rw [show (f.qmin + ((c / 2 ^ f.frac : Nat) - 1) - f.qmin).toNat = n by omega, ← hdiv, hn]
      simp
      ring

theorem unpack_infCode {f : Fmt} (hf : f.ieee = true) : unpack f f.infCode = .inf false := by
  revert hf
  cases f <;> decide

/-! ### Rounding to a binary format, in its parts (R64 to R66) -/

/-- The exponent that a magnitude is rounded at where the exponent range has no lower bound (R66). -/
def Fmt.unbounded (f : Fmt) (x : Ex) : Int := x.e + (bitLen x.m : Int) - ((f.frac + 1 : Nat) : Int)

/-- The exponent that a magnitude is rounded at. -/
def Fmt.quantum (f : Fmt) (x : Ex) : Int := if f.unbounded x < f.qmin then f.qmin else f.unbounded x

/-- The code that rounding gives where it does not overflow. -/
def Fmt.roundedCode (f : Fmt) (rm : Rm) (x : Ex) : Nat := (f.quantum x - f.qmin).toNat * 2 ^ f.frac + (quantise rm x (f.quantum x)).1

/-- The formats where a magnitude above the greatest one overflows whatever it rounds to (R66). -/
def Fmt.narrow (f : Fmt) : Bool := f = .f6a || f = .f6b || f = .f4

/-- Whether a magnitude is below the normal numbers when it is rounded without a bound (R66). -/
def Fmt.tiny (f : Fmt) (rm : Rm) (x : Ex) : Bool :=
  cmpMag ⟨x.neg, (quantise rm x (f.unbounded x)).1, f.unbounded x, false⟩ (2 ^ f.frac) f.qmin = .lt

/-- Whether rounding overflows (R65, R66). -/
def Fmt.overflows (f : Fmt) (rm : Rm) (x : Ex) : Bool :=
  if f.narrow then (match unpack f f.maxCode with | .fin _ m e => cmpMag x m e = .gt | _ => false)
  else decide (f.maxCode < f.roundedCode rm x)

/-- Whether an overflow gives an infinity (R65). -/
def Fmt.toInf (f : Fmt) (rm : Rm) (neg : Bool) : Bool :=
  f.ieee && (rm.toNat = 0 || 4 ≤ rm.toNat || (rm.toNat = 2 && neg) || (rm.toNat = 3 && !neg))

theorem roundBin_eq (f : Fmt) (rm : Rm) (x : Ex) : roundBin f rm x =
    if f.overflows rm x then ⟨f.signed x.neg (if f.toInf rm x.neg then f.infCode else f.maxCode), Fl.of ||| Fl.nx⟩
    else ⟨f.signed x.neg (f.roundedCode rm x), (if (quantise rm x (f.quantum x)).2 then Fl.nx else 0) |||
      (if f.tiny rm x && (quantise rm x (f.quantum x)).2 then Fl.uf else 0)⟩ := rfl

theorem Fmt.overflows_wide {f : Fmt} (h : f.narrow = false) (rm : Rm) (x : Ex) : f.overflows rm x = decide (f.maxCode < f.roundedCode rm x) := by
  simp [Fmt.overflows, h]

/-! ### T8 (R55) -/

theorem unpack_t8 {c : Nat} (h0 : c ≠ 0) (h : c ≤ 127) : unpack .t8 c = .fin false (t8Mag c).1 (t8Mag c).2 := by
  have h1 : c % 2 ^ Fmt.t8.width = c := Nat.mod_eq_of_lt (by simp [Fmt.width]; omega)
  have h2 : c % Fmt.t8.signBit = c := Nat.mod_eq_of_lt (by simp [Fmt.signBit, Fmt.width]; omega)
  have h3 : ¬ Fmt.t8.signBit ≤ c := by simp [Fmt.signBit, Fmt.width]; omega
  simp [unpack, h1, h2, h0, h3]

end Sys2Proof.Machine
end

section
/-! NaN operands and NaN results of the scalar arithmetic (R53, R66). -/

namespace Sys2Proof.Machine

/-- A code that is the canonical NaN where it is a NaN at all (R53). -/
def CanonicalNan (f : Fmt) (c : Nat) : Prop := (unpack f c).isNan = true → c = f.nan

theorem canonicalNan_nan (f : Fmt) : CanonicalNan f f.nan := fun _ => rfl

theorem canonicalNan_of_not_isNan {f : Fmt} {c : Nat} (h : (unpack f c).isNan = false) : CanonicalNan f c := fun hn => by simp [h] at hn

/-- The code of a number: a magnitude up to that of infinity, and not 0 in T8, with a sign. -/
structure Fmt.Number (f : Fmt) (a : Nat) : Prop where
  le : a ≤ f.infCode
  pos : f = .t8 → a ≠ 0

theorem t8Floor_succ (x : Ex) (n : Nat) :
    t8Floor x (n + 1) = if cmpMag x (t8Mag (n + 1)).1 (t8Mag (n + 1)).2 = .lt then t8Floor x n else n + 1 := rfl

theorem t8Floor_le (x : Ex) (n : Nat) : t8Floor x n ≤ n := by
  induction n with
  | zero => rfl
  | succ n ih =>
    rw [t8Floor_succ]
    split <;> omega

theorem exists_code_roundT8 (rm : Rm) (x : Ex) : ∃ a ≠ 0, a ≤ 127 ∧ (roundT8 rm x).code = Fmt.t8.signed x.neg a := by
  have hle := t8Floor_le x 127
  unfold roundT8
  dsimp only
  split
  next => exact ⟨1, by decide, by decide, rfl⟩
  next h0 =>
    split
    next => exact ⟨_, h0, hle, rfl⟩
    split
    next => exact ⟨127, by decide, by decide, rfl⟩
    next => exact ⟨_, by split <;> omega, by split <;> omega, rfl⟩

theorem exists_code_roundBin {f : Fmt} (hf : f.narrow = false) (rm : Rm) (x : Ex) :
    ∃ a ≤ f.infCode, (roundBin f rm x).code = f.signed x.neg a := by
  have hmax := f.maxCode_le_infCode
  rw [roundBin_eq, Fmt.overflows_wide hf]
  split_ifs with hover hinf
  · exact ⟨_, le_rfl, rfl⟩
  · exact ⟨_, hmax, rfl⟩
  all_goals exact ⟨_, by simp at hover; omega, rfl⟩

section
variable {f : Fmt} (hf : f.ieee = true ∨ f = .t8)
include hf

theorem narrow_eq_false : f.narrow = false := by
  revert hf
  cases f <;> decide

theorem infCode_eq_or_le_maxCode {a : Nat} (ha : f.Number a) : f.ieee = true ∧ a = f.infCode ∨ a ≤ f.maxCode := by
  obtain ⟨hle, -⟩ := ha
  have hnext : f.ieee = true ∧ f.infCode = f.maxCode + 1 ∨ f.infCode = f.maxCode := by
    revert hf
    cases f <;> decide
  obtain ⟨hi, h⟩ | h := hnext
  · simp only [hi, true_and]
    omega
  · omega

theorem isNan_unpack_number {a : Nat} (ha : f.Number a) : (unpack f a).isNan = false := by
  obtain ⟨hi, rfl⟩ | hmax := infCode_eq_or_le_maxCode hf ha
  · rw [unpack_infCode hi]; rfl
  · by_cases ht : f = .t8
    · subst ht
      rw [unpack_t8 (ha.pos rfl) hmax]; rfl
    · obtain ⟨m, e, hu, -⟩ := unpack_of_le_maxCode ht hmax
      rw [hu]; rfl

theorem canonicalNan_signed {a : Nat} (neg : Bool) (ha : f.Number a) : CanonicalNan f (f.signed neg a) := by
  refine canonicalNan_of_not_isNan ?_
  rw [unpack_signed neg (ha.le.trans_lt f.infCode_lt_signBit) ha.pos, FVal.isNan_withSign, isNan_unpack_number hf ha]

theorem canonicalNan_inf (neg : Bool) : CanonicalNan f (f.signed neg f.infCode) :=
  canonicalNan_signed hf neg ⟨le_rfl, by rintro rfl; decide⟩

theorem canonicalNan_zero (neg : Bool) : CanonicalNan f (f.zero neg) := by
  unfold Fmt.zero
  split
  next h => subst h; exact canonicalNan_of_not_isNan (by decide)
  next h => exact canonicalNan_signed hf neg ⟨Nat.zero_le _, fun h' => absurd h' h⟩

theorem canonicalNan_roundTo (rm : Rm) (x : Ex) : CanonicalNan f (roundTo f rm x).code := by
  unfold roundTo
  split
  next h =>
    obtain ⟨a, h0, ha, hc⟩ := exists_code_roundT8 rm x
    subst h
    rw [hc]
    exact canonicalNan_signed hf _ ⟨ha, fun _ => h0⟩
  next h =>
    obtain ⟨a, ha, hc⟩ := exists_code_roundBin (narrow_eq_false hf) rm x
    rw [hc]
    exact canonicalNan_signed hf _ ⟨ha, fun h' => absurd h' h⟩

theorem canonicalNan_sumRound (rm : Rm) (negZero : Bool) (l : List FVal) : CanonicalNan f (sumRound f rm negZero l).code := by
  unfold sumRound roundDy
  dsimp only
  split_ifs
  · exact canonicalNan_nan f
  · exact canonicalNan_nan f
  · exact canonicalNan_inf hf false
  · exact canonicalNan_inf hf true
  · exact canonicalNan_zero hf negZero
  · exact canonicalNan_roundTo hf rm _

theorem canonicalNan_fMul (rm : Rm) (a b : Nat) : CanonicalNan f (fMul f rm a b).code := by
  unfold fMul
  dsimp only
  split
  next => exact canonicalNan_nan f
  split
  next => exact canonicalNan_nan f
  next => exact canonicalNan_inf hf _
  next => split; exacts [canonicalNan_zero hf _, canonicalNan_roundTo hf rm _]
  next => exact canonicalNan_nan f

theorem canonicalNan_fDiv (rm : Rm) (a b : Nat) : CanonicalNan f (fDiv f rm a b).code := by
  unfold fDiv
  dsimp only
  split
  next => exact canonicalNan_nan f
  split
  next => exact canonicalNan_nan f
  next => exact canonicalNan_inf hf _
  next => exact canonicalNan_zero hf _
  next =>
    split_ifs
    · exact canonicalNan_nan f
    · exact canonicalNan_nan f
    · exact canonicalNan_inf hf _
    · exact canonicalNan_zero hf _
    · exact canonicalNan_roundTo hf rm _
  next => exact canonicalNan_nan f

theorem canonicalNan_fSqrt (rm : Rm) (a : Nat) : CanonicalNan f (fSqrt f rm a).code := by
  unfold fSqrt
  split
  next => exact canonicalNan_nan f
  next => exact canonicalNan_nan f
  next => split; exacts [canonicalNan_nan f, canonicalNan_inf hf false]
  next =>
    split_ifs
    · exact canonicalNan_zero hf _
    · exact canonicalNan_nan f
    · exact canonicalNan_roundTo hf rm _

theorem canonicalNan_fFma (rm : Rm) (n : Bool) (a b c : Nat) : CanonicalNan f (fFma f rm n a b c).code := by
  unfold fFma
  dsimp only
  split
  next => exact canonicalNan_nan f
  split
  next => exact canonicalNan_nan f
  split
  next => exact canonicalNan_zero hf _
  next => exact canonicalNan_sumRound hf rm _ _

omit hf in
theorem canonicalNan_fMinMax (max : Bool) (a b : Nat) : CanonicalNan f (fMinMax f max a b).code := by
  have hmod {c : Nat} (h : ¬ (unpack f c).isNan = true) : CanonicalNan f (c % 2 ^ f.width) :=
    canonicalNan_of_not_isNan (by rw [unpack_mod, Bool.not_eq_true] at *; exact h)
  unfold fMinMax
  dsimp only
  split
  next => exact canonicalNan_nan f
  next hboth =>
    split
    next ha => exact hmod fun hb => hboth (by rw [ha, hb]; rfl)
    next ha =>
      split
      next => exact hmod ha
      next hb =>
        generalize (_ != max : Bool) = takesFirst
        cases takesFirst
        · exact hmod hb
        · exact hmod ha

omit hf in
/-- FNEG and FABS of a number change its sign (R86). -/
theorem fSign_signed {neg : Bool} {a c : Nat} (abs : Bool) (hc : c % 2 ^ f.width = f.signed neg a) (ha : a < f.signBit) :
    (if abs then c % 2 ^ f.width % f.signBit
      else if f.signBit ≤ c % 2 ^ f.width then c % 2 ^ f.width - f.signBit else c % 2 ^ f.width + f.signBit) = f.signed (!neg && !abs) a := by
  rw [hc]
  cases abs <;> cases neg <;> simp [Fmt.signed, Nat.mod_eq_of_lt ha, ha]

omit hf in
theorem canonicalNan_fSign (abs : Bool) (c : Nat) : CanonicalNan f (fSign f abs c) := by
  obtain ⟨neg, a, ha, hc⟩ := exists_signed f c
  have hflip : (unpack f (c % 2 ^ f.width)).isNan = false → (f = .t8 → a ≠ 0) → CanonicalNan f (f.signed (!neg && !abs) a) := by
    intro hn h0
    rw [hc, unpack_signed neg ha h0, FVal.isNan_withSign] at hn
    refine canonicalNan_of_not_isNan ?_
    rw [unpack_signed _ ha h0, FVal.isNan_withSign, hn]
  unfold fSign
  dsimp only
  rw [fSign_signed abs hc ha]
  split
  next => exact canonicalNan_nan f
  next => exact canonicalNan_nan f
  next hu =>
    split
    next ht => subst ht; exact canonicalNan_of_not_isNan (by decide)
    next ht => exact hflip (by rw [hu]; rfl) fun h => absurd h ht
  next hnan hnar hzero =>
    refine hflip ?_ ?_
    · cases hu : unpack f (c % 2 ^ f.width) with
      | nan s => exact (hnan s hu).elim
      | nar => exact (hnar hu).elim
      | _ => rfl
    · rintro rfl rfl
      rw [hc] at hnar hzero
      cases neg
      · exact hzero false 0 (by decide)
      · exact hnar (by decide)

end

/-! ### Operands that are NaNs -/

/-- A result that is the canonical NaN, with nv where an operand signals (R53, R66). -/
def Rnd.IsNanResult (f : Fmt) (signals : Prop) (r : Rnd) : Prop := r.code = f.nan ∧ (signals → r.flags.getLsbD 0 = true)

theorem nv_bit : Fl.nv.getLsbD 0 = true := by decide

theorem isNanResult_nanResult (f : Fmt) (signals : Bool) : (nanResult f signals).IsNanResult f (signals = true) :=
  ⟨rfl, by rintro rfl; exact nv_bit⟩

theorem isNanResult_invalid (f : Fmt) (signals : Prop) : Rnd.IsNanResult f signals ⟨f.nan, Fl.nv⟩ := ⟨rfl, fun _ => nv_bit⟩

@[simp] theorem FVal.isNan_neg (v : FVal) : v.neg.isNan = v.isNan := by cases v <;> rfl

@[simp] theorem FVal.isSnan_neg (v : FVal) : v.neg.isSnan = v.isSnan := by cases v <;> rfl

section
variable {f : Fmt} (m : Rm)

theorem isNanResult_fAdd {a b : Nat} (h : (unpack f a).isNan = true ∨ (unpack f b).isNan = true) :
    (fAdd f m a b).IsNanResult f ((unpack f a).isSnan = true ∨ (unpack f b).isSnan = true) := by
  simpa [fAdd, sumRound, h] using isNanResult_nanResult f ((unpack f a).isSnan || (unpack f b).isSnan)

theorem isNanResult_fSub {a b : Nat} (h : (unpack f a).isNan = true ∨ (unpack f b).isNan = true) :
    (fSub f m a b).IsNanResult f ((unpack f a).isSnan = true ∨ (unpack f b).isSnan = true) := by
  simpa [fSub, sumRound, h] using isNanResult_nanResult f ((unpack f a).isSnan || (unpack f b).isSnan)

theorem isNanResult_fMul {a b : Nat} (h : (unpack f a).isNan = true ∨ (unpack f b).isNan = true) :
    (fMul f m a b).IsNanResult f ((unpack f a).isSnan = true ∨ (unpack f b).isSnan = true) := by
  simpa [fMul, h] using isNanResult_nanResult f ((unpack f a).isSnan || (unpack f b).isSnan)

theorem isNanResult_fDiv {a b : Nat} (h : (unpack f a).isNan = true ∨ (unpack f b).isNan = true) :
    (fDiv f m a b).IsNanResult f ((unpack f a).isSnan = true ∨ (unpack f b).isSnan = true) := by
  simpa [fDiv, h] using isNanResult_nanResult f ((unpack f a).isSnan || (unpack f b).isSnan)

theorem isNanResult_fSqrt {a : Nat} (h : (unpack f a).isNan = true) : (fSqrt f m a).IsNanResult f ((unpack f a).isSnan = true) := by
  unfold fSqrt
  cases hu : unpack f a with
  | nan s => exact isNanResult_nanResult f s
  | nar => exact ⟨rfl, fun hs => by cases hs⟩
  | inf n => rw [hu] at h; cases h
  | fin n k e => rw [hu] at h; cases h

/-- The invalid product of zero and infinity is a NaN before the third operand is looked at (R87). -/
theorem isNanResult_fFma (n : Bool) {a b c : Nat} (h : (unpack f a).isNan = true ∨ (unpack f b).isNan = true ∨ (unpack f c).isNan = true) :
    (fFma f m n a b c).IsNanResult f ((unpack f a).isSnan = true ∨ (unpack f b).isSnan = true ∨ (unpack f c).isSnan = true) := by
  unfold fFma
  dsimp only
  split
  next => exact isNanResult_invalid ..
  next => simpa [h, or_assoc] using isNanResult_nanResult f ((unpack f a).isSnan || (unpack f b).isSnan || (unpack f c).isSnan)

theorem fSign_of_isNan (abs : Bool) {a : Nat} (h : (unpack f a).isNan = true) : fSign f abs a = f.nan := by
  rw [← unpack_mod] at h
  unfold fSign
  dsimp only
  cases hu : unpack f (a % 2 ^ f.width) with
  | nan s => rfl
  | nar => rfl
  | inf n => rw [hu] at h; cases h
  | fin n k e => rw [hu] at h; cases h

end

theorem FpType.fmt_ieee_or_t8 (t : FpType) : (FpType.fmt t).ieee = true ∨ FpType.fmt t = .t8 := by cases t <;> decide

/-- Settles O5: every result is the canonical NaN or the code of a number, and an operation that sees a NaN answers the canonical one. -/
theorem nanRules : Obligations.NanRules := by
  refine ⟨fun t m n a b c => ?_, fun t m n a b c => ⟨fun h => ?_, fun h => ?_, isNanResult_fFma m n⟩⟩
  · have hf := FpType.fmt_ieee_or_t8 t
    simp only [List.forall_mem_cons, List.not_mem_nil, false_imp_iff, implies_true, and_true]
    exact ⟨canonicalNan_sumRound hf m _ _, canonicalNan_sumRound hf m _ _, canonicalNan_fMul hf m a b, canonicalNan_fDiv hf m a b,
      canonicalNan_fSqrt hf m a, canonicalNan_fFma hf m n a b c, canonicalNan_fMinMax n a b, canonicalNan_fSign n a⟩
  · simp only [List.forall_mem_cons, List.not_mem_nil, false_imp_iff, implies_true, and_true]
    exact ⟨isNanResult_fAdd m h, isNanResult_fSub m h, isNanResult_fMul m h, isNanResult_fDiv m h⟩
  · obtain ⟨hcode, hflags⟩ := isNanResult_fSqrt m h
    exact ⟨hcode, hflags, fSign_of_isNan n h⟩

end Sys2Proof.Machine
end

section
/-! Rounding to a format delivers the neighbour that the mode names (R64 to R66). -/

namespace Sys2Proof.Machine

/-! ### Neighbouring codes of a binary format -/

namespace Fmt.IsCode

variable {f : Fmt} {c c' m m' : Nat} {e e' : Int}

theorem exponent_mono (h : f.IsCode c m e) (h' : f.IsCode c' m' e') (hc : c ≤ c') : e ≤ e' := by
  by_contra hlt
  have hn : 2 ^ f.frac ≤ m := h.normal.resolve_left (by have := h'.qmin_le; omega)
  have hk : (e' - f.qmin).toNat + 1 ≤ (e - f.qmin).toNat := by have := h'.qmin_le; omega
  have hmul := Nat.mul_le_mul_right (2 ^ f.frac) hk
  have hm' := h'.lt
  rw [h.code, h'.code] at hc
  rw [pow_succ] at hm'
  rw [Nat.succ_mul] at hmul
  omega

/-- The next code stands for the next multiple of the quantum; at a power of two its own quantum is twice as large. -/
theorem succ (h : f.IsCode c m e) (h' : f.IsCode (c + 1) m' e') : e ≤ e' ∧ m' * 2 ^ (e' - e).toNat = m + 1 := by
  have he := h.exponent_mono h' (Nat.le_succ c)
  refine ⟨he, ?_⟩
  have hcode := h.code ▸ h'.code
  obtain rfl | hlt := he.eq_or_lt
  · simpa using (Nat.add_left_cancel (hcode.symm.trans (Nat.add_assoc ..)))
  · have hn : 2 ^ f.frac ≤ m' := h'.normal.resolve_left (by have := h.qmin_le; omega)
    have hm := h.lt
    obtain ⟨j, hj⟩ : ∃ j : Nat, e' = e + 1 + j := ⟨(e' - e - 1).toNat, by omega⟩
    have hk : (e' - f.qmin).toNat = (e - f.qmin).toNat + 1 + j := by have := h.qmin_le; omega
    rw [hk, Nat.add_mul, Nat.succ_mul] at hcode
    rw [pow_succ] at hm
    have hj0 : j = 0 := by
      by_contra hj0
      have := Nat.le_mul_of_pos_left (2 ^ f.frac) (Nat.pos_of_ne_zero hj0)
      omega
    subst hj0
    rw [show (e' - e).toNat = 1 by omega]
    omega

/-- Greater codes stand for greater magnitudes. -/
theorem succ_magnitude_le (h : f.IsCode c m e) (h' : f.IsCode c' m' e') (hc : c < c') : magnitude (m + 1) e ≤ magnitude m' e' := by
  obtain rfl | hlt := (h.exponent_mono h' hc.le).eq_or_lt
  · rw [h.code, h'.code] at hc
    rw [magnitude_le_magnitude]
    omega
  · have hn : 2 ^ f.frac ≤ m' := h'.normal.resolve_left (by have := h.qmin_le; omega)
    calc magnitude (m + 1) e ≤ magnitude (2 ^ (f.frac + 1)) e := magnitude_le_magnitude.mpr h.lt
      _ ≤ magnitude (2 ^ f.frac) e' := two_pow_magnitude_le.mpr (by push_cast; omega)
      _ ≤ magnitude m' e' := magnitude_le_magnitude.mpr hn

theorem magnitude_le (h : f.IsCode c m e) (h' : f.IsCode c' m' e') (hc : c ≤ c') : magnitude m e ≤ magnitude m' e' := by
  obtain rfl | hlt := hc.eq_or_lt
  · obtain rfl := le_antisymm (h.exponent_mono h' le_rfl) (h'.exponent_mono h le_rfl)
    rw [magnitude_le_magnitude]
    have := h.code ▸ h'.code
    omega
  · exact (magnitude_le_magnitude.mpr (Nat.le_succ m)).trans (h.succ_magnitude_le h' hlt)

theorem mod_two (h : f.IsCode c m e) : c % 2 = m % 2 := by
  have h2 : 2 ^ f.frac % 2 = 0 := by cases f <;> rfl
  rw [h.code, Nat.add_mod, Nat.mul_mod, h2]
  simp

end Fmt.IsCode

/-! ### The quantum that a magnitude is rounded at -/

section
variable {f : Fmt} {x : Ex} (hx : x.m ≠ 0)
include hx

theorem Ex.floor_lt_two_pow {j : Nat} {d : Int} : x.floor < magnitude (2 ^ j) d ↔ x.e + (bitLen x.m : Int) ≤ d + j := by
  have hlen : bitLen x.m = x.m.log2 + 1 := if_neg hx
  constructor
  · intro h
    have hlow : magnitude (2 ^ x.m.log2) x.e ≤ x.floor := magnitude_le_magnitude.mpr (Nat.log2_self_le hx)
    have := two_pow_magnitude_lt.mp (hlow.trans_lt h)
    omega
  · intro h
    have hhigh : x.floor < magnitude (2 ^ (x.m.log2 + 1)) x.e := magnitude_lt_magnitude.mpr Nat.lt_log2_self
    exact hhigh.trans_le (two_pow_magnitude_le.mpr (by push_cast; omega))

theorem unbounded_le {d : Int} : f.unbounded x ≤ d ↔ x.floor < magnitude (2 ^ (f.frac + 1)) d := by
  rw [Ex.floor_lt_two_pow hx, Fmt.unbounded]
  omega

theorem le_unbounded {d : Int} : d ≤ f.unbounded x ↔ magnitude (2 ^ f.frac) d ≤ x.floor := by
  refine Iff.trans ?_ not_lt
  rw [Ex.floor_lt_two_pow hx, Fmt.unbounded]
  omega

theorem quantum_of_between {c m : Nat} {e : Int} (h : f.IsCode c m e) (hb : x.Between m e) : f.quantum x = e := by
  have hle : f.unbounded x ≤ e := (unbounded_le hx).mpr (hb.lt.trans_le (magnitude_le_magnitude.mpr h.lt))
  have hq := h.qmin_le
  unfold Fmt.quantum
  obtain rfl | hn := h.normal
  · split <;> omega
  · have := (le_unbounded (f := f) hx).mpr ((magnitude_le_magnitude.mpr hn).trans hb.le)
    split <;> omega

/-- Between two neighbours the rounded code is that of one of them. -/
theorem roundedCode_of_between (rm : Rm) {c m : Nat} {e : Int} (h : f.IsCode c m e) (hb : x.Between m e) :
    f.roundedCode rm x = if cmpMag x m e = .eq then c
      else if roundsAway rm x.neg (c % 2 = 1) (cmpMag x (2 * m + 1) (e - 1)) then c + 1 else c := by
  rw [Fmt.roundedCode, quantum_of_between hx h hb, quantise_of_between hb, h.mod_two]
  have := h.code
  split_ifs <;> omega

theorem inexact_of_between (rm : Rm) {c m : Nat} {e : Int} (h : f.IsCode c m e) (hb : x.Between m e) :
    (quantise rm x (f.quantum x)).2 = decide (cmpMag x m e ≠ .eq) := by
  rw [quantum_of_between hx h hb, quantise_of_between hb]
  split <;> simp [*]

/-- A magnitude not below the next multiple after a normal number rounds to a greater code. -/
theorem lt_roundedCode (rm : Rm) {c m : Nat} {e : Int} (h : f.IsCode c m e) (hn : 2 ^ f.frac ≤ m) (hle : magnitude (m + 1) e ≤ x.floor) :
    c < f.roundedCode rm x := by
  have hq := h.qmin_le
  have he : e ≤ f.unbounded x := (le_unbounded hx).mpr ((magnitude_le_magnitude.mpr (by omega)).trans hle)
  have hquantum : f.quantum x = f.unbounded x := if_neg (by omega)
  rw [Fmt.roundedCode, hquantum, h.code]
  obtain heq | hlt := he.eq_or_lt
  · have := le_quantise (rm := rm) hle
    rw [← heq]
    omega
  · have hlow : 2 ^ f.frac ≤ (quantise rm x (f.unbounded x)).1 := le_quantise ((le_unbounded hx).mp le_rfl)
    have hk : (e - f.qmin).toNat + 1 ≤ (f.unbounded x - f.qmin).toNat := by omega
    have hmul := Nat.mul_le_mul_right (2 ^ f.frac) hk
    have hm := h.lt
    rw [pow_succ] at hm
    rw [Nat.succ_mul] at hmul
    omega

theorem tiny_eq_false (rm : Rm) (hn : magnitude (2 ^ f.frac) f.qmin ≤ x.floor) : f.tiny rm x = false := by
  have hlow : 2 ^ f.frac ≤ (quantise rm x (f.unbounded x)).1 := le_quantise ((le_unbounded hx).mp le_rfl)
  refine decide_eq_false (cmpMag_ne_lt.mpr ?_)
  calc magnitude (2 ^ f.frac) f.qmin ≤ magnitude (2 ^ f.frac) (f.unbounded x) :=
      two_pow_magnitude_le.mpr (by have := (le_unbounded hx).mpr hn; omega)
    _ ≤ _ := magnitude_le_magnitude.mpr hlow

end

/-! ### Rounding to a binary format (R64 to R66) -/

theorem Fmt.overflows_narrow {f : Fmt} (h : f.narrow = true) {m : Nat} {e : Int} (hu : unpack f f.maxCode = .fin false m e) (rm : Rm) (x : Ex) :
    f.overflows rm x = decide (cmpMag x m e = .gt) := by
  simp [Fmt.overflows, h, hu]

theorem maxCode_normal {f : Fmt} (hf : f ≠ .t8) {m : Nat} {e : Int} (h : f.IsCode f.maxCode m e) : 2 ^ f.frac ≤ m := by
  refine h.normal.resolve_left ?_
  rintro rfl
  have hcode := h.code
  have hlt := h.lt
  have hmax : 2 ^ (f.frac + 1) ≤ f.maxCode := by
    revert hf
    cases f <;> decide
  simp at hcode
  omega

theorem toInf_eq {rm : Rm} (h : rm.toNat ≤ 4) (f : Fmt) (neg : Bool) :
    f.toInf rm neg = (f.ieee && (rm = 0 || rm = 4 || (rm = 2 && neg) || (rm = 3 && !neg))) := by
  have hmode : ∀ (rm : Rm) (neg : Bool), rm.toNat ≤ 4 →
      (rm.toNat = 0 || 4 ≤ rm.toNat || (rm.toNat = 2 && neg) || (rm.toNat = 3 && !neg) : Bool) =
      (rm = 0 || rm = 4 || (rm = 2 && neg) || (rm = 3 && !neg)) := by decide
  rw [Fmt.toInf, hmode rm neg h]

section
variable {f : Fmt} (hf : f ≠ .t8) {x : Ex} (hx : x.m ≠ 0) (rm : Rm) {c m : Nat} {e : Int}
include hf hx

omit hx in
/-- A magnitude not above the greatest one, whose rounded code is not above the greatest one, does not overflow. -/
theorem overflows_eq_false (hcode : f.roundedCode rm x ≤ f.maxCode)
    (hmax : ∀ m e, f.IsCode f.maxCode m e → cmpMag x m e ≠ .gt) : f.overflows rm x = false := by
  obtain ⟨m, e, hu, h⟩ := unpack_of_le_maxCode hf (le_refl f.maxCode)
  cases hn : f.narrow
  · rw [Fmt.overflows_wide hn]
    exact decide_eq_false (not_lt.mpr hcode)
  · rw [Fmt.overflows_narrow hn hu]
    exact decide_eq_false (hmax m e h)

theorem roundBin_of_eq (h : f.IsCode c m e) (hc : c ≤ f.maxCode) (heq : cmpMag x m e = .eq) : roundBin f rm x = ⟨f.signed x.neg c, 0⟩ := by
  obtain ⟨hfloor, hsticky⟩ := cmpMag_eq_eq.mp heq
  have hb : x.Between m e := ⟨hfloor.ge, by rw [hfloor, magnitude_lt_magnitude]; exact Nat.lt_succ_self m⟩
  have hcode : f.roundedCode rm x = c := by rw [roundedCode_of_between hx rm h hb, if_pos heq]
  have hinexact : (quantise rm x (f.quantum x)).2 = false := by rw [inexact_of_between hx rm h hb, heq]; rfl
  have hover : f.overflows rm x = false := by
    refine overflows_eq_false hf rm (hcode.trans_le hc) fun M E hM => ?_
    have hle := h.magnitude_le hM hc
    rw [cmpMag_eq, hfloor, hsticky, if_neg hle.not_gt]
    split <;> simp
  rw [roundBin_eq, hover, hcode, hinexact]
  simp

theorem roundBin_of_between (h : f.IsCode c m e) (hc : c < f.maxCode) (hgt : cmpMag x m e = .gt) (hlt : x.floor < magnitude (m + 1) e) :
    roundBin f rm x = ⟨f.signed x.neg (if roundsAway rm x.neg (c % 2 = 1) (cmpMag x (2 * m + 1) (e - 1)) then c + 1 else c),
      Fl.nx ||| if f.tiny rm x then Fl.uf else 0⟩ := by
  have hb : x.Between m e := ⟨cmpMag_ne_lt.mp (by simp [hgt]), hlt⟩
  have hcode := roundedCode_of_between hx rm h hb
  have hinexact := inexact_of_between hx rm h hb
  simp only [hgt, reduceCtorEq, if_false, ne_eq, not_false_eq_true, decide_true] at hcode hinexact
  have hover : f.overflows rm x = false := by
    refine overflows_eq_false hf rm (by rw [hcode]; split <;> omega) fun M E hM => ?_
    rw [cmpMag_eq_lt.mpr (hlt.trans_le (h.succ_magnitude_le hM hc))]
    simp
  rw [roundBin_eq, hover, hinexact, ← hcode]
  simp

theorem overflows_of_gt (h : f.IsCode f.maxCode m e) (hu : unpack f f.maxCode = .fin false m e) (hgt : cmpMag x m e = .gt) :
    f.overflows rm x = (f.narrow || cmpMag x (m + 1) e ≠ .lt || roundsAway rm x.neg (f.maxCode % 2 = 1) (cmpMag x (2 * m + 1) (e - 1))) := by
  cases hn : f.narrow
  · rw [Fmt.overflows_wide hn]
    by_cases hle : cmpMag x (m + 1) e = .lt
    · rw [roundedCode_of_between hx rm h ⟨cmpMag_ne_lt.mp (by simp [hgt]), cmpMag_eq_lt.mp hle⟩, hgt, hle]
      cases roundsAway rm x.neg (f.maxCode % 2 = 1) (cmpMag x (2 * m + 1) (e - 1)) <;> simp
    · simpa [hle] using lt_roundedCode hx rm h (maxCode_normal hf h) (cmpMag_ne_lt.mp hle)
  · rw [Fmt.overflows_narrow hn hu, hgt]
    rfl

theorem roundBin_of_gt (h : f.IsCode f.maxCode m e) (hu : unpack f f.maxCode = .fin false m e) (hgt : cmpMag x m e = .gt) :
    roundBin f rm x = if f.overflows rm x then ⟨f.signed x.neg (if f.toInf rm x.neg then f.infCode else f.maxCode), Fl.of ||| Fl.nx⟩
      else ⟨f.signed x.neg f.maxCode, Fl.nx⟩ := by
  cases hover : f.overflows rm x
  case true => rw [roundBin_eq, hover, if_pos rfl, if_pos rfl]
  have hbounded := (overflows_of_gt hf hx rm h hu hgt).symm.trans hover
  simp only [Bool.or_eq_false_iff, decide_eq_false_iff_not, not_not] at hbounded
  obtain ⟨⟨-, hlt⟩, hdown⟩ := hbounded
  have hb : x.Between m e := ⟨cmpMag_ne_lt.mp (by simp [hgt]), cmpMag_eq_lt.mp hlt⟩
  have htiny : f.tiny rm x = false := tiny_eq_false hx rm <|
    calc magnitude (2 ^ f.frac) f.qmin ≤ magnitude (2 ^ f.frac) e := two_pow_magnitude_le.mpr (by have := h.qmin_le; omega)
      _ ≤ magnitude m e := magnitude_le_magnitude.mpr (maxCode_normal hf h)
      _ ≤ x.floor := hb.le
  rw [roundBin_eq, hover, htiny, roundedCode_of_between hx rm h hb, inexact_of_between hx rm h hb, hgt, hdown]
  simp

end

theorem delivers_roundBin {f : Fmt} (hf : f ≠ .t8) {rm : Rm} (hrm : rm.toNat ≤ 4) {x : Ex} (hx : x.m ≠ 0) :
    Delivers f rm x (roundBin f rm x) := by
  intro c m e hc hu
  dsimp only
  obtain ⟨m₀, e₀, hu₀, h⟩ := unpack_of_le_maxCode hf hc
  obtain ⟨-, rfl, rfl⟩ := FVal.fin.inj (hu₀.symm.trans hu)
  refine ⟨roundBin_of_eq hf hx rm h hc, fun m' e' hc' hu' hgt hlt _ => ?_, fun ht => absurd ht hf, ?_⟩
  · obtain ⟨m₁, e₁, hu₁, h'⟩ := unpack_of_le_maxCode hf (Nat.succ_le_of_lt hc')
    obtain ⟨-, rfl, rfl⟩ := FVal.fin.inj (hu₁.symm.trans hu')
    obtain ⟨hle, hnext⟩ := h.succ h'
    have hval : magnitude m₁ e₁ = magnitude (m₀ + 1) e₀ := by rw [magnitude_rescale m₁ hle, hnext]
    have hmiddle : m₀ + (m₀ + 1) = 2 * m₀ + 1 := by omega
    rw [roundBin_of_between hf hx rm h hc' hgt (hval ▸ cmpMag_eq_lt.mp hlt)]
    simp [hf, Fmt.tiny, Fmt.unbounded, hle, hnext, hmiddle]
  · rintro rfl hgt
    rw [roundBin_of_gt hf hx rm h hu hgt, overflows_of_gt hf hx rm h hu hgt, toInf_eq hrm]
    simp [hf, Fmt.narrow]

end Sys2Proof.Machine
end

section
/-! Rounding to T8 delivers the neighbour that the mode names (R55, R56, R64, R65). -/

namespace Sys2Proof.Machine

/-- The magnitude of a T8 code from 1 to 127 (R55). -/
def t8Magnitude (c : Nat) : ℚ := magnitude (t8Mag c).1 (t8Mag c).2

theorem t8Magnitude_lt_succ {c : Nat} (h0 : 1 ≤ c) (h : c < 127) : t8Magnitude c < t8Magnitude (c + 1) := by
  have hscaled : ∀ c < 127, 1 ≤ c → -12 ≤ (t8Mag c).2 ∧ -12 ≤ (t8Mag (c + 1)).2 ∧
      (t8Mag c).1 * 2 ^ ((t8Mag c).2 - -12).toNat < (t8Mag (c + 1)).1 * 2 ^ ((t8Mag (c + 1)).2 - -12).toNat := by decide +kernel
  obtain ⟨hc, hc', hlt⟩ := hscaled c h h0
  rwa [t8Magnitude, t8Magnitude, magnitude_rescale _ hc, magnitude_rescale _ hc', magnitude_lt_magnitude]

/-- Codes rise with the magnitudes they stand for (R56). -/
theorem t8Magnitude_mono {a b : Nat} (h0 : 1 ≤ a) (hab : a ≤ b) (hb : b ≤ 127) : t8Magnitude a ≤ t8Magnitude b := by
  induction b, hab using Nat.le_induction with
  | base => exact le_rfl
  | succ b hab ih => exact (ih (by omega)).trans (t8Magnitude_lt_succ (by omega) (by omega)).le

/-- The middle of two T8 magnitudes, at the smaller of their exponents. -/
theorem t8Mid_eq (a b : Nat) : let lo := min (t8Mag a).2 (t8Mag b).2
    t8Mid a b = ((t8Mag a).1 * 2 ^ ((t8Mag a).2 - lo).toNat + (t8Mag b).1 * 2 ^ ((t8Mag b).2 - lo).toNat, lo - 1) := rfl

theorem t8Floor_eq {x : Ex} {b n : Nat} (hb : b ≤ n) (hlow : b ≠ 0 → t8Magnitude b ≤ x.floor)
    (hhigh : ∀ j, b < j → j ≤ n → x.floor < t8Magnitude j) : t8Floor x n = b := by
  induction n with
  | zero => exact (Nat.le_zero.mp hb).symm
  | succ n ih =>
    rw [t8Floor_succ]
    obtain rfl | hlt := hb.eq_or_lt
    · exact if_neg (cmpMag_ne_lt.mpr (hlow (Nat.succ_ne_zero n)))
    · rw [if_pos (cmpMag_eq_lt.mpr (hhigh _ hlt le_rfl))]
      exact ih (Nat.lt_succ_iff.mp hlt) fun j hj hn => hhigh j hj (Nat.le_succ_of_le hn)

section
variable {x : Ex} {c : Nat}

/-- The lower neighbour of a magnitude from the least to the greatest one. -/
theorem t8Floor_of_between (h0 : 1 ≤ c) (hc : c ≤ 127) (hle : t8Magnitude c ≤ x.floor) (hlt : c < 127 → x.floor < t8Magnitude (c + 1)) :
    t8Floor x 127 = c :=
  t8Floor_eq hc (fun _ => hle) fun _ hj hn => (hlt (hj.trans_le hn)).trans_le (t8Magnitude_mono (by omega) hj hn)

theorem roundT8_of_eq (rm : Rm) (h0 : 1 ≤ c) (hc : c ≤ 127) (heq : cmpMag x (t8Mag c).1 (t8Mag c).2 = .eq) :
    roundT8 rm x = ⟨Fmt.t8.signed x.neg c, 0⟩ := by
  have hfloor : x.floor = t8Magnitude c := (cmpMag_eq_eq.mp heq).1
  have hb : t8Floor x 127 = c := t8Floor_of_between h0 hc hfloor.ge fun h => hfloor.trans_lt (t8Magnitude_lt_succ h0 h)
  simp only [roundT8, hb, heq, if_true, if_neg (Nat.ne_of_gt h0)]

theorem roundT8_of_between (rm : Rm) (h0 : 1 ≤ c) (hc : c < 127) (hgt : cmpMag x (t8Mag c).1 (t8Mag c).2 = .gt)
    (hlt : cmpMag x (t8Mag (c + 1)).1 (t8Mag (c + 1)).2 = .lt) :
    roundT8 rm x = ⟨Fmt.t8.signed x.neg
      (if roundsAway rm x.neg (c % 2 = 1) (cmpMag x (t8Mid c (c + 1)).1 (t8Mid c (c + 1)).2) then c + 1 else c), Fl.nx⟩ := by
  have hb : t8Floor x 127 = c := t8Floor_of_between h0 hc.le (cmpMag_ne_lt.mp (by simp [hgt])) fun _ => cmpMag_eq_lt.mp hlt
  simp only [roundT8, hb, hgt, reduceCtorEq, if_false, if_neg (Nat.ne_of_gt h0), if_neg hc.ne, roundUp_some]

theorem roundT8_of_lt (rm : Rm) (hlt : cmpMag x (t8Mag 1).1 (t8Mag 1).2 = .lt) : roundT8 rm x = ⟨Fmt.t8.signed x.neg 1, Fl.uf ||| Fl.nx⟩ := by
  have hb : t8Floor x 127 = 0 := t8Floor_eq (Nat.zero_le _) (fun h => absurd rfl h) fun j hj hn =>
    (cmpMag_eq_lt.mp hlt).trans_le (t8Magnitude_mono le_rfl hj hn)
  simp only [roundT8, hb, if_true]

theorem roundT8_of_gt (rm : Rm) (hgt : cmpMag x (t8Mag 127).1 (t8Mag 127).2 = .gt) :
    roundT8 rm x = ⟨Fmt.t8.signed x.neg 127, Fl.of ||| Fl.nx⟩ := by
  have hb : t8Floor x 127 = 127 := t8Floor_of_between (by omega) le_rfl (cmpMag_ne_lt.mp (by simp [hgt])) fun h => absurd h (lt_irrefl _)
  simp [roundT8, hb, hgt]

end

theorem delivers_roundT8 (rm : Rm) {x : Ex} (hx : x.m ≠ 0) : Delivers .t8 rm x (roundT8 rm x) := by
  intro c m e hc hu
  dsimp only
  obtain rfl | h0 := Nat.eq_zero_or_pos c
  · obtain ⟨-, rfl, rfl⟩ := FVal.fin.inj hu
    refine ⟨fun heq => ?_, fun _ _ _ _ _ _ h => absurd rfl (h rfl), fun _ h => absurd h (by decide), fun h => absurd h (by decide)⟩
    have hpos : 0 < x.floor := by rw [Ex.floor, magnitude]; positivity
    exact absurd (cmpMag_eq_eq.mp heq).1 (by simpa [magnitude] using hpos.ne')
  · obtain ⟨-, rfl, rfl⟩ := FVal.fin.inj ((unpack_t8 h0.ne' hc).symm.trans hu)
    refine ⟨roundT8_of_eq rm h0 hc, fun m' e' hc' hu' hgt hlt _ => ?_, fun _ h => ?_, fun h => ?_⟩
    · obtain ⟨-, rfl, rfl⟩ := FVal.fin.inj ((unpack_t8 (Nat.succ_ne_zero c) hc').symm.trans hu')
      rw [roundT8_of_between rm h0 hc' hgt hlt, t8Mid_eq]
      simp
    · subst h
      exact roundT8_of_lt rm
    · subst h
      intro hgt
      rw [roundT8_of_gt rm hgt]
      simp [Fmt.ieee, Fmt.maxCode]

/-- Rounding delivers what R64 to R66 say, in every format. -/
theorem delivers_roundTo (f : Fmt) {rm : Rm} (hrm : rm.toNat ≤ 4) {x : Ex} (hx : x.m ≠ 0) : Delivers f rm x (roundTo f rm x) := by
  unfold roundTo
  split
  next h => subst h; exact delivers_roundT8 rm hx
  next h => exact delivers_roundBin h hrm hx

end Sys2Proof.Machine
end

section
/-! The exact results that the arithmetic rounds: sums and products at a common exponent, quotients and roots by their leading bits (R64, R86,
R87). -/

namespace Sys2Proof.Machine

/-! ### Integers at a common exponent -/

/-- A signed magnitude as an integer, e binary places further down. -/
def signedInt (neg : Bool) (p : Nat) (e : Int) : Int := if neg then -(p * 2 ^ e.toNat : Int) else p * 2 ^ e.toNat

theorem signedInt_not (neg : Bool) (p : Nat) (e : Int) : signedInt (!neg) p e = -signedInt neg p e := by
  cases neg <;> simp [signedInt]

@[simp] theorem signedInt_zero (neg : Bool) (e : Int) : signedInt neg 0 e = 0 := by
  cases neg <;> simp [signedInt]

/-- The integer that a dyadic number is a multiple 2^e of. -/
def Dy.int (x : Dy) (e : Int) : Int := x.m * 2 ^ (x.e - e).toNat

theorem Dy.int_dyOf (neg : Bool) (m : Nat) (a e : Int) : (dyOf neg m a).int e = signedInt neg m (a - e) := by
  cases neg <;> simp [Dy.int, dyOf, signedInt]

theorem Dy.add_e (x y : Dy) : (x.add y).e = min x.e y.e := rfl

theorem Dy.int_add (x y : Dy) {e : Int} (hx : e ≤ x.e) (hy : e ≤ y.e) : (x.add y).int e = x.int e + y.int e := by
  have hshift : ∀ (m a lo : Int), e ≤ lo → lo ≤ a → m * 2 ^ (a - lo).toNat * 2 ^ (lo - e).toNat = m * 2 ^ (a - e).toNat := by
    intro m a lo h1 h2
    rw [mul_assoc, ← pow_add, show (a - lo).toNat + (lo - e).toNat = (a - e).toNat by omega]
  have hlo : e ≤ min x.e y.e := le_min hx hy
  change (x.m * 2 ^ (x.e - min x.e y.e).toNat + y.m * 2 ^ (y.e - min x.e y.e).toNat) * 2 ^ (min x.e y.e - e).toNat = _
  rw [add_mul, hshift _ _ _ hlo (min_le_left ..), hshift _ _ _ hlo (min_le_right ..)]
  rfl

theorem Dy.eq_int (x : Dy) : x = ⟨x.int x.e, x.e⟩ := by simp [Dy.int]

/-! ### Sums (R86, R87) -/

theorem sumRound_fin (f : Fmt) (rm : Rm) (z na nb : Bool) (ma mb : Nat) (ea eb : Int) : let e := min 0 (min ea eb)
    sumRound f rm z [.fin na ma ea, .fin nb mb eb] = roundDy f rm z ⟨signedInt na ma (ea - e) + signedInt nb mb (eb - e), e⟩ := by
  intro e
  have hsum : (Dy.add ⟨0, 0⟩ (dyOf na ma ea)).add (dyOf nb mb eb) = ⟨signedInt na ma (ea - e) + signedInt nb mb (eb - e), e⟩ := by
    have he : ((Dy.add ⟨0, 0⟩ (dyOf na ma ea)).add (dyOf nb mb eb)).e = e := min_assoc ..
    rw [Dy.eq_int (Dy.add ..), he, Dy.int_add, Dy.int_add, Dy.int_dyOf, Dy.int_dyOf]
    · simp [Dy.int]
    all_goals simp only [Dy.add_e, dyOf, e]; omega
  simp [sumRound, FVal.isNan, hsum]

theorem roundDy_signedInt (f : Fmt) (rm : Rm) (z n : Bool) (m : Nat) (e : Int) :
    roundDy f rm z ⟨signedInt n m 0, e⟩ = if m = 0 then ⟨f.zero z, 0⟩ else roundTo f rm ⟨n, m, e, false⟩ := by
  have habs : (signedInt n m 0).natAbs = m := by cases n <;> simp [signedInt]
  have hzero : signedInt n m 0 = 0 ↔ m = 0 := by rw [← Int.natAbs_eq_zero, habs]
  have hneg : m ≠ 0 → decide (signedInt n m 0 < 0) = n := fun hm => by cases n <;> simp [signedInt, Nat.pos_of_ne_zero hm]
  by_cases hm : m = 0
  · rw [roundDy, if_pos (hzero.mpr hm), if_pos hm]
  · rw [roundDy, if_neg (hm ∘ hzero.mp), if_neg hm, habs, hneg hm]

theorem isNegZero_fin (n : Bool) (m : Nat) (e : Int) : (FVal.fin n m e).isNegZero = (n && decide (m = 0)) := by
  cases n <;> cases m <;> rfl

theorem toNat_eq_two (rm : Rm) : decide (rm.toNat = 2) = decide (rm = 2) := by
  revert rm
  decide

/-- The sign of the zero sum of two numbers (R64). -/
theorem zeroSign_fin (rm : Rm) (na nb : Bool) (ma mb : Nat) (ea eb : Int) :
    zeroSign rm ((FVal.fin na ma ea).isNegZero && (FVal.fin nb mb eb).isNegZero) = ((ma = 0 && mb = 0 && na && nb) || rm = 2) := by
  rw [zeroSign, isNegZero_fin, isNegZero_fin, toNat_eq_two]
  grind

section
variable {f : Fmt} (rm : Rm) {a b c : Nat} {na nb nc : Bool} {ma mb mc : Nat} {ea eb ec : Int}
  (ha : unpack f a = .fin na ma ea) (hb : unpack f b = .fin nb mb eb) (hc : unpack f c = .fin nc mc ec)
include ha hb

theorem fAdd_fin : let e := min 0 (min ea eb)
    fAdd f rm a b = roundDy f rm ((ma = 0 && mb = 0 && na && nb) || rm = 2) ⟨signedInt na ma (ea - e) + signedInt nb mb (eb - e), e⟩ := by
  rw [fAdd, ha, hb, ← zeroSign_fin rm na nb ma mb ea eb]
  exact sumRound_fin ..

theorem fSub_fin : let e := min 0 (min ea eb)
    fSub f rm a b = roundDy f rm ((ma = 0 && mb = 0 && na && !nb) || rm = 2) ⟨signedInt na ma (ea - e) - signedInt nb mb (eb - e), e⟩ := by
  rw [fSub, ha, hb, ← zeroSign_fin rm na (!nb) ma mb ea eb]
  simp only [sub_eq_add_neg, ← signedInt_not]
  exact sumRound_fin ..

/-! ### Products (R86) -/

theorem fMul_fin : fMul f rm a b = roundDy f rm (na != nb) ⟨signedInt (na != nb) (ma * mb) 0, ea + eb⟩ := by
  simp only [fMul, ha, hb, FVal.isNan, Bool.or_false, Bool.false_eq_true, if_false, prod, roundDy_signedInt]

/-! ### Quotients (R57, R86) -/

theorem fDiv_fin : fDiv f rm a b =
    if mb = 0 then if ma = 0 then ⟨f.nan, Fl.nv⟩ else ⟨if f = .t8 then f.nan else f.signed (na != nb) f.infCode, Fl.dz⟩
    else if ma = 0 then ⟨f.zero (na != nb), 0⟩ else roundTo f rm (divEx (na != nb) ma ea mb eb) := by
  simp only [fDiv, ha, hb, FVal.isNan, Bool.or_false, Bool.false_eq_true, if_false]
  split_ifs <;> rfl

/-! ### Fused multiply-add (R87) -/

include hc in
theorem fFma_fin (n : Bool) : let p := (na != nb) != n; let e := min 0 (min (ea + eb) ec)
    fFma f rm n a b c = roundDy f rm (if ma * mb = 0 ∧ mc = 0 ∧ p = nc then p else rm = 2)
      ⟨signedInt p (ma * mb) (ea + eb - e) + signedInt nc mc (ec - e), e⟩ := by
  intro p e
  have hprod : (if n then (FVal.fin (na != nb) (ma * mb) (ea + eb)).neg else .fin (na != nb) (ma * mb) (ea + eb)) = .fin p (ma * mb) (ea + eb) := by
    cases n <;> simp [FVal.neg, p]
  simp only [fFma, ha, hb, hc, prod, FVal.isNan, Bool.or_false, Bool.false_eq_true, if_false, hprod]
  split
  next hp hz =>
    obtain ⟨rfl, hm, rfl⟩ := FVal.fin.inj hp
    obtain ⟨rfl, rfl, rfl⟩ := FVal.fin.inj hz
    simp [roundDy, hm, toNat_eq_two]
  next hne =>
    have hzeros : ¬ (ma * mb = 0 ∧ mc = 0 ∧ p = nc) := fun ⟨hm, hc, _⟩ => hne p (ea + eb) nc ec (by rw [hm]) (by rw [hc])
    rw [if_neg hzeros, sumRound_fin, zeroSign, Bool.false_or, toNat_eq_two]

end

/-! ### The leading bits of quotients and roots -/

theorem lt_two_pow_bitLen (n : Nat) : n < 2 ^ bitLen n := by
  unfold bitLen
  split
  next h => simp [h]
  next h => exact Nat.lt_log2_self

/-- The quotient by its leading bits, and whether anything is left. -/
theorem divEx_spec (neg : Bool) {m n : Nat} (e g : Int) (hm : m ≠ 0) (hn : n ≠ 0) : let x := divEx neg m e n g; ∃ k : Nat,
    x.neg = neg ∧ 2 ^ 32 ≤ x.m ∧ x.e = e - g - k ∧ x.m * n ≤ m * 2 ^ k ∧ m * 2 ^ k < (x.m + 1) * n ∧
      (x.sticky = false ↔ x.m * n = m * 2 ^ k) := by
  have hpos := Nat.pos_of_ne_zero hn
  refine ⟨96 + bitLen n, rfl, ?_, rfl, Nat.div_mul_le_self .., ?_, ?_⟩
  · refine (Nat.le_div_iff_mul_le hpos).mpr ?_
    calc 2 ^ 32 * n ≤ 2 ^ 96 * 2 ^ bitLen n := Nat.mul_le_mul (by norm_num) (lt_two_pow_bitLen n).le
      _ = 2 ^ (96 + bitLen n) := (pow_add ..).symm
      _ ≤ m * 2 ^ (96 + bitLen n) := Nat.le_mul_of_pos_left _ (Nat.pos_of_ne_zero hm)
  · exact Nat.lt_mul_of_div_lt (Nat.lt_succ_self _) hpos
  · change (m * 2 ^ (96 + bitLen n) % n != 0) = false ↔ m * 2 ^ (96 + bitLen n) / n * n = m * 2 ^ (96 + bitLen n)
    rw [← Nat.dvd_iff_div_mul_eq, Nat.dvd_iff_mod_eq_zero, bne_eq_false_iff_eq]

/-- The bits of a root from the top: what is left is below one unit of the last bit tried. -/
theorem isqrt_spec (n b r : Nat) (hle : r * r ≤ n) (hlt : n < (r + 2 ^ b) * (r + 2 ^ b)) :
    isqrt n b r * isqrt n b r ≤ n ∧ n < (isqrt n b r + 1) * (isqrt n b r + 1) := by
  induction b generalizing r with
  | zero => exact ⟨hle, hlt⟩
  | succ b ih =>
    unfold isqrt
    dsimp only
    split
    next ht =>
      refine ih _ ht ?_
      rwa [add_assoc, ← two_mul, ← pow_succ']
    next ht => exact ih _ hle (not_le.mp ht)

theorem sqrtEx_spec {m : Nat} (e : Int) (hm : m ≠ 0) : let x := sqrtEx m e; ∃ k : Nat,
    x.neg = false ∧ 2 ^ 32 ≤ x.m ∧ 2 * x.e = e - k ∧ x.m * x.m ≤ m * 2 ^ k ∧ m * 2 ^ k < (x.m + 1) * (x.m + 1) ∧
      (x.sticky = false ↔ x.m * x.m = m * 2 ^ k) := by
  intro x
  obtain ⟨k, hk, he, hx⟩ : ∃ k : Nat, 200 ≤ k ∧ (e - k) % 2 = 0 ∧
      x = ⟨false, isqrt (m * 2 ^ k) (bitLen (m * 2 ^ k) / 2 + 1) 0, (e - k) / 2,
        isqrt (m * 2 ^ k) (bitLen (m * 2 ^ k) / 2 + 1) 0 * isqrt (m * 2 ^ k) (bitLen (m * 2 ^ k) / 2 + 1) 0 != m * 2 ^ k⟩ :=
    ⟨if (e - 200) % 2 = 0 then 200 else 201, by split <;> omega, by split <;> omega, rfl⟩
  have hroom : m * 2 ^ k < (0 + 2 ^ (bitLen (m * 2 ^ k) / 2 + 1)) * (0 + 2 ^ (bitLen (m * 2 ^ k) / 2 + 1)) := by
    rw [Nat.zero_add, ← pow_add]
    exact (lt_two_pow_bitLen _).trans_le (Nat.pow_le_pow_right (by omega) (by omega))
  obtain ⟨hle, hlt⟩ := isqrt_spec _ _ 0 (Nat.zero_le _) hroom
  generalize isqrt (m * 2 ^ k) (bitLen (m * 2 ^ k) / 2 + 1) 0 = r at hx hle hlt
  rw [hx]
  refine ⟨k, rfl, ?_, by dsimp only; omega, hle, hlt, bne_eq_false_iff_eq⟩
  have hbig : 2 ^ 200 ≤ m * 2 ^ k := (Nat.pow_le_pow_right (by omega) hk).trans (Nat.le_mul_of_pos_left _ (Nat.pos_of_ne_zero hm))
  by_contra hsmall
  have hr : r + 1 ≤ 2 ^ 32 := not_le.mp hsmall
  have hsq := Nat.mul_le_mul hr hr
  omega

end Sys2Proof.Machine
end

section
/-! The scalar floating-point instructions, and what their operations deliver (R64 to R67, R85 to R89). -/

namespace Sys2Proof.Machine

/-! ### The operations -/

theorem fSqrt_fin {f : Fmt} (rm : Rm) {a : Nat} {n : Bool} {m : Nat} {e : Int} (ha : unpack f a = .fin n m e) :
    fSqrt f rm a = if m = 0 then ⟨f.zero n, 0⟩ else if n then ⟨f.nan, Fl.nv⟩ else roundTo f rm (sqrtEx m e) := by
  rw [fSqrt, ha]

theorem convert_fin {m : Nat} (hm : m ≠ 0) (g : Fmt) (rm : Rm) (n : Bool) (e : Int) :
    convert g rm none (.fin n m e) = roundTo g rm ⟨n, m, e, false⟩ := by
  unfold convert
  split <;> simp_all

/-! ### Comparisons (R88) -/

theorem fpCompare_eq (ordered : Bool) (ok : Ordering → Bool) (t : FpType) (d a b : Reg) (s : State) :
    let k := fCmp (FpType.fmt t) ordered (s.rd a).toNat (s.rd b).toNat
    fpCompare ordered ok t d a b s = result 4 d (boolWord (k.1.any ok)) (s.flag k.2) := by
  unfold fpCompare
  obtain ⟨o, fl⟩ := fCmp (FpType.fmt t) ordered (s.rd a).toNat (s.rd b).toNat
  cases o <;> rfl

theorem givesFloat_of_fpCompare {i : Instr} {ordered : Bool} {ok : Ordering → Bool} {t : FpType} {d a b : Reg} {s : State} {P : Prop} [Decidable P]
    (hi : exec i s = fpCompare ordered ok t d a b s) (hP : (fCmp (FpType.fmt t) ordered (s.rd a).toNat (s.rd b).toNat).1.any ok = true ↔ P) :
    GivesFloat i s 4 d ⟨if P then 1 else 0, (fCmp (FpType.fmt t) ordered (s.rd a).toNat (s.rd b).toNat).2⟩ := by
  unfold GivesFloat
  rw [hi, fpCompare_eq]
  by_cases h : P
  · simp [hP.mpr h, h, boolWord, result]
  · simp [mt hP.mp h, h, boolWord, result]

theorem any_eq_iff (o : Option Ordering) (x : Ordering) : o.any (· == x) = true ↔ o = some x := by
  simp [Option.any_eq_true]

theorem any_ne_gt_iff (o : Option Ordering) : o.any (· != .gt) = true ↔ o = some .lt ∨ o = some .eq := by
  obtain _ | _ | _ | _ := o <;> decide

/-! ### Conversions (R67, R70, R89) -/

section
variable {s : State} {tgt src : CvtCode} {d a : Reg}

theorem exec_fcvt_integer (h : CvtCode.fmt? tgt = none) : let k := convertInt s.rm (cvtRange tgt).1 (cvtRange tgt).2 (cvtSource src (s.rd a))
    exec (.fcvt tgt src d a) s = .next (((s.flag k.2).wr d (BitVec.ofInt 64 k.1)).past 4) := by
  change execFcvt tgt src d a s = _
  simp only [execFcvt, h]
  rfl

theorem draws_iff (x : Slot) (g : Fmt) : x.draws g = true ↔ x.fpMode.getLsbD 3 = true ∧ g ≠ .f32 := by
  simp [Slot.draws, Fmt.stochastic]

theorem givesFloat_fcvt {g : Fmt} (h : CvtCode.fmt? tgt = some g) (hdraw : s.me.draws g = false) :
    GivesFloat (.fcvt tgt src d a) s 4 d (convert g s.rm none (cvtSource src (s.rd a))) := by
  change execFcvt tgt src d a s = _
  simp only [execFcvt, h, hdraw]
  rfl

theorem exec_fcvt_stochastic {g : Fmt} (h : CvtCode.fmt? tgt = some g) (hdraw : s.me.draws g = true) :
    let n := xorshift s.me.srState; let k := convert g s.rm (some n) (cvtSource src (s.rd a))
    exec (.fcvt tgt src d a) s = .next ((((s.updMe fun z => { z with srState := n }).flag k.flags).wr d (BitVec.ofNat 64 k.code)).past 4) := by
  change execFcvt tgt src d a s = _
  simp only [execFcvt, h, hdraw]
  rfl

end

/-- Settles O4: each instruction is its operation, and each operation rounds its exact result once. -/
theorem floatResults : Obligations.FloatResults := by
  refine ⟨fun s t d a b c x => ⟨rfl, rfl, rfl, rfl, rfl, rfl, rfl, rfl, rfl, rfl, rfl, rfl, rfl, rfl, rfl, rfl, rfl, rfl,
    givesFloat_of_fpCompare rfl (any_eq_iff _ _), givesFloat_of_fpCompare rfl (any_eq_iff _ _), givesFloat_of_fpCompare rfl (any_ne_gt_iff _),
    fun tgt src => ?_⟩, fun t m n a b c hm => ?_⟩
  · dsimp only
    split
    next h => exact exec_fcvt_integer h
    next g h =>
      refine ⟨fun hor => givesFloat_fcvt h ?_, fun hsr hg => exec_fcvt_stochastic h ((draws_iff ..).mpr ⟨hsr, hg⟩)⟩
      rw [← Bool.not_eq_true, draws_iff]
      rintro ⟨hsr, hg⟩
      exact hor.elim (fun h0 => Bool.false_ne_true (h0.symm.trans hsr)) hg
  · refine ⟨fun g x hx _ => delivers_roundTo g hm hx, fun na ma ea ha => ⟨fun h0 => ?_, fun h0 hneg => ?_, fun h0 hpos => ?_,
      fun h0 g => convert_fin h0 g m na ea, fun nb mb eb hb => ⟨fAdd_fin m ha hb, fSub_fin m ha hb, fMul_fin m ha hb, fun hd => ?_,
      fun hd h0 => ?_, fun hd h0 => ?_, fun nc mc ec hc => fFma_fin m ha hb hc n⟩⟩⟩
    · rw [fSqrt_fin m ha, if_pos h0]
    · rw [fSqrt_fin m ha, if_neg h0, if_pos hneg]
    · obtain ⟨k, hx⟩ := sqrtEx_spec ea h0
      exact ⟨_, k, by rw [fSqrt_fin m ha, if_neg h0, hpos]; rfl, hx⟩
    · rw [fDiv_fin m ha hb, if_pos hd]
    · rw [fDiv_fin m ha hb, if_neg hd, if_pos h0]
    · obtain ⟨k, hx⟩ := divEx_spec (na != nb) ea eb h0 hd
      exact ⟨_, k, by rw [fDiv_fin m ha hb, if_neg hd, if_neg h0], hx⟩

end Sys2Proof.Machine
end

section
/-! The integer instructions of majors 0x01 to 0x05 and 0x0A to 0x0C: their results and their words (R74 to R77, R82 to R84). -/

namespace Sys2Proof.Machine

/-! ### Results (R74, R75, R77) -/

theorem sshiftRight_eq_ofInt (a : Word) (n : Nat) : a.sshiftRight n = BitVec.ofInt 64 (a.toInt / 2 ^ n) := by
  have h : a.toInt / 2 ^ n = (a.sshiftRight n).toInt := by
    rw [BitVec.toInt_sshiftRight, Int.shiftRight_eq_div_pow]
    norm_cast
  rw [h, BitVec.ofInt_toInt]

theorem rotateRight_eq_or {n : Nat} (h : n < 64) (a : Word) : a.rotateRight n = a >>> n ||| a <<< (64 - n) := by
  rw [BitVec.rotateRight_def, Nat.mod_eq_of_lt h]

theorem boolWord_decide (P : Prop) [Decidable P] : boolWord (decide P) = if P then 1 else 0 := by
  simp [boolWord]

theorem if_slt (a b x y : Word) : (if a.slt b then x else y) = if a.toInt < b.toInt then x else y := by
  simp only [BitVec.slt_iff_toInt_lt]

theorem if_ult (a b x y : Word) : (if a.ult b then x else y) = if a.toNat < b.toNat then x else y := by
  simp only [BitVec.ult_eq_decide, decide_eq_true_eq]

theorem ofInt_toInt_mul (a b : Word) : BitVec.ofInt 64 (a.toInt * b.toInt) = a * b := by
  rw [BitVec.ofInt_mul, BitVec.ofInt_toInt, BitVec.ofInt_toInt]

/-- A quotient truncates toward zero; that of -2^63 and -1 wraps around (R75). -/
theorem sdiv_eq_ofInt (a b : Word) : BitVec.sdiv a b = BitVec.ofInt 64 (a.toInt.tdiv b.toInt) := by
  apply BitVec.eq_of_toInt_eq
  rw [BitVec.toInt_sdiv, BitVec.toInt_ofInt]

/-- A remainder takes the sign of the dividend (R75). -/
theorem srem_eq_ofInt (a b : Word) : BitVec.srem a b = BitVec.ofInt 64 (a.toInt.tmod b.toInt) := by
  rw [← BitVec.toInt_srem, BitVec.ofInt_toInt]

theorem udiv_eq_ofNat (a b : Word) : a / b = BitVec.ofNat 64 (a.toNat / b.toNat) := by
  rw [← BitVec.toNat_udiv, bv_ofNat_toNat]

theorem umod_eq_ofNat (a b : Word) : a % b = BitVec.ofNat 64 (a.toNat % b.toNat) := by
  rw [← BitVec.toNat_umod, bv_ofNat_toNat]

/-- What an instruction gives, written otherwise. -/
theorem Gives.of_eq {i : Instr} {s : State} {n : Nat} {d : Reg} {v w : Word} (h : Gives i s n d v) (e : v = w) : Gives i s n d w := e ▸ h

/-- An operation whose two forms deliver g delivers every f that equals g. -/
theorem bothForms_of_eq {r : Reg → Reg → Reg → Instr} {l : Reg → Reg → Word → Instr} {f g : Word → Word → Word} (hg : BothForms r l g)
    (h : ∀ a b, g a b = f a b) : BothForms r l f := by
  obtain rfl : g = f := funext fun a => funext (h a)
  exact hg

theorem amt_lt (b : Word) : b.toNat % 64 < 64 := Nat.mod_lt _ (by decide)

/-! ### Words (R30) -/

/-- The base word of a register form (R30, format A). -/
theorem base_register (major : Fin 128) (d a b : Reg) (fn : Fin 256) :
    Raw.base { major := major, d := d, a := a, b := b, fn := fn } =
      major.val * 4 + d.val * 2 ^ 9 + a.val * 2 ^ 14 + b.val * 2 ^ 19 + fn.val * 2 ^ 24 := by
  simp [Raw.base]

/-- The base word of a literal form, whose field B is zero (R30, format A; R34). -/
theorem base_literal (major : Fin 128) (d a : Reg) (fn : Fin 256) (x : Word) :
    Raw.base { len := 1, major := major, d := d, a := a, fn := fn, lit := x } =
      1 + major.val * 4 + d.val * 2 ^ 9 + a.val * 2 ^ 14 + fn.val * 2 ^ 24 := by
  simp [Raw.base]

/-- A 13-bit immediate fills fields B and fn (R30, format I). -/
theorem base_immediate13 (major : Fin 128) (d a : Reg) (imm : BitVec 13) :
    Raw.base { major := major, d := d, a := a, b := Fin.ofNat 32 (imm.toNat % 32), fn := Fin.ofNat 256 (imm.toNat / 32) } =
      major.val * 4 + d.val * 2 ^ 9 + a.val * 2 ^ 14 + imm.toNat * 2 ^ 19 := by
  simp only [Raw.base, Fin.val_ofNat, Fin.val_zero]
  omega

/-- An 18-bit immediate fills fields A, B and fn (R30, format U). -/
theorem base_immediate18 (major : Fin 128) (d : Reg) (imm : BitVec 18) :
    Raw.base {
        major := major, d := d, a := Fin.ofNat 32 (imm.toNat % 32), b := Fin.ofNat 32 (imm.toNat / 32 % 32),
        fn := Fin.ofNat 256 (imm.toNat / 1024) } =
      major.val * 4 + d.val * 2 ^ 9 + imm.toNat * 2 ^ 14 := by
  simp only [Raw.base, Fin.val_ofNat, Fin.val_zero]
  omega

/-- The base word of a literal form without a source register (R82, R83). -/
theorem base_literal_alone (major : Fin 128) (d : Reg) (x : Word) :
    Raw.base { len := 1, major := major, d := d, lit := x } = 1 + major.val * 4 + d.val * 2 ^ 9 := by
  simp [Raw.base]

/-- The words of an operation's register and literal forms, e being its major, its function and the two forms (R30, R34, R73). -/
theorem words_of_forms {e : Nat × Nat × Instr × Instr} {major : Fin 128} {d a b : Reg} {fn : Fin 256} {x : Word}
    (hr : encodeRaw e.2.2.1 = { major := major, d := d, a := a, b := b, fn := fn })
    (hl : encodeRaw e.2.2.2 = { len := 1, major := major, d := d, a := a, fn := fn, lit := x })
    (hmajor : major.val = e.1) (hfn : fn.val = e.2.1) :
    (encodeRaw e.2.2.1).base = e.1 * 4 + d.val * 2 ^ 9 + a.val * 2 ^ 14 + b.val * 2 ^ 19 + e.2.1 * 2 ^ 24 ∧
      (encodeRaw e.2.2.2).base = 1 + e.1 * 4 + d.val * 2 ^ 9 + a.val * 2 ^ 14 + e.2.1 * 2 ^ 24 ∧ (encodeRaw e.2.2.2).lit = x := by
  rw [hr, hl, base_register, base_literal, hmajor, hfn]
  exact ⟨rfl, rfl, rfl⟩

/-! ### The instructions -/

/-- Settles O1: most operations are the model's as they stand; the others are turned into integers by the lemmas above. -/
theorem integerResults : Obligations.IntegerResults := by
  refine ⟨⟨fun _ _ _ _ _ => ⟨rfl, rfl⟩, fun _ _ _ _ _ => ⟨rfl, rfl⟩, fun _ _ _ _ _ => ⟨rfl, rfl⟩, fun _ _ _ _ _ => ⟨rfl, rfl⟩,
      fun _ _ _ _ _ => ⟨rfl, rfl⟩, fun _ _ _ _ _ => ⟨rfl, rfl⟩, fun _ _ _ _ _ => ⟨rfl, rfl⟩, fun _ _ _ _ _ => ⟨rfl, rfl⟩,
      ?sra, ?ror, ?slt, ?sltu, ?seq, ?min, ?max, ?minu, ?maxu⟩,
    ⟨?mul, fun _ _ _ _ _ => ⟨rfl, rfl⟩, fun _ _ _ _ _ => ⟨rfl, rfl⟩, ?div, ?divu, ?rem, ?remu⟩,
    fun s d a b c imm n u x => ⟨rfl, rfl, rfl, rfl, ?srai, ?rori, rfl, rfl, rfl, rfl, ?selnz, rfl, rfl, rfl⟩,
    fun d a b x imm u => ⟨fun e he => ?words, base_immediate13 .., base_immediate13 .., base_immediate18 .., base_literal_alone .., rfl,
      base_immediate18 .., base_literal_alone .., rfl⟩⟩
  case sra => exact bothForms_of_eq (g := fun a b => a.sshiftRight (amt b)) (fun _ _ _ _ _ => ⟨rfl, rfl⟩) fun a b => sshiftRight_eq_ofInt a _
  case ror => exact bothForms_of_eq (g := fun a b => a.rotateRight (amt b)) (fun _ _ _ _ _ => ⟨rfl, rfl⟩) fun a b => rotateRight_eq_or (amt_lt b) a
  case slt =>
    refine bothForms_of_eq (g := fun a b => boolWord (a.slt b)) (fun _ _ _ _ _ => ⟨rfl, rfl⟩) fun a b => ?_
    rw [BitVec.slt_eq_decide, boolWord_decide]
  case sltu =>
    refine bothForms_of_eq (g := fun a b => boolWord (a.ult b)) (fun _ _ _ _ _ => ⟨rfl, rfl⟩) fun a b => ?_
    rw [BitVec.ult_eq_decide, boolWord_decide]
  case seq =>
    refine bothForms_of_eq (g := fun a b => boolWord (a == b)) (fun _ _ _ _ _ => ⟨rfl, rfl⟩) fun a b => ?_
    rw [beq_eq_decide, boolWord_decide]
  case min => exact bothForms_of_eq (g := fun a b => if a.slt b then a else b) (fun _ _ _ _ _ => ⟨rfl, rfl⟩) fun a b => if_slt a b a b
  case max => exact bothForms_of_eq (g := fun a b => if a.slt b then b else a) (fun _ _ _ _ _ => ⟨rfl, rfl⟩) fun a b => if_slt a b b a
  case minu => exact bothForms_of_eq (g := fun a b => if a.ult b then a else b) (fun _ _ _ _ _ => ⟨rfl, rfl⟩) fun a b => if_ult a b a b
  case maxu => exact bothForms_of_eq (g := fun a b => if a.ult b then b else a) (fun _ _ _ _ _ => ⟨rfl, rfl⟩) fun a b => if_ult a b b a
  case mul => exact bothForms_of_eq (g := fun a b => a * b) (fun _ _ _ _ _ => ⟨rfl, rfl⟩) fun a b => (ofInt_toInt_mul a b).symm
  case div => exact bothForms_of_eq (g := divS) (fun _ _ _ _ _ => ⟨rfl, rfl⟩) fun a b => by rw [divS, sdiv_eq_ofInt]; rfl
  case divu => exact bothForms_of_eq (g := divU) (fun _ _ _ _ _ => ⟨rfl, rfl⟩) fun a b => by rw [divU, udiv_eq_ofNat]; rfl
  case rem => exact bothForms_of_eq (g := remS) (fun _ _ _ _ _ => ⟨rfl, rfl⟩) fun a b => by rw [remS, srem_eq_ofInt]
  case remu => exact bothForms_of_eq (g := remU) (fun _ _ _ _ _ => ⟨rfl, rfl⟩) fun a b => by rw [remU, umod_eq_ofNat]
  case srai => exact Gives.of_eq rfl (sshiftRight_eq_ofInt (s.rd a) n.val)
  case rori => exact Gives.of_eq rfl (rotateRight_eq_or n.isLt (s.rd a))
  case selnz => exact Gives.of_eq rfl (ite_not (s.rd c = 0) (s.rd a) (s.rd b)).symm
  case words => fin_cases he <;> exact words_of_forms rfl rfl rfl rfl

end Sys2Proof.Machine
end

section
/-! Bit counts, bit order, bit fields and message headers, bit by bit (R78, R79, R81). -/

namespace Sys2Proof.Machine

/-! ### Counts of bits (R78) -/

theorem testBit_of_bitLen_le {x i : Nat} (h : bitLen x ≤ i) : x.testBit i = false :=
  Nat.testBit_lt_two_pow ((lt_two_pow_bitLen x).trans_le (Nat.pow_le_pow_right (by decide) h))

/-- The highest bit that is set is bit `bitLen - 1`. -/
theorem testBit_bitLen_sub_one {x : Nat} (h : 0 < bitLen x) : x.testBit (bitLen x - 1) = true := by
  have hx : x ≠ 0 := fun h0 => by simp [bitLen, h0] at h
  rw [bitLen, if_neg hx]
  exact Nat.testBit_log2 hx

theorem bitLen_toNat_le (a : Word) : bitLen a.toNat ≤ 64 := by
  by_contra h
  have hbit := testBit_bitLen_sub_one (x := a.toNat) (by omega)
  rw [Nat.testBit_lt_two_pow (a.isLt.trans_le (Nat.pow_le_pow_right (by decide) (by omega)))] at hbit
  exact Bool.false_ne_true hbit

theorem trailing_le (a n : Nat) : trailing a n ≤ n := by
  induction n generalizing a with
  | zero => exact le_rfl
  | succ n ih =>
    unfold trailing
    have := ih (a / 2)
    split <;> omega

theorem testBit_of_lt_trailing {a n i : Nat} (h : i < trailing a n) : a.testBit i = false := by
  induction n generalizing a i with
  | zero => exact absurd h (Nat.not_lt_zero i)
  | succ n ih =>
    unfold trailing at h
    split at h
    next => exact absurd h (Nat.not_lt_zero i)
    next heven =>
      cases i with
      | zero => simpa using heven
      | succ i => rw [Nat.testBit_succ]; exact ih (by omega)

theorem testBit_trailing {a n : Nat} (h : trailing a n < n) : a.testBit (trailing a n) = true := by
  induction n generalizing a with
  | zero => exact absurd h (Nat.not_lt_zero _)
  | succ n ih =>
    unfold trailing at h ⊢
    split at h
    next hodd => simp [hodd]
    next heven =>
      rw [if_neg heven, Nat.testBit_succ]
      exact ih (by omega)

theorem ones_eq_countP (a n : Nat) : ones a n = (List.range n).countP a.testBit := by
  induction n generalizing a with
  | zero => rfl
  | succ n ih =>
    have hhigh : a.testBit ∘ Nat.succ = (a / 2).testBit := funext fun i => Nat.testBit_succ a i
    have hlow : (if a.testBit 0 = true then 1 else 0) = a % 2 := by
      rw [Nat.testBit_zero]
      rcases Nat.mod_two_eq_zero_or_one a with h | h <;> simp [h]
    rw [ones, ih, List.range_succ_eq_map, List.countP_cons, List.countP_map, hhigh, hlow, Nat.add_comm]

/-! ### The order of bits and bytes (R78) -/

theorem revBits_lt (a n : Nat) : revBits a n < 2 ^ n := by
  induction n generalizing a with
  | zero => exact Nat.zero_lt_one
  | succ n ih =>
    have hrest := ih (a / 2)
    have hbit : a % 2 * 2 ^ n ≤ 1 * 2 ^ n := Nat.mul_le_mul_right _ (by omega)
    rw [revBits, Nat.pow_succ]
    omega

theorem testBit_revBits (a : Nat) {n i : Nat} (h : i < n) : (revBits a n).testBit i = a.testBit (n - 1 - i) := by
  induction n generalizing a i with
  | zero => exact absurd h (Nat.not_lt_zero i)
  | succ n ih =>
    rw [revBits, Nat.mul_comm, Nat.testBit_two_pow_mul_add _ (revBits_lt ..)]
    split
    next hi => rw [ih _ hi, ← Nat.testBit_succ]; congr 1; omega
    next hi =>
      obtain rfl : i = n := by omega
      simp

/-- Byte i of a word whose bytes are reversed is byte 7 - i of the word. -/
theorem extractLsb'_reversed (a : Word) {i : Nat} (h : i < 8) :
    (BitVec.ofNat 64 (leNat (leBytes 8 a.toNat).reverse)).extractLsb' (8 * i) 8 = a.extractLsb' (8 * (7 - i)) 8 := by
  have hlen : (leBytes 8 a.toNat).reverse.length = 8 := by simp
  have hlt : leNat (leBytes 8 a.toNat).reverse < 2 ^ 64 := by
    have hbound := leNat_lt (leBytes 8 a.toNat).reverse
    rwa [hlen] at hbound
  apply BitVec.eq_of_toNat_eq
  rw [BitVec.extractLsb'_toNat, BitVec.toNat_ofNat, Nat.mod_eq_of_lt hlt, Nat.shiftRight_eq_div_pow, Nat.pow_mul]
  calc leNat (leBytes 8 a.toNat).reverse / 256 ^ i % 256
      = ((leBytes 8 a.toNat).reverse[i]'(by omega)).toNat := leNat_div ..
    _ = ((leBytes 8 a.toNat)[7 - i]'(by simp; omega)).toNat := by simp [List.getElem_reverse]
    _ = (a.extractLsb' (8 * (7 - i)) 8).toNat := by rw [leBytes_getElem_word]

theorem maskLow_eq (a : Word) : maskLow a = if 64 ≤ a.toNat then 0xFFFFFFFFFFFFFFFF else (1 : Word) <<< a.toNat - 1 := by
  unfold maskLow
  split
  next => rfl
  next h =>
    have hpow : 2 ^ a.toNat < 2 ^ 64 := Nat.pow_lt_pow_right (by decide) (by omega)
    have hpos : 0 < 2 ^ a.toNat := Nat.two_pow_pos _
    apply BitVec.eq_of_toNat_eq
    simp [Nat.shiftLeft_eq, BitVec.toNat_sub]
    omega

/-! ### Bit fields (R79, R81) -/

theorem fieldU_eq (a : Word) (pos len1 : Nat) : fieldU a pos len1 = (a.extractLsb' pos (len1 + 1)).setWidth 64 := by
  apply BitVec.eq_of_toNat_eq
  simp [fieldU, fld, Nat.shiftRight_eq_div_pow]

theorem fieldS_eq (a : Word) (pos len1 : Nat) : fieldS a pos len1 = (a.extractLsb' pos (len1 + 1)).signExtend 64 := by
  have h : BitVec.ofNat (len1 + 1) (fld a.toNat pos (len1 + 1)) = a.extractLsb' pos (len1 + 1) := by
    apply BitVec.eq_of_toNat_eq
    simp [fld, Nat.shiftRight_eq_div_pow]
  rw [fieldS, sext_eq_signExtend (Nat.succ_pos len1), h]

/-- Two fields of the same length, at most 64, are equal as words just when they are equal as fields. -/
theorem fieldU_beq {len1 : Nat} (h : len1 < 64) (a b : Word) (p q : Nat) :
    (fieldU a p len1 == fieldU b q len1) = decide (a.extractLsb' p (len1 + 1) = b.extractLsb' q (len1 + 1)) := by
  rw [beq_eq_decide, fieldU_eq, fieldU_eq, decide_eq_decide]
  refine ⟨fun heq => ?_, congrArg _⟩
  simpa [BitVec.setWidth_setWidth_of_le _ (Nat.succ_le_of_lt h)] using congrArg (BitVec.setWidth (len1 + 1)) heq

/-- A word between its bits below a field, the field, and the bits above. -/
theorem testBit_fields (high mid low : Nat) {lo w : Nat} (hm : mid < 2 ^ w) (hl : low < 2 ^ lo) (i : Nat) :
    (2 ^ lo * (2 ^ w * high + mid) + low).testBit i =
      if i < lo then low.testBit i else if i < lo + w then mid.testBit (i - lo) else high.testBit (i - lo - w) := by
  rw [Nat.testBit_two_pow_mul_add _ hl, Nat.testBit_two_pow_mul_add _ hm]
  grind

/-- A number with a field of w bits replaced, bit by bit. -/
theorem testBit_replaced (x lo w v i : Nat) : (x - fld x lo w * 2 ^ lo + v % 2 ^ w * 2 ^ lo).testBit i =
    if lo ≤ i ∧ i < lo + w then v.testBit (i - lo) else x.testBit i := by
  have hlow : x % 2 ^ lo < 2 ^ lo := Nat.mod_lt _ (Nat.two_pow_pos lo)
  have hx : 2 ^ lo * (2 ^ w * (x / 2 ^ lo / 2 ^ w) + fld x lo w) + x % 2 ^ lo = x := by rw [fld, Nat.div_add_mod, Nat.div_add_mod]
  have hold := testBit_fields (x / 2 ^ lo / 2 ^ w) (fld x lo w) (x % 2 ^ lo) (Nat.mod_lt _ (Nat.two_pow_pos w)) hlow i
  have hnew := testBit_fields (x / 2 ^ lo / 2 ^ w) (v % 2 ^ w) (x % 2 ^ lo) (Nat.mod_lt _ (Nat.two_pow_pos w)) hlow i
  have hsub : x - fld x lo w * 2 ^ lo + v % 2 ^ w * 2 ^ lo = 2 ^ lo * (2 ^ w * (x / 2 ^ lo / 2 ^ w) + v % 2 ^ w) + x % 2 ^ lo := by
    rw [Nat.sub_eq_of_eq_add (b := fld x lo w * 2 ^ lo) (hx.symm.trans (by ring : _ = 2 ^ lo * (2 ^ w * (x / 2 ^ lo / 2 ^ w)) + x % 2 ^ lo + _))]
    ring
  rw [hx] at hold
  rw [hsub, hnew, hold, Nat.testBit_mod_two_pow]
  grind

/-- The word with bits [hi:lo] replaced, bit by bit. -/
theorem getLsbD_setBits (x : Word) {hi lo : Nat} (h : lo ≤ hi) (v : Nat) {i : Nat} (hi64 : i < 64) :
    (setBits x hi lo v).getLsbD i = if lo ≤ i ∧ i ≤ hi then v.testBit (i - lo) else x.getLsbD i := by
  have hend : i < lo + (hi + 1 - lo) ↔ i ≤ hi := by omega
  rw [setBits, BitVec.getLsbD_ofNat, testBit_replaced, BitVec.testBit_toNat, decide_eq_true hi64, Bool.true_and]
  simp only [hend]

theorem getLsbD_fieldPut (d a : Word) (pos len1 : Nat) {i : Nat} (h : i < 64) : (fieldPut d a pos len1).getLsbD i =
    if pos ≤ i ∧ i < pos + (len1 + 1) then a.getLsbD (i - pos) else d.getLsbD i := by
  have hend : i ≤ pos + len1 ↔ i < pos + (len1 + 1) := Nat.lt_succ_iff.symm
  rw [fieldPut, getLsbD_setBits d (Nat.le_add_right ..) _ h, BitVec.testBit_toNat]
  simp only [hend]

/-! ### The clearing of a message header (R81) -/

/-- A slot with some of its registers set to zero. -/
def Slot.cleared (x : Slot) (l : List Reg) : Slot := l.foldl (fun x r => x.ws r 0) x

theorem Slot.cleared_frame (x : Slot) (l : List Reg) : ∃ v, x.cleared l = { x with s := v } := by
  induction l generalizing x with
  | nil => exact ⟨x.s, rfl⟩
  | cons r l ih =>
    obtain ⟨v, h⟩ := ih (x.ws r 0)
    refine ⟨v, h.trans ?_⟩
    rw [Slot.ws_frame]

theorem Slot.rs_cleared (x : Slot) (l : List Reg) (r : Reg) : (x.cleared l).rs r = if r ∈ l then 0 else x.rs r := by
  induction l generalizing x with
  | nil => simp [Slot.cleared]
  | cons q l ih =>
    have hq : (x.ws q 0).rs r = if r = q then 0 else x.rs r := by
      split
      next h =>
        subst h
        by_cases h0 : r = 0
        · simp [h0]
        · exact Slot.rs_ws_self x h0 0
      next h => exact Slot.rs_ws_ne x h 0
    rw [Slot.cleared, List.foldl_cons, ← Slot.cleared, ih, hq]
    by_cases hl : r ∈ l <;> simp [hl]

/-- Registers are cleared in the current slot alone. -/
theorem past_foldl_wr_zero (l : List Reg) (s : State) (n : Nat) :
    (l.foldl (fun s r => s.wr r 0) s).past n = s.setSlot s.cur ((s.me.cleared l).past n) := by
  induction l generalizing s with
  | nil => exact State.past_eq s n
  | cons r l ih =>
    rw [List.foldl_cons, ih]
    simp [State.wr, State.me_eq, Slot.cleared]

/-- The registers of a header group (R80). -/
def hdrGroup (a : Reg) : List Reg := (List.range 8).map fun i => reg (a.val + i)

theorem mem_hdrGroup {a : Reg} (h : groupOk a = true) (r : Reg) : r ∈ hdrGroup a ↔ a.val ≤ r.val ∧ r.val ≤ a.val + 7 := by
  have hle : a.val ≤ 24 := by simp [groupOk] at h; omega
  simp only [hdrGroup, List.mem_map, List.mem_range, reg, Fin.ext_iff, Fin.val_ofNat]
  constructor
  · rintro ⟨i, hi, hr⟩
    omega
  · rintro ⟨h1, h2⟩
    exact ⟨r.val - a.val, by omega, by omega⟩

theorem exec_hdrClr (a : Reg) (s : State) : exec (.hdrClr a) s = .next (s.setSlot s.cur ((s.me.cleared (hdrGroup a)).past 4)) := by
  rw [← past_foldl_wr_zero, hdrGroup, List.foldl_map]
  rfl

/-! ### The instructions -/

/-- Settles O2: each operation by its bits. -/
theorem bitResults : Obligations.BitResults := by
  refine ⟨⟨fun s d a => ?clz, fun s d a => ?ctz, fun s d a => ?popc, fun s d a => ?brev, fun s d a => ?bswap, fun s d a => ⟨rfl, rfl, ?maskn⟩,
    fun _ _ _ _ _ => ⟨rfl, rfl⟩, fun _ _ _ _ _ => ⟨rfl, rfl⟩, fun _ _ _ _ _ => ⟨rfl, rfl⟩, fun _ _ _ _ _ => ⟨rfl, rfl⟩⟩,
    fun s d a b pos len1 hp => ⟨fun hwf => ?fields, fun hwf => ?headers, fun hwf => ?hdrClr⟩⟩
  case clz =>
    have hle := bitLen_toNat_le (s.rd a)
    refine ⟨64 - bitLen (s.rd a).toNat, Nat.sub_le .., rfl, fun i hi _ => testBit_of_bitLen_le (by omega), fun hn => ?_⟩
    have hbit := testBit_bitLen_sub_one (x := (s.rd a).toNat) (by omega)
    rwa [show 63 - (64 - bitLen (s.rd a).toNat) = bitLen (s.rd a).toNat - 1 by omega]
  case ctz => exact ⟨trailing (s.rd a).toNat 64, trailing_le .., rfl, fun _ hi => testBit_of_lt_trailing hi, testBit_trailing⟩
  case popc => exact Gives.of_eq rfl (congrArg (BitVec.ofNat 64) (ones_eq_countP (s.rd a).toNat 64))
  case brev =>
    refine ⟨_, rfl, fun i hi => ?_⟩
    rw [BitVec.getLsbD_ofNat, decide_eq_true hi, Bool.true_and, testBit_revBits _ hi]
    rfl
  case bswap => exact ⟨_, rfl, fun i hi => extractLsb'_reversed (s.rd a) hi⟩
  case maskn => exact Gives.of_eq rfl (maskLow_eq (s.rd a))
  case fields =>
    exact ⟨Gives.of_eq rfl (fieldU_eq ..), Gives.of_eq rfl (fieldS_eq ..), _, rfl, fun i hi => getLsbD_fieldPut _ _ _ _ hi⟩
  case headers =>
    exact ⟨Gives.of_eq rfl (fieldU_eq ..), Gives.of_eq rfl (fieldS_eq ..),
      Gives.of_eq rfl (by rw [fieldU_beq len1.isLt, boolWord_decide]; rfl), _, rfl, fun i hi => getLsbD_fieldPut _ _ _ _ hi⟩
  case hdrClr =>
    refine ⟨_, exec_hdrClr a s, fun r => ?_, OnlyThisSlot.upd .., ?_⟩
    · rw [State.rd_setSlot, Slot.past_rs, Slot.rs_cleared]
      exact if_congr (mem_hdrGroup hwf r) rfl rfl
    · obtain ⟨v, h⟩ := s.me.cleared_frame (hdrGroup a)
      rw [State.me_setSlot, h]
      rfl

end Sys2Proof.Machine
end

section
/-! What a branch that is not taken leaves of an access in progress (R90, R91, R155). -/

namespace Sys2Proof.Machine

/-- A branch that is not taken completes, so no bytes of a record stay with its slot. -/
theorem got_of_branch_not_taken {n : Nat} {off : Word} {s t : State} (h : branch n false off s = .next t) : t.me.got = none := by
  obtain rfl := Host.Outcome.next.inj h
  rw [State.past_eq, State.me_setSlot]
  rfl

/-- A branch as `Branches` says it keeps the bytes of a record with its slot. -/
theorem got_of_branches {i : Instr} {s t : State} {n : Nat} {taken : Bool} {off : Word} (h : Branches i s n taken off) (ht : exec i s = .next t) :
    t.me.got = s.me.got := by
  obtain rfl := Host.Outcome.next.inj (h.symm.trans ht)
  simp [State.me_eq]

/-- The machine at reset, with the bytes of a record at the current slot (R155). -/
def State.withRecordBytes : State := State.reset.setSlot State.reset.cur { got := some (0, []) }

/-- Refutes O7: a branch that is not taken completes like every other instruction, and so clears `got`, the bytes of a record that the slot holds,
which `Branches` says it keeps; BNZ of s0 in a slot that holds such bytes shows it. -/
theorem not_branchResults : ¬ Obligations.BranchResults := by
  intro h
  obtain ⟨-, -, hbnz, -⟩ := h State.withRecordBytes 0 0 0 0 0 0
  have hexec : exec (.bnz 0 0) State.withRecordBytes = .next (State.withRecordBytes.past 4) := rfl
  have hcleared : (State.withRecordBytes.past 4).me.got = none := got_of_branch_not_taken (n := 4) (off := 0) rfl
  have hkept : (State.withRecordBytes.past 4).me.got = some (0, []) := got_of_branches hbnz hexec
  exact Option.some_ne_none _ (hkept.symm.trans hcleared)

end Sys2Proof.Machine
end

section
/-! Swaps of a partition, its budget and its completion (R100, R101, R354, R361, R417). -/

namespace Sys2Proof.Machine

/-! ### Contracts (R361) -/

/-- Another partition is as it was. -/
theorem State.part_updPart_ne (s : State) {p q : Nat} (h : q ≠ p) (f : Part → Part) : (s.updPart p f).part q = s.part q := by
  simp [State.part, State.updPart, h]

/-- A review of a pair changes of a partition only the swap that is commanded. -/
theorem part_rebalance (s : State) (p reason q : Nat) : ∃ w, (rebalance s p reason).part q = { s.part q with swapTo := w } := by
  unfold rebalance
  split
  next q' h _ _ =>
    dsimp only
    generalize (if h = p then q' else p) = o
    split
    next =>
      by_cases hq : q = h
      · subst hq
        exact ⟨_, State.part_updPart_self ..⟩
      · exact ⟨_, State.part_updPart_ne _ hq _⟩
    next => exact ⟨_, rfl⟩
  next => exact ⟨_, rfl⟩

/-- The contract of a partition that was changed. -/
theorem contract_updContract_self (s : State) (p : Nat) (f : Contract → Contract) :
    ((updContract s p f).part p).contract = (s.part p).contract.map f := by
  rw [updContract, State.part_updPart_self]

theorem inPlace_updContract_self (s : State) (p : Nat) (f : Contract → Contract) :
    ((updContract s p f).part p).inPlace = (s.part p).inPlace := by
  rw [updContract, State.part_updPart_self]

/-- A contract's period ends and the next begins, with a full budget (R361). -/
theorem execPeriodStart_begins {s : State} {p : Nat} {k : Contract} (hk : (s.part p).contract = some k) (hruns : anchorRuns s p = true) :
    ∃ t m, execPeriodStart p s = .next t ∧ (t.part p).contract = some m ∧ m.left = k.budget ∧ m.start = k.start + k.period ∧
      (t.part p).inPlace = false ∧ t.mem = s.mem := by
  simp only [execPeriodStart, hk, hruns, Bool.not_true, Bool.false_eq_true, if_false]
  generalize hs1 : State.updPart _ p _ = s1
  have hcontract : (s1.part p).contract = some { k with start := k.start + k.period, left := k.budget, since := none } := by
    rw [← hs1, State.part_updPart_self]
    exact (contract_updContract_self ..).trans (congrArg (Option.map _) hk)
  have hplace : (s1.part p).inPlace = false := by rw [← hs1, State.part_updPart_self]
  have hmem : s1.mem = s.mem := by rw [← hs1]; rfl
  generalize hs2 : (if (holdsAnchor s1 p && (s.part p).running) = true then startCharge s1 p else s1) = s2
  have hcharged : ∃ m, (s2.part p).contract = some m ∧ m.left = k.budget ∧ m.start = k.start + k.period ∧ (s2.part p).inPlace = false ∧
      s2.mem = s.mem := by
    split at hs2
    · subst hs2
      exact ⟨_, (contract_updContract_self ..).trans (congrArg (Option.map _) hcontract), rfl, rfl,
        (inPlace_updContract_self ..).trans hplace, hmem⟩
    · subst hs2
      exact ⟨_, hcontract, rfl, rfl, hplace, hmem⟩
  obtain ⟨m, hm, hleft, hstart, hin, hmem2⟩ := hcharged
  obtain ⟨w, hw⟩ := part_rebalance s2 p 2 p
  exact ⟨_, m, rfl, by rw [hw]; exact hm, hleft, hstart, by rw [hw]; exact hin, (rebalance_mem ..).trans hmem2⟩

/-! ### The completion of a launch (R101, R344, R417) -/

/-- The slots, the current one among them, and the launches of a partition are as they were. -/
structure SameLaunches (p : Nat) (s u : State) : Prop where
  slots : u.slots = s.slots
  cur : u.cur = s.cur
  launches : (u.part p).launches = (s.part p).launches

theorem SameLaunches.refl (p : Nat) (s : State) : SameLaunches p s s := ⟨rfl, rfl, rfl⟩

theorem SameLaunches.trans {p : Nat} {s u v : State} (h : SameLaunches p s u) (k : SameLaunches p u v) : SameLaunches p s v :=
  ⟨k.slots.trans h.slots, k.cur.trans h.cur, k.launches.trans h.launches⟩

/-- What every step of a fold keeps, the fold keeps. -/
theorem SameLaunches.foldl {α : Type} {p : Nat} {f : State → α → State} (h : ∀ s a, SameLaunches p s (f s a)) (l : List α) (s : State) :
    SameLaunches p s (l.foldl f s) :=
  List.foldlRecOn (motive := SameLaunches p s) l f (.refl p s) fun u hu a _ => hu.trans (h u a)

theorem SameLaunches.me {p : Nat} {s u : State} (h : SameLaunches p s u) : u.me = s.me := by
  rw [State.me, State.me, State.slot, State.slot, h.slots, h.cur]

theorem sameLaunches_updPart (s : State) (p : Nat) {f : Part → Part} (h : (f (s.part p)).launches = (s.part p).launches) :
    SameLaunches p s (s.updPart p f) :=
  ⟨rfl, rfl, by rw [State.part_updPart_self, h]⟩

theorem sameLaunches_ringWrite (p : Nat) (s : State) (ring : Word) (key fn vec size : Nat) (ws : List Word) :
    SameLaunches p s (s.ringWrite ring key fn vec size ws) := by
  unfold State.ringWrite
  split <;> exact ⟨rfl, rfl, rfl⟩

theorem sameLaunches_hostEvent (p : Nat) (s : State) (fn : Option Nat) (type status tag : Nat) (ws : List Word) :
    SameLaunches p s (s.hostEvent fn type status tag ws) := by
  unfold State.hostEvent
  split
  · exact sameLaunches_ringWrite ..
  · split
    · exact .refl p s
    · exact sameLaunches_ringWrite ..

theorem sameLaunches_updCoreOf (p : Nat) (s : State) (q c : Nat) (f : Core → Core) : SameLaunches p s (updCoreOf s q c f) := by
  unfold updCoreOf
  dsimp only
  split <;> exact ⟨rfl, rfl, rfl⟩

theorem sameLaunches_endLeases (p : Nat) (s : State) (q : Nat) (leases : List Nat) : SameLaunches p s (endLeases s q leases) :=
  .foldl (fun s c => sameLaunches_updCoreOf p s q c _) _ s

theorem sameLaunches_closeLaunches (s : State) (p : Nat) : SameLaunches p s (closeLaunches s p) := by
  unfold closeLaunches
  split
  next => exact .refl p s
  next => exact (SameLaunches.foldl (fun s (x : BitVec 16 × List Nat) => sameLaunches_endLeases p s p x.2) _ s).trans (sameLaunches_updPart _ p rfl)

/-- The host is told that a launch has ended, and leases are closed. -/
theorem sameLaunches_ended (s : State) (p tag : Nat) : SameLaunches p s (closeLaunches (s.hostEvent (some p) 0x81 0 tag []) p) :=
  (sameLaunches_hostEvent ..).trans (sameLaunches_closeLaunches ..)

/-- Once the remote operations are over, PART.DONE ends the oldest launch and goes on (R101, R417). -/
theorem execPartDone_completes {s : State} {p : Nat} (a : Reg) (hp : s.partOf s.myCore = some p) (hmode : s.me.mode ≠ .u)
    (hrem : partRemotes s p = false) :
    ∃ u, execPartDone a s = done 4 u ∧ u.me = s.me ∧ (u.part p).launches = (s.part p).launches.drop 1 := by
  rw [execPartDone, privileged_system _ _ hmode, hp]
  simp only [hrem, Bool.false_eq_true, if_false]
  generalize hs1 : s.hostEvent .. = s1
  have htold : SameLaunches p s s1 := hs1 ▸ sameLaunches_hostEvent ..
  cases hl : (s.part p).launches with
  | nil =>
    have h := htold.trans (sameLaunches_closeLaunches s1 p)
    exact ⟨_, rfl, h.me, h.launches.trans hl⟩
  | cons l ls =>
    have h := sameLaunches_ended (s1.updPart p fun x => { x with
      launches := x.launches.drop 1, closing := if l.leases.isEmpty then x.closing else x.closing ++ [(l.tag, l.leases)] }) p l.tag.toNat
    refine ⟨_, rfl, h.me.trans htold.me, h.launches.trans ?_⟩
    rw [State.part_updPart_self, htold.launches, hl]

theorem execPartDone_waits {s : State} {p : Nat} (a : Reg) (hp : s.partOf s.myCore = some p) (hmode : s.me.mode ≠ .u)
    (hrem : partRemotes s p = true) : execPartDone a s = wait .partDone s := by
  rw [execPartDone, privileged_system _ _ hmode, hp]
  exact if_pos hrem

/-! ### The events -/

theorem mayHold_iff (s : State) (q : Nat) :
    mayHold s q = true ↔ (s.part q).running = true ∧ ((s.part q).contract = none ∨ budgetLeft s q ≠ 0) := by
  simp [mayHold]

/-- Settles O26: each event goes through the branch that its conditions name. -/
theorem partitionEvents : Obligations.PartitionEvents := by
  intro s p q reason cl a
  refine ⟨fun hcmd hholds => ?swap, fun k hk hruns => ⟨?period, fun c0 hc0 hholds hrun hplace hto => ?budget, fun hholds hidle => ?idle⟩,
    fun g hq hg hholds hp hrq hcp hcq hto hruns => ?slice, fun out inc hsw hhalt hflushed hl2 => ?flush,
    fun hp hmode hrem => ?waits, fun hp hmode hrem => ?done⟩
  case swap =>
    change execPartitionSwap p q reason s = _
    simp [execPartitionSwap, hcmd, hholds]
  case period => exact execPeriodStart_begins hk hruns
  case budget =>
    intro s1 halts
    have hexec : exec (.budgetExhausted p) s = execBudgetExhausted p s := rfl
    simp only [execBudgetExhausted, hk, hc0, hholds, hrun, hplace, hruns, hto] at hexec
    refine ⟨fun hq => ?_, fun hq => ?_⟩
    · rw [hq] at hexec
      exact hexec
    · rw [hq] at hexec
      split
      next h => exact hexec.trans (if_pos ((mayHold_iff s1 q).mpr h))
      next h => exact hexec.trans (if_neg (mt (mayHold_iff s1 q).mp h))
  case idle =>
    change execPartitionNoWork p s = _
    simp [execPartitionNoWork, hk, hholds, hidle]
  case slice =>
    change execTimeSliceExpiry p s = _
    simp [execTimeSliceExpiry, hq, hg, hholds, hp, hrq, hcp, hcq, hto, hruns]
  case flush =>
    change ∃ t, execSwapFlush cl s = _ ∧ _
    have hall : (coresOf cl).all (flushedNow s) = true := List.all_eq_true.mpr hflushed
    simp only [execSwapFlush, hsw, hhalt, hall, hl2]
    exact ⟨_, rfl, by rw [State.cluster_updCluster_self], rfl⟩
  case waits => exact execPartDone_waits a hp hmode hrem
  case done =>
    obtain ⟨u, hu, hme, hlaunches⟩ := execPartDone_completes a hp hmode hrem
    refine ⟨_, hu, hlaunches, ?_⟩
    rw [State.past_eq, State.me_setSlot, hme]
    rfl

end Sys2Proof.Machine
end

section
/-! The words that the spec writes out: each is the word of its instruction, and decoding gives that instruction back (R28 to R36). -/

namespace Sys2Proof

/-- Whether a word of the opcode table is the word of an instruction: the instruction's bytes, and no others (R28, R36). -/
def Instr.isWord (i : Instr) (nbits w : Nat) : Bool :=
  i.hasWords && i.wf && decide (tableBytes nbits w = encode i ++ List.replicate (20 - i.len) 0)

/-- The word of an instruction decodes to it. -/
theorem decodeTableWord_of_isWord {i : Instr} {nbits w : Nat} (h : i.isWord nbits w = true) : decodeTableWord nbits w = some i := by
  simp only [Instr.isWord, Bool.and_eq_true, decide_eq_true_eq] at h
  obtain ⟨⟨hwords, hwf⟩, hbytes⟩ := h
  rw [decodeTableWord, hbytes, decodeOfEncode i _ hwords hwf]

/-- Settles O53: each word is the word of the instruction that the spec gives it for. -/
theorem wordsOfTheSpec : Obligations.WordsOfTheSpec := by
  unfold Obligations.WordsOfTheSpec
  dsimp only
  refine ⟨?_, ?_, ?_, ?_, ?_, ?_, ?_, ?_, rfl⟩ <;> and_intros <;> exact decodeTableWord_of_isWord (by decide +kernel)

end Sys2Proof
end

section
/-! The lanes of vector registers and of mask registers, and how the vector instructions end (R107 to R110). -/

namespace Sys2Proof

theorem ElType.width_pos (ty : ElType) : 0 < ty.width := by cases ty <;> decide

theorem ElType.width_le (ty : ElType) : ty.width ≤ 64 := by cases ty <;> decide

theorem ElType.lanes_le (ty : ElType) : ty.lanes ≤ 64 := by cases ty <;> decide

/-- The lanes fill the register (R32). -/
theorem ElType.width_mul_lanes (ty : ElType) : ty.width * ty.lanes = 512 := by cases ty <;> rfl

/-- A lane is whole bytes. -/
theorem ElType.width_bytes (ty : ElType) : 8 * (ty.width / 8) = ty.width := by cases ty <;> rfl

end Sys2Proof

namespace Sys2Proof.Machine

/-! ### Lanes of a register (R107) -/

theorem lane_lt (w : Nat) (b : Block) (i : Nat) : lane w b i < 2 ^ w := Nat.mod_lt _ (Nat.two_pow_pos w)

@[simp] theorem lane_mod (w : Nat) (b : Block) (i : Nat) : lane w b i % 2 ^ w = lane w b i := Nat.mod_eq_of_lt (lane_lt w b i)

theorem ofLanes_lt (w : Nat) (l : List Nat) : ofLanes w l < 2 ^ (w * l.length) := by
  induction l with
  | nil => simp [ofLanes]
  | cons x l ih =>
    have hx : x % 2 ^ w < 2 ^ w := Nat.mod_lt _ (Nat.two_pow_pos w)
    have hl : 2 ^ w * (ofLanes w l + 1) ≤ 2 ^ w * 2 ^ (w * l.length) := Nat.mul_le_mul_left _ ih
    rw [ofLanes, List.length_cons, Nat.mul_succ, Nat.add_comm (w * _), Nat.pow_add]
    rw [Nat.mul_succ] at hl
    omega

theorem ofLanes_div (w : Nat) (l : List Nat) {i : Nat} (h : i < l.length) : ofLanes w l / 2 ^ (w * i) % 2 ^ w = l[i] % 2 ^ w := by
  induction l generalizing i with
  | nil => simp at h
  | cons x l ih =>
    have hx : x % 2 ^ w < 2 ^ w := Nat.mod_lt _ (Nat.two_pow_pos w)
    cases i with
    | zero => simp [ofLanes]
    | succ i =>
      have hdiv : ofLanes w (x :: l) / 2 ^ w = ofLanes w l := by
        rw [ofLanes, Nat.add_mul_div_left _ _ (Nat.two_pow_pos w), Nat.div_eq_of_lt hx, Nat.zero_add]
      rw [Nat.mul_succ, Nat.add_comm (w * i), Nat.pow_add, ← Nat.div_div_eq_div_mul, hdiv]
      exact ih (by simpa using h)

theorem lane_vecOf {w i : Nat} {l : List Nat} (hl : w * l.length ≤ 512) (h : i < l.length) : lane w (vecOf w l) i = l[i] % 2 ^ w := by
  have hlt : ofLanes w l < 2 ^ 512 := Nat.lt_of_lt_of_le (ofLanes_lt w l) (Nat.pow_le_pow_right Nat.two_pos hl)
  rw [lane, vecOf, fld, BitVec.toNat_ofNat, Nat.mod_eq_of_lt hlt, ofLanes_div w l h]

/-- A register that is given lane by lane. -/
theorem lane_vecOf_range (ty : ElType) (f : Nat → Nat) {j : Nat} (h : j < ty.lanes) :
    lane ty.width (vecOf ty.width ((List.range ty.lanes).map f)) j = f j % 2 ^ ty.width := by
  have hl : ((List.range ty.lanes).map f).length = ty.lanes := by simp
  rw [lane_vecOf (by rw [hl, ty.width_mul_lanes]) (by rwa [hl]), List.getElem_map, List.getElem_range]

/-! ### Lanes as integers (R110, R111) -/

theorem toSigned_eq_toInt {w : Nat} (h : 0 < w) (x : Nat) : toSigned w x = (BitVec.ofNat w x).toInt := by
  have hw : 2 ^ w = 2 * 2 ^ (w - 1) := by rw [← Nat.pow_succ']; congr 1; omega
  have hx : (x : Int) % 2 ^ w = ((x % 2 ^ w : Nat) : Int) := by push_cast; rfl
  have hp : (2 : Int) ^ w = ((2 ^ w : Nat) : Int) := by push_cast; rfl
  rw [toSigned, BitVec.toInt_eq_toNat_cond, BitVec.toNat_ofNat, hx, hp]
  split <;> split <;> omega

theorem laneInt_eq_laneValue {w : Nat} (h : 0 < w) (un : Bool) (x : Nat) : laneInt un w x = laneValue un w x := by
  rw [laneInt, laneValue, toSigned_eq_toInt h]

/-- Clamping between two bounds, as the model writes it. -/
theorem clamp_eq_max_min {lo hi : Int} (h : lo ≤ hi) (x : Int) : (if x < lo then lo else if hi < x then hi else x) = max lo (min hi x) := by
  split
  · omega
  · split <;> omega

theorem laneRange_le (un : Bool) (w : Nat) : (laneRange un w).1 ≤ (laneRange un w).2 := by
  have h1 : (0 : Int) < 2 ^ w := by positivity
  have h2 : (0 : Int) < 2 ^ (w - 1) := by positivity
  cases un
  · change -(2 ^ (w - 1) : Int) ≤ 2 ^ (w - 1) - 1
    omega
  · change (0 : Int) ≤ 2 ^ w - 1
    omega

theorem laneCut_eq_laneOf (un sat : Bool) (w : Nat) (x : Int) : laneCut un sat w x = laneOf un sat w x := by
  have hclamp := clamp_eq_max_min (laneRange_le un w) x
  unfold laneCut laneOf
  dsimp only
  rw [hclamp]
  cases un <;> rfl

/-- What is cut to a lane fits in it. -/
@[simp] theorem laneOf_mod (un sat : Bool) (w : Nat) (x : Int) : laneOf un sat w x % 2 ^ w = laneOf un sat w x := by
  have hp : (0 : Int) < 2 ^ w := by positivity
  have hlt : laneOf un sat w x < 2 ^ w := by
    unfold laneOf
    zify
    rw [Int.toNat_of_nonneg (Int.emod_nonneg _ hp.ne')]
    exact Int.emod_lt_of_pos _ hp
  exact Nat.mod_eq_of_lt hlt

/-! ### Mask registers (R108) -/

theorem mask_getLsbD (s : State) (m : Reg) {j : Nat} (h : j < 64) : (s.mask m).getLsbD j = true ↔ Active s m j := by
  unfold State.mask Active
  split
  next hm => rw [BitVec.getLsbD_allOnes]; simp [hm, h]
  next hm => simp [hm]

theorem mask_lane (s : State) (m : Reg) {ty : ElType} {j : Nat} (h : j < ty.lanes) : (s.mask m).getLsbD j = true ↔ Active s m j :=
  mask_getLsbD s m (Nat.lt_of_lt_of_le h ty.lanes_le)

/-! ### Flags (R110) -/

theorem foldl_flags_getLsbD (p : Nat → Bool) (g : Nat → FFlags) (l : List Nat) (a : FFlags) (k : Nat) :
    (l.foldl (fun a i => if p i then a ||| g i else a) a).getLsbD k = true ↔ a.getLsbD k = true ∨ ∃ i ∈ l, p i = true ∧ (g i).getLsbD k = true := by
  induction l generalizing a with
  | nil => simp
  | cons i l ih =>
    rw [List.foldl_cons, ih, List.exists_mem_cons_iff]
    cases p i
    · simp
    · simp [or_assoc]

theorem vecFlags_getLsbD (s : State) (ty : ElType) (m : Reg) (f : Nat → LaneRes) (k : Nat) :
    (vecFlags ty (s.mask m) f).getLsbD k = true ↔ ∃ j, j < ty.lanes ∧ Active s m j ∧ (f j).2.getLsbD k = true := by
  rw [vecFlags, foldl_flags_getLsbD (fun i => (s.mask m).getLsbD i) (fun i => (f i).2)]
  refine (or_iff_right (by simp)).trans (exists_congr fun j => ?_)
  rw [List.mem_range]
  exact and_congr_right fun hj => by rw [mask_lane s m hj]

/-- No flags raised: the slot is as a write of a register and the move past the instruction leave it. -/
theorem State.flag_zero_wr_past (s : State) (d : Reg) (v : Word) (n : Nat) : ((s.flag 0).wr d v).past n = (s.wr d v).past n := by
  simp [State.flag, State.wr, State.past]

/-! ### How the vector instructions end (R108, R110) -/

/-- A vector instruction gives its active lanes their results, and no more. -/
theorem givesLanes_vecInstr {i : Instr} {s : State} {n : Nat} {ty : ElType} {m d : Reg} {f g : Nat → LaneRes}
    (h : exec i s = vecInstr n ty m d f s) (hv : ∀ j, j < ty.lanes → (f j).1 % 2 ^ ty.width = (g j).1 % 2 ^ ty.width)
    (hf : ∀ j, j < ty.lanes → (f j).2 = (g j).2) : GivesLanes i s n ty m d g := by
  refine ⟨vecActive ty (s.mask m) (s.rdv d) f, vecFlags ty (s.mask m) f, h, fun j hj => ?_, fun k => ?_⟩
  · have hl := lane_vecOf_range ty (fun i => if (s.mask m).getLsbD i then (f i).1 else lane ty.width (s.rdv d) i) hj
    refine ⟨fun ha => ?_, fun ha => ?_⟩
    · rw [vecActive, hl, if_pos ((mask_lane s m hj).mpr ha), hv j hj]
    · rw [vecActive, hl, if_neg (mt (mask_lane s m hj).mp ha), lane_mod]
  · rw [vecFlags_getLsbD]
    exact exists_congr fun j => and_congr_right fun hj => by rw [hf j hj]

/-- A vector instruction whose lane results are as they stand. -/
theorem givesLanes_of_eq {i : Instr} {s : State} {n : Nat} {ty : ElType} {m d : Reg} {f : Nat → LaneRes} (h : exec i s = vecInstr n ty m d f s) :
    GivesLanes i s n ty m d f := givesLanes_vecInstr h (fun _ _ => rfl) fun _ _ => rfl

/-- An instruction that writes every lane of a register. -/
theorem givesVector_vecOf {i : Instr} {s : State} {n : Nat} {ty : ElType} {d : Reg} {f g : Nat → Nat}
    (h : exec i s = resultV n d (vecOf ty.width ((List.range ty.lanes).map f)) s) (hv : ∀ j, j < ty.lanes → f j = g j) : GivesVector i s n ty d g :=
  ⟨_, h, fun j hj => (lane_vecOf_range ty f hj).trans (by rw [hv j hj])⟩

end Sys2Proof.Machine
end

section
/-! Vector arithmetic, logic, shifts, fused multiply-add and signs (R111 to R115). -/

namespace Sys2Proof.Machine

/-! ### The shapes of the lane instructions -/

section
variable {i : Instr} {s : State} {n : Nat} {ty : ElType} {m d a b : Reg}

/-- Two operands: an integer operation on exact integers, or a scalar floating-point one (R110, R111). -/
theorem givesLanes_vecTwo {bs un sat : Bool} {f op : Int → Int → Int} {g : Fmt → Rm → Nat → Nat → Rnd} (h : exec i s = vecTwo n ty m d a b bs un sat f g s)
    (hop : ∀ p q, f p q = op p q) : GivesLanes i s n ty m d fun j =>
      if ty.isInt then (laneOf un sat ty.width (op (laneValue un ty.width (s.va ty a j)) (laneValue un ty.width (s.vb ty bs b j))), 0)
      else ((g (elFmt ty) s.rm (s.va ty a j) (s.vb ty bs b j)).code, (g (elFmt ty) s.rm (s.va ty a j) (s.vb ty bs b j)).flags) := by
  obtain rfl : f = op := funext fun p => funext fun q => hop p q
  simp only [← laneCut_eq_laneOf, ← laneInt_eq_laneValue ty.width_pos]
  exact givesLanes_of_eq h

/-- The high half of a product (R111). -/
theorem givesLanes_vecHigh {bs un : Bool} (h : exec i s = vecHigh n ty m d a b bs un s) : GivesLanes i s n ty m d fun j =>
    if ty.isInt then (laneOf un false ty.width
      (laneValue un ty.width (s.va ty a j) * laneValue un ty.width (s.vb ty bs b j) / 2 ^ ty.width), 0)
    else ((fMul (elFmt ty) s.rm (s.va ty a j) (s.vb ty bs b j)).code, (fMul (elFmt ty) s.rm (s.va ty a j) (s.vb ty bs b j)).flags) :=
  givesLanes_vecTwo (f := fun p q => p * q / 2 ^ ty.width) (op := fun p q => p * q / 2 ^ ty.width) h fun _ _ => rfl

/-- An operation on bit patterns raises no flag; its results are cut to the lane (R112, R113). -/
theorem givesLanes_bits {f g : Nat → Nat} (h : exec i s = vecInstr n ty m d (fun j => (f j, 0)) s)
    (hv : ∀ j, f j % 2 ^ ty.width = g j % 2 ^ ty.width) : GivesLanes i s n ty m d fun j => (g j, 0) :=
  givesLanes_vecInstr h (fun j _ => hv j) fun _ _ => rfl

/-- Negation and absolute value (R115). -/
theorem givesLanes_vecSign {abs sat : Bool} (h : exec i s = vecSign n ty m d a abs sat s) : GivesLanes i s n ty m d fun j =>
    (if ty.isInt then laneOf false sat ty.width
      (if abs ∧ 0 ≤ laneValue false ty.width (s.va ty a j) then laneValue false ty.width (s.va ty a j) else -laneValue false ty.width (s.va ty a j))
     else fSign (elFmt ty) abs (s.va ty a j), 0) := by
  have hneg (v : Int) : (if abs && decide (0 ≤ v) then v else -v) = if abs ∧ 0 ≤ v then v else -v := by simp
  have hval (x : Nat) : toSigned ty.width x = laneValue false ty.width x := laneInt_eq_laneValue ty.width_pos false x
  have hlane : (fun j => (if ty.isInt then laneCut false sat ty.width
      (if abs && decide (0 ≤ toSigned ty.width (s.va ty a j)) then toSigned ty.width (s.va ty a j) else -toSigned ty.width (s.va ty a j))
     else fSign (elFmt ty) abs (s.va ty a j), (0 : FFlags))) = _ := funext fun j => by rw [hval, hneg, laneCut_eq_laneOf]
  rw [← hlane]
  refine givesLanes_vecInstr h (fun j _ => ?_) fun j _ => ?_ <;> cases ty.isInt <;> rfl

end

/-! ### Operand b and the operations -/

theorem State.vb_lt (s : State) (ty : ElType) (bs : Bool) (b : Reg) (j : Nat) : s.vb ty bs b j < 2 ^ ty.width := by
  unfold State.vb
  split
  · exact Nat.mod_lt _ (Nat.two_pow_pos _)
  · exact lane_lt ..

theorem laneSll_mod (w x n : Nat) : laneSll w x n % 2 ^ w = x <<< n % 2 ^ w := by
  rw [laneSll, Nat.mod_mod, Nat.shiftLeft_eq]

theorem laneSrl_eq (x n : Nat) : laneSrl x n = x >>> n := (Nat.shiftRight_eq_div_pow x n).symm

theorem laneSra_eq {w : Nat} (h : 0 < w) (x n : Nat) : laneSra w x n = laneOf true false w (laneValue false w x / 2 ^ n) := by
  rw [laneSra, laneCut_eq_laneOf, toSigned_eq_toInt h]
  rfl

/-- The complement of a lane, as a difference and as a bit vector's. -/
theorem and_complement {w x y : Nat} (hx : x < 2 ^ w) (hy : y < 2 ^ w) : x &&& (2 ^ w - 1 - y) = (BitVec.ofNat w x &&& ~~~BitVec.ofNat w y).toNat := by
  rw [BitVec.toNat_and, BitVec.toNat_not, BitVec.toNat_ofNat, BitVec.toNat_ofNat, Nat.mod_eq_of_lt hx, Nat.mod_eq_of_lt hy]

theorem lesser_eq_min (p q : Int) : (if p < q then p else q) = min p q := by
  split <;> omega

theorem greater_eq_max (p q : Int) : (if p < q then q else p) = max p q := by
  split <;> omega

/-- Settles O27: each instruction by the shape of its lanes, the integer ones by the exact operation. -/
theorem vectorLaneResults : Obligations.VectorLaneResults := by
  intro s ty m d a b vc bs un sat imm w f x z z0 y two bit fma sign
  have hand (bs : Bool) (j : Nat) : x j &&& (2 ^ w - 1 - y bs j) = (BitVec.ofNat w (x j) &&& ~~~BitVec.ofNat w (y bs j)).toNat :=
    and_complement (lane_lt ..) (s.vb_lt ty bs b j)
  have hsll (p q : Nat) : laneSll w p q % 2 ^ w = p <<< q % 2 ^ w := laneSll_mod ..
  have hsrl (p q : Nat) : laneSrl p q % 2 ^ w = p >>> q % 2 ^ w := by rw [laneSrl_eq]
  have hsra (p q : Nat) : laneSra w p q % 2 ^ w = laneOf true false w (laneValue false w p / 2 ^ q) % 2 ^ w := by rw [laneSra_eq ty.width_pos]
  have htwo {i : Instr} {n : Nat} {bs un sat : Bool} {op : Int → Int → Int} (p : Int → Int → Int) (g : Fmt → Rm → Nat → Nat → Rnd)
      (h : exec i s = vecTwo n ty m d a b bs un sat p g s) (hop : ∀ u v, p u v = op u v) : two i n bs un sat op (g f) := givesLanes_vecTwo h hop
  have hhigh {i : Instr} {n : Nat} {bs un : Bool} (h : exec i s = vecHigh n ty m d a b bs un s) :
      two i n bs un false (fun p q => p * q / 2 ^ w) (fMul f) := givesLanes_vecHigh h
  have hbit {i : Instr} {n : Nat} {p g : Nat → Nat} (h : exec i s = vecInstr n ty m d (fun j => (p j, 0)) s)
      (hv : ∀ j, p j % 2 ^ w = g j % 2 ^ w) : bit i n g := givesLanes_bits h hv
  have hfma {i : Instr} {n : Nat} {bs neg : Bool} {vc : Reg} (h : exec i s = vecFma n ty m d a b bs vc neg s) :
      fma i n bs neg fun j => lane w (s.rdv vc) j := givesLanes_of_eq h
  have hsign {i : Instr} {n : Nat} {abs sat : Bool} (h : exec i s = vecSign n ty m d a abs sat s) : sign i n abs sat := givesLanes_vecSign h
  refine ⟨?vadd, ?vaddX, ?vsub, ?vsubX, ?vmul, ?vmulX, fun _ => ⟨?vmulh, ?vmulhX⟩, ?vmin, ?vminX, ?vmax, ?vmaxX, ?vand, ?vandX, ?vor, ?vxor, ?vandn,
    ?vsll, ?vsllX, ?vsrl, ?vsra, ?vslli, ?vsrli, ?vsrai, ?vfma, ?vfmaX, ?vfnma, ?vneg, ?vnegX, ?vabs⟩
  case vadd | vaddX => exact htwo (· + ·) fAdd rfl fun _ _ => rfl
  case vsub | vsubX => exact htwo (· - ·) fSub rfl fun _ _ => rfl
  case vmul | vmulX => exact htwo (· * ·) fMul rfl fun _ _ => rfl
  case vmulh | vmulhX => exact hhigh rfl
  case vmin | vminX => exact htwo (fun p q => if p < q then p else q) (fun f _ => fMinMax f false) rfl lesser_eq_min
  case vmax | vmaxX => exact htwo (fun p q => if p < q then q else p) (fun f _ => fMinMax f true) rfl greater_eq_max
  case vand | vandX | vor | vxor => exact hbit rfl fun _ => rfl
  case vandn => exact hbit rfl fun j => congrArg (· % 2 ^ w) (hand bs j)
  case vsll | vsllX | vslli => exact hbit rfl fun _ => hsll ..
  case vsrl | vsrli => exact hbit rfl fun _ => hsrl ..
  case vsra | vsrai => exact hbit rfl fun _ => hsra ..
  case vfma | vfmaX | vfnma => exact hfma rfl
  case vneg | vnegX | vabs => exact hsign rfl

end Sys2Proof.Machine
end

section
/-! Permutations, slides, broadcasts, moves between lanes and scalar registers, compression and expansion (R121 to R123). -/

namespace Sys2Proof.Machine

/-! ### Lanes taken from lanes (R121) -/

section
variable {i : Instr} {s : State} {n : Nat} {ty : ElType} {m d a : Reg}

/-- The lanes that name a source and are active move; the others stay. -/
theorem givesVector_vecMove {p : Nat → Prop} [DecidablePred p] {c : Nat → Nat}
    (h : exec i s = vecMove n ty m d a (fun j => if p j then some (c j) else none) s) : GivesVector i s n ty d fun j =>
      if p j ∧ (m = 0 ∨ (s.rd m).getLsbD j = true) then lane ty.width (s.rdv a) (c j) else lane ty.width (s.rdv d) j := by
  refine givesVector_vecOf h fun j hj => ?_
  by_cases hp : p j
  · simp only [hp, if_true, true_and]
    exact if_congr (mask_lane s m hj) rfl rfl
  · simp only [hp, if_false, false_and]
    rfl

/-- Every lane names a source. -/
theorem givesVector_vecMove_all {c : Nat → Nat} (h : exec i s = vecMove n ty m d a (fun j => some (c j)) s) : GivesVector i s n ty d fun j =>
    if m = 0 ∨ (s.rd m).getLsbD j = true then lane ty.width (s.rdv a) (c j) else lane ty.width (s.rdv d) j :=
  givesVector_vecOf h fun _ hj => if_congr (mask_lane s m hj) rfl rfl

end

/-! ### Active lanes in order (R123) -/

/-- The active lanes below lane i, of lanes that reach at least to it. -/
theorem activeBelow_eq (k : Word) {i l : Nat} (h : i ≤ l) :
    activeBelow k i = (((List.range l).filter fun j => k.getLsbD j).filter fun j => decide (j < i)).length := by
  have hsplit : List.range l = List.range i ++ (List.range (l - i)).map (i + ·) := by rw [← List.range_add, Nat.add_sub_cancel' h]
  have hlow : (List.range i).countP (k.toNat % 2 ^ i).testBit = (List.range i).countP fun j => decide (j < i) && k.getLsbD j :=
    List.countP_congr fun j _ => by
      rw [Nat.testBit_mod_two_pow]
      rfl
  rw [activeBelow, ones_eq_countP, hlow, List.filter_filter, ← List.countP_eq_length_filter, hsplit, List.countP_append, List.countP_map]
  simp [Function.comp_def]

theorem activeBelow_lanes (ty : ElType) (k : Word) : activeBelow k ty.lanes = ((List.range ty.lanes).filter fun j => k.getLsbD j).length := by
  rw [activeBelow_eq k (Nat.le_refl _), List.filter_eq_self.mpr]
  intro j hj
  exact decide_eq_true (List.mem_range.mp (List.mem_filter.mp hj).1)

/-- A list of lanes, and the lanes of a register beyond its end. -/
theorem lane_vecOf_append_drop {ty : ElType} {l : List Nat} (hl : l.length ≤ ty.lanes) (old : Block) {j : Nat} (hj : j < ty.lanes) :
    lane ty.width (vecOf ty.width (l ++ ((List.range ty.lanes).drop l.length).map (lane ty.width old))) j =
      (l[j]?.map (· % 2 ^ ty.width)).getD (lane ty.width old j) := by
  have hlen : (l ++ ((List.range ty.lanes).drop l.length).map (lane ty.width old)).length = ty.lanes := by simp [hl]
  rw [lane_vecOf (by rw [hlen, ty.width_mul_lanes]) (hlen.symm ▸ hj)]
  by_cases h : j < l.length
  · rw [List.getElem_append_left h, List.getElem?_eq_getElem h, Option.map_some, Option.getD_some]
  · have hge : l.length ≤ j := Nat.le_of_not_lt h
    rw [List.getElem_append_right hge, List.getElem?_eq_none hge]
    simp [hge]

/-! ### The instructions -/

/-- Compression: the active lanes go to the lowest lanes, and their number to a scalar register (R123). -/
theorem vecCprs_packs {i : Instr} {s : State} {n : Nat} {ty : ElType} {m d a sx : Reg} (h : exec i s = vecCprs n ty m d a sx s) :
    let act := (List.range ty.lanes).filter fun j => (s.mask m).getLsbD j
    ∃ v : Block, exec i s = .next (((s.wr sx (BitVec.ofNat 64 act.length)).wrv d v).past n) ∧ ∀ j, j < ty.lanes →
      lane ty.width v j = (act[j]?.map (lane ty.width (s.rdv a))).getD (lane ty.width (s.rdv d) j) := by
  intro act
  have hlen : (activeLanes ty (s.mask m) (s.rdv a)).length = act.length := List.length_map ..
  have hle : act.length ≤ ty.lanes := by simpa using List.length_filter_le (fun j => (s.mask m).getLsbD j) (List.range ty.lanes)
  have hfit : (· % 2 ^ ty.width) ∘ lane ty.width (s.rdv a) = lane ty.width (s.rdv a) := funext fun _ => lane_mod ..
  refine ⟨_, h.trans (congrArg (fun l => resultV n d _ (s.wr sx (BitVec.ofNat 64 l))) hlen), fun j hj => ?_⟩
  refine (lane_vecOf_append_drop (hlen.trans_le hle) (s.rdv d) hj).trans ?_
  rw [activeLanes, List.getElem?_map, Option.map_map, hfit]

/-- Expansion: the active lanes take the lowest lanes of the source in turn (R123). -/
theorem vecExpd_packs (s : State) (ty : ElType) (m d a sx : Reg) :
    let act := (List.range ty.lanes).filter fun j => (s.mask m).getLsbD j
    ∃ v : Block, exec (.vexpd ty m d a sx) s = .next (((s.wr sx (BitVec.ofNat 64 act.length)).wrv d v).past 12) ∧ ∀ j, j < ty.lanes →
      lane ty.width v j =
        if m = 0 ∨ (s.rd m).getLsbD j = true then lane ty.width (s.rdv a) ((act.filter fun i => i < j).length) else lane ty.width (s.rdv d) j := by
  intro act
  refine ⟨_, congrArg (fun l => resultV 12 d _ (s.wr sx (BitVec.ofNat 64 l))) (activeBelow_lanes ty (s.mask m)), fun j hj => ?_⟩
  rw [lane_vecOf_range ty _ hj, activeBelow_eq (s.mask m) hj.le, apply_ite (· % 2 ^ ty.width)]
  exact if_congr (mask_lane s m hj) (lane_mod ..) (lane_mod ..)

/-- Settles O29: each instruction by where its lanes come from. -/
theorem vectorMoveResults : Obligations.VectorMoveResults := by
  intro s ty m d a b sx bs un k w x old y act low bcast ext packs
  have hext {i : Instr} {n : Nat} {un : Bool} {r : Reg} {k : Nat} (h : exec i s = vecExt n ty a un r k s) : ext i n un r k := by
    have hv : (if ty.isInt && !un then sext w (x k) else BitVec.ofNat 64 (x k)) =
        if ty.isInt ∧ un = false then (BitVec.ofNat w (x k)).signExtend 64 else BitVec.ofNat 64 (x k) := by
      rw [sext_eq_signExtend ty.width_pos]
      exact if_congr (by simp) rfl rfl
    exact h.trans (congrArg (result n r · s) hv)
  have hpacks {i : Instr} {n : Nat} {r : Reg} (h : exec i s = vecCprs n ty m d a r s) :
      packs i n r fun j => match act[j]? with | some i => x i | none => old j := by
    obtain ⟨v, he, hv⟩ := vecCprs_packs h
    refine ⟨v, he, fun j hj => (hv j hj).trans ?_⟩
    change _ = match act[j]? with | some i => x i | none => old j
    cases act[j]? <;> rfl
  refine ⟨?vperm, ?vpermX, ?vslideh, ?vslidel, ?vrev, ?vbcast, ?vbcastX, ?vbcastl, ?vindex, ?vext, ?vextX, ?vins, ?vcprs, ?vcprsX, ?vexpd⟩
  case vperm | vpermX | vrev => exact givesVector_vecMove_all rfl
  case vslideh | vslidel => exact givesVector_vecMove rfl
  case vbcast | vbcastX | vbcastl | vindex => exact givesLanes_of_eq rfl
  case vext | vextX => exact hext rfl
  case vins => exact givesVector_vecOf rfl fun _ _ => rfl
  case vcprs | vcprsX => exact hpacks rfl
  case vexpd => exact vecExpd_packs s ty m d a sx

end Sys2Proof.Machine
end

section
/-! Vector compares, reductions and dot products (R117, R119, R120). -/

namespace Sys2Proof.Machine

/-! ### Masks of lanes (R117) -/

/-- A number as the sum of the powers of two that a condition picks. -/
theorem foldl_pow_testBit (p : Nat → Bool) (n : Nat) :
    (List.range n).foldl (fun a i => if p i then a + 2 ^ i else a) 0 < 2 ^ n ∧
      ∀ j, ((List.range n).foldl (fun a i => if p i then a + 2 ^ i else a) 0).testBit j = (decide (j < n) && p j) := by
  induction n with
  | zero => simp
  | succ n ih =>
    obtain ⟨hlt, hbit⟩ := ih
    rw [List.range_succ, List.foldl_append, List.foldl_cons, List.foldl_nil]
    generalize (List.range n).foldl (fun a i => if p i then a + 2 ^ i else a) 0 = v at hlt hbit
    have hv : (if p n then v + 2 ^ n else v) < 2 ^ (n + 1) := by
      rw [Nat.pow_succ]
      split <;> omega
    refine ⟨hv, fun j => ?_⟩
    rcases Nat.lt_trichotomy j n with hj | rfl | hj
    · have hj1 : j < n + 1 := Nat.lt_succ_of_lt hj
      split
      · rw [Nat.add_comm, Nat.testBit_two_pow_add_gt hj, hbit]
        simp [hj, hj1]
      · rw [hbit]
        simp [hj, hj1]
    · split
      next hp => rw [Nat.add_comm, Nat.testBit_two_pow_add_eq, hbit]; simp [hp]
      next hp => rw [hbit]; simp [hp]
    · have hj1 : ¬ j < n + 1 := by omega
      rw [Nat.testBit_lt_two_pow (Nat.lt_of_lt_of_le hv (Nat.pow_le_pow_right Nat.two_pos hj))]
      simp [hj1]

theorem cmpMask_getLsbD (ty : ElType) (k : Word) (f : Nat → Bool) (j : Nat) :
    (cmpMask ty k f).getLsbD j = true ↔ j < ty.lanes ∧ k.getLsbD j = true ∧ f j = true := by
  have hbit := (foldl_pow_testBit (fun i => k.getLsbD i && f i) ty.lanes).2 j
  rw [cmpMask, BitVec.getLsbD_ofNat, hbit]
  simp only [Bool.and_eq_true, decide_eq_true_eq]
  exact and_iff_right_of_imp fun h => Nat.lt_of_lt_of_le h.1 ty.lanes_le

/-! ### Compares (R117) -/

section
variable {i : Instr} {s : State} {n : Nat} {ty : ElType} {m r : Reg}

/-- An instruction whose mask is that of a comparison of its lanes. -/
theorem givesMask_cmpMask {f : Nat → Bool} {p : Nat → Prop} {fl : FFlags} {g : Nat → FFlags}
    (h : exec i s = .next (((s.flag fl).wr r (cmpMask ty (s.mask m) f)).past n)) (hp : ∀ j, f j = true ↔ p j)
    (hg : ∀ k, fl.getLsbD k = true ↔ ∃ j, j < ty.lanes ∧ Active s m j ∧ (g j).getLsbD k = true) : GivesMask i s n ty m r p g := by
  refine ⟨_, fl, h, fun j => ?_, hg⟩
  rw [cmpMask_getLsbD, hp]
  exact and_congr_right fun hj => and_congr_left fun _ => mask_lane s m hj

/-- Integer lanes are compared as numbers and raise no flag; floating-point lanes are compared as the scalar compares do. -/
theorem givesMask_vecCmp {a b : Reg} {bs un unord ordered : Bool} {ok : Ordering → Bool} (h : exec i s = vecCmp n ty m a b bs un r ok unord ordered s) :
    GivesMask i s n ty m r
      (fun j => if ty.isInt then ok (compare (laneValue un ty.width (s.va ty a j)) (laneValue un ty.width (s.vb ty bs b j))) = true
        else ((fCmp (elFmt ty) ordered (s.va ty a j) (s.vb ty bs b j)).1.map ok).getD unord = true)
      fun j => if ty.isInt then 0 else (fCmp (elFmt ty) ordered (s.va ty a j) (s.vb ty bs b j)).2 := by
  simp only [← laneInt_eq_laneValue ty.width_pos]
  cases hty : ty.isInt
  · rw [vecCmp, if_neg (by simp [hty])] at h
    refine givesMask_cmpMask h (fun j => ?_) fun k => vecFlags_getLsbD ..
    cases (fCmp (elFmt ty) ordered (s.va ty a j) (s.vb ty bs b j)).1 <;> exact Iff.rfl
  · rw [vecCmp, if_pos hty, result, ← State.flag_zero_wr_past] at h
    exact givesMask_cmpMask h (fun _ => Iff.rfl) fun _ => by simp

end

/-! ### Sums of lanes (R119, R120) -/

theorem foldl_add_eq_sum {α : Type} (g : α → Int) (l : List α) (a : Int) : l.foldl (fun t x => t + g x) a = a + (l.map g).sum := by
  induction l generalizing a with
  | nil => simp
  | cons x l ih => rw [List.foldl_cons, ih, List.map_cons, List.sum_cons, Int.add_assoc]

theorem dotI8_eq (un sat : Bool) (a b : Block) (dj j : Nat) : dotI8 un sat a b dj j = (laneOf false sat 32 ((BitVec.ofNat 32 dj).toInt +
    ((List.range 4).map fun k => laneValue un 8 (lane 8 a (4 * j + k)) * laneValue un 8 (lane 8 b (4 * j + k))).sum), 0) := by
  rw [dotI8, foldl_add_eq_sum, laneCut_eq_laneOf, toSigned_eq_toInt (by decide)]
  simp only [laneInt_eq_laneValue (show 0 < 8 by decide)]

/-! ### The least and the greatest lane (R119) -/

theorem laneInt_bounds {w x : Nat} (hw : 0 < w) (un : Bool) (hx : x < 2 ^ w) :
    (laneRange un w).1 ≤ laneInt un w x ∧ laneInt un w x ≤ (laneRange un w).2 := by
  cases un
  · rw [laneInt_eq_laneValue hw]
    have hlo := BitVec.le_toInt (BitVec.ofNat w x)
    have hhi := BitVec.toInt_lt (x := BitVec.ofNat w x)
    exact ⟨hlo, Int.le_sub_one_of_lt hhi⟩
  · refine ⟨Int.natCast_nonneg x, Int.le_sub_one_of_lt ?_⟩
    change (x : Int) < 2 ^ w
    exact_mod_cast hx

/-- Picking from element to element what comes first under a key. -/
theorem foldl_pick (key : Int → Int) (l : List Int) (t : Int) :
    let v := l.foldl (fun t y => if key y < key t then y else t) t
    v ∈ t :: l ∧ ∀ y ∈ t :: l, key v ≤ key y := by
  induction l generalizing t with
  | nil => simp
  | cons x l ih =>
    obtain ⟨hmem, hle⟩ := ih (if key x < key t then x else t)
    obtain ⟨hpick, hle⟩ := List.forall_mem_cons.mp hle
    rw [List.foldl_cons]
    refine ⟨?_, List.forall_mem_cons.mpr ⟨?_, List.forall_mem_cons.mpr ⟨?_, hle⟩⟩⟩
    · rcases List.mem_cons.mp hmem with h | h
      · rw [h]
        split <;> simp
      · exact List.mem_cons_of_mem _ (List.mem_cons_of_mem _ h)
    · refine hpick.trans ?_
      split <;> omega
    · refine hpick.trans ?_
      split <;> omega

/-- Where no element comes after the start, what comes first is the start only if there is no element. -/
theorem foldl_first {key : Int → Int} (hkey : Function.Injective key) (l : List Int) (top : Int) (htop : ∀ y ∈ l, key y ≤ key top) :
    let v := l.foldl (fun t y => if key y < key t then y else t) top
    (l = [] → v = top) ∧ (l ≠ [] → v ∈ l) ∧ ∀ y ∈ l, key v ≤ key y := by
  intro v
  obtain ⟨hmem, hle⟩ := foldl_pick key l top
  obtain ⟨-, hle⟩ := List.forall_mem_cons.mp hle
  refine ⟨fun h => by subst h; rfl, fun h => ?_, hle⟩
  rcases List.mem_cons.mp hmem with hv | hv
  · obtain ⟨y, hy⟩ := List.exists_mem_of_ne_nil l h
    have hyv : key y = key top := Int.le_antisymm (htop y hy) (congrArg key hv ▸ hle y hy)
    exact (show v = y from hv.trans (hkey hyv).symm) ▸ hy
  · exact hv

/-! ### Bitwise reductions (R119) -/

/-- Bit k of a bitwise reduction. -/
theorem foldl_testBit {op : Nat → Nat → Nat} {bop : Bool → Bool → Bool} {k : Nat} (h : ∀ x y, (op x y).testBit k = bop (x.testBit k) (y.testBit k))
    (l : List Nat) (init : Nat) : (l.foldl op init).testBit k = (l.map (·.testBit k)).foldl bop (init.testBit k) := by
  rw [List.foldl_map]
  exact (List.foldl_hom (g₂ := fun b y => bop b (y.testBit k)) (·.testBit k) fun x y => (h x y).symm).symm

theorem foldl_and_eq_all (l : List Bool) (b : Bool) : l.foldl (· && ·) b = (b && l.all id) := by
  induction l generalizing b with
  | nil => simp
  | cons x l ih => simp [ih, Bool.and_assoc]

theorem foldl_or_eq_any (l : List Bool) (b : Bool) : l.foldl (· || ·) b = (b || l.any id) := by
  induction l generalizing b with
  | nil => simp
  | cons x l ih => simp [ih, Bool.or_assoc]

theorem foldl_xor_eq_odd (l : List Bool) (b : Bool) : l.foldl (· ^^ ·) b = (b ^^ decide (l.countP id % 2 = 1)) := by
  induction l generalizing b with
  | nil => simp
  | cons x l ih =>
    have hodd (c : Nat) : decide ((c + 1) % 2 = 1) = !decide (c % 2 = 1) := by
      rcases Nat.mod_two_eq_zero_or_one c with h | h <;> simp [Nat.add_mod, h]
    rw [List.foldl_cons, ih, List.countP_cons]
    cases x
    · simp
    · simp [hodd]

/-- A lane has no bit beyond its width. -/
theorem lane_testBit_of_ge {w k : Nat} (h : w ≤ k) (b : Block) (j : Nat) : (lane w b j).testBit k = false :=
  Nat.testBit_lt_two_pow (Nat.lt_of_lt_of_le (lane_lt w b j) (Nat.pow_le_pow_right Nat.two_pos h))

section
variable (ty : ElType) (k : Word) (b : Block) (j : Nat)

theorem redAnd_testBit : ((activeLanes ty k b).foldl (· &&& ·) (2 ^ ty.width - 1)).testBit j =
    (decide (j < ty.width) && ((List.range ty.lanes).filter fun i => k.getLsbD i).all fun i => (lane ty.width b i).testBit j) := by
  rw [foldl_testBit (fun x y => Nat.testBit_and x y j), foldl_and_eq_all, Nat.testBit_two_pow_sub_one, activeLanes, List.map_map, List.all_map]
  rfl

theorem redOr_testBit : ((activeLanes ty k b).foldl (· ||| ·) 0).testBit j =
    (decide (j < ty.width) && ((List.range ty.lanes).filter fun i => k.getLsbD i).any fun i => (lane ty.width b i).testBit j) := by
  rw [foldl_testBit (fun x y => Nat.testBit_or x y j), foldl_or_eq_any, Nat.zero_testBit, Bool.false_or, activeLanes, List.map_map, List.any_map]
  by_cases hj : j < ty.width
  · rw [decide_eq_true hj, Bool.true_and]
    rfl
  · have hno : ∀ i, (lane ty.width b i).testBit j = false := lane_testBit_of_ge (Nat.le_of_not_lt hj) b
    simp [hno]

theorem redXor_testBit : ((activeLanes ty k b).foldl (· ^^^ ·) 0).testBit j =
    (decide (j < ty.width) && decide (((List.range ty.lanes).filter fun i => k.getLsbD i).countP (fun i => (lane ty.width b i).testBit j) % 2 = 1)) := by
  rw [foldl_testBit (fun x y => Nat.testBit_xor x y j), foldl_xor_eq_odd, Nat.zero_testBit, Bool.false_xor, activeLanes, List.map_map, List.countP_map]
  by_cases hj : j < ty.width
  · rw [decide_eq_true hj, Bool.true_and]
    rfl
  · have hno : ∀ i, (lane ty.width b i).testBit j = false := lane_testBit_of_ge (Nat.le_of_not_lt hj) b
    simp [hno, Function.comp_def]

end

/-! ### The reductions (R119) -/

section
variable (n : Nat) (ty : ElType) (m a sx : Reg) (un : Bool) (s : State)

theorem vecRedBits_gives {i : Instr} {f : Nat → Nat → Nat} {init : Nat} {g : Nat → Bool} (h : exec i s = vecRedBits ty m a sx f init s)
    (hg : ∀ k, ((activeLanes ty (s.mask m) (s.rdv a)).foldl f init).testBit k = (decide (k < ty.width) && g k)) :
    ∃ v : Word, Gives i s 12 sx v ∧ ∀ k, v.getLsbD k = true ↔ k < ty.width ∧ g k = true := by
  refine ⟨_, h, fun k => ?_⟩
  rw [BitVec.getLsbD_ofNat, hg]
  simp only [Bool.and_eq_true, decide_eq_true_eq]
  exact and_iff_right_of_imp fun h => Nat.lt_of_lt_of_le h.1 ty.width_le

/-- The sum of the active integer lanes. -/
theorem vecRedSum_int (hty : ty.isInt = true) : vecRedSum n ty m a un sx s = result n sx (BitVec.ofInt 64
    ((((List.range ty.lanes).filter fun j => (s.mask m).getLsbD j).map fun j => laneValue un ty.width (lane ty.width (s.rdv a) j)).sum)) s := by
  have hval (x : Nat) : laneInt un ty.width x = laneValue un ty.width x := laneInt_eq_laneValue ty.width_pos un x
  rw [vecRedSum, if_pos hty, foldl_add_eq_sum, Int.zero_add, activeLanes, List.map_map]
  simp only [Function.comp_def, hval]

/-- Some floating-point lanes are summed exactly and rounded once; the sum of none is +0. -/
theorem vecRedSum_float (hty : ty.isInt = false) :
    let act := (List.range ty.lanes).filter fun j => (s.mask m).getLsbD j
    let v := act.map fun j => unpack (elFmt ty) (lane ty.width (s.rdv a) j)
    let r := sumRound (elFmt ty) s.rm (zeroSign s.rm (v.all FVal.isNegZero)) v
    vecRedSum n ty m a un sx s = if act = [] then result n sx 0 s else result n sx (BitVec.ofNat 64 r.code) (s.flag r.flags) := by
  intro act v r
  have hv : (activeLanes ty (s.mask m) (s.rdv a)).map (unpack (elFmt ty)) = v := List.map_map ..
  rw [vecRedSum, if_neg (by simp [hty])]
  dsimp only
  rw [hv]
  exact if_congr (List.isEmpty_iff.trans List.map_eq_nil_iff) rfl rfl

/-- The least or the greatest active integer lane, as `key` says, or where none is active the bound that every lane meets. -/
theorem vecRedMinMax_int (hty : ty.isInt = true) (max : Bool) {key : Int → Int} (hkey : key = if max then Neg.neg else id) {top : Int}
    (htop : top = if max then (laneRange un ty.width).1 else (laneRange un ty.width).2) :
    let act := (List.range ty.lanes).filter fun j => (s.mask m).getLsbD j
    let value (j : Nat) : Int := laneValue un ty.width (lane ty.width (s.rdv a) j)
    ∃ v : Int, vecRedMinMax ty m a un sx max s = result 12 sx (BitVec.ofInt 64 v) s ∧
      (act = [] → v = top) ∧ (act ≠ [] → ∃ j ∈ act, v = value j) ∧ ∀ j ∈ act, key v ≤ key (value j) := by
  intro act value
  subst hkey htop
  have hinj : Function.Injective (if max then Neg.neg else id : Int → Int) := by
    cases max
    · exact Function.injective_id
    · exact neg_injective
  have hbound : ∀ y ∈ act.map value, (if max then Neg.neg else id : Int → Int) y ≤
      (if max then Neg.neg else id : Int → Int) (if max then (laneRange un ty.width).1 else (laneRange un ty.width).2) := by
    refine List.forall_mem_map.mpr fun j _ => ?_
    obtain ⟨hlo, hhi⟩ := laneInt_bounds ty.width_pos un (lane_lt ty.width (s.rdv a) j)
    rw [laneInt_eq_laneValue ty.width_pos] at hlo hhi
    cases max
    · exact hhi
    · exact neg_le_neg hlo
  obtain ⟨hnone, hsome, hle⟩ := foldl_first hinj (act.map value) _ hbound
  refine ⟨_, ?_, fun h => hnone (by rw [h]; rfl), fun h => ?_, fun j hj => hle _ (List.mem_map_of_mem hj)⟩
  · cases max
    · simp only [vecRedMinMax, hty, activeLanes, List.foldl_map, laneInt_eq_laneValue ty.width_pos, if_true]
      rfl
    · simp only [vecRedMinMax, hty, activeLanes, List.foldl_map, laneInt_eq_laneValue ty.width_pos, if_true, neg_lt_neg_iff]
      rfl
  · obtain ⟨j, hj, hv⟩ := List.mem_map.mp (hsome (by simpa using h))
    exact ⟨j, hj, hv.symm⟩

/-- The least or the greatest active floating-point lane: the scalar operation from lane to lane, with all its flags. -/
theorem vecRedMinMax_float (hty : ty.isInt = false) (max : Bool) :
    let r := (activeLanes ty (s.mask m) (s.rdv a)).foldl (fun (t : Rnd) v =>
      ⟨(fMinMax (elFmt ty) max t.code v).code, t.flags ||| (fMinMax (elFmt ty) max t.code v).flags⟩) ⟨(elFmt ty).nan, 0⟩
    vecRedMinMax ty m a un sx max s = result 12 sx (BitVec.ofNat 64 r.code) (s.flag r.flags) := by
  intro r
  rw [vecRedMinMax, if_neg (by simp [hty])]

end

end Sys2Proof.Machine
end

section
/-! Vector conversions (R67, R116). -/

namespace Sys2Proof.Machine

/-! ### The lanes of a conversion in order -/

section
variable (f : Option (BitVec 32) → Nat → LaneRes) (active : Nat → Bool)

/-- A stochastic conversion moves the generator once for each active lane. -/
theorem cvtLanes_draws (i k : Nat) (q : BitVec 32) :
    (cvtLanes true f active i k q).2 = Nat.repeat xorshift ((List.range' i k).countP active) q := by
  have hnext (n : Nat) (q : BitVec 32) : Nat.repeat xorshift n (xorshift q) = Nat.repeat xorshift (n + 1) q := by
    induction n with
    | zero => rfl
    | succ n ih => exact congrArg xorshift ih
  induction k generalizing i q with
  | zero => rfl
  | succ k ih =>
    rw [List.range'_succ, List.countP_cons, cvtLanes]
    cases active i
    · simp [ih]
    · simp [ih, hnext]

/-- A conversion that does not draw leaves the generator, and converts the active lanes alone. -/
theorem cvtLanes_still (i k : Nat) (q : BitVec 32) :
    cvtLanes false f active i k q = (((List.range' i k).filter active).map fun j => (j, f none j), q) := by
  induction k generalizing i with
  | zero => rfl
  | succ k ih =>
    rw [List.range'_succ, List.filter_cons, cvtLanes]
    cases active i <;> simp [ih]

end

/-- Of the lanes that a conversion writes, the one that goes to lane j. -/
theorem find_lane (first k : Nat) (active : Nat → Bool) (j : Nat) :
    ((List.range k).filter active).find? (fun i => decide (first + i = j)) =
      if first ≤ j ∧ j < first + k ∧ active (j - first) = true then some (j - first) else none := by
  split
  next h =>
    obtain ⟨hlo, hhi, ha⟩ := h
    have hmem : j - first ∈ (List.range k).filter active := List.mem_filter.mpr ⟨List.mem_range.mpr (by omega), ha⟩
    have hsome : (((List.range k).filter active).find? fun i => decide (first + i = j)).isSome = true :=
      List.find?_isSome.mpr ⟨_, hmem, decide_eq_true (Nat.add_sub_cancel' hlo)⟩
    obtain ⟨i, hi⟩ := Option.isSome_iff_exists.mp hsome
    have hij : first + i = j := by simpa using List.find?_some hi
    rw [hi, show i = j - first by omega]
  next h =>
    refine List.find?_eq_none.mpr fun i hi hij => h ?_
    obtain ⟨hr, ha⟩ := List.mem_filter.mp hi
    have hr := List.mem_range.mp hr
    have hij : first + i = j := of_decide_eq_true hij
    have hsub : j - first = i := by omega
    exact ⟨by omega, by omega, hsub ▸ ha⟩

/-! ### VCVT (R116) -/

/-- Only the register of more lanes has parts: its lanes start at one of them. -/
theorem part_lane (c : Prop) [Decidable c] (l i : Nat) : (if c then l + i else i) = (if c then l else 0) + i := by
  split <;> simp

theorem vecDraws_iff (x : Slot) (ty : ElType) : (!ty.isInt && x.draws (elFmt ty)) = true ↔ x.fpMode.getLsbD 3 = true ∧ ty.isInt = false ∧ ty ≠ .f32 := by
  rw [Bool.and_eq_true, draws_iff]
  cases ty <;> simp [elFmt, ElType.isInt]

/-- VCVT in the words of the rule: the lanes it reads and writes, and the generator. -/
theorem vecCvt_lanes (n : Nat) (ty src : ElType) (m d a : Reg) (un sat sun : Bool) (p : Nat) (s : State) :
    let k := Nat.min ty.lanes src.lanes
    let first := if src.lanes < ty.lanes then p * k else 0
    let off := if ty.lanes < src.lanes then p * k else 0
    let draws := !ty.isInt && s.me.draws (elFmt ty)
    ∃ (v : Block) (fl : FFlags) (q : BitVec 32), vecCvt n ty m d a un sat src sun p s = .next (s.vectorEnd n d v fl q) ∧
      (draws = true → q = Nat.repeat xorshift ((List.range k).countP fun j => (s.mask m).getLsbD (first + j)) s.me.srState) ∧
      (draws = false → q = s.me.srState ∧ ∀ j, j < ty.lanes → lane ty.width v j =
        if first ≤ j ∧ j < first + k ∧ (m = 0 ∨ (s.rd m).getLsbD j = true) then
          (cvtLane s.rm ty un sat src sun none (lane src.width (s.rdv a) (j - first + off))).1 % 2 ^ ty.width
        else lane ty.width (s.rdv d) j) := by
  intro k first off draws
  have hsrc (i : Nat) : (if ty.lanes < src.lanes then p * Nat.min ty.lanes src.lanes + i else i) = i + off := (part_lane ..).trans (Nat.add_comm ..)
  have hdst (i : Nat) : (if src.lanes < ty.lanes then p * Nat.min ty.lanes src.lanes + i else i) = first + i := part_lane ..
  refine ⟨_, _, _, resultV_drawn_flag .., fun hd => ?_, fun hd => ?_⟩
  · change (cvtLanes draws _ _ 0 k s.me.srState).2 = _
    rw [hd, cvtLanes_draws, List.range_eq_range']
    simp only [hdst]
  · change (cvtLanes draws _ _ 0 k s.me.srState).2 = _ ∧ ∀ j, j < ty.lanes → lane ty.width (vecOf ty.width ((List.range ty.lanes).map fun j =>
      match List.find? _ (cvtLanes draws _ _ 0 k s.me.srState).1 with | some r => r.2.1 | none => lane ty.width (s.rdv d) j)) j = _
    simp only [hd, cvtLanes_still, ← List.range_eq_range', hdst, hsrc, List.find?_map, Function.comp_def, true_and]
    intro j hj
    rw [lane_vecOf_range ty _ hj, find_lane first k (fun i => (s.mask m).getLsbD (first + i)) j]
    have hmask := mask_lane s m hj
    by_cases hr : first ≤ j ∧ j < first + k ∧ (m = 0 ∨ (s.rd m).getLsbD j = true)
    · obtain ⟨hlo, hhi, ha⟩ := id hr
      have ha : (s.mask m).getLsbD (first + (j - first)) = true := by rwa [Nat.add_sub_cancel' hlo, hmask]
      rw [if_pos ⟨hlo, hhi, ha⟩, if_pos hr]
      rfl
    · have hn : ¬ (first ≤ j ∧ j < first + k ∧ (s.mask m).getLsbD (first + (j - first)) = true) := fun ⟨hlo, hhi, ha⟩ =>
        hr ⟨hlo, hhi, hmask.mp (Nat.add_sub_cancel' hlo ▸ ha)⟩
      rw [if_neg hn, if_neg hr]
      exact lane_mod ..

end Sys2Proof.Machine
end

section
/-! Conversions, compares, selection, reductions and dot products, instruction by instruction (R116 to R120). -/

namespace Sys2Proof.Machine

theorem GivesMask.congr {i : Instr} {s : State} {n : Nat} {ty : ElType} {m r : Reg} {p q : Nat → Prop} {g : Nat → FFlags}
    (h : GivesMask i s n ty m r p g) (hp : ∀ j, p j = q j) : GivesMask i s n ty m r q g := by
  obtain rfl : p = q := funext hp
  exact h

/-- Settles O28: each instruction by its shape, with the selection, the reductions and the dot products on exact lanes. -/
theorem vectorCompareReduceResults : Obligations.VectorCompareReduceResults := by
  intro s ty src m d a b sx bs un sat sun part w f x y cvt cmp act float sum red least dot
  have hcvt {i : Instr} {n : Nat} {un sat : Bool} {src : ElType} {sun : Bool} {p : Nat} (h : exec i s = vecCvt n ty m d a un sat src sun p s) :
      cvt i n un sat src sun p := by
    intro _
    obtain ⟨v, fl, q, he, hdraw, hstill⟩ := vecCvt_lanes n ty src m d a un sat sun p s
    have he := h.trans he
    rw [vecDraws_iff] at hdraw
    rw [← Bool.not_eq_true, vecDraws_iff] at hstill
    have hq : (s.vectorEnd n d v fl q).me.srState = q := by
      rw [State.me_vectorEnd]
      rfl
    refine ⟨⟨_, he, fun hn => hq.trans (hstill hn).1, fun hd => hq.trans (hdraw hd)⟩, fun hn => ?_⟩
    obtain ⟨rfl, hv⟩ := hstill hn
    exact ⟨v, fl, he.trans (resultV_flag ..).symm, hv⟩
  have hcmp {i : Instr} {n : Nat} {bs un : Bool} {r : Reg} {ok : Ordering → Bool} {unord ordered : Bool}
      (h : exec i s = vecCmp n ty m a b bs un r ok unord ordered s) : cmp i n bs un r ok unord ordered := by
    have hmap (o : Option Ordering) : ((o.map ok).getD unord = true) = (match o with | some o => ok o = true | none => unord = true) := by
      cases o <;> rfl
    exact (givesMask_vecCmp h).congr fun j => congrArg (ite (ty.isInt = true) _) (hmap _)
  have hsum {i : Instr} {n : Nat} {un : Bool} {r : Reg} (h : exec i s = vecRedSum n ty m a un r s) : sum i n un r := by
    refine ⟨fun hty => h.trans (vecRedSum_int n ty m a r un s hty), fun hty hact => ?_, fun hty hact => ?_⟩
    · exact (h.trans (vecRedSum_float n ty m a r un s hty)).trans (if_neg hact)
    · exact (h.trans (vecRedSum_float n ty m a r un s hty)).trans (if_pos hact)
  have hdot {i : Instr} {n : Nat} {un sat : Bool} (h : exec i s = vecDot n ty m d a b un sat s) : dot i n un sat := by
    change GivesLanes i s n .i32 m d _
    simp only [← dotI8_eq]
    exact givesLanes_of_eq h
  refine ⟨?vcvt, ?vcvtX, ?vceq, ?vceqX, ?vcne, ?vclt, ?vcle, ?vcgt, ?vcge, ?vsel, ?vselX, ?vredsum, ?vredsumX, fun hty => ⟨?vredmin, ?vredmax⟩,
    fun hty => ⟨?vredminF, ?vredmaxF⟩, ?vredand, ?vredor, ?vredxor, ?vdot, ?vdotX⟩
  case vcvt | vcvtX => exact hcvt rfl
  case vceq | vceqX | vcne | vclt | vcle | vcgt | vcge => exact hcmp rfl
  case vsel | vselX => exact givesVector_vecOf rfl fun _ hj => if_congr (mask_lane s m hj) rfl rfl
  case vredsum | vredsumX => exact hsum rfl
  case vredmin => exact vecRedMinMax_int ty m a sx un s hty false rfl (by cases un <;> rfl)
  case vredmax => exact vecRedMinMax_int ty m a sx un s hty true rfl (by cases un <;> rfl)
  case vredminF => exact vecRedMinMax_float ty m a sx un s hty false
  case vredmaxF => exact vecRedMinMax_float ty m a sx un s hty true
  case vredand => exact vecRedBits_gives ty m a sx s (f := (· &&& ·)) rfl (redAnd_testBit ty _ _)
  case vredor => exact vecRedBits_gives ty m a sx s (f := (· ||| ·)) rfl (redOr_testBit ty _ _)
  case vredxor => exact vecRedBits_gives ty m a sx s (f := (· ^^^ ·)) rfl (redXor_testBit ty _ _)
  case vdot | vdotX => exact hdot rfl

end Sys2Proof.Machine
end

section
/-! Vector loads and stores of the scratchpad: their lanes, and the bytes they read and write (R125 to R129). -/

namespace Sys2Proof.Machine

/-! ### Lanes replaced one by one -/

/-- Part of a number replaced: what stands below and above it stays. -/
theorem replaced_part {B P W x : Nat} (hP : 0 < P) (hW : 0 < W) :
    let N := B - B / P % W * P + x % W * P
    N % P = B % P ∧ N / P % W = x % W ∧ N / (P * W) = B / (P * W) := by
  intro N
  have hB : B = B % P + P * (B / P % W + W * (B / P / W)) := by
    rw [Nat.mod_add_div, Nat.mod_add_div]
  have hN : N = B % P + P * (x % W + W * (B / P / W)) := by
    change B - B / P % W * P + x % W * P = _
    rw [Nat.mul_add] at hB ⊢
    have h1 := Nat.mul_comm P (B / P % W)
    have h2 := Nat.mul_comm P (x % W)
    omega
  have hdiv : N / P = x % W + W * (B / P / W) := by
    rw [hN, Nat.add_mul_div_left _ _ hP, Nat.div_eq_of_lt (Nat.mod_lt _ hP), Nat.zero_add]
  refine ⟨?_, ?_, ?_⟩
  · rw [hN, Nat.add_mul_mod_self_left, Nat.mod_mod]
  · rw [hdiv, Nat.add_mul_mod_self_left, Nat.mod_mod]
  · rw [← Nat.div_div_eq_div_mul, hdiv, Nat.add_mul_div_left _ _ hW, Nat.div_eq_of_lt (Nat.mod_lt _ hW), Nat.zero_add, Nat.div_div_eq_div_mul]

/-- A lane that is set, and the others as they were. -/
theorem lane_laneSet {w i j : Nat} (hi : w * i + w ≤ 512) (b : Block) (x : Nat) :
    lane w (laneSet w b i x) j = if j = i then x % 2 ^ w else lane w b j := by
  have hW := Nat.two_pow_pos w
  obtain ⟨hlow, hpart, hhigh⟩ := replaced_part (B := b.toNat) (x := x) (Nat.two_pow_pos (w * i)) hW
  have hpow : 2 ^ (512 - (w * i + w)) * (2 ^ (w * i) * 2 ^ w) = 2 ^ 512 := by
    rw [← Nat.pow_add]
    exact Nat.pow_sub_mul_pow 2 hi
  have hlt : b.toNat - b.toNat / 2 ^ (w * i) % 2 ^ w * 2 ^ (w * i) + x % 2 ^ w * 2 ^ (w * i) < 2 ^ 512 := by
    have hb := b.isLt
    rw [← hpow, ← Nat.div_lt_iff_lt_mul (by positivity)] at hb ⊢
    rwa [hhigh]
  simp only [lane, laneSet, fld, BitVec.toNat_ofNat]
  rw [Nat.mod_eq_of_lt hlt]
  generalize b.toNat - b.toNat / 2 ^ (w * i) % 2 ^ w * 2 ^ (w * i) + x % 2 ^ w * 2 ^ (w * i) = N at hlow hpart hhigh
  rcases Nat.lt_trichotomy j i with h | rfl | h
  · have hdvd : 2 ^ (w * j) * 2 ^ w ∣ 2 ^ (w * i) := by
      rw [← Nat.pow_add, ← Nat.mul_succ]
      exact Nat.pow_dvd_pow 2 (Nat.mul_le_mul_left w h)
    rw [if_neg h.ne, ← Nat.mod_mul_right_div_self, ← Nat.mod_mul_right_div_self, ← Nat.mod_mod_of_dvd N hdvd, hlow, Nat.mod_mod_of_dvd _ hdvd]
  · rw [if_pos rfl, hpart]
  · have hsplit : 2 ^ (w * j) = 2 ^ (w * i) * 2 ^ w * 2 ^ (w * j - w * (i + 1)) := by
      rw [← Nat.pow_add, ← Nat.mul_succ, ← Nat.pow_add, Nat.add_sub_cancel' (Nat.mul_le_mul_left w h)]
    rw [if_neg h.ne', hsplit, ← Nat.div_div_eq_div_mul, hhigh, Nat.div_div_eq_div_mul]

/-- A register with lanes replaced in ascending order. -/
def putLanes (w : Nat) (val : Nat → Nat) (l : List Nat) (b : Block) : Block := l.foldl (fun b i => laneSet w b i (val i)) b

theorem lane_putLanes {w : Nat} (val : Nat → Nat) {l : List Nat} (hl : ∀ i ∈ l, w * i + w ≤ 512) (j : Nat) (b : Block) :
    lane w (putLanes w val l b) j = if j ∈ l then val j % 2 ^ w else lane w b j := by
  induction l generalizing b with
  | nil => rfl
  | cons i l ih =>
    obtain ⟨hi, hl⟩ := List.forall_mem_cons.mp hl
    have hset := lane_laneSet (j := j) hi b (val i)
    change lane w (putLanes w val l (laneSet w b i (val i))) j = _
    rw [ih hl, hset]
    by_cases hjl : j ∈ l
    · simp [hjl]
    · by_cases hji : j = i
      · subst hji
        simp
      · simp [hjl, hji]

/-! ### Accesses of the scratchpad that ask for an alignment (R159) -/

theorem InScratchpad.spaceOf_eq {s : State} {ea : Word} {n : Nat} (h : InScratchpad s ea n) : spaceOf ea = some .spd := by
  obtain ⟨-, hs, -, -, -⟩ := h
  exact hs

theorem InScratchpad.idle {s : State} {ea : Word} {n : Nat} (h : InScratchpad s ea n) : lsBusy s s.myCore = false := by
  obtain ⟨-, -, -, -, hb⟩ := h
  exact hb

theorem accessDest_aligned {ea : Word} {align : Nat} (h : ea.toNat % align = 0) (s : State) (b : By) (k : Kind) (n : Nat) :
    accessDest s b k ea n align = accessDest s b k ea n 1 := by
  have hcheck (u : State) : checkAddr u b.t k ea n align = checkAddr u b.t k ea n 1 := by simp [checkAddr, h, Nat.mod_one]
  simp only [accessDest, hcheck]

theorem loadBytes_scratchpad {s : State} {ea : Word} {n align : Nat} (h : ReadsScratchpad s ea n) (ha : ea.toNat % align = 0) (q : MemQual) :
    loadBytes s (s.by q) ea n align = .ok (s.myLs.bytes (s.lsPlace ea) n, none) s := by
  obtain ⟨⟨hc, -⟩, -⟩ := id h
  have hload := loadAny_scratchpad h q
  rw [loadAny, if_pos hc] at hload
  rwa [loadBytes, accessDest_aligned ha]

/-! ### Loads of lanes (R126) -/

theorem loadLanes_scratchpad {s : State} {w : Nat} {addr : Nat → Word} (q : MemQual) {l : List Nat}
    (h : ∀ i ∈ l, ReadsScratchpad s (addr i) (w / 8) ∧ (addr i).toNat % (w / 8) = 0) (data : Block) (far : Option Wait) :
    loadLanes (s.by q) w (l.map fun i => (i, addr i)) data far s =
      .ok (putLanes w (fun i => leNat (s.myLs.bytes (s.lsPlace (addr i)) (w / 8))) l data) far s := by
  induction l generalizing data with
  | nil => rfl
  | cons i l ih =>
    obtain ⟨⟨hi, ha⟩, h⟩ := List.forall_mem_cons.mp h
    rw [List.map_cons, loadLanes, loadBytes_scratchpad hi ha]
    exact ih h _

/-- The lanes of a register after its loads: the bytes that each loaded, and the others as they were. -/
theorem lane_loaded (ty : ElType) (m : Memory) (place : Nat → Nat) {l : List Nat} (hl : ∀ i ∈ l, i < ty.lanes) (b : Block) (j : Nat) :
    lane ty.width (putLanes ty.width (fun i => leNat (m.bytes (place i) (ty.width / 8))) l b) j =
      if j ∈ l then leNat (m.bytes (place j) (ty.width / 8)) else lane ty.width b j := by
  have hfit : ∀ i ∈ l, ty.width * i + ty.width ≤ 512 := fun i hi => by
    rw [← Nat.mul_succ, ← ty.width_mul_lanes]
    exact Nat.mul_le_mul_left ty.width (hl i hi)
  have hbytes : leNat (m.bytes (place j) (ty.width / 8)) < 2 ^ ty.width := by
    have hlt := leNat_lt (m.bytes (place j) (ty.width / 8))
    rwa [Memory.bytes_length, show (256 : Nat) = 2 ^ 8 from rfl, ← Nat.pow_mul, ty.width_bytes] at hlt
  rw [lane_putLanes _ hfit, Nat.mod_eq_of_lt hbytes]

/-! ### Stores of lanes (R126, R127) -/

theorem checkLanes_scratchpad {s : State} {w : Nat} {addr : Nat → Word} (q : MemQual) {l : List Nat}
    (h : ∀ i ∈ l, InScratchpad s (addr i) (w / 8) ∧ (addr i).toNat % (w / 8) = 0) :
    checkLanes (s.by q) w s (l.map fun i => (i, addr i)) = .ok (l.map fun i => (i, .ls (s.lsPlace (addr i)))) s := by
  induction l with
  | nil => rfl
  | cons i l ih =>
    obtain ⟨⟨hi, ha⟩, h⟩ := List.forall_mem_cons.mp h
    rw [List.map_cons, checkLanes, accessDest_aligned ha, accessDest_scratchpad hi, Res.ok_andThen, ih h]
    rfl

/-- Between two states the local store of the current core has become m, and nothing else has changed. -/
structure OnlyLs (s u : State) (m : Memory) : Prop where
  rest : u = { s with cores := u.cores }
  others : ∀ c, c ≠ s.myCore → u.core c = s.core c
  own : u.core s.myCore = { s.core s.myCore with ls := m }

namespace OnlyLs

theorem refl (s : State) : OnlyLs s s s.myLs := ⟨rfl, fun _ _ => rfl, rfl⟩

section
variable {s u : State} {m : Memory} (h : OnlyLs s u m)
include h

theorem wrBytes (o : Nat) (l : List Byte) :
    OnlyLs s (u.updCore s.myCore fun c => { c with ls := c.ls.wrBytes o l }) (m.wrBytes o l) where
  rest := by
    conv_lhs => rw [h.rest]
    rfl
  others c hc := (State.core_setCore_ne u hc _).trans (h.others c hc)
  own := by
    rw [State.updCore_eq, State.core_setCore_self, h.own]

theorem slot (t : Nat) : u.slot t = s.slot t := by rw [h.rest]; rfl

theorem lsBusy (c : Nat) : Machine.lsBusy u c = Machine.lsBusy s c := by rw [h.rest]; rfl

theorem released : Machine.released u s.myCore = Machine.released s s.myCore := by
  have hunsent : unsent u s.myCore = unsent s s.myCore := by
    simp only [unsent, h.own]
    rw [h.rest]
    rfl
  have htelling : telling u s.myCore = telling s s.myCore := by rw [h.rest]; rfl
  rw [Machine.released, Machine.released, hunsent, htelling, h.own]

end

end OnlyLs

/-- Bytes of lanes written in ascending order. -/
def storedLanes (w : Nat) (place : Nat → Nat) (data : Block) (l : List Nat) (m : Memory) : Memory :=
  l.foldl (fun m i => m.wrBytes (place i) (leBytes (w / 8) (lane w data i))) m

theorem storeLanes_scratchpad {s : State} {q : MemQual} {w : Nat} (hr : NothingToRelease s q) (hw : w ≤ 64) (place : Nat → Nat) (data : Block)
    (far : Option Wait) {l : List Nat} (hb : ∀ i ∈ l, lsBusy s s.myCore = false) {u : State} {m : Memory} (h : OnlyLs s u m) :
    ∃ t, storeLanes (s.by q) w (l.map fun i => (i, .ls (place i))) data far u = .ok data far t ∧ OnlyLs s t (storedLanes w place data l m) := by
  induction l generalizing u m with
  | nil => exact ⟨u, rfl, h⟩
  | cons i l ih =>
    obtain ⟨hi, hb⟩ := List.forall_mem_cons.mp hb
    have hlen : (leBytes (w / 8) (lane w data i)).length < 64 := by
      rw [leBytes_length]
      omega
    have hstore := storeDest_ls (s := u) (b := s.by q) (l := leBytes (w / 8) (lane w data i))
      (fun hrel => by
        refine h.released.trans (hr ?_)
        rw [h.slot] at hrel
        simp only [Bool.and_eq_true, Bool.or_eq_true, decide_eq_true_eq, or_assoc] at hrel
        exact hrel.2)
      ((h.lsBusy _).trans hi) hlen (place i)
    rw [List.map_cons, storeLanes, hstore]
    exact ih hb (h.wrBytes _ _)

/-- Of the lanes that meet at a byte the highest stands, and a byte that no lane meets is as it was (R126). -/
theorem rd_storedLanes {w : Nat} (hw : w ≤ 64) (place : Nat → Nat) (data : Block) (l : List Nat) (m : Memory) (a : Nat) :
    (storedLanes w place data l m).rd a =
      ((l.reverse.find? fun j => place j ≤ a ∧ a < place j + w / 8).map
        fun j => (BitVec.ofNat w (lane w data j)).extractLsb' (8 * (a - place j)) 8).getD (m.rd a) := by
  induction l using List.reverseRecOn with
  | nil => rfl
  | append_singleton l i ih =>
    have hlane : (BitVec.ofNat 64 (lane w data i)).toNat = lane w data i := by
      rw [BitVec.toNat_ofNat]
      exact Nat.mod_eq_of_lt (Nat.lt_of_lt_of_le (lane_lt w data i) (Nat.pow_le_pow_right Nat.two_pos hw))
    have hbyte (k : Nat) : (BitVec.ofNat 64 (lane w data i)).extractLsb' k 8 = (BitVec.ofNat w (lane w data i)).extractLsb' k 8 := by
      apply BitVec.eq_of_toNat_eq
      rw [BitVec.extractLsb'_toNat, BitVec.extractLsb'_toNat, hlane, BitVec.toNat_ofNat, lane_mod]
    have hwrite := Memory.rd_wrBytes_leBytes (storedLanes w place data l m) (place i) (w / 8) (BitVec.ofNat 64 (lane w data i)) a
    rw [hlane, hbyte] at hwrite
    rw [storedLanes, List.foldl_append, List.foldl_cons, List.foldl_nil, List.reverse_append, List.reverse_singleton, List.singleton_append,
      List.find?_cons]
    refine hwrite.trans ?_
    by_cases hin : place i ≤ a ∧ a < place i + w / 8
    · simp [hin]
    · simp [hin, ih]

theorem checkAddr_spd {a : Word} (h : spaceOf a = some .spd) (s : State) (t : Nat) (k : Kind) (n align : Nat) :
    (∃ o, checkAddr s t k a n align = .ok (.ls o)) ∨ ∃ e, checkAddr s t k a n align = .error e := by
  simp only [checkAddr, h]
  split_ifs <;> simp

/-- A store of scratchpad lanes changes no poisoned block but to clear it (R434). -/
theorem unpoisonVector_scratchpad {l : List (Nat × Word)} (h : ∀ y ∈ l, spaceOf y.2 = some .spd) (s : State) (t w : Nat) :
    ∃ p, unpoisonVector s t w l = { s with poisoned := p } ∧ ∀ b ∈ p, b ∈ s.poisoned := by
  have hsame : ∃ p, s = { s with poisoned := p } ∧ ∀ b ∈ p, b ∈ s.poisoned := ⟨_, rfl, fun _ h => h⟩
  have hclear (f : Nat → Nat) (o n : Nat) : ∃ p, unpoisonIn s f o n = { s with poisoned := p } ∧ ∀ b ∈ p, b ∈ s.poisoned := by
    unfold unpoisonIn
    split
    · exact hsame
    · exact ⟨_, rfl, fun _ h => (List.mem_filter.mp h).1⟩
  unfold unpoisonVector
  split
  · exact hsame
  split
  next a l =>
    split
    · rcases checkAddr_spd (h _ List.mem_cons_self) s t .store 64 1 with ⟨o, ho⟩ | ⟨e, he⟩
      · simp only [ho]
        exact hclear ..
      · simp only [he]
        exact hsame
    · exact hsame
  next => exact hsame

end Sys2Proof.Machine
end

section
/-! VLD, VST, VLDS, VSTS, VGATH and VSCAT on the scratchpad (R125 to R129). -/

namespace Sys2Proof.Machine

/-! ### The end of an access (R127, R129) -/

/-- The progress register after the last lane: cleared, where the instruction names one (R127). -/
def State.progressDone (s : State) (r : Reg) : State := if r = 0 then s else s.wr r 0

section
variable (s : State) (r : Reg)

theorem State.progressDone_rest : s.progressDone r = { s with slots := (s.progressDone r).slots } := by
  unfold State.progressDone
  split <;> rfl

theorem State.slot_progressDone {t : Nat} (h : t ≠ s.cur) : (s.progressDone r).slot t = s.slot t := by
  unfold State.progressDone
  split
  · rfl
  · exact State.slot_setSlot_ne s h _

theorem State.me_progressDone : (s.progressDone r).me = s.me.ws r 0 := by
  unfold State.progressDone
  split
  next h => rw [h, Slot.ws_zero]
  next => exact State.me_setSlot ..

theorem State.progressDone_wrv (d : Reg) (v : Block) : (s.wrv d v).progressDone r = (s.wrv d v).wr r 0 := by
  unfold State.progressDone
  split
  next h => simp [h, State.wrv, State.me_eq]
  next => rfl

end

/-- An access of more than two 64-byte blocks leaves the rotation until its last block is delivered (R129). -/
def blocksAway (l : List Nat) (addr : Nat → Word) : Option Wait :=
  if 2 < ((l.map fun j => (addr j).toNat / 64).eraseDups).length then some .vector else none

/-! ### Accesses whose lanes are all done (R126 to R129) -/

/-- The lanes that an access does: those that its mask and its progress register leave (R126, R127). -/
def State.todo (s : State) (ty : ElType) (m : Reg) (x : VMemExt) : List Nat :=
  (List.range ty.lanes).filter fun j => (s.mask m &&& ~~~(if x.sx = 0 then 0 else s.rd x.sx)).getLsbD j

section
variable {s : State} {ty : ElType} {m d : Reg} {x : VMemExt} {addr : Nat → Word}

theorem blocksAway_eq (l : List Nat) : (if 2 < blocksTouched (l.map fun i => (i, addr i)) then some Wait.vector else none) = blocksAway l addr := by
  rw [blocksTouched, List.map_map]
  rfl

/-- What a slot restores of a vector access that it abandons after its last lane (R128). -/
def State.vecRedo (s : State) (store : Bool) (ty : ElType) (m d : Reg) (x : VMemExt) (data : Block) : Redo :=
  let k := s.mask m &&& ~~~(if x.sx = 0 then 0 else s.rd x.sx)
  let p : VProg := { lane := 64, data := data, mask := k, d := d, sx := x.sx, store := store, w := ty.width, plan := [] }
  { pc := s.me.pc, vec := some (s.rdv d, p), sx := s.rd x.sx, fresh := s.me.fresh }

/-- A load whose lanes are all done (R126, R127, R129). -/
theorem vecMem_load_ok (hv : s.me.vprog = none) {v : Block}
    (h : loadLanes (s.by (vmemQual x)) ty.width ((s.todo ty m x).map fun i => (i, addr i)) (s.rdv d) none s = .ok v none s) :
    vecMem false ty m d x addr s =
      doneAway 12 (blocksAway (s.todo ty m x) addr) (s.vecRedo false ty m d x v) ((s.wrv d v).progressDone x.sx) := by
  rw [← blocksAway_eq]
  unfold State.todo at h ⊢
  simp only [vecMem, hv, Bool.false_eq_true, if_false, h]
  rfl

/-- A store whose lanes are all done (R126, R127, R129). -/
theorem vecMem_store_ok (hv : s.me.vprog = none) {p : List (Nat × Dest)} {u : State}
    (hp : checkLanes (s.by (vmemQual x)) ty.width s ((s.todo ty m x).map fun i => (i, addr i)) = .ok p s)
    (h : storeLanes (s.by (vmemQual x)) ty.width p (s.rdv d) none s = .ok (s.rdv d) none u) :
    vecMem true ty m d x addr s =
      doneAway 12 (blocksAway (s.todo ty m x) addr) (s.vecRedo true ty m d x (s.rdv d))
        ((unpoisonVector u u.cur ty.width ((s.todo ty m x).map fun i => (i, addr i))).progressDone x.sx) := by
  rw [← blocksAway_eq]
  unfold State.todo at hp ⊢
  simp only [vecMem, hv, if_true, hp, h]
  rfl

/-- A store to the scratchpad writes its lanes in ascending order, and changes poisoned blocks only to clear them (R126, R127, R129). -/
theorem vecMem_store (hv : s.me.vprog = none) (hr : NothingToRelease s (vmemQual x))
    (h : ∀ j ∈ s.todo ty m x, InScratchpad s (addr j) (ty.width / 8) ∧ (addr j).toNat % (ty.width / 8) = 0) :
    ∃ (u : State) (p : List Nat) (r : Redo), (∀ b ∈ p, b ∈ s.poisoned) ∧
      OnlyLs s u (storedLanes ty.width (fun j => s.lsPlace (addr j)) (s.rdv d) (s.todo ty m x) s.myLs) ∧
      vecMem true ty m d x addr s =
        .next ((({ u with poisoned := p } : State).progressDone x.sx).away 12 (blocksAway (s.todo ty m x) addr) r) := by
  have hcheck := checkLanes_scratchpad (vmemQual x) h
  have hbusy : ∀ j ∈ s.todo ty m x, lsBusy s s.myCore = false := fun j hj => (h j hj).1.idle
  obtain ⟨u, hstore, hu⟩ := storeLanes_scratchpad hr ty.width_le (fun j => s.lsPlace (addr j)) (s.rdv d) none hbusy (OnlyLs.refl s)
  have hspace : ∀ y ∈ (s.todo ty m x).map fun i => (i, addr i), spaceOf y.2 = some .spd := List.forall_mem_map.mpr fun j hj => (h j hj).1.spaceOf_eq
  obtain ⟨p, hpoison, hp⟩ := unpoisonVector_scratchpad hspace u u.cur ty.width
  have hpoisoned : u.poisoned = s.poisoned := by rw [hu.rest]
  refine ⟨u, p, s.vecRedo true ty m d x (s.rdv d), fun b hb => hpoisoned ▸ hp b hb, hu, ?_⟩
  rw [vecMem_store_ok hv hcheck hstore, hpoison, doneAway_eq]

end

/-! ### The state after a store -/

/-- How a vector access ends: its progress register is cleared, and its slot goes on past it or leaves the rotation (R127, R129). -/
theorem State.progressDone_away (s : State) (r : Reg) (n : Nat) (w : Option Wait) (redo : Redo) {t : State} (ht : t = (s.progressDone r).away n w redo) :
    t = { s with slots := t.slots } ∧ (∀ k, k ≠ s.cur → t.slot k = s.slot k) ∧
      t.me = { s.me with s := (s.me.ws r 0).s, pc := s.me.pc + BitVec.ofNat 64 n, fresh := none, vprog := none, got := none,
                         run := runAfter s.me.run w, redo := t.me.redo } := by
  have hrest := State.away_rest (s.progressDone r) n w redo
  have hme := State.me_away (s.progressDone r) n w redo
  have hcur : (s.progressDone r).cur = s.cur := by rw [State.progressDone_rest]
  rw [← ht] at hrest hme
  refine ⟨?_, fun k hk => ?_, ?_⟩
  · rwa [State.progressDone_rest] at hrest
  · rw [ht, State.slot_away _ _ _ _ (hcur.symm ▸ hk), State.slot_progressDone s r hk]
  · rwa [State.me_progressDone, Slot.ws_frame] at hme

theorem runAfter_blocksAway (run : Run) (l : List Nat) (addr : Nat → Word) : runAfter run (blocksAway l addr) =
    if 2 < ((l.map fun j => (addr j).toNat / 64).eraseDups).length then .waiting .vector else run := by
  unfold blocksAway
  split <;> rfl

/-- The state after a vector store to the scratchpad: what the store leaves of it, and the end of its slot. -/
theorem OnlyLs.store_ends {s u t : State} {mem : Memory} (h : OnlyLs s u mem) {p : List Nat} {r : Reg} {n : Nat} {w : Option Wait} {redo : Redo}
    (ht : t = (({ u with poisoned := p } : State).progressDone r).away n w redo) :
    t = { s with slots := t.slots, cores := t.cores, poisoned := t.poisoned } ∧ t.poisoned = p ∧ (∀ k, k ≠ s.cur → t.slot k = s.slot k) ∧
      t.me = { s.me with s := (s.me.ws r 0).s, pc := s.me.pc + BitVec.ofNat 64 n, fresh := none, vprog := none, got := none,
                         run := runAfter s.me.run w, redo := t.me.redo } ∧
      (∀ c, c ≠ s.myCore → t.core c = s.core c) ∧ t.core s.myCore = { s.core s.myCore with ls := mem } ∧ t.myLs = mem := by
  obtain ⟨hrest, hslots, hme⟩ := State.progressDone_away _ r n w redo ht
  have hcur : u.cur = s.cur := by rw [h.rest]
  have hume : ({ u with poisoned := p } : State).me = s.me := by
    change u.slot u.cur = s.me
    rw [hcur, h.slot, State.me_eq]
  have hcores : t.cores = u.cores := by rw [hrest]
  have hpois : t.poisoned = p := by rw [hrest]
  have hcore (c : Nat) : t.core c = u.core c := by rw [State.core, State.core, hcores]
  have hown : t.core s.myCore = { s.core s.myCore with ls := mem } := (hcore _).trans h.own
  have hmine : t.myCore = s.myCore := by
    rw [hrest]
    exact congrArg agentOf hcur
  rw [hume] at hme
  refine ⟨?_, hpois, fun k hk => (hslots k (hcur.symm ▸ hk)).trans (h.slot k), hme, fun c hc => (hcore c).trans (h.others c hc), hown, ?_⟩
  · rw [hcores, hpois]
    rwa [h.rest] at hrest
  · rw [State.myLs, hmine, hown]

/-! ### The instructions, and the last delivery -/

theorem State.wake_waiting {s : State} {t : Nat} {w : Wait} (h : (s.slot t).run = .waiting w) :
    s.wake t = s.setSlot t { s.slot t with run := .active, redo := none } := by
  rw [State.wake, State.updSlot_eq, h]

/-- Settles O30: every access lies in the local store, so that a load replaces its lanes one by one, and a store writes its bytes lane by lane. -/
theorem vectorMemory : Obligations.VectorMemory := by
  refine ⟨?_, fun s t => ⟨fun h => ?_, fun h => ?_⟩⟩
  · intro s ty m d b sh x _ hv w k base todo l step stride index near clean run far loads stores
    have hindex : (fun j => s.vbase x + (sext w (s.va ty b j) <<< sh.val)) = index := funext fun j => by
      rw [sext_eq_signExtend ty.width_pos]
      rfl
    have hloads {i : Instr} {addr : Nat → Word} (h : exec i s = vecMem false ty m d x addr s) : loads i addr := by
      intro hnear hclean
      have hreads : ∀ j ∈ s.todo ty m x, ReadsScratchpad s (addr j) k ∧ (addr j).toNat % k = 0 := fun j hj =>
        ⟨⟨(hnear j hj).1, hclean j hj⟩, (hnear j hj).2⟩
      have hok := loadLanes_scratchpad (vmemQual x) hreads (s.rdv d) none
      refine ⟨_, _, h.trans ((vecMem_load_ok hv hok).trans (congrArg _ (State.progressDone_wrv ..))), rfl, fun j hj => ?_⟩
      exact lane_loaded ty s.myLs _ (fun i hi => List.mem_range.mp (List.mem_filter.mp hi).1) (s.rdv d) j
    have hstores {i : Instr} {addr : Nat → Word} (h : exec i s = vecMem true ty m d x addr s) : stores i addr := by
      intro hnear hr
      obtain ⟨u, p, r, hp, hu, he⟩ := vecMem_store (d := d) hv hr hnear
      obtain ⟨hrest, hpois, hslots, hme, hothers, hown, hls⟩ := hu.store_ends rfl
      refine ⟨_, h.trans he, hrest, fun b hb => hp b (hpois ▸ hb), hslots, hme.trans ?_, hothers, hown.trans ?_, fun a => ?_⟩
      · rw [runAfter_blocksAway]
        rfl
      · rw [hls]
      · rw [hls, rd_storedLanes ty.width_le]
        change (Option.map _ (l.reverse.find? _)).getD _ = _
        generalize l.reverse.find? _ = o
        cases o <;> rfl
    exact ⟨hloads rfl, hstores rfl, hloads rfl, hstores rfl, hloads (congrArg (vecMem false ty m d x · s) hindex),
      hstores (congrArg (vecMem true ty m d x · s) hindex)⟩
  · exact (congrArg Host.Outcome.next (if_pos h)).trans (congrArg _ (State.wake_waiting h))
  · exact (congrArg Host.Outcome.next (if_pos h)).trans (congrArg _ (State.wake_waiting h))

end Sys2Proof.Machine
end

section
/-! What the operations of a deque change: the deque of one core, and who searches for work (R133 to R137). -/

namespace Sys2Proof.Machine

/-! ### Reports to the steal logic (R137) -/

/-- A table some of whose entries change is read entry by entry. -/
theorem look_map_if {α : Type} (p : Nat → Bool) (f : α → α) (k : Nat) (t : Tab α) :
    look k (t.map fun q => if p q.1 then (q.1, f q.2) else q) = (look k t).map fun x => if p k then f x else x := by
  induction t with
  | nil => rfl
  | cons q t ih =>
    obtain ⟨j, x⟩ := q
    by_cases hj : k = j
    · subst hj
      cases hp : p k <;> simp [look, hp]
    · cases hp : p j <;> simp [look, hj, hp, ih]

/-- A core whose steal logic searches. -/
def Core.searches (q : Core) : Core := { q with searching := true }

/-- A core after a report: its steal logic may search, and that is all. -/
theorem core_report (s : State) (c : Nat) (r : Rec) (k : Nat) : ∃ b, (report s c r).core k = { s.core k with searching := b } := by
  unfold report
  split
  · exact ⟨_, rfl⟩
  · have hlook := look_map_if (inDomain r.domain c) Core.searches k s.cores
    change ∃ b, (look k (s.cores.map fun q => if inDomain r.domain c q.1 then (q.1, q.2.searches) else q)).getD {} = _
    rw [hlook, State.core]
    cases look k s.cores with
    | none => exact ⟨_, rfl⟩
    | some q => cases inDomain r.domain c k <;> exact ⟨_, rfl⟩

theorem report_rest (s : State) (c : Nat) (r : Rec) : report s c r = { s with cores := (report s c r).cores } := by
  unfold report
  split <;> rfl

/-- A core after the reports of several records. -/
theorem core_foldl_report (c : Nat) (l : List Rec) (s : State) (k : Nat) :
    ∃ b, (l.foldl (fun s r => report s c r) s).core k = { s.core k with searching := b } := by
  induction l generalizing s with
  | nil => exact ⟨_, rfl⟩
  | cons r l ih =>
    obtain ⟨b, hb⟩ := core_report s c r k
    obtain ⟨b', hb'⟩ := ih (report s c r)
    exact ⟨b', by rw [List.foldl_cons, hb', hb]⟩

theorem report_slots (s : State) (c : Nat) (r : Rec) : (report s c r).slots = s.slots := by rw [report_rest]

/-! ### The bottom of a deque (R133) -/

theorem pushBottom_rest (s : State) (c : Nat) (r : Rec) : pushBottom s c r = { s with cores := (pushBottom s c r).cores } :=
  report_rest ..

/-- The core whose deque takes a record. -/
theorem core_pushBottom_self (s : State) (c : Nat) (r : Rec) :
    ∃ b, (pushBottom s c r).core c = { s.core c with deque := (s.core c).deque ++ [r], searching := b } := by
  obtain ⟨b, hb⟩ := core_report (s.updCore c fun q => { q with deque := q.deque ++ [r] }) c r c
  rw [State.updCore_eq, State.core_setCore_self] at hb
  exact ⟨b, hb⟩

/-- The records of a list are the newest entries of a core's deque, and beside the cores nothing has changed. -/
structure Queued (s t : State) (c : Nat) (l : List Rec) : Prop where
  rest : t = { s with cores := t.cores }
  deque : (t.core c).deque = (s.core c).deque ++ l

theorem queued_pushBottom (s : State) (c : Nat) (r : Rec) : Queued s (pushBottom s c r) c [r] := by
  obtain ⟨b, hcore⟩ := core_pushBottom_self s c r
  exact ⟨pushBottom_rest s c r, by rw [hcore]⟩

namespace Queued

theorem refl (s : State) (c : Nat) : Queued s s c [] := ⟨rfl, (List.append_nil _).symm⟩

theorem trans {s t u : State} {c : Nat} {l k : List Rec} (h : Queued s t c l) (h' : Queued t u c k) : Queued s u c (l ++ k) where
  rest := h'.rest.trans (by rw [h.rest])
  deque := by rw [h'.deque, h.deque, List.append_assoc]

section
variable {s t : State} {c : Nat} {l : List Rec} (h : Queued s t c l)
include h

theorem mem : t.mem = s.mem := by rw [h.rest]

theorem cur : t.cur = s.cur := by rw [h.rest]

theorem slot (u : Nat) : t.slot u = s.slot u := State.slot_congr (by rw [h.rest]) u

theorem me : t.me = s.me := by rw [State.me, h.cur, h.slot, State.me]

/-- The slot that queued the records goes on; no other slot and no byte of memory has changed. -/
theorem past : let u := t.past 4
    (u.core c).deque = (s.core c).deque ++ l ∧ u.mem = s.mem ∧
      u.me = { s.me with pc := s.me.pc + 4, fresh := none, vprog := none, got := none } ∧ ∀ v, v ≠ s.cur → u.slot v = s.slot v := by
  obtain ⟨-, hother, hmine⟩ := t.past_near 4
  exact ⟨h.deque, h.mem, by rw [hmine, h.me]; rfl, fun v hv => (hother v (h.cur ▸ hv)).trans (h.slot v)⟩

end

end Queued

/-! ### The checks of an offer (R130, R134, R141) -/

theorem checkJoin_ok {r : Rec} (h : (r.join.toNat / 8) % 8 = 0) (v : Word) (s : State) : checkJoin r v s = .ok () s := by
  have hbits : bits r.join 5 3 = 0 := h
  simp [checkJoin, hbits]

theorem pushRoom_ok {s : State} {c : Nat} (h : (s.core c).deque.length < 64) : pushRoom s c = .ok () s := if_pos h

theorem pushRoom_full {s : State} {c : Nat} (h : (s.core c).deque.length = 64) (hb : hasBacking s c = false) :
    pushRoom s c = .trap .illegalOperand noRoom s := by
  simp [pushRoom, h, hb]

/-- A release goes on where nothing of its scope is left to perform (R197). -/
theorem releaseFirst_ok {s : State} {t : Nat} {sc : Scope} (h : released s (agentOf t) = true) (hp : sc = .sys → s.posted = 0) :
    releaseFirst s t sc = .ok () s := by
  by_cases hsc : sc = .sys
  · simp [releaseFirst, h, hp hsc]
  · simp [releaseFirst, h, hsc]

theorem domainScope_ne_sys (d : Nat) : domainScope d ≠ .sys := by
  unfold domainScope
  split <;> decide

theorem releaseOffer_ok {s : State} (h : released s s.myCore = true) (r : Rec) : releaseOffer s r = .ok () s := by
  unfold releaseOffer
  split
  · rfl
  · exact releaseFirst_ok h fun hsc => absurd hsc (domainScope_ne_sys _)

/-! ### Reading a record (R143, R145) -/

section
variable {s : State} {a : Word} {n : Nat} (h : ReadsScratchpad s a n) (ha : a.toNat % n = 0)
include h ha

/-- A record is read from the core's own scratchpad at once. -/
theorem readRec_scratchpad : readRec s a n = .ok (s.myLs.bytes (s.lsPlace a) n, none) s := by
  rw [readRec, ha]
  exact loadBytes_scratchpad h (Nat.mod_one _) _

/-- So is one whose bytes an instruction waits for. -/
theorem awaitRec_scratchpad (hg : ∀ g, s.me.got = some g → g.1 ≠ s.me.pc) : awaitRec s a n = .ok (s.myLs.bytes (s.lsPlace a) n) s := by
  have hnone : (s.me.got.filter fun g => g.1 = s.me.pc) = none := by
    rw [Option.filter_eq_none_iff]
    intro g hg'
    simpa using hg g hg'
  rw [awaitRec, hnone]
  change (readRec s a n).andThen _ = _
  rw [readRec_scratchpad h ha]
  rfl

end

end Sys2Proof.Machine
end

section
/-! The search for a join cell does not change which slot issues (R132). -/

namespace Sys2Proof.Machine

theorem tracePortBy_cur (s : State) (p pa len core slot dev : Nat) (part : Option Nat) (gnt : Bool) :
    (tracePortBy s p pa len core slot dev part gnt).cur = s.cur := by
  unfold tracePortBy
  extract_lets q s1
  have h1 : s1.cur = s.cur := by
    simp only [s1, updRing]
    split_ifs <;> rfl
  clear_value s1
  split
  · exact h1
  · dsimp only
    split_ifs <;> exact h1

theorem portMask_cur (s : State) (c slot blk : Nat) (b : Block) (mask : BitVec 64) : (portMask s c slot blk b mask).cur = s.cur := by
  unfold portMask
  split
  · rfl
  · exact tracePortBy_cur ..

theorem coverL2_cur (s : State) (k blk : Nat) (mask : BitVec 64) : (coverL2 s k blk mask).cur = s.cur := by
  unfold coverL2
  split <;> rfl

theorem flushL2_cur (s : State) (k blk : Nat) : (flushL2 s k blk).cur = s.cur := by
  unfold flushL2
  split
  · rfl
  · exact portMask_cur ..

theorem Res.andThen_eq_ok {α β : Type} {r : Res α} {f : α → State → Res β} {b : β} {u : State} (h : r.andThen f = .ok b u) :
    ∃ a s, r = .ok a s ∧ f a s = .ok b u := by
  cases r with
  | ok a s => exact ⟨a, s, rfl, h⟩
  | trap => cases h
  | wait => cases h

theorem Res.ofExcept_eq_ok {α : Type} {e : Except Trap α} {s u : State} {a : α} (h : Res.ofExcept e s = .ok a u) : u = s := by
  cases e <;> cases h
  rfl

/-- A line that is given up: its bytes go home, or puts are posted (R208). -/
theorem giveUp_cur (s : State) (c slot blk : Nat) : (giveUp s c slot blk).cur = s.cur := by
  unfold giveUp
  split
  · rfl
  · split
    · exact (portMask_cur ..).trans (coverL2_cur ..)
    · dsimp only
      (repeat' split) <;> rfl
    all_goals rfl

/-- An access that obtains its line at once has found it there (R208). -/
theorem obtain_ok_state {s u : State} {c slot blk lo n : Nat} {store nr stash : Bool} {ev : Fin 8} {va : Word} {x : Unit}
    (h : obtain s c slot blk store lo n nr stash ev va = .ok x u) : u = s := by
  unfold obtain at h
  dsimp only at h
  (repeat' split at h) <;> cases h <;> rfl

theorem cellHeld_cur {s u : State} {c slot pa : Nat} {nr : Bool} {a : Word} {x : Unit} (h : cellHeld s c slot pa nr a = .ok x u) :
    u.cur = s.cur := by
  unfold cellHeld at h
  dsimp only at h
  split at h
  · rw [obtain_ok_state h]
  split at h
  · cases h
  split at h
  · cases h
  · cases h
    split
    · exact (flushL2_cur ..).trans (giveUp_cur ..)
    · rfl

theorem translatePart_cur {s u : State} {b : By} {k : Kind} {append : Bool} {va : Word} {len : Nat} {p : Part1}
    (h : translatePart s b k append va len = .ok p u) : u.cur = s.cur := by
  unfold translatePart at h
  dsimp only at h
  split at h
  next => cases h
  next => (repeat' split at h) <;> cases h
  next hx =>
    split_ifs at h
    cases h
    exact (onlyTlbs_translate hx).cur

/-- A cell that is found leaves the slot that issues as it was. -/
theorem cellAddr_cur {s u : State} {t pa : Nat} {a val : Word} (h : cellAddr s t a val = .ok pa u) : u.cur = s.cur := by
  unfold cellAddr cellAddrBy at h
  obtain ⟨tg, w, hw, h⟩ := Res.andThen_eq_ok h
  rw [← Res.ofExcept_eq_ok hw]
  split at h
  next =>
    split at h
    next hx =>
      split_ifs at h
      split at h
      next => cases h
      next =>
        obtain ⟨_, v, hheld, h⟩ := Res.andThen_eq_ok h
        cases h
        exact (cellHeld_cur hheld).trans (translatePart_cur hx)
    next => cases h
    next => cases h
  next => cases h

end Sys2Proof.Machine
end

section
/-! FORK and its forms (R134, R143). -/

namespace Sys2Proof.Machine

/-- The record that the current slot offers: one of its own launch (R344). -/
def State.offered (s : State) (r : Rec) : Rec := { r with launch := launchOf s s.cur }

theorem Rec.cell_launch (r : Rec) (l : Option (BitVec 16)) : ({ r with launch := l } : Rec).cell = r.cell := rfl

section
variable {s : State} {r : Rec} (hj : (r.join.toNat / 8) % 8 = 0)
include hj

/-- An offer with no cell to count (R143). -/
theorem offer_queues (hrel : released s s.myCore = true) (hroom : (s.core s.myCore).deque.length < 64) (w : Option Wait) :
    offer false r w s = doneFar 4 w (pushBottom s s.myCore (s.offered r)) := by
  simp [offer, checkJoin_ok, hj, pushRoom_ok hroom, releaseOffer_ok hrel, State.offered]

/-- An offer that counts its cell in the same step (R132, R143). -/
theorem offer_counts {s' : State} {pa : Nat} (hc : r.cell ≠ 0) (hcell : cellAddr s s.cur r.cell r.join = .ok pa s')
    (hrel : released s' s'.myCore = true) (hroom : (s'.core s'.myCore).deque.length < 64) (w : Option Wait) :
    offer true r w s = doneFar 4 w (pushBottom (cellCount s' s'.cur pa (· + 1)) s'.myCore (s.offered r)) := by
  have hc' : r.cell ≠ 0#64 := hc
  simp [offer, checkJoin_ok, hj, Rec.cell_launch, hc', hcell, pushRoom_ok hroom, releaseOffer_ok hrel, State.offered]

/-- An offer to a full deque that nothing backs (R134). -/
theorem offer_refused (hfull : (s.core s.myCore).deque.length = 64) (hb : hasBacking s s.myCore = false) (w : Option Wait) :
    offer false r w s = trap .illegalOperand noRoom s := by
  simp [offer, checkJoin_ok, hj, pushRoom_full hfull hb, Res.andThen]

end

/-- Settles O20: every form is an offer of its record, from registers or read from the scratchpad. -/
theorem forks : Obligations.Forks := by
  refine ⟨?_, fun s d a b c htrap hfull hb hj => ?_⟩
  · intro s d a b c _ hrel hroom r ea l k anew offers counts
    have hoffers {i : Instr} {r0 : Rec} (h : exec i s = offer false r0 none s) : offers i (s.offered r0) := fun hj =>
      ⟨_, h.trans (offer_queues hj hrel.1 hroom none), (queued_pushBottom s s.myCore _).past⟩
    have hcounts {i : Instr} {r0 : Rec} {s' : State} {pa : Nat} (h : exec i s = offer true r0 none s) : counts i (s.offered r0) s' pa := by
      intro hj hcell hpa hrel' _ hroom'
      have hcore : s'.myCore = s.myCore := congrArg agentOf (cellAddr_cur hpa)
      rw [← hcore] at hrel' hroom'
      exact h.trans (offer_counts hj hcell hpa hrel' hroom' none)
    refine ⟨hoffers (r0 := r) rfl, fun hr ha hg => hoffers (r0 := k) ?_, fun s' pa => ⟨hcounts (r0 := r) rfl, fun hr ha => hcounts (r0 := k) ?_⟩⟩
    · change (awaitRec s ea 32).finish _ = _
      rw [awaitRec_scratchpad hr ha hg]
      rfl
    · change (readRec s ea 32).finish _ = _
      rw [readRec_scratchpad hr ha]
      rfl
  · exact Traps.of_trap htrap (offer_refused hj hfull hb none)

end Sys2Proof.Machine
end

section
/-! The end of a record: DONE, JOIN and YIELD (R144, R146, R147). -/

namespace Sys2Proof.Machine

/-- An idle slot whose record has ended (R146). -/
def Slot.ended (x : Slot) : Slot :=
  { x with run := .idle, record := none, mode := .u, fresh := none, vprog := none, lv := none, got := none, unmaps := [] }

/-- A record that met no lease violation ends, and the host hears nothing (R146, R345). -/
theorem endRecord_quiet {s : State} {t : Nat} (h : (s.slot t).lv = none) : endRecord s t = s.setSlot t (s.slot t).ended := by
  simp only [endRecord, h]
  rfl

/-- A JOIN whose cell is found and whose releases are performed: what it does by the count (R147). -/
theorem execJoin_cell {s s' : State} {sc : Scope} {a : Reg} {pa : Nat} (h0 : s.rd a ≠ 0) (ha : (s.rd a).toNat % 64 = 0)
    (hcell : cellAddr s s.cur (s.rd a) (s.rd a) = .ok pa s') (hff : s'.me.ff = 0) (hrel : AllReleased s') :
    let k := { recOf (homeBytes s' (pa + 32) 32) s'.myCore with launch := launchOf s' s'.cur }
    let s1 := cellCount s' s'.cur pa (· - 1)
    execJoin sc a s = if homeWord s' pa = 0 then trap .illegalOperand (s.rd a) s'
      else if homeWord s' pa = 1 ∧ k.code ≠ 0 then .next (startRec (endRecord s1 s1.cur) s1.cur k)
      else .next (endRecord s1 s1.cur) := by
  have hfirst : releaseFirst s' s'.cur (relScope s' s'.cur sc) = .ok () s' := releaseFirst_ok hrel.1 fun _ => hrel.2
  have h0' : ¬ s.rd a = 0#64 := h0
  simp [execJoin, h0', ha, hcell, hff, hfirst]

/-- A yielded record becomes the oldest entry of a deque with room and nothing in its backing area (R144). -/
theorem yieldPlace_deque {s : State} {c : Nat} (hb : (s.core c).backing = []) (hroom : (s.core c).deque.length < 64) (r : Rec) :
    yieldPlace s c r = some (report (s.updCore c fun q => { q with deque := r :: q.deque }) c r) := by
  simp [yieldPlace, hb, hroom]

/-- YIELD of a record in the scratchpad: where the record found its place, the running one ends (R144). -/
theorem execYield_placed {s u : State} {a : Reg} {r : Rec} (hr : ReadsScratchpad s (s.rd a) 32) (ha : (s.rd a).toNat % 32 = 0)
    (hg : ∀ g, s.me.got = some g → g.1 ≠ s.me.pc) (hrel : released s s.myCore = true) (hj : (r.join.toNat / 8) % 8 = 0)
    (hrec : r = s.offered (recOf (s.myLs.bytes (s.lsPlace (s.rd a)) 32) s.myCore)) (hp : yieldPlace s s.myCore r = some u) :
    execYield a s = .next (endRecord u u.cur) := by
  subst hrec
  simp only [State.offered] at hj hp
  simp [execYield, awaitRec_scratchpad hr ha hg, checkJoin_ok, hj, hp, releaseOffer_ok hrel]

/-- Settles O21: DONE ends the record, JOIN goes by the count of its cell, and YIELD finds room at the top of the deque. -/
theorem recordEnds : Obligations.RecordEnds := by
  intro s s' sc a pa hlv adr ended
  have hend : endRecord s s.cur = s.setSlot s.cur (ended s.me) := endRecord_quiet hlv
  refine ⟨congrArg _ hend, fun h0 => ?_, fun h0 ha hcell hff hrel => ?_, ?_⟩
  · exact (if_pos h0).trans (congrArg _ hend)
  · intro n k s1
    have hjoin : exec (.join sc a) s = _ := execJoin_cell (sc := sc) h0 ha hcell hff hrel
    refine ⟨fun hn => ?_, fun hn hk => ?_, fun hn hlast => ?_⟩
    · exact hjoin.trans (if_pos hn)
    · have hn0 : n ≠ 0 := by simp [hn]
      exact hjoin.trans ((if_neg hn0).trans (if_pos ⟨hn, hk⟩))
    · have hmore : ¬ (n = 1 ∧ k.code ≠ 0) := fun ⟨h1, hk⟩ => hlast.elim (absurd h1) (absurd · hk)
      exact hjoin.trans ((if_neg hn).trans (if_neg hmore))
  · intro l r hr ha hg hrel hj hb hroom
    have hplace := yieldPlace_deque hb hroom r
    obtain ⟨b, hcore⟩ := core_report (s.updCore s.myCore fun q => { q with deque := r :: q.deque }) s.myCore r s.myCore
    have hrest := report_rest (s.updCore s.myCore fun q => { q with deque := r :: q.deque }) s.myCore r
    generalize report _ s.myCore r = u at hplace hcore hrest
    have hcur : u.cur = s.cur := by rw [hrest]; rfl
    have hslot : u.slot s.cur = s.me := State.slot_congr (by rw [hrest]; rfl) s.cur
    refine ⟨_, execYield_placed hr ha hg hrel.1 hj rfl hplace, ?_⟩
    rw [hcur, endRecord_quiet (hslot ▸ hlv), hslot]
    refine ⟨?_, ?_, ?_⟩
    · change (u.core s.myCore).deque = _
      rw [hcore, State.updCore_eq, State.core_setCore_self]
    · rw [State.me, State.setSlot_cur, hcur, State.slot_setSlot_self]
      rfl
    · change u.mem = _
      rw [hrest]
      rfl

end Sys2Proof.Machine
end

section
/-! The pieces of a range: where it is cut, and the units between two cuts (R138). -/

namespace Sys2Proof.Machine

/-- The unit before which piece p of n begins, of a range of u units: the first u % n pieces have one unit more than the others. -/
def rangeCut (u n p : Nat) : Nat := p * (u / n) + min p (u % n)

theorem rangeCut_zero (u n : Nat) : rangeCut u n 0 = 0 := by simp [rangeCut]

theorem rangeCut_succ (u n p : Nat) : rangeCut u n (p + 1) = rangeCut u n p + (u / n + bit (p < u % n)) := by
  unfold rangeCut bit
  rw [Nat.succ_mul]
  split <;> simp_all <;> omega

theorem rangeCut_all {n : Nat} (u : Nat) (hn : 0 < n) : rangeCut u n n = u := by
  rw [rangeCut, Nat.min_eq_right (Nat.mod_lt u hn).le, Nat.div_add_mod]

/-- A piece lies between two cuts, and in the range. -/
theorem piece_eq (lo hi g n p : Nat) : piece lo hi g n p =
    (lo + rangeCut (units lo hi g) n p * g, min hi (lo + rangeCut (units lo hi g) n (p + 1) * g)) := by
  rw [rangeCut_succ]
  rfl

/-- The cuts of a range with no fewer units than pieces rise. -/
theorem rangeCut_strictMono {u n : Nat} (hn : 0 < n) (hu : n ≤ u) : StrictMono (rangeCut u n) := by
  refine strictMono_nat_of_lt_succ fun p => ?_
  have hq : 0 < u / n := Nat.div_pos hu hn
  rw [rangeCut_succ]
  omega

/-- The units of a range are those that begin in it. -/
theorem lt_units_iff {g : Nat} (hg : 0 < g) (lo hi k : Nat) : k < units lo hi g ↔ k * g < hi - lo := by
  rw [units, ← Nat.succ_le_iff, Nat.le_div_iff_mul_le hg, Nat.succ_mul]
  omega

/-- The last piece ends with the range. -/
theorem piece_last {lo hi g n : Nat} (hg : 0 < g) (hn : 0 < n) : (piece lo hi g n (n - 1)).2 = hi := by
  have hend : hi - lo ≤ units lo hi g * g := Nat.le_of_not_lt fun h => (lt_irrefl _) ((lt_units_iff hg lo hi _).mpr h)
  rw [piece_eq, Nat.sub_add_cancel hn, rangeCut_all _ hn]
  exact Nat.min_eq_left (by omega)

/-- A piece has at most the units of its cuts, of which there is at most one more than in every piece. -/
theorem piece_length_le (lo hi g n p : Nat) : (piece lo hi g n p).2 - (piece lo hi g n p).1 ≤ (units lo hi g / n + 1) * g := by
  have hbit : bit (decide (p < units lo hi g % n)) ≤ 1 := by unfold bit; split <;> omega
  have hmul := Nat.mul_le_mul_right g (Nat.add_le_add_left hbit (units lo hi g / n))
  rw [piece_eq, rangeCut_succ, Nat.add_mul (rangeCut _ _ _)]
  dsimp only
  omega

section
variable {lo hi g n : Nat} (hg : 0 < g) (hn : 0 < n) (hu : n ≤ units lo hi g)
include hg hn hu

/-- A cut before the last lies in the range. -/
theorem rangeCut_in_range {p : Nat} (hp : p < n) : lo + rangeCut (units lo hi g) n p * g < hi := by
  have hcut : rangeCut (units lo hi g) n p < units lo hi g := by
    simpa only [rangeCut_all _ hn] using rangeCut_strictMono hn hu hp
  have := (lt_units_iff hg lo hi _).mp hcut
  omega

theorem rangeCut_mul_lt (p : Nat) : rangeCut (units lo hi g) n p * g < rangeCut (units lo hi g) n (p + 1) * g :=
  Nat.mul_lt_mul_of_pos_right (rangeCut_strictMono hn hu p.lt_succ_self) hg

/-- A piece begins where the one before it ends. -/
theorem piece_next {p : Nat} (hp : p + 1 < n) : (piece lo hi g n p).2 = (piece lo hi g n (p + 1)).1 := by
  rw [piece_eq, piece_eq]
  exact Nat.min_eq_right (rangeCut_in_range hg hn hu hp).le

theorem piece_nonempty {p : Nat} (hp : p < n) : (piece lo hi g n p).1 < (piece lo hi g n p).2 := by
  have hcut := rangeCut_mul_lt hg hn hu p
  rw [piece_eq]
  exact lt_min (rangeCut_in_range hg hn hu hp) (by omega)

/-- A piece has all its units but a part of the last. -/
theorem le_piece_length {p : Nat} (hp : p < n) :
    units lo hi g / n * g ≤ (piece lo hi g n p).2 - (piece lo hi g n p).1 + g := by
  have hle : rangeCut (units lo hi g) n (p + 1) ≤ units lo hi g := by
    simpa only [rangeCut_all _ hn] using (rangeCut_strictMono hn hu).monotone hp
  have hpos : rangeCut (units lo hi g) n p < rangeCut (units lo hi g) n (p + 1) := rangeCut_strictMono hn hu p.lt_succ_self
  have hin := (lt_units_iff hg lo hi (rangeCut (units lo hi g) n (p + 1) - 1)).mp (by omega)
  have hmul : rangeCut (units lo hi g) n (p + 1) * g = rangeCut (units lo hi g) n p * g + (units lo hi g / n * g + bit (decide (p < units lo hi g % n)) * g) := by
    rw [rangeCut_succ, Nat.add_mul, Nat.add_mul]
  rw [Nat.sub_mul] at hin
  rw [piece_eq]
  dsimp only
  omega

/-- Two pieces differ by at most two units. -/
theorem piece_lengths_near {p q : Nat} (hq : q < n) :
    (piece lo hi g n p).2 - (piece lo hi g n p).1 ≤ (piece lo hi g n q).2 - (piece lo hi g n q).1 + 2 * g := by
  have hp := piece_length_le lo hi g n p
  have hq := le_piece_length hg hn hu hq
  rw [Nat.add_mul] at hp
  omega

end

end Sys2Proof.Machine
end

section
/-! RFORK of a record of domain core (R138, R145). -/

namespace Sys2Proof.Machine

/-! ### Pieces dealt to a deque with room (R145) -/

/-- An entry of a table in which a key was put is that key's, or was there. -/
theorem mem_put {α : Type} {k : Nat} {v : α} {t : Tab α} {q : Nat × α} (h : q ∈ put k v t) : q = (k, v) ∨ q ∈ t := by
  induction t with
  | nil => exact .inl (List.mem_singleton.mp h)
  | cons x t ih =>
    obtain ⟨j, w⟩ := x
    simp only [put] at h
    split at h
    · exact List.mem_cons.mp h
    · split at h
      · exact (List.mem_cons.mp h).imp_right (List.mem_cons_of_mem _)
      · rcases List.mem_cons.mp h with h | h
        · exact .inr (h ▸ List.mem_cons_self)
        · exact (ih h).imp_right (List.mem_cons_of_mem _)

/-- What a table has under a key is one of its entries. -/
theorem mem_of_look {α : Type} {k : Nat} {v : α} {t : Tab α} (h : look k t = some v) : (k, v) ∈ t := by
  induction t with
  | nil => cases h
  | cons x t ih =>
    obtain ⟨j, w⟩ := x
    simp only [look] at h
    split at h
    next hj => exact List.mem_cons.mpr (.inl (by rw [hj, Option.some.inj h]))
    next => exact List.mem_cons_of_mem _ (ih h)

/-- No core has an entry in its spill path (R134). -/
def NoneSpilled (s : State) : Prop := ∀ q ∈ s.cores, q.2.spillPath = []

theorem NoneSpilled.core {s : State} (h : NoneSpilled s) (c : Nat) : (s.core c).spillPath = [] := by
  rw [State.core]
  cases hq : look c s.cores with
  | none => rfl
  | some q => exact h _ (mem_of_look hq)

theorem NoneSpilled.pushBottom {s : State} (h : NoneSpilled s) (c : Nat) (r : Rec) : NoneSpilled (pushBottom s c r) := by
  have hput : NoneSpilled (s.updCore c fun q => { q with deque := q.deque ++ [r] }) := by
    intro q hq
    rcases mem_put hq with hq | hq
    · rw [hq]
      exact h.core c
    · exact h q hq
  rw [Machine.pushBottom, report]
  split
  · exact hput
  · intro q hq
    obtain ⟨p, hp, hpq⟩ := List.mem_map.mp hq
    rw [← hpq]
    split
    · exact hput p hp
    · exact hput p hp

/-- A piece as its core's deque holds it: the issuing core is its first (R145). -/
def Rec.dealt (c : Nat) (r : Rec) : Rec := { r with first := c }

theorem dealTo_room {s : State} {c : Nat} (hroom : (s.core c).deque.length < 64) (hs : NoneSpilled s) (issuer : Nat) (r : Rec) :
    dealTo s c issuer r = pushBottom s c (r.dealt c) := by
  simp [dealTo, hroom, hs.core c, Rec.dealt]

/-- Pieces dealt to a deque that has room for all of them. -/
theorem queued_foldl_dealTo (c : Nat) (l : List Rec) {s : State} (hroom : (s.core c).deque.length + l.length ≤ 64) (hs : NoneSpilled s) :
    let t := (l.map fun x => (c, x)).foldl (fun s e => dealTo s e.1 s.cur e.2) s
    Queued s t c (l.map (Rec.dealt c)) ∧ NoneSpilled t := by
  induction l generalizing s with
  | nil => exact ⟨.refl s c, hs⟩
  | cons r l ih =>
    rw [List.length_cons] at hroom
    have hdeal := dealTo_room (c := c) (by omega) hs s.cur r
    have hr := queued_pushBottom s c (r.dealt c)
    obtain ⟨hl, hs'⟩ := ih (by rw [hr.deque, List.length_append, List.length_singleton]; omega) (hs.pushBottom c (r.dealt c))
    rw [List.map_cons, List.foldl_cons, hdeal]
    exact ⟨hr.trans hl, hs'⟩

/-! ### The instruction -/

theorem Res.finish_of_ok {α : Type} {r : Res α} {a : α} {s : State} (h : r = .ok a s) (k : α → State → Out) : r.finish k = k a s := by
  rw [h]
  rfl

/-- The range record at an address of the core's own scratchpad (R130, R145). -/
def State.rangeRec (s : State) (ea : Word) : Rec :=
  let l := s.myLs.bytes (s.lsPlace ea) 64
  let w (i : Nat) : Word := BitVec.ofNat 64 (leNat ((l.drop i).take 8))
  { recOf l s.myCore with range := some (w 32, w 40, w 48), launch := launchOf s s.cur }

/-- A join word that names no cell and no domain beyond the core (R130). -/
theorem Rec.of_core {r : Rec} (hd : r.join.toNat % 4 = 0) (hc : r.join.toNat / 8 = 0) : r.domain = 0 ∧ r.cell = 0 := by
  have hsmall (x : Fin 8) : BitVec.ofNat 64 x.val &&& ~~~63#64 = 0 := by
    revert x
    decide
  refine ⟨by simpa [Rec.domain, bits, fld] using hd, ?_⟩
  simpa [Rec.cell] using hsmall ⟨r.join.toNat, by omega⟩

/-- How an RFORK of a slot ends whose pieces have been dealt: it waits for those that stand in spill paths (R145). -/
def State.dealsDone (s : State) (issuer : Nat) : Out :=
  if s.cores.any fun q => q.2.spillPath.any fun e => e.1 = issuer then doneFar 4 (some .deal) s else done 4 s

theorem NoneSpilled.dealsDone {s : State} (h : NoneSpilled s) (issuer : Nat) : s.dealsDone issuer = done 4 s := by
  refine if_neg (Bool.not_eq_true _ ▸ List.any_eq_false.mpr fun q hq => ?_)
  rw [h q hq]
  exact Bool.false_ne_true

/-- Shares that wait at the roots of other dies (R139). -/
def State.withShares (s : State) (l : List Share) : State := { s with shares := s.shares ++ l }

theorem State.withShares_nil (s : State) : s.withShares [] = s := by rw [withShares, List.append_nil]

/-- The order in which pieces go to one deque: the lowest is the last of them, and so taken first (R145). -/
def lowestLast (l : List Rec) : List Rec := (l.drop 1).reverse ++ l.take 1

theorem lowestLast_length (l : List Rec) : (lowestLast l).length = l.length := by
  simp only [lowestLast, List.length_append, List.length_reverse, List.length_drop, List.length_take]
  omega

/-- Where the pieces of a record of domain core go (R138, R145). -/
theorem offerPlan_core {r : Rec} (hd : r.domain = 0) (s : State) (c : Nat) (cell : Option Nat) :
    offerPlan s c r cell = ((lowestLast (r.pieces (Nat.min ((idleSlots s c).length + 1) r.units))).map fun x => (c, x), []) := by
  unfold offerPlan
  rw [hd]
  rfl

section
variable {s : State} {a : Reg} (hr : ReadsScratchpad s (s.rd a) 64) (ha : (s.rd a).toNat % 64 = 0)
include hr ha

/-- RFORK of a record of domain core with no join cell, read from the scratchpad: the deals, and the wait for pieces in a spill path (R145). -/
theorem execRfork_core (hd : (s.rangeRec (s.rd a)).join.toNat % 4 = 0) (hc : (s.rangeRec (s.rd a)).join.toNat / 8 = 0)
    (hgrain : BitVec.ofNat 64 (leNat (((s.myLs.bytes (s.lsPlace (s.rd a)) 64).drop 48).take 8)) ≠ (0 : Word))
    (hlast : BitVec.ofNat 64 (leNat (((s.myLs.bytes (s.lsPlace (s.rd a)) 64).drop 56).take 8)) = (0 : Word)) :
    let r := s.rangeRec (s.rd a)
    let l := r.pieces (Nat.min ((idleSlots s s.myCore).length + 1) r.units)
    (r.bounds.2.1 ≤ r.bounds.1 → execRfork a s = s.dealsDone s.cur) ∧
    (r.bounds.1 < r.bounds.2.1 → execRfork a s =
      (((lowestLast l).map fun x => (s.myCore, x)).foldl (fun s e => dealTo s e.1 s.cur e.2) s).dealsDone s.cur) := by
  obtain ⟨hdom, hcell⟩ := Rec.of_core hd hc
  have hcheck := checkJoin_ok (r := s.rangeRec (s.rd a)) (by rw [hc]) (s.rd a) s
  have hrel : releaseOffer s (s.rangeRec (s.rd a)) = .ok () s := if_pos hdom
  have hplan := offerPlan_core hdom s s.myCore none
  intro r l
  have hexec : execRfork a s = State.dealsDone (if r.bounds.2.1 ≤ r.bounds.1 then s
      else (List.foldl (fun s e => dealTo s e.1 s.cur e.2) s (offerPlan s s.myCore r none).1).withShares (offerPlan s s.myCore r none).2) s.cur := by
    refine Res.finish_of_ok (a := (r, none, none)) (s := s) ?_ _
    rw [readRec_scratchpad hr ha, Res.ok_andThen]
    change (checkJoin r (s.rd a) s).andThen _ = _
    rw [hcheck, Res.ok_andThen, if_neg (by simpa [hlast] using hgrain)]
    change Res.andThen (if r.cell = 0 then _ else _) _ = _
    rw [if_pos hcell, Res.ok_andThen]
    change (releaseOffer s r).andThen _ = _
    rw [hrel]
    rfl
  rw [hplan, State.withShares_nil] at hexec
  exact ⟨fun h => by rw [hexec, if_pos h], fun h => by rw [hexec, if_neg (Nat.not_le.mpr h)]⟩

end

theorem Rec.pieces_length (r : Rec) (n : Nat) : (r.pieces n).length = n := by
  simp [Rec.pieces]

/-- Settles O22: pieces lie between rising cuts, and RFORK deals them to a deque that has room for all. -/
theorem rangesAreCut : Obligations.RangesAreCut := by
  refine ⟨fun lo hi g n hlt hg hn hu => ⟨?_, piece_last hg hn, fun p hp => piece_next hg hn hu hp, fun p hp => piece_nonempty hg hn hu hp,
    fun p q _ hq => piece_lengths_near hg hn hu hq⟩, ?_⟩
  · rw [piece_eq, rangeCut_zero, Nat.zero_mul, Nat.add_zero]
  · intro s a ea c l w r hr ha hd hc hgrain hlast hs
    obtain ⟨hnone, hsome⟩ := execRfork_core hr ha hd hc hgrain hlast
    refine ⟨fun hempty => (hnone hempty).trans (NoneSpilled.dealsDone hs s.cur), fun hlt => ?_⟩
    · intro n ps hroom
      obtain ⟨hq, hs'⟩ := queued_foldl_dealTo c (lowestLast (r.pieces n)) (by rwa [lowestLast_length, Rec.pieces_length]) hs
      obtain ⟨hdeque, hmem, hme, -⟩ := hq.past
      refine ⟨_, (hsome hlt).trans (hs'.dealsDone s.cur), ?_, hmem, hme⟩
      rw [hdeque, lowestLast, List.map_append, List.map_reverse, List.map_drop, List.map_take, ← List.append_assoc]
      rfl

end Sys2Proof.Machine
end

section
/-! The events of the deques, of the steal logic and of the dies' roots (R132 to R139). -/

namespace Sys2Proof.Machine

/-! ### Entries that wait for room (R134) -/

/-- Where nothing waits in a core's spill path, what is left to do is to re-admit slots: the core is as it was. -/
theorem core_settle {s : State} {c : Nat} (h : (s.core c).spillPath = []) : (settle s c).core c = s.core c := by
  have hcore : (s.setCore c { s.core c with spillPath := [] }).core c = s.core c := by rw [State.core_setCore_self, ← h]
  simp only [settle, h, List.take_nil, List.foldl_nil, List.drop_nil, State.updCore_eq]
  split
  · exact (State.core_congr (State.wakeWhere_keeps ..).1 c).trans hcore
  · exact hcore

section
variable {s : State} {c : Nat}

/-! ### Pops, spills and refills (R134, R136) -/

/-- The place of the entry that a pop takes (R136). -/
def Core.popIndex (q : Core) : Nat := (lastWhere Rec.urgent q.deque).getD (q.deque.length - 1)

/-- A pop: the lowest slot that may take a record starts the newest urgent entry, or the newest (R136). -/
theorem execRecordPop_starts {t : Nat} {ts : List Nat} {r : Rec} (hfree : freeSlots s c = t :: ts) (hne : (s.core c).deque ≠ [])
    (hr : (s.core c).deque[(s.core c).popIndex]? = some r) :
    execRecordPop c s = .next (startRec (settle (s.updCore c fun q => { q with deque := q.deque.eraseIdx (s.core c).popIndex }) c) t r) := by
  obtain ⟨n, hn⟩ := Nat.exists_eq_succ_of_ne_zero (mt List.length_eq_zero_iff.mp hne)
  have hi : (s.core c).popIndex = (lastWhere Rec.urgent (s.core c).deque).getD n := by rw [Core.popIndex, hn, Nat.succ_sub_one]
  rw [hi] at hr ⊢
  simp only [execRecordPop, hfree, List.head?_cons, hn, hr]

/-- A spill: the oldest 32 entries leave a deque that holds 48 (R134). -/
theorem execDequeSpill_spills (hlen : 48 ≤ (s.core c).deque.length) (hb : hasBacking s c = true) (hroom : (s.core c).backing.length + 32 ≤ 4096) :
    execDequeSpill c s = .next (settle (s.updCore c fun q =>
      { q with deque := q.deque.drop 32, backing := q.backing ++ q.deque.take 32 }) c) := by
  have hk : Nat.min 32 (4096 - (s.core c).backing.length) = 32 := Nat.min_eq_left (by omega)
  simp [execDequeSpill, hk, hlen, hb]

/-- A refill: the newest entries of the backing area come back to an empty deque (R134). -/
theorem execDequeRefill_refills (hempty : (s.core c).deque = []) (hb : (s.core c).backing ≠ []) (hfree : freeSlots s c ≠ []) :
    let n := (s.core c).backing.length - 32
    execDequeRefill c s = .next (((s.core c).backing.drop n).foldl (fun s r => report s c r)
      (s.updCore c fun q => { q with deque := q.backing.drop n, backing := q.backing.take n })) := by
  simp [execDequeRefill, hempty, hb, hfree]

/-! ### Steals (R135, R137) -/

theorem execStealSearch_none (h : maySteal s c = true) (hv : findVictim s c = none) :
    execStealSearch c s = .next (s.updCore c fun q => { q with searching := false }) := by
  simp [execStealSearch, h, hv]

theorem execStealSearch_takes {v i : Nat} {r : Rec} (h : maySteal s c = true) (hv : findVictim s c = some (v, i))
    (hr : (s.core v).deque[i]? = some r) :
    let s1 := settle (s.updCore v fun q => { q with deque := q.deque.eraseIdx i }) v
    execStealSearch c s = .next { (s1.updCore c fun q => { q with lastSteal := some v }) with transit := s1.transit ++ [⟨c, v, r⟩] } := by
  simp [execStealSearch, h, hv, hr]

end

section
variable {s : State} {k : Nat} {x : Transit} (hx : s.transit[k]? = some x)
include hx

theorem execStealArrival_starts {t : Nat} {ts : List Nat} (h : freeSlots { s with transit := s.transit.eraseIdx k } x.thief = t :: ts) :
    execStealArrival k s = .next (startRec { s with transit := s.transit.eraseIdx k } t x.rcd) := by
  simp [execStealArrival, hx, h]

theorem execStealArrival_queues (h : freeSlots { s with transit := s.transit.eraseIdx k } x.thief = [])
    (hroom : (s.core x.thief).deque.length < 64) (hs : (s.core x.thief).spillPath = []) :
    execStealArrival k s = .next (pushBottom { s with transit := s.transit.eraseIdx k } x.thief x.rcd) := by
  have hcore : ({ s with transit := s.transit.eraseIdx k } : State).core x.thief = s.core x.thief := rfl
  simp [execStealArrival, hx, h, hcore, hroom, hs]

end

/-! ### Shares at the roots of the dies (R139) -/

theorem execUndealtShareDeal_deals {s : State} {die i : Nat} {x : Share}
    (hi : (s.shares.findIdx? fun x => x.die = die && !(idleInDie s x.part die x.core).isEmpty) = some i) (hx : s.shares[i]? = some x) :
    execUndealtShareDeal die s = .next (dealShare s { s with shares := s.shares.eraseIdx i } x.part die x.core x.rcd x.cell 0) := by
  simp only [execUndealtShareDeal, hi, hx]

/-- A dry die takes the largest share whole where it is one unit, and its upper half where it is more (R139). -/
theorem execRangeTransfer_takes {s : State} {die i : Nat} {x : Share} {lo hi g : Nat} (hx : largestShare s die = some (i, x))
    (hb : x.rcd.bounds = (lo, hi, g)) :
    let u := x.rcd.units; let mid := lo + (u - u / 2) * g
    execRangeTransfer die s = if u ≤ 1 then .next (dealShare s { s with shares := s.shares.eraseIdx i } x.part die x.core x.rcd x.cell 0)
      else .next (dealShare s { s with shares := s.shares.set i { x with rcd := x.rcd.piece (lo, mid) } } x.part die x.core
        (x.rcd.piece (mid, hi)) x.cell 1) := by
  unfold execRangeTransfer
  rw [hx]
  dsimp only
  rw [hb]

/-- Settles O23: each event goes through the branch that its conditions name. -/
theorem dequeAndShareEvents : Obligations.DequeAndShareEvents := by
  refine ⟨?deques, fun s die i x hi hx => execUndealtShareDeal_deals hi hx, fun s die i x lo hi g hx hb => ?transfer⟩
  case deques =>
    intro s c q
    refine ⟨fun t ts i r hfree hne hi hr => ?pop, fun hlen hb hroom hs => ?spill, fun hempty hb hfree => ?refill,
      execStealSearch_none, fun v i r => execStealSearch_takes, fun k x hx => ⟨fun t ts => execStealArrival_starts hx, execStealArrival_queues hx⟩⟩
    case pop =>
      subst hi
      exact execRecordPop_starts hfree hne hr
    case spill =>
      have hcore := core_settle (s := s.updCore c fun q => { q with deque := q.deque.drop 32, backing := q.backing ++ q.deque.take 32 })
        (c := c) (by rw [State.updCore_eq, State.core_setCore_self]; exact hs)
      rw [State.updCore_eq, State.core_setCore_self] at hcore
      exact ⟨_, execDequeSpill_spills hlen hb hroom, by rw [State.updCore_eq, hcore], by rw [State.updCore_eq, hcore], settle_mem ..⟩
    case refill =>
      refine ⟨_, execDequeRefill_refills hempty hb hfree, ?_⟩
      obtain ⟨b, hcore⟩ := core_foldl_report c (q.backing.drop (q.backing.length - 32))
        (s.updCore c fun q => { q with deque := q.backing.drop (q.backing.length - 32), backing := q.backing.take (q.backing.length - 32) }) c
      rw [State.updCore_eq, State.core_setCore_self] at hcore
      refine ⟨?_, ?_, foldl_slots _ (fun s r => report_slots s c r) _ _⟩
      · rw [State.updCore_eq, hcore]
        exact List.take_append_drop ..
      · rw [State.updCore_eq, hcore, List.length_drop]
        exact (by omega : q.backing.length - (q.backing.length - 32) = min 32 q.backing.length)
  case transfer =>
    have h := execRangeTransfer_takes hx hb
    exact ⟨fun hu => h.trans (if_pos hu), fun hu => h.trans (if_neg (Nat.not_le.mpr hu))⟩

end Sys2Proof.Machine
end

section
/-! Barriers: their registers, the arrivals of slots and neighbours, and the release of a phase (R149 to R151). -/

namespace Sys2Proof.Machine

/-! ### Barrier registers (R149) -/

@[simp] theorem State.bar_updBar_self (s : State) (c : Nat) (n : Fin 8) (f : Barrier → Barrier) : (s.updBar c n f).bar c n = f (s.bar c n) := by
  simp [State.updBar, State.bar]

/-- Re-admitting slots changes no barrier register. -/
theorem State.bar_wakeWhere (s : State) (a : Nat) (f : Wait → Bool) (c : Nat) (n : Fin 8) : (s.wakeWhere a f).bar c n = s.bar c n :=
  congrArg (fun q : Core => q.bars[n]) (State.core_congr (State.wakeWhere_keeps ..).1 c)

/-- A release inverts the phase of its core's register (R150). -/
theorem ph_barRelease (s : State) (c : Nat) (n : Fin 8) : ((barRelease s c n).bar c n).ph = !(s.bar c n).ph := by
  have hbar : (barRelease s c n).bar c n = { (s.bar c n) with
      reg := (s.bar c n).reg ^^^ (1 <<< 63), fromEast := false, fromBelow := false, sent := false } :=
    (State.bar_wakeWhere _ c _ c n).trans (State.bar_updBar_self ..)
  rw [hbar, Barrier.ph, bitOf, BitVec.getLsbD_xor]
  exact Bool.xor_true _

/-! ### Rectangles (R149) -/

theorem testBit_fld (v : Word) (lo w i : Nat) : (fld v.toNat lo w).testBit i = (decide (i < w) && v.getLsbD (lo + i)) := by
  rw [fld, Nat.testBit_mod_two_pow, Nat.testBit_div_two_pow, Nat.add_comm]
  rfl

theorem fld_setWidth (v : Word) {lo w : Nat} (h : lo + w ≤ 22) : fld (v.setWidth 22).toNat lo w = fld v.toNat lo w := by
  obtain ⟨k, hk⟩ := Nat.exists_eq_add_of_le h
  unfold fld
  rw [BitVec.toNat_setWidth, hk, Nat.add_assoc, Nat.pow_add 2 lo, Nat.mod_mul_right_div_self, Nat.pow_add, Nat.mod_mul_right_mod]

theorem rectX0_setWidth (v : Word) : rectX0 (v.setWidth 22) = bits v 4 0 := fld_setWidth v (by decide)
theorem rectX1_setWidth (v : Word) : rectX1 (v.setWidth 22) = bits v 9 5 := fld_setWidth v (by decide)
theorem rectY0_setWidth (v : Word) : rectY0 (v.setWidth 22) = bits v 15 10 := fld_setWidth v (by decide)
theorem rectY1_setWidth (v : Word) : rectY1 (v.setWidth 22) = bits v 21 16 := fld_setWidth v (by decide)

theorem mem_rectCores {r : BitVec 22} {i : Nat} :
    i ∈ rectCores r ↔ ∃ x y, rectX0 r ≤ x ∧ x ≤ rectX1 r ∧ rectY0 r ≤ y ∧ y ≤ rectY1 r ∧ y * 32 + x = i := by
  simp only [rectCores, List.mem_flatMap, List.mem_map, List.mem_range]
  constructor
  · rintro ⟨y, hy, x, hx, rfl⟩
    exact ⟨rectX0 r + x, rectY0 r + y, by omega, by omega, by omega, by omega, by omega⟩
  · rintro ⟨x, y, hx0, hx1, hy0, hy1, rfl⟩
    exact ⟨y - rectY0 r, by omega, x - rectX0 r, by omega, by omega⟩

/-- A core lies in a rectangle by its column and its row (R6). -/
theorem core_mem_rectCores {r : BitVec 22} {c : Nat} :
    c ∈ rectCores r ↔ rectX0 r ≤ c % 32 ∧ c % 32 ≤ rectX1 r ∧ rectY0 r ≤ c / 32 ∧ c / 32 ≤ rectY1 r := by
  have hx : rectX1 r < 32 := Nat.mod_lt _ (by decide)
  rw [mem_rectCores]
  constructor
  · rintro ⟨x, y, hx0, hx1, hy0, hy1, rfl⟩
    have hcol : (y * 32 + x) % 32 = x := by omega
    have hrow : (y * 32 + x) / 32 = y := by omega
    rw [hcol, hrow]
    exact ⟨hx0, hx1, hy0, hy1⟩
  · rintro ⟨hx0, hx1, hy0, hy1⟩
    exact ⟨_, _, hx0, hx1, hy0, hy1, by omega⟩

/-! ### BAR.SET (R149) -/

/-- A value of BAR.SET whose rectangle is in order, holds the core and lies within its partition, where it is active (R149). -/
def State.LegalBar (s : State) (c : Nat) (v : Word) : Prop :=
  v.getLsbD 62 = true → bits v 4 0 ≤ bits v 9 5 ∧ bits v 15 10 ≤ bits v 21 16 ∧ bits v 4 0 ≤ c % 32 ∧ c % 32 ≤ bits v 9 5 ∧
    bits v 15 10 ≤ c / 32 ∧ c / 32 ≤ bits v 21 16 ∧
    ∃ g, s.cfgOf c = some g ∧ ∀ x y, bits v 4 0 ≤ x → x ≤ bits v 9 5 → bits v 15 10 ≤ y → y ≤ bits v 21 16 → y * 32 + x ∈ coreSet g

/-- No slot of a core has arrived at a barrier. -/
def State.BarUnused (s : State) (c : Nat) (n : Fin 8) : Prop := s.slotsWhere c (fun x => x.arrived[n].isSome) = []

/-- The cores of the partition of a core; none where it has no configured partition. -/
def State.barCores (s : State) (c : Nat) : List Nat := match s.cfgOf c with | some k => coreSet k | none => []

/-- A rectangle that holds the core lies within the partition where the core has one whose cores it holds. -/
theorem rect_within_iff {s : State} {c : Nat} {r : BitVec 22} (hc : c ∈ rectCores r) : (∀ i ∈ rectCores r, i ∈ s.barCores c) ↔
    ∃ g, s.cfgOf c = some g ∧ ∀ x y, rectX0 r ≤ x → x ≤ rectX1 r → rectY0 r ≤ y → y ≤ rectY1 r → y * 32 + x ∈ coreSet g := by
  unfold State.barCores
  cases s.cfgOf c with
  | none => exact ⟨fun h => absurd (h c hc) List.not_mem_nil, fun ⟨g, hg, _⟩ => absurd hg.symm (Option.some_ne_none g)⟩
  | some g =>
    constructor
    · exact fun h => ⟨g, rfl, fun x y hx0 hx1 hy0 hy1 => h _ (mem_rectCores.mpr ⟨x, y, hx0, hx1, hy0, hy1, rfl⟩)⟩
    · rintro ⟨_, ⟨⟩, h⟩ i hi
      obtain ⟨x, y, hx0, hx1, hy0, hy1, rfl⟩ := mem_rectCores.mp hi
      exact h x y hx0 hx1 hy0 hy1

/-- Whether BAR.SET refuses a value: its rectangle is out of order, or does not hold the core, or holds one beyond its partition. -/
def State.barRefuses (s : State) (c : Nat) (v : Word) : Bool :=
  let r : BitVec 22 := v.setWidth 22
  bitOf v 62 && (rectX1 r < rectX0 r || rectY1 r < rectY0 r || !(rectCores r).contains c || (rectCores r).any fun i => !(s.barCores c).contains i)

theorem barRefuses_eq_false_iff (s : State) (c : Nat) (v : Word) : s.barRefuses c v = false ↔ s.LegalBar c v := by
  have haccepts : s.barRefuses c v = false ↔ (v.getLsbD 62 = true → rectX0 (v.setWidth 22) ≤ rectX1 (v.setWidth 22) ∧
      rectY0 (v.setWidth 22) ≤ rectY1 (v.setWidth 22) ∧ c ∈ rectCores (v.setWidth 22) ∧ ∀ i ∈ rectCores (v.setWidth 22), i ∈ s.barCores c) := by
    unfold State.barRefuses bitOf
    generalize v.getLsbD 62 = b
    cases b <;> simp [and_assoc]
  rw [haccepts, and_congr_right rect_within_iff, core_mem_rectCores]
  simp only [rectX0_setWidth, rectX1_setWidth, rectY0_setWidth, rectY1_setWidth, and_assoc]
  rfl

/-- What BAR.SET leaves in a register: the fields of the value, and the phase (R149, log 65). -/
def Barrier.set (b : Barrier) (v : Word) : Barrier :=
  { reg := (b.reg &&& 0x8000000000000000) ||| (v &&& 0x4000FFFF003FFFFF), fromEast := false, fromBelow := false, sent := false }

theorem Barrier.v_set (b : Barrier) (v : Word) : (b.set v).v = v.getLsbD 62 := by
  simp [Barrier.v, Barrier.set, bitOf]

/-- The slots that take part are those of the value. -/
theorem Barrier.slots_set (b : Barrier) (v : Word) : bits (b.set v).reg 47 32 = bits v 47 32 := by
  have hmasks (i : Fin 16) : (0x8000000000000000 : Word).getLsbD (32 + i.val) = false ∧ (0x4000FFFF003FFFFF : Word).getLsbD (32 + i.val) = true := by
    revert i
    decide
  refine Nat.eq_of_testBit_eq fun i => ?_
  simp only [bits, testBit_fld, Barrier.set, BitVec.getLsbD_or, BitVec.getLsbD_and]
  by_cases hi : i < 16
  · obtain ⟨hphase, hfields⟩ := hmasks ⟨i, hi⟩
    rw [hphase, hfields, Bool.and_false, Bool.false_or, Bool.and_true]
  · simp [hi]

/-- BAR.SET refuses a value while a slot has arrived, and one that is not legal; it stores any other (R149). -/
theorem execBarSet_eq (s : State) (n : Fin 8) (a : Reg) : execBarSet n a s =
    if !(s.slotsWhere s.myCore fun x => x.arrived[n].isSome).isEmpty || s.barRefuses s.myCore (s.rd a) then trap .illegalOperand (s.rd a) s
    else done 4 (barAdvance (s.updBar s.myCore n fun b => b.set (s.rd a)) s.myCore n) := rfl

theorem execBarSet_stores {s : State} {n : Fin 8} {a : Reg} (hu : s.BarUnused s.myCore n) (hl : s.LegalBar s.myCore (s.rd a)) :
    execBarSet n a s = done 4 (barAdvance (s.updBar s.myCore n fun b => b.set (s.rd a)) s.myCore n) := by
  have hl' := (barRefuses_eq_false_iff ..).mpr hl
  rw [State.BarUnused] at hu
  rw [execBarSet_eq, hu, hl']
  rfl

theorem execBarSet_traps {s : State} {n : Fin 8} {a : Reg} (h : ¬ (s.BarUnused s.myCore n ∧ s.LegalBar s.myCore (s.rd a))) :
    execBarSet n a s = trap .illegalOperand (s.rd a) s := by
  rw [execBarSet_eq, if_pos]
  rw [Bool.or_eq_true, Bool.not_eq_true', List.isEmpty_eq_false_iff, ← Bool.not_eq_false, barRefuses_eq_false_iff]
  exact not_and_or.mp h

/-! ### The sweep (R150) -/

/-- A field of a word that is not zero has a bit that is set. -/
theorem exists_bit_of_fld_ne_zero {v : Word} {lo w : Nat} (h : fld v.toNat lo w ≠ 0) : ∃ i, i < w ∧ v.getLsbD (lo + i) = true := by
  obtain ⟨i, hi⟩ := Nat.exists_testBit_of_ne_zero h
  rw [testBit_fld, Bool.and_eq_true, decide_eq_true_eq] at hi
  exact ⟨i, hi⟩

theorem State.BarUnused.slot {s : State} {c : Nat} {n : Fin 8} (h : s.BarUnused c n) {i : Nat} (hi : i < 16) :
    (s.slot (threadOf c i)).arrived[n] = none := by
  have hnone := List.filter_eq_nil_iff.mp h (threadOf c i) (List.mem_map_of_mem (List.mem_range.mpr hi))
  simpa using hnone

/-- Where no slot has arrived and some slot takes part, or the barrier is inactive, the sweep stands still. -/
theorem barAdvance_still {s : State} {c : Nat} {n : Fin 8} (hs : s.BarUnused c n)
    (h : (s.bar c n).v = false ∨ bits (s.bar c n).reg 47 32 ≠ 0) : barAdvance s c n = s := by
  have hstill : (!(s.bar c n).v || (s.bar c n).sent || !locallyComplete s c n) = true := by
    rcases h with hv | hslots
    · simp [hv]
    · obtain ⟨i, hi, hbit⟩ := exists_bit_of_fld_ne_zero hslots
      have hpartial : locallyComplete s c n = false := by
        refine List.all_eq_false.mpr ⟨i, List.mem_range.mpr hi, ?_⟩
        simp [hs.slot hi, bitOf, hbit]
      simp [hpartial]
  exact if_pos hstill

/-! ### The instructions of a slot (R151) -/

/-- A register that takes part in no barrier with the current slot is refused. -/
theorem barCheck_traps {s : State} {n : Fin 8}
    (h : (s.bar s.myCore n).v = false ∨ (s.bar s.myCore n).reg.getLsbD (32 + slotOf s.cur) = false) (k : Barrier → Out) :
    barCheck n s k = trap .illegalOperand (BitVec.ofNat 64 n.val) s := by
  refine if_pos ?_
  rcases h with h | h <;> simp [bitOf, h]

theorem exec_barCheck (s : State) {n : Fin 8} {i : Instr} (hi : i ∈ [Instr.barArrive n, .barWait n, .barSync n]) :
    ∃ k, exec i s = barCheck n s k := by
  simp only [List.mem_cons, List.not_mem_nil, or_false] at hi
  rcases hi with rfl | rfl | rfl
  · exact ⟨_, (rfl : _ = execBarArrive n s)⟩
  · exact ⟨_, (rfl : _ = execBarWait n s)⟩
  · exact ⟨_, (rfl : _ = execBarSync n s)⟩

theorem execBarGet_reads {s : State} {n : Fin 8} (h : (s.bar s.myCore n).v = false ∨ bits (s.bar s.myCore n).reg 47 32 ≠ 0) (d : Reg) :
    execBarGet d n s = result 4 d (s.bar s.myCore n).reg s := by
  refine if_neg ?_
  rcases h with h | h <;> simp [h]

/-- A slot waits while the phase stands in which it arrived, and its arrival is over once the phase has changed. -/
theorem barAwait_same {s : State} {n : Fin 8} : barAwait n (s.bar s.myCore n).ph s = wait (.barrier n (s.bar s.myCore n).ph) s := if_pos rfl

theorem barAwait_changed {s : State} {n : Fin 8} : barAwait n (!(s.bar s.myCore n).ph) s = done 4 (s.setArrived n none) :=
  if_neg (Bool.self_ne_not _)

section
variable {s : State} {n : Fin 8}

/-- An arrival with nothing left to release (R150). -/
theorem arrive_released (h : AllReleased s) (b : Barrier) (k : State → Out) :
    arrive n b s k = k (barAdvance (s.setArrived n (some b.ph)) s.myCore n) := by
  rw [arrive, releaseFirst_ok h.1 fun _ => h.2, Res.finish_ok]

variable (hv : (s.bar s.myCore n).v = true) (hslot : (s.bar s.myCore n).reg.getLsbD (32 + slotOf s.cur) = true)
include hv hslot

theorem barCheck_passes (k : Barrier → Out) : barCheck n s k = k (s.bar s.myCore n) := by
  refine if_neg ?_
  simp [hv, bitOf, hslot]

theorem execBarArrive_arrives (h : AllReleased s) (ha : s.me.arrived[n] ≠ some (s.bar s.myCore n).ph) :
    execBarArrive n s = done 4 (barAdvance (s.setArrived n (some (s.bar s.myCore n).ph)) s.myCore n) := by
  rw [execBarArrive, barCheck_passes hv hslot, if_neg (by simpa using ha), arrive_released h]

theorem execBarArrive_waits (ha : s.me.arrived[n] = some (s.bar s.myCore n).ph) :
    execBarArrive n s = wait (.barrier n (s.bar s.myCore n).ph) s := by
  rw [execBarArrive, barCheck_passes hv hslot, if_pos (by simpa using ha)]

theorem execBarWait_none (ha : s.me.arrived[n] = none) : execBarWait n s = done 4 s := by
  rw [execBarWait, barCheck_passes hv hslot, ha]

theorem execBarSync_none (h : AllReleased s) (ha : s.me.arrived[n] = none) :
    execBarSync n s = barAwait n (s.bar s.myCore n).ph (barAdvance (s.setArrived n (some (s.bar s.myCore n).ph)) s.myCore n) := by
  rw [execBarSync, barCheck_passes hv hslot, ha]
  exact arrive_released h _ _

/-- BAR.WAIT and BAR.SYNC of a slot that has arrived. -/
theorem exec_barAwait {p : Bool} (ha : s.me.arrived[n] = some p) {i : Instr} (hi : i ∈ [Instr.barWait n, Instr.barSync n]) :
    exec i s = barAwait n p s := by
  have hwait : exec (.barWait n) s = barAwait n p s := by
    change execBarWait n s = _
    rw [execBarWait, barCheck_passes hv hslot, ha]
  have hsync : exec (.barSync n) s = barAwait n p s := by
    change execBarSync n s = _
    rw [execBarSync, barCheck_passes hv hslot, ha]
  simp only [List.mem_cons, List.not_mem_nil, or_false] at hi
  rcases hi with rfl | rfl
  · exact hwait
  · exact hsync

end

/-! ### Messages of neighbours (R150) -/

section
variable {s : State} {k : Nat} {m : BarMsg} (hm : s.barMsgs[k]? = some m) (hb : barMatches s m = true)
include hm hb

theorem execBarrierArrival_east (hk : m.kind = .arrivalEast) : execBarrierArrival k s = .next (barAdvance
    ({ s with barMsgs := s.barMsgs.eraseIdx k }.updBar m.dst m.n fun b => { b with fromEast := true }) m.dst m.n) := by
  simp [execBarrierArrival, hm, hb, hk]

theorem execBarrierArrival_below (hk : m.kind = .arrivalBelow) : execBarrierArrival k s = .next (barAdvance
    ({ s with barMsgs := s.barMsgs.eraseIdx k }.updBar m.dst m.n fun b => { b with fromBelow := true }) m.dst m.n) := by
  simp [execBarrierArrival, hm, hb, hk]

theorem execBarrierRelease_releases (hk : m.kind = .release) : execBarrierRelease k s =
    .next (barAdvance (barRelease { s with barMsgs := s.barMsgs.eraseIdx k } m.dst m.n) m.dst m.n) := by
  simp [execBarrierRelease, hm, hb, hk]

end

/-- Settles O24: the register's write and its refusal, then what each instruction and each message does. -/
theorem barriers : Obligations.Barriers := by
  intro s n a d c b v x0 x1 y0 y1 legal unused
  refine ⟨fun hu hl => ?set, fun ht h => Traps.of_trap ht (execBarSet_traps h), fun ht h i hi => Traps.of_trap ht ?check, execBarGet_reads (d := d),
    fun hv hslot => ⟨fun h ha => execBarArrive_arrives hv hslot h ha, fun ha => execBarArrive_waits hv hslot ha, fun ha => execBarWait_none hv hslot ha,
      fun h ha => execBarSync_none hv hslot h ha, fun i hi => ⟨fun ha => ?same, fun ha => ?changed⟩⟩,
    fun k m hm hb => ⟨execBarrierArrival_east hm hb, execBarrierArrival_below hm hb, fun hk => ⟨execBarrierRelease_releases hm hb hk, ph_barRelease ..⟩⟩⟩
  case set =>
    intro u
    refine ⟨execBarSet_stores hu hl, fun h => barAdvance_still hu ?_⟩
    have hbar : u.bar c n = b.set v := State.bar_updBar_self ..
    rwa [hbar, Barrier.v_set, Barrier.slots_set]
  case check =>
    obtain ⟨k, hk⟩ := exec_barCheck s hi
    exact hk.trans (barCheck_traps h k)
  case same => exact (exec_barAwait hv hslot ha hi).trans barAwait_same
  case changed => exact (exec_barAwait hv hslot ha hi).trans barAwait_changed

end Sys2Proof.Machine
end

section
/-! PAUSE, the waits and polls of mailboxes, and the SELF instructions (R148, R152, R153). -/

namespace Sys2Proof.Machine

/-! ### PAUSE (R148) -/

theorem execPause_zero {s : State} {a : Reg} (h : s.rd a = 0) : execPause a s = done 4 s := by
  simp [execPause, h]

/-- A pause that is not zero leaves the rotation. -/
theorem execPause_waits {s : State} {a : Reg} (h : s.rd a ≠ 0) :
    execPause a s = doneFar 4 (some (.pause (s.time + Nat.min (s.rd a).toNat 1048575))) s := by
  have hv : (s.rd a).toNat ≠ 0 := mt (BitVec.eq_of_toNat_eq (y := 0)) h
  refine if_neg fun hmin => ?_
  rcases Nat.min_eq_zero_iff.mp hmin with h0 | h0
  · exact hv h0
  · exact absurd h0 (by decide)

/-- A pause ends in the cycle it was set for, or at once where that has passed (log 6). -/
theorem execPauseExpiry_wakes {s : State} {t till : Nat} (h : (s.slot t).run = .waiting (.pause till)) :
    execPauseExpiry t s = .next ({ s with time := Nat.max s.time till }.wake t) := by
  rw [execPauseExpiry, h]

/-! ### Mailboxes (R152) -/

/-- A poll takes the notify value, whatever it is, and clears it. -/
theorem execMbxPoll_takes {s : State} {a : Reg} {m : Nat} (h : ownMailbox s (s.rd a) = some m) (d : Reg) :
    execMbxPoll d a s = result 4 d (s.mailbox m).notify (s.updMailbox m fun x => { x with notify := 0 }) := by
  rw [execMbxPoll, h]

/-- A slot has its turn at a mailbox: none waits there, or it is the first that does. -/
def Mailbox.turn (x : Mailbox) (t : Nat) : Prop := x.waiters = [] ∨ x.waiters.head? = some t

theorem Mailbox.turn_iff (x : Mailbox) (t : Nat) : x.turn t ↔ x.waiters.head?.getD t = t := by
  unfold Mailbox.turn
  cases x.waiters <;> simp

/-- A mailbox that a slot has joined, behind those that wait there. -/
def Mailbox.awaited (x : Mailbox) (t : Nat) : Mailbox := { x with waiters := if x.waiters.contains t then x.waiters else x.waiters ++ [t] }

theorem Mailbox.mem_awaited (x : Mailbox) (t : Nat) : t ∈ (x.awaited t).waiters := by
  unfold Mailbox.awaited
  dsimp only
  split
  next h => exact List.contains_iff_mem.mp h
  next => exact List.mem_append_right _ (List.mem_singleton.mpr rfl)

section
variable {s : State} {a : Reg} {m : Nat} (h : ownMailbox s (s.rd a) = some m) (d : Reg)
include h

theorem execMbxWait_takes (hy : (s.mailbox m).notify ≠ 0) (ht : (s.mailbox m).turn s.cur) :
    execMbxWait d a s = result 4 d (s.mailbox m).notify
      (s.updMailbox m fun x => { x with notify := 0, due := false, waiters := x.waiters.erase s.cur }) := by
  rw [execMbxWait, h]
  exact if_pos (by simpa [(Mailbox.turn_iff ..).mp ht] using hy)

theorem execMbxWait_waits (hy : (s.mailbox m).notify = 0 ∨ ¬ (s.mailbox m).turn s.cur) :
    execMbxWait d a s = wait (.mailbox m d) (s.updMailbox m fun x => x.awaited s.cur) := by
  rw [execMbxWait, h]
  refine if_neg ?_
  rcases hy with hy | hy
  · simp [hy]
  · simp [mt (Mailbox.turn_iff ..).mpr hy]

end

/-! ### SELF (R153) -/

/-- The word of SELF.DOM for a running record. -/
theorem execSelfDom_record {s : State} {r : Rec} (h : s.me.record = some r) (d : Reg) : execSelfDom d s = result 4 d
    (BitVec.ofNat 64 (r.join.toNat % 4 + (if r.join.getLsbD 2 then 4 else 0) + (if r.range.isSome then 8 else 0) +
      (if s.me.stolen then 16 else 0))) s := by
  have hbit (b : Bool) (k : Nat) : bit b * k = if b then k else 0 := by cases b <;> simp [bit]
  have hdom : r.domain = r.join.toNat % 4 := by simp [Rec.domain, bits, fld]
  simp only [execSelfDom, h, hbit, hdom]
  rfl

/-- Settles O25: the branches of PAUSE and of the mailbox instructions, and the words of SELF. -/
theorem pauseMailboxSelf : Obligations.PauseMailboxSelf := by
  intro s a d m v c
  refine ⟨execPause_zero, execPause_waits, fun t k h => ?expiry, fun h => ?mailbox, rfl, rfl, fun h => ?none, fun r h => execSelfDom_record h d,
    fun h => if_neg (Nat.not_le.mpr h)⟩
  case expiry =>
    refine ⟨_, execPauseExpiry_wakes h, ?_, Nat.le_max_right _ _, rfl⟩
    rw [State.wake_waiting (s := { s with time := Nat.max s.time k }) h, State.slot_setSlot_self]
  case mailbox =>
    intro y took
    refine ⟨execMbxPoll_takes h d, fun hy ht => execMbxWait_takes h d hy ht, fun hwait => ?_⟩
    have hnot : y = 0 ∨ ¬ (s.mailbox m).turn s.cur := hwait.imp_right fun ⟨t, hne, hfirst⟩ => by
      rw [Mailbox.turn_iff, hfirst]
      exact hne
    refine ⟨_, execMbxWait_waits h d hnot, State.me_setSlot .., ?_⟩
    rw [State.updMe_eq, State.mailbox_setSlot, State.mailbox_updMailbox_self]
    exact Mailbox.mem_awaited ..
  case none =>
    change execSelfDom d s = _
    rw [execSelfDom, h]
    rfl

end Sys2Proof.Machine
end

section
/-! Atomics, compare-and-swap and nibble stores of the scratchpad: the cell after each operation, and the step of the instruction (R174, R176, R177,
R179). -/

namespace Sys2Proof.Machine

/-! ### The value of a cell -/

/-- Of a number that is written only its low bytes count (R25). -/
theorem leBytes_mod (n x : Nat) : leBytes n (x % 2 ^ (8 * n)) = leBytes n x := by
  apply List.ext_getElem (by simp)
  intro i h _
  have hi : i < n := by simpa using h
  have hn : (2 : Nat) ^ (8 * n) = 256 ^ i * 256 ^ (n - i) := by rw [Nat.pow_mul, ← Nat.pow_add, Nat.add_sub_cancel' hi.le]
  have hdvd : 256 ∣ 256 ^ (n - i) := dvd_pow_self 256 (by omega)
  apply BitVec.eq_of_toNat_eq
  rw [leBytes_getElem, leBytes_getElem, BitVec.toNat_ofNat, BitVec.toNat_ofNat, hn, Nat.mod_mul_right_div_self]
  exact Nat.mod_mod_of_dvd _ hdvd

theorem Memory.le_lt (m : Memory) (a n : Nat) : m.le a n < 2 ^ (8 * n) := by
  have h := leNat_lt (m.bytes a n)
  rwa [Memory.bytes_length, show (256 : Nat) = 2 ^ 8 from rfl, ← Nat.pow_mul] at h

/-- The operation on numbers is the one on bit vectors of the cell's width (R174). -/
theorem atomValue_mod {w old : Nat} (hw : 0 < w) (hold : old < 2 ^ w) (op : AtomOp) (x : Word) :
    atomValue op w old x.toNat % 2 ^ w = newCell w op x old := by
  have hx : (x.setWidth w).toNat = x.toNat % 2 ^ w := BitVec.toNat_setWidth ..
  have ho : (BitVec.ofNat w old).toNat = old := by rw [BitVec.toNat_ofNat, Nat.mod_eq_of_lt hold]
  have hxw : x.toNat % 2 ^ w < 2 ^ w := Nat.mod_lt _ (Nat.two_pow_pos w)
  have hsigned : toSigned w x.toNat = (x.setWidth w).toInt := by
    rw [toSigned_eq_toInt hw]
    exact congrArg BitVec.toInt (BitVec.eq_of_toNat_eq (by rw [BitVec.toNat_ofNat, hx]))
  have hsigned' := toSigned_eq_toInt hw old
  cases op with
  | swap => rw [atomValue, newCell, hx, Nat.mod_mod]
  | add => rw [atomValue, newCell, BitVec.toNat_add, hx, ho, Nat.mod_mod, Nat.add_mod_mod]
  | and => rw [atomValue, newCell, BitVec.toNat_and, hx, ho, Nat.mod_eq_of_lt (Nat.and_lt_two_pow _ hxw)]
  | or => rw [atomValue, newCell, BitVec.toNat_or, hx, ho, Nat.mod_eq_of_lt (Nat.or_lt_two_pow hold hxw)]
  | xor => rw [atomValue, newCell, BitVec.toNat_xor, hx, ho, Nat.mod_eq_of_lt (Nat.xor_lt_two_pow hold hxw)]
  | min =>
    simp only [atomValue, newCell, hsigned, hsigned']
    split
    · rw [hx, Nat.mod_mod]
    · rw [ho, Nat.mod_eq_of_lt hold]
  | max =>
    simp only [atomValue, newCell, hsigned, hsigned']
    split
    · rw [hx, Nat.mod_mod]
    · rw [ho, Nat.mod_eq_of_lt hold]
  | fadd => rw [atomValue, newCell, BitVec.toNat_ofNat]

/-! ### The codes of the operations (R215) -/

theorem atomWidth_atomCodeOf (op : AtomOp) {sz : Size} (h : sz = .w ∨ sz = .d) : atomWidth (atomCodeOf op sz) = bytesOf sz := by
  rcases h with rfl | rfl <;> cases op <;> rfl

theorem atomStep_atomCodeOf (op : AtomOp) {sz : Size} (h : sz = .w ∨ sz = .d) (old x v : Nat) :
    atomStep (atomCodeOf op sz) old x v = atomValue op (8 * bytesOf sz) old x := by
  rcases h with rfl | rfl <;> cases op <;> rfl

theorem atomWidth_casCodeOf {sz : Size} (h : sz = .w ∨ sz = .d) : atomWidth (casCodeOf sz) = bytesOf sz := by
  rcases h with rfl | rfl <;> rfl

theorem atomStep_casCodeOf {sz : Size} (h : sz = .w ∨ sz = .d) (old x v : Nat) :
    atomStep (casCodeOf sz) old x v = if old = x % 2 ^ (8 * bytesOf sz) then v % 2 ^ (8 * bytesOf sz) else old := by
  rcases h with rfl | rfl <;> rfl

/-! ### The instruction on the scratchpad -/

theorem lsFirst_idle {s : State} (h : lsBusy s s.myCore = false) (ea : Word) : lsFirst s s.cur ea = .ok () s := by
  rw [lsFirst]
  split
  · exact lsFree_of_idle h
  · rfl

theorem checkAddr_scratchpad {s : State} {ea : Word} {n align : Nat} (h : InScratchpad s ea n) (ha : ea.toNat % align = 0) (k : Kind) :
    checkAddr s s.cur k ea n align = .ok (.ls (s.lsPlace ea)) := by
  obtain ⟨-, hs, hf, ho, -⟩ := h
  have hn : ¬ s.spSize (agentOf s.cur) < offsetOf ea + n := Nat.not_lt.mpr ho
  have hf' : fld ea.toNat 45 11 = agentOf s.cur := hf
  simp [checkAddr, hs, hf', ha, hn, State.lsPlace, State.myCore]

/-- An atomic step on an unpoisoned, aligned cell of the scratchpad (R104, R176). -/
theorem atomInstr_scratchpad {s : State} {ea : Word} {q : MemQual} {code : Nat} (h : ReadsScratchpad s ea (atomWidth code))
    (ha : ea.toNat % atomWidth code = 0) (hr : NothingToRelease s q) (n : Nat) (x v : Word) (d : Reg) :
    let old := s.myLs.le (s.lsPlace ea) (atomWidth code)
    atomInstr n code x v d ea q s = .next ((((s.updCore s.myCore fun c => { c with
      ls := c.ls.wrBytes (s.lsPlace ea) (leBytes (atomWidth code) (atomStep code old x.toNat v.toNat)) }).wr d
        (BitVec.ofNat 64 old)).past n).updMe fun x => { x with run := .waiting .access }) := by
  obtain ⟨hin, hp⟩ := h
  obtain ⟨hc, -, -, -, hb⟩ := id hin
  have hp' : poisonAt s (lsBlk s.myCore) (s.lsPlace ea) (atomWidth code) = none := hp
  have hrel : (if decide (q.ord = .rel) || decide (q.ord = .sc) || s.me.relFence.isSome then releaseFirst s s.cur .core else .ok () s) =
      .ok () s := by
    split
    next h =>
      simp only [Bool.or_eq_true, decide_eq_true_eq, or_assoc] at h
      exact releaseFirst_core (hr h)
    next => rfl
  simp only [atomInstr, hc, Bool.not_true, Bool.false_eq_true, if_false, lsFirst_idle hb, Res.ok_andThen, checkAddr_scratchpad hin ha, Res.ofExcept,
    Res.finish_ok, hrel, lsFree_of_idle hb, hp', Option.isSome_none, atomMem]
  rfl

/-- An atomic instruction that leaves f of the old value in its cell. -/
theorem AtomicInScratchpad.of_atomStep {i : Instr} {s : State} {n code k : Nat} {x v ea : Word} {d : Reg} {q : MemQual} {f : Nat → Nat}
    (hi : exec i s = atomInstr n code x v d ea q s) (hk : atomWidth code = k)
    (hf : ∀ old, old < 2 ^ (8 * k) → atomStep code old x.toNat v.toNat % 2 ^ (8 * k) = f old % 2 ^ (8 * k)) :
    AtomicInScratchpad i s n d ea q k f := by
  subst hk
  intro h ha hr old
  have hcell : leBytes (atomWidth code) (atomStep code old x.toNat v.toNat) = leBytes (atomWidth code) (f old) := by
    rw [← leBytes_mod, hf old (Memory.le_lt ..), leBytes_mod]
  rw [hi, atomInstr_scratchpad h ha hr, ← hcell]

/-- Settles O14: each instruction by what its code does to the cell. -/
theorem localAtomics : Obligations.LocalAtomics := by
  intro s sz d base q x hsz k ea v both op
  have hboth {i j : Instr} {r : Reg} {k code : Nat} {f : Nat → Nat} (y w : Word) (hi : exec i s = atomInstr 4 code y w r (s.rd base) q s)
      (hj : exec j s = atomInstr 12 code y w r ea q s) (hk : atomWidth code = k)
      (hf : ∀ old, old < 2 ^ (8 * k) → atomStep code old y.toNat w.toNat % 2 ^ (8 * k) = f old % 2 ^ (8 * k)) : both i j r k f :=
    ⟨.of_atomStep hi hk hf, .of_atomStep hj hk hf⟩
  have hop {i j : Instr} {o : AtomOp} {sz : Size} (hsz : sz = .w ∨ sz = .d) (hi : exec i s = atomInstr 4 (atomCodeOf o sz) v 0 d (s.rd base) q s)
      (hj : exec j s = atomInstr 12 (atomCodeOf o sz) v 0 d ea q s) : both i j d (bytesOf sz) (newCell (8 * bytesOf sz) o v) := by
    refine hboth v 0 hi hj (atomWidth_atomCodeOf o hsz) fun old hold => ?_
    rw [atomStep_atomCodeOf o hsz, ← atomValue_mod (Nat.mul_pos (by decide) (bytesOf_bounds sz).1) hold, Nat.mod_mod]
  refine ⟨hop hsz rfl rfl, hop hsz rfl rfl, hop hsz rfl rfl, hop hsz rfl rfl, hop hsz rfl rfl, hop hsz rfl rfl, hop hsz rfl rfl,
    hop (.inl rfl) rfl rfl, ?cas, hboth v 0 rfl rfl rfl fun _ _ => rfl, hboth v 0 rfl rfl rfl fun _ _ => rfl⟩
  case cas =>
    refine hboth v _ rfl rfl (atomWidth_casCodeOf hsz) fun old _ => ?_
    rw [atomStep_casCodeOf hsz]

end Sys2Proof.Machine
end

section
/-! FENCE, IFENCE, stash mappings, and the tests and casts of generic pointers (R182 to R185, R206). -/

namespace Sys2Proof.Machine

/-! ### FENCE (R206) -/

theorem execFence_idle {s : State} {sc : Scope} (h : onCore s.cur = false ∨ sc = .core) (o : FenceOrd) : execFence o sc s = done 4 s :=
  if_pos (by simpa using h)

section
variable {s : State} {sc : Scope} (hc : onCore s.cur = true) (hsc : sc ≠ .core)
include hc hsc

theorem fence_acts : ¬ (!onCore s.cur || decide (sc = .core)) = true := by simp [hc, hsc]

theorem execFence_acq : execFence .acq sc s = done 4 (s.updMe fun x => { x with acqFence := some (widerFence x.acqFence sc) }) :=
  if_neg (fence_acts hc hsc)

theorem execFence_rel : execFence .rel sc s = done 4 (s.updMe fun x => { x with
    relFence := if released s s.myCore = true ∧ s.posted = 0 then x.relFence else some (widerFence x.relFence sc) }) := by
  have hpending : (true && (!released s s.myCore || s.posted != 0)) = true ↔ ¬ (released s s.myCore = true ∧ s.posted = 0) := by
    cases released s s.myCore <;> simp
  have hmarks : execFence .rel sc s = done 4 (fenceMarks s false true sc) := if_neg (fence_acts hc hsc)
  rw [hmarks]
  simp only [fenceMarks, hpending, ite_not, Bool.false_eq_true, if_false]

theorem execFence_sc (ho : ordered s s.myCore = true) (hff : 4 ≤ scopeRank sc → s.me.ff = 0) (hsys : sc = .sys → s.posted = 0) :
    execFence .sc sc s = done 4 (s.updMe fun x => { x with
      acqFence := some (widerFence x.acqFence sc), relFence := if s.posted ≠ 0 ∧ x.relFence = some .sys then x.relFence else none }) := by
  have hremotes : ¬ (decide (4 ≤ scopeRank sc) && s.me.ff != 0) = true := by simpa using hff
  have hhost : ¬ (decide (sc = .sys) && s.posted != 0) = true := by simpa using hsys
  rw [execFence, if_neg (fence_acts hc hsc)]
  simp only [ho, Bool.not_true, Bool.false_eq_true, if_false, hremotes, hhost, Bool.and_eq_true, bne_iff_ne, decide_eq_true_eq]

end

/-! ### Stash mappings (R183) -/

/-- There is room for one more mapping, of len bytes from g at place k of the stash: whole blocks within the stash, which no mapping overlaps. -/
def RoomForMapping (s : State) (g len k : Nat) : Prop :=
  len ≠ 0 ∧ len % 64 = 0 ∧ k % 64 = 0 ∧ k + len ≤ s.stashSize s.myCore ∧ (s.core s.myCore).stash.length < 8 ∧
    ∀ m ∈ (s.core s.myCore).stash, (g + len ≤ m.g ∨ m.g + m.n ≤ g) ∧ (k + len ≤ m.k ∨ m.k + m.n ≤ k)

/-- A mapping that there is room for is added. -/
theorem stashMapInstr_room {s : State} {y g : Word} {len k : Nat} (hb : lsBusy s s.myCore = false) (hs : spaceOf g = some .glb)
    (hg : g.toNat % 64 = 0) (hy : y.toNat = len + k * 2 ^ 32) (hlen : len < 2 ^ 18) (hk : k < 2 ^ 18) (h : RoomForMapping s g.toNat len k) (n : Nat) :
    stashMapInstr n y g s = done n (s.updCore s.myCore fun q => { q with stash := q.stash ++ [⟨g.toNat, len, k⟩] }) := by
  obtain ⟨h0, hl, hk64, hsize, hcount, hapart⟩ := h
  have hbits : bits y 17 0 = len ∧ bits y 49 32 = k ∧ bits y 31 18 = 0 ∧ bits y 63 50 = 0 := by
    simp only [bits, fld, hy]
    omega
  obtain ⟨hb1, hb2, hb3, hb4⟩ := hbits
  have hoverlap : ((s.core s.myCore).stash.any fun m =>
      (decide (g.toNat < m.g + m.n) && decide (m.g < g.toNat + len)) || (decide (k < m.k + m.n) && decide (m.k < k + len))) = false := by
    rw [List.any_eq_false]
    intro m hm
    obtain ⟨h1, h2⟩ := hapart m hm
    simp only [Bool.or_eq_true, Bool.and_eq_true, decide_eq_true_eq]
    omega
  simp [stashMapInstr, hb, hs, hg, hb1, hb2, hb3, hb4, h0, hl, hk64, Nat.not_lt.mpr hsize, Nat.not_le.mpr hcount, hoverlap]

theorem unmapLines_empty {s : State} {c : Nat} (hl : (s.core c).lines = []) (hp : (s.core c).puts = []) (slot g n : Nat) :
    unmapLines s c slot g n = (none, s) := by
  simp [unmapLines, hl, hp]

/-- A mapping without lines is dropped at once. -/
theorem stashUnmapInstr_empty {s : State} {ea : Word} (hm : ∃ m ∈ (s.core s.myCore).stash, m.g = ea.toNat) (hl : (s.core s.myCore).lines = [])
    (hp : (s.core s.myCore).puts = []) (n : Nat) :
    ∃ t, stashUnmapInstr n ea s = .next t ∧ (t.core s.myCore).stash = ((s.core s.myCore).stash.filter fun m => m.g ≠ ea.toNat) ∧ t.mem = s.mem ∧
      t.me = { s.me with
        pc := s.me.pc + BitVec.ofNat 64 n, fresh := none, vprog := none, got := none, unmaps := s.me.unmaps.filter fun u => u.1 != s.me.pc } := by
  obtain ⟨m, hfind⟩ : ∃ m, ((s.core s.myCore).stash.find? fun m => m.g = ea.toNat) = some m := by
    rw [← Option.isSome_iff_exists, List.find?_isSome]
    simpa using hm
  generalize hu : ((s.updCore s.myCore fun q => { q with stash := q.stash.filter fun x => !(x.g = ea.toNat) }).updMe fun x =>
    { x with unmaps := (x.unmaps.filter fun u => u.1 != s.me.pc) ++ [(s.me.pc, m.g, m.n)] }) = u
  have hcore : u.core s.myCore = { s.core s.myCore with stash := (s.core s.myCore).stash.filter fun x => !(x.g = ea.toNat) } := by
    rw [← hu]
    exact State.core_setCore_self ..
  have hlines : unmapLines u s.myCore (slotOf u.cur) m.g m.n = (none, u) := unmapLines_empty (by rw [hcore]; exact hl) (by rw [hcore]; exact hp) ..
  have hme : u.me = { s.me with unmaps := (s.me.unmaps.filter fun u => u.1 != s.me.pc) ++ [(s.me.pc, m.g, m.n)] } := by
    rw [← hu]
    exact State.me_setSlot (s.updCore ..) _
  refine ⟨(u.updMe fun x => { x with unmaps := x.unmaps.filter fun u => u.1 != s.me.pc }).past n, ?_, ?_, ?_, ?_⟩
  · simp only [stashUnmapInstr, hfind, hu, hlines]
    rfl
  · change (u.core s.myCore).stash = _
    simp only [hcore, decide_not]
  · rw [← hu]
    rfl
  · rw [State.me_past, State.updMe_eq, State.updMe_me u fun x => { x with unmaps := x.unmaps.filter fun u => u.1 != s.me.pc }, hme]
    simp [Slot.past]

/-! ### Generic pointers (R184, R185) -/

/-- The top byte of a pointer stands beside the bits below it (R156). -/
theorem ofNat_tag_add {t x : Nat} (h : x < 2 ^ 56) : BitVec.ofNat 64 (t * 2 ^ 56 + x) = BitVec.ofNat 64 (t * 2 ^ 56) ||| BitVec.ofNat 64 x := by
  rw [Nat.mul_comm, Nat.two_pow_add_eq_or_of_lt h, BitVec.ofNat_or]

theorem ofNat_mul_two_pow (a k : Nat) : BitVec.ofNat 64 (a * 2 ^ k) = BitVec.ofNat 64 a <<< k := by
  apply BitVec.eq_of_toNat_eq
  simp [Nat.shiftLeft_eq]

theorem myCore_lt {s : State} (h : onCore s.cur = true) : s.myCore < 0x800 := by simpa [onCore, State.myCore] using h

theorem clusterOf_lt {c : Nat} (h : c < 0x800) : clusterOf c < 128 := by
  simp only [clusterOf, meshX, meshY]
  omega

theorem scratchpad_pointer {c : Nat} (h : c < 0x800) :
    BitVec.ofNat 64 (0xFE * 2 ^ 56 + c * 2 ^ 45) = 0xFE00000000000000 ||| BitVec.ofNat 64 c <<< 45 := by
  rw [ofNat_tag_add (by omega), ofNat_mul_two_pow c 45]
  rfl

theorem cluster_pointer {k : Nat} (h : k < 128) :
    BitVec.ofNat 64 (0xFD * 2 ^ 56 + k * 2 ^ 48) = 0xFD00000000000000 ||| BitVec.ofNat 64 k <<< 48 := by
  rw [ofNat_tag_add (by omega), ofNat_mul_two_pow k 48]
  rfl

section
variable {s : State} {a : Reg} (d : Reg)

theorem execSpaceCastGen_spd (h : (s.rd a).toNat < 2 ^ 18) :
    execSpaceCastGen .spd d a s = result 4 d (s.rd a ||| BitVec.ofNat 64 (0xFE * 2 ^ 56 + s.myCore * 2 ^ 45)) s := if_pos h

theorem execSpaceCastGen_clu (h : (s.rd a).toNat < 2 ^ 21) :
    execSpaceCastGen .clu d a s = result 4 d (s.rd a ||| BitVec.ofNat 64 (0xFD * 2 ^ 56 + clusterOf s.myCore * 2 ^ 48)) s := if_pos h

end

/-- Settles O17: the fences by what they wait for, the mappings by the checks of their range, and the pointers by their space. -/
theorem fencesStashAndPointers : Obligations.FencesStashAndPointers := by
  refine ⟨fun s o sc => ⟨fun h => execFence_idle h o, fun hc hsc => ?fence⟩, ?rest⟩
  case fence =>
    intro wider
    have hwider : wider = fun m => widerFence m sc := by
      funext m
      cases m <;> rfl
    rw [hwider]
    exact ⟨execFence_acq hc hsc, execFence_rel hc hsc, execFence_sc hc hsc⟩
  case rest =>
    intro s a d base x c q ext y
    refine ⟨rfl, ?map, ?unmap, ?test, fun h => if_pos h, fun h => if_pos h, fun hc h => ?spd, fun hc h => ?clu, fun sp h => if_pos h⟩
    case map =>
      intro len k maps
      have hmaps (i : Instr) (n : Nat) (g : Word) (hi : exec i s = stashMapInstr n y g s) : maps i n g := by
        intro hs hg hy h0 hl hk hsize hcount hb hapart
        exact hi.trans (stashMapInstr_room hb hs hg hy (Nat.mod_lt _ (by decide)) (Nat.mod_lt _ (by decide)) ⟨h0, hl, hk, hsize, hcount, hapart⟩ n)
      exact ⟨hmaps _ _ _ rfl, hmaps _ _ _ rfl⟩
    case unmap =>
      intro unmaps
      have hunmaps (i : Instr) (n : Nat) (g : Word) (hi : exec i s = stashUnmapInstr n g s) : unmaps i n g := by
        intro hm hl hp
        rw [hi]
        exact stashUnmapInstr_empty hm hl hp n
      exact ⟨hunmaps _ _ _ rfl, hunmaps _ _ _ rfl⟩
    case test =>
      refine Gives.of_eq rfl ?_
      unfold spaceTest
      cases spaceOf y with
      | none => rfl
      | some sp => cases sp <;> rfl
    case spd => exact Gives.of_eq (execSpaceCastGen_spd d h) (congrArg (y ||| ·) (scratchpad_pointer (myCore_lt hc)))
    case clu => exact Gives.of_eq (execSpaceCastGen_clu d h) (congrArg (y ||| ·) (cluster_pointer (clusterOf_lt (myCore_lt hc))))

end Sys2Proof.Machine
end

section
/-! Requests of a slot for an operation at a home: the append instructions, and atomics on global memory (R176, R209, R215, R256, R260 to R262). -/

namespace Sys2Proof.Machine

/-! ### What a translation leaves as it is -/

namespace OnlyTlbs

variable {s u : State} (h : OnlyTlbs s u)
include h

theorem net : u.net = s.net := by rw [h.rest]
theorem myCore : u.myCore = s.myCore := by rw [State.myCore, State.myCore, h.cur]
theorem me : u.me = s.me := by rw [State.me, State.me, h.cur, h.slot]
theorem reqs (c : Nat) : (u.core c).reqs = (s.core c).reqs := by rw [h.core c]
theorem homeOf (pa : Nat) : u.homeOf pa = s.homeOf pa := by simp only [State.homeOf, State.regionOf, h.regions]
theorem readAgent (c pa : Nat) : Machine.readAgent u c pa = Machine.readAgent s c pa := by simp only [Machine.readAgent, h.homeOf, h.protoOf]
theorem biasAway_eq (pa : Nat) : Machine.biasAway u pa = Machine.biasAway s pa := by
  rw [h.rest]
  rfl

theorem ask (dst type pa : Nat) (w2 w3 w4 : Word) (flit : Option Block) : u.ask dst type pa w2 w3 w4 flit = s.ask dst type pa w2 w3 w4 flit := by
  obtain ⟨cores, clusters, free, rfl⟩ : ∃ cores clusters free, u = { s with cores := cores, clusters := clusters, free := free } :=
    ⟨_, _, _, h.rest⟩
  rfl

theorem allReleased (hr : AllReleased s) : AllReleased u := by
  obtain ⟨hreleased, hposted⟩ := hr
  exact ⟨by rw [h.myCore, h.released, hreleased], h.posted.trans hposted⟩

theorem cachesEmpty {c : Nat} (he : CachesEmpty s c) : CachesEmpty u c := by
  simpa only [CachesEmpty, h.lines, h.puts, h.l2dirty] using he

end OnlyTlbs

/-! ### The request (R209, R215) -/

/-- Where no reply to an earlier request is still to come under it, a slot takes its own tag. -/
theorem freshSlotTag_own {q : Core} {slot : Nat} (h : look (128 + slot) q.reqs = none) : freshSlotTag q slot = some (128 + slot) := by
  simp [freshSlotTag, h]

theorem reqs_slotRequest (s : State) (tag c slot type dst pa : Nat) (w2 w3 w4 : Word) (flit : Option Block) :
    ((slotRequest s tag c slot type dst pa w2 w3 w4 flit).core c).reqs =
      put tag { msg := mkMsg s c slot dst type tag pa w2 w3 w4 flit none } (s.core c).reqs :=
  congrArg Core.reqs (State.core_setCore_self ..)

/-- An instruction that asks a home once its address is translated (R176, R260). -/
theorem Asks.of_askHome {i : Instr} {s u : State} {n : Nat} {d : Reg} {ea : Word} {type dst pa p : Nat} {w2 w3 w4 : Word} {flit : Option Block}
    (hi : exec i s = askHome n d ea type dst pa w2 w3 w4 flit u) (h : OnlyTlbs s u)
    (hfree : look (128 + slotOf s.cur) (s.core s.myCore).reqs = none) (hp : pa / 64 = p / 64) :
    Asks i s n d p ea (s.ask dst type pa w2 w3 w4 flit) := by
  have htag : freshSlotTag (u.core u.myCore) (slotOf u.cur) = some (128 + slotOf s.cur) := by
    rw [h.myCore, h.cur]
    exact freshSlotTag_own (by rw [h.reqs, hfree])
  have hnext : exec i s = wait (.result (p / 64) d n ea) (slotRequest u (128 + slotOf s.cur) s.myCore (slotOf s.cur) type dst pa w2 w3 w4 flit) := by
    rw [hi, askHome, htag, hp, h.myCore, h.cur]
  have hmsg : mkMsg u s.myCore (slotOf s.cur) dst type (128 + slotOf s.cur) pa w2 w3 w4 flit none = s.ask dst type pa w2 w3 w4 flit := by
    rw [← h.ask, State.ask, h.myCore, h.cur]
  refine ⟨_, hnext, ?_, h.mem, fun v hv => ?_, ?_, ?_⟩
  · exact congr (congrArg _ h.net) (congrArg (fun m => [m]) hmsg)
  · exact (State.slot_setSlot_ne _ (by rwa [← h.cur] at hv) _).trans (h.slot v)
  · exact (State.me_setSlot (slotRequest ..) _).trans (congrArg (fun x : Slot => { x with run := .waiting (.result (p / 64) d n ea) }) h.me)
  · refine (congrArg (look _) (reqs_slotRequest ..)).trans ?_
    rw [hmsg, look_put_self]

/-! ### The checks of an address in global memory (R159, R248, R334) -/

theorem checkAddr_global {ea : Word} {align : Nat} (hs : spaceOf ea = some .glb) (ha : ea.toNat % align = 0) (s : State) (t : Nat) (k : Kind)
    (n : Nat) : checkAddr s t k ea n align = .ok (.glb ea) := by
  simp [checkAddr, hs, ha]

/-- A part on a page that is no append page. -/
theorem translatePart_plain {s u : State} {b : By} {k : Kind} {append : Bool} {va : Word} {z : Xlat}
    (ht : translate s (agentOf b.t) b.user k append va = (.ok z, u)) (hz : z.ok ≠ 3) (n : Nat) :
    translatePart s b k append va n = .ok ⟨va, z.pa, n, z⟩ u := by
  simp [translatePart, ht, hz]

/-- An append-class access of an append page passes its checks. -/
theorem appendPage_ok {s u : State} {k : Kind} {ea : Word} {z : Xlat} (hs : spaceOf ea = some .glb)
    (ht : translate s s.myCore (s.me.mode = .u) k true ea = (.ok z, u)) (hz : z.ok = 3) (hp : s.protoOf z.pa = 7) :
    appendPage s k ea = .ok ⟨ea, z.pa, 1, z⟩ u := by
  have hp' : u.protoOf z.pa = 7 := ((onlyTlbs_translate ht).protoOf _).trans hp
  have hpart : translatePart s (s.by ⟨.rlx, .pkg, 4⟩) k true ea 1 = .ok ⟨ea, z.pa, 1, z⟩ u := by
    have ht' : translate s (agentOf (s.by ⟨.rlx, .pkg, 4⟩).t) (s.by ⟨.rlx, .pkg, 4⟩).user k true ea = (.ok z, u) := ht
    simp [translatePart, ht', hp']
  simp only [appendPage, checkAddr_global hs (Nat.mod_one _), Res.ofExcept, Res.ok_andThen, hpart, hz, if_true]

theorem releaseFirst_allReleased {s : State} (h : AllReleased s) (sc : Scope) : releaseFirst s s.cur sc = .ok () s := by
  obtain ⟨hr, hp⟩ := h
  have hr' : released s (agentOf s.cur) = true := hr
  simp [releaseFirst, hr', hp]

/-! ### Append instructions (R260 to R262) -/

section
variable {s u : State} {ea : Word} {z : Xlat} (hr : AllReleased s) (hs : spaceOf ea = some .glb) (hz : z.ok = 3) (hp : s.protoOf z.pa = 7)
include hs hz hp

include hr in
theorem appendInstr_page (ht : translate s s.myCore (s.me.mode = .u) .store true ea = (.ok z, u)) (n : Nat) (d : Reg) (src : List Byte) (rel : Bool)
    (sc : Scope) : appendInstr n d ea src rel sc s =
      askHome n d ea Ty.apnd (procAgent (s.homeOf z.pa)) (z.pa / 64 * 64) (BitVec.ofNat 64 src.length) 0 0 (some (blkOf src)) u := by
  have h := onlyTlbs_translate ht
  simp only [appendInstr, appendPage_ok hs ht hz hp, Res.ok_andThen, releaseFirst_allReleased (h.allReleased hr), ite_self, Res.finish_ok, h.homeOf]

include hr in
theorem sealInstr_page (ht : translate s s.myCore (s.me.mode = .u) .store true ea = (.ok z, u)) (n : Nat) (d : Reg) (sc : Scope) :
    sealInstr n d ea sc s = askHome n d ea Ty.sealq (procAgent (s.homeOf z.pa)) (z.pa / 64 * 64) 0 0 0 none u := by
  have h := onlyTlbs_translate ht
  simp only [sealInstr, appendPage_ok hs ht hz hp, Res.ok_andThen, releaseFirst_allReleased (h.allReleased hr), Res.finish_ok, h.homeOf]

theorem tailInstr_page (ht : translate s s.myCore (s.me.mode = .u) .load true ea = (.ok z, u)) (n : Nat) (d : Reg) : tailInstr n d ea s =
    askHome n d ea Ty.tailq (if z.nr then procAgent (s.homeOf z.pa) else readAgent s s.myCore z.pa) (z.pa / 64 * 64) 0 0 0 none u := by
  have h := onlyTlbs_translate ht
  simp only [tailInstr, appendPage_ok hs ht hz hp, Res.finish_ok, h.homeOf, h.readAgent, h.myCore]

end

theorem appendVec_some {s : State} {d : Reg} (h1 : 1 ≤ (s.rd d).toNat) (h64 : (s.rd d).toNat ≤ 64) (n : Nat) (ea : Word) (rel : Bool) (sc : Scope) :
    appendVec n d ea rel sc s = appendInstr n d ea (blkBytes (s.rdv d) 0 (s.rd d).toNat) rel sc s := by
  have h0 : s.rd d ≠ 0#64 := by
    intro h
    simp [h] at h1
  simp [appendVec, h0, Nat.not_lt.mpr h64]

theorem freeSealInstr_page {s : State} {ea : Word} (hm : s.me.mode = .s) (hea : ea.toNat < 2 ^ 52) (hp : s.protoOf ea.toNat = 7) (base n : Nat) :
    freeSealInstr base n ea s = askHome n 0 ea Ty.sealq (procAgent (s.homeOf ea.toNat)) (ea.toNat / 64 * 64) 1 0 0 none s := by
  rw [freeSealInstr, privileged_system _ _ (by simp [hm])]
  exact if_neg (by simpa [hp] using hea)

/-- The base word of FREE.SEAL is that of the instruction, whatever its extension (R259). -/
theorem freeSealBase_eq (len : Nat) (a : Reg) (ext : Word) :
    freeSealBase len a = ({ len := Fin.ofNat 4 len, major := 0x28, d := 0, a := a, b := 0, fn := 0x40, ext := ext } : Raw).base := by
  have ha : Fin.ofNat 32 a.val = a := Fin.ext (Nat.mod_eq_of_lt a.isLt)
  rw [freeSealBase, ha]
  rfl

/-- FREE.SEAL is not for U mode (R262). -/
theorem exec_freeSeal_user {s : State} (hm : s.me.mode = .u) {base : Reg} {x : MemExt} {i : Instr}
    (hi : i ∈ [Instr.freeSeal base, .freeSealExt base x]) : exec i s = trap .priv (BitVec.ofNat 64 (encodeRaw i).base) s := by
  have htrap (len n : Nat) (ea ext : Word) : freeSealInstr (freeSealBase len base) n ea s =
      trap .priv (BitVec.ofNat 64 ({ len := Fin.ofNat 4 len, major := 0x28, d := 0, a := base, b := 0, fn := 0x40, ext := ext } : Raw).base) s := by
    rw [freeSealInstr, privileged_user _ _ hm, freeSealBase_eq len base ext]
  rcases List.mem_pair.mp hi with rfl | rfl
  · exact htrap 0 4 _ 0
  · exact htrap 2 12 _ _

/-! ### Atomics on global memory (R176, R209) -/

/-- A core without lines has no copy to give up before an operation at the home (R208). -/
theorem yieldBlock_empty {s : State} {c : Nat} (h : CachesEmpty s c) (slot blk : Nat) (va : Word) : yieldBlock s c slot blk va = .ok () s := by
  obtain ⟨hl, -, hl2, -⟩ := h
  have hline := lineOf_none hl blk
  simp [yieldBlock, tagOf, relPending, giveUp, flushL2, hline, hl2, look]

/-- An atomic on device memory whose core holds nothing, and has nothing to wait for, is asked of the home. -/
theorem atomInstr_global {s u : State} {ea : Word} {z : Xlat} {code : Nat} {q : MemQual} (hc : onCore s.cur = true) (hr : AllReleased s)
    (hseen : seenSettled s s.myCore = true) (hempty : CachesEmpty s s.myCore) (hs : spaceOf ea = some .glb) (ha : ea.toNat % atomWidth code = 0)
    (ht : translate s s.myCore (s.me.mode = .u) .store false ea = (.ok z, u)) (hz : z.ok ≠ 3) (hplace : ∃ die, place z.pa = .hbm die)
    (hbias : s.protoOf z.pa = 0 → biasAway s z.pa = false) (n : Nat) (x v : Word) (d : Reg) :
    atomInstr n code x v d ea q s = askHome n d ea Ty.atom (procAgent (s.homeOf z.pa)) z.pa (BitVec.ofNat 64 code) x v none u := by
  have h := onlyTlbs_translate ht
  have hfirst : lsFirst s s.cur ea = .ok () s := by simp [lsFirst, hs]
  have hpart : translatePart s (s.by q) .store false ea (atomWidth code) = .ok ⟨ea, z.pa, atomWidth code, z⟩ u := by
    have ht' : translate s (agentOf (s.by q).t) (s.by q).user .store false ea = (.ok z, u) := ht
    exact translatePart_plain ht' hz _
  have hhost : uncachedHost u z.pa = false := uncachedHost_hbm hplace
  have haway : (decide (u.protoOf z.pa = 0) && biasAway u z.pa) = false := by
    rw [h.protoOf, h.biasAway_eq]
    simpa using hbias
  have hseen' : seenSettled u s.myCore = true := (h.seenSettled _).trans hseen
  have hyield (slot blk : Nat) : yieldBlock u s.myCore slot blk ea = .ok () u := yieldBlock_empty (h.cachesEmpty hempty) ..
  simp only [atomInstr, hc, Bool.not_true, Bool.false_eq_true, if_false, hfirst, Res.ok_andThen, checkAddr_global hs ha, Res.ofExcept, Res.finish_ok,
    hpart, hhost, haway, hseen', Bool.and_false, releaseFirst_allReleased (h.allReleased hr), ite_self, hyield, h.homeOf]

/-- Settles O18: every instruction passes its checks and posts the one request of its kind. -/
theorem appendAndAtomicRequests : Obligations.AppendAndAtomicRequests := by
  refine ⟨?_, ?_⟩
  · intro s s' sz d base rel sc x z hc hr hfree ext blk home page appends tails seals frees low vec
    have hblk (pa : Nat) : pa / 64 * 64 / 64 = pa / 64 := Nat.mul_div_cancel _ (by decide)
    have happends {i : Instr} {n : Nat} {ea : Word} {l : List Byte} (hi : exec i s = appendInstr n d ea l rel sc s) : appends i n ea l :=
      fun ⟨hs, ht, hz, hp⟩ => .of_askHome (hi.trans (appendInstr_page hr hs hz hp ht ..)) (onlyTlbs_translate ht) hfree (hblk _)
    have htails {i : Instr} {n : Nat} {ea : Word} (hi : exec i s = tailInstr n d ea s) : tails i n ea :=
      fun ⟨hs, ht, hz, hp⟩ => .of_askHome (hi.trans (tailInstr_page hs hz hp ht ..)) (onlyTlbs_translate ht) hfree (hblk _)
    have hseals {i : Instr} {n : Nat} {ea : Word} (hi : exec i s = sealInstr n d ea sc s) : seals i n ea :=
      fun ⟨hs, ht, hz, hp⟩ => .of_askHome (hi.trans (sealInstr_page hr hs hz hp ht ..)) (onlyTlbs_translate ht) hfree (hblk _)
    have hfrees {i : Instr} {w n : Nat} {ea : Word} (hi : exec i s = freeSealInstr w n ea s) : frees i n ea :=
      fun hm hea hp => .of_askHome (hi.trans (freeSealInstr_page hm hea hp ..)) (.refl s) hfree (hblk _)
    exact ⟨happends rfl, happends rfl, fun h1 h64 => ⟨happends (appendVec_some h1 h64 ..), happends (appendVec_some h1 h64 ..)⟩, htails rfl,
      htails rfl, hseals rfl, hseals rfl, hfrees rfl, hfrees rfl, fun h hm i hi => Traps.of_trap h (exec_freeSeal_user hm hi)⟩
  · intro s s' sz d base q x z hsz hc hr hseen hempty hfree hz hplace hbias ext big v w asks both op
    have hasks {i : Instr} {n : Nat} {ea : Word} {r : Reg} {k code : Nat} {y z' : Word} (hi : exec i s = atomInstr n code y z' r ea q s)
        (hk : atomWidth code = k) : asks i n ea r k code y z' := by
      intro hs ha ht
      exact .of_askHome (hi.trans (atomInstr_global hc hr hseen hempty hs (by rwa [hk]) ht hz hplace hbias ..)) (onlyTlbs_translate ht) hfree rfl
    have hop {i j : Instr} (o : AtomOp) (hi : exec i s = atomInstr 4 (atomCodeOf o sz) v 0 d (s.rd base) q s)
        (hj : exec j s = atomInstr 12 (atomCodeOf o sz) v 0 d ext q s) : op i j (atomCode o) :=
      ⟨hasks hi (atomWidth_atomCodeOf o hsz), hasks hj (atomWidth_atomCodeOf o hsz)⟩
    exact ⟨hop .swap rfl rfl, hop .add rfl rfl, hop .and rfl rfl, hop .or rfl rfl, hop .xor rfl rfl, hop .min rfl rfl, hop .max rfl rfl,
      ⟨hasks rfl rfl, hasks rfl rfl⟩, ⟨hasks rfl (atomWidth_casCodeOf hsz), hasks rfl (atomWidth_casCodeOf hsz)⟩, ⟨hasks rfl rfl, hasks rfl rfl⟩,
      ⟨hasks rfl rfl, hasks rfl rfl⟩⟩

end Sys2Proof.Machine
end

section
/-! CFLUSH at a core whose table of lines lists a block twice (R181). -/

namespace Sys2Proof.Machine

/-- The page tables of an identity mapping of the first GiB: a table in each of the first two pages, and a leaf in the third (R336). -/
def identityTables : Memory := [(0, 0x01), (1, 0x10), (0x1000, 0x01), (0x1001, 0x20), (0x2000, 0x03), (0x2007, 0x0F)]

/-- The TLB entry of that mapping (R340). -/
def identityEntry : TlbEntry :=
  { part := 0, va := 0, size := 15, pa := 0, ok := 0, nr := false, g := false, u := false, x := false, w := false, r := false }

/-- Slot 0 of core 0 has the length 1 in s1. Its core's table of lines lists block 0 twice, as a direct line with nothing written, and its TLB has the
translation of the block, which the page tables give too. -/
def listedTwice : State :=
  { State.reset with
    slots := [(0, { s := (Vector.replicate 32 0).set 1 1 })],
    cores := [(0, { lines := [(0, { tag := none }), (0, { tag := none })], dtlb := [identityEntry] })],
    clusters := [(0, { part := some 0 })],
    parts := [(0, { cfg := some {} })],
    mem := identityTables }

theorem physOf_listedTwice : physOf listedTwice listedTwice.cur 0 = (some 0, listedTwice) := by rfl

/-- CFLUSH drops the first entry of the block, and the second stays. -/
theorem exec_cflush_listedTwice : ∃ t, exec (.cflush 1 0 .die) listedTwice = .next t ∧ lineOf t 0 0 = some { tag := none } := ⟨_, rfl, rfl⟩

/-- Refutes O16: the statement ranges over every table of lines. CFLUSH drops a block's entry, and in a table that lists the block twice, as no write of
the model leaves one, the second entry is then the core's line of the block, where the clause for direct lines says that there is none. -/
theorem not_cacheControl : ¬ Obligations.CacheControl := by
  rintro ⟨⟨-, hblock, -⟩, -⟩
  have hblock := hblock listedTwice 1 0 .die ⟨0, 0, 0⟩ 0 { tag := none } (by decide) (by decide) rfl rfl rfl (by decide)
  obtain ⟨-, -, hflush, -⟩ := hblock
  obtain ⟨hdirect, -⟩ := hflush (by decide) (by decide) physOf_listedTwice
  obtain ⟨t, hnext, -, hgone, -⟩ := hdirect rfl (by decide)
  obtain ⟨u, hnext', hstays⟩ := exec_cflush_listedTwice
  obtain rfl : t = u := Host.Outcome.next.inj (hnext.symm.trans hnext')
  exact Option.some_ne_none _ (hstays.symm.trans hgone)

end Sys2Proof.Machine
end

section
/-! Every step undoes what a port held back (R201, R363). -/

namespace Sys2Proof.Machine

/-- An outcome that leaves nothing held back where it answers a next state. -/
def Out.Settled (o : Out) : Prop := ∀ t, o = .next t → NothingHeldBack t

theorem NothingHeldBack.settled_next {s : State} (h : NothingHeldBack s) : Out.Settled (.next s) := by
  rintro t ⟨⟩
  exact h

theorem settled_nothingHeldBack {s : State} (h : NothingHeldBack s) (u : State) : NothingHeldBack (settled s u) := by
  unfold settled
  split
  next hu => simpa [NothingHeldBack] using hu
  next => split <;> exact h

theorem settleOut_settled {s : State} (h : NothingHeldBack s) (o : Out) : Out.Settled (settleOut s o) := by
  cases o with
  | next u => exact (settled_nothingHeldBack h u).settled_next
  | fault => rintro _ ⟨⟩
  | refused => rintro _ ⟨⟩

theorem settleIssue_settled {s : State} (h : NothingHeldBack s) (t : Nat) (o : Out) : Out.Settled (settleIssue s t o) := by
  cases o with
  | next u =>
    refine NothingHeldBack.settled_next ?_
    split
    next => exact settled_nothingHeldBack h u
    next hu => simpa [NothingHeldBack] using hu
  | fault => rintro _ ⟨⟩
  | refused => rintro _ ⟨⟩

/-- An event of the model's own schedule is one that has been settled. -/
theorem firstChange_nothingHeldBack {s t : State} {l : List (State → Out)} {wanted : State → Bool} (h : NothingHeldBack s)
    (e : firstChange s l wanted = some t) : NothingHeldBack t := by
  obtain ⟨f, -, hf⟩ := List.exists_of_findSome?_eq_some e
  split at hf
  next u _ =>
    dsimp only at hf
    split_ifs at hf
    cases hf
    exact settled_nothingHeldBack h u
  next => cases hf

theorem byDefault_settled {s : State} (h : NothingHeldBack s) : Out.Settled (byDefault s) := by
  unfold byDefault
  split
  · exact h.settled_next
  split
  next e => exact (firstChange_nothingHeldBack h e).settled_next
  split
  next e => exact (firstChange_nothingHeldBack h e).settled_next
  split
  next t _ => exact settleIssue_settled h t _
  split
  next e => exact (firstChange_nothingHeldBack h e).settled_next
  next => exact h.settled_next

theorem advance_settled {s : State} (h : NothingHeldBack s) : Out.Settled (advance s) := by
  have h1 : NothingHeldBack (dropInput (passTime s)) := h
  unfold advance
  split
  · rintro _ ⟨⟩
  dsimp only
  split
  · split
    · exact settleIssue_settled h1 _ _
    · exact h1.settled_next
  · exact settleOut_settled h1 _
  · exact settleOut_settled h1 _
  · exact settleOut_settled h1 _
  · exact byDefault_settled h1

/-- Settles O57: each kind of step ends by undoing what a port held back. -/
theorem stepsLeaveNothingHeldBack : Obligations.StepsLeaveNothingHeldBack := fun _ t h ht => advance_settled h t ht

end Sys2Proof.Machine
end

section
/-! The deal of a pattern (R316 to R318): the blocks of a burst that each receiving core gets, and their places. -/

namespace Sys2Proof.Machine

/-! ### The receiving cores (R316) -/

theorem coresOf_getD {i : Nat} (h : i < 16) (k d : Nat) : (coresOf k).getD i d = (k / 8 * 4 + i / 4) * 32 + k % 8 * 4 + i % 4 := by
  simp [coresOf, List.getD, h]

/-- A core receives by one bit of the pattern only. -/
theorem dpCores_nodup (p : Word) (c : Nat) : (dpCores p c).Nodup := by
  refine List.Nodup.map_on (fun i hi j hj h => ?_) (List.nodup_range.filter _)
  rw [List.mem_filter, List.mem_range] at hi hj
  rw [coresOf_getD hi.1, coresOf_getD hj.1] at h
  omega

theorem dpCores_length (p : Word) (c : Nat) : (dpCores p c).length = ((List.range 16).filter fun i => (dpMask p).testBit i).length :=
  List.length_map ..

theorem dpCores_length_pos {p : Word} (h : dpMask p ≠ 0) (c : Nat) : 0 < (dpCores p c).length := by
  obtain ⟨i, hi⟩ := Nat.exists_testBit_of_ne_zero h
  have hlt : i < 16 := by
    by_contra hn
    rw [dpMask, bits, testBit_fld, Bool.and_eq_true, decide_eq_true_eq] at hi
    exact hn hi.1
  rw [dpCores_length]
  exact List.length_pos_of_mem (List.mem_filter.mpr ⟨List.mem_range.mpr hlt, hi⟩)

/-! ### The blocks of each receiving core (R317) -/

/-- Blocks of each turn of the cycle that one receiving core is dealt: r of R317. -/
def dealRun (p : Word) (c : Nat) : Nat := dpCyc p / (dpCores p c).length

/-- The place of the receiving core of block b among those of the pattern: j of R317. -/
def receiverOf (p : Word) (c b : Nat) : Nat := b % dpCyc p / dealRun p c

/-- How many of the first n blocks go to the j-th receiving core. -/
def dealtBlocks (p : Word) (c n j : Nat) : Nat := n / dpCyc p * dealRun p c + Nat.min (dealRun p c) (n % dpCyc p - j * dealRun p c)

theorem dealtBytes_eq (p : Word) (c len j : Nat) : let n := burstBlocks len (dpBs p)
    dealtBytes p c len j = if receiverOf p c (n - 1) = j then dealtBlocks p c n j * dpBs p - (n * dpBs p - len) else dealtBlocks p c n j * dpBs p := rfl

section
variable {p : Word} {c : Nat}

/-- A legal pattern deals each receiving core a block in each turn of the cycle (R316). -/
theorem dealRun_pos (hm : dpMask p ≠ 0) (hc : dpCyc p ≠ 0) (hd : dpCyc p % (dpCores p c).length = 0) : 0 < dealRun p c :=
  Nat.div_pos (Nat.le_of_dvd (Nat.pos_of_ne_zero hc) (Nat.dvd_of_mod_eq_zero hd)) (dpCores_length_pos hm c)

theorem receiverOf_lt (hc : dpCyc p ≠ 0) (hd : dpCyc p % (dpCores p c).length = 0) (b : Nat) : receiverOf p c b < (dpCores p c).length := by
  have hq : b % dpCyc p < dpCyc p := Nat.mod_lt _ (Nat.pos_of_ne_zero hc)
  refine Nat.div_lt_of_lt_mul ?_
  rwa [dealRun, Nat.div_mul_cancel (Nat.dvd_of_mod_eq_zero hd)]

variable (hr : 0 < dealRun p c)
include hr

/-- Before block b its receiving core has been dealt whole runs and the blocks of the run that b belongs to. -/
theorem dealtBlocks_receiverOf (b : Nat) :
    dealtBlocks p c b (receiverOf p c b) = b / dpCyc p * dealRun p c + b % dpCyc p % dealRun p c := by
  have hrest := Nat.mod_lt (b % dpCyc p) hr
  have hdiv : b % dpCyc p - receiverOf p c b * dealRun p c = b % dpCyc p % dealRun p c := (Nat.mod_eq_sub_div_mul ..).symm
  rw [dealtBlocks, hdiv]
  exact congrArg _ (Nat.min_eq_right hrest.le)

/-- Block b lies behind the blocks that its receiving core was dealt before it (R317). -/
theorem dealBlock_eq (b : Nat) : dealBlock p c b =
    ((dpCores p c).getD (receiverOf p c b) c, dpOff p + dealtBlocks p c b (receiverOf p c b) * dpBs p) := by
  rw [dealtBlocks_receiverOf hr]
  rfl

/-- Block b is one more for its receiving core. -/
theorem dealtBlocks_lt {b n : Nat} (h : b < n) : dealtBlocks p c b (receiverOf p c b) < dealtBlocks p c n (receiverOf p c b) := by
  have hrest := Nat.mod_lt (b % dpCyc p) hr
  rw [dealtBlocks_receiverOf hr]
  rcases (Nat.div_le_div_right (c := dpCyc p) h.le).lt_or_eq with hturn | hturn
  · calc b / dpCyc p * dealRun p c + b % dpCyc p % dealRun p c
        < (b / dpCyc p + 1) * dealRun p c := by rw [Nat.add_one_mul]; omega
      _ ≤ n / dpCyc p * dealRun p c := Nat.mul_le_mul_right _ hturn
      _ ≤ _ := Nat.le_add_right ..
  · have hq : b % dpCyc p < n % dpCyc p := by
      have hb := Nat.div_add_mod b (dpCyc p)
      have hn := Nat.div_add_mod n (dpCyc p)
      rw [hturn] at hb
      omega
    have hrun : receiverOf p c b * dealRun p c + b % dpCyc p % dealRun p c = b % dpCyc p := Nat.div_add_mod' ..
    rw [dealtBlocks, hturn]
    exact Nat.add_lt_add_left (Nat.lt_min.mpr ⟨hrest, by omega⟩) _

end

/-! ### The bytes of each receiving core (R318) -/

theorem dpBs_pos (p : Word) : 0 < dpBs p := Nat.mul_pos (by decide) (Nat.two_pow_pos _)

/-- The blocks of a burst hold its bytes, and no fewer blocks do (R317). -/
theorem burstBlocks_bounds {len bs : Nat} (hl : 0 < len) (hb : 0 < bs) :
    len ≤ burstBlocks len bs * bs ∧ (burstBlocks len bs - 1) * bs < len := by
  have hdiv := Nat.div_add_mod' (len + bs - 1) bs
  have hmod := Nat.mod_lt (len + bs - 1) hb
  rw [Nat.sub_one_mul, burstBlocks]
  omega

/-- No block reaches beyond the bytes that its receiving core is dealt: the core that gets the last block of the burst, the only one that may be
short, gets its other blocks before it (R318). -/
theorem dealtBlocks_within {p : Word} {c len b : Nat} (hr : 0 < dealRun p c) (hl : 0 < len) (h : b < burstBlocks len (dpBs p)) :
    dealtBlocks p c b (receiverOf p c b) * dpBs p + min (dpBs p) (len - b * dpBs p) ≤ dealtBytes p c len (receiverOf p c b) := by
  obtain ⟨hfull, hlast⟩ := burstBlocks_bounds hl (dpBs_pos p)
  have hpred := Nat.sub_one_mul (burstBlocks len (dpBs p)) (dpBs p)
  have hown := dealtBlocks_lt hr h
  have hend := Nat.mul_le_mul_right (dpBs p) (Nat.succ_le_of_lt hown)
  rw [Nat.succ_mul] at hend
  rw [dealtBytes_eq]
  split
  next hj =>
    rcases (Nat.le_sub_one_of_lt h).lt_or_eq with hb | rfl
    · have hlater := dealtBlocks_lt hr (Nat.sub_one_lt_of_lt h)
      rw [hj] at hlater
      have htwo := Nat.mul_le_mul_right (dpBs p) (Nat.succ_le_of_lt (Nat.lt_of_le_of_lt (Nat.succ_le_of_lt (dealtBlocks_lt hr hb)) hlater))
      rw [Nat.succ_mul, Nat.succ_mul] at htwo
      omega
    · omega
  next => omega

/-! ### The rule of the deal (R317, R318) -/

section
variable {p : Word} {c : Nat} (hc : dpCyc p ≠ 0) (hd : dpCyc p % (dpCores p c).length = 0)
include hc hd

theorem dpCores_getElem?_receiverOf (hr : 0 < dealRun p c) (b : Nat) : (dpCores p c)[receiverOf p c b]? = some (dealBlock p c b).1 := by
  have hlt := receiverOf_lt hc hd b
  rw [dealBlock_eq hr, List.getD_eq_getElem _ _ hlt, List.getElem?_eq_getElem hlt]

/-- Blocks for one core have one place among the receiving cores. -/
theorem receiverOf_eq_of_dealBlock (hr : 0 < dealRun p c) {b b' : Nat} (h : (dealBlock p c b).1 = (dealBlock p c b').1) :
    receiverOf p c b = receiverOf p c b' := by
  refine (List.getElem?_inj (receiverOf_lt hc hd b) (dpCores_nodup p c)).mp ?_
  rw [dpCores_getElem?_receiverOf hc hd hr, dpCores_getElem?_receiverOf hc hd hr, h]

/-- Of two blocks for one core the later one lies behind the earlier one. -/
theorem dealBlock_behind (hr : 0 < dealRun p c) {b b' : Nat} (h : (dealBlock p c b).1 = (dealBlock p c b').1) (hlt : b < b') :
    (dealBlock p c b).2 + dpBs p ≤ (dealBlock p c b').2 := by
  have hblocks := Nat.mul_le_mul_right (dpBs p) (Nat.succ_le_of_lt (dealtBlocks_lt hr hlt))
  rw [Nat.succ_mul, receiverOf_eq_of_dealBlock hc hd hr h] at hblocks
  rw [dealBlock_eq hr, dealBlock_eq hr, receiverOf_eq_of_dealBlock hc hd hr h]
  omega

end

end Sys2Proof.Machine
end

section
/-! The distributor's instructions and events (R316, R318, R319). -/

namespace Sys2Proof.Machine

/-! ### The instructions (R316, R318) -/

/-- A pattern that DIST.SET stores (R316). -/
def LegalPattern (v : Word) : Prop :=
  dpMask v ≠ 0 ∧ dpCyc v ≠ 0 ∧ dpCyc v % ((List.range 16).filter fun i => (dpMask v).testBit i).length = 0 ∧ bits v 34 32 ≤ 6 ∧ dpOff v % 64 = 0 ∧
    bits v 39 35 = 0 ∧ bits v 31 18 = 0

theorem execDistSet_legal {s : State} {a : Reg} (h : LegalPattern (s.rd a)) :
    execDistSet a s = .next ((s.updCore s.myCore fun q => { q with distPat := s.rd a }).past 4) := by
  obtain ⟨hmask, hcyc, hdiv, hsize, hoff, hhigh, hlow⟩ := h
  simp [execDistSet, dpCores_length, hmask, hcyc, hdiv, hoff, hhigh, hlow, Nat.not_lt.mpr hsize, done]

theorem execDistSet_illegal {s : State} {a : Reg} (h : ¬ LegalPattern (s.rd a)) : execDistSet a s = trap .illegalOperand (s.rd a) s := by
  refine if_pos ?_
  by_contra hn
  refine h ?_
  simpa [dpCores_length, LegalPattern, and_assoc] using hn

theorem homedElsewhere_spd {a : Word} (h : spaceOf a = some .spd) (s : State) (t : Nat) : homedElsewhere s t a = (false, s) := by
  rcases checkAddr_spd h s t .store 64 1 with ⟨o, ho⟩ | ⟨e, he⟩
  · simp [homedElsewhere, ho]
  · simp [homedElsewhere, he]

/-- A burst starts when its core has none, its source is global, its blocks can be dealt, and its join cell is none or an aligned one of a
scratchpad (R318). -/
theorem execDistGo_starts {s : State} {d a b : Reg} (hrun : (s.core s.myCore).burst.st ≠ .running) (hfault : (s.core s.myCore).burst.st ≠ .faulted)
    (hsrc : spaceOf (s.rd a) = some .glb) (hlen : s.rd b ≠ 0) (hmax : (s.rd b).toNat ≤ 2 ^ 32)
    (hdeal : cannotDeal s s.myCore (s.rd b).toNat (s.core s.myCore).distPat = false)
    (hjoin : s.rd d = 0 ∨ ((s.rd d).toNat % 64 = 0 ∧ spaceOf (s.rd d) = some .spd)) :
    execDistGo d a b s = .next ((s.updCore s.myCore fun q => { q with
      burst := { st := .running, src := s.rd a, len := s.rd b, join := s.rd d, pat := q.distPat, slot := slotOf s.cur, mode := s.me.mode,
                 launch := launchOf s s.cur } }).past 4) := by
  have hfar : (if s.rd d = 0 then (false, s) else homedElsewhere s s.cur (s.rd d)) = (false, s) := by
    rcases hjoin with h | ⟨-, h⟩
    · rw [if_pos h]
    · rw [homedElsewhere_spd h, ite_self]
  have halign : ¬ (s.rd d != 0 && ((s.rd d).toNat % 64 != 0 || false)) = true := by
    rcases hjoin with h | ⟨h, -⟩ <;> simp [h]
  unfold execDistGo
  dsimp only
  rw [if_neg (by simp [hrun, hfault]), if_neg (by simp [hsrc]), if_neg (by simpa [hdeal] using ⟨hlen, hmax⟩), hfar]
  exact if_neg halign

/-- A core has one burst at a time (R318). -/
theorem execDistGo_busy {s : State} (d a b : Reg) (h : (s.core s.myCore).burst.st = .running ∨ (s.core s.myCore).burst.st = .faulted) :
    execDistGo d a b s = trap .illegalOperand 0 s := by
  refine if_pos ?_
  simpa using h

theorem execDistResume_faulted {s : State} (h : (s.core s.myCore).burst.st = .faulted) (hl : (s.core s.myCore).burst.cause ≠ .leaseViolation) :
    execDistResume s =
      .next ((s.updCore s.myCore fun q => { q with burst := { q.burst with st := .running, cause := 0, wait := none } }).past 4) := by
  simp [execDistResume, h, hl, done]

theorem execDistResume_illegal {s : State} (h : (s.core s.myCore).burst.st ≠ .faulted ∨ (s.core s.myCore).burst.cause = .leaseViolation) :
    execDistResume s = trap .illegalOperand 0 s := by
  refine if_pos ?_
  simpa using h

/-! ### The events (R317, R319) -/

section
variable {s s' : State} {c : Nat} {x : Burst} (hx : (s.core c).burst = x) (hst : x.st = .running) (hhalt : halting s c = false) (hwait : x.wait = none)
include hx hst hhalt hwait

theorem burstReady_running : burstReady s c = true := by simp [burstReady, hx, hst, hhalt, hwait, waitOver]

/-- A block whose pieces can all be read is dealt (R317). -/
theorem execDistBlock_deals {rest : List Byte} {core off k : Nat} {start : Word} (hspot : dealBlock x.pat c x.blocks = (core, off))
    (hstart : start = x.src + BitVec.ofNat 64 (x.blocks * dpBs x.pat)) (hk : k = Nat.min (dpBs x.pat) (x.len.toNat - x.blocks * dpBs x.pat))
    (hlt : x.blocks < burstBlocks x.len.toNat (dpBs x.pat)) (hbusy : lsBusy s core = false)
    (hdealt : dealPieces s c (threadOf c x.slot) x core off start x.part x.buf ((pieces start k).drop x.part) = .all rest s') :
    execDistBlock c s = .next ((unpoisonIn s' (lsBlk core) (s'.spOffset core off) k).updCore c fun q =>
      { q with burst := { q.burst with blocks := q.burst.blocks + 1, part := 0, wait := none, buf := rest } }) := by
  subst hstart hk
  simp only [execDistBlock, hx, hspot, burstReady_running hx hst hhalt hwait, Nat.not_le.mpr hlt, hbusy, hdealt, Bool.not_true, decide_false,
    Bool.or_self, Bool.false_eq_true, if_false]

/-- The burst of a core is done. -/
def State.burstDone (s : State) (c : Nat) : State := s.updCore c fun q => { q with burst := { q.burst with st := .done, wait := none } }

variable (hall : x.blocks = burstBlocks x.len.toNat (dpBs x.pat))
include hall

theorem execDistBurstComplete_noCell (hj : x.join = 0) : execDistBurstComplete c s = .next (s.burstDone c) := by
  have hj' : x.join = 0#64 := hj
  simp [execDistBurstComplete, hx, burstReady_running hx hst hhalt hwait, hall, hj', State.burstDone]

/-- The join cell of a burst that is done is counted down, and the record of a cell whose count was one is queued (R319). -/
theorem execDistBurstComplete_cell {pa : Nat} (hj : x.join ≠ 0) (hcell : cellAddrBy s (threadOf c x.slot) true x.join x.join = .ok pa s') :
    let m := homeWord s' pa; let r := { recOf (homeBytes s' (pa + 32) 32) c with launch := x.launch }
    let counted := cellCount s' (threadOf c x.slot) pa fun k => k - 1
    execDistBurstComplete c s =
      .next (State.burstDone (if m = 0 then s' else if m = 1 ∧ r.code ≠ 0 then dealTo counted c noThread r else counted) c) := by
  intro m r counted
  have hcount : execDistBurstComplete c s = .next (State.burstDone
      (if m = 1 && r.code != 0 then dealTo (if m = 0 then s' else counted) c noThread r else if m = 0 then s' else counted) c) := by
    simp only [execDistBurstComplete, hx, burstReady_running hx hst hhalt hwait, hall, hj, hcell, lt_irrefl, Bool.not_true, decide_false,
      Bool.or_self, Bool.false_eq_true, if_false]
    rfl
  rw [hcount]
  by_cases h0 : m = 0
  · simp [h0]
  · simp only [h0, if_false, Bool.and_eq_true, decide_eq_true_eq, bne_iff_ne]

end

/-- Settles O35: each instruction and event from its own rule, and the rule of the deal from the counts of the blocks that each core is dealt. -/
theorem distributor : Obligations.Distributor := by
  refine ⟨⟨fun s d a b => ?_, ?_⟩, fun p c len _ hm hc hd hl => ?_⟩
  · refine ⟨execDistSet_legal, fun ht h => .of_trap ht (execDistSet_illegal h), execDistGo_starts,
      fun ht h => .of_trap ht (execDistGo_busy d a b h), ?_, execDistResume_faulted, fun ht h => .of_trap ht (execDistResume_illegal h)⟩
    exact Gives.of_eq rfl (congrArg (fun k => BitVec.ofNat 64 (_ * 2 ^ 61 + k * 2 ^ 48 + _)) (if_congr beq_iff_eq rfl rfl))
  · intro s s' c pa x n t hst hhalt hwait
    exact ⟨fun hlt hbusy _ hdealt => execDistBlock_deals rfl hst hhalt hwait rfl rfl rfl hlt hbusy hdealt,
      fun hall => ⟨execDistBurstComplete_noCell rfl hst hhalt hwait hall, execDistBurstComplete_cell rfl hst hhalt hwait hall⟩⟩
  · have hr := dealRun_pos hm hc hd
    have hplace := dpCores_getElem?_receiverOf hc hd hr
    refine ⟨fun b => List.mem_of_getElem? (hplace b), fun b b' hcore hne => ?_, fun b hb => ⟨hplace b, ?_⟩⟩
    · exact (Nat.lt_or_gt_of_ne hne).imp (dealBlock_behind hc hd hr hcore) (dealBlock_behind hc hd hr hcore.symm)
    · rw [dealBlock_eq hr, Nat.add_assoc]
      exact Nat.add_le_add_left (dealtBlocks_within hr hl hb) _

end Sys2Proof.Machine
end

section
/-! Replies to a core's requests, and requests forwarded to it (R209, R210, R215, R253). -/

namespace Sys2Proof.Machine

/-! ### Slots that a reply re-admits (R209) -/

theorem State.foldl_wake_rest (l : List Nat) (s : State) : l.foldl State.wake s = { s with slots := (l.foldl State.wake s).slots } := by
  induction l generalizing s with
  | nil => rfl
  | cons t l ih => exact ih (s.wake t)

theorem State.run_wake_of_active {s : State} {t : Nat} (h : (s.slot t).run = .active) (u : Nat) : ((s.wake u).slot t).run = .active := by
  by_cases htu : t = u
  · subst htu
    simp [State.wake, h]
  · rw [State.slot_wake_ne s htu, h]

/-- Of the slots woken, those that wait become active; and an active slot stays active. -/
theorem State.run_foldl_wake (l : List Nat) (s : State) {t : Nat}
    (h : (s.slot t).run = .active ∨ t ∈ l ∧ ∃ w, (s.slot t).run = .waiting w) : ((l.foldl State.wake s).slot t).run = .active := by
  induction l generalizing s with
  | nil => exact h.resolve_right fun hmem => List.not_mem_nil hmem.1
  | cons a l ih =>
    refine ih (s.wake a) ?_
    rcases h with h | ⟨hmem, w, hw⟩
    · exact .inl (State.run_wake_of_active h a)
    · by_cases hta : t = a
      · subst hta
        rw [State.wake_waiting hw]
        simp
      · rw [State.slot_wake_ne s hta]
        exact .inr ⟨(List.mem_cons.mp hmem).resolve_left hta, w, hw⟩

theorem mem_suspended {s : State} {c blk i : Nat} {va : Word} (hi : i < 16) (h : (s.slot (threadOf c i)).run = .waiting (.line blk va)) :
    threadOf c i ∈ suspended s c blk := by
  simp only [suspended, State.slotsWhere, List.mem_filter, List.mem_map, List.mem_range]
  exact ⟨⟨i, hi, rfl⟩, by simp [h]⟩

theorem readmit_rest (s : State) (c blk : Nat) :
    readmit s c blk = { s with slots := (readmit s c blk).slots, cores := (readmit s c blk).cores } := by
  unfold readmit
  dsimp only
  rw [State.foldl_wake_rest]
  rfl

theorem core_readmit (s : State) (c blk : Nat) : (readmit s c blk).core c = { s.core c with awaits := ((readmit s c blk).core c).awaits } := by
  have hcore (l : List Nat) : (l.foldl State.wake s).core c = s.core c := by rw [State.core, (State.foldl_wake_keeps l s).1, State.core]
  simp only [readmit, State.updCore_eq, State.core_setCore_self, hcore]

/-- Every slot suspended on a block is in the rotation again (R209). -/
theorem run_readmit {s : State} {c blk i : Nat} {va : Word} (hi : i < 16) (h : (s.slot (threadOf c i)).run = .waiting (.line blk va)) :
    ((readmit s c blk).slot (threadOf c i)).run = .active :=
  State.run_foldl_wake _ s (.inr ⟨mem_suspended hi h, _, h⟩)

/-! ### A line finds its place in an L1 set with a free way (R170) -/

theorem drop_sublist {α : Type} (k : Nat) (t : Tab α) : (drop k t).Sublist t := by
  induction t with
  | nil => exact .slnil
  | cons x t ih =>
    simp only [drop]
    split
    · exact List.sublist_cons_self ..
    · exact ih.cons_cons x

theorem makeRoom_free {s : State} {c set : Nat} (h : (l1Set (s.core c) set).length < 8) (n : Nat) : makeRoom s c set n = (true, s) := by
  cases n <;> simp [makeRoom, h]

/-- With a free way in its L1 set, a line that stands in no stream buffer is placed and nothing is moved for it (R170). -/
theorem fillLine_room {s : State} {c blk : Nat} {l : Line} (hroom : (l1Set (s.core c) (blk % 64)).length < 8) (hs : l.stream = none) (slot : Nat) :
    ∃ lines, fillLine s c slot blk l = s.setCore c { s.core c with stamp := (s.core c).stamp + 1, lines := lines } ∧
      look blk lines = some { l with used := (s.core c).stamp, l2 := false } := by
  obtain ⟨tag, data, written, stash, l2, prio, used, rel, single, kept, va, stream⟩ := l
  obtain rfl : stream = none := hs
  let placed : Line := { tag, data, written, stash, prio, rel, single, kept, va, used := (s.core c).stamp }
  by_cases hstays : (stash || (placed.inL1 && (look blk (s.core c).lines).any Line.inL1)) = true
  · have h : fillLine s c slot blk { placed with used, l2 } = _ := if_pos hstays
    exact ⟨put blk placed (s.core c).lines, by rw [h]; simp [setLine, placed], look_put_self ..⟩
  let u : State := s.setCore c { s.core c with stamp := (s.core c).stamp + 1, lines := drop blk (s.core c).lines }
  have hu : setLine (s.setCore c { s.core c with stamp := (s.core c).stamp + 1 }) c blk none = u := by simp [setLine, u]
  have hfree : (l1Set (u.core c) (blk % 64)).length < 8 := by
    refine Nat.lt_of_le_of_lt (List.Sublist.length_le ?_) hroom
    simp only [u, State.core_setCore_self, l1Set]
    exact (drop_sublist blk _).filter _
  have h : fillLine s c slot blk { placed with used, l2 } = setLine u c blk (some placed) := by
    refine (if_neg hstays).trans ?_
    simp only [hu, makeRoom_free hfree]
    split <;> rfl
  exact ⟨put blk placed (drop blk (s.core c).lines), by rw [h]; simp [setLine, u], look_put_self ..⟩

/-! ### A grant is installed (R209, R253) -/

/-- The line of a block as a grant finds it; one that is absent is invalid (R208). -/
def lineBefore (s : State) (c blk : Nat) : Line := (lineOf s c blk).getD { tag := some .invalid }

/-- The line that a grant leaves in place of another: its tag and its data, nothing written, and no release set (R209). -/
structure Line.GrantedFrom (l old : Line) (t : Tag) (data : Block) (single : Option (Nat × Nat × Nat)) : Prop where
  tag : l.tag = some t
  data : l.data = data
  written : l.written = 0
  rel : l.rel = []
  kept : l.kept = false
  single : l.single = single
  stash : l.stash = old.stash

/-- The line of a grant is placed in its core, and nothing of another part of the machine is moved for it (R170, R253). -/
theorem placeGrant {s : State} {c blk : Nat} {l : Line} (b : Bool) (hroom : (l1Set (s.core c) (blk % 64)).length < 8) (hs : l.stream = none) (slot : Nat) :
    ∃ q l', (if b then setLine s c blk (some l) else fillLine s c slot blk l) = s.setCore c q ∧ q.reqs = (s.core c).reqs ∧
      look blk q.lines = some l' ∧ ∃ n inL2, l' = { l with used := n, l2 := inL2 } := by
  cases b with
  | true => exact ⟨{ s.core c with lines := put blk l (s.core c).lines }, l, rfl, rfl, look_put_self .., l.used, l.l2, rfl⟩
  | false =>
    obtain ⟨lines, hf, hlook⟩ := fillLine_room hroom hs slot
    exact ⟨{ s.core c with stamp := (s.core c).stamp + 1, lines := lines }, _, hf, rfl, hlook, _, _, rfl⟩

/-- An installed grant ends its request, leaves the line of the block, and re-admits the slots suspended on it. -/
theorem install_grants {s : State} {c blk : Nat} (tag : Nat) (t : Tag) (data : Option Block) (single : Option (Nat × Nat × Nat))
    (hroom : (l1Set (s.core c) (blk % 64)).length < 8) (hs : (lineBefore s c blk).stream = none) :
    ∃ l, let u := install s c tag blk t data single
      u.net = s.net ∧ u.mem = s.mem ∧ (u.core c).reqs = drop tag (s.core c).reqs ∧ lineOf u c blk = some l ∧
      l.GrantedFrom (lineBefore s c blk) t (data.getD (lineBefore s c blk).data) single ∧
      ∀ i va, i < 16 → (s.slot (threadOf c i)).run = .waiting (.line blk va) → (u.slot (threadOf c i)).run = .active := by
  have hdrop : (dropReq s c tag).core c = { s.core c with reqs := drop tag (s.core c).reqs } := State.core_setCore_self ..
  obtain ⟨q, l, hplace, hreqs, hlook, n, inL2, hl⟩ := placeGrant (s := dropReq s c tag) (c := c) (blk := blk)
    (l := { lineBefore s c blk with
      tag := some t, data := data.getD (lineBefore s c blk).data, written := 0, rel := [], kept := false, single := single })
    single.isSome (by rw [hdrop]; exact hroom) hs (reqSlot s c tag)
  have hinstall : install s c tag blk t data single = readmit ((dropReq s c tag).setCore c q) c blk := congrArg (readmit · c blk) hplace
  have hcore : ((dropReq s c tag).setCore c q).core c = q := State.core_setCore_self ..
  have hline : l.GrantedFrom (lineBefore s c blk) t (data.getD (lineBefore s c blk).data) single := hl ▸ ⟨rfl, rfl, rfl, rfl, rfl, rfl, rfl⟩
  rw [hdrop] at hreqs
  refine ⟨l, ?_⟩
  dsimp only
  rw [hinstall]
  refine ⟨by rw [readmit_rest]; rfl, by rw [readmit_rest]; rfl, ?_, ?_, hline, fun i va hi16 hrun => run_readmit hi16 hrun⟩
  · rw [core_readmit, hcore, hreqs]
  · rw [lineOf, core_readmit, hcore, hlook]

/-! ### Replies (R209, R215) -/

section
variable {s : State} {k : Nat} {m : Msg} {r : Req} (hd : s.deliverable k = some m) (hc : m.dst < 0x800)
include hd hc

/-- A reply of its type acts on the request that its tag and its block name (R215). -/
theorem replyEvent_matched {type : Nat} (ht : m.type = type) (hr : look m.tag (s.core m.dst).reqs = some r) (hb : r.msg.blk = m.blk)
    (f : State → Nat → Msg → Req → State) : replyEvent s k type f = .next (f (s.unpost k) m.dst m r) := by
  have hr' : look m.tag ((s.unpost k).core m.dst).reqs = some r := hr
  simp [replyEvent, hd, Nat.not_le.mpr hc, ht, matched, hr', hb]

/-- A reply to a put ends the wait for it (R181, R229). -/
theorem execAck_put (ht : m.type = Ty.ack) (htag : m.tag = 0xFF) (hg : bits m.w[2] 1 0 = 0) : execAck k s = .next (putOver (s.unpost k) m) := by
  simp [execAck, hd, Nat.not_le.mpr hc, ht, htag, hg, putTag]

theorem execFail_put (ht : m.type = Ty.fail) (htag : m.tag = 0xFF) : execFail k s = .next (putOver (s.unpost k) m) := by
  simp [execFail, hd, Nat.not_le.mpr hc, ht, htag, putTag]

variable (hr : look m.tag (s.core m.dst).reqs = some r) (hb : r.msg.blk = m.blk)
include hr hb

theorem execDataS_grants (ht : m.type = Ty.dataS) (htag : m.tag < 128) (hp : m.w[2].getLsbD 0 = false ∨ r.pref = false) :
    execDataS k s = .next (install (s.unpost k) m.dst m.tag m.blk .readOnly m.flit
      (if m.w[2].getLsbD 0 then some (threadOf m.dst r.msg.slot, bits r.msg.w[2] 5 0, bits r.msg.w[2] 11 6) else none)) := by
  have hkeeps : ¬ (bitOf m.w[2] 0 && r.pref) = true := by
    rw [Bool.and_eq_true]
    rintro ⟨h1, h2⟩
    exact hp.elim (fun h => Bool.false_ne_true (h.symm.trans h1)) fun h => Bool.false_ne_true (h.symm.trans h2)
  rw [execDataS, replyEvent_matched hd hc ht hr hb, if_neg (Nat.not_le.mpr htag), if_neg hkeeps]
  rfl

theorem execDataX_grants (ht : m.type = Ty.dataX) (htag : m.tag < 128) :
    execDataX k s = .next (install (s.unpost k) m.dst m.tag m.blk .writable m.flit none) := by
  rw [execDataX, replyEvent_matched hd hc ht hr hb, if_neg (Nat.not_le.mpr htag)]

/-- A grant of a tag alone is installed on the read-only line that its busy line has kept (R209). -/
theorem execAck_grants (ht : m.type = Ty.ack) (htag : m.tag < 128) {l : Line} (hl : lineOf s m.dst m.blk = some l) (hkept : l.kept = true) {g : Nat}
    (hg : bits m.w[2] 1 0 = g) (hg12 : g = 1 ∨ g = 2) :
    execAck k s = .next (install (s.unpost k) m.dst m.tag m.blk (if g = 1 then .readOnly else .writable) none none) := by
  have hr' : look m.tag ((s.unpost k).core m.dst).reqs = some r := hr
  have hl' : lineOf (s.unpost k) m.dst m.blk = some l := hl
  have hput : m.tag ≠ 0xFF := by omega
  have hchan : ¬ 144 ≤ m.tag := by omega
  have h0 : g ≠ 0 ∧ g ≠ 3 := by omega
  simp [execAck, hd, Nat.not_le.mpr hc, ht, hput, putTag, matched, hr', hb, hchan, htag, hg, h0, hl', hkept]

/-- The result that a slot waits for completes its instruction (R215). -/
theorem execResult_completes (ht : m.type = Ty.result) (htag : slotTag m.tag = true) (hdead : r.dead = false) {d : Reg} {n : Nat} {va : Word}
    (hrun : (s.slot (threadOf m.dst r.msg.slot)).run = .waiting (.result m.blk d n va)) :
    execResult k s = .next ((dropReq (s.unpost k) m.dst m.tag).setSlot (threadOf m.dst r.msg.slot)
      { ((s.slot (threadOf m.dst r.msg.slot)).ws d m.w[2]).past n with run := .active }) := by
  have hlow : ¬ m.tag < 128 := by
    simp only [slotTag, Bool.and_eq_true, decide_eq_true_eq] at htag
    omega
  have hslot : (dropReq (s.unpost k) m.dst m.tag).slot (threadOf m.dst r.msg.slot) = s.slot (threadOf m.dst r.msg.slot) := rfl
  rw [execResult, replyEvent_matched hd hc ht hr hb]
  simp [hlow, htag, hdead, hslot, hrun]

/-- A failure of the operation that a slot waits for traps at the address of its access (R215, R229). -/
theorem execFail_traps (ht : m.type = Ty.fail) (htag : slotTag m.tag = true) (hdead : r.dead = false) {b n : Nat} {d : Reg} {va : Word}
    (hrun : (s.slot (threadOf m.dst r.msg.slot)).run = .waiting (.result b d n va)) :
    execFail k s = .next (takeSync (dropReq (s.unpost k) m.dst m.tag) (threadOf m.dst r.msg.slot) (BitVec.ofNat 8 (bits m.w[2] 7 0)) va) := by
  have hr' : look m.tag ((s.unpost k).core m.dst).reqs = some r := hr
  have hlow : ¬ m.tag < 128 ∧ m.tag ≠ 0xFF := by
    simp only [slotTag, Bool.and_eq_true, decide_eq_true_eq] at htag
    omega
  have hslot : (dropReq (s.unpost k) m.dst m.tag).slot (threadOf m.dst r.msg.slot) = s.slot (threadOf m.dst r.msg.slot) := rfl
  simp [execFail, hd, Nat.not_le.mpr hc, ht, hlow, putTag, matched, hr', hb, htag, hdead, hslot, hrun]

end

/-! ### A request is posted again (R209) -/

theorem look_of_find {α : Type} {f : Nat × α → Bool} {k : Nat} {v : α} {t : Tab α} (h : t.find? f = some (k, v)) : ∃ w, look k t = some w := by
  have hmem := List.mem_of_find?_eq_some h
  clear h
  induction t with
  | nil => cases hmem
  | cons x t ih =>
    simp only [look]
    split
    · exact ⟨_, rfl⟩
    · rename_i hne
      exact ih ((List.mem_cons.mp hmem).resolve_left fun h => hne (congrArg Prod.fst h))

theorem execRetryBackoffExpiry_reposts {s : State} {c blk tag : Nat} {r : Req}
    (hf : (s.core c).reqs.find? (fun r => r.2.msg.blk = blk && r.2.retry.isSome) = some (tag, r)) (hdead : r.dead = false)
    (hp : s.protoOf (blk * 64) ≠ 0) :
    execRetryBackoffExpiry c blk s = .next (repost { s with time := Nat.max s.time (r.retry.getD 0) } c tag r.msg) := by
  have hp' : ({ s with time := Nat.max s.time (r.retry.getD 0) } : State).protoOf (blk * 64) ≠ 0 := hp
  simp [execRetryBackoffExpiry, hf, hdead, hp']

/-- A posted request waits for its answer again. -/
theorem repost_marks {s : State} {c tag : Nat} {r : Req} (h : look tag (s.core c).reqs = some r) (m : Msg) :
    look tag ((repost s c tag m).core c).reqs = some { r with msg := { m with dst := procAgent (s.homeOf m.addr), via := none }, busy := false, retry := none } := by
  have hcore : (repost s c tag m).core c = _ := State.core_setCore_self ..
  rw [hcore]
  dsimp only
  rw [h]
  exact look_put_self ..

/-! ### Answers to forwarded requests (R210) -/

section
variable {m : Msg} (hmc : m.mc = none)
include hmc

theorem answer_plain (s : State) (c : Nat) (held : Bool) :
    answer s c m none held = s.post (mkMsg s c 0 m.src Ty.invAck 0 m.addr (boolWord held) 0 0 none none) := by simp [answer, hmc]

theorem answer_data (s : State) (c : Nat) (b : Block) (held : Bool) :
    answer s c m (some b) held = s.post (mkMsg s c 0 m.src Ty.wbData 0 m.addr 0 0 0 (some b) none) := by simp [answer, hmc]

/-- A core without the line answers that it holds nothing. -/
theorem applyForward_absent {s : State} {c : Nat} (hl : lineOf s c m.blk = none) :
    applyForward s c m = s.post (mkMsg s c 0 m.src Ty.invAck 0 m.addr 0 0 0 none none) := by
  simp only [applyForward, hl]
  exact answer_plain hmc s c false

variable {s : State} {c : Nat} {l : Line} (hl : lineOf s c m.blk = some l)
include hl

/-- A writable line is given up with its data (R210). -/
theorem applyForward_yields (hstash : l.stash = false) (htag : l.tag = some .writable)
    (hkeep : m.type = Ty.inv ∨ m.type = Ty.recall ∧ bits m.w[2] 1 0 = 0) :
    applyForward s c m = (setLine s c m.blk none).post (mkMsg s c 0 m.src Ty.wbData 0 m.addr 0 0 0 (some l.data) none) := by
  have hpush : m.type ≠ Ty.push := by rcases hkeep with h | ⟨h, -⟩ <;> simp [h, Ty.inv, Ty.recall, Ty.push]
  have hzero : (if m.type = Ty.recall then bits m.w[2] 1 0 else 0) = 0 := by
    rcases hkeep with h | ⟨h, h0⟩
    · simp [h, Ty.inv, Ty.recall]
    · simp [h, h0]
  simp only [applyForward, hl, hpush, if_false, htag, hzero, hstash, Bool.false_eq_true]
  exact answer_data hmc ..

/-- A RECALL with keep 1 leaves a writable line read-only (R210). -/
theorem applyForward_shares (htag : l.tag = some .writable) (ht : m.type = Ty.recall) (hkeep : bits m.w[2] 1 0 = 1) :
    applyForward s c m = (setLine s c m.blk (some { l with tag := some .readOnly, written := 0, rel := [] })).post
      (mkMsg s c 0 m.src Ty.wbData 0 m.addr 0 0 0 (some l.data) none) := by
  have hpush : ¬ Ty.recall = Ty.push := by decide
  simp only [applyForward, hl, htag, ht, if_true, hkeep, hpush, if_false]
  exact answer_data hmc ..

/-- A PUSH merges its bytes into a read-only line (R210). -/
theorem applyForward_merges (htag : l.tag = some .readOnly) (ht : m.type = Ty.push) :
    applyForward s c m = (mergePush s c m l).post (mkMsg (mergePush s c m l) c 0 m.src Ty.invAck 0 m.addr 1 0 0 none none) := by
  simp only [applyForward, hl, htag, ht, if_true]
  exact answer_plain hmc _ c true

end

/-- With no PUTP of the block on its way, a core's own bytes are those it has not sent (R189, R210). -/
theorem ownBytes_unsent {s : State} {c blk : Nat} (h : ∀ x ∈ s.net, ¬ (x.src = c ∧ x.type = Ty.putp ∧ x.blk = blk)) (written : BitVec 64) :
    ownBytes s c blk written = written := by
  unfold ownBytes
  generalize s.net = l at h
  induction l generalizing written with
  | nil => rfl
  | cons x l ih =>
    have hx : (x.src = c && x.type = Ty.putp && x.blk = blk) = false := by simpa [and_assoc] using h x List.mem_cons_self
    rw [List.foldl_cons]
    simp only [hx]
    exact ih written fun y hy => h y (List.mem_cons_of_mem _ hy)

/-! ### Writes that a port records (R201, R363) -/

/-- Between two states only records of ports and partitions change, and what they hold back; no line of a core does (R201, R363). -/
structure OnlyTraces (s u : State) : Prop where
  rest : u = { s with procs := u.procs, cores := u.cores, parts := u.parts, deferred := u.deferred, heldAt := u.heldAt }
  line : ∀ c blk, lineOf u c blk = lineOf s c blk

namespace OnlyTraces

theorem trans {s u v : State} (h : OnlyTraces s u) (h' : OnlyTraces u v) : OnlyTraces s v where
  rest := by
    conv_lhs => rw [h'.rest, h.rest]
  line c blk := (h'.line c blk).trans (h.line c blk)

theorem updRing (s : State) (p : Nat) (f : Trace → Trace) : OnlyTraces s (Machine.updRing s p f) where
  rest := by
    unfold Machine.updRing
    split <;> rfl
  line c blk := by
    unfold Machine.updRing
    split
    · rfl
    · by_cases hc : c = p - 77
      · subst hc
        simp [lineOf]
      · simp [lineOf, hc]

theorem tracePortBy (s : State) (p pa len core slot dev : Nat) (part : Option Nat) (gnt : Bool) :
    OnlyTraces s (Machine.tracePortBy s p pa len core slot dev part gnt) := by
  unfold Machine.tracePortBy
  dsimp only
  generalize hs1 : (if ringOn s p = true then _ else s) = s1
  have h1 : OnlyTraces s s1 := by
    rw [← hs1]
    split
    · split
      · exact ⟨rfl, fun _ _ => rfl⟩
      · exact updRing ..
    · exact ⟨rfl, fun _ _ => rfl⟩
  refine h1.trans ?_
  split
  · exact ⟨rfl, fun _ _ => rfl⟩
  · split
    · exact ⟨rfl, fun _ _ => rfl⟩
    · split <;> exact ⟨rfl, fun _ _ => rfl⟩

end OnlyTraces

/-- A PUSH that meets no bytes of the core on their way changes one line, by its bytes that the core has not written itself (R210). -/
theorem mergePush_merges {s : State} {c : Nat} {m : Msg} {l : Line}
    (h : ∀ x ∈ s.net, ¬ (x.src = c ∧ x.type = Ty.putp ∧ x.blk = m.blk)) :
    OnlyTraces (setLine s c m.blk (some { l with data := blkMerge l.data (m.flit.getD l.data) (m.w[2] &&& ~~~l.written) })) (mergePush s c m l) := by
  unfold mergePush
  dsimp only
  rw [ownBytes_unsent h]
  unfold tracePush
  split
  · exact ⟨rfl, fun _ _ => rfl⟩
  · split <;> exact OnlyTraces.tracePortBy ..

/-! ### Forwarded requests (R210) -/

theorem mustHold_unpost {s : State} {c blk : Nat} (h : mustHold s c blk = false) (k : Nat) : mustHold (s.unpost k) c blk = false := by
  have hg : granting (s.unpost k) c blk = true → granting s c blk = true := by
    simp only [granting, List.any_eq_true]
    rintro ⟨x, hx, hgr⟩
    exact ⟨x, List.mem_of_mem_eraseIdx hx, hgr⟩
  unfold mustHold at h ⊢
  rw [Bool.or_eq_false_iff] at h ⊢
  refine ⟨h.1, ?_⟩
  have h2 := h.2
  have hreq : reqFor ((s.unpost k).core c) blk = reqFor (s.core c) blk := rfl
  have htag : tagOf (s.unpost k) c blk = tagOf s c blk := rfl
  rw [hreq, htag]
  cases hq : reqFor (s.core c) blk with
  | none => simp
  | some x =>
    simp only [hq, Bool.and_eq_false_iff, Bool.or_eq_false_iff] at h2 ⊢
    exact h2.imp_right fun h => ⟨h.1, Bool.eq_false_iff.mpr fun hu => Bool.eq_false_iff.mp h.2 (hg hu)⟩

/-- A forwarded request that nothing holds back is applied (R210). -/
theorem forwardEvent_applies {s : State} {k type : Nat} {m : Msg} (hd : s.deliverable k = some m) (hc : m.dst < 0x800) (ht : m.type = type)
    (hold : mustHold s m.dst m.blk = false) (hfirst : ∀ x ∈ (s.core m.dst).held, x.blk ≠ m.blk) (hrel : relPending s m.dst m.blk = false) :
    forwardEvent s k type = .next (applyForward (s.unpost k) m.dst m) := by
  have hany : ((s.core m.dst).held.any fun x => x.blk = m.blk) = false := by simpa using hfirst
  have hfree : holds s m.dst (s.core m.dst).held m = false := by simp [holds, hold, hany, hrel]
  have hrel' : relPending (s.unpost k) m.dst m.blk = false := hrel
  have hfree' : holds (s.unpost k) m.dst ((s.unpost k).core m.dst).held m = false := by
    have hany' : (((s.unpost k).core m.dst).held.any fun x => x.blk = m.blk) = false := hany
    simp [holds, mustHold_unpost hold, hany', hrel']
  simp [forwardEvent, hd, Nat.not_le.mpr hc, ht, hfree, forward, hfree']

/-- The oldest request that a core has held back is applied once nothing holds it (R210). -/
theorem execDeferredRequestApply_applies {s : State} {c : Nat} {x : Msg} {rest : List Msg} (hheld : (s.core c).held = x :: rest)
    (hold : mustHold s c x.blk = false) (hrel : relPending s c x.blk = false) :
    execDeferredRequestApply c 0 s = .next (applyForward (s.setCore c { s.core c with held := rest }) c x) := by
  simp [execDeferredRequestApply, hheld, hold, holds, hrel]

/-- An event that installs a grant ends its request and leaves the line of the block, and the slots suspended on it are in the rotation (R209). -/
theorem exec_installs {i : Instr} {s : State} {k : Nat} {m : Msg} {t : Tag} {data : Option Block} {single : Option (Nat × Nat × Nat)}
    (hi : exec i s = .next (install (s.unpost k) m.dst m.tag m.blk t data single))
    (hroom : (l1Set (s.core m.dst) (m.blk % 64)).length < 8) (hs : (lineBefore s m.dst m.blk).stream = none) :
    ∃ u l, exec i s = .next u ∧ u.net = s.net.eraseIdx k ∧ u.mem = s.mem ∧ (u.core m.dst).reqs = drop m.tag (s.core m.dst).reqs ∧
      lineOf u m.dst m.blk = some l ∧ l.tag = some t ∧ l.data = data.getD (lineBefore s m.dst m.blk).data ∧ l.written = 0 ∧ l.rel = [] ∧
      l.kept = false ∧ l.single = single ∧ l.stash = (lineBefore s m.dst m.blk).stash ∧
      ∀ i va, i < 16 → (s.slot (threadOf m.dst i)).run = .waiting (.line m.blk va) → (u.slot (threadOf m.dst i)).run = .active := by
  obtain ⟨l, hnet, hmem, hreqs, hl, ⟨htag, hdata, hwritten, hrel, hkept, hsingle, hstash⟩, hrun⟩ :=
    install_grants (s := s.unpost k) m.tag t data single hroom hs
  exact ⟨_, l, hi, hnet, hmem, hreqs, hl, htag, hdata, hwritten, hrel, hkept, hsingle, hstash, hrun⟩

/-- A line that keeps the bytes of a read-only one is a line of its core. -/
theorem lineOf_of_kept {s : State} {c blk : Nat} (h : (lineBefore s c blk).kept = true) : lineOf s c blk = some (lineBefore s c blk) := by
  unfold lineBefore at h ⊢
  cases hl : lineOf s c blk with
  | none => simp [hl] at h
  | some l => rfl

/-- Settles O40: each reply from its own rule, and each forwarded request from what the line it meets makes of it. -/
theorem coherenceAtACore : Obligations.CoherenceAtACore := by
  refine ⟨fun s k m r hd hc hr hb => ⟨fun htag => ⟨?_, ?_, ?_, ?_⟩, ?_, ?_, ?_⟩, fun s k m hd hc htag => ⟨?_, ?_⟩, fun s c blk tag r hf hdead hp => ?_,
    fun s c x rest hheld hmc hold hrel hl => ?_, fun s k m hd hc hmc hold hfirst hrel => ⟨?_, ?_, ?_⟩⟩
  · exact fun ht hp => exec_installs (execDataS_grants hd hc hr hb ht htag hp)
  · exact fun ht => exec_installs (execDataX_grants hd hc hr hb ht htag)
  · exact fun ht hkept hg => exec_installs (i := .ack k) (execAck_grants hd hc hr hb ht htag (lineOf_of_kept hkept) hkept hg (.inl rfl))
  · exact fun ht hkept hg => exec_installs (i := .ack k) (execAck_grants hd hc hr hb ht htag (lineOf_of_kept hkept) hkept hg (.inr rfl))
  · exact fun ht => replyEvent_matched hd hc ht hr hb fun s c m r => s.updCore c fun q => { q with reqs := put m.tag { r with busy := true } q.reqs }
  · exact fun ht => replyEvent_matched hd hc ht hr hb fun s c m r =>
      s.updCore c fun q => { q with reqs := put m.tag { r with busy := true, retry := some (s.time + (m.w[2]).toNat) } q.reqs }
  · intro hslot hdead t d n va hrun
    refine ⟨fun ht => ⟨_, execResult_completes hd hc hr hb ht hslot hdead hrun, rfl, rfl, fun v hv => ?_, State.slot_setSlot_self ..⟩,
      fun ht => execFail_traps hd hc hr hb ht hslot hdead hrun⟩
    exact State.slot_setSlot_ne _ hv _
  · exact fun h => execAck_put hd hc h.1 htag h.2
  · exact fun h => execFail_put hd hc h htag
  · obtain ⟨w, hw⟩ := look_of_find hf
    exact ⟨_, _, _, execRetryBackoffExpiry_reposts hf hdead hp, rfl, rfl, rfl, repost_marks hw _, rfl, rfl, rfl, rfl⟩
  · have hcore := State.core_setCore_self s c { s.core c with held := rest }
    have hl' : lineOf (s.setCore c { s.core c with held := rest }) c x.blk = none := by rw [lineOf, hcore]; exact hl
    refine ⟨_, execDeferredRequestApply_applies hheld hold hrel, ?_⟩
    rw [applyForward_absent hmc hl']
    exact ⟨congrArg Core.held hcore, rfl, rfl⟩
  · simp only [List.mem_cons, List.not_mem_nil, or_false]
    intro i hi ht hl
    have hforward : exec i.2 s = forwardEvent s k i.1 := by rcases hi with rfl | rfl | rfl <;> rfl
    refine ⟨_, hforward.trans (forwardEvent_applies hd hc ht hold hfirst hrel), ?_⟩
    rw [applyForward_absent (s := s.unpost k) hmc hl]
    exact ⟨rfl, rfl, rfl, rfl⟩
  · intro l hl hstash htag
    have hyields {i : Instr} (hi : exec i s = .next (applyForward (s.unpost k) m.dst m)) (hkeep : m.type = Ty.inv ∨ m.type = Ty.recall ∧ bits m.w[2] 1 0 = 0) :
        ∃ u, exec i s = .next u ∧ u.net = s.net.eraseIdx k ++ [mkMsg s m.dst 0 m.src Ty.wbData 0 m.addr 0 0 0 (some l.data) none] ∧
          (u.core m.dst).lines = drop m.blk (s.core m.dst).lines := by
      refine ⟨_, hi, ?_⟩
      rw [applyForward_yields (s := s.unpost k) hmc hl hstash htag hkeep]
      exact ⟨rfl, congrArg Core.lines (State.core_setCore_self ..)⟩
    refine ⟨fun ht => hyields (forwardEvent_applies hd hc ht hold hfirst hrel) (.inl ht),
      fun ht hkeep => hyields (forwardEvent_applies hd hc ht hold hfirst hrel) (.inr ⟨ht, hkeep⟩),
      fun ht hkeep => ⟨_, forwardEvent_applies hd hc ht hold hfirst hrel, ?_⟩⟩
    rw [applyForward_shares (s := s.unpost k) hmc hl htag ht hkeep]
    exact ⟨rfl, lineOf_setLine_self ..⟩
  · intro l hl ht htag hput
    have hmerge := mergePush_merges (s := s.unpost k) (m := m) (l := l) fun x hx => hput x (List.mem_of_mem_eraseIdx hx)
    refine ⟨_, forwardEvent_applies hd hc ht hold hfirst hrel, ?_⟩
    rw [applyForward_merges (s := s.unpost k) hmc hl htag ht]
    constructor
    · rw [State.post, hmerge.rest]
      rfl
    · exact (hmerge.line ..).trans (lineOf_setLine_self ..)

end Sys2Proof.Machine
end

section
/-! Requests at the home of a block, answers to it, direct blocks, and the start of a loaded handler (R218, R221, R224, R230 to R234). -/

namespace Sys2Proof.Machine

/-! ### Fields of a directory entry (R219, R238) -/

theorem testBit_bits (x : Word) (hi lo i : Nat) : (bits x hi lo).testBit i = (decide (i < hi + 1 - lo) && x.getLsbD (lo + i)) := by
  rw [bits, fld, Nat.testBit_mod_two_pow, Nat.testBit_div_two_pow, BitVec.testBit_toNat, Nat.add_comm i lo]

/-- A field that is apart from the bits replaced is as it was. -/
theorem bits_setBits_apart (x : Word) {hi lo h l : Nat} (v : Nat) (hlo : lo ≤ hi) (hh : h < 64) (hapart : h < lo ∨ hi < l) :
    bits (setBits x hi lo v) h l = bits x h l := by
  refine Nat.eq_of_testBit_eq fun i => ?_
  rw [testBit_bits, testBit_bits]
  by_cases hi' : i < h + 1 - l
  · rw [getLsbD_setBits x hlo v (by omega), if_neg (by omega)]
  · simp [hi']

/-- A field among the bits replaced by zero is zero. -/
theorem bits_setBits_zero (x : Word) {hi lo h l : Nat} (hh : h < 64) (hl : lo ≤ l) (hin : l ≤ h) (hle : h ≤ hi) : bits (setBits x hi lo 0) h l = 0 := by
  refine Nat.eq_of_testBit_eq fun i => ?_
  rw [testBit_bits, Nat.zero_testBit]
  by_cases hi' : i < h + 1 - l
  · rw [getLsbD_setBits x (by omega) 0 (by omega), if_pos (by omega), Nat.zero_testBit, Bool.and_false]
  · simp [hi']

@[simp] theorem deClear_deClear (e : De) : deClear (deClear e) = deClear e := by
  refine congrArg (Prod.mk 0) (BitVec.eq_of_getLsbD_eq fun i hi => ?_)
  simp only [deClear, getLsbD_setBits _ (Nat.le_refl 49) 0 hi, getLsbD_setBits _ (show 52 ≤ 55 by decide) 0 hi]
  split
  · rfl
  · split <;> rfl

@[simp] theorem deShared_deClear (e : De) : deShared (deClear e) = false := by
  have hcv : deCv (deClear e) = false := by
    simp only [deCv, deClear, bitOf, getLsbD_setBits _ (Nat.le_refl 49) 0 (show 55 < 64 by decide),
      getLsbD_setBits _ (show 52 ≤ 55 by decide) 0 (show 55 < 64 by decide)]
    rfl
  have hnp : deNp (deClear e) = 0 := by
    rw [deNp, deClear, bits_setBits_apart _ 0 (by decide) (by decide) (.inr (by decide)), bits_setBits_zero _ (by decide) (by decide) (by decide) (by decide)]
  simp [deShared, hcv, hnp]

@[simp] theorem deKind_deClear (e : De) : deKind (deClear e) = deKind e := by
  rw [deKind, deKind, deClear, bits_setBits_apart _ 0 (by decide) (by decide) (.inl (by decide)),
    bits_setBits_apart _ 0 (by decide) (by decide) (.inl (by decide))]

/-! ### What a home does by itself, and what it sends -/

/-- A home with nothing of its own in progress is at rest (R391, R400, R404). -/
theorem settleHome_quiet {s : State} (h : HomesQuiet s) : settleHome s = s := by
  obtain ⟨ht, ho, hf⟩ := h
  simp [settleHome, ht, ho, hf]

/-- A reply adds to the messages, and to nothing else. -/
theorem replyTo_rest (s : State) (p : Nat) (m : Msg) (type : Nat) (w2 : Word) (flit : Option Block) :
    replyTo s p m type w2 flit = { s with net := (replyTo s p m type w2 flit).net } := by
  unfold replyTo replyReq sendTo
  dsimp only
  split <;> rfl

/-- What a reply makes of the messages rests on them and on the number of the device. -/
theorem replyTo_net {s t : State} (hn : t.net = s.net) (hd : t.devNum = s.devNum) (p : Nat) (m : Msg) (type : Nat) (w2 : Word) (flit : Option Block) :
    (replyTo t p m type w2 flit).net = (replyTo s p m type w2 flit).net := by
  simp only [replyTo, replyReq, sendTo, hd]
  split
  · simp only [State.post, hn]
  · exact hn

theorem setEntry_mem_congr {s t : State} (h : t.mem = s.mem) (ea : Nat) (e : De) : (t.setEntry ea e).mem = (s.setEntry ea e).mem := by
  simp only [State.setEntry, State.updMem_mem, h]

theorem Leaves.congr {u m n m' n' : State} {ea : Nat} {e : De} (h : Leaves u m n ea e) (hm : m.mem = m'.mem) (hn : n.net = n'.net) :
    Leaves u m' n' ea e := ⟨h.1.trans (setEntry_mem_congr hm ea e), h.2.trans hn⟩

/-- A port that nothing watches records nothing (R201, R363). -/
theorem tracePort_unwatched {s : State} {p : Nat} (h : Unwatched s p) (pa len core slot : Nat) (gnt : Bool) : tracePort s p pa len core slot gnt = s := by
  obtain ⟨hring, hreplay⟩ := h
  unfold tracePort tracePortBy
  simp only [hring, Bool.false_eq_true, if_false]
  cases hp : s.partOf core with
  | none => rfl
  | some k => simp [hreplay core k hp]

/-! ### Grants (R233) -/

/-- Where no PUSH is on its way, a core that is given a block changes nothing but what has seen which writes, and what it has held back (R189, R194). -/
theorem givenBlock_rest {s : State} (h : ∀ x ∈ s.net, x.type ≠ Ty.push) (c blk : Nat) :
    givenBlock s c blk = { s with cores := (givenBlock s c blk).cores, mcasts := (givenBlock s c blk).mcasts } := by
  have hnet : (s.net.map fun m =>
      if m.dst = c && m.type = Ty.push && m.blk = blk then { m with w := m.w.set 2 (m.w[2] &&& ~~~BitVec.allOnes 64) } else m) = s.net := by
    refine (List.map_congr_left fun m hm => ?_).trans (List.map_id _)
    simp [h m hm]
  unfold givenBlock maskPushes
  simp only [hnet]
  split <;> rfl

theorem givenBlock_cores {s : State} {c : Nat} (h : (s.core c).held = []) (blk : Nat) : (givenBlock s c blk).cores = s.cores := by
  have hheld (l : List Msg) : (({ s with net := l } : State).core c).held = [] := h
  simp [givenBlock, maskPushes, hheld]

section
variable {s : State} {j : Job} {m : Msg} (hpush : ∀ x ∈ s.net, x.type ≠ Ty.push)
include hpush

theorem replyTo_givenBlock (c blk p type : Nat) (w2 : Word) (flit : Option Block) : let u := replyTo (givenBlock s c blk) p m type w2 flit
    u = { s with net := (replyTo s p m type w2 flit).net, cores := (givenBlock s c blk).cores, mcasts := (givenBlock s c blk).mcasts } := by
  have hg := givenBlock_rest hpush c blk
  have hn : (givenBlock s c blk).net = s.net := by rw [hg]
  have hd : (givenBlock s c blk).devNum = s.devNum := by rw [hg]
  have hnet : (replyTo (givenBlock s c blk) p m type w2 flit).net = (replyTo s p m type w2 flit).net := replyTo_net hn hd ..
  dsimp only
  rw [replyTo_rest, hnet]
  conv_lhs => rw [hg]

/-- A read-only grant brings the block's data (R233). -/
theorem grantS_eq : grantS s j m = { s with
    net := (replyTo s j.p m Ty.dataS 0 (some (s.mem.block (m.blk * 64)))).net
    cores := (givenBlock s (m.src % 2 ^ 12) m.blk).cores, mcasts := (givenBlock s (m.src % 2 ^ 12) m.blk).mcasts } :=
  replyTo_givenBlock hpush ..

/-- A writable grant with data, at a port that nothing watches (R201, R233). -/
theorem grantX_eq (hw : Unwatched s j.p) : grantX s j m true = { s with
    net := (replyTo s j.p m Ty.dataX 0 (some (s.mem.block (m.blk * 64)))).net
    cores := (givenBlock s (m.src % 2 ^ 12) m.blk).cores, mcasts := (givenBlock s (m.src % 2 ^ 12) m.blk).mcasts } := by
  unfold grantX
  simp only [tracePort_unwatched hw, if_true]
  exact replyTo_givenBlock hpush ..

end

theorem dirtyFrame_none {s : State} (h : s.frames = []) (pa : Nat) : dirtyFrame s pa = s := by simp [dirtyFrame, h, look]

/-- An atomic at a port that nothing watches acts on memory, and its result is sent (R176, R233). -/
theorem applyAtom_unwatched {s : State} {p : Nat} {m : Msg} (hp : poisonedBlk s m.blk = false) (hf : s.frames = []) (hw : Unwatched s p) :
    let x := atomMem s.mem m.addr m.w[2].toNat m.w[3] m.w[4]
    applyAtom s p m = replyTo { s with mem := x.2 } p m Ty.result (BitVec.ofNat 64 x.1) none := by
  have hw' (mem : Memory) : Unwatched { s with mem := mem } p := hw
  have hf' (mem : Memory) : ({ s with mem := mem } : State).frames = [] := hf
  simp [applyAtom, hp, tracePort_unwatched (hw' _), dirtyFrame_none (hf' _)]

/-! ### The handler of an invalidate region (R233) -/

section
variable {s : State} {j : Job}

theorem grantFree_read {m : Msg} (ht : m.type ≠ Ty.atom) {read : Bool} (hread : read = true) (e : De) (listed : Bool) :
    grantFree s j e m read listed = (deState (deAdd e (m.src % 2 ^ 12)) 1 false, grantS s j m) := by
  simp [grantFree, ht, hread]

theorem grantFree_write {m : Msg} (ht : m.type = Ty.getx ∨ m.type = Ty.upg) {read : Bool} (hread : read = false) (e : De) :
    grantFree s j e m read false = (deState (deSetOwn (deClear e) (some (m.src % 2 ^ 12))) 2 false, grantX s j m true) := by
  have hatom : m.type ≠ Ty.atom := by rcases ht with h | h <;> rw [h] <;> decide
  simp [grantFree, hatom, hread]

theorem grantFree_atom (hline : hostLine j.pa = false) {m : Msg} (ht : m.type = Ty.atom) (e : De) :
    grantFree s j e m false false = (deState e (if deShared e then 1 else 0) false, applyAtom s j.p m) := by
  simp [grantFree, ht, evictHost, hline]

section
variable (he : Unheld (s.entry j.ea))
include he

/-- A read of a block that nobody holds is granted at once (R233). -/
theorem stdHandler_shares (hline : hostLine j.pa = false) (ht : j.m.type = Ty.gets) :
    stdHandler false false s j = .ok (deState (deAdd (s.entry j.ea) j.who) 1 false) (grantS s j j.m) := by
  obtain ⟨hst, hov, hsh⟩ := he
  have hfree := grantFree_read (s := s) (j := j) (m := j.m) (by rw [ht]; decide) rfl (s.entry j.ea) false
  simp only [Ty.gets] at ht
  simp [stdHandler, ht, hst, hov, hline, hfree, Ty.gets, Ty.putx, Ty.puts, Job.who]

/-- A request to write a block that nobody holds is granted at once (R233). -/
theorem stdHandler_owns (hline : hostLine j.pa = false) (ht : j.m.type = Ty.getx ∨ j.m.type = Ty.upg) :
    stdHandler false false s j = .ok (deState (deSetOwn (deClear (s.entry j.ea)) (some j.who)) 2 false) (grantX s j j.m true) := by
  obtain ⟨hst, hov, hsh⟩ := he
  have hfree := grantFree_write (s := s) (j := j) ht rfl (deClear (s.entry j.ea))
  rw [deClear_deClear] at hfree
  rcases ht with ht | ht <;>
    simp [stdHandler, ht, hst, hov, hline, hfree, Ty.gets, Ty.getx, Ty.upg, Ty.atom, Ty.putx, Ty.puts, Job.who]

/-- An atomic on a block that nobody holds is performed at once (R176, R233). -/
theorem stdHandler_performs (hline : hostLine j.pa = false) (ht : j.m.type = Ty.atom) :
    stdHandler false false s j = .ok (deState (deClear (s.entry j.ea)) 0 false) (applyAtom s j.p j.m) := by
  obtain ⟨hst, hov, hsh⟩ := he
  have hfree := grantFree_atom (s := s) hline ht (deClear (s.entry j.ea))
  simp [stdHandler, ht, hst, hov, hline, hfree, Ty.gets, Ty.getx, Ty.upg, Ty.atom, Ty.putx, Ty.puts]

/-- Answers and puts of a block that nobody holds change nothing (R233). -/
theorem stdHandler_stale (ht : j.m.type = Ty.putx ∨ j.m.type = Ty.puts ∨ j.m.type = Ty.wbData ∨ j.m.type = Ty.invAck) :
    stdHandler false false s j = .ok (s.entry j.ea) s := by
  obtain ⟨hst, hov, hsh⟩ := he
  rcases ht with ht | ht | ht | ht <;>
    simp [stdHandler, ht, hst, hov, Ty.gets, Ty.getx, Ty.upg, Ty.atom, Ty.putx, Ty.puts, Ty.wbData, Ty.invAck]

end

/-- A read of a block that another core holds writable recalls it (R233). -/
theorem stdHandler_recalls (hst : deSt (s.entry j.ea) = 2) (howner : deOwn (s.entry j.ea) ≠ j.who) (ht : j.m.type = Ty.gets) :
    stdHandler false false s j = .ok (deState (dePending (s.entry j.ea) 0 j.m.requester) 4 true)
      (recallTo (setPend s j (some j.m)) j.p (deOwn (s.entry j.ea)) j.pa 1) := by
  simp [stdHandler, ht, hst, howner, Ty.gets, Ty.getx, Ty.upg, Ty.atom, Ty.putx, Ty.puts, bit]

theorem putBlock_eq (hf : s.frames = []) : putBlock s j = s.updMem fun m => m.wrBlock j.pa (j.m.flit.getD 0) := dirtyFrame_none (by exact hf) _

/-- The owner's PUTX brings the block back (R233). -/
theorem stdHandler_takesBack (hline : hostLine j.pa = false) (hf : s.frames = []) (hst : deSt (s.entry j.ea) = 2) (hov : deOv (s.entry j.ea) = true)
    (howner : deOwn (s.entry j.ea) = j.who) (ht : j.m.type = Ty.putx) (hkeep : j.m.w[2].getLsbD 0 = false) :
    stdHandler false false s j = .ok (deState (deSetOwn (s.entry j.ea) none) 0 false) (s.updMem fun m => m.wrBlock j.pa (j.m.flit.getD 0)) := by
  have hkeep' : bitOf j.m.w[2] 0 = false := hkeep
  simp [stdHandler, ht, hst, hov, howner, putBlock_eq hf, hkeep', evictHost, hline]

/-- Once the copies of a block are back, the request that waited is granted (R233). -/
theorem finishPending_grants (hline : hostLine j.pa = false) (htakes : s.takes = []) {q : Msg} (hq : pendOf s j = some q) {e x : De} {t : State}
    {kept : Option Nat} {wasExc : Bool}
    (hgrant : grantFree (setPend s j none) j (dePending (deSetOwn (deClear e) none) 0 0) q (deKind e = 0) false = (x, t)) :
    finishPending s j e kept wasExc false = (kept.elim x (deAdd x), t) := by
  have htell (b : Bool) : tellSnoop (setPend s j none) j.pa b = setPend s j none := by
    simp [tellSnoop, waitingSnoop, setPend, htakes]
  cases kept <;> simp [finishPending, hq, hline, htell, hgrant]

/-- The owner's data ends the request that waited for it (R233). -/
theorem stdHandler_finishes (hst : deSt (s.entry j.ea) = 4) (ht : j.m.type = Ty.wbData) {e : De} {t : State}
    (hfinish : finishPending (putBlock s j) j (s.entry j.ea) (if deKind (s.entry j.ea) = 0 then some (deOwn (s.entry j.ea)) else none) true false
      = (e, t)) :
    stdHandler false false s j = .ok e t := by
  simp [stdHandler, ht, hst, hfinish, Ty.gets, Ty.getx, Ty.upg, Ty.atom, Ty.putx, Ty.puts, Ty.wbData]

/-- With the owner's data the read that waited is granted, and the owner keeps a read-only copy (R233). -/
theorem stdHandler_writtenBack (hline : hostLine j.pa = false) {v : State} (hput : putBlock s j = v) (htakes : v.takes = []) {q : Msg}
    (hq : pendOf v j = some q) (hqt : q.type = Ty.gets) (hst : deSt (s.entry j.ea) = 4) (hkind : deKind (s.entry j.ea) = 0)
    (ht : j.m.type = Ty.wbData) :
    stdHandler false false s j = .ok
      (deAdd (deState (deAdd (dePending (deSetOwn (deClear (s.entry j.ea)) none) 0 0) (q.src % 2 ^ 12)) 1 false) (deOwn (s.entry j.ea)))
      (grantS (setPend v j none) j q) := by
  have hfinish := finishPending_grants (kept := some (deOwn (s.entry j.ea))) (wasExc := true) hline htakes hq
    (grantFree_read (by rw [hqt]; decide) (decide_eq_true hkind) ..)
  rw [Option.elim_some] at hfinish
  exact stdHandler_finishes hst ht (by rw [if_pos hkind, hput, hfinish])

/-- With the sharers' acknowledgement the write that waited is granted (R233). -/
theorem stdHandler_acknowledged (hline : hostLine j.pa = false) (htakes : s.takes = []) {q : Msg} (hq : pendOf s j = some q)
    (hqt : q.type = Ty.getx) (hst : deSt (s.entry j.ea) = 3) (hkind : deKind (s.entry j.ea) ≠ 0) (ht : j.m.type = Ty.invAck) :
    stdHandler false false s j = .ok
      (deState (deSetOwn (deClear (dePending (deSetOwn (deClear (deClear (s.entry j.ea))) none) 0 0)) (some (q.src % 2 ^ 12))) 2 false)
      (grantX (setPend s j none) j q true) := by
  have hkind' : deKind (deClear (s.entry j.ea)) ≠ 0 := by rwa [deKind_deClear]
  have hfinish := finishPending_grants (kept := none) (wasExc := false) hline htakes hq (grantFree_write (.inl hqt) (decide_eq_false hkind') _)
  simp [stdHandler, ht, hst, hfinish, Ty.gets, Ty.getx, Ty.upg, Ty.atom, Ty.putx, Ty.puts, Ty.wbData, Ty.invAck]

end

/-! ### A message reaches its home (R221, R231, R232) -/

theorem wakeWaiters_none {s : State} {p : Nat} (h : (s.proc p).waiters = []) (n ea : Nat) : wakeWaiters n s p ea = s := by
  cases n <;> simp [wakeWaiters, h]

/-- The watchdog of an entry is all that its watching changes (R230). -/
theorem watch_rest (s : State) (p ea : Nat) (rg : BitVec 256) : watch s p ea rg = { s with procs := (watch s p ea rg).procs } := rfl

theorem proc_watch (s : State) (p ea : Nat) (rg : BitVec 256) : ∃ l, (watch s p ea rg).proc p = { s.proc p with since := l } :=
  ⟨_, State.proc_updProc_self ..⟩

/-- The acknowledgement of a put is a reply, and no other message has one (R232). -/
theorem hendAck_rest (s : State) (j : Job) : hendAck s j = { s with net := (hendAck s j).net } := by
  unfold hendAck
  dsimp only
  split
  · exact replyTo_rest ..
  · rfl

theorem hendAck_put {s : State} {j : Job} (h : j.m.type = Ty.putx ∨ j.m.type = Ty.puts) : hendAck s j = replyTo s j.p j.m Ty.ack 0 none := by
  unfold hendAck
  rcases h with h | h <;> simp [h, Ty.putx, Ty.puts]

theorem hendAck_other {s : State} {j : Job} (h : j.m.type ≠ Ty.putx ∧ j.m.type ≠ Ty.puts ∧ j.m.type ≠ Ty.putp) : hendAck s j = s := by
  simp [hendAck, h]

theorem hendAck_net {s t : State} (hn : t.net = s.net) (hd : t.devNum = s.devNum) (hp : t.procs = s.procs) (j : Job) :
    (hendAck t j).net = (hendAck s j).net := by
  have hproc : t.proc j.p = s.proc j.p := by rw [State.proc, State.proc, hp]
  simp only [hendAck, hproc]
  split
  · exact replyTo_net hn hd ..
  · exact hn

section
variable {s : State} {k p idx : Nat} {rg : BitVec 256} {m : Msg}

/-- A message that its home takes is over, where the home has nothing of its own in progress after it. -/
theorem homeEvent_takes (hr : ReachesHome s k p m) {f : Msg → Bool} (hf : f m = true) {t : State}
    (ht : homeMessage (s.unpost k) p { m with arrived := 0 } = some t) (hq : HomesQuiet t) : homeEvent s k f = .next t := by
  obtain ⟨hd, hdst, hmc⟩ := hr
  have hp : m.dst - 0x800 = p := by omega
  have hlow : ¬ m.dst < 0x800 := by omega
  have hfirst : behindData s m = false := by simp [behindData, hmc]
  simp [homeEvent, hd, hlow, hf, hfirst, hp, ht, settleHome_quiet hq]

theorem takeOf_none {s : State} (h : s.takes = []) (m : Msg) : takeOf s m = none := by
  cases hm : m.mc <;> simp [takeOf, hm, h]

theorem snoopedPage_none {s : State} (h : s.hostOps = []) (m : Msg) : snoopedPage s m = none := by simp [snoopedPage, h]

theorem gate_passes {s : State} {p : Nat} (ht : s.takes = []) (h8 : rgProto rg ≠ 8) (hp : p ≠ 72) (m : Msg) : gate s rg p m = .pass := by
  simp [gate, ht, h8, hp]

theorem handling_none {s : State} {p : Nat} (h : ∀ i, i < 16 → (s.slot (threadOf (0x800 + p) i)).handler = none) (ea : Nat) :
    handling s p ea = false := by
  rw [handling, Bool.not_eq_false', List.isEmpty_iff, State.slotsWhere, List.filter_eq_nil_iff]
  simp only [List.mem_map, List.mem_range]
  rintro t ⟨i, hi, rfl⟩
  simp [procAgent, h i hi]

end

/-- Nothing stands between a message and its region's handlers but the state of its block's entry: no region that fails, no gate, no replica agent, no
handler under way and no waiter (R221, R231, R256). -/
structure MeetsItsEntry (s : State) (p idx : Nat) (rg : BitVec 256) (m : Msg) : Prop where
  takes : s.takes = []
  hostOps : s.hostOps = []
  region : s.regionOf m.addr = some (idx, rg)
  fail : rgFail rg = false
  proto : rgProto rg ≠ 0 ∧ rgProto rg ≠ 7 ∧ rgProto rg ≠ 8
  proc : p < 48
  waiters : (s.proc p).waiters = []
  handlers : ∀ i, i < 16 → (s.slot (threadOf (0x800 + p) i)).handler = none

/-- The job of a message at the home of its block. -/
def Msg.jobAt (m : Msg) (p idx : Nat) (rg : BitVec 256) : Job := ⟨p, idx, rg, { m with arrived := 0 }, entryAddr rg m.addr⟩

namespace MeetsItsEntry

variable {s : State} {p idx : Nat} {rg : BitVec 256} {m : Msg} (h : MeetsItsEntry s p idx rg m)
include h

/-- The message meets the entry of its block (R231, R232). -/
theorem homeMessage_eq : let ea := entryAddr rg m.addr
    homeMessage s p m = if queues m && deTr (s.entry ea) then
        some (watch (replyTo (s.updProc p fun q => { q with waiters := q.waiters ++ [m] }) p m Ty.busy 0 none) p ea rg)
      else if !m.lane && 16 ≤ rgProto rg && repliesFirst s p then none
      else (dispatch s ⟨p, idx, rg, m, ea⟩).map fun t => if rgProto rg < 16 then watch (wakeWaiters 9 t p ea) p ea rg else t := by
  obtain ⟨htakes, hops, hregion, hfail, ⟨h0, h7, h8⟩, hp, hwaiters, hhandlers⟩ := h
  have hhandling : handling s p (entryAddr rg m.addr) = false := handling_none hhandlers _
  have hhas : hasWaiters s p (entryAddr rg m.addr) = false := by simp [hasWaiters, hwaiters]
  have hready : waiterReady s p (entryAddr rg m.addr) = false := by simp [waiterReady, hwaiters]
  have hcount : waitersOf s p (entryAddr rg m.addr) = 0 := by simp [waitersOf, hwaiters]
  have hgate := gate_passes htakes h8 (show p ≠ 72 by omega) m
  have hhold : (Gate.pass == Gate.hold) = false := rfl
  unfold homeMessage
  rw [takeOf_none htakes, snoopedPage_none hops, hregion]
  simp only [h0, h7, hfail, hgate, hhold, hhandling, hhas, hready, hcount, hwaiters, Bool.or_false, if_false, decide_false, Bool.false_and, Bool.false_eq_true]
  by_cases hq : (queues m && deTr (s.entry (entryAddr rg m.addr))) = true <;> simp [hq]

end MeetsItsEntry

theorem runStandard_invalidate {s t : State} {j : Job} {e : De} (h : rgProto j.rg = 1) (hstd : stdHandler false false s j = .ok e t) :
    runStandard s j = hendAck (t.setEntry j.ea e) j := by simp [runStandard, h, hstd]

section
variable {s : State} {k p idx : Nat} {rg : BitVec 256} {m : Msg} (ho : OpenAtItsHome s k p idx rg m)
include ho

theorem OpenAtItsHome.meets (hproto : rgProto rg ≠ 0 ∧ rgProto rg ≠ 7 ∧ rgProto rg ≠ 8) :
    MeetsItsEntry (s.unpost k) p idx rg { m with arrived := 0 } := by
  obtain ⟨-, ⟨htakes, hops, -⟩, hregion, hfail, -, hp, hwaiters, hhandlers, -⟩ := ho
  exact ⟨htakes, hops, hregion, hfail, hproto, hp, hwaiters, hhandlers⟩

/-- What the handler of an invalidate region makes of a message is what becomes of it: the entry is written, a put is acknowledged, and the messages
that the handler sends are posted (R231 to R233). -/
theorem homeEvent_standard (h1 : rgProto rg = 1) (hfree : queues m = true → deTr (s.entry (entryAddr rg m.addr)) = false) {f : Msg → Bool}
    (hf : f m = true) {e : De} {t : State} (hstd : stdHandler false false (s.unpost k) (m.jobAt p idx rg) = .ok e t) (hq : HomesQuiet t)
    (hw : (t.proc p).waiters = []) :
    ∃ u, homeEvent s k f = .next u ∧ Leaves u t (hendAck t (m.jobAt p idx rg)) (entryAddr rg m.addr) e ∧ u.slots = t.slots ∧ u.cores = t.cores ∧
      (u.proc p).pend = (t.proc p).pend := by
  have hmeets := ho.meets (by omega)
  have hqueue : ¬ (queues { m with arrived := 0 } && deTr ((s.unpost k).entry (entryAddr rg m.addr))) = true := by
    rw [Bool.and_eq_true]
    rintro ⟨hqm, htr⟩
    exact Bool.false_ne_true ((hfree hqm).symm.trans htr)
  have hproto : ¬ 16 ≤ rgProto rg := by omega
  let v := hendAck (t.setEntry (entryAddr rg m.addr) e) (m.jobAt p idx rg)
  have hv : v = { t.setEntry (entryAddr rg m.addr) e with net := v.net } := hendAck_rest ..
  have hrun : runStandard (s.unpost k) (m.jobAt p idx rg) = v := runStandard_invalidate h1 hstd
  have hwaiters : (v.proc p).waiters = [] := by rw [hv]; exact hw
  have hlt : rgProto rg < 16 := by omega
  have hdispatch : dispatch (s.unpost k) (m.jobAt p idx rg) = some v := by
    rw [← hrun]
    exact if_pos hlt
  have hmessage : homeMessage (s.unpost k) p { m with arrived := 0 } = some (watch v p (entryAddr rg m.addr) rg) := by
    refine hmeets.homeMessage_eq.trans ((if_neg hqueue).trans ((if_neg (by simp [hproto])).trans ?_))
    exact (congrArg _ hdispatch).trans (congrArg some ((if_pos hlt).trans (by rw [wakeWaiters_none hwaiters]; rfl)))
  obtain ⟨l, hl⟩ := proc_watch v p (entryAddr rg m.addr) rg
  refine ⟨_, homeEvent_takes ho.1 hf hmessage ?_, ⟨?_, ?_⟩, ?_, ?_, ?_⟩
  · rw [watch_rest, hv]
    exact hq
  · rw [watch_rest, hv]
  · rw [watch_rest]
    change v.net = _
    exact hendAck_net (s := t) (t := t.setEntry (entryAddr rg m.addr) e) rfl rfl rfl _
  · rw [watch_rest, hv]
    rfl
  · rw [watch_rest, hv]
    rfl
  · rw [hl, hv]
    rfl

end

/-! ### Requests of an invalidate region (R233) -/

theorem hostLine_of_place {pa : Nat} (h : place pa ≠ .host) : hostLine pa = false := by simpa [hostLine] using h

section
variable {s : State} {k p idx : Nat} {rg : BitVec 256} {m : Msg}

theorem OpenAtItsHome.quiet (ho : OpenAtItsHome s k p idx rg m) : HomesQuiet (s.unpost k) := ho.2.1

theorem OpenAtItsHome.noWaiters (ho : OpenAtItsHome s k p idx rg m) : ((s.unpost k).proc p).waiters = [] := by
  obtain ⟨-, -, -, -, -, -, hwaiters, -⟩ := ho
  exact hwaiters

theorem OpenAtItsHome.unwatched (ho : OpenAtItsHome s k p idx rg m) : Unwatched (s.unpost k) p := by
  obtain ⟨-, -, -, -, -, -, -, -, hunwatched⟩ := ho
  exact hunwatched

theorem OpenAtItsHome.proc_lt (ho : OpenAtItsHome s k p idx rg m) : p < 48 := by
  obtain ⟨-, -, -, -, -, hp, -⟩ := ho
  exact hp

/-- What a handler that changes no core and no slot leaves of a message (R231 to R233). -/
theorem homeEvent_leaves (ho : OpenAtItsHome s k p idx rg m) (h1 : rgProto rg = 1) (hfree : deTr (s.entry (entryAddr rg m.addr)) = false) {f : Msg → Bool}
    (hf : f m = true) {e : De} {t m' n' : State} (hstd : stdHandler false false (s.unpost k) (m.jobAt p idx rg) = .ok e t)
    (hq : HomesQuiet t) (hw : (t.proc p).waiters = []) (hslots : t.slots = s.slots) (hcores : t.cores = s.cores)
    (hm : t.mem = m'.mem) (hn : (hendAck t (m.jobAt p idx rg)).net = n'.net) :
    ∃ u, homeEvent s k f = .next u ∧ Leaves u m' n' (entryAddr rg m.addr) e ∧ u.slots = s.slots ∧ u.cores = s.cores := by
  obtain ⟨u, hu, hl, hsl, hc, -⟩ := homeEvent_standard ho h1 (fun _ => hfree) hf hstd hq hw
  exact ⟨u, hu, hl.congr hm hn, hsl.trans hslots, hc.trans hcores⟩

end

theorem noPut_of_answer {m : Msg} (ht : m.type = Ty.wbData ∨ m.type = Ty.invAck) : m.type ≠ Ty.putx ∧ m.type ≠ Ty.puts ∧ m.type ≠ Ty.putp := by
  rcases ht with h | h <;> rw [h] <;> decide

section
variable {s : State} {k p idx : Nat} {rg : BitVec 256} {m : Msg} (ho : OpenAtItsHome s k p idx rg m) (h1 : rgProto rg = 1)
  (hfree : deTr (s.entry (entryAddr rg m.addr)) = false) {f : Msg → Bool} (hf : f m = true)
include ho h1 hfree hf

/-- A put of a block that nobody holds is acknowledged, and changes nothing (R232, R233). -/
theorem homeEvent_stalePut (he : Unheld (s.entry (entryAddr rg m.addr))) (ht : m.type = Ty.putx ∨ m.type = Ty.puts) :
    ∃ u, homeEvent s k f = .next u ∧ Leaves u s (replyTo (s.unpost k) p m Ty.ack 0 none) (entryAddr rg m.addr) (s.entry (entryAddr rg m.addr)) ∧
      u.slots = s.slots ∧ u.cores = s.cores :=
  homeEvent_leaves ho h1 hfree hf (stdHandler_stale (s := s.unpost k) (j := m.jobAt p idx rg) he (by tauto)) ho.quiet ho.noWaiters rfl rfl rfl
    (congrArg State.net (hendAck_put (j := m.jobAt p idx rg) ht))

/-- An answer that nothing waits for changes nothing (R233). -/
theorem homeEvent_staleAnswer (he : Unheld (s.entry (entryAddr rg m.addr))) (ht : m.type = Ty.wbData ∨ m.type = Ty.invAck) :
    ∃ u, homeEvent s k f = .next u ∧ Leaves u s (s.unpost k) (entryAddr rg m.addr) (s.entry (entryAddr rg m.addr)) ∧
      u.slots = s.slots ∧ u.cores = s.cores :=
  homeEvent_leaves ho h1 hfree hf (stdHandler_stale (s := s.unpost k) (j := m.jobAt p idx rg) he (by tauto)) ho.quiet ho.noWaiters rfl rfl rfl
    (congrArg State.net (hendAck_other (j := m.jobAt p idx rg) (noPut_of_answer ht)))

end

theorem noPut_of_request {m : Msg} (ht : m.type = Ty.gets ∨ m.type = Ty.getx ∨ m.type = Ty.upg ∨ m.type = Ty.atom) :
    m.type ≠ Ty.putx ∧ m.type ≠ Ty.puts ∧ m.type ≠ Ty.putp := by
  rcases ht with h | h | h | h <;> rw [h] <;> decide

theorem forwardWords_congr {s t : State} (h : t.devNum = s.devNum) (p type addr : Nat) (w2 : Word) :
    forwardWords t p type addr w2 = forwardWords s p type addr w2 :=
  congrArg (fun d => #v[header type (replyLane type) 0 (procAgent p) d 0 0 0, BitVec.ofNat 64 (addr / 64 * 64), w2, 0, 0, 0, 0, 0]) h

/-- What waits at an entry is the processor's (R231). -/
theorem setPend_rest (s : State) (j : Job) (m : Option Msg) : setPend s j m = { s with procs := (setPend s j m).procs } := rfl

theorem proc_setPend (s : State) (j : Job) (m : Option Msg) : ∃ l, (setPend s j m).proc j.p = { s.proc j.p with pend := l } :=
  ⟨_, State.proc_updProc_self ..⟩

theorem waiters_setPend (s : State) (j : Job) (m : Option Msg) : ((setPend s j m).proc j.p).waiters = (s.proc j.p).waiters := by
  obtain ⟨l, hl⟩ := proc_setPend s j m
  rw [hl]

theorem pend_setPend_none (s : State) (j : Job) : ((setPend s j none).proc j.p).pend = drop j.ea (s.proc j.p).pend :=
  congrArg Proc.pend (State.proc_updProc_self ..)

theorem noPush_unpost {s : State} (h : ∀ x ∈ s.net, x.type ≠ Ty.push) (k : Nat) : ∀ x ∈ (s.unpost k).net, x.type ≠ Ty.push :=
  fun x hx => h x (List.mem_of_mem_eraseIdx hx)

/-- What a handler that only sends a grant leaves of a message: the grant, and what the cores have seen of which writes (R189, R194, R233). -/
theorem homeEvent_granted {s : State} {k p idx : Nat} {rg : BitVec 256} {m : Msg} (ho : OpenAtItsHome s k p idx rg m) (h1 : rgProto rg = 1)
    (hfree : queues m = true → deTr (s.entry (entryAddr rg m.addr)) = false) {f : Msg → Bool} (hf : f m = true) {e : De} {t v : State}
    (hstd : stdHandler false false (s.unpost k) (m.jobAt p idx rg) = .ok e t) {net : List Msg} {cores : List (Nat × Core)} {mcasts : List (Nat × Mcast)}
    (ht : t = { v with net := net, cores := cores, mcasts := mcasts }) (hq : HomesQuiet v) (hw : (v.proc p).waiters = [])
    (hput : m.type ≠ Ty.putx ∧ m.type ≠ Ty.puts ∧ m.type ≠ Ty.putp) :
    ∃ u, homeEvent s k f = .next u ∧ u.mem = (v.setEntry (entryAddr rg m.addr) e).mem ∧ u.net = net ∧ u.slots = v.slots ∧ u.cores = cores ∧
      (u.proc p).pend = (v.proc p).pend := by
  have hquiet : HomesQuiet t := by rw [ht]; exact hq
  have hwaiters : (t.proc p).waiters = [] := by rw [ht]; exact hw
  obtain ⟨u, hu, ⟨hmem, hnet⟩, hslots, hcores, hpend⟩ := homeEvent_standard ho h1 hfree hf hstd hquiet hwaiters
  rw [hendAck_other (j := m.jobAt p idx rg) hput] at hnet
  rw [ht] at hmem hnet hslots hcores hpend
  exact ⟨u, hu, hmem, hnet, hslots, hcores, hpend⟩

section
variable {s : State} {k p idx : Nat} {rg : BitVec 256} {m : Msg} (ho : OpenAtItsHome s k p idx rg m) (h1 : rgProto rg = 1)
  (hfree : deTr (s.entry (entryAddr rg m.addr)) = false) {f : Msg → Bool} (hf : f m = true)
include ho h1 hfree hf

/-- A read of a block that another core holds writable recalls it (R233). -/
theorem homeEvent_recalls (hst : deSt (s.entry (entryAddr rg m.addr)) = 2) (howner : deOwn (s.entry (entryAddr rg m.addr)) ≠ m.src % 2 ^ 12)
    (hcore : deOwn (s.entry (entryAddr rg m.addr)) < 0x800) (ht : m.type = Ty.gets) :
    ∃ u, homeEvent s k f = .next u ∧
      u.mem = (s.setEntry (entryAddr rg m.addr) (deState (dePending (s.entry (entryAddr rg m.addr)) 0 m.requester) 4 true)).mem ∧
      u.net = (s.unpost k).net ++
        [{ src := procAgent p, dst := deOwn (s.entry (entryAddr rg m.addr)), w := forwardWords s p Ty.recall (m.blk * 64) 1 }] := by
  have hstd := stdHandler_recalls (s := s.unpost k) (j := m.jobAt p idx rg) hst howner ht
  have hwaiters := (waiters_setPend (s.unpost k) (m.jobAt p idx rg) (some (m.jobAt p idx rg).m)).trans ho.noWaiters
  have hrest := setPend_rest (s.unpost k) (m.jobAt p idx rg) (some (m.jobAt p idx rg).m)
  generalize setPend (s.unpost k) (m.jobAt p idx rg) (some (m.jobAt p idx rg).m) = v at hstd hwaiters hrest
  obtain ⟨hmem, hnet, hdev⟩ : v.mem = s.mem ∧ v.net = (s.unpost k).net ∧ v.devNum = s.devNum := by rw [hrest]; exact ⟨rfl, rfl, rfl⟩
  have hquiet : HomesQuiet v := by rw [hrest]; exact ho.quiet
  have hpost : recallTo v p (deOwn (s.entry (entryAddr rg m.addr))) (m.blk * 64) 1 =
      v.post { src := procAgent p, dst := deOwn (s.entry (entryAddr rg m.addr)), w := forwardWords s p Ty.recall (m.blk * 64) 1 } := by
    rw [recallTo, if_pos hcore, forwardWords_congr hdev]
    rfl
  obtain ⟨u, hu, ⟨humem, hunet⟩, -⟩ := homeEvent_standard ho h1 (fun _ => hfree) hf (hstd.trans (congrArg _ hpost)) hquiet hwaiters
  refine ⟨u, hu, humem.trans (setEntry_mem_congr hmem ..), hunet.trans ?_⟩
  rw [hendAck_other (j := m.jobAt p idx rg) (noPut_of_request (.inl ht)), State.post, hnet]

/-- The owner's PUTX brings the block back, and is acknowledged (R233). -/
theorem homeEvent_takesBack (hplace : place (m.blk * 64) ≠ .host) (hst : deSt (s.entry (entryAddr rg m.addr)) = 2)
    (hov : deOv (s.entry (entryAddr rg m.addr)) = true) (howner : deOwn (s.entry (entryAddr rg m.addr)) = m.src % 2 ^ 12) (ht : m.type = Ty.putx)
    (hkeep : m.w[2].getLsbD 0 = false) :
    ∃ u, homeEvent s k f = .next u ∧ Leaves u (s.updMem fun x => x.wrBlock (m.blk * 64) (m.flit.getD 0)) (replyTo (s.unpost k) p m Ty.ack 0 none)
      (entryAddr rg m.addr) (deState (deSetOwn (s.entry (entryAddr rg m.addr)) none) 0 false) ∧ u.slots = s.slots ∧ u.cores = s.cores := by
  have hstd := stdHandler_takesBack (s := s.unpost k) (j := m.jobAt p idx rg) (hostLine_of_place hplace) ho.quiet.2.2 hst hov howner ht hkeep
  refine homeEvent_leaves ho h1 hfree hf hstd ho.quiet ho.noWaiters rfl rfl rfl ?_
  rw [hendAck_put (j := m.jobAt p idx rg) (.inl ht)]
  exact replyTo_net (s := s.unpost k) (t := (s.unpost k).updMem fun x => x.wrBlock (m.blk * 64) (m.flit.getD 0)) rfl rfl ..

variable (hplace : place (m.blk * 64) ≠ .host) (he : Unheld (s.entry (entryAddr rg m.addr)))
include hplace he

section
variable (hpush : ∀ x ∈ s.net, x.type ≠ Ty.push) (hheld : (s.core (m.src % 2 ^ 12)).held = [])
include hpush hheld

/-- GETS of a block that nobody holds makes the reader a sharer, with the data (R233). -/
theorem homeEvent_shares (ht : m.type = Ty.gets) :
    ∃ u, homeEvent s k f = .next u ∧ Leaves u s (replyTo (s.unpost k) p m Ty.dataS 0 (some (s.mem.block (m.blk * 64)))) (entryAddr rg m.addr)
      (deState (deAdd (s.entry (entryAddr rg m.addr)) (m.src % 2 ^ 12)) 1 false) ∧ u.slots = s.slots ∧ u.cores = s.cores := by
  obtain ⟨u, hu, hmem, hnet, hslots, hcores, -⟩ := homeEvent_granted ho h1 (fun _ => hfree) hf
    (stdHandler_shares (s := s.unpost k) (j := m.jobAt p idx rg) he (hostLine_of_place hplace) ht)
    (grantS_eq (s := s.unpost k) (j := m.jobAt p idx rg) (noPush_unpost hpush k)) ho.quiet ho.noWaiters (noPut_of_request (.inl ht))
  exact ⟨u, hu, ⟨hmem, hnet⟩, hslots, hcores.trans (givenBlock_cores (s := s.unpost k) hheld _)⟩

/-- GETX and UPG of a block that nobody holds make the requester the owner, with the data (R233). -/
theorem homeEvent_owns (ht : m.type = Ty.getx ∨ m.type = Ty.upg) :
    ∃ u, homeEvent s k f = .next u ∧ Leaves u s (replyTo (s.unpost k) p m Ty.dataX 0 (some (s.mem.block (m.blk * 64)))) (entryAddr rg m.addr)
      (deState (deSetOwn (deClear (s.entry (entryAddr rg m.addr))) (some (m.src % 2 ^ 12))) 2 false) ∧ u.slots = s.slots ∧ u.cores = s.cores := by
  obtain ⟨u, hu, hmem, hnet, hslots, hcores, -⟩ := homeEvent_granted ho h1 (fun _ => hfree) hf
    (stdHandler_owns (s := s.unpost k) (j := m.jobAt p idx rg) he (hostLine_of_place hplace) ht)
    (grantX_eq (s := s.unpost k) (j := m.jobAt p idx rg) (noPush_unpost hpush k) ho.unwatched) ho.quiet ho.noWaiters
    (noPut_of_request (.inr (ht.imp_right .inl)))
  exact ⟨u, hu, ⟨hmem, hnet⟩, hslots, hcores.trans (givenBlock_cores (s := s.unpost k) hheld _)⟩

end

/-- An atomic on a block that nobody holds is performed (R176, R233). -/
theorem homeEvent_performs (ht : m.type = Ty.atom) (hp : poisonedBlk s m.blk = false) : let x := atomMem s.mem m.addr m.w[2].toNat m.w[3] m.w[4]
    ∃ u, homeEvent s k f = .next u ∧ Leaves u { s with mem := x.2 } (replyTo (s.unpost k) p m Ty.result (BitVec.ofNat 64 x.1) none)
      (entryAddr rg m.addr) (deState (deClear (s.entry (entryAddr rg m.addr))) 0 false) ∧ u.slots = s.slots ∧ u.cores = s.cores := by
  intro x
  have hstd := stdHandler_performs (s := s.unpost k) (j := m.jobAt p idx rg) he (hostLine_of_place hplace) ht
  have hatom : applyAtom (s.unpost k) p { m with arrived := 0 } = replyTo { s.unpost k with mem := x.2 } p m Ty.result (BitVec.ofNat 64 x.1) none :=
    applyAtom_unwatched (s := s.unpost k) (m := { m with arrived := 0 }) hp ho.quiet.2.2 ho.unwatched
  have hrest := hatom.trans (replyTo_rest ..)
  refine homeEvent_leaves ho h1 hfree hf hstd ?_ ?_ ?_ ?_ ?_ ?_
  · exact hrest ▸ ho.quiet
  · exact hrest ▸ ho.noWaiters
  · exact hrest ▸ rfl
  · exact hrest ▸ rfl
  · exact hrest ▸ rfl
  · rw [hendAck_other (j := m.jobAt p idx rg) (noPut_of_request (.inr (.inr (.inr ht))))]
    exact (congrArg State.net hatom).trans (replyTo_net (s := s.unpost k) (t := { s.unpost k with mem := x.2 }) rfl rfl ..)

end

/-! ### Answers that end a wait (R233) -/

/-- What waits at an entry has no part in what watches a port (R201, R363). -/
theorem unwatched_setPend {s : State} {j : Job} (hp : j.p < 77) (h : Unwatched s j.p) (m : Option Msg) : Unwatched (setPend s j m) j.p := by
  obtain ⟨hring, hreplay⟩ := h
  refine ⟨?_, hreplay⟩
  obtain ⟨l, hl⟩ := proc_setPend s j m
  rw [ringOn, ringOf, if_pos hp] at hring ⊢
  rwa [hl]

section
variable {s : State} {k p idx : Nat} {rg : BitVec 256} {m q : Msg} (ho : OpenAtItsHome s k p idx rg m) (h1 : rgProto rg = 1)
  (hplace : place (m.blk * 64) ≠ .host) (hq : look (entryAddr rg m.addr) (s.proc p).pend = some q) (hblk : q.blk = m.blk)
  (hpush : ∀ x ∈ s.net, x.type ≠ Ty.push) {f : Msg → Bool} (hf : f m = true)
include ho h1 hplace hq hblk hpush hf

/-- The owner's WB_DATA brings the block back, and the read that waited is granted (R233). -/
theorem homeEvent_writtenBack (ht : m.type = Ty.wbData) (hqt : q.type = Ty.gets) (hst : deSt (s.entry (entryAddr rg m.addr)) = 4)
    (hkind : deKind (s.entry (entryAddr rg m.addr)) = 0) : let t := s.updMem fun x => x.wrBlock (m.blk * 64) (m.flit.getD 0)
    let e := s.entry (entryAddr rg m.addr)
    ∃ u, homeEvent s k f = .next u ∧ Leaves u t (replyTo (s.unpost k) p q Ty.dataS 0 (some (t.mem.block (m.blk * 64)))) (entryAddr rg m.addr)
      (deAdd (deState (deAdd (dePending (deSetOwn (deClear e) none) 0 0) (q.src % 2 ^ 12)) 1 false) (deOwn e)) ∧
      (u.proc p).pend = drop (entryAddr rg m.addr) (s.proc p).pend := by
  intro t e
  have hput : putBlock (s.unpost k) (m.jobAt p idx rg) = t.unpost k := putBlock_eq ho.quiet.2.2
  have hstd := stdHandler_writtenBack (s := s.unpost k) (j := m.jobAt p idx rg) (hostLine_of_place hplace) hput ho.quiet.1 hq hqt hst hkind ht
  have hwaiters := (waiters_setPend (t.unpost k) (m.jobAt p idx rg) none).trans ho.noWaiters
  obtain ⟨u, hu, hmem, hnet, -, -, hpend⟩ := homeEvent_granted (v := setPend (t.unpost k) (m.jobAt p idx rg) none) ho h1
    (by simp [queues, ht, Ty.wbData]) hf hstd
    (grantS_eq (s := setPend (t.unpost k) (m.jobAt p idx rg) none) (j := m.jobAt p idx rg) (noPush_unpost hpush k)) ho.quiet hwaiters
    (noPut_of_answer (.inl ht))
  refine ⟨u, hu, ⟨hmem.trans (setEntry_mem_congr rfl ..), hnet.trans ?_⟩, hpend.trans (pend_setPend_none ..)⟩
  rw [hblk]
  exact replyTo_net (s := s.unpost k) (t := setPend (t.unpost k) (m.jobAt p idx rg) none) rfl rfl ..

/-- With the sharers' INV_ACK the write that waited is granted (R233). -/
theorem homeEvent_acknowledged (ht : m.type = Ty.invAck) (hqt : q.type = Ty.getx) (hst : deSt (s.entry (entryAddr rg m.addr)) = 3)
    (hkind : deKind (s.entry (entryAddr rg m.addr)) ≠ 0) : let e := s.entry (entryAddr rg m.addr)
    ∃ u, homeEvent s k f = .next u ∧ Leaves u s (replyTo (s.unpost k) p q Ty.dataX 0 (some (s.mem.block (m.blk * 64)))) (entryAddr rg m.addr)
      (deState (deSetOwn (deClear (dePending (deSetOwn (deClear (deClear e)) none) 0 0)) (some (q.src % 2 ^ 12))) 2 false) ∧
      (u.proc p).pend = drop (entryAddr rg m.addr) (s.proc p).pend := by
  intro e
  have hp := ho.proc_lt
  have hstd := stdHandler_acknowledged (s := s.unpost k) (j := m.jobAt p idx rg) (hostLine_of_place hplace) ho.quiet.1 hq hqt hst hkind ht
  have hwaiters := (waiters_setPend (s.unpost k) (m.jobAt p idx rg) none).trans ho.noWaiters
  have hwatched := unwatched_setPend (j := m.jobAt p idx rg) (show p < 77 by omega) ho.unwatched none
  obtain ⟨u, hu, hmem, hnet, -, -, hpend⟩ := homeEvent_granted (v := setPend (s.unpost k) (m.jobAt p idx rg) none) ho h1
    (by simp [queues, ht, Ty.invAck]) hf hstd
    (grantX_eq (s := setPend (s.unpost k) (m.jobAt p idx rg) none) (j := m.jobAt p idx rg) (noPush_unpost hpush k) hwatched) ho.quiet hwaiters
    (noPut_of_answer (.inr ht))
  refine ⟨u, hu, ⟨hmem.trans (setEntry_mem_congr rfl ..), hnet.trans ?_⟩, hpend.trans (pend_setPend_none ..)⟩
  rw [hblk]
  exact replyTo_net (s := s.unpost k) (t := setPend (s.unpost k) (m.jobAt p idx rg) none) rfl rfl ..

end

/-! ### Direct blocks (R231, R439) -/

theorem OnlyTraces.refl (s : State) : OnlyTraces s s := ⟨rfl, fun _ _ => rfl⟩

/-- What a port records of a put is all that its recording changes (R201, R363). -/
theorem tracePutAt_records (s : State) (p : Nat) (m : Msg) (mask : BitVec 64) : OnlyTraces s (tracePutAt s p m mask) := by
  unfold tracePutAt
  split
  · exact .refl s
  · exact OnlyTraces.tracePortBy ..

/-- A message of a custom type goes to the home it names (R209, R221). -/
theorem exec_customMessage_home {s : State} {k : Nat} {m : Msg} (hd : s.deliverable k = some m) (hdst : 0x800 ≤ m.dst) (ht : 25 ≤ m.type) :
    exec (.customMessage k) s = homeEvent s k fun _ => true := by
  change execCustomMessage k s = _
  simp [execCustomMessage, hd, Nat.not_lt.mpr hdst, ht]

/-- A message of a direct block acts at once (R231). -/
theorem homeMessage_direct {s : State} {m : Msg} (hq : HomesQuiet s) (hregion : s.regionOf m.addr = none) (hwindow : inWindow s m.addr = false) (p : Nat) :
    homeMessage s p m = some (directMessage s p m) := by
  have hbias : biasAway s m.addr = false := by simp [biasAway, hwindow]
  unfold homeMessage
  rw [takeOf_none hq.1, snoopedPage_none hq.2.1, hregion]
  simp [hbias]

theorem replyTo_posts (s : State) (p : Nat) (m : Msg) (type : Nat) (w2 : Word) (flit : Option Block) :
    ∃ l, replyTo s p m type w2 flit = { s with net := l } := ⟨_, replyTo_rest ..⟩

theorem HomesQuiet.replyTo {s : State} (h : HomesQuiet s) (p : Nat) (m : Msg) (type : Nat) (w2 : Word) (flit : Option Block) :
    HomesQuiet (Machine.replyTo s p m type w2 flit) := by
  obtain ⟨l, hl⟩ := replyTo_posts s p m type w2 flit
  rw [hl]
  exact h

/-- When a message arrived has no part in the reply to it (R215). -/
theorem replyTo_arrived (s : State) (p : Nat) (m : Msg) (n type : Nat) (w2 : Word) (flit : Option Block) :
    replyTo s p { m with arrived := n } type w2 flit = replyTo s p m type w2 flit := rfl

/-- An acknowledged put, with the bytes that it brings (R231). -/
theorem acknowledged_put {s : State} (hq : HomesQuiet s) (p : Nat) (m : Msg) (g : Memory → Memory) (mask : BitVec 64) :
    let u := replyTo (tracePutAt (s.updMem g) p m mask) p m Ty.ack 0 none
    HomesQuiet u ∧ u.mem = g s.mem ∧ u.net = (replyTo s p m Ty.ack 0 none).net := by
  have hrest := (tracePutAt_records (s.updMem g) p m mask).rest
  generalize tracePutAt (s.updMem g) p m mask = v at hrest
  have hmem : v.mem = g s.mem := by rw [hrest, State.updMem]
  have hnet : v.net = s.net := by rw [hrest, State.updMem]
  have hdev : v.devNum = s.devNum := by rw [hrest, State.updMem]
  have hquiet : HomesQuiet v := by rw [hrest]; exact hq
  exact ⟨hquiet.replyTo .., (replyTo_mem ..).trans hmem, replyTo_net hnet hdev ..⟩

theorem directMessage_putx {s : State} {m : Msg} (ht : m.type = Ty.putx) (p : Nat) : directMessage s p m =
    replyTo (tracePutAt (s.updMem fun x => x.wrBlock (m.blk * 64) (m.flit.getD 0)) p m (BitVec.allOnes 64)) p m Ty.ack 0 none := by
  simp [directMessage, ht, Ty.putx, Ty.atom]

theorem directMessage_putp {s : State} {m : Msg} (ht : m.type = Ty.putp) (p : Nat) : directMessage s p m =
    replyTo (tracePutAt (s.updMem fun x => x.wrMask (m.blk * 64) (m.flit.getD 0) m.w[2]) p m m.w[2]) p m Ty.ack 0 none := by
  simp [directMessage, ht, Ty.putx, Ty.putp, Ty.atom]

theorem directMessage_custom {s : State} {m : Msg} (ht : 25 ≤ m.type) (hl : m.lane = false) (p : Nat) :
    directMessage s p m = replyTo s p m Ty.retry 0 none := by
  have hqueues : queues m = true := by simp [queues, hl, ht]
  have hother {n : Nat} (hn : n < 25) : m.type ≠ n := by omega
  unfold directMessage
  rw [if_neg (hother (by decide)), if_neg (hother (by decide)), if_neg (hother (by decide)), if_neg (hother (by decide)), if_neg (hother (by decide)),
    if_pos hqueues]

section
variable {s : State} {k p : Nat} {m : Msg} (hr : ReachesHome s k p m) (hq : HomesQuiet s) (hregion : s.regionOf m.addr = none)
  (hwindow : inWindow s m.addr = false)
include hr hq hregion hwindow

theorem homeEvent_direct {f : Msg → Bool} (hf : f m = true) {t : State} (ht : directMessage (s.unpost k) p { m with arrived := 0 } = t) (htq : HomesQuiet t) :
    homeEvent s k f = .next t :=
  homeEvent_takes hr hf ((homeMessage_direct (s := s.unpost k) (m := { m with arrived := 0 }) hq hregion hwindow p).trans (congrArg some ht)) htq

/-- Bytes put to a direct block reach memory, and the put is acknowledged (R231, R439). -/
theorem homeEvent_put {f : Msg → Bool} (hf : f m = true) {g : Memory → Memory} {mask : BitVec 64}
    (ht : directMessage (s.unpost k) p { m with arrived := 0 } =
      replyTo (tracePutAt ((s.unpost k).updMem g) p { m with arrived := 0 } mask) p { m with arrived := 0 } Ty.ack 0 none) :
    ∃ u, homeEvent s k f = .next u ∧ u.mem = g s.mem ∧ u.net = (replyTo (s.unpost k) p m Ty.ack 0 none).net := by
  obtain ⟨hquiet, hmem, hnet⟩ := acknowledged_put (s := s.unpost k) hq p { m with arrived := 0 } g mask
  exact ⟨_, homeEvent_direct hr hq hregion hwindow hf ht hquiet, hmem, hnet⟩

/-- An atomic on a direct block is performed (R176, R231). -/
theorem homeEvent_directAtom {f : Msg → Bool} (hf : f m = true) (ht : m.type = Ty.atom) (hp : poisonedBlk s m.blk = false) (hw : Unwatched s p) :
    let x := atomMem s.mem m.addr m.w[2].toNat m.w[3] m.w[4]
    ∃ u, homeEvent s k f = .next u ∧ u.mem = x.2 ∧ u.net = (replyTo (s.unpost k) p m Ty.result (BitVec.ofNat 64 x.1) none).net := by
  intro x
  have hatom : applyAtom (s.unpost k) p { m with arrived := 0 } = replyTo { s.unpost k with mem := x.2 } p m Ty.result (BitVec.ofNat 64 x.1) none :=
    applyAtom_unwatched (s := s.unpost k) (m := { m with arrived := 0 }) hp hq.2.2 hw
  have hdirect : directMessage (s.unpost k) p { m with arrived := 0 } = _ := (if_pos ht).trans hatom
  have hquiet : HomesQuiet { s.unpost k with mem := x.2 } := hq
  exact ⟨_, homeEvent_direct hr hq hregion hwindow hf hdirect (hquiet.replyTo ..), replyTo_mem ..,
    replyTo_net (s := s.unpost k) (t := { s.unpost k with mem := x.2 }) rfl rfl ..⟩

/-- A custom message to a direct block is told to come back (R231). -/
theorem exec_customMessage_direct (ht : 25 ≤ m.type) (hl : m.lane = false) :
    exec (.customMessage k) s = .next (replyTo (s.unpost k) p m Ty.retry 0 none) := by
  have hdirect := directMessage_custom (s := s.unpost k) (m := { m with arrived := 0 }) ht hl p
  have hquiet : HomesQuiet (s.unpost k) := hq
  have hevent := homeEvent_direct (f := fun _ => true) hr hq hregion hwindow rfl hdirect (hquiet.replyTo ..)
  rw [replyTo_arrived] at hevent
  exact (exec_customMessage_home hr.1 (by rw [hr.2.1]; omega) ht).trans hevent

end

/-! ### A request that waits (R231) -/

section
variable {s : State} {k p idx : Nat} {rg : BitVec 256} {m : Msg}

/-- A message for an entry in progress waits, and is told so with BUSY (R231). -/
theorem homeMessage_waits (h : MeetsItsEntry s p idx rg m) (hqueues : queues m = true) (htr : deTr (s.entry (entryAddr rg m.addr)) = true)
    (hq : HomesQuiet s) : ∃ t, homeMessage s p m = some t ∧ HomesQuiet t ∧ (t.proc p).waiters = [m] ∧
      t.net = (replyTo s p m Ty.busy 0 none).net ∧ t.mem = s.mem := by
  have hqueue : (queues m && deTr (s.entry (entryAddr rg m.addr))) = true := by rw [hqueues, htr]; rfl
  obtain ⟨l, hl⟩ := replyTo_posts (s.updProc p fun q => { q with waiters := q.waiters ++ [m] }) p m Ty.busy 0 none
  have hnet := replyTo_net (s := s) (t := s.updProc p fun q => { q with waiters := q.waiters ++ [m] }) rfl rfl p m Ty.busy 0 none
  refine ⟨_, h.homeMessage_eq.trans (if_pos hqueue), ?_⟩
  rw [hl] at hnet ⊢
  obtain ⟨l', hl'⟩ := proc_watch { s.updProc p fun q => { q with waiters := q.waiters ++ [m] } with net := l } p (entryAddr rg m.addr) rg
  refine ⟨hq, ?_, hnet, rfl⟩
  have hproc := State.proc_updProc_self s p fun q => { q with waiters := q.waiters ++ [m] }
  rw [hl']
  change ((s.updProc p fun q => { q with waiters := q.waiters ++ [m] }).proc p).waiters = [m]
  rw [hproc, h.waiters, List.nil_append]

end

/-! ### The start of a loaded handler (R221, R223) -/

/-- The scalar registers that a handler starts with (R221). -/
def handlerRegs (s : State) (j : Job) (t : Nat) : Vector Word 32 :=
  let v := (List.finRange 8).foldl (fun (v : Vector Word 32) i => v.set (4 + i.val) j.m.w[i] (by omega)) (Vector.replicate 32 (0 : Word))
  ((((((v.set 3 (BitVec.ofNat 64 j.idx)).set 12 (s.entry j.ea).1).set 13 (s.entry j.ea).2).set 14 (rgParm j.rg)).set 15 (BitVec.ofNat 64 j.pa)).set 16
    (BitVec.ofNat 64 (0x7C00 + 64 * slotOf t))).set 17 (BitVec.ofNat 64 j.m.requester)

/-- The slot that a handler starts in (R221). -/
def handlerStart (s : State) (j : Job) (t entry : Nat) : Slot :=
  { s := handlerRegs s j t, pc := BitVec.ofNat 64 (entry * 4), mode := .h, run := .active,
    handler := some { msg := j.m, region := j.idx, proto := rgProto j.rg, entryAddr := j.ea } }

/-- A handler's start sets its slot, and the buffer of its processor (R221). -/
theorem startHandler_sets (s : State) (j : Job) (t entry : Nat) :
    ∃ l, startHandler s j t entry = { s.setSlot t (handlerStart s j t entry) with procs := l } := by
  unfold startHandler
  dsimp only
  split
  · exact ⟨_, rfl⟩
  · exact ⟨_, rfl⟩

/-- The message's words start in s4 to s11 (R221). -/
theorem handlerRegs_word (s : State) (j : Job) (t : Nat) (i : Fin 8) : (handlerRegs s j t)[4 + i.val] = j.m.w[i] := by
  fin_cases i <;> simp [handlerRegs, List.finRange_succ]

theorem handlerRegs_rest (s : State) (j : Job) (t : Nat) : let v := handlerRegs s j t
    v[3] = BitVec.ofNat 64 j.idx ∧ v[12] = (s.entry j.ea).1 ∧ v[13] = (s.entry j.ea).2 ∧ v[14] = rgParm j.rg ∧ v[15] = BitVec.ofNat 64 j.pa ∧
      v[16] = BitVec.ofNat 64 (0x7C00 + 64 * slotOf t) ∧ v[17] = BitVec.ofNat 64 j.m.requester := by
  simp [handlerRegs]

theorem rs_handlerStart (s : State) (j : Job) (t entry : Nat) {n : Nat} (h0 : n ≠ 0) (hn : n < 32) :
    (handlerStart s j t entry).rs (reg n) = (handlerRegs s j t)[n] := by
  have hr : reg n ≠ 0 := fun h => h0 ((Nat.mod_eq_of_lt hn).symm.trans (congrArg Fin.val h))
  have hval : (reg n).val = n := Nat.mod_eq_of_lt hn
  rw [Slot.rs, if_neg hr]
  simp only [handlerStart, Fin.getElem_fin, hval]

theorem slotOf_threadOf (a : Nat) {i : Nat} (hi : i < 16) : slotOf (threadOf a i) = i := by
  unfold slotOf threadOf
  omega

/-- A request's handler starts in slot 4, where that is idle (R223). -/
theorem handlerSlot_request {s : State} {p : Nat} (h : (s.slot (threadOf (0x800 + p) 4)).run = .idle) :
    handlerSlot s p false = some (threadOf (0x800 + p) 4) := by
  unfold handlerSlot State.slotsWhere procAgent
  rw [List.find?_filter, List.find?_map]
  simp [List.range_succ, slotOf_threadOf, h]

theorem repliesFirst_none {s : State} (h : ∀ x ∈ s.net, x.arrived = 0) (p : Nat) : repliesFirst s p = false := by
  rw [repliesFirst, List.any_eq_false]
  intro x hx
  simp [h x hx]

/-- A request of a loadable protocol starts its handler, where the table has one and slot 4 is idle (R221, R223). -/
theorem dispatch_starts {s : State} {j : Job} (h16 : 16 ≤ rgProto j.rg) {d : BitVec 32} (hd : look (32 * rgProto j.rg + j.m.type) (s.proc j.p).dtab = some d)
    (hvalid : d.getLsbD 0 = true) (hlane : j.m.lane = false) (hidle : (s.slot (threadOf (0x800 + j.p) 4)).run = .idle) :
    dispatch s j = some (startHandler s j (threadOf (0x800 + j.p) 4) (fld d.toNat 2 14)) := by
  have hlt : ¬ rgProto j.rg < 16 := by omega
  simp [dispatch, hlt, hd, hvalid, hlane, handlerSlot_request hidle]

/-- What a handler's start leaves as it was, and the slot that it sets (R221). -/
theorem startHandler_slot (s : State) (j : Job) (t entry : Nat) : (startHandler s j t entry).slot t = handlerStart s j t entry := by
  obtain ⟨l, hl⟩ := startHandler_sets s j t entry
  rw [hl]
  exact State.slot_setSlot_self ..

theorem startHandler_slot_ne (s : State) (j : Job) {t v : Nat} (h : v ≠ t) (entry : Nat) : (startHandler s j t entry).slot v = s.slot v := by
  obtain ⟨l, hl⟩ := startHandler_sets s j t entry
  rw [hl]
  exact State.slot_setSlot_ne s h _

/-- A custom message to a region of a loadable protocol starts its handler (R221, R223). -/
theorem exec_customMessage_starts {s : State} {k p idx : Nat} {rg : BitVec 256} {m : Msg} {d : BitVec 32} (h : AtItsHome s k p idx rg m)
    (h16 : 16 ≤ rgProto rg) (ht : 25 ≤ m.type) (hlane : m.lane = false) (hnew : ∀ x ∈ s.net, x.arrived = 0)
    (hidle : (s.slot (threadOf (0x800 + p) 4)).run = .idle) (hd : look (32 * rgProto rg + m.type) (s.proc p).dtab = some d) (hvalid : d.getLsbD 0 = true) :
    exec (.customMessage k) s = .next (startHandler (s.unpost k) (m.jobAt p idx rg) (threadOf (0x800 + p) 4) (fld d.toNat 2 14)) := by
  obtain ⟨ho, htr⟩ := h
  have hmeets := ho.meets (by omega)
  have hdispatch : dispatch (s.unpost k) (m.jobAt p idx rg) = some _ := dispatch_starts (s := s.unpost k) (j := m.jobAt p idx rg) h16 hd hvalid hlane hidle
  have hqueue : ¬ (queues { m with arrived := 0 } && deTr ((s.unpost k).entry (entryAddr rg m.addr))) = true := by
    rw [Bool.and_eq_true]
    rintro ⟨-, htr'⟩
    exact Bool.false_ne_true (htr.symm.trans htr')
  have hreplies : ¬ (!({ m with arrived := 0 } : Msg).lane && decide (16 ≤ rgProto rg) && repliesFirst (s.unpost k) p) = true := by
    rw [repliesFirst_none (s := s.unpost k) (fun x hx => hnew x (List.mem_of_mem_eraseIdx hx)), Bool.and_false]
    exact Bool.false_ne_true
  have hmessage : homeMessage (s.unpost k) p { m with arrived := 0 } = some _ :=
    hmeets.homeMessage_eq.trans ((if_neg hqueue).trans ((if_neg hreplies).trans ((congrArg _ hdispatch).trans (congrArg some (if_neg (by omega))))))
  have hquiet : HomesQuiet (startHandler (s.unpost k) (m.jobAt p idx rg) (threadOf (0x800 + p) 4) (fld d.toNat 2 14)) := by
    obtain ⟨l, hl⟩ := startHandler_sets (s.unpost k) (m.jobAt p idx rg) (threadOf (0x800 + p) 4) (fld d.toNat 2 14)
    rw [hl]
    exact ho.quiet
  have hdst : 0x800 ≤ m.dst := by rw [ho.1.2.1]; omega
  exact (exec_customMessage_home ho.1.1 hdst ht).trans (homeEvent_takes ho.1 rfl hmessage hquiet)

/-! ### Watchdogs (R224, R228, R230) -/

/-- A handler that has used its steps is aborted (R224). -/
theorem exec_handlerWatchdog {s : State} {t : Nat} {h : HCtx} (hcore : onCore t = false) (hh : (s.slot t).handler = some h)
    (hsteps : stepLimit s (agentOf t - 0x800) h ≤ h.steps) :
    exec (.handlerWatchdog t) s = .next (settleHome (wakeProc (abortHandler s t .watchdog) (agentOf t - 0x800))) := by
  change execHandlerWatchdog t s = _
  simp [execHandlerWatchdog, outOfSteps, hcore, hh, hsteps]

/-- Between two states neither the region table nor the time changes. -/
def SameRegionsAndTime (s u : State) : Prop := u.regions = s.regions ∧ u.time = s.time

namespace SameRegionsAndTime

theorem trans {s u v : State} (h : SameRegionsAndTime s u) (h' : SameRegionsAndTime u v) : SameRegionsAndTime s v :=
  ⟨h'.1.trans h.1, h'.2.trans h.2⟩

theorem foldl {α : Type} {f : State → α → State} (h : ∀ s x, SameRegionsAndTime s (f s x)) (l : List α) (s : State) :
    SameRegionsAndTime s (l.foldl f s) :=
  List.foldlRecOn l f ⟨rfl, rfl⟩ fun u hu x _ => hu.trans (h u x)

theorem failWaiters (s : State) (idx : Nat) : SameRegionsAndTime s (Machine.failWaiters s idx) := by
  refine foldl (fun u q => ?_) _ _
  dsimp only
  exact trans (u := u.updProc q.1 _) ⟨rfl, rfl⟩ (foldl (f := fun s m => failReply s q.1 m .protocolFail) (fun _ _ => ⟨rfl, rfl⟩) _ _)

theorem hostEvent_pf (s : State) (type status tag : Nat) (ws : List Word) : SameRegionsAndTime s (s.hostEvent none type status tag ws) := by
  unfold State.hostEvent State.ringWrite
  dsimp only
  split <;> exact ⟨rfl, rfl⟩

end SameRegionsAndTime

/-- A region that fails is marked, at no cost in time (R228). -/
theorem failRegion_marks (s : State) (p idx : Nat) (cause : Cause) (pcWord : Nat) :
    let u := failRegion s p idx cause pcWord
    (u.region idx).getLsbD 129 = true ∧ u.time = s.time := by
  intro u
  let s1 : State := { s with regions := put idx (s.region idx ||| 1 <<< 129) s.regions }
  let s2 := s1.updProc p fun q => { q with hdAbort := abortWord q.hdAbort cause.toNat idx pcWord }
  obtain ⟨hregions, htime⟩ : SameRegionsAndTime s2 u := .trans (.failWaiters s2 idx) (.hostEvent_pf ..)
  refine ⟨?_, htime⟩
  have hregions : u.regions = put idx (s.region idx ||| 1 <<< 129) s.regions := hregions
  rw [State.region, hregions, look_put_self]
  simp

/-- An entry that stays transient with waiters past the limit fails its region (R230). -/
theorem exec_transientWatchdog {s : State} {p blk idx : Nat} {rg : BitVec 256} {t0 : Nat} (hregion : s.regionOf (blk * 64) = some (idx, rg))
    (hsince : look (entryAddr rg (blk * 64)) (s.proc p).since = some t0) (htr : deTr (s.entry (entryAddr rg (blk * 64))) = true)
    (hw : hasWaiters s p (entryAddr rg (blk * 64)) = true) :
    ∃ u, exec (.transientWatchdog p blk) s = .next u ∧ t0 + 2 ^ 24 < u.time ∧ (u.region idx).getLsbD 129 = true := by
  have hboth : (deTr (s.entry (entryAddr rg (blk * 64))) && hasWaiters s p (entryAddr rg (blk * 64))) = true := by rw [htr, hw]; rfl
  let s1 := ({ s with time := Nat.max s.time (t0 + 2 ^ 24 + 1) } : State).updProc p fun q => { q with since := drop (entryAddr rg (blk * 64)) q.since }
  obtain ⟨hmark, htime⟩ := failRegion_marks s1 p idx .watchdog 0
  have hexec : exec (.transientWatchdog p blk) s = .next (failRegion s1 p idx .watchdog 0) := by
    change execTransientWatchdog p blk s = _
    unfold execTransientWatchdog
    rw [hregion]
    dsimp only
    rw [hsince]
    exact if_pos hboth
  refine ⟨_, hexec, ?_, hmark⟩
  rw [htime]
  exact Nat.le_max_right s.time (t0 + 2 ^ 24 + 1)

section
variable {s : State} {k p idx : Nat} {rg : BitVec 256} {m : Msg}

/-- A read meets an entry in progress (R231). -/
theorem exec_gets_waits (hr : ReachesHome s k p m) (hq : HomesQuiet s) (hregion : s.regionOf m.addr = some (idx, rg)) (hfail : rgFail rg = false)
    (hp : p < 48) (h1 : rgProto rg = 1) (hwaiters : (s.proc p).waiters = [])
    (hhandlers : ∀ i, i < 16 → (s.slot (threadOf (0x800 + p) i)).handler = none) (htr : deTr (s.entry (entryAddr rg m.addr)) = true)
    (hlane : m.lane = false) (ht : m.type = Ty.gets) :
    ∃ u, exec (.gets k) s = .next u ∧ (u.proc p).waiters = [{ m with arrived := 0 }] ∧ u.net = (replyTo (s.unpost k) p m Ty.busy 0 none).net ∧
      u.mem = s.mem := by
  have hmeets : MeetsItsEntry (s.unpost k) p idx rg { m with arrived := 0 } :=
    ⟨hq.1, hq.2.1, hregion, hfail, by omega, hp, hwaiters, hhandlers⟩
  have hqueues : queues m = true := by simp [queues, hlane, ht, Ty.gets]
  obtain ⟨t, hmessage, hquiet, hwait, hnet, hmem⟩ := homeMessage_waits hmeets hqueues htr hq
  exact ⟨t, homeEvent_takes hr (decide_eq_true ht) hmessage hquiet, hwait, hnet, hmem⟩

/-- The state in which a loaded handler starts (R221). -/
theorem startHandler_starts (n : State) (j : Job) (t entry : Nat) (hslot : slotOf t = 4) : let u := startHandler n j t entry
    u.mem = n.mem ∧ u.net = n.net ∧ u.cores = n.cores ∧ (∀ v, v ≠ t → u.slot v = n.slot v) ∧
      let x := u.slot t
      x.mode = .h ∧ x.run = .active ∧ x.pc = BitVec.ofNat 64 (entry * 4) ∧
      x.handler = some { msg := j.m, region := j.idx, proto := rgProto j.rg, entryAddr := j.ea } ∧
      x.rs 3 = BitVec.ofNat 64 j.idx ∧ (∀ i : Fin 8, x.rs (reg (4 + i.val)) = j.m.w[i]) ∧ x.rs 12 = (n.entry j.ea).1 ∧ x.rs 13 = (n.entry j.ea).2 ∧
      x.rs 14 = rgParm j.rg ∧ x.rs 15 = BitVec.ofNat 64 j.pa ∧ x.rs 16 = 0x7D00 ∧ x.rs 17 = BitVec.ofNat 64 j.m.requester := by
  intro u
  obtain ⟨l, hl⟩ := startHandler_sets n j t entry
  have hu : u = { n.setSlot t (handlerStart n j t entry) with procs := l } := hl
  refine ⟨by rw [hu, State.setSlot], by rw [hu, State.setSlot], by rw [hu, State.setSlot], fun v hv => startHandler_slot_ne n j hv entry, ?_⟩
  have hrs {i : Nat} (h0 : i ≠ 0) (hi : i < 32) : (u.slot t).rs (reg i) = (handlerRegs n j t)[i] := by
    rw [startHandler_slot]
    exact rs_handlerStart n j t entry h0 hi
  obtain ⟨h3, h12, h13, h14, h15, h16, h17⟩ := handlerRegs_rest n j t
  rw [hslot] at h16
  refine ⟨?_, ?_, ?_, ?_, (hrs (by decide) (by decide)).trans h3, fun i => (hrs (by omega) (by omega)).trans (handlerRegs_word n j t i),
    (hrs (by decide) (by decide)).trans h12, (hrs (by decide) (by decide)).trans h13, (hrs (by decide) (by decide)).trans h14,
    (hrs (by decide) (by decide)).trans h15, (hrs (by decide) (by decide)).trans h16, (hrs (by decide) (by decide)).trans h17⟩
  all_goals rw [startHandler_slot]; rfl

end

/-- Settles O42: by the steps of a message at its home, the handler of an invalidate region, the acts of a direct block, the waiting and the start of a
handler, and the watchdogs, each a lemma above. -/
theorem homeRequests : Obligations.HomeRequests := by
  unfold Obligations.HomeRequests
  refine ⟨?_, ?_, ?_, ?_, ?_, ?_⟩
  · rintro s k p idx rg m ea e who n ⟨ho, htr⟩ h1 hplace leaves block quiet
    have hf {c : Nat} (h : m.type = c) : decide (m.type = c) = true := decide_eq_true h
    refine ⟨fun he => ⟨?_, ?_, ?_, ?_, ?_, ?_, ?_, ?_⟩, fun hst hov => ⟨?_, ?_⟩⟩
    · exact fun hq ht => homeEvent_shares ho h1 htr (hf ht) hplace he hq.1 hq.2 ht
    · exact fun hq ht => homeEvent_owns ho h1 htr (hf ht) hplace he hq.1 hq.2 (.inl ht)
    · exact fun hq ht => homeEvent_owns ho h1 htr (hf ht) hplace he hq.1 hq.2 (.inr ht)
    · exact fun ht hp => homeEvent_performs ho h1 htr (hf ht) hplace he ht hp
    · exact fun ht => homeEvent_stalePut ho h1 htr (hf ht) he (.inl ht)
    · exact fun ht => homeEvent_stalePut ho h1 htr (hf ht) he (.inr ht)
    · exact fun ht => homeEvent_staleAnswer ho h1 htr (hf ht) he (.inl ht)
    · exact fun ht => homeEvent_staleAnswer ho h1 htr (hf ht) he (.inr ht)
    · exact fun howner hcore ht => homeEvent_recalls ho h1 htr (hf ht) hst howner hcore ht
    · exact fun howner ht hkeep => homeEvent_takesBack ho h1 htr (hf ht) hplace hst hov howner ht hkeep
  · intro s k p m n pa hr hq hregion hwindow
    refine ⟨fun ht => ?_, fun ht => ?_, fun ht hp hw => ?_, fun ht hl => ?_⟩
    · exact homeEvent_put hr hq hregion hwindow (decide_eq_true ht) (directMessage_putp (s := n) (m := { m with arrived := 0 }) ht p)
    · exact homeEvent_put hr hq hregion hwindow (decide_eq_true ht) (directMessage_putx (s := n) (m := { m with arrived := 0 }) ht p)
    · exact homeEvent_directAtom hr hq hregion hwindow (decide_eq_true ht) ht hp hw
    · exact exec_customMessage_direct hr hq hregion hwindow ht hl
  · intro s k p idx rg m hr hq hregion hfail _ hp h1 hwaiters hhandlers htr hlane ht
    exact exec_gets_waits hr hq hregion hfail hp h1 hwaiters hhandlers htr hlane ht
  · intro s k p idx rg m q ea e who n ho h1 hplace hq hblk hpush ends
    refine ⟨fun ht hqt hst hkind => ?_, fun ht hqt hst hkind => ?_⟩
    · exact homeEvent_writtenBack ho h1 hplace hq hblk hpush (decide_eq_true ht) ht hqt hst hkind
    · exact homeEvent_acknowledged ho h1 hplace hq hblk hpush (decide_eq_true ht) ht hqt hst hkind
  · intro s k p idx rg m d ea e t h h16 ht hlane hnew hidle hd hvalid
    exact ⟨_, exec_customMessage_starts h h16 ht hlane hnew hidle hd hvalid,
      startHandler_starts (s.unpost k) (m.jobAt p idx rg) t _ (slotOf_threadOf (0x800 + p) (by decide))⟩
  · intro s t p blk h
    refine ⟨exec_handlerWatchdog, fun idx rg t0 hregion hsince htr hw => ?_⟩
    exact exec_transientWatchdog hregion hsince htr hw

end Sys2Proof.Machine
end
